-- ==== Sys2Proof/Word.lean ====
section
/-! DEFINITION. The word types of the W1400: what the manual treats as bits. -/

namespace Sys2Proof

/-- One byte of a memory of the module (R14: every multi-byte field is little-endian). -/
abbrev Byte := BitVec 8

/-- A scalar register X0 to X31 of a thread, and one 32-bit lane of a vector register (R195). -/
abbrev Word := BitVec 32

/-- A value written to, or read from, a register of BAR0. -/
abbrev Reg64 := BitVec 64

/-- A 32-byte digest or measurement (R235, R526). -/
abbrev Digest := BitVec 256

end Sys2Proof
end

