-- ==== Sys2Proof/Machine/Map.lean ====
section
/-! DEFINITION. Sparse data by key, in one canonical form: a list of (key, value) pairs with strictly rising keys,
and, for the memories, no entry equal to what an unlisted key reads as. -/

namespace Sys2Proof.Machine

/-- Sparse data keyed by a number. -/
abbrev KMap (α : Type) := List (Nat × α)

/-- The value listed at a key. -/
def kget? {α : Type} : KMap α → Nat → Option α
  | [], _ => none
  | (k', v) :: t, k => if k' = k then some v else kget? t k

/-- The value at a key, `d` where none is listed. -/
def kgetD {α : Type} (d : α) (m : KMap α) (k : Nat) : α := (kget? m k).getD d

/-- The map with nothing listed at `k`. -/
def kdel {α : Type} (m : KMap α) (k : Nat) : KMap α := m.filter (fun p => p.1 ≠ k)

/-- Insertion before the first larger key. -/
def kins {α : Type} (k : Nat) (v : α) : KMap α → KMap α
  | [] => [(k, v)]
  | p :: t => if k < p.1 then (k, v) :: p :: t else p :: kins k v t

/-- The map with `v` listed at `k`. -/
def kput {α : Type} (m : KMap α) (k : Nat) (v : α) : KMap α := kins k v (kdel m k)

/-- The map in which `k` reads as `v`: the default `d` is never listed. -/
def kset {α : Type} [DecidableEq α] (d : α) (m : KMap α) (k : Nat) (v : α) : KMap α :=
  if v = d then kdel m k else kput m k v

/-- The map with the value at `k` changed by `f`. -/
def kmod {α : Type} (d : α) (m : KMap α) (k : Nat) (f : α → α) : KMap α := kput m k (f (kgetD d m k))

/-- The map with the value listed at `k`, if one is, changed by `f`. -/
def kupd {α : Type} (m : KMap α) (k : Nat) (f : α → α) : KMap α :=
  match kget? m k with
  | some v => kput m k (f v)
  | none => m

/-- Every listed value changed by a function of its key. -/
def kmapv {α : Type} (f : Nat → α → α) (m : KMap α) : KMap α := m.map (fun p => (p.1, f p.1 p.2))

/-- Keys strictly rising. -/
def ksorted {α : Type} : KMap α → Bool
  | [] => true
  | [_] => true
  | p :: q :: t => p.1 < q.1 && ksorted (q :: t)

/-- A memory: a list of (address, byte) pairs. -/
abbrev Memory := List (Nat × Byte)

/-- What an unlisted address of a memory reads as: the loader zeroes SRAM before a program runs (R249), and a tile
of Terourn space that nothing has written reads as zero (R273). -/
def Memory.unlisted : Byte := 0

/-- The canonical form of a memory: addresses strictly rising, and no entry equal to what an unlisted address
reads as. -/
def Memory.wf (m : Memory) : Bool := ksorted m && m.all (fun p => p.2 ≠ Memory.unlisted)

/-- One byte of a memory. -/
def readByte (m : Memory) (a : Nat) : Byte := kgetD Memory.unlisted m a

/-- One byte written: the canonical form is kept. -/
def writeByte (m : Memory) (a : Nat) (v : Byte) : Memory := kset Memory.unlisted m a v

/-- The bytes at `a` to `a + n - 1`, from the cells listed in that range. -/
def fillCells : Memory → (a : Nat) → (n : Nat) → List Byte
  | _, _, 0 => []
  | [], a, n + 1 => Memory.unlisted :: fillCells [] (a + 1) n
  | p :: t, a, n + 1 => if p.1 = a then p.2 :: fillCells t (a + 1) n else Memory.unlisted :: fillCells (p :: t) (a + 1) n

/-- The cells of a memory in [a, a + n). -/
def Memory.between (m : Memory) (a n : Nat) : Memory := m.filter (fun p => a ≤ p.1 && p.1 < a + n)

/-- Consecutive bytes of a memory. -/
def readBytes (m : Memory) (a n : Nat) : List Byte := fillCells (m.between a n) a n

/-- The cells that consecutive bytes list, the first at `a`. -/
def listCells : (a : Nat) → List Byte → Memory
  | _, [] => []
  | a, b :: bs => if b = Memory.unlisted then listCells (a + 1) bs else (a, b) :: listCells (a + 1) bs

/-- Consecutive bytes written, the first at `a`: the cells below, the new ones, and the cells above. -/
def writeBytes (m : Memory) (a : Nat) (bs : List Byte) : Memory :=
  m.filter (fun p => p.1 < a) ++ (listCells a bs ++ m.filter (fun p => a + bs.length ≤ p.1))

/-- A little-endian field of `n` bytes of a memory. -/
def readLE (m : Memory) (a n : Nat) : Nat :=
  match n with
  | 0 => 0
  | n + 1 => (readByte m a).toNat + 256 * readLE m (a + 1) n

/-- A field of `n` bytes written in little-endian order (R14). -/
def writeLE : (m : Memory) → (a n x : Nat) → Memory
  | m, _, 0, _ => m
  | m, a, n + 1, x => writeLE (writeByte m a (BitVec.ofNat 8 x)) (a + 1) n (x / 256)

/-- The listed bytes in [a, a + n) removed, so that they read as unlisted. -/
def clearBytes (m : Memory) (a n : Nat) : Memory := m.filter (fun p => p.1 < a || a + n ≤ p.1)

end Sys2Proof.Machine
end

