-- ==== Sys2Proof/Machine/CoreState.lean ====
section
/-! DEFINITION. The state of one core: SRAM, threads, semaphores, engine, carry buffer, endpoints, windows, request
ports and its share of the router (chapters 03, 05, 06, 09). -/

namespace Sys2Proof.Machine

/-- The state of a thread (R195). -/
inductive ThreadState where
  | idle | ready | waiting | halted
deriving DecidableEq, Repr

/-- One hardware thread (R195): unlisted registers and lanes hold 0. X0 is never listed. Lane i of Vn has key
64 n + i. -/
structure Thread where
  st : ThreadState := .idle
  pc : Nat := 0
  x : KMap Word := []
  v : KMap Word := []
deriving DecidableEq, Repr

/-- The state of a carry slot (R119). -/
inductive CarryState where
  | empty | filling | full | draining
deriving DecidableEq, Repr

/-- One carry slot of 4 KiB (R119): state, the tile's tag word and its bytes. A tile of ACC128 has its first 4 KiB in
the first of its four slots, and so on. -/
structure CarrySlot where
  st : CarryState := .empty
  tag : Nat := 0
  bytes : Memory := []
deriving DecidableEq, Repr

/-- One cell's register of one set (R98, R167, R172): the element code, the K index within the set that it stands for (the array row of a
dense tile, 4 g + selector for 2:4, the 6-bit index of a bitmap operand), and the lane whose sum its product enters: its own column,
or the neighbour to which its owner bit lends it. -/
structure SetCell where
  code : Nat := 0
  k : Nat := 0
  lane : Nat := 0
deriving DecidableEq, Repr

/-- One set of stationary registers (R98): the cells by 33 × physical row + physical column (R111), one not listed holding nothing that
counts; the scale bytes by K-block and column; and whether the set is completely loaded. -/
structure StationarySet where
  cells : KMap SetCell := []
  scales : List Nat := []
  loaded : Bool := false
deriving DecidableEq, Repr

/-- The engine (R98, R103, R107): which set is active, both sets, whether the last row of the current pass has
entered, whether the first stationary tile of the TMM at the head of the queue is loaded, which accumulator half the next TMM
uses, and the two halves in row order. -/
structure Engine where
  activeB : Bool := false
  setA : StationarySet := {}
  setB : StationarySet := {}
  lastRowIn : Bool := true
  primed : Bool := false
  nextHalf1 : Bool := false
  half0 : List Nat := []
  half1 : List Nat := []
deriving DecidableEq, Repr

/-- Repair state of one engine (R111 to R113, R122). -/
structure Repair where
  rowSkip : Nat := 32
  colSkip : Nat := 32
  rowField : Bool := false
  colField : Bool := false
  usable : Bool := true
deriving DecidableEq, Repr

/-- How an engine uses its physical array (R111, R114): the skipped row and column, and the masks of reduced-array mode, 0 out of it. -/
structure ArrayUse where
  rowSkip : Nat := 32
  colSkip : Nat := 32
  rowMask : Nat := 0
  colMask : Nat := 0
deriving DecidableEq, Repr

/-- Bytes of SRAM that an instruction reads or writes: [lo, hi) (R139, R156). -/
structure Span where
  lo : Nat := 0
  hi : Nat := 0
  write : Bool := false
deriving DecidableEq, Repr

/-- An instruction that a thread has issued and that waits in the queue of the engine or the vector unit (R138, R196): its thread, pc, word,
the scalar registers as latched at issue (R128), and the bytes it reads and writes. -/
structure Issued where
  thread : Nat := 0
  pc : Nat := 0
  word : Nat := 0
  x : KMap Word := []
  spans : List Span := []
deriving DecidableEq, Repr

/-- What the jig's CORE_IMAGE fixes for a core (R248): the regions that no instruction writes, thread enables and
starts, semaphore values, and the list regions by address. -/
structure Image where
  threadEn : Nat := 0
  progBase : Nat := 0
  progLen : Nat := 0
  descBase : Nat := 0
  starts : List Nat := []
  semInit : List Nat := []
  lists : List Nat := []
deriving DecidableEq, Repr

/-- The wire form of an endpoint (R214). -/
inductive Wire where
  | data | redFp32 | redExact
deriving DecidableEq, Repr

/-- One endpoint (R214 to R218) with its counts: credits of a send entry, the next buffer to fill or to send, buffers
ready (send) or delivered and unreleased (receive), the next buffer to release, SEQ counts of packets and of CREDIT
packets sent, the next SEQ expected, and the threads that marked the ready buffers, oldest first (R216). -/
structure Endpoint where
  route : Nat := 0
  recv : Bool := false
  pktM1 : Nat := 0
  wire : Wire := .data
  ringBase : Nat := 0
  ringPkts : Nat := 1
  creditRoute : Nat := 0
  creditsInit : Nat := 0
  tagBase : Nat := 0
  credits : Nat := 0
  nextBuf : Nat := 0
  count : Nat := 0
  nextRel : Nat := 0
  seq : Nat := 0
  seqCredit : Nat := 0
  expect : Nat := 0
  marks : List Nat := []
deriving DecidableEq, Repr

/-- The state of a window slot (R323). -/
inductive WinSlotState where
  | free | pulled | full | veneer
deriving DecidableEq, Repr

/-- One slot of a layer window: its state, the table layer and STEP it was assigned, the units that fill it (the pull's,
or the veneer's after a SWITCH), the units arrived, the sk its deadline timer runs from, whether it has missed, and the
SWITCH received: units of the layer sent and COMPLETE (R323, R334, R336). -/
structure WinSlot where
  st : WinSlotState := .free
  layer : Nat := 0
  step : Nat := 0
  units : Nat := 0
  arrived : Nat := 0
  timer : Option Nat := none
  missed : Bool := false
  sw : Option (Nat × Bool) := none
deriving DecidableEq, Repr

/-- A pull whose units a window awaits (R327, R336): its slot, table layer and step, the units that are to come, those that have, and whether
they are the veneer's. -/
structure Fill where
  slot : Nat := 0
  layer : Nat := 0
  step : Nat := 0
  units : Nat := 0
  got : Nat := 0
  veneer : Bool := false
deriving DecidableEq, Repr

/-- One layer window (R317, R323, R437), `entry` its index in the jig. `fills` holds the pulls whose units are still to come, in pull order. `oldest` is the slot released next, `next` the slot assigned next; `waiting`
holds the PULL messages not yet forwarded, and `cont` says that the last one forwarded has more to follow (R326). -/
structure Window where
  entry : Nat := 0
  tail : Bool := false
  feeder : Nat := 0
  flow : Nat := 0
  member : Nat := 0
  dataRoute : Nat := 0
  pullOut : Nat := 0
  pullIn : Nat := 0
  slotBase : Nat := 0
  slotUnits : Nat := 1
  nslots : Nat := 3
  listAddr : Nat := 0
  listValid : Bool := false
  slots : KMap WinSlot := []
  next : Nat := 0
  oldest : Nat := 0
  layer : Nat := 0
  step : Nat := 0
  waiting : List (BitVec 480) := []
  cont : Bool := false
  fills : List Fill := []
  seqOut : Nat := 0
deriving DecidableEq, Repr

/-- One request port (R318, R328, R437): WRITE_DONE count, last TAG counted, requests without a reply, the bytes each
outstanding READ still lacks, oldest first, and the SEQ count of its CONTROL packets. -/
structure ReqPort where
  reqRoute : Nat := 0
  readRoute : Nat := 0
  doneRoute : Nat := 0
  readCredits : Nat := 0
  done : Nat := 0
  lastTag : Nat := 0
  open_ : Nat := 0
  reads : List Nat := []
  seq : Nat := 0
deriving DecidableEq, Repr

/-- One reduction binding of a router with the packets its unit buffers for the route (R219, R220): header bits,
payload flits, and whether they came on FIRST. -/
structure Binding where
  route : Nat := 0
  unit : Nat := 0
  first : Nat := 0
  second : Nat := 0
  exact : Bool := false
  crFirst : Nat := 0
  crSecond : Nat := 0
  crOut : Nat := 0
  outCredits : Nat := 0
  credits : Nat := 0
  part : Nat := 0
  qFirst : List (BitVec 512 × List (BitVec 512)) := []
  qSecond : List (BitVec 512 × List (BitVec 512)) := []
  expFirst : Nat := 0
  expSecond : Nat := 0
  seqCreditF : Nat := 0
  seqCreditS : Nat := 0
deriving DecidableEq, Repr

/-- The counts D and O of a chain at a delivering router (R218), and the SEQ count of the CREDIT packets it sends. -/
structure Chain where
  d : Nat := 0
  o : Nat := 0
deriving DecidableEq, Repr

/-- One core (R189): keys are thread numbers, semaphore numbers, carry slots, endpoint, window and port indices.
`badWords` holds the uncorrectable words of its SRAM by address ÷ 32, `softWords` those with a corrected error not yet
written back (R297); `engQ` and `vecQ` are the queues of the engine and the vector unit; `scrubNext` and `scrubs` the patrol (R299); `expects` the next SEQ of window and port routes. -/
structure Core where
  img : Option Image := none
  sram : Memory := []
  badWords : List Nat := []
  softWords : List Nat := []
  threads : KMap Thread := []
  sems : KMap Nat := []
  rrEngine : Nat := 0
  rrVector : Nat := 0
  rrStream : Nat := 0
  rrScalar : Nat := 0
  engQ : List Issued := []
  vecQ : List Issued := []
  carry : KMap CarrySlot := []
  eng : Engine := {}
  eps : KMap Endpoint := []
  wins : KMap Window := []
  ports : KMap ReqPort := []
  sched : KMap Nat := []
  binds : List Binding := []
  chains : KMap Chain := []
  selfTestAt : Nat := 0
  scrubNext : Nat := 0
  scrubs : Nat := 0
  expects : KMap Nat := []
deriving DecidableEq, Repr

end Sys2Proof.Machine
end

