-- ==== Sys2Proof/Machine/StateFabric.lean ====
section
/-! DEFINITION. The state of the module's topology, partitions, network, jig loader, memory tiers and streams (chapters
01, 03, 06 to 09). -/

namespace Sys2Proof.Machine

/-- The module states of R264. -/
inductive ModState where
  | cold | bringup | service | reduced | outOfService | safe | recovery
deriving DecidableEq, Repr

/-- The partition states of R262. -/
inductive PartState where
  | off | loading | ready | running | draining | halted | failed
deriving DecidableEq, Repr

/-- Module state (R264), the service dies that have failed (R47), and the bring-up in progress: its stage, whether a thermal
trip holds it, and when the state or stage began (R493, R504, R506). -/
structure Sys where
  st : ModState := .cold
  svcFailed : List Nat := []
  stage : Nat := 0
  stageHeld : Bool := false
  stageAt : Nat := 0
deriving DecidableEq, Repr

/-- The map of one die row (R51): absorb position, dead mask, and whether a bit of the mask comes from the field. -/
structure RowMap where
  absorb : Nat := 14
  dead : Nat := 0
  field : Bool := false
deriving DecidableEq, Repr

/-- One entry of the field retirement list kept in flash (R51, R113, R300). -/
inductive Retire where
  | core (phys : Nat)
  | rowRepair (phys row : Nat)
  | colRepair (phys col : Nat)
  | link (phys dir : Nat)
  | t0Line (core bank line : Nat)
  | t1Row (die stack row : Nat)
deriving DecidableEq, Repr

/-- The topology block and what it is built from (R31, R47 to R52, R115, R122, R225, R241). Cores are logical indices
140 v + u unless called physical (150 row + column); directions are 1 N, 2 E, 3 S, 4 W. `deadLinks` holds the retired link directions
by sender: a physical core and its direction, or 32,768 + a ring die and its channel; `deadPorts` the router ports at which they
arrive (R25); `lanes` the failed data wires that the repair wires of a direction stand for, by fuse or since a remap, with key 64 × sender + port,
and `lanesFound` those that link calibration has found since; `markedLinks` the router or ring die that found a slip and its input port; `engineBad` lists the
engines that a self-test has found beyond repair, `ringFound` the ring dies that the bring-up in progress has found unhealthy,
`darkMap` the dies that were dark at the last remap. While `reducedActive`, every engine is in reduced-array mode with the masks `rowMask` and
`colMask`; `arrayMasks` holds, by physical core, the masks of an engine in that mode with masks of its own (R114, R115). -/
structure Topo where
  fuseDead : KMap Nat := []
  retire : List Retire := []
  engineBad : List Nat := []
  applied : List Retire := []
  coreMap : KMap RowMap := []
  epoch : Nat := 0
  ringBad : List Nat := []
  deadLinks : List (Nat × Nat) := []
  runDead : List Nat := []
  markedRouters : List Nat := []
  markedLinks : List (Nat × Nat) := []
  ringFound : List Nat := []
  dark : List Nat := []
  darkMap : List Nat := []
  repair : KMap Repair := []
  fuseSel : Nat := 0
  reducedActive : Bool := true
  rowMask : Nat := 2 ^ 33 - 1
  colMask : Nat := 2 ^ 33 - 1
  arrayMasks : KMap (Nat × Nat) := []
  deadPorts : List (Nat × Nat) := []
  lanes : KMap (List Nat) := []
  lanesFound : KMap (List Nat) := []
deriving DecidableEq, Repr

/-- The phases of KRF_STATUS (R451). -/
inductive KrfPhase where
  | idle | awaitingCut | dumping | writing | restoring
deriving DecidableEq, Repr

/-- A pool tile of a kerf still to be written (R432, R433): its pool address, its transit bytes, the Terourn pages
whose last tile it is, the tiles of Terourn space that it is made from, and for these its shard and its place in it. -/
structure KerfTile where
  addr : Nat
  payload : List Byte
  pages : List Nat := []
  src : List Nat := []
  part_ : Nat × Nat := (0, 0)
deriving DecidableEq, Repr

/-- A take in progress (R425 to R433): the queue that runs it, mode, generation, area, map, start, cut, and the tiles to
write in the order of R433; the first of them is sent and not yet acknowledged when `sent`. -/
structure Take where
  queue : Nat := 0
  gate : Bool := false
  generation : Nat := 0
  dest : Nat := 0
  area : Nat := 0
  map : List Byte := []
  startAt : Nat := 0
  cutSk : Nat := 0
  cutSeq : Nat := 0
  tiles : List KerfTile := []
  sent : Bool := false
deriving DecidableEq, Repr

/-- What a restore reads (R440, R441): first tiles of the manifests, their other tiles, then shard tiles. -/
inductive RestoreStage where
  | heads | manifests | shards
deriving DecidableEq, Repr

/-- A restore in progress (R439 to R443): queue, generation, map, the manifests' pool addresses, the stage, the tiles read,
decoded (by pool address), those still to be read in order (pool address, and the PAGE, TILE and WIDTH their headers must
carry), whether a target byte has been written, and the sk of the last write to T2, which the host acknowledges with the next. -/
structure Restore where
  queue : Nat := 0
  generation : Nat := 0
  map : List Byte := []
  list : List Nat := []
  stage : RestoreStage := .heads
  tiles : KMap (List Byte) := []
  want : List (Nat × Nat × Nat × Nat) := []
  wrote : Bool := false
  hostAt : Option Nat := none
deriving DecidableEq, Repr

/-- The kerf registers and work of one partition (R425 to R451): a restored gate kerf's records wait for the resume. -/
structure Kerf where
  phase : KrfPhase := .idle
  resume : Bool := false
  notBitExact : Bool := false
  predReset : Bool := false
  restoreBad : Bool := false
  generation : Nat := 0
  comGen : Nat := 0
  comTiles : Nat := 0
  comDest : Nat := 0
  commits : Nat := 0
  cowStalls : Nat := 0
  jigDigest : Digest := 0
  take : Option Take := none
  restore : Option Restore := none
  resumeCores : List (Nat × List Byte) := []
  resumeHerds : List (Nat × List Byte) := []
  resumeFlows : List (Nat × List Byte) := []
deriving DecidableEq, Repr

/-- One partition (R237, R245, R262) with its counters, its task and its kerf. -/
structure Part where
  st : PartState := .off
  inference : Bool := false
  windows : Nat := 0
  cx : Nat := 0
  cy : Nat := 0
  cw : Nat := 0
  ch : Nat := 0
  quota : Nat := 0
  used : Nat := 0
  seed : Nat := 0
  bypass : Bool := false
  narrow : Bool := false
  drainMs : Nat := 0
  layerClass : List Nat := []
  sessClass : List Nat := []
  clusterFreq : List Nat := []
  tags : Nat := 0
  dropped : Nat := 0
  fallbacks : Nat := 0
  promos : Nat := 0
  demos : Nat := 0
  misses : Nat := 0
  veneers : Nat := 0
  bypassFills : Nat := 0
  reparents : Nat := 0
  opsDone : Nat := 0
  lostMembers : Nat := 0
  abortsRx : Nat := 0
  dlMisses : Nat := 0
  herdRetx : Nat := 0
  taskSeq : Nat := 0
  taskRunning : Bool := false
  resumed : Bool := false
  starter : Option Nat := none
  lastCode : Nat := 0
  abortSlot : Option Nat := none
  flushing : Bool := false
  flushFrom : Nat := 0
  started : Bool := false
  drainFrom : Nat := 0
  drainDroop : Bool := false
  missLogAt : Option Nat := none
  cowLogAt : Option Nat := none
  krf : Kerf := {}
deriving DecidableEq, Repr

/-- A packet in flight on a route (R210): its owner, header and payload flits, whether an endpoint's credit was spent
on it, and where it still has to arrive: keys are core indices, 32,768 + n for ring die n. -/
structure Flight where
  route : Nat
  part : Nat
  hdr : BitVec 512
  payload : List (BitVec 512)
  sites : List Nat
deriving DecidableEq, Repr

/-- The network: frame length, slot counter, packets in flight, ring-image entries by die and channel, routes by owner,
the SEQ counts and credits of ring dies by route, and NET_ERR_COUNT by partition (R203, R211, R215, R227 to R229, R251). -/
structure Net where
  frameLen : Nat := 0
  slot : Nat := 0
  flights : List Flight := []
  ring : KMap (KMap (Nat × Nat)) := []
  routes : KMap Nat := []
  dieSeq : KMap Nat := []
  dieSeqCredit : KMap Nat := []
  dieExpect : KMap Nat := []
  dieCredits : KMap Nat := []
  errs : KMap (Nat × Nat) := []
deriving DecidableEq, Repr

/-- The phases of JIG_STATUS (R265). -/
inductive JigPhase where
  | idle | staging | checking | writing | armed
deriving DecidableEq, Repr

/-- The jig loader (R252 to R265) and the module-wide settings of the last full jig (R242 to R244). `written` says that
the images are in place and the defined partitions wait for their slot (R258); `snap…` holds what the checks read as it stood when CHECKING
began (R255, R302); `oldHerds` the herds that HRD_ registers show until the slot of R258: the port die and buffers of each (R384). -/
structure Jig where
  addr : Nat := 0
  len : Nat := 0
  fabricId : Nat := 0
  phase : JigPhase := .idle
  written : Bool := false
  fabric : Bool := false
  staging : List Byte := []
  stagedBad : Bool := false
  locked : List Nat := []
  snapDead : List Nat := []
  snapRouters : List Nat := []
  snapLinks : List (Nat × Nat) := []
  snapT2 : Nat := 0
  snapPool : Nat := 0
  oldHerds : List (Nat × Nat) := []
  digestNow : Digest := 0
  signedNow : Bool := false
  lastRefused : Bool := false
  lastSigned : Bool := false
  lastPartial : Bool := false
  loadedId : Nat := 0
  loadCount : Nat := 0
  digest : Digest := 0
  refusal : BitVec 256 := 0
  fullSeen : Bool := false
  perCluster : Bool := false
  freq : Nat := 0
  vcWeights : Nat := 0x0101_0101_0101_0101
  bwSplit : List Nat := List.replicate 12 0x224
deriving DecidableEq, Repr

/-- One object of Terourn space (R276). The key is 4,096 p + i. -/
structure TierObj where
  base : Nat := 0
  pages : Nat := 0
  fast : Nat := 1
  slow : Nat := 1
  compress : Bool := false
  width : Nat := 0
deriving DecidableEq, Repr

/-- A move in progress (R287): the destination tier, the next tile to copy, and the pool transfers without an answer. -/
structure Move where
  dest : Nat := 1
  next : Nat := 0
  open_ : Nat := 0
deriving DecidableEq, Repr

/-- A directory entry (R273, R275, R285 to R287, R430): tier 0 is ZERO; the heat, and the bytes that do not make up its next 64 KiB yet;
the T2 and pool frames once they are assigned; the move in progress; the epoch of the last cancelled move; kerf-pending. -/
structure Page where
  tier : Nat := 0
  written : Nat := 0
  rawMask : Nat := 0
  heat : Nat := 0
  heatRest : Nat := 0
  t2 : Option Nat := none
  pool : Option Nat := none
  move : Option Move := none
  cancelled : Option Nat := none
  pending : Bool := false
deriving DecidableEq, Repr

/-- The stages of a Terourn request: queued, waiting for tiles of the pool, moving its data, and waiting for the pool's
acknowledgement. -/
inductive ReqPhase where
  | queued | fetching | moving | acking
deriving DecidableEq, Repr

/-- A Terourn request a home die serves (R280, R281): its number, die, route, owner, the message's fields, the bytes
delivered or stored so far, the pool transfers without an answer, and whether it stalls on a kerf-pending page. -/
structure TierReq where
  id : Nat := 0
  die : Nat := 0
  route : Nat := 0
  part : Nat := 0
  write : Bool := false
  reply : Nat := 0
  data : Nat := 0
  tag : Nat := 0
  addr : Nat := 0
  len : Nat := 0
  phase : ReqPhase := .queued
  pos : Nat := 0
  open_ : Nat := 0
  stalled : Bool := false
deriving DecidableEq, Repr

/-- The memory tiers (R270 to R304, R430, R501). `mem` holds every page's slots as they are stored (R290), whatever the tier; `badWords`
holds the uncorrectable words of T1 by Terourn address ÷ 32, with stack and row, and `softWords` those whose next read finds a
correctable error; `migNow` and `lowNow` hold the TIER_MIGRATE and TIER_LOW_WATER that a die works by, from its last epoch end on;
`eccSeen` the 0x0401 records of a location since the last remap; `tests` the locations whose
targeted self-test is due; `t1At` and `t1Pass` the patrol of each stack; `bouncePages` the pages in bounce frames by
partition; `acts` how often the activation guard refreshed a row's neighbours in this refresh interval. -/
structure Tier where
  objects : KMap TierObj := []
  pages : KMap Page := []
  mem : Memory := []
  retired : KMap Nat := []
  badWords : KMap (Nat × Nat) := []
  softWords : KMap (Nat × Nat) := []
  eccSeen : KMap Nat := []
  tests : List Nat := []
  eccLogAt : KMap Nat := []
  t2Base : Nat := 0
  t2Pages : Nat := 0
  poolBase : Nat := 0
  poolPages : Nat := 0
  migrate : Nat := 0x1010_03E8_0004_0040
  lowWater : Nat := 0x0100_0100
  migNow : KMap Nat := []
  lowNow : KMap Nat := []
  epochNo : KMap Nat := []
  epochAt : KMap Nat := []
  query : Nat := 0
  eccT0Corr : Nat := 0
  eccT0Unc : Nat := 0
  eccT1Corr : Nat := 0
  eccT1Unc : Nat := 0
  scrubT0 : Nat := 0
  scrubT1 : Nat := 0
  t1At : KMap Nat := []
  t1Pass : KMap Nat := []
  bouncePages : List (Nat × Nat) := []
  acts : KMap Nat := []
  reqs : List TierReq := []
  ids : Nat := 0
deriving DecidableEq, Repr

/-- One entry of a layer table (R314). -/
structure Layer where
  src : Nat := 0
  width : Nat := 0
  shardUnits : Nat := 1
  cls : Nat := 0
  predicted : Bool := false
  predReuse : Bool := false
  veneerValid : Bool := false
  elements : Nat := 0
  veneerUnits : Nat := 0
  veneerObj : Nat := 0
  veneerBase : Nat := 0
  blockUnits : Nat := 0
deriving DecidableEq, Repr

/-- A section of a stage at one feeder (R306, R320 to R322): its table layer, units, the stage place of its first tile,
the tiles stored, the next unit the ingress die pulls, the tiles freed from its front, and the units delivered by
member. -/
structure Section where
  layer : Nat := 0
  units : Nat := 0
  place : Nat := 0
  got : List Nat := []
  next : Nat := 0
  freed : Nat := 0
  served : KMap Nat := []
deriving DecidableEq, Repr

/-- An outstanding PSP PULL (R309, R311, R312, R340): the key of its section, its range, when it was sent, when data of
its range last came, and the member and slot of a bypassed fill that asks outside stage credits (R333). -/
structure Pull where
  key : Nat
  unit : Nat
  count : Nat
  at_ : Nat
  last : Nat
  acked : Nat := 0
  bypass : Option (Nat × Nat) := none
deriving DecidableEq, Repr

/-- A tine child of a flow (R338 to R340): address, the port it sends through, the last ACKED by section key, the ranges
it still waits for (section key, next unit, end), the highest section key it asked for, when it last sent, since when the parent does not wait for it, whether
its ACKED no longer holds tiles, and whether it was adopted. -/
structure Child where
  mac : Nat
  port : Nat := 0
  acked : KMap Nat := []
  wants : List (Nat × Nat × Nat) := []
  top : Nat := 0
  lastAt : Nat := 0
  silentAt : Option Nat := none
  gone : Bool := false
deriving DecidableEq, Repr

/-- A GRAD message not yet acknowledged (R346). -/
structure Grad where
  layer : Nat
  unit : Nat
  count : Nat
  at_ : Nat
deriving DecidableEq, Repr

/-- One gradient route (R344): route, layer, first unit, units, and the bytes that have arrived, round after round. -/
structure GradRoute where
  route : Nat
  layer : Nat
  ofs : Nat
  units : Nat
  got : Nat := 0
deriving DecidableEq, Repr

/-- A gradient tile being assembled (R345): its bytes by offset, how many have arrived, and its tag word. Tiles of a layer
count on from round to round; tile t of layer l has key 2^32 l + t. -/
structure GradTile where
  bytes : Memory := []
  got : Nat := 0
  tag : Option Nat := none
deriving DecidableEq, Repr

/-- One flow (R316) with its state. The key is 256 p + flow index. `fed`, `dataRoute` and `pullRoute` are read from the
window entries: the feeder and the DATA_ROUTE of each member, and the member of each route on which pulls reach a
feeder. Sections have key 16 n + f, where n counts the sequence's layers from the task's start (from LAYER_FIRST in
RESIDENT mode). `early` holds the units delivered to members of sections that the stage does not hold yet (R321, R333), `pulledTo` the
sequence number of each member's next window pull, and `misses` the MISS messages that came before their pull, by member (R336). `forgot`
holds the PULLs whose late data is discarded (R337, R341). -/
structure Flow where
  ret : Bool := false
  tine : Bool := false
  resident : Bool := false
  vc : Nat := 1
  portDie : Nat := 0
  stream : Nat := 0
  peer : Nat := 0
  first : Nat := 0
  count : Nat := 0
  stageObj : Nat := 0
  stageTiles : Nat := 0
  members : Nat := 0
  herd : Nat := 0
  gradFmt : Nat := 0
  serverFmt : Nat := 0
  width : Nat := 0
  grand : Nat := 0
  kids : List Nat := []
  feeders : List Nat := []
  fed : KMap Nat := []
  dataRoute : KMap Nat := []
  pullRoute : KMap Nat := []
  children : List Child := []
  parent : Nat := 0
  reparented : Bool := false
  sects : KMap Section := []
  early : KMap (KMap Nat) := []
  pulledTo : KMap Nat := []
  misses : List (Nat × Nat) := []
  alloc : KMap Nat := []
  pos : Nat := 0
  pulls : List Pull := []
  forgot : List Pull := []
  routes : List GradRoute := []
  gradTiles : KMap GradTile := []
  handed : KMap Nat := []
  outBytes : KMap (List Byte) := []
  outUnit : KMap Nat := []
  grads : List Grad := []
  ackedUnits : KMap Nat := []
  pushed : KMap Nat := []
deriving DecidableEq, Repr

/-- A window pull a feeder holds (R327, R333): flow key, feeder, member, slot, table layer, sequence number of the layer,
units asked, blocks, whether more blocks follow, units sent, the tiles of a bypassed fill as they pass, and whether the
units of the veneer follow (R336). -/
structure WinPull where
  flow : Nat
  feeder : Nat
  member : Nat
  slot : Nat
  layer : Nat
  seqNo : Nat
  units : Nat
  blocks : List Nat := []
  predicted : Bool := false
  more : Bool := false
  sent : Nat := 0
  choose : Bool := false
  bypass : Bool := false
  tiles : KMap (List Byte) := []
  veneer : Bool := false
deriving DecidableEq, Repr

/-- Whose pool transfer it is (R313): a Terourn request, a move of a page, a kerf write, a kerf's source tiles, a restore's reads
or its writes of a partition, a page's copy to its bounce frame, the reads of a queue's copy or a piece it writes, a herd's SRC tile or DST chunk, a stage tile that is written, a feeder that reads its stage or a
veneer, a tine child that is served, or none that waits. -/
inductive PoolOwner where
  | req (id : Nat)
  | move (page : Nat)
  | kerf (p : Nat)
  | kerfSource (p : Nat)
  | restore (p : Nat)
  | restoreDst (p : Nat)
  | bounce (page : Nat)
  | copy (q : Nat)
  | copyIn (q : Nat) (pos : Nat)
  | herd (key : Nat)
  | herdDst (key : Nat) (chunk : Nat)
  | stage (key : Nat)
  | feeder (key : Nat) (die : Nat)
  | child (key : Nat) (mac : Nat)
  | nobody
deriving DecidableEq, Repr

/-- A pool transfer of one tile without an answer (R313): its number, port, pool address, owner, and since when its 10 ms
run. -/
structure PoolOp where
  id : Nat := 0
  port : Nat := 0
  addr : Nat := 0
  owner : PoolOwner := .nobody
  at_ : Option Nat := none
deriving DecidableEq, Repr

/-- The stream registers and state (R305 to R349). `stalled` holds the module's own writes that wait for a bounce frame, with their page;
`buffers` holds the tiles, by number in Terourn space, that a reader has from the pool;
`loads` what a feeder last knew of its traffic: the grant cycles in a row with every read grant in use, and the load of the ingress port in
thousandths (R333). -/
structure Str where
  ethertype : Nat := 0x88B5
  timeouts : Nat := 0x0064_0032
  bypass : Nat := 0x00FA_1000
  poolMac : Nat := 0
  poolPorts : Nat := 0
  badHeader : Nat := 0
  noStream : Nat := 0
  layers : KMap (List Layer) := []
  flows : KMap Flow := []
  winPulls : List WinPull := []
  poolReads : List PoolOp := []
  poolWrites : List PoolOp := []
  buffers : List (PoolOwner × Nat) := []
  stalled : List (PoolOwner × Nat) := []
  loads : KMap (Nat × Nat) := []
  seqs : KMap Nat := []
deriving DecidableEq, Repr

end Sys2Proof.Machine
end

