-- ==== Sys2Proof/Machine/StateHost.lean ====
section
/-! DEFINITION. The state of the fabric ports, herds, queues, sessions, CXL link and launch (chapters 10 to 12). -/

namespace Sys2Proof.Machine

/-- A chunk being received (R361): who sent it, on which channel, and the segments that have arrived. -/
structure Partial where
  mac : Nat
  etype : Nat
  chan : Nat
  msg : Nat
  chunk : Nat
  retry : Nat
  segs : KMap (List Byte) := []
  nsegs : Nat := 1
  hdr : List Byte := []
  at_ : Nat := 0
deriving DecidableEq, Repr

/-- A chunk kept until it is acknowledged or abandoned (R363): destination, header without its changing fields, and
payload; the owner says what its loss means. -/
inductive ChunkOwner where
  | herd (p h stage member : Nat) (down : Bool)
  | grad (p flow : Nat)
  | child (p flow mac : Nat)
  | poolWrite (id : Nat)
deriving DecidableEq, Repr

/-- One chunk sent and not yet done (R363). -/
structure SentChunk where
  port : Nat
  mac : Nat
  etype : Nat
  vc : Nat
  chan : Nat
  msg : Nat
  chunk : Nat
  last : Bool
  aux : Nat
  upper : List Byte
  payload : List Byte
  retry : Nat := 0
  nak : Bool := false
  waiting : Bool := false
  at_ : Nat := 0
  owner : ChunkOwner
deriving DecidableEq, Repr

/-- One optical port (R350 to R356, R383). -/
structure Port where
  up : Bool := false
  localFault : Bool := false
  remoteFault : Bool := false
  downs : Nat := 0
  framesTx : Nat := 0
  framesRx : Nat := 0
  discards : Nat := 0
  fcsErrors : Nat := 0
  crcFails : Nat := 0
  retransmits : Nat := 0
  pauseIgnored : Nat := 0
  vc0Used : Nat := 0
  vc0From : Nat := 0
  vc0Wait : List (List Byte) := []
  crcLogAt : Option Nat := none
deriving DecidableEq, Repr

/-- The fabric (R350 to R364, R382): ports by number, chunks in both directions, and message numbers by channel. -/
structure Fab where
  macBase : Nat := 0
  vlan : Nat := 0
  herdType : Nat := 0x88B6
  timers : Nat := 0x000A_0014
  ports : KMap Port := []
  partials : List (Nat × Partial) := []
  accepted : List (Nat × Nat × Nat × Nat × Nat) := []
  sent : List SentChunk := []
  msgs : KMap Nat := []
deriving DecidableEq, Repr

/-- A stage record of a herd (R366). -/
structure Stage where
  self : Nat := 0
  leader : Nat := 0
  macs : List Nat := []
deriving DecidableEq, Repr

/-- The inputs of one chunk at a stage a module leads (R373, R376): tiles and tag words by member index, and the time
the first included input was complete. -/
structure ChunkIn where
  tiles : KMap (List Byte × Nat) := []
  first : Option Nat := none
deriving DecidableEq, Repr

/-- The state of one stage a module leads in a running operation: inputs by chunk, the lowest chunk not yet reduced, and
the chunks each member has missed (R376). -/
structure StageRun where
  ins : KMap ChunkIn := []
  next : Nat := 0
  missed : List (Nat × Nat) := []
deriving DecidableEq, Repr

/-- The operation a herd runs (R371, R374, R375): its chunks, message number and addresses; the queue that started it, or
the return flow and layer (then `src` is the first tile of the layer handed to it and `dst` the units acknowledged before
it); the stages it leads; its next own chunk; chunks formed and to be sent upward, and those acknowledged; result chunks
with work left; results to send down (stage, member, chunk) and to write, and those written that the host (true) or the pool does not hold yet;
results that have come, and their timers. -/
structure HerdOp where
  chunks : Nat := 0
  msg : Nat := 0
  src : Nat := 0
  dst : Nat := 0
  queue : Option Nat := none
  ret : Option (Nat × Nat) := none
  stages : KMap StageRun := []
  nextSend : Nat := 0
  ups : KMap (List Byte × Nat) := []
  upAcked : Nat := 0
  results : KMap (List Byte × Nat) := []
  downs : List (Nat × Nat × Nat) := []
  writes : List Nat := []
  awaits : List (Nat × Bool) := []
  written : Nat := 0
  arrived : List Nat := []
  resTimer : KMap Nat := []
  resMissed : List Nat := []
deriving DecidableEq, Repr

/-- One herd (R365, R366) with its operation state: `lost` holds excluded members by stage, `reforms` with each the re-form chunk of its loss
(R377), `lossAt` the sk of the last loss (R381); `todo` holds the gradient layers (flow key, layer) whose operation has not started. The key is
4,096 p + i. -/
structure Herd where
  id : Nat := 0
  op : Nat := 0
  fmt : Nat := 6
  vc : Nat := 1
  reform : Bool := false
  top : Nat := 1
  levels : Nat := 1
  portDie : Nat := 0
  deadlineUs : Nat := 1
  window : Nat := 1
  stages : List Stage := []
  opSeq : Nat := 0
  lost : List (Nat × Nat) := []
  reforms : List (Nat × Nat × Nat) := []
  lossAt : Option Nat := none
  run : Option HerdOp := none
  began : Bool := false
  todo : List (Nat × Nat) := []
deriving DecidableEq, Repr

/-- The states of a queue (R394). -/
inductive QueueState where
  | disabled | active | stopped | disabling
deriving DecidableEq, Repr

/-- What a completion entry still to be written holds (R401). -/
structure Completion where
  tag : Nat := 0
  code : Nat := 0
  kind : Nat := 0
  stopped : Bool := false
  noop : Bool := false
  sqIndex : Nat := 0
  info : Nat := 0
  user : Nat := 0
  next : Nat := 0
deriving DecidableEq, Repr

/-- A piece that a COPY_IN has written and that is not held yet (R407, R281): its first line, its lines, and the acknowledgements of the pool, or
the one of the host, that it waits for. -/
structure CopyPiece where
  pos : Nat := 0
  lines : Nat := 0
  open_ : Nat := 0
  host : Bool := false
deriving DecidableEq, Repr

/-- One command queue (R393 to R403): the descriptor fetched at the head with its index and, for a kerf command, its map;
whether it waits on its fence, has passed it or runs; the lines a copy has moved, and its pieces that are not held yet; the OP_SEQ of a running
HERD_RUN; completions and session events not yet written; the last entry written, with its address, and whether it is to be written again
(R389); when MSI-X last went, and whether one is deferred. -/
structure Queue where
  sqBase : Nat := 0
  cqBase : Nat := 0
  tailAddr : Nat := 0
  cfg : Nat := 0
  st : QueueState := .disabled
  configErr : Bool := false
  dbErr : Bool := false
  stopCode : Nat := 0
  sqHead : Nat := 0
  sqTail : Nat := 0
  cqTail : Nat := 0
  cqHead : Nat := 0
  phase : Bool := true
  desc : Option (BitVec 512) := none
  idx : Nat := 0
  map : List Byte := []
  waiting : Bool := false
  passed : Bool := false
  running : Bool := false
  copyPos : Nat := 0
  pieces : List CopyPiece := []
  opSeq : Nat := 0
  todo : List Completion := []
  written : Option (Nat × List Byte) := none
  redo : Bool := false
  irqAt : Option Nat := none
  irqDefer : Bool := false
deriving DecidableEq, Repr

/-- The states of a session (R409). -/
inductive SessState where
  | free | idle | ready | inBatch | closing
deriving DecidableEq, Repr

/-- One session record (R409). The key is 2^18 p + handle; an unlisted session is FREE. -/
structure Session where
  st : SessState := .free
  cls : Nat := 0
  resubmit : Bool := false
  model : Nat := 0
  notifyQ : Nat := 0
  notifyEn : Bool := false
  slot : Nat := 0
  user : Nat := 0
  readySk : Nat := 0
  steps : Nat := 0
  batchSeq : Nat := 0
  submitAt : Option Nat := none
deriving DecidableEq, Repr

/-- One model binding (R413) with the batcher's state (R414): credits, batch number, and unanswered batches with their
sessions, oldest first; the sessions of results of one sk as they were before, and whether an event went, which an abort in that sk undoes
(R418). -/
structure Model where
  reg : Nat := 0
  valid : Bool := false
  credits : Nat := 0
  seq : Nat := 0
  open_ : List (Nat × List Nat) := []
  held : Option (List Byte × Nat) := none
  undo : Option (Nat × List (Nat × Session × Bool)) := none
deriving DecidableEq, Repr

/-- The CXL link (R386 to R389, R419). -/
structure Cxl where
  up : Bool := false
  posB : Bool := false
  width : Nat := 0
  speed : Nat := 0
  failovers : Nat := 0
  failoverEn : Bool := false
  busMaster : Bool := false
  downAt : Nat := 0
deriving DecidableEq, Repr

/-- The host interface (R386 to R419). Fences have key 64 p + i, models 16 p + m; `signals` holds the last sk in which a fence was signalled,
and how often in it (R404); a latch of the register at offset o has key o, o + 1 and o + 2 for the host, MMP-A and MMP-B (R391);
`batchAt` and `launchAt` are the sk of the batcher's last visit and launch. -/
structure Que where
  cxl : Cxl := {}
  queues : KMap Queue := []
  fences : KMap Nat := []
  models : KMap Model := []
  sessions : KMap Session := []
  rrModel : Nat := 0
  batchAt : Nat := 0
  launchAt : Option Nat := none
  signals : KMap (Nat × Nat) := []
  latches : KMap Nat := []
deriving DecidableEq, Repr

end Sys2Proof.Machine
end

