-- ==== Sys2Proof/Machine/StatePower.lean ====
section
/-! DEFINITION. The state of job launch, power, clocks, cooling, supervision, security and the connector face (chapters
12 to 16), and what the module sends to its surroundings. -/

namespace Sys2Proof.Machine

/-- The kerf window, limits and job launch over tine trees (R446 to R450). -/
structure Launch where
  poolBase : Nat := 0
  poolBytes : Nat := 0
  limits : Nat := 0x64
  ctrl : Nat := 0
  parent : Nat := 0
  grand : Nat := 0
  unitsStaged : Nat := 0
  reparents : Nat := 0
  parentNow : Nat := 0
  reparented : Bool := false
  tiles : KMap (List Byte) := []
  pulls : List Pull := []
  nextUnit : Nat := 0
  total : Option Nat := none
  held : List (Nat × Nat × Nat) := []
deriving DecidableEq, Repr

/-- The power states of a cluster (R468). -/
inductive ClusterState where
  | off | retain | waking | on
deriving DecidableEq, Repr

/-- One cluster (R465 to R470, R486): state, present step, jig step, half-clock limit, when it last began to wake, since
when its wake is deferred, and whether a task start, the loader or a dump asks for it. -/
structure Cluster where
  st : ClusterState := .off
  n : Nat := 0
  jigN : Nat := 0
  half : Option Nat := none
  wakeAt : Option Nat := none
  deferFrom : Option Nat := none
  wakeAsked : Bool := false
deriving DecidableEq, Repr

/-- The power state of one compute die (R456 to R462, R470, R481, R485): the phases lost (64 to 67 on the network rail), the quadrant rails of the
phases that have been moved since the last remap, the e-fuse, the drop model with the crack limit, mark and the time since which the drop is too high, the junction
temperature, sensors, the throttle limit with its last change and last record, and the time at which the die last drew
more than 90 % of its phase capacity. -/
structure DiePower where
  phases : List Nat := []
  moved : KMap Nat := []
  efuseOpen : Bool := false
  rDie : Nat := 0
  crackLimit : Bool := false
  crackMark : Bool := false
  crackFrom : Option Nat := none
  tj : Option Nat := none
  sensorFault : Bool := false
  blind : Bool := false
  throttle : Option Nat := none
  throttleAt : Nat := 0
  throttleLog : Option Nat := none
  hotAt : Option Nat := none
deriving DecidableEq, Repr

/-- One rack manager (R480): last heartbeat, its epoch, and whether it is present. -/
structure Manager where
  at_ : Nat := 0
  epoch : Nat := 0
  present : Bool := false
deriving DecidableEq, Repr

/-- Power, clocks and cooling (chapter 13). Temperatures are in tenths of a degree, the input in tenths of a volt, caps in
0.1 kW. `safeCap` says that the safe cap is in force, `lostAt` since when both managers are lost, `coolantCap` that the
coolant cap applies; `lowSince` and `highSince` since when the input is below 650 V, or at 720 V or above; `droopAt` is when
the droop sequence began; `history` holds the input power of the last samples in mW, newest first, `power` and `fast` its averages over 1 ms and
100 µs (R458); `ringTj` is keyed by ring die, 64 + k for stack k; `scaleLim` is the thermal limit of the cap
scale. -/
structure Pwr where
  sk : Nat := 0
  cap : Nat := 0x14_0078
  ctrl : Nat := 0x5001
  capEffective : Nat := 0x78
  capSource : Nat := 5
  safeCap : Bool := true
  mgrA : Manager := {}
  mgrB : Manager := {}
  holderB : Bool := false
  lostAt : Option Nat := none
  coolantFault : Bool := false
  coolantCap : Bool := false
  trayCap : Option Nat := none
  trayCapAt : Nat := 0
  volts : Nat := 0
  lowSince : Option Nat := none
  highSince : Option Nat := none
  droop : Bool := false
  droopSeq : Bool := false
  droopAt : Nat := 0
  bricks : List Nat := []
  history : List Nat := []
  power : Nat := 0
  fast : Nat := 0
  scale : Nat := 64
  scaleLim : Option Nat := none
  scaleAt : Nat := 0
  ringLog : KMap Nat := []
  shedPending : Bool := false
  releasePending : Bool := false
  shedAt : Nat := 0
  meshLocked : Bool := false
  meshHalf : Bool := false
  lockFaults : Nat := 0
  stopped : List Nat := []
  sheds : Nat := 0
  throttles : Nat := 0
  floorShort : Nat := 0
  deferrals : Nat := 0
  floorActive : Bool := false
  dies : KMap DiePower := []
  ringTj : KMap Nat := []
  ringOpen : List Nat := []
  clusters : KMap Cluster := []
  vfOffset : KMap Nat := []
deriving DecidableEq, Repr

/-- The lease states of R495. -/
inductive LeaseState where
  | none_ | held | frozen
deriving DecidableEq, Repr

/-- A claim pending (R495): the MMP (0 A, 1 B), its epoch, and when its window ends. -/
structure Claim where
  mmp : Nat
  epoch : Nat
  from_ : Nat
deriving DecidableEq, Repr

/-- The MMP states of R491. -/
inductive MmpState where
  | off | standby | active | failed
deriving DecidableEq, Repr

/-- One MMP (R490, R491, R499, R523): `refused` says that its loader has refused the image in this power-up; `lowRun` counts
100 ms periods below 70 %. -/
structure Mmp where
  st : MmpState := .off
  imageOk : Bool := false
  refused : Bool := false
  shedLevel : Nat := 0
  busy : Nat := 0
  rises : Nat := 0
  restarts : Nat := 0
  lowRun : Nat := 0
deriving DecidableEq, Repr

/-- A fault record before it is written (R515): code, class, partition, location, sub-location, time, task, detail. -/
structure FaultRec where
  code : Nat := 0
  cls : Nat := 0
  part : Option Nat := none
  locKind : Nat := 0
  locIndex : Nat := 0
  locSub : Nat := 0
  time : Nat := 0
  task : Nat := 0
  detail : Nat := 0
deriving DecidableEq, Repr

/-- The sideband loop (R509 to R514, R521): `lastAt` is when a frame of ORIGIN 0 last came, `acted` the (HERD_ID, OP_SEQ, member)
acted on, `resend` the HERD_STOP frames still to be sent again and when they were sent. -/
structure Sideband where
  slot : Nat := 0
  loopOk : Bool := false
  bypass : Bool := true
  synced : Bool := false
  framesBad : Nat := 0
  stopsSent : Nat := 0
  stopsActed : Nat := 0
  offset : Int := 0
  lastAt : Nat := 0
  acted : List (Nat × Nat × Nat) := []
  resend : List (BitVec 160 × Nat) := []
  seq : Nat := 0
deriving DecidableEq, Repr

/-- A background activity (R501, R503, R523): when it last completed a pass, and floor misses. -/
structure Activity where
  lastAt : Nat := 0
  misses : Nat := 0
  progress : Nat := 0
deriving DecidableEq, Repr

/-- Supervision (chapter 14): `flashLog`, `flashNext` and `flashSeq` are the log as the last flush left it (R518); `wdStops` is
the watchdog's count, `wdAt` its last stop, `wdHold` whether CARRIER_STATE reads 6 and `wdStuck` whether the module stays COLD
(R489). -/
structure Sup where
  lease : LeaseState := .none_
  holderB : Bool := false
  leaseEpoch : Nat := 0
  authority : Nat := 0
  renewAt : Nat := 0
  claims : List Claim := []
  currentEpoch : Nat := 0
  conflicts : Nat := 0
  expiries : Nat := 0
  handovers : Nat := 0
  a : Mmp := {}
  b : Mmp := {}
  log : KMap (List Byte) := []
  nextIndex : Nat := 0
  seq : Nat := 0
  boot : Nat := 0
  intake : List FaultRec := []
  intakeFatal : List FaultRec := []
  dropped : Nat := 0
  flashLog : KMap (List Byte) := []
  flashNext : Nat := 0
  flashSeq : Nat := 0
  irqStatus : Nat := 0
  irqEn : Nat := 0
  irqAt : KMap Nat := []
  irqDefer : List Nat := []
  side : Sideband := {}
  wdStops : Nat := 0
  wdAt : Option Nat := none
  wdHold : Bool := false
  wdStuck : Bool := false
  acts : KMap Activity := []
deriving DecidableEq, Repr

/-- The security command that runs or queues (R499, R529, R530): op, the XID of one that came out of band, its data, and
whether its step has begun: a quote then waits for shed level 4 to end, an image is being written. `awaits`: SEC_CMD has been written and its
input is being read (log 86). -/
structure SecCmd where
  op : Nat
  oob : Option Nat
  data : List Byte := []
  begun : Bool := false
  awaits : Bool := false
deriving DecidableEq, Repr

/-- The one out-of-band input and what became of its command (R532): XID, OP, data by OFFSET, TOTAL once a RUN has come, the
code once the command has ended, and its output. -/
structure Oob where
  xid : Option Nat := none
  op : Nat := 0
  parts : KMap (List Byte) := []
  total : Option Nat := none
  code : Option Nat := none
  out : List Byte := []
deriving DecidableEq, Repr

/-- Firmware, identity and attestation (chapter 15). `image` is what flash holds, `writing` the image that IMAGE_WRITE is
writing there; `tree` names the current identity tree, `newTree` the generated one, and `trees` counts the trees made. -/
structure Sec where
  fwKeys : List Digest := [0, 0, 0, 0]
  caKeys : List Digest := [0, 0, 0, 0]
  fwFused : Nat := 0
  fwRevoked : Nat := 0
  caFused : Nat := 0
  caRevoked : Nat := 0
  minSvn : Nat := 0
  serial : Nat := 0
  image : List Byte := []
  imageValid : Bool := false
  imagePending : Bool := false
  noImage : Bool := false
  fuseDigest : Digest := 0
  measA : Digest := 0
  measB : Digest := 0
  custKey : List Byte := []
  custRequire : Bool := false
  custCounter : Nat := 0
  cert : List Byte := []
  generation : Nat := 0
  nextLeaf : Nat := 0
  nextReserved : Nat := 0
  enrol : Nat := 0
  tree : Nat := 0
  newTree : Nat := 0
  trees : Nat := 0
  quoteLimit : Nat := 0x40
  quoteAt : List Nat := []
  cmdAddr : Nat := 0
  cmdLen : Nat := 0
  busy : Bool := false
  op : Nat := 0
  result : Nat := 0
  outLen : Nat := 0
  cmd : Option SecCmd := none
  oob : Oob := {}
  writing : Option (List Byte) := none
deriving DecidableEq, Repr

/-- The connector face (chapter 16). -/
structure Mech where
  mate : Bool := false
  standby : Bool := false
  straps : Nat := 0
  bPresence : Bool := false
deriving DecidableEq, Repr

/-- What the module sends to its surroundings (log 13). -/
inductive Emission where
  | hostWrite (addr : Nat) (bytes : List Byte)
  | msix (vector : Nat)
  | frame (port : Nat) (bytes : List Byte)
  | sideband (frame : BitVec 160)
  | oob (bytes : List Byte)
  | svcFault (die : Nat)
deriving DecidableEq, Repr

end Sys2Proof.Machine
end

