-- ==== Sys2Proof/Machine/Module.lean ====
section
/-! DEFINITION. The whole module as plain data: every part of it that the manual names. -/

namespace Sys2Proof.Machine

/-- The W1400 module. `parts` is keyed by partition, `cores` by logical core index 140 v + u, `herds` by
4,096 p + index. `out` is what the module has sent to its surroundings, oldest first (log 13), and `free` counts the
free values used (log 11). -/
structure Module where
  sys : Sys := {}
  topo : Topo := {}
  parts : KMap Part := []
  cores : KMap Core := []
  net : Net := {}
  jig : Jig := {}
  tier : Tier := {}
  str : Str := {}
  fab : Fab := {}
  herds : KMap Herd := []
  que : Que := {}
  launch : Launch := {}
  pwr : Pwr := {}
  sup : Sup := {}
  sec : Sec := {}
  mech : Mech := {}
  out : List Emission := []
  free : Nat := 0
deriving DecidableEq, Repr

end Sys2Proof.Machine
end

