-- ==== Sys2Proof/Machine/Inputs.lean ====
section
/-! DEFINITION. What the surroundings, and the physical world, bring to a command: who writes a register, bytes of a
frame, a sensor's reading, a finding of a check (log 1). -/

namespace Sys2Proof.Machine

/-- Bytes that arrive from outside. -/
abbrev Bytes := List Byte

/-- A list of pairs of numbers. -/
abbrev Pairs := List (Nat × Nat)

/-- Who writes a register: the host through BAR0, or Ngaulo on an MMP (R19, R498). -/
inductive Source where
  | host | mmpA | mmpB
deriving DecidableEq, Repr

/-- What the receiving unit finds in an arriving packet: whole and in its slot, a schedule slip (R223) at an input
port, or a wrong HCRC or CONTROL payload CRC (R224). -/
inductive WireFinding where
  | ok | slip (port : Nat) | badCrc (port : Nat)
deriving DecidableEq, Repr

/-- What a read of an ECC word finds (R296, R297). -/
inductive EccFinding where
  | clean | corrected | uncorrectable
deriving DecidableEq, Repr

/-- A word of T1, by Terourn address ÷ 32, with its stack and DRAM row, in which a read finds an error that the code corrects, or one that it
cannot (R298). -/
structure T1Finding where
  word : Nat := 0
  stack : Nat := 0
  row : Nat := 0
  unc : Bool := false
deriving DecidableEq, Repr

/-- The traffic at a feeder (R333): for how many grant cycles in a row every read grant had a pending transfer, and what the ingress port
received over the last 10 µs, in thousandths of 200 GB/s. -/
structure FeederLoad where
  cycles : Nat := 0
  permille : Nat := 1000
deriving DecidableEq, Repr

/-- The location of an ECC error (R300, R517): a T0 bank and line of a core, or a DRAM row of a stack. -/
inductive EccLoc where
  | t0 (core bank line : Nat)
  | t1 (die stack row : Nat)
deriving DecidableEq, Repr

/-- What one AOS sample reads of a compute die (R458, R462, R470, R481): its current in 0.1 A, the output voltage of its vertical stage and its
remote-sense voltage in 0.1 µV, its junction temperature in 0.1 °C, none without a valid sensor, and whether a sensor is ignored. -/
structure DieReading where
  die : Nat := 0
  amps : Nat := 0
  stage : Nat := 18_000_000
  sense : Nat := 18_000_000
  tj : Option Nat := some 400
  fault : Bool := false
deriving DecidableEq, Repr

/-- The sensed drop of a die (R462). -/
def DieReading.drop (r : DieReading) : Nat := r.stage - r.sense

/-- One AOS sample (R458): the input in tenths of a volt; the current of each brick in hundredths of an ampere; the dies it reads; temperatures of ring dies and of stacks (64 + k) in 0.1 °C; and what the AOS takes from its power model: the
cap scale s (R472), whether a release of a shed fits the cap and the ramp (R475), whether filler work runs, and whether a
10 ms window ended in which the floor was not held (R476). -/
structure Reading where
  volts : Nat := 8_000
  bricks : List Nat := []
  dies : List DieReading := []
  ring : Pairs := []
  scale : Nat := 64
  release : Bool := false
  filler : Bool := false
  short : Bool := false
deriving DecidableEq, Repr

/-- What a periodic engine test finds (R502): pass, or a failing row or column. -/
inductive TestFinding where
  | pass | row (r : Nat) | col (c : Nat) | engine
deriving DecidableEq, Repr

/-- Who finds a failed core (R507). -/
inductive CoreDetector where
  | monitor | router | silent | power
deriving DecidableEq, Repr

/-- What a bring-up stage finds (R25, R47, R113, R462, R505): physical cores that fail beyond repair, engine rows and columns
(physical core, row or column), dies that stay dark, dies whose oscillators keep the mesh from locking, ring dies that fail,
link directions (physical core and direction, or 32,768 + ring die and channel) with too many failed wires, the drop models
(die, value), the marked dies whose dovetail fails, the masks that the maintenance chain leaves in an engine (physical core, row mask, column
mask; R114), and the engines that fail to leave reduced-array mode (R115). -/
structure StageFinding where
  cores : List Nat := []
  rows : Pairs := []
  cols : Pairs := []
  dark : List Nat := []
  unlocked : List Nat := []
  ring : List Nat := []
  links : Pairs := []
  rDie : Pairs := []
  cracked : List Nat := []
  masks : List (Nat × Nat × Nat) := []
  stuck : List Nat := []
deriving DecidableEq, Repr

/-- What link calibration finds of a link direction (R25): its sender, a physical core and a direction, or 32,768 + a ring die and a channel;
and its failed data wires, 0 to 511. -/
structure LinkFinding where
  site : Nat := 0
  port : Nat := 0
  wires : List Nat := []
deriving DecidableEq, Repr

/-- A READ that reaches its home die: its route, and the words of T1 in which it finds an error (R298). -/
structure ReadInput where
  route : Nat := 0
  found : List T1Finding := []
deriving DecidableEq, Repr

/-- How the copy of a tile of a move ends (R287): whether its source or destination failed, and the words of T1 in which it finds an error. -/
structure CopyInput where
  failed : Bool := false
  found : List T1Finding := []
deriving DecidableEq, Repr

/-- The end of a partition's task, at which the context store is brought up to date: the sessions whose record, and whether a flow's or herd's
record, has an uncorrectable error (R408). -/
structure EndInput where
  part : Nat := 0
  sessions : List Nat := []
  owner : Bool := false
deriving DecidableEq, Repr

/-- A place that may be named or not. -/
abbrev Place := Option Nat

/-- Which host access failed (R254, R389). -/
inductive HostAccess where
  | staging
  | t2 (page : Nat) (poisoned : Bool)
  | copy (queue : Nat) (poisoned : Bool)
  | queue (queue : Nat)
deriving DecidableEq, Repr

/-- How a security command comes (R529, R532): by SEC_CMD_RUN from a register source, or out of band. -/
inductive Via where
  | bar (src : Source)
  | oob
deriving DecidableEq, Repr

/-- A chunk put together from its segments (R359 to R361): the port it came to, the sender's MAC address, CHANNEL,
MSG_SEQ and CHUNK, whether it is the LAST of its message, AUX, the upper header and the payload. -/
structure Chunk where
  port : Nat := 0
  mac : Nat := 0
  chan : Nat := 0
  msg : Nat := 0
  chunk : Nat := 0
  last : Bool := true
  aux : Nat := 0
  upper : List Byte := []
  payload : List Byte := []
deriving DecidableEq, Repr

end Sys2Proof.Machine
end

