-- ==== Sys2Proof/Syntax.lean ====
section
/-! DEFINITION. The commands of the W1400: one constructor for each row of spec/opcode_table.json. The commands of a core
name the core `c` and the thread `t` that issues; the instruction's own operands lie in its 256-bit word in SRAM. -/

namespace Sys2Proof

open Sys2Proof.Machine

/-- One command: a row of the table with its operands. -/
inductive Instr where
  | registerWrite (src : Source) (offset : Nat) (wide : Bool) (v : Reg64)
  | engTagSummaryClear (p : Nat) (v : Reg64)
  | tmm (c : Nat) (t : Nat)
  | tmmS24 (c : Nat) (t : Nat)
  | tmmSub (c : Nat) (t : Nat)
  | tmmPg (c : Nat) (t : Nat)
  | stationarySwap (c : Nat)
  | vecAdd (c : Nat) (t : Nat)
  | vecSub (c : Nat) (t : Nat)
  | vecMul (c : Nat) (t : Nat)
  | fma (c : Nat) (t : Nat)
  | vecMin (c : Nat) (t : Nat)
  | vecMax (c : Nat) (t : Nat)
  | cmplt (c : Nat) (t : Nat)
  | cmpeq (c : Nat) (t : Nat)
  | sel (c : Nat) (t : Nat)
  | div (c : Nat) (t : Nat)
  | sqrt (c : Nat) (t : Nat)
  | recip (c : Nat) (t : Nat)
  | rsqrt (c : Nat) (t : Nat)
  | exp (c : Nat) (t : Nat)
  | exp2 (c : Nat) (t : Nat)
  | log (c : Nat) (t : Nat)
  | log2 (c : Nat) (t : Nat)
  | tanh (c : Nat) (t : Nat)
  | sigmoid (c : Nat) (t : Nat)
  | erf (c : Nat) (t : Nat)
  | cvt (c : Nat) (t : Nat)
  | rsum (c : Nat) (t : Nat)
  | rmax (c : Nat) (t : Nat)
  | rmin (c : Nat) (t : Nat)
  | softmax (c : Nat) (t : Nat)
  | layernorm (c : Nat) (t : Nat)
  | rmsnorm (c : Nat) (t : Nat)
  | nop (c : Nat) (t : Nat)
  | halt (c : Nat) (t : Nat)
  | signal (c : Nat) (t : Nat)
  | wait (c : Nat) (t : Nat)
  | fence (c : Nat) (t : Nat)
  | br (c : Nat) (t : Nat)
  | beqz (c : Nat) (t : Nat)
  | bnez (c : Nat) (t : Nat)
  | bltu (c : Nat) (t : Nat)
  | li (c : Nat) (t : Nat)
  | add (c : Nat) (t : Nat)
  | addi (c : Nat) (t : Nat)
  | sub (c : Nat) (t : Nat)
  | mul (c : Nat) (t : Nat)
  | andOp (c : Nat) (t : Nat)
  | orOp (c : Nat) (t : Nat)
  | xorOp (c : Nat) (t : Nat)
  | shl (c : Nat) (t : Nat)
  | shr (c : Nat) (t : Nat)
  | modi (c : Nat) (t : Nat)
  | ldw (c : Nat) (t : Nat)
  | stw (c : Nat) (t : Nat)
  | send (c : Nat) (t : Nat)
  | recv (c : Nat) (t : Nat)
  | release (c : Nat) (t : Nat)
  | whead (c : Nat) (t : Nat)
  | wfull (c : Nat) (t : Nat)
  | wfree (c : Nat) (t : Nat)
  | tread (c : Nat) (t : Nat)
  | twrite (c : Nat) (t : Nat)
  | tdone (c : Nat) (t : Nat)
  | gpush (c : Nat) (t : Nat)
  | gwait (c : Nat) (t : Nat)
  | resolve (c : Nat) (w : Nat)
  | networkFlushEnd (p : Nat)
  | threadStart (p : Nat)
  | packetInject (c : Nat) (e : Nat)
  | packetDelivery (site : Nat) (route : Nat) (w : WireFinding)
  | creditPacket (site : Nat) (route : Nat) (w : WireFinding)
  | reductionEmit (c : Nat) (b : Nat)
  | start (src : Source)
  | armFabric (src : Source)
  | disarm (src : Source)
  | stagingComplete (bytes : Bytes)
  | checkingComplete
  | writingComplete
  | partitionReady
  | drainLimitExpiry (p : Nat)
  | enterRecovery (src : Source)
  | leaveService (src : Source)
  | read (die : Nat) (route : ReadInput)
  | write (die : Nat) (route : Nat)
  | writeDone (c : Nat) (route : Nat)
  | epochEnd (die : Nat)
  | moveTileCopied (page : Nat) (failed : CopyInput)
  | moveComplete (page : Nat)
  | eccWriteback (c : Nat) (word : Nat)
  | t0Scrub (c : Nat) (word : Nat) (f : EccFinding)
  | t1Scrub (die : Nat) (stack : Nat) (row : Nat) (idx : Nat) (word : Place) (f : EccFinding)
  | t1Refresh (stack : Nat)
  | activationGuard (stack : Nat) (row : Nat)
  | targetedSelfTest (loc : EccLoc) (failed : Bool)
  | pspPull (port : Nat) (mac : Nat) (msg : Bytes)
  | data (k : Chunk)
  | status (port : Nat) (mac : Nat) (msg : Bytes)
  | poolData (k : Chunk)
  | poolAck (port : Nat) (mac : Nat) (msg : Bytes)
  | gradAck (port : Nat) (mac : Nat) (msg : Bytes)
  | stagePullIssue (p : Nat) (flow : Nat) (sect : Nat)
  | pullResend (p : Nat) (flow : Nat) (idx : Nat)
  | sourceTimeout (p : Nat) (flow : Nat)
  | gradAckTimeout (p : Nat) (flow : Nat)
  | poolTimeout (port : Nat)
  | reparent (p : Nat) (flow : Nat)
  | childSilent (p : Nat) (flow : Nat) (child : Nat)
  | adoptHoldExpiry (p : Nat) (flow : Nat) (child : Nat)
  | windowPull (die : Nat) (route : Nat) (load : FeederLoad)
  | unitArrival (c : Nat) (route : Nat)
  | deadlineMiss (c : Nat) (w : Nat) (slot : Nat)
  | miss (site : Nat) (route : Nat)
  | switch (c : Nat) (route : Nat)
  | frameReceive (port : Nat) (frame : Bytes)
  | linkDown (port : Nat) (localFault : Bool) (remoteFault : Bool)
  | linkUp (port : Nat)
  | vc0BudgetInterval (port : Nat)
  | chunkSegment (port : Nat) (mac : Nat) (msg : Bytes)
  | gapTimeout (port : Nat) (idx : Nat)
  | ack (port : Nat) (mac : Nat) (msg : Bytes)
  | nak (port : Nat) (mac : Nat) (msg : Bytes)
  | waitAnswer (port : Nat) (mac : Nat) (msg : Bytes)
  | ackTimeout (idx : Nat)
  | herdRun (q : Nat)
  | herdDeadlineExpiry (p : Nat) (herd : Nat) (stage : Nat) (chunk : Nat)
  | resultDeadlineExpiry (p : Nat) (herd : Nat) (chunk : Nat)
  | lost (port : Nat) (mac : Nat) (msg : Bytes)
  | herdAbort (port : Nat) (mac : Nat) (msg : Bytes)
  | cxlLinkDown
  | cxlLinkUp (width : Nat) (speed : Nat)
  | failover (trained : Bool) (width : Nat) (speed : Nat)
  | enable (src : Source) (q : Nat)
  | disable (src : Source) (q : Nat)
  | queSqTail (q : Nat) (v : Word)
  | queCqHead (q : Nat) (v : Word)
  | skip (src : Source) (q : Nat)
  | retry (src : Source) (q : Nat)
  | tailWordPoll (q : Nat)
  | descriptorEntry (q : Nat) (hostDesc : Bytes) (hostData : Bytes)
  | fenceWaitSatisfied (q : Nat)
  | queueNop (q : Nat)
  | partStart (q : Nat)
  | taskRun (q : Nat)
  | partDrain (q : Nat)
  | partUnload (q : Nat)
  | copyIn (q : Nat) (host : Bytes)
  | copyOut (q : Nat)
  | sessionOpen (q : Nat)
  | sessionSubmit (q : Nat)
  | sessionClose (q : Nat)
  | taskEnd (p : EndInput)
  | completionWrite (q : Nat)
  | msixDeferExpiry (q : Nat)
  | modelBind (src : Source) (p : Nat) (idx : Nat) (v : BitVec 128)
  | batcherVisit
  | batchResult (p : Nat) (idx : Nat)
  | krfTake (q : Nat)
  | cut (p : Nat)
  | quietTimeout (p : Nat)
  | dumpEnd (p : Nat)
  | krfRestore (q : Nat) (host : Bytes)
  | serve (src : Source) (v : Reg64)
  | launchData (k : Chunk)
  | launchReparent
  | aosSample (reading : Reading)
  | phaseFault (die : Nat) (phase : Nat)
  | brickFault (brick : Nat)
  | efuseTrip (die : Nat)
  | ringEfuseTrip (group : Nat)
  | powerGood
  | meshLock
  | lockFault (c : Nat)
  | clusterWake (cl : Nat)
  | wakeDeferralExpiry (cl : Nat)
  | fastShed
  | shedRelease
  | pwrCap (src : Source) (v : Reg64)
  | pwrMgrHeartbeat (src : Source) (v : Reg64)
  | managerLost (b : Bool)
  | heldCapExpiry
  | overvoltage
  | inputCollapse
  | droopClear
  | droopSequence
  | droopPowerOff
  | thermalTrip (die : Nat)
  | aosWatchdog
  | mmpFailed (b : Bool)
  | mmpRestart (b : Bool)
  | heartbeat (d : BitVec 256)
  | grant (d : BitVec 256)
  | cap (d : BitVec 256)
  | aosLeaseClaim (src : Source) (v : Reg64)
  | claimWindowEnd
  | leaseExpiry
  | shedLevelPeriod (b : Bool) (busy : Nat)
  | engineSelfTest (c : Nat) (f : TestFinding)
  | oscillatorCalibration
  | linkCalibration (found : List LinkFinding)
  | agingMonitorRead (raises : Pairs)
  | telemetryExport
  | logFlush
  | bringupStage (f : StageFinding)
  | coreFailed (c : Nat) (det : CoreDetector)
  | serviceDieFail (die : Nat)
  | time (frame : BitVec 160)
  | capFrame (frame : BitVec 160)
  | coolant (frame : BitVec 160)
  | herdStop (frame : BitVec 160)
  | loopTimeout
  | trayCapLapse
  | logWrite
  | irqStatusClear (src : Source) (v : Reg64)
  | aosIrqDeferExpiry (idx : Nat)
  | imageVerify (b : Bool)
  | imageWrite (via : Via) (bytes : Bytes)
  | quote (via : Via) (bytes : Bytes)
  | certExport (via : Via) (bytes : Bytes)
  | custKey (via : Via) (bytes : Bytes)
  | enrolBegin (via : Via) (bytes : Bytes)
  | treeGenerated
  | enrolRequest (via : Via) (bytes : Bytes)
  | enrolInstall (via : Via) (bytes : Bytes)
  | reset (via : Via) (bytes : Bytes)
  | secData (dg : Bytes)
  | run (dg : Bytes)
  | fetch (dg : Bytes)
  | mateMade
  | mateBreak
  | standbyUp (straps : BitVec 8)
  | standbyLoss
  | busMasterEnable (v : Bool)
  | hostAccessFailed (a : HostAccess)
  | sidebandFrame (frame : BitVec 160)
  | herdStopResend
  | imageWriteComplete (readbackOk : Bool)
  | cxlCablePresence (present : Bool)
deriving DecidableEq, Repr

end Sys2Proof
end

