-- ==== Sys2Proof/WellFormed.lean ====
section
/-! DEFINITION. Well-formed commands: the places a command names exist on the module (R12, R17, R18, R50). -/

namespace Sys2Proof

open Sys2Proof.Machine

/-- A logical core index 140 v + u (R17). -/
def okCore (c : Nat) : Bool := c < 19600
/-- A thread of a core (R195). -/
def okThread (t : Nat) : Bool := t < 8
/-- A partition (R12). -/
def okPart (p : Nat) : Bool := p < 16
/-- A command queue (R393). -/
def okQueue (q : Nat) : Bool := q < 1024
/-- An optical port (R18). -/
def okPort (p : Nat) : Bool := p < 48
/-- A ring die (R50). -/
def okRing (n : Nat) : Bool := n < 64
/-- A compute die 10 y + x (R17). -/
def okDie (d : Nat) : Bool := d < 100
/-- A place of a temperature: a compute die, ring die n as 100 + n, stack k as 164 + k (R481). -/
def okPlace (d : Nat) : Bool := d < 188
/-- A cluster cx + 20 cy (R17). -/
def okCluster (c : Nat) : Bool := c < 400
/-- A place packets arrive: a core, or 32,768 + n for ring die n. -/
def okSite (s : Nat) : Bool := s < 19600 || (32768 ≤ s && s < 32832)
/-- A route (R207). -/
def okRoute (r : Nat) : Bool := 1 ≤ r && r < 16384
/-- A memory stack (R41). -/
def okStack (k : Nat) : Bool := k < 24
/-- An endpoint of a core (R214). -/
def okEndpoint (e : Nat) : Bool := e < 64
/-- A regulator phase: 64 of the core rail and 4 of the network rail (R456, R457). -/
def okPhase (p : Nat) : Bool := p < 68
/-- A brick (R454). -/
def okBrick (b : Nat) : Bool := b < 18
/-- A ring group (R453). -/
def okGroup (g : Nat) : Bool := g < 8
/-- A model of a partition (R413). -/
def okModel (i : Nat) : Bool := i < 16
/-- A cause of an AOS interrupt (R522). -/
def okCause (i : Nat) : Bool := i < 7
/-- A flow of a partition (R316). -/
def okFlow (f : Nat) : Bool := f < 256
/-- A window of a core (R317). -/
def okWindow (w : Nat) : Bool := w < 4
/-- A reduction binding of a router (R219). -/
def okBinding (i : Nat) : Bool := i < 16
/-- Words of T1 with errors lie in stacks of the module (R298). -/
def okFound (found : List T1Finding) : Bool := found.all (fun f => okStack f.stack)
/-- A naturally aligned register write in BAR0 or in the 1,024 doorbell pages (R391, R392). -/
def okOffset (o : Nat) (wide : Bool) : Bool := o % (if wide then 8 else 4) = 0 && o < 0x0440_0000

/-- A command names places that exist. -/
def Instr.wellFormed (i : Instr) : Bool :=
  match i with
  | .registerWrite _ offset wide _ => okOffset offset wide
  | .engTagSummaryClear p _ | .networkFlushEnd p | .threadStart p | .drainLimitExpiry p | .herdDeadlineExpiry p _ _ _
  | .resultDeadlineExpiry p _ _ | .cut p | .quietTimeout p | .dumpEnd p => okPart p
  | .tmm c t | .tmmS24 c t | .tmmSub c t | .tmmPg c t | .vecAdd c t | .vecSub c t | .vecMul c t | .fma c t | .vecMin c t
  | .vecMax c t | .cmplt c t | .cmpeq c t | .sel c t | .div c t | .sqrt c t | .recip c t | .rsqrt c t | .exp c t | .exp2 c t
  | .log c t | .log2 c t | .tanh c t | .sigmoid c t | .erf c t | .cvt c t | .rsum c t | .rmax c t | .rmin c t | .softmax c t
  | .layernorm c t | .rmsnorm c t | .nop c t | .halt c t | .signal c t | .wait c t | .fence c t | .br c t | .beqz c t | .bnez c t
  | .bltu c t | .li c t | .add c t | .addi c t | .sub c t | .mul c t | .andOp c t | .orOp c t | .xorOp c t | .shl c t | .shr c t
  | .modi c t | .ldw c t | .stw c t | .send c t | .recv c t | .release c t | .whead c t | .wfull c t | .wfree c t | .tread c t
  | .twrite c t | .tdone c t | .gpush c t | .gwait c t => okCore c && okThread t
  | .stationarySwap c | .eccWriteback c _ | .t0Scrub c _ _ | .lockFault c | .engineSelfTest c _ | .coreFailed c _ => okCore c
  | .resolve c w | .deadlineMiss c w _ => okCore c && okWindow w
  | .packetInject c e => okCore c && okEndpoint e
  | .packetDelivery site route _ | .creditPacket site route _ | .miss site route => okSite site && okRoute route
  | .reductionEmit c b => okCore c && okBinding b
  | .start _ | .armFabric _ | .disarm _ | .stagingComplete _ | .checkingComplete | .writingComplete | .partitionReady
  | .enterRecovery _ | .leaveService _ | .moveComplete _ | .targetedSelfTest _ _ | .ackTimeout _
  | .cxlLinkDown | .cxlLinkUp _ _ | .failover _ _ _ | .batcherVisit | .serve _ _ | .launchReparent | .aosSample _ | .powerGood
  | .meshLock | .fastShed | .shedRelease | .pwrCap _ _ | .pwrMgrHeartbeat _ _ | .managerLost _ | .heldCapExpiry | .overvoltage
  | .inputCollapse | .droopClear | .droopSequence | .droopPowerOff | .aosWatchdog | .mmpFailed _ | .mmpRestart _ | .heartbeat _
  | .grant _ | .cap _ | .aosLeaseClaim _ _ | .claimWindowEnd | .leaseExpiry | .shedLevelPeriod _ _ | .oscillatorCalibration
  | .linkCalibration _ | .agingMonitorRead _ | .telemetryExport | .logFlush | .bringupStage _ | .time _ | .capFrame _ | .coolant _
  | .herdStop _ | .loopTimeout | .trayCapLapse | .logWrite | .irqStatusClear _ _ | .imageVerify _ | .imageWrite _ _ | .quote _ _
  | .certExport _ _ | .custKey _ _ | .enrolBegin _ _ | .treeGenerated | .enrolRequest _ _ | .enrolInstall _ _ | .reset _ _
  | .secData _ | .run _ | .fetch _ | .mateMade | .mateBreak | .standbyUp _ | .standbyLoss | .busMasterEnable _ | .hostAccessFailed _
  | .sidebandFrame _ | .herdStopResend | .imageWriteComplete _ | .cxlCablePresence _ => true
  | .read die r => okRing die && okRoute r.route && okFound r.found
  | .moveTileCopied _ f => okFound f.found
  | .taskEnd e => okPart e.part
  | .write die route | .windowPull die route _ => okRing die && okRoute route
  | .writeDone c route | .unitArrival c route | .switch c route => okCore c && okRoute route
  | .epochEnd die | .serviceDieFail die => okRing die
  | .t1Scrub die stack _ _ _ _ => okRing die && okStack stack
  | .t1Refresh stack | .activationGuard stack _ => okStack stack
  | .pspPull port _ _ | .status port _ _ | .poolAck port _ _ | .gradAck port _ _ | .poolTimeout port | .frameReceive port _
  | .linkDown port _ _ | .linkUp port | .vc0BudgetInterval port | .chunkSegment port _ _ | .gapTimeout port _ | .ack port _ _
  | .nak port _ _ | .waitAnswer port _ _ | .lost port _ _ | .herdAbort port _ _ => okPort port
  | .data k | .poolData k | .launchData k => okPort k.port
  | .stagePullIssue p flow _ | .pullResend p flow _ | .sourceTimeout p flow | .gradAckTimeout p flow | .reparent p flow
  | .childSilent p flow _ | .adoptHoldExpiry p flow _ => okPart p && okFlow flow
  | .herdRun q | .enable _ q | .disable _ q | .queSqTail q _ | .queCqHead q _ | .skip _ q | .retry _ q | .tailWordPoll q
  | .descriptorEntry q _ _ | .fenceWaitSatisfied q | .queueNop q | .partStart q | .taskRun q | .partDrain q | .partUnload q
  | .copyIn q _ | .copyOut q | .sessionOpen q | .sessionSubmit q | .sessionClose q | .completionWrite q | .msixDeferExpiry q
  | .krfTake q | .krfRestore q _ => okQueue q
  | .modelBind _ p idx _ | .batchResult p idx => okPart p && okModel idx
  | .phaseFault die phase => okDie die && okPhase phase
  | .brickFault brick => okBrick brick
  | .efuseTrip die => okDie die
  | .ringEfuseTrip group => okGroup group
  | .clusterWake cl | .wakeDeferralExpiry cl => okCluster cl
  | .thermalTrip die => okPlace die
  | .aosIrqDeferExpiry idx => okCause idx

end Sys2Proof
end

