-- ==== Sys2Proof/Config.lean ====
section
/-! DEFINITION. The free values: what the manual leaves open. None of them has a body, so nothing can be proved
about the value of one. -/

namespace Sys2Proof.Config

/-- How many units of an ordered list of write-backs have ended when a task aborts: it follows from the timing in
ck, which the model leaves out (R105). Applied to the counter `free` of the state. DESIGN CHOICE (log 11). -/
opaque freeNat : Nat → Nat

/-- The offset, in ULP of the FP32 result, of the silicon's table and polynomial for function `fn` of R117 at the
input bits `x`. R117 fixes only its bound; `Silicon.lean` keeps the result within it. DESIGN CHOICE (log 7). -/
opaque siliconOffset : (fn : Nat) → (x : Nat) → Int

/-- XMSS verification over a key digest, a message digest and a signature (an external standard, R524 to R526). DESIGN CHOICE (log 8). -/
opaque xmssVerify : (keyDigest : BitVec 256) → (message : List (BitVec 8)) → (signature : List (BitVec 8)) → Bool

/-- XMSS signature of a message by the leaf `leaf` of the module's tree numbered `gen` (R530 to R533). DESIGN CHOICE (log 8). -/
opaque xmssSign : (gen : Nat) → (leaf : Nat) → (message : List (BitVec 8)) → List (BitVec 8)

/-- The root public key of the module's XMSS tree numbered `gen`, made from a secret seed (R533). DESIGN CHOICE (log 8). -/
opaque xmssRoot : (gen : Nat) → List (BitVec 8)

/-- The fuse map digest (R538): it covers every fuse read over the maintenance chain, most of which the manual gives no place,
and those that R528 blows. DESIGN CHOICE (log 8). -/
opaque fuseMapDigest : (fwRevoked caRevoked minSvn : Nat) → BitVec 256

/-- The DRAM bank of a row of a stack, and the frames of its die that hold a word of the row: R300 speaks of both and places neither.
DESIGN CHOICE (log 81). -/
opaque t1Bank : (stack row : Nat) → Nat
opaque t1Frames : (stack row : Nat) → List Nat

/-- Orovin's PCI-SIG vendor identifier, fixed by fuse (R386): the manual gives no number. DESIGN CHOICE (log 127). -/
opaque vendorId : BitVec 16

end Sys2Proof.Config
end

