-- ==== Sys2Proof/Machine/Bits.lean ====
section
/-! DEFINITION. Bit fields of packed words, little-endian bytes and sign extension (R14). -/

namespace Sys2Proof.Machine

/-- Bits [lo + w - 1 : lo] of a word held as a natural number. -/
def fld (x lo w : Nat) : Nat := (x >>> lo) % 2 ^ w

/-- Bit `i` of a word, as a condition. -/
def bitAt (x i : Nat) : Bool := fld x i 1 == 1

/-- One field of a word under construction: `v` truncated to `w` bits, placed at bit `lo`. -/
def put (lo w v : Nat) : Nat := (v % 2 ^ w) <<< lo

/-- 1 for true, 0 for false. -/
def b2n (b : Bool) : Nat := if b then 1 else 0

/-- The signed value of the low `w` bits of `x`. -/
def signed (w x : Nat) : Int :=
  let y := x % 2 ^ w
  if y < 2 ^ (w - 1) then (y : Int) else (y : Int) - (2 ^ w : Nat)

/-- The two's-complement code, in `w` bits, of an integer. -/
def twos (w : Nat) (v : Int) : Nat := (v % ((2 ^ w : Nat) : Int)).toNat

/-- A saturating count: `x` limited to the largest value of `w` bits. -/
def satN (w x : Nat) : Nat := min x (2 ^ w - 1)

/-- The value of bytes in little-endian order (R14). -/
def leNat : List Byte → Nat
  | [] => 0
  | b :: bs => b.toNat + 256 * leNat bs

/-- The low `n` bytes of a value, least significant first (R14). -/
def leBytes : (n : Nat) → (x : Nat) → List Byte
  | 0, _ => []
  | n + 1, x => BitVec.ofNat 8 x :: leBytes n (x / 256)

/-- The value of bytes in big-endian order, for the fields of external standards (R14). -/
def beNat (bs : List Byte) : Nat := leNat bs.reverse

/-- The low `n` bytes of a value, most significant first, for external standards (R14). -/
def beBytes (n x : Nat) : List Byte := (leBytes n x).reverse

/-- The number of set bits among the low `w` bits. -/
def popcount : (w : Nat) → (x : Nat) → Nat
  | 0, _ => 0
  | w + 1, x => x % 2 + popcount w (x / 2)

/-- `a / b` rounded up. -/
def ceilDiv (a b : Nat) : Nat := (a + b - 1) / b

/-- A list cut to `n` elements, filled at the end with `d` (R14: records of fixed length). -/
def padTo {α : Type} (n : Nat) (d : α) (xs : List α) : List α :=
  xs.take n ++ List.replicate (n - xs.length) d

/-- Elements `off` to `off + n - 1` of a list. -/
def slice {α : Type} (xs : List α) (off n : Nat) : List α := (xs.drop off).take n

/-- The unsigned little-endian field of `n` bytes at byte `off` of a record. -/
def leAt (bs : List Byte) (off n : Nat) : Nat := leNat (slice bs off n)

/-- A list cut into pieces of `n` elements, at most `fuel` of them. -/
def chunksOf {α : Type} (n : Nat) : (fuel : Nat) → List α → List (List α)
  | 0, _ => []
  | _ + 1, [] => []
  | fuel + 1, xs => xs.take n :: chunksOf n fuel (xs.drop n)

/-- A 32-byte digest from its bytes, byte 0 lowest (R14). -/
def digestOf (bs : List Byte) : Digest := BitVec.ofNat 256 (leNat bs)

/-- The 32 bytes of a digest. -/
def digestBytes (d : Digest) : List Byte := leBytes 32 d.toNat

end Sys2Proof.Machine
end

