-- ==== Sys2Proof/Machine/Num.lean ====
section
/-! DEFINITION. Number formats, rounding and the arithmetic of chapter 02: element formats (R53 to R58), one rounding
(R78 to R84), ACC128 (R66 to R74) and the exact operations of the vector unit (R116). -/

namespace Sys2Proof.Machine

/-- The format codes of R53. -/
inductive Fmt where
  | fp4 | e4m3 | e5m2 | int8 | bf16 | fp16 | fp32 | acc128
deriving DecidableEq, Repr

/-- R53: codes 0x8 to 0xF are unassigned. -/
def Fmt.ofCode : Nat → Option Fmt
  | 0 => some .fp4 | 1 => some .e4m3 | 2 => some .e5m2 | 3 => some .int8
  | 4 => some .bf16 | 5 => some .fp16 | 6 => some .fp32 | 7 => some .acc128
  | _ => none

/-- Bits per element (R53). -/
def Fmt.bits : Fmt → Nat
  | .fp4 => 4 | .e4m3 => 8 | .e5m2 => 8 | .int8 => 8 | .bf16 => 16 | .fp16 => 16 | .fp32 => 32 | .acc128 => 128

/-- Whether elements share a scale byte per 32-element block (R59). -/
def Fmt.blockScaled : Fmt → Bool
  | .fp4 => true | .e4m3 => true | .e5m2 => true | .int8 => true
  | .bf16 => false | .fp16 => false | .fp32 => false | .acc128 => false

/-- Exponent width, mantissa width and bias of a floating-point format (R54). -/
structure FpShape where
  exp : Nat
  man : Nat
  bias : Nat
deriving DecidableEq, Repr

/-- R54. INT8 and ACC128 are no floating-point formats; they are given the shape of FP32, which nothing uses. -/
def Fmt.shape : Fmt → FpShape
  | .fp4 => ⟨2, 1, 1⟩ | .e4m3 => ⟨4, 3, 7⟩ | .e5m2 => ⟨5, 2, 15⟩
  | .bf16 => ⟨8, 7, 127⟩ | .fp16 => ⟨5, 10, 15⟩ | .fp32 => ⟨8, 23, 127⟩
  | .int8 => ⟨8, 23, 127⟩ | .acc128 => ⟨8, 23, 127⟩

/-- The code of the largest finite magnitude (R54 to R56). -/
def Fmt.maxCode : Fmt → Nat
  | .fp4 => 0x7 | .e4m3 => 0x7E | .e5m2 => 0x7B | .bf16 => 0x7F7F | .fp16 => 0x7BFF | .fp32 => 0x7F7F_FFFF
  | .int8 => 0x7F | .acc128 => 0x7F7F_FFFF

/-- An exact value: NaN, an infinity, or the magnitude n / d with its sign (d is never 0; a zero keeps its sign). -/
inductive Fp where
  | nan
  | inf (neg : Bool)
  | fin (neg : Bool) (n d : Nat)
deriving DecidableEq, Repr

/-- n / d × 2^e as a pair of naturals. -/
def scale2 (n d : Nat) (e : Int) : Nat × Nat :=
  if 0 ≤ e then (n * 2 ^ e.toNat, d) else (n, d * 2 ^ (-e).toNat)

/-- The value of a floating-point code (R54 to R56, R58). -/
def fpDecode (f : Fmt) (code : Nat) : Fp :=
  let s := f.shape
  let m := fld code 0 s.man
  let e := fld code s.man s.exp
  let neg := bitAt code (s.man + s.exp)
  let special : Bool := match f with
    | .fp4 => false
    | .e4m3 => e = 15 && m = 7
    | _ => e = 2 ^ s.exp - 1
  if special then
    (if f = .e4m3 ∨ m ≠ 0 then .nan else .inf neg)
  else if e = 0 then
    let (n, d) := scale2 m 1 (1 - (s.bias : Int) - s.man)
    .fin neg n d
  else
    let (n, d) := scale2 (m + 2 ^ s.man) 1 ((e : Int) - s.bias - s.man)
    .fin neg n d

/-- floor(log2(n / d)) for n, d ≠ 0. -/
def flog2 (n d : Nat) : Int :=
  let e : Int := (Nat.log2 n : Int) - (Nat.log2 d : Int)
  let (a, b) := scale2 n d (-e)
  if a < b then e - 1 else e

/-- The rounding modes of R79. -/
inductive Rnd where
  | rne | rtz | sr
deriving DecidableEq, Repr

/-- R79: code 3 is refused at decode, so no program holds it; it is read as RNE. -/
def Rnd.ofCode : Nat → Rnd
  | 1 => .rtz | 2 => .sr | _ => .rne

/-- Whether a fraction r / d, above the truncated integer q, rounds away from zero (R79, R82). -/
def roundsUp (mode : Rnd) (rand q r d : Nat) : Bool :=
  match mode with
  | .rne => d < 2 * r || (2 * r = d && q % 2 = 1)
  | .rtz => false
  | .sr => rand < r * 2 ^ 32 / d

/-- An exact magnitude n / d rounded once onto the grid of `f`: the code it would have with no largest value, which
is the code of the written value when it does not exceed `f.maxCode` (R80, R82). -/
def roundCode (f : Fmt) (mode : Rnd) (rand n d : Nat) : Nat :=
  if n = 0 then 0 else
  let s := f.shape
  let emin : Int := 1 - (s.bias : Int) - s.man
  let u : Int := max (flog2 n d - s.man) emin
  let (a, b) := scale2 n d (-u)
  let q := a / b
  let q' := if roundsUp mode rand q (a % b) b then q + 1 else q
  ((u - emin).toNat) * 2 ^ s.man + q'

/-- The canonical NaN of an output format (R80). -/
def Fmt.canonNan : Fmt → Nat
  | .fp32 => 0x7FC0_0000 | .bf16 => 0x7FC0 | .fp16 => 0x7E00
  | .fp4 => 0 | .e4m3 => 0x7F | .e5m2 => 0x7E | .int8 => 0 | .acc128 => 0x7FC0_0000

/-- The sign bit of a format, as a code. -/
def Fmt.signBit (f : Fmt) : Nat := 2 ^ (f.shape.exp + f.shape.man)

/-- A code with its sign; a nonzero negative value that rounds to 0 keeps the minus sign (R80 to R84 name none for it: DESIGN CHOICE, log 103). -/
def withSign (f : Fmt) (neg : Bool) (c : Nat) : Nat := if neg then f.signBit + c else c

/-- The exact value of the magnitude code `c`, as n / d. -/
def magOf (f : Fmt) (c : Nat) : Nat × Nat :=
  match fpDecode f c with
  | .fin _ n d => (n, d)
  | _ => (0, 1)

/-- Whether a magnitude is at least MAX + ULP ÷ 2 (R81). -/
def overflows (f : Fmt) (n d : Nat) : Bool := f.maxCode < roundCode f .rne 0 n d

/-- Whether a magnitude is at least MAX + ULP (R81). -/
def pastMax (f : Fmt) (n d : Nat) : Bool := f.maxCode < roundCode f .rtz 0 n d

/-- One rounding of an exact value to FP32, BF16 or FP16: the written code, and whether OVERFLOW is set
(R80 to R82). -/
def fpRound (f : Fmt) (mode : Rnd) (rand : Nat) : Fp → Nat × Bool
  | .nan => (f.canonNan, false)
  | .inf neg => (withSign f neg (f.maxCode + 1), false)
  | .fin neg n d =>
    let ovf := overflows f n d
    let c := match mode with
      | .rtz => min f.maxCode (roundCode f .rtz rand n d)
      | .rne => min (f.maxCode + 1) (roundCode f .rne rand n d)
      | .sr => if pastMax f n d then f.maxCode + 1 else min (f.maxCode + 1) (roundCode f .sr rand n d)
    (withSign f neg c, ovf)

/-- One rounding of an exact value to FP4, E4M3 or E5M2, clamped to the largest finite magnitude (R85, R86). -/
def fpClamp (f : Fmt) (mode : Rnd) (rand : Nat) : Fp → Nat
  | .fin neg n d => withSign f neg (min f.maxCode (roundCode f mode rand n d))
  | _ => 0

/-- One rounding of an exact value to an INT8 element in units of 2^-6, clamped to ±127 (R85, R86). -/
def int8Clamp (mode : Rnd) (rand : Nat) : Fp → Nat
  | .fin neg n d =>
    let a := n * 64
    let q := a / d
    let q' := min 127 (if roundsUp mode rand q (a % d) d then q + 1 else q)
    if neg then (256 - q') % 256 else q'
  | _ => 0

/-! ## Exact operations -/

/-- Negation. -/
def Fp.neg : Fp → Fp
  | .nan => .nan
  | .inf s => .inf (!s)
  | .fin s n d => .fin (!s) n d

/-- The exact sum. A sum of zero from opposite signs is +0, as IEEE 754 gives it outside the mode this module has
not. -/
def Fp.add : Fp → Fp → Fp
  | .nan, _ => .nan
  | _, .nan => .nan
  | .inf s, .inf t => if s = t then .inf s else .nan
  | .inf s, .fin .. => .inf s
  | .fin .., .inf t => .inf t
  | .fin s n d, .fin t m e =>
    let a := n * e
    let b := m * d
    if s = t then .fin s (a + b) (d * e)
    else if a = b then .fin false 0 1
    else if b < a then .fin s (a - b) (d * e)
    else .fin t (b - a) (d * e)

/-- The exact product. -/
def Fp.mul : Fp → Fp → Fp
  | .nan, _ => .nan
  | _, .nan => .nan
  | .inf s, .inf t => .inf (s != t)
  | .inf s, .fin t m _ => if m = 0 then .nan else .inf (s != t)
  | .fin s n _, .inf t => if n = 0 then .nan else .inf (s != t)
  | .fin s n d, .fin t m e => .fin (s != t) (n * m) (d * e)

/-- The exact quotient. -/
def Fp.div : Fp → Fp → Fp
  | .nan, _ => .nan
  | _, .nan => .nan
  | .inf _, .inf _ => .nan
  | .inf s, .fin t _ _ => .inf (s != t)
  | .fin s _ _, .inf t => .fin (s != t) 0 1
  | .fin s n d, .fin t m e =>
    if m = 0 then (if n = 0 then .nan else .inf (s != t)) else .fin (s != t) (n * e) (d * m)

/-- Newton's iteration for the integer square root, from above. -/
def isqrtGo (n : Nat) : (fuel : Nat) → Nat → Nat
  | 0, x => x
  | fuel + 1, x =>
    let y := (x + n / x) / 2
    if y < x then isqrtGo n fuel y else x

/-- The integer square root, rounded down. -/
def isqrt (n : Nat) : Nat :=
  if n = 0 then 0 else isqrtGo n (Nat.log2 n + 2) (2 ^ (Nat.log2 n / 2 + 1))

/-- The square root to 256 binary places below its denominator, with one sticky place for an inexact root, so that
every rounding of it in the formats of R53 is the rounding of the exact root. -/
def Fp.sqrt : Fp → Fp
  | .nan => .nan
  | .inf s => if s then .nan else .inf false
  | .fin s n d =>
    if n = 0 then .fin s 0 1
    else if s then .nan
    else
      let x := n * d * 2 ^ 512
      let r := isqrt x
      if r * r = x then .fin false r (d * 2 ^ 256) else .fin false (2 * r + 1) (d * 2 ^ 257)

/-- Whether a value is below another; false when either is NaN. The two zeros are equal. -/
def Fp.lt : Fp → Fp → Bool
  | .nan, _ => false
  | _, .nan => false
  | .inf s, .inf t => s && !t
  | .inf s, .fin .. => s
  | .fin .., .inf t => !t
  | .fin s n d, .fin t m e =>
    let a : Int := if s then -((n * e : Nat) : Int) else ((n * e : Nat) : Int)
    let b : Int := if t then -((m * d : Nat) : Int) else ((m * d : Nat) : Int)
    a < b

/-- Whether two values are equal; false when either is NaN; the two zeros are equal. -/
def Fp.eqv : Fp → Fp → Bool
  | .nan, _ => false
  | _, .nan => false
  | .inf s, .inf t => s == t
  | .inf _, .fin .. => false
  | .fin .., .inf _ => false
  | .fin s n d, .fin t m e => n * e = m * d && (s == t || n = 0)

/-- Whether a value is a zero. -/
def Fp.isZero : Fp → Bool
  | .fin _ n _ => n == 0
  | _ => false

/-- Whether a value is NaN. -/
def Fp.isNan : Fp → Bool
  | .nan => true
  | _ => false

/-- Whether a value carries a minus sign. -/
def Fp.signOf : Fp → Bool
  | .nan => false
  | .inf s => s
  | .fin s _ _ => s

/-- IEEE 754-2019 minimum: a NaN operand gives NaN, and -0 is below +0 (R151). -/
def Fp.min (a b : Fp) : Fp :=
  if a.isNan || b.isNan then .nan
  else if a.lt b then a
  else if b.lt a then b
  else if a.signOf then a else b

/-- IEEE 754-2019 maximum: a NaN operand gives NaN, and +0 is above -0 (R151). -/
def Fp.max (a b : Fp) : Fp :=
  if a.isNan || b.isNan then .nan
  else if a.lt b then b
  else if b.lt a then a
  else if a.signOf then b else a

/-- The magnitude. -/
def Fp.abs : Fp → Fp
  | .nan => .nan
  | .inf _ => .inf false
  | .fin _ n d => .fin false n d

/-- +0. -/
def Fp.zero : Fp := .fin false 0 1

/-! ## FP32 arithmetic rounded to nearest even (R75, R76, R118, R221) -/

/-- An FP32 code rounded to nearest even from an exact value. -/
def f32 (v : Fp) : Nat := (fpRound .fp32 .rne 0 v).1

/-- Whether a code of FP32 is an infinity. -/
def isInf32 (c : Nat) : Bool := c % 2 ^ 31 == 0x7F80_0000

/-- Whether a code of FP32 is NaN. -/
def isNan32 (c : Nat) : Bool := 0x7F80_0000 < c % 2 ^ 31

/-- FP32 addition, with whether a finite sum became an infinity (R76, R77, R221). -/
def f32add (a b : Nat) : Nat × Bool := fpRound .fp32 .rne 0 ((fpDecode .fp32 a).add (fpDecode .fp32 b))

/-- FP32 addition, the sum alone. -/
def f32sum (a b : Nat) : Nat := (f32add a b).1

/-- Adjacent pairs combined, one level of the trees of R76 and R118. -/
def pairUp {α : Type} (f : α → α → α) : List α → List α
  | a :: b :: t => f a b :: pairUp f t
  | [a] => [a]
  | [] => []

/-- The binary tree of R76 and R118 over a list whose length is a power of two up to 2^levels. -/
def treeFold {α : Type} (f : α → α → α) (d : α) : (levels : Nat) → List α → α
  | 0, xs => xs.headD d
  | n + 1, xs => treeFold f d n (pairUp f xs)

/-! ## Elements of EXACT mode (R67, R69) -/

/-- A decoded element of a block-scaled format: an integer in units of the format's LSB, or a special. -/
inductive Elem where
  | nan
  | inf (neg : Bool)
  | int (v : Int)
deriving DecidableEq, Repr

/-- The exponent of the element LSB of R67. -/
def Fmt.lsbExp : Fmt → Int
  | .fp4 => -1 | .e4m3 => -9 | .e5m2 => -16 | .int8 => -6
  | .bf16 => 0 | .fp16 => 0 | .fp32 => 0 | .acc128 => 0

/-- The element of a code of a block-scaled format (R55 to R57, R67). -/
def elemDecode (f : Fmt) (code : Nat) : Elem :=
  match f with
  | .int8 => .int (signed 8 code)
  | _ =>
    match fpDecode f code with
    | .nan => .nan
    | .inf s => .inf s
    | .fin s n d =>
      let (a, b) := scale2 n d (-f.lsbExp)
      .int (if s then -((a / b : Nat) : Int) else ((a / b : Nat) : Int))

/-- One exact product (R67, R69). -/
def elemMul : Elem → Elem → Elem
  | .nan, _ => .nan
  | _, .nan => .nan
  | .inf s, .inf t => .inf (s != t)
  | .inf s, .int v => if v = 0 then .nan else .inf (s != decide (v < 0))
  | .int v, .inf t => if v = 0 then .nan else .inf (t != decide (v < 0))
  | .int v, .int w => .int (v * w)

/-! ## ACC128 (R66, R68 to R74) -/

/-- The value of an ACC128 accumulator: a special, or the integer A in units of 2^-64 (R66). -/
inductive Acc where
  | nan
  | inf (neg : Bool)
  | fin (a : Int)
deriving DecidableEq, Repr

/-- The largest finite A (R66). -/
def accMax : Int := 2 ^ 127 - 2

/-- R66. -/
def accDecode (bits : Nat) : Acc :=
  let b := bits % 2 ^ 128
  if b = 2 ^ 127 then .nan
  else if b = 2 ^ 127 + 1 then .inf true
  else if b = 2 ^ 127 - 1 then .inf false
  else .fin (signed 128 b)

/-- R66. -/
def accEncode : Acc → Nat
  | .nan => 2 ^ 127
  | .inf true => 2 ^ 127 + 1
  | .inf false => 2 ^ 127 - 1
  | .fin a => twos 128 a

/-- Addition of R71 with the special-value rules of R69: the sum, and whether OVERFLOW is set. -/
def accAdd : Acc → Acc → Acc × Bool
  | .nan, _ => (.nan, false)
  | _, .nan => (.nan, false)
  | .inf s, .inf t => (if s = t then .inf s else .nan, false)
  | .inf s, .fin _ => (.inf s, false)
  | .fin _, .inf t => (.inf t, false)
  | .fin a, .fin b =>
    let c := a + b
    if accMax < c then (.inf false, true)
    else if c < -accMax then (.inf true, true)
    else (.fin c, false)

/-- The exact value of an accumulator; a finite A = 0 is +0 (R66, R74). -/
def accValue : Acc → Fp
  | .nan => .nan
  | .inf s => .inf s
  | .fin a => .fin (decide (a < 0)) a.natAbs (2 ^ 64)

/-- A value rounded once to a multiple of 2^-64 (R152): the accumulator, INEXACT, OVERFLOW. -/
def accOfFp (mode : Rnd) (rand : Nat) : Fp → Acc × Bool × Bool
  | .nan => (.nan, false, false)
  | .inf s => (.inf s, false, false)
  | .fin s n d =>
    let x := n * 2 ^ 64
    let q := x / d
    let r := x % d
    let q' := if roundsUp mode rand q r d then q + 1 else q
    if accMax < (q' : Int) then (.inf s, r != 0, true)
    else (.fin (if s then -(q' : Int) else (q' : Int)), r != 0, false)

/-- One block contribution: the products of one K-block scaled by 2^(L + sa + sb + 64), with INEXACT and OVERFLOW
(R67 to R69). -/
def blockContribution (prods : List Elem) (shift : Int) : Acc × Bool × Bool :=
  let special := prods.foldl (fun (acc : Acc) (p : Elem) =>
    match p with
    | .int _ => acc
    | .nan => .nan
    | .inf s => (accAdd acc (.inf s)).1) (.fin 0)
  match special with
  | .nan => (.nan, false, false)
  | .inf s => (.inf s, false, false)
  | .fin _ =>
    let total := prods.foldl (fun (t : Int) (p : Elem) => match p with | .int v => t + v | _ => t) 0
    let (mag, inexact) : Nat × Bool :=
      if 0 ≤ shift then (total.natAbs * 2 ^ shift.toNat, false)
      else (total.natAbs / 2 ^ (-shift).toNat, total.natAbs % 2 ^ (-shift).toNat != 0)
    let neg : Bool := total < 0
    if 2 ^ 111 ≤ mag then (.inf neg, false, true)
    else (.fin (if neg then -(mag : Int) else (mag : Int)), inexact, false)

/-! ## Philox4x32-10 (R83) -/

/-- The rounds of R83. -/
def philoxGo : (rounds : Nat) → (c0 c1 c2 c3 k0 k1 : Nat) → Nat
  | 0, c0, _, _, _, _, _ => c0
  | n + 1, c0, c1, c2, c3, k0, k1 =>
    let p0 := 0xD251_1F53 * c0
    let p1 := 0xCD9E_8D57 * c2
    philoxGo n (((p1 / 2 ^ 32) ^^^ c1) ^^^ k0) (p1 % 2 ^ 32) (((p0 / 2 ^ 32) ^^^ c3) ^^^ k1) (p0 % 2 ^ 32)
      ((k0 + 0x9E37_79B9) % 2 ^ 32) ((k1 + 0xBB67_AE85) % 2 ^ 32)

/-- The random word R of an element: column, row, tensor and batch, and USE_INDEX under the partition's seed
(R83, R84). -/
def philox (seed col row tensor batch use : Nat) : Nat :=
  philoxGo 10 (col % 2 ^ 32) (row % 2 ^ 32) (fld tensor 0 20 + (batch % 4096) * 2 ^ 20) (use % 2 ^ 32)
    (fld seed 0 32) (fld seed 32 32)

end Sys2Proof.Machine
end

