-- ==== Sys2Proof/Machine/Flags.lean ====
section
/-! DEFINITION. Tag words: the flags every output tile carries (R88), how they combine (R89) and what sets them. -/

namespace Sys2Proof.Machine

/-- INEXACT, bit 0 of a tag word (R88). -/
def tagInexact : Nat := 1
/-- OVERFLOW, bit 1. -/
def tagOverflow : Nat := 2
/-- NAN, bit 2. -/
def tagNan : Nat := 4
/-- APPROX, bit 3. -/
def tagApprox : Nat := 8
/-- VENEER, bit 4. -/
def tagVeneer : Nat := 16

/-- MISS_EST of a tag word (R88). -/
def tagMiss (w : Nat) : Nat := fld w 8 8

/-- A tag word from its flags and MISS_EST; reserved bits are 0 (R88). -/
def mkTag (flags miss : Nat) : Nat := put 0 5 flags + put 8 8 miss

/-- The tag word of a result combined from two tiles: bits [4:0] ORed, the larger MISS_EST (R89). -/
def tagCombine (a b : Nat) : Nat := mkTag (fld a 0 5 ||| fld b 0 5) (max (tagMiss a) (tagMiss b))

/-- Flags joined to a tag word. -/
def tagAdd (w flags : Nat) : Nat := mkTag (fld w 0 5 ||| flags) (tagMiss w)

/-- The flags an accumulation raises. -/
def accFlags (inexact overflow : Bool) : Nat :=
  (if inexact then tagInexact else 0) ||| (if overflow then tagOverflow else 0)

/-- The NAN flag of a written code of FP32, BF16, FP16 or ACC128. -/
def nanFlag (f : Fmt) (code : Nat) : Nat :=
  let isNan : Bool := match f with
    | .acc128 => accDecode code = .nan
    | _ => (fpDecode f code).isNan
  if isNan then tagNan else 0

/-- The sticky summary of a partition after a tile with tag word `w` is written (R97). -/
def tagSummary (old w : Nat) : Nat := old ||| fld w 0 5

end Sys2Proof.Machine
end

