-- ==== Sys2Proof/Machine/Operands.lean ====
section
/-! DEFINITION. Operand forms of the core's instructions: register fields (R128), descriptors and address generation
(R129 to R131), carry tiles (R119, R148), vector registers (R153) and the control layout (R198). -/

namespace Sys2Proof.Machine

/-- Bytes of core SRAM (R191). -/
def sramBytes : Nat := 0x28_0000

/-- Scalar register Xn of a thread; X0 reads 0 (R195). -/
def Thread.xr (th : Thread) (n : Nat) : Word := if n = 0 then 0 else kgetD 0 th.x n

/-- Write of Xn; a write to X0 is discarded (R195). -/
def Thread.setX (th : Thread) (n : Nat) (v : Word) : Thread :=
  if n = 0 then th else { th with x := kset 0 th.x n v }

/-- Lane `i` of vector register Vn. -/
def Thread.lane (th : Thread) (n i : Nat) : Word := kgetD 0 th.v (64 * n + i)

/-- Write of lane `i` of Vn. -/
def Thread.setLane (th : Thread) (n i : Nat) (v : Word) : Thread :=
  { th with v := kset 0 th.v (64 * n + i) v }

/-- The value of a register-select field: 0 names no register (R128). -/
def regSel (th : Thread) (n : Nat) : Nat := (th.xr n).toNat

/-- What an instruction of a core reads beside the core: its partition's seed (R83), the next free value, whether
a GATE take is armed in its partition (R427), and how its engine uses its array (R111, R114). -/
structure Ctx where
  seed : Nat
  free : Nat
  gateArmed : Bool
  arr : ArrayUse := {}
deriving DecidableEq, Repr

/-- What an instruction that does not wait leaves: the core, the thread, the free values used, the flags of the tiles
written (R97), CREDIT packets and CONTROL messages for the network, the code of a task abort, the ECC word of a 0x0402, and the words
with a correctable error that it read (R297). -/
structure CoreOut where
  core : Core
  th : Thread
  used : Nat := 0
  tags : Nat := 0
  credits : List (Nat × Nat) := []
  ctrls : List (Nat × BitVec 480) := []
  abort : Option Nat := none
  word : Nat := 0
  soft : List Nat := []
deriving DecidableEq, Repr

/-- An instruction waits, with its effect nowhere, or goes. -/
inductive CoreRes where
  | wait
  | go (o : CoreOut)
deriving DecidableEq, Repr

/-- The instruction goes with nothing but a new thread. -/
def goThread (k : Core) (th : Thread) : CoreRes := .go { core := k, th := th }

/-- The task aborts with a code and the instruction leaves nothing else. -/
def goAbort (k : Core) (th : Thread) (code : Nat) : CoreRes := .go { core := k, th := th, abort := some code }

/-! ## Control layout (R198) -/

def iRD (w : Nat) : Nat := fld w 8 5
def iRS1 (w : Nat) : Nat := fld w 13 5
def iRS2 (w : Nat) : Nat := fld w 18 5
def iIDX (w : Nat) : Nat := fld w 23 6
def iIMM (w : Nat) : Nat := fld w 32 32

/-! ## Tensor descriptors (R129 to R131) -/

/-- A tensor descriptor: the fields of R129. -/
structure Desc where
  base : Nat := 0
  fmt : Nat := 0
  transpose : Bool := false
  blockDir : Bool := false
  tagged : Bool := false
  valid : Bool := false
  length : Nat := 0
  rowStride : Nat := 0
  batchStride : Nat := 0
  ofsStride : Nat := 0
  scaleBase : Nat := 0
  scaleLength : Nat := 0
  scaleRowStride : Nat := 0
  scaleBatchStride : Nat := 0
  scaleOfsStride : Nat := 0
  tagOffset : Nat := 0
  tagOfsStride : Nat := 0
deriving DecidableEq, Repr

/-- The descriptor of a 512-bit table entry (R129). -/
def descOf (w : Nat) : Desc :=
  { base := fld w 0 22, fmt := fld w 22 4, transpose := bitAt w 26, blockDir := bitAt w 27, tagged := bitAt w 28,
    valid := bitAt w 29, length := fld w 32 22, rowStride := fld w 64 22, batchStride := fld w 96 22,
    ofsStride := fld w 128 22, scaleBase := fld w 160 22, scaleLength := fld w 192 22,
    scaleRowStride := fld w 224 22, scaleBatchStride := fld w 256 22, scaleOfsStride := fld w 288 22,
    tagOffset := fld w 320 22, tagOfsStride := fld w 352 22 }

/-- Entry `i` of a core's descriptor table. -/
def Core.desc (k : Core) (i : Nat) : Desc :=
  match k.img with
  | some im => descOf (readLE k.sram (im.descBase + 64 * i) 64)
  | none => {}

/-- The address of an element in half bytes, so that the two nibbles of a byte are told apart (R131, R62). -/
def elemNib (d : Desc) (bits i j b x : Nat) : Nat :=
  let (r, c) := if d.transpose then (j, i) else (i, j)
  2 * (d.base + b * d.batchStride + x * d.ofsStride + r * d.rowStride) + c * bits / 4

/-- element_addr of R131. -/
def elementAddr (d : Desc) (bits i j b x : Nat) : Nat := elemNib d bits i j b x / 2

/-- scale_addr of R131. -/
def scaleAddr (d : Desc) (i j b x : Nat) : Nat :=
  let (r, c) := if d.transpose then (j, i) else (i, j)
  let start := d.scaleBase + b * d.scaleBatchStride + x * d.scaleOfsStride
  if d.blockDir then start + (r / 32) * d.scaleRowStride + c
  else start + r * d.scaleRowStride + c / 32

/-- tag_addr of R131. -/
def tagAddr (d : Desc) (b g x gPerBatch : Nat) : Nat :=
  d.base + d.tagOffset + x * d.tagOfsStride + 4 * (b * gPerBatch + g)

/-- An element code at a half-byte address of a memory. -/
def readCode (m : Memory) (nib bits : Nat) : Nat :=
  if bits = 4 then fld (readByte m (nib / 2)).toNat (4 * (nib % 2)) 4 else readLE m (nib / 2) (bits / 8)

/-- An element code written at a half-byte address: the other nibble of the byte stays. -/
def writeCode (m : Memory) (nib bits code : Nat) : Memory :=
  if bits = 4 then
    let old := (readByte m (nib / 2)).toNat
    let new := if nib % 2 = 0 then old / 16 * 16 + code % 16 else code % 16 * 16 + old % 16
    writeByte m (nib / 2) (BitVec.ofNat 8 new)
  else writeLE m (nib / 2) (bits / 8) code

/-- The code of logical element (i, j) of a descriptor's tensor. -/
def readElem (m : Memory) (d : Desc) (f : Fmt) (i j b x : Nat) : Nat :=
  readCode m (elemNib d f.bits i j b x) f.bits

/-- Logical element (i, j) written. -/
def writeElem (m : Memory) (d : Desc) (f : Fmt) (i j b x code : Nat) : Memory :=
  writeCode m (elemNib d f.bits i j b x) f.bits code

/-- Bytes [lo, hi) lie in [base, base + len) (R156). -/
def inRegion (lo hi base len : Nat) : Bool := base ≤ lo && hi ≤ base + len

/-- The bytes of the element box rows [0, ni) × columns [0, nj), for batches below nb (at least 1 each): the extreme addresses are those
of the first and the last element (R156). -/
def elemSpan (d : Desc) (bits ni nj nb x : Nat) : Span :=
  { lo := elementAddr d bits 0 0 0 x, hi := (elemNib d bits (ni - 1) (nj - 1) (nb - 1) x + bits / 4 + 1) / 2 }

/-- The scale bytes of the box. -/
def scaleSpan (d : Desc) (ni nj nb x : Nat) : Span :=
  { lo := scaleAddr d 0 0 0 x, hi := scaleAddr d (ni - 1) (nj - 1) (nb - 1) x + 1 }

/-- The tag words of nb × g tiles. -/
def tagSpan (d : Desc) (nb g x : Nat) : Span := { lo := tagAddr d 0 0 x g, hi := tagAddr d (nb - 1) (g - 1) x g + 4 }

/-- The same bytes, written. -/
def Span.out (s : Span) : Span := { s with write := true }

/-- Whether two instructions that touch these bytes must keep their order: they share a byte and one writes it (R139). -/
def Span.clash (a b : Span) : Bool := (a.write || b.write) && a.lo < b.hi && b.lo < a.hi

/-- Whether bytes lie in [base, base + len) (R156). -/
def Span.within (s : Span) (base len : Nat) : Bool := inRegion s.lo s.hi base len

/-- The elements of the box lie in the descriptor's data region (R156). -/
def elemsInRegion (d : Desc) (bits ni nj nb x : Nat) : Bool := (elemSpan d bits ni nj nb x).within d.base d.length

/-- The scale bytes of the box lie in the scale region (R156). -/
def scalesInRegion (d : Desc) (ni nj nb x : Nat) : Bool := (scaleSpan d ni nj nb x).within d.scaleBase d.scaleLength

/-- The tag words of nb × g tiles lie in the data region (R156). -/
def tagsInRegion (d : Desc) (nb g x : Nat) : Bool := (tagSpan d nb g x).within d.base d.length

/-! ## Carry tiles (R119, R142, R148) -/

/-- Bytes of a carry slot (R119). -/
def carryBytes : Nat := 4096

/-- Slots one tile occupies (R119). -/
def tileSlots (f : Fmt) : Nat := if f = .acc128 then 4 else 1

/-- Carry slot `s`. -/
def Core.slot (k : Core) (s : Nat) : CarrySlot := kgetD {} k.carry s

/-- Carry slot `s` replaced; an EMPTY slot is not listed. -/
def Core.setSlot (k : Core) (s : Nat) (c : CarrySlot) : Core := { k with carry := kset {} k.carry s c }

/-- Every slot of [s, s + n) is in state `st`. -/
def Core.slotsAre (k : Core) (st : CarryState) (s n : Nat) : Bool :=
  (List.range n).all (fun i => (k.slot (s + i)).st = st)

/-- Slots [s, s + n) returned to EMPTY (R119). -/
def Core.freeSlots (k : Core) (s n : Nat) : Core :=
  { k with carry := k.carry.filter (fun p => p.1 < s || s + n ≤ p.1) }

/-- Element (r, c) of the tile that starts in slot `s`: 32 elements a row, rows in order. -/
def Core.carryElem (k : Core) (f : Fmt) (s r c : Nat) : Nat :=
  let off := (32 * r + c) * (f.bits / 8)
  readLE (k.slot (s + off / carryBytes)).bytes (off % carryBytes) (f.bits / 8)

/-- A complete tile placed in its slots: FULL, with its tag word (R119). `codes` are 1,024 element codes in row
order; positions beyond the written ones hold +0 (R142). -/
def Core.putTile (k : Core) (f : Fmt) (s : Nat) (codes : List Nat) (tag : Nat) : Core :=
  let bytes := codes.flatMap (leBytes (f.bits / 8))
  (List.range (tileSlots f)).foldl (fun k i =>
    k.setSlot (s + i) { st := .full, tag := tag, bytes := writeBytes [] 0 (slice bytes (i * carryBytes) carryBytes) }) k

/-! ## Windows and program regions -/

/-- Whether bytes [a, a + n) touch a window slot in state VENEER (R331). -/
def Core.touchesVeneer (k : Core) (a n : Nat) : Bool :=
  k.wins.any (fun p =>
    let w := p.2
    w.slots.any (fun q =>
      let lo := w.slotBase + q.1 * w.slotUnits * 4096
      q.2.st = .veneer && a < lo + w.slotUnits * 4096 && lo < a + n))

/-- The units of a slot that have arrived: none of a FREE slot, all of one that is FULL or VENEER (R323). -/
def WinSlot.present (x : WinSlot) (all : Nat) : Nat :=
  match x.st with
  | .free => 0 | .pulled => x.arrived | .full => all | .veneer => all

/-- Whether bytes [a, a + n) lie in units of window slots that have not arrived, those of a slot not yet pulled among them (R144). -/
def Core.waitsForUnits (k : Core) (a n : Nat) : Bool :=
  k.wins.any (fun p =>
    let w := p.2
    (List.range w.nslots).any (fun s =>
      let lo := w.slotBase + s * w.slotUnits * 4096
      let got := ((kgetD {} w.slots s : WinSlot).present w.slotUnits)
      got < w.slotUnits && a < lo + w.slotUnits * 4096 && lo + got * 4096 < a + n))

/-- Whether bytes [a, a + n) touch ECC word `w` of 32 B (R296). -/
def inWord (w a n : Nat) : Bool := a < 32 * w + 32 && 32 * w < a + n

/-- Nibbles of ECC word `w` that a list of (half-byte address, bits, code) writes. -/
def nibsIn (w : Nat) (puts : List (Nat × Nat × Nat)) : Nat :=
  puts.foldl (fun n p => if p.1 / 64 = w then n + p.2.1 / 4 else n) 0

/-- The first uncorrectable word that a write covers only in part, which reads it first (R297). -/
def Core.rmwBad (k : Core) (puts : List (Nat × Nat × Nat)) : Option Nat :=
  k.badWords.find? (fun w => 0 < nibsIn w puts && nibsIn w puts < 64)

/-- The uncorrectable words left after a write: a write that covers a whole word mends it (R297). -/
def mended (bad : List Nat) (puts : List (Nat × Nat × Nat)) : List Nat :=
  bad.filter (fun w => nibsIn w puts < 64)

/-- A write reaches ECC words: whole words are good again, and words with a corrected error need no write-back (R297). -/
def Core.mend (k : Core) (puts : List (Nat × Nat × Nat)) : Core :=
  { k with badWords := mended k.badWords puts, softWords := k.softWords.filter (fun w => nibsIn w puts = 0) }

/-- Bytes [a, a + n) of SRAM are written: whole ECC words are good again, and words with a corrected error need no
write-back (R297). -/
def Core.rewrite (k : Core) (a n : Nat) : Core :=
  { k with
    badWords := k.badWords.filter (fun w => w < (a + 31) / 32 || (a + n) / 32 ≤ w)
    softWords := k.softWords.filter (fun w => a + n ≤ 32 * w || 32 * w + 32 ≤ a) }

/-- The first uncorrectable word that a read of bytes [a, a + n) meets. -/
def Core.badAt (k : Core) (a n : Nat) : Option Nat := k.badWords.find? (fun w => inWord w a n)

/-- Whether ECC word `q` holds a byte of one of these entries of the descriptor table. -/
def Core.descWord (k : Core) (is : List Nat) (q : Nat) : Bool :=
  match k.img with
  | some im => is.any (fun i => inWord q (im.descBase + 64 * i) 64)
  | none => false

/-- The task aborts with 0x0402 at an uncorrectable word (R297). -/
def goBad (k : Core) (th : Thread) (w : Nat) : CoreRes :=
  .go { core := k, th := th, abort := some 0x0402, word := w }

/-- Whether an address lies in the program region or the descriptor table, which no instruction writes (R124). -/
def Core.readOnlyAt (k : Core) (a : Nat) : Bool :=
  match k.img with
  | some im => (im.progBase ≤ a && a < im.progBase + im.progLen) || (im.descBase ≤ a && a < im.descBase + 4096)
  | none => false

/-- Whether a write reaches the program region or the descriptor table, which no instruction writes (R124). -/
def Core.writesCode (k : Core) (s : Span) : Bool :=
  s.write && (match k.img with
  | some im => (s.lo < im.progBase + im.progLen && im.progBase < s.hi) || (s.lo < im.descBase + 4096 && im.descBase < s.hi)
  | none => false)

/-! ## Unfinished instructions of a thread (R139, R196, R199) -/

/-- The bytes of a send ring's ready buffers and tag words that thread `t` marked, which a SEND reads until their last flit leaves (R216). -/
def Endpoint.marked (e : Endpoint) (t : Nat) : List Span :=
  ((List.range e.marks.length).filter (fun j => e.marks.getD j 8 = t)).flatMap (fun j =>
    let b := (e.nextBuf + j) % max 1 e.ringPkts
    let n := 64 * (e.pktM1 + 1)
    [{ lo := e.ringBase + b * n, hi := e.ringBase + b * n + n }, { lo := e.tagBase + 4 * b, hi := e.tagBase + 4 * b + 4 }])

/-- The bytes that unfinished instructions of thread `t` in the queues read or write. -/
def Core.queued (k : Core) (t : Nat) : List Span := ((k.engQ ++ k.vecQ).filter (fun q => q.thread = t)).flatMap Issued.spans

/-- The bytes that unfinished instructions of thread `t` still read or write (R139). -/
def Core.unfinished (k : Core) (t : Nat) : List Span :=
  k.queued t ++ k.eps.flatMap (fun q => if q.2.recv then [] else q.2.marked t)

/-- Whether an earlier instruction of thread `t` has not completed: it is queued, or a buffer it marked has not left (R199, R216). -/
def Core.busy (k : Core) (t : Nat) : Bool :=
  (k.engQ ++ k.vecQ).any (fun q => q.thread = t) || k.eps.any (fun q => !q.2.recv && q.2.marks.contains t)

/-- The interlock of R139 is clear for an instruction of thread `t` that touches these bytes. -/
def Core.clear (k : Core) (t : Nat) (spans : List Span) : Bool :=
  spans.all (fun a => (k.unfinished t).all (fun b => !a.clash b))

/-- The instruction word at a thread's pc (R124). -/
def Core.fetch (k : Core) (th : Thread) : Nat :=
  match k.img with
  | some im => readLE k.sram (im.progBase + th.pc) 32
  | none => 0

/-- The words with a correctable error that a read of bytes [a, a + n) meets (R297). -/
def Core.softAt (k : Core) (a n : Nat) : List Nat := k.softWords.filter (fun w => inWord w a n)

/-- The words with a correctable error that the fetch at a thread's pc meets (R297). -/
def Core.softFetch (k : Core) (th : Thread) : List Nat :=
  match k.img with
  | some im => k.softAt (im.progBase + th.pc) 32
  | none => []

/-- The words with a correctable error that a write covers only in part, which reads them first (R297). -/
def Core.rmwSoft (k : Core) (puts : List (Nat × Nat × Nat)) : List Nat :=
  k.softWords.filter (fun w => 0 < nibsIn w puts && nibsIn w puts < 64)

/-- The uncorrectable word that the fetch at a thread's pc meets (R297). -/
def Core.badFetch (k : Core) (th : Thread) : Option Nat :=
  match k.img with
  | some im => k.badAt (im.progBase + th.pc) 32
  | none => none

/-- Whether a byte offset lies in the program region (R195, R200). -/
def Core.pcInside (k : Core) (pc : Nat) : Bool :=
  match k.img with
  | some im => pc < im.progLen
  | none => false

/-- The list region that holds its state block at address `a` (R177): none is asked of the image. -/
def listHeader (a : Nat) : Nat := a + 0x40

end Sys2Proof.Machine
end

