-- ==== Sys2Proof/Machine/CoreScalar.lean ====
section
/-! DEFINITION. What the control, scalar, network and stream-flow instructions do at their core (R199, R200, R216,
R217, R328 to R330, R427). Each is a function of the context, the core, the thread that issues and its 256-bit word. -/

namespace Sys2Proof.Machine

/-- The thread goes on at a byte offset of the program region; outside it the task aborts with 0x0602 (R200). -/
def goTo (k : Core) (th : Thread) (target : Int) : CoreRes :=
  if 0 ≤ target ∧ k.pcInside target.toNat then
    .go { core := k, th := { th with pc := target.toNat, st := .ready } }
  else goAbort k th 0x0602

/-- The thread goes on at the next sequential instruction. -/
def goNext (k : Core) (th : Thread) : CoreRes := goTo k th (th.pc + 32)

/-- X[RD] written and the thread goes on. -/
def goSet (k : Core) (th : Thread) (w : Nat) (v : Word) : CoreRes := goNext k (th.setX (iRD w) v)

/-- The branch target: the offset is a signed count of instructions (R199). -/
def branchTarget (th : Thread) (w : Nat) : Int := th.pc + 32 * signed 32 (iIMM w)

/-- A branch on a condition (R199). -/
def goBranch (k : Core) (th : Thread) (w : Nat) (taken : Bool) : CoreRes :=
  if taken then goTo k th (branchTarget th w) else goNext k th

/-- X[RS1]. -/
def rs1 (th : Thread) (w : Nat) : Word := th.xr (iRS1 w)

/-- X[RS2]. -/
def rs2 (th : Thread) (w : Nat) : Word := th.xr (iRS2 w)

/-- IMM as a word. -/
def immW (w : Nat) : Word := BitVec.ofNat 32 (iIMM w)

def coreNop (_ : Ctx) (k : Core) (th : Thread) (_ : Nat) : CoreRes := goNext k th

/-- HALT: the thread becomes HALTED; its pc stays (log 3). -/
def coreHalt (_ : Ctx) (k : Core) (th : Thread) (_ : Nat) : CoreRes := goThread k { th with st := .halted }

/-- SIGNAL (R197): a count above 0xFFFF aborts the task. -/
def coreSignal (_ : Ctx) (k : Core) (th : Thread) (w : Nat) : CoreRes :=
  let n := kgetD 0 k.sems (iIDX w)
  if 0xFFFF ≤ n then goAbort k th 0x0602
  else goNext { k with sems := kset 0 k.sems (iIDX w) (n + 1) } th

/-- WAIT (R197); on semaphore 15 it is a gate point (R427). -/
def coreWait (x : Ctx) (k : Core) (th : Thread) (w : Nat) : CoreRes :=
  if iIDX w = 15 then (if x.gateArmed then .wait else goNext k th)
  else
    let n := kgetD 0 k.sems (iIDX w)
    if n = 0 then .wait else goNext { k with sems := kset 0 k.sems (iIDX w) (n - 1) } th

/-- FENCE, once every earlier instruction of the thread is complete (R199): its issue waits until then. -/
def coreFence (_ : Ctx) (k : Core) (th : Thread) (_ : Nat) : CoreRes := goNext k th

def coreBr (_ : Ctx) (k : Core) (th : Thread) (w : Nat) : CoreRes := goBranch k th w true
def coreBeqz (_ : Ctx) (k : Core) (th : Thread) (w : Nat) : CoreRes := goBranch k th w (rs1 th w == 0)
def coreBnez (_ : Ctx) (k : Core) (th : Thread) (w : Nat) : CoreRes := goBranch k th w (rs1 th w != 0)
def coreBltu (_ : Ctx) (k : Core) (th : Thread) (w : Nat) : CoreRes :=
  goBranch k th w (decide ((rs1 th w).toNat < (rs2 th w).toNat))

def coreLi (_ : Ctx) (k : Core) (th : Thread) (w : Nat) : CoreRes := goSet k th w (immW w)
def coreAdd (_ : Ctx) (k : Core) (th : Thread) (w : Nat) : CoreRes := goSet k th w (rs1 th w + rs2 th w)
def coreAddi (_ : Ctx) (k : Core) (th : Thread) (w : Nat) : CoreRes := goSet k th w (rs1 th w + immW w)
def coreSub (_ : Ctx) (k : Core) (th : Thread) (w : Nat) : CoreRes := goSet k th w (rs1 th w - rs2 th w)
def coreMul (_ : Ctx) (k : Core) (th : Thread) (w : Nat) : CoreRes := goSet k th w (rs1 th w * rs2 th w)
def coreAnd (_ : Ctx) (k : Core) (th : Thread) (w : Nat) : CoreRes := goSet k th w (rs1 th w &&& rs2 th w)
def coreOr (_ : Ctx) (k : Core) (th : Thread) (w : Nat) : CoreRes := goSet k th w (rs1 th w ||| rs2 th w)
def coreXor (_ : Ctx) (k : Core) (th : Thread) (w : Nat) : CoreRes := goSet k th w (rs1 th w ^^^ rs2 th w)
def coreShl (_ : Ctx) (k : Core) (th : Thread) (w : Nat) : CoreRes :=
  goSet k th w (rs1 th w <<< ((rs2 th w).toNat % 32))
def coreShr (_ : Ctx) (k : Core) (th : Thread) (w : Nat) : CoreRes :=
  goSet k th w (rs1 th w >>> ((rs2 th w).toNat % 32))

/-- MODI: IMM = 0 is refused at decode, so no loaded program holds it. -/
def coreModi (_ : Ctx) (k : Core) (th : Thread) (w : Nat) : CoreRes :=
  goSet k th w (BitVec.ofNat 32 ((rs1 th w).toNat % iIMM w))

/-- The address of LDW and STW, before bits [1:0] are ignored. -/
def ldstAddr (th : Thread) (w : Nat) : Nat := (rs1 th w + immW w).toNat

/-- LDW (R199, R200, R297). -/
def coreLdw (_ : Ctx) (k : Core) (th : Thread) (w : Nat) : CoreRes :=
  let a := ldstAddr th w
  if sramBytes ≤ a then goAbort k th 0x0602
  else if k.badWords.contains (a / 32) then goBad k th (a / 32)
  else match goSet k th w (BitVec.ofNat 32 (readLE k.sram (a / 4 * 4) 4)) with
    | .wait => .wait
    | .go o => .go { o with soft := k.softWords.filter (fun q => q = a / 32) }

/-- STW (R199, R200, R124): less than an ECC word, so the word is read first (R297). -/
def coreStw (_ : Ctx) (k : Core) (th : Thread) (w : Nat) : CoreRes :=
  let a := ldstAddr th w
  if sramBytes ≤ a ∨ k.readOnlyAt (a / 4 * 4) then goAbort k th 0x0602
  else if k.badWords.contains (a / 32) then goBad k th (a / 32)
  else match goNext ({ k with sram := writeLE k.sram (a / 4 * 4) 4 (rs2 th w).toNat }.rewrite (a / 4 * 4) 4) th with
    | .wait => .wait
    | .go o => .go { o with soft := k.softWords.filter (fun q => q = a / 32) }

/-- The four bytes that LDW or STW touches; none above SRAM, where it aborts (R139, R200). -/
def ldstSpan (th : Thread) (w : Nat) (write : Bool) : List Span :=
  let a := ldstAddr th w
  if sramBytes ≤ a then [] else [{ lo := a / 4 * 4, hi := a / 4 * 4 + 4, write := write }]

/-- IMM[15:0]. -/
def immCount (w : Nat) : Nat := fld w 32 16

/-- SEND by thread `t` (R216): the next buffers in ring order become ready. More of them than the ring has left make it run round: no rule
stops it. DESIGN CHOICE (log 109). -/
def coreSend (t : Nat) (_ : Ctx) (k : Core) (th : Thread) (w : Nat) : CoreRes :=
  goNext { k with eps := kupd k.eps (iIDX w) (fun e =>
    { e with count := e.count + immCount w, marks := e.marks ++ List.replicate (immCount w) t }) } th

/-- The bytes of the buffers that a SEND marks, and their tag words: it reads them until their last flit leaves (R139, R216). -/
def sendSpans (k : Core) (w : Nat) : List Span :=
  let e : Endpoint := kgetD {} k.eps (iIDX w)
  let n := 64 * (e.pktM1 + 1)
  (List.range (min (immCount w) e.ringPkts)).flatMap (fun j =>
    let b := (e.nextBuf + e.count + j) % max 1 e.ringPkts
    [{ lo := e.ringBase + b * n, hi := e.ringBase + b * n + n }, { lo := e.tagBase + 4 * b, hi := e.tagBase + 4 * b + 4 }])

/-- RECV (R200, R217). -/
def coreRecv (_ : Ctx) (k : Core) (th : Thread) (w : Nat) : CoreRes :=
  let e : Endpoint := kgetD {} k.eps (iIDX w)
  let n := immCount w
  if n = 0 ∨ e.ringPkts < n then goAbort k th 0x0602
  else if e.count < n then .wait
  else goSet k th w (BitVec.ofNat 32 e.nextRel)

/-- RELEASE (R200, R217): its CREDIT packets are sent by the network side. -/
def coreRelease (_ : Ctx) (k : Core) (th : Thread) (w : Nat) : CoreRes :=
  let e : Endpoint := kgetD {} k.eps (iIDX w)
  let n := immCount w
  if n = 0 ∨ e.ringPkts < n ∨ e.count < n then goAbort k th 0x0602
  else
    let e' := { e with count := e.count - n, nextRel := (e.nextRel + n) % e.ringPkts }
    match goNext { k with eps := kput k.eps (iIDX w) e' } th with
    | .wait => .wait
    | .go o => .go { o with credits := [(iIDX w, n)] }

/-! ## Stream-flow instructions (R328 to R330) -/

/-- A slot of a window; an unlisted slot is FREE. -/
def Window.slot (w : Window) (s : Nat) : WinSlot := kgetD {} w.slots s

/-- A slot of a window replaced. -/
def Window.setSlot (w : Window) (s : Nat) (x : WinSlot) : Window := { w with slots := kput w.slots s x }

/-- The oldest slot that is not FREE: slots are assigned and released in cyclic order (R323). -/
def Window.head? (w : Window) : Option (Nat × WinSlot) :=
  let x := w.slot w.oldest
  if x.st = .free then none else some (w.oldest, x)

/-- The status word of a slot (R328). -/
def statusWord (s : Nat) (x : WinSlot) : Word :=
  BitVec.ofNat 32 (put 0 8 s + put 8 1 (b2n (x.st = .full)) + put 9 1 (b2n (x.st = .veneer)) + put 16 16 x.layer)

/-- The window an instruction names by IDX. -/
def Core.win (k : Core) (w : Nat) : Window := kgetD {} k.wins (iIDX w)

/-- WHEAD (R328). -/
def coreWhead (_ : Ctx) (k : Core) (th : Thread) (w : Nat) : CoreRes :=
  match (k.win w).head? with
  | none => .wait
  | some (s, x) => goSet k th w (statusWord s x)

/-- WFULL (R328). -/
def coreWfull (_ : Ctx) (k : Core) (th : Thread) (w : Nat) : CoreRes :=
  match (k.win w).head? with
  | none => .wait
  | some (s, x) => if x.st = .full ∨ x.st = .veneer then goSet k th w (statusWord s x) else .wait

/-- WFREE (R328, R330): with every slot FREE the task aborts. -/
def coreWfree (_ : Ctx) (k : Core) (th : Thread) (w : Nat) : CoreRes :=
  let win := k.win w
  match win.head? with
  | none => goAbort k th 0x0602
  | some (s, _) =>
    let win' := { win.setSlot s {} with oldest := (s + 1) % max 1 win.nslots }
    goNext { k with wins := kput k.wins (iIDX w) win' } th

/-- The message of a request of R280: OP, REPLY_ROUTE, DATA_ROUTE, TAG, ADDR and LEN. -/
def requestMsg (op reply data tag addr len : Nat) : BitVec 480 :=
  BitVec.ofNat 480 (put 0 4 op + put 16 14 reply + put 32 14 data + put 64 32 tag + put 96 56 addr + put 160 22 len)

/-- TREAD and TWRITE: one request on REQ_ROUTE of the port, while fewer than 16 have no reply (R328 to R330). -/
def coreRequest (op : Nat) (reply data : Core → ReqPort → Nat → Nat) (k : Core) (th : Thread) (w : Nat) : CoreRes :=
  let p : ReqPort := kgetD {} k.ports (iIDX w)
  let hi := (rs2 th w).toNat
  if 2 ^ 18 ≤ hi then goAbort k th 0x0602
  else if 16 ≤ p.open_ then .wait
  else
    let msg := requestMsg op (reply k p w) (data k p w) (th.xr (iRD w)).toNat
      (64 * ((rs1 th w).toNat + hi * 2 ^ 32)) (64 * (fld w 32 15 + 1))
    let q := { p with open_ := p.open_ + 1, reads := if op = 1 then p.reads ++ [64 * (fld w 32 15 + 1)] else p.reads }
    match goNext { k with ports := kput k.ports (iIDX w) q } th with
    | .wait => .wait
    | .go o => .go { o with ctrls := [(p.reqRoute, msg)] }

/-- TREAD: the data returns on READ_ROUTE. -/
def coreTread (_ : Ctx) (k : Core) (th : Thread) (w : Nat) : CoreRes :=
  coreRequest 1 (fun _ p _ => p.readRoute) (fun _ _ _ => 0) k th w

/-- TWRITE: WRITE_DONE returns on DONE_ROUTE; the data follows on the route of the send endpoint IMM[21:16]. -/
def coreTwrite (_ : Ctx) (k : Core) (th : Thread) (w : Nat) : CoreRes :=
  coreRequest 2 (fun _ p _ => p.doneRoute) (fun k _ w => (kgetD ({} : Endpoint) k.eps (fld w 48 6)).route) k th w

/-- TDONE (R328, R330). -/
def coreTdone (_ : Ctx) (k : Core) (th : Thread) (w : Nat) : CoreRes :=
  let p : ReqPort := kgetD {} k.ports (iIDX w)
  let n := immCount w
  if n = 0 ∨ 16 < n then goAbort k th 0x0602
  else if p.done < n then .wait
  else goSet { k with ports := kput k.ports (iIDX w) { p with done := p.done - n } } th w (BitVec.ofNat 32 p.lastTag)

end Sys2Proof.Machine
end

