-- ==== Sys2Proof/Machine/CoreTmm.lean ====
section
/-! DEFINITION. The TMM forms at their core: the loop of R136 with EXACT and ORDERED accumulation (R67 to R77),
write-back (R78 to R82, R137, R142), tags (R141), sparse operands (R162 to R174), the gathers of TMM_PG (R182 to R185)
and the abort of a task in the middle of an instruction (R60, R105, R161). -/

namespace Sys2Proof.Machine

/-- The forms of TMM (R126, R159). -/
inductive TmmForm where
  | dense | s24 | sub | pg
deriving DecidableEq, Repr

/-- The fields of R134 and R159 with the latched register values (R128) and the descriptors named; how the engine uses its array (R111,
R114); and `late`, a free value: whether a failing mask of the set being loaded comes before a failing streamed scale where the timing in
ck, which the model leaves out, decides (log 11). -/
structure Tmm where
  form : TmmForm
  fs : Fmt
  fa : Fmt
  fc : Fmt
  rnd : Rnd
  aCarry : Bool
  bCarry : Bool
  bStream : Bool
  cCarry : Bool
  init : Nat
  m : Nat
  mx : Nat
  nx : Nat
  batches : Nat
  kblocks : Nat
  aSel : Nat
  bSel : Nat
  cSel : Nat
  iSel : Nat
  a : Desc
  b : Desc
  c : Desc
  i : Desc
  sp : Desc
  meta_ : Desc
  xa : Nat
  xb : Nat
  xc : Nat
  use : Nat
  rowBase : Nat
  colBase : Nat
  tensor : Nat
  batchOrg : Nat
  gatherK : Bool
  list : Nat
  entries : List (Nat × Bool)
  seed : Nat
  arr : ArrayUse
  late : Bool
deriving DecidableEq, Repr

/-- A format code as a format; the loader refuses unassigned codes (R53). -/
def fmtOf (n : Nat) : Fmt := (Fmt.ofCode n).getD .fp32

/-- The resolved entries of a list region (R177): block index and AUDITED, RESOLVED_COUNT of them. -/
def listEntries (m : Memory) (a : Nat) : List (Nat × Bool) :=
  let rawMax := readLE m (a + 10) 2
  let n := readLE m (a + 0x48) 2
  let base := a + 0x80 + 64 * ceilDiv rawMax 32
  (List.range n).map (fun j => let e := readLE m (base + 4 * j) 4; (fld e 0 16, bitAt e 16))

/-- Decoding of a TMM word at issue (R134, R159). -/
def tmmOf (form : TmmForm) (x : Ctx) (k : Core) (th : Thread) (w : Nat) : Tmm :=
  let list := fld w 218 16 * 64
  let entries := if form = .pg then listEntries k.sram list else []
  let gatherK := form = .pg && bitAt w 234
  { form := form, fs := fmtOf (fld w 8 4), fa := fmtOf (fld w 12 4), fc := fmtOf (fld w 16 4),
    rnd := Rnd.ofCode (fld w 20 2), aCarry := bitAt w 22, bCarry := fld w 23 2 = 1, bStream := fld w 23 2 = 2,
    cCarry := bitAt w 25, init := fld w 26 2, m := fld w 32 16, mx := fld w 48 6, nx := fld w 54 6,
    batches := if form = .pg && !gatherK then entries.length else fld w 66 12 + 1,
    kblocks := if gatherK then entries.length else fld w 78 12 + 1,
    aSel := fld w 90 6, bSel := fld w 96 6, cSel := fld w 102 6, iSel := fld w 108 6,
    a := k.desc (fld w 90 6), b := k.desc (fld w 96 6), c := k.desc (fld w 102 6), i := k.desc (fld w 108 6),
    sp := k.desc (fld w 114 6), meta_ := k.desc (fld w 218 6),
    xa := regSel th (fld w 120 5), xb := regSel th (fld w 125 5), xc := regSel th (fld w 130 5),
    use := regSel th (fld w 135 5), rowBase := 32 * (fld w 170 20 + regSel th (fld w 140 5)),
    colBase := 32 * (fld w 190 16 + regSel th (fld w 145 5)), tensor := fld w 150 20, batchOrg := fld w 206 12,
    gatherK := gatherK, list := list, entries := entries, seed := x.seed, arr := x.arr,
    late := Config.freeNat (x.free + 1) % 2 = 1 }

/-- The accumulation mode follows from the pairing (R63, R64). -/
def Tmm.exact (i : Tmm) : Bool := i.fs.blockScaled

/-- G, the number of 32-row groups (R136). -/
def Tmm.groups (i : Tmm) : Nat := ceilDiv i.m 32

/-- Rows written (R137). -/
def Tmm.rows (i : Tmm) : Nat := min i.m (32 * (i.groups - 1) + i.mx)

/-- K-blocks one stationary set covers: a span is two (R167, R172). -/
def Tmm.span (i : Tmm) : Nat :=
  match i.form with
  | .dense => 1 | .pg => 1 | .s24 => 2 | .sub => 2

/-- The format of accumulators, initial tiles and spilled rows (R73, R76, R145). -/
def Tmm.accFmt (i : Tmm) : Fmt := if i.exact then .acc128 else .fp32

/-- Rows an accumulator half holds (R103). -/
def Tmm.halfRows (i : Tmm) : Nat := if i.exact then 64 else 256

/-- Whether rows spill (R103, R145). -/
def Tmm.spills (i : Tmm) : Bool := i.halfRows < i.m && 1 < i.kblocks

/-! ## Checks at issue (R156, R184) -/

/-- mask_addr of R163, in half bytes. -/
def maskNib (d : Desc) (kk n b x : Nat) : Nat :=
  let start := d.base + b * d.batchStride + x * d.ofsStride
  let a := if d.transpose then start + n * d.rowStride + kk / 8 else start + (kk / 8) * d.rowStride + n
  2 * a + (kk / 4) % 2

/-- The address of the record of column `n`, span `s` (R170). -/
def recordAddr (d : Desc) (n s b x : Nat) : Nat :=
  d.base + b * d.batchStride + x * d.ofsStride + n * d.rowStride + 16 * s

/-- The masks of a 2:4 operand (R163). -/
def Tmm.maskSpan (i : Tmm) : Span :=
  { lo := maskNib i.meta_ 0 0 0 i.xb / 2, hi := maskNib i.meta_ (32 * i.kblocks - 1) 31 (i.batches - 1) i.xb / 2 + 1 }

/-- The records of a bitmap operand (R170). -/
def Tmm.recordSpan (i : Tmm) : Span :=
  { lo := recordAddr i.meta_ 0 0 0 i.xb, hi := recordAddr i.meta_ 31 (i.kblocks / 2 - 1) (i.batches - 1) i.xb + 16 }

/-- The spilled rows (R131, R145): row m of the output is row m − 64, or m − 256, of the spill area, since the LENGTH that R145 asks of it
holds no more. DEDUCED (log 105). -/
def Tmm.spillSpan (i : Tmm) : Span := elemSpan i.sp i.accFmt.bits (i.m - i.halfRows) 32 1 0

/-- Every byte range of the instruction lies within its region (R156, R184). -/
def Tmm.inRange (i : Tmm) : Bool :=
  let kk := 32 * i.kblocks
  let nb := i.batches
  let aOk := i.aCarry || kk = 0 || (elemsInRegion i.a i.fa.bits i.m kk nb i.xa
    && (!i.fa.blockScaled || scalesInRegion i.a i.m kk nb i.xa))
  let bScales := !i.fs.blockScaled || scalesInRegion i.b kk 32 nb i.xb
  let bOk := i.bCarry || kk = 0 || (match i.form with
    | .dense => elemsInRegion i.b i.fs.bits kk 32 nb i.xb && bScales
    | .pg => elemsInRegion i.b i.fs.bits kk 32 nb i.xb && bScales
    | .s24 => elemsInRegion i.b i.fs.bits (kk / 2) 32 nb i.xb && bScales && i.maskSpan.within i.meta_.base i.meta_.length
    | .sub => bScales && i.recordSpan.within i.meta_.base i.meta_.length)
  let iOk := i.init ≠ 1 || (elemsInRegion i.i i.accFmt.bits i.m 32 nb i.xc
    && (!i.i.tagged || tagsInRegion i.i nb i.groups i.xc))
  let cOk := i.cCarry || (elemsInRegion i.c i.fc.bits i.rows i.nx nb i.xc && tagsInRegion i.c nb i.groups i.xc)
  let sOk := !i.spills || ((i.m - i.halfRows) * 32 * (i.accFmt.bits / 8) ≤ i.sp.length && i.spillSpan.within i.sp.base i.sp.length)
  nb = 0 || (aOk && bOk && iOk && cOk && sOk)

/-- The bytes of SRAM that the instruction writes (R156). -/
def Tmm.outSpans (i : Tmm) : List Span :=
  if i.batches = 0 then []
  else (if i.cCarry then [] else [(elemSpan i.c i.fc.bits i.rows i.nx i.batches i.xc).out, (tagSpan i.c i.batches i.groups i.xc).out])
    ++ (if i.spills then [i.spillSpan.out] else [])

/-- The regions of a descriptor, whole. -/
def Desc.regions (d : Desc) : List Span :=
  [{ lo := d.base, hi := d.base + d.length }, { lo := d.scaleBase, hi := d.scaleBase + d.scaleLength }]

/-- The bytes of SRAM that the instruction reads or writes, as it compares them at issue (R139). TMM_PG issues before its list is
resolved, so it compares its descriptors' regions whole and its list region (log 106). -/
def Tmm.spans (i : Tmm) : List Span :=
  let kk := 32 * i.kblocks
  let nb := i.batches
  match i.form with
  | .pg => i.a.regions ++ i.b.regions ++ (if i.init = 1 then i.i.regions else []) ++ i.c.regions.map Span.out ++ i.sp.regions.map Span.out
    ++ [{ lo := i.list, hi := i.list + 0x40 }, { lo := i.list + 0x40, hi := i.list + 0x80, write := i.gatherK }]
  | _ =>
    (if i.aCarry then [] else elemSpan i.a i.fa.bits i.m kk nb i.xa :: (if i.fa.blockScaled then [scaleSpan i.a i.m kk nb i.xa] else []))
    ++ (if i.bCarry then [] else (match i.form with
        | .s24 => [elemSpan i.b i.fs.bits (kk / 2) 32 nb i.xb, i.maskSpan]
        | .sub => [{ lo := i.b.base, hi := i.b.base + i.b.length }, i.recordSpan]
        | _ => [elemSpan i.b i.fs.bits kk 32 nb i.xb]) ++ (if i.fs.blockScaled then [scaleSpan i.b kk 32 nb i.xb] else []))
    ++ (if i.init = 1 then elemSpan i.i i.accFmt.bits i.m 32 nb i.xc :: (if i.i.tagged then [tagSpan i.i nb i.groups i.xc] else []) else [])
    ++ i.outSpans

/-! ## Carry operands (R148) -/

/-- The tiles of the streamed operand. -/
def Tmm.aTiles (i : Tmm) : Nat := i.batches * i.kblocks * i.groups

/-- Every carry source tile is FULL. -/
def Tmm.sourcesFull (i : Tmm) (k : Core) : Bool :=
  (!i.aCarry || k.slotsAre .full i.aSel i.aTiles)
  && (!i.bCarry || k.slotsAre .full i.bSel (i.batches * i.kblocks))
  && (i.init ≠ 2 || k.slotsAre .full i.iSel (i.batches * i.groups * tileSlots i.accFmt))

/-- Every carry destination slot is EMPTY. -/
def Tmm.destEmpty (i : Tmm) (k : Core) : Bool :=
  !i.cCarry || k.slotsAre .empty i.cSel (i.batches * i.groups * tileSlots i.fc)

/-- The carry sources returned to EMPTY after their last read (R119). -/
def Tmm.consume (i : Tmm) (k : Core) : Core :=
  let k := if i.aCarry then k.freeSlots i.aSel i.aTiles else k
  let k := if i.bCarry then k.freeSlots i.bSel (i.batches * i.kblocks) else k
  if i.init = 2 then k.freeSlots i.iSel (i.batches * i.groups * tileSlots i.accFmt) else k

/-! ## Operands -/

/-- Row `m` of K-block `kb`: 32 codes and the block's scale byte. -/
def Tmm.aRow (i : Tmm) (k : Core) (sram : Memory) (b kb m : Nat) : List Nat × Nat :=
  if i.aCarry then
    let s := i.aSel + (b * i.kblocks + kb) * i.groups + m / 32
    ((List.range 32).map (fun c => k.carryElem i.fa s (m % 32) c), 127)
  else
    ((List.range 32).map (fun c => readElem sram i.a i.fa m (32 * kb + c) b i.xa),
     if i.fa.blockScaled then (readByte sram (scaleAddr i.a m (32 * kb) b i.xa)).toNat else 127)

/-- One K-block of a stationary set, as the dense operand it stands for: 32 columns of 32 codes, and 32 scale
bytes; `off` names the elements (k, n) whose cells a row mask turns off (R114). -/
structure Block where
  cols : List (List Nat)
  scales : List Nat
  off : List (Nat × Nat) := []
deriving DecidableEq, Repr

/-- The scale bytes of K-block `kb`, read at the logical k (R164). -/
def Tmm.bScales (i : Tmm) (sram : Memory) (b kb : Nat) : List Nat :=
  (List.range 32).map (fun n =>
    if i.fs.blockScaled then (readByte sram (scaleAddr i.b (32 * kb) n b i.xb)).toNat else 127)

/-- A K-block whose element (kk, n) is given by a function. -/
def mkBlock (f : Nat → Nat → Nat) (kb : Nat) (scales : List Nat) : Block :=
  { cols := (List.range 32).map (fun n => (List.range 32).map (fun c => f (32 * kb + c) n)), scales := scales }

/-- A dense stationary tile (R136), from SRAM or the carry buffer. -/
def Tmm.denseBlock (i : Tmm) (k : Core) (sram : Memory) (b kb : Nat) : Block :=
  if i.bCarry then mkBlock (fun kk n => k.carryElem i.fs (i.bSel + b * i.kblocks + kb) (kk % 32) n) kb
    (List.replicate 32 127)
  else mkBlock (fun kk n => readElem sram i.b i.fs kk n b i.xb) kb (i.bScales sram b kb)

/-- The mask of the group of `kk` in column `n` (R163). -/
def Tmm.mask (i : Tmm) (sram : Memory) (b kk n : Nat) : Nat := readCode sram (maskNib i.meta_ kk n b i.xb) 4

/-- Element (kk, n) of a 2:4 operand; a clear mask bit is an exact zero (R162, R164). -/
def Tmm.s24Elem (i : Tmm) (sram : Memory) (b kk n : Nat) : Nat :=
  let mk := i.mask sram b kk n
  if bitAt mk (kk % 4) then
    readElem sram i.b i.fs (2 * (kk / 4) + popcount (kk % 4) mk) n b i.xb
  else 0

/-- A mask of span `s` with three or four bits set (R163, R165): padding and discarded columns included. -/
def Tmm.overfull (i : Tmm) (sram : Memory) (b s : Nat) : Bool :=
  (List.range 32).any (fun n => (List.range 16).any (fun g => 2 < popcount 4 (i.mask sram b (64 * s + 4 * g) n)))

/-- The 16-byte record of column `n`, span `s` (R169, R170). -/
def Tmm.record (i : Tmm) (sram : Memory) (b s n : Nat) : Nat := readLE sram (recordAddr i.meta_ n s b i.xb) 16

/-- Where B's value region starts (R170). -/
def Tmm.valueBase (i : Tmm) (b : Nat) : Nat := i.b.base + b * i.b.batchStride + i.xb * i.b.ofsStride

/-- Element (kk, n) of a bitmap operand (R169). -/
def Tmm.subElem (i : Tmm) (sram : Memory) (b kk n : Nat) : Nat :=
  let r := i.record sram b (kk / 64) n
  if bitAt (fld r 0 64) (kk % 64) then
    readCode sram (2 * (i.valueBase b + fld r 80 22) + popcount (kk % 64) (fld r 0 64) * i.fs.bits / 4) i.fs.bits
  else 0

/-- A record of span `s` whose count differs (R171). -/
def Tmm.badCount (i : Tmm) (sram : Memory) (b s : Nat) : Bool :=
  (List.range 32).any (fun n => let r := i.record sram b s n; popcount 64 (fld r 0 64) ≠ fld r 64 7)

/-- A record of span `s` whose values leave B's region (R171). -/
def Tmm.badValues (i : Tmm) (sram : Memory) (b s : Nat) : Bool :=
  (List.range 32).any (fun n =>
    let r := i.record sram b s n
    let lo := i.valueBase b + fld r 80 22
    fld r 64 7 ≠ 0 && !inRegion lo (lo + ceilDiv (fld r 64 7 * i.fs.bits) 8) i.b.base i.b.length)

/-- What the procedure of R173 has done so far: spare cells, hosts already lending, whether every lane's need was met, and the loans: the host,
the lane it serves, the first of the lane's stored values lent to it, and how many. -/
structure Steal where
  spare : List Nat
  lent : List Bool
  ok : Bool := true
  loans : List (Nat × Nat × Nat × Nat) := []
deriving DecidableEq, Repr

/-- Lane `n` borrows what it needs, from its west host first (R173). -/
def stealLane (cap : Nat) (nnz : List Nat) (st : Steal) (n : Nat) : Steal :=
  let c := nnz.getD n 0
  let host (h : Nat) (s : Nat × Steal) : Nat × Steal :=
    let (need, st) := s
    if 0 < need ∧ h < 32 ∧ ¬ st.lent.getD h false ∧ 0 < st.spare.getD h 0 then
      let take := min need (st.spare.getD h 0)
      (need - take, { st with spare := st.spare.set h (st.spare.getD h 0 - take), lent := st.lent.set h true
                              loans := st.loans ++ [(h, n, c - need, take)] })
    else s
  let s0 := (c - cap, st)
  let s1 := if n = 0 then s0 else host (n - 1) s0
  let (need, st) := host (n + 1) s1
  { st with ok := st.ok && need == 0 }

/-- The procedure of R173 over the 32 lanes at 32 cells a lane. -/
def stealPlan (nnz : List Nat) : Steal :=
  (List.range 32).foldl (stealLane 32 nnz) { spare := nnz.map (fun c => 32 - c), lent := List.replicate 32 false }

/-- span_passes of R173 at 32 cells a lane. -/
def spanPasses (nnz : List Nat) : Nat := if (stealPlan nnz).ok then 1 else 2

/-! ## Stationary sets (R98, R106, R111, R167, R172, R173) -/

/-- The physical row of logical array row `i`, and the physical column (R111); reduced-array mode ignores the skips (R114). -/
def ArrayUse.row (a : ArrayUse) (i : Nat) : Nat := if i < a.rowSkip then i else i + 1
def ArrayUse.col (a : ArrayUse) (i : Nat) : Nat := if i < a.colSkip then i else i + 1

/-- The index of the `j`-th set bit of the low `n` bits of a word. -/
def nthSet (n w j : Nat) : Option Nat := ((List.range n).filter (bitAt w))[j]?

/-- The counts of the 32 records of span `s`. -/
def Tmm.counts (i : Tmm) (sram : Memory) (b s : Nat) : List Nat := (List.range 32).map (fun n => fld (i.record sram b s n) 64 7)

/-- Stored value `j` of lane `n` of span `s`, as a cell that computes for that lane. -/
def Tmm.subCell (i : Tmm) (sram : Memory) (b s n j : Nat) : Option SetCell :=
  (nthSet 64 (fld (i.record sram b s n) 0 64) j).map (fun k => { code := i.subElem sram b (64 * s + k) n, k := k, lane := n })

/-- What the cell of logical row `r`, column `n` holds in pass `pass` of set `s`: a dense element; a packed slot of 2:4 with the selector of
its mask; or a stored value, the lane's own first, then one lent to it (R172). -/
def Tmm.cellAt (i : Tmm) (blks : List Block) (sram : Memory) (b s pass : Nat) (plan : Steal) (nnz : List Nat) (r n : Nat) : Option SetCell :=
  match i.form with
  | .dense => some { code := ((blks.getD 0 { cols := [], scales := [] }).cols.getD n []).getD r 0, k := r, lane := n }
  | .pg => some { code := ((blks.getD 0 { cols := [], scales := [] }).cols.getD n []).getD r 0, k := r, lane := n }
  | .s24 =>
    let g := r / 2
    (nthSet 4 (i.mask sram b (64 * s + 4 * g) n) (r % 2)).map (fun q =>
      { code := i.s24Elem sram b (64 * s + 4 * g + q) n, k := 4 * g + q, lane := n })
  | .sub =>
    if pass = 1 then i.subCell sram b s n (32 + r)
    else if r < nnz.getD n 0 then i.subCell sram b s n r
    else if plan.ok then
      match plan.loans.find? (fun l => l.1 = n) with
      | some (_, lane, first, count) => if r - nnz.getD n 0 < count then i.subCell sram b s lane (first + (r - nnz.getD n 0)) else none
      | none => none
    else none

/-- The scale bytes of a set. -/
def blockScales (blks : List Block) : List Nat := blks.flatMap (fun b => b.scales)

/-- A set as a load leaves it, in array-row order (R106). -/
def Tmm.setOf (i : Tmm) (blks : List Block) (sram : Memory) (b s pass : Nat) (plan : Steal) (nnz : List Nat) : StationarySet :=
  { cells := (List.range 32).flatMap (fun r => (List.range 32).filterMap (fun n =>
      (i.cellAt blks sram b s pass plan nnz r n).map (fun c => (33 * i.arr.row r + i.arr.col n, c))))
    scales := blockScales blks, loaded := true }

/-- The K-blocks that a set holds: an element no cell holds is 0. -/
def Tmm.blocksOf (i : Tmm) (t : StationarySet) : List Block :=
  (List.range i.span).map (fun q =>
    { cols := (List.range 32).map (fun n =>
        let own := (t.cells.map Prod.snd).filter (fun c => c.lane = n)
        (List.range 32).map (fun k => ((own.find? (fun c => c.k = 32 * q + k)).map SetCell.code).getD 0))
      scales := slice t.scales (32 * q) 32 })

/-- The elements of K-block `q` whose cells lie in masked rows (R114). -/
def Tmm.offOf (i : Tmm) (t : StationarySet) (q : Nat) : List (Nat × Nat) :=
  t.cells.filterMap (fun e =>
    if bitAt i.arr.rowMask (e.1 / 33) && e.2.k / 32 = q then some (e.2.k % 32, e.2.lane) else none)

/-- What a load brings: the K-blocks of its set, those of pass 0 alone where the span runs in two passes (R173), and the set of each
pass. -/
structure Loaded where
  blks : List Block
  low : Option (List Block) := none
  sets : List StationarySet
deriving DecidableEq, Repr

/-- Blocks with the elements turned off by row masks, as the cells of some sets hold them. -/
def Tmm.masked (i : Tmm) (ts : List StationarySet) (blks : List Block) : List Block :=
  if i.arr.rowMask = 0 then blks
  else (List.range blks.length).map (fun q => { blks.getD q { cols := [], scales := [] } with off := ts.flatMap (fun t => i.offOf t q) })

/-- The code with which the load of set `s` fails (R165, R171), and whether that is found in the load's first ck: a record as the load
begins, a mask as it is written, in group order at 32 B per ck. -/
def Tmm.loadBad (i : Tmm) (sram : Memory) (b s : Nat) : Option (Nat × Bool) :=
  match i.form with
  | .dense => none
  | .pg => none
  | .s24 =>
    if i.overfull sram b s then
      some (0x0101, (List.range 32).any (fun n => (List.range 2).any (fun g => 2 < popcount 4 (i.mask sram b (64 * s + 4 * g) n))))
    else none
  | .sub => if i.badCount sram b s then some (0x0102, true) else if i.badValues sram b s then some (0x0602, true) else none

/-- A set whose first tile the engine has loaded for the TMM at the head of the queue: the shadow set, or the active one once the sets have
swapped. -/
def Engine.first (e : Engine) : StationarySet := if e.activeB = e.lastRowIn then e.setA else e.setB

/-- A stationary load: what set `s` brings, or the code of the abort (R161). The first tile of a TMM whose load has run already is the one
loaded then. -/
def Tmm.load (i : Tmm) (k : Core) (sram : Memory) (b s : Nat) : Except Nat Loaded :=
  match i.loadBad sram b s with
  | some (c, _) => .error c
  | none =>
    let nnz := if i.form = .sub then i.counts sram b s else []
    let plan : Steal := if i.form = .sub then stealPlan nnz else { spare := [], lent := [] }
    let blks := match i.form with
      | .dense => [i.denseBlock k sram b s]
      | .pg => [i.denseBlock k sram b s]
      | .s24 => [2 * s, 2 * s + 1].map (fun kb => mkBlock (i.s24Elem sram b) kb (i.bScales sram b kb))
      | .sub => [2 * s, 2 * s + 1].map (fun kb => mkBlock (i.subElem sram b) kb (i.bScales sram b kb))
    let set0 := if k.eng.primed && b = 0 && s = 0 then k.eng.first else i.setOf blks sram b s 0 plan nnz
    if plan.ok then
      .ok { blks := i.masked [set0] (if k.eng.primed && b = 0 && s = 0 then i.blocksOf set0 else blks), sets := [set0] }
    else
      let set1 := i.setOf blks sram b s 1 plan nnz
      .ok { blks := i.masked [set0, set1] blks, low := some (i.masked [set0] (i.blocksOf set0)), sets := [set0, set1] }

/-! ## Accumulation -/

/-- An accumulator with the flags it has raised. -/
abbrev Cell := Nat × Nat

/-- One block contribution added in EXACT mode (R67 to R71). -/
def exactCell (fa fs : Fmt) (row col : List Nat) (sa sb : Nat) (c : Cell) : Cell :=
  let prods := List.zipWith (fun p q => elemMul (elemDecode fa p) (elemDecode fs q)) row col
  let (v, inexact, ovf) := blockContribution prods
    (fa.lsbExp + fs.lsbExp + ((sa : Int) - 127) + ((sb : Int) - 127) + 64)
  let (s, ovf') := accAdd (accDecode c.1) v
  (accEncode s, c.2 ||| accFlags inexact (ovf || ovf'))

/-- An FP32 addition that keeps flags (R76, R77). -/
def cellAdd (a b : Cell) : Cell :=
  let (v, ovf) := f32add a.1 b.1
  (v, a.2 ||| b.2 ||| accFlags false ovf)

/-- One block sum added in ORDERED mode (R75 to R77). -/
def orderedCell (f : Fmt) (row col : List Nat) (c : Cell) : Cell :=
  let prods : List Cell := List.zipWith (fun p q =>
    let (v, ovf) := fpRound .fp32 .rne 0 ((fpDecode f p).mul (fpDecode f q))
    (v, accFlags false ovf)) row col
  cellAdd c (treeFold cellAdd (0, 0) 5 prods)

/-- The codes that meet in column `n`: a masked row brings an exact zero to the column tree (R114). -/
def Block.live (b : Block) (n : Nat) (xs : List Nat) : List Nat :=
  if b.off.isEmpty then xs else (List.range xs.length).map (fun k => if b.off.contains (k, n) then 0 else xs.getD k 0)

/-- One row against one K-block: every column (R98). -/
def Tmm.accRow (i : Tmm) (blk : Block) (row : List Nat) (sa : Nat) (cells : List Cell) : List Cell :=
  List.zipWith (fun (ncs : Nat × List Nat × Nat) c =>
      let (n, col, sb) := ncs
      if i.exact then exactCell i.fa i.fs (blk.live n row) (blk.live n col) sa sb c
      else orderedCell i.fa (blk.live n row) (blk.live n col) c)
    ((List.range 32).zip (blk.cols.zip blk.scales)) cells

/-- One row of a pass over the blocks of a set: none when a streamed scale byte is 0xFF (R60, R108). -/
def Tmm.passRow (i : Tmm) (k : Core) (sram : Memory) (b kb0 : Nat) (blks : List Block) (m : Nat) (cells : List Cell) :
    Option (List Cell) :=
  let rows := (List.range blks.length).map (fun q => i.aRow k sram b (kb0 + q) m)
  if rows.any (fun r => r.2 = 255) then none
  else some ((blks.zip rows).foldl (fun cs br => i.accRow br.1 br.2.1 br.2.2 cs) cells)

/-- The rows of a pass in order: the accumulators, or those of the rows before the one at which the task aborts. -/
def rowsGo (f : Nat → List Cell → Option (List Cell)) :
    (m : Nat) → List (List Cell) → Except (List (List Cell)) (List (List Cell))
  | _, [] => .ok []
  | m, r :: rs =>
    match f m r with
    | none => .error []
    | some r' =>
      match rowsGo f (m + 1) rs with
      | .ok rs' => .ok (r' :: rs')
      | .error e => .error (r' :: e)

/-- One unit of write-back: what the port writes in one ck, and the tag word of a tile it completes. -/
structure WUnit where
  puts : List (Nat × Nat × Nat)
  tag : Nat
deriving DecidableEq, Repr

/-- Why a batch failed: its code, the final accumulators of the rows whose write-back may have begun, and the writes of spilled rows. -/
structure TmmFail where
  code : Nat
  rows : List (List Cell) := []
  spills : List WUnit := []
deriving DecidableEq, Repr

/-- What passes leave: the accumulators, the sets in the order in which they became active, and the writes of spilled rows. -/
structure PassOut where
  acc : List (List Cell)
  sets : List StationarySet := []
  spills : List WUnit := []
deriving DecidableEq, Repr

/-- The rows that enter in the first ck of a pass (R99). -/
def Tmm.firstRows (i : Tmm) : Nat := if i.fs = .fp4 && i.fa = .fp4 then 2 else 1

/-- The code of an abort at row `m` of a pass, or as its set becomes active (`none`), while the load of the next set fails with `nxt`
(R161): of checks that fail in the same ck the lowest code; else the check of the earlier ck; where the timing decides, `late`. -/
def Tmm.failCode (i : Tmm) (nxt : Option (Nat × Bool)) (m : Option Nat) : Nat :=
  match nxt with
  | none => 0x0104
  | some (c, first) =>
    match m with
    | none => if first then min c 0x0104 else 0x0104
    | some m => if m < i.firstRows then (if first then min c 0x0104 else 0x0104) else if first || i.late then c else 0x0104

/-- The load that runs during pass `s` of batch `b`: the next set's (R107). -/
def Tmm.nextBad (i : Tmm) (sram : Memory) (b s : Nat) : Option (Nat × Bool) :=
  if i.span * (s + 1) < i.kblocks then i.loadBad sram b (s + 1)
  else if b + 1 < i.batches then i.loadBad sram (b + 1) 0
  else none

/-- The writes of the spilled rows among `acc`, in order: a row of FP32 in one ck, a row of ACC128 8 columns a ck (R103, R145). -/
def Tmm.spillUnits (i : Tmm) (acc : List (List Cell)) : List WUnit :=
  if i.spills then
    (List.range (acc.length - i.halfRows)).flatMap (fun r =>
      let puts := (List.range 32).map (fun n =>
        (elemNib i.sp i.accFmt.bits r n 0 0, i.accFmt.bits, ((acc.getD (i.halfRows + r) []).getD n (0, 0)).1))
      (if i.exact then chunksOf 8 4 puts else [puts]).map (fun p => { puts := p, tag := 0 }))
  else []

/-- One pass over set `s`: the load's outcome, the check at the swap (R108), and the rows, while the next set loads. A span of two passes
keeps the sums of its first 32 values in between; its result is that of the whole (R65, R173). The partials of a pass that is not the
last are spilled (R103). -/
def Tmm.pass (i : Tmm) (k : Core) (sram : Memory) (b s : Nat) (acc : List (List Cell)) : Except TmmFail PassOut :=
  match i.load k sram b s with
  | .error e => .error { code := e }
  | .ok ld =>
    let nxt := i.nextBad sram b s
    let last : Bool := i.span * (s + 1) = i.kblocks
    if ld.blks.any (fun bl => bl.scales.any (· = 255)) then .error { code := i.failCode (if ld.low.isSome then none else nxt) none }
    else
      match (match ld.low with
        | none => .ok []
        | some lb =>
          match rowsGo (i.passRow k sram b (i.span * s) lb) 0 acc with
          | .error rows => .error (i.spillUnits rows)
          | .ok a => .ok (i.spillUnits a) : Except (List WUnit) (List WUnit)) with
      | .error sp => .error { code := 0x0104, spills := sp }
      | .ok sp0 =>
        match rowsGo (i.passRow k sram b (i.span * s) ld.blks) 0 acc with
        | .error rows => .error { code := i.failCode nxt (some rows.length), rows := if last then rows else [],
                                  spills := sp0 ++ (if last then [] else i.spillUnits rows) }
        | .ok acc' =>
          let sp := sp0 ++ (if last then [] else i.spillUnits acc')
          match nxt with
          | some (c, _) => .error { code := c, rows := if last then acc' else [], spills := sp }
          | none => .ok { acc := acc', sets := ld.sets, spills := sp }

/-- Passes `s` onward. -/
def Tmm.passes (i : Tmm) (k : Core) (sram : Memory) (b : Nat) : (n s : Nat) → (o : PassOut) → Except TmmFail PassOut
  | 0, _, o => .ok o
  | n + 1, s, o =>
    match i.pass k sram b s o.acc with
    | .error e => .error { e with spills := o.spills ++ e.spills }
    | .ok r => i.passes k sram b n (s + 1) { acc := r.acc, sets := o.sets ++ r.sets, spills := o.spills ++ r.spills }

/-- The initial accumulators of a batch (R73, R76, R146). -/
def Tmm.initial (i : Tmm) (k : Core) (sram : Memory) (b : Nat) : List (List Cell) :=
  (List.range i.m).map (fun m => (List.range 32).map (fun n =>
    (if i.init = 1 then readElem sram i.i i.accFmt m n b i.xc
     else if i.init = 2 then k.carryElem i.accFmt (i.iSel + (b * i.groups + m / 32) * tileSlots i.accFmt) (m % 32) n
     else 0, 0)))

/-- The tag word of the initial tile of group `g`, none when there is none (R141). -/
def Tmm.initTag (i : Tmm) (k : Core) (sram : Memory) (b g : Nat) : Nat :=
  if i.init = 1 then (if i.i.tagged then readLE sram (tagAddr i.i b g i.xc i.groups) 4 else 0)
  else if i.init = 2 then (k.slot (i.iSel + (b * i.groups + g) * tileSlots i.accFmt)).tag
  else 0

/-! ## Write-back -/

/-- The random word of an output element (R83, R84, R147, R182). -/
def Tmm.rand (i : Tmm) (b m n : Nat) : Nat :=
  if i.rnd = .sr then
    let blk := if i.form = .pg && !i.gatherK then 32 * (i.entries.getD b (0, false)).1 else 0
    let bat := if i.form = .pg && !i.gatherK then i.batchOrg else i.batchOrg + b
    philox i.seed (i.colBase + blk + n) (i.rowBase + m) i.tensor bat i.use
  else 0

/-- An accumulator written back: code and flags (R74, R78, R80, R81). -/
def Tmm.writeBack (i : Tmm) (b m n : Nat) (c : Cell) : Cell :=
  let (code, ovf) : Nat × Bool :=
    if i.exact then
      (if i.fc = .acc128 then (c.1, false) else fpRound i.fc i.rnd (i.rand b m n) (accValue (accDecode c.1)))
    else if i.fc = .fp32 then (if isNan32 c.1 then Fmt.fp32.canonNan else c.1, false)
    else fpRound i.fc i.rnd (i.rand b m n) (fpDecode .fp32 c.1)
  (code, c.2 ||| accFlags false ovf ||| nanFlag i.fc code)

/-- Units applied to SRAM in order. -/
def applyUnits (m : Memory) (us : List WUnit) : Memory :=
  us.foldl (fun m u => u.puts.foldl (fun m p => writeCode m p.1 p.2.1 p.2.2) m) m

/-- Whether column `n` is written back: it is not masked (R114). -/
def Tmm.liveCol (i : Tmm) (n : Nat) : Bool := i.arr.colMask = 0 || !bitAt i.arr.colMask (i.arr.col n)

/-- The codes of the written columns of row `m`, with their flags; nothing comes of a masked column. -/
def Tmm.rowCodes (i : Tmm) (b m : Nat) (cells : List Cell) : List Cell :=
  (List.range i.nx).map (fun n => if i.liveCol n then i.writeBack b m n (cells.getD n (0, 0)) else (0, 0))

/-- The tag word of tile (b, g): initial tile, TMM_PG marks, VENEER, and the flags of its written elements. -/
def tileTag (base : Nat) (codes : List (List Cell)) (g : Nat) : Nat :=
  tagAdd base ((slice codes (32 * g) 32).foldl (fun t r => r.foldl (fun t c => t ||| c.2) t) 0)

/-- The units of row `m` (R104, R105): one, or four of 8 columns in ACC128; the tag word goes with the last unit of
a tile's last row. -/
def Tmm.rowUnits (i : Tmm) (b m : Nat) (codes : List Cell) (tag : Nat) : List WUnit :=
  let g := m / 32
  let last : Bool := m + 1 = i.rows || m % 32 = 31
  let puts : List (Nat × Nat × Nat) := if i.cCarry then [] else
    ((List.range codes.length).filter i.liveCol).map (fun n =>
      (elemNib i.c i.fc.bits m n b i.xc, i.fc.bits, (codes.getD n (0, 0)).1))
  let tagPut : List (Nat × Nat × Nat) := if i.cCarry then [] else [(2 * tagAddr i.c b g i.xc i.groups, 32, tag)]
  let us : List WUnit :=
    if i.fc = .acc128 then (chunksOf 8 4 puts).map (fun p => { puts := p, tag := 0 })
    else [{ puts := puts, tag := 0 }]
  if last then us.dropLast ++ [{ puts := (us.getLastD { puts := [], tag := 0 }).puts ++ tagPut, tag := tag }] else us

/-- A carry tile's 1,024 codes: +0 beyond the written rows and columns (R142). -/
def tileCodes (codes : List (List Cell)) (g : Nat) : List Nat :=
  let rows := slice codes (32 * g) 32
  (List.range 32).flatMap (fun r => (List.range 32).map (fun c => ((rows.getD r []).getD c (0, 0)).1))

/-! ## Audit (R183) -/

/-- Whether block `j` of A holds an element above ACT_THRESH or NaN in batch `b`, as its rows enter. -/
def Tmm.blockActive (i : Tmm) (sram : Memory) (b j : Nat) : Bool :=
  let thr := (fpDecode .fp32 (readLE sram (i.list + 12) 4)).abs
  (List.range i.m).any (fun m => (List.range 32).any (fun c =>
    let v := fpDecode i.fa (readElem sram i.a i.fa m (32 * j + c) b i.xa)
    let v := if i.fa = .int8 then
        (let s := signed 8 (readElem sram i.a i.fa m (32 * j + c) b i.xa); Fp.fin (decide (s < 0)) s.natAbs 64)
      else v
    let v := if i.fa.blockScaled then
        (let (p, q) := scale2 1 1 (((readByte sram (scaleAddr i.a m (32 * j) b i.xa)).toNat : Int) - 127)
         v.mul (.fin false p q))
      else v
    v.isNan || thr.lt v.abs))

/-- The audited entries: their findings in batch `b`, in resolved order. -/
def Tmm.findings (i : Tmm) (sram : Memory) (b : Nat) : List Bool :=
  ((List.range i.entries.length).filter (fun j => (i.entries.getD j (0, false)).2)).map (i.blockActive sram b)

/-- What a batch leaves: the write units in order, those of spilled rows first; carry tiles (slot, codes, tag); the sets it made active;
the accumulators; and the findings of an audit (R183). -/
structure BatchOut where
  units : List WUnit
  tiles : List (Nat × List Nat × Nat) := []
  sets : List StationarySet := []
  acc : List (List Cell) := []
  found : List Bool := []
deriving DecidableEq, Repr

/-- The codes of the first `n` rows of batch `b` from their accumulators. -/
def Tmm.codesOf (i : Tmm) (b n : Nat) (acc : List (List Cell)) : List (List Cell) :=
  (List.range n).map (fun m => i.rowCodes b m (acc.getD m []))

/-- The tag word of tile (b, g). -/
def Tmm.tagOf (i : Tmm) (k : Core) (sram : Memory) (mark b : Nat) (codes : List (List Cell)) (g : Nat) : Nat :=
  tileTag (tagCombine (i.initTag k sram b g) mark) codes g

/-- The write-back units of the rows of `codes`, in order. -/
def Tmm.unitsOf (i : Tmm) (k : Core) (sram : Memory) (mark b : Nat) (codes : List (List Cell)) : List WUnit :=
  (List.range codes.length).flatMap (fun m =>
    i.rowUnits b m (codes.getD m []) (i.tagOf k sram mark b codes (m / 32)))

/-- One batch iteration (R136, R137); on an abort, its code and the units whose write may have begun. -/
def Tmm.batch (i : Tmm) (k : Core) (sram : Memory) (mark b : Nat) : Except (Nat × List WUnit) BatchOut :=
  match i.passes k sram b (i.kblocks / i.span) 0 { acc := i.initial k sram b } with
  | .error e => .error (e.code, e.spills ++ i.unitsOf k sram mark b (i.codesOf b (min i.rows e.rows.length) e.rows))
  | .ok o =>
    let codes := i.codesOf b i.rows o.acc
    let tag (g : Nat) : Nat := i.tagOf k sram mark b codes g
    let tiles := if i.cCarry then
      (List.range i.groups).map (fun g => (i.cSel + (b * i.groups + g) * tileSlots i.fc, tileCodes codes g, tag g))
      else []
    .ok { units := o.spills ++ i.unitsOf k sram mark b codes, tiles := tiles, sets := o.sets, acc := o.acc,
          found := if i.gatherK then i.findings sram b else [] }

/-- The batches in order, over the SRAM as each leaves it: SRAM, units and what each batch left; or the code of the
abort and the units whose write-back may have begun. -/
def Tmm.batchesGo (i : Tmm) (k : Core) (mark : Nat) :
    (n b : Nat) → (sram : Memory) → (done : List WUnit) →
    Except (Nat × List WUnit) (Memory × List WUnit × List BatchOut)
  | 0, _, sram, done => .ok (sram, done, [])
  | n + 1, b, sram, done =>
    match i.batch k sram mark b with
    | .error e => .error (e.1, done ++ e.2)
    | .ok o =>
      match i.batchesGo k mark n (b + 1) (applyUnits sram o.units) (done ++ o.units) with
      | .error e => .error e
      | .ok (m, us, os) => .ok (m, us, o :: os)

/-! ## Marks of a tile -/

/-- Whether the instruction reads bytes that `touch` picks: a range of `n` bytes at `a`. -/
def Tmm.readsAny (i : Tmm) (k : Core) (touch : (a n : Nat) → Bool) : Bool :=
  (List.range i.batches).any (fun b =>
    (!i.aCarry && (List.range i.m).any (fun m => (List.range (32 * i.kblocks)).any (fun c =>
      touch (elementAddr i.a i.fa.bits m c b i.xa) (ceilDiv i.fa.bits 8)
      || (i.fa.blockScaled && touch (scaleAddr i.a m c b i.xa) 1))))
    || (!i.bCarry && (List.range (32 * i.kblocks)).any (fun c => (List.range 32).any (fun n =>
      touch (match i.form with
        | .sub => recordAddr i.meta_ n (c / 64) b i.xb
        | .s24 => elementAddr i.b i.fs.bits (c / 2) n b i.xb
        | .dense => elementAddr i.b i.fs.bits c n b i.xb
        | .pg => elementAddr i.b i.fs.bits c n b i.xb) (if i.form = .sub then 16 else ceilDiv i.fs.bits 8)
      || (i.form = .s24 && touch (maskNib i.meta_ c n b i.xb / 2) 1)
      || (i.form = .sub && touch (i.valueBase b + fld (i.record k.sram b (c / 64) n) 80 22)
            (max 1 (ceilDiv (fld (i.record k.sram b (c / 64) n) 64 7 * i.fs.bits) 8)))
      || (i.fs.blockScaled && touch (scaleAddr i.b c n b i.xb) 1))))
    || (i.init = 1 && (List.range i.m).any (fun m => (List.range 32).any (fun n =>
      touch (elementAddr i.i i.accFmt.bits m n b i.xc) (i.accFmt.bits / 8)))))

/-- Whether the instruction reads a byte of a VENEER slot (R331); asked only where such a slot exists. -/
def Tmm.readsVeneer (i : Tmm) (k : Core) : Bool :=
  k.wins.any (fun p => p.2.slots.any (fun q => q.2.st = .veneer)) && i.readsAny k k.touchesVeneer

/-- Whether the instruction reads ECC word `q`: a descriptor, its list region, an operand, or a tag word of its initial tile (R296). -/
def Tmm.readsWord (i : Tmm) (k : Core) (w q : Nat) : Bool :=
  k.descWord ((if i.aCarry then [] else [fld w 90 6]) ++ (if i.bCarry then [] else [fld w 96 6])
      ++ (if i.cCarry then [] else [fld w 102 6]) ++ (if i.init = 1 then [fld w 108 6] else [])
      ++ (if i.form = .sub then [fld w 114 6] else [])
      ++ (if i.form = .sub || i.form = .s24 then [fld w 218 6] else [])) q
  || (i.form = .pg && inWord q i.list (0x80 + 64 * ceilDiv (readLE k.sram (i.list + 10) 2) 32 + 4 * i.entries.length))
  || i.readsAny k (inWord q)
  || (i.init = 1 && i.i.tagged && (List.range i.batches).any (fun b => (List.range i.groups).any (fun g =>
      inWord q (tagAddr i.i b g i.xc i.groups) 4)))

/-- The first uncorrectable word the instruction reads (R297). -/
def Tmm.badRead (i : Tmm) (k : Core) (w : Nat) : Option Nat := k.badWords.find? (i.readsWord k w)

/-- The words with a correctable error that it reads, those that its writes cover in part among them (R297). -/
def Tmm.softRead (i : Tmm) (k : Core) (w : Nat) (puts : List (Nat × Nat × Nat)) : List Nat :=
  k.softWords.filter (fun q => i.readsWord k w q || (0 < nibsIn q puts && nibsIn q puts < 64))

/-- Whether the stationary load from the arriving stream still waits for a unit (R144). -/
def Tmm.waitsStream (i : Tmm) (k : Core) : Bool :=
  i.bStream && !k.wins.isEmpty &&
  (List.range i.batches).any (fun b => (List.range (32 * i.kblocks)).any (fun c => (List.range 32).any (fun n =>
    (match i.form with
      | .sub =>
        let r := i.record k.sram b (c / 64) n
        k.waitsForUnits (recordAddr i.meta_ n (c / 64) b i.xb) 16
        || k.waitsForUnits (i.valueBase b + fld r 80 22) (max 1 (ceilDiv (fld r 64 7 * i.fs.bits) 8))
      | .s24 => k.waitsForUnits (elementAddr i.b i.fs.bits (c / 2) n b i.xb) (ceilDiv i.fs.bits 8)
        || k.waitsForUnits (maskNib i.meta_ c n b i.xb / 2) 1
      | .dense => k.waitsForUnits (elementAddr i.b i.fs.bits c n b i.xb) (ceilDiv i.fs.bits 8)
      | .pg => k.waitsForUnits (elementAddr i.b i.fs.bits c n b i.xb) (ceilDiv i.fs.bits 8))
    || (i.fs.blockScaled && k.waitsForUnits (scaleAddr i.b c n b i.xb) 1))))

/-- The marks of TMM_PG and of veneer reads on every tile (R185, R331). -/
def Tmm.mark (i : Tmm) (k : Core) : Nat :=
  let fallback := bitAt (readLE k.sram (i.list + 0x48) 4) 17
  let pg := if i.form = .pg && !fallback then mkTag tagApprox (readLE k.sram (i.list + 33) 1) else 0
  if i.readsVeneer k then tagAdd pg tagVeneer else pg

/-- Bits of a list, first lowest. -/
def bitsOf : List Bool → Nat
  | [] => 0
  | b :: bs => b2n b + 2 * bitsOf bs

/-- The audit written into the header when a down-projection completes (R183). -/
def Tmm.audit (i : Tmm) (os : List BatchOut) (after : Memory) : Memory :=
  if i.gatherK then
    let h := listHeader i.list
    let n := ((i.entries).filter Prod.snd).length
    let f := (List.range n).map (fun j => os.any (fun o => o.found.getD j false))
    let step := readLE after (h + 4) 4
    if readLE after (h + 12) 4 = step then
      writeLE after (h + 24) 8 (readLE after (h + 24) 8 ||| bitsOf f)
    else
      writeLE (writeLE (writeLE after (h + 12) 4 step) (h + 16) 1 f.length) (h + 24) 8 (bitsOf f)
  else after

/-! ## The whole instruction -/

/-- A load into the shadow set (R106). -/
def Engine.load (e : Engine) (t : StationarySet) : Engine := if e.activeB then { e with setA := t } else { e with setB := t }

/-- The swap (R107): the sets change roles; the set that was active may be loaded, and no row of the new pass has entered. -/
def Engine.swap (e : Engine) : Engine :=
  if e.activeB then { e with activeB := false, lastRowIn := false, setB := { e.setB with loaded := false } }
  else { e with activeB := true, lastRowIn := false, setA := { e.setA with loaded := false } }

/-- The engine after a completed TMM: each set loaded and swapped in, the last row entered, and the half it used holding its accumulators
(R103, R107). A first tile loaded before is not loaded again, nor swapped in again. -/
def Tmm.engineAfter (i : Tmm) (e : Engine) (os : List BatchOut) : Engine :=
  let sets := os.flatMap (fun o => o.sets)
  let acc := (os.map (fun o => o.acc)).getLastD []
  let half := (acc.take i.halfRows).flatMap (fun r => r.map (fun c => c.1))
  let e1 := (if e.primed && !e.lastRowIn then sets.drop 1 else sets).foldl (fun e t => (e.load t).swap) e
  let e2 := { e1 with lastRowIn := true, primed := false, nextHalf1 := !e.nextHalf1 }
  if e.nextHalf1 then { e2 with half1 := half } else { e2 with half0 := half }

/-- While a TMM waits at the head of the engine's queue, its first stationary tile loads into the shadow set as soon as its bytes are there
(R107); a load that fails aborts the task (R165, R171). A tile of the carry buffer is loaded when the TMM runs. -/
def Tmm.prime (i : Tmm) (k : Core) : Except Nat Core :=
  if k.eng.primed || i.bCarry || i.batches = 0 || i.kblocks = 0 || !k.badWords.isEmpty || i.waitsStream k then .ok k
  else
    match i.load k k.sram 0 0 with
    | .error c => .error c
    | .ok ld => .ok { k with eng := { k.eng.load (ld.sets.headD {}) with primed := true } }

/-- The flags of completed tiles, for the partition's summary (R97). -/
def unitTags (us : List WUnit) : Nat := us.foldl (fun t u => tagSummary t u.tag) 0

/-- Whether TMM_PG must wait for its list to be resolved (R179). -/
def listPending (form : TmmForm) (k : Core) (w : Nat) : Bool :=
  form = .pg && !bitAt (readLE k.sram (fld w 218 16 * 64 + 0x48) 4) 16

/-- Whether the instruction is over at issue whatever waits before it: it is a no-op, its thread's next instruction lies outside the program
region, or its byte ranges are bad (R155, R156, R200). -/
def tmmAtOnce (form : TmmForm) (x : Ctx) (k : Core) (th : Thread) (w : Nat) : Bool :=
  !k.pcInside (th.pc + 32) || fld w 32 16 = 0
  || (form ≠ .pg && (!(tmmOf form x k th w).inRange || (tmmOf form x k th w).outSpans.any k.writesCode))

/-- A TMM of any form (R136, R155, R156, R161); a write to the program region or the descriptor table aborts the task (R124, log 107). -/
def runTmm (form : TmmForm) (x : Ctx) (k : Core) (th : Thread) (w : Nat) : CoreRes :=
  let th' := { th with pc := th.pc + 32, st := ThreadState.ready }
  if !k.pcInside (th.pc + 32) then goAbort k th 0x0602
  else if fld w 32 16 = 0 then goThread k th'
  else if listPending form k w then .wait
  else
    let i := tmmOf form x k th w
    if !i.inRange || i.outSpans.any k.writesCode then goAbort k th 0x0602
    else if !i.sourcesFull k || !i.destEmpty k || i.waitsStream k then .wait
    else if let some w := i.badRead k w then goBad k th' w
    else
      match i.batchesGo k (i.mark k) i.batches 0 k.sram [] with
      | .error (code, done) =>
        let landed := done.take (min done.length (Config.freeNat x.free))
        let puts := landed.flatMap WUnit.puts
        .go { core := { k with sram := applyUnits k.sram landed }.mend puts, th := th', used := 2,
              tags := unitTags landed, abort := some code, soft := i.softRead k w puts }
      | .ok (sram, us, os) =>
        let puts := us.flatMap (fun u => u.puts)
        if let some w := k.rmwBad puts then goBad k th' w else
        let k1 := k.mend puts
        let k' := { i.consume k1 with sram := i.audit os sram, eng := i.engineAfter k.eng os }
        let k' := (os.flatMap (fun o => o.tiles)).foldl (fun k t => k.putTile i.fc t.1 t.2.1 t.2.2) k'
        .go { core := k', th := th', tags := unitTags us, soft := i.softRead k w puts }

end Sys2Proof.Machine
end

