-- ==== Sys2Proof/Machine/Silicon.lean ====
section
/-! DEFINITION. The functions of R117: the special cases the table states, and for every other input a free value that
stays within the stated bound in ULP of the exact result. The exact result is enclosed between two rationals. -/

namespace Sys2Proof.Machine

/-- The functions of R117. -/
inductive Fn where
  | exp | exp2 | log | log2 | rsqrt | tanh | sigmoid | erf
deriving DecidableEq, Repr

/-- The number under which the free offset of a function is asked for. -/
def Fn.num : Fn → Nat
  | .exp => 0 | .exp2 => 1 | .log => 2 | .log2 => 3 | .rsqrt => 4 | .tanh => 5 | .sigmoid => 6 | .erf => 7

/-- The bound of R117 in ULP. -/
def Fn.ulps : Fn → Nat
  | .exp => 1 | .exp2 => 1 | .log => 1 | .log2 => 1 | .rsqrt => 1 | .tanh => 2 | .sigmoid => 2 | .erf => 2

/-- A signed rational p / q, q ≠ 0. -/
abbrev Q := Int × Nat

/-- a ≤ b. -/
def Q.le (a b : Q) : Bool := a.1 * b.2 ≤ b.1 * a.2

/-- a + n × b for a natural n. -/
def Q.addMul (a b : Q) (n : Int) : Q := (a.1 * b.2 + n * b.1 * a.2, a.2 * b.2)

/-- Fixed-point places of the enclosures. -/
def fixP : Nat := 256

/-- 1.0 in fixed point. -/
def fixOne : Nat := 2 ^ fixP

/-- ln 2 in fixed point, rounded down. -/
def fixLn2 : Nat := 0xb17217f7d1cf79abc9e3b39803f2f6af40f343267298b62d8a0d175b8baafa2b

/-- 2 ÷ √π in fixed point, rounded down. -/
def fixTwoOverSqrtPi : Nat := 0x120dd750429b6d11ae3a914fed7fd8688281341d7587cea2e7342b06199cc4161

/-- The largest error of a fixed-point sum below, in units of its last place. -/
def fixErr : Nat := 2 ^ 20

/-- The Taylor series of e^r - 1 - ..., term by term, each rounded down. -/
def expTerms (r : Nat) : (fuel k term acc : Nat) → Nat
  | 0, _, _, acc => acc
  | n + 1, k, term, acc =>
    let t := term * r / fixOne / k
    if t = 0 then acc else expTerms r n (k + 1) t (acc + t)

/-- e^r in fixed point for 0 ≤ r < 1. -/
def expFix (r : Nat) : Nat := expTerms r 100 1 fixOne fixOne

/-- An enclosure (lo, hi) of e^(n/d) for n / d at most 200. -/
def expPos (n d : Nat) : Q × Q :=
  let x := n * fixOne / d
  let k := x / fixLn2
  let t := expFix (x - k * fixLn2)
  (((((t - fixErr) * 2 ^ k : Nat)) , fixOne), ((((t + fixErr) * 2 ^ k : Nat)), fixOne))

/-- The enclosure of 1 / f from one of f > 0. -/
def invQ (b : Q × Q) : Q × Q := ((b.2.2, b.2.1.toNat), (b.1.2, b.1.1.toNat))

/-- An enclosure of e^(±n/d) for n / d at most 200. -/
def expBoth (neg : Bool) (n d : Nat) : Q × Q := if neg then invQ (expPos n d) else expPos n d

/-- An enclosure of 2^(±n/d) for n / d at most 200. -/
def exp2Both (neg : Bool) (n d : Nat) : Q × Q :=
  let k := n / d
  let t := expFix (n % d * fixLn2 / d)
  let b : Q × Q := (((((t - fixErr) * 2 ^ k : Nat)), fixOne), ((((t + fixErr) * 2 ^ k : Nat)), fixOne))
  if neg then invQ b else b

/-- The series of atanh z in fixed point. -/
def atanhTerms (z2 : Nat) : (fuel k term acc : Nat) → Nat
  | 0, _, _, acc => acc
  | n + 1, k, term, acc =>
    if term = 0 then acc else atanhTerms z2 n (k + 2) (term * z2 / fixOne) (acc + term / k)

/-- ln(n / d) in fixed point, within fixErr. -/
def lnFix (n d : Nat) : Int :=
  let e := flog2 n d
  let (a, b) := scale2 n d (-e)
  let z := (a - b) * fixOne / (a + b)
  e * fixLn2 + 2 * (atanhTerms (z * z / fixOne) 100 1 z 0 : Nat)

/-- The series 1 - y/3 + y²/10 - ... of erf x ÷ (x × 2 ÷ √π), y = x². -/
def erfTerms (y : Nat) : (fuel k : Nat) → (term : Nat) → (acc : Int) → Int
  | 0, _, _, acc => acc
  | n + 1, k, term, acc =>
    if term = 0 then acc else
      let c : Nat := term / (2 * k + 1)
      erfTerms y n (k + 1) (term * y / fixOne / (k + 1)) (if k % 2 = 0 then acc + c else acc - c)

/-- The FP32 value of a signed index: the code for 0 and above, the negative code of its magnitude below. -/
def ofIdx (i : Int) : Nat := if i < 0 then 2 ^ 31 + i.natAbs else i.natAbs

/-- The rational an index stands for. -/
def idxValue (i : Int) : Q :=
  let (n, d) := magOf .fp32 i.natAbs
  (if i < 0 then -(n : Int) else (n : Int), d)

/-- One ULP at an index. -/
def idxUlp (i : Int) : Q :=
  let c := min i.natAbs 0x7F7F_FFFE
  let (n, d) := magOf .fp32 c
  let (m, e) := magOf .fp32 (c + 1)
  ((m * d : Nat) - (n * e : Nat), d * e)

/-- Whether index `i` lies within `k` ULP of every value of the enclosure. -/
def withinUlps (k : Nat) (b : Q × Q) (i : Int) : Bool :=
  let v := idxValue i
  let u := idxUlp i
  Q.le (Q.addMul v u (-(k : Int))) b.1 && Q.le b.2 (Q.addMul v u k)

/-- The index nearest to the enclosed value. -/
def nearestIdx (b : Q × Q) : Int :=
  let c : Int := roundCode .fp32 .rne 0 b.1.1.natAbs b.1.2
  if b.1.1 < 0 then -c else c

/-- The free result for an exact result of 0: either zero, or a value within the bound. -/
def freeZero (f : Fn) (x : Nat) : Nat :=
  let o := Config.siliconOffset f.num x
  if o.natAbs ≤ f.ulps then ofIdx o else 2 ^ 31

/-- The free result within the bound, its index kept in [lo, hi]; the nearest value where the free offset leaves
the bound. -/
def freeWithin (f : Fn) (x : Nat) (b : Q × Q) (lo hi : Int) : Nat :=
  let near := nearestIdx b
  let c := near + Config.siliconOffset f.num x
  if decide (lo ≤ c) && decide (c ≤ hi) && withinUlps f.ulps b c then ofIdx c else ofIdx (max lo (min hi near))

/-- The largest finite index. -/
def idxMax : Int := 0x7F7F_FFFF

/-- The index of 1.0. -/
def idxOne : Int := 0x3F80_0000

/-- exp and exp2 from an enclosure: above the overflow point the result is +infinity and OVERFLOW is set. -/
def expResult (f : Fn) (x : Nat) (b : Q × Q) : Nat × Bool :=
  if idxMax < nearestIdx b then (0x7F80_0000, true) else (freeWithin f x b 0 idxMax, false)

/-- tanh, sigmoid and erf from an enclosure: a value whose nearest FP32 value is a bound saturates to it. -/
def satResult (f : Fn) (x : Nat) (b : Q × Q) (lo hi : Int) : Nat :=
  let near := nearestIdx b
  if near ≤ lo then ofIdx lo else if hi ≤ near then ofIdx hi else freeWithin f x b lo hi

/-- A function of R117 at the FP32 code `x`: the FP32 result, and whether OVERFLOW is set. -/
def silicon (f : Fn) (x : Nat) : Nat × Bool :=
  match fpDecode .fp32 x with
  | .nan => (Fmt.fp32.canonNan, false)
  | .inf neg =>
    match f with
    | .exp => (if neg then 0 else 0x7F80_0000, false)
    | .exp2 => (if neg then 0 else 0x7F80_0000, false)
    | .log => (if neg then Fmt.fp32.canonNan else 0x7F80_0000, false)
    | .log2 => (if neg then Fmt.fp32.canonNan else 0x7F80_0000, false)
    | .rsqrt => (if neg then Fmt.fp32.canonNan else 0, false)
    | .tanh => (if neg then 0xBF80_0000 else 0x3F80_0000, false)
    | .sigmoid => (if neg then 0 else 0x3F80_0000, false)
    | .erf => (if neg then 0xBF80_0000 else 0x3F80_0000, false)
  | .fin neg n d =>
    match f with
    | .exp =>
      if 200 * d < n then (if neg then freeWithin f x ((0, 1), (1, 2 ^ 200)) 0 idxMax else 0x7F80_0000, !neg)
      else expResult f x (expBoth neg n d)
    | .exp2 =>
      if 200 * d < n then (if neg then freeWithin f x ((0, 1), (1, 2 ^ 200)) 0 idxMax else 0x7F80_0000, !neg)
      else expResult f x (exp2Both neg n d)
    | .log =>
      if n = 0 then (0xFF80_0000, false)
      else if neg then (Fmt.fp32.canonNan, false)
      else if n = d then (freeZero f x, false)
      else
        let v := lnFix n d
        (freeWithin f x ((v - fixErr, fixOne), (v + fixErr, fixOne)) (-idxMax) idxMax, false)
    | .log2 =>
      if n = 0 then (0xFF80_0000, false)
      else if neg then (Fmt.fp32.canonNan, false)
      else if n = d then (freeZero f x, false)
      else
        let v := lnFix n d
        (freeWithin f x ((v - fixErr, fixLn2), (v + fixErr, fixLn2)) (-idxMax) idxMax, false)
    | .rsqrt =>
      if n = 0 then (if neg then 0xFF80_0000 else 0x7F80_0000, false)
      else if neg then (Fmt.fp32.canonNan, false)
      else
        let r := isqrt (d * 2 ^ 600 / n)
        (freeWithin f x ((r, 2 ^ 300), (r + 1, 2 ^ 300)) 0 idxMax, false)
    | .tanh =>
      if n = 0 then (freeZero f x, false)
      else
        let sgn (q : Q × Q) : Q × Q := if neg then ((-q.2.1, q.2.2), (-q.1.1, q.1.2)) else q
        let lo : Int := -idxOne
        if 20 * d ≤ n then (ofIdx (if neg then lo else idxOne), false)
        else if n * 2 ^ 12 < d then
          let d3 := 3 * d ^ 3
          let p : Int := (n * d3 : Nat) - (n ^ 3 * d : Nat)
          (satResult f x (sgn ((p, d * d3), Q.addMul (p, d * d3) (2 * n ^ 5, 15 * d ^ 5) 1)) lo idxOne, false)
        else
          let b := expPos (2 * n) d
          let g (q : Q) : Q := (q.1 - q.2, (q.1 + q.2).toNat)
          (satResult f x (sgn (g b.1, g b.2)) lo idxOne, false)
    | .sigmoid =>
      if 200 * d < n then (if neg then 0 else 0x3F80_0000, false)
      else
        let b := expBoth neg n d
        let g (q : Q) : Q := (q.1, (q.1 + q.2).toNat)
        (satResult f x (g b.1, g b.2) 0 idxOne, false)
    | .erf =>
      if n = 0 then (freeZero f x, false)
      else if 4 * d ≤ n then (ofIdx (if neg then -idxOne else idxOne), false)
      else
        let y := n * n * fixOne / (d * d)
        let s := erfTerms y 400 0 fixOne 0
        let c : Int := n * fixTwoOverSqrtPi
        let e : Int := 2 ^ 40
        let b : Q × Q := ((c * (s - e), d * fixOne * fixOne), (c * (s + e), d * fixOne * fixOne))
        let b' : Q × Q := if neg then ((-b.2.1, b.2.2), (-b.1.1, b.1.2)) else b
        (satResult f x b' (-idxOne) idxOne, false)

end Sys2Proof.Machine
end

