-- ==== Sys2Proof/Machine/CoreVector.lean ====
section
/-! DEFINITION. Vector instructions at their core (R116 to R118, R150 to R156): operand kinds, the operations, row
operations in the fixed order, conversions and the destination's tag words. -/

namespace Sys2Proof.Machine

/-- The vector operations of R151. -/
inductive VOp where
  | add | sub | mul | fma | min | max | cmplt | cmpeq | sel | div | sqrt | recip | fn (f : Fn) | cvt
  | rsum | rmax | rmin | softmax | layernorm | rmsnorm
deriving DecidableEq, Repr

/-- The number of sources an operation takes (R151). -/
def VOp.arity : VOp → Nat
  | .add => 2 | .sub => 2 | .mul => 2 | .fma => 3 | .min => 2 | .max => 2 | .cmplt => 2 | .cmpeq => 2 | .sel => 3
  | .div => 2 | .sqrt => 1 | .recip => 1 | .fn _ => 1 | .cvt => 1 | .rsum => 1 | .rmax => 1 | .rmin => 1
  | .softmax => 1 | .layernorm => 2 | .rmsnorm => 2

/-- Whether the destination holds one element per row. -/
def VOp.perRow : VOp → Bool
  | .rsum => true | .rmax => true | .rmin => true
  | .add => false | .sub => false | .mul => false | .fma => false | .min => false | .max => false | .cmplt => false
  | .cmpeq => false | .sel => false | .div => false | .sqrt => false | .recip => false | .fn _ => false
  | .cvt => false | .softmax => false | .layernorm => false | .rmsnorm => false

/-- A source operand: kind and index (R150), broadcast, and its descriptor. -/
structure VSrc where
  kind : Nat
  idx : Nat
  bc : Nat
  d : Desc
deriving DecidableEq, Repr

/-- The fields of R150 with latched register values. -/
structure Vec where
  op : VOp
  fin : Fmt
  fout : Fmt
  rnd : Rnd
  srcs : List VSrc
  dst : VSrc
  rows : Nat
  len : Nat
  x : Nat
  use : Nat
  rowBase : Nat
  colBase : Nat
  tensor : Nat
  batch : Nat
  seed : Nat
deriving DecidableEq, Repr

/-- A source or destination from its kind-and-index byte. -/
def vsrcOf (k : Core) (b bc : Nat) : VSrc := { kind := b / 64, idx := b % 64, bc := bc, d := k.desc (b % 64) }

/-- Decoding of a vector word at issue. -/
def vecOf (op : VOp) (x : Ctx) (k : Core) (th : Thread) (w : Nat) : Vec :=
  { op := op, fin := fmtOf (fld w 8 4), fout := fmtOf (fld w 12 4), rnd := Rnd.ofCode (fld w 16 2),
    srcs := [vsrcOf k (fld w 24 8) 0, vsrcOf k (fld w 32 8) (fld w 18 2), vsrcOf k (fld w 40 8) (fld w 20 2)].take op.arity,
    dst := vsrcOf k (fld w 48 8) 0, rows := fld w 56 16, len := 32 * (fld w 72 12 + 1), x := regSel th (fld w 84 5),
    use := regSel th (fld w 135 5), rowBase := 32 * (fld w 170 20 + regSel th (fld w 140 5)),
    colBase := 32 * (fld w 190 16 + regSel th (fld w 145 5)), tensor := fld w 150 20, batch := fld w 206 12,
    seed := x.seed }

/-- Destination groups of 32 rows. -/
def Vec.groups (i : Vec) : Nat := ceilDiv i.rows 32

/-- Elements of a destination row. -/
def Vec.outLen (i : Vec) : Nat := if i.op.perRow then 1 else i.len

/-- The rows a source holds. -/
def VSrc.rowsOf (s : VSrc) (rows : Nat) : Nat := if s.bc = 0 then rows else 1

/-- The elements of a row a source holds. -/
def VSrc.lenOf (s : VSrc) (len : Nat) : Nat := if s.bc = 2 then 1 else len

/-- The byte ranges of the instruction (R156). -/
def Vec.inRange (i : Vec) : Bool :=
  i.srcs.all (fun s => s.kind ≠ 0 || (elemsInRegion s.d i.fin.bits (s.rowsOf i.rows) (s.lenOf i.len) 1 i.x
    && (!s.d.tagged || tagsInRegion s.d 1 (if s.bc = 0 then i.groups else 1) i.x)))
  && (i.dst.kind ≠ 0 || (elemsInRegion i.dst.d i.fout.bits i.rows i.outLen 1 i.x && tagsInRegion i.dst.d 1 i.groups i.x
    && (!i.fout.blockScaled || scalesInRegion i.dst.d i.rows i.outLen 1 i.x)))

/-- Carry slots a source consumes (R148). -/
def VSrc.slots (s : VSrc) (f : Fmt) (rows : Nat) : Nat :=
  (if s.bc = 0 then ceilDiv rows 32 else 1) * tileSlots f

/-- The first carry slot of an operand (R148). -/
def VSrc.first (s : VSrc) : Nat := s.idx % 16

/-- The value of element (r, c) of a source (R153). -/
def Vec.value (i : Vec) (k : Core) (th : Thread) (s : VSrc) (r c : Nat) : Fp :=
  let (r, c) := if s.bc = 2 then (0, 0) else if s.bc = 1 then (0, c) else (r, c)
  let code : Nat :=
    if s.kind = 0 then readElem k.sram s.d i.fin r c 0 i.x
    else if s.kind = 1 then k.carryElem i.fin (s.first + (r / 32) * tileSlots i.fin) (r % 32) c
    else (th.lane s.idx (r * i.len + c)).toNat
  if s.kind = 3 then fpDecode .fp32 (th.xr s.idx).toNat
  else if i.fin = .acc128 then accValue (accDecode code)
  else fpDecode i.fin (code % 2 ^ i.fin.bits)

/-- The tag word a source contributes to destination tile `g` (R154). -/
def Vec.srcTag (i : Vec) (k : Core) (s : VSrc) (g : Nat) : Nat :=
  let g := if s.bc = 0 then g else 0
  if s.kind = 0 then (if s.d.tagged then readLE k.sram (tagAddr s.d 0 g i.x i.groups) 4 else 0)
  else if s.kind = 1 then (k.slot (s.first + g * tileSlots i.fin)).tag
  else 0

/-- The random word of a destination element (R83, R147, R150). -/
def Vec.rand (i : Vec) (r c : Nat) : Nat :=
  if i.rnd = .sr then philox i.seed (i.colBase + c) (i.rowBase + r) i.tensor i.batch i.use else 0

/-! ## Elementwise operations -/

/-- 1.0. -/
def Fp.one : Fp := .fin false 1 1

/-- The exact result of an elementwise operation that is rounded once (R151). -/
def vexact (op : VOp) (a b c : Fp) : Fp :=
  match op with
  | .add => a.add b
  | .sub => a.add b.neg
  | .mul => a.mul b
  | .fma => (a.mul b).add c
  | .min => a.min b
  | .max => a.max b
  | .cmplt => if a.lt b then .one else .zero
  | .cmpeq => if a.eqv b then .one else .zero
  | .sel => if c.isNan || c.isZero then b else a
  | .div => a.div b
  | .sqrt => a.sqrt
  | .recip => Fp.one.div a
  | .fn _ => a | .cvt => a | .rsum => a | .rmax => a | .rmin => a | .softmax => a | .layernorm => a | .rmsnorm => a

/-- An FP32 step inside a row operation, rounded to nearest even, with OVERFLOW (R118). -/
def step32 (v : Fp) : Cell := let (c, o) := fpRound .fp32 .rne 0 v; (c, accFlags false o)

/-- The value of an FP32 cell. -/
def cval (c : Cell) : Fp := fpDecode .fp32 c.1

/-- A function of R117 on an FP32 cell. -/
def fn32 (f : Fn) (c : Cell) : Cell := let (r, o) := silicon f c.1; (r, c.2 ||| accFlags false o)

/-- One destination element of an elementwise operation: code and flags (R81, R116, R117, R152). -/
def Vec.elem (i : Vec) (a b c : Fp) (rand : Nat) : Cell :=
  match i.op with
  | .fn f =>
    let (r, o) := silicon f (f32 a)
    if i.fout = .fp32 then (r, accFlags false o)
    else let (q, o') := fpRound i.fout i.rnd rand (fpDecode .fp32 r); (q, accFlags false (o || o'))
  | _ =>
    if i.fout = .acc128 then
      let (v, inexact, o) := accOfFp i.rnd rand a
      (accEncode v, accFlags inexact o)
    else let (q, o) := fpRound i.fout i.rnd rand (vexact i.op a b c); (q, accFlags false o)

/-! ## Row operations (R118) -/

/-- The lane tree of one vector of 64. -/
def laneTree (f : Cell → Cell → Cell) (xs : List Cell) : Cell := treeFold f (0, 0) 6 xs

/-- Vectors of a row combined in address order, starting from the first (R118). -/
def rowReduce (f : Cell → Cell → Cell) (xs : List Cell) : Cell :=
  match (chunksOf 64 (xs.length / 64 + 1) xs).map (laneTree f) with
  | [] => (0, 0)
  | v :: vs => vs.foldl f v

/-- FP32 maximum and minimum of cells. -/
def cellMax (a b : Cell) : Cell := (f32 ((cval a).max (cval b)), a.2 ||| b.2)
def cellMin (a b : Cell) : Cell := (f32 ((cval a).min (cval b)), a.2 ||| b.2)

/-- A binary FP32 step on cells. -/
def cell2 (f : Fp → Fp → Fp) (a b : Cell) : Cell :=
  let r := step32 (f (cval a) (cval b))
  (r.1, a.2 ||| b.2 ||| r.2)

/-- softmax_row: the terms and the reciprocal to multiply them by. -/
def softmaxRow (xs : List Cell) : List Cell × Cell :=
  let m := rowReduce cellMax xs
  let e := xs.map (fun x => fn32 .exp (cell2 (fun a b => a.add b.neg) x m))
  let s := ((chunksOf 64 (e.length / 64 + 1) e).map (laneTree cellAdd)).foldl cellAdd (0, 0)
  (e, cell2 Fp.div (0x3F80_0000, 0) s)

/-- L, the row length, as an FP32 value. -/
def lenCell (n : Nat) : Cell := step32 (.fin false n 1)

/-- layernorm_row and rmsnorm_row: the terms and the factor to multiply them by. -/
def normRow (layer : Bool) (xs : List Cell) (eps : Cell) : List Cell × Cell :=
  let l := lenCell xs.length
  let base := if layer then
      (let mean := cell2 Fp.div (rowReduce cellAdd xs) l
       xs.map (fun x => cell2 (fun a b => a.add b.neg) x mean))
    else xs
  let var := cell2 Fp.div (rowReduce cellAdd (base.map (fun d => cell2 Fp.mul d d))) l
  (base, fn32 .rsqrt (cell2 Fp.add var eps))

/-- The destination cells of one row of a row operation. -/
def Vec.rowOp (i : Vec) (xs : List Cell) (eps : Cell) (r : Nat) : List Cell :=
  let out (c : Nat) (v : Fp) (fl : Nat) : Cell :=
    let (q, o) := fpRound i.fout i.rnd (i.rand r c) v
    (q, fl ||| accFlags false o)
  let scaled (p : List Cell × Cell) : List Cell :=
    (List.range p.1.length).map (fun c =>
      let e := p.1.getD c (0, 0)
      out c ((cval e).mul (cval p.2)) (e.2 ||| p.2.2))
  match i.op with
  | .rsum => let v := rowReduce cellAdd xs; [out 0 (cval v) v.2]
  | .rmax => let v := rowReduce cellMax xs; [out 0 (cval v) v.2]
  | .rmin => let v := rowReduce cellMin xs; [out 0 (cval v) v.2]
  | .softmax => scaled (softmaxRow xs)
  | .layernorm => scaled (normRow true xs eps)
  | .rmsnorm => scaled (normRow false xs eps)
  | _ => []

/-! ## Conversion to block-scaled formats (R85 to R87) -/

/-- emax of R85. -/
def emaxOf : Fmt → Int
  | .fp4 => 2 | .e4m3 => 8 | .e5m2 => 15 | .int8 => 0
  | .bf16 => 0 | .fp16 => 0 | .fp32 => 0 | .acc128 => 0

/-- The magnitude n / d of a finite value. -/
def Fp.mag : Fp → Nat × Nat
  | .fin _ n d => (n, d)
  | .inf _ => (0, 1)
  | .nan => (0, 1)

/-- The largest magnitude of a list of finite values. -/
def maxMag (vs : List Fp) : Nat × Nat :=
  vs.foldl (fun m v => if m.1 * v.mag.2 < v.mag.1 * m.2 then v.mag else m) (0, 1)

/-- A block of 32 values converted: codes, scale byte, and the flags of its tile. The random words are given per
element. -/
def toBlock (f : Fmt) (mode : Rnd) (vs : List Fp) (rands : List Nat) : List Nat × Nat × Nat :=
  let special := vs.any (fun v => match v with | .fin .. => false | _ => true)
  if special then (vs.map (fun _ => 0), 0xFF, tagNan)
  else
    let m := maxMag vs
    if m.1 = 0 then (vs.map (fun _ => 0), 0, 0)
    else
      let e : Int := max (-127) (min 127 (flog2 m.1 m.2 - emaxOf f))
      let one (v : Fp) (r : Nat) : Nat :=
        match v with
        | .fin s n d =>
          let (a, b) := scale2 n d (-e)
          if f = .int8 then int8Clamp mode r (.fin s a b) else fpClamp f mode r (.fin s a b)
        | _ => 0
      (List.zipWith one vs rands, (e + 127).toNat, 0)

/-! ## The whole instruction -/

/-- The cells of destination row `r`, and the scale bytes of its blocks. -/
def Vec.row (i : Vec) (k : Core) (th : Thread) (r : Nat) : List Cell × List Nat :=
  let val (n c : Nat) : Fp := match i.srcs[n]? with
    | some s => i.value k th s r c
    | none => .zero
  match i.op with
  | .rsum => (i.rowOp ((List.range i.len).map (fun c => (f32 (val 0 c), 0))) (0, 0) r, [])
  | .rmax => (i.rowOp ((List.range i.len).map (fun c => (f32 (val 0 c), 0))) (0, 0) r, [])
  | .rmin => (i.rowOp ((List.range i.len).map (fun c => (f32 (val 0 c), 0))) (0, 0) r, [])
  | .softmax => (i.rowOp ((List.range i.len).map (fun c => (f32 (val 0 c), 0))) (0, 0) r, [])
  | .layernorm => (i.rowOp ((List.range i.len).map (fun c => (f32 (val 0 c), 0))) (f32 (val 1 0), 0) r, [])
  | .rmsnorm => (i.rowOp ((List.range i.len).map (fun c => (f32 (val 0 c), 0))) (f32 (val 1 0), 0) r, [])
  | _ =>
    if i.fout.blockScaled then
      let blks := (List.range (i.len / 32)).map (fun b =>
        toBlock i.fout i.rnd ((List.range 32).map (fun c => val 0 (32 * b + c)))
          ((List.range 32).map (fun c => i.rand r (32 * b + c))))
      (blks.flatMap (fun t => t.1.map (fun c => (c, t.2.2))), blks.map (fun t => t.2.1))
    else ((List.range i.len).map (fun c => i.elem (val 0 c) (val 1 c) (val 2 c) (i.rand r c)), [])

/-- Whether the instruction reads bytes that `touch` picks. -/
def Vec.readsAny (i : Vec) (touch : (a n : Nat) → Bool) : Bool :=
  i.srcs.any (fun s => s.kind = 0 && (List.range (s.rowsOf i.rows)).any (fun r =>
    (List.range (s.lenOf i.len)).any (fun c => touch (elementAddr s.d i.fin.bits r c 0 i.x) (i.fin.bits / 8))))

/-- Whether the instruction reads ECC word `q`: a descriptor, an element or a tag word of a source (R296). -/
def Vec.readsWord (i : Vec) (k : Core) (w q : Nat) : Bool :=
  k.descWord ((((List.range i.op.arity).map (fun j => fld w (24 + 8 * j) 8) ++ [fld w 48 8]).filter (fun b => b < 64))) q
  || i.readsAny (inWord q)
  || i.srcs.any (fun s => s.kind = 0 && s.d.tagged
      && (List.range i.groups).any (fun g => inWord q (tagAddr s.d 0 (if s.bc = 0 then g else 0) i.x i.groups) 4))

/-- The first uncorrectable word the instruction reads (R297). -/
def Vec.badRead (i : Vec) (k : Core) (w : Nat) : Option Nat := k.badWords.find? (i.readsWord k w)

/-- The words with a correctable error that it reads, those that its writes cover in part among them (R297). -/
def Vec.softRead (i : Vec) (k : Core) (w : Nat) (puts : List (Nat × Nat × Nat)) : List Nat :=
  k.softWords.filter (fun q => i.readsWord k w q || (0 < nibsIn q puts && nibsIn q puts < 64))

/-- The bytes of SRAM that the instruction writes, and all that it reads or writes (R139, R156). -/
def Vec.outSpans (i : Vec) : List Span :=
  if i.dst.kind = 0 then
    (elemSpan i.dst.d i.fout.bits i.rows i.outLen 1 i.x).out :: (tagSpan i.dst.d 1 i.groups i.x).out
      :: (if i.fout.blockScaled then [(scaleSpan i.dst.d i.rows i.outLen 1 i.x).out] else [])
  else []
def Vec.spans (i : Vec) : List Span :=
  i.srcs.flatMap (fun s => if s.kind = 0 then
      elemSpan s.d i.fin.bits (s.rowsOf i.rows) (s.lenOf i.len) 1 i.x
        :: (if s.d.tagged then [tagSpan s.d 1 (if s.bc = 0 then i.groups else 1) i.x] else [])
    else [])
  ++ i.outSpans

/-- Whether the instruction reads a byte of a VENEER slot (R331). -/
def Vec.readsVeneer (i : Vec) (k : Core) : Bool :=
  k.wins.any (fun p => p.2.slots.any (fun q => q.2.st = .veneer)) && i.readsAny k.touchesVeneer

/-- The tag word of destination tile `g` (R154). -/
def Vec.tag (i : Vec) (k : Core) (rows : List (List Cell × List Nat)) (g : Nat) : Nat :=
  let base := (i.srcs.map (fun s => i.srcTag k s g)).foldl tagCombine 0
  let fl := (slice rows (32 * g) 32).foldl (fun t r =>
    r.1.foldl (fun t c => t ||| c.2 ||| (if i.fout.blockScaled then 0 else nanFlag i.fout c.1)) t) 0
  tagAdd base (if i.readsVeneer k then fl ||| tagVeneer else fl)

/-- Whether the instruction is over at issue whatever waits before it (R155, R156, R200). -/
def vecAtOnce (op : VOp) (x : Ctx) (k : Core) (th : Thread) (w : Nat) : Bool :=
  !k.pcInside (th.pc + 32) || fld w 56 16 = 0 || !(vecOf op x k th w).inRange || (vecOf op x k th w).outSpans.any k.writesCode

/-- A vector instruction (R150 to R156); a write to the program region or the descriptor table aborts the task (R124, log 107). Bits [31:16]
of a lane that takes a 16-bit element become 0: DESIGN CHOICE, R153 says nothing of them (log 108). -/
def runVec (op : VOp) (x : Ctx) (k : Core) (th : Thread) (w : Nat) : CoreRes :=
  let th' := { th with pc := th.pc + 32, st := ThreadState.ready }
  if !k.pcInside (th.pc + 32) then goAbort k th 0x0602
  else if fld w 56 16 = 0 then goThread k th'
  else
    let i := vecOf op x k th w
    if !i.inRange || i.outSpans.any k.writesCode then goAbort k th 0x0602
    else if !i.srcs.all (fun s => s.kind ≠ 1 || k.slotsAre .full s.first (s.slots i.fin i.rows)) then .wait
    else if i.dst.kind = 1 && !k.slotsAre .empty i.dst.first (i.groups * tileSlots i.fout) then .wait
    else if let some w := i.badRead k w then goBad k th' w
    else
      let rows := (List.range i.rows).map (fun r => i.row k th r)
      let tags := (List.range i.groups).map (fun g => i.tag k rows g)
      let k1 := i.srcs.foldl (fun k s => if s.kind = 1 then k.freeSlots s.first (s.slots i.fin i.rows) else k) k
      let sum := tags.foldl tagSummary 0
      if i.dst.kind = 0 then
        let elems := (List.range i.rows).flatMap (fun r =>
          let (cs, sc) := rows.getD r ([], [])
          (List.range cs.length).map (fun c => (elemNib i.dst.d i.fout.bits r c 0 i.x, i.fout.bits, (cs.getD c (0, 0)).1))
          ++ (List.range sc.length).map (fun b => (2 * scaleAddr i.dst.d r (32 * b) 0 i.x, 8, sc.getD b 0)))
        let words := (List.range i.groups).map (fun g => (2 * tagAddr i.dst.d 0 g i.x i.groups, 32, tags.getD g 0))
        let puts : List (Nat × Nat × Nat) := elems ++ words
        if let some w := k.rmwBad puts then goBad k th' w else
        .go { core := { k1 with sram := applyUnits k1.sram [{ puts := puts, tag := 0 }] }.mend puts,
              th := th', tags := sum, soft := i.softRead k w puts }
      else if i.dst.kind = 1 then
        let k2 := (List.range i.groups).foldl (fun k g =>
          k.putTile i.fout (i.dst.first + g * tileSlots i.fout) (tileCodes (rows.map (fun r => r.1)) g) (tags.getD g 0)) k1
        .go { core := k2, th := th', tags := sum, soft := i.softRead k w [] }
      else
        let th2 := (List.range i.rows).foldl (fun th r =>
          let cs := (rows.getD r ([], [])).1
          (List.range cs.length).foldl (fun th c =>
            let lane := if i.op.perRow then r else r * i.len + c
            th.setLane i.dst.idx lane (BitVec.ofNat 32 (cs.getD c (0, 0)).1)) th) th'
        .go { core := k1, th := th2, soft := i.softRead k w [] }

end Sys2Proof.Machine
end

