-- ==== Sys2Proof/Machine/Crc.lean ====
section
/-! DEFINITION. Check codes and digests: CRC-32C (R211), CRC-64 (R360) and SHAKE256 (R235). -/

namespace Sys2Proof.Machine

/-- One byte into a reflected CRC with polynomial `poly`. -/
def crcByteReflected (poly : Nat) (crc : Nat) (b : Byte) : Nat :=
  (List.range 8).foldl (fun c _ => if c % 2 = 1 then (c >>> 1) ^^^ poly else c >>> 1) (crc ^^^ b.toNat)

/-- CRC-32C: reflected, polynomial 0x1EDC6F41, initial value and final inversion 0xFFFF_FFFF (R211). -/
def crc32c (bs : List Byte) : Nat :=
  (bs.foldl (crcByteReflected 0x82F6_3B78) 0xFFFF_FFFF) ^^^ 0xFFFF_FFFF

/-- One byte into the CRC-64 of R360, most significant bit first. -/
def crc64Byte (crc : Nat) (b : Byte) : Nat :=
  (List.range 8).foldl (fun c _ =>
    let s := (c <<< 1) % 2 ^ 64
    if c / 2 ^ 63 = 1 then s ^^^ 0x42F0_E1EB_A9EA_3693 else s) (crc ^^^ (b.toNat <<< 56))

/-- CRC-64 (R360): polynomial 0x42F0_E1EB_A9EA_3693, initial value 0, no reflection, no final inversion. -/
def crc64 (bs : List Byte) : Nat := bs.foldl crc64Byte 0

/-- A 64-bit lane rotated left. -/
def rotl64 (n x : Nat) : Nat := if n = 0 then x else ((x <<< n) % 2 ^ 64) ||| (x >>> (64 - n))

/-- The rotation of lane x + 5 y of Keccak-f[1600]. -/
def keccakRot : List Nat :=
  [0, 1, 62, 28, 27, 36, 44, 6, 55, 20, 3, 10, 43, 25, 39, 41, 45, 15, 21, 8, 18, 2, 61, 56, 14]

/-- The 24 round constants of Keccak-f[1600]. -/
def keccakRC : List Nat :=
  [0x0000_0000_0000_0001, 0x0000_0000_0000_8082, 0x8000_0000_0000_808A, 0x8000_0000_8000_8000,
   0x0000_0000_0000_808B, 0x0000_0000_8000_0001, 0x8000_0000_8000_8081, 0x8000_0000_0000_8009,
   0x0000_0000_0000_008A, 0x0000_0000_0000_0088, 0x0000_0000_8000_8009, 0x0000_0000_8000_000A,
   0x0000_0000_8000_808B, 0x8000_0000_0000_008B, 0x8000_0000_0000_8089, 0x8000_0000_0000_8003,
   0x8000_0000_0000_8002, 0x8000_0000_0000_0080, 0x0000_0000_0000_800A, 0x8000_0000_8000_000A,
   0x8000_0000_8000_8081, 0x8000_0000_0000_8080, 0x0000_0000_8000_0001, 0x8000_0000_8000_8008]

/-- One round of Keccak-f[1600] on 25 lanes, lane (x, y) at index x + 5 y. -/
def keccakRound (a : List Nat) (rc : Nat) : List Nat :=
  let c := (List.range 5).map (fun x => (List.range 5).foldl (fun s y => s ^^^ a.getD (x + 5 * y) 0) 0)
  let d := (List.range 5).map (fun x => c.getD ((x + 4) % 5) 0 ^^^ rotl64 1 (c.getD ((x + 1) % 5) 0))
  let t := (List.range 25).map (fun i => rotl64 (keccakRot.getD i 0) (a.getD i 0 ^^^ d.getD (i % 5) 0))
  -- lane (x, y) moves to (y, 2 x + 3 y)
  let b := (List.range 25).map (fun j =>
    let u := j % 5
    let v := j / 5
    let x := (u + 3 * v) % 5
    t.getD (x + 5 * u) 0)
  let e := (List.range 25).map (fun i =>
    let x := i % 5
    let y := i / 5
    b.getD i 0 ^^^ ((2 ^ 64 - 1 - b.getD ((x + 1) % 5 + 5 * y) 0) &&& b.getD ((x + 2) % 5 + 5 * y) 0))
  match e with
  | [] => []
  | h :: r => (h ^^^ rc) :: r

/-- Keccak-f[1600]. -/
def keccakF (a : List Nat) : List Nat := keccakRC.foldl keccakRound a

/-- A block of 136 bytes joined into the state and permuted. -/
def keccakAbsorb (a : List Nat) (blk : List Byte) : List Nat :=
  keccakF ((List.range 25).map (fun i => a.getD i 0 ^^^ (if i < 17 then leAt blk (8 * i) 8 else 0)))

/-- The message padded as SHAKE256 asks, to whole blocks of 136 bytes. -/
def shakePad (m : List Byte) : List Byte :=
  let r := m.length % 136
  if r = 135 then m ++ [0x9F]
  else m ++ [0x1F] ++ List.replicate (134 - r) 0 ++ [0x80]

/-- The first 32 bytes of SHAKE256 of a message (R235). -/
def shake256 (m : List Byte) : List Byte :=
  let p := shakePad m
  let a := (chunksOf 136 (p.length / 136 + 1) p).foldl keccakAbsorb (List.replicate 25 0)
  ((List.range 4).map (fun i => leBytes 8 (a.getD i 0))).flatten

end Sys2Proof.Machine
end

