-- ==== Sys2Proof/Machine/Codec.lean ====
section
/-! DEFINITION. The ring codec: tile headers, bodies and the transit form (R290 to R295, R310, R358). -/

namespace Sys2Proof.Machine

/-- Bytes of a tile (R270). -/
def tileBytes : Nat := 65536

/-- Bits of a codec word (R276). -/
def wordBits (width : Nat) : Nat := 8 * 2 ^ width

/-- Plane `i` of a group of 64 words: bit j is bit i of word j (R293). -/
def planeOf (ws : List Nat) (i : Nat) : Nat :=
  (ws.foldl (fun (a : Nat × Nat) w => (a.1 + fld w i 1 * 2 ^ a.2, a.2 + 1)) (0, 0)).1

/-- Code of a plane: 00 zero, 01 all ones, 10 literal. -/
def planeCode (p : Nat) : Nat := if p = 0 then 0 else if p = 2 ^ 64 - 1 then 1 else 2

/-- A coded group: plane codes and literal planes (R293). -/
def codeGroup (w : Nat) (ws : List Nat) : List Byte :=
  let ps := (List.range w).map (planeOf ws)
  let codes := (List.range w).foldl (fun a i => a + put (2 * i) 2 (planeCode (ps.getD i 0))) 0
  leBytes (w / 4) codes ++ (ps.filter (fun p => planeCode p = 2)).flatMap (leBytes 8)

/-- `n` records of RUN 127 with CODED 0. -/
def runs127 (n : Nat) : List Byte := List.replicate n 0x7F

/-- The body of a list of groups after `z` zero groups, in the canonical form (R293). -/
def encodeGroups (w : Nat) : (z : Nat) → List (List Nat) → List Byte
  | z, [] => runs127 (z / 127) ++ (if z % 127 = 0 then [] else [BitVec.ofNat 8 (z % 127)])
  | z, g :: t =>
    if g.all (fun x => x = 0) then encodeGroups w (z + 1) t
    else runs127 (z / 127) ++ (BitVec.ofNat 8 (z % 127 + 128) :: codeGroup w g) ++ encodeGroups w 0 t

/-- The body the encoder makes of a tile's 65,536 bytes (R293). -/
def encodeBody (width : Nat) (bs : List Byte) : List Byte :=
  let w := wordBits width
  let ws := (chunksOf (w / 8) tileBytes bs).map leNat
  encodeGroups w 0 (chunksOf 64 (ws.length / 64 + 1) ws)

/-- The planes of a coded group read from the body: the planes and the bytes left. -/
def readPlanes : (codes : Nat) → (n : Nat) → List Byte → Option (List Nat × List Byte)
  | _, 0, bs => some ([], bs)
  | codes, n + 1, bs =>
    match codes % 4 with
    | 3 => none
    | 2 => if bs.length < 8 then none
      else (readPlanes (codes / 4) n (bs.drop 8)).map (fun r => (leNat (bs.take 8) :: r.1, r.2))
    | 1 => (readPlanes (codes / 4) n bs).map (fun r => ((2 ^ 64 - 1) :: r.1, r.2))
    | _ => (readPlanes (codes / 4) n bs).map (fun r => (0 :: r.1, r.2))

/-- The 64 words of a group from its planes. -/
def wordsOf (ps : List Nat) : List Nat :=
  (List.range 64).map (fun j =>
    (ps.foldl (fun (a : Nat × Nat) p => (a.1 + fld p j 1 * 2 ^ a.2, a.2 + 1)) (0, 0)).1)

/-- decode_body of R294: `left` groups are still to come; the bytes of the groups, or an error. -/
def decodeGroups (w : Nat) : (fuel left : Nat) → List Byte → Option (List Byte)
  | 0, _, _ => none
  | _ + 1, 0, bs => if bs = [] then some [] else none
  | _ + 1, _, [] => none
  | fuel + 1, left, r :: bs =>
    let rec_ := r.toNat
    let run := rec_ % 128
    if rec_ = 0 ∨ left < run then none
    else
      let zeros := List.replicate (run * 8 * w) (0 : Byte)
      if rec_ < 128 then (decodeGroups w fuel (left - run) bs).map (fun t => zeros ++ t)
      else
        match left - run with
        | 0 => none
        | l + 1 =>
          let codes := leNat (bs.take (w / 4))
          if bs.length < w / 4 ∨ codes = 0 then none
          else
            match readPlanes codes w (bs.drop (w / 4)) with
            | none => none
            | some (ps, rest) =>
              (decodeGroups w fuel l rest).map (fun t => zeros ++ (wordsOf ps).flatMap (leBytes (w / 8)) ++ t)

/-- The tile's bytes from a body, or an error (R294). -/
def decodeBody (width : Nat) (body : List Byte) : Option (List Byte) :=
  let w := wordBits width
  decodeGroups w (body.length + 1) (tileBytes * 8 / w / 64) body

/-- A tile header (R291). -/
def tileHeader (bodyLen width object page tile : Nat) : List Byte :=
  let x := put 0 17 bodyLen + put 17 2 width + put 32 16 object + put 64 32 page + put 96 5 tile
  leBytes 28 x ++ leBytes 4 (crc32c (leBytes 28 x))

/-- Bytes padded with zeros to a multiple of 64. -/
def pad64 (bs : List Byte) : List Byte := padTo (64 * ceilDiv bs.length 64) 0 bs

/-- Whether a tile of a compressed object is stored raw (R293). -/
def storedRaw (width : Nat) (bs : List Byte) : Bool := 65504 < (encodeBody width bs).length

/-- A tile in transit form from its header and body (R310, R358). -/
def transitOf (hdr body : List Byte) : List Byte := padTo 64 0 hdr ++ pad64 body

/-- A tile sent raw: BODY_LEN 65,536 and the bytes (R310). -/
def rawTransit (width object page tile : Nat) (bs : List Byte) : List Byte :=
  transitOf (tileHeader tileBytes width object page tile) bs

/-- A tile coded for transit: compressed where it compresses, otherwise raw (R293, R310). -/
def codedTransit (width object page tile : Nat) (bs : List Byte) : List Byte :=
  let body := encodeBody width bs
  if 65504 < body.length then rawTransit width object page tile bs
  else transitOf (tileHeader body.length width object page tile) body

/-- Whether a tile header carries the given values, no reserved bit and a right HCRC (R295). -/
def headerOk (width object page tile : Nat) (hdr : List Byte) : Bool :=
  let h := leNat (hdr.take 32)
  crc32c (hdr.take 28) = fld h 224 32 && fld h 19 13 = 0 && fld h 48 16 = 0 && fld h 101 123 = 0 && fld h 17 2 = width && width ≠ 3
    && fld h 32 16 = object && fld h 64 32 = page && fld h 96 5 = tile

/-- BODY_LEN of a tile header. -/
def bodyLenOf (hdr : List Byte) : Nat := fld (leNat (hdr.take 32)) 0 17

/-- Header and body of a tile in transit form; none where BODY_LEN lies outside its ranges or is not that of the payload (R295, R358). -/
def transitParts (payload : List Byte) : Option (List Byte × List Byte) :=
  let len := bodyLenOf payload
  if !((1 ≤ len && len ≤ 65504) || len = tileBytes) || payload.length ≠ 64 + 64 * ceilDiv len 64 then none
  else some (payload.take 32, slice payload 64 len)

/-- The bytes of a tile in transit form whose header must carry the given values, and whether it travelled raw; none
where it fails R295. -/
def readTransit (width object page tile : Nat) (payload : List Byte) : Option (List Byte × Bool) :=
  match transitParts payload with
  | none => none
  | some (hdr, body) =>
    if !headerOk width object page tile hdr then none
    else if bodyLenOf hdr = tileBytes then some (body, true)
    else (decodeBody width body).map (fun b => (b, false))

/-- The bytes of a compressed tile in its slot, a header and the body; none where it fails R295. -/
def readSlot (width object page tile : Nat) (stored : List Byte) : Option (List Byte) :=
  let len := bodyLenOf stored
  if !headerOk width object page tile stored || !(1 ≤ len && len ≤ 65504) then none else decodeBody width (slice stored 32 len)

/-- The stored form of a tile of a compressed object, and whether it is raw (R290, R293). -/
def packTile (width object page tile : Nat) (bs : List Byte) : List Byte × Bool :=
  let body := encodeBody width bs
  if 65504 < body.length then (bs, true) else (tileHeader body.length width object page tile ++ body, false)

end Sys2Proof.Machine
end

