-- ==== Sys2Proof/Machine/CoreResolve.lean ====
section
/-! DEFINITION. Resolution of a list region (R177 to R181): the procedure of R179 over the region's bytes in SRAM. -/

namespace Sys2Proof.Machine

/-- The state block of a list region (R177). -/
structure ListState where
  width : Nat
  lo : Nat
  hi : Nat
  auditWindow : Nat
  missLimit : Nat
  rawMax : Nat
  winSteps : Nat
  fallbackLeft : Nat
  winAudited : Nat
  winMisses : Nat
  lastStep : Nat
  lastValid : Bool
  lastFallback : Bool
  missEst : Nat
  drops : Nat
  fallbacks : Nat
deriving DecidableEq, Repr

/-- The state block at address `a`. -/
def listStateAt (m : Memory) (a : Nat) : ListState :=
  { width := readLE m a 2, lo := readLE m (a + 2) 2, hi := readLE m (a + 4) 2,
    auditWindow := readLE m (a + 6) 2 % 4096, missLimit := readLE m (a + 8) 2, rawMax := readLE m (a + 10) 2,
    winSteps := readLE m (a + 16) 2 % 4096, fallbackLeft := readLE m (a + 18) 2, winAudited := readLE m (a + 20) 4,
    winMisses := readLE m (a + 24) 4, lastStep := readLE m (a + 28) 4, lastValid := bitAt (readLE m (a + 32) 1) 0,
    lastFallback := bitAt (readLE m (a + 32) 1) 1, missEst := readLE m (a + 33) 1, drops := readLE m (a + 36) 4,
    fallbacks := readLE m (a + 40) 4 }

/-- The fields the stream unit writes, written back. -/
def putListState (m : Memory) (a : Nat) (s : ListState) : Memory :=
  let m := writeLE m (a + 16) 2 s.winSteps
  let m := writeLE m (a + 18) 2 s.fallbackLeft
  let m := writeLE m (a + 20) 4 s.winAudited
  let m := writeLE m (a + 24) 4 s.winMisses
  let m := writeLE m (a + 28) 4 s.lastStep
  let m := writeLE m (a + 32) 1 (b2n s.lastValid + 2 * b2n s.lastFallback)
  let m := writeLE m (a + 33) 1 s.missEst
  let m := writeLE m (a + 36) 4 s.drops
  writeLE m (a + 40) 4 s.fallbacks

/-- What a resolution gives: a wait, a task abort with 0x0602, or with 0x0402 at an uncorrectable word (R297), or the core with the raw entries dropped and the
fallbacks entered. -/
inductive ResolveRes where
  | wait
  | abort
  | bad (word : Nat)
  | done (k : Core) (dropped fallbacks : Nat)
deriving DecidableEq, Repr

/-- The audit of the previous step folded in (R179, R181): the state, and the fallbacks entered. -/
def foldAudit (st : ListState) (audited missMask : Nat) : ListState × Nat :=
  let st := { st with winAudited := st.winAudited + audited, winMisses := st.winMisses + popcount 64 missMask,
                      winSteps := st.winSteps + 1 }
  if st.winSteps = st.auditWindow then
    let tooMany : Bool := st.missLimit * st.winAudited < st.winMisses * 65536
    let st := if tooMany then { st with fallbackLeft := 256, fallbacks := satN 32 (st.fallbacks + 1) } else st
    ({ st with winSteps := 0, winAudited := 0, winMisses := 0 }, b2n tooMany)
  else (st, 0)

/-- The entries of a step: block and AUDITED (R179). -/
def stepEntries (st : ListState) (raw : List Nat) (step : Nat) : List (Nat × Bool) :=
  let range := (List.range (st.hi - st.lo)).map (fun e => st.lo + e)
  if 0 < st.fallbackLeft then range.map (fun e => (e, false))
  else range.filterMap (fun e =>
    if raw.contains e then some (e, false)
    else if e % 64 = step % 64 then some (e, true)
    else none)

/-- resolve of R179 on the list region at address `a` of core `k`. -/
def resolve (k : Core) (a : Nat) : ResolveRes :=
  let m := k.sram
  let h := listHeader a
  let st := listStateAt m a
  let rawCount := readLE m h 2
  let step := readLE m (h + 4) 4
  if let some b := k.badAt a 0x80 then .bad b
  else if bitAt (readLE m (h + 10) 1) 0 then .wait
  else if st.rawMax < rawCount then .abort
  else
    let fold : Bool := st.lastValid && !st.lastFallback
    if fold && readLE m (h + 12) 4 ≠ st.lastStep then .wait
    else if let some b := k.badAt (a + 0x80) (2 * rawCount) then .bad b
    else
      let (st, fb) := if fold then foldAudit st (readLE m (h + 16) 1 % 128) (readLE m (h + 24) 8) else (st, 0)
      let raw := (List.range rawCount).map (fun i => readLE m (a + 0x80 + 2 * i) 2)
      let dropped := (raw.filter (fun e => st.width ≤ e)).length
      let entries := stepEntries st raw step
      let fallback : Bool := 0 < st.fallbackLeft
      let est := if !fallback && 0 < st.winAudited then min 255 (256 * st.winMisses / st.winAudited) else st.missEst
      let st := { st with drops := satN 32 (st.drops + dropped), fallbackLeft := st.fallbackLeft - 1, missEst := est,
                          lastStep := step, lastValid := true, lastFallback := fallback }
      let base := a + 0x80 + 64 * ceilDiv st.rawMax 32
      let m := (List.range entries.length).foldl (fun m j =>
        let e := entries.getD j (0, false)
        writeLE m (base + 4 * j) 4 (e.1 + put 16 1 (b2n e.2))) m
      let m := putListState m a st
      let m := writeLE m (h + 8) 2 entries.length
      let m := writeLE m (h + 10) 1 (1 + 2 * b2n fallback + 4 * b2n (decide (0 < dropped)))
      .done ({ k with sram := m }.rewrite base (4 * entries.length)) dropped fb

/-- The preparation of a list region at a task start (R179): RESOLVED set, LAST_VALID cleared. -/
def prepareList (k : Core) (a : Nat) : Core :=
  let h := listHeader a
  let m := writeLE k.sram (h + 10) 1 (readLE k.sram (h + 10) 1 ||| 1)
  { k with sram := writeLE m (a + 32) 1 (readLE m (a + 32) 1 / 2 * 2) }

end Sys2Proof.Machine
end

