-- ==== Sys2Proof/Machine/State.lean ====
section
/-! DEFINITION. The machine's state: the module and the queue of commands that wait, and how a step may stop. -/

namespace Sys2Proof.Machine

/-- Why the machine would stop with a fault. No command raises one: every fault of the manual is a value the module
writes into a record, a completion or a refusal, and the module goes on (R516, R519). -/
inductive Fault where
deriving DecidableEq, Repr

/-- Why a command has no meaning. -/
inductive Refusal where
  /-- The command of this mnemonic is not modelled. Raised by the dispatch alone; safe: nothing is claimed of it. -/
  | notModelled (mnemonic : String)
deriving DecidableEq, Repr

/-- The state: the commands that wait, first in first out, and the module. -/
structure State where
  pending : List Instr := []
  m : Module := {}
deriving DecidableEq, Repr

/-- The machine right after power-on reset: every field at the value its structure names, which is the value the
manual's Reset column gives, or the value of logs 5, 6 and 10 where that column reads FW or FUSE or gives none. -/
def State.reset : State := { pending := [], m := {} }

end Sys2Proof.Machine
end

