-- ==== Sys2Proof/Machine/Ops.lean ====
section
/-! DEFINITION. Named operations over the module: parts of it, time, the fault log's intake, interrupts, and the frame
of every command. -/

namespace Sys2Proof.Machine

/-! ## Parts -/

def Module.part (m : Module) (p : Nat) : Part := kgetD {} m.parts p
def Module.setPart (m : Module) (p : Nat) (x : Part) : Module := { m with parts := kput m.parts p x }
def Module.modPart (m : Module) (p : Nat) (f : Part → Part) : Module := m.setPart p (f (m.part p))
def Module.core (m : Module) (c : Nat) : Core := kgetD {} m.cores c
def Module.setCore (m : Module) (c : Nat) (k : Core) : Module := { m with cores := kput m.cores c k }
def Module.modCore (m : Module) (c : Nat) (f : Core → Core) : Module := m.setCore c (f (m.core c))
def Module.flow (m : Module) (key : Nat) : Flow := kgetD {} m.str.flows key
def Module.setFlow (m : Module) (key : Nat) (f : Flow) : Module := { m with str.flows := kput m.str.flows key f }
def Module.herd (m : Module) (key : Nat) : Herd := kgetD {} m.herds key
def Module.setHerd (m : Module) (key : Nat) (h : Herd) : Module := { m with herds := kput m.herds key h }
def Module.queue (m : Module) (q : Nat) : Queue := kgetD {} m.que.queues q
def Module.setQueue (m : Module) (q : Nat) (x : Queue) : Module := { m with que.queues := kput m.que.queues q x }
def Module.port (m : Module) (p : Nat) : Port := kgetD {} m.fab.ports p
def Module.setPort (m : Module) (p : Nat) (x : Port) : Module := { m with fab.ports := kput m.fab.ports p x }
def Module.cluster (m : Module) (c : Nat) : Cluster := kgetD {} m.pwr.clusters c
def Module.setCluster (m : Module) (c : Nat) (x : Cluster) : Module :=
  { m with pwr.clusters := kput m.pwr.clusters c x }
def Module.dieP (m : Module) (d : Nat) : DiePower := kgetD {} m.pwr.dies d
def Module.setDieP (m : Module) (d : Nat) (x : DiePower) : Module := { m with pwr.dies := kput m.pwr.dies d x }
def Module.page (m : Module) (i : Nat) : Page := kgetD {} m.tier.pages i
def Module.setPage (m : Module) (i : Nat) (x : Page) : Module := { m with tier.pages := kset {} m.tier.pages i x }

/-- An emission to the surroundings (log 13). -/
def Module.emit (m : Module) (e : Emission) : Module := { m with out := m.out ++ [e] }

/-! ## Places (R17, R18, R28, R50) -/

/-- Column u of a logical core. -/
def coreU (c : Nat) : Nat := c % 140
/-- Row v of a logical core. -/
def coreV (c : Nat) : Nat := c / 140
/-- The cluster of a logical core: cx + 20 cy. -/
def clusterOf (c : Nat) : Nat := coreU c / 7 + 20 * (coreV c / 7)
/-- The compute die 10 y + x of a cluster. -/
def dieOfCluster (cl : Nat) : Nat := 10 * (cl / 20 / 2) + cl % 20 / 2
/-- The compute die of a logical core. -/
def dieOfCore (c : Nat) : Nat := dieOfCluster (clusterOf c)
/-- The 196 logical cores of a compute die. -/
def coresOfDie (d : Nat) : List Nat :=
  (List.range 14).flatMap (fun r => (List.range 14).map (fun k => 140 * (14 * (d / 10) + r) + 14 * (d % 10) + k))
/-- The 49 logical cores of a cluster. -/
def coresOfCluster (cl : Nat) : List Nat :=
  (List.range 7).flatMap (fun r => (List.range 7).map (fun k => 140 * (7 * (cl / 20) + r) + 7 * (cl % 20) + k))
/-- The ring die of port `p`. -/
def ringOfPort (p : Nat) : Nat := 16 * (p / 12) + p % 12
/-- The port of a link die. -/
def portOfRing (n : Nat) : Nat := 12 * (n / 16) + n % 16
/-- Whether ring die `n` is a link die. -/
def isLink (n : Nat) : Bool := n < 64 && n % 16 < 12
/-- Whether ring die `n` is a memory-port die. -/
def isMem (n : Nat) : Bool := n < 64 && 12 ≤ n % 16 && n % 16 < 15
/-- The site of ring die `n`. -/
def ringSite (n : Nat) : Nat := 32768 + n
/-- SVC-N, SVC-E, SVC-S and SVC-W. -/
def svcN : Nat := 15
def svcE : Nat := 31
def svcS : Nat := 47
def svcW : Nat := 63

/-- A core of the partition's rectangle of clusters (R237). -/
def Part.hasCluster (x : Part) (cl : Nat) : Bool :=
  x.cx ≤ cl % 20 && cl % 20 < x.cx + x.cw && x.cy ≤ cl / 20 && cl / 20 < x.cy + x.ch
def Part.hasCore (x : Part) (c : Nat) : Bool := x.hasCluster (clusterOf c)
/-- The clusters of a partition. -/
def Part.clusters (x : Part) : List Nat :=
  (List.range x.ch).flatMap (fun j => (List.range x.cw).map (fun i => x.cx + i + 20 * (x.cy + j)))
/-- Whether the partition's rectangle touches compute die `d`. -/
def Part.usesDie (x : Part) (d : Nat) : Bool := x.clusters.any (fun cl => dieOfCluster cl = d)
/-- The partition whose rectangle holds core `c`. -/
def Module.partOfCore (m : Module) (c : Nat) : Option Nat :=
  (m.parts.find? (fun q => q.2.st ≠ .off && q.2.hasCore c)).map Prod.fst
/-- The owner of a route (R207, R251). -/
def Module.routeOwner (m : Module) (r : Nat) : Option Nat := kget? m.net.routes r
/-- Whether partition `p` is RUNNING or DRAINING. -/
def Module.active (m : Module) (p : Nat) : Bool := (m.part p).st = .running || (m.part p).st = .draining

/-! ## Time (R15, R16) -/

/-- The sk count. -/
def Module.now (m : Module) : Nat := m.pwr.sk
/-- Whether `us` microseconds, each 12.5 sk, have passed since `t`. -/
def Module.usPassed (m : Module) (t us : Nat) : Bool := 25 * us ≤ 2 * (m.now - t)
/-- Whether more than `us` µs have passed since `t`. -/
def Module.usOver (m : Module) (t us : Nat) : Bool := 25 * us < 2 * (m.now - t)
/-- Whether `n` sk have passed since `t`. -/
def Module.skPassed (m : Module) (t n : Nat) : Bool := n ≤ m.now - t
/-- sk in a millisecond. -/
def skMs : Nat := 12_500
/-- sk in a second. -/
def skS : Nat := 12_500_000

/-! ## Who may write (R19, R492, R498) -/

/-- Configuration writes are frozen (R498). -/
def Module.cfgFrozen (m : Module) : Bool := m.sup.lease = .frozen
/-- Whether a source is the MMP that holds the lease. -/
def Module.isHolder (m : Module) (src : Source) : Bool :=
  m.sup.lease = .held && (match src with
    | .host => false
    | .mmpA => !m.sup.holderB
    | .mmpB => m.sup.holderB)

/-- Whether a configuration write of a source takes effect (R492 to R498): never while frozen; from the bring-up authority
in BRINGUP and RECOVERY; otherwise while a lease is held, from its holder or from the host. -/
def Module.cfgOk (m : Module) (src : Source) : Bool :=
  if m.cfgFrozen then false
  else if m.sys.st = .bringup || m.sys.st = .recovery then
    (match src with
    | .host => false
    | .mmpA => m.sup.authority = 1
    | .mmpB => m.sup.authority = 2)
  else m.sup.lease = .held && (src = .host || m.isHolder src)

/-! ## The host link (R389) -/

/-- Whether host accesses pass: a link is up and Bus Master Enable is 1. -/
def Module.hostUp (m : Module) : Bool := m.que.cxl.up && m.que.cxl.busMaster

/-! ## The fault log's intake (R515, R516, R518) -/

/-- The task id of R405 of a partition's running task, or 0. -/
def Module.taskOf (m : Module) (p : Nat) : Nat :=
  let x := m.part p
  if x.taskRunning then put 28 4 p + put 0 28 x.taskSeq else 0

/-- A record arrives at the AOS: without standby power nothing is kept; a full intake drops it (R518). -/
def Module.logRec (m : Module) (r : FaultRec) : Module :=
  if m.mech.standby then
    let r := { r with time := m.now }
    if r.cls = 2 ∨ r.cls = 3 then
      if m.sup.intakeFatal.length < 64 then { m with sup.intakeFatal := m.sup.intakeFatal ++ [r] }
      else { m with sup.dropped := satN 32 (m.sup.dropped + 1) }
    else if m.sup.intake.length < 256 then { m with sup.intake := m.sup.intake ++ [r] }
    else { m with sup.dropped := satN 32 (m.sup.dropped + 1) }
  else m

/-- A place in a fault record: LOC_KIND, LOC_INDEX and LOC_SUB (R515, R517). -/
structure Loc where
  kind : Nat := 0
  idx : Nat := 0
  sub : Nat := 0
deriving DecidableEq, Repr

/-- The module itself. -/
def Loc.module : Loc := {}
/-- A logical core. -/
def Loc.core (c : Nat) : Loc := { kind := 2, idx := c }
/-- A ring die. -/
def Loc.ring (n : Nat) : Loc := { kind := 4, idx := n }
/-- A compute die. -/
def Loc.die (d : Nat) : Loc := { kind := 1, idx := d }

/-- An event record (class 0). -/
def Module.logEvent (m : Module) (code : Nat) (l : Loc) (part : Option Nat := none) (task detail : Nat := 0) : Module :=
  m.logRec { code := code, cls := 0, part := part, locKind := l.kind, locIndex := l.idx, locSub := l.sub,
             task := task, detail := detail }

/-- A fatal record (class 2). -/
def Module.logFatal (m : Module) (code : Nat) (l : Loc) (part : Option Nat := none) (task detail : Nat := 0) : Module :=
  m.logRec { code := code, cls := 2, part := part, locKind := l.kind, locIndex := l.idx, locSub := l.sub,
             task := task, detail := detail }

/-! ## ECC errors (R297, R298, R300) -/

/-- The location of a T0 error: a 64 B line of a core (R300). -/
def t0Key (c line : Nat) : Nat := 2 ^ 17 * c + line
/-- The location of a T1 error: a DRAM row of a stack. -/
def t1Key (stack row : Nat) : Nat := 2 ^ 32 * (stack + 1) + row
/-- The core and bank of ECC word `w` of T0; the line within the bank is w ÷ 40 (R517). -/
def t0Loc (c w : Nat) : Loc := { Loc.core c with sub := w / 2 % 20 }
/-- The memory-port die and stack of T1: stacks 2k and 2k + 1 lie at the die of BW_SPLIT entry k (R271). -/
def t1Loc (stack : Nat) : Loc := { Loc.ring (16 * (stack / 6) + 12 + stack / 2 % 3) with sub := stack }

/-- The targeted self-test of a location becomes due (R300). -/
def Module.dueTest (m : Module) (key : Nat) : Module :=
  if m.tier.tests.contains key then m else { m with tier.tests := m.tier.tests ++ [key] }

/-- A corrected error at a location: 0x0401 and its self-test, at most once a second for the location (R298, R300). -/
def Module.corrected (m : Module) (key : Nat) (l : Loc) (part : Option Nat) (detail : Nat) : Module :=
  let quiet : Bool := match kget? m.tier.eccLogAt key with
    | some t => !m.skPassed t skS
    | none => false
  if quiet then m
  else
    let m := { m with tier.eccLogAt := kput m.tier.eccLogAt key m.now, tier.eccSeen := kmod 0 m.tier.eccSeen key (· + 1) }
    (m.logEvent 0x0401 l (part := part) (detail := detail)).dueTest key

/-- A correctable error found at ECC word `w` of core `c`: counted and logged. -/
def Module.t0Corrected (m : Module) (c w : Nat) : Module :=
  { m with tier.eccT0Corr := satN 32 (m.tier.eccT0Corr + 1) }.corrected (t0Key c (w / 2)) (t0Loc c w) (m.partOfCore c) (w / 40)

/-- A correctable error found in a DRAM row. -/
def Module.t1Corrected (m : Module) (stack row : Nat) : Module :=
  { m with tier.eccT1Corr := satN 32 (m.tier.eccT1Corr + 1) }.corrected (t1Key stack row) (t1Loc stack) none row

/-- An uncorrectable error found at ECC word `w` of core `c`: counted, its self-test due. The record is the caller's. -/
def Module.t0Unc (m : Module) (c w : Nat) : Module :=
  { m with tier.eccT0Unc := satN 32 (m.tier.eccT0Unc + 1) }.dueTest (t0Key c (w / 2))

/-- An uncorrectable error found in a DRAM row. -/
def Module.t1Unc (m : Module) (stack row : Nat) : Module :=
  { m with tier.eccT1Unc := satN 32 (m.tier.eccT1Unc + 1) }.dueTest (t1Key stack row)

/-! ## AOS interrupts (R522) -/

/-- MSI-X vector 1,024 + i: sent at most once per 10 µs, deferred otherwise. -/
def Module.aosVector (m : Module) (i : Nat) : Module :=
  let free : Bool := match kget? m.sup.irqAt i with
    | none => true
    | some t => m.usPassed t 10
  if free && m.hostUp then { (m.emit (.msix (1024 + i))) with sup.irqAt := kput m.sup.irqAt i m.now }
  else if m.sup.irqDefer.contains i then m else { m with sup.irqDefer := m.sup.irqDefer ++ [i] }

/-- Cause `i` occurs: the vector goes when the bit becomes 1 while it is enabled. -/
def Module.raiseIrq (m : Module) (i : Nat) : Module :=
  if !m.mech.standby || bitAt m.sup.irqStatus i then m
  else
    let m := { m with sup.irqStatus := m.sup.irqStatus ||| 2 ^ i }
    if bitAt m.sup.irqEn i then m.aosVector i else m

/-- What causes 1 to 6 of R522 watch. -/
structure Watched where
  modSt : ModState
  lease : LeaseState × Bool × Nat
  parts : KMap PartState
  idle : Bool
  cap : Nat × Nat × Bool
  mmps : List (MmpState × Bool × Nat × Nat × Nat)
deriving DecidableEq

/-- The watched fields of a module. -/
def Module.watched (m : Module) : Watched :=
  { modSt := m.sys.st
    lease := (m.sup.lease, m.sup.holderB, m.sup.authority)
    parts := (m.parts.map (fun q => (q.1, q.2.st))).filter (fun q => q.2 ≠ .off)
    idle := m.jig.phase = .idle
    cap := (m.pwr.capEffective, m.pwr.capSource, m.pwr.meshHalf)
    mmps := [(m.sup.a.st, m.sup.a.imageOk && m.sup.a.st ≠ .off, m.sup.a.shedLevel, m.sup.a.rises, m.sup.a.restarts),
             (m.sup.b.st, m.sup.b.imageOk && m.sup.b.st ≠ .off, m.sup.b.shedLevel, m.sup.b.rises, m.sup.b.restarts)] }

/-- Raise a cause on a condition. -/
def Module.raiseIf (m : Module) (i : Nat) (b : Bool) : Module := if b then m.raiseIrq i else m

/-- The causes of R522 that a step brought about. -/
def settleIrq (w : Watched) (m : Module) : Module :=
  let v := m.watched
  if v = w then m
  else
    let m := m.raiseIf 1 (v.modSt ≠ w.modSt)
    let m := m.raiseIf 2 (v.lease ≠ w.lease)
    let m := m.raiseIf 3 (v.parts ≠ w.parts)
    let m := m.raiseIf 4 (v.idle && !w.idle)
    let m := m.raiseIf 5 (v.cap ≠ w.cap)
    m.raiseIf 6 (v.mmps ≠ w.mmps)

/-- The slots of one sk: 216, 108 at half clock, none before the mesh is locked (R15, R203). -/
def Module.slotsPerSk (m : Module) : Nat := if !m.pwr.meshLocked then 0 else if m.pwr.meshHalf then 108 else 216

/-- One sk passes (R15, log 4): the sk counter runs while standby power is up, and the mesh, once locked, moves its slots. -/
def tick (s : State) : State :=
  { s with m := { s.m with
      pwr.sk := if s.m.mech.standby then s.m.pwr.sk + 1 else s.m.pwr.sk
      net.slot := s.m.net.slot + s.m.slotsPerSk } }

/-- The frame of every command: its effect on the module, the interrupts of R522 it causes, and the queue of waiting
commands untouched. -/
def onModule (s : State) (f : Module → Module) : Host.Outcome State Fault Refusal :=
  .next { s with m := settleIrq s.m.watched (f s.m) }

end Sys2Proof.Machine
end

