-- ==== Sys2Proof/Machine/Frames.lean ====
section
/-! DEFINITION. What the optical ports and the sideband send: frames, chunks and answers, control messages, loop frames
(R351, R352, R356 to R363, R380, R510, R513). -/

namespace Sys2Proof.Machine

/-- A sealed record: `n - 4` bytes and their CRC-32C (R211). -/
def sealedBytes (n x : Nat) : List Byte :=
  let b := leBytes (n - 4) x
  b ++ leBytes 4 (crc32c b)

/-- Whether the last 4 of the first `n` bytes are the CRC-32C of the others. -/
def sealOk (n : Nat) (bs : List Byte) : Bool := crc32c (bs.take (n - 4)) = leAt bs (n - 4) 4

/-- The MAC address of port `p` (R351). -/
def Module.portMac (m : Module) (p : Nat) : Nat := m.fab.macBase / 64 * 64 + p

/-- The FCS of IEEE 802.3. -/
def fcs32 (bs : List Byte) : Nat := (bs.foldl (crcByteReflected 0xEDB8_8320) 0xFFFF_FFFF) ^^^ 0xFFFF_FFFF

/-- A frame of R352. -/
def Module.frame (m : Module) (port mac etype vc : Nat) (body : List Byte) : List Byte :=
  let h := beBytes 6 mac ++ beBytes 6 (m.portMac port) ++ beBytes 2 0x8100
    ++ beBytes 2 (put 13 3 vc + fld m.fab.vlan 0 12) ++ beBytes 2 etype ++ body
  let h := padTo (max 60 h.length) 0 h
  h ++ leBytes 4 (fcs32 h)

/-- The VC0 budget of an interval (R356). -/
def Module.vc0Budget (m : Module) : Nat := 8192 * fld m.jig.vcWeights 0 8

/-- A frame leaves its port. -/
def Module.txFrame (m : Module) (port : Nat) (f : List Byte) : Module :=
  let p := m.port port
  (m.setPort port { p with framesTx := satN 32 (p.framesTx + 1) }).emit (.frame port f)

/-- A frame ready at a port: it is lost while the link is down (R354); a VC0 frame beyond the budget waits (R356). -/
def Module.sendFrame (m : Module) (port mac etype vc : Nat) (body : List Byte) : Module :=
  let p := m.port port
  if !p.up then m
  else
    let f := m.frame port mac etype vc body
    if vc = 0 then
      if p.vc0Wait ≠ [] ∨ m.vc0Budget < p.vc0Used + f.length then
        m.setPort port { p with vc0Wait := p.vc0Wait ++ [f] }
      else (m.setPort port { p with vc0Used := p.vc0Used + f.length }).txFrame port f
    else m.txFrame port f

/-- A control message on VC0 (R352, R355). -/
def Module.sendControl (m : Module) (port mac etype : Nat) (body : List Byte) : Module :=
  m.sendFrame port mac etype 0 body

/-- A chunk answer (R362): 1 ACK, 2 NAK, 3 WAIT. -/
def Module.sendAnswer (m : Module) (port mac etype kind chan msg chunk retry : Nat) : Module :=
  m.sendControl port mac etype (sealedBytes 64
    (0xC2 + put 8 8 kind + put 32 32 chan + put 64 32 msg + put 96 32 chunk + put 128 3 retry))

/-- Segments of a payload (R359). -/
def segCount (len : Nat) : Nat := ceilDiv len 8448

/-- The chunk header of segment `s` (R359). -/
def chunkHeader (c : SentChunk) (s : Nat) : List Byte :=
  sealedBytes 96 (0xC1 + put 8 3 s + put 11 3 (segCount c.payload.length - 1) + put 16 3 c.retry + put 32 32 c.chan
    + put 64 32 c.msg + put 96 32 c.chunk + put 128 17 c.payload.length + put 145 1 (b2n c.last)
    + put 192 64 (crc64 c.payload) + put 256 64 c.aux + put 320 256 (leNat (c.upper.take 32)))

/-- Every segment of a chunk, one frame each. -/
def Module.sendSegments (m : Module) (c : SentChunk) : Module :=
  (List.range (segCount c.payload.length)).foldl (fun m s =>
    m.sendFrame c.port c.mac c.etype c.vc (chunkHeader c s ++ slice c.payload (8448 * s) 8448)) m

/-- A chunk sent for the first time: kept until it is acknowledged or abandoned (R363). -/
def Module.sendChunk (m : Module) (c : SentChunk) : Module :=
  let m := m.sendSegments c
  { m with fab.sent := m.fab.sent ++ [{ c with at_ := m.now }] }

/-- The next message number of a channel; `key` tells channels apart (R359). -/
def Module.nextMsg (m : Module) (key : Nat) : Nat × Module :=
  let n := kgetD 0 m.fab.msgs key
  (n, { m with fab.msgs := kput m.fab.msgs key ((n + 1) % 2 ^ 32) })

/-- The channel key of a PSP stream, of the pool (stream 0) and of a herd. -/
def pspKey (stream : Nat) : Nat := 2 * stream
def herdKey (id : Nat) : Nat := 2 * id + 1

/-- A PSP header (R308). -/
def pspHeader (type : Nat) (last : Bool) (stream layer sect unit count status seq : Nat) : List Byte :=
  sealedBytes 32 (0x01 + put 8 8 type + put 16 1 (b2n last) + put 32 32 stream + put 64 16 layer + put 80 4 sect
    + put 96 32 unit + put 128 32 count + put 160 16 status + put 192 32 seq)

/-- The sender's SEQ of a stream (R308). -/
def Module.nextPspSeq (m : Module) (stream : Nat) : Nat × Module :=
  let n := kgetD 0 m.str.seqs stream
  (n, { m with str.seqs := kput m.str.seqs stream ((n + 1) % 2 ^ 32) })

/-- A PSP control message: a header and its body (R309, R352). -/
def Module.sendPsp (m : Module) (port mac type : Nat) (last : Bool) (stream layer sect unit count status : Nat)
    (body : List Byte) : Module :=
  let (n, m) := m.nextPspSeq stream
  m.sendControl port mac m.str.ethertype (pspHeader type last stream layer sect unit count status n ++ body)

/-- A herd control message (R380): 1 HERD_ABORT, 2 LOST. -/
def Module.sendHerdControl (m : Module) (port mac type id opSeq stage member code reform : Nat) : Module :=
  m.sendControl port mac m.fab.herdType (sealedBytes 64
    (0x01 + put 8 8 type + put 32 32 id + put 64 32 opSeq + put 96 3 stage + put 112 10 member + put 128 16 code
      + put 160 32 reform))

/-- A loop frame (R510) of this module's slot with its next SEQ. -/
def Module.loopFrame (m : Module) (type payload : Nat) : BitVec 160 × Module :=
  let x := put 0 4 type + put 4 4 m.sup.side.slot + put 8 8 m.sup.side.seq + put 16 112 payload
  let b := leBytes 16 x
  (BitVec.ofNat 160 (x + put 128 32 (crc32c b)), { m with sup.side.seq := (m.sup.side.seq + 1) % 256 })

/-- One HERD_STOP frame (R513), kept to be sent again 100 µs later. -/
def Module.sendHerdStop (m : Module) (id opSeq member code : Nat) : Module :=
  if !m.mech.standby || m.sup.side.bypass then m
  else
    let (f, m) := m.loopFrame 4 (put 0 32 id + put 32 32 opSeq + put 64 10 member + put 74 16 code)
    let s := m.sup.side
    { (m.emit (.sideband f)) with
      sup.side := { s with resend := s.resend ++ [(f, m.now)], stopsSent := satN 16 (s.stopsSent + 1) } }

/-- The groups of a herd at this module: stage numbers with their records. -/
def Herd.groups (h : Herd) : List (Nat × Stage) := (List.range h.stages.length).map (fun i => (i + 1, h.stages.getD i {}))

/-- HERD_ABORT of one herd to the leader of each group it does not lead and the members of each group it leads, never
back to `but`, and herd-stop on the loop (R379). -/
def Module.sendHerdAbort (m : Module) (h : Herd) (code : Nat) (but : Option Nat) : Module :=
  let port := portOfRing h.portDie
  let op := if h.run.isSome then h.opSeq else h.opSeq - 1
  let m := h.groups.foldl (fun m (k, g) =>
    let dests := if g.self = g.leader then (List.range g.macs.length).filter (fun j => j ≠ g.self) else [g.leader]
    dests.foldl (fun m j =>
      let mac := g.macs.getD j 0
      if but = some mac then m else m.sendHerdControl port mac 1 h.id op k g.self code 0) m) m
  m.sendHerdStop h.id op (h.stages.getD 0 {}).self code

end Sys2Proof.Machine
end

