-- ==== Sys2Proof/Machine/Topology.lean ====
section
/-! DEFINITION. The two grids of the compute square, its links and its edge channels (R29 to R37, R43 to R45), and the
way a route takes through the schedule (R206 to R208). -/

namespace Sys2Proof.Machine

/-- The map of die column `x`, row `v` (R51). Every position of a die that was dark at the last remap is a hole (R37): its DEAD_MASK reads
0x7FFF, the absorb position with it, and FIELD_RETIRED stays as the retirement list makes it. DESIGN CHOICE (log 110): R51 names only
the fuses and the retirement list as its sources. -/
def Module.rowMap (m : Module) (x v : Nat) : RowMap :=
  let r := kgetD {} m.topo.coreMap (140 * x + v)
  if m.topo.darkMap.contains (10 * (v / 14) + x) then { r with dead := 0x7FFF } else r

/-- Die-local physical column of logical column `k` (R30). -/
def RowMap.physCol (r : RowMap) (k : Nat) : Nat := if k < r.absorb then k else k + 1

/-- The physical core 150 row + column of a logical core; none for a hole (R30, R33). A core that has failed in this run
counts as one (R241). -/
def Module.physOf (m : Module) (c : Nat) : Option Nat :=
  let x := coreU c / 14
  let r := m.rowMap x (coreV c)
  let j := r.physCol (coreU c % 14)
  if bitAt r.dead j || m.topo.runDead.contains c then none else some (150 * coreV c + 15 * x + j)

/-- Whether a logical position is a hole (R33). -/
def Module.hole (m : Module) (c : Nat) : Bool := (m.physOf c).isNone

/-- The logical core at physical column `pc` of row `v`; none where the column is not mapped. -/
def Module.logicalAt (m : Module) (pc v : Nat) : Option Nat :=
  if 150 ≤ pc then none
  else
    let x := pc / 15
    let j := pc % 15
    let r := m.rowMap x v
    let c := 140 * v + 14 * x + (if j < r.absorb then j else j - 1)
    if j = r.absorb || bitAt r.dead j || m.topo.runDead.contains c then none else some c

/-- Directions: 1 N, 2 E, 3 S, 4 W. -/
def opposite (d : Nat) : Nat := if d = 1 then 3 else if d = 2 then 4 else if d = 3 then 1 else 2

/-- What lies one hop away. -/
inductive Hop where
  | core (c : Nat)
  | ring (die chan : Nat)
  | nothing
deriving DecidableEq, Repr

/-- The ring die and channel at position `q` of side `s` (R43). -/
def edgeChannel (s q : Nat) : Hop :=
  if q < 60 then .ring (16 * s + q / 5) (q % 5)
  else if q < 138 then .ring (16 * s + 12 + (q - 60) / 26) ((q - 60) % 26)
  else .ring (16 * s + 15) (q - 138)

/-- Position on its side of channel `ch` of ring die `n` (R43). -/
def edgePos (n ch : Nat) : Nat :=
  let i := n % 16
  if i < 12 then 5 * i + ch else if i < 15 then 60 + 26 * (i - 12) + ch else 138 + ch

/-- Edge channels of ring die `n` (R43). -/
def chanCount (n : Nat) : Nat := if n % 16 < 12 then 5 else if n % 16 < 15 then 26 else 2

/-- The edge core of channel `ch` of ring die `n` (R43). -/
def edgeCore (n ch : Nat) : Nat :=
  let q := edgePos n ch
  match n / 16 with
  | 0 => q
  | 1 => 140 * q + 139
  | 2 => 140 * 139 + (139 - q)
  | _ => 140 * (139 - q)

/-- The hop from logical core `c` in direction `d` (R34 to R36, R43). -/
def Module.hop (m : Module) (c d : Nat) : Hop :=
  let u := coreU c
  let v := coreV c
  match m.physOf c with
  | none => .nothing
  | some ph =>
    let pc := ph % 150
    if d = 1 then
      if v = 0 then edgeChannel 0 u else if m.hole (c - 140) then .nothing else .core (c - 140)
    else if d = 3 then
      if v = 139 then edgeChannel 2 (139 - u) else if m.hole (c + 140) then .nothing else .core (c + 140)
    else if d = 2 then
      match m.logicalAt (pc + 1) v with
      | some e => .core e
      | none =>
        match m.logicalAt (pc + 2) v with
        | some e => .core e
        | none => if u = 139 then edgeChannel 1 v else .nothing
    else
      match if 1 ≤ pc then m.logicalAt (pc - 1) v else none with
      | some e => .core e
      | none =>
        match if 2 ≤ pc then m.logicalAt (pc - 2) v else none with
        | some e => .core e
        | none => if u = 0 then edgeChannel 3 (139 - v) else .nothing

/-- How the engine of core `c` uses its array (R111, R114): in reduced-array mode by its masks, otherwise by its repair state. -/
def Module.arrayUse (m : Module) (c : Nat) : ArrayUse :=
  match m.physOf c with
  | none => {}
  | some q =>
    match kget? m.topo.arrayMasks q with
    | some (r, k) => { rowMask := r, colMask := k }
    | none =>
      if m.topo.reducedActive then { rowMask := m.topo.rowMask, colMask := m.topo.colMask }
      else { rowSkip := (kgetD ({} : Repair) m.topo.repair q).rowSkip, colSkip := (kgetD ({} : Repair) m.topo.repair q).colSkip }

/-- The side of the grid at which ring die `n` lies, as a direction. -/
def sideDir (n : Nat) : Nat := n / 16 + 1

/-- The port at the far end of a link direction: its sender is a physical core and a direction, or a ring die's site and a channel. -/
def Module.farPort (m : Module) (e : Nat × Nat) : Option (Nat × Nat) :=
  if 32768 ≤ e.1 then (m.physOf (edgeCore (e.1 - 32768) e.2)).map (fun q => (q, sideDir (e.1 - 32768)))
  else
    match m.logicalAt (e.1 % 150) (e.1 / 150) with
    | none => none
    | some c =>
      match m.hop c e.2 with
      | .core d => (m.physOf d).map (fun q => (q, opposite e.2))
      | .ring n ch => some (ringSite n, ch)
      | .nothing => none

/-! ## Schedule entries (R206) -/

/-- Source of output `o`: 0 N, 1 E, 2 S, 3 W, 4 L. -/
def entOut (w o : Nat) : Nat := fld w (3 * o) 3
/-- ABS of input `i`: 0 N, 1 E, 2 S, 3 W, 4 L. -/
def entAbs (w i : Nat) : Nat := fld w (16 + 2 * i) 2
/-- EXP of input `i`. -/
def entExp (w i : Nat) : Nat := fld w (32 + 14 * i) 14

/-- The sites of a route: a delivery to core `c` is `c`, to ring die n is 32,768 + n, and to reduction unit `u` of core `c` through input
port `d` (1 N to 5 L) is 65,536 + 16 c + 8 u + d. -/
def unitSite (c u d : Nat) : Nat := 65536 + 16 * c + 8 * u + d

/-- The frame's length, 1 before a jig sets one. -/
def Module.frame_ (m : Module) : Nat := max 1 m.net.frameLen

/-- Entry `s` mod F of router `c`, which it applies in slot `s` (R206). -/
def Module.entry (m : Module) (c s : Nat) : Nat := kgetD 0 (m.core c).sched (s % m.frame_)

/-- Where a flit of route `r` that router `c` handles on input `i` in slot `s` goes (R205 to R207): the sites reached, and the (core, input,
slot) triples at which it is handled next. On an input that does not expect the route it goes nowhere. -/
def Module.fanOut (m : Module) (r c i s : Nat) : List Nat × List (Nat × Nat × Nat) :=
  let w := m.entry c s
  if entExp w i ≠ r then ([], [])
  else
    let sites := (if entOut w 4 = i + 1 then [c] else [])
      ++ (if entAbs w i = 1 ∨ entAbs w i = 2 then [unitSite c (entAbs w i - 1) (i + 1)] else [])
    (List.range 4).foldl (fun (a : List Nat × List (Nat × Nat × Nat)) o =>
      if entOut w o = i + 1 then
        match m.hop c (o + 1) with
        | .core e => (a.1, a.2 ++ [(e, opposite (o + 1) - 1, (s + 2) % m.frame_)])
        | .ring n _ => (a.1 ++ [ringSite n], a.2)
        | .nothing => a
      else a) (sites, [])

/-- The sites that a flit of route `r` reaches from (core, input, slot) triples; each is visited once. -/
def Module.trace (m : Module) (r : Nat) : (fuel : Nat) → (todo seen : List (Nat × Nat × Nat)) → List Nat
  | 0, _, _ => []
  | _, [], _ => []
  | n + 1, (c, i, s) :: rest, seen =>
    if seen.contains (c, i, s) then m.trace r n rest seen
    else
      let (sites, next) := m.fanOut r c i s
      sites ++ m.trace r n (rest ++ next) ((c, i, s) :: seen)

/-- Steps a trace may take: each triple has at most four followers. -/
def traceFuel : Nat := 400_000

/-- The slots of the frame, from the present one on. -/
def Module.slotsAhead (m : Module) : List Nat := (List.range m.frame_).map (fun j => (m.net.slot + j) % m.frame_)

/-- The sites that any of some flits reaches, each once. -/
def anySites (l : List (List Nat)) : List Nat := l.flatten.foldl (fun a s => if a.contains s then a else a ++ [s]) []

/-- The sites that every one of some flits reaches. -/
def allSites (l : List (List Nat)) : List Nat := (anySites l).filter (fun s => l.all (fun t => t.contains s))

/-- What a flit that core `c` injects on route `r` reaches, for each slot reserved for it. -/
def Module.flitsFromCore (m : Module) (c r : Nat) : List (List Nat) :=
  (m.slotsAhead.filter (fun s => entExp (m.entry c s) 4 = r)).map (fun s => m.trace r traceFuel [(c, 4, s)] [])

/-- The (core, input, slot) triples that ring die `n` feeds on route `r` in slot `s` (R205, R251). -/
def Module.ringStarts (m : Module) (n r s : Nat) : List (Nat × Nat × Nat) :=
  (List.range (chanCount n)).filterMap (fun ch =>
    if (kgetD (0, 0) (kgetD [] m.net.ring (32 * n + ch)) s).2 = r then some (edgeCore n ch, n / 16, (s + 4) % m.frame_) else none)

/-- What a flit that ring die `n` sends on route `r` reaches, for each slot reserved for it. -/
def Module.flitsFromRing (m : Module) (n r : Nat) : List (List Nat) :=
  (m.slotsAhead.filter (fun s => m.ringStarts n r s ≠ [])).map (fun s => m.trace r traceFuel (m.ringStarts n r s) [])

/-- Where reduction unit `u` of core `c` sends a flit of route `r` in slot `s` (R206, R220): the outputs that name the unit and whose far end
expects the route. -/
def Module.unitStarts (m : Module) (c u r s : Nat) : List Nat × List (Nat × Nat × Nat) :=
  let k := m.core c
  let here := if entOut (m.entry c s) 4 = 6 + u && k.eps.any (fun e => e.2.recv && e.2.route = r) then [c] else []
  (List.range 4).foldl (fun (a : List Nat × List (Nat × Nat × Nat)) o =>
    if entOut (m.entry c s) o = 6 + u then
      match m.hop c (o + 1) with
      | .core e =>
        let i := opposite (o + 1) - 1
        if entExp (m.entry e (s + 2)) i = r then (a.1, a.2 ++ [(e, i, (s + 2) % m.frame_)]) else a
      | .ring n ch =>
        if (kgetD (0, 0) (kgetD [] m.net.ring (32 * n + ch)) ((s + 4) % m.frame_)).1 = r then (a.1 ++ [ringSite n], a.2) else a
      | .nothing => a
    else a) (here, [])

/-- What a flit that reduction unit `u` of core `c` emits on route `r` reaches, for each slot in which it may leave. -/
def Module.flitsFromUnit (m : Module) (c u r : Nat) : List (List Nat) :=
  (m.slotsAhead.filter (fun s => m.unitStarts c u r s ≠ ([], []))).map (fun s =>
    (m.unitStarts c u r s).1 ++ m.trace r traceFuel (m.unitStarts c u r s).2 [])

/-- The sites of the routes that core `c`, ring die `n` or reduction unit `u` feeds. -/
def Module.sitesFromCore (m : Module) (c r : Nat) : List Nat := anySites (m.flitsFromCore c r)
def Module.sitesFromRing (m : Module) (n r : Nat) : List Nat := anySites (m.flitsFromRing n r)
def Module.sitesFromUnit (m : Module) (c u r : Nat) : List Nat := anySites (m.flitsFromUnit c u r)

/-- The sites of a packet of `n` flits: those that each of its flits reaches in the slot it takes; they take the route's next slots in order,
with no gap (R210). A site that only some of them reach has no packet (log 112). -/
def packetSites (n : Nat) (flits : List (List Nat)) : List Nat := allSites (flits.take n)

end Sys2Proof.Machine
end

