-- ==== Sys2Proof/Machine/Tasks.lean ====
section
/-! DEFINITION. How a command of a queue ends (R399 to R404), how a task ends or aborts (R105, R149, R201, R341, R379,
R405, R417) and how a partition fails (R225, R262). -/

namespace Sys2Proof.Machine

/-! ## Queues -/

/-- Entries of a queue's submission ring (R393). -/
def Queue.sqSize (x : Queue) : Nat := 2 ^ fld x.cfg 0 5
/-- Entries of its completion ring. -/
def Queue.cqSize (x : Queue) : Nat := 2 ^ fld x.cfg 8 5
/-- The field of the fetched descriptor (R397). -/
def Queue.fld (x : Queue) (lo w : Nat) : Nat := Machine.fld (x.desc.getD 0).toNat lo w
/-- OPCODE of the fetched descriptor. -/
def Queue.op (x : Queue) : Nat := x.fld 0 8
/-- A PARAMS field (R397). -/
def Queue.param (x : Queue) (lo w : Nat) : Nat := x.fld (128 + lo) w

/-- The fence `i` of partition `p` (R399). -/
def Module.fence (m : Module) (p i : Nat) : Nat := kgetD 0 m.que.fences (64 * p + i)
def Module.setFence (m : Module) (p i v : Nat) : Module :=
  { m with que.fences := kset 0 m.que.fences (64 * p + i) (v % 2 ^ 32) }

/-- How often the fence `i` of partition `p` has been signalled in the present sk. -/
def Module.signalsNow (m : Module) (p i : Nat) : Nat :=
  match kget? m.que.signals (64 * p + i) with
  | some (t, n) => if t = m.now then n else 0
  | none => 0

/-- A fence is signalled: it advances by 1, in addition to a host write of the same sk (R399, R404). -/
def Module.signalFence (m : Module) (p i : Nat) : Module :=
  let n := m.signalsNow p i
  let m := m.setFence p i (m.fence p i + 1)
  { m with que.signals := kput m.que.signals (64 * p + i) (m.now, n + 1) }

/-- A host write of a fence: a signal of the same sk adds 1 after it (R404). -/
def Module.writeFence (m : Module) (p i v : Nat) : Module :=
  m.setFence p i (v + m.signalsNow p i)

/-- The command of queue `q` ends with a code: its completion waits to be written, its fence is signalled on success, and
the queue stops at the entry when `stop` (R399 to R402). -/
def Module.finish (m : Module) (q code : Nat) (stop noop : Bool) (info : Nat) : Module :=
  let x := m.queue q
  match x.desc with
  | none => m
  | some _ =>
    let c : Completion := { tag := x.fld 64 32, code := code, kind := 0, stopped := stop, noop := noop,
                            sqIndex := x.idx, info := info }
    let y := { x with desc := none, waiting := false, passed := false, running := false, todo := x.todo ++ [c] }
    let y := if stop then { y with st := .stopped, stopCode := code, sqHead := x.idx } else { y with sqHead := (x.idx + 1) % x.sqSize }
    let m := m.setQueue q y
    if code = 0 && x.fld 15 1 = 1 then m.signalFence (q / 64) (x.fld 16 6) else m

/-- A running command of queue `q` ends with a code and no stop. -/
def Module.complete (m : Module) (q code info : Nat) : Module :=
  if (m.queue q).running then m.finish q code false false info else m

/-- The queues of a partition that run a command. -/
def Module.runningQueues (m : Module) (p : Nat) : List Nat :=
  (m.que.queues.filter (fun e => e.1 / 64 = p && e.2.running)).map Prod.fst

/-- The leading lines of a copy that are complete (R402, R407). -/
def Queue.copied (y : Queue) : Nat := y.pieces.foldl (fun a x => min a x.pos) y.copyPos

/-- INFO of a running command that ends (R402): the task id, the leading lines of a copy that are complete, the OP_SEQ
of a herd operation, or 0. -/
def Module.infoOf (m : Module) (q : Nat) : Nat :=
  let y := m.queue q
  match y.op with
  | 0x01 => put 28 4 (q / 64) + put 0 28 (m.part (q / 64)).taskSeq
  | 0x02 => put 28 4 (q / 64) + put 0 28 (m.part (q / 64)).taskSeq
  | 0x10 => y.copied
  | 0x11 => y.copied
  | 0x20 => y.opSeq
  | _ => 0

/-- Running commands of partition `p` that `sel` picks end with a code. -/
def Module.completeAll (m : Module) (p code : Nat) (sel : Queue → Bool) : Module :=
  (m.runningQueues p).foldl (fun m q => if sel (m.queue q) then m.complete q code (m.infoOf q) else m) m

/-! ## Cores -/

/-- A core whose task ended by an abort: the engine stops and forgets (R105), the queues of its units are empty and every thread is HALTED
(R201), carry slots are EMPTY (R149), and window slots are FREE (R341). What the shadow set then holds is open in R105: DESIGN CHOICE, it
is empty and not loaded (log 19). -/
def abortCore (k : Core) : Core :=
  { k with
    threads := (List.range 8).map (fun t => (t, { kgetD ({} : Thread) k.threads t with st := .halted }))
    carry := []
    engQ := []
    vecQ := []
    eng := { k.eng with half0 := [], half1 := [], lastRowIn := true, primed := false,
                        setA := if k.eng.activeB then {} else k.eng.setA,
                        setB := if k.eng.activeB then k.eng.setB else {} }
    wins := kmapv (fun _ w => { w with slots := [], waiting := [], fills := [] }) k.wins }

/-- Windows of a core emptied without an abort, at a normal task end (R405). -/
def quietCore (k : Core) : Core :=
  { k with wins := kmapv (fun _ w => { w with slots := [], waiting := [], fills := [] }) k.wins }

/-- A core that no partition holds any more: schedule, bindings and test positions stay, everything else is gone. -/
def bareCore (k : Core) : Core :=
  { sched := k.sched, binds := k.binds, selfTestAt := k.selfTestAt, scrubNext := k.scrubNext, scrubs := k.scrubs }

/-- Every core of partition `p` changed. -/
def Module.mapCores (m : Module) (p : Nat) (f : Core → Core) : Module :=
  let x := m.part p
  { m with cores := kmapv (fun c k => if x.hasCore c then f k else k) m.cores }

/-! ## Flows, herds and sessions -/

/-- Whether every unit of a section has been stored (R322). -/
def Section.complete (s : Section) : Bool := s.units ≤ 16 * s.got.length

/-- A flow whose task ended (R341): outstanding PULLs are forgotten, RING stages emptied, gradients not acknowledged
discarded, and children wait for nothing; the parent is PEER_MAC again (R340). -/
def endFlow (f : Flow) : Flow :=
  { f with
    pulls := []
    forgot := f.forgot ++ f.pulls
    sects := if f.resident then f.sects.filter (fun e => e.2.complete) else []
    early := []
    pulledTo := []
    misses := []
    alloc := []
    pos := 0
    gradTiles := []
    handed := []
    outBytes := []
    outUnit := []
    grads := []
    ackedUnits := []
    pushed := []
    routes := f.routes.map (fun r => { r with got := 0 })
    children := f.kids.map (fun mac => { mac := mac })
    parent := f.peer
    reparented := false }

/-- Whether a sent chunk belongs to a task of partition `p` (R364). -/
def ownedBy (p : Nat) (c : SentChunk) : Bool :=
  match c.owner with
  | .herd q _ _ _ _ => q = p
  | .grad q _ => q = p
  | .child q _ _ => q = p
  | .poolWrite _ => false

/-- The partition whose task a pool transfer serves. -/
def PoolOwner.task (o : PoolOwner) : Option Nat :=
  match o with
  | .herd key => some (key / 4096)
  | .herdDst key _ => some (key / 4096)
  | .stage key => some (key / 256)
  | .feeder key _ => some (key / 256)
  | .child key _ => some (key / 256)
  | .req _ => none
  | .move _ => none
  | .kerf _ => none
  | .kerfSource _ => none
  | .restore _ => none
  | .restoreDst _ => none
  | .bounce _ => none
  | .copy _ => none
  | .copyIn _ _ => none
  | .nobody => none

/-- A pool transfer that nobody waits for any more, where it served a task of partition `p`. -/
def PoolOp.orphan (p : Nat) (o : PoolOp) : PoolOp := if o.owner.task = some p then { o with owner := .nobody } else o

/-- Every flow of the partition ends at once (R341, R364): feeders' pulls, chunks of its channels, Terourn requests of
its cores, what its readers have from the pool. -/
def Module.endFlows (m : Module) (p : Nat) : Module :=
  { m with
    str.flows := kmapv (fun k f => if k / 256 = p then endFlow f else f) m.str.flows
    str.winPulls := m.str.winPulls.filter (fun w => w.flow / 256 ≠ p)
    str.poolReads := m.str.poolReads.map (PoolOp.orphan p)
    str.poolWrites := m.str.poolWrites.map (PoolOp.orphan p)
    str.buffers := m.str.buffers.filter (fun b => b.1.task ≠ some p)
    str.stalled := m.str.stalled.filter (fun b => b.1.task ≠ some p)
    fab.sent := m.fab.sent.filter (fun c => !ownedBy p c)
    tier.reqs := m.tier.reqs.filter (fun r => r.part ≠ p) }

/-- Sessions of a partition at a task's end (R417). -/
def endSession (s : Session) : Option Session :=
  match s.st with
  | .inBatch => some { s with st := .ready }
  | .closing => none
  | _ => some s

/-- The last session event of a handle leaves the entries that wait to be written. -/
def dropEvent (h : Nat) (l : List Completion) : List Completion := (l.reverse.eraseP (fun c => c.kind = 1 && c.info = h)).reverse

/-- Results taken in the sk in which the task aborts are discarded: their sessions are as they were (R418). -/
def Module.undoResults (m : Module) (p : Nat) : Module :=
  (m.que.models.filter (fun e => e.1 / 16 = p)).foldl (fun m e =>
    match e.2.undo with
    | none => m
    | some (t, ss) =>
      if t ≠ m.now then m
      else ss.foldl (fun m x =>
        let q := 64 * p + x.2.1.notifyQ
        let y := m.queue q
        let m := { m with que.sessions := kput m.que.sessions (2 ^ 18 * p + x.1) x.2.1 }
        if x.2.2 then m.setQueue q { y with todo := dropEvent x.1 y.todo } else m) m) m

/-- The batcher at a task's end: unanswered batches are forgotten. -/
def Module.endSessions (m : Module) (p : Nat) : Module :=
  { m with
    que.sessions := m.que.sessions.filterMap (fun e =>
      if e.1 / 2 ^ 18 = p then (endSession e.2).map (fun s => (e.1, s)) else some e)
    que.models := kmapv (fun k x => if k / 16 = p then { x with open_ := [], held := none, undo := none } else x) m.que.models }

/-- Herds of the partition after a task's end: no operation runs. -/
def Module.endHerds (m : Module) (p : Nat) : Module :=
  { m with herds := kmapv (fun k h => if k / 4096 = p then { h with run := none, began := false, todo := [] } else h) m.herds }

/-! ## Clusters between tasks (R468) -/

/-- A partition's clusters with no task: RETAIN, once the load floor does not need their engines (R476). -/
def Module.restClusters (m : Module) (p : Nat) : Module :=
  if m.pwr.floorActive then m
  else
    let x := m.part p
    { m with pwr.clusters := kmapv (fun cl y =>
        if x.hasCluster cl && (y.st = .on || y.st = .waking) then { y with st := .retain, wakeAsked := false }
        else y) m.pwr.clusters }

/-! ## Kerf takes that do not commit (R428, R438) -/

/-- Whether page `i` belongs to an object of partition `p`. -/
def Module.pageOf (m : Module) (p i : Nat) : Bool :=
  m.tier.objects.any (fun e => e.1 / 4096 = p && e.2.base ≤ i && i < e.2.base + e.2.pages)

/-- The pages of partition `p` are no longer kerf-pending. -/
def Module.clearPending (m : Module) (p : Nat) : Module :=
  { m with tier.pages := m.tier.pages.map (fun e => if m.pageOf p e.1 then (e.1, { e.2 with pending := false }) else e)
           tier.bouncePages := m.tier.bouncePages.filter (fun b => b.1 ≠ p) }

/-- The take of partition `p` completes with 0x0702 and its record (R438). -/
def Module.failTake (m : Module) (p : Nat) : Module :=
  let x := m.part p
  match x.krf.take with
  | none => m
  | some t =>
    let m := m.clearPending p
    let drop (o : PoolOp) : PoolOp :=
      if o.owner = PoolOwner.kerf p || o.owner = PoolOwner.kerfSource p then { o with owner := .nobody } else o
    let m := { m with
      str.poolWrites := m.str.poolWrites.map drop
      str.poolReads := m.str.poolReads.map drop
      str.buffers := m.str.buffers.filter (fun b => b.1 ≠ PoolOwner.kerfSource p) }
    let m := m.modPart p (fun x => { x with krf := { x.krf with take := none, phase := .idle } })
    let m := m.logEvent 0x0702 .module (part := some p)
    m.complete t.queue 0x0702 0

/-- Whether a take's T0 dump has ended (R404, R429). -/
def Part.dumped (x : Part) : Bool := x.krf.phase = .writing

/-! ## Task and partition ends -/

/-- A task of partition `p` ends with a code: the starting command completes with it (R405), sessions and clusters rest,
and a DRAINING partition is HALTED (R262). -/
def Module.endTask (m : Module) (p code : Nat) : Module :=
  let x := m.part p
  let id := m.taskOf p
  let m := m.modPart p (fun x => { x with taskRunning := false, started := false, flushing := false, lastCode := code,
                                          starter := none, resumed := false })
  let m := m.endSessions p
  let m := m.restClusters p
  let m := match x.starter with
    | some q => m.complete q code id
    | none => m
  if x.st = .draining then
    let m := m.modPart p (fun x => { x with st := .halted })
    m.completeAll p 0 (fun q => q.op = 0x03)
  else m

/-- A record of class abort at the detecting place (R516). -/
def Module.logAbort (m : Module) (p code : Nat) (l : Loc) (detail : Nat) : Module :=
  m.logRec { code := code, cls := 1, part := some p, locKind := l.kind, locIndex := l.idx, locSub := l.sub,
             task := m.taskOf p, detail := detail }

/-- HERD_ABORT and herd-stop for every herd of the partition that began an operation in the task (R379). -/
def Module.abortHerds (m : Module) (p code : Nat) (but : Option Nat) : Module :=
  ((m.herds.filter (fun e => e.1 / 4096 = p && e.2.began)).map Prod.snd).foldl
    (fun m h => m.sendHerdAbort h code but) m

/-- The task of partition `p` aborts with a code (R105, R149, R201, R341, R379, R405); a take that waits for the task
ends with 0x0702 (R426, R428). Nothing happens when no task runs. -/
def Module.abortTask (m : Module) (p code : Nat) (l : Loc) (detail : Nat := 0) (but : Option Nat := none) : Module :=
  if (m.part p).taskRunning then
    let m := m.logAbort p code l detail
    let m := m.modPart p (fun x => { x with abortSlot := some m.net.slot })
    let m := m.mapCores p abortCore
    let m := m.abortHerds p code but
    let m := m.completeAll p code (fun q => q.op = 0x20)
    let m := ((m.endFlows p).endHerds p).undoResults p
    let m := m.endTask p code
    if (m.part p).krf.phase = .awaitingCut then m.failTake p else m
  else m

/-- A T0 read meets the uncorrectable word `w` of core `c`: the task of its partition aborts with 0x0402 (R297). -/
def Module.t0Abort (m : Module) (p c w : Nat) : Module := (m.t0Unc c w).abortTask p 0x0402 (t0Loc c w) (w / 40)

/-- Whether output `o` of router `c`, fed by reduction unit `u` in slot `s`, carries a route of partition `p`: the far end expects one, or the
core's own endpoint receives one. -/
def Module.unitOutOf (m : Module) (p c s o u : Nat) : Bool :=
  let mine (r : Nat) : Bool := r ≠ 0 && m.routeOwner r = some p
  if o = 4 then
    (m.core c).binds.any (fun b => b.unit = u && b.part = p && (m.core c).eps.any (fun e => e.2.recv && e.2.route = b.route))
  else
    match m.hop c (o + 1) with
    | .core e => mine (entExp (m.entry e (s + 2)) (opposite (o + 1) - 1))
    | .ring n ch => mine (kgetD (0, 0) (kgetD [] m.net.ring (32 * n + ch)) ((s + 4) % m.frame_)).1
    | .nothing => (m.core c).binds.any (fun b => b.unit = u && b.part = p)

/-- The schedule entry with every route that `owned` picks cleared from EXP, ABS and the outputs it feeds, and the outputs that `unit` picks,
by output and reduction unit (R225). -/
def clearEntry (owned : Nat → Bool) (unit : Nat → Nat → Bool) (w : Nat) : Nat :=
  let gone := (List.range 5).filter (fun i => owned (fld w (32 + 14 * i) 14))
  let outs := (List.range 5).foldl (fun a o =>
    let s := fld w (3 * o) 3
    a + put (3 * o) 3 (if (1 ≤ s && s ≤ 5 && gone.contains (s - 1)) || (6 ≤ s && unit o (s - 6)) then 0 else s)) 0
  (List.range 5).foldl (fun a i =>
    if gone.contains i then a else a + put (16 + 2 * i) 2 (fld w (16 + 2 * i) 2) + put (32 + 14 * i) 14 (fld w (32 + 14 * i) 14))
    outs

/-- The routes of partition `p` leave every router and ring die, and its flits in flight are discarded (R225). -/
def Module.clearRoutes (m : Module) (p : Nat) : Module :=
  let owned (r : Nat) : Bool := r ≠ 0 && m.routeOwner r = some p
  { m with
    cores := kmapv (fun c k => { k with
      sched := (kmapv (fun s w => clearEntry owned (m.unitOutOf p c s) w) k.sched).filter (fun e => e.2 ≠ 0)
      binds := k.binds.filter (fun b => b.part ≠ p) }) m.cores
    net.flights := m.net.flights.filter (fun f => f.part ≠ p)
    net.ring := kmapv (fun _ ch => (kmapv (fun _ (e : Nat × Nat) =>
      (if owned e.1 then 0 else e.1, if owned e.2 then 0 else e.2)) ch).filter (fun e => e.2 ≠ (0, 0))) m.net.ring }

/-- Partition `p` enters FAILED with a code (R262, R404, R438): threads halt, flows end, running commands complete with
the code, but a take whose dump has ended runs on. The record of the fault is the caller's. -/
def Module.failPart (m : Module) (p code : Nat) : Module :=
  let x := m.part p
  if x.st = .off || x.st = .failed then m
  else
    let m := if x.taskRunning then ((m.mapCores p abortCore).endFlows p).endHerds p else m
    let m := m.modPart p (fun x => { x with
      st := .failed, taskRunning := false, started := false, flushing := false, starter := none,
      resumed := false, lastCode := if x.taskRunning then code else x.lastCode,
      krf := { x.krf with restore := none, phase := if x.krf.phase = .restoring then .idle else x.krf.phase } })
    let m := m.endSessions p
    let m := m.restClusters p
    let m := if x.krf.take.isSome && !x.dumped then m.failTake p else m
    m.completeAll p code (fun q => q.op ≠ 0x40)

/-- The task that runs in partition `p` in the present slot, one that an abort has ended in this slot among them (R226). -/
def Module.taskIn (m : Module) (p : Nat) : Nat :=
  let x := m.part p
  if !x.taskRunning && x.abortSlot = some m.net.slot then put 28 4 p + put 0 28 x.taskSeq else m.taskOf p

/-- A fatal fault of partition `p` with its record (R225, R507). -/
def Module.fatalPart (m : Module) (p code : Nat) (l : Loc) (detail : Nat := 0) : Module :=
  (m.logFatal code l (part := some p) (task := m.taskIn p) (detail := detail)).failPart p code

/-- The objects of partition `p` are deleted: frames and reservations are freed, the old contents are unreadable
(R273, R279). -/
def Module.deleteObjects (m : Module) (p : Nat) : Module :=
  let dead (i : Nat) : Bool := m.pageOf p i
  { m with
    tier.pages := m.tier.pages.filter (fun e => !dead e.1)
    tier.mem := m.tier.mem.filter (fun e => !dead (e.1 / 2 ^ 21))
    tier.badWords := m.tier.badWords.filter (fun e => !dead (e.1 / 2 ^ 16))
    tier.softWords := m.tier.softWords.filter (fun e => !dead (e.1 / 2 ^ 16))
    tier.objects := m.tier.objects.filter (fun e => e.1 / 4096 ≠ p) }

/-- Partition `p` becomes OFF (R262, R279, R404, R410): it holds no rectangle, its task, objects, herds, flows,
models and sessions are gone, and running commands complete with the code. Its committed kerf stays (R451). -/
def Module.offPart (m : Module) (p code : Nat) : Module :=
  let x := m.part p
  if x.st = .off then m
  else
    let m := if x.taskRunning then (m.mapCores p abortCore).endFlows p else m
    let m := m.failTake p
    let m := m.completeAll p code (fun _ => true)
    let m := m.clearRoutes p
    let m := (m.deleteObjects p).mapCores p bareCore
    let m := { m with
      pwr.clusters := kmapv (fun cl y => if x.hasCluster cl then { y with st := .off, wakeAsked := false } else y)
        m.pwr.clusters
      herds := m.herds.filter (fun e => e.1 / 4096 ≠ p)
      str.flows := m.str.flows.filter (fun e => e.1 / 256 ≠ p)
      str.layers := m.str.layers.filter (fun e => e.1 ≠ p)
      que.sessions := m.que.sessions.filter (fun e => e.1 / 2 ^ 18 ≠ p)
      que.models := m.que.models.filter (fun e => e.1 / 16 ≠ p)
      net.routes := m.net.routes.filter (fun e => e.2 ≠ p) }
    let kf : Kerf := { comGen := x.krf.comGen, comTiles := x.krf.comTiles, comDest := x.krf.comDest,
                       commits := x.krf.commits, cowStalls := x.krf.cowStalls }
    m.setPart p { tags := x.tags, krf := kf }

/-- Every partition becomes OFF (R264). -/
def Module.allOff (m : Module) (code : Nat) : Module :=
  (List.range 16).foldl (fun m p => m.offPart p code) m

end Sys2Proof.Machine
end

