-- ==== Sys2Proof/Machine/Network.lean ====
section
/-! DEFINITION. Packets, endpoints, credits and reduction units (R210 to R229). -/

namespace Sys2Proof.Machine

/-! ## Packets (R211 to R213) -/

/-- A header flit: route, kind, LEN_M1, SEQ, HCRC and the tag word. -/
def mkHeader (route kind lenM1 seq tag : Nat) : BitVec 512 :=
  let x := put 0 14 route + put 14 4 kind + put 18 6 lenM1 + put 24 8 seq
  BitVec.ofNat 512 (x + put 32 32 (crc32c (leBytes 4 x)) + put 64 32 tag)

def hRoute (h : BitVec 512) : Nat := fld h.toNat 0 14
def hKind (h : BitVec 512) : Nat := fld h.toNat 14 4
def hLen (h : BitVec 512) : Nat := fld h.toNat 18 6
def hSeq (h : BitVec 512) : Nat := fld h.toNat 24 8
def hTag (h : BitVec 512) : Nat := fld h.toNat 64 32

/-- The one payload flit of a CONTROL packet (R212). -/
def controlFlit (msg : BitVec 480) : BitVec 512 :=
  BitVec.ofNat 512 (msg.toNat + put 480 32 (crc32c (leBytes 60 msg.toNat)))

/-- The message of a CONTROL packet. -/
def Flight.msg (f : Flight) : Nat := fld (f.payload.headD 0).toNat 0 480

/-- Bytes cut into flits of 64 B, the first byte lowest (R213). -/
def flitsOf (bs : List Byte) : List (BitVec 512) :=
  (chunksOf 64 (bs.length / 64 + 1) bs).map (fun b => BitVec.ofNat 512 (leNat b))

/-- The bytes of flits. -/
def flitBytes (fs : List (BitVec 512)) : List Byte := fs.flatMap (fun f => leBytes 64 f.toNat)

/-- Two flits of RED_EXACT exchange lanes between wire form and memory form: 8 ACC128 elements (R213). -/
def exactToWire : List (BitVec 512) → List (BitVec 512)
  | a :: b :: t =>
    let x := a.toNat + b.toNat * 2 ^ 512
    let lo := (List.range 8).foldl (fun s i => s + fld x (128 * i) 64 * 2 ^ (64 * i)) 0
    let hi := (List.range 8).foldl (fun s i => s + fld x (128 * i + 64) 64 * 2 ^ (64 * i)) 0
    BitVec.ofNat 512 lo :: BitVec.ofNat 512 hi :: exactToWire t
  | t => t

/-- Wire form to memory form of RED_EXACT. -/
def exactToMem : List (BitVec 512) → List (BitVec 512)
  | a :: b :: t =>
    let x := (List.range 8).foldl (fun s i => s + (fld a.toNat (64 * i) 64 + fld b.toNat (64 * i) 64 * 2 ^ 64) * 2 ^ (128 * i)) 0
    BitVec.ofNat 512 (fld x 0 512) :: BitVec.ofNat 512 (fld x 512 512) :: exactToMem t
  | t => t

/-- KIND of a wire form. -/
def wireKind : Wire → Nat
  | .data => 0
  | .redFp32 => 1
  | .redExact => 2

/-- Endpoint `e` replaced. -/
def Core.setEp (k : Core) (e : Nat) (x : Endpoint) : Core := { k with eps := kput k.eps e x }

/-! ## Sending -/

/-- A packet on its way. -/
def Module.launchPacket (m : Module) (p route : Nat) (h : BitVec 512) (payload : List (BitVec 512)) (sites : List Nat) :
    Module :=
  { m with net.flights := m.net.flights ++ [{ route := route, part := p, hdr := h, payload := payload, sites := sites }] }

/-- A CONTROL packet of core `c` (R212). -/
def Module.coreControl (m : Module) (p c route seq : Nat) (msg : BitVec 480) : Module :=
  m.launchPacket p route (mkHeader route 4 0 seq 0) [controlFlit msg] (packetSites 2 (m.flitsFromCore c route))

/-- A packet of ring die `n` with its next SEQ on the route (R211). -/
def Module.ringPacket (m : Module) (p n route kind tag : Nat) (payload : List (BitVec 512)) : Module :=
  let seq := kgetD 0 m.net.dieSeq route
  let m := m.launchPacket p route (mkHeader route kind (if kind = 4 then 0 else payload.length - 1) seq tag) payload
    (packetSites (payload.length + 1) (m.flitsFromRing n route))
  { m with net.dieSeq := kput m.net.dieSeq route ((seq + 1) % 256) }

/-- A CONTROL packet of ring die `n`. -/
def Module.ringControl (m : Module) (p n route : Nat) (msg : BitVec 480) : Module :=
  m.ringPacket p n route 4 0 [controlFlit msg]

/-- One CREDIT packet of ring die `n`, of `k` credits. -/
def Module.ringCredit (m : Module) (p n route k : Nat) : Module :=
  let seq := kgetD 0 m.net.dieSeqCredit route
  let m := m.launchPacket p route (mkHeader route 3 (k - 1) seq 0) [] (packetSites 1 (m.flitsFromRing n route))
  { m with net.dieSeqCredit := kput m.net.dieSeqCredit route ((seq + 1) % 256) }

/-- The counts of the CREDIT packets that return `n` credits: at most 64 each (R217). -/
def creditCounts (n : Nat) : List Nat := (List.range (ceilDiv n 64)).map (fun i => min 64 (n - 64 * i))

/-- Endpoint `e` of core `c` sends `n` credits on its CREDIT_ROUTE (R217). -/
def Module.endpointCredits (m : Module) (p c e n : Nat) : Module :=
  (creditCounts n).foldl (fun m k =>
    let x : Endpoint := kgetD {} (m.core c).eps e
    let m := m.launchPacket p x.creditRoute (mkHeader x.creditRoute 3 (k - 1) x.seqCredit 0) []
      (packetSites 1 (m.flitsFromCore c x.creditRoute))
    m.modCore c (fun k => { k with eps := kupd k.eps e (fun x => { x with seqCredit := (x.seqCredit + 1) % 256 }) })) m

/-- Whether core `c` passes route `r` on as well as delivering it: a router of a chain that is not its last (R208). -/
def Module.midChain (m : Module) (c r : Nat) : Bool :=
  (m.core c).sched.any (fun e => (List.range 5).any (fun i =>
    entExp e.2 i = r && entOut e.2 4 = i + 1 && (List.range 4).any (fun o => entOut e.2 o = i + 1)))

/-- A chain's router forwards min(D, O) upstream and subtracts it from both (R218). -/
def Module.chainForward (m : Module) (p c e : Nat) : Module :=
  let x : Chain := kgetD {} (m.core c).chains e
  let n := min x.d x.o
  if n = 0 then m
  else (m.modCore c (fun k => { k with chains := kput k.chains e { d := x.d - n, o := x.o - n } })).endpointCredits p c e n

/-- RELEASE of `n` buffers of receive endpoint `e` (R217, R218). -/
def Module.releaseCredits (m : Module) (p c e n : Nat) : Module :=
  let x : Endpoint := kgetD {} (m.core c).eps e
  if m.midChain c x.route then
    let m := m.modCore c (fun k => { k with chains := kmod {} k.chains e (fun y => { y with o := y.o + n }) })
    m.chainForward p c e
  else m.endpointCredits p c e n

/-! ## Slips and header errors (R223 to R229) -/

/-- Where a site's records are located: a core or a ring die (R515). -/
def siteLoc (s : Nat) : Loc :=
  if 65536 ≤ s then .core ((s - 65536) / 16) else if 32768 ≤ s then .ring (s - 32768) else .core s

/-- A detection counted in NET_ERR_COUNT (R228, R229): 0x0301 in the first field, 0x0302 in the second. -/
def Module.countErr (m : Module) (p code : Nat) : Module :=
  { m with net.errs := kmod (0, 0) m.net.errs p (fun e =>
      if code = 0x0301 then (satN 32 (e.1 + 1), e.2) else (e.1, satN 32 (e.2 + 1))) }

/-- The router or ring die of a site: that of its core for a reduction unit. -/
def routerOf (s : Nat) : Nat := if 65536 ≤ s then (s - 65536) / 16 else s

/-- A slip (0x0301) or header error (0x0302) on a route of partition `p` found at a site through an input port: counted;
the first one is logged and the partition fails (R225). -/
def Module.slip (m : Module) (p code site port route : Nat) : Module :=
  let m := m.countErr p code
  let st := (m.part p).st
  if st = .failed ∨ st = .off then m
  else
    let l := { siteLoc site with sub := port }
    let m := { m with topo.markedRouters := m.topo.markedRouters ++ [routerOf site]
                      topo.markedLinks := m.topo.markedLinks ++ [(routerOf site, port)] }
    (m.fatalPart p code l (detail := route)).clearRoutes p

/-! ## Injection (R210, R216) -/

/-- Whether partition `p` may move packets: its network is not flushing, and no dump pauses it (R202, R429). -/
def Module.netOpen (m : Module) (p : Nat) : Bool :=
  let x := m.part p
  (x.st = .running || x.st = .draining) && !x.flushing && x.krf.phase ≠ .dumping

/-- The flits of a ring buffer in wire form. -/
def ringFlits (k : Core) (x : Endpoint) (buf : Nat) : List (BitVec 512) :=
  let n := 64 * (x.pktM1 + 1)
  let fs := flitsOf (readBytes k.sram (x.ringBase + buf * n) n)
  if x.wire = .redExact then exactToWire fs else fs

/-- PACKET_INJECT: send endpoint `e` of core `c` injects its oldest ready buffer for one credit; its bytes are read then (R139, R216), a
correctable error in them found (R297). -/
def doPacketInject (c e : Nat) (m : Module) : Module :=
  let k := m.core c
  match kget? k.eps e, m.partOfCore c with
  | some x, some p =>
    let sites := packetSites (x.pktM1 + 2) (m.flitsFromCore c x.route)
    let n := 64 * (x.pktM1 + 1)
    if x.recv || x.count = 0 || x.credits = 0 || !m.netOpen p || sites.isEmpty then m
    else if let some w := k.badAt (x.ringBase + x.nextBuf * n) n <|> k.badAt (x.tagBase + 4 * x.nextBuf) 4 then m.t0Abort p c w
    else
      let tag := readLE k.sram (x.tagBase + 4 * x.nextBuf) 4
      let h := mkHeader x.route (wireKind x.wire) x.pktM1 x.seq tag
      let m := m.launchPacket p x.route h (ringFlits k x x.nextBuf) sites
      let m := m.modCore c (fun k => k.setEp e { x with
        count := x.count - 1, credits := x.credits - 1, nextBuf := (x.nextBuf + 1) % x.ringPkts, seq := (x.seq + 1) % 256
        marks := x.marks.tail })
      (k.softAt (x.ringBase + x.nextBuf * n) n ++ k.softAt (x.tagBase + 4 * x.nextBuf) 4).foldl (fun m q => m.t0Corrected c q) m
  | _, _ => m

/-! ## Arrival -/

/-- The oldest packet of a route that still has to reach a site, and the others. -/
def takeFlight (site route : Nat) : List Flight → Option (Flight × List Flight)
  | [] => none
  | f :: t =>
    if f.route = route && f.sites.contains site then
      let s := f.sites.erase site
      some (f, if s.isEmpty then t else { f with sites := s } :: t)
    else (takeFlight site route t).map (fun r => (r.1, f :: r.2))

/-- `n` bytes of READ data reach a request port: the oldest READ without its reply has it once all its bytes are in
(R328). -/
def readData (n : Nat) (q : ReqPort) : ReqPort :=
  match q.reads with
  | [] => q
  | l :: t => if l ≤ n then { q with reads := t, open_ := q.open_ - 1 } else { q with reads := (l - n) :: t }

/-- Data on a READ_ROUTE of core `k` counts for the port that waits for it. -/
def Core.noteRead (k : Core) (route n : Nat) : Core :=
  match k.ports.find? (fun q => q.2.readRoute = route && q.2.reads ≠ []) with
  | some (i, q) => { k with ports := kput k.ports i (readData n q) }
  | none => k

/-- A packet for receive endpoint `e` of core `c` (R217, R223 cases 5, 7 and 8): payload in memory form and tag word
written, and the buffer counts as delivered. DESIGN CHOICE: the whole payload is written from the buffer's start even where LEN_M1 differs
from PKT_M1 (log 113), and no summary bit is raised: the delivery of a tile is no core's writing of one (R97, log 114). -/
def Module.deliver (m : Module) (p c e : Nat) (f : Flight) : Module :=
  let k := m.core c
  let x : Endpoint := kgetD {} k.eps e
  if hKind f.hdr ≠ wireKind x.wire ∨ (x.wire = .redExact ∧ hLen f.hdr % 2 = 0) ∨ hSeq f.hdr ≠ x.expect
      ∨ x.ringPkts ≤ x.count then m.slip p 0x0301 c 5 f.route
  else
    let fs := if x.wire = .redExact then exactToMem f.payload else f.payload
    let buf := x.nextBuf
    let at_ := x.ringBase + buf * 64 * (x.pktM1 + 1)
    let tagAt := x.tagBase + 4 * buf
    match k.rmwBad [(2 * tagAt, 32, 0)] with
    | some w => m.t0Abort p c w
    | none =>
      let sram := writeLE (writeBytes k.sram at_ (flitBytes fs)) tagAt 4 (hTag f.hdr)
      let x := { x with count := x.count + 1, nextBuf := (buf + 1) % x.ringPkts, expect := (x.expect + 1) % 256 }
      let k := ({ k with sram := sram, eps := kput k.eps e x }.rewrite at_ (64 * fs.length)).rewrite tagAt 4
      (k.softWords.filter (fun q => inWord q tagAt 4)).foldl (fun m q => m.t0Corrected c q)
        (m.setCore c (k.noteRead f.route (64 * fs.length)))

/-- The receive endpoint of core `c` that takes a route. -/
def Module.recvEndpoint (m : Module) (c route : Nat) : Option Nat :=
  ((m.core c).eps.find? (fun q => q.2.recv && q.2.route = route)).map Prod.fst

/-- A packet absorbed by reduction unit `u` of core `c` through input port `d` (R207, R220, R223 cases 5 and 6): kept until its pair is
complete. -/
def Module.absorb (m : Module) (p c u d : Nat) (f : Flight) : Module :=
  let k := m.core c
  match k.binds.findIdx? (fun b => b.route = f.route && b.unit = u && (b.first = d || b.second = d)) with
  | none => m.slip p 0x0301 (unitSite c u d) d f.route
  | some i =>
    let b := k.binds.getD i {}
    let first : Bool := b.first = d
    let q := if first then b.qFirst else b.qSecond
    let other := if first then b.qSecond else b.qFirst
    let kind := if b.exact then 2 else 1
    let pairBad : Bool := match other[q.length]? with
      | some (h, _) => hSeq h ≠ hSeq f.hdr || hKind h ≠ hKind f.hdr || hLen h ≠ hLen f.hdr
      | none => false
    if hKind f.hdr ≠ kind ∨ (b.exact ∧ hLen f.hdr % 2 = 0) ∨ hSeq f.hdr ≠ (if first then b.expFirst else b.expSecond)
        ∨ pairBad ∨ 4 ≤ q.length then m.slip p 0x0301 (unitSite c u d) d f.route
    else
      let e := (hSeq f.hdr + 1) % 256
      let b := if first then { b with qFirst := q ++ [(f.hdr, f.payload)], expFirst := e }
        else { b with qSecond := q ++ [(f.hdr, f.payload)], expSecond := e }
      m.setCore c { k with binds := k.binds.set i b }

/-! ## Credits (R215, R218) -/

/-- A credit of `n` for send endpoint `e`: above CREDITS_INIT it is a slip (R215, R223 case 8). -/
def Module.sendCredit (m : Module) (p c e n route : Nat) : Module :=
  let x : Endpoint := kgetD {} (m.core c).eps e
  if x.creditsInit < x.credits + n then m.slip p 0x0301 c 5 route
  else m.modCore c (fun k => { k with eps := kput k.eps e { x with credits := x.credits + n } })

/-- A CREDIT packet that reaches core `c`: for a send endpoint, a reduction unit's output, or a chain (R215, R218,
R219). No field names the route on which a chain's router hears from downstream: DESIGN CHOICE, a CREDIT on the CREDIT_ROUTE of its own
receive entry counts in D, so that the rings of a chain share one number (log 115). -/
def Module.coreCredit (m : Module) (p c : Nat) (f : Flight) : Module :=
  let k := m.core c
  let n := hLen f.hdr + 1
  match k.eps.find? (fun q => !q.2.recv && q.2.creditRoute = f.route) with
  | some (e, _) => m.sendCredit p c e n f.route
  | none =>
    match k.binds.findIdx? (fun b => b.crOut = f.route) with
    | some i =>
      let b := k.binds.getD i {}
      if b.outCredits < b.credits + n then m.slip p 0x0301 c 5 f.route
      else m.setCore c { k with binds := k.binds.set i { b with credits := b.credits + n } }
    | none =>
      match k.eps.find? (fun q => q.2.recv && q.2.creditRoute = f.route) with
      | some (e, _) =>
        let m := m.modCore c (fun k => { k with chains := kmod {} k.chains e (fun y => { y with d := y.d + n }) })
        m.chainForward p c e
      | none => m.slip p 0x0301 c 5 f.route

/-! ## Reduction (R220, R221) -/

/-- The sum of two FP32 elements: code and flags (R221, R58). -/
def addFp32 (a b : Nat) : Cell :=
  let (c, o) := fpRound .fp32 .rne 0 ((fpDecode .fp32 a).add (fpDecode .fp32 b))
  (c, accFlags false o ||| nanFlag .fp32 c)

/-- The sum of two ACC128 elements: code and flags (R71). -/
def addAcc (a b : Nat) : Cell :=
  let (s, o) := accAdd (accDecode a) (accDecode b)
  (accEncode s, accFlags false o ||| nanFlag .acc128 (accEncode s))

/-- The sum of two payloads element by element as FIRST + SECOND, with the flags it raises. -/
def sumPayload (exact : Bool) (a b : List (BitVec 512)) : List (BitVec 512) × Nat :=
  let x := leNat (flitBytes (if exact then exactToMem a else a))
  let y := leNat (flitBytes (if exact then exactToMem b else b))
  let w := if exact then 128 else 32
  let n := a.length * 512 / w
  let cells := (List.range n).map (fun i =>
    if exact then addAcc (fld x (w * i) w) (fld y (w * i) w) else addFp32 (fld x (w * i) w) (fld y (w * i) w))
  let z := flitsOf (cells.flatMap (fun c => leBytes (w / 8) c.1))
  (if exact then exactToWire z else z, cells.foldl (fun t c => t ||| c.2) 0)

/-- One credit to the sender on one input of a binding: inside the router for L (R219, R220). -/
def Module.unitCredit (m : Module) (p c port route cr seq : Nat) : Module :=
  if port = 5 then
    match (m.core c).eps.find? (fun q => !q.2.recv && q.2.route = route) with
    | some (e, _) => m.sendCredit p c e 1 route
    | none => m
  else m.launchPacket p cr (mkHeader cr 3 0 seq 0) [] (packetSites 1 (m.flitsFromCore c cr))

/-- REDUCTION_EMIT: binding `i` of core `c` emits the sum of its oldest complete pair for one output credit. -/
def doReductionEmit (c i : Nat) (m : Module) : Module :=
  let k := m.core c
  match k.binds[i]? with
  | none => m
  | some b =>
    match b.qFirst, b.qSecond with
    | (h1, p1) :: r1, (h2, p2) :: r2 =>
      if b.credits = 0 || !m.netOpen b.part then m
      else
        let (z, fl) := sumPayload b.exact p1 p2
        let tag := tagAdd (tagCombine (hTag h1) (hTag h2)) fl
        let h := mkHeader b.route (hKind h1) (hLen h1) (hSeq h1) tag
        let b' := { b with qFirst := r1, qSecond := r2, credits := b.credits - 1, seqCreditF := (b.seqCreditF + 1) % 256,
                           seqCreditS := (b.seqCreditS + 1) % 256 }
        let m := m.setCore c { k with binds := k.binds.set i b' }
        let m := m.launchPacket b.part b.route h z (packetSites (z.length + 1) (m.flitsFromUnit c b.unit b.route))
        let m := m.unitCredit b.part c b.first b.route b.crFirst b.seqCreditF
        m.unitCredit b.part c b.second b.route b.crSecond b.seqCreditS
    | _, _ => m

/-! ## The flush of a task start (R202) -/

/-- A binding after the flush of partition `p`: input buffers empty, OUT_CREDITS held. -/
def resetBind (p : Nat) (b : Binding) : Binding :=
  if b.part = p then
    { b with credits := b.outCredits, qFirst := [], qSecond := [], expFirst := 0, expSecond := 0,
             seqCreditF := 0, seqCreditS := 0 }
  else b

/-- One core's network side after the flush. -/
def resetNet (p : Nat) (k : Core) : Core :=
  { k with
    eps := kmapv (fun _ x => { x with credits := x.creditsInit, nextBuf := 0, count := 0, nextRel := 0, seq := 0,
                                      seqCredit := 0, expect := 0, marks := [] }) k.eps
    chains := []
    expects := []
    wins := kmapv (fun _ w => { w with seqOut := 0 }) k.wins
    ports := kmapv (fun _ q => { q with seq := 0 }) k.ports
    binds := k.binds.map (resetBind p) }

/-- The credits home dies hold for READ data of partition `p`'s ports: READ_CREDITS of each READ_ROUTE (R318, R329). -/
def readCredits (m : Module) (p : Nat) : KMap Nat :=
  (m.cores.filter (fun e => (m.part p).hasCore e.1)).foldl (fun a e =>
    e.2.ports.foldl (fun a q => if q.2.readRoute = 0 then a else kput a q.2.readRoute q.2.readCredits) a) m.net.dieCredits

/-- NETWORK_FLUSH_END: after 1,024 slots, or one frame when F is longer, the partition's network is reset in one slot. -/
def doNetworkFlushEnd (p : Nat) (m : Module) : Module :=
  let x := m.part p
  if !x.flushing || m.net.slot < x.flushFrom + max 1024 m.net.frameLen then m
  else
    let mine (r : Nat) : Bool := m.routeOwner r = some p
    let m := m.mapCores p (resetNet p)
    let m := { m with cores := kmapv (fun _ k => { k with
      binds := k.binds.map (resetBind p), expects := k.expects.filter (fun e => !mine (e.1 % 16384)) }) m.cores }
    let m := { m with
      net.flights := m.net.flights.filter (fun f => f.part ≠ p)
      net.dieSeq := m.net.dieSeq.filter (fun e => !mine e.1)
      net.dieSeqCredit := m.net.dieSeqCredit.filter (fun e => !mine e.1)
      net.dieExpect := m.net.dieExpect.filter (fun e => !mine (e.1 % 16384))
      net.dieCredits := readCredits m p }
    m.modPart p (fun x => { x with flushing := false })

end Sys2Proof.Machine
end

