-- ==== Sys2Proof/Machine/Windows.lean ====
section
/-! DEFINITION. Layer windows at the cores: pulls, forwarding, arrivals, switches and deadlines (R323 to R337). -/

namespace Sys2Proof.Machine

/-- Window `i` of core `c`. -/
def Module.win (m : Module) (c i : Nat) : Window := kgetD {} (m.core c).wins i
def Module.setWin (m : Module) (c i : Nat) (w : Window) : Module :=
  m.modCore c (fun k => { k with wins := kput k.wins i w })

/-- Table layer `l` of partition `p` (R314). -/
def Module.layer (m : Module) (p l : Nat) : Layer := (kgetD [] m.str.layers p).getD l {}

/-- A message of R324. -/
def winMsg (op slot layer step units : Nat) (complete : Bool) (blocks : List Nat) (more : Bool) : BitVec 480 :=
  BitVec.ofNat 480 (put 0 4 op + put 4 4 slot + put 8 16 layer + put 24 32 step + put 56 10 units
    + put 66 1 (b2n complete) + put 67 4 blocks.length + put 71 1 (b2n more)
    + (List.range 12).foldl (fun a i => a + put (96 + 32 * i) 16 (blocks.getD i 0)) 0)

/-- Whether a message of R324 has an assigned OP and no reserved bit set. -/
def winMsgOk (x : Nat) : Bool :=
  1 ≤ fld x 0 4 && fld x 0 4 ≤ 3 && fld x 72 24 = 0 && (List.range 12).all (fun i => fld x (112 + 32 * i) 16 = 0)

/-- A window's message on its PULL_OUT route. -/
def Module.winSend (m : Module) (p c i : Nat) (msg : BitVec 480) : Module :=
  let w := m.win c i
  (m.setWin c i { w with seqOut := (w.seqOut + 1) % 256 }).coreControl p c w.pullOut w.seqOut msg

/-- The PULL messages of one pull: twelve blocks each, at least one message (R324). -/
def pullMsgs (slot layer step units : Nat) (blocks : List Nat) : List (BitVec 480) :=
  let n := max 1 (ceilDiv blocks.length 12)
  (List.range n).map (fun j => winMsg 1 slot layer step units false (slice blocks (12 * j) 12) (decide (j + 1 < n)))

/-- A slot assigned to a layer: PULLED, or FULL at once for a PULL of 0 units (R325). -/
def assignSlot (layer step units : Nat) : WinSlot :=
  { st := if units = 0 then .full else .pulled, layer := layer, step := step, units := units }

/-- Slot `s` of a window assigned to a layer, and the units of its pull awaited (R325, R326). -/
def Window.assign (w : Window) (s layer step units : Nat) : Window :=
  { w.setSlot s (assignSlot layer step units) with
    fills := if units = 0 then w.fills else w.fills ++ [{ slot := s, layer := layer, step := step, units := units }] }

/-- The resolution that a predicted layer needs before its pull (R332): the module, and whether the pull may go. -/
def Module.resolveFor (m : Module) (p c i : Nat) (e : Layer) : Module × Bool :=
  let w := m.win c i
  if e.predicted && !e.predReuse then
    match resolve (m.core c) w.listAddr with
    | .wait => (m, false)
    | .abort => (m.abortTask p 0x0602 (.core c), false)
    | .bad b => (m.t0Abort p c b, false)
    | .done k dropped fb =>
      let a := w.listAddr
      let soft := (m.core c).softAt a 0x80 ++ (m.core c).softAt (a + 0x80) (2 * readLE (m.core c).sram (listHeader a) 2)
      let m := soft.foldl (fun m q => m.t0Corrected c q) (m.setCore c k)
      let m := m.modPart p (fun x => { x with dropped := satN 32 (x.dropped + dropped),
                                              fallbacks := satN 16 (x.fallbacks + fb) })
      (if 0 < dropped then m.logEvent 0x0103 (.core c) (part := some p) (task := m.taskOf p) else m, true)
  else (m, true)

/-- tail_pull of R325: pulls into free slots in cyclic order. -/
def Module.tailPull (m : Module) (p c i : Nat) : (fuel : Nat) → Module
  | 0 => m
  | n + 1 =>
    let w := m.win c i
    if !w.tail || (w.slot w.next).st ≠ .free || !(m.part p).taskRunning then m
    else
      let e := m.layer p w.layer
      match m.resolveFor p c i e with
      | (m, false) => m
      | (m, true) =>
        let w := m.win c i
        let entries := listEntries (m.core c).sram w.listAddr
        let units := if e.predicted then entries.length * e.blockUnits else e.shardUnits
        let blocks := if e.predicted then entries.map Prod.fst else []
        let m := (pullMsgs w.next w.layer w.step units blocks).foldl (fun m x => m.winSend p c i x) m
        let w := m.win c i
        let f := m.flow (256 * p + w.flow)
        let wrap : Bool := w.layer + 1 = f.first + f.count
        let m := m.setWin c i { w.assign w.next w.layer w.step units with
          next := (w.next + 1) % max 1 w.nslots
          layer := if wrap then f.first else w.layer + 1
          step := if wrap then w.step + 1 else w.step }
        m.tailPull p c i n

/-- A window's waiting PULLs forwarded in order, each once its named slot is FREE (R326). -/
def Module.forwardPulls (m : Module) (p c i : Nat) : (fuel : Nat) → Module
  | 0 => m
  | n + 1 =>
    let w := m.win c i
    match w.waiting with
    | [] => m
    | x :: rest =>
      let s := fld x.toNat 4 4
      let more := bitAt x.toNat 71
      if w.cont then
        ((m.setWin c i { w with waiting := rest, cont := more }).winSend p c i x).forwardPulls p c i n
      else if (w.slot s).st = .free then
        let w' := { w.assign s (fld x.toNat 8 16) (fld x.toNat 24 32) (fld x.toNat 56 10) with
                    waiting := rest, cont := more, next := (s + 1) % max 1 w.nslots }
        ((m.setWin c i w').winSend p c i x).forwardPulls p c i n
      else m

/-- A slot of window `i` became FREE: the tail pulls, every other core forwards (R325, R326). -/
def Module.slotFreed (m : Module) (p c i : Nat) : Module :=
  if (m.win c i).tail then m.tailPull p c i 16 else m.forwardPulls p c i 64

/-- RESOLVE: the stream unit of a tail goes on with a resolution that waited for the arming of its list (R178, R332). -/
def doResolve (c i : Nat) (m : Module) : Module :=
  match m.partOfCore c with
  | some p => if (m.part p).started then m.tailPull p c i 16 else m
  | none => m

/-- A PULL or MISS that reaches core `c` on window `i`'s PULL_IN (R324, R326). -/
def Module.pullAtCore (m : Module) (p c i : Nat) (f : Flight) : Module :=
  let x := f.msg
  if !winMsgOk x ∨ fld x 0 4 = 3 then m.slip p 0x0301 c 5 f.route
  else if fld x 0 4 = 2 then m.winSend p c i (BitVec.ofNat 480 x)
  else
    let w := m.win c i
    (m.setWin c i { w with waiting := w.waiting ++ [BitVec.ofNat 480 x] }).forwardPulls p c i 64

/-! ## Arrivals (R323, R327, R336) -/

/-- The first PULLED slot in cyclic order from the oldest. -/
def Window.filling (w : Window) : Option Nat :=
  ((List.range w.nslots).map (fun j => (w.oldest + j) % max 1 w.nslots)).find? (fun s => (w.slot s).st = .pulled)

/-- Whether a slot still is that of a pull. -/
def WinSlot.ofFill (s : WinSlot) (f : Fill) : Bool := s.st = .pulled && s.layer = f.layer && s.step = f.step

/-- What a slot becomes once the last unit of its pull is in: FULL, or VENEER when the units are the veneer's (R323, R336). -/
def settleSlot (s : WinSlot) (f : Fill) : WinSlot :=
  if f.got < f.units then { s with arrived := f.got }
  else { s with arrived := f.got, st := if f.veneer then .veneer else .full, timer := none }

/-- A unit's 4,096 bytes reach window `i` of core `c` (R323, R327): into the slot that the earliest pull with units to come names, whose
state they advance while it still is that pull's. -/
def Module.unitAtWindow (m : Module) (c i : Nat) (bytes : List Byte) : Module :=
  let w := m.win c i
  match w.fills with
  | [] => m
  | f :: rest =>
    let at_ := w.slotBase + (f.slot * w.slotUnits + f.got) * 4096
    let g := { f with got := f.got + 1 }
    let x := w.slot f.slot
    let w := { w with fills := if g.got < g.units then g :: rest else rest }
    let m := m.modCore c (fun k => { k with sram := writeBytes k.sram at_ (bytes.take 4096) }.rewrite at_ 4096)
    if x.ofFill f then
      let y := settleSlot x g
      let m := m.setWin c i (w.setSlot f.slot y)
      if y.st = .veneer then
        match m.partOfCore c with
        | some p => m.modPart p (fun x => { x with veneers := satN 32 (x.veneers + b2n w.tail) })
        | none => m
      else m
    else m.setWin c i w

/-- A SWITCH reaches window `i` of core `c` (R336): with COMPLETE = 0 the units of the veneer come in place of those that the pull lacks,
from unit 0. One that does not name the pull whose units are awaited says nothing new. -/
def Module.switchAtWindow (m : Module) (p c i : Nat) (x : Nat) : Module :=
  let w := m.win c i
  match w.fills with
  | [] => m
  | f :: rest =>
    if f.slot ≠ fld x 4 4 || f.layer ≠ fld x 8 16 || f.step ≠ fld x 24 32 % 2 ^ 32 then m
    else
      let y := w.slot f.slot
      let whole := bitAt x 66
      let g := if whole then f else { f with units := (m.layer p f.layer).veneerUnits, got := 0, veneer := true }
      let w := { w with fills := g :: rest }
      if y.ofFill f then
        m.setWin c i (w.setSlot f.slot { y with sw := some (fld x 56 10, whole), units := g.units, arrived := g.got })
      else m.setWin c i w

/-! ## Deadlines (R334, R335) -/

/-- DEADLINE_US of a layer class (R245). -/
def Part.deadline (x : Part) (cls : Nat) : Nat := fld (x.layerClass.getD cls 0) 0 24
/-- Whether MISS_POLICY of a class is VENEER (R245). -/
def Part.veneerPolicy (x : Part) (cls : Nat) : Bool := bitAt (x.layerClass.getD cls 0) 24

/-- The deadline timer of a slot starts when a thread first waits on it; the veneer's units are not timed (R334, R336). -/
def startTimer (now : Nat) (w : Window) (s : Nat) : Window :=
  let x := w.slot s
  if x.st = .pulled && x.timer.isNone && !x.missed && x.sw.all (fun e => e.2) then w.setSlot s { x with timer := some now } else w

/-- DEADLINE_MISS: the timer of a slot expires before the slot is FULL (R334 to R336). -/
def doDeadlineMiss (c i s : Nat) (m : Module) : Module :=
  match m.partOfCore c, kget? (m.core c).wins i with
  | some p, some w =>
    let x := m.part p
    let y := w.slot s
    let e := m.layer p y.layer
    match y.timer with
    | none => m
    | some t =>
      if y.st ≠ .pulled ∨ x.deadline e.cls = 0 ∨ !m.usPassed t (x.deadline e.cls) ∨ !x.taskRunning then m
      else
        let m := m.modPart p (fun x => { x with misses := satN 32 (x.misses + 1) })
        let fresh : Bool := match x.missLogAt with
          | none => true
          | some t => m.skPassed t skMs
        let m := if fresh then
            (m.logEvent 0x0201 (.core c) (part := some p) (task := m.taskOf p)).modPart p
              (fun x => { x with missLogAt := some m.now })
          else m
        let m := m.setWin c i ((m.win c i).setSlot s { y with timer := none, missed := true })
        if w.tail && x.veneerPolicy e.cls && e.veneerValid then
          m.winSend p c i (winMsg 2 s y.layer y.step y.units false [] false)
        else m
  | _, _ => m

end Sys2Proof.Machine
end

