-- ==== Sys2Proof/Machine/CoreIssue.lean ====
section
/-! DEFINITION. The instructions of a core as commands: thread `t` of core `c` issues the instruction at its pc (R124,
R195, R196), and what it leaves reaches the rest of the module. -/

namespace Sys2Proof.Machine

open Sys2Proof

/-- The units of a core and their round-robin pointers (R196). -/
inductive CUnit where
  | engine | vector | stream | scalar
deriving DecidableEq, Repr

/-- The unit's pointer after it served thread `t`. -/
def Core.served (k : Core) (u : CUnit) (t : Nat) : Core :=
  match u with
  | .engine => { k with rrEngine := t }
  | .vector => { k with rrVector := t }
  | .stream => { k with rrStream := t }
  | .scalar => { k with rrScalar := t }

/-- Whether thread `t` of core `c` may issue: its partition runs a task whose threads have started and no dump pauses
it, its cluster is ON, and the thread is READY or WAITING (R195, R202, R262, R429, R468). -/
def Module.canIssue (m : Module) (c t : Nat) : Option (Nat × Core × Thread) :=
  match kget? m.cores c, m.partOfCore c with
  | some k, some p =>
    let x := m.part p
    let th : Thread := kgetD {} k.threads t
    if (x.st = .running || x.st = .draining) && x.taskRunning && x.started && x.krf.phase ≠ .dumping
        && (m.cluster (clusterOf c)).st = .on && (th.st = .ready || th.st = .waiting) then some (p, k, th)
    else none
  | _, _ => none

/-- What an instruction of core `c` reads beside its core (R83, R111, R114, R427). -/
def Module.ctx (m : Module) (p c : Nat) : Ctx :=
  let x := m.part p
  { seed := x.seed, free := m.free, arr := m.arrayUse c,
    gateArmed := (match x.krf.take with | some t => t.gate | none => false) && x.krf.phase = .awaitingCut }

/-- A CONTROL message of a request port of core `c` with its next SEQ (R329). -/
def Module.portSend (m : Module) (p c route : Nat) (msg : BitVec 480) : Module :=
  match (m.core c).ports.find? (fun q => q.2.reqRoute = route) with
  | some (i, q) =>
    (m.modCore c (fun k => { k with ports := kput k.ports i { q with seq := (q.seq + 1) % 256 } })).coreControl p c route
      q.seq msg
  | none => m.coreControl p c route 0 msg

/-- What an instruction leaves becomes the module's: core and thread, round-robin pointer, tag summary (R97), CREDIT
packets, CONTROL messages, the correctable errors it found (R297), and a task abort. -/
def Module.commit (m : Module) (p c t : Nat) (u : CUnit) (o : CoreOut) : Module :=
  let k := { o.core with threads := kput o.core.threads t o.th }
  let m := { m with cores := kput m.cores c (k.served u t), free := m.free + o.used }
  let m := if o.tags = 0 then m else m.modPart p (fun x => { x with tags := x.tags ||| o.tags })
  let m := o.credits.foldl (fun m e => m.releaseCredits p c e.1 e.2) m
  let m := o.ctrls.foldl (fun m e => m.portSend p c e.1 e.2) m
  let m := o.soft.foldl (fun m q => m.t0Corrected c q) m
  match o.abort with
  | none => m
  | some code => if code = 0x0402 then m.t0Abort p c o.word else m.abortTask p code (.core c)

/-- A thread whose instruction is not ready is WAITING (R196). -/
def Module.park (m : Module) (c t : Nat) (k : Core) (th : Thread) : Module :=
  m.setCore c { k with threads := kput k.threads t { th with st := .waiting } }

/-- The issue of the instruction at a thread's pc when its opcode is `opcode`; any other opcode issues nothing. -/
def issue (c t opcode : Nat) (u : CUnit) (f : Ctx → Core → Thread → Nat → CoreRes) (m : Module) : Module :=
  match m.canIssue c t with
  | none => m
  | some (p, k, th) =>
    let w := k.fetch th
    if fld w 0 8 ≠ opcode then m
    else if let some b := k.badFetch th then m.t0Abort p c b
    else
      match f (m.ctx p c) k th w with
      | .wait => m.park c t k th
      | .go o => m.commit p c t u { o with soft := k.softFetch th ++ o.soft }

/-- As `issue`, with what a wait brings about beside it (R334). -/
def issueOr (c t opcode : Nat) (u : CUnit) (f : Ctx → Core → Thread → Nat → CoreRes)
    (onWait : (k : Core) → (th : Thread) → (w : Nat) → Core) (m : Module) : Module :=
  match m.canIssue c t with
  | none => m
  | some (p, k, th) =>
    let w := k.fetch th
    if fld w 0 8 ≠ opcode then m
    else if let some b := k.badFetch th then m.t0Abort p c b
    else
      match f (m.ctx p c) k th w with
      | .wait => m.park c t (onWait k th w) th
      | .go o => m.commit p c t u { o with soft := k.softFetch th ++ o.soft }

/-- An instruction that waits while `hold` says so (R139, R197, R199). -/
def held (hold : Core → Thread → Nat → Bool) (f : Ctx → Core → Thread → Nat → CoreRes) (x : Ctx) (k : Core) (th : Thread)
    (w : Nat) : CoreRes := if hold k th w then .wait else f x k th w

/-! ## TMM: a load that lacks a unit starts the slot's deadline timer (R144, R334) -/

/-- Whether the instruction waits on a unit of slot `s` of window `i`, the other slots being there. -/
def lacksSlot (form : TmmForm) (x : Ctx) (k : Core) (th : Thread) (w i s : Nat) : Bool :=
  let only (j : Nat) (win : Window) : Window := { win with
    slots := (List.range win.nslots).map (fun q => (q, if j = i && q = s then win.slot q else { win.slot q with st := .full })) }
  (tmmOf form x k th w).waitsStream { k with wins := kmapv only k.wins }

/-- Timers started by a waiting TMM. -/
def tmmTimers (form : TmmForm) (now : Nat) (x : Ctx) (k : Core) (th : Thread) (w : Nat) : Core :=
  { k with wins := kmapv (fun i win => (List.range win.nslots).foldl (fun win s =>
      if (win.slot s).st = .pulled && lacksSlot form x k th w i s then startTimer now win s else win) win) k.wins }

/-! ## The queues of the engine and the vector unit (R138, R196) -/

/-- The queue of a unit; the stream unit and the scalar unit finish an instruction in the step that issues it. -/
def Core.queue (k : Core) (u : CUnit) : List Issued :=
  match u with
  | .engine => k.engQ
  | .vector => k.vecQ
  | .stream => []
  | .scalar => []

def Core.setQueue (k : Core) (u : CUnit) (q : List Issued) : Core :=
  match u with
  | .engine => { k with engQ := q }
  | .vector => { k with vecQ := q }
  | .stream => k
  | .scalar => k

/-- Instructions that a unit holds unfinished: two run in the engine and 6 more wait; one runs in the vector unit and 4 more wait. -/
def CUnit.room (u : CUnit) : Nat :=
  match u with
  | .engine => 8
  | .vector => 5
  | .stream => 1
  | .scalar => 1

/-- A thread as an instruction in a queue sees it: the pc and the registers latched when it issued (R128), the vector registers as they
are now. -/
def Issued.view (q : Issued) (k : Core) : Thread := { kgetD ({} : Thread) k.threads q.thread with pc := q.pc, x := q.x }

/-- Whether the units of core `c` run: its partition runs a task whose threads have started, no dump pauses it, and its cluster is ON. -/
def Module.unitsRun (m : Module) (c : Nat) : Option (Nat × Core) :=
  match kget? m.cores c, m.partOfCore c with
  | some k, some p =>
    let x := m.part p
    if (x.st = .running || x.st = .draining) && x.taskRunning && x.started && x.krf.phase ≠ .dumping
        && (m.cluster (clusterOf c)).st = .on then some (p, k) else none
  | _, _ => none

/-- The instruction at the head of a unit's queue runs if it is thread `t`'s, of opcode `opcode`, and waits for nothing: the thread keeps
its pc and registers, but for the vector registers that the instruction writes. -/
def Module.runHead (m : Module) (c t opcode : Nat) (u : CUnit) (f : Ctx → Core → Thread → Nat → CoreRes) : Option Module :=
  match m.unitsRun c with
  | none => none
  | some (p, k) =>
    match k.queue u with
    | [] => none
    | q :: qs =>
      if q.thread ≠ t ∨ fld q.word 0 8 ≠ opcode then none
      else
        match f (m.ctx p c) (k.setQueue u qs) (q.view k) q.word with
        | .wait => none
        | .go o => some (m.commit p c t u { o with th := { kgetD ({} : Thread) k.threads t with v := o.th.v } })

/-- The form of a TMM opcode. -/
def tmmForm (op : Nat) : TmmForm := if op = 0x11 then .s24 else if op = 0x12 then .sub else if op = 0x13 then .pg else .dense

/-- While the TMM at the head of the engine's queue waits, it starts the timers of the slots it lacks (R334), and its first stationary tile
loads as soon as it can (R107). -/
def Module.headWaits (m : Module) (c : Nat) (u : CUnit) : Module :=
  match u, m.unitsRun c with
  | .engine, some (p, k) =>
    match k.engQ with
    | [] => m
    | q :: _ =>
      let form := tmmForm (fld q.word 0 8)
      if listPending form k q.word then m
      else
        let k' := tmmTimers form m.now (m.ctx p c) k (q.view k) q.word
        match (tmmOf form (m.ctx p c) k (q.view k) q.word).prime k' with
        | .error code => (m.setCore c k').abortTask p code (.core c)
        | .ok k' => m.setCore c k'
  | _, _ => m

/-- The instruction enters its unit's queue and its thread goes on. -/
def Module.enqueue (m : Module) (c t : Nat) (u : CUnit) (k : Core) (th : Thread) (w : Nat) (spans : List Span) : Module :=
  let k := k.setQueue u (k.queue u ++ [{ thread := t, pc := th.pc, word := w, x := th.x, spans := spans }])
  let k := { k with threads := kput k.threads t { th with pc := th.pc + 32, st := .ready } }
  ((k.softFetch th).foldl (fun m q => m.t0Corrected c q) (m.setCore c k)).headWaits c u

/-- A TMM or vector command (R138, R139, R196): the instruction at the head of the unit's queue runs if it can; else the thread issues its
next instruction, which waits while the interlock of R139 is not clear or the queue has no room, runs at once if nothing is before it and
it waits for nothing, and enters the queue otherwise. -/
def issueQ (c t opcode : Nat) (u : CUnit) (f : Ctx → Core → Thread → Nat → CoreRes) (atOnce : Ctx → Core → Thread → Nat → Bool)
    (spans : Ctx → Core → Thread → Nat → List Span) (m : Module) : Module :=
  match m.runHead c t opcode u f with
  | some m' => m'
  | none =>
    let m := m.headWaits c u
    match m.canIssue c t with
    | none => m
    | some (p, k, th) =>
      let w := k.fetch th
      let x := m.ctx p c
      if fld w 0 8 ≠ opcode then m
      else if let some b := k.badFetch th then m.t0Abort p c b
      else if !atOnce x k th w && (!k.clear t (spans x k th w) || u.room ≤ (k.queue u).length) then m.park c t k th
      else if atOnce x k th w || (k.queue u).isEmpty then
        match f x k th w with
        | .wait => m.enqueue c t u k th w (spans x k th w)
        | .go o => m.commit p c t u { o with soft := k.softFetch th ++ o.soft }
      else m.enqueue c t u k th w (spans x k th w)

/-- A TMM command of a form. -/
def doTmmForm (form : TmmForm) (op c t : Nat) (m : Module) : Module :=
  issueQ c t op .engine (runTmm form) (tmmAtOnce form) (fun x k th w => (tmmOf form x k th w).spans) m

def doTmm (c t : Nat) (m : Module) : Module := doTmmForm .dense 0x10 c t m
def doTmmS24 (c t : Nat) (m : Module) : Module := doTmmForm .s24 0x11 c t m
def doTmmSub (c t : Nat) (m : Module) : Module := doTmmForm .sub 0x12 c t m
def doTmmPg (c t : Nat) (m : Module) : Module := doTmmForm .pg 0x13 c t m

/-- STATIONARY_SWAP: once the last row of the pass has entered and the shadow set is completely loaded, the sets swap,
and 0xFF among the new active set's scales aborts the task (R107, R108). -/
def doStationarySwap (c : Nat) (m : Module) : Module :=
  match kget? m.cores c, m.partOfCore c with
  | some k, some p =>
    let e := k.eng
    let shadow := if e.activeB then e.setA else e.setB
    if !(m.part p).taskRunning || !e.lastRowIn || !shadow.loaded then m
    else
      let m := m.setCore c { k with eng := e.swap }
      if shadow.scales.contains 0xFF then m.abortTask p 0x0104 (.core c) else m
  | _, _ => m

/-- A vector command of an operation. -/
def doVec (op : VOp) (code c t : Nat) (m : Module) : Module :=
  issueQ c t code .vector (runVec op) (vecAtOnce op) (fun x k th w => (vecOf op x k th w).spans) m

/-! ## Vector, control, scalar and network instructions: opcode, unit and effect (R151, R196, R199, R328) -/

def doVecAdd (c t : Nat) (m : Module) : Module := doVec .add 0x40 c t m
def doVecSub (c t : Nat) (m : Module) : Module := doVec .sub 0x41 c t m
def doVecMul (c t : Nat) (m : Module) : Module := doVec .mul 0x42 c t m
def doFma (c t : Nat) (m : Module) : Module := doVec .fma 0x43 c t m
def doVecMin (c t : Nat) (m : Module) : Module := doVec .min 0x44 c t m
def doVecMax (c t : Nat) (m : Module) : Module := doVec .max 0x45 c t m
def doCmplt (c t : Nat) (m : Module) : Module := doVec .cmplt 0x46 c t m
def doCmpeq (c t : Nat) (m : Module) : Module := doVec .cmpeq 0x47 c t m
def doSel (c t : Nat) (m : Module) : Module := doVec .sel 0x48 c t m
def doDiv (c t : Nat) (m : Module) : Module := doVec .div 0x49 c t m
def doSqrt (c t : Nat) (m : Module) : Module := doVec .sqrt 0x4A c t m
def doRecip (c t : Nat) (m : Module) : Module := doVec .recip 0x4B c t m
def doRsqrt (c t : Nat) (m : Module) : Module := doVec (.fn .rsqrt) 0x4C c t m
def doExp (c t : Nat) (m : Module) : Module := doVec (.fn .exp) 0x50 c t m
def doExp2 (c t : Nat) (m : Module) : Module := doVec (.fn .exp2) 0x51 c t m
def doLog (c t : Nat) (m : Module) : Module := doVec (.fn .log) 0x52 c t m
def doLog2 (c t : Nat) (m : Module) : Module := doVec (.fn .log2) 0x53 c t m
def doTanh (c t : Nat) (m : Module) : Module := doVec (.fn .tanh) 0x54 c t m
def doSigmoid (c t : Nat) (m : Module) : Module := doVec (.fn .sigmoid) 0x55 c t m
def doErf (c t : Nat) (m : Module) : Module := doVec (.fn .erf) 0x56 c t m
def doCvt (c t : Nat) (m : Module) : Module := doVec .cvt 0x58 c t m
def doRsum (c t : Nat) (m : Module) : Module := doVec .rsum 0x60 c t m
def doRmax (c t : Nat) (m : Module) : Module := doVec .rmax 0x61 c t m
def doRmin (c t : Nat) (m : Module) : Module := doVec .rmin 0x62 c t m
def doSoftmax (c t : Nat) (m : Module) : Module := doVec .softmax 0x63 c t m
def doLayernorm (c t : Nat) (m : Module) : Module := doVec .layernorm 0x64 c t m
def doRmsnorm (c t : Nat) (m : Module) : Module := doVec .rmsnorm 0x65 c t m
def doNop (c t : Nat) (m : Module) : Module := issue c t 0x00 .scalar coreNop m
def doHalt (c t : Nat) (m : Module) : Module := issue c t 0x01 .scalar coreHalt m
def doSignal (c t : Nat) (m : Module) : Module := issue c t 0x02 .scalar (held (fun k _ _ => (k.queued t).any Span.write) coreSignal) m
def doWait (c t : Nat) (m : Module) : Module := issue c t 0x03 .scalar coreWait m
def doFence (c t : Nat) (m : Module) : Module := issue c t 0x04 .scalar (held (fun k _ _ => k.busy t) coreFence) m
def doBr (c t : Nat) (m : Module) : Module := issue c t 0x05 .scalar coreBr m
def doBeqz (c t : Nat) (m : Module) : Module := issue c t 0x06 .scalar coreBeqz m
def doBnez (c t : Nat) (m : Module) : Module := issue c t 0x07 .scalar coreBnez m
def doBltu (c t : Nat) (m : Module) : Module := issue c t 0x08 .scalar coreBltu m
def doLi (c t : Nat) (m : Module) : Module := issue c t 0x20 .scalar coreLi m
def doAdd (c t : Nat) (m : Module) : Module := issue c t 0x21 .scalar coreAdd m
def doAddi (c t : Nat) (m : Module) : Module := issue c t 0x22 .scalar coreAddi m
def doSub (c t : Nat) (m : Module) : Module := issue c t 0x23 .scalar coreSub m
def doMul (c t : Nat) (m : Module) : Module := issue c t 0x24 .scalar coreMul m
def doAndOp (c t : Nat) (m : Module) : Module := issue c t 0x25 .scalar coreAnd m
def doOrOp (c t : Nat) (m : Module) : Module := issue c t 0x26 .scalar coreOr m
def doXorOp (c t : Nat) (m : Module) : Module := issue c t 0x27 .scalar coreXor m
def doShl (c t : Nat) (m : Module) : Module := issue c t 0x28 .scalar coreShl m
def doShr (c t : Nat) (m : Module) : Module := issue c t 0x29 .scalar coreShr m
def doModi (c t : Nat) (m : Module) : Module := issue c t 0x2A .scalar coreModi m
def doStw (c t : Nat) (m : Module) : Module := issue c t 0x2C .scalar (held (fun k th w => !k.clear t (ldstSpan th w true)) coreStw) m
def doSend (c t : Nat) (m : Module) : Module := issue c t 0x70 .stream (held (fun k _ w => !k.clear t (sendSpans k w)) (coreSend t)) m
def doRecv (c t : Nat) (m : Module) : Module := issue c t 0x71 .stream coreRecv m
def doRelease (c t : Nat) (m : Module) : Module := issue c t 0x72 .stream coreRelease m
def doWhead (c t : Nat) (m : Module) : Module := issue c t 0x73 .stream coreWhead m
def doTread (c t : Nat) (m : Module) : Module := issue c t 0x76 .stream coreTread m
def doTwrite (c t : Nat) (m : Module) : Module := issue c t 0x77 .stream coreTwrite m
def doTdone (c t : Nat) (m : Module) : Module := issue c t 0x78 .stream coreTdone m

def doLdw (c t : Nat) (m : Module) : Module :=
  issue c t 0x2B .scalar (held (fun k th w => !k.clear t (ldstSpan th w false)) coreLdw) m

/-- WFULL: a wait on the oldest slot starts its deadline timer (R334). -/
def doWfull (c t : Nat) (m : Module) : Module :=
  issueOr c t 0x74 .stream coreWfull (fun k _ w =>
    match (k.win w).head? with
    | some (s, _) => { k with wins := kput k.wins (iIDX w) (startTimer m.now (k.win w) s) }
    | none => k) m

/-- WFREE: the freed slot lets the tail pull and the others forward (R325, R326). -/
def doWfree (c t : Nat) (m : Module) : Module :=
  match m.canIssue c t with
  | none => m
  | some (p, k, th) =>
    let w := k.fetch th
    let m' := issue c t 0x75 .stream coreWfree m
    if fld w 0 8 = 0x75 && (m'.part p).taskRunning then m'.slotFreed p c (iIDX w) else m'

/-! ## GPUSH and GWAIT (R328, R330, R347) -/

/-- The return flow that IMM[7:0] names. -/
def retKey (p w : Nat) : Nat := 256 * p + fld w 32 8

/-- The units of a gradient layer (R344). -/
def Flow.layerUnits (f : Flow) (l : Nat) : Nat := ((f.routes.filter (fun r => r.layer = l)).map (fun r => r.units)).foldl (· + ·) 0

/-- Whether the flow's herd has its root stage at this module (R367). -/
def Herd.isRoot (h : Herd) : Bool :=
  h.levels = h.top && (let g := h.stages.getD (h.levels - 1) {}; g.self = g.leader)

/-- Bytes of one element of a gradient format (R53). -/
def gradElem (fmt : Nat) : Nat := if fmt = 4 then 2 else if fmt = 7 then 16 else 4

/-- Units of layer `l` in SERVER_FORMAT. -/
def Flow.serverUnits (f : Flow) (l : Nat) : Nat :=
  ceilDiv (f.layerUnits l * gradElem f.serverFmt) (gradElem f.gradFmt)

/-- How often core `c` has issued GPUSH for layer `l` in the task. -/
def Flow.pushes (f : Flow) (l c : Nat) : Nat := kgetD 0 f.pushed (32768 * l + c)

/-- Whether every core of the layer's routes has issued GPUSH for it `n` times (R347). -/
def Module.allPushed (m : Module) (p key l n : Nat) : Bool :=
  let f := m.flow key
  let rs := (f.routes.filter (fun r => r.layer = l)).map (fun r => r.route)
  m.cores.all (fun e => !(m.part p).hasCore e.1 || !e.2.eps.any (fun q => !q.2.recv && rs.contains q.2.route)
    || n ≤ f.pushes l e.1)

/-- Whether a gradient layer is done as core `c` sees it (R347): every core has pushed as often as `c`, and the tiles of
that many rounds have been handed to the herd and, at the root, acknowledged. -/
def Module.layerDone (m : Module) (p key l c : Nat) : Bool :=
  let f := m.flow key
  let n := max 1 (f.pushes l c)
  m.allPushed p key l n && n * ceilDiv (f.layerUnits l) 16 ≤ kgetD 0 f.handed l
    && (!(m.herd (4096 * p + f.herd)).isRoot || n * f.serverUnits l ≤ kgetD 0 f.ackedUnits l)

/-- GPUSH: the layer is marked complete at this core. -/
def doGpush (c t : Nat) (m : Module) : Module :=
  match m.canIssue c t with
  | none => m
  | some (p, k, th) =>
    let w := k.fetch th
    let key := retKey p w
    let l := (rs1 th w).toNat
    let f := m.flow key
    let bad : Bool := !f.routes.any (fun r => r.layer = l)
    let m' := issue c t 0x79 .stream (fun _ k th _ => if bad then goAbort k th 0x0602 else goNext k th) m
    if fld w 0 8 ≠ 0x79 || bad || !(m'.part p).taskRunning then m'
    else m'.setFlow key { f with pushed := kput f.pushed (32768 * l + c) (f.pushes l c + 1) }

/-- GWAIT: waits until the layer is done. -/
def doGwait (c t : Nat) (m : Module) : Module :=
  issue c t 0x7A .stream (fun _ k th w =>
    match m.partOfCore c with
    | some p => if m.layerDone p (retKey p w) (rs1 th w).toNat c then goNext k th else .wait
    | none => .wait) m

/-- ENG_TAG_SUMMARY_CLEAR: the W1C write of R97; the tiles of a step are written before or after it. -/
def doEngTagSummaryClear (p : Nat) (v : Reg64) (m : Module) : Module :=
  m.modPart p (fun x => { x with tags := x.tags &&& (31 ^^^ fld v.toNat 0 5) })

/-! ## The meanings -/

def execTmm (c t : Nat) (s : State) : Host.Outcome State Fault Refusal := onModule s (doTmm c t)
def execTmmS24 (c t : Nat) (s : State) : Host.Outcome State Fault Refusal := onModule s (doTmmS24 c t)
def execTmmSub (c t : Nat) (s : State) : Host.Outcome State Fault Refusal := onModule s (doTmmSub c t)
def execTmmPg (c t : Nat) (s : State) : Host.Outcome State Fault Refusal := onModule s (doTmmPg c t)
def execVecAdd (c t : Nat) (s : State) : Host.Outcome State Fault Refusal := onModule s (doVecAdd c t)
def execVecSub (c t : Nat) (s : State) : Host.Outcome State Fault Refusal := onModule s (doVecSub c t)
def execVecMul (c t : Nat) (s : State) : Host.Outcome State Fault Refusal := onModule s (doVecMul c t)
def execFma (c t : Nat) (s : State) : Host.Outcome State Fault Refusal := onModule s (doFma c t)
def execVecMin (c t : Nat) (s : State) : Host.Outcome State Fault Refusal := onModule s (doVecMin c t)
def execVecMax (c t : Nat) (s : State) : Host.Outcome State Fault Refusal := onModule s (doVecMax c t)
def execCmplt (c t : Nat) (s : State) : Host.Outcome State Fault Refusal := onModule s (doCmplt c t)
def execCmpeq (c t : Nat) (s : State) : Host.Outcome State Fault Refusal := onModule s (doCmpeq c t)
def execSel (c t : Nat) (s : State) : Host.Outcome State Fault Refusal := onModule s (doSel c t)
def execDiv (c t : Nat) (s : State) : Host.Outcome State Fault Refusal := onModule s (doDiv c t)
def execSqrt (c t : Nat) (s : State) : Host.Outcome State Fault Refusal := onModule s (doSqrt c t)
def execRecip (c t : Nat) (s : State) : Host.Outcome State Fault Refusal := onModule s (doRecip c t)
def execRsqrt (c t : Nat) (s : State) : Host.Outcome State Fault Refusal := onModule s (doRsqrt c t)
def execExp (c t : Nat) (s : State) : Host.Outcome State Fault Refusal := onModule s (doExp c t)
def execExp2 (c t : Nat) (s : State) : Host.Outcome State Fault Refusal := onModule s (doExp2 c t)
def execLog (c t : Nat) (s : State) : Host.Outcome State Fault Refusal := onModule s (doLog c t)
def execLog2 (c t : Nat) (s : State) : Host.Outcome State Fault Refusal := onModule s (doLog2 c t)
def execTanh (c t : Nat) (s : State) : Host.Outcome State Fault Refusal := onModule s (doTanh c t)
def execSigmoid (c t : Nat) (s : State) : Host.Outcome State Fault Refusal := onModule s (doSigmoid c t)
def execErf (c t : Nat) (s : State) : Host.Outcome State Fault Refusal := onModule s (doErf c t)
def execCvt (c t : Nat) (s : State) : Host.Outcome State Fault Refusal := onModule s (doCvt c t)
def execRsum (c t : Nat) (s : State) : Host.Outcome State Fault Refusal := onModule s (doRsum c t)
def execRmax (c t : Nat) (s : State) : Host.Outcome State Fault Refusal := onModule s (doRmax c t)
def execRmin (c t : Nat) (s : State) : Host.Outcome State Fault Refusal := onModule s (doRmin c t)
def execSoftmax (c t : Nat) (s : State) : Host.Outcome State Fault Refusal := onModule s (doSoftmax c t)
def execLayernorm (c t : Nat) (s : State) : Host.Outcome State Fault Refusal := onModule s (doLayernorm c t)
def execRmsnorm (c t : Nat) (s : State) : Host.Outcome State Fault Refusal := onModule s (doRmsnorm c t)
def execNop (c t : Nat) (s : State) : Host.Outcome State Fault Refusal := onModule s (doNop c t)
def execHalt (c t : Nat) (s : State) : Host.Outcome State Fault Refusal := onModule s (doHalt c t)
def execSignal (c t : Nat) (s : State) : Host.Outcome State Fault Refusal := onModule s (doSignal c t)
def execWait (c t : Nat) (s : State) : Host.Outcome State Fault Refusal := onModule s (doWait c t)
def execFence (c t : Nat) (s : State) : Host.Outcome State Fault Refusal := onModule s (doFence c t)
def execBr (c t : Nat) (s : State) : Host.Outcome State Fault Refusal := onModule s (doBr c t)
def execBeqz (c t : Nat) (s : State) : Host.Outcome State Fault Refusal := onModule s (doBeqz c t)
def execBnez (c t : Nat) (s : State) : Host.Outcome State Fault Refusal := onModule s (doBnez c t)
def execBltu (c t : Nat) (s : State) : Host.Outcome State Fault Refusal := onModule s (doBltu c t)
def execLi (c t : Nat) (s : State) : Host.Outcome State Fault Refusal := onModule s (doLi c t)
def execAdd (c t : Nat) (s : State) : Host.Outcome State Fault Refusal := onModule s (doAdd c t)
def execAddi (c t : Nat) (s : State) : Host.Outcome State Fault Refusal := onModule s (doAddi c t)
def execSub (c t : Nat) (s : State) : Host.Outcome State Fault Refusal := onModule s (doSub c t)
def execMul (c t : Nat) (s : State) : Host.Outcome State Fault Refusal := onModule s (doMul c t)
def execAndOp (c t : Nat) (s : State) : Host.Outcome State Fault Refusal := onModule s (doAndOp c t)
def execOrOp (c t : Nat) (s : State) : Host.Outcome State Fault Refusal := onModule s (doOrOp c t)
def execXorOp (c t : Nat) (s : State) : Host.Outcome State Fault Refusal := onModule s (doXorOp c t)
def execShl (c t : Nat) (s : State) : Host.Outcome State Fault Refusal := onModule s (doShl c t)
def execShr (c t : Nat) (s : State) : Host.Outcome State Fault Refusal := onModule s (doShr c t)
def execModi (c t : Nat) (s : State) : Host.Outcome State Fault Refusal := onModule s (doModi c t)
def execStw (c t : Nat) (s : State) : Host.Outcome State Fault Refusal := onModule s (doStw c t)
def execSend (c t : Nat) (s : State) : Host.Outcome State Fault Refusal := onModule s (doSend c t)
def execRecv (c t : Nat) (s : State) : Host.Outcome State Fault Refusal := onModule s (doRecv c t)
def execRelease (c t : Nat) (s : State) : Host.Outcome State Fault Refusal := onModule s (doRelease c t)
def execWhead (c t : Nat) (s : State) : Host.Outcome State Fault Refusal := onModule s (doWhead c t)
def execTread (c t : Nat) (s : State) : Host.Outcome State Fault Refusal := onModule s (doTread c t)
def execTwrite (c t : Nat) (s : State) : Host.Outcome State Fault Refusal := onModule s (doTwrite c t)
def execTdone (c t : Nat) (s : State) : Host.Outcome State Fault Refusal := onModule s (doTdone c t)
def execLdw (c t : Nat) (s : State) : Host.Outcome State Fault Refusal := onModule s (doLdw c t)
def execWfull (c t : Nat) (s : State) : Host.Outcome State Fault Refusal := onModule s (doWfull c t)
def execWfree (c t : Nat) (s : State) : Host.Outcome State Fault Refusal := onModule s (doWfree c t)
def execGpush (c t : Nat) (s : State) : Host.Outcome State Fault Refusal := onModule s (doGpush c t)
def execGwait (c t : Nat) (s : State) : Host.Outcome State Fault Refusal := onModule s (doGwait c t)

def execStationarySwap (c : Nat) (s : State) : Host.Outcome State Fault Refusal := onModule s (doStationarySwap c)
def execResolve (c w : Nat) (s : State) : Host.Outcome State Fault Refusal := onModule s (doResolve c w)
def execEngTagSummaryClear (p : Nat) (v : Reg64) (s : State) : Host.Outcome State Fault Refusal :=
  onModule s (doEngTagSummaryClear p v)
def execPacketInject (c e : Nat) (s : State) : Host.Outcome State Fault Refusal := onModule s (doPacketInject c e)
def execReductionEmit (c i : Nat) (s : State) : Host.Outcome State Fault Refusal := onModule s (doReductionEmit c i)
def execNetworkFlushEnd (p : Nat) (s : State) : Host.Outcome State Fault Refusal := onModule s (doNetworkFlushEnd p)
def execDeadlineMiss (c w slot : Nat) (s : State) : Host.Outcome State Fault Refusal := onModule s (doDeadlineMiss c w slot)

end Sys2Proof.Machine
end

