-- ==== Sys2Proof/Machine/TaskStart.lean ====
section
/-! DEFINITION. The start of a task and of its threads (R195, R202, R342, R371, R405, R414, R468). -/

namespace Sys2Proof.Machine

open Sys2Proof

/-- Whether core `k` needs its cluster in a task (R468). -/
def coreNeeds (k : Core) : Bool :=
  (match k.img with | some im => im.threadEn ≠ 0 | none => false) || k.eps ≠ [] || k.wins ≠ []

/-- The clusters a task of partition `p` needs: FREQ_MHZ not 0, and a core with threads, endpoints or windows. -/
def Module.neededClusters (m : Module) (p : Nat) : List Nat :=
  let x := m.part p
  (List.range x.clusters.length).filterMap (fun i =>
    let cl := x.clusters.getD i 0
    if x.clusterFreq.getD i 0 ≠ 0 && (coresOfCluster cl).any (fun c => coreNeeds (m.core c)) then some cl else none)

/-- Wakes asked for the clusters that are not ON (R468, R470). -/
def Module.askWakes (m : Module) (cls : List Nat) : Module :=
  cls.foldl (fun m cl =>
    let y := m.cluster cl
    if y.st = .on || y.wakeAsked then m else m.setCluster cl { y with wakeAsked := true }) m

/-- A core at a task start: SEM_INIT, an empty carry buffer, disarmed list regions and FREE windows (R342, R405). -/
def startCore (flowOf : Nat → Flow) (k : Core) : Core :=
  let im := k.img.getD {}
  let k := im.lists.foldl prepareList k
  { k with
    sems := (List.range 16).foldl (fun s i => kset 0 s i (im.semInit.getD i 0)) []
    carry := []
    wins := kmapv (fun _ w => { w with slots := [], next := 0, oldest := 0, waiting := [], cont := false, fills := [], step := 0,
                                       layer := (flowOf w.flow).first }) k.wins
    ports := kmapv (fun _ q => { q with done := 0, open_ := 0, reads := [] }) k.ports }

/-- A STREAM flow restarts at LAYER_FIRST with STEP 0; a RESIDENT stage keeps its complete sections (R342). -/
def startFlow (now : Nat) (f : Flow) : Flow :=
  { endFlow f with children := f.kids.map (fun mac => { mac := mac, port := portOfRing f.portDie, lastAt := now }) }

/-- The next task sequence number (R405). -/
def nextTaskSeq (n : Nat) : Nat := if n = 0x0FFF_FFFF then 1 else n + 1

/-- A task of partition `p` starts for queue `q` (R405): the network flush begins beside the wakes. -/
def Module.startTask (m : Module) (p q : Nat) : Module :=
  let m := m.mapCores p (startCore (fun i => m.flow (256 * p + i)))
  let m := { m with
    str.flows := kmapv (fun k f => if k / 256 = p then startFlow m.now f else f) m.str.flows
    herds := kmapv (fun k h => if k / 4096 = p then { h with opSeq := 0, lost := [], reforms := [], lossAt := none, run := none, began := false, todo := [] } else h)
      m.herds
    que.models := kmapv (fun k x => if k / 16 = p then
      { x with credits := fld x.reg 64 12, seq := 0, open_ := [], held := none } else x) m.que.models }
  let m := m.modPart p (fun x => { x with
    st := .running, taskRunning := true, started := false, resumed := false, taskSeq := nextTaskSeq x.taskSeq,
    starter := some q, flushing := true, flushFrom := m.net.slot })
  m.askWakes (m.neededClusters p)

/-- A thread at its start: READY with every register 0 when enabled, IDLE otherwise (R195). -/
def startThread (im : Image) (t : Nat) : Thread :=
  if bitAt im.threadEn t then { st := .ready, pc := im.starts.getD t 0 } else {}

/-- The threads of a core start. -/
def startThreads (k : Core) : Core :=
  match k.img with
  | some im => { k with threads := (List.range 8).map (fun t => (t, startThread im t)) }
  | none => k

/-- The cores of partition `p` with windows: each tail issues its pulls (R325). -/
def Module.startPulls (m : Module) (p : Nat) : Module :=
  (m.cores.filter (fun e => (m.part p).hasCore e.1)).foldl (fun m e =>
    e.2.wins.foldl (fun m w => if w.2.tail then m.tailPull p e.1 w.1 16 else m) m) m

/-- THREAD_START: the flush has ended and every cluster the task needs is ON (R202). -/
def doThreadStart (p : Nat) (m : Module) : Module :=
  let x := m.part p
  if !x.taskRunning || x.started || x.flushing || !(m.neededClusters p).all (fun cl => (m.cluster cl).st = .on) then m
  else
    let m := if x.resumed then m else m.mapCores p startThreads
    let m := m.modPart p (fun x => { x with started := true })
    m.startPulls p

def execThreadStart (p : Nat) (s : State) : Host.Outcome State Fault Refusal := onModule s (doThreadStart p)

end Sys2Proof.Machine
end

