-- ==== Sys2Proof/Machine/Tiers.lean ====
section
/-! DEFINITION. Terourn space: homes, frames, placement, stores, pool transfers, requests and moves (R268 to R292,
R313, R430). -/

namespace Sys2Proof.Machine

open Sys2Proof

/-! ## Homes and objects (R271, R276) -/

/-- Bytes of a page. -/
def pageBytes : Nat := 2 ^ 21

/-- H: the healthy memory-port dies in BW_SPLIT entry order (R271). -/
def Module.homes (m : Module) : List Nat :=
  ((List.range 64).filter isMem).filter (fun n => !m.topo.ringBad.contains n)

/-- The home die of page `pg`; none where no memory-port die is healthy. -/
def Module.home? (m : Module) (pg : Nat) : Option Nat :=
  let h := m.homes
  h[pg % max 1 h.length]?

/-- The object that holds page `pg`, with its key. -/
def Module.objAt (m : Module) (pg : Nat) : Option (Nat × TierObj) :=
  m.tier.objects.find? (fun e => e.2.base ≤ pg && pg < e.2.base + e.2.pages)

/-- Pages of [b, b + n) whose number is `i` modulo `d`. -/
def countMod (b n d i : Nat) : Nat := (b + n + d - 1 - i) / d - (b + d - 1 - i) / d

/-! ## Frames (R272, R274) -/

/-- Frames of a memory-port die less the retired ones. -/
def Module.frames (m : Module) (die : Nat) : Nat := 97_792 - kgetD 0 m.tier.retired die

/-- Reserved frames in T1 at a die: pages homed there whose SLOW is 1. -/
def Module.reservedT1 (m : Module) (die : Nat) : Nat :=
  let h := m.homes
  m.tier.objects.foldl (fun a e =>
    if e.2.slow = 1 then a + countMod e.2.base e.2.pages (max 1 h.length) (h.idxOf die) else a) 0

/-- Reserved frames in T2 or T3. -/
def Module.reserved (m : Module) (k : Nat) : Nat :=
  m.tier.objects.foldl (fun a e => if e.2.slow = k then a + e.2.pages else a) 0

/-- Whether page `pg` occupies a frame of tier `k`, a move's destination included. -/
def Page.occupies (x : Page) (k : Nat) : Bool :=
  x.tier = k || (match x.move with | some v => v.dest = k | none => false)

/-- Pages of slower-span objects that tier `k` holds, for T1 at one die. -/
def Module.guests (m : Module) (k : Nat) (die : Option Nat) : Nat :=
  (m.tier.pages.filter (fun e => e.2.occupies k
    && (match m.objAt e.1 with | some o => k < o.2.slow | none => false)
    && (match die with | some d => m.home? e.1 = some d | none => true))).length

/-- Open frames of tier `k` as page `pg` sees them (R274). -/
def Module.openFrames (m : Module) (k die : Nat) : Nat :=
  if k = 1 then m.frames die - m.reservedT1 die - m.guests 1 (some die)
  else if k = 2 then m.tier.t2Pages - m.reserved 2 - m.guests 2 none
  else m.tier.poolPages - m.reserved 3

/-- Whether page `pg` of object `o` may enter tier `k` now: an open frame, or its reserved frame. -/
def Module.mayEnter (m : Module) (o : TierObj) (pg k : Nat) : Bool :=
  o.fast ≤ k && k ≤ o.slow && (k = o.slow || 0 < m.openFrames k ((m.home? pg).getD 0))

/-- The tier of the first write to a ZERO page: the fastest of its span with an open frame, else SLOW (R274). -/
def Module.firstTier (m : Module) (o : TierObj) (pg : Nat) : Nat :=
  (([1, 2, 3].filter (fun k => k < o.slow && m.mayEnter o pg k)).head?).getD o.slow

/-- The lowest number that a list does not hold. -/
def lowestFree (used : List Nat) : Nat := ((List.range (used.length + 1)).find? (fun n => !used.contains n)).getD 0

/-- A page with a frame of the tier it is to hold tiles in: of T2 or T3 the lowest that no page holds (R275; DESIGN CHOICE, log 20). -/
def Module.withFrame (m : Module) (pg k : Nat) : Module :=
  let x := m.page pg
  if k = 2 && x.t2.isNone then m.setPage pg { x with t2 := some (lowestFree (m.tier.pages.filterMap (fun e => e.2.t2))) }
  else if k = 3 && x.pool.isNone then m.setPage pg { x with pool := some (lowestFree (m.tier.pages.filterMap (fun e => e.2.pool))) }
  else m

/-- A page keeps the T2 or pool frame that it is in, and the one that is its reserved frame; any other is free (R287). -/
def Page.settled (x : Page) (slow : Nat) : Page :=
  { x with t2 := if x.tier = 2 || slow = 2 then x.t2 else none, pool := if x.tier = 3 || slow = 3 then x.pool else none }

/-- The host physical address of a tile of a page in T2 (R275). -/
def Module.t2Addr (m : Module) (pg t : Nat) : Nat := m.tier.t2Base + (m.page pg).t2.getD 0 * pageBytes + t * tileBytes

/-- The pool address of a tile of a page (R313). -/
def Module.poolAddr (m : Module) (pg t : Nat) : Nat :=
  m.tier.poolBase + (m.page pg).pool.getD 0 * pageBytes + t * tileBytes

/-! ## Contents (R273, R290) -/

/-- The object of a page with its key; an empty one where no object holds it. -/
def Module.objOf (m : Module) (pg : Nat) : Nat × TierObj := (m.objAt pg).getD (0, {})

/-- The address of slot `t` of a page. -/
def slotAddr (pg t : Nat) : Nat := pg * pageBytes + t * tileBytes

/-- Whether slot `t` of a page holds a compressed tile: a written one that RAW_MASK does not name (R290). -/
def Module.packed (m : Module) (pg t : Nat) : Bool :=
  (m.objOf pg).2.compress && bitAt (m.page pg).written t && !bitAt (m.page pg).rawMask t

/-- The stored length of a tile (R292). -/
def Module.storedLen (m : Module) (pg t : Nat) : Nat :=
  if m.packed pg t then min tileBytes (64 * ceilDiv (32 + bodyLenOf (readBytes m.tier.mem (slotAddr pg t) 32)) 64) else tileBytes

/-- A tile in stored form. -/
def Module.slot (m : Module) (pg t : Nat) : List Byte := readBytes m.tier.mem (slotAddr pg t) (m.storedLen pg t)

/-- The bytes of tile `t` of a page; none where it fails to decode (R295). -/
def Module.tile? (m : Module) (pg t : Nat) : Option (List Byte) :=
  if m.packed pg t then
    let (k, o) := m.objOf pg
    readSlot o.width k (pg - o.base) t (m.slot pg t)
  else some (readBytes m.tier.mem (slotAddr pg t) tileBytes)

/-- The bytes of `n` tiles from tile `g` of Terourn space on; none where one fails to decode. -/
def Module.tiles? (m : Module) (g : Nat) : (n : Nat) → Option (List Byte)
  | 0 => some []
  | n + 1 =>
    match m.tile? (g / 32) (g % 32), m.tiles? (g + 1) n with
    | some a, some b => some (a ++ b)
    | _, _ => none

/-- The tiles of Terourn space that a range touches: the first, and how many. -/
def tileSpan (addr n : Nat) : Nat × Nat := (addr / tileBytes, ceilDiv (addr % tileBytes + n) tileBytes)

/-- Bytes at a Terourn address, decoded; none where a tile fails to decode. A tile that is not written reads as zeros. -/
def Module.load? (m : Module) (addr n : Nat) : Option (List Byte) :=
  let (g, k) := tileSpan addr n
  if (List.range k).all (fun i => !m.packed ((g + i) / 32) ((g + i) % 32)) then some (readBytes m.tier.mem addr n)
  else (m.tiles? g k).map (fun bs => slice bs (addr % tileBytes) n)

/-- Bytes at a Terourn address where no failure is looked for: zeros for a tile that fails to decode (log 117). -/
def Module.load (m : Module) (addr n : Nat) : List Byte := (m.load? addr n).getD (List.replicate n 0)

/-- Whether a read of a range reads ECC word `w` of T1: a word of a written tile, of a compressed one any within its stored length
(R273, R292). -/
def Module.readsWord (m : Module) (addr n w : Nat) : Bool :=
  let (g0, k) := tileSpan addr n
  let g := 32 * w / tileBytes
  (m.page (g / 32)).tier = 1 && g0 ≤ g && g < g0 + k && bitAt (m.page (g / 32)).written (g % 32)
    && (if m.packed (g / 32) (g % 32) then 32 * w % tileBytes < m.storedLen (g / 32) (g % 32)
        else addr / 32 ≤ w && w < (addr + n + 31) / 32)

/-- The first uncorrectable word of T1 that a read of a range reads, with its stack and row. -/
def Module.badIn (m : Module) (addr n : Nat) : Option (Nat × Nat) :=
  (m.tier.badWords.find? (fun e => m.readsWord addr n e.1)).map Prod.snd

/-- A read of T1 finds the correctable errors of a range: each is counted and logged, and its word written back (R298). -/
def Module.readT1 (m : Module) (addr n : Nat) : Module :=
  let soft := m.tier.softWords.filter (fun e => m.readsWord addr n e.1)
  soft.foldl (fun m e => m.t1Corrected e.2.1 e.2.2)
    { m with tier.softWords := m.tier.softWords.filter (fun e => !soft.contains e) }

/-- What reads find of words of T1 at a die (R298). -/
def Module.t1Found (m : Module) (found : List T1Finding) : Module :=
  found.foldl (fun m f =>
    if (m.page (32 * f.word / pageBytes)).tier ≠ 1 then m
    else if f.unc then { m with tier.badWords := kput m.tier.badWords f.word (f.stack, f.row) }
    else { m with tier.softWords := kput m.tier.softWords f.word (f.stack, f.row) }) m

/-- The tiles of a page that a range touches. -/
def tilesIn (addr n : Nat) : List Nat :=
  let o := addr % pageBytes
  (List.range 32).filter (fun t => o < (t + 1) * tileBytes && t * tileBytes < o + n)

/-- Bit `t` of a mask made `b`. -/
def setMask (x t : Nat) (b : Bool) : Nat := if b then x ||| 2 ^ t else x &&& (2 ^ 32 - 1 - 2 ^ t)

/-- Whether a store of a range makes ECC word `w` good again: a word covered whole, or one of a tile that was not written, whose rest is
filled with zeros (R273, R298). -/
def Module.mends (m : Module) (addr n w : Nat) : Bool :=
  let (g0, k) := tileSpan addr n
  let g := 32 * w / tileBytes
  (addr / 32 ≤ w && w < (addr + n) / 32) || (g0 ≤ g && g < g0 + k && !bitAt (m.page (g / 32)).written (g % 32))

/-- Bytes put at a Terourn address as they are. -/
def Module.putRaw (m : Module) (addr : Nat) (bs : List Byte) : Module :=
  { m with
    tier.mem := writeBytes m.tier.mem addr bs
    tier.badWords := m.tier.badWords.filter (fun e => !m.mends addr bs.length e.1)
    tier.softWords := m.tier.softWords.filter (fun e => !m.mends addr bs.length e.1) }

/-- A tile is written, in the raw form or not. -/
def Module.markTile (m : Module) (pg t : Nat) (raw : Bool) : Module :=
  let x := m.page pg
  m.setPage pg { x with written := setMask x.written t true, rawMask := setMask x.rawMask t raw }

/-- A tile put in its slot in stored form. -/
def Module.putSlot (m : Module) (pg t : Nat) (stored : List Byte) (raw : Bool) : Module :=
  (m.putRaw (slotAddr pg t) stored).markTile pg t raw

/-- Bytes stored into part of one tile of a compressed object: the tile is coded again (R290, R293). Where its old form fails to decode, the
rest of the tile becomes zeros (log 117). -/
def Module.recode (m : Module) (addr : Nat) (bs : List Byte) : Module :=
  let pg := addr / pageBytes
  let t := addr % pageBytes / tileBytes
  let (k, o) := m.objOf pg
  let old := (m.tile? pg t).getD []
  let at_ := addr % tileBytes
  let new := padTo at_ 0 (old.take at_) ++ bs ++ old.drop (at_ + bs.length)
  let (stored, raw) := packTile o.width k (pg - o.base) t (padTo tileBytes 0 new)
  m.putSlot pg t stored raw

/-- Bytes stored into a page that is open for the write: WRITTEN is set, and RAW_MASK says whether the tile's stored form
is raw (R290, R293). -/
def Module.putBytes (m : Module) (addr : Nat) (bs : List Byte) : Module :=
  let pg := addr / pageBytes
  let ts := tilesIn addr bs.length
  if (m.objOf pg).2.compress then
    ts.foldl (fun m t =>
      let a := max addr (slotAddr pg t)
      m.recode a (slice bs (a - addr) (slotAddr pg t + tileBytes - a))) m
  else ts.foldl (fun m t => m.markTile pg t true) (m.putRaw addr bs)

/-- A tile in transit form as its home die stores it (R292, R310, R313). -/
def Module.tileTransit (m : Module) (pg t : Nat) : List Byte :=
  let (k, o) := m.objOf pg
  let x := m.slot pg t
  if m.packed pg t then transitOf (x.take 32) (slice x 32 (bodyLenOf x)) else rawTransit o.width k (pg - o.base) t x

/-! ## Pool transfers (R313) -/

/-- The ports set in STR_POOL_PORTS. -/
def Module.poolPorts (m : Module) : List Nat := (List.range 48).filter (fun i => bitAt m.str.poolPorts i)

/-- The port of page number `pg`; none when no port is set. -/
def Module.poolPort (m : Module) (pg : Nat) : Option Nat :=
  let ps := m.poolPorts
  ps[pg % max 1 ps.length]?

/-- A fresh number for a request or transfer. -/
def Module.nextId (m : Module) : Nat × Module := (m.tier.ids + 1, { m with tier.ids := m.tier.ids + 1 })

/-- A POOL_READ of one tile through a port. -/
def Module.poolRead (m : Module) (port addr : Nat) (owner : PoolOwner) : Module :=
  let (i, m) := m.nextId
  let m := m.sendPsp port m.str.poolMac 4 true 0 0 0 0 1 0 (leBytes 8 addr)
  { m with str.poolReads := m.str.poolReads ++ [{ id := i, port := port, addr := addr, owner := owner, at_ := some m.now }] }

/-- A POOL_WRITE of one tile through a port: its 10 ms run from the ACK of its chunk. -/
def Module.poolWrite (m : Module) (port addr : Nat) (payload : List Byte) (owner : PoolOwner) : Module :=
  let (i, m) := m.nextId
  let (q, m) := m.nextPspSeq 0
  let (n, m) := m.nextMsg (pspKey 0)
  let m := m.sendChunk {
    port := port, mac := m.str.poolMac, etype := m.str.ethertype, vc := 1, chan := 0, msg := n, chunk := 0, last := true
    aux := addr, upper := pspHeader 6 true 0 0 0 0 1 0 q, payload := payload, at_ := 0, owner := .poolWrite i }
  { m with str.poolWrites := m.str.poolWrites ++ [{ id := i, port := port, addr := addr, owner := owner, at_ := none }] }

/-- The tiles of Terourn space among `gs` that the pool holds and reader `o` does not have yet (R275). -/
def Module.lacks (m : Module) (o : PoolOwner) (gs : List Nat) : List Nat :=
  gs.filter (fun g => (m.page (g / 32)).tier = 3 && bitAt (m.page (g / 32)).written (g % 32) && !m.str.buffers.contains (o, g))

/-- A POOL_READ of each tile that reader `o` lacks and has not asked for; none where no port is set for the pool (R313). -/
def Module.askPool (m : Module) (o : PoolOwner) (gs : List Nat) : Option Module :=
  (m.lacks o gs).foldl (fun m g => m.bind (fun m =>
    (m.poolPort (g / 32)).map (fun port =>
      let a := m.poolAddr (g / 32) (g % 32)
      if m.str.poolReads.any (fun q => q.owner = o && q.addr = a) then m else m.poolRead port a o))) (some m)

/-- Tiles for a reader: true once it has all that the pool holds of them; none where no port is set for the pool. A reader keeps the tiles of
its last read. -/
def Module.fetchTiles (m : Module) (o : PoolOwner) (gs : List Nat) : Option (Module × Bool) :=
  if m.lacks o gs = [] then
    some ({ m with str.buffers := m.str.buffers.filter (fun b => b.1 ≠ o || gs.contains b.2) }, true)
  else (m.askPool o gs).map (fun m => (m, false))

/-- The tiles that a range touches. -/
def tilesOf (addr n : Nat) : List Nat :=
  let (g, k) := tileSpan addr n
  (List.range k).map (fun i => g + i)

/-! ## Copy-on-write and the opening of a page for a write (R273, R287, R430) -/

/-- Bounce frames in use at a die. -/
def Module.bounced (m : Module) (die : Nat) : Nat :=
  (m.tier.bouncePages.filter (fun b => m.home? b.2 = some die)).length

/-- A write meets a kerf-pending page: the stall is counted, and logged at most once per partition and millisecond. -/
def Module.noteStall (m : Module) (pg : Nat) : Module :=
  match m.objAt pg with
  | none => m
  | some (k, _) =>
    let p := k / 4096
    let m := m.modPart p (fun x => { x with krf := { x.krf with cowStalls := satN 32 (x.krf.cowStalls + 1) } })
    let fresh : Bool := match (m.part p).cowLogAt with
      | none => true
      | some t => m.skPassed t skMs
    if fresh then
      (m.logEvent 0x0701 (.ring ((m.home? pg).getD 0)) (part := some p) (task := m.taskOf p)).modPart p
        (fun x => { x with cowLogAt := some m.now })
    else m

/-- A kerf-pending page is copied ahead of order once a bounce frame is free and its tiles are at hand; false where the write must wait. A copy
that cannot read the page ends the take (R430, R438). -/
def Module.copyAhead (m : Module) (pg : Nat) : Module × Bool :=
  let x := m.page pg
  let p := (m.objOf pg).1 / 4096
  if !x.pending then (m, true)
  else if 128 ≤ m.bounced ((m.home? pg).getD 0) then (m, false)
  else if x.tier = 2 && !m.hostUp then (m.failTake p, true)
  else
    match m.badIn (slotAddr pg 0) pageBytes with
    | some (stack, row) =>
      (((m.t1Unc stack row).logEvent 0x0402 { Loc.ring ((m.home? pg).getD 0) with sub := stack } (detail := row)).failTake p, true)
    | none =>
      match m.fetchTiles (.bounce pg) (tilesOf (slotAddr pg 0) pageBytes) with
      | none => (m.failTake p, true)
      | some (m, false) => (m, false)
      | some (m, true) =>
        ({ (m.setPage pg { x with pending := false }) with tier.bouncePages := m.tier.bouncePages ++ [(p, pg)] }, true)

/-- A move of page `pg` is cancelled or abandoned: the page stays at the source (R287). -/
def Module.stopMove (m : Module) (pg : Nat) (cancel : Bool) : Module :=
  let x := m.page pg
  if x.move.isNone then m
  else
    let e := kgetD 0 m.tier.epochNo ((m.home? pg).getD 0)
    m.setPage pg ({ x with move := none, cancelled := if cancel then some e else x.cancelled }.settled (m.objOf pg).2.slow)

/-- A page made ready for a write: a pending page is copied, a move cancelled, a ZERO page placed; false where the write
must wait for the copy. -/
def Module.openPage (m : Module) (pg : Nat) : Module × Bool :=
  match m.copyAhead pg with
  | (m, false) => (m, false)
  | (m, true) =>
    match m.objAt pg with
    | none => (m, true)
    | some (_, o) =>
      let m := m.stopMove pg true
      let x := m.page pg
      let m := if x.tier = 0 then m.setPage pg { x with tier := m.firstTier o pg } else m
      (m.withFrame pg (m.page pg).tier, true)

/-- What a reader of Terourn space finds: the module once its bytes are at hand, a wait for the pool, or a failure with its code and place
(R282). -/
inductive Reach where
  | here (m : Module)
  | wait (m : Module)
  | fail (m : Module) (code sub detail : Nat)

/-- A reader reaches a range of a page: the host link for T2, the tiles from the pool for T3, no uncorrectable word of T1. -/
def Module.reach (m : Module) (o : PoolOwner) (addr n : Nat) : Reach :=
  if (m.page (addr / pageBytes)).tier = 2 && !m.hostUp then .fail m 0x0202 0 0
  else
    match m.fetchTiles o (tilesOf addr n) with
    | none => .fail m 0x0202 0 0
    | some (m, false) => .wait m
    | some (m, true) =>
      match m.badIn addr n with
      | some (stack, row) => .fail (m.t1Unc stack row) 0x0402 stack row
      | none => .here (m.readT1 addr n)

/-- The tiles of a page as the host holds them once it is written (R275). -/
def Module.toHost (m : Module) (pg : Nat) (ts : List Nat) : Module :=
  ts.foldl (fun m t => m.emit (.hostWrite (m.t2Addr pg t) (m.slot pg t))) m

/-- The tiles of a page sent to the pool in stored form. -/
def Module.toPool (m : Module) (port pg : Nat) (ts : List Nat) (owner : PoolOwner) : Module :=
  ts.foldl (fun m t => m.poolWrite port (m.poolAddr pg t) (m.tileTransit pg t) owner) m

/-- The tier in which a write of page `pg` is stored. -/
def Module.landsIn (m : Module) (pg : Nat) : Nat :=
  let x := m.page pg
  if x.tier = 0 then m.firstTier (m.objOf pg).2 pg else x.tier

/-- A write of page `pg` fails with 0x0202: in T2 without the host, in T3 without a port for the pool (R282, R313). -/
def Module.storeFails (m : Module) (pg : Nat) : Bool :=
  (m.landsIn pg = 2 && !m.hostUp) || (m.landsIn pg = 3 && (m.poolPort pg).isNone)

/-- A page that the module has written tiles of, through to the host or the pool. -/
def Module.through (m : Module) (pg : Nat) (ts : List Nat) (owner : PoolOwner) : Module :=
  if (m.page pg).tier = 2 then m.toHost pg ts
  else if (m.page pg).tier = 3 then
    match m.poolPort pg with
    | some port => m.toPool port pg ts owner
    | none => m
  else m

/-- A write of the module itself to a page (COPY_IN, herd DST, a stage, a dump, a restore), `put` doing the write: the page is opened, and a
page of T2 or T3 is written through. False where the write must wait for the copy of a pending page; its stall counts once (R430). -/
def Module.storeWith (m : Module) (pg : Nat) (ts : List Nat) (owner : PoolOwner) (put : Module → Module) : Module × Bool :=
  let waits := m.str.stalled.contains (owner, pg)
  let m := if (m.page pg).pending && !waits then m.noteStall pg else m
  match m.openPage pg with
  | (m, false) => (if waits then m else { m with str.stalled := m.str.stalled ++ [(owner, pg)] }, false)
  | (m, true) => (({ (put m) with str.stalled := m.str.stalled.filter (fun b => b ≠ (owner, pg)) }).through pg ts owner, true)

/-- Bytes written to a Terourn range inside one page by the module itself. -/
def Module.store (m : Module) (addr : Nat) (bs : List Byte) (owner : PoolOwner) : Module × Bool :=
  m.storeWith (addr / pageBytes) (tilesIn addr bs.length) owner (fun m => m.putBytes addr bs)

/-! ## Requests (R280 to R282) -/

/-- Whether a request breaks a check of R280. -/
def Module.badRequest (m : Module) (p die x : Nat) : Bool :=
  let op := fld x 0 4
  let addr := fld x 96 56
  let len := fld x 160 22
  let pg := addr / pageBytes
  let reserved := fld x 4 12 + fld x 30 2 + fld x 46 18 + fld x 152 8 + fld x 182 298
  op ≠ 1 && op ≠ 2 || reserved ≠ 0 || len < 64 || 2_097_152 < len || len % 64 ≠ 0 || addr % 64 ≠ 0
    || (addr + len - 1) / pageBytes ≠ pg || m.home? pg ≠ some die
    || (match m.objAt pg with
        | none => true
        | some (k, o) => k / 4096 ≠ p || (o.compress && op = 2 && (addr % tileBytes ≠ 0 || len % tileBytes ≠ 0)))

/-- A request replaced. -/
def Module.setReq (m : Module) (r : TierReq) : Module :=
  { m with tier.reqs := m.tier.reqs.map (fun x => if x.id = r.id then r else x) }

/-- A request is over. -/
def Module.dropReq (m : Module) (r : TierReq) : Module :=
  { m with tier.reqs := m.tier.reqs.filter (fun x => x.id ≠ r.id) }

/-- A request fails after it was accepted (R282). -/
def Module.failReq (m : Module) (r : TierReq) (code : Nat) (sub detail : Nat := 0) : Module :=
  (m.dropReq r).abortTask r.part code { Loc.ring r.die with sub := sub } detail

/-- The tiles a request needs from the pool: the written tiles a READ covers, or that a WRITE covers in part. -/
def Module.wanted (m : Module) (r : TierReq) : List Nat :=
  let x := m.page (r.addr / pageBytes)
  let o := r.addr % pageBytes
  if x.tier ≠ 3 then []
  else (tilesIn r.addr r.len).filter (fun t => bitAt x.written t
    && !(r.write && o ≤ t * tileBytes && (t + 1) * tileBytes ≤ o + r.len))

/-- A queued request begins: host and pool are asked, a WRITE opens its page. -/
def Module.beginReq (m : Module) (r : TierReq) : Module :=
  let pg := r.addr / pageBytes
  let m := if r.write && (m.page pg).pending && !r.stalled then m.noteStall pg else m
  match if r.write then m.openPage pg else (m, true) with
  | (m, false) => m.setReq { r with stalled := true }
  | (m, true) =>
    let x := m.page pg
    if x.tier = 2 && !m.hostUp then m.failReq r 0x0202
    else
      let ts := m.wanted r
      match m.poolPort pg with
      | none => if x.tier = 3 then m.failReq r 0x0202 else m.setReq { r with phase := .moving }
      | some port =>
        let m := m.setReq { r with phase := if ts.isEmpty then .moving else .fetching, open_ := ts.length }
        ts.foldl (fun m t => m.poolRead port (m.poolAddr pg t) (.req r.id)) m

/-- The WRITE_DONE message of a request: TAG, ADDR and LEN repeated. -/
def doneMsg (r : TierReq) : BitVec 480 :=
  BitVec.ofNat 480 (put 0 4 3 + put 64 32 r.tag + put 96 56 r.addr + put 160 22 r.len)

/-- A READ's next packet: at most 64 flits, for one credit (log 21). -/
def Module.readPacket (m : Module) (r : TierReq) : Module :=
  let a := r.addr + r.pos
  let n := min 4096 (r.len - r.pos)
  match m.badIn a n, m.load? a n with
  | some (stack, row), _ => (m.t1Unc stack row).failReq r 0x0402 stack row
  | none, none => m.failReq r 0x0203
  | none, some bs =>
    let m := { (m.readT1 a n) with net.dieCredits := kput m.net.dieCredits r.reply (kgetD 0 m.net.dieCredits r.reply - 1) }
    let m := m.ringPacket r.part r.die r.reply 0 0 (flitsOf bs)
    m.setReq { r with pos := r.pos + n }

/-- Every byte of a WRITE is in the page (R281): T1 holds it; T2 holds it once the host has acknowledged it, which it does with the next sk
(log 118); T3 once the pool has acknowledged it. -/
def Module.endWrite (m : Module) (r : TierReq) : Module :=
  let pg := r.addr / pageBytes
  let t := (m.page pg).tier
  let ts := tilesIn r.addr r.len
  if t = 3 then
    match m.poolPort pg with
    | none => m.failReq r 0x0202
    | some port => (m.setReq { r with phase := .acking, open_ := ts.length }).toPool port pg ts (.req r.id)
  else if t = 2 then
    if !m.hostUp then m.failReq r 0x0202 else (m.setReq { r with phase := .acking, open_ := 1 }).toHost pg ts
  else (m.dropReq r).ringControl r.part r.die r.reply (doneMsg r)

/-- The requests of a route in order: the first of them goes on as far as it can (R281). -/
def Module.serve (m : Module) (die route : Nat) : (fuel : Nat) → Module
  | 0 => m
  | n + 1 =>
    match m.tier.reqs.find? (fun r => r.die = die && r.route = route) with
    | none => m
    | some r =>
      if !m.netOpen r.part then m
      else
        match r.phase with
        | .queued =>
          let m' := m.beginReq r
          if m'.tier.reqs.any (fun x => x.id = r.id && x.stalled) then m' else m'.serve die route n
        | .fetching => if r.open_ = 0 then (m.setReq { r with phase := .moving }).serve die route n else m
        | .moving =>
          if r.write then (if r.len ≤ r.pos then (m.endWrite r).serve die route n else m)
          else if r.len ≤ r.pos then (m.dropReq r).serve die route n
          else if kgetD 0 m.net.dieCredits r.reply = 0 then m
          else (m.readPacket r).serve die route n
        | .acking =>
          if r.open_ = 0 then
            ((m.dropReq r).ringControl r.part r.die r.reply (doneMsg r)).serve die route n
          else m

/-- Steps one call of `serve` may take: a request moves at most 512 packets. -/
def serveFuel : Nat := 10_000

/-- Every stalled, queued or waiting route of partition `p` goes on. -/
def Module.serveAll (m : Module) (p : Nat) : Module :=
  (m.tier.reqs.filter (fun r => r.part = p)).foldl (fun m r => m.serve r.die r.route serveFuel) m

/-- The host has acknowledged the last writes of T2: each request that waited for it is done (R281, log 118). -/
def Module.hostAcks (m : Module) : Module :=
  (m.tier.reqs.filter (fun r => r.phase = .acking && (m.page (r.addr / pageBytes)).tier = 2)).foldl
    (fun m r => (m.setReq { r with open_ := 0 }).serve r.die r.route serveFuel) m

/-- The heat of a page after requests for `n` bytes of it: 1 for every 64 KiB (R285). -/
def Page.heated (x : Page) (n : Nat) : Page :=
  { x with heat := satN 16 (x.heat + (x.heatRest + n) / tileBytes), heatRest := (x.heatRest + n) % tileBytes }

/-- A request reaches its home die (R280). -/
def Module.requestAtDie (m : Module) (p die : Nat) (f : Flight) : Module :=
  let x := f.msg
  if m.badRequest p die x then m.abortTask p 0x0602 (.ring die)
  else
    let (i, m) := m.nextId
    let addr := fld x 96 56
    let len := fld x 160 22
    let pg := addr / pageBytes
    let m := m.setPage pg ((m.page pg).heated len)
    let r : TierReq := { id := i, die := die, route := f.route, part := p, write := fld x 0 4 = 2, reply := fld x 16 14,
                         data := fld x 32 14, tag := fld x 64 32, addr := addr, len := len }
    ({ m with tier.reqs := m.tier.reqs ++ [r] }).serve die f.route serveFuel

/-- The WRITE that takes data from route `route` at a die: the first request of its own route, moving its data. -/
def Module.writerOn (m : Module) (die route : Nat) : Option TierReq :=
  (m.tier.reqs.find? (fun r => r.die = die && r.write && r.data = route && r.phase = .moving && r.pos < r.len))

/-- A DATA packet of a WRITE reaches its home die: stored, and one credit returned to its send endpoint (R329). -/
def Module.writeDataAtDie (m : Module) (die : Nat) (r : TierReq) (f : Flight) : Module :=
  let bs := (flitBytes f.payload).take (r.len - r.pos)
  let pg := r.addr / pageBytes
  let m := m.stopMove pg true
  let m := (m.putBytes (r.addr + r.pos) bs).setReq { r with pos := r.pos + bs.length }
  let back := (m.cores.findSome? (fun e =>
    (e.2.eps.find? (fun q => !q.2.recv && q.2.route = f.route)).map (fun q => q.2.creditRoute))).getD 0
  let m := if back = 0 then m else m.ringCredit r.part die back 1
  m.serve die r.route serveFuel

/-- A WRITE_DONE reaches core `c`: the port counts it (R281, R329). -/
def Module.writeDoneAtCore (m : Module) (c : Nat) (i : Nat) (f : Flight) : Module :=
  m.modCore c (fun k => { k with ports := kupd k.ports i (fun q =>
    { q with done := q.done + 1, lastTag := fld f.msg 64 32, open_ := q.open_ - 1 }) })

/-! ## Moves (R285 to R288) -/

/-- The owner of a page. -/
def Module.ownerOf (m : Module) (pg : Nat) : Nat := match m.objAt pg with | some e => e.1 / 4096 | none => 0

/-- Whether a kerf of partition `p` is being written (R286). -/
def Module.kerfWriting (m : Module) (p : Nat) : Bool :=
  let x := (m.part p).krf.phase
  x = .dumping || x = .writing

/-- The TIER_MIGRATE and TIER_LOW_WATER that a die works by: a write takes effect at its next epoch end (R302). -/
def Module.mig (m : Module) (die : Nat) : Nat := kgetD 0x1010_03E8_0004_0040 m.tier.migNow die
def Module.low (m : Module) (die : Nat) : Nat := kgetD 0x0100_0100 m.tier.lowNow die

/-- Whether a page is frozen (R286). -/
def Module.frozen (m : Module) (die pg : Nat) : Bool :=
  let e := kgetD 0 m.tier.epochNo die
  fld (m.mig die) 60 1 = 0 || m.kerfWriting (m.ownerOf pg)
    || (match (m.page pg).cancelled with | some c => e ≤ c + 1 | none => false)

/-- A move of page `pg` to tier `k` starts (R287). -/
def Module.startMove (m : Module) (pg k : Nat) : Module :=
  let x := m.page pg
  (m.setPage pg { x with move := some { dest := k } }).withFrame pg k

/-- Pages homed at a die that may move now. -/
def Module.movable (m : Module) (die : Nat) : List (Nat × Page) :=
  m.tier.pages.filter (fun e => m.home? e.1 = some die && e.2.tier ≠ 0 && e.2.move.isNone && !m.frozen die e.1
    && (m.objAt e.1).isSome)

/-- The coldest page, the lowest page number among equals. -/
def coldest : List (Nat × Page) → Option (Nat × Page)
  | [] => none
  | e :: t =>
    match coldest t with
    | none => some e
    | some g => if e.2.heat ≤ g.2.heat then some e else some g

/-- The demotions of tier `k` at an epoch's end. -/
def Module.demote (m : Module) (die k : Nat) : (fuel : Nat) → (moves : Nat) → Nat × Module
  | 0, v => (v, m)
  | n + 1, v =>
    let low := if k = 1 then fld (m.low die) 0 16 else fld (m.low die) 16 16
    if m.openFrames k die < low && v < fld (m.mig die) 48 12 then
      match coldest ((m.movable die).filter (fun e => e.2.tier = k && e.2.heat ≤ fld (m.mig die) 16 16
          && (match m.objAt e.1 with | some o => k < o.2.slow | none => false))) with
      | none => (v, m)
      | some (pg, _) =>
        let o : TierObj := match m.objAt pg with | some e => e.2 | none => {}
        let t := (([2, 3].filter (fun t => k < t && t < o.slow && m.mayEnter o pg t)).head?).getD o.slow
        (m.startMove pg t).demote die k n (v + 1)
    else (v, m)

/-- Insertion by heat, descending, then page number, ascending. -/
def insHot (e : Nat × Page) : List (Nat × Page) → List (Nat × Page)
  | [] => [e]
  | g :: t => if g.2.heat < e.2.heat then e :: g :: t else g :: insHot e t

/-- The promotions at an epoch's end. -/
def Module.promote (m : Module) (die : Nat) (moves : Nat) : Module :=
  let hot := ((m.movable die).filter (fun e => fld (m.mig die) 0 16 ≤ e.2.heat)).foldl (fun l e => insHot e l) []
  (hot.foldl (fun (a : Nat × Module) e =>
    let (v, m) := a
    match m.objAt e.1 with
    | none => a
    | some (_, o) =>
      if fld (m.mig die) 48 12 ≤ v then a
      else
        match ([1, 2].filter (fun t => o.fast ≤ t && t < e.2.tier && 0 < m.openFrames t die)).head? with
        | none => a
        | some t => (v + 1, m.startMove e.1 t)) (moves, m)).2

/-- Moves in progress at a die. -/
def Module.movesAt (m : Module) (die : Nat) : Nat :=
  (m.tier.pages.filter (fun e => m.home? e.1 = some die && e.2.move.isSome)).length

/-- EPOCH_END: an epoch of TIER_MIGRATE.EPOCH_US has passed at home die `die` (R285). Moves still in progress count
against MOVES_PER_EPOCH. -/
def doEpochEnd (die : Nat) (m : Module) : Module :=
  let t := kgetD 0 m.tier.epochAt die
  if !m.homes.contains die || !m.usPassed t (fld (m.mig die) 32 16) then m
  else
    let v := m.movesAt die
    let (v, m) := m.demote die 1 4096 v
    let (v, m) := m.demote die 2 4096 v
    let m := m.promote die v
    let m := { m with
      tier.pages := kmapv (fun pg x => if m.home? pg = some die then { x with heat := x.heat / 2 } else x) m.tier.pages
      tier.epochNo := kput m.tier.epochNo die (kgetD 0 m.tier.epochNo die + 1)
      tier.epochAt := kput m.tier.epochAt die m.now }
    { m with
      tier.migNow := kput m.tier.migNow die m.tier.migrate
      tier.lowNow := kput m.tier.lowNow die m.tier.lowWater }

/-- A move is abandoned: logged with task id 0 (R287, R298). -/
def Module.abandonMove (m : Module) (pg code : Nat) (sub detail : Nat := 0) : Module :=
  (m.stopMove pg false).logEvent code { Loc.ring ((m.home? pg).getD 0) with sub := sub } (detail := detail)

/-- MOVE_TILE_COPIED: the next written tile of a MOVING page is copied in stored form (R287); `found` is what its read finds in T1, `failed`
says that the read of T2 met a poisoned line, or that the remote side failed. -/
def doMoveTileCopied (pg : Nat) (failed : Bool) (found : List T1Finding) (m : Module) : Module :=
  match (m.page pg).move with
  | none => m
  | some v =>
    match (List.range 32).find? (fun t => v.next ≤ t && bitAt (m.page pg).written t) with
    | none => m
    | some t =>
      let m := m.t1Found found
      let x := m.page pg
      match m.badIn (slotAddr pg t) tileBytes with
      | some (stack, row) => (m.t1Unc stack row).abandonMove pg 0x0402 stack row
      | none =>
        let m := m.readT1 (slotAddr pg t) tileBytes
        if failed && (x.tier ≠ 1 || v.dest ≠ 1) then m.abandonMove pg (if x.tier = 2 then 0x0402 else 0x0202)
        else if (x.tier = 2 || v.dest = 2) && !m.hostUp then m.abandonMove pg 0x0202
        else if x.tier = 3 || v.dest = 3 then
          match m.poolPort pg with
          | none => m.abandonMove pg 0x0202
          | some port =>
            let m := m.setPage pg { x with move := some { v with next := t + 1, open_ := v.open_ + 1 } }
            if x.tier = 3 then m.poolRead port (m.poolAddr pg t) (.move pg)
            else m.poolWrite port (m.poolAddr pg t) (m.tileTransit pg t) (.move pg)
        else
          let m := m.setPage pg { x with move := some { v with next := t + 1 } }
          if v.dest = 2 then m.toHost pg [t] else m

/-- MOVE_COMPLETE: after the last tile the directory entry switches in one step, the source frame is freed unless it is the page's reserved
frame, and the move counts (R287, R304). -/
def doMoveComplete (pg : Nat) (m : Module) : Module :=
  let x := m.page pg
  match x.move with
  | none => m
  | some v =>
    if (List.range 32).any (fun t => v.next ≤ t && bitAt x.written t) || v.open_ ≠ 0 then m
    else
      let m := m.setPage pg ({ x with tier := v.dest, move := none }.settled (m.objOf pg).2.slow)
      let m := { m with
        tier.badWords := m.tier.badWords.filter (fun e => 32 * e.1 / pageBytes ≠ pg)
        tier.softWords := m.tier.softWords.filter (fun e => 32 * e.1 / pageBytes ≠ pg) }
      m.modPart (m.ownerOf pg) (fun y =>
        if v.dest < x.tier then { y with promos := satN 32 (y.promos + 1) } else { y with demos := satN 32 (y.demos + 1) })

/-! ## Answers of the pool to requests and moves (R313) -/

/-- A tile of the pool for page `pg` at slot `t` put in its place in stored form, with no recoding (R287, R292). Where `check` says so it must
pass R295; a tile whose BODY_LEN cannot be that of its payload, or a compressed one of an object that is not, has no stored form and fails in
any case. -/
def Module.poolTile (m : Module) (pg t : Nat) (payload : List Byte) (check : Bool) : Option Module :=
  match m.objAt pg with
  | none => some m
  | some (k, o) =>
    match readTransit o.width k (pg - o.base) t payload, transitParts payload with
    | _, none => none
    | r, some (hdr, body) =>
      if r.isNone && (check || !o.compress) then none
      else if bodyLenOf hdr = tileBytes then some (m.putSlot pg t body true)
      else if o.compress then some (m.putSlot pg t (hdr ++ body) false)
      else r.map (fun y => m.putSlot pg t y.1 true)

/-- The page and slot of a pool address. -/
def Module.placeOfPool (m : Module) (addr : Nat) : Option (Nat × Nat) :=
  let n := (addr - m.tier.poolBase) / pageBytes
  (m.tier.pages.find? (fun e => e.2.pool = some n)).map (fun e => (e.1, (addr - m.tier.poolBase) % pageBytes / tileBytes))

/-- POOL_DATA for a request: the tile is checked, and the request goes on (R281, R282). -/
def Module.reqData (m : Module) (op : PoolOp) (id status : Nat) (payload : List Byte) : Module :=
  match m.tier.reqs.find? (fun r => r.id = id) with
  | none => m
  | some r =>
    if status ≠ 0 then m.failReq r 0x0202
    else
      match m.placeOfPool op.addr with
      | none => m
      | some (pg, t) =>
        match m.poolTile pg t payload true with
        | none => m.failReq r 0x0203
        | some m => (m.setReq { r with open_ := r.open_ - 1 }).serve r.die r.route serveFuel

/-- POOL_ACK for a request. -/
def Module.reqAck (m : Module) (id status : Nat) : Module :=
  match m.tier.reqs.find? (fun r => r.id = id) with
  | none => m
  | some r =>
    if status ≠ 0 then m.failReq r 0x0202
    else (m.setReq { r with open_ := r.open_ - 1 }).serve r.die r.route serveFuel

/-- An answer of the pool for a move. -/
def Module.moveAnswer (m : Module) (op : PoolOp) (pg status : Nat) (payload : Option (List Byte)) : Module :=
  let x := m.page pg
  match x.move with
  | none => m
  | some v =>
    if status ≠ 0 then m.abandonMove pg 0x0202
    else
      let done (m : Module) : Module :=
        let x := m.page pg
        m.setPage pg { x with move := some { v with open_ := v.open_ - 1 } }
      match payload, m.placeOfPool op.addr with
      | some bs, some (_, t) =>
        match m.poolTile pg t bs false with
        | none => m.abandonMove pg 0x0203
        | some m => done (if (m.page pg).move.any (fun v => v.dest = 2) then m.toHost pg [t] else m)
      | _, _ => done m

/-- A failure of a pool transfer of a request or a move (R282, R287). -/
def Module.failTransfer (m : Module) (op : PoolOp) (code : Nat) : Module :=
  match op.owner with
  | .req id =>
    match m.tier.reqs.find? (fun r => r.id = id) with
    | some r => m.failReq r code
    | none => m
  | .move pg => if (m.page pg).move.isSome then m.abandonMove pg code else m
  | _ => m

/-- POOL_DATA for a reader that buffers its tiles: the tile is checked under R295 and put in its place; none where it fails. -/
def Module.bufferTile (m : Module) (op : PoolOp) (payload : List Byte) : Option Module :=
  match m.placeOfPool op.addr with
  | none => some m
  | some (pg, t) =>
    (m.poolTile pg t payload true).map (fun m => { m with str.buffers := m.str.buffers ++ [(op.owner, 32 * pg + t)] })

end Sys2Proof.Machine
end

