-- ==== Sys2Proof/Machine/Streams.lean ====
section
/-! DEFINITION. Stream flows: the stage, PSP pulls and data, feeders, tine children (R305 to R342). -/

namespace Sys2Proof.Machine

open Sys2Proof

/-! ## Sections and stage places (R306, R320) -/

/-- The members a feeder feeds, in increasing number. -/
def Flow.membersOf (f : Flow) (feeder : Nat) : List Nat := (f.fed.filter (fun e => e.2 = feeder)).map Prod.fst

/-- The feeder of section `i`. -/
def Flow.feeder (f : Flow) (i : Nat) : Nat := f.feeders.getD i 0

/-- The table layer of the `n`-th layer of the sequence. -/
def Flow.layerNo (f : Flow) (n : Nat) : Nat := f.first + n % max 1 f.count

/-- Units of section `i` of layer `e`: the shards of its members, filled to a multiple of 16. -/
def Flow.sectionUnits (f : Flow) (e : Layer) (i : Nat) : Nat :=
  16 * ceilDiv ((f.membersOf (f.feeder i)).length * e.shardUnits) 16

/-- The stage place of section `i` of the `n`-th layer of a RESIDENT stage. -/
def Module.residentPlace (m : Module) (p : Nat) (f : Flow) (i : Nat) : (n : Nat) → Nat
  | 0 => 0
  | n + 1 => m.residentPlace p f i n + f.sectionUnits (m.layer p (f.first + n)) i / 16

/-- The Terourn address of stage tile `t` at feeder `feeder`: its pages in increasing page number, 32 tiles a page. -/
def Module.stageAddr (m : Module) (p : Nat) (f : Flow) (feeder t : Nat) : Nat :=
  let o : TierObj := kgetD {} m.tier.objects (4096 * p + f.stageObj)
  let h := m.homes
  let d := max 1 h.length
  let first := o.base + (h.idxOf feeder + d - o.base % d) % d
  let t := if f.resident then t else t % max 1 f.stageTiles
  (first + d * (t / 32)) * pageBytes + t % 32 * tileBytes

/-- Whether tile `t` of a section is stored and not freed. -/
def Section.has (s : Section) (t : Nat) : Bool := s.got.contains t && s.freed ≤ t

/-- Units of a section held from unit 0 on without a gap. -/
def Section.heldUnits (s : Section) : Nat :=
  min s.units (16 * (((List.range (s.got.length + 1)).find? (fun t => !s.got.contains t)).getD 0))

/-- ACKED of a section: what the stage and every child that counts hold (R339). -/
def Flow.ackedOf (f : Flow) (key : Nat) : Nat :=
  f.children.foldl (fun a c => if c.gone then a else min a (kgetD 0 c.acked key)) (kgetD {} f.sects key).heldUnits

/-- Flow `key`'s section replaced. -/
def Flow.setSect (f : Flow) (key : Nat) (s : Section) : Flow := { f with sects := kput f.sects key s }

/-! ## Freeing stage tiles (R321, R339) -/

/-- More units than any section has: the member needs nothing further of it. -/
def servedAll : Nat := 2 ^ 32

/-- Whether tile `t` of a section may be freed: delivered to every member it holds units of, and acknowledged by every
child that counts. -/
def Flow.tileDone (f : Flow) (e : Layer) (key t : Nat) (s : Section) : Bool :=
  let ms := f.membersOf (f.feeder (key % 16))
  let stop := min s.units (16 * (t + 1))
  s.has t
    && (List.range ms.length).all (fun j =>
      let lo := j * e.shardUnits
      let hi := lo + e.shardUnits
      hi ≤ 16 * t || stop ≤ lo || min hi stop - lo ≤ kgetD 0 s.served (ms.getD j 0))
    && f.children.all (fun c => c.gone || stop ≤ kgetD 0 c.acked key)

/-- The first tile from `t` on that may not be freed. -/
def Flow.freeTo (f : Flow) (e : Layer) (key : Nat) (s : Section) : (fuel : Nat) → (t : Nat) → Nat
  | 0, t => t
  | n + 1, t => if t < s.units / 16 && f.tileDone e key t s then f.freeTo e key s n (t + 1) else t

/-- The tiles of a RING stage that may be freed are freed; a section freed whole is gone. -/
def Module.freeStage (m : Module) (p key : Nat) : Module :=
  let f := m.flow key
  if f.resident then m
  else
    let sects := kmapv (fun k s =>
      { s with freed := f.freeTo (m.layer p s.layer) k s (s.units / 16 + 1) s.freed }) f.sects
    m.setFlow key { f with sects := sects.filter (fun e => e.2.freed < e.2.units / 16) }

/-! ## Feeders (R327, R333, R336) -/

/-- RANGE_LO of the list region of a member's tail (R177, R332). -/
def Module.rangeLo (m : Module) (p key member : Nat) : Nat :=
  (m.cores.findSome? (fun e =>
    if (m.part p).hasCore e.1 then
      (e.2.wins.find? (fun w => w.2.tail && w.2.flow = key % 256 && w.2.member = member)).map
        (fun w => readLE e.2.sram (w.2.listAddr + 2) 2)
    else none)).getD 0

/-- The unit of its section that unit `j` of a window pull asks for; none while its block has not come. -/
def Module.pulledUnit (m : Module) (p : Nat) (w : WinPull) (j : Nat) : Option Nat :=
  let f := m.flow w.flow
  let e := m.layer p w.layer
  let base := (f.membersOf w.feeder).idxOf w.member * e.shardUnits
  if w.predicted then
    let n := max 1 e.blockUnits
    (w.blocks[j / n]?).map (fun b => base + (b - m.rangeLo p w.flow w.member) * n + j % n)
  else some (base + j)

/-- The section key of a window pull. -/
def WinPull.key (w : WinPull) (f : Flow) : Nat :=
  16 * (if f.resident then w.seqNo % max 1 f.count else w.seqNo) + f.feeders.idxOf w.feeder

/-- What a feeder finds for a unit: its bytes, nothing yet, or a failure (R282). -/
inductive UnitRead where
  | bytes (m : Module) (bs : List Byte)
  | wait (m : Module)
  | bad (m : Module) (code sub detail : Nat)

/-- Bytes that feeder `die` of a flow reads from Terourn space, decoded. -/
def Module.feederRead (m : Module) (key die addr n : Nat) : UnitRead :=
  match m.reach (.feeder key die) addr n with
  | .wait m => .wait m
  | .fail m code sub detail => .bad m code sub detail
  | .here m =>
    match m.load? addr n with
    | some bs => .bytes m bs
    | none => .bad m 0x0203 0 0

/-- The Terourn address of unit `u` of a member's veneer (R314). -/
def Module.veneerAddr (m : Module) (p member u : Nat) (e : Layer) : Nat :=
  let o : TierObj := kgetD {} m.tier.objects (4096 * p + e.veneerObj)
  o.base * pageBytes + (e.veneerBase + member * e.veneerUnits + u) * 4096

/-- Unit `u` of a section for a window pull: from the veneer, from the tiles of a bypassed fill, or from the stage. -/
def Module.readUnit (m : Module) (p : Nat) (w : WinPull) (u : Nat) : UnitRead :=
  let f := m.flow w.flow
  if w.veneer then m.feederRead w.flow w.feeder (m.veneerAddr p w.member u (m.layer p w.layer)) 4096
  else if w.bypass then
    match kget? w.tiles (u / 16) with
    | some bs => .bytes m (slice bs (u % 16 * 4096) 4096)
    | none => .wait m
  else
    match kget? f.sects (w.key f) with
    | none => .wait m
    | some s =>
      if s.has (u / 16) then m.feederRead w.flow w.feeder (m.stageAddr p f w.feeder (s.place + u / 16) + u % 16 * 4096) 4096
      else .wait m

/-- Units delivered of a section to a member; of a section that the stage does not hold yet they are kept until it does. -/
def Module.noteServed (m : Module) (w : WinPull) (n : Nat) : Module :=
  let f := m.flow w.flow
  let key := w.key f
  if (kget? f.sects key).isSome then
    m.setFlow w.flow { f with sects := kupd f.sects key (fun s => { s with served := kput s.served w.member n }) }
  else if f.pos ≤ key then m.setFlow w.flow { f with early := kmod [] f.early key (fun x => kput x w.member n) }
  else m

/-- A PSP PULL (R309, R322) of the flow's parent, and its record. -/
def Module.sendPull (m : Module) (p key : Nat) (x : Pull) : Module :=
  let f := m.flow key
  let s : Section := kgetD {} f.sects x.key
  let e := m.layer p (f.layerNo (x.key / 16))
  let units := if s.units = 0 then f.sectionUnits e (x.key % 16) else s.units
  m.sendPsp (portOfRing f.portDie) f.parent 1 (x.unit + x.count = units) f.stream e.src (x.key % 16) x.unit x.count 0
    (leBytes 4 x.acked)

/-- A new PULL is sent and outstanding; data of its range is no longer that of a forgotten one. -/
def Module.newPull (m : Module) (p key : Nat) (x : Pull) : Module :=
  let f := m.flow key
  let x := { x with acked := f.ackedOf x.key, at_ := m.now, last := m.now }
  let again (y : Pull) : Bool := y.key = x.key && x.unit < y.unit + y.count && y.unit < x.unit + x.count
  (m.sendPull p key x).setFlow key { f with pulls := f.pulls ++ [x], forgot := f.forgot.filter (fun y => !again y) }

/-- Whether the traffic at a feeder, as it last knew it, lets a fill be bypassed (R333). -/
def Module.bypassOpen (m : Module) (die : Nat) : Bool :=
  let (cycles, permille) := kgetD (0, 1000) m.str.loads die
  max 1 (fld m.str.bypass 0 16) ≤ cycles && permille < fld m.str.bypass 16 10

/-- A window pull that reaches the head of its member's queue: the feeder's choice, once, of a bypassed fill (R333) asks the
ingress die for the tiles of the pull's units, outside stage credits. -/
def Module.headPull (m : Module) (p : Nat) (w : WinPull) : Module × WinPull :=
  let f := m.flow w.flow
  if w.choose && (m.part p).bypass && m.bypassOpen w.feeder && !w.predicted && (!f.tine || !f.resident) && w.units ≠ 0 then
    let e := m.layer p w.layer
    let base := (f.membersOf w.feeder).idxOf w.member * e.shardUnits
    let lo := base / 16 * 16
    let hi := min (16 * ceilDiv (base + w.units) 16) (f.sectionUnits e (f.feeders.idxOf w.feeder))
    let m := m.newPull p w.flow { key := w.key f, unit := lo, count := hi - lo, at_ := 0, last := 0,
                                  bypass := some (w.member, w.slot) }
    (m.modPart p (fun x => { x with bypassFills := satN 32 (x.bypassFills + 1) }),
     { w with bypass := true, choose := false })
  else (m, { w with choose := false })

/-- Window pull `w` replaced. -/
def Module.setWinPull (m : Module) (w : WinPull) : Module :=
  { m with str.winPulls := m.str.winPulls.map (fun x =>
      if x.flow = w.flow && x.member = w.member && x.slot = w.slot && x.seqNo = w.seqNo then w else x) }

/-- Window pull `w` is over. -/
def Module.dropWinPull (m : Module) (w : WinPull) : Module :=
  { m with str.winPulls := m.str.winPulls.filter (fun x =>
      !(x.flow = w.flow && x.member = w.member && x.slot = w.slot && x.seqNo = w.seqNo)) }

/-- The feeder serves the pulls of one member in arrival order, as far as the stage holds their units (R327). -/
def Module.feedMember (m : Module) (p key member : Nat) : (fuel : Nat) → Module
  | 0 => m
  | n + 1 =>
    match m.str.winPulls.find? (fun w => w.flow = key && w.member = member) with
    | none => m
    | some w0 =>
      if !m.netOpen p || !(m.part p).taskRunning then m
      else
        let (m, w) := m.headPull p w0
        let m := m.setWinPull w
        if w.units ≤ w.sent then
          if w.more then m
          else if w.veneer then (m.dropWinPull w).feedMember p key member n
          else ((m.noteServed w servedAll).dropWinPull w).feedMember p key member n
        else
          match if w.veneer then some w.sent else m.pulledUnit p w w.sent with
          | none => m
          | some u =>
            match m.readUnit p w u with
            | .wait m => m
            | .bad m code sub detail => m.abortTask p code { Loc.ring w.feeder with sub := sub } detail
            | .bytes m bs =>
              let m := m.ringPacket p w.feeder (kgetD 0 (m.flow key).dataRoute member) 0 0 (flitsOf bs)
              let m := m.setWinPull { w with sent := w.sent + 1 }
              let m := if w.predicted || w.veneer then m else m.noteServed w (w.sent + 1)
              m.feedMember p key member n

/-- Steps of one feeding: every slot's pull has at most 512 units. -/
def feedFuel : Nat := 20_000

/-- A feeder serves all its members, and stage tiles are freed. -/
def Module.feed (m : Module) (p key feeder : Nat) : Module :=
  (((m.flow key).membersOf feeder).foldl (fun m x => m.feedMember p key x feedFuel) m).freeStage p key

/-- Every feeder of every flow of partition `p` goes on. -/
def Module.feedAll (m : Module) (p : Nat) : Module :=
  (m.str.flows.filter (fun e => e.1 / 256 = p && !e.2.ret)).foldl (fun m e =>
    e.2.feeders.foldl (fun m d => m.feed p e.1 d) m) m

/-! ## Tine children (R338 to R340) -/

/-- Child `c` of a flow replaced, by address. -/
def Flow.setChild (f : Flow) (c : Child) : Flow :=
  { f with children := f.children.map (fun x => if x.mac = c.mac then c else x) }

/-- One DATA message of one tile to a child, as the stage holds it (R310, log 22). -/
def Module.sendTile (m : Module) (p key : Nat) (c : Child) (sk u : Nat) : Module :=
  let f := m.flow key
  let s : Section := kgetD {} f.sects sk
  let e := m.layer p s.layer
  let a := m.stageAddr p f (f.feeder (sk % 16)) (s.place + u / 16)
  let pg := a / pageBytes
  let x := m.slot pg (a % pageBytes / tileBytes)
  let t := u / 16 % 32
  let payload := if m.packed pg (a % pageBytes / tileBytes) then
      transitOf (tileHeader (bodyLenOf x) e.width 0xFFFF e.src t) (slice x 32 (bodyLenOf x))
    else rawTransit e.width 0xFFFF e.src t x
  let (q, m) := m.nextPspSeq f.stream
  let (n, m) := m.nextMsg (pspKey f.stream)
  m.sendChunk {
    port := c.port, mac := c.mac, etype := m.str.ethertype, vc := f.vc, chan := f.stream, msg := n, chunk := 0
    last := true, aux := 0, payload := payload, at_ := 0, owner := .child p key c.mac
    upper := pspHeader 2 (s.units ≤ u + 16) f.stream e.src (sk % 16) u (min 16 (s.units - u)) 0 q }

/-- A child's waiting ranges are served from the stage as far as it holds them; a stage tile that cannot be read aborts (R282, R338). -/
def Module.serveChild (m : Module) (p key mac : Nat) : (fuel : Nat) → Module
  | 0 => m
  | n + 1 =>
    let f := m.flow key
    match f.children.find? (fun c => c.mac = mac) with
    | none => m
    | some c =>
      match c.wants with
      | [] => m
      | (sk, u, stop) :: rest =>
        if stop ≤ u then (m.setFlow key (f.setChild { c with wants := rest })).serveChild p key mac n
        else
          match kget? f.sects sk with
          | none => m
          | some s =>
            if s.has (u / 16) then
              let die := f.feeder (sk % 16)
              match m.reach (.child key mac) (m.stageAddr p f die (s.place + u / 16)) tileBytes with
              | .wait m => m
              | .fail m code sub detail => m.abortTask p code { Loc.ring die with sub := sub } detail
              | .here m =>
                let m := m.sendTile p key c sk u
                let f := m.flow key
                (m.setFlow key (f.setChild { c with wants := (sk, u + 16, stop) :: rest })).serveChild p key mac n
            else m

/-- Every child is served. -/
def Module.serveChildren (m : Module) (p key : Nat) : Module :=
  (m.flow key).children.foldl (fun m c => m.serveChild p key c.mac 20_000) m

/-- The number in the sequence, from `n` down by at most `fuel`, of a layer that the source knows as `src`. -/
def Module.layerBack (m : Module) (p : Nat) (f : Flow) (src : Nat) : (fuel n : Nat) → Option Nat
  | 0, _ => none
  | k + 1, n =>
    if (m.layer p (f.layerNo n)).src = src then some n else if n = 0 then none else m.layerBack p f src k (n - 1)

/-- The section a child's PULL names (R338; DESIGN CHOICE, log 119): the PULL tells the layer by its SRC_LAYER alone, which may come again
in the sequence. Of a child that has asked before, it is the last such section it asked for, unless it has acknowledged all of that, and
else the next one after; of a new child it is the one the stage holds, else the last one it held, else the first to come. -/
def Module.childKey (m : Module) (p : Nat) (f : Flow) (c : Child) (src sect : Nat) : Nat :=
  let span := 2 * max 1 f.count
  let next (n : Nat) : Nat := ((List.range span).find? (fun i => (m.layer p (f.layerNo (n + i))).src = src)).getD 0 + n
  let sure (last : Option Nat) : Nat :=
    match last with
    | none => 16 * next 0 + sect
    | some n =>
      let k := 16 * n + sect
      if f.resident || kgetD 0 c.acked k < f.sectionUnits (m.layer p (f.layerNo n)) sect then k else 16 * next (n + 1) + sect
  let before (k : Nat) : Option Nat := if k < sect then none else m.layerBack p f src span ((k - sect) / 16)
  if c.acked ≠ [] then sure (before c.top)
  else
    match f.sects.find? (fun e => e.1 % 16 = sect && (m.layer p e.2.layer).src = src) with
    | some e => e.1
    | none => sure (if f.pos = 0 then none else before (f.pos - 1))

/-- The flow of a PSP stream: STREAM flows and return flows of partitions that are not OFF. -/
def Module.flowOf (m : Module) (stream : Nat) (ret : Bool) : Option Nat :=
  (m.str.flows.find? (fun e => e.2.stream = stream && e.2.ret = ret && (m.part (e.1 / 256)).st ≠ .off)).map Prod.fst

/-- A STATUS message (R309). -/
def Module.sendStatus (m : Module) (port mac stream src sect unit count status : Nat) : Module :=
  m.sendPsp port mac 3 false stream src sect unit count status []

/-- A PULL from a child of flow `key` (R338, R339): a sender outside CHILD_MAC is adopted (R340). The answer leaves by the flow's ingress
die, whatever port the PULL came on. -/
def Module.pullFromChild (m : Module) (key mac src sect unit count acked : Nat) : Module :=
  let p := key / 256
  let f := m.flow key
  let i := (List.range f.count).find? (fun i => (m.layer p (f.first + i)).src = src)
  let units := match i with
    | some i => f.sectionUnits (m.layer p (f.first + i)) sect
    | none => 0
  if i.isNone || f.feeders.length ≤ sect || count = 0 || unit % 16 ≠ 0 || units < unit + count
      || (count % 16 ≠ 0 && unit + count ≠ units) then
    m.sendStatus (portOfRing f.portDie) mac f.stream src sect unit count 2
  else
    let port := portOfRing f.portDie
    let f := if f.children.any (fun c => c.mac = mac) then f
      else { f with children := f.children ++ [{ mac := mac, port := port }] }
    let c := (f.children.find? (fun c => c.mac = mac)).getD { mac := mac }
    let sk := m.childKey p f c src sect
    let freed : Bool := match kget? f.sects sk with
      | some s => unit / 16 < s.freed
      | none => sk < f.pos && !f.resident
    let c := { c with port := port, lastAt := m.now, silentAt := none, gone := false, acked := kput c.acked sk acked, top := max c.top sk }
    if freed then
      ((m.setFlow key (f.setChild c)).sendStatus port mac f.stream src sect unit count 3).freeStage p key
    else
      let c := { c with wants := c.wants ++ [(sk, unit, unit + count)] }
      ((m.setFlow key (f.setChild c)).serveChild p key mac 20_000).freeStage p key

/-! ## The ingress die (R311, R322) -/

/-- Free tiles of the stage at a feeder (R321, R322). -/
def Flow.freeTiles (f : Flow) (i : Nat) : Nat :=
  if f.resident then 2 ^ 28
  else
    let a := kgetD 0 f.alloc i
    let low := (f.sects.filter (fun e => e.1 % 16 = i)).foldl (fun x e => min x (e.2.place + e.2.freed)) a
    f.stageTiles - (a - low)

/-- The position after section key `pos`: the next section, or section 0 of the next layer. -/
def Flow.nextPos (f : Flow) (pos : Nat) : Nat :=
  if pos % 16 + 1 < f.feeders.length then pos + 1 else 16 * (pos / 16 + 1)

/-- The first section from `pos` on that a RESIDENT stage does not hold complete. -/
def Flow.skipHeld (f : Flow) : (fuel : Nat) → (pos : Nat) → Nat
  | 0, pos => pos
  | n + 1, pos =>
    match kget? f.sects pos with
    | some s => if f.resident && s.complete then f.skipHeld n (f.nextPos pos) else pos
    | none => pos

/-- STAGE_PULL_ISSUE: the PULL of the next section, once the stage of its feeder `sect` has free tiles (R322). -/
def doStagePullIssue (p i sect : Nat) (m : Module) : Module :=
  let key := 256 * p + i
  match kget? m.str.flows key with
  | none => m
  | some f =>
    let pos := f.skipHeld (16 * (f.count + 1)) f.pos
    let free := f.freeTiles sect
    if f.ret || f.feeders.isEmpty || !(m.part p).taskRunning || pos % 16 ≠ sect || free = 0
        || (m.part p).krf.phase = .dumping || (f.resident && f.count ≤ pos / 16) then m
    else
      let e := m.layer p (f.layerNo (pos / 16))
      let s : Section := (kget? f.sects pos).getD {
        layer := f.layerNo (pos / 16)
        units := f.sectionUnits e sect
        served := kgetD [] f.early pos
        place := if f.resident then m.residentPlace p f sect (pos / 16) else kgetD 0 f.alloc sect }
      let count := min (16 * free) (s.units - s.next)
      let s := { s with next := s.next + count }
      let f := { f.setSect pos s with
        early := f.early.filter (fun e => e.1 ≠ pos)
        alloc := kput f.alloc sect (kgetD 0 f.alloc sect + count / 16)
        pos := if s.units ≤ s.next then f.nextPos pos else pos }
      if count = 0 then m.setFlow key f
      else (m.setFlow key f).newPull p key { key := pos, unit := s.next - count, count := count, at_ := 0, last := 0 }

/-- What the receiver of a chunk answers (R361, R362). -/
inductive Answer where
  | ack | nak | wait | silent
deriving DecidableEq, Repr

/-- A PSP header with VERSION 1, an assigned TYPE and a right HCRC (R311). -/
def pspOk (h : List Byte) : Bool :=
  let x := leNat (h.take 32)
  sealOk 32 h && fld x 0 8 = 1 && 1 ≤ fld x 8 8 && fld x 8 8 ≤ 9

/-- A message with a bad PSP header is counted (R311). -/
def Module.badPsp (m : Module) : Module := { m with str.badHeader := satN 32 (m.str.badHeader + 1) }

/-- A message of an unknown stream is counted (R311). -/
def Module.unknownStream (m : Module) : Module := { m with str.noStream := satN 32 (m.str.noStream + 1) }

/-- Whether a PULL names unit `u` of a section with the given SRC_LAYER. -/
def Module.pullNames (m : Module) (p : Nat) (f : Flow) (src sect u : Nat) (x : Pull) : Bool :=
  x.key % 16 = sect && x.unit ≤ u && u < x.unit + x.count && (m.layer p (f.layerNo (x.key / 16))).src = src

/-- Whether every tile a PULL asks for has come. -/
def Module.pullFilled (m : Module) (key : Nat) (x : Pull) : Bool :=
  let f := m.flow key
  let ts := (List.range (ceilDiv x.count 16)).map (fun i => x.unit / 16 + i)
  match x.bypass with
  | none =>
    match kget? f.sects x.key with
    | some s => ts.all (fun t => s.got.contains t)
    | none => true
  | some (mem, slot) =>
    match m.str.winPulls.find? (fun w => w.flow = key && w.member = mem && w.slot = slot && w.bypass) with
    | some w => ts.all (fun t => (kget? w.tiles t).isSome)
    | none => true

/-- A checked tile of a bypassed fill passes to its feeder. -/
def Module.bypassTile (m : Module) (key mem slot t : Nat) (bs : List Byte) : Module :=
  { m with str.winPulls := m.str.winPulls.map (fun w =>
      if w.flow = key && w.member = mem && w.slot = slot && w.bypass then { w with tiles := kput w.tiles t bs } else w) }

/-- A checked tile is written to its feeder's stage in stored form, its header made that of its place (R321); false where the write waits. -/
def Module.stageTile (m : Module) (p key sk t : Nat) (payload : List Byte) : Module × Bool :=
  let f := m.flow key
  let s : Section := kgetD {} f.sects sk
  let a := m.stageAddr p f (f.feeder (sk % 16)) (s.place + t)
  let pg := a / pageBytes
  let i := a % pageBytes / tileBytes
  let (k, o) := m.objOf pg
  let len := bodyLenOf payload
  let body := slice payload 64 len
  let put (m : Module) : Module :=
    if len = tileBytes then m.putSlot pg i body true else m.putSlot pg i (tileHeader len o.width k (pg - o.base) i ++ body) false
  if m.storeFails pg then (m.abortTask p 0x0202 (.ring (f.feeder (sk % 16))), true)
  else
    match m.storeWith pg [i] (.stage key) put with
    | (m, false) => (m, false)
    | (m, true) => (m.setFlow key ((m.flow key).setSect sk { s with got := s.got ++ [t] }), true)

/-- PULLs whose tiles have all come are no longer outstanding. -/
def Module.closePulls (m : Module) (key : Nat) : Module :=
  let f := m.flow key
  m.setFlow key { f with pulls := f.pulls.filter (fun x => !m.pullFilled key x) }

/-- A tile of a DATA message reaches the ingress die of flow `key` (R311, R321): `u` is its first unit. -/
def Module.dataTile (m : Module) (key src sect u : Nat) (payload : List Byte) : Module × Answer :=
  let p := key / 256
  let f := m.flow key
  let loc := Loc.ring f.portDie
  match f.pulls.find? (m.pullNames p f src sect u) with
  | none =>
    let held : Bool := f.forgot.any (m.pullNames p f src sect u)
      || f.sects.any (fun e => e.1 % 16 = sect && (m.layer p e.2.layer).src = src && e.2.got.contains (u / 16))
    (if held then m else m.abortTask p 0x0204 loc, .ack)
  | some x =>
    let e := m.layer p (f.layerNo (x.key / 16))
    match readTransit e.width 0xFFFF src (u / 16 % 32) payload with
    | none => (m.abortTask p 0x0203 loc, .ack)
    | some (bs, _) =>
      let m := m.setFlow key { f with pulls := f.pulls.map (fun y =>
        if m.pullNames p f src sect u y then { y with last := m.now } else y) }
      let m := (f.pulls.filter (fun y => m.pullNames p f src sect u y && y.bypass.isSome)).foldl (fun m y =>
        match y.bypass with
        | some (mem, slot) => m.bypassTile key mem slot (u / 16) bs
        | none => m) m
      let toStage := (f.pulls.find? (fun y => m.pullNames p f src sect u y && y.bypass.isNone)).map (fun y => y.key)
      let stored : Module × Bool := match toStage with
        | none => (m, true)
        | some sk =>
          if (kgetD {} (m.flow key).sects sk).got.contains (u / 16) then (m, true)
          else m.stageTile p key sk (u / 16) payload
      match stored with
      | (m, false) => (m, .wait)
      | (m, true) => (((m.closePulls key).serveChildren p key).feed p key (f.feeder sect), .ack)

/-- A DATA chunk of a STREAM flow (R311): COUNT and UNIT are checked, and the tile is that of the chunk's number. -/
def Module.dataChunk (m : Module) (key : Nat) (k : Chunk) : Module × Answer :=
  let p := key / 256
  let f := m.flow key
  let h := leNat (k.upper.take 32)
  let unit := fld h 96 32
  let count := fld h 128 32
  let sect := fld h 80 4
  let src := fld h 64 16
  let units := match (List.range f.count).find? (fun i => (m.layer p (f.first + i)).src = src) with
    | some i => f.sectionUnits (m.layer p (f.first + i)) sect
    | none => 0
  if count = 0 || unit % 16 ≠ 0 || (count % 16 ≠ 0 && unit + count ≠ units) || count ≤ 16 * k.chunk then
    (m.abortTask p 0x0204 (.ring f.portDie), .ack)
  else m.dataTile key src sect (unit + 16 * k.chunk) k.payload

/-- A STATUS for a STREAM flow: a nonzero one that answers a PULL aborts (R311). -/
def Module.statusForFlow (m : Module) (key : Nat) (h : Nat) : Module :=
  let p := key / 256
  let f := m.flow key
  if fld h 160 16 ≠ 0 && f.pulls.any (m.pullNames p f (fld h 64 16) (fld h 80 4) (fld h 96 32)) then
    m.abortTask p 0x0202 (.ring f.portDie)
  else m

/-! ## Timers (R311, R312, R339, R340) -/

/-- Milliseconds passed since `t`. -/
def Module.msPassed (m : Module) (t n : Nat) : Bool := n * skMs ≤ m.now - t

/-- A PULL of a flow: 5 ms without DATA for the range it names; the PULL is sent again, unchanged (R312). -/
def Module.flowResend (m : Module) (p i j : Nat) : Module :=
  let key := 256 * p + i
  let f := m.flow key
  match f.pulls[j]? with
  | none => m
  | some x =>
    if !m.msPassed (max x.at_ x.last) 5 then m
    else (m.sendPull p key x).setFlow key { f with pulls := f.pulls.set j { x with at_ := m.now } }

/-- SOURCE_TIMEOUT: no DATA for an outstanding PULL within SRC_MS; a tine child re-parents first (R311, R340). -/
def doSourceTimeout (p i : Nat) (m : Module) : Module :=
  let f := m.flow (256 * p + i)
  if (!f.tine || f.reparented) && f.pulls.any (fun x => m.msPassed x.last (fld m.str.timeouts 0 16)) then
    m.abortTask p 0x0202 (.ring f.portDie)
  else m

/-- REPARENT: a child that has had no DATA for an outstanding PULL for 20 ms turns to its grandparent (R340). -/
def doReparent (p i : Nat) (m : Module) : Module :=
  let key := 256 * p + i
  let f := m.flow key
  if !f.tine || f.reparented || !f.pulls.any (fun x => m.msPassed x.last 20) then m
  else
    let m := m.logEvent 0x0503 (.ring f.portDie) (part := some p) (task := m.taskOf p)
    let m := m.modPart p (fun x => { x with reparents := satN 16 (x.reparents + 1) })
    let pulls := f.pulls.map (fun x => { x with at_ := m.now, last := m.now })
    let m := m.setFlow key { f with parent := f.grand, reparented := true, pulls := pulls }
    pulls.foldl (fun m x => m.sendPull p key x) m

/-- CHILD_SILENT: a child has sent nothing for 20 ms; the parent stops waiting for it (R339). -/
def doChildSilent (p i c : Nat) (m : Module) : Module :=
  let key := 256 * p + i
  let f := m.flow key
  match f.children[c]? with
  | none => m
  | some x =>
    if x.silentAt.isSome || !(m.part p).taskRunning || !m.msPassed x.lastAt 20 then m
    else m.setFlow key (f.setChild { x with silentAt := some m.now, wants := [] })

/-- ADOPT_HOLD_EXPIRY: ADOPT_MS after that, the child's last ACKED holds no tile any more (R339). -/
def doAdoptHoldExpiry (p i c : Nat) (m : Module) : Module :=
  let key := 256 * p + i
  let f := m.flow key
  match f.children[c]? with
  | none => m
  | some x =>
    match x.silentAt with
    | none => m
    | some t =>
      if x.gone || !m.msPassed t (fld m.str.timeouts 16 16) then m
      else (m.setFlow key (f.setChild { x with gone := true })).freeStage p key

/-! ## Window pulls and misses at a feeder (R324, R327, R336) -/

/-- The flow and member whose pulls reach die `die` on a route. -/
def Module.pullRouteAt (m : Module) (p die route : Nat) : Option (Nat × Nat) :=
  m.str.flows.findSome? (fun e =>
    if e.1 / 256 = p then
      match kget? e.2.pullRoute route with
      | some mem => if kgetD 0 e.2.fed mem = die then some (e.1, mem) else none
      | none => none
    else none)

/-- The sequence number of the layer that a window message names. -/
def seqOf (f : Flow) (x : Nat) : Nat := fld x 24 32 * f.count + (fld x 8 16 - f.first)

/-- The slots of a member's windows (R317). -/
def Module.slotsOf (m : Module) (key member : Nat) : Nat :=
  (m.cores.findSome? (fun e =>
    if (m.part (key / 256)).hasCore e.1 then
      (e.2.wins.find? (fun w => w.2.flow = key % 256 && w.2.member = member)).map (fun w => w.2.nslots)
    else none)).getD 3

/-- A MISS meets pull `w` (R336): unsent units are cancelled with a bypassed fill of theirs, SWITCH tells how many went, and where the layer is
not complete the units of the veneer follow. -/
def Module.cutPull (m : Module) (p : Nat) (w : WinPull) (x : Nat) : Module :=
  let f := m.flow w.flow
  let whole : Bool := w.units ≤ w.sent && !w.more
  let m := m.ringControl p w.feeder (kgetD 0 f.dataRoute w.member) (winMsg 3 w.slot w.layer (fld x 24 32) w.sent whole [] false)
  let m := m.noteServed w servedAll
  let f := m.flow w.flow
  let mine (y : Pull) : Bool := y.bypass = some (w.member, w.slot)
  let m := m.setFlow w.flow { f with pulls := f.pulls.filter (fun y => !mine y), forgot := f.forgot ++ f.pulls.filter mine }
  if whole then m.dropWinPull w
  else m.setWinPull { w with veneer := true, units := (m.layer p w.layer).veneerUnits, sent := 0, blocks := [], more := false,
                             choose := false, bypass := false, tiles := [] }

/-- A MISS reaches the feeder (R336). One that comes after the whole pull was sent is answered with COMPLETE = 1; one for a slot pulled again
since is discarded; one that has overtaken its PULL waits for it (DEDUCED, log 120). -/
def Module.missAtFeeder (m : Module) (p die key mem x : Nat) : Module :=
  let f := m.flow key
  let seqNo := seqOf f x
  let due := kgetD 0 f.pulledTo mem
  match m.str.winPulls.find? (fun w => w.flow = key && w.member = mem && w.seqNo = seqNo) with
  | some w => if w.veneer || w.slot ≠ fld x 4 4 then m else (m.cutPull p w x).feed p key die
  | none =>
    if due ≤ seqNo then m.setFlow key { f with misses := f.misses ++ [(mem, x)] }
    else if seqNo + m.slotsOf key mem < due then m
    else m.ringControl p die (kgetD 0 f.dataRoute mem) (winMsg 3 (fld x 4 4) (fld x 8 16) (fld x 24 32) (fld x 56 10) true [] false)

/-- The window pull of a PULL message (R324). -/
def Module.winPullOf (m : Module) (p die key mem x : Nat) : WinPull :=
  let f := m.flow key
  { flow := key, feeder := die, member := mem, slot := fld x 4 4, layer := fld x 8 16, seqNo := seqOf f x, units := fld x 56 10
    blocks := (List.range (fld x 67 4)).map (fun i => fld x (96 + 32 * i) 16)
    predicted := (m.layer p (fld x 8 16)).predicted, more := bitAt x 71, choose := true }

/-- A new pull queued; a MISS that came before it meets it. -/
def Module.queuePull (m : Module) (p : Nat) (y : WinPull) : Module :=
  let f := m.flow y.flow
  let mine (e : Nat × Nat) : Bool := e.1 = y.member && seqOf f e.2 = y.seqNo
  let m := { m with str.winPulls := m.str.winPulls ++ [y] }.setFlow y.flow
    { f with pulledTo := kput f.pulledTo y.member (y.seqNo + 1), misses := f.misses.filter (fun e => !mine e) }
  match f.misses.find? mine with
  | some e => (m.cutPull p y e.2).feed p y.flow y.feeder
  | none => m.feed p y.flow y.feeder

/-- A PULL of member `mem` reaches its feeder: queued, or its further blocks are added (R327). Further blocks of a pull that a MISS has cut are
of no use. -/
def Module.pullAtFeeder (m : Module) (p die key mem x : Nat) : Module :=
  let y := m.winPullOf p die key mem x
  match (m.str.winPulls.filter (fun w => w.flow = key && w.member = mem && w.more)).getLast? with
  | some w => (m.setWinPull { w with blocks := w.blocks ++ y.blocks, more := y.more }).feed p key die
  | none => if y.seqNo < kgetD 0 (m.flow key).pulledTo mem then m else m.queuePull p y

/-- A message on a member's pull route reaches its feeder (R324): an unassigned OP or a reserved bit is a slip. What an ended task left in
flight is discarded (R341). -/
def Module.windowAtFeeder (m : Module) (p die key mem : Nat) (f : Flight) : Module :=
  let x := f.msg
  if !(m.part p).taskRunning then m
  else if !winMsgOk x || fld x 0 4 = 3 then m.slip p 0x0301 (ringSite die) 5 f.route
  else if fld x 0 4 = 1 then m.pullAtFeeder p die key mem x
  else m.missAtFeeder p die key mem x

end Sys2Proof.Machine
end

