-- ==== Sys2Proof/Machine/KerfMap.lean ====
section
/-! DEFINITION. Kerf maps, shards and the area of a kerf (R422 to R425, R431 to R436). -/

namespace Sys2Proof.Machine

open Sys2Proof

/-- One region entry of a kerf map (R423). -/
structure KRegion where
  tensor : Nat := 0
  fmt : Nat := 0
  loc1 : Bool := false
  stash : Bool := false
  row0 : Nat := 0
  rows : Nat := 1
  col0 : Nat := 0
  cols : Nat := 1
  core : Nat := 0
  addr : Nat := 0
  stride : Nat := 0
deriving DecidableEq, Repr

/-- A region entry from its 64 bytes. -/
def regionOf (bs : List Byte) : KRegion :=
  let x := leNat bs
  { tensor := fld x 0 32, fmt := fld x 32 4, loc1 := bitAt x 36, stash := bitAt x 37, row0 := fld x 64 32
    rows := fld x 96 32, col0 := fld x 128 32, cols := fld x 160 32, core := fld x 192 15, addr := fld x 224 56
    stride := fld x 288 22 }

/-- Whether a region entry has a reserved bit set or a field outside its range (R424). -/
def regionMalformed (bs : List Byte) : Bool :=
  let x := leNat bs
  let r := regionOf bs
  fld x 38 26 ≠ 0 || fld x 207 17 ≠ 0 || fld x 280 8 ≠ 0 || fld x 310 202 ≠ 0 || 0xFFFF_FFEF < r.tensor || 7 < r.fmt
    || r.rows = 0 || r.cols = 0 || 19600 ≤ r.core || (r.loc1 && (r.core ≠ 0 || r.stride ≠ 0))

/-- The regions of a map. -/
def mapRegions (map : List Byte) : List KRegion := (chunksOf 64 (map.length / 64) (map.drop 64)).map regionOf
/-- JOB_ID, JIG_DIGEST and IMAGE_OBJ of a map's header (R422). -/
def mapJob (map : List Byte) : Nat := leAt map 8 8
def mapDigest (map : List Byte) : Digest := digestOf (slice map 16 32)
def mapImage (map : List Byte) : Nat := fld (leAt map 48 2) 0 12

/-- Whether a map is malformed: CRC, MAGIC, a reserved bit, a field outside its range, or a length other than its regions
give (R422, R424). -/
def mapMalformed (map : List Byte) (len : Nat) : Bool :=
  let h := leNat (map.take 64)
  map.length < 64 || fld h 0 32 ≠ 0x5041_4D4B || !sealOk 64 map || fld h 396 52 ≠ 0
    || crc32c (map.drop 64) ≠ fld h 448 32 || fld h 32 32 = 0 || 4_194_304 < fld h 32 32
    || len ≠ 64 + 64 * fld h 32 32 || map.length ≠ len
    || (chunksOf 64 (map.length / 64) (map.drop 64)).any regionMalformed

/-- Bits of an element of a region. -/
def KRegion.bits (r : KRegion) : Nat := (fmtOf r.fmt).bits
/-- Bytes of a row. -/
def KRegion.rowBytes (r : KRegion) : Nat := r.cols * r.bits / 8
/-- Canonical bytes of a region. -/
def KRegion.size (r : KRegion) : Nat := r.rows * r.rowBytes
/-- Whether a region is written narrowed (R431). -/
def KRegion.narrowed (x : Part) (r : KRegion) : Bool := x.narrow && r.stash && r.fmt = 4

/-- Whether a region breaks R423 or, in a take, R431. -/
def Module.regionBad (m : Module) (p : Nat) (take : Bool) (r : KRegion) : Bool :=
  let x := m.part p
  r.col0 * r.bits % 8 ≠ 0 || r.cols * r.bits % 8 ≠ 0 || (take && r.narrowed x && (r.col0 % 32 ≠ 0 || r.cols % 32 ≠ 0))
    || (if r.loc1 then
          r.addr % tileBytes ≠ 0 || r.size % tileBytes ≠ 0
            || (match m.objAt (r.addr / pageBytes) with
                | some (k, o) => k / 4096 ≠ p || (o.base + o.pages) * pageBytes < r.addr + r.size
                | none => true)
        else
          r.stride < r.rowBytes || !x.hasCore r.core || m.hole r.core
            || sramBytes < r.addr + (r.rows - 1) * r.stride + r.rowBytes)

/-- Offsets of the LOC 0 regions in IMAGE_OBJ, each on a 64 KiB boundary, and the bytes they take (R424). -/
def imageOffsets : List KRegion → (at_ : Nat) → List (KRegion × Nat) × Nat
  | [], n => ([], n)
  | r :: t, n =>
    let next := if r.loc1 then n else n + tileBytes * ceilDiv r.size tileBytes
    let (xs, e) := imageOffsets t next
    ((r, n) :: xs, e)

/-- The fault of a map at a kerf command's entry: code and INFO, or none (R424). -/
def Module.mapFault (m : Module) (p : Nat) (take : Bool) (map : List Byte) (len : Nat) : Option (Nat × Nat) :=
  if mapMalformed map len then some (0x0603, 3)
  else
    let rs := mapRegions map
    if rs.any (m.regionBad p take) then some (0x0602, 0)
    else
      let need := (imageOffsets rs 0).2
      let o : TierObj := kgetD { pages := 0 } m.tier.objects (4096 * p + mapImage map)
      if need ≠ 0 && o.pages * pageBytes < need then some (0x0602, 0) else none

/-! ## Shards (R432, R435, R436) -/

/-- Where a shard's bytes come from: a Terourn address, or a record kind with its first key. -/
inductive ShardSrc where
  | tier (addr : Nat)
  | partRec
  | sessions
  | cores (first : Nat)
  | herds
  | lists
  | flows
deriving DecidableEq, Repr

/-- One shard of a kerf: the fields of its entry but for POOL_ADDR, and its source. -/
structure KShard where
  tensor : Nat := 0
  fmt : Nat := 3
  narrowed : Bool := false
  width : Nat := 0
  row0 : Nat := 0
  rows : Nat := 1
  col0 : Nat := 0
  cols : Nat := 1
  src : ShardSrc := .partRec
deriving DecidableEq, Repr

/-- Bytes of a shard in canonical form, before narrowing. -/
def KShard.srcSize (s : KShard) : Nat := s.rows * (s.cols * (fmtOf s.fmt).bits / 8)
/-- Bytes of a shard as the pool holds it (R431). -/
def KShard.size (s : KShard) : Nat := if s.narrowed then s.rows * s.cols + s.rows * s.cols / 32 else s.srcSize
/-- Pool tiles of a shard. -/
def KShard.tiles (s : KShard) : Nat := ceilDiv s.size tileBytes

/-- WIDTH of a shard by element bits (R432). -/
def widthOfBits (bits : Nat) : Nat := if bits ≤ 8 then 0 else if bits = 16 then 1 else 2

/-- The shard of a region, its source at a Terourn address (R432). -/
def Module.regionShard (m : Module) (p : Nat) (r : KRegion) (addr : Nat) : KShard :=
  let n := r.narrowed (m.part p)
  let w := match m.objAt (addr / pageBytes) with
    | some (_, o) => if o.compress then o.width else if n then 0 else widthOfBits r.bits
    | none => if n then 0 else widthOfBits r.bits
  { tensor := r.tensor, fmt := r.fmt, narrowed := n, width := w, row0 := r.row0, rows := r.rows, col0 := r.col0
    cols := r.cols, src := .tier addr }

/-- SESSION_CAP (R410). -/
def Part.sessionCap (x : Part) : Nat := x.quota - x.used

/-- Herds of a partition's jig. -/
def Module.herdCount (m : Module) (p : Nat) : Nat := (m.herds.filter (fun e => e.1 / 4096 = p)).length
/-- Flows of a partition's jig. -/
def Module.flowCount (m : Module) (p : Nat) : Nat := (m.str.flows.filter (fun e => e.1 / 256 = p)).length
/-- Whether a core of partition `p` has a window with a list region. -/
def Module.hasLists (m : Module) (p : Nat) : Bool :=
  m.cores.any (fun e => (m.part p).hasCore e.1 && e.2.wins.any (fun w => w.2.listValid))

/-- The record shards of a kerf (R436): one core shard for each core row of the rectangle (log 23). -/
def Module.recordShards (m : Module) (p : Nat) (gate : Bool) : List KShard :=
  let x := m.part p
  let rec1 : KShard := { tensor := 0xFFFF_FFF0, rows := 1, cols := 768, src := .partRec }
  let sess : KShard := { tensor := 0xFFFF_FFF1, rows := x.sessionCap, cols := 64, src := .sessions }
  let cores : List KShard := (List.range (7 * x.ch)).map (fun j =>
    { tensor := 0xFFFF_FFF2, row0 := 140 * (7 * x.cy + j) + 7 * x.cx, rows := 7 * x.cw, cols := 65536,
      src := .cores (140 * (7 * x.cy + j) + 7 * x.cx) })
  let herds : KShard := { tensor := 0xFFFF_FFF3, rows := m.herdCount p, cols := 512, src := .herds }
  let lists : KShard := { tensor := 0xFFFF_FFF4, rows := if m.hasLists p then x.windows else 0, cols := 72, src := .lists }
  let flows : KShard := { tensor := 0xFFFF_FFF5, rows := m.flowCount p, cols := 8, src := .flows }
  ([rec1, sess] ++ (if gate then cores ++ [herds] else []) ++ [lists] ++ (if gate then [flows] else [])).filter
    (fun s => s.rows ≠ 0)

/-- Every shard of a kerf of partition `p` under a map, in manifest order. -/
def Module.kerfShards (m : Module) (p : Nat) (map : List Byte) (gate : Bool) : List KShard :=
  let o : TierObj := kgetD {} m.tier.objects (4096 * p + mapImage map)
  ((imageOffsets (mapRegions map) 0).1.map (fun e =>
    m.regionShard p e.1 (if e.1.loc1 then e.1.addr else o.base * pageBytes + e.2))) ++ m.recordShards p gate

/-- Manifest tiles of a kerf (R432). -/
def manifestTiles (shards : Nat) : Nat := ceilDiv (132 + 64 * shards) tileBytes

/-- Tiles of a kerf's area. -/
def areaTiles (ss : List KShard) : Nat := ss.foldl (fun a s => a + s.tiles) (manifestTiles ss.length)

end Sys2Proof.Machine
end

