-- ==== Sys2Proof/Machine/Queues.lean ====
section
/-! DEFINITION. Command queues, fences, completions, partition commands, copies, sessions and the decode batcher (R393 to
R418). -/

namespace Sys2Proof.Machine

open Sys2Proof

/-! ## Queue control (R394 to R396, R400) -/

/-- LOC of a queue's submission ring: Terourn space. -/
def Queue.terourn (x : Queue) : Bool := bitAt x.sqBase 0
/-- The address of a ring register, bits [63:12]. -/
def ringAddr (r : Nat) : Nat := r / 4096 * 4096

/-- The object of a Terourn range, with its key, when one object of partition `p` holds all of it. -/
def Module.objRange (m : Module) (p addr n : Nat) : Option (Nat × TierObj) :=
  match m.objAt (addr / pageBytes) with
  | some (k, o) => if k / 4096 = p && addr + n ≤ (o.base + o.pages) * pageBytes then some (k, o) else none
  | none => none

/-- Whether ENABLE's checks pass (R394). -/
def Module.enableOk (m : Module) (q : Nat) : Bool :=
  let x := m.queue q
  let p := q / 64
  let n := fld x.cfg 0 5
  let c := fld x.cfg 8 5
  4 ≤ n && n ≤ 16 && 4 ≤ c && c ≤ 16
    && (!x.terourn || (fld x.sqBase 56 8 = 0 && (m.part p).st ≠ .off
      && (match m.objRange p (ringAddr x.sqBase) (64 * 2 ^ n), m.objRange p x.tailAddr 4 with
          | some (k, o), some (k', _) => k = k' && o.fast = 1 && o.slow = 1
          | _, _ => false)))

/-- ENABLE of QUE_CTRL (R394). -/
def doEnable (src : Source) (q : Nat) (m : Module) : Module :=
  let x := m.queue q
  if !m.cfgOk src || x.st ≠ .disabled then m
  else if m.enableOk q then
    m.setQueue q { x with st := .active, configErr := false, dbErr := false, stopCode := 0, sqHead := 0, sqTail := 0,
                          cqTail := 0, cqHead := 0, phase := true, desc := none, todo := [] }
  else m.setQueue q { x with configErr := true }

/-- DISABLE of QUE_CTRL (R394): entries that have not started are dropped. -/
def doDisable (src : Source) (q : Nat) (m : Module) : Module :=
  let x := m.queue q
  if !m.cfgOk src || x.st = .disabled || x.st = .disabling then m
  else if x.running || x.todo ≠ [] then
    m.setQueue q { x with st := .disabling, waiting := false, passed := false, stopCode := 0,
                          desc := if x.running then x.desc else none }
  else m.setQueue q { x with st := .disabled, desc := none, waiting := false, passed := false, stopCode := 0 }

/-- A doorbell of QUE_SQ_TAIL (R396). -/
def doQueSqTail (q : Nat) (v : Word) (m : Module) : Module :=
  let x := m.queue q
  let t := fld v.toNat 0 16
  if x.terourn || x.st = .disabled then m
  else if x.sqSize ≤ t then m.setQueue q { x with dbErr := true }
  else m.setQueue q { x with sqTail := t }

/-- A doorbell of QUE_CQ_HEAD (R396). -/
def doQueCqHead (q : Nat) (v : Word) (m : Module) : Module :=
  let x := m.queue q
  let t := fld v.toNat 0 16
  if x.st = .disabled then m
  else if x.cqSize ≤ t then m.setQueue q { x with dbErr := true }
  else m.setQueue q { x with cqHead := t }

/-- SKIP: the queue is ACTIVE at the next entry (R400). -/
def doSkip (_src : Source) (q : Nat) (m : Module) : Module :=
  let x := m.queue q
  if x.st ≠ .stopped then m
  else m.setQueue q { x with st := .active, stopCode := 0, sqHead := (x.sqHead + 1) % x.sqSize }

/-- RETRY: the stopped entry is fetched again (R400). -/
def doRetry (_src : Source) (q : Nat) (m : Module) : Module :=
  let x := m.queue q
  if x.st ≠ .stopped then m else m.setQueue q { x with st := .active, stopCode := 0 }

/-- TAIL_WORD_POLL: the tail of a Terourn ring is read (R393). A tail beyond the ring is ignored and sets DB_ERR
(DEDUCED, log 24). -/
def doTailWordPoll (q : Nat) (m : Module) : Module :=
  let x := m.queue q
  if x.st ≠ .active || !x.terourn then m
  else
    let t := leNat (m.load x.tailAddr 2)
    if x.sqSize ≤ t then m.setQueue q { x with dbErr := true } else m.setQueue q { x with sqTail := t }

/-! ## Entry (R397, R398, R400) -/

/-- Opcodes that are assigned (R398, R425). -/
def assignedOp (op : Nat) : Bool :=
  [0x00, 0x01, 0x02, 0x03, 0x04, 0x10, 0x11, 0x20, 0x30, 0x31, 0x32, 0x40, 0x41].contains op

/-- The PARAMS bits an opcode does not use (R398, R407, R371, R411, R425, R439). -/
def unusedParams (op x : Nat) : Nat :=
  let ps := fld x 128 256
  match op with
  | 0x10 => fld ps 56 8 + fld ps 160 96
  | 0x11 => fld ps 56 8 + fld ps 160 96
  | 0x20 => fld ps 12 20 + fld ps 56 8 + fld ps 120 8 + fld ps 184 72
  | 0x30 => fld ps 0 20 + fld ps 34 30 + fld ps 96 32 + fld ps 193 63
  | 0x31 => fld ps 18 238
  | 0x32 => fld ps 18 238
  | 0x40 => fld ps 129 63
  | 0x41 => fld ps 140 52
  | _ => ps

/-- Whether an opcode has a count field and it is 0 (R400). -/
def zeroCount (op x : Nat) : Bool :=
  match op with
  | 0x10 => fld x 256 32 = 0
  | 0x11 => fld x 256 32 = 0
  | 0x20 => fld x 160 24 = 0
  | 0x41 => fld x 256 12 = 0
  | _ => false

/-- Whether a copy's object check fails (R407). -/
def Module.copyBad (m : Module) (p taddr lines : Nat) : Bool :=
  match m.objRange p taddr (64 * lines) with
  | none => true
  | some (_, o) => o.compress && (taddr % tileBytes ≠ 0 || lines % 1024 ≠ 0)

/-- The entry check of a copy (R407). -/
def Module.copyFault (m : Module) (p x : Nat) : Option (Nat × Nat) :=
  let taddr := fld x 128 56
  let haddr := fld x 192 64
  let lines := fld x 256 32
  if taddr % 64 ≠ 0 || haddr % 64 ≠ 0 || 2 ^ 64 < haddr + 64 * lines || m.copyBad p taddr lines then some (0x0602, 0)
  else none

/-- Whether an operation reads SRC and writes DST at this module (R371). -/
def Herd.readsSrc (h : Herd) : Bool := h.op ≠ 2 || h.isRoot
def Herd.writesDst (h : Herd) : Bool := h.op ≠ 0 || h.isRoot

/-- The entry check of HERD_RUN (R371). -/
def Module.herdFault (m : Module) (p x : Nat) : Option (Nat × Nat) :=
  let i := fld x 128 12
  let n := tileBytes * fld x 160 24
  match kget? m.herds (4096 * p + i) with
  | none => some (0x0602, 0)
  | some h =>
    let bad (a : Nat) : Bool := a % tileBytes ≠ 0 || (m.objRange p a n).isNone
    if (h.readsSrc && bad (fld x 192 56)) || (h.writesDst && bad (fld x 256 56)) then some (0x0602, 0)
    else if m.str.flows.any (fun e => e.1 / 256 = p && e.2.ret && e.2.herd = i) then some (0x0601, 0)
    else none

/-- The entry check of a kerf command (R424, R425): addresses first, then the map, then a take's area. -/
def Module.kerfFault (m : Module) (p x : Nat) (map : List Byte) (take : Bool) : Option (Nat × Nat) :=
  let addr := fld x 128 64
  let len := fld x 192 32
  let dest := fld x 320 64
  if addr % 64 ≠ 0 || 2 ^ 64 < addr + len || (take && dest % tileBytes ≠ 0) then some (0x0602, 0)
  else
    match m.mapFault p take map len with
    | some f => some f
    | none =>
      let area := tileBytes * areaTiles (m.kerfShards p map (bitAt x 256))
      if take && (dest < m.launch.poolBase || m.launch.poolBase + m.launch.poolBytes < dest + area) then some (0x0602, 0)
      else none

/-- The size and address checks of an opcode's section (R400). -/
def Module.sizeFault (m : Module) (p op x : Nat) (data : List Byte) : Option (Nat × Nat) :=
  match op with
  | 0x10 => m.copyFault p x
  | 0x11 => m.copyFault p x
  | 0x20 => m.herdFault p x
  | 0x31 => if (m.part p).sessionCap ≤ fld x 128 18 then some (0x0602, 0) else none
  | 0x32 => if (m.part p).sessionCap ≤ fld x 128 18 then some (0x0602, 0) else none
  | 0x40 => m.kerfFault p x data true
  | 0x41 => m.kerfFault p x data false
  | _ => none

/-- INFO of a session command that names a handle (R402). -/
def sessionInfo (x : Nat) : Nat := if fld x 0 8 = 0x31 || fld x 0 8 = 0x32 then fld x 128 18 else 0

/-- DESCRIPTOR_ENTRY: the entry at the head is fetched and passes its entry checks, or ends with a code (R400).
`hostDesc` is the entry in host memory, `hostData` the host memory at MAP_ADDR of a kerf command. -/
def doDescriptorEntry (q : Nat) (hostDesc hostData : Bytes) (m : Module) : Module :=
  let y := m.queue q
  let p := q / 64
  if y.st ≠ .active || y.desc.isSome || y.todo ≠ [] || y.sqHead = y.sqTail || !m.hostUp then m
  else
    let bs := if y.terourn then m.load (ringAddr y.sqBase + 64 * y.sqHead) 64 else padTo 64 0 hostDesc
    let x := leNat bs
    let op := fld x 0 8
    let m := m.setQueue q { y with desc := some (BitVec.ofNat 512 x), idx := y.sqHead, map := [], waiting := false,
                                   passed := false, running := false, copyPos := 0, pieces := [] }
    if !sealOk 64 bs then m.finish q 0x0603 true false 1
    else if !assignedOp op then m.finish q 0x0603 true false 2
    else if fld x 22 10 ≠ 0 || fld x 96 32 ≠ 0 || fld x 384 96 ≠ 0 || unusedParams op x ≠ 0 then
      m.finish q 0x0603 true false 3
    else if zeroCount op x then m.finish q 0 false true 0
    else
      match m.sizeFault p op x hostData with
      | some (code, info) => m.finish q code true false (info + sessionInfo x)
      | none =>
        let y := m.queue q
        m.setQueue q { y with map := if op = 0x40 || op = 0x41 then hostData else [], waiting := bitAt x 8,
                              passed := !bitAt x 8 }

/-- FENCE_WAIT_SATISFIED: (FENCE − WAIT_VALUE) mod 2³² is below 2³¹ (R399). -/
def doFenceWaitSatisfied (q : Nat) (m : Module) : Module :=
  let y := m.queue q
  let v := m.fence (q / 64) (y.fld 9 6)
  if y.waiting && (v + 2 ^ 32 - y.fld 32 32) % 2 ^ 32 < 2 ^ 31 then m.setQueue q { y with waiting := false, passed := true }
  else m

/-! ## Start (R398, R400) -/

/-- Whether queue `q` is at the start of a command of opcode `op`: during DRAINING no command starts. -/
def Module.atStart (m : Module) (q op : Nat) : Bool :=
  let y := m.queue q
  y.st = .active && y.desc.isSome && y.op = op && y.passed && !y.running && (m.part (q / 64)).st ≠ .draining

/-- The command of queue `q` has started: the head is past it (R395). -/
def Module.startCmd (m : Module) (q : Nat) : Module :=
  let y := m.queue q
  m.setQueue q { y with running := true, passed := false, sqHead := (y.idx + 1) % y.sqSize }

/-- A start check failed: 0x0601, and the queue stops; INFO of a session command is its handle (R402). -/
def Module.badStart (m : Module) (q : Nat) : Module :=
  m.finish q 0x0601 true false (((m.queue q).desc.map (fun d => sessionInfo d.toNat)).getD 0)

/-- The command ends at its start. -/
def Module.endAtStart (m : Module) (q info : Nat) : Module := m.finish q 0 false false info

/-- QUEUE_NOP (R398). -/
def doQueueNop (q : Nat) (m : Module) : Module := if m.atStart q 0x00 then m.endAtStart q 0 else m

/-- PART_DRAIN (R398, R262, R404): with no task running the partition is DRAINING, and HALTED with the next sk. -/
def doPartDrain (q : Nat) (m : Module) : Module :=
  let p := q / 64
  if !m.atStart q 0x03 then m
  else if (m.part p).st ≠ .running then m.badStart q
  else
    (m.startCmd q).modPart p (fun x => { x with st := .draining, drainFrom := m.now, drainDroop := false })

/-- A new sk begins: every partition that has been DRAINING with no task is HALTED, and its PART_DRAIN completes (R404). -/
def Module.drainsOver (m : Module) : Module :=
  (m.parts.filter (fun e => e.2.st = .draining && !e.2.taskRunning && e.2.drainFrom < m.now)).foldl (fun m e =>
    (m.modPart e.1 (fun x => { x with st := .halted })).completeAll e.1 0 (fun q => q.op = 0x03)) m

/-- PART_UNLOAD (R398). -/
def doPartUnload (q : Nat) (m : Module) : Module :=
  let p := q / 64
  let st := (m.part p).st
  if !m.atStart q 0x04 then m
  else if (st ≠ .ready && st ≠ .halted && st ≠ .failed) || m.jig.phase = .checking || m.jig.phase = .writing || m.cfgFrozen then
    m.badStart q
  else (m.endAtStart q 0).offPart p 0x0601

/-! ## Copies (R407) -/

/-- Bytes of the next piece of a copy: at most 64 KiB, inside one page. -/
def pieceBytes (taddr left : Nat) : Nat := min (min tileBytes left) (pageBytes - taddr % pageBytes)

/-- Whether a pool transfer is one of queue `q`'s copy. -/
def PoolOp.ofCopy (q : Nat) (o : PoolOp) : Bool :=
  match o.owner with
  | .copy k => k = q
  | .copyIn k _ => k = q
  | _ => false

/-- What the end of a copy leaves of its pool transfers and of the tiles it has from the pool: none has an owner that waits for it. -/
def Module.copyFreed (m : Module) (q : Nat) : Module :=
  { m with
    str.poolReads := m.str.poolReads.map (fun o => if o.ofCopy q then { o with owner := .nobody } else o)
    str.poolWrites := m.str.poolWrites.map (fun o => if o.ofCopy q then { o with owner := .nobody } else o)
    str.buffers := m.str.buffers.filter (fun b => b.1 ≠ PoolOwner.copy q) }

/-- A copy ends with a code; INFO counts the leading lines complete. -/
def Module.endCopy (m : Module) (q code : Nat) : Module := (m.copyFreed q).complete q code (m.queue q).copied

/-- A copy command at its start: the state check and the object check (R398, R407). -/
def Module.startCopy (m : Module) (q op : Nat) (failedToo : Bool) : Module :=
  let y := m.queue q
  let p := q / 64
  let st := (m.part p).st
  if !m.atStart q op then m
  else if st ≠ .ready && st ≠ .running && st ≠ .halted && !(failedToo && st = .failed) then m.badStart q
  else if m.copyBad p (y.param 0 56) (y.param 128 32) then m.finish q 0x0602 true false 0
  else m.startCmd q

/-- Pieces of a copy in flight (R407). -/
def maxPieces : Nat := 32

/-- A running copy of queue `q` with a piece to move: its address, and its bytes. -/
def Module.copyAt (m : Module) (q op : Nat) : Option (Nat × Nat) :=
  let y := m.queue q
  if y.running && y.op = op && y.copyPos < y.param 128 32 && y.pieces.length < maxPieces then
    let a := y.param 0 56 + 64 * y.copyPos
    some (a, pieceBytes a (64 * (y.param 128 32 - y.copyPos)))
  else none

/-- The copy ends when its last line has moved and every piece is held. -/
def Module.copyDone (m : Module) (q : Nat) : Module :=
  let y := m.queue q
  if y.running && (y.op = 0x10 || y.op = 0x11) && y.pieces = [] && y.param 128 32 ≤ y.copyPos then m.endCopy q 0 else m

/-- The next `n` bytes of a copy have moved; a piece that is not held yet waits. -/
def Module.copyMoved (m : Module) (q n : Nat) (piece : List CopyPiece) : Module :=
  let y := m.queue q
  (m.setQueue q { y with copyPos := y.copyPos + n / 64, pieces := y.pieces ++ piece }).copyDone q

/-- The tiles of a page that a store covers in part. -/
def partTiles (addr n : Nat) : List Nat :=
  (tilesOf addr n).filter (fun g => !(addr ≤ g * tileBytes && (g + 1) * tileBytes ≤ addr + n))

/-- COPY_IN: the command starts, and each time one piece moves from host memory (R407, R430); `host` is the piece. -/
def doCopyIn (q : Nat) (host : Bytes) (m : Module) : Module :=
  let m := m.startCopy q 0x10 false
  match m.copyAt q 0x10 with
  | none => m
  | some (a, n) =>
    let pg := a / pageBytes
    let y := m.queue q
    if !m.hostUp || m.storeFails pg then m.endCopy q 0x0202
    else
      match m.fetchTiles (.copy q) (partTiles a n) with
      | none => m.endCopy q 0x0202
      | some (m, false) => m
      | some (m, true) =>
        match m.store a (padTo n 0 host) (.copyIn q y.copyPos) with
        | (m, false) => m
        | (m, true) =>
          let t := (m.page pg).tier
          let ts := tilesIn a n
          m.copyMoved q n (if t = 1 then []
            else [{ pos := y.copyPos, lines := n / 64, open_ := if t = 2 then 1 else ts.length, host := decide (t = 2) }])

/-- COPY_OUT: the command starts, and each time one piece moves to host memory; the tiles of the next pieces are asked of the pool. -/
def doCopyOut (q : Nat) (m : Module) : Module :=
  let m := m.startCopy q 0x11 true
  match m.copyAt q 0x11 with
  | none => m
  | some (a, n) =>
    let y := m.queue q
    let ahead := tilesOf a (min (maxPieces * tileBytes) (64 * (y.param 128 32 - y.copyPos)))
    if !m.hostUp then m.endCopy q 0x0202
    else
      match m.askPool (.copy q) ahead with
      | none => m.endCopy q 0x0202
      | some m =>
        if m.lacks (.copy q) (tilesOf a n) ≠ [] then m
        else
          match m.badIn a n, m.load? a n with
          | some (stack, row), _ => (m.t1Unc stack row).endCopy q 0x0402
          | none, none => m.endCopy q 0x0203
          | none, some bs =>
            let m := (m.readT1 a n).emit (.hostWrite (y.param 64 64 + 64 * y.copyPos) bs)
            let m := { m with str.buffers := m.str.buffers.filter (fun b => b.1 ≠ PoolOwner.copy q || a + n < (b.2 + 1) * tileBytes) }
            m.copyMoved q n []

/-- The pool, or the host, has acknowledged a tile of the piece at line `pos` of a copy. -/
def Module.pieceAck (m : Module) (q pos : Nat) : Module :=
  let y := m.queue q
  let ps := y.pieces.map (fun x => if x.pos = pos then { x with open_ := x.open_ - 1 } else x)
  (m.setQueue q { y with pieces := ps.filter (fun x => x.open_ ≠ 0) }).copyDone q

/-- The host has acknowledged what copies wrote into T2 (R281, log 118). -/
def Module.copyAcks (m : Module) : Module :=
  m.que.queues.foldl (fun m e => (e.2.pieces.filter (fun x => x.host)).foldl (fun m x => m.pieceAck e.1 x.pos) m) m

/-- POOL_DATA for a copy (R282, R407). -/
def Module.copyData (m : Module) (op : PoolOp) (q status : Nat) (payload : List Byte) : Module :=
  if !(m.queue q).running then m
  else if status ≠ 0 then m.endCopy q 0x0202
  else (m.bufferTile op payload).getD (m.endCopy q 0x0203)

/-- POOL_ACK for a piece of a COPY_IN. -/
def Module.copyAck (m : Module) (q pos status : Nat) : Module :=
  if !(m.queue q).running then m else if status ≠ 0 then m.endCopy q 0x0202 else m.pieceAck q pos

/-! ## Sessions (R409 to R412) -/

/-- The key of a session. -/
def sessKey (p h : Nat) : Nat := 2 ^ 18 * p + h
/-- A session's record; FREE where none is listed. -/
def Module.session (m : Module) (p h : Nat) : Session := kgetD {} m.que.sessions (sessKey p h)
def Module.setSession (m : Module) (p h : Nat) (s : Session) : Module :=
  { m with que.sessions := if s.st = .free then kdel m.que.sessions (sessKey p h) else kput m.que.sessions (sessKey p h) s }

/-- DEADLINE_US of a session class (R245). -/
def Part.sessDeadline (x : Part) (c : Nat) : Nat := fld (x.sessClass.getD c 0) 0 24

/-- The start checks every session command has (R398, R412). -/
def Module.sessionsOpen (m : Module) (p : Nat) : Bool :=
  let x := m.part p
  (x.st = .ready || x.st = .running || x.st = .halted) && (List.range 8).any (fun c => x.sessClass.getD c 0 ≠ 0)

/-- Whether a model binding has ENABLE and VALID (R413). -/
def Model.bound (x : Model) : Bool := bitAt x.reg 80 && x.valid

/-- SESSION_OPEN (R412): the lowest FREE handle. -/
def doSessionOpen (q : Nat) (m : Module) : Module :=
  let y := m.queue q
  let p := q / 64
  let x := m.part p
  if !m.atStart q 0x30 then m
  else if !m.sessionsOpen p || x.sessDeadline (y.param 20 3) = 0
      || !(kgetD ({} : Model) m.que.models (16 * p + y.param 23 4)).bound then m.badStart q
  else
    match (List.range (min x.sessionCap (m.que.sessions.length + 1))).find? (fun h => (m.session p h).st = .free) with
    | none => m.finish q 0x0602 true false 0
    | some h =>
      let sub : Bool := y.param 192 1 = 1
      let s : Session := { st := if sub then .ready else .idle, cls := y.param 20 3, model := y.param 23 4
                           notifyQ := y.param 27 6, notifyEn := y.param 33 1 = 1, slot := y.param 64 32
                           user := y.param 128 64, readySk := if sub then m.now else 0 }
      (m.setSession p h s).endAtStart q h

/-- SESSION_SUBMIT (R412): a session that becomes READY joins the launch queue after the batcher's visit of the sk (R418). -/
def doSessionSubmit (q : Nat) (m : Module) : Module :=
  let p := q / 64
  let h := (m.queue q).param 0 18
  let s := m.session p h
  if !m.atStart q 0x31 then m
  else if !m.sessionsOpen p then m.badStart q
  else
    match s.st with
    | .free => m.badStart q
    | .closing => m.badStart q
    | .idle => (m.setSession p h { s with st := .ready, readySk := m.now, submitAt := some m.now }).endAtStart q h
    | .ready => m.endAtStart q h
    | .inBatch => (m.setSession p h { s with resubmit := true }).endAtStart q h

/-! ## Completions (R401 to R403) -/

/-- Codes of a session state as the record holds it (R409). -/
def SessState.code : SessState → Nat
  | .free => 0 | .idle => 1 | .ready => 2 | .inBatch => 3 | .closing => 4

/-- A completion entry (R401). -/
def completionBytes (c : Completion) (phase : Bool) : List Byte :=
  leBytes 32 (put 0 32 c.tag + put 32 16 c.code + put 48 2 c.kind + put 50 1 (b2n c.stopped) + put 51 1 (b2n c.noop)
    + put 64 16 c.sqIndex + put 96 32 c.info + put 128 64 c.user + put 192 2 c.next + put 255 1 (b2n phase))

/-- Free entries of a queue's completion ring (R403). -/
def Queue.cqSpace (x : Queue) : Nat := x.cqSize - 1 - (x.cqTail + x.cqSize - x.cqHead) % x.cqSize

/-- MSI-X vector `q` after an entry, at most once a microsecond (R403). -/
def Module.queueVector (m : Module) (q : Nat) : Module :=
  let y := m.queue q
  if !bitAt y.cfg 16 then m
  else
    let free : Bool := match y.irqAt with
      | none => true
      | some t => m.usPassed t 1
    if free then (m.emit (.msix q)).setQueue q { y with irqAt := some m.now, irqDefer := false }
    else m.setQueue q { y with irqDefer := true }

/-- COMPLETION_WRITE: the oldest waiting entry of queue `q` is written when its ring has space and the host is reached
(R389, R403); a DISABLING queue is then DISABLED (R394). An entry whose acknowledgement was lost goes again first, unchanged. -/
def doCompletionWrite (q : Nat) (m : Module) : Module :=
  let y := m.queue q
  match (if y.redo && m.hostUp then y.written else none), y.todo with
  | some (a, bs), _ => (m.emit (.hostWrite a bs)).setQueue q { y with redo := false }
  | none, [] => m
  | none, c :: rest =>
    if y.st = .disabled || !m.hostUp || y.cqSpace = 0 then m
    else
      let a := ringAddr y.cqBase + 32 * y.cqTail
      let m := m.emit (.hostWrite a (completionBytes c y.phase))
      let last : Bool := y.cqTail + 1 = y.cqSize
      let y := { y with todo := rest, written := some (a, completionBytes c y.phase), cqTail := if last then 0 else y.cqTail + 1, phase := if last then !y.phase else y.phase
                        st := if y.st = .disabling && rest = [] && !y.running then .disabled else y.st }
      (m.setQueue q y).queueVector q

/-- MSIX_DEFER_EXPIRY: a deferred vector is sent at the end of its microsecond (R403). -/
def doMsixDeferExpiry (q : Nat) (m : Module) : Module :=
  let y := m.queue q
  let passed : Bool := match y.irqAt with
    | none => true
    | some t => m.usPassed t 1
  if y.irqDefer && passed && m.hostUp then
    (m.emit (.msix q)).setQueue q { y with irqAt := some m.now, irqDefer := false }
  else m

/-! ## Model bindings and the batcher (R413 to R417) -/

/-- The key of a model binding. -/
def modelKey (p i : Nat) : Nat := 16 * p + i
def Module.model (m : Module) (k : Nat) : Model := kgetD {} m.que.models k
def Module.setModel (m : Module) (k : Nat) (x : Model) : Module := { m with que.models := kput m.que.models k x }

/-- Whether a route appears as OUT_ROUTE, or as IN_ROUTE, in a ring die's image (R251). -/
def Module.ringOuts (m : Module) (n r : Nat) : Bool :=
  m.net.ring.any (fun e => e.1 / 32 = n && e.2.any (fun s => s.2.2 = r))
def Module.ringIns (m : Module) (n r : Nat) : Bool :=
  m.net.ring.any (fun e => e.1 / 32 = n && e.2.any (fun s => s.2.1 = r))

/-- The writable bits of QUE_MODEL (R413). -/
def modelMask : Nat := 0x3FFF_3FFF_3FFF_3FFF + put 64 12 0xFFF + put 80 1 1

/-- The check of a binding (R413). -/
def Module.bindOk (m : Module) (p v : Nat) : Bool :=
  let a := fld v 0 14
  let b := fld v 16 14
  let c := fld v 32 14
  let d := fld v 48 14
  [a, b, c, d].all (fun r => m.routeOwner r = some p) && m.ringOuts svcS a && m.ringOuts svcS d && m.ringIns svcS b
    && m.ringIns svcS c && fld v 64 12 ≠ 0

/-- A write of a model binding: it takes effect only while the partition is READY or HALTED (R413). -/
def doModelBind (src : Source) (p i : Nat) (v : BitVec 128) (m : Module) : Module :=
  let st := (m.part p).st
  if !m.cfgOk src || (st ≠ .ready && st ≠ .halted) then m
  else
    let x := m.model (modelKey p i)
    let w := v.toNat &&& modelMask
    m.setModel (modelKey p i) { x with reg := w, valid := bitAt w 80 && m.bindOk p w }

/-- Insertion by READY_SK and then handle. -/
def insReady (e : Nat × Session) : List (Nat × Session) → List (Nat × Session)
  | [] => [e]
  | g :: t => if e.2.readySk < g.2.readySk then e :: g :: t else g :: insReady e t

/-- The READY sessions of a model in order of READY_SK and then handle (R414); one submitted in this sk joins after it (R418). -/
def Module.readyOf (m : Module) (k : Nat) : List (Nat × Session) :=
  ((m.que.sessions.filter (fun e => e.1 / 2 ^ 18 = k / 16 && e.2.model = k % 16 && e.2.st = .ready && e.2.submitAt ≠ some m.now)).map
    (fun e => (e.1 % 2 ^ 18, e.2))).foldl (fun l e => insReady e l) []

/-- A batch record (R415). -/
def batchRecord (k seq now : Nat) (expired : Bool) (ss : List (Nat × Session)) : List Byte :=
  leBytes 4 seq ++ leBytes 4 (put 0 4 (k % 16) + put 4 6 ss.length + put 10 1 (b2n expired)) ++ leBytes 4 now
    ++ List.replicate 52 0
    ++ padTo 256 0 (ss.flatMap (fun e =>
      leBytes 8 (put 0 18 e.1 + put 18 3 e.2.cls + put 31 1 1 + put 32 32 e.2.slot)))

/-- The launch of a batch (R414). -/
def Module.launchBatch (m : Module) (k : Nat) (ss : List (Nat × Session)) (expired : Bool) : Module :=
  let x := m.model k
  let p := k / 16
  let m := ss.foldl (fun m e => m.setSession p e.1 { e.2 with st := .inBatch, batchSeq := x.seq }) m
  let m := m.ringPacket p svcS (fld x.reg 0 14) 0 0 (flitsOf (batchRecord k x.seq m.now expired ss))
  m.setModel k { x with credits := x.credits - 1, seq := (x.seq + 1) % 2 ^ 32, open_ := x.open_ ++ [(x.seq, ss.map Prod.fst)] }

/-- The batch a model would launch now: its sessions, and whether a deadline has passed (R414). -/
def Module.batchOf (m : Module) (k : Nat) : Option (List (Nat × Session) × Bool) :=
  let x := m.model k
  let p := k / 16
  let q := m.readyOf k
  if !x.bound || x.credits = 0 || q.isEmpty || !(m.part p).taskRunning || !m.netOpen p then none
  else
    let expired := q.any (fun e => 2 * e.2.readySk + 25 * (m.part p).sessDeadline e.2.cls ≤ 2 * m.now)
    if 32 ≤ q.length then some (q.take 32, expired) else if expired then some (q, true) else none

/-- At most one launch: the bound models in round-robin (R414). -/
def Module.visitModels (m : Module) : Module :=
  let ks := m.que.models.map Prod.fst
  let order := (ks.filter (fun k => m.que.rrModel ≤ k)) ++ (ks.filter (fun k => k < m.que.rrModel))
  match order.findSome? (fun k => (m.batchOf k).map (fun b => (k, b))) with
  | none => m
  | some (k, ss, expired) =>
    let m := m.launchBatch k ss expired
    { m with que.rrModel := k + 1, que.launchAt := some m.now }

/-- The batcher's visit of this sk, if it has not been (R414). -/
def Module.visit (m : Module) : Module := if m.que.batchAt = m.now then m else { m with que.batchAt := m.now }.visitModels

/-- A session event on its queue (R417): dropped where the queue is DISABLED; none where its ring is full. -/
def Module.sessionEvent (m : Module) (p h code next : Nat) (s : Session) : Option Module :=
  let q := 64 * p + s.notifyQ
  let y := m.queue q
  if y.st = .disabled then some m
  else if y.cqSpace ≤ y.todo.length then none
  else some (m.setQueue q { y with todo := y.todo ++ [{ tag := s.slot, code := code, kind := 1, info := h, user := s.user,
                                                        next := next }] })

/-- An uncorrectable error in the record of session `h` in the context store (R408): the session is freed with an event. An event that finds its
ring full is dropped with the record (DESIGN CHOICE, log 121). -/
def Module.ctxError (m : Module) (p h : Nat) : Module :=
  let s := m.session p h
  if s.st = .free then m else ((m.sessionEvent p h 0x0402 0 s).getD m).setSession p h { s with st := .free }

/-- BATCHER_VISIT: once an sk (R414). -/
def doBatcherVisit (m : Module) : Module := m.visit

/-- SESSION_CLOSE (R412): the launch of the sk that takes the session comes first (R418). -/
def doSessionClose (q : Nat) (m : Module) : Module :=
  let p := q / 64
  let h := (m.queue q).param 0 18
  if !m.atStart q 0x32 then m
  else if !m.sessionsOpen p then m.badStart q
  else
    let m := m.visit
    let s := m.session p h
    match s.st with
    | .free => m.badStart q
    | .closing => m.badStart q
    | .idle => (m.setSession p h { s with st := .free }).endAtStart q h
    | .ready => (m.setSession p h { s with st := .free }).endAtStart q h
    | .inBatch => (m.setSession p h { s with st := .closing }).endAtStart q h

/-- The session after an outcome (R417). -/
def nextSession (s : Session) (next now : Nat) : Session :=
  let s' := { s with resubmit := false, steps := satN 32 (s.steps + 1) }
  if s.st = .closing then { s' with st := .free }
  else if next = 2 then { s' with st := .free }
  else if next = 1 ∨ s.resubmit then { s' with st := .ready, readySk := now }
  else { s' with st := .idle }

/-- The result of a batch taken from entry `j` on: the module, and the entry at which it is held (R417). -/
def Module.takeEntries (m : Module) (p : Nat) (bs : List Byte) (hs : List Nat) : (fuel : Nat) → (j : Nat) → Module × Option Nat
  | 0, _ => (m, none)
  | n + 1, j =>
    match hs[j]? with
    | none => (m, none)
    | some h =>
      let s := m.session p h
      let o := leAt bs (8 + j) 1
      let s' := nextSession s (o % 4) m.now
      if s.st = .inBatch && bitAt o 2 && s.notifyEn then
        match m.sessionEvent p h 0 (o % 4) s with
        | none => (m, some j)
        | some m => (m.setSession p h s').takeEntries p bs hs n (j + 1)
      else if s.st = .inBatch || s.st = .closing then (m.setSession p h s').takeEntries p bs hs n (j + 1)
      else m.takeEntries p bs hs n (j + 1)

/-- The sessions of entries `j` on of a result as they are before it is taken, and whether it brings each an event. -/
def Module.before (m : Module) (p : Nat) (bs : List Byte) : (hs : List Nat) → (j : Nat) → List (Nat × Session × Bool)
  | [], _ => []
  | h :: hs, j =>
    let s := m.session p h
    let rest := m.before p bs hs (j + 1)
    if s.st = .inBatch || s.st = .closing then
      (h, s, s.st = .inBatch && bitAt (leAt bs (8 + j) 1) 2 && s.notifyEn && (m.queue (64 * p + s.notifyQ)).st ≠ .disabled) :: rest
    else rest

/-- A result goes on from entry `j`; taken whole, it returns one credit. What it changes is kept for an abort of the same sk (R418). -/
def Module.takeResult (m : Module) (k : Nat) (bs : List Byte) (j : Nat) : Module :=
  let x := m.model k
  let p := k / 16
  match x.open_ with
  | [] => m
  | (_, hs) :: rest =>
    let old := match x.undo with
      | some (t, ss) => if t = m.now then ss else []
      | none => []
    let (m', at_) := m.takeEntries p bs hs 33 j
    let n := at_.getD 33 - j
    let x := { x with undo := some (m.now, old ++ m.before p bs (slice hs j n) j) }
    match at_ with
    | some j => m'.setModel k { x with held := some (bs, j) }
    | none => (m'.setModel k { x with open_ := rest, held := none }).ringCredit p svcS (fld x.reg 48 14) 1

/-- Whether a batch result breaks R416. -/
def badResult (k : Nat) (x : Model) (bs : List Byte) : Bool :=
  match x.open_ with
  | [] => true
  | (seq, hs) :: _ =>
    leAt bs 0 4 ≠ seq || fld (leAt bs 4 4) 0 4 ≠ k % 16 || fld (leAt bs 4 4) 4 28 ≠ 0 || leAt bs 40 24 ≠ 0
      || (List.range 32).any (fun j => fld (leAt bs (8 + j) 1) 3 5 ≠ 0
        || (j < hs.length && leAt bs (8 + j) 1 % 4 = 3))

/-- A batch result reaches SVC-S (R416, R417). -/
def Module.resultAtSvc (m : Module) (k : Nat) (f : Flight) : Module :=
  let bs := flitBytes f.payload
  let x := m.model k
  if badResult k x bs then m.abortTask (k / 16) 0x0602 (.ring svcS) else m.takeResult k bs 0

/-- A CREDIT packet on a model's DISPATCH_CREDIT_ROUTE (R414, R215): it counts before the launch of the sk (R418). -/
def Module.dispatchCredit (m : Module) (k n route : Nat) : Module :=
  let x := m.model k
  if fld x.reg 64 12 < x.credits + n then m.slip (k / 16) 0x0301 (ringSite svcS) 5 route
  else
    let m := m.setModel k { x with credits := x.credits + n }
    if m.que.batchAt = m.now && m.que.launchAt ≠ some m.now then m.visitModels else m

/-! ## The normal end of a task (R405) -/

/-- Whether every enabled thread of a core has executed HALT. -/
def coreHalted (k : Core) : Bool :=
  match k.img with
  | none => true
  | some im => (List.range 8).all (fun t => !bitAt im.threadEn t || (kgetD ({} : Thread) k.threads t).st = .halted)

/-- Whether every TMM, vector and stream instruction that the threads of a core issued has completed: none is queued, and no buffer that a SEND
marked has still to leave (R405, R216). -/
def Core.idle (k : Core) : Bool := k.engQ.isEmpty && k.vecQ.isEmpty && k.eps.all (fun e => e.2.recv || e.2.count = 0)

/-- Whether partition `p` has a Terourn WRITE under way. -/
def Module.writesOpen (m : Module) (p : Nat) : Bool :=
  m.tier.reqs.any (fun r => r.part = p && r.write)
    || m.net.flights.any (fun f => f.part = p && hKind f.hdr = 4
      && (m.cores.any (fun e => e.2.ports.any (fun q => (q.2.reqRoute = f.route && fld f.msg 0 4 = 2) || q.2.doneRoute = f.route))))

/-- Whether a return-flow layer pushed in the task is not done. -/
def Module.returnsOpen (m : Module) (p : Nat) : Bool :=
  m.str.flows.any (fun e => e.1 / 256 = p && e.2.ret
    && e.2.pushed.any (fun x => !m.layerDone p e.1 (x.1 / 32768) (x.1 % 32768)))

/-- A task ends normally once every thread has halted and its operations are complete (R405). A GATE take that waits ends with it (R428). -/
def Module.normalEnd (m : Module) (p : Nat) : Module :=
  let x := m.part p
  let mine := m.cores.filter (fun e => x.hasCore e.1)
  if !x.taskRunning || !x.started || !mine.all (fun e => coreHalted e.2 && e.2.idle)
      || m.herds.any (fun e => e.1 / 4096 = p && e.2.run.isSome) || m.writesOpen p || m.returnsOpen p
      || x.krf.phase = .dumping then m
  else
    let m := ((m.mapCores p quietCore).endFlows p).endHerds p
    let m := m.endTask p 0
    match x.krf.take with
    | some t => if t.gate && x.krf.phase = .awaitingCut then m.failTake p else m
    | none => m

/-- TASK_END: the normal end of a task. `sessions` are those whose records in the context store have an uncorrectable error, and `owner` says that
a flow's or herd's record of the partition has one, with which the task aborts (R408; that they come with this command is log 121). -/
def doTaskEnd (p : Nat) (sessions : List Nat) (owner : Bool) (m : Module) : Module :=
  let m := sessions.foldl (fun m h => m.ctxError p h) m
  if owner then m.abortTask p 0x0402 (.ring svcS) else m.normalEnd p

end Sys2Proof.Machine
end

