-- ==== Sys2Proof/Machine/Herds.lean ====
section
/-! DEFINITION. Herds and gradient return: operations, stage sums, deadlines, lost members, aborts, GRAD messages (R343 to
R347, R365 to R381). -/

namespace Sys2Proof.Machine

open Sys2Proof

/-! ## Places in a herd (R366, R367) -/

/-- The stage record of stage `k`. -/
def Herd.stage (h : Herd) (k : Nat) : Stage := h.stages.getD (k - 1) {}
/-- Whether this module leads its group at stage `k`. -/
def Herd.leads (h : Herd) (k : Nat) : Bool := 1 ≤ k && k ≤ h.levels && (h.stage k).self = (h.stage k).leader
/-- The included members of stage `k`, in increasing index (R377). -/
def Herd.included (h : Herd) (k : Nat) : List Nat :=
  (List.range (h.stage k).macs.length).filter (fun j => !h.lost.contains (k, j))
/-- The port of the herd. -/
def Herd.port (h : Herd) : Nat := portOfRing h.portDie
/-- WIDTH of its tiles (R371). -/
def Herd.width (h : Herd) : Nat := if h.op = 2 then 0 else if h.fmt = 4 then 1 else 2
/-- PAGE of its tiles: the layer of a return flow's operation, or OP_SEQ (R371). -/
def Herd.page (h : Herd) (r : HerdOp) : Nat := match r.ret with | some (_, l) => l | none => h.opSeq
/-- The stage run of stage `k`. -/
def HerdOp.at_ (r : HerdOp) (k : Nat) : StageRun := kgetD {} r.stages k
def HerdOp.setAt (r : HerdOp) (k : Nat) (s : StageRun) : HerdOp := { r with stages := kput r.stages k s }
/-- The herd with its running operation replaced. -/
def Module.setRun (m : Module) (key : Nat) (r : HerdOp) : Module := m.setHerd key { m.herd key with run := some r }

/-! ## Sums (R373) -/

/-- The cells of a tile in a herd's element format: BF16 widened to FP32. -/
def cellsOf (fmt : Nat) (bs : List Byte) : List Nat :=
  let n := gradElem fmt
  (chunksOf n (bs.length / n) bs).map (fun b => if fmt = 4 then leNat b * 65536 else leNat b)

/-- One addition of a stage sum: ACC128 under R71, the others in FP32. -/
def addCell (fmt : Nat) (a b : Cell) : Cell :=
  let (c, f) := if fmt = 7 then addAcc a.1 b.1 else addFp32 a.1 b.1
  (c, a.2 ||| b.2 ||| f)

/-- The one rounding of a BF16 stage sum. -/
def roundBf16 (a : Cell) : Cell :=
  let (c, o) := fpRound .bf16 .rne 0 (fpDecode .fp32 a.1)
  (c, a.2 ||| accFlags false o ||| nanFlag .bf16 c)

/-- The stage sum of inputs in increasing member index, with the combined tag word. -/
def stageSum (fmt : Nat) (ins : List (List Byte × Nat)) : List Byte × Nat :=
  match ins with
  | [] => ([], 0)
  | x :: rest =>
    let first : List Cell := (cellsOf fmt x.1).map (fun c => (c, 0))
    let sum := rest.foldl (fun a y => List.zipWith (addCell fmt) a ((cellsOf fmt y.1).map (fun c => (c, 0)))) first
    let out := if fmt = 4 then sum.map roundBf16 else sum
    (out.flatMap (fun c => leBytes (gradElem fmt) c.1),
     tagAdd (rest.foldl (fun t y => tagCombine t y.2) x.2) (out.foldl (fun t c => t ||| c.2) 0))

/-! ## Chunks of an operation (R370, R374) -/

/-- One chunk to member `j` of stage `k`, upward or down. -/
def Module.sendHerd (m : Module) (p i k j : Nat) (down : Bool) (c : Nat) (tile : List Byte × Nat) : Module :=
  let h := m.herd (4096 * p + i)
  match h.run with
  | none => m
  | some r =>
    m.sendChunk {
      port := h.port, mac := (h.stage k).macs.getD j 0, etype := m.fab.herdType, vc := h.vc, chan := h.id, msg := r.msg
      chunk := c, last := c + 1 = r.chunks, aux := 0, at_ := 0, owner := .herd p i k j down
      payload := codedTransit h.width 0xFFFF (h.page r) (c % 32) tile.1
      upper := leBytes 32 (put 0 3 k + put 3 1 (b2n down) + put 8 10 (h.stage k).self + put 32 32 h.opSeq
        + put 64 32 r.chunks + put 96 32 tile.2) }

/-- Chunks of a herd to one receiver that are not acknowledged. -/
def Module.unacked (m : Module) (p i k j : Nat) (down : Bool) : Nat :=
  (m.fab.sent.filter (fun c => c.owner = ChunkOwner.herd p i k j down)).length

/-- Input `tile` of member `j` for chunk `c` of stage `k`. -/
def HerdOp.addInput (r : HerdOp) (k c j now : Nat) (tile : List Byte × Nat) : HerdOp :=
  let s := r.at_ k
  let x : ChunkIn := kgetD {} s.ins c
  r.setAt k { s with ins := kput s.ins c { tiles := kput x.tiles j tile
                                           first := if x.tiles = [] then some now else x.first } }

/-! ## Gradients (R345, R346) -/

/-- Tiles of a gradient layer. -/
def Flow.layerTiles (f : Flow) (l : Nat) : Nat := ceilDiv (f.layerUnits l) 16
/-- The key of tile `t` of gradient layer `l`. -/
def gradKey (l t : Nat) : Nat := 2 ^ 32 * l + t
/-- Bytes of tile `t` of layer `l`, rounds counted on. -/
def Flow.tileSize (f : Flow) (l t : Nat) : Nat :=
  min tileBytes (f.layerUnits l * 4096 - t % max 1 (f.layerTiles l) * tileBytes)
/-- Whether every byte of a tile has come. -/
def Flow.tileFull (f : Flow) (l t : Nat) : Bool :=
  match kget? f.gradTiles (gradKey l t) with
  | some g => f.tileSize l t ≤ g.got
  | none => false

/-- Elements converted from GRAD_FORMAT to SERVER_FORMAT, rounded once to nearest even (R346). -/
def gradConvert (src dst : Nat) (bs : List Byte) : List Byte :=
  if src = dst then bs
  else
    let n := gradElem src
    (chunksOf n (bs.length / n) bs).flatMap (fun b =>
      let v := if src = 7 then accValue (accDecode (leNat b)) else fpDecode (fmtOf src) (leNat b)
      leBytes (gradElem dst) (if dst = 7 then accEncode (accOfFp .rne 0 v).1 else (fpRound (fmtOf dst) .rne 0 v).1))

/-- One GRAD message of one tile of layer `l`. -/
def Module.sendGrad (m : Module) (fk l : Nat) (bs : List Byte) : Module :=
  let f := m.flow fk
  let unit := kgetD 0 f.outUnit l
  let total := f.serverUnits l
  if total ≤ unit then m
  else
    let count := min 16 (total - unit)
    let (q, m) := m.nextPspSeq f.stream
    let (n, m) := m.nextMsg (pspKey f.stream)
    let m := m.sendChunk {
      port := portOfRing f.portDie, mac := f.peer, etype := m.str.ethertype, vc := f.vc, chan := f.stream, msg := n
      chunk := 0, last := true, aux := 0, at_ := 0, owner := .grad (fk / 256) (fk % 256)
      upper := pspHeader 8 (unit + count = total) f.stream l 0 unit count 0 q
      payload := codedTransit f.width 0xFFFF l (unit / 16 % 32) (padTo tileBytes 0 bs) }
    m.setFlow fk { f with
      outUnit := kput f.outUnit l (unit + count)
      grads := f.grads ++ [{ layer := l, unit := unit, count := count, at_ := m.now }] }

/-- The whole tiles among a layer's bytes are sent; with `flush`, the rest too. -/
def Module.drainGrads (m : Module) (fk l : Nat) (flush : Bool) : (fuel : Nat) → Module
  | 0 => m
  | n + 1 =>
    let f := m.flow fk
    let bs := kgetD [] f.outBytes l
    if tileBytes ≤ bs.length ∨ (flush ∧ bs ≠ []) then
      ((m.setFlow fk { f with outBytes := kput f.outBytes l (bs.drop tileBytes) }).sendGrad fk l (bs.take tileBytes)).drainGrads
        fk l flush n
    else m

/-! ## Results (R374) -/

/-- The receivers of a result: from the highest stage led downward, every included member but the module itself. -/
def Herd.receivers (h : Herd) : List (Nat × Nat) :=
  ([3, 2, 1].filter (fun k => h.leads k)).flatMap (fun k =>
    ((h.included k).filter (fun j => j ≠ (h.stage k).self)).map (fun j => (k, j)))

/-- A result chunk is at this module. -/
def Module.enterResult (m : Module) (p i c : Nat) (tile : List Byte × Nat) : Module :=
  let key := 4096 * p + i
  let h := m.herd key
  match h.run with
  | none => m
  | some r =>
    match h.op, r.ret with
    | 0, some (fk, l) =>
      let f := m.flow fk
      let bs := gradConvert f.gradFmt f.serverFmt tile.1
      let m := m.setFlow fk { f with outBytes := kput f.outBytes l (kgetD [] f.outBytes l ++ bs) }
      m.drainGrads fk l (c + 1 = r.chunks) 4
    | _, _ =>
      let dests := if h.op = 0 then [] else h.receivers.map (fun e => (e.1, e.2, c))
      m.setRun key { r with results := kput r.results c tile, writes := r.writes ++ [c], downs := r.downs ++ dests }

/-! ## Progress of an operation -/

/-- The chunk of the module's own contribution that is taken next: a leader's within its admission window, any other's
within its send window, and the root's of a BROADCAST. -/
def Module.ownChunk (m : Module) (p i : Nat) (h : Herd) (r : HerdOp) : Option Nat :=
  if h.op = 2 then
    if h.isRoot && r.nextSend < r.chunks && r.downs = [] && r.writes = [] then some r.nextSend else none
  else if h.leads 1 then
    let s := r.at_ 1
    (List.range h.window).findSome? (fun d =>
      let c := s.next + d
      if c < r.chunks && (kget? (kgetD ({} : ChunkIn) s.ins c).tiles (h.stage 1).self).isNone then some c else none)
  else if r.nextSend < r.chunks && r.ups = [] && m.unacked p i 1 (h.stage 1).leader false < h.window then some r.nextSend
  else none

/-- The module's own contribution `tile` to chunk `c` takes its place. A contribution read from Terourn space has TAGS 0, and a result's tag word
ends where it is written or sent as GRAD (DESIGN CHOICE, log 122). -/
def Module.placeOwn (m : Module) (p i c : Nat) (tile : List Byte × Nat) : Module :=
  let key := 4096 * p + i
  let h := m.herd key
  match h.run with
  | none => m
  | some r =>
    if h.op = 2 then (m.setRun key { r with nextSend := c + 1 }).enterResult p i c tile
    else if h.leads 1 then m.setRun key (r.addInput 1 c (h.stage 1).self m.now tile)
    else m.setRun key { r with nextSend := c + 1, ups := kput r.ups c tile }

/-- The tile of SRC at `a`, through the home die of its page (R371): none while the pool has been asked for it and has not answered. -/
def Module.readSource (m : Module) (p i c a : Nat) : Option Module :=
  let key := 4096 * p + i
  let die := (m.herd key).portDie
  if m.str.poolReads.any (fun q => q.owner = PoolOwner.herd key) then none
  else
    match m.reach (.herd key) a tileBytes with
    | .wait m => some m
    | .fail m code sub detail => some (m.abortTask p code { Loc.ring die with sub := sub } detail)
    | .here m =>
      match m.load? a tileBytes with
      | none => some (m.abortTask p 0x0203 (.ring die))
      | some bs => some (m.placeOwn p i c (bs, 0))

/-- The next own contribution is read. -/
def Module.ownStep (m : Module) (p i : Nat) : Option Module :=
  let h := m.herd (4096 * p + i)
  match h.run with
  | none => none
  | some r =>
    match m.ownChunk p i h r with
    | none => none
    | some c =>
      match r.ret with
      | some (fk, l) =>
        let f := m.flow fk
        if f.tileFull l (r.src + c) then
          let g : GradTile := kgetD {} f.gradTiles (gradKey l (r.src + c))
          let m := m.setFlow fk { f with gradTiles := kdel f.gradTiles (gradKey l (r.src + c))
                                         handed := kmod 0 f.handed l (fun n => n + 1) }
          some (m.placeOwn p i c (readBytes g.bytes 0 tileBytes, g.tag.getD 0))
        else none
      | none => m.readSource p i c (r.src + c * tileBytes)

/-- The lowest chunk of a stage is reduced once every included input is complete; not in the sk in which a member is lost, so that all that are
lost in it have one re-form chunk (R381). -/
def Module.reduceStep (m : Module) (p i : Nat) : Option Module :=
  let key := 4096 * p + i
  let h := m.herd key
  match h.run with
  | none => none
  | some r =>
    let ready (k : Nat) : Bool :=
      let s := r.at_ k
      h.op ≠ 2 && h.leads k && s.next < r.chunks && h.lossAt ≠ some m.now
        && (h.included k).all (fun j => (kget? (kgetD ({} : ChunkIn) s.ins s.next).tiles j).isSome)
    match [1, 2, 3].find? ready with
    | none => none
    | some k =>
      let s := r.at_ k
      let c := s.next
      let x : ChunkIn := kgetD {} s.ins c
      let tile := stageSum h.fmt ((h.included k).map (fun j => kgetD ([], 0) x.tiles j))
      let r := r.setAt k { s with ins := kdel s.ins c, next := c + 1 }
      if k = h.levels then
        if h.isRoot then some ((m.setRun key r).enterResult p i c tile) else none
      else if h.leads (k + 1) then some (m.setRun key (r.addInput (k + 1) c (h.stage (k + 1)).self m.now tile))
      else some (m.setRun key { r with ups := kput r.ups c tile })

/-- The oldest chunk formed goes upward while fewer than WINDOW are unacknowledged. -/
def Module.upStep (m : Module) (p i : Nat) : Option Module :=
  let key := 4096 * p + i
  let h := m.herd key
  match h.run with
  | none => none
  | some r =>
    let j := (h.stage h.levels).leader
    match r.ups with
    | [] => none
    | (c, tile) :: rest =>
      if m.unacked p i h.levels j false < h.window then
        some ((m.setRun key { r with ups := rest }).sendHerd p i h.levels j false c tile)
      else none

/-- The results with nothing left to do are dropped. -/
def HerdOp.trim (r : HerdOp) : HerdOp :=
  { r with results := r.results.filter (fun e => r.writes.contains e.1 || r.downs.any (fun d => d.2.2 = e.1)) }

/-- The first result that its receiver's window admits goes down. -/
def Module.downStep (m : Module) (p i : Nat) : Option Module :=
  let key := 4096 * p + i
  let h := m.herd key
  match h.run with
  | none => none
  | some r =>
    match r.downs.find? (fun d => m.unacked p i d.1 d.2.1 true < h.window) with
    | none => none
    | some (k, j, c) =>
      let m := m.sendHerd p i k j true c (kgetD ([], 0) r.results c)
      some (m.setRun key ({ r with downs := r.downs.erase (k, j, c) }).trim)

/-- A result chunk that is written and waits for nothing, or for the host or the pool (R281). -/
def HerdOp.wrote (r : HerdOp) (c tier : Nat) : HerdOp :=
  let r := { r with writes := r.writes.tail }
  (if tier = 2 then { r with awaits := r.awaits ++ [(c, true)] }
   else if tier = 3 then { r with awaits := r.awaits ++ [(c, false)] }
   else { r with written := r.written + 1 }).trim

/-- Result chunks that the host (`host`) or the pool now holds. -/
def HerdOp.held (r : HerdOp) (mine : Nat × Bool → Bool) : HerdOp :=
  { r with awaits := r.awaits.filter (fun e => !mine e), written := r.written + (r.awaits.filter mine).length }

/-- The first result to be written goes to DST; none while its page waits for its copy. -/
def Module.writeStep (m : Module) (p i : Nat) : Option Module :=
  let key := 4096 * p + i
  let h := m.herd key
  match h.run with
  | none => none
  | some r =>
    match r.writes with
    | [] => none
    | c :: _ =>
      let a := r.dst + c * tileBytes
      let pg := a / pageBytes
      let o : PoolOwner := .herdDst key c
      if m.storeFails pg then some (m.abortTask p 0x0202 (.ring h.portDie))
      else
        match m.store a (kgetD ([], 0) r.results c).1 o with
        | (m', true) => some (m'.setRun key (r.wrote c (m'.page pg).tier))
        | (m', false) => if m.str.stalled.contains (o, pg) && m'.str.poolReads = m.str.poolReads then none else some m'

/-- Whether an operation is complete at this module (R375). -/
def Module.opComplete (m : Module) (p i : Nat) (h : Herd) (r : HerdOp) : Bool :=
  if h.op = 0 then
    if h.isRoot then
      match r.ret with
      | some (fk, l) => r.dst + (m.flow fk).serverUnits l ≤ kgetD 0 (m.flow fk).ackedUnits l
      | none => r.chunks ≤ r.written
    else r.chunks ≤ r.upAcked
  else
    r.chunks ≤ r.written && r.downs = []
      && !m.fab.sent.any (fun c => match c.owner with | .herd q n _ _ _ => q = p && n = i | _ => false)

/-- An operation starts (R371). -/
def Module.startOp (m : Module) (p i chunks src dst : Nat) (queue : Option Nat) (ret : Option (Nat × Nat)) : Module :=
  let key := 4096 * p + i
  let h := m.herd key
  let (n, m) := m.nextMsg (herdKey h.id)
  m.setHerd key { h with began := true, run := some { chunks := chunks, msg := n, src := src, dst := dst, queue := queue,
                                                      ret := ret } }

/-- A complete operation ends; the herd's next gradient layer starts. -/
def Module.endStep (m : Module) (p i : Nat) : Option Module :=
  let key := 4096 * p + i
  let h := m.herd key
  match h.run with
  | none =>
    match h.todo with
    | [] => none
    | (fk, l) :: rest =>
      let f := m.flow fk
      let m := m.setFlow fk { f with outUnit := kput f.outUnit l 0, outBytes := kdel f.outBytes l }
      some ((m.setHerd key { h with todo := rest }).startOp p i (f.layerTiles l) (kgetD 0 f.handed l)
        (kgetD 0 f.ackedUnits l) none (some (fk, l)))
  | some r =>
    if m.opComplete p i h r then
      let m := m.setHerd key { h with run := none, opSeq := (h.opSeq + 1) % 2 ^ 32 }
      let m := m.modPart p (fun x => { x with opsDone := satN 32 (x.opsDone + 1) })
      some (match r.queue with
        | some q => m.complete q 0 h.opSeq
        | none => m)
    else none

/-- One step of a herd's progress; none where it waits. -/
def Module.herdStep (m : Module) (p i : Nat) : Option Module :=
  if !(m.part p).taskRunning then none
  else (m.reduceStep p i).or ((m.upStep p i).or ((m.writeStep p i).or ((m.downStep p i).or ((m.ownStep p i).or (m.endStep p i)))))

/-- A herd goes on as far as it can. -/
def Module.herdGo (m : Module) (p i : Nat) : (fuel : Nat) → Module
  | 0 => m
  | n + 1 =>
    match m.herdStep p i with
    | none => m
    | some m => m.herdGo p i n

/-- Steps of one call of `herdGo`. -/
def herdFuel : Nat := 200_000

/-- Every herd of partition `p` goes on. -/
def Module.herdsGo (m : Module) (p : Nat) : Module :=
  (m.herds.filter (fun e => e.1 / 4096 = p)).foldl (fun m e => m.herdGo p (e.1 % 4096) herdFuel) m

/-- The pool holds result chunk `c` of a herd. -/
def Module.herdStored (m : Module) (key c : Nat) : Module :=
  match (m.herd key).run with
  | none => m
  | some r => (m.setRun key (r.held (fun e => e = (c, false)))).herdGo (key / 4096) (key % 4096) herdFuel

/-- The host holds the result chunks written to T2 (R281, log 118), and herds that lost a member go on (R381). -/
def Module.herdsTick (m : Module) : Module :=
  (m.herds.filter (fun e => e.2.lossAt.isSome || e.2.run.any (fun r => r.awaits.any Prod.snd))).foldl (fun m e =>
    let h := m.herd e.1
    if h.lossAt = some m.now then m
    else
      (m.setHerd e.1 { h with lossAt := none, run := h.run.map (fun r => r.held Prod.snd) }).herdGo (e.1 / 4096) (e.1 % 4096) herdFuel) m

/-- HERD_RUN (R371, R398): RUNNING with a task; it waits at its start while the herd runs another operation. -/
def doHerdRun (q : Nat) (m : Module) : Module :=
  let y := m.queue q
  let p := q / 64
  let i := y.param 0 12
  let h := m.herd (4096 * p + i)
  if !m.atStart q 0x20 then m
  else if (m.part p).st ≠ .running || !(m.part p).taskRunning then m.badStart q
  else if h.run.isSome then m
  else
    let m := m.startCmd q
    let m := m.setQueue q { m.queue q with opSeq := h.opSeq }
    (m.startOp p i (y.param 32 24) (y.param 64 56) (y.param 128 56) (some q) none).herdGo p i herdFuel

/-! ## Lost members, HERD_ABORT and LOST (R377 to R380) -/

/-- The re-form chunk of member `j` of stage `k` (R377); 0 where none is held, as after a restore. -/
def Herd.reformAt (h : Herd) (k j : Nat) : Nat :=
  ((h.reforms.find? (fun e => e.1 = k && e.2.1 = j)).map (fun e => e.2.2)).getD 0

/-- Member `j` of stage `k` is lost at this leader (R377). The herd goes on with the next sk (R381). -/
def Module.memberLost (m : Module) (p i k j : Nat) : Module :=
  let key := 4096 * p + i
  let h := m.herd key
  let loc := { Loc.ring h.portDie with sub := j }
  if h.lost.contains (k, j) then m
  else if !h.reform then m.abortTask p 0x0502 loc k
  else
    let at_ := match h.run with | some r => (r.at_ k).next | none => 0
    let m := m.logEvent 0x0502 loc (part := some p) (task := m.taskOf p) (detail := k)
    let m := m.modPart p (fun x => { x with lostMembers := satN 16 (x.lostMembers + 1) })
    let m := m.sendHerdControl h.port ((h.stage k).macs.getD j 0) 2 h.id h.opSeq k j 0x0502 at_
    let drop (x : ChunkIn) : ChunkIn := { x with tiles := kdel x.tiles j }
    let run := h.run.map (fun r =>
      let s := r.at_ k
      (({ r with downs := r.downs.filter (fun d => !(d.1 = k && d.2.1 = j)) }).setAt k
        { s with ins := kmapv (fun _ x => drop x) s.ins }).trim)
    let m := { m with fab.sent := m.fab.sent.filter (fun c => c.owner ≠ ChunkOwner.herd p i k j true) }
    m.setHerd key { h with lost := h.lost ++ [(k, j)], reforms := h.reforms ++ [(k, j, at_)], lossAt := some m.now, run := run }

/-- A HERD_ABORT, or a herd-stop, of member `j` of stage `k` is acted on (R379). -/
def Module.abortFrom (m : Module) (p i k j : Nat) (back : Option Nat) : Module :=
  let h := m.herd (4096 * p + i)
  if !(m.part p).taskRunning then m
  else
    let m := m.modPart p (fun x => { x with abortsRx := satN 16 (x.abortsRx + 1) })
    if h.leads k && j ≠ (h.stage k).self && h.reform then m.memberLost p i k j
    else m.abortTask p 0x0502 { Loc.ring h.portDie with sub := j } k back

/-- The herd of an identity, among partitions that are not OFF. -/
def Module.herdOf (m : Module) (id : Nat) : Option Nat :=
  (m.herds.find? (fun e => e.2.id = id && (m.part (e.1 / 4096)).st ≠ .off)).map Prod.fst

/-- A discard counted at a port. -/
def Module.discard (m : Module) (port : Nat) : Module :=
  let x := m.port port
  m.setPort port { x with discards := satN 32 (x.discards + 1) }

/-- Whether a herd control message is malformed (R380). -/
def badHerdMsg (msg : List Byte) (type : Nat) : Bool :=
  !sealOk 64 msg || leAt msg 0 1 ≠ 1 || leAt msg 1 1 ≠ type

/-- The herd that a control message names, with stage, member, and whether that member sent it. -/
def Module.herdMsg (m : Module) (mac : Nat) (msg : List Byte) : Option (Nat × Nat × Nat × Nat) :=
  let x := leNat (msg.take 64)
  match m.herdOf (fld x 32 32) with
  | none => none
  | some key =>
    let h := m.herd key
    let k := fld x 96 3
    let j := fld x 112 10
    if k = 0 || h.levels < k || !(h.stage k).macs.contains mac then none else some (key, k, j, fld x 64 32)

/-- HERD_ABORT arrives (R379). One that names no herd or comes from another module than it says does nothing: R383 counts only those that are
malformed. -/
def doHerdAbort (port mac : Nat) (msg : Bytes) (m : Module) : Module :=
  if badHerdMsg msg 1 then m.discard port
  else
    match m.herdMsg mac msg with
    | none => m
    | some (key, k, j, _) =>
      if ((m.herd key).stage k).macs.getD j 0 ≠ mac then m
      else if (m.herd key).lost.contains (k, j) then m
      else m.abortFrom (key / 4096) (key % 4096) k j (some mac)

/-- LOST arrives: a lost member that still runs aborts its task (R378). -/
def doLost (port mac : Nat) (msg : Bytes) (m : Module) : Module :=
  if badHerdMsg msg 2 then m.discard port
  else
    match m.herdMsg mac msg with
    | none => m
    | some (key, k, j, _) =>
      let h := m.herd key
      let g := h.stage k
      if g.self ≠ j || g.macs.getD g.leader 0 ≠ mac || g.self = g.leader then m
      else m.abortTask (key / 4096) 0x0502 { Loc.ring h.portDie with sub := j } k

/-! ## Deadlines (R376, R378) -/

/-- Whether chunk `c` completes a run of three successive misses. -/
def threeMisses (cs : List Nat) (c : Nat) : Bool :=
  (List.range 3).any (fun d => d ≤ c && (List.range 3).all (fun e => cs.contains (c - d + e)))

/-- HERD_DEADLINE_EXPIRY: the timer of chunk `c` at a stage this module leads has expired (R376, R377). A chunk that completes with the expiry is
in time, so the miss comes after it. -/
def doHerdDeadlineExpiry (p i k c : Nat) (m : Module) : Module :=
  let key := 4096 * p + i
  let h := m.herd key
  match h.run with
  | none => m
  | some r =>
    let s := r.at_ k
    match kget? s.ins c with
    | none => m
    | some x =>
      match x.first with
      | none => m
      | some t =>
        if !h.leads k || !m.usOver t (h.deadlineUs * (2 * k - 1)) then m
        else
          let late := (h.included k).filter (fun j => (kget? x.tiles j).isNone && j ≠ (h.stage k).self)
          let missed := s.missed ++ late.map (fun j => (j, c))
          let r := r.setAt k { s with missed := missed, ins := kput s.ins c { x with first := none } }
          let m := (m.setRun key r).modPart p (fun x => { x with dlMisses := satN 32 (x.dlMisses + late.length) })
          (late.filter (fun j => threeMisses ((missed.filter (fun e => e.1 = j)).map Prod.snd) c)).foldl
            (fun m j => m.memberLost p i k j) m

/-- RESULT_DEADLINE_EXPIRY: a result chunk that a member of an ALLREDUCE or BROADCAST waits for is late (R378). -/
def doResultDeadlineExpiry (p i c : Nat) (m : Module) : Module :=
  let key := 4096 * p + i
  let h := m.herd key
  match h.run with
  | none => m
  | some r =>
    match kget? r.resTimer c with
    | none => m
    | some t =>
      if r.arrived.contains c || !m.usPassed t (4 * h.top * h.deadlineUs) then m
      else
        let missed := r.resMissed ++ [c]
        let m := (m.setRun key { r with resTimer := kdel r.resTimer c, resMissed := missed }).modPart p
          (fun x => { x with dlMisses := satN 32 (x.dlMisses + 1) })
        if threeMisses missed c then m.abortTask p 0x0502 { Loc.ring h.portDie with sub := (h.stage h.levels).leader } h.levels
        else m

/-! ## Herd chunks (R372) -/

/-- A herd chunk whose CRC is right reaches the module: what it does, and the answer. -/
def Module.herdChunk (m : Module) (k : Chunk) : Module × Answer :=
  match m.herdOf k.chan with
  | none => (m.discard k.port, .silent)
  | some key =>
    let p := key / 4096
    let i := key % 4096
    let h := m.herd key
    let x := leNat (k.upper.take 32)
    let st := fld x 0 3
    let down := bitAt x 3
    let j := fld x 8 10
    let g := h.stage st
    let fits : Bool := if down then h.op ≠ 0 && g.self ≠ g.leader && j = g.leader
      else h.op ≠ 2 && g.self = g.leader && j ≠ g.leader
    if st = 0 || h.levels < st || g.macs.length ≤ j || g.macs.getD j 0 ≠ k.mac || !fits then (m.discard k.port, .nak)
    else if h.lost.contains (st, j) then
      (m.sendHerdControl h.port k.mac 2 h.id h.opSeq st j 0x0502 (h.reformAt st j), .silent)
    else if fld x 32 32 < h.opSeq then (m, .ack)
    else
      match h.run with
      | none => (m, .wait)
      | some r =>
        if h.opSeq < fld x 32 32 || (!down && (r.at_ st).next + h.window ≤ k.chunk) then (m, .wait)
        else if r.chunks ≤ k.chunk || fld x 64 32 ≠ r.chunks then (m, .nak)
        else
          match readTransit h.width 0xFFFF (h.page r) (k.chunk % 32) k.payload with
          | none => (m.abortTask p 0x0203 (.ring h.portDie), .ack)
          | some (bs, _) =>
            let tile := (bs, fld x 96 32)
            if down then
              if r.arrived.contains k.chunk then (m, .ack)
              else
                let timer := if h.op = 2 && k.chunk + 1 < r.chunks && !r.arrived.contains (k.chunk + 1)
                  then kput (kdel r.resTimer k.chunk) (k.chunk + 1) m.now else kdel r.resTimer k.chunk
                let m := m.setRun key { r with arrived := r.arrived ++ [k.chunk], resTimer := timer }
                ((m.enterResult p i k.chunk tile).herdGo p i herdFuel, .ack)
            else if k.chunk < (r.at_ st).next then (m, .ack)
            else ((m.setRun key (r.addInput st k.chunk j m.now tile)).herdGo p i herdFuel, .ack)

/-- A herd chunk is acknowledged: the upward chunks of an ALLREDUCE start the timer of their result (R375, R378). -/
def Module.herdAcked (m : Module) (p i : Nat) (down : Bool) (c : Nat) : Module :=
  let key := 4096 * p + i
  let h := m.herd key
  match h.run with
  | none => m
  | some r =>
    let m := if down then m
      else
        let timer := if h.op = 1 && !r.arrived.contains c then kput r.resTimer c m.now else r.resTimer
        m.setRun key { r with upAcked := r.upAcked + 1, resTimer := timer }
    m.herdGo p i herdFuel

/-! ## The egress die (R344, R345) -/

/-- The flow and layer of a gradient route that ends at die `die`. -/
def Module.gradRouteAt (m : Module) (p die route : Nat) : Option (Nat × GradRoute) :=
  m.str.flows.findSome? (fun e =>
    if e.1 / 256 = p && e.2.ret && e.2.portDie = die then (e.2.routes.find? (fun r => r.route = route)).map (fun r => (e.1, r))
    else none)

/-- The credit route on which a ring die returns the credit of a packet: that of the reduction unit, or of the send
endpoint, whose packets of the route reach it (R215, R220, R329). -/
def Module.creditBack (m : Module) (die route : Nat) : Option Nat :=
  m.cores.findSome? (fun e =>
    match e.2.binds.find? (fun b => b.route = route && (m.sitesFromUnit e.1 b.unit route).contains (ringSite die)) with
    | some b => some b.crOut
    | none => (e.2.eps.find? (fun q => !q.2.recv && q.2.route = route)).map (fun q => q.2.creditRoute))

/-- KIND of the packets of a gradient format (R213, R344). -/
def gradKind (fmt : Nat) : Nat := if fmt = 4 then 0 else if fmt = 7 then 2 else 1

/-- Bytes at position `pos` of a gradient layer enter its tiles, rounds counted on. -/
def Module.gradBytes (m : Module) (fk l pos tag : Nat) (bs : List Byte) : (fuel : Nat) → Module
  | 0 => m
  | n + 1 =>
    if bs = [] then m
    else
      let f := m.flow fk
      let round := max 1 (f.layerUnits l * 4096)
      let inRound := pos % round
      let t := pos / round * f.layerTiles l + inRound / tileBytes
      let ofs := inRound % tileBytes
      let k := min (tileBytes - ofs) (round - inRound)
      let piece := bs.take k
      let g : GradTile := kgetD {} f.gradTiles (gradKey l t)
      let g := { g with bytes := writeBytes g.bytes ofs piece, got := g.got + piece.length
                        tag := some (match g.tag with | some x => tagCombine x tag | none => tag) }
      (m.setFlow fk { f with gradTiles := kput f.gradTiles (gradKey l t) g }).gradBytes fk l (pos + k) tag (bs.drop k) n

/-- A gradient packet reaches its egress die: its tiles fill, and a layer that is complete joins its herd (R345, R371). -/
def Module.gradAtDie (m : Module) (p die fk : Nat) (r : GradRoute) (f : Flight) : Module :=
  let w := m.flow fk
  if hKind f.hdr ≠ gradKind w.gradFmt ∨ (hKind f.hdr = 2 ∧ hLen f.hdr % 2 = 0) then m.slip p 0x0301 (ringSite die) 5 f.route
  else
    let bs := flitBytes (if w.gradFmt = 7 then exactToMem f.payload else f.payload)
    let span := max 1 (r.units * 4096)
    let pos := r.got / span * (w.layerUnits r.layer * 4096) + r.ofs * 4096 + r.got % span
    let m := m.setFlow fk { w with routes := w.routes.map (fun y =>
      if y.route = r.route then { y with got := y.got + bs.length } else y) }
    let m := m.gradBytes fk r.layer pos (hTag f.hdr) bs 4
    let m := match m.creditBack die f.route with
      | some c => m.ringCredit p die c 1
      | none => m
    let w := m.flow fk
    let round := pos / max 1 (w.layerUnits r.layer * 4096)
    let n := w.layerTiles r.layer
    if (List.range n).all (fun t => w.tileFull r.layer (round * n + t)) then
      let key := 4096 * p + w.herd
      let h := m.herd key
      (m.setHerd key { h with todo := h.todo ++ [(fk, r.layer)] }).herdGo p w.herd herdFuel
    else m

/-- Units that `[b, b + n)` and a GRAD share. -/
def Grad.shared (g : Grad) (b n : Nat) : Nat := min (g.unit + g.count) (b + n) - max g.unit b

/-- What a GRAD still waits for once `[b, b + n)` is acknowledged. -/
def Grad.less (g : Grad) (b n : Nat) : List Grad :=
  if g.shared b n = 0 then [g]
  else
    [({ g with count := b - g.unit } : Grad),
     { g with unit := b + n, count := g.unit + g.count - (b + n) }].filter (fun x => 0 < x.count)

/-- GRAD_ACK arrives (R346): its units are acknowledged; a nonzero STATUS aborts the root's task. -/
def doGradAck (_port _mac : Nat) (msg : Bytes) (m : Module) : Module :=
  let x := leNat (msg.take 32)
  if !pspOk msg || fld x 8 8 ≠ 9 then m.badPsp
  else
    match m.flowOf (fld x 32 32) true with
    | none => if (m.flowOf (fld x 32 32) false).isSome then m else m.unknownStream
    | some fk =>
      let f := m.flow fk
      let p := fk / 256
      let l := fld x 64 16
      let b := fld x 96 32
      let c := fld x 128 32
      let n := ((f.grads.filter (fun g => g.layer = l)).map (fun g => g.shared b c)).foldl (· + ·) 0
      if n = 0 then m
      else if fld x 160 16 ≠ 0 then m.abortTask p 0x0202 (.ring f.portDie)
      else
        (m.setFlow fk { f with grads := f.grads.flatMap (fun g => if g.layer = l then g.less b c else [g])
                               ackedUnits := kmod 0 f.ackedUnits l (fun a => a + n) }).herdGo p f.herd herdFuel

/-- GRAD_ACK_TIMEOUT: a GRAD has had no GRAD_ACK for SRC_MS (R346). -/
def doGradAckTimeout (p i : Nat) (m : Module) : Module :=
  let f := m.flow (256 * p + i)
  if f.grads.any (fun g => m.msPassed g.at_ (fld m.str.timeouts 0 16)) then m.abortTask p 0x0202 (.ring f.portDie) else m

end Sys2Proof.Machine
end

