-- ==== Sys2Proof/Machine/Kerf.lean ====
section
/-! DEFINITION. Kerfs: takes, the cut, the dump, the write to the pool, restores, and the starts of tasks that wait for
them (R398, R405, R420 to R444). -/

namespace Sys2Proof.Machine

open Sys2Proof

/-! ## Record shards (R436, R437) -/

/-- States of a queue as the partition record holds them (R394). -/
def QueueState.code : QueueState → Nat
  | .disabled => 0 | .active => 1 | .stopped => 2 | .disabling => 3

/-- The partition record. -/
def Module.partRecord (m : Module) (p : Nat) : List Byte :=
  (List.range 64).flatMap (fun i => leBytes 4 (m.fence p i))
    ++ (List.range 64).flatMap (fun i =>
      let y := m.queue (64 * p + i)
      leBytes 8 (put 0 16 y.sqHead + put 16 16 y.cqTail + put 32 2 y.st.code + put 34 1 (b2n y.phase)))

/-- A session's record (R409). -/
def sessionRecord (s : Session) : List Byte :=
  leBytes 64 (put 0 3 s.st.code + put 3 3 s.cls + put 6 1 (b2n s.resubmit) + put 8 4 s.model + put 12 6 s.notifyQ
    + put 18 1 (b2n s.notifyEn) + put 32 32 s.slot + put 64 64 s.user + put 128 64 s.readySk + put 192 32 s.steps
    + put 224 32 s.batchSeq)

/-- A thread in a core record: 2 is a thread at a gate point. -/
def threadRecord (th : Thread) : List Byte :=
  let st := match th.st with | .idle => 0 | .ready => 0 | .waiting => 2 | .halted => 3
  leBytes 4 th.pc ++ leBytes 4 st ++ (List.range 32).flatMap (fun i => leBytes 4 (th.xr i).toNat)
    ++ List.replicate 120 0 ++ (List.range 1024).flatMap (fun i => leBytes 4 (kgetD (0 : Word) th.v i).toNat)

/-- Codes of window slot states (R437). -/
def WinSlotState.code : WinSlotState → Nat
  | .free => 0 | .pulled => 1 | .full => 2 | .veneer => 3

/-- A window in a core record: states of its slots in bytes 0 to 7, next slot in byte 8, next table layer in bytes 12
and 13, STEP in bytes 16 to 19 (DESIGN CHOICE, log 26). -/
def windowRecord (w : Window) : List Byte :=
  leBytes 8 ((List.range 16).foldl (fun a s => a + put (4 * s) 4 (w.slot s).st.code) 0) ++ leBytes 4 w.next
    ++ leBytes 4 w.layer ++ leBytes 4 w.step ++ List.replicate 44 0

/-- A core record. -/
def coreRecord (k : Core) : List Byte :=
  padTo 65536 0 ((List.range 8).flatMap (fun t => threadRecord (kgetD {} k.threads t))
    ++ (List.range 16).flatMap (fun i => leBytes 2 (kgetD 0 k.sems i))
    ++ (List.range 64).flatMap (fun e =>
      let x : Endpoint := kgetD {} k.eps e
      leBytes 8 (put 0 12 x.credits + put 16 12 x.nextBuf + put 32 12 (if x.recv then x.count else 0) + put 48 12 x.nextRel))
    ++ (List.range 4).flatMap (fun i => windowRecord (kgetD {} k.wins i))
    ++ (List.range 16).flatMap (fun i =>
      let q : ReqPort := kgetD {} k.ports i
      leBytes 4 (put 0 16 q.done + put 16 16 q.lastTag)))

/-- A herd record. -/
def herdRecord (h : Herd) : List Byte :=
  padTo 512 0 (leBytes 4 h.opSeq ++ (List.range 3).flatMap (fun s =>
    leBytes 128 ((h.lost.filter (fun e => e.1 = s + 1)).foldl (fun a e => a ||| 2 ^ e.2) 0)))

/-- The window with entry index `e` that has a list region, and its core. -/
def Module.listWindow (m : Module) (p e : Nat) : Option (Nat × Window) :=
  m.cores.findSome? (fun c =>
    if (m.part p).hasCore c.1 then
      (c.2.wins.find? (fun w => w.2.entry = e && w.2.listValid)).map (fun w => (c.1, w.2))
    else none)

/-- A list record; a window without a list region has a row of zeros. -/
def Module.listRecord (m : Module) (p e : Nat) : List Byte :=
  match m.listWindow p e with
  | none => List.replicate 72 0
  | some (c, w) =>
    let s := readBytes (m.core c).sram w.listAddr 64
    leBytes 2 w.flow ++ slice s 0 6 ++ s

/-- The position in the sequence of the layer a tail needs next: that of its oldest PULLED slot, or of its next pull. -/
def tailNeeds (f : Flow) (w : Window) : Nat :=
  match w.filling with
  | some s => (w.slot s).step * f.count + ((w.slot s).layer - f.first)
  | none => w.step * f.count + (w.layer - f.first)

/-- The next layer of a flow: the earliest that a tail of it needs; the ingress die's next where it has none (DEDUCED,
log 26). -/
def Module.flowNext (m : Module) (p i : Nat) : Nat :=
  let f := m.flow (256 * p + i)
  let ns := (m.cores.filter (fun e => (m.part p).hasCore e.1)).flatMap (fun e =>
    (e.2.wins.filter (fun w => w.2.tail && w.2.flow = i)).map (fun w => tailNeeds f w.2))
  match ns with
  | [] => f.pos / 16
  | n :: t => t.foldl min n

/-- A flow record; a return flow has no position. -/
def Module.flowRecord (m : Module) (p i : Nat) : List Byte :=
  let f := m.flow (256 * p + i)
  if f.ret then List.replicate 8 0
  else leBytes 4 (f.layerNo (m.flowNext p i)) ++ leBytes 4 (m.flowNext p i / max 1 f.count)

/-! ## Shard bytes (R431, R432) -/

/-- Canonical BF16 bytes narrowed: element bytes of all rows, then a scale byte for each block. -/
def narrowBytes (bs : List Byte) : List Byte :=
  let vs := (chunksOf 2 (bs.length / 2) bs).map (fun b => fpDecode .bf16 (leNat b))
  let blocks := (chunksOf 32 (vs.length / 32) vs).map (fun v => toBlock .e4m3 .rne v (List.replicate 32 0))
  (blocks.flatMap (fun b => b.1.map (fun c => BitVec.ofNat 8 c))) ++ blocks.map (fun b => BitVec.ofNat 8 b.2.1)

/-- The bytes of a shard as the pool holds it, before zero-fill. -/
def Module.shardBytes (m : Module) (p : Nat) (s : KShard) : List Byte :=
  match s.src with
  | .tier a => if s.narrowed then narrowBytes (m.load a s.srcSize) else m.load a s.srcSize
  | .partRec => m.partRecord p
  | .sessions => (List.range s.rows).flatMap (fun h => sessionRecord (m.session p h))
  | .cores first => (List.range s.rows).flatMap (fun i => coreRecord (m.core (first + i)))
  | .herds => (List.range s.rows).flatMap (fun i => herdRecord (m.herd (4096 * p + i)))
  | .lists => (List.range s.rows).flatMap (fun e => m.listRecord p e)
  | .flows => (List.range s.rows).flatMap (fun i => m.flowRecord p i)

/-- The tile of Terourn space that tile `i` of a shard is a copy of (R432); none for a narrowed shard or one of records. -/
def KShard.copyOf (s : KShard) (i : Nat) : Option Nat :=
  match s.src with
  | .tier a => if s.narrowed then none else some (a / tileBytes + i)
  | _ => none

/-- A shard's tile in the form of R310: one from a compressed tile keeps its body under a new header, and one that its object holds raw
travels raw (R432). `bs` are the shard's bytes. -/
def Module.shardTile (m : Module) (s : KShard) (index i : Nat) (bs : List Byte) : List Byte :=
  let t := padTo tileBytes 0 (slice bs (i * tileBytes) tileBytes)
  match s.copyOf i with
  | none => codedTransit s.width 0xFFFF index (i % 32) t
  | some g =>
    if m.packed (g / 32) (g % 32) then
      let x := m.slot (g / 32) (g % 32)
      transitOf (tileHeader (bodyLenOf x) s.width 0xFFFF index (i % 32)) (slice x 32 (bodyLenOf x))
    else if bitAt (m.page (g / 32)).rawMask (g % 32) then rawTransit s.width 0xFFFF index (i % 32) t
    else codedTransit s.width 0xFFFF index (i % 32) t

/-- The tiles of Terourn space that tile `i` of a shard is made from: of a narrowed shard those of its elements and of the blocks whose scales
it holds (R431). -/
def KShard.sources (s : KShard) (i : Nat) : List Nat :=
  match s.src with
  | .tier a =>
    if s.narrowed then
      let n := s.rows * s.cols
      let b := i * tileBytes
      let elems := tilesOf (a + 2 * b) (2 * (min n (b + tileBytes) - b))
      let blocks := tilesOf (a + 64 * (b - n)) (64 * (min s.size (b + tileBytes) - max n b))
      (elems ++ blocks).eraseDups
    else [a / tileBytes + i]
  | _ => []

/-- The Terourn pages that tile `i` of a shard is the last of: a narrowed shard holds its pages to its last tile. -/
def KShard.pages (s : KShard) (i : Nat) : List Nat :=
  match s.src with
  | .tier a =>
    if s.narrowed then
      if i + 1 = s.tiles then (List.range ((a + s.srcSize - 1) / pageBytes + 1 - a / pageBytes)).map (fun j => a / pageBytes + j)
      else []
    else [(a + i * tileBytes) / pageBytes]
  | _ => []

/-- Each page stays only at the last tile that names it. -/
def lastPages : List KerfTile → List KerfTile
  | [] => []
  | t :: ts =>
    let rest := lastPages ts
    { t with pages := t.pages.filter (fun g => !rest.any (fun u => u.pages.contains g)) } :: rest

/-! ## Manifests (R434, R435) -/

/-- A shard entry. -/
def shardEntry (s : KShard) (addr : Nat) : List Byte :=
  leBytes 64 (put 0 32 s.tensor + put 32 4 s.fmt + put 36 1 (b2n s.narrowed) + put 37 2 s.width + put 64 32 s.row0
    + put 96 32 s.rows + put 128 32 s.col0 + put 160 32 s.cols + put 192 64 addr + put 256 32 s.tiles)

/-- The manifest of a take. -/
def Module.manifest (m : Module) (p : Nat) (t : Take) (ss : List (KShard × Nat)) : List Byte :=
  let x := m.part p
  let h := leBytes 128 (put 0 32 0x4652_454B + put 32 16 1 + put 48 1 (b2n t.gate)
    + put 49 1 (b2n (ss.any (fun s => s.1.narrowed))) + put 64 64 (mapJob t.map) + put 128 32 t.generation + put 160 4 p
    + put 192 64 x.seed + put 256 256 (mapDigest t.map).toNat + put 512 32 ss.length + put 544 32 t.cutSeq
    + put 576 64 t.cutSk)
  let b := h ++ ss.flatMap (fun s => shardEntry s.1 s.2)
  b ++ leBytes 4 (crc32c b)

/-- The pool address of each shard of an area, from `addr` on. -/
def placeShards : List KShard → (addr : Nat) → List (KShard × Nat)
  | [], _ => []
  | s :: t, a => (s, a) :: placeShards t (a + s.tiles * tileBytes)

/-- The tiles of a kerf in the order they are written (R433): tile 0 as zeros, every shard, manifest tiles 1 onward, and
manifest tile 0. -/
def Module.kerfTiles (m : Module) (p : Nat) (t : Take) : List KerfTile :=
  let shards := m.kerfShards p t.map t.gate
  let n := manifestTiles shards.length
  let ss := placeShards shards (t.dest + n * tileBytes)
  let man := m.manifest p t ss
  let manTile (i : Nat) : KerfTile :=
    { addr := t.dest + i * tileBytes
      payload := rawTransit 0 0xFFFF 0xFFFF_FFFF (i % 32) (padTo tileBytes 0 (slice man (i * tileBytes) tileBytes)) }
  let body := (List.range ss.length).flatMap (fun j =>
    let e := ss.getD j ({}, 0)
    let bs := m.shardBytes p e.1
    (List.range e.1.tiles).map (fun i =>
      ({ addr := e.2 + i * tileBytes, payload := m.shardTile e.1 j i bs, pages := e.1.pages i, src := e.1.sources i, part_ := (j, i) } : KerfTile)))
  let zero : KerfTile :=
    { addr := t.dest, payload := rawTransit 0 0xFFFF 0xFFFF_FFFF 0 (List.replicate tileBytes 0) }
  zero :: (lastPages body ++ ((List.range (n - 1)).map (fun i => manTile (i + 1)) ++ [manTile 0]))

/-! ## Takes (R425 to R430) -/

/-- Whether two pool areas, in tiles, overlap. -/
def overlaps (a n b k : Nat) : Bool := a < b + k * tileBytes && b < a + n * tileBytes

/-- Whether an area meets the committed kerf of `p`, or a kerf being written (R425). -/
def Module.areaBusy (m : Module) (p dest n : Nat) : Bool :=
  let f := (m.part p).krf
  (f.comTiles ≠ 0 && overlaps dest n f.comDest f.comTiles)
    || m.parts.any (fun e => match e.2.krf.take with
      | some t => overlaps dest n t.dest t.area
      | none => false)

/-- The start checks that a take and a restore share (R425, R438, R439). -/
def Module.kerfOpen (m : Module) (p : Nat) (map : List Byte) : Bool :=
  let x := m.part p
  m.poolPorts ≠ [] && x.krf.phase = .idle && mapDigest map = x.krf.jigDigest && !m.jig.locked.contains p

/-- The regions of SRAM of a map, each with its offset in IMAGE_OBJ. -/
def t0Regions (map : List Byte) : List (KRegion × Nat) :=
  (imageOffsets (mapRegions map) 0).1.filter (fun e => !e.1.loc1)

/-- The clusters a dump reads (R468). -/
def dumpClusters (map : List Byte) : List Nat := ((t0Regions map).map (fun e => clusterOf e.1.core)).eraseDups

/-- The cut: from here the partition pauses (R426, R428, R429). -/
def Module.cutNow (m : Module) (p : Nat) : Module :=
  let m := m.modPart p (fun x => { x with krf := { x.krf with
    phase := .dumping
    take := x.krf.take.map (fun t => { t with cutSk := m.now, cutSeq := x.taskSeq }) } })
  match (m.part p).krf.take with
  | some t => m.askWakes (dumpClusters t.map)
  | none => m

/-- KRF_TAKE (R425, R426, R428): the entry checks have passed; the start checks, and the take begins. A boundary take
with no task cuts at once. -/
def doKrfTake (q : Nat) (m : Module) : Module :=
  let y := m.queue q
  let p := q / 64
  let x := m.part p
  let gate := y.param 128 1 = 1
  let dest := y.param 192 64
  let area := areaTiles (m.kerfShards p y.map gate)
  if !m.atStart q 0x40 then m
  else if (x.st ≠ .running && x.st ≠ .ready && x.st ≠ .halted) || !m.kerfOpen p y.map || m.areaBusy p dest area
      || (gate && !x.taskRunning) then m.badStart q
  else
    let t : Take := { queue := q, gate := gate, generation := y.param 96 32, dest := dest, area := area, map := y.map
                      startAt := m.now }
    let m := (m.startCmd q).modPart p (fun x => { x with
      krf := { x.krf with phase := .awaitingCut, generation := t.generation, take := some t } })
    if !gate && !x.taskRunning then m.cutNow p else m

/-- Whether a thread waits at a gate point (R427). -/
def Core.atGate (k : Core) (th : Thread) : Bool :=
  th.st = .waiting && fld (k.fetch th) 0 8 = 0x03 && iIDX (k.fetch th) = 15

/-- The enabled threads of a core. -/
def Core.enabled (k : Core) : List Thread :=
  match k.img with
  | none => []
  | some im => ((List.range 8).filter (fun t => bitAt im.threadEn t)).map (fun t => kgetD {} k.threads t)

/-- Whether partition `p` is quiet (R428). -/
def Module.quiet (m : Module) (p : Nat) : Bool :=
  let x := m.part p
  let cs := (m.cores.filter (fun e => x.hasCore e.1)).map Prod.snd
  cs.all (fun k => k.enabled.all (fun th => th.st = .halted || k.atGate th))
    && cs.any (fun k => k.enabled.any (fun th => k.atGate th))
    && cs.all (fun k => k.engQ.isEmpty && k.vecQ.isEmpty && k.carry.all (fun s => s.2.st = .empty) && k.eps.all (fun e => e.2.recv || e.2.count = 0)
      && k.ports.all (fun q => q.2.open_ = 0))
    && m.cores.all (fun e => e.2.binds.all (fun b => b.part ≠ p || (b.qFirst = [] && b.qSecond = [])))
    && !m.net.flights.any (fun f => f.part = p)
    && !m.tier.reqs.any (fun r => r.part = p)
    && !m.herds.any (fun e => e.1 / 4096 = p && e.2.run.isSome)
    && !m.que.models.any (fun e => e.1 / 16 = p && e.2.open_ ≠ [])

/-- CUT: the partition is quiet under a GATE take, or no task runs any more under a BOUNDARY take. -/
def doCut (p : Nat) (m : Module) : Module :=
  let x := m.part p
  match x.krf.take with
  | none => m
  | some t =>
    if x.krf.phase ≠ .awaitingCut then m
    else if if t.gate then !x.taskRunning || !x.started || !m.quiet p else x.taskRunning then m
    else m.cutNow p

/-- QUIET_TIMEOUT: a GATE take is not quiet within QUIET_MS of its start (R428). -/
def doQuietTimeout (p : Nat) (m : Module) : Module :=
  let x := m.part p
  match x.krf.take with
  | none => m
  | some t =>
    if !t.gate || x.krf.phase ≠ .awaitingCut || !m.msPassed t.startAt (max 1 (fld m.launch.limits 0 16)) then m
    else m.failTake p

/-- Canonical bytes of a region of SRAM (R423). -/
def Module.canonical (m : Module) (r : KRegion) : List Byte :=
  (List.range r.rows).flatMap (fun i => readBytes (m.core r.core).sram (r.addr + i * r.stride) r.rowBytes)

/-- An uncorrectable word of SRAM that a region reads, by address ÷ 32. -/
def Module.regionT0Bad (m : Module) (r : KRegion) : Option Nat :=
  (m.core r.core).badWords.find? (fun w => (List.range r.rows).any (fun i =>
    (r.addr + i * r.stride) / 32 ≤ w && w < (r.addr + i * r.stride + r.rowBytes + 31) / 32))

/-- Bytes stored over a Terourn range, page by page; false where a page cannot be written (R282). -/
def Module.storeRange (m : Module) (o : PoolOwner) (addr : Nat) : (fuel : Nat) → List Byte → Module × Bool
  | 0, _ => (m, true)
  | _, [] => (m, true)
  | n + 1, bs =>
    let k := pageBytes - addr % pageBytes
    if m.storeFails (addr / pageBytes) then (m, false) else (m.store addr (bs.take k) o).1.storeRange o (addr + k) n (bs.drop k)

/-- An uncorrectable word of SRAM is logged with task id 0, outside a task. -/
def Module.t0Event (m : Module) (c w : Nat) : Module := (m.t0Unc c w).logEvent 0x0402 (t0Loc c w) (detail := w / 40)

/-- An uncorrectable word of T1 of page `pg` is logged with task id 0, outside a task. -/
def Module.t1Event (m : Module) (pg stack row : Nat) : Module :=
  (m.t1Unc stack row).logEvent 0x0402 { Loc.ring ((m.home? pg).getD 0) with sub := stack } (detail := row)

/-- The first uncorrectable word that a dump meets is logged with task id 0 (R438); none where every word is good. -/
def Module.dumpFault (m : Module) (map : List Byte) : Option Module :=
  ((mapRegions map).findSome? (fun r => if r.loc1 then none else (m.regionT0Bad r).map (fun w => (r.core, w)))).map
    (fun e => m.t0Event e.1 e.2)

/-- The dump of the T0 regions into IMAGE_OBJ; false where a page of it cannot be written. A region's last tile is filled with zeros (DESIGN
CHOICE, log 123). -/
def Module.dump (m : Module) (p : Nat) (map : List Byte) : Module × Bool :=
  let o : TierObj := kgetD {} m.tier.objects (4096 * p + mapImage map)
  (t0Regions map).foldl (fun a e =>
    if a.2 then
      a.1.storeRange (.kerfSource p) (o.base * pageBytes + e.2) (e.1.size / pageBytes + 2)
        (padTo (tileBytes * ceilDiv e.1.size tileBytes) 0 (a.1.canonical e.1))
    else a) (m, true)

/-- The pool's bytes of tile `g` of Terourn space are in place: the tiles of a take that are made from it are formed again, while no page of
theirs has been copied ahead or sent. -/
def Module.refreshTake (m : Module) (p g : Nat) : Module :=
  match (m.part p).krf.take with
  | none => m
  | some t =>
    let ss := m.kerfShards p t.map t.gate
    let again (k : KerfTile) : KerfTile :=
      if k.src.contains g && k.src.all (fun h => (m.page (h / 32)).pending) then
        let s := ss.getD k.part_.1 {}
        { k with payload := m.shardTile s k.part_.1 k.part_.2 (m.shardBytes p s) }
      else k
    m.modPart p (fun x => { x with krf := { x.krf with take := some { t with tiles := t.tiles.map again } } })

/-- What the home die reads for a tile of a kerf: the tiles it is made from whose page has not been copied ahead. -/
def Module.kerfReads (m : Module) (k : KerfTile) : List Nat := k.src.filter (fun g => (m.page (g / 32)).pending)

/-- The head of a take's tiles is sent once what it is made from is at hand; a page whose last tile it is is no longer pending (R430). A word
that is uncorrectable, or a tier that cannot be read, ends the take (R438). -/
def Module.sendKerf (m : Module) (p : Nat) : Module :=
  let x := m.part p
  match x.krf.take with
  | none => m
  | some t =>
    match t.tiles with
    | [] => m
    | h :: _ =>
      if t.sent then m
      else
      let gs := m.kerfReads h
      match gs.findSome? (fun g => (m.badIn (g * tileBytes) tileBytes).map (fun b => (g / 32, b))), m.poolPort (h.addr / pageBytes),
          m.fetchTiles (.kerfSource p) gs with
      | some (pg, stack, row), _, _ => (m.t1Event pg stack row).failTake p
      | none, some port, some (m, got) =>
        if gs.any (fun g => (m.page (g / 32)).tier = 2) && !m.hostUp then m.failTake p
        else if !got then m
        else
        let m := gs.foldl (fun m g => m.readT1 (g * tileBytes) tileBytes) m
        let m := h.pages.foldl (fun m g => m.setPage g { m.page g with pending := false }) m
        let m := m.modPart p (fun x => { x with krf := { x.krf with take := some { t with sent := true } } })
        ((m.poolWrite port h.addr h.payload (.kerf p)).serveAll p).herdsGo p
      | _, _, _ => m.failTake p

/-- POOL_DATA for a tile that a kerf is made from, or for a bounce frame of page `pg`: the tile goes in its place; one that fails R295, or has
a nonzero STATUS, ends the take (R438). -/
def Module.kerfData (m : Module) (op : PoolOp) (p status : Nat) (payload : List Byte) : Module :=
  if (m.part p).krf.take.isNone then m
  else if status ≠ 0 then m.failTake p
  else
    match m.bufferTile op payload, m.placeOfPool op.addr with
    | some m, some (pg, t) =>
      let m := m.refreshTake p (32 * pg + t)
      if op.owner = .kerfSource p then m.sendKerf p else (m.serveAll p).herdsGo p
    | some m, none => m
    | none, _ => m.failTake p

/-- DUMP_END: the T0 regions are in IMAGE_OBJ; records are captured, pages become pending, the pause ends and the first
pool tile goes (R429 to R433). -/
def doDumpEnd (p : Nat) (m : Module) : Module :=
  let x := m.part p
  match x.krf.take with
  | none => m
  | some t =>
    if x.krf.phase ≠ .dumping || m.net.flights.any (fun f => f.part = p) || m.jig.phase = .writing
        || !(dumpClusters t.map).all (fun cl => (m.cluster cl).st = .on) then m
    else
      match m.dumpFault t.map with
      | some m => m.failTake p
      | none =>
        let (m, whole) := m.dump p t.map
        if !whole then m.failTake p
        else
        let tiles := m.kerfTiles p t
        let m := (tiles.flatMap (fun k => k.pages)).foldl (fun m g => m.setPage g { m.page g with pending := true }) m
        let m := m.modPart p (fun x => { x with
          krf := { x.krf with phase := .writing, take := some { t with tiles := tiles } } })
        let m := if x.taskRunning then m else m.restClusters p
        ((m.feedAll p).serveAll p).sendKerf p

/-- The kerf of a take commits (R433). -/
def Module.commitKerf (m : Module) (p : Nat) (t : Take) : Module :=
  let m := m.clearPending p
  let m := m.modPart p (fun x => { x with krf := { x.krf with
    take := none, phase := .idle, comGen := t.generation, comTiles := t.area, comDest := t.dest,
    commits := satN 32 (x.krf.commits + 1) } })
  m.complete t.queue 0 0

/-- The pool acknowledges a tile of a kerf (R433): bounce frames of its pages are free again, and the next tile goes. -/
def Module.kerfAck (m : Module) (op : PoolOp) (p status : Nat) : Module :=
  match (m.part p).krf.take with
  | none => m
  | some t =>
    match t.tiles with
    | [] => m
    | h :: rest =>
      if !t.sent || h.addr ≠ op.addr then m
      else if status ≠ 0 then m.failTake p
      else
        let t := { t with tiles := rest, sent := false }
        let m := { m with tier.bouncePages := m.tier.bouncePages.filter (fun b => !(b.1 = p && h.pages.contains b.2)) }
        if rest = [] then m.commitKerf p t
        else
          (((m.modPart p (fun x => { x with krf := { x.krf with take := some t } })).serveAll p).herdsGo p).sendKerf p

/-! ## Restores (R439 to R444) -/

/-- A restore of partition `p` ends with a code (R440, R444): RESTORE_BAD when a target byte has been written. Writes that the pool has not
acknowledged go on without it. -/
def Module.failRestore (m : Module) (p code : Nat) : Module :=
  match (m.part p).krf.restore with
  | none => m
  | some r =>
    let m := m.modPart p (fun x => { x with krf := { x.krf with
      restore := none, phase := .idle, restoreBad := x.krf.restoreBad || r.wrote } })
    let m := { m with str.poolWrites := m.str.poolWrites.map (fun (o : PoolOp) =>
      if o.owner = PoolOwner.restoreDst p then { o with owner := .nobody } else o) }
    let m := if code = 0x0702 then m.logEvent 0x0702 .module (part := some p) else m
    m.complete r.queue code 0

/-- The next tile a restore wants is read from the pool. -/
def Module.readNext (m : Module) (p : Nat) : Module :=
  match (m.part p).krf.restore with
  | none => m
  | some r =>
    match r.want with
    | [] => m
    | (a, _) :: _ =>
      match m.poolPort (a / pageBytes) with
      | none => m.failRestore p 0x0202
      | some port => m.poolRead port a (.restore p)

/-- The restore of partition `p` replaced. -/
def Module.setRestore (m : Module) (p : Nat) (r : Restore) : Module :=
  m.modPart p (fun x => { x with krf := { x.krf with restore := some r } })

/-- SHARDS of the manifest at a pool address, from its tile 0. -/
def Restore.shardsOf (r : Restore) (a : Nat) : Nat := leAt (kgetD [] r.tiles a) 64 4
/-- The bytes of the manifest at a pool address. -/
def Restore.bytesOf (r : Restore) (a : Nat) : List Byte :=
  (List.range (manifestTiles (r.shardsOf a))).flatMap (fun i => kgetD [] r.tiles (a + i * tileBytes))

/-- A shard entry of a manifest: its fields, its pool address, and the tiles it occupies. -/
structure MShard where
  s : KShard := {}
  index : Nat := 0
  addr : Nat := 0
  tiles : Nat := 0
deriving DecidableEq, Repr

/-- A shard entry from its 64 bytes. -/
def mshardOf (index : Nat) (bs : List Byte) : MShard :=
  let x := leNat bs
  { s := { tensor := fld x 0 32, fmt := fld x 32 4, narrowed := bitAt x 36, width := fld x 37 2, row0 := fld x 64 32
           rows := fld x 96 32, col0 := fld x 128 32, cols := fld x 160 32 }
    index := index, addr := fld x 192 64, tiles := fld x 256 32 }

/-- The shards of the manifest at a pool address. -/
def Restore.shards (r : Restore) (a : Nat) : List MShard :=
  let b := r.bytesOf a
  (List.range (r.shardsOf a)).map (fun i => mshardOf i (slice b (128 + 64 * i) 64))

/-- Every shard of every listed manifest, in manifest and shard order. -/
def Restore.allShards (r : Restore) : List MShard := r.list.flatMap (fun a => r.shards a)

/-- Whether a manifest's header fails a check of R440 that tile 0 shows. -/
def Module.badHead (m : Module) (p : Nat) (r : Restore) (a : Nat) : Bool :=
  let h := leNat ((kgetD [] r.tiles a).take 128)
  fld h 0 32 ≠ 0x4652_454B || fld h 32 16 ≠ 1 || fld h 64 64 ≠ mapJob r.map || fld h 128 32 ≠ r.generation
    || fld h 192 64 ≠ (m.part p).seed

/-- Whether the MCRC of a manifest is wrong. -/
def Restore.badCrc (r : Restore) (a : Nat) : Bool :=
  let n := 128 + 64 * r.shardsOf a
  crc32c ((r.bytesOf a).take n) ≠ leAt (r.bytesOf a) n 4

/-- Whether the manifest at a pool address is of a gate kerf. -/
def Restore.isGate (r : Restore) (a : Nat) : Bool := bitAt (leNat ((kgetD [] r.tiles a).take 128)) 48

/-- Whether a restore is exact (R440). -/
def Restore.exact (r : Restore) (p : Nat) : Bool :=
  match r.list with
  | [a] =>
    let h := leNat ((kgetD [] r.tiles a).take 128)
    fld h 256 256 = (mapDigest r.map).toNat && fld h 160 4 = p
  | _ => false

/-- Whether a shard covers an element of a tensor. -/
def MShard.covers (s : MShard) (row col : Nat) : Bool :=
  s.s.row0 ≤ row && row < s.s.row0 + s.s.rows && s.s.col0 ≤ col && col < s.s.col0 + s.s.cols

/-- The shards that may fill a region (R441). -/
def Restore.eligible (r : Restore) (g : KRegion) : List MShard :=
  r.allShards.filter (fun s => s.s.tensor = g.tensor && s.s.fmt = g.fmt)

/-- Whether every element of a region has a shard. -/
def Restore.covered (r : Restore) (g : KRegion) : Bool :=
  let ss := r.eligible g
  (List.range g.rows).all (fun i => (List.range g.cols).all (fun j => ss.any (fun s => s.covers (g.row0 + i) (g.col0 + j))))

/-- Whether shard `s` fills some element of region `g`. -/
def Restore.usedBy (r : Restore) (s : MShard) (g : KRegion) : Bool :=
  let ss := r.eligible g
  (List.range g.rows).any (fun i => (List.range g.cols).any (fun j =>
    ss.find? (fun t => t.covers (g.row0 + i) (g.col0 + j)) = some s))

/-- Whether a shard holds records. -/
def MShard.isRecord (s : MShard) : Bool := 0xFFFF_FFF0 ≤ s.s.tensor

/-- Whether a restore reads a record shard (R442): all kinds in an exact one; fences and sessions of manifest 0 and every
list record in a re-sliced one. -/
def Restore.wantsRecord (r : Restore) (p : Nat) (first : Bool) (s : MShard) : Bool :=
  r.exact p || s.s.tensor = 0xFFFF_FFF4 || (first && (s.s.tensor = 0xFFFF_FFF0 || s.s.tensor = 0xFFFF_FFF1))

/-- The shards a restore reads, in order; each once, however often its manifest is listed (R441). -/
def Restore.needed (r : Restore) (p : Nat) : List MShard :=
  let gs := mapRegions r.map
  ((List.range r.list.length).flatMap (fun k =>
    (r.shards (r.list.getD k 0)).filter (fun s =>
      if s.isRecord then r.wantsRecord p (decide (k = 0)) s else gs.any (fun g => r.usedBy s g)))).eraseDups

/-- The tiles of shards to read: pool address, PAGE, TILE and WIDTH. -/
def shardReads (ss : List MShard) : List (Nat × Nat × Nat × Nat) :=
  (ss.flatMap (fun s => (List.range s.s.tiles).map (fun i => (s.addr + i * tileBytes, s.index, i % 32, s.s.width)))).eraseDups

/-- The bytes of a shard whose tiles have been read. -/
def Restore.shardData (r : Restore) (s : MShard) : List Byte :=
  (List.range s.s.tiles).flatMap (fun i => kgetD [] r.tiles (s.addr + i * tileBytes))

/-- The code of the element of a shard at (row, column) of its tensor: a narrowed one widened to BF16 (R431). -/
def MShard.elem (s : MShard) (bs : List Byte) (row col : Nat) : Nat :=
  let i := row - s.s.row0
  let j := col - s.s.col0
  if s.s.narrowed then
    let k := i * s.s.cols + j
    let scale := leAt bs (s.s.rows * s.s.cols + k / 32) 1
    if scale = 0xFF then 0x7FC0
    else
      match fpDecode .e4m3 (leAt bs k 1) with
      | .fin neg n d =>
        let (a, b) := scale2 n d ((scale : Int) - 127)
        (fpRound .bf16 .rne 0 (.fin neg a b)).1
      | v => (fpRound .bf16 .rne 0 v).1
  else
    let w := (fmtOf s.s.fmt).bits
    let at_ := i * (s.s.cols * w / 8)
    fld (leAt bs (at_ + j * w / 8) ((w + 7) / 8 + 1)) (j * w % 8) w

/-- The tile of a shard with which the element at (row, column) can be written: the tile that holds it, or, of a narrowed shard, the last,
which brings the last scale. -/
def MShard.tileOf (s : MShard) (row col : Nat) : Nat :=
  if s.s.narrowed then s.s.tiles - 1
  else ((row - s.s.row0) * (s.s.cols * (fmtOf s.s.fmt).bits / 8) + (col - s.s.col0) * (fmtOf s.s.fmt).bits / 8) / tileBytes

/-- The elements of row `i` of region `g` that tile `t` of shard `s` brings, by column. -/
def Restore.columns (r : Restore) (s : MShard) (t : Nat) (g : KRegion) (i : Nat) : List Nat :=
  let ss := r.eligible g
  (List.range g.cols).filter (fun j =>
    ss.find? (fun u => u.covers (g.row0 + i) (g.col0 + j)) = some s && s.tileOf (g.row0 + i) (g.col0 + j) = t)

/-- Runs of successive columns: the first of each, and how many. -/
def colRuns : List Nat → List (Nat × Nat)
  | [] => []
  | j :: t =>
    match colRuns t with
    | (b, n) :: rest => if b = j + 1 then (j, n + 1) :: rest else (j, 1) :: (b, n) :: rest
    | [] => [(j, 1)]

/-- The bytes of a run of elements of row `i` of region `g`. -/
def MShard.run (s : MShard) (bs : List Byte) (g : KRegion) (i j n : Nat) : List Byte :=
  leBytes (n * g.bits / 8) ((List.range n).foldl (fun a k => a + put (g.bits * k) g.bits (s.elem bs (g.row0 + i) (g.col0 + j + k))) 0)

/-- The first uncorrectable word of T1 that a write of a range must read: one that it covers in part, or any of a compressed tile that it covers
in part. -/
def Module.badUnder (m : Module) (addr n : Nat) : Option (Nat × Nat) :=
  (m.tier.badWords.find? (fun e =>
    let g := 32 * e.1 / tileBytes
    m.readsWord addr n e.1
      && (if m.packed (g / 32) (g % 32) then !(addr ≤ g * tileBytes && (g + 1) * tileBytes ≤ addr + n)
          else !((addr + 31) / 32 ≤ e.1 && e.1 < (addr + n) / 32)))).map Prod.snd

/-- An uncorrectable word of SRAM that a write of a range covers in part. -/
def Core.badUnder (k : Core) (a n : Nat) : Option Nat :=
  k.badWords.find? (fun w => a / 32 ≤ w && w < (a + n + 31) / 32 && !((a + 31) / 32 ≤ w && w < (a + n) / 32))

/-- Bytes written to a target region from an offset of row `i` on; the code of a failure where it fails (R444). -/
def Module.writeRun (m : Module) (p : Nat) (g : KRegion) (i ofs : Nat) (bs : List Byte) : Module × Option Nat :=
  if g.loc1 then
    let a := g.addr + i * g.rowBytes + ofs
    match m.badUnder a bs.length with
    | some (stack, row) => (m.t1Event (a / pageBytes) stack row, some 0x0402)
    | none =>
      let (m, ok) := m.storeRange (.restoreDst p) a (bs.length / pageBytes + 2) bs
      (m, if ok then none else some 0x0202)
  else
    let a := g.addr + i * g.stride + ofs
    match (m.core g.core).badUnder a bs.length with
    | some w => (m.t0Event g.core w, some 0x0402)
    | none => (m.modCore g.core (fun k => { k with sram := writeBytes k.sram a bs }.rewrite a bs.length), none)

/-- Every run of elements that tile `t` of shard `s` brings to target regions: region, row, first column and how many (R441). -/
def Restore.runsOf (r : Restore) (s : MShard) (t : Nat) : List (KRegion × Nat × Nat × Nat) :=
  (mapRegions r.map).flatMap (fun g =>
    if r.usedBy s g then
      (List.range g.rows).flatMap (fun i => (colRuns (r.columns s t g i)).map (fun e => (g, i, e.1, e.2)))
    else [])

/-- Tile `t` of a shard, read and decoded, is written to its places; the code of the first write that fails. -/
def Module.writeTile (m : Module) (p : Nat) (r : Restore) (s : MShard) (t : Nat) : Module × Option Nat :=
  let bs := r.shardData s
  (r.runsOf s t).foldl (fun a e =>
    match a with
    | (m, some code) => (m, some code)
    | (m, none) =>
      let (g, i, j, n) := e
      let a := g.addr + i * g.rowBytes + j * g.bits / 8
      let begins : Bool := (m.badUnder a (n * g.bits / 8)).isNone && !m.storeFails (a / pageBytes)
      let (m, code) := m.writeRun p g i (j * g.bits / 8) (s.run bs g i j n)
      let t2 : Bool := g.loc1 && (m.page ((g.addr + i * g.rowBytes) / pageBytes)).tier = 2
      (m.modPart p (fun x => { x with krf := { x.krf with restore := x.krf.restore.map (fun r =>
        { r with wrote := r.wrote || code.isNone || (g.loc1 && begins), hostAt := if t2 then some m.now else r.hostAt }) } }), code)) (m, none)

/-! ### Records (R442, R443) -/

/-- The rows of a record kind in one manifest: key and bytes. -/
def Restore.rowsIn (r : Restore) (a kind : Nat) : List (Nat × List Byte) :=
  ((r.shards a).filter (fun s => s.s.tensor = kind)).flatMap (fun s =>
    let bs := r.shardData s
    (List.range s.s.rows).map (fun i => (s.s.row0 + i, slice bs (i * s.s.cols) s.s.cols)))

/-- The rows of a record kind in every manifest, in order. -/
def Restore.rows (r : Restore) (kind : Nat) : List (Nat × List Byte) := r.list.flatMap (fun a => r.rowsIn a kind)

/-- A session from its record: IN_BATCH becomes READY, and CLOSING FREE. -/
def sessionOf (bs : List Byte) : Session :=
  let x := leNat bs
  let st : SessState := match fld x 0 3 with
    | 1 => .idle | 2 => .ready | 3 => .ready
    | _ => .free
  { st := st, cls := fld x 3 3, resubmit := bitAt x 6, model := fld x 8 4, notifyQ := fld x 12 6, notifyEn := bitAt x 18
    slot := fld x 32 32, user := fld x 64 64, readySk := fld x 128 64, steps := fld x 192 32, batchSeq := fld x 224 32 }

/-- The H fields of a state block written from a record (R442). -/
def Module.putList (m : Module) (c a : Nat) (row : List Byte) : Module :=
  m.modCore c (fun k => { k with sram := putListState k.sram a (listStateAt (listCells 0 (slice row 8 64)) 0) })

/-- The windows of a partition that have a list region, by entry index. -/
def Module.listWindows (m : Module) (p : Nat) : List (Nat × Nat × Window) :=
  (List.range (m.part p).windows).filterMap (fun e => m.listWindow p e |>.map (fun w => (e, w.1, w.2)))

/-- List regions of an exact restore: each window takes its own row. -/
def Module.listsExact (m : Module) (p : Nat) (rows : List (Nat × List Byte)) : Module :=
  (m.listWindows p).foldl (fun m e =>
    match rows.find? (fun r => r.1 = e.1) with
    | some (_, row) => m.putList e.2.1 e.2.2.listAddr row
    | none => m) m

/-- List regions of a re-sliced restore: each takes the first record of its flow, width and range; one without a match
sets PRED_RESET. -/
def Module.listsSliced (m : Module) (p : Nat) (rows : List (Nat × List Byte)) : Module :=
  (m.listWindows p).foldl (fun m e =>
    let a := e.2.2.listAddr
    match rows.find? (fun r => leAt r.2 0 1 = e.2.2.flow && slice r.2 2 6 = readBytes (m.core e.2.1).sram a 6) with
    | some (_, row) => m.putList e.2.1 a row
    | none => m.modPart p (fun x => { x with krf := { x.krf with predReset := true } })) m

/-- Fences from a partition record. -/
def Module.putFences (m : Module) (p : Nat) (row : List Byte) : Module :=
  (List.range 64).foldl (fun m i => m.setFence p i (leAt row (4 * i) 4)) m

/-- Every target element is written: records are restored and the restore completes (R442 to R444). -/
def Module.endRestore (m : Module) (p : Nat) (r : Restore) : Module :=
  let exact := r.exact p
  let a0 := r.list.headD 0
  let sess := (r.rowsIn a0 0xFFFF_FFF1).map (fun e => (e.1, sessionOf e.2))
  let cap := (m.part p).sessionCap
  if !exact && sess.any (fun e => cap ≤ e.1 && e.2.st ≠ .free) then m.failRestore p 0x0602
  else
    let m := m.modPart p (fun x => { x with krf := { x.krf with
      predReset := false, notBitExact := (r.needed p).any (fun s => s.s.narrowed), restoreBad := false } })
    let m := match (r.rowsIn a0 0xFFFF_FFF0).head? with
      | some (_, row) => m.putFences p row
      | none => m
    let m := sess.foldl (fun m e => m.setSession p e.1 e.2) m
    let m := if exact then m.listsExact p (r.rows 0xFFFF_FFF4) else m.listsSliced p (r.rows 0xFFFF_FFF4)
    let gate := exact && r.isGate a0
    let m := m.modPart p (fun x => { x with krf := { x.krf with
      restore := none, phase := .idle, resume := x.krf.resume || gate
      resumeCores := if gate then r.rows 0xFFFF_FFF2 else x.krf.resumeCores
      resumeHerds := if gate then r.rows 0xFFFF_FFF3 else x.krf.resumeHerds
      resumeFlows := if gate then r.rows 0xFFFF_FFF5 else x.krf.resumeFlows } })
    m.complete r.queue 0 0

/-- The stage of a restore is over: its next reads, its checks (R440, R441), or its end. -/
def Module.nextStage (m : Module) (p : Nat) (r : Restore) : Module :=
  match r.stage with
  | .heads =>
    if r.list.any (fun a => m.badHead p r a) then m.failRestore p 0x0702
    else
      let want := r.list.flatMap (fun a => (List.range (manifestTiles (r.shardsOf a) - 1)).map (fun i =>
        (a + (i + 1) * tileBytes, 0xFFFF_FFFF, (i + 1) % 32, 0)))
      m.setRestore p { r with stage := .manifests, want := want }
  | .manifests =>
    if r.list.any (fun a => r.badCrc a) then m.failRestore p 0x0702
    else if !r.exact p && r.list.any (fun a => r.isGate a) then m.failRestore p 0x0601
    else if !(mapRegions r.map).all (fun g => r.covered g) then m.failRestore p 0x0702
    else m.setRestore p { r with stage := .shards, want := shardReads (r.needed p) }
  | .shards => m.endRestore p r

/-- Whether every write of a restore to Terourn space is held (R281): the pool has acknowledged it, or a sk has passed since it went to the
host. -/
def Module.restoreHeld (m : Module) (p : Nat) (r : Restore) : Bool :=
  r.hostAt ≠ some m.now && !m.str.poolWrites.any (fun o => o.owner = PoolOwner.restoreDst p)

/-- A restore goes on while it wants nothing more of its stage. -/
def Module.restoreGo (m : Module) (p : Nat) : (fuel : Nat) → Module
  | 0 => m
  | n + 1 =>
    match (m.part p).krf.restore with
    | none => m
    | some r =>
      if r.want ≠ [] then m.readNext p
      else if r.stage = .shards && !m.restoreHeld p r then m
      else (m.nextStage p r).restoreGo p n

/-- The shards, not of records, that a restore reads a tile of at a pool address, with the tile's place in each. -/
def Restore.tilesAt (r : Restore) (p a : Nat) : List (MShard × Nat) :=
  ((r.needed p).filter (fun s => !s.isRecord && s.addr ≤ a && a < s.addr + s.s.tiles * tileBytes)).map
    (fun s => (s, (a - s.addr) / tileBytes))

/-- POOL_DATA for a restore: the tile is decoded, and what it brings goes to its places (R441); a narrowed shard is noted at its first tile
(R444). -/
def Module.restoreData (m : Module) (op : PoolOp) (p status : Nat) (payload : List Byte) : Module :=
  match (m.part p).krf.restore with
  | none => m
  | some r =>
    match r.want with
    | [] => m
    | (a, page, tile, width) :: rest =>
      if a ≠ op.addr then m
      else if status ≠ 0 then m.failRestore p 0x0202
      else
        match readTransit width 0xFFFF page tile payload with
        | none => m.failRestore p 0x0203
        | some (bs, _) =>
          let r := { r with tiles := kput r.tiles a bs, want := rest }
          let here := if r.stage = .shards then r.tilesAt p a else []
          let m := (m.setRestore p r).modPart p (fun x => { x with krf := { x.krf with
            notBitExact := x.krf.notBitExact || here.any (fun e => e.1.s.narrowed) } })
          match here.foldl (fun b e => if b.2.isSome then b else b.1.writeTile p r e.1 e.2) (m, none) with
          | (m, some code) => m.failRestore p code
          | (m, none) => m.restoreGo p 5

/-- The pool holds a tile that a restore has written: it goes on once it holds them all. -/
def Module.restoreAck (m : Module) (p status : Nat) : Module :=
  if status ≠ 0 then m.failRestore p 0x0202
  else if (m.part p).krf.restore.any (fun r => r.stage = .shards && r.want = []) then m.restoreGo p 5
  else m

/-- Restores that waited for the host go on with the next sk (R281, log 118). -/
def Module.restoresTick (m : Module) : Module :=
  (m.parts.filter (fun e => e.2.krf.restore.any (fun r => r.stage = .shards && r.want = [] && r.hostAt.isSome))).foldl
    (fun m e => m.restoreGo e.1 5) m

/-- KRF_RESTORE (R439): the start checks; `host` holds the pool addresses at LIST_ADDR. -/
def doKrfRestore (q : Nat) (host : Bytes) (m : Module) : Module :=
  let y := m.queue q
  let p := q / 64
  let x := m.part p
  if !m.atStart q 0x41 then m
  else if (x.st ≠ .ready && x.st ≠ .halted) || !m.kerfOpen p y.map then m.badStart q
  else
    let m := m.startCmd q
    if !m.hostUp then m.complete q 0x0202 0
    else
      let list := (List.range (y.param 128 12)).map (fun i => leAt host (8 * i) 8)
      let r : Restore := { queue := q, generation := y.param 96 32, map := y.map, list := list
                           want := list.map (fun a => (a, 0xFFFF_FFFF, 0, 0)) }
      (m.modPart p (fun x => { x with
        krf := { x.krf with phase := .restoring, generation := r.generation, restore := some r } })).restoreGo p 5

/-! ## The starts of tasks (R398, R405, R426, R443) -/

/-- A thread from its record: one captured at a gate point is READY at PC + 32. -/
def threadOf (bs : List Byte) : Thread :=
  let st := leAt bs 4 1
  let pc := leAt bs 0 4
  { st := if st = 2 then .ready else if st = 3 then .halted else .idle
    pc := if st = 2 then pc + 32 else pc
    x := (List.range 31).foldl (fun a i => kset 0 a (i + 1) (BitVec.ofNat 32 (leAt bs (12 + 4 * i) 4))) []
    v := (List.range 1024).foldl (fun a i => kset 0 a i (BitVec.ofNat 32 (leAt bs (256 + 4 * i) 4))) [] }

/-- A window that resumes: FULL and VENEER slots keep their layers, PULLED ones become FREE, and the tail pulls from the
first of them again. `count` and `first` are its flow's. -/
def resumeWindow (f : Flow) (units : Nat → Nat) (bs : List Byte) (w : Window) : Window :=
  let st (s : Nat) : Nat := fld (leAt bs 0 8) (4 * s) 4
  let ns := max 1 w.nslots
  let next := leAt bs 8 4
  let pos := leAt bs 16 4 * f.count + (leAt bs 12 4 - f.first)
  let back := ((List.range w.nslots).filter (fun s => st s = 1)).length
  let at_ (s : Nat) : Nat := pos - ((next + ns - s - 1) % ns + 1)
  let slots := (List.range w.nslots).foldl (fun a s =>
    if st s = 2 || st s = 3 then
      let n := at_ s
      let u := units (f.layerNo n)
      kput a s ({ st := if st s = 2 then .full else .veneer, layer := f.layerNo n, step := n / max 1 f.count,
                  units := u, arrived := u } : WinSlot)
    else a) []
  let next' := (next + ns * back - back) % ns
  let held := ((List.range w.nslots).filter (fun s => st s = 2 || st s = 3)).length
  { w with slots := slots, fills := [], next := next', oldest := (next' + ns * held - held) % ns, waiting := [], cont := false,
           layer := f.layerNo (pos - back), step := (pos - back) / max 1 f.count }

/-- A core that resumes from its record (R443). -/
def resumeCore (flowOf : Nat → Flow) (units : Nat → Nat) (bs : List Byte) (k : Core) : Core :=
  { k with
    threads := (List.range 8).map (fun t => (t, threadOf (slice bs (0x1100 * t) 0x1100)))
    sems := (List.range 16).foldl (fun s i => kset 0 s i (leAt bs (0x8800 + 2 * i) 2)) []
    carry := []
    eps := kmapv (fun e x =>
      let r := leAt bs (0x8820 + 8 * e) 8
      { x with credits := fld r 0 12, nextBuf := fld r 16 12, count := fld r 32 12, nextRel := fld r 48 12 }) k.eps
    wins := kmapv (fun i w => resumeWindow (flowOf w.flow) units (slice bs (0x8A20 + 64 * i) 64) w) k.wins
    ports := kmapv (fun i q => { q with done := leAt bs (0x8B20 + 4 * i) 2, lastTag := leAt bs (0x8B20 + 4 * i + 2) 2,
                                        open_ := 0, reads := [] }) k.ports }

/-- The excluded members of a herd record. -/
def lostOf (bs : List Byte) : List (Nat × Nat) :=
  (List.range 3).flatMap (fun s =>
    ((List.range 1024).filter (fun i => bitAt (leAt bs (4 + 128 * s) 128) i)).map (fun i => (s + 1, i)))

/-- A flow that resumes at its record's position, its stage empty. -/
def resumeFlow (now : Nat) (bs : List Byte) (f : Flow) : Flow :=
  { startFlow now f with pos := if f.ret then 0 else 16 * (leAt bs 4 4 * f.count + (leAt bs 0 2 - f.first)) }

/-- A herd that resumes at its record's OP_SEQ and exclusions. -/
def resumeHerd (bs : List Byte) (h : Herd) : Herd :=
  { h with opSeq := leAt bs 0 4, lost := lostOf bs, run := none, began := false, todo := [] }

/-- The record with key `k` among rows. -/
def rowOf (rows : List (Nat × List Byte)) (k : Nat) : List Byte := ((rows.find? (fun e => e.1 = k)).map Prod.snd).getD []

/-- The captured task of a gate kerf resumes in place of a task start (R443): no flush, and the records take effect. -/
def Module.resumeTask (m : Module) (p q : Nat) : Module :=
  let x := m.part p
  let k := x.krf
  let flowAt (i : Nat) : Flow := m.flow (256 * p + i)
  let units (l : Nat) : Nat := (m.layer p l).shardUnits
  let core (c : Nat) (z : Core) : Core :=
    if x.hasCore c && k.resumeCores.any (fun e => e.1 = c) then resumeCore flowAt units (rowOf k.resumeCores c) z else z
  let flow (key : Nat) (f : Flow) : Flow :=
    if key / 256 = p then resumeFlow m.now (rowOf k.resumeFlows (key % 256)) f else f
  let herd (key : Nat) (h : Herd) : Herd :=
    if key / 4096 = p then resumeHerd (rowOf k.resumeHerds (key % 4096)) h else h
  let model (key : Nat) (x : Model) : Model :=
    if key / 16 = p then { x with credits := fld x.reg 64 12, seq := 0, open_ := [], held := none } else x
  let m := { m with cores := kmapv core m.cores, str.flows := kmapv flow m.str.flows, herds := kmapv herd m.herds,
                    que.models := kmapv model m.que.models }
  let m := m.modPart p (fun x => { x with
    st := .running, taskRunning := true, started := false, resumed := true, taskSeq := nextTaskSeq x.taskSeq,
    starter := some q, flushing := false,
    krf := { x.krf with resume := false, resumeCores := [], resumeHerds := [], resumeFlows := [] } })
  m.askWakes (m.neededClusters p)

/-- Whether a task start of partition `p` waits for a T0 dump, or for the cut before it (R426, R429). -/
def Module.startWaits (m : Module) (p : Nat) : Bool :=
  let f := (m.part p).krf.phase
  f = .dumping || f = .awaitingCut

/-- The start of a task for queue `q` in a legal state. -/
def Module.runTask (m : Module) (q : Nat) : Module :=
  let p := q / 64
  if (m.part p).krf.resume then (m.startCmd q).resumeTask p q else (m.startCmd q).startTask p q

/-- PART_START (R398, R405): from READY or HALTED; refused for a partition that a jig in CHECKING or WRITING defines
(R255) and during a restore (R439). -/
def doPartStart (q : Nat) (m : Module) : Module :=
  let p := q / 64
  let x := m.part p
  if !m.atStart q 0x01 then m
  else if (x.st ≠ .ready && x.st ≠ .halted) || m.jig.locked.contains p || x.krf.phase = .restoring then m.badStart q
  else if m.startWaits p then m
  else m.runTask q

/-- TASK_RUN (R398, R405): RUNNING with no task. -/
def doTaskRun (q : Nat) (m : Module) : Module :=
  let p := q / 64
  let x := m.part p
  if !m.atStart q 0x02 then m
  else if x.st ≠ .running || x.taskRunning || x.krf.phase = .restoring then m.badStart q
  else if m.startWaits p then m
  else m.runTask q

end Sys2Proof.Machine
end

