-- ==== Sys2Proof/Machine/Signature.lean ====
section
/-! DEFINITION. Signatures of the customer jig key (R236, R539): parameter sets and verification. -/

namespace Sys2Proof.Machine

open Sys2Proof

/-- The accepted parameter sets with their OID and SIG_LENGTH (R236). The OIDs are those of NIST SP 800-208, PRESUMED
(log 27). -/
def xmssSets : List (Nat × Nat) := [(0x10, 2500), (0x11, 2692), (0x12, 2820)]

/-- SIG_LENGTH of a parameter set; none for any other OID. -/
def sigLength (oid : Nat) : Option Nat := (xmssSets.find? (fun e => e.1 = oid)).map Prod.snd

/-- OID of a public key of 68 B: OID, root, SEED, big-endian as RFC 8391 has it (R524, R14). -/
def keyOid (key : List Byte) : Nat := beNat (key.take 4)

/-- The key digest of a public key (R524). -/
def keyDigest (key : List Byte) : Digest := digestOf (shake256 key)

/-- Whether a customer jig key is enrolled. -/
def Module.custEnrolled (m : Module) : Bool := m.sec.custKey ≠ []

/-- Whether a signature over a message verifies under a public key: its length is that of the key's set (R236). -/
def verifySig (key msg sig : List Byte) : Bool :=
  sigLength (keyOid key) = some sig.length && Config.xmssVerify (keyDigest key) msg sig

end Sys2Proof.Machine
end

