-- ==== Sys2Proof/Machine/JigParse.lean ====
section
/-! DEFINITION. The parts of a staged jig (R230 to R251, R314 to R318, R344, R365, R366) and what a refusal names (R261,
R557). -/

namespace Sys2Proof.Machine

open Sys2Proof

/-! ## Container (R230 to R234) -/

/-- A section with its directory entry (R231): index, fields, whether a reserved bit is set, and its bytes. -/
structure JSec where
  idx : Nat := 0
  type : Nat := 0
  part : Nat := 0
  inst : Nat := 0
  off : Nat := 0
  len : Nat := 0
  crc : Nat := 0
  spare : Bool := false
  bytes : List Byte := []
deriving DecidableEq, Repr

/-- What a refusal record names (R261). -/
structure JBad where
  code : Nat := 0x0604
  res : Nat := 0
  part : Option Nat := none
  sect : Nat := 0xFFFF_FFFF
  ofs : Nat := 0
  locKind : Nat := 0
  locIndex : Nat := 0
  need : Nat := 0
  avail : Nat := 0
deriving DecidableEq, Repr

/-- Directory entry `i` of a jig. -/
def secOf (jig : List Byte) (i : Nat) : JSec :=
  let x := leAt jig (128 + 32 * i) 32
  { idx := i, type := fld x 0 16, part := fld x 16 4, inst := fld x 32 32, off := fld x 64 64, len := fld x 128 64
    crc := fld x 192 32, spare := fld x 20 12 ≠ 0 || fld x 224 32 ≠ 0, bytes := slice jig (fld x 64 64) (fld x 128 64) }

/-- The section types of R233. -/
def secTypes : List Nat := [0x01, 0x02, 0x03, 0x04, 0x10, 0x11, 0x12, 0x20, 0x21, 0x22, 0x23]

/-- An annotation section: only its CRC counts. -/
def JSec.note (s : JSec) : Bool := 0x8000 ≤ s.type

/-- A failing item at byte `at_` of a section (R261, R557). -/
def JSec.bad (s : JSec) (res : Nat) (at_ : Nat := 0) : JBad :=
  { res := res, part := if s.type = 1 || s.type = 2 || s.note then none else some s.part, sect := s.idx, ofs := s.off + at_ }

/-- A failing item refused when `b`. -/
def badIf (b : Bool) (x : JBad) : Option JBad := if b then some x else none

/-- A failing item located at a core or ring die. -/
def JBad.at_ (x : JBad) (kind idx : Nat) : JBad := { x with locKind := kind, locIndex := idx }
/-- NEED and AVAILABLE of a failing item. -/
def JBad.short (x : JBad) (need avail : Nat) : JBad := { x with need := need, avail := avail }

/-- A staged jig as its header and directory describe it. -/
structure JView where
  head : Nat := 0
  secs : List JSec := []
deriving DecidableEq, Repr

def JView.count (v : JView) : Nat := fld v.head 64 32
def JView.total (v : JView) : Nat := fld v.head 128 64
def JView.jigId (v : JView) : Nat := fld v.head 192 64
def JView.sigOff (v : JView) : Nat := fld v.head 256 64
def JView.sigOid (v : JView) : Nat := fld v.head 320 32
def JView.sigLen (v : JView) : Nat := fld v.head 352 32

/-- The view of a staged jig; its directory is read only as far as SECTION_COUNT allows. -/
def viewOf (jig : List Byte) : JView :=
  let h := leNat (jig.take 128)
  { head := h, secs := (List.range (min (fld h 64 32) 131_072)).map (secOf jig) }

/-- The sections of a type. -/
def JView.ofType (v : JView) (t : Nat) : List JSec := v.secs.filter (fun s => s.type = t)
/-- The section of a type that partition `p` owns. -/
def JView.owned (v : JView) (t p : Nat) : Option JSec := v.secs.find? (fun s => s.type = t && s.part = p)
/-- Whether the jig is full (R234). -/
def JView.full (v : JView) : Bool := !(v.ofType 0x01).isEmpty
/-- The PARTITIONS section. -/
def JView.parts (v : JView) : JSec := (v.ofType 0x02).headD {}
/-- The MODULE section as a word (R242). -/
def JView.module (v : JView) : Nat := leNat (((v.ofType 0x01).headD {}).bytes.take 64)
/-- Entry `p` of the PARTITIONS section (R237). -/
def JView.ent (v : JView) (p : Nat) : Nat := leAt v.parts.bytes (32 * p) 32
/-- Whether the jig defines partition `p`. -/
def JView.defines (v : JView) (p : Nat) : Bool := p < 16 && bitAt (v.ent p) 0
/-- The defined partitions. -/
def JView.defined (v : JView) : List Nat := (List.range 16).filter v.defines

/-- The digest of R235. -/
def JView.digest (v : JView) (jig : List Byte) : Digest :=
  digestOf (shake256 (jig.take (if v.sigOff ≠ 0 then v.sigOff else v.total)))

/-- F in force for the load: FRAME_LEN of a full jig, NET_FRAME for a partial one. -/
def JView.frameLen (v : JView) (m : Module) : Nat := if v.full then fld v.module 0 13 else m.net.frameLen
/-- Whether the load is in PER_CLUSTER mode (R243). -/
def JView.perCluster (v : JView) (m : Module) : Bool := if v.full then bitAt v.module 16 else m.jig.perCluster

/-- A retained partition: defined before, and neither defined now nor ended by a full jig (R234). -/
def JView.retained (v : JView) (m : Module) (p : Nat) : Bool := !v.full && !v.defines p && (m.part p).st ≠ .off

/-- The rectangle of a PARTITIONS entry, as a partition. -/
def rectOf (x : Nat) : Part := { cx := fld x 8 5, cy := fld x 16 5, cw := fld x 24 5, ch := fld x 32 5 }
/-- CONTEXT_QUOTA of an entry. -/
def quotaOf (x : Nat) : Nat := fld x 64 19
/-- TRAINING class. -/
def training (x : Nat) : Bool := !bitAt x 1

/-- The die count of a rectangle (R238). -/
def Part.dieCount (x : Part) : Nat :=
  ((x.cx + x.cw - 1) / 2 - x.cx / 2 + 1) * ((x.cy + x.ch - 1) / 2 - x.cy / 2 + 1)

/-! ## Core images (R248) -/

/-- One preload segment: kind, address, body, and its place in the section. -/
structure JSeg where
  kind : Nat := 0
  addr : Nat := 0
  body : List Byte := []
  at_ : Nat := 0
deriving DecidableEq, Repr

/-- The header of a CORE_IMAGE, and its section. -/
structure JCore where
  sec : JSec := {}
  head : Nat := 0
  segs : List JSeg := []
deriving DecidableEq, Repr

/-- `n` segments at byte `at_` of a section; none where one is malformed or the bytes do not end with the last. -/
def segsOf : (n : Nat) → (bs : List Byte) → (at_ : Nat) → Option (List JSeg)
  | 0, bs, _ => if bs.isEmpty then some [] else none
  | n + 1, bs, at_ =>
    let h := leNat (bs.take 16)
    let kind := fld h 24 2
    let len := fld h 32 32
    let size := if kind = 0 then 16 * ceilDiv len 16 else 64
    let ok : Bool := fld h 22 2 = 0 && fld h 26 6 = 0 && fld h 64 64 = 0 && kind ≤ 1
      && (if kind = 0 then 1 ≤ len && len ≤ 2_621_440 && fld h 0 22 % 16 = 0 else len = 0 && fld h 0 22 % 64 = 0)
      && 16 + size ≤ bs.length
    if ok then
      (segsOf n (bs.drop (16 + size)) (at_ + 16 + size)).map (fun t =>
        { kind := kind, addr := fld h 0 22, body := slice bs 16 (if kind = 0 then len else 64), at_ := at_ } :: t)
    else none

/-- Bytes before the program of an image. -/
def imageHead : Nat := 128 + 4096 + 2048

/-- A CORE_IMAGE read under R248; none where its structure breaks. -/
def coreOf (s : JSec) : Option JCore :=
  let h := leNat (s.bytes.take 128)
  let len := fld h 64 22
  let ok : Bool := imageHead ≤ s.bytes.length && fld h 0 15 = s.inst && fld h 15 1 = 0 && fld h 24 8 = 0 && fld h 54 10 = 0
    && fld h 86 10 = 0 && fld h 118 10 = 0 && fld h 672 352 = 0 && (List.range 8).all (fun t => fld h (150 + 32 * t) 10 = 0)
    && fld h 32 22 % 64 = 0 && fld h 96 22 % 64 = 0 && len % 32 = 0 && 32 ≤ len && fld h 640 32 ≤ 65_535
    && imageHead + len ≤ s.bytes.length
  if ok then (segsOf (fld h 640 32) (s.bytes.drop (imageHead + len)) (imageHead + len)).map
    (fun g => { sec := s, head := h, segs := g })
  else none

def JCore.core (k : JCore) : Nat := fld k.head 0 15
def JCore.threadEn (k : JCore) : Nat := fld k.head 16 8
def JCore.progBase (k : JCore) : Nat := fld k.head 32 22
def JCore.progLen (k : JCore) : Nat := fld k.head 64 22
def JCore.descBase (k : JCore) : Nat := fld k.head 96 22
def JCore.start (k : JCore) (t : Nat) : Nat := fld k.head (128 + 32 * t) 22
def JCore.semInit (k : JCore) (i : Nat) : Nat := fld k.head (384 + 16 * i) 16
/-- Descriptor `i`. -/
def JCore.desc (k : JCore) (i : Nat) : Nat := leAt k.sec.bytes (128 + 64 * i) 64
/-- Endpoint entry `i`. -/
def JCore.ep (k : JCore) (i : Nat) : Nat := leAt k.sec.bytes (4224 + 32 * i) 32
/-- Instruction `i`. -/
def JCore.instr (k : JCore) (i : Nat) : Nat := leAt k.sec.bytes (imageHead + 32 * i) 32
/-- The numbers of the instructions. -/
def JCore.instrs (k : JCore) : List Nat := List.range (k.progLen / 32)
/-- A failing item of an image, located at its core. -/
def JCore.bad (k : JCore) (res at_ : Nat) : JBad := (k.sec.bad res at_).at_ 1 k.core

/-- The extent of a list region (R249): `st` is its state block. -/
def listExtent (st : List Byte) : Nat :=
  let x := leNat st
  128 + 64 * ceilDiv (fld x 80 16) 32 + 4 * (fld x 32 16 - fld x 16 16)

/-! ## Router and ring images (R250, R251) -/

/-- ENTRIES and BINDINGS of an image header. -/
def JSec.entries (s : JSec) : Nat := fld (leAt s.bytes 0 16) 32 13
def JSec.bindings (s : JSec) : Nat := fld (leAt s.bytes 0 16) 16 5
/-- Schedule entry `e` of a ROUTER_IMAGE. -/
def JSec.sched (s : JSec) (e : Nat) : Nat := leAt s.bytes (16 + 16 * e) 16
/-- Binding `b` of a ROUTER_IMAGE. -/
def JSec.binding (s : JSec) (b : Nat) : Nat := leAt s.bytes (16 + 16 * s.entries + 16 * b) 16
/-- Entry `e` of channel `ch` of a RING_IMAGE. -/
def JSec.ring (s : JSec) (ch e : Nat) : Nat := leAt s.bytes (16 + 4 * (ch * s.entries + e)) 4

/-! ## Layer tables, flows and herds (R314, R316 to R318, R344, R365) -/

/-- Layers of a LAYER_TABLE. -/
def JSec.layers (s : JSec) : Nat := s.len / 32
def JSec.layer (s : JSec) (i : Nat) : Nat := leAt s.bytes (32 * i) 32
/-- Counts of a STREAM_FLOWS header. -/
def JSec.nflows (s : JSec) : Nat := fld (leAt s.bytes 0 64) 0 9
def JSec.nwins (s : JSec) : Nat := fld (leAt s.bytes 0 64) 32 17
def JSec.nroutes (s : JSec) : Nat := fld (leAt s.bytes 0 64) 64 16
def JSec.nports (s : JSec) : Nat := fld (leAt s.bytes 0 64) 96 19
/-- Places of the entries of a STREAM_FLOWS section. -/
def JSec.flowAt (_s : JSec) (i : Nat) : Nat := 64 + 256 * i
def JSec.winAt (s : JSec) (i : Nat) : Nat := 64 + 256 * s.nflows + 32 * i
def JSec.routeAt (s : JSec) (i : Nat) : Nat := s.winAt s.nwins + 16 * i
def JSec.portAt (s : JSec) (i : Nat) : Nat := s.routeAt s.nroutes + 16 * i
def JSec.flow (s : JSec) (i : Nat) : Nat := leAt s.bytes (s.flowAt i) 256
def JSec.win (s : JSec) (i : Nat) : Nat := leAt s.bytes (s.winAt i) 32
def JSec.route (s : JSec) (i : Nat) : Nat := leAt s.bytes (s.routeAt i) 16
def JSec.port (s : JSec) (i : Nat) : Nat := leAt s.bytes (s.portAt i) 16

/-- Objects of an OBJECTS section (R276). -/
def JSec.objects (s : JSec) : Nat := s.len / 32
def JSec.obj (s : JSec) (i : Nat) : Nat := leAt s.bytes (32 * i) 32
/-- An OBJECTS entry as an object. -/
def objOf (x : Nat) : TierObj :=
  { base := fld x 0 56 / pageBytes, pages := fld x 64 25, fast := fld x 96 2, slow := fld x 98 2, compress := bitAt x 100,
    width := fld x 101 2 }

/-- A herd entry at byte `at_` of its section. -/
structure JHerd where
  at_ : Nat := 0
  head : Nat := 0
  stages : List (List Byte) := []
deriving DecidableEq, Repr

/-- `n` stage records; none where the bytes end too early or go on. -/
def stagesOf : (n : Nat) → List Byte → Option (List (List Byte))
  | 0, bs => if bs.isEmpty then some [] else none
  | n + 1, bs =>
    let size := 16 + 8 * (fld (leAt bs 0 2) 0 10 + 1)
    if bs.length < size then none else (stagesOf n (bs.drop size)).map (fun t => bs.take size :: t)

/-- `n` herd entries at byte `at_`; none where a length breaks R365. -/
def herdsOf : (n : Nat) → (bs : List Byte) → (at_ : Nat) → Option (List JHerd)
  | 0, bs, _ => if bs.isEmpty then some [] else none
  | n + 1, bs, at_ =>
    let h := leNat (bs.take 64)
    let len := fld h 96 32
    if len < 64 || bs.length < len then none
    else
      match stagesOf (fld h 44 2) (slice bs 64 (len - 64)), herdsOf n (bs.drop len) (at_ + len) with
      | some g, some t => some ({ at_ := at_, head := h, stages := g } :: t)
      | _, _ => none

/-- The herd entries of a HERDS section. -/
def JSec.herds (s : JSec) : Option (List JHerd) := herdsOf (fld (leAt s.bytes 0 64) 0 13) (s.bytes.drop 64) 64

/-- A stage record (R366). -/
def stageOf (bs : List Byte) : Stage :=
  let x := leNat (bs.take 16)
  { self := fld x 16 10, leader := fld x 32 10
    macs := (List.range (fld x 0 10 + 1)).map (fun j => leAt bs (16 + 8 * j) 6) }

/-- A herd entry as a herd (R365). -/
def herdOfEntry (e : JHerd) : Herd :=
  let x := e.head
  { id := fld x 0 32, op := fld x 32 2, fmt := fld x 34 4, vc := fld x 38 3, reform := bitAt x 41, top := fld x 42 2
    levels := fld x 44 2, portDie := fld x 48 6, deadlineUs := fld x 64 16, window := fld x 80 6
    stages := e.stages.map stageOf }

/-- Chunk buffers a herd reserves at its port die (R368). -/
def Herd.buffers (h : Herd) : Nat :=
  h.window * (1 + ((h.groups.filter (fun e => h.leads e.1)).foldl (fun a e => a + e.2.macs.length) 0))

end Sys2Proof.Machine
end

