-- ==== Sys2Proof/Machine/JigCore.lean ====
section
/-! DEFINITION. What the loader checks of a core image: SRAM regions, threads, format codes, descriptors, instruction
encodings, the carry balance, endpoints and list regions (R53, R120, R125 to R175, R177, R198, R199, R214, R249, R328,
R427). -/

namespace Sys2Proof.Machine

open Sys2Proof

/-! ## Opcodes (R126, R151, R159, R198, R199, R328) -/

/-- The vector opcodes of R151. -/
def vopOf (op : Nat) : Option VOp :=
  match op with
  | 0x40 => some .add | 0x41 => some .sub | 0x42 => some .mul | 0x43 => some .fma | 0x44 => some .min | 0x45 => some .max
  | 0x46 => some .cmplt | 0x47 => some .cmpeq | 0x48 => some .sel | 0x49 => some .div | 0x4A => some .sqrt
  | 0x4B => some .recip | 0x4C => some (.fn .rsqrt) | 0x50 => some (.fn .exp) | 0x51 => some (.fn .exp2)
  | 0x52 => some (.fn .log) | 0x53 => some (.fn .log2) | 0x54 => some (.fn .tanh) | 0x55 => some (.fn .sigmoid)
  | 0x56 => some (.fn .erf) | 0x58 => some .cvt | 0x60 => some .rsum | 0x61 => some .rmax | 0x62 => some .rmin
  | 0x63 => some .softmax | 0x64 => some .layernorm | 0x65 => some .rmsnorm
  | _ => none

/-- Whether an operation reduces or normalises along each row. -/
def VOp.rowOp (o : VOp) : Bool := o = .rsum || o = .rmax || o = .rmin || o = .softmax || o = .layernorm || o = .rmsnorm

/-- The form of a TMM opcode (R126, R159). -/
def tmmForm? (op : Nat) : Option TmmForm :=
  if op = 0x10 then some .dense else if op = 0x11 then some .s24 else if op = 0x12 then some .sub
  else if op = 0x13 then some .pg else none

/-- Bits of the layout of R198 that an opcode uses: RD, RS1, RS2, IDX, and a mask of IMM; none where it is not assigned.
The bits of IMM that no rule of an opcode names are unused (DEDUCED, log 28). -/
def ctlUse (op : Nat) : Option (Bool × Bool × Bool × Bool × Nat) :=
  match op with
  | 0x00 => some (false, false, false, false, 0)
  | 0x01 => some (false, false, false, false, 0)
  | 0x02 => some (false, false, false, true, 0)
  | 0x03 => some (false, false, false, true, 0)
  | 0x04 => some (false, false, false, false, 0)
  | 0x05 => some (false, false, false, false, 0xFFFF_FFFF)
  | 0x06 => some (false, true, false, false, 0xFFFF_FFFF)
  | 0x07 => some (false, true, false, false, 0xFFFF_FFFF)
  | 0x08 => some (false, true, true, false, 0xFFFF_FFFF)
  | 0x20 => some (true, false, false, false, 0xFFFF_FFFF)
  | 0x21 => some (true, true, true, false, 0)
  | 0x22 => some (true, true, false, false, 0xFFFF_FFFF)
  | 0x23 => some (true, true, true, false, 0)
  | 0x24 => some (true, true, true, false, 0)
  | 0x25 => some (true, true, true, false, 0)
  | 0x26 => some (true, true, true, false, 0)
  | 0x27 => some (true, true, true, false, 0)
  | 0x28 => some (true, true, true, false, 0)
  | 0x29 => some (true, true, true, false, 0)
  | 0x2A => some (true, true, false, false, 0xFFFF_FFFF)
  | 0x2B => some (true, true, false, false, 0xFFFF_FFFF)
  | 0x2C => some (false, true, true, false, 0xFFFF_FFFF)
  | 0x70 => some (false, false, false, true, 0xFFFF)
  | 0x71 => some (true, false, false, true, 0xFFFF)
  | 0x72 => some (false, false, false, true, 0xFFFF)
  | 0x73 => some (true, false, false, true, 0)
  | 0x74 => some (true, false, false, true, 0)
  | 0x75 => some (false, false, false, true, 0)
  | 0x76 => some (true, true, true, true, 0x7FFF)
  | 0x77 => some (true, true, true, true, 0x3F_7FFF)
  | 0x78 => some (true, false, false, true, 0xFFFF)
  | 0x79 => some (false, true, false, false, 0xFF)
  | 0x7A => some (false, true, false, false, 0xFF)
  | _ => none

/-! ## The core as the checks see it -/

/-- A core with the image's descriptor table and nothing else: descriptors read as at run time. -/
def JCore.probe (k : JCore) : Core :=
  { img := some { descBase := k.descBase }, sram := writeBytes [] k.descBase (slice k.sec.bytes 128 4096) }

/-- Decoding with every register 0. -/
def probeCtx : Ctx := { seed := 0, free := 0, gateArmed := false }

/-! ## Format codes (R53) -/

/-- The format codes an instruction names. -/
def instrFormats (w : Nat) : List Nat :=
  let op := fld w 0 8
  if (tmmForm? op).isSome then [fld w 8 4, fld w 12 4, fld w 16 4]
  else if (vopOf op).isSome then [fld w 8 4, fld w 12 4]
  else []

/-- The first unassigned format code of an image: its descriptors, then its program. -/
def JCore.badFormat (k : JCore) : Option JBad :=
  match (List.range 64).find? (fun i => (descOf (k.desc i)).valid && 8 ≤ (descOf (k.desc i)).fmt) with
  | some i => some (k.bad 0x0B (128 + 64 * i))
  | none =>
    (k.instrs.find? (fun i => (instrFormats (k.instr i)).any (fun f => 8 ≤ f))).map
      (fun i => k.bad 0x0B (imageHead + 32 * i))

/-! ## Descriptors (R129) -/

/-- Reserved bits of a descriptor. -/
def descSpare (w : Nat) : Bool :=
  fld w 30 2 ≠ 0 || [54, 86, 118, 150, 182, 214, 246, 278, 310, 342].any (fun i => fld w i 10 ≠ 0) || fld w 374 138 ≠ 0

/-- Whether a descriptor is refused. -/
def descBad (w : Nat) : Bool :=
  let d := descOf w
  let scaled := (fmtOf d.fmt).blockScaled
  descSpare w || (d.valid && (d.base % 16 ≠ 0 || d.rowStride % 16 ≠ 0 || d.batchStride % 16 ≠ 0 || d.ofsStride % 16 ≠ 0
    || d.length = 0 || 2_621_440 < d.length || d.tagOffset % 4 ≠ 0 || d.tagOfsStride % 4 ≠ 0
    || (!scaled && (d.blockDir || d.scaleLength ≠ 0))))

/-! ## Carry operands (R148) -/

/-- A carry operand: its select field, slots, whether it is produced, and whether its format is legal. -/
structure CarryUse where
  sel : Nat
  slots : Nat
  out : Bool
  legal : Bool
deriving DecidableEq, Repr

/-- The carry operands of a TMM. -/
def Tmm.carryUses (i : Tmm) : List CarryUse :=
  let half (f : Fmt) : Bool := f = .bf16 || f = .fp16
  (if i.aCarry then [{ sel := i.aSel, slots := i.aTiles, out := false, legal := half i.fa }] else [])
    ++ (if i.bCarry then [{ sel := i.bSel, slots := i.batches * i.kblocks, out := false, legal := half i.fs }] else [])
    ++ (if i.init = 2 then [{ sel := i.iSel, slots := i.batches * i.groups * tileSlots i.accFmt, out := false, legal := true }]
        else [])
    ++ (if i.cCarry then [{ sel := i.cSel, slots := i.batches * i.groups * tileSlots i.fc, out := true
                            legal := !i.fc.blockScaled }] else [])

/-- The carry operands of a vector instruction. -/
def Vec.carryUses (i : Vec) : List CarryUse :=
  (i.srcs.filter (fun s => s.kind = 1)).map (fun s =>
    { sel := s.idx, slots := s.slots i.fin i.rows, out := false, legal := !i.fin.blockScaled })
    ++ (if i.dst.kind = 1 then [{ sel := i.dst.idx, slots := i.dst.slots i.fout i.rows, out := true
                                  legal := !i.fout.blockScaled }] else [])

/-- The slots a carry operand names. -/
def CarryUse.names (c : CarryUse) (s : Nat) : Bool := c.sel ≤ s && s < c.sel + c.slots

/-- Whether the carry operands of one instruction break R148. -/
def carryBad (us : List CarryUse) : Bool :=
  us.any (fun c => 16 ≤ c.sel || !c.legal || 16 < c.sel + c.slots)
    || (List.range 16).any (fun s => 1 < (us.filter (fun c => c.names s)).length)

/-! ## TMM forms (R134, R135, R140, R145 to R148, R156 to R170, R182, R183) -/

/-- The pairings of R63. -/
def pairOk (s a : Nat) : Bool := (s ≤ 2 && a ≤ 2) || (s = a && 3 ≤ s && s ≤ 5)

/-- A descriptor an operand names: VALID, and of the operand's format (R129, R157). -/
def Desc.is (d : Desc) (f : Fmt) : Bool := d.valid && fmtOf d.fmt = f

/-- Whether a TMM is refused at decode. -/
def tmmBad (k : Core) (form : TmmForm) (w : Nat) : Bool :=
  let i := tmmOf form probeCtx k {} w
  let bsrc := fld w 23 2
  let sparse : Bool := form ≠ .dense
  let spare : Bool := fld w 28 4 ≠ 0 || (match form with
    | .dense => fld w 218 38 ≠ 0
    | .s24 => fld w 224 32 ≠ 0
    | .sub => fld w 224 32 ≠ 0
    | .pg => fld w 235 21 ≠ 0)
  let kblk := fld w 78 12
  let capacity : Bool := i.halfRows < i.m
  let spill : Bool := capacity && (i.gatherK || 0 < kblk)
  let fcOk : Bool := if i.exact then !i.fc.blockScaled else i.fc = .fp32 || i.fc = .bf16 || i.fc = .fp16
  let metaOk : Bool := match form with
    | .dense => true
    | .pg => true
    | .s24 => i.meta_.is i.fs && i.meta_.transpose = i.b.transpose && i.meta_.scaleLength = 0 && !i.meta_.tagged
    | .sub => i.meta_.is i.fs && !i.meta_.transpose && i.meta_.scaleLength = 0 && !i.meta_.tagged && i.b.rowStride = 0
  let noOfs : Bool := (i.aCarry || fld w 120 5 = 0) && (i.bCarry || fld w 125 5 = 0)
    && ((i.cCarry && i.init ≠ 1) || fld w 130 5 = 0)
  spare || !pairOk (fld w 8 4) (fld w 12 4) || !fcOk || fld w 20 2 = 3 || bsrc = 3 || i.init = 3
    || i.mx = 0 || 32 < i.mx || i.nx = 0 || 32 < i.nx || fld w 60 6 = 0 || 32 < fld w 60 6
    || (sparse && (i.aCarry || bsrc = 1))
    || (form = .pg && (i.cCarry || i.init = 2 || (if i.gatherK then kblk ≠ 0 else fld w 66 12 ≠ 0)))
    || ((form = .s24 || form = .sub) && kblk % 2 = 0) || (form = .sub && !i.exact)
    || (!i.aCarry && (!i.a.is i.fa || (i.fa.blockScaled && i.a.blockDir ≠ i.a.transpose)))
    || (!i.bCarry && (!i.b.is i.fs || (i.fs.blockScaled && i.b.blockDir = i.b.transpose)))
    || !metaOk
    || (!i.cCarry && (!i.c.is i.fc || !i.c.tagged))
    || (i.init = 1 && !i.i.is i.accFmt)
    || (spill && (!i.sp.is i.accFmt || i.sp.length < (i.m - i.halfRows) * 32 * (i.accFmt.bits / 8)))
    || (form ≠ .pg && carryBad i.carryUses)
    || (form ≠ .pg && i.m ≠ 0 && noOfs && !i.inRange)

/-! ## Vector instructions (R150 to R156) -/

/-- Whether a vector instruction is refused at decode. -/
def vecBad (k : Core) (op : VOp) (w : Nat) : Bool :=
  let i := vecOf op probeCtx k {} w
  let spare : Bool := fld w 22 2 ≠ 0 || fld w 89 46 ≠ 0 || fld w 218 38 ≠ 0
  let float (f : Fmt) : Bool := f = .fp32 || f = .bf16 || f = .fp16
  let fmtBad : Bool := if op = .cvt then i.fin.blockScaled else !float i.fin || !float i.fout
  let unused : Bool := (op.arity < 2 && (fld w 32 8 ≠ 0 || fld w 18 2 ≠ 0)) || (op.arity < 3 && (fld w 40 8 ≠ 0 || fld w 20 2 ≠ 0))
  let n := i.rows * i.len
  let srcBad (s : VSrc) : Bool :=
    if s.kind = 0 then !s.d.is i.fin
    else if s.kind = 1 then i.len ≠ 32
    else if s.kind = 2 then 15 < s.idx || i.fin = .acc128
      || !(s.bc = 2 || (s.bc = 1 && i.len ≤ 64) || (s.bc = 0 && n ≤ 64))
    else s.bc ≠ 2 || 31 < s.idx
  let dstBad : Bool :=
    if i.dst.kind = 0 then !i.dst.d.is i.fout || !i.dst.d.tagged || (i.fout.blockScaled && i.dst.d.blockDir ≠ i.dst.d.transpose)
    else if i.dst.kind = 1 then i.len ≠ 32
    else if i.dst.kind = 2 then 15 < i.dst.idx || i.fout = .acc128 || 64 < (if op.perRow then i.rows else n)
    else true
  let usesDesc : Bool := i.dst.kind = 0 || i.srcs.any (fun s => s.kind = 0)
  spare || fmtBad || fld w 16 2 = 3 || fld w 18 2 = 3 || fld w 20 2 = 3 || unused
    || (op.rowOp && fld w 72 12 % 2 = 0) || ((op = .layernorm || op = .rmsnorm) && fld w 18 2 ≠ 2)
    || (i.fout.blockScaled && i.dst.kind ≠ 0) || i.srcs.any srcBad || dstBad || carryBad i.carryUses
    || (i.rows ≠ 0 && usesDesc && fld w 84 5 = 0 && !i.inRange)

/-! ## Control, scalar, network and stream instructions (R198, R199, R328, R427) -/

/-- Whether such an instruction is refused at decode: `wins` and `ports` are the indices of the core's window and port
entries. -/
def ctlBad (wins ports : List Nat) (op w : Nat) : Bool :=
  match ctlUse op with
  | none => true
  | some (rd, rs1, rs2, idx, imm) =>
    let i := iIDX w
    fld w 29 3 ≠ 0 || fld w 64 192 ≠ 0 || (!rd && iRD w ≠ 0) || (!rs1 && iRS1 w ≠ 0) || (!rs2 && iRS2 w ≠ 0)
      || (!idx && i ≠ 0) || iIMM w &&& (0xFFFF_FFFF - imm) ≠ 0
      || ((op = 0x02 || op = 0x03) && 15 < i) || (op = 0x02 && i = 15) || (op = 0x2A && iIMM w = 0)
      || (0x73 ≤ op && op ≤ 0x75 && !wins.contains i) || (0x76 ≤ op && op ≤ 0x78 && !ports.contains i)

/-- The indices of a core's window and port entries in a STREAM_FLOWS section. -/
def winsOf (s : Option JSec) (c : Nat) : List Nat :=
  match s with
  | none => []
  | some s => (List.range s.nwins).filterMap (fun i => if fld (s.win i) 0 15 = c then some (fld (s.win i) 16 2) else none)
def portsOf (s : Option JSec) (c : Nat) : List Nat :=
  match s with
  | none => []
  | some s => (List.range s.nports).filterMap (fun i => if fld (s.port i) 0 15 = c then some (fld (s.port i) 16 4) else none)

/-- Whether an instruction word is refused at decode (R125, R157). -/
def instrBad (k : Core) (wins ports : List Nat) (w : Nat) : Bool :=
  let op := fld w 0 8
  match tmmForm? op, vopOf op with
  | some f, _ => tmmBad k f w
  | none, some o => vecBad k o w
  | none, none => ctlBad wins ports op w

/-- The first descriptor or instruction of an image that is refused (R125, R129). -/
def JCore.badEncoding (k : JCore) (flows : Option JSec) : Option JBad :=
  match (List.range 64).find? (fun i => descBad (k.desc i)) with
  | some i => some (k.bad 0x0C (128 + 64 * i))
  | none =>
    let p := k.probe
    let ws := winsOf flows k.core
    let ps := portsOf flows k.core
    (k.instrs.find? (fun i => instrBad p ws ps (k.instr i))).map (fun i => k.bad 0x0C (imageHead + 32 * i))

/-! ## Carry balance (R120) -/

/-- The carry operands of an instruction; a no-op has none (R155). -/
def instrCarry (k : Core) (w : Nat) : List CarryUse :=
  let op := fld w 0 8
  match tmmForm? op, vopOf op with
  | some f, _ => let i := tmmOf f probeCtx k {} w; if i.m = 0 then [] else i.carryUses
  | none, some o => let i := vecOf o probeCtx k {} w; if i.rows = 0 then [] else i.carryUses
  | none, none => []

/-- A core whose programs produce a slot that none consumes, or the reverse. -/
def JCore.badCarry (k : JCore) : Option JBad :=
  let p := k.probe
  let us := k.instrs.flatMap (fun i => instrCarry p (k.instr i))
  badIf ((List.range 16).any (fun s =>
    us.any (fun u => u.out && u.names s) ≠ us.any (fun u => !u.out && u.names s))) (k.bad 0x0D 0)

/-! ## Threads (R195, R248, R427) -/

def JCore.badThreads (k : JCore) : Option JBad :=
  badIf (k.threadEn = 0 || k.semInit 15 ≠ 0 || (List.range 8).any (fun t =>
    bitAt k.threadEn t && (k.start t % 32 ≠ 0 || k.progLen ≤ k.start t))) (k.bad 0x0A 0)

/-! ## Endpoints (R214) -/

/-- Whether an endpoint entry is refused. -/
def epBad (x : Nat) : Bool :=
  fld x 24 8 ≠ 0 || fld x 54 10 ≠ 0 || fld x 76 20 ≠ 0 || fld x 110 2 ≠ 0 || fld x 124 4 ≠ 0 || fld x 150 106 ≠ 0
    || (bitAt x 15 && (fld x 0 14 = 0 || fld x 22 2 = 3 || fld x 32 22 % 64 ≠ 0 || fld x 64 12 = 0 || fld x 128 22 % 4 ≠ 0
      || (if bitAt x 14 then fld x 112 12 ≠ 0 || fld x 96 14 = 0 else fld x 112 12 = 0)))

def JCore.badEndpoint (k : JCore) : Option JBad :=
  ((List.range 64).find? (fun i => epBad (k.ep i))).map (fun i => k.bad 0x0E (4224 + 32 * i))

/-! ## SRAM (R249) -/

/-- A region of SRAM: its first address, the address past its end, and its place in the section. -/
structure JRegion where
  lo : Nat
  hi : Nat
  at_ : Nat
deriving DecidableEq, Repr

/-- The regions of an image that may not overlap, in section order. -/
def JCore.regions (k : JCore) : List JRegion :=
  [{ lo := k.progBase, hi := k.progBase + k.progLen, at_ := 0 }, { lo := k.descBase, hi := k.descBase + 4096, at_ := 0 }]
    ++ (List.range 64).flatMap (fun i =>
      let x := k.ep i
      let n := fld x 64 12
      if bitAt x 15 then
        [{ lo := fld x 32 22, hi := fld x 32 22 + n * (fld x 16 6 + 1) * 64, at_ := 4224 + 32 * i },
         { lo := fld x 128 22, hi := fld x 128 22 + 4 * n, at_ := 4224 + 32 * i }]
      else [])
    ++ k.segs.map (fun g => { lo := g.addr, hi := g.addr + (if g.kind = 1 then listExtent g.body else g.body.length), at_ := g.at_ })

/-- The first region that leaves SRAM or overlaps an earlier one. -/
def badRegion : (done todo : List JRegion) → Option JRegion
  | _, [] => none
  | done, r :: rest =>
    if sramBytes < r.hi || done.any (fun x => x.lo < r.hi && r.lo < x.hi) then some r else badRegion (r :: done) rest

/-- The first breach of R249: regions, then descriptor regions outside SRAM. -/
def JCore.badSram (k : JCore) : Option JBad :=
  match badRegion [] k.regions with
  | some r => some ((k.bad 0x09 r.at_).short r.hi sramBytes)
  | none =>
    (List.range 64).findSome? (fun i =>
      let d := descOf (k.desc i)
      let hi := max (d.base + d.length) (d.scaleBase + d.scaleLength)
      badIf (d.valid && sramBytes < hi) ((k.bad 0x09 (128 + 64 * i)).short hi sramBytes))

/-! ## List regions and job class (R175, R177) -/

/-- The first list region refused under R177. -/
def JCore.badList (k : JCore) : Option JBad :=
  k.segs.findSome? (fun g =>
    let x := leNat g.body
    let lo := fld x 16 16
    let hi := fld x 32 16
    let th := fld x 96 32
    badIf (g.kind = 1 && (sramBytes < g.addr + listExtent g.body || hi ≤ lo || fld x 0 16 < hi || 4096 < hi - lo
      || fld x 48 12 = 0 || fld x 80 16 = 0 || (bitAt th 31 && th ≠ 0x8000_0000) || isNan32 th)) (k.bad 0x11 g.at_))

/-- The first TMM_PG or list region of an image of a training partition. -/
def JCore.badClass (k : JCore) : Option JBad :=
  match k.instrs.find? (fun i => fld (k.instr i) 0 8 = 0x13) with
  | some i => some (k.bad 0x10 (imageHead + 32 * i))
  | none => (k.segs.find? (fun g => g.kind = 1)).map (fun g => k.bad 0x10 g.at_)

end Sys2Proof.Machine
end

