-- ==== Sys2Proof/Machine/JigNet.lean ====
section
/-! DEFINITION. The network a jig gives the module: the merge of images with those of retained partitions, and the checks
of wafer links and of the schedule (R37, R206, R209, R214, R218, R219, R241, R250, R251, R257). -/

namespace Sys2Proof.Machine

open Sys2Proof

/-! ## What stays (R234, R256) -/

/-- The network of the module without the defined partitions, and for a full jig without any (R256, step 1). -/
def JView.netBase (v : JView) (m : Module) : Module :=
  (List.range 16).foldl (fun m p =>
    if v.full || v.defines p then
      let m := (m.clearRoutes p).mapCores p bareCore
      { m with net.routes := m.net.routes.filter (fun e => e.2 ≠ p) }
    else m) m

/-! ## Links (R37, R241) -/

/-- The opposite end's input index of a direction. -/
def inputOf (d : Nat) : Nat := opposite d - 1

/-- Whether the router port at which a hop arrives, a physical core's or a ring die's, is none of the dead ones of R25. -/
def Module.portGood (m : Module) (c port : Nat) : Bool := !m.topo.deadPorts.contains ((m.physOf c).getD 0, port)

/-- Whether a hop from core `c` in direction `d` exists and uses nothing dead. -/
def Module.linkGood (m : Module) (c d : Nat) : Bool :=
  let ph := (m.physOf c).getD 0
  !m.topo.deadLinks.contains (ph, d) && !m.topo.markedRouters.contains c && (match m.hop c d with
    | .core e => m.portGood e (opposite d) && !m.topo.markedRouters.contains e && !m.topo.markedLinks.contains (e, opposite d)
    | .ring n ch => !m.topo.ringBad.contains n && !m.topo.markedRouters.contains (ringSite n)
      && !m.topo.markedLinks.contains (ringSite n, ch)
    | .nothing => false)

/-- Whether ring die `n` may use edge channel `ch` in a slot with IN_ROUTE and OUT_ROUTE as in `x`: the channel is live, neither end is
marked for test, and neither is a direction in use, retired or marked (R25, R37, R44, R45, R47, R241). -/
def Module.channelGood (m : Module) (n ch x : Nat) : Bool :=
  let c := edgeCore n ch
  !m.topo.ringBad.contains n && !m.hole c && !m.topo.markedRouters.contains c && !m.topo.markedRouters.contains (ringSite n)
  && (fld x 0 14 = 0 || (!m.topo.deadLinks.contains ((m.physOf c).getD 0, sideDir n) && !m.topo.markedLinks.contains (ringSite n, ch)))
  && (fld x 16 14 = 0 || (!m.topo.deadLinks.contains (ringSite n, ch) && m.portGood c (sideDir n)
    && !m.topo.markedLinks.contains (c, sideDir n)))

/-- The outputs N, E, S and W of an entry that send something. -/
def sends (w : Nat) : List Nat := (List.range 4).filter (fun o => entOut w o ≠ 0)

/-- The first entry of an image that uses a dead resource (RESOURCE 0x08). -/
def Module.badLink (m : Module) (s : JSec) : Option JBad :=
  if s.type = 0x11 then
    ((List.range s.entries).find? (fun e => (sends (s.sched e)).any (fun o => !m.linkGood s.inst (o + 1)))).map
      (fun e => (s.bad 0x08 (16 + 16 * e)).at_ 1 s.inst)
  else if s.type = 0x12 then
    (List.range (chanCount s.inst)).findSome? (fun ch =>
      ((List.range s.entries).find? (fun e => s.ring ch e ≠ 0 && !m.channelGood s.inst ch (s.ring ch e))).map
        (fun e => (s.bad 0x08 (16 + 4 * (ch * s.entries + e))).at_ 2 s.inst))
  else none

/-! ## Merging (R250, R251, R257) -/

/-- Route `r` claimed by partition `p`; none where another owns it (R207). -/
def Module.claim (m : Module) (p r : Nat) : Option Module :=
  if r = 0 then some m
  else
    match m.routeOwner r with
    | some q => if q = p then some m else none
    | none => some { m with net.routes := kput m.net.routes r p }

/-- Several routes claimed. -/
def Module.claims (m : Module) (p : Nat) (rs : List Nat) : Option Module :=
  rs.foldl (fun m r => m.bind (fun m => m.claim p r)) (some m)

/-- Whether one image's entry breaks R209 or R257 by itself. -/
def entryBad (slot w : Nat) : Bool :=
  bitAt w 15 || fld w 26 6 ≠ 0 || fld w 102 26 ≠ 0 || (slot % 64 = 63 && w ≠ 0)
    || (List.range 5).any (fun i => entAbs w i = 3)
    || (List.range 5).any (fun o => entOut w o = o + 1
      || (1 ≤ entOut w o && entOut w o ≤ 5 && entExp w (entOut w o - 1) = 0))

/-- Two images' entries of one slot merged; none where they reserve one input, feed one output or set one ABS twice. -/
def mergeEntry (a b : Nat) : Option Nat :=
  if (List.range 5).any (fun i => (entExp a i ≠ 0 && entExp b i ≠ 0) || (entAbs a i ≠ 0 && entAbs b i ≠ 0)
      || (entOut a i ≠ 0 && entOut b i ≠ 0)) then none
  else some (a ||| b)

/-- One schedule entry of partition `p` merged into router `c`. -/
def Module.mergeSched (m : Module) (p c slot w : Nat) : Option Module :=
  if w = 0 then some m
  else if entryBad slot w then none
  else
    match mergeEntry (kgetD 0 (m.core c).sched slot) w, m.claims p ((List.range 5).map (entExp w)) with
    | some x, some m => some (m.modCore c (fun k => { k with sched := kput k.sched slot x }))
    | _, _ => none

/-- A binding of R219. -/
def bindingOf (p x : Nat) : Binding :=
  { route := fld x 0 14, unit := fld x 14 1, first := fld x 16 3, second := fld x 19 3, exact := fld x 22 2 = 2
    crFirst := fld x 32 14, crSecond := fld x 46 14, crOut := fld x 64 14, outCredits := fld x 78 12, credits := fld x 78 12
    part := p }

/-- Whether a binding breaks R219, which exempts no binding with VALID = 0 from its checks of codes and ranges, as R214 does entries. -/
def bindingBad (x : Nat) : Bool :=
  let f := fld x 16 3
  let s := fld x 19 3
  fld x 24 8 ≠ 0 || fld x 60 4 ≠ 0 || fld x 90 38 ≠ 0
    || (fld x 0 14 = 0 || f = 0 || 5 < f || s = 0 || 5 < s || f = s || fld x 22 2 = 0 || fld x 22 2 = 3
      || ((fld x 32 14 = 0) != (f = 5)) || ((fld x 46 14 = 0) != (s = 5)) || fld x 64 14 = 0 || fld x 78 12 = 0)

/-- One binding merged into router `c`; none where it breaks a rule. The bindings of a router are counted apart. -/
def Module.mergeBind (m : Module) (p c x : Nat) : Option Module :=
  if bindingBad x || (bitAt x 15 && (m.core c).binds.any (fun b => b.route = fld x 0 14)) then none
  else if !bitAt x 15 then some m
  else
    let b := bindingOf p x
    (m.claims p [b.route, b.crFirst, b.crSecond, b.crOut]).map (fun m => m.modCore c (fun k => { k with binds := k.binds ++ [b] }))

/-- Two ring entries of one slot merged. -/
def mergeRing (a : Nat × Nat) (x : Nat) : Option (Nat × Nat) :=
  let i := fld x 0 14
  let o := fld x 16 14
  if (a.1 ≠ 0 && i ≠ 0) || (a.2 ≠ 0 && o ≠ 0) then none else some (a.1 + i, a.2 + o)

/-- One ring entry of partition `p` merged into channel `ch` of die `n`. -/
def Module.mergeRingSlot (m : Module) (p n ch slot x : Nat) : Option Module :=
  if x = 0 then some m
  else if slot % 64 = 63 then none
  else
    let key := 32 * n + ch
    let col := kgetD [] m.net.ring key
    match mergeRing (kgetD (0, 0) col slot) x, m.claims p [fld x 0 14, fld x 16 14] with
    | some y, some m => some { m with net.ring := kput m.net.ring key (kput col slot y) }
    | _, _ => none

/-- An endpoint entry as an endpoint (R214). -/
def endpointOf (x : Nat) : Endpoint :=
  { route := fld x 0 14, recv := bitAt x 14, pktM1 := fld x 16 6
    wire := if fld x 22 2 = 1 then .redFp32 else if fld x 22 2 = 2 then .redExact else .data
    ringBase := fld x 32 22, ringPkts := fld x 64 12, creditRoute := fld x 96 14, creditsInit := fld x 112 12
    tagBase := fld x 128 22, credits := fld x 112 12 }

/-- A fold whose steps may fail: the failing place is the step's own. -/
def tryAll {α : Type} (f : Module → α → Module × Option JBad) : List α → Module → Module × Option JBad
  | [], m => (m, none)
  | a :: t, m => match f m a with
    | (m, none) => tryAll f t m
    | r => r

/-- An optional module as a step that may fail at `b`. -/
def orBad (m : Module) (r : Option Module) (b : JBad) : Module × Option JBad :=
  match r with
  | some m => (m, none)
  | none => (m, some b)

/-- A section of a jig merged into the network: router and ring images, and the endpoints of a core image. `f` is F. NEED and AVAILABLE of a
refusal are 0, but for the count of bindings, whose BYTE_OFFSET names the image's first binding: DESIGN CHOICE, R260 names neither (log 116). -/
def Module.mergeSec (m : Module) (f : Nat) (s : JSec) : Module × Option JBad :=
  let p := s.part
  let c := s.inst
  if s.type = 0x11 then
    if s.entries ≠ f then (m, some ((s.bad 0x0F).at_ 1 c))
    else
      match tryAll (fun m e => orBad m (m.mergeSched p c e (s.sched e)) ((s.bad 0x0F (16 + 16 * e)).at_ 1 c))
          (List.range s.entries) m with
      | (m, none) =>
        let at_ (b : Nat) : Nat := 16 + 16 * s.entries + 16 * b
        match tryAll (fun m b => orBad m (m.mergeBind p c (s.binding b)) ((s.bad 0x0F (at_ b)).at_ 1 c))
            (List.range s.bindings) m with
        | (m, none) =>
          let n := (m.core c).binds.length
          (m, badIf (16 < n) (((s.bad 0x0F (at_ 0)).at_ 1 c).short n 16))
        | r => r
      | r => r
  else if s.type = 0x12 then
    if s.entries ≠ f then (m, some ((s.bad 0x0F).at_ 2 c))
    else
      tryAll (fun m (e : Nat × Nat) => orBad m (m.mergeRingSlot p c e.1 e.2 (s.ring e.1 e.2))
          ((s.bad 0x0F (16 + 4 * (e.1 * s.entries + e.2))).at_ 2 c))
        ((List.range (chanCount c)).flatMap (fun ch => (List.range s.entries).map (fun e => (ch, e)))) m
  else if s.type = 0x10 then
    tryAll (fun m i =>
        let x := leAt s.bytes (4224 + 32 * i) 32
        if bitAt x 15 then
          orBad (m.modCore c (fun k => { k with eps := kput k.eps i (endpointOf x) }))
            ((m.modCore c (fun k => { k with eps := kput k.eps i (endpointOf x) })).claims p [fld x 0 14, fld x 96 14])
            ((s.bad 0x0F (4224 + 32 * i)).at_ 1 c)
        else (m, none))
      (List.range 64) m
  else (m, none)

/-- The merged network of a jig, or the first item that breaks the merge. -/
def JView.merge (v : JView) (m : Module) : Module × Option JBad :=
  tryAll (fun m s => m.mergeSec (v.frameLen m) s) v.secs (v.netBase m)

/-! ## Continuity and credits on the merged network (R209, R218, R219) -/

/-- Whether the flit that output `o` of router `c` sends in a slot is expected where it arrives. -/
def Module.outMeets (m : Module) (f p c slot o w : Nat) : Bool :=
  let src := entOut w o
  let meets (r : Nat) : Bool :=
    if src ≤ 5 then r = entExp w (src - 1)
    else r ≠ 0 && (m.core c).binds.any (fun b => b.part = p && b.unit = src - 6 && b.route = r)
  match m.hop c (o + 1) with
  | .core e => meets (entExp (kgetD 0 (m.core e).sched ((slot + 2) % max 1 f)) (inputOf (o + 1)))
  | .ring n ch => meets (kgetD (0, 0) (kgetD [] m.net.ring (32 * n + ch)) ((slot + 4) % max 1 f)).1
  | .nothing => false

/-- Free buffers that the receivers of a sender's packets have, by site: a ring, or 4 in a reduction unit (R218, R219). -/
def Module.roomFor (m : Module) (r : Nat) (sites : List Nat) : List Nat :=
  sites.filterMap (fun s =>
    if 65536 ≤ s then some 4
    else if 32768 ≤ s then none
    else ((m.core s).eps.find? (fun e => e.2.recv && e.2.route = r)).map (fun e => e.2.ringPkts))

/-- The first item of a section that breaks the merged schedule. -/
def Module.badFlow (m : Module) (f : Nat) (s : JSec) : Option JBad :=
  let p := s.part
  let c := s.inst
  if s.type = 0x11 then
    match (List.range s.entries).find? (fun e => (sends (s.sched e)).any (fun o => !m.outMeets f p c e o (s.sched e))) with
    | some e => some ((s.bad 0x0F (16 + 16 * e)).at_ 1 c)
    | none =>
      ((List.range s.bindings).find? (fun i =>
        let b := bindingOf p (s.binding i)
        bitAt (s.binding i) 15 && (m.roomFor b.route (m.sitesFromUnit c b.unit b.route)).any (fun n => n < b.outCredits))).map
        (fun i => (s.bad 0x0F (16 + 16 * s.entries + 16 * i)).at_ 1 c)
  else if s.type = 0x12 then
    (List.range (chanCount c)).findSome? (fun ch =>
      ((List.range s.entries).find? (fun e =>
        let r := fld (s.ring ch e) 16 14
        r ≠ 0 && entExp (kgetD 0 (m.core (edgeCore c ch)).sched ((e + 4) % max 1 f)) (c / 16) ≠ r)).map
        (fun e => (s.bad 0x0F (16 + 4 * (ch * s.entries + e))).at_ 2 c))
  else if s.type = 0x10 then
    ((m.core c).eps.find? (fun e =>
      !e.2.recv && (m.roomFor e.2.route (m.sitesFromCore c e.2.route)).any (fun n => n < e.2.creditsInit))).map
      (fun e => (s.bad 0x0F (4224 + 32 * e.1)).at_ 1 c)
  else none

end Sys2Proof.Machine
end

