-- ==== Sys2Proof/Machine/JigFlows.lean ====
section
/-! DEFINITION. What the loader checks of layer tables, stream flows, herds and objects (R278, R314 to R320, R330, R343,
R344, R365 to R369), and the flows, windows and ports they describe. -/

namespace Sys2Proof.Machine

open Sys2Proof

/-! ## Layers (R314, R315) -/

/-- A LAYER_TABLE entry as a layer. -/
def layerOf (x : Nat) : Layer :=
  { src := fld x 0 16, width := fld x 24 2, shardUnits := fld x 32 10, cls := fld x 48 4, predicted := bitAt x 52
    predReuse := bitAt x 53, veneerValid := bitAt x 54, elements := fld x 64 40, veneerUnits := fld x 128 10
    veneerObj := fld x 144 12, veneerBase := fld x 160 32, blockUnits := fld x 192 16 }

/-- The layers of a section. -/
def JSec.layerList (s : JSec) : List Layer := (List.range s.layers).map (fun i => layerOf (s.layer i))

/-- Units of a shard: 1 to 512. -/
def unitsOk (n : Nat) : Bool := 1 ≤ n && n ≤ 512

/-- Whether entry `i` of a layer table breaks its structure. -/
def JSec.layerBad (s : JSec) (i : Nat) : Bool :=
  let x := s.layer i
  let e := layerOf x
  fld x 16 8 ≠ 0 || fld x 26 6 ≠ 0 || fld x 42 6 ≠ 0 || fld x 55 9 ≠ 0 || fld x 104 24 ≠ 0 || fld x 138 6 ≠ 0
    || fld x 156 4 ≠ 0 || fld x 208 48 ≠ 0 || e.width = 3 || !unitsOk e.shardUnits
    || (e.veneerValid && !unitsOk e.veneerUnits) || (e.predicted && !unitsOk e.blockUnits)
    || (e.predReuse && (!e.predicted || i = 0 || !(layerOf (s.layer (i - 1))).predicted))

/-- The table of partition `p` in a jig. -/
def JView.layers (v : JView) (p : Nat) : List Layer := match v.owned 0x20 p with | some s => s.layerList | none => []
/-- The objects of partition `p` in a jig. -/
def JView.objects (v : JView) (p : Nat) : List TierObj :=
  match v.owned 0x23 p with
  | some s => (List.range s.objects).map (fun i => objOf (s.obj i))
  | none => []
/-- The herds of partition `p` in a jig. -/
def JView.herds (v : JView) (p : Nat) : List Herd :=
  match v.owned 0x22 p with
  | some s => (s.herds.getD []).map herdOfEntry
  | none => []

/-! ## Flows, windows and ports (R316 to R318, R344) -/

/-- Layers of a STREAM flow's sequence that lie in a table. -/
def Flow.seqLayers (f : Flow) (t : List Layer) : List Layer := slice t f.first f.count

/-- A window entry (R317). -/
def windowOf (i x : Nat) : Window :=
  { entry := i, tail := bitAt x 15, feeder := fld x 18 6, flow := fld x 24 8, member := fld x 32 16, dataRoute := fld x 48 14
    pullOut := fld x 64 14, pullIn := fld x 80 14, slotBase := fld x 96 22, slotUnits := fld x 120 10
    nslots := if fld x 132 4 = 0 then 3 else fld x 132 4, listAddr := fld x 144 16 * 64, listValid := bitAt x 160 }

/-- The window entries of a section. -/
def JSec.windows (s : JSec) : List Window := (List.range s.nwins).map (fun i => windowOf i (s.win i))
/-- The core and index of window entry `i`. -/
def JSec.winCore (s : JSec) (i : Nat) : Nat := fld (s.win i) 0 15
def JSec.winIdx (s : JSec) (i : Nat) : Nat := fld (s.win i) 16 2

/-- Insertion into a rising list without repeats. -/
def insNat (n : Nat) : List Nat → List Nat
  | [] => [n]
  | a :: t => if n < a then n :: a :: t else if n = a then a :: t else a :: insNat n t

/-- A flow entry with what the window and route entries say of it (R316, R317, R344). -/
def JSec.flowOf (s : JSec) (i : Nat) : Flow :=
  let x := s.flow i
  let ws := s.windows.filter (fun w => w.flow = i)
  let rs := (List.range s.nroutes).filterMap (fun j =>
    let y := s.route j
    if fld y 16 8 = i then some { route := fld y 0 14, layer := fld y 32 16, ofs := fld y 64 32, units := fld y 96 32 : GradRoute }
    else none)
  { ret := fld x 0 2 = 1, tine := bitAt x 2, resident := bitAt x 3, vc := fld x 4 4, portDie := fld x 8 6
    stream := fld x 32 32, peer := fld x 64 48, first := fld x 128 16, count := fld x 144 16, stageObj := fld x 160 12
    stageTiles := fld x 176 16, members := fld x 192 16, herd := fld x 208 12, gradFmt := fld x 220 4, serverFmt := fld x 224 4
    width := fld x 228 2, grand := fld x 264 48, parent := fld x 64 48
    kids := (List.range (fld x 256 4)).map (fun c => fld x (320 + 48 * c) 48)
    feeders := ws.foldl (fun l w => insNat w.feeder l) []
    fed := ws.foldl (fun k w => kput k w.member w.feeder) []
    dataRoute := ws.foldl (fun k w => kput k w.member w.dataRoute) []
    pullRoute := (ws.filter (fun w => !ws.any (fun y => y.member = w.member && y.pullIn = w.pullOut))).foldl
      (fun k w => kput k w.pullOut w.member) []
    routes := rs }

/-- Records of the context store a flow takes (R319). -/
def Flow.records (f : Flow) : Nat := if f.ret then 1 else 1 + f.members

/-- A core of partition `p` of a jig. -/
def JView.hasCore (v : JView) (p c : Nat) : Bool := c < 19600 && (rectOf (v.ent p)).hasCore c

/-- Whether flow entry `i` breaks its structure; `layers` and `herds` are its partition's. -/
def JSec.flowBad (s : JSec) (layers : List Layer) (herds : List Herd) (i : Nat) : Bool :=
  let x := s.flow i
  let f := s.flowOf i
  let spare : Bool := fld x 14 18 ≠ 0 || fld x 112 16 ≠ 0 || fld x 172 4 ≠ 0 || fld x 230 26 ≠ 0 || fld x 260 4 ≠ 0
    || fld x 312 8 ≠ 0 || fld x 704 1344 ≠ 0
  let common : Bool := spare || 2 ≤ fld x 0 2 || f.vc = 0 || 7 < f.vc || !isLink f.portDie
  if f.ret then
    let h := herds.getD f.herd {}
    common || f.tine || f.resident || herds.length ≤ f.herd || !(f.gradFmt = 4 || f.gradFmt = 6 || f.gradFmt = 7)
      || !(f.serverFmt = 4 || f.serverFmt = 6) || h.op ≠ 0 || h.fmt ≠ f.gradFmt || h.portDie ≠ f.portDie || f.width ≠ h.width
      || (List.range i).any (fun j => (s.flowOf j).ret && (s.flowOf j).herd = f.herd)
  else
    common || f.count = 0 || layers.length < f.first + f.count || f.members = 0 || 8 < fld x 256 4
      || (if f.resident then f.stageTiles ≠ 0 else f.stageTiles < 16)
      || (List.range 8).any (fun c => fld x 256 4 ≤ c && fld x (320 + 48 * c) 48 ≠ 0)

/-- Whether window entry `i` breaks its structure, alone or beside earlier ones. -/
def JSec.winBad (s : JSec) (v : JView) (layers : List Layer) (i : Nat) : Bool :=
  let x := s.win i
  let w := windowOf i x
  let f := s.flowOf w.flow
  let spare : Bool := fld x 62 2 ≠ 0 || fld x 78 2 ≠ 0 || fld x 94 2 ≠ 0 || fld x 118 2 ≠ 0 || fld x 130 2 ≠ 0
    || fld x 136 8 ≠ 0 || fld x 161 95 ≠ 0
  let mates := s.windows.filter (fun y => y.flow = w.flow && y.member = w.member)
  spare || !v.hasCore s.part (s.winCore i) || 4 ≤ s.winIdx i || !isMem w.feeder || s.nflows ≤ w.flow || f.ret
    || f.members ≤ w.member || w.dataRoute = 0 || w.pullOut = 0 || (w.tail != (w.pullIn = 0)) || w.slotBase % 64 ≠ 0
    || !unitsOk w.slotUnits
    || (List.range i).any (fun j => s.winCore j = s.winCore i && s.winIdx j = s.winIdx i)
    || mates.any (fun y => y.nslots ≠ w.nslots || y.slotUnits ≠ w.slotUnits || y.feeder ≠ w.feeder || y.dataRoute ≠ w.dataRoute)
    || (mates.filter (fun y => y.tail)).length ≠ 1
    || (1 < mates.length && (f.seqLayers layers).any (fun e => e.predicted))

/-- Whether the gradient routes of a flow's layer cover its tensor from unit 0 without gap or overlap. -/
def coversFrom : (fuel : Nat) → (at_ : Nat) → List GradRoute → Bool
  | 0, _, _ => false
  | _, _, [] => true
  | n + 1, at_, rs =>
    match rs.find? (fun r => r.ofs = at_) with
    | some r => coversFrom n (at_ + r.units) (rs.erase r)
    | none => false

/-- Whether gradient route entry `i` breaks its structure. -/
def JSec.routeBad (s : JSec) (i : Nat) : Bool :=
  let y := s.route i
  let f := s.flowOf (fld y 16 8)
  let rs := f.routes.filter (fun r => r.layer = fld y 32 16)
  fld y 14 2 ≠ 0 || fld y 24 8 ≠ 0 || fld y 48 16 ≠ 0 || fld y 0 14 = 0 || fld y 96 32 = 0 || s.nflows ≤ fld y 16 8 || !f.ret
    || !coversFrom (rs.length + 1) 0 rs

/-- Whether port entry `i` breaks its structure. -/
def JSec.portBad (s : JSec) (v : JView) (i : Nat) : Bool :=
  let y := s.port i
  let c := fld y 0 15
  bitAt y 15 || fld y 20 12 ≠ 0 || fld y 46 2 ≠ 0 || fld y 62 2 ≠ 0 || fld y 78 2 ≠ 0 || fld y 92 36 ≠ 0
    || !v.hasCore s.part c || fld y 32 14 = 0 || fld y 48 14 = 0 || fld y 64 14 = 0 || fld y 80 12 = 0
    || (List.range i).any (fun j => fld (s.port j) 0 15 = c && fld (s.port j) 16 4 = fld y 16 4)

/-- The first structural breach of a STREAM_FLOWS section (R316 to R319, R344). -/
def JSec.flowsBad01 (s : JSec) (v : JView) : Option JBad :=
  let h := leAt s.bytes 0 64
  let layers := v.layers s.part
  let herds := v.herds s.part
  if s.len < 64 || fld h 9 23 ≠ 0 || fld h 49 15 ≠ 0 || fld h 80 16 ≠ 0 || fld h 115 397 ≠ 0 || s.nflows = 0 || 256 < s.nflows
      || 78_400 < s.nwins || 313_600 < s.nports || s.len ≠ s.portAt s.nports then some (s.bad 0x01)
  else
    match (List.range s.nflows).find? (fun i => s.flowBad layers herds i) with
    | some i => some (s.bad 0x01 (s.flowAt i))
    | none =>
      match (List.range s.nflows).find? (fun i =>
          let f := s.flowOf i
          !f.ret && (List.range f.members).any (fun j => (kget? f.fed j).isNone)) with
      | some i => some (s.bad 0x01 (s.flowAt i))
      | none =>
        match (List.range s.nwins).find? (fun i => s.winBad v layers i) with
        | some i => some (s.bad 0x01 (s.winAt i))
        | none =>
          match (List.range s.nroutes).find? s.routeBad with
          | some i => some (s.bad 0x01 (s.routeAt i))
          | none => ((List.range s.nports).find? (fun i => s.portBad v i)).map (fun i => s.bad 0x01 (s.portAt i))

/-! ## Routes of flows on the merged network (R319) -/

/-- Whether output `o` of entry `w` sends route `r`, from an input or from a reduction unit that a binding of the image gives the route. -/
def JSec.sendsRoute (s : JSec) (w o r : Nat) : Bool :=
  let src := entOut w o
  if 1 ≤ src && src ≤ 5 then entExp w (src - 1) = r
  else 6 ≤ src && (List.range s.bindings).any (fun b => bitAt (s.binding b) 15 && fld (s.binding b) 0 14 = r && fld (s.binding b) 14 1 = src - 6)

/-- Whether a section of a partition carries route `r` over a dead resource (R37): a router image by one of its outputs, a ring image by an entry
of its channels. -/
def JSec.carriesDead (s : JSec) (m : Module) (r : Nat) : Bool :=
  if s.type = 0x11 then
    (List.range s.entries).any (fun e => (sends (s.sched e)).any (fun o => s.sendsRoute (s.sched e) o r && !m.linkGood s.inst (o + 1)))
  else if s.type = 0x12 then
    (List.range (chanCount s.inst)).any (fun ch => (List.range s.entries).any (fun e =>
      let x := s.ring ch e
      (fld x 0 14 = r || fld x 16 14 = r) && !m.channelGood s.inst ch x))
  else false

/-- Whether route `r` of the partition uses a dead resource: on its way through the images of the jig, or at ring die `ends`, where it starts
or ends. -/
def JView.routeDead (v : JView) (m : Module) (p r ends : Nat) : Bool :=
  r ≠ 0 && (m.topo.ringBad.contains ends || v.secs.any (fun s => s.part = p && s.carriesDead m r))

/-- The first window, gradient route or request port of a section with a route that uses a dead resource (RESOURCE 0x08). -/
def JSec.flowsBad08 (s : JSec) (v : JView) (m : Module) : Option JBad :=
  let dead (r n : Nat) : Bool := v.routeDead m s.part r n
  match (List.range s.nwins).find? (fun i =>
      let w := windowOf i (s.win i)
      dead w.dataRoute w.feeder || dead w.pullOut w.feeder || dead w.pullIn w.feeder) with
  | some i => some ((s.bad 0x08 (s.winAt i)).at_ 2 (windowOf i (s.win i)).feeder)
  | none =>
    match (List.range s.nroutes).find? (fun i => dead (fld (s.route i) 0 14) (s.flowOf (fld (s.route i) 16 8)).portDie) with
    | some i => some ((s.bad 0x08 (s.routeAt i)).at_ 2 (s.flowOf (fld (s.route i) 16 8)).portDie)
    | none =>
      ((List.range s.nports).find? (fun i =>
        let y := s.port i
        dead (fld y 32 14) 64 || dead (fld y 48 14) 64 || dead (fld y 64 14) 64)).map
        (fun i => (s.bad 0x08 (s.portAt i)).at_ 1 (fld (s.port i) 0 15))

/-- Whether window entry `i` breaks the schedule: its routes are the partition's, its PULL route ends at the next core
toward the feeder or at the feeder, and its DATA_ROUTE delivers at its core. -/
def JSec.winBad0F (s : JSec) (m : Module) (i : Nat) : Bool :=
  let w := windowOf i (s.win i)
  let c := s.winCore i
  let owns (r : Nat) : Bool := r = 0 || m.routeOwner r = some s.part
  let ends := m.sitesFromCore c w.pullOut
  !owns w.dataRoute || !owns w.pullOut || !owns w.pullIn || ends.isEmpty
    || !ends.all (fun e => e = ringSite w.feeder || (List.range s.nwins).any (fun j =>
        let y := windowOf j (s.win j)
        s.winCore j = e && y.flow = w.flow && y.member = w.member && y.pullIn = w.pullOut))
    || !(m.sitesFromRing w.feeder w.dataRoute).contains c

/-- Whether port entry `i` breaks the schedule. -/
def JSec.portBad0F (s : JSec) (m : Module) (i : Nat) : Bool :=
  let y := s.port i
  let c := fld y 0 15
  let owns (r : Nat) : Bool := m.routeOwner r = some s.part
  let ends := m.sitesFromCore c (fld y 32 14)
  !owns (fld y 32 14) || !owns (fld y 48 14) || !owns (fld y 64 14) || ends.length ≠ 1
    || !ends.all (fun e => 32768 ≤ e && isMem (e - 32768))
    || (match (m.core c).eps.find? (fun e => e.2.recv && e.2.route = fld y 48 14) with
        | some e => e.2.ringPkts < fld y 80 12
        | none => true)

/-- The first item of a STREAM_FLOWS section refused under schedule slots. -/
def JSec.flowsBad0F (s : JSec) (m : Module) : Option JBad :=
  match (List.range s.nwins).find? (fun i => s.winBad0F m i) with
  | some i => some ((s.bad 0x0F (s.winAt i)).at_ 1 (s.winCore i))
  | none =>
    match (List.range s.nroutes).find? (fun i => m.routeOwner (fld (s.route i) 0 14) ≠ some s.part) with
    | some i => some (s.bad 0x0F (s.routeAt i))
    | none => ((List.range s.nports).find? (fun i => s.portBad0F m i)).map
        (fun i => (s.bad 0x0F (s.portAt i)).at_ 1 (fld (s.port i) 0 15))

/-! ## SRAM, predictor state and placement of flows (R319, R320, R330) -/

/-- Regions of a core's image that slots may not touch. -/
def JView.regionsAt (v : JView) (c : Nat) : List JRegion :=
  match v.secs.find? (fun s => s.type = 0x10 && s.inst = c) with
  | some s => match coreOf s with | some k => k.regions | none => []
  | none => []

/-- The first window whose slots leave SRAM or overlap a region (RESOURCE 0x09). -/
def JSec.flowsBad09 (s : JSec) (v : JView) : Option JBad :=
  let span (i : Nat) : Nat × Nat :=
    let w := windowOf i (s.win i)
    (w.slotBase, w.slotBase + w.nslots * w.slotUnits * 4096)
  (List.range s.nwins).findSome? (fun i =>
    let (lo, hi) := span i
    badIf (sramBytes < hi || (v.regionsAt (s.winCore i)).any (fun r => r.lo < hi && lo < r.hi))
      (((s.bad 0x09 (s.winAt i)).at_ 1 (s.winCore i)).short hi sramBytes))

/-- The first window without a list whose flow runs a predicted layer (RESOURCE 0x11). -/
def JSec.flowsBad11 (s : JSec) (v : JView) : Option JBad :=
  ((List.range s.nwins).find? (fun i =>
    let w := windowOf i (s.win i)
    !w.listValid && ((s.flowOf w.flow).seqLayers (v.layers s.part)).any (fun e => e.predicted))).map
    (fun i => (s.bad 0x11 (s.winAt i)).at_ 1 (s.winCore i))

/-- Blocks of the list region at an address of a core's image. -/
def JView.listBlocks (v : JView) (c a : Nat) : Nat :=
  match v.secs.find? (fun s => s.type = 0x10 && s.inst = c) with
  | some s =>
    match coreOf s with
    | some k => match k.segs.find? (fun g => g.kind = 1 && g.addr = a) with
      | some g => fld (leNat g.body) 32 16 - fld (leNat g.body) 16 16
      | none => 0
    | none => 0
  | none => 0

/-- Whether a layer's units do not fit window `w` of core `c`. -/
def JView.overfills (v : JView) (c : Nat) (w : Window) (e : Layer) : Bool :=
  w.slotUnits < e.shardUnits || (e.veneerValid && w.slotUnits < e.veneerUnits)
    || (e.predicted && w.slotUnits < v.listBlocks c w.listAddr * e.blockUnits)

/-- Whether a STREAM flow's stage breaks R320. -/
def stageBad (m : Module) (f : Flow) (layers : List Layer) (objs : List TierObj) : Bool :=
  match objs[f.stageObj]? with
  | none => true
  | some o =>
    let seq := f.seqLayers layers
    let tiles (i : Nat) : Nat := if f.resident then seq.foldl (fun a e => a + f.sectionUnits e i / 16) 0 else f.stageTiles
    let h := m.homes
    !o.compress || o.fast ≠ 1 || seq.any (fun e => e.width ≠ o.width)
      || (List.range f.feeders.length).any (fun i =>
        32 * countMod o.base o.pages (max 1 h.length) (h.idxOf (f.feeder i)) < tiles i)

/-- The first flow or window of a section refused under tier placement. -/
def JSec.flowsBad15 (s : JSec) (v : JView) (m : Module) : Option JBad :=
  let layers := v.layers s.part
  match (List.range s.nflows).find? (fun i => !(s.flowOf i).ret && stageBad m (s.flowOf i) layers (v.objects s.part)) with
  | some i => some (s.bad 0x15 (s.flowAt i))
  | none =>
    ((List.range s.nwins).find? (fun i =>
      let w := windowOf i (s.win i)
      ((s.flowOf w.flow).seqLayers layers).any (fun e => v.overfills (s.winCore i) w e))).map
      (fun i => s.bad 0x15 (s.winAt i))

/-- Whether a member's veneer shard breaks R315. -/
def veneerBad (m : Module) (objs : List TierObj) (e : Layer) (member feeder : Nat) : Bool :=
  match objs[e.veneerObj]? with
  | none => true
  | some o =>
    let lo := (e.veneerBase + member * e.veneerUnits) * 4096
    let hi := lo + e.veneerUnits * 4096
    lo / pageBytes ≠ (hi - 1) / pageBytes || o.pages * pageBytes < hi || m.home? (o.base + lo / pageBytes) ≠ some feeder

/-- The first layer whose veneers break R315 (RESOURCE 0x15). -/
def JSec.layersBad15 (s : JSec) (v : JView) (m : Module) : Option JBad :=
  let flows := match v.owned 0x21 s.part with
    | some t => (List.range t.nflows).map t.flowOf
    | none => []
  ((List.range s.layers).find? (fun i =>
    let e := layerOf (s.layer i)
    e.veneerValid && flows.any (fun f => !f.ret && f.first ≤ i && i < f.first + f.count
      && f.fed.any (fun x => veneerBad m (v.objects s.part) e x.1 x.2)))).map (fun i => s.bad 0x15 (32 * i))

/-! ## Herds (R365 to R369) -/

/-- Whether a stage record breaks R366 or R367. -/
def stageRecBad (h : Herd) (mac : Nat) (k : Nat) (bs : List Byte) : Bool :=
  let x := leNat (bs.take 16)
  let g := stageOf bs
  let n := g.macs.length
  fld x 10 6 ≠ 0 || fld x 26 6 ≠ 0 || fld x 42 86 ≠ 0 || n < 2 || n ≤ g.self || n ≤ g.leader
    || (List.range n).any (fun j => leAt bs (16 + 8 * j + 6) 2 ≠ 0) || g.macs.getD g.self 0 ≠ mac
    || (if k < h.levels then g.self ≠ g.leader else g.self = g.leader && h.levels ≠ h.top)

/-- Whether a herd entry breaks its structure. -/
def herdBad (m : Module) (e : JHerd) : Bool :=
  let x := e.head
  let h := herdOfEntry e
  fld x 46 2 ≠ 0 || fld x 54 10 ≠ 0 || fld x 86 10 ≠ 0 || fld x 128 384 ≠ 0 || h.id = 0 || h.op = 3
    || (if h.op = 2 then h.fmt ≠ 0 else !(h.fmt = 4 || h.fmt = 6 || h.fmt = 7)) || h.vc = 0 || h.top = 0 || h.levels = 0
    || h.top < h.levels || !isLink h.portDie || h.deadlineUs = 0 || h.window = 0 || 32 < h.window
    || (List.range e.stages.length).any (fun k =>
      stageRecBad h (m.portMac (portOfRing h.portDie)) (k + 1) (e.stages.getD k []))

/-- HERD_IDs of retained partitions and of the HERDS sections before a given one. -/
def JView.herdIds (v : JView) (m : Module) (upTo : Nat) : List Nat :=
  (m.herds.filter (fun e => v.retained m (e.1 / 4096))).map (fun e => e.2.id)
    ++ (v.secs.filter (fun s => s.type = 0x22 && s.idx < upTo)).flatMap (fun s => ((s.herds.getD []).map herdOfEntry).map (fun h => h.id))

/-- The first structural breach of a HERDS section. -/
def JSec.herdsBad01 (s : JSec) (v : JView) (m : Module) : Option JBad :=
  let h := leAt s.bytes 0 64
  match s.herds with
  | none => some (s.bad 0x01)
  | some es =>
    if s.len < 64 || fld h 13 499 ≠ 0 || es.isEmpty || 4096 < es.length then some (s.bad 0x01)
    else
      let before := v.herdIds m s.idx
      ((List.range es.length).find? (fun i =>
        let e := es.getD i {}
        herdBad m e || before.contains (fld e.head 0 32) || (es.take i).any (fun y => fld y.head 0 32 = fld e.head 0 32))).map
        (fun i => s.bad 0x01 (es.getD i {}).at_)

/-- Chunk buffers already reserved at a link die: by retained partitions, and by the HERDS sections before a given one. -/
def JView.buffersAt (v : JView) (m : Module) (die upTo : Nat) : Nat :=
  let add (a : Nat) (h : Herd) : Nat := if h.portDie = die then a + h.buffers else a
  let a := (m.herds.filter (fun e => v.retained m (e.1 / 4096))).foldl (fun a e => add a e.2) 0
  (v.secs.filter (fun s => s.type = 0x22 && s.idx < upTo)).foldl (fun a s =>
    ((s.herds.getD []).map herdOfEntry).foldl add a) a

/-- The first herd refused for its port die or its chunk buffers (RESOURCE 0x13). -/
def JSec.herdsBad13 (s : JSec) (v : JView) (m : Module) : Option JBad :=
  let es := s.herds.getD []
  (List.range es.length).findSome? (fun i =>
    let h := herdOfEntry (es.getD i {})
    let at_ := (es.getD i {}).at_
    if m.topo.ringBad.contains h.portDie then some (s.bad 0x13 at_)
    else
      let need := ((es.take (i + 1)).map herdOfEntry).foldl (fun a y => if y.portDie = h.portDie then a + y.buffers else a)
        (v.buffersAt m h.portDie s.idx)
      badIf (1024 < need) ((s.bad 0x13 at_).short need 1024))

/-- Context-store records that the flows and herds of a defined partition take (R319, R368). -/
def JView.records (v : JView) (p : Nat) : Nat :=
  let hs := (v.herds p).foldl (fun a h => a + 1 + h.levels) 0
  match v.owned 0x21 p with
  | some s => (List.range s.nflows).foldl (fun a i => a + (s.flowOf i).records) hs
  | none => hs

/-! ## Objects (R276, R278) -/

/-- One object entry of a jig, with its section and number. -/
structure JObj where
  sec : JSec := {}
  i : Nat := 0
  word : Nat := 0
deriving DecidableEq, Repr

/-- Every object entry, in section order. -/
def JView.objEntries (v : JView) : List JObj :=
  (v.ofType 0x23).flatMap (fun s => (List.range s.objects).map (fun i => { sec := s, i := i, word := s.obj i }))

/-- Item 2 of R278. -/
def objBad2 (x : Nat) : Bool :=
  let o := objOf x
  fld x 56 8 ≠ 0 || fld x 89 7 ≠ 0 || fld x 103 153 ≠ 0 || o.pages = 0 || 16_777_216 < o.pages || o.fast = 0 || o.slow < o.fast
    || o.width = 3 || (!o.compress && o.width ≠ 0)

/-- The first entry at which a property of the entries up to it fails. -/
def firstAt (bad : List JObj → JObj → Bool) : (done todo : List JObj) → Option JObj
  | _, [] => none
  | done, e :: t => if bad done e then some e else firstAt bad (done ++ [e]) t

/-- Whether two objects share a page. -/
def TierObj.overlaps (a b : TierObj) : Bool := a.base < b.base + b.pages && b.base < a.base + a.pages

/-- The first breach of R278, item by item. -/
def JView.objectsBad (v : JView) (m : Module) : Option JBad :=
  match (v.ofType 0x23).find? (fun s => s.len % 32 ≠ 0 || 131_072 < s.len) with
  | some s => some (s.bad 0x15)
  | none =>
    let kept := (m.tier.objects.filter (fun e => v.retained m (e.1 / 4096))).map Prod.snd
    let es := v.objEntries
    let objs (done : List JObj) (e : JObj) : List TierObj := kept ++ (done ++ [e]).map (fun x => objOf x.word)
    let total (k : Nat) (done : List JObj) (e : JObj) : Nat :=
      (objs done e).foldl (fun a o => if k = 0 || o.slow = k then a + o.pages else a) 0
    let h := m.homes
    let over6 (done : List JObj) (e : JObj) : Bool := (List.range h.length).any (fun d =>
      m.frames (h.getD d 0) < (objs done e).foldl (fun a o =>
        if o.slow = 1 then a + countMod o.base o.pages (max 1 h.length) d else a) 0)
    let checks : List (List JObj → JObj → Bool) :=
      [fun _ e => objBad2 e.word,
       fun _ e => fld e.word 0 21 ≠ 0 || 2 ^ 35 < (objOf e.word).base + (objOf e.word).pages,
       fun done e => (kept ++ done.map (fun x => objOf x.word)).any (fun o => o.overlaps (objOf e.word)),
       fun done e => 16_777_216 < total 0 done e,
       fun done e => (objOf e.word).slow = 1 && (over6 done e || h.isEmpty),
       fun done e => (objOf e.word).slow = 2 && m.tier.t2Pages < total 2 done e,
       fun done e => (objOf e.word).slow = 3 && m.tier.poolPages < total 3 done e]
    (checks.findSome? (fun c => firstAt c [] es)).map (fun e => e.sec.bad 0x15 (32 * e.i))

end Sys2Proof.Machine
end

