-- ==== Sys2Proof/Machine/JigCheck.lean ====
section
/-! DEFINITION. The load-time checks of a staged jig in the order of R260: integrity, signature, structure and the rows of
its table (R230 to R251). -/

namespace Sys2Proof.Machine

open Sys2Proof

/-! ## Integrity and bounds (R232, R260) -/

/-- A failing header or directory. -/
def headBad (code res : Nat) : JBad := { code := code, res := res }

/-- The first section that a property picks. -/
def JView.firstSec (v : JView) (f : JSec → Option JBad) : Option JBad := v.secs.findSome? f

/-- The CRC and bounds checks of R260 in their order. -/
def JView.integrity (v : JView) (jig : List Byte) : Option JBad :=
  let h := headBad 0x0604 0x01
  let len := jig.length
  let dir := slice jig 128 (32 * v.count)
  if len < 128 then some h
  else if crc32c (jig.take 124) ≠ fld v.head 992 32 then some (headBad 0x0603 0x30)
  else if v.total ≠ len || len < 128 + 32 * v.count then some h
  else if crc32c dir ≠ fld v.head 960 32 then some (headBad 0x0603 0x30)
  else
    match v.firstSec (fun s => badIf (len < s.off + s.len) (s.bad 0x01)) with
    | some b => some b
    | none =>
      if v.sigOff ≠ 0 && len < v.sigOff + v.sigLen then some h
      else v.firstSec (fun s => badIf (crc32c s.bytes ≠ s.crc) { s.bad 0x30 with code := 0x0603 })

/-- The signature check of R236, when a customer key is enrolled. -/
def JView.signature (v : JView) (m : Module) (jig : List Byte) : Option JBad :=
  let no := some (headBad 0x0A01 0x31)
  if !m.custEnrolled then none
  else if v.sigOff = 0 then if m.sec.custRequire then no else none
  else if sigLength v.sigOid ≠ some v.sigLen || v.sigOid ≠ keyOid m.sec.custKey then no
  else if verifySig m.sec.custKey (digestBytes (v.digest jig)) (slice jig v.sigOff v.sigLen) then none
  else no

/-- Whether an accepted jig's signature was verified. -/
def JView.verified (v : JView) (m : Module) : Bool := m.custEnrolled && v.sigOff ≠ 0

/-! ## Structure (R230 to R234, R237, R242, R245, R246, R248, R250, R251) -/

/-- Where the last section ends. -/
def JView.lastEnd (v : JView) : Nat := v.secs.foldl (fun _ s => s.off + s.len) (128 + 32 * v.count)

/-- What the header, and the jig as a whole, break. -/
def JView.headStructure (v : JView) (m : Module) : Bool :=
  fld v.head 0 32 ≠ 0x4749_4A4F || fld v.head 32 16 ≠ 1 || fld v.head 48 16 ≠ 0 || fld v.head 96 32 ≠ 0
    || fld v.head 384 576 ≠ 0 || v.count = 0 || 131_072 < v.count || (v.ofType 0x02).isEmpty || (!v.full && !m.jig.fullSeen)
    || (if v.sigOff = 0 then v.sigOid ≠ 0 || v.sigLen ≠ 0
        else v.sigOff % 64 ≠ 0 || v.sigOff < v.lastEnd || v.sigOff + v.sigLen ≠ v.total)

/-- Whether a section repeats an earlier one (R233). -/
def JView.repeats (v : JView) (s : JSec) : Bool :=
  v.secs.any (fun t => t.idx < s.idx && t.type = s.type
    && (if s.type = 0x01 || s.type = 0x02 then true else if s.type = 0x10 then t.inst = s.inst
        else t.part = s.part && t.inst = s.inst))

/-- Whether INSTANCE lies out of range (R231). -/
def JSec.instBad (s : JSec) : Bool :=
  if s.type = 0x10 || s.type = 0x11 then 19_600 ≤ s.inst else if s.type = 0x12 then 64 ≤ s.inst else s.inst ≠ 0

/-- Whether the MODULE section breaks its structure (R242, R244). -/
def moduleBad (x : Nat) : Bool :=
  fld x 13 3 ≠ 0 || fld x 17 15 ≠ 0 || fld x 44 4 ≠ 0 || fld x 59 5 ≠ 0 || fld x 320 192 ≠ 0
    || (List.range 8).any (fun n => fld x (64 + 8 * n) 8 = 0) || (List.range 12).any (fun i => fld x (140 + 16 * i) 4 ≠ 0)

/-- Whether entry `p` of the PARTITIONS section breaks its structure (R237, R233). -/
def JView.entBad (v : JView) (m : Module) (p : Nat) : Bool :=
  let x := v.ent p
  if !bitAt x 0 then x ≠ 0
  else fld x 2 6 ≠ 0 || fld x 13 3 ≠ 0 || fld x 21 3 ≠ 0 || fld x 29 3 ≠ 0 || fld x 37 27 ≠ 0 || fld x 83 173 ≠ 0
    || (v.owned 0x03 p).isNone || (v.perCluster m && (v.owned 0x04 p).isNone)

/-- A LAYER_CLASS entry of a POLICY word. -/
def layerClass (x c : Nat) : Nat := fld x (128 + 32 * c) 32
/-- A SESSION_CLASS entry. -/
def sessClass (x c : Nat) : Nat := fld x (640 + 32 * c) 32

/-- Whether a POLICY section breaks its structure (R245). -/
def policyBad (x : Nat) : Bool :=
  fld x 66 14 ≠ 0 || fld x 96 32 ≠ 0 || fld x 896 128 ≠ 0 || fld x 80 16 = 0
    || (List.range 16).any (fun c => fld (layerClass x c) 25 7 ≠ 0 || (bitAt (layerClass x c) 24 && fld (layerClass x c) 0 24 = 0))
    || (List.range 8).any (fun c => fld (sessClass x c) 24 8 ≠ 0)

/-- Frequency entry `i` of a CLUSTER_FREQ section. -/
def JSec.freq (s : JSec) (i : Nat) : Nat := leAt s.bytes (2 * i) 2

/-- The first structural breach of a router image (R250); `f` is F of a full jig. -/
def JSec.routerBad (s : JSec) (f : Option Nat) : Bool :=
  let h := leAt s.bytes 0 16
  s.len < 16 || fld h 0 15 ≠ s.inst || bitAt h 15 || 16 < s.bindings || fld h 21 11 ≠ 0 || fld h 45 83 ≠ 0
    || s.len ≠ 16 + 16 * s.entries + 16 * s.bindings || (f.isSome && f ≠ some s.entries)

/-- The first structural breach of a ring image (R251). -/
def JSec.ringBad01 (s : JSec) (f : Option Nat) : Option JBad :=
  let h := leAt s.bytes 0 16
  let n := s.entries * chanCount s.inst
  if s.len < 16 || fld h 0 6 ≠ s.inst || fld h 6 26 ≠ 0 || fld h 45 83 ≠ 0 || s.len ≠ 16 + 4 * n
      || (f.isSome && f ≠ some s.entries) then some ((s.bad 0x01).at_ 2 s.inst)
  else
    ((List.range n).find? (fun i =>
      let x := leAt s.bytes (16 + 4 * i) 4
      fld x 14 2 ≠ 0 || fld x 30 2 ≠ 0)).map (fun i => (s.bad 0x01 (16 + 4 * i)).at_ 2 s.inst)

/-- The content of a section of a defined partition under jig structure. -/
def JView.content01 (v : JView) (m : Module) (s : JSec) : Option JBad :=
  let f := if v.full then some (v.frameLen m) else none
  match s.type with
  | 0x03 => badIf (s.len ≠ 128 || policyBad (leNat s.bytes)) (s.bad 0x01)
  | 0x04 =>
    let x := rectOf (v.ent s.part)
    let n := x.cw * x.ch
    if !v.perCluster m || s.len ≠ 2 * n then some (s.bad 0x01)
    else ((List.range n).find? (fun i => fld (s.freq i) 12 4 ≠ 0)).map (fun i => s.bad 0x01 (2 * i))
  | 0x10 => badIf (coreOf s).isNone ((s.bad 0x01).at_ 1 s.inst)
  | 0x11 => badIf (s.routerBad f) ((s.bad 0x01).at_ 1 s.inst)
  | 0x12 => s.ringBad01 f
  | 0x20 =>
    if s.len % 32 ≠ 0 || 65_536 < s.layers then some (s.bad 0x01)
    else ((List.range s.layers).find? s.layerBad).map (fun i => s.bad 0x01 (32 * i))
  | 0x21 => s.flowsBad01 v
  | 0x22 => s.herdsBad01 v m
  | _ => none

/-- What a section breaks under jig structure; `low` is where the part before it ends. -/
def JView.secBad01 (v : JView) (m : Module) (low : Nat) (s : JSec) : Option JBad :=
  if s.off % 64 ≠ 0 || s.len = 0 || s.off < low || s.spare then some (s.bad 0x01)
  else if s.type = 0x01 then
    badIf (v.repeats s || s.len ≠ 64 || s.part ≠ 0 || s.inst ≠ 0 || moduleBad (leNat s.bytes)) (s.bad 0x01)
  else if s.type = 0x02 then
    if v.repeats s || s.len ≠ 512 || s.part ≠ 0 || s.inst ≠ 0 then some (s.bad 0x01)
    else
      match (List.range 16).find? (v.entBad m) with
      | some p => some { s.bad 0x01 (32 * p) with part := some p }
      | none => badIf (!v.full && v.defined.isEmpty) (s.bad 0x01)
  else if secTypes.contains s.type then
    if !v.defines s.part || s.instBad || v.repeats s then some (s.bad 0x01) else v.content01 m s
  else none

/-- The sections in directory order under jig structure. -/
def JView.secsBad01 (v : JView) (m : Module) : (low : Nat) → List JSec → Option JBad
  | _, [] => none
  | low, s :: t =>
    match v.secBad01 m low s with
    | some b => some b
    | none => v.secsBad01 m (s.off + s.len) t

/-- Jig structure (RESOURCE 0x01). -/
def JView.structure_ (v : JView) (m : Module) : Option JBad :=
  if v.headStructure m then some (headBad 0x0604 0x01) else v.secsBad01 m (128 + 32 * v.count) v.secs

/-! ## Partitions, clocks, bandwidth and spares (R238, R242 to R246) -/

/-- Whether two rectangles share a cluster. -/
def Part.meets (a b : Part) : Bool :=
  a.cx < b.cx + b.cw && b.cx < a.cx + a.cw && a.cy < b.cy + b.ch && b.cy < a.cy + a.ch

/-- A failing entry of the PARTITIONS section (R557). -/
def JView.entItem (v : JView) (res p : Nat) : JBad := { v.parts.bad res (32 * p) with part := some p }

/-- Partition geometry (0x03). -/
def JView.geometry (v : JView) (m : Module) : Option JBad :=
  let kept := ((List.range 16).filter (v.retained m)).map m.part
  ((v.defined).find? (fun p =>
    let x := rectOf (v.ent p)
    x.cw = 0 || x.ch = 0 || 20 < x.cx + x.cw || 20 < x.cy + x.ch || kept.any (fun y => y.meets x)
      || (v.defined).any (fun q => q < p && (rectOf (v.ent q)).meets x))).map (v.entItem 0x03)

/-- The bound of R242 and R246 that a frequency breaks. -/
def freqBound (f : Nat) : Option Nat := if f < 675 then some 675 else if 2_700 < f then some 2_700 else none

/-- Voltage domains (0x04). -/
def JView.domains (v : JView) (m : Module) : Option JBad :=
  v.firstSec (fun s =>
    if s.type = 0x01 then
      let f := fld v.module 32 12
      (if v.perCluster m then (if f = 0 then none else some 0) else freqBound f).map (fun b => (s.bad 0x04 4).short f b)
    else if s.type = 0x02 then
      if v.perCluster m then
        ((v.defined).find? (fun p => 25 < (rectOf (v.ent p)).dieCount)).map
          (fun p => (v.entItem 0x04 p).short (rectOf (v.ent p)).dieCount 25)
      else none
    else if s.type = 0x04 then
      (List.range (s.len / 2)).findSome? (fun i =>
        let f := s.freq i
        if f = 0 then none
        else (freqBound f).map (fun b =>
          ((s.bad 0x04 (2 * i)).at_ 4 ((rectOf (v.ent s.part)).clusters.getD i 0)).short f b))
    else none)

/-- Bandwidth split (0x05). -/
def JView.split (v : JView) : Option JBad :=
  v.firstSec (fun s =>
    if s.type = 0x01 then
      (List.range 12).findSome? (fun i =>
        let x := fld v.module (128 + 16 * i) 16
        let n := fld x 0 4 + fld x 4 4 + fld x 8 4
        badIf (fld x 0 4 = 0 || 8 < fld x 0 4 || 7 < fld x 4 4 || 7 < fld x 8 4 || n ≠ 8)
          (((s.bad 0x05 (16 + 2 * i)).at_ 3 i).short n 8))
    else none)

/-- Whether a die row's absorb position holds a spare (R51). -/
def RowMap.spare (r : RowMap) : Bool := !bitAt r.dead r.absorb

/-- MOD_CAPACITY.SPARES_AVAILABLE: a die row without an entry has a spare at position 14. -/
def Module.spares (m : Module) : Nat := 1_400 - (m.topo.coreMap.filter (fun e => !e.2.spare)).length

/-- Spares (0x06). -/
def JView.spareCheck (v : JView) (m : Module) : Option JBad :=
  v.firstSec (fun s =>
    let n := fld v.module 48 11
    badIf (s.type = 0x01 && m.spares < n) ((s.bad 0x06 6).short n m.spares))

/-! ## Cores and the network -/

/-- Mapped cores (0x07). -/
def JView.mapped (v : JView) (m : Module) : Option JBad :=
  v.firstSec (fun s =>
    badIf ((s.type = 0x10 && (!v.hasCore s.part s.inst || m.hole s.inst))
        || (s.type = 0x11 && (m.hole s.inst || m.topo.markedRouters.contains s.inst)))
      ((s.bad 0x07).at_ 1 s.inst))

/-- Wafer links (0x08). -/
def JView.links (v : JView) (m : Module) : Option JBad :=
  v.firstSec (fun s => if s.type = 0x21 then s.flowsBad08 v m else m.badLink s)

/-- A check of each core image. -/
def JView.eachCore (v : JView) (f : JCore → Option JBad) : Option JBad :=
  v.firstSec (fun s => if s.type = 0x10 then (coreOf s).bind f else none)

/-- SRAM (0x09). -/
def JView.sram (v : JView) : Option JBad :=
  v.firstSec (fun s =>
    if s.type = 0x10 then (coreOf s).bind JCore.badSram else if s.type = 0x21 then s.flowsBad09 v else none)

/-- Instruction encodings (0x0C). -/
def JView.encodings (v : JView) : Option JBad := v.eachCore (fun k => k.badEncoding (v.owned 0x21 k.sec.part))

/-- Schedule slots (0x0F). -/
def JView.schedule (v : JView) (m : Module) : Option JBad :=
  let f := v.frameLen m
  match v.firstSec (fun s => badIf (s.type = 0x01 && (f < 64 || 4_096 < f || f % 64 ≠ 0)) (s.bad 0x0F)) with
  | some b => some b
  | none =>
    match v.merge m with
    | (_, some b) => some b
    | (m, none) =>
      let m := { m with net.frameLen := f }
      v.firstSec (fun s => if s.type = 0x21 then s.flowsBad0F m else m.badFlow f s)

/-! ## Classes, contexts, herds and elements (R175, R177, R247, R319, R368, R3) -/

/-- Job class (0x10): what a training partition may not carry. -/
def JView.jobClass (v : JView) : Option JBad :=
  v.firstSec (fun s =>
    if !v.defines s.part || s.note || !training (v.ent s.part) then none
    else if s.type = 0x03 then
      let x := leNat s.bytes
      badIf ((List.range 16).any (fun c => bitAt (layerClass x c) 24) || (List.range 8).any (fun c => sessClass x c ≠ 0))
        (s.bad 0x10)
    else if s.type = 0x10 then (coreOf s).bind JCore.badClass
    else if s.type = 0x20 then
      ((List.range s.layers).find? (fun i => (layerOf (s.layer i)).predicted)).map (fun i => s.bad 0x10 (32 * i))
    else none)

/-- Predictor state (0x11). -/
def JView.predictor (v : JView) : Option JBad :=
  v.firstSec (fun s =>
    if s.type = 0x10 then (coreOf s).bind JCore.badList else if s.type = 0x21 then s.flowsBad11 v else none)

/-- The first partition at which a running sum exceeds what is available, with the sum. -/
def sumExceeds (avail : Nat) (f : Nat → Nat) : (sum : Nat) → List Nat → Option (Nat × Nat)
  | _, [] => none
  | sum, p :: t => if avail < sum + f p then some (p, sum + f p) else sumExceeds avail f (sum + f p) t

/-- A sum over the retained partitions. -/
def JView.sumKept (v : JView) (m : Module) (f : Nat → Nat) : Nat :=
  ((List.range 16).filter (v.retained m)).foldl (fun a p => a + f p) 0

/-- Flow contexts (0x12). -/
def JView.contexts (v : JView) (m : Module) : Option JBad :=
  let avail := 262_144 - v.sumKept m (fun p => (m.part p).quota)
  v.firstSec (fun s =>
    if s.type = 0x02 then
      (sumExceeds avail (fun p => quotaOf (v.ent p)) 0 v.defined).map (fun e => (v.entItem 0x12 e.1).short e.2 avail)
    else if s.type = 0x21 || s.type = 0x22 then
      let n := v.records s.part
      let q := quotaOf (v.ent s.part)
      badIf (q < n) ((s.bad 0x12).short n q)
    else none)

/-- Herds (0x13). -/
def JView.herdSpace (v : JView) (m : Module) : Option JBad :=
  let avail := 4_096 - v.sumKept m (fun p => (m.herds.filter (fun e => e.1 / 4096 = p)).length)
  v.firstSec (fun s =>
    if s.type = 0x02 then
      (sumExceeds avail (fun p => (v.herds p).length) 0 v.defined).map (fun e => (v.entItem 0x13 e.1).short e.2 avail)
    else if s.type = 0x22 then s.herdsBad13 v m
    else none)

/-- Elements that a layer table names. -/
def elementsOf (t : List Layer) : Nat := t.foldl (fun a e => a + e.elements) 0

/-- The first entry at which the elements named exceed the space of R3. -/
def overSpace : (sum : Nat) → List (JSec × Nat × Nat) → Option JBad
  | _, [] => none
  | sum, (s, i, n) :: t =>
    if 8_000_000_000_000 < sum + n then some ((s.bad 0x14 (32 * i)).short (ceilDiv (sum + n) 1_000_000_000) 8_000)
    else overSpace (sum + n) t

/-- Weight element space (0x14). -/
def JView.elementSpace (v : JView) (m : Module) : Option JBad :=
  overSpace (v.sumKept m (fun p => elementsOf (kgetD [] m.str.layers p)))
    ((v.ofType 0x20).flatMap (fun s => (List.range s.layers).map (fun i => (s, i, (layerOf (s.layer i)).elements))))

/-- Tier placement (0x15). -/
def JView.placement (v : JView) (m : Module) : Option JBad :=
  match v.objectsBad m with
  | some b => some b
  | none => v.firstSec (fun s =>
      if s.type = 0x20 then s.layersBad15 v m else if s.type = 0x21 then s.flowsBad15 v m else none)

/-! ## The whole check -/

/-- The topology and the capacity of T2 and T3 against which a jig is checked: those of the moment CHECKING began (R255, R302). -/
def Module.atSnapshot (m : Module) : Module :=
  { m with topo.runDead := m.jig.snapDead, topo.markedRouters := m.jig.snapRouters, topo.markedLinks := m.jig.snapLinks
           tier.t2Pages := m.jig.snapT2, tier.poolPages := m.jig.snapPool }

/-- The checks of R260, each run only when those before it pass. -/
def JView.check (v : JView) (m : Module) (jig : List Byte) : Option JBad :=
  let m := m.atSnapshot
  v.integrity jig <|> v.signature m jig <|> v.structure_ m
    <|> v.firstSec (fun s => badIf (s.type < 0x8000 && !secTypes.contains s.type) (s.bad 0x02))
    <|> v.geometry m <|> v.domains m <|> v.split <|> v.spareCheck m <|> v.mapped m <|> v.links m <|> v.sram
    <|> v.eachCore JCore.badThreads <|> v.eachCore JCore.badFormat <|> v.encodings <|> v.eachCore JCore.badCarry
    <|> v.eachCore JCore.badEndpoint <|> v.schedule m <|> v.jobClass <|> v.predictor <|> v.contexts m <|> v.herdSpace m
    <|> v.elementSpace m <|> v.placement m

end Sys2Proof.Machine
end

