-- ==== Sys2Proof/Machine/Jig.lean ====
section
/-! DEFINITION. Jig loads: requests, staging, the end of the checks, writing and READY, and what ends a load (R234, R249,
R252 to R263, R265, R557). -/

namespace Sys2Proof.Machine

open Sys2Proof

/-! ## Refusals (R261, R557) -/

/-- The record of JIG_REFUSAL. -/
def refusalWord (b : JBad) (id : Nat) : Nat :=
  put 0 16 b.code + put 16 8 b.res + (match b.part with | some p => put 24 4 p + put 28 1 1 | none => 0) + put 32 32 b.sect
    + put 64 64 b.ofs + put 128 16 b.locIndex + put 144 3 b.locKind + put 160 32 (satN 32 b.need)
    + put 192 32 (satN 32 b.avail) + put 224 32 id

/-- The location of a refusal in a fault record. -/
def JBad.loc (b : JBad) : Loc :=
  if b.locKind = 1 then Loc.core b.locIndex
  else if b.locKind = 2 then Loc.ring b.locIndex
  else if b.locKind = 3 then Loc.ring (16 * (b.locIndex / 3) + 12 + b.locIndex % 3)
  else if b.locKind = 4 then { kind := 6, idx := b.locIndex }
  else .module

/-- A refusal: JIG_REFUSAL, LAST_REFUSED and a record of class refusal. -/
def Module.refuse (m : Module) (b : JBad) (id : Nat) : Module :=
  let l := b.loc
  let m := m.logRec { code := b.code, cls := 3, part := b.part, locKind := l.kind, locIndex := l.idx, detail := b.res }
  { m with jig.refusal := BitVec.ofNat 256 (refusalWord b id), jig.lastRefused := true }

/-- The load is over, without a refusal: PHASE is IDLE. -/
def Module.endLoad (m : Module) : Module :=
  { m with jig.phase := .idle, jig.written := false, jig.locked := [], jig.stagedBad := false, jig.lastRefused := false
           jig.oldHerds := [], launch.pulls := [] }

/-- The load ends with a refusal. -/
def Module.refuseLoad (m : Module) (b : JBad) (id : Nat) : Module := m.endLoad.refuse b id

/-! ## Requests (R252, R253, R265) -/

/-- RESOURCE of a request that R253 refuses. -/
def Module.loadBar (m : Module) : Option Nat :=
  if m.sys.st ≠ .service && m.sys.st ≠ .reduced then some 0x20
  else if m.sup.lease ≠ .held then some 0x21
  else if m.jig.phase ≠ .idle || m.sec.writing.isSome || m.sec.cmd.any (fun c => c.awaits && c.op = 1) then some 0x22
  else none

/-- Whether a write of JIG_LOAD_CTRL is ignored: configuration writes are frozen, or another MMP holds the lease (R265,
R492). -/
def Module.loadIgnored (m : Module) (src : Source) : Bool :=
  m.cfgFrozen || (src ≠ .host && m.sup.lease = .held && !m.isHolder src)

/-- START of JIG_LOAD_CTRL. -/
def doStart (src : Source) (m : Module) : Module :=
  if m.loadIgnored src then m
  else
    match m.loadBar with
    | some r => m.refuse { code := 0x0601, res := r } 0
    | none =>
      if m.jig.len = 0 || 2 ^ 32 < m.jig.len then m.refuse { code := 0x0602, res := 0x01 } 0
      else { m with jig.phase := .staging, jig.fabric := false, jig.staging := [], launch.tiles := [], launch.held := [] }

/-! ## The end of staging (R254, R255) -/

/-- The defined partitions of a staged jig, as far as its CRCs show them. -/
def lockedOf (jig : List Byte) : List Nat :=
  let v := viewOf jig
  if crc32c (jig.take 124) = fld v.head 992 32 && crc32c (slice jig 128 (32 * v.count)) = fld v.head 960 32
      && v.parts.len = 512 && crc32c v.parts.bytes = v.parts.crc then v.defined
  else []

/-- CHECKING begins on the staged bytes: the dead lists of this moment are kept, and starts of the defined partitions are
refused from now on. -/
def Module.beginChecking (m : Module) (jig : List Byte) : Module :=
  { m with
    jig.phase := .checking, jig.staging := jig, jig.stagedBad := false, jig.locked := lockedOf jig
    jig.snapDead := m.topo.runDead, jig.snapRouters := m.topo.markedRouters, jig.snapLinks := m.topo.markedLinks
    jig.snapT2 := m.tier.t2Pages, jig.snapPool := m.tier.poolPages }

/-- STAGING_COMPLETE: the host's bytes are in the staging region; a read that the host link fails ends the load. -/
def doStagingComplete (bytes : Bytes) (m : Module) : Module :=
  if m.jig.phase ≠ .staging || m.jig.fabric then m
  else if !m.hostUp then m.refuseLoad { code := 0x0603, res := 0x30 } 0
  else m.beginChecking (padTo m.jig.len 0 bytes)

/-! ## The end of the checks (R255, R256, R263) -/

/-- n of R465 for a frequency in MHz. -/
def stepOf (mhz : Nat) : Nat := mhz * 64 / 2_700

/-- FREQ_MHZ of each cluster of a defined partition (R243, R246). -/
def JView.freqs (v : JView) (m : Module) (p : Nat) : List Nat :=
  let n := (rectOf (v.ent p)).clusters.length
  match v.perCluster m, v.owned 0x04 p with
  | true, some s => (List.range n).map s.freq
  | _, _ => List.replicate n (if v.full then fld v.module 32 12 else m.jig.freq)

/-- A defined partition as it enters LOADING. -/
def JView.loading (v : JView) (m : Module) (p : Nat) (x : Part) : Part :=
  let e := v.ent p
  let r := rectOf e
  { x with
    st := .loading, inference := !training e, cx := r.cx, cy := r.cy, cw := r.cw, ch := r.ch, quota := quotaOf e
    clusterFreq := v.freqs m p, started := false, flushing := false, resumed := false, starter := none }

/-- The clusters of partition `p` are OFF. -/
def Module.darkClusters (m : Module) (p : Nat) : Module :=
  let x := m.part p
  { m with
    pwr.clusters := kmapv (fun cl y => if x.hasCluster cl then { y with st := .off, wakeAsked := false } else y)
      m.pwr.clusters }

/-- The clusters of partition `p` that have a frequency take their steps and are asked to wake (R468). -/
def Module.askClusters (m : Module) (p : Nat) : Module :=
  let x := m.part p
  (List.range x.clusters.length).foldl (fun m i =>
    let cl := x.clusters.getD i 0
    let n := stepOf (x.clusterFreq.getD i 0)
    let y := m.cluster cl
    if n = 0 then m else m.setCluster cl { y with jigN := n, wakeAsked := y.st ≠ .on }) m

/-- Terourn queues of partition `p` are DISABLED, because their object is deleted (R394). -/
def Module.dropRings (m : Module) (p : Nat) : Module :=
  let f (q : Nat) (x : Queue) : Queue :=
    if q / 64 = p && bitAt x.sqBase 0 then
      { x with st := .disabled, desc := none, waiting := false, passed := false, running := false, stopCode := 0 }
    else x
  { m with que.queues := kmapv f m.que.queues }

/-- Tables of partition `p` that another load replaces. -/
def Module.dropTables (m : Module) (p : Nat) : Module :=
  { m with
    herds := m.herds.filter (fun e => e.1 / 4096 ≠ p)
    str.flows := m.str.flows.filter (fun e => e.1 / 256 ≠ p)
    str.layers := m.str.layers.filter (fun e => e.1 ≠ p) }

/-- WRITING begins: with a full jig the other partitions are OFF; the defined ones lose what they had (step 1) and enter
LOADING. -/
def JView.accept (v : JView) (m : Module) : Module :=
  let old := m.herds.filter (fun e => (v.full || v.defines (e.1 / 4096)) && (m.part (e.1 / 4096)).st ≠ .off)
  let m := if v.full then (List.range 16).foldl (fun m p => if v.defines p then m else m.offPart p 0x0601) m else m
  let m := v.netBase m
  let m := v.defined.foldl (fun m p => (((m.deleteObjects p).dropRings p).dropTables p).darkClusters p) m
  let m := v.defined.foldl (fun m p => (m.modPart p (v.loading m p)).askClusters p) m
  { m with jig.phase := .writing, jig.written := false, jig.digestNow := v.digest m.jig.staging
           jig.signedNow := v.verified m, jig.oldHerds := old.map (fun e => (e.2.portDie, e.2.buffers)) }

/-- The first partition whose state or kerf forbids the load (R255, R438). -/
def JView.stateBad (v : JView) (m : Module) : Option Nat :=
  (List.range 16).find? (fun p =>
    let x := m.part p
    (v.full || v.defines p) && (!(x.st = .off || x.st = .ready || x.st = .halted || x.st = .failed)
      || (v.defines p && x.krf.phase ≠ .idle)))

/-- CHECKING_COMPLETE: refusal or acceptance; WRITING waits for a dump to end (R429). -/
def doCheckingComplete (m : Module) : Module :=
  if m.jig.phase ≠ .checking then m
  else
    let jig := m.jig.staging
    let v := viewOf jig
    if m.jig.stagedBad then m.refuseLoad { code := 0x0402, res := 0x30 } v.jigId
    else
      match v.check m jig with
      | some b => m.refuseLoad b v.jigId
      | none =>
        match v.stateBad m with
        | some p => m.refuseLoad { code := 0x0601, res := 0x23, part := some p } 0
        | none => if (List.range 16).any (fun p => (m.part p).krf.phase = .dumping) then m else v.accept m

/-! ## Writing (R249, R256) -/

/-- The image that a core's threads start from. -/
def JCore.image (k : JCore) : Image :=
  { threadEn := k.threadEn, progBase := k.progBase, progLen := k.progLen, descBase := k.descBase
    starts := (List.range 8).map k.start, semInit := (List.range 16).map k.semInit
    lists := (k.segs.filter (fun g => g.kind = 1)).map (fun g => g.addr) }

/-- The bytes a segment writes: of a list region the J fields of the state block, with RESOLVED = 1 (R177). -/
def JSeg.write (g : JSeg) (sram : Memory) : Memory :=
  if g.kind = 1 then writeLE (writeBytes sram g.addr (g.body.take 16)) (g.addr + 0x4A) 1 1
  else writeBytes sram g.addr g.body

/-- SRAM after its image is written into zeroed bytes. -/
def JCore.sram (k : JCore) : Memory :=
  k.segs.foldl (fun s g => g.write s)
    (writeBytes (writeBytes [] k.descBase (slice k.sec.bytes 128 4096)) k.progBase (slice k.sec.bytes imageHead k.progLen))

/-- A port entry as a request port (R318). -/
def portOf (y : Nat) : ReqPort :=
  { reqRoute := fld y 32 14, readRoute := fld y 48 14, doneRoute := fld y 64 14, readCredits := fld y 80 12 }

/-- The windows and ports of a STREAM_FLOWS section enter their cores. -/
def JSec.writeWindows (s : JSec) (m : Module) : Module :=
  let m := (List.range s.nwins).foldl (fun m i =>
    m.modCore (s.winCore i) (fun k => { k with wins := kput k.wins (s.winIdx i) (windowOf i (s.win i)) })) m
  (List.range s.nports).foldl (fun m i =>
    let y := s.port i
    m.modCore (fld y 0 15) (fun k => { k with ports := kput k.ports (fld y 16 4) (portOf y) })) m

/-- A section of partition `p` takes its place. -/
def JSec.writeInto (s : JSec) (m : Module) : Module :=
  let p := s.part
  if s.type = 0x03 then
    let x := leNat s.bytes
    m.modPart p (fun y => { y with
      bypass := bitAt x 64, narrow := bitAt x 65, drainMs := fld x 80 16
      layerClass := (List.range 16).map (layerClass x), sessClass := (List.range 8).map (sessClass x) })
  else if s.type = 0x10 then
    match coreOf s with
    | some k => m.modCore s.inst (fun y => { y with img := some k.image, sram := k.sram })
    | none => m
  else if s.type = 0x20 then { m with str.layers := kput m.str.layers p s.layerList }
  else if s.type = 0x21 then
    let flows := (List.range s.nflows).foldl (fun t i => kput t (256 * p + i) (s.flowOf i)) m.str.flows
    let m := { m with str.flows := flows }
    (s.writeWindows m).modPart p (fun x => { x with windows := s.nwins })
  else if s.type = 0x22 then
    let es := s.herds.getD []
    { m with herds := (List.range es.length).foldl (fun t i => kput t (4096 * p + i) (herdOfEntry (es.getD i {}))) m.herds }
  else if s.type = 0x23 then
    { m with tier.objects := (List.range s.objects).foldl (fun t i => kput t (4096 * p + i) (objOf (s.obj i))) m.tier.objects }
  else m

/-- Whether every cluster of a LOADING partition that has a frequency is ON; a dark die has none that could be (R460). -/
def Module.clustersUp (m : Module) (p : Nat) : Bool :=
  let x := m.part p
  (List.range x.clusters.length).all (fun i =>
    x.clusterFreq.getD i 0 = 0 || m.topo.dark.contains (dieOfCluster (x.clusters.getD i 0)) || (m.cluster (x.clusters.getD i 0)).st = .on)

/-- WRITING_COMPLETE: SRAM zeroed, images and sections in place, for the partitions still LOADING (R256). -/
def doWritingComplete (m : Module) : Module :=
  let v := viewOf m.jig.staging
  let live := v.defined.filter (fun p => (m.part p).st = .loading)
  if m.jig.phase ≠ .writing || m.jig.written || !live.all m.clustersUp then m
  else
    let w := { v with secs := v.secs.filter (fun s => !s.note && (s.type = 1 || s.type = 2 || live.contains s.part)) }
    let m := live.foldl (fun m p => (m.mapCores p bareCore).modPart p (fun x => { x with used := v.records p, windows := 0 })) m
    let m := (w.merge m).1
    let m := w.secs.foldl (fun m s => s.writeInto m) m
    { m with jig.written := true }

/-! ## READY (R258) -/

/-- A partition as it enters READY: its seed is set, counters and flags are cleared (R96, R97, R188, R258, R303, R349,
R385, R405, R451). -/
def JView.ready (v : JView) (digest : Digest) (p : Nat) (x : Part) : Part :=
  let seed := match v.owned 0x03 p with | some s => fld (leNat s.bytes) 0 64 | none => 0
  let krf := { x.krf with resume := false, notBitExact := false, predReset := false, restoreBad := false, jigDigest := digest
                          resumeCores := [], resumeHerds := [], resumeFlows := [] }
  { x with
    st := .ready, seed := seed, krf := krf, tags := 0, dropped := 0, fallbacks := 0, promos := 0, demos := 0, misses := 0
    veneers := 0, bypassFills := 0, reparents := 0, opsDone := 0, lostMembers := 0, abortsRx := 0, dlMisses := 0, herdRetx := 0
    taskSeq := 0, lastCode := 0 }

/-- Fences, models and sessions of a partition that a load defines (R399, R410, R413), and its NET_ERR_COUNT (R229). -/
def Module.freshPart (m : Module) (p : Nat) : Module :=
  { m with
    que.sessions := m.que.sessions.filter (fun e => e.1 / 2 ^ 18 ≠ p)
    que.models := m.que.models.filter (fun e => e.1 / 16 ≠ p)
    que.fences := m.que.fences.filter (fun e => e.1 / 64 ≠ p)
    net.errs := kdel m.net.errs p }

/-- The module-wide settings of a full jig, at its frame sync (R203, R242, R244). -/
def JView.settings (v : JView) (m : Module) : Module :=
  let x := v.module
  { m with
    net.slot := 0, net.frameLen := fld x 0 13, jig.fullSeen := true, jig.perCluster := bitAt x 16, jig.freq := fld x 32 12
    jig.vcWeights := fld x 64 64, jig.bwSplit := (List.range 12).map (fun i => fld x (128 + 16 * i) 16) }

/-- Whether a slot whose counter is a multiple of F lies in this sk. -/
def Module.frameStarts (m : Module) : Bool :=
  let r := m.net.slot % m.frame_
  r = 0 || m.frame_ < r + m.slotsPerSk

/-- PARTITION_READY: at the frame sync of a full jig, or in the slot of a partial one, the defined partitions enter READY. -/
def doPartitionReady (m : Module) : Module :=
  if m.jig.phase ≠ .writing || !m.jig.written || !m.pwr.meshLocked then m
  else
    let v := viewOf m.jig.staging
    if !v.full && !m.frameStarts then m
    else
    let m := if v.full then v.settings m else m
    let live := v.defined.filter (fun p => (m.part p).st = .loading)
    let m := live.foldl (fun m p => (m.modPart p (v.ready m.jig.digestNow p)).freshPart p) m
    let m := live.foldl (fun m p => m.restClusters p) m
    { m.endLoad with
      jig.loadedId := v.jigId, jig.digest := m.jig.digestNow, jig.loadCount := (m.jig.loadCount + 1) % 2 ^ 32
      jig.lastSigned := m.jig.signedNow, jig.lastPartial := !v.full }

/-! ## What ends a load early (R263) -/

/-- LOADING partitions fail with a code. -/
def Module.failLoading (m : Module) (code : Nat) : Module :=
  (List.range 16).foldl (fun m p => if (m.part p).st = .loading then m.failPart p code else m) m

/-- The load is abandoned; LOADING partitions fail with a code. -/
def Module.abandonLoad (m : Module) (code : Nat) : Module :=
  if m.jig.phase = .idle then m else (m.failLoading code).endLoad

/-- Configuration writes freeze during a load: an ARMED wait goes on. -/
def Module.freezeLoad (m : Module) : Module :=
  match m.jig.phase with
  | .staging => m.refuseLoad { code := 0x0601, res := 0x21 } 0
  | .checking => m.refuseLoad { code := 0x0601, res := 0x21 } 0
  | .writing => m.abandonLoad 0x0B01
  | .idle => m
  | .armed => m

/-- An uncorrectable word of the staged bytes (R263, R262): the checks will refuse the jig; during WRITING the LOADING
partitions fail. -/
def Module.stagedError (m : Module) : Module :=
  match m.jig.phase with
  | .checking => { m with jig.stagedBad := true }
  | .writing => m.abandonLoad 0x0402
  | _ => m

/-! ## Draining (R262, R478) -/

/-- DRAIN_LIMIT_EXPIRY: the limit of DRAINING ends first; 20 ms when input droop began it (R478). -/
def doDrainLimitExpiry (p : Nat) (m : Module) : Module :=
  let x := m.part p
  if x.st ≠ .draining || !m.msPassed x.drainFrom (if x.drainDroop then 20 else x.drainMs) then m
  else m.abortTask p 0x0601 .module

end Sys2Proof.Machine
end

