-- ==== Sys2Proof/Machine/Launch.lean ====
section
/-! DEFINITION. Job launch over tine trees: serving the staged jig, and staging a fabric jig (R252, R253, R446 to R448,
R450). -/

namespace Sys2Proof.Machine

open Sys2Proof

/-! ## Serving (R446) -/

/-- KRF_LAUNCH_CTRL.SERVE. -/
def Launch.serve (x : Launch) : Bool := bitAt x.ctrl 0

/-- The port of launch traffic; none when PORT_DIE is not a healthy link die. -/
def Module.launchPort (m : Module) : Option Nat :=
  let n := fld m.launch.ctrl 8 6
  if isLink n && !m.topo.ringBad.contains n then some (portOfRing n) else none

/-- The VC of launch DATA. -/
def Module.launchVc (m : Module) : Nat := max 1 (fld m.launch.ctrl 16 3)

/-- Whether a fabric jig is awaited or being staged. -/
def Module.launching (m : Module) : Bool := m.jig.phase = .armed || (m.jig.phase = .staging && m.jig.fabric)

/-- The launch stream of a JIG_ID. -/
def launchStream (id : Nat) : Nat := id % 2 ^ 32

/-- The launch stream served: that of the jig awaited or staged. -/
def Module.servedStream (m : Module) : Option Nat :=
  if !m.launch.serve || m.launchPort.isNone then none
  else if m.launching then some (launchStream m.jig.fabricId)
  else if m.jig.staging = [] then none
  else some (launchStream (viewOf m.jig.staging).jigId)

/-- TOTAL_LENGTH of the jig served, once its header is staged. -/
def Module.servedTotal (m : Module) : Option Nat :=
  if m.launching then m.launch.total else some (viewOf m.jig.staging).total

/-- Units of a jig: whole tiles. -/
def jigUnits (total : Nat) : Nat := 16 * ceilDiv total tileBytes

/-- Tile `t` of the staged jig; none while it is not staged. -/
def Module.launchTile (m : Module) (t : Nat) : Option (List Byte) :=
  if m.launching then kget? m.launch.tiles t
  else some (padTo tileBytes 0 (slice (m.jig.staging.take (viewOf m.jig.staging).total) (tileBytes * t) tileBytes))

/-- One DATA message of one tile of the launch stream. -/
def Module.sendLaunchTile (m : Module) (stream mac u : Nat) (bs : List Byte) : Module :=
  let port := m.launchPort.getD 0
  let last : Bool := match m.servedTotal with | some n => jigUnits n ≤ u + 16 | none => false
  let (q, m) := m.nextPspSeq stream
  let (n, m) := m.nextMsg (pspKey stream)
  m.sendChunk {
    port := port, mac := mac, etype := m.str.ethertype, vc := m.launchVc, chan := stream, msg := n, chunk := 0
    last := true, aux := 0, payload := codedTransit 0 0xFFFF 0 (u / 16 % 32) bs, at_ := 0, owner := .child 16 0 mac
    upper := pspHeader 2 last stream 0 0 u 16 0 q }

/-- The tiles of one PULL, as far as they are staged; what still waits. -/
def Module.serveLaunch (m : Module) (stream mac : Nat) : (fuel : Nat) → (u stop : Nat) → Module × Option (Nat × Nat × Nat)
  | 0, u, stop => (m, some (mac, u, stop))
  | n + 1, u, stop =>
    if stop ≤ u then (m, none)
    else
      match m.launchTile (u / 16) with
      | none => (m, some (mac, u, stop))
      | some bs => (m.sendLaunchTile stream mac u bs).serveLaunch stream mac n (u + 16) stop

/-- A PULL of the launch stream: RANGE beyond the jig, once its length is known. -/
def Module.answerLaunch (m : Module) (stream : Nat) (x : Nat × Nat × Nat) : Module × Option (Nat × Nat × Nat) :=
  let (mac, u, stop) := x
  let beyond : Bool := match m.servedTotal with | some n => jigUnits n < stop | none => false
  if beyond then (m.sendStatus (m.launchPort.getD 0) mac stream 0 0 u (stop - u) 2, none)
  else m.serveLaunch stream mac 70_000 u stop

/-- PULLs of the launch stream that wait are answered as far as the jig is staged. -/
def Module.launchGo (m : Module) : Module :=
  match m.servedStream with
  | none => m
  | some stream =>
    let held := m.launch.held
    held.foldl (fun m x =>
      match m.answerLaunch stream x with
      | (m, none) => m
      | (m, some y) => { m with launch.held := m.launch.held ++ [y] }) { m with launch.held := [] }

/-- A PULL of the launch stream arrives. -/
def Module.launchPull (m : Module) (stream mac unit count : Nat) : Module :=
  if count = 0 || unit % 16 ≠ 0 || count % 16 ≠ 0 then m.sendStatus (m.launchPort.getD 0) mac stream 0 0 unit count 2
  else { m with launch.held := m.launch.held ++ [(mac, unit, unit + count)] }.launchGo

/-- SERVE: a write of KRF_LAUNCH_CTRL from the lease holder, not while a fabric jig is awaited or a jig is staged; PULLs
that wait when serving stops are answered with NOT_FOUND (R446, R450). -/
def doServe (src : Source) (v : Reg64) (m : Module) : Module :=
  if src = .host || !m.cfgOk src || m.jig.phase = .staging || m.jig.phase = .armed then m
  else
    let x := v.toNat
    let ctrl := fld x 0 1 + put 8 6 (fld x 8 6) + put 16 3 (max 1 (fld x 16 3))
    let m := if bitAt x 0 then m
      else match m.servedStream with
        | none => { m with launch.held := [] }
        | some s => m.launch.held.foldl (fun m h => m.sendStatus (m.launchPort.getD 0) h.1 s 0 0 h.2.1 (h.2.2 - h.2.1) 1)
            { m with launch.held := [] }
    { m with launch.ctrl := ctrl }.launchGo

/-! ## Arming (R252, R447) -/

/-- Units held from unit 0 on without a gap. -/
def prefixUnits (tiles : KMap (List Byte)) : (n : Nat) → (t : Nat) → Nat
  | 0, t => 16 * t
  | n + 1, t => if (kget? tiles t).isSome then prefixUnits tiles n (t + 1) else 16 * t

/-- A PULL of the awaited jig to the present parent. -/
def Module.sendLaunchPull (m : Module) (x : Pull) : Module :=
  match m.launchPort with
  | none => m
  | some port =>
    let last : Bool := match m.launch.total with | some n => jigUnits n ≤ x.unit + x.count | none => false
    m.sendPsp port m.launch.parentNow 1 last (launchStream m.jig.fabricId) 0 0 x.unit x.count 0
      (leBytes 4 (prefixUnits m.launch.tiles m.launch.tiles.length 0))

/-- A new PULL of the awaited jig. -/
def Module.newLaunchPull (m : Module) (unit count : Nat) : Module :=
  let x : Pull := { key := 0, unit := unit, count := count, at_ := m.now, last := m.now }
  let m := m.sendLaunchPull x
  { m with launch.pulls := m.launch.pulls ++ [x], launch.nextUnit := unit + count }

/-- ARM_FABRIC of JIG_LOAD_CTRL: the first PULL asks for units 0 to 15. -/
def doArmFabric (src : Source) (m : Module) : Module :=
  if m.loadIgnored src then m
  else
    match m.loadBar with
    | some r => m.refuse { code := 0x0601, res := r } 0
    | none =>
      let m := { m with
        jig.phase := .armed, jig.fabric := true, jig.staging := [], launch.tiles := [], launch.held := [], launch.pulls := []
        launch.total := none, launch.nextUnit := 0, launch.unitsStaged := 0, launch.reparented := false
        launch.parentNow := m.launch.parent }
      if m.launchPort.isNone then m else m.newLaunchPull 0 16

/-- DISARM of JIG_LOAD_CTRL: an ARMED wait ends. -/
def doDisarm (src : Source) (m : Module) : Module :=
  if m.loadIgnored src || m.jig.phase ≠ .armed then m else m.endLoad

/-! ## Staging from a parent (R447) -/

/-- The load of a fabric jig ends with 0x0603. -/
def Module.failLaunch (m : Module) : Module := m.refuseLoad { code := 0x0603, res := 0x30 } m.jig.fabricId

/-- Tiles asked for and not held. -/
def Module.launchOpen (m : Module) : Nat :=
  m.launch.pulls.foldl (fun a x => a + ((List.range (x.count / 16)).filter (fun i =>
    (kget? m.launch.tiles (x.unit / 16 + i)).isNone)).length) 0

/-- Further PULLs of 16 tiles each while at most 64 tiles are outstanding. -/
def Module.launchMore (m : Module) : (fuel : Nat) → Module
  | 0 => m
  | n + 1 =>
    let units := jigUnits (m.launch.total.getD 0)
    let count := min 256 (units - m.launch.nextUnit)
    if count = 0 || 64 < m.launchOpen + count / 16 then m
    else (m.newLaunchPull m.launch.nextUnit count).launchMore n

/-- Staging ends once every unit is held. -/
def Module.launchDone (m : Module) : Module :=
  match m.launch.total with
  | none => m
  | some n =>
    let k := ceilDiv n tileBytes
    if (List.range k).all (fun t => (kget? m.launch.tiles t).isSome) then
      let jig := ((List.range k).flatMap (fun t => kgetD [] m.launch.tiles t)).take n
      { m.beginChecking jig with launch.pulls := [], launch.tiles := [] }
    else m

/-- A checked tile enters the staging region; tile 0 brings the header. -/
def Module.stageLaunch (m : Module) (t : Nat) (bs : List Byte) : Module :=
  let names (x : Pull) : Bool := x.unit ≤ 16 * t && 16 * t < x.unit + x.count
  let m := { m with
    launch.tiles := kput m.launch.tiles t bs
    launch.pulls := m.launch.pulls.map (fun x => if names x then { x with last := m.now } else x) }
  let m := { m with
    launch.unitsStaged := 16 * m.launch.tiles.length
    launch.pulls := m.launch.pulls.filter (fun x => (List.range (x.count / 16)).any (fun i =>
      (kget? m.launch.tiles (x.unit / 16 + i)).isNone)) }
  let h := leNat (bs.take 128)
  if t = 0 && fld h 192 64 ≠ m.jig.fabricId then m.refuseLoad { code := 0x0603, res := 0x30 } (fld h 192 64)
  else if t = 0 && 2 ^ 32 < fld h 128 64 then m.refuseLoad { code := 0x0602, res := 0x01 } (fld h 192 64)
  else
    let m := if t = 0 then { m with launch.total := some (fld h 128 64) } else m
    (m.launchGo.launchMore 16).launchDone.launchGo

/-- A chunk of the awaited launch stream (R253, R311, R447). -/
def Module.launchChunk (m : Module) (k : Chunk) : Module × Answer :=
  if !m.launching || k.chan ≠ launchStream m.jig.fabricId then (m, .ack)
  else if m.jig.phase = .armed && m.sys.st ≠ .service && m.sys.st ≠ .reduced then
    (m.refuseLoad { code := 0x0601, res := 0x20 } 0, .ack)
  else if m.jig.phase = .armed && m.sup.lease ≠ .held then (m.refuseLoad { code := 0x0601, res := 0x21 } 0, .ack)
  else
    let m := { m with jig.phase := .staging }
    let h := leNat (k.upper.take 32)
    let unit := fld h 96 32
    let count := fld h 128 32
    let t := unit / 16 + k.chunk
    if count = 0 || unit % 16 ≠ 0 || count % 16 ≠ 0 || count ≤ 16 * k.chunk then (m.failLaunch, .ack)
    else if (kget? m.launch.tiles t).isSome then (m, .ack)
    else if !m.launch.pulls.any (fun x => x.unit ≤ 16 * t && 16 * t < x.unit + x.count) then (m.failLaunch, .ack)
    else
      match readTransit 0 0xFFFF 0 (t % 32) k.payload with
      | none => (m.failLaunch, .ack)
      | some (bs, _) => (m.stageLaunch t bs, .ack)

/-- LAUNCH_DATA: a chunk of the launch stream. -/
def doLaunchData (k : Chunk) (m : Module) : Module := (m.launchChunk k).1

/-- A STATUS that answers a PULL of the awaited jig (R311). -/
def Module.launchStatus (m : Module) (h : Nat) : Module :=
  if m.launching && fld h 160 16 ≠ 0 then m.failLaunch else m

/-! ## Silence (R312, R448) -/

/-- LAUNCH_REPARENT: 20 ms without DATA for an outstanding PULL; a grandparent silent for SRC_MS, or none, ends the load. -/
def doLaunchReparent (m : Module) : Module :=
  let late (n : Nat) : Bool := m.launch.pulls.any (fun x => m.msPassed x.last n)
  if !m.launching then m
  else if m.launch.reparented then if late (fld m.str.timeouts 0 16) then m.failLaunch else m
  else if !late 20 then m
  else if m.launch.grand = 0 then m.failLaunch
  else
    let m := m.logEvent 0x0503 (.ring (fld m.launch.ctrl 8 6))
    let pulls := m.launch.pulls.map (fun x => { x with at_ := m.now, last := m.now })
    let m := { m with
      launch.reparents := satN 16 (m.launch.reparents + 1), launch.parentNow := m.launch.grand, launch.reparented := true
      launch.pulls := pulls }
    pulls.foldl (fun m x => m.sendLaunchPull x) m

/-- PULL_RESEND: a PULL of a flow, or with 16 as the partition one of the awaited jig, is sent again, unchanged (R312). -/
def doPullResend (p i j : Nat) (m : Module) : Module :=
  if p = 16 then
    match m.launch.pulls[j]? with
    | none => m
    | some x =>
      if !m.launching || !m.msPassed (max x.at_ x.last) 5 then m
      else
        let m := m.sendLaunchPull x
        { m with launch.pulls := m.launch.pulls.set j { x with at_ := m.now } }
  else m.flowResend p i j

end Sys2Proof.Machine
end

