-- ==== Sys2Proof/Machine/Fabric.lean ====
section
/-! DEFINITION. What arrives at the optical ports: frames, chunks and their answers, PSP and pool messages, and the timers
of the chunk layer (R311, R313, R353 to R364, R383). -/

namespace Sys2Proof.Machine

open Sys2Proof

/-! ## The pool's answers (R313, R363) -/

/-- The partition whose page `pg` is. -/
def Module.partOfPage (m : Module) (pg : Nat) : Nat := (m.objOf pg).1 / 4096

/-- POOL_DATA for a reader of partition `p` that buffers its tiles: the reader goes on; a nonzero STATUS, or a tile that fails R295, aborts the
task (R282, R313). -/
def Module.readerData (m : Module) (op : PoolOp) (p die status : Nat) (payload : List Byte) (go : Module → Module) : Module :=
  if status ≠ 0 then m.abortTask p 0x0202 (.ring die)
  else
    match m.bufferTile op payload with
    | none => m.abortTask p 0x0203 (.ring die)
    | some m => go m

/-- The reader of a pool transfer, or the write of one, fails with a code: the task of its partition aborts (R282). -/
def Module.ownerFails (m : Module) (op : PoolOp) (code : Nat) : Module :=
  match op.owner with
  | .herd key => m.abortTask (key / 4096) code (.ring (m.herd key).portDie)
  | .herdDst key _ => m.abortTask (key / 4096) code (.ring (m.herd key).portDie)
  | .stage key => m.abortTask (key / 256) code (.ring (m.flow key).portDie)
  | .feeder key die => m.abortTask (key / 256) code (.ring die)
  | .child key _ => m.abortTask (key / 256) code (.ring (m.flow key).portDie)
  | _ => m

/-- An answer of the pool goes to the transfer's owner; only POOL_DATA carries a payload. -/
def Module.poolDone (m : Module) (op : PoolOp) (status : Nat) (payload : Option (List Byte)) : Module :=
  match op.owner with
  | .req id =>
    match payload with
    | some bs => m.reqData op id status bs
    | none => m.reqAck id status
  | .move pg => m.moveAnswer op pg status payload
  | .kerf p => m.kerfAck op p status
  | .restore p => m.restoreData op p status (payload.getD [])
  | .kerfSource p =>
    match payload with
    | some bs => m.kerfData op p status bs
    | none => if status ≠ 0 then m.failTake p else m
  | .bounce pg => m.kerfData op (m.partOfPage pg) status (payload.getD [])
  | .restoreDst p => m.restoreAck p status
  | .copy q => m.copyData op q status (payload.getD [])
  | .copyIn q pos => m.copyAck q pos status
  | .herd key =>
    m.readerData op (key / 4096) (m.herd key).portDie status (payload.getD []) (fun m => m.herdGo (key / 4096) (key % 4096) herdFuel)
  | .herdDst key c => if status ≠ 0 then m.ownerFails op 0x0202 else m.herdStored key c
  | .stage _ => if status ≠ 0 then m.ownerFails op 0x0202 else m
  | .feeder key die => m.readerData op (key / 256) die status (payload.getD []) (fun m => m.feed (key / 256) key die)
  | .child key mac =>
    m.readerData op (key / 256) (m.flow key).portDie status (payload.getD [])
      (fun m => (m.serveChild (key / 256) key mac 20_000).freeStage (key / 256) key)
  | .nobody => m

/-- A pool transfer fails with a code (R282, R287, R407, R438, R440). -/
def Module.poolFail (m : Module) (op : PoolOp) (code : Nat) : Module :=
  match op.owner with
  | .kerf p => m.failTake p
  | .restore p => m.failRestore p code
  | .kerfSource p => m.failTake p
  | .bounce pg => m.failTake (m.partOfPage pg)
  | .restoreDst p => m.failRestore p code
  | .copy q => m.endCopy q code
  | .copyIn q _ => m.endCopy q code
  | .req _ => m.failTransfer op code
  | .move _ => m.failTransfer op code
  | .herd _ => m.ownerFails op code
  | .herdDst _ _ => m.ownerFails op code
  | .stage _ => m.ownerFails op code
  | .feeder _ _ => m.ownerFails op code
  | .child _ _ => m.ownerFails op code
  | .nobody => m

/-- A POOL_DATA chunk completes the oldest unanswered POOL_READ of its port. -/
def Module.poolChunk (m : Module) (k : Chunk) : Module :=
  match m.str.poolReads.find? (fun o => o.port = k.port) with
  | none => m
  | some op =>
    let m := { m with str.poolReads := m.str.poolReads.filter (fun o => o.id ≠ op.id) }
    m.poolDone op (fld (leNat (k.upper.take 32)) 160 16) (some k.payload)

/-- POOL_DATA. -/
def doPoolData (k : Chunk) (m : Module) : Module :=
  if !pspOk k.upper || leAt k.upper 1 1 ≠ 5 then m.badPsp else m.poolChunk k

/-- POOL_ACK: it completes the oldest unanswered POOL_WRITE of its port. -/
def doPoolAck (port _mac : Nat) (msg : Bytes) (m : Module) : Module :=
  if !pspOk msg || leAt msg 1 1 ≠ 7 then m.badPsp
  else
    match m.str.poolWrites.find? (fun o => o.port = port) with
    | none => m
    | some op =>
      let m := { m with str.poolWrites := m.str.poolWrites.filter (fun o => o.id ≠ op.id) }
      m.poolDone op (leAt msg 20 2) none

/-- Whether a pool transfer has waited 10 ms for its answer. -/
def Module.poolLate (m : Module) (port : Nat) (o : PoolOp) : Bool :=
  o.port = port && (match o.at_ with | some t => m.msPassed t 10 | none => false)

/-- POOL_TIMEOUT: the oldest transfer of a port without an answer for 10 ms fails with 0x0202. -/
def doPoolTimeout (port : Nat) (m : Module) : Module :=
  match m.str.poolReads.find? (m.poolLate port) with
  | some op => { m with str.poolReads := m.str.poolReads.filter (fun o => o.id ≠ op.id) }.poolFail op 0x0202
  | none =>
    match m.str.poolWrites.find? (m.poolLate port) with
    | some op => { m with str.poolWrites := m.str.poolWrites.filter (fun o => o.id ≠ op.id) }.poolFail op 0x0202
    | none => m

/-! ## PSP messages (R309, R311) -/

/-- The TYPE of a PSP header. -/
def pspType (h : List Byte) : Nat := leAt h 1 1

/-- A message whose STREAM names no flow at all, of either direction, is counted (R311). -/
def Module.noFlow (m : Module) (stream : Nat) : Module :=
  if (m.flowOf stream false).isSome || (m.flowOf stream true).isSome then m else m.unknownStream

/-- PSP_PULL: a PULL of a child, or for the launch stream; one that names no flow is answered with NOT_FOUND, and so is one that names a return
flow, which has no units to give (DESIGN CHOICE, log 124). -/
def doPspPull (port mac : Nat) (msg : Bytes) (m : Module) : Module :=
  let h := leNat (msg.take 32)
  let stream := fld h 32 32
  let unit := fld h 96 32
  let count := fld h 128 32
  if !pspOk msg || pspType msg ≠ 1 then m.badPsp
  else if m.servedStream = some stream && m.launchPort = some port then m.launchPull stream mac unit count
  else
    match m.flowOf stream false with
    | some key => m.pullFromChild key mac (fld h 64 16) (fld h 80 4) unit count (leAt msg 32 4)
    | none => (m.noFlow stream).sendStatus port mac stream (fld h 64 16) (fld h 80 4) unit count 1

/-- STATUS: a nonzero one that answers a PULL of this module aborts the task, or ends the staging of a fabric jig. -/
def doStatus (_port _mac : Nat) (msg : Bytes) (m : Module) : Module :=
  let h := leNat (msg.take 32)
  let stream := fld h 32 32
  if !pspOk msg || pspType msg ≠ 3 then m.badPsp
  else if m.launching && stream = launchStream m.jig.fabricId then m.launchStatus h
  else
    match m.flowOf stream false with
    | some key => m.statusForFlow key h
    | none => m.noFlow stream

/-- A chunk of PSP DATA whose header is right. No PULL of a return flow is ever outstanding, so DATA for one aborts (R311). -/
def Module.pspData (m : Module) (k : Chunk) : Module × Answer :=
  let h := leNat (k.upper.take 32)
  let stream := fld h 32 32
  if m.launching && stream = launchStream m.jig.fabricId then
    if fld h 160 16 ≠ 0 then (m.launchStatus h, .ack) else m.launchChunk k
  else
    match m.flowOf stream false with
    | none =>
      match m.flowOf stream true with
      | some key => (m.abortTask (key / 256) 0x0204 (.ring (m.flow key).portDie), .ack)
      | none => (m.unknownStream, .ack)
    | some key => if fld h 160 16 ≠ 0 then (m.statusForFlow key h, .ack) else m.dataChunk key k

/-- DATA: the ingress die checks a DATA chunk and stores its tile. -/
def doData (k : Chunk) (m : Module) : Module :=
  if !pspOk k.upper || pspType k.upper ≠ 2 then m.badPsp else (m.pspData k).1

/-- A chunk of PSP or pool traffic passes the upper check (R311): a bad header counts as a missing chunk. -/
def Module.pspChunk (m : Module) (k : Chunk) : Module × Answer :=
  if !pspOk k.upper then (m.badPsp, .nak)
  else if pspType k.upper = 2 then m.pspData k
  else if pspType k.upper = 5 then (m.poolChunk k, .ack)
  else (m.noFlow (leAt k.upper 4 4), .ack)

/-- A PSP control message. -/
def Module.pspControl (m : Module) (port mac : Nat) (msg : List Byte) : Module :=
  if !pspOk msg then m.badPsp
  else if pspType msg = 1 then doPspPull port mac msg m
  else if pspType msg = 3 then doStatus port mac msg m
  else if pspType msg = 7 then doPoolAck port mac msg m
  else if pspType msg = 9 then doGradAck port mac msg m
  else m.noFlow (leAt msg 4 4)

/-! ## Chunks received (R361) -/

/-- The key of a chunk: sender, EtherType, CHANNEL, MSG and CHUNK. -/
def Partial.key (q : Partial) : Nat × Nat × Nat × Nat × Nat := (q.mac, q.etype, q.chan, q.msg, q.chunk)

/-- The task, load or transfer that owns a channel ends with 0x0501. -/
def Module.failChannel (m : Module) (port etype chan : Nat) : Module :=
  let loc := Loc.ring (ringOfPort port)
  if etype = m.str.ethertype then
    if chan = 0 then
      match m.str.poolReads.find? (fun o => o.port = port) with
      | some op => { m with str.poolReads := m.str.poolReads.filter (fun o => o.id ≠ op.id) }.poolFail op 0x0501
      | none => m
    else if m.launching && chan = launchStream m.jig.fabricId then m.failLaunch
    else
      match m.flowOf chan false with
      | some key => m.abortTask (key / 256) 0x0501 loc
      | none => m
  else
    match m.herdOf chan with
    | some key => m.abortTask (key / 4096) 0x0501 loc
    | none => m

/-- A CRC-64 mismatch is counted, and logged at most once per port per millisecond. -/
def Module.noteCrc (m : Module) (port : Nat) : Module :=
  let x := m.port port
  let fresh : Bool := match x.crcLogAt with | some t => m.msPassed t 1 | none => true
  let x := { x with crcFails := satN 32 (x.crcFails + 1) }
  if fresh then (m.setPort port { x with crcLogAt := some m.now }).logEvent 0x0501 (.ring (ringOfPort port))
  else m.setPort port x

/-- A chunk put together. -/
def Partial.toChunk (q : Partial) (port : Nat) : Chunk :=
  let x := leNat (q.hdr.take 96)
  { port := port, mac := q.mac, chan := q.chan, msg := q.msg, chunk := q.chunk, last := bitAt x 145, aux := fld x 256 64
    upper := leBytes 32 (fld x 320 256), payload := (List.range q.nsegs).flatMap (fun s => kgetD [] q.segs s) }

/-- The answer for a partial or complete chunk. -/
def Module.answerChunk (m : Module) (port : Nat) (q : Partial) (kind : Nat) : Module :=
  m.sendAnswer port q.mac q.etype kind q.chan q.msg q.chunk q.retry

/-- A chunk fails: NAK, and after the transmission with RETRY = 4 the owner of the channel ends. -/
def Module.chunkFails (m : Module) (port : Nat) (q : Partial) : Module :=
  let m := m.answerChunk port q 2
  if q.retry = 4 then m.failChannel port q.etype q.chan else m

/-- Every segment of a chunk has arrived. -/
def Module.chunkWhole (m : Module) (port : Nat) (q : Partial) : Module :=
  let k := q.toChunk port
  if m.fab.accepted.contains q.key then m.answerChunk port q 1
  else if crc64 k.payload ≠ fld (leNat (q.hdr.take 96)) 192 64 then (m.noteCrc port).chunkFails port q
  else
    match if q.etype = m.str.ethertype then m.pspChunk k else m.herdChunk k with
    | (m, .ack) => { m with fab.accepted := m.fab.accepted ++ [q.key] }.answerChunk port q 1
    | (m, .nak) => m.answerChunk port q 2
    | (m, .wait) => m.answerChunk port q 3
    | (m, .silent) => m

/-- A segment that has arrived: its chunk with it. -/
def segmentOf (mac etype : Nat) (now : Nat) (body : List Byte) : Partial × Nat :=
  let x := leNat (body.take 96)
  let s := fld x 8 3
  let len := fld x 128 17
  ({ mac := mac, etype := etype, chan := fld x 32 32, msg := fld x 64 32, chunk := fld x 96 32, retry := fld x 16 3
     segs := [(s, slice body 96 (min 8448 (len - 8448 * s)))], nsegs := fld x 11 3 + 1, hdr := body.take 96
     at_ := now }, s)

/-- ACK_US and GAP_US of FAB_TIMERS. -/
def Module.ackUs (m : Module) : Nat := max 1 (fld m.fab.timers 0 16)
def Module.gapUs (m : Module) : Nat := max 1 (fld m.fab.timers 16 16)

/-- A partial chunk is still incomplete GAP_US after its first segment: discarded with NAK; of one that was accepted before the ACK is sent
again. -/
def Module.gapOut (m : Module) (port : Nat) (q : Partial) : Module :=
  let m := { m with fab.partials := m.fab.partials.filter (fun e => !(e.1 = port && e.2.key = q.key)) }
  if m.fab.accepted.contains q.key then m.answerChunk port q 1 else m.chunkFails port q

/-- A segment is collected (R361, items 1 to 3). -/
def Module.collect (m : Module) (port : Nat) (y : Partial) (s : Nat) : Module :=
  let old := (m.fab.partials.find? (fun e => e.1 = port && e.2.key = y.key)).map Prod.snd
  let rest := m.fab.partials.filter (fun e => !(e.1 = port && e.2.key = y.key))
  let q : Option Partial := match old with
    | none => some y
    | some q =>
      if q.retry < y.retry then some y
      else if y.retry < q.retry then none
      else some { q with segs := kput q.segs s (kgetD [] y.segs s) }
  match q with
  | none => m
  | some q =>
    if (List.range q.nsegs).all (fun i => (kget? q.segs i).isSome) then
      { m with fab.partials := rest }.chunkWhole port q
    else { m with fab.partials := rest ++ [(port, q)] }

/-- A segment arrives: one that comes with the expiry of GAP_US goes with its partial chunk; one that comes later finds it gone (R361, R364). -/
def Module.segment (m : Module) (port mac etype : Nat) (body : List Byte) : Module :=
  if !sealOk 96 body then m.discard port
  else
    let (y, s) := segmentOf mac etype m.now body
    match (m.fab.partials.find? (fun e => e.1 = port && e.2.key = y.key)).map Prod.snd with
    | none => m.collect port y s
    | some q =>
      if !m.usPassed q.at_ m.gapUs then m.collect port y s
      else if m.usOver q.at_ m.gapUs then (m.gapOut port q).collect port y s
      else m.gapOut port q

/-- The EtherType with which a message operand of a chunk row begins. -/
def msgType (msg : List Byte) : Nat := beNat (msg.take 2)

/-- CHUNK_SEGMENT: `msg` is the frame from its EtherType on. -/
def doChunkSegment (port mac : Nat) (msg : Bytes) (m : Module) : Module :=
  let etype := msgType msg
  if (etype ≠ m.str.ethertype && etype ≠ m.fab.herdType) || leAt msg 2 1 ≠ 0xC1 then m.discard port
  else m.segment port mac etype (msg.drop 2)

/-- GAP_TIMEOUT: GAP_US has passed since the first segment of the `i`-th partial chunk of the module. -/
def doGapTimeout (port i : Nat) (m : Module) : Module :=
  match m.fab.partials[i]? with
  | none => m
  | some (n, q) =>
    if n ≠ port || !m.usPassed q.at_ m.gapUs then m else m.gapOut port q

/-! ## Answers and retransmission (R363, R364) -/

/-- Whether a sent chunk is the one an answer names. -/
def SentChunk.is (c : SentChunk) (mac etype x : Nat) : Bool :=
  c.mac = mac && c.etype = etype && c.chan = fld x 32 32 && c.msg = fld x 64 32 && c.chunk = fld x 96 32

/-- A sent chunk replaced in its place. -/
def Module.setSent (m : Module) (i : Nat) (c : SentChunk) : Module := { m with fab.sent := m.fab.sent.set i c }

/-- A chunk is sent again; one with RETRY above 0 counts. -/
def Module.resend (m : Module) (i : Nat) (c : SentChunk) : Module :=
  let m := m.setSent i { c with at_ := m.now, waiting := false }
  let m := if c.retry = 0 then m
    else
      let x := m.port c.port
      let m := m.setPort c.port { x with retransmits := satN 32 (x.retransmits + 1) }
      match c.owner with
      | .herd p _ _ _ _ => m.modPart p (fun x => { x with herdRetx := satN 32 (x.herdRetx + 1) })
      | .grad _ _ => m
      | .child _ _ _ => m
      | .poolWrite _ => m
  m.sendSegments c

/-- The fourth retransmission of a chunk has failed: it is abandoned. -/
def Module.exhausted (m : Module) (i : Nat) (c : SentChunk) : Module :=
  let m := { m with fab.sent := m.fab.sent.eraseIdx i }
  let loc := Loc.ring (ringOfPort c.port)
  match c.owner with
  | .herd p _ _ _ _ => m.abortTask p (if c.nak then 0x0501 else 0x0502) loc
  | .grad p _ => m.abortTask p (if c.nak then 0x0501 else 0x0202) loc
  | .child p key mac =>
    if p = 16 then m
    else
      let f := m.flow key
      m.setFlow key { f with children := f.children.map (fun x =>
        if x.mac = mac then { x with silentAt := some m.now, wants := [] } else x) }
  | .poolWrite id =>
    match m.str.poolWrites.find? (fun o => o.id = id) with
    | some op =>
      { m with str.poolWrites := m.str.poolWrites.filter (fun o => o.id ≠ id) }.poolFail op (if c.nak then 0x0501 else 0x0202)
    | none => m

/-- A transmission has failed: the chunk is sent with RETRY + 1, or abandoned after RETRY 4. -/
def Module.retransmit (m : Module) (i : Nat) (c : SentChunk) : Module :=
  if 4 ≤ c.retry then m.exhausted i c else m.resend i { c with retry := c.retry + 1 }

/-- A chunk answer of a kind whose HCRC is right, with the sent chunk it names. -/
def Module.answered (m : Module) (mac kind : Nat) (msg : List Byte) : Option (Nat × SentChunk × Nat) :=
  let b := msg.drop 2
  let x := leNat (b.take 64)
  if !sealOk 64 b || fld x 0 8 ≠ 0xC2 || fld x 8 8 ≠ kind then none
  else
    match m.fab.sent.findIdx? (fun c => c.is mac (msgType msg) x) with
    | some i => (m.fab.sent[i]?).map (fun c => (i, c, fld x 128 3))
    | none => none

/-- A chunk answer of a tine child shows that it is not silent (R339). -/
def Module.heardFrom (m : Module) (c : SentChunk) : Module :=
  match c.owner with
  | .child p key mac =>
    if p = 16 then m
    else
      let f := m.flow key
      m.setFlow key { f with children := f.children.map (fun x => if x.mac = mac then { x with lastAt := m.now } else x) }
  | .herd _ _ _ _ _ => m
  | .grad _ _ => m
  | .poolWrite _ => m

/-- ACK: the chunk is done, whichever transmission it answers (R363, R364). -/
def doAck (_port mac : Nat) (msg : Bytes) (m : Module) : Module :=
  match m.answered mac 1 msg with
  | none => m
  | some (i, c, _) =>
    let m := { m with fab.sent := m.fab.sent.eraseIdx i }
    match c.owner with
    | .herd p h _ _ down => m.herdAcked p h down c.chunk
    | .poolWrite id =>
      { m with str.poolWrites := m.str.poolWrites.map (fun o => if o.id = id then { o with at_ := some m.now } else o) }
    | .grad _ _ => m
    | .child _ _ _ => m.heardFrom c

/-- NAK: unless it is stale, every segment is sent again with RETRY + 1. -/
def doNak (_port mac : Nat) (msg : Bytes) (m : Module) : Module :=
  match m.answered mac 2 msg with
  | none => m
  | some (i, c, r) => if r < c.retry then m.heardFrom c else (m.heardFrom c).retransmit i { c with nak := true }

/-- WAIT: unless it is stale, the chunk is sent again after ACK_US with the same RETRY. -/
def doWaitAnswer (_port mac : Nat) (msg : Bytes) (m : Module) : Module :=
  match m.answered mac 3 msg with
  | none => m
  | some (i, c, r) => if r < c.retry then m.heardFrom c else (m.heardFrom c).setSent i { c with waiting := true, at_ := m.now }

/-- ACK_TIMEOUT: ACK_US has passed for the `i`-th chunk sent: without an answer it is retransmitted, after WAIT it is sent
again as it was. -/
def doAckTimeout (i : Nat) (m : Module) : Module :=
  match m.fab.sent[i]? with
  | none => m
  | some c =>
    if !m.usPassed c.at_ m.ackUs then m
    else if c.waiting then m.resend i c
    else m.retransmit i c

/-! ## Frames (R353) -/

/-- The rows of R353 that a received frame may meet. -/
inductive FrameFate where
  | fcs | discard | pause | accept
deriving DecidableEq, Repr

/-- The first row of R353 that a frame meets at a port. -/
def Module.frameFate (m : Module) (port : Nat) (f : List Byte) : FrameFate :=
  let n := f.length
  let e1 := beNat (slice f 12 2)
  let e2 := beNat (slice f 16 2)
  let tagged : Bool := e1 = 0x8100
  if n < 4 || 9216 < n || fcs32 (f.take (n - 4)) ≠ leAt f (n - 4) 4 then .fcs
  else if n < 64 then .discard
  else if e1 = 0x8808 || (tagged && e2 = 0x8808) then .pause
  else if beNat (f.take 6) ≠ m.portMac port || !tagged || fld (beNat (slice f 14 2)) 0 12 ≠ fld m.fab.vlan 0 12 then .discard
  else if e2 ≠ m.str.ethertype && e2 ≠ m.fab.herdType then .discard
  else if leAt f 18 1 ≠ 0x01 && leAt f 18 1 ≠ 0xC1 && leAt f 18 1 ≠ 0xC2 then .discard
  else .accept

/-- An accepted body is acted on: a control message, a segment or a chunk answer. A chunk answer that fails is discarded and in no list of
R383. -/
def Module.frameBody (m : Module) (port mac : Nat) (msg : List Byte) : Module :=
  let body := msg.drop 2
  if leAt body 0 1 = 0xC1 then doChunkSegment port mac msg m
  else if leAt body 0 1 = 0xC2 then
    let b := body.take 64
    if !sealOk 64 b then m
    else if leAt b 1 1 = 1 then doAck port mac msg m
    else if leAt b 1 1 = 2 then doNak port mac msg m
    else if leAt b 1 1 = 3 then doWaitAnswer port mac msg m
    else m
  else if msgType msg = m.str.ethertype then m.pspControl port mac body
  else if leAt body 1 1 = 1 then doHerdAbort port mac body m
  else if leAt body 1 1 = 2 then doLost port mac body m
  else m.discard port

/-- FRAME_RECEIVE: a frame arrives at a port whose link is up. -/
def doFrameReceive (port : Nat) (frame : Bytes) (m : Module) : Module :=
  let x := m.port port
  if 48 ≤ port || !x.up then m
  else
    match m.frameFate port frame with
    | .fcs => m.setPort port { x with fcsErrors := satN 32 (x.fcsErrors + 1) }
    | .discard => m.discard port
    | .pause => m.setPort port { x with pauseIgnored := satN 32 (x.pauseIgnored + 1) }
    | .accept =>
      let m := m.setPort port { x with framesRx := satN 32 (x.framesRx + 1) }
      m.frameBody port (beNat (slice frame 6 6)) (slice frame 16 (frame.length - 20))

/-! ## Links and the VC0 budget (R354, R356, R383) -/

/-- Whether the link die of a port is healthy. -/
def Module.portPresent (m : Module) (port : Nat) : Bool :=
  port < 48 && !m.topo.ringBad.contains (ringOfPort port) && !m.pwr.ringOpen.contains (2 * (port / 12))

/-- Whether the ports' transmitters are enabled: from stage 1 of bring-up on, mated or not (R504, R548). -/
def Module.transmitOn (m : Module) : Bool :=
  match m.sys.st with
  | .cold => false
  | .bringup => 1 ≤ m.sys.stage
  | .recovery => 1 ≤ m.sys.stage
  | .service => true
  | .reduced => true
  | .safe => true
  | .outOfService => true

/-- A port whose link is down: frames that wait are lost (R354). -/
def Port.down (x : Port) : Port := { x with up := false, vc0Wait := [], downs := if x.up then satN 16 (x.downs + 1) else x.downs }

/-- LINK_DOWN: frames that wait are lost. -/
def doLinkDown (port : Nat) (localFault remoteFault : Bool) (m : Module) : Module :=
  let x := m.port port
  if !m.portPresent port then m
  else m.setPort port { x.down with localFault := localFault, remoteFault := remoteFault }

/-- LINK_UP. -/
def doLinkUp (port : Nat) (m : Module) : Module :=
  let x := m.port port
  if !m.portPresent port || !m.transmitOn then m
  else m.setPort port { x with up := true, localFault := false, remoteFault := false }

/-- Waiting VC0 frames leave in order while they fit the budget. -/
def Module.drainVc0 (m : Module) (port : Nat) : (fuel : Nat) → Module
  | 0 => m
  | n + 1 =>
    let x := m.port port
    match x.vc0Wait with
    | [] => m
    | f :: rest =>
      if m.vc0Budget < x.vc0Used + f.length then m
      else ((m.setPort port { x with vc0Wait := rest, vc0Used := x.vc0Used + f.length }).txFrame port f).drainVc0 port n

/-- VC0_BUDGET_INTERVAL: the next 10 µs interval of a port begins. -/
def doVc0BudgetInterval (port : Nat) (m : Module) : Module :=
  let x := m.port port
  if 48 ≤ port || !m.usPassed x.vc0From 10 then m
  else (m.setPort port { x with vc0Used := 0, vc0From := m.now }).drainVc0 port x.vc0Wait.length

end Sys2Proof.Machine
end

