-- ==== Sys2Proof/Machine/Delivery.lean ====
section
/-! DEFINITION. Packets that reach a core, a reduction unit or a ring die: what takes them there (R202, R210 to R226, R280,
R281, R323 to R329, R336, R344, R345, R414 to R417). -/

namespace Sys2Proof.Machine

open Sys2Proof

/-! ## SEQ (R211, R223 case 5) -/

/-- The key of a SEQ count of a route: CREDIT packets are counted apart. -/
def seqKey (f : Flight) : Nat := if hKind f.hdr = 3 then 16384 + f.route else f.route

/-- A packet whose SEQ follows the last one of its count at a core goes on; any other slips. -/
def Module.inSeqCore (m : Module) (p c : Nat) (f : Flight) (go : Module → Module) : Module :=
  if hSeq f.hdr ≠ kgetD 0 (m.core c).expects (seqKey f) then m.slip p 0x0301 c 5 f.route
  else go (m.modCore c (fun k => { k with expects := kput k.expects (seqKey f) ((hSeq f.hdr + 1) % 256) }))

/-- The same at a ring die. -/
def Module.inSeqDie (m : Module) (p n : Nat) (f : Flight) (go : Module → Module) : Module :=
  if hSeq f.hdr ≠ kgetD 0 m.net.dieExpect (seqKey f) then m.slip p 0x0301 (ringSite n) 5 f.route
  else go { m with net.dieExpect := kput m.net.dieExpect (seqKey f) ((hSeq f.hdr + 1) % 256) }

/-! ## At a core -/

/-- The windows of core `c` that a property picks. -/
def Module.winsAt (m : Module) (c : Nat) (sel : Window → Bool) : List Nat :=
  ((m.core c).wins.filter (fun e => sel e.2)).map Prod.fst

/-- The request port of core `c` that counts the WRITE_DONEs of a route. -/
def Module.donePort (m : Module) (c route : Nat) : Option Nat :=
  ((m.core c).ports.find? (fun e => e.2.doneRoute = route)).map Prod.fst

/-- A message on a window's data route: a SWITCH, or a slip (R324). -/
def Module.switchAtCore (m : Module) (p c : Nat) (f : Flight) : Module :=
  if !winMsgOk f.msg || fld f.msg 0 4 ≠ 3 then m.slip p 0x0301 c 5 f.route
  else (m.winsAt c (fun w => w.dataRoute = f.route)).foldl (fun m i => m.switchAtWindow p c i f.msg) m

/-- A packet that reaches core `c`. -/
def Module.arriveCore (m : Module) (p c : Nat) (f : Flight) : Module :=
  let kind := hKind f.hdr
  let data := m.winsAt c (fun w => w.dataRoute = f.route)
  let pulls := m.winsAt c (fun w => w.pullIn = f.route)
  if kind = 3 then m.inSeqCore p c f (fun m => m.coreCredit p c f)
  else
    match m.recvEndpoint c f.route with
    | some e => m.deliver p c e f
    | none =>
      if data ≠ [] && kind = 0 then
        m.inSeqCore p c f (fun m => data.foldl (fun m i => m.unitAtWindow c i (flitBytes f.payload)) m)
      else if data ≠ [] && kind = 4 then m.inSeqCore p c f (fun m => m.switchAtCore p c f)
      else if pulls ≠ [] && kind = 4 then
        m.inSeqCore p c f (fun m => pulls.foldl (fun m i => m.pullAtCore p c i f) m)
      else
        match m.donePort c f.route with
        | some i => if kind = 4 then m.inSeqCore p c f (fun m => m.writeDoneAtCore c i f) else m.slip p 0x0301 c 5 f.route
        | none => m.slip p 0x0301 c 5 f.route

/-! ## At a ring die -/

/-- A result has one payload flit; one of any other shape slips (R413). The bound model of partition `p` whose route at bits [lo + 13:lo] is `route`. -/
def Module.modelOn (m : Module) (p lo route : Nat) : Option Nat :=
  (m.que.models.find? (fun e => e.1 / 16 = p && e.2.bound && fld e.2.reg lo 14 = route)).map Prod.fst

/-- Whether a route carries the requests of a port of partition `p`. -/
def Module.isRequest (m : Module) (p route : Nat) : Bool :=
  m.cores.any (fun e => (m.part p).hasCore e.1 && e.2.ports.any (fun q => q.2.reqRoute = route))

/-- Whether a route is that of a send endpoint of partition `p`. -/
def Module.isSend (m : Module) (p route : Nat) : Bool :=
  m.cores.any (fun e => (m.part p).hasCore e.1 && e.2.eps.any (fun q => !q.2.recv && q.2.route = route))

/-- A CREDIT packet at ring die `n`: for a model's dispatches, or for the READ data a receive endpoint takes (R215, R329,
R414). -/
def Module.dieCredit (m : Module) (p n : Nat) (f : Flight) : Module :=
  let k := hLen f.hdr + 1
  match if n = svcS then m.modelOn p 16 f.route else none with
  | some x => m.dispatchCredit x k f.route
  | none =>
    let reader := m.cores.findSome? (fun e =>
      (e.2.eps.find? (fun q => q.2.recv && q.2.creditRoute = f.route)).bind (fun q =>
        (e.2.ports.find? (fun y => y.2.readRoute = q.2.route)).map (fun y => (q.2.route, y.2.readCredits))))
    match reader with
    | none => m.slip p 0x0301 (ringSite n) 5 f.route
    | some (route, limit) =>
      let have_ := kgetD 0 m.net.dieCredits route
      if limit < have_ + k then m.slip p 0x0301 (ringSite n) 5 f.route
      else { m with net.dieCredits := kput m.net.dieCredits route (have_ + k) }.serveAll p

/-- A packet that reaches ring die `n`; none where it waits for its request, or for an earlier result. -/
def Module.arriveDie (m : Module) (p n : Nat) (f : Flight) : Option Module :=
  let kind := hKind f.hdr
  let slip := m.slip p 0x0301 (ringSite n) 5 f.route
  if kind = 3 then some (m.inSeqDie p n f (fun m => m.dieCredit p n f))
  else if kind = 4 then
    if m.isRequest p f.route then some (m.inSeqDie p n f (fun m => m.requestAtDie p n f))
    else
      match m.pullRouteAt p n f.route with
      | some (key, mem) => some (m.inSeqDie p n f (fun m => m.windowAtFeeder p n key mem f))
      | none => some slip
  else
    match if n = svcS && kind = 0 then m.modelOn p 32 f.route else none with
    | some k => if hLen f.hdr ≠ 0 then some slip else if (m.model k).held.isSome then none else some (m.inSeqDie p n f (fun m => m.resultAtSvc k f))
    | none =>
      match m.gradRouteAt p n f.route with
      | some (fk, r) => some (m.inSeqDie p n f (fun m => m.gradAtDie p n fk r f))
      | none =>
        match m.writerOn n f.route with
        | some r => if kind = 0 then some (m.inSeqDie p n f (fun m => m.writeDataAtDie n r f)) else some slip
        | none => if m.isSend p f.route && kind = 0 then none else some slip

/-! ## Delivery (R202, R217, R223 to R225) -/

/-- A packet taken from its route at a site: at a core, a reduction unit or a ring die. -/
def Module.arrive (m : Module) (site : Nat) (f : Flight) : Option Module :=
  let p := f.part
  if (m.part p).flushing || !m.active p then some m
  else if 65536 ≤ site then some (m.absorb p ((site - 65536) / 16) (site / 8 % 2) (site % 8) f)
  else if 32768 ≤ site then m.arriveDie p (site - 32768) f
  else some (m.arriveCore p site f)

/-- The oldest packet of a route at a site arrives, when it is one that `ok` picks. -/
def Module.takeArrival (m : Module) (site route : Nat) (ok : Flight → Bool) : Module :=
  match takeFlight site route m.net.flights with
  | none => m
  | some (f, rest) => if ok f then ({ m with net.flights := rest }.arrive site f).getD m else m

/-- The partitions that reserve a slot of an input: port 1 N to 5 L of a router, or channel `port` of a ring die (R225). -/
def Module.reservers (m : Module) (site port : Nat) : List Nat :=
  let rs := if 32768 ≤ site && site < 65536 then (kgetD [] m.net.ring (32 * (site - 32768) + port)).map (fun e => e.2.1)
    else (m.core (routerOf site)).sched.map (fun e => entExp e.2 (port - 1))
  (List.range 16).filter (fun p => rs.any (fun r => m.routeOwner r = some p))

/-- A slip of a partition's route, but not while its network is flushed: then every flit that arrives is discarded without one (R202). -/
def Module.slipOpen (m : Module) (p code site port route : Nat) : Module :=
  if (m.part p).flushing then m else m.slip p code site port route

/-- A finding of the receiving unit fails the partition of the route, or every partition that reserves the input. -/
def Module.wireFault (m : Module) (code site port route : Nat) : Module :=
  match m.routeOwner route with
  | some p => m.slipOpen p code site port route
  | none => (m.reservers site port).foldl (fun m p => m.slipOpen p code site port route) m

/-- A delivery with what the receiving unit finds; `ok` picks the packets. -/
def Module.wire (m : Module) (site route : Nat) (w : WireFinding) (ok : Flight → Bool) : Module :=
  match w with
  | .slip port => m.wireFault 0x0301 site port route
  | .badCrc port => m.wireFault 0x0302 site port route
  | .ok => m.takeArrival site route ok

/-- PACKET_DELIVERY. -/
def doPacketDelivery (site route : Nat) (w : WireFinding) (m : Module) : Module := m.wire site route w (fun _ => true)

/-- CREDIT_PACKET: the packet is of KIND CREDIT. -/
def doCreditPacket (site route : Nat) (w : WireFinding) (m : Module) : Module :=
  m.wire site route w (fun f => hKind f.hdr = 3)

/-! ## The arrivals that have rows of their own -/

/-- The OP of a CONTROL message. -/
def Flight.op (f : Flight) : Nat := fld f.msg 0 4

/-- READ: a request other than a WRITE reaches its home die; `found` is what the reads of T1 at the die find (R298). -/
def doRead (die route : Nat) (found : List T1Finding) (m : Module) : Module :=
  let m := m.t1Found (found.filter (fun f => m.home? (32 * f.word / pageBytes) = some die))
  m.takeArrival (ringSite die) route (fun f => hKind f.hdr = 4 && m.isRequest f.part route && f.op ≠ 2)

/-- WRITE: the request, or a packet of its data, reaches the home die. -/
def doWrite (die route : Nat) (m : Module) : Module :=
  m.takeArrival (ringSite die) route (fun f =>
    (hKind f.hdr = 4 && m.isRequest f.part route && f.op = 2) || (hKind f.hdr = 0 && (m.writerOn die route).isSome))

/-- WRITE_DONE reaches the request port of a core. -/
def doWriteDone (c route : Nat) (m : Module) : Module :=
  m.takeArrival c route (fun f => hKind f.hdr = 4 && (m.donePort c route).isSome)

/-- WINDOW_PULL: a PULL reaches its feeder, which knows the load of its traffic at this moment (R333). -/
def doWindowPull (die route : Nat) (load : FeederLoad) (m : Module) : Module :=
  let m := { m with str.loads := kput m.str.loads die (load.cycles, load.permille) }
  m.takeArrival (ringSite die) route (fun f => hKind f.hdr = 4 && (m.pullRouteAt f.part die route).isSome && f.op = 1)

/-- UNIT_ARRIVAL: a unit reaches the windows of its data route. -/
def doUnitArrival (c route : Nat) (m : Module) : Module :=
  m.takeArrival c route (fun f => hKind f.hdr = 0 && m.winsAt c (fun w => w.dataRoute = route) ≠ [])

/-- MISS reaches the feeder, or a core on its way. -/
def doMiss (site route : Nat) (m : Module) : Module :=
  m.takeArrival site route (fun f => hKind f.hdr = 4 && f.op = 2
    && (if 32768 ≤ site then (m.pullRouteAt f.part (site - 32768) route).isSome else m.winsAt site (fun w => w.pullIn = route) ≠ []))

/-- SWITCH reaches the windows of its data route. -/
def doSwitch (c route : Nat) (m : Module) : Module :=
  m.takeArrival c route (fun f => hKind f.hdr = 4 && m.winsAt c (fun w => w.dataRoute = route) ≠ [])

/-- BATCH_RESULT: a result that was held goes on, or the next one of the model is taken (R417). -/
def doBatchResult (p i : Nat) (m : Module) : Module :=
  let k := modelKey p i
  let x := m.model k
  match x.held with
  | some (bs, j) => m.takeResult k bs j
  | none => m.takeArrival (ringSite svcS) (fld x.reg 32 14) (fun f => m.modelOn f.part 32 f.route = some k)

end Sys2Proof.Machine
end

