-- ==== Sys2Proof/Machine/Maintenance.lean ====
section
/-! DEFINITION. What runs behind every job: ECC write-back, scrubs, refresh and the activation guard, targeted and engine
self-tests, calibration, aging monitors and telemetry (R296 to R300, R501 to R503). -/

namespace Sys2Proof.Machine

open Sys2Proof

/-! ## Background activities (R501, R503) -/

/-- Whether background activities run: in SERVICE and REDUCED. -/
def Module.serving (m : Module) : Bool := m.sys.st = .service || m.sys.st = .reduced

/-- A pass of activity `k` is complete; one later than its floor of `s` seconds counts a miss. -/
def Module.passDone (m : Module) (k s : Nat) : Module :=
  let x : Activity := kgetD {} m.sup.acts k
  let late : Bool := s ≠ 0 && s * skS < m.now - x.lastAt
  { m with sup.acts := kput m.sup.acts k { lastAt := m.now, misses := satN 16 (x.misses + b2n late), progress := 0 } }

/-- A finding enters the field retirement list once. -/
def Module.retireLater (m : Module) (r : Retire) : Module :=
  if m.topo.retire.contains r then m else { m with topo.retire := m.topo.retire ++ [r] }

/-! ## T0 (R297, R299) -/

/-- ECC_WRITEBACK: the bank writes the corrected word back. -/
def doEccWriteback (c word : Nat) (m : Module) : Module :=
  if (m.core c).softWords.contains word then m.modCore c (fun k => { k with softWords := k.softWords.filter (· ≠ word) }) else m

/-- Lines of a core's SRAM (R190). -/
def t0Lines : Nat := 40_960

/-- Whether a core's banks are powered. -/
def Module.powered (m : Module) (c : Nat) : Bool := (m.cluster (clusterOf c)).st = .on && !m.hole c

/-- Whether every powered core has finished its part of the module-wide pass (R304). -/
def Module.t0PassOver (m : Module) : Bool :=
  (m.pwr.clusters.filter (fun e => e.2.st = .on)).all (fun e =>
    (coresOfCluster e.1).all (fun c => m.hole c || 0 < (m.core c).scrubs))

/-- The next line of core `c` is scrubbed. -/
def Module.t0Next (m : Module) (c : Nat) : Module :=
  let k := m.core c
  if k.scrubNext + 1 < t0Lines then m.setCore c { k with scrubNext := k.scrubNext + 1 }
  else
    let m := m.setCore c { k with scrubNext := 0, scrubs := k.scrubs + 1 }
    if m.t0PassOver then
      let m := { m with
        tier.scrubT0 := satN 32 (m.tier.scrubT0 + 1), cores := kmapv (fun _ k => { k with scrubs := 0 }) m.cores }
      m.passDone 0 0
    else m

/-- T0_SCRUB: the line whose turn it is (R299); `word` is the ECC word of the line that holds the finding. -/
def doT0Scrub (c word : Nat) (f : EccFinding) (m : Module) : Module :=
  if !m.serving || !m.powered c || word / 2 ≠ (m.core c).scrubNext then m
  else
    let m := m.t0Next c
    match f with
    | .clean => m
    | .corrected =>
      (m.modCore c (fun k => if k.softWords.contains word then k else { k with softWords := k.softWords ++ [word] })).t0Corrected c word
    | .uncorrectable =>
      let m := m.modCore c (fun k => if k.badWords.contains word then k else { k with badWords := k.badWords ++ [word] })
      (m.t0Unc c word).logEvent 0x0402 (t0Loc c word) (detail := word / 40)

/-! ## T1 (R298, R299, R501) -/

/-- ECC words of a stack: 96 GiB in words of 32 B. -/
def t1Words : Nat := 3 * 2 ^ 30

/-- Whether a stack is present (R47). -/
def Module.stackUp (m : Module) (stack : Nat) : Bool := stack < 24 && !m.topo.ringBad.contains (t1Loc stack).idx

/-- Passes over every stack that is present. -/
def Module.t1Passes (m : Module) : Nat :=
  (((List.range 24).filter m.stackUp).map (fun s => kgetD 0 m.tier.t1Pass s)).foldl min (2 ^ 32)

/-- The patrol of a stack goes on; a pass over every stack counts (R304). -/
def Module.t1Next (m : Module) (stack idx : Nat) : Module :=
  if idx + 1 < t1Words then { m with tier.t1At := kput m.tier.t1At stack (idx + 1) }
  else
    let old := m.t1Passes
    let m := { m with tier.t1At := kput m.tier.t1At stack 0, tier.t1Pass := kmod 0 m.tier.t1Pass stack (· + 1) }
    if old < m.t1Passes then { m with tier.scrubT1 := satN 32 (m.tier.scrubT1 + 1) }.passDone 1 3_600 else m

/-- Whether ECC word `w` of Terourn space lies in a page that T1 holds at ring die `die`. -/
def Module.t1Holds (m : Module) (die w : Nat) : Bool :=
  let pg := 32 * w / pageBytes
  (m.page pg).tier = 1 && m.home? pg = some die

/-- T1_SCRUB: the patrol reads word `idx` of a stack, in DRAM row `row`; `word` names the word in Terourn space, if it lies
in a page. A word of the reserved region may belong to a staged jig (R263). -/
def doT1Scrub (die stack row idx : Nat) (word : Place) (f : EccFinding) (m : Module) : Module :=
  if !m.serving || !m.stackUp stack || die ≠ (t1Loc stack).idx || idx ≠ kgetD 0 m.tier.t1At stack then m
  else
    let m := m.t1Next stack idx
    match f with
    | .clean => m
    | .corrected => m.t1Corrected stack row
    | .uncorrectable =>
      let m := (m.t1Unc stack row).logEvent 0x0402 (t1Loc stack) (detail := row)
      match word with
      | none => m.stagedError
      | some w => if m.t1Holds die w then { m with tier.badWords := kput m.tier.badWords w (stack, row) } else m

/-- T1_REFRESH: a refresh interval of a stack ends, and its activation counts start again (R299, R501). -/
def doT1Refresh (stack : Nat) (m : Module) : Module :=
  { m with tier.acts := m.tier.acts.filter (fun e => e.1 / 2 ^ 32 ≠ stack + 1) }

/-- ACTIVATION_GUARD: the neighbours of a row activated 8,192 times are refreshed (R501). -/
def doActivationGuard (stack row : Nat) (m : Module) : Module :=
  if m.stackUp stack then { m with tier.acts := kmod 0 m.tier.acts (t1Key stack row) (· + 1) } else m

/-! ## Targeted self-tests (R300) -/

/-- The key, place and retirement entry of a location. -/
def Module.eccPlace (m : Module) (l : EccLoc) : Nat × Loc × Retire :=
  match l with
  | .t0 c bank line => (t0Key c (20 * line + bank), { Loc.core c with sub := bank }, .t0Line ((m.physOf c).getD 0) bank line)
  | .t1 _ stack row => (t1Key stack row, t1Loc stack, .t1Row (t1Loc stack).idx stack row)

/-- TARGETED_SELF_TEST: a mismatch, or a second 0x0401 since the last remap, fails the location. -/
def doTargetedSelfTest (l : EccLoc) (failed : Bool) (m : Module) : Module :=
  let (key, loc, r) := m.eccPlace l
  if m.tier.tests.contains key then
    let m := { m with tier.tests := m.tier.tests.filter (· ≠ key) }
    if failed || 2 ≤ kgetD 0 m.tier.eccSeen key then (m.logEvent 0x0403 loc).retireLater r else m
  else m

/-! ## Engine self-tests (R113, R502) -/

/-- Cores that hold no hole. -/
def Module.mappedCores (m : Module) : Nat := ((List.range 19_600).filter (fun c => !m.hole c)).length

/-- An engine beyond repair: its core is retired at the next remap (R113, R122). -/
def Module.engineOut (m : Module) (phys : Nat) : Module :=
  let m := if m.topo.engineBad.contains phys then m else { m with topo.engineBad := m.topo.engineBad ++ [phys] }
  m.retireLater (.core phys)

/-- A list without the repeats of its entries. -/
def distinct : List Nat → List Nat
  | [] => []
  | a :: l => if l.contains a then distinct l else a :: distinct l

/-- The rows that one test of an engine finds faulty, of its 33 (R113): a single one is repaired where the spare is unused; any other
finding retires the core at the next remap. -/
def Module.rowsFault (m : Module) (phys : Nat) (rows : List Nat) : Module :=
  let x : Repair := kgetD {} m.topo.repair phys
  let used := m.topo.retire.any (fun r => match r with | .rowRepair q _ => q = phys | _ => false)
  match distinct (rows.filter (· ≤ 32)) with
  | [] => m
  | [r] =>
    if m.topo.retire.contains (.rowRepair phys r) then m
    else if x.rowSkip = 32 && !used then m.retireLater (.rowRepair phys r)
    else m.engineOut phys
  | _ => m.engineOut phys

/-- The columns, in the same way. -/
def Module.colsFault (m : Module) (phys : Nat) (cols : List Nat) : Module :=
  let x : Repair := kgetD {} m.topo.repair phys
  let used := m.topo.retire.any (fun r => match r with | .colRepair q _ => q = phys | _ => false)
  match distinct (cols.filter (· ≤ 32)) with
  | [] => m
  | [k] =>
    if m.topo.retire.contains (.colRepair phys k) then m
    else if x.colSkip = 32 && !used then m.retireLater (.colRepair phys k)
    else m.engineOut phys
  | _ => m.engineOut phys

/-- What one test finds of each engine that it names (R113). -/
def Module.enginesFault (m : Module) (rows cols : Pairs) : Module :=
  let of (l : Pairs) (q : Nat) : List Nat := (l.filter (fun e => e.1 = q)).map Prod.snd
  (distinct ((rows ++ cols).map Prod.fst)).foldl (fun m q => (m.rowsFault q (of rows q)).colsFault q (of cols q)) m

/-- A finding of a periodic engine test. -/
def Module.engineFault (m : Module) (phys : Nat) (f : TestFinding) : Module :=
  match f with
  | .pass => m
  | .row r => m.rowsFault phys [r]
  | .col k => m.colsFault phys [k]
  | .engine => m.engineOut phys

/-- The cluster of a core whose cluster is not ON is woken for the test and goes back (R299, R502). -/
def Module.wokenForTest (m : Module) (c : Nat) : Module :=
  let cl := clusterOf c
  if (m.cluster cl).st = .on then m
  else { m with cores := kmapv (fun d k => if clusterOf d = cl then { k with scrubNext := 0, scrubs := 0 } else k) m.cores }

/-- ENGINE_SELF_TEST: the test of an engine ends with a finding. -/
def doEngineSelfTest (c : Nat) (f : TestFinding) (m : Module) : Module :=
  match m.physOf c with
  | none => m
  | some phys =>
    if !m.serving then m
    else
      let x : Activity := kgetD {} m.sup.acts 7
      let first := (m.core c).selfTestAt ≤ x.lastAt
      let m := (m.wokenForTest c).modCore c (fun k => { k with selfTestAt := m.now })
      let m := { m with sup.acts := kput m.sup.acts 7 { x with progress := x.progress + b2n first } }
      let m := if f = .pass then m else (m.logEvent 0x0403 (.core c)).engineFault phys f
      if m.mappedCores ≤ x.progress + b2n first then m.passDone 7 86_400 else m

/-! ## Calibration, aging, telemetry (R25, R467, R501) -/

/-- OSCILLATOR_CALIBRATION: the coupling of every oscillator is trimmed. -/
def doOscillatorCalibration (m : Module) : Module := if m.serving then m.passDone 4 60 else m

/-- The failed data wires of a link direction, those already repaired among them (R25). -/
def Module.failedWires (m : Module) (f : LinkFinding) : List Nat :=
  distinct (kgetD [] m.topo.lanes (64 * f.site + f.port) ++ f.wires.filter (· < 512))

/-- A link direction as calibration finds it: with more than 16 failed wires it is retired at the next remap; fewer are kept, for the
lane repair that the remap extends (R25). -/
def Module.calibrated (m : Module) (f : LinkFinding) : Module :=
  if 16 < (m.failedWires f).length then m.retireLater (.link f.site f.port)
  else { m with topo.lanesFound := kput m.topo.lanesFound (64 * f.site + f.port) (m.failedWires f) }

/-- LINK_CALIBRATION. -/
def doLinkCalibration (found : List LinkFinding) (m : Module) : Module :=
  if m.serving then (found.foldl Module.calibrated m).passDone 5 600 else m

/-- AGING_MONITOR_READ: the V/F table of a die is raised (R467); `raises` names dies and steps. -/
def doAgingMonitorRead (raises : Pairs) (m : Module) : Module :=
  if m.serving then
    (raises.foldl (fun m e => { m with pwr.vfOffset := kmod 0 m.pwr.vfOffset e.1 (· + e.2) }) m).passDone 8 60
  else m

/-- The shed level of the active MMP (R499). -/
def Module.shedLevel (m : Module) : Nat :=
  if m.sup.a.st = .active then m.sup.a.shedLevel else if m.sup.b.st = .active then m.sup.b.shedLevel else 0

/-- TELEMETRY_EXPORT: one report; every 8 s at shed level 1, none above (R499, R501). -/
def doTelemetryExport (m : Module) : Module :=
  let x : Activity := kgetD {} m.sup.acts 9
  if !m.serving || 2 ≤ m.shedLevel || (m.shedLevel = 1 && !m.skPassed x.lastAt (8 * skS)) then m else m.passDone 9 0

end Sys2Proof.Machine
end

