-- ==== Sys2Proof/Machine/HostLink.lean ====
section
/-! DEFINITION. The CXL link: up, down, failover, Bus Master Enable, the presence pin of receptacle B, and host accesses
that fail (R254, R282, R388, R389, R407, R549). -/

namespace Sys2Proof.Machine

open Sys2Proof

/-- Whether the CXL port is trained in the present state: from stage 1 of bring-up on, and by the recovery loader (R419,
R504, R531). -/
def Module.cxlAlive (m : Module) : Bool :=
  !m.sys.svcFailed.contains svcS && match m.sys.st with
  | .cold => false
  | .bringup => 1 ≤ m.sys.stage
  | .recovery => 1 ≤ m.sys.stage || m.sec.noImage
  | .service => true
  | .reduced => true
  | .safe => true
  | .outOfService => true

/-- A jig staging read meets no host (R254, R389). -/
def Module.stagingLost (m : Module) : Module :=
  if m.jig.phase = .staging && !m.jig.fabric then m.refuseLoad { code := 0x0603, res := 0x30 } 0 else m

/-- CXL_LINK_DOWN. -/
def doCxlLinkDown (m : Module) : Module :=
  if m.que.cxl.up then
    { m with que.cxl := { m.que.cxl with up := false, width := 0, speed := 0, downAt := m.now } }.stagingLost
  else m

/-- CXL_LINK_UP: the active position trains to a width and a speed. -/
def doCxlLinkUp (width speed : Nat) (m : Module) : Module :=
  if m.que.cxl.up || !m.cxlAlive then m
  else { m with que.cxl := { m.que.cxl with up := true, width := width % 16, speed := speed % 16 } }

/-- FAILOVER: after 10 ms down the other position is tried; the host sees a new device, so Bus Master Enable is 0. -/
def doFailover (trained : Bool) (width speed : Nat) (m : Module) : Module :=
  let x := m.que.cxl
  if x.up || !x.failoverEn || !m.cxlAlive || !m.msPassed x.downAt 10 then m
  else
    { m with que.cxl := { x with
        posB := !x.posB, failovers := satN 16 (x.failovers + 1), downAt := m.now, busMaster := false, up := trained
        width := if trained then width % 16 else 0, speed := if trained then speed % 16 else 0 } }

/-- BUS_MASTER_ENABLE: the host writes the bit over a link that is up. -/
def doBusMasterEnable (v : Bool) (m : Module) : Module :=
  if !m.que.cxl.up then m
  else
    let m := { m with que.cxl.busMaster := v }
    if v then m else m.stagingLost

/-- CXL_CABLE_PRESENCE: the presence pin of receptacle B (R549). -/
def doCxlCablePresence (present : Bool) (m : Module) : Module := { m with mech.bPresence := present }

/-- Whether a herd's operation reads its SRC in page `pg`, or waits for the host to hold a result chunk there. -/
def HerdOp.usesPage (r : HerdOp) (pg : Nat) : Bool :=
  (r.ret.isNone && r.src / pageBytes ≤ pg && pg * pageBytes < r.src + r.chunks * tileBytes)
    || r.awaits.any (fun e => e.2 && (r.dst + e.1 * tileBytes) / pageBytes = pg)

/-- Whether a window pull reads the veneer of its member in page `pg`. -/
def Module.readsVeneer (m : Module) (w : WinPull) (pg : Nat) : Bool :=
  w.veneer && m.veneerAddr (w.flow / 256) w.member w.sent (m.layer (w.flow / 256) w.layer) / pageBytes = pg

/-- A read or write of T2 that no request waits for fails: the kerf that is written from the page ends, the restore that writes it, or the task
whose herd or feeder uses it (R282, R438, R444). -/
def Module.t2Reader (m : Module) (pg code : Nat) : Module :=
  let p := m.partOfPage pg
  let krf := (m.part p).krf
  if krf.take.isSome && (m.page pg).pending then
    let m := if code = 0x0402 then m.logEvent 0x0402 (.ring ((m.home? pg).getD 0)) else m
    m.failTake p
  else if krf.restore.any (fun r => r.hostAt.isSome) then m.failRestore p code
  else if m.herds.any (fun e => e.1 / 4096 = p && e.2.run.any (fun r => r.usesPage pg))
      || m.str.winPulls.any (fun w => w.flow / 256 = p && m.readsVeneer w pg) then
    m.abortTask p code (.ring ((m.home? pg).getD 0))
  else m

/-- A T2 access of page `pg` fails: the oldest request that moves its data, or else the move of the page, or else its other user (R282, R287). -/
def Module.t2Failed (m : Module) (pg code : Nat) : Module :=
  match m.tier.reqs.find? (fun r => r.addr / pageBytes = pg && r.phase ≠ .queued) with
  | some r => if (m.page pg).tier = 2 then m.failReq r code else m
  | none =>
    match (m.page pg).move with
    | some v => if (m.page pg).tier = 2 || v.dest = 2 then m.abandonMove pg code else m
    | none => if (m.page pg).tier = 2 then m.t2Reader pg code else m

/-- HOST_ACCESS_FAILED: the host link reports a failed read or write, or a poisoned line. A descriptor fetch that fails leaves the queue as it
is, and is done again; so is a completion write whose acknowledgement was lost (R389). -/
def doHostAccessFailed (a : HostAccess) (m : Module) : Module :=
  match a with
  | .staging => m.stagingLost
  | .t2 pg poisoned => m.t2Failed pg (if poisoned then 0x0402 else 0x0202)
  | .copy q poisoned =>
    if (m.queue q).running && ((m.queue q).op = 0x10 || (m.queue q).op = 0x11) then m.endCopy q (if poisoned then 0x0402 else 0x0202) else m
  | .queue q => if (m.queue q).written.isSome then m.setQueue q { m.queue q with redo := true } else m

/-- A new sk begins: what waited for it goes on. The host has acknowledged writes of T2, partitions that drained with no task halt, and
herds that lost a member run on (R281, R381, R404, log 118). -/
def Module.skBegins (m : Module) : Module := m.hostAcks.copyAcks.drainsOver.herdsTick.restoresTick

end Sys2Proof.Machine
end

