-- ==== Sys2Proof/Machine/Lifecycle.lean ====
section
/-! DEFINITION. The module states of R264 and what a change of state, a dark die or a failed ring die brings about (R47,
R460, R471, R473, R482, R491). -/

namespace Sys2Proof.Machine

open Sys2Proof

/-! ## The effective cap (R454, R471, R480, R484) -/

/-- A cap field in 0.1 kW: 60 to 310 (R484). -/
def clampCap (n : Nat) : Nat := min 310 (max 60 n)

/-- The caps in force with their SOURCE numbers. -/
def Pwr.caps (w : Pwr) : List (Nat × Nat) :=
  let last := fld w.cap 0 9
  (if w.safeCap then [(min 120 last, 5)] else if w.lostAt.isSome then [(last, 4)] else [(last, 0)])
  ++ (match w.trayCap with | some c => [(c, 1)] | none => [])
  ++ (if w.coolantCap then [(60, 2)] else [])
  ++ (if w.droop then [(fld w.ctrl 8 9, 3)] else [])
  ++ [(20 * (18 - w.bricks.length) - 10, 6)]
  ++ (if w.droopSeq then [(60, 7)] else [])

/-- The lower of two caps; of equal ones that of the lower SOURCE. -/
def lowerCap (a b : Nat × Nat) : Nat × Nat := if b.1 < a.1 || (b.1 = a.1 && b.2 < a.2) then b else a

/-- The effective cap and its source. -/
def Pwr.capNow (w : Pwr) : Nat × Nat := w.caps.foldl lowerCap (310, 7)

/-- PWR_CAP_STATE follows the caps in force. -/
def Module.recap (m : Module) : Module :=
  let c := m.pwr.capNow
  { m with pwr.capEffective := c.1, pwr.capSource := c.2 }

/-! ## The fast shed (R473, R482, R483) -/

/-- Slots between the order of a shed or a release and its boundary. -/
def announceSlots : Nat := 16_384

/-- A fast shed is ordered; with the mesh at half clock an announced release is cancelled instead. -/
def Module.orderShed (m : Module) : Module :=
  if m.pwr.meshHalf then { m with pwr.releasePending := false }
  else if m.pwr.shedPending then m
  else { m with pwr.shedPending := true, pwr.releasePending := false, pwr.shedAt := m.net.slot + announceSlots }

/-- Whether the announced slot boundary has come; without a locked mesh there is none to wait for. -/
def Module.boundary (m : Module) : Bool := !m.pwr.meshLocked || m.pwr.shedAt ≤ m.net.slot

/-! ## Faults that fail partitions (R262, R460, R508) -/

/-- A fault of a place that partition `p` uses: LOADING, RUNNING and DRAINING become FAILED. -/
def Module.faultPart (m : Module) (p code : Nat) : Module :=
  match (m.part p).st with
  | .loading => m.failPart p code
  | .running => m.failPart p code
  | .draining => m.failPart p code
  | .off => m
  | .ready => m
  | .halted => m
  | .failed => m

/-- Whether core `c` or its router serves partition `p`: its rectangle, a schedule entry or a binding. -/
def Module.usesCore (m : Module) (p c : Nat) : Bool :=
  (m.part p).hasCore c
  || (m.core c).sched.any (fun e => (List.range 5).any (fun i => entExp e.2 i ≠ 0 && m.routeOwner (entExp e.2 i) = some p))
  || (m.core c).binds.any (fun b => b.part = p)

/-- The partitions that use a core of a list. -/
def Module.usersOf (m : Module) (cs : List Nat) : List Nat :=
  (List.range 16).filter (fun p => (m.part p).st ≠ .off && cs.any (fun c => m.usesCore p c))

/-- A compute die goes dark (R460): 0x0802, its clusters OFF, its cores dead for the loader, its partitions FAILED. -/
def Module.darkDie (m : Module) (d : Nat) : Module :=
  if m.topo.dark.contains d then m
  else
    let users := m.usersOf (coresOfDie d)
    let m := (m.setDieP d { m.dieP d with efuseOpen := true }).logFatal 0x0802 (.die d)
    let m := { m with
      topo.dark := m.topo.dark ++ [d]
      topo.runDead := m.topo.runDead ++ (coresOfDie d).filter (fun c => !m.topo.runDead.contains c)
      pwr.clusters := m.pwr.clusters.filter (fun e => dieOfCluster e.1 ≠ d) }
    users.foldl (fun m p => m.faultPart p 0x0802) m

/-! ## Module states (R264) -/

/-- A jig load is over without a result, and every partition is OFF. -/
def Module.allStopped (m : Module) : Module :=
  let m := (m.abandonLoad 0x0601).allOff 0x0601
  { m with
    jig.staging := [], launch.tiles := [], launch.held := [], launch.pulls := [], pwr.clusters := []
    cores := kmapv (fun _ k => { bareCore k with sched := [], binds := [] }) m.cores }

/-- An MMP that is running is ACTIVE as lease holder or as bring-up authority, and STANDBY otherwise (R491). -/
def Mmp.settle (x : Mmp) (active : Bool) : Mmp :=
  match x.st with
  | .standby => if active then { x with st := .active } else x
  | .active => if active then x else { x with st := .standby }
  | .off => x
  | .failed => x

/-- Both MMPs after a change of lease or authority. -/
def Module.settleMmps (m : Module) : Module :=
  let held := m.sup.lease = .held
  { m with
    sup.a := m.sup.a.settle ((held && !m.sup.holderB) || m.sup.authority = 1)
    sup.b := m.sup.b.settle ((held && m.sup.holderB) || m.sup.authority = 2) }

/-- BRINGUP or RECOVERY begins at stage 0, with no authority yet (R264, R493, R504): NET_FRAME, KRF_COMMITTED and KRF_STATS
read 0 (R227, R451), no full jig has been accepted (R234), FAILOVERS starts from 0 (R419), engines are in reduced-array
mode (R115), and the background activities count from now. -/
def Module.beginStages (m : Module) (st : ModState) : Module :=
  let m := m.allStopped
  { m with
    sys := { m.sys with st := st, stage := 0, stageHeld := false, stageAt := m.now }
    net.frameLen := 0, jig.fullSeen := false, que.cxl.failovers := 0
    parts := kmapv (fun _ (x : Part) => ({ tags := x.tags } : Part)) m.parts
    topo.reducedActive := true, topo.rowMask := 2 ^ 33 - 1, topo.colMask := 2 ^ 33 - 1, topo.arrayMasks := []
    fab.ports := kmapv (fun _ x => x.down) m.fab.ports
    pwr.meshLocked := false, pwr.sheds := 0, pwr.throttles := 0, pwr.floorShort := 0, pwr.deferrals := 0, pwr.lockFaults := 0
    pwr.stopped := []
    sup.authority := 0, sup.acts := (List.range 11).map (fun k => (k, { lastAt := m.now }))  }.settleMmps

/-- An MMP without its stages: OFF until a loader has checked the image again (R526). -/
def Mmp.stopped (x : Mmp) : Mmp := { x with st := .off, imageOk := false, refused := false, shedLevel := 0, busy := 0 }

/-- A security command that a power-off ends (R540): an image that was being written is no image. -/
def Sec.poweredOff (s : Sec) : Sec :=
  { s with
    cmd := none, busy := false, writing := none, measA := 0, measB := 0, noImage := false
    imageValid := s.imageValid && s.writing.isNone, oob := {}
    cmdAddr := 0, cmdLen := 0, quoteLimit := 0x40, op := 0, result := 0, outLen := 0 }

/-- What the AOS keeps of the dies' drop models: the crack marks with their limits, for the test at the next remap (R462). -/
def keptMarks (dies : KMap DiePower) : KMap DiePower :=
  (dies.filter (fun e => e.2.crackMark)).map (fun e =>
    (e.1, { rDie := e.2.rDie, crackLimit := e.2.crackLimit, crackMark := true }))

/-- COLD: the stages are off, so that every die but the always-on parts of the service dies is as after power-on (R21, R264,
R452): what the AOS, flash and fuses hold stays. -/
def Module.toCold (m : Module) : Module :=
  if m.sys.st = .cold then m
  else
    let m := m.allStopped
    let fresh : Module :=
      { sys := { stageAt := m.now },
        topo := { fuseDead := m.topo.fuseDead, retire := m.topo.retire, engineBad := m.topo.engineBad, applied := m.topo.applied, coreMap := m.topo.coreMap,
                  ringBad := m.topo.ringBad, deadLinks := m.topo.deadLinks, deadPorts := m.topo.deadPorts, lanes := m.topo.lanes,
                  lanesFound := m.topo.lanesFound, repair := m.topo.repair },
        fab := { macBase := m.fab.macBase },
        pwr := { sk := m.pwr.sk, cap := m.pwr.cap, ctrl := m.pwr.ctrl, capEffective := m.pwr.capEffective,
                 capSource := m.pwr.capSource, safeCap := m.pwr.safeCap, mgrA := m.pwr.mgrA, mgrB := m.pwr.mgrB,
                 holderB := m.pwr.holderB, lostAt := m.pwr.lostAt, coolantFault := m.pwr.coolantFault,
                 coolantCap := m.pwr.coolantCap, trayCap := m.pwr.trayCap, trayCapAt := m.pwr.trayCapAt, volts := m.pwr.volts,
                 lowSince := m.pwr.lowSince, highSince := m.pwr.highSince, droop := m.pwr.droop, bricks := m.pwr.bricks,
                 history := m.pwr.history, power := m.pwr.power, fast := m.pwr.fast, vfOffset := m.pwr.vfOffset, dies := keptMarks m.pwr.dies },
        sup := { m.sup with authority := 0, a := m.sup.a.stopped, b := m.sup.b.stopped },
        sec := m.sec.poweredOff, mech := m.mech, out := m.out, free := m.free }
    fresh.recap

/-- OUT_OF_SERVICE: every partition is OFF. -/
def Module.toOutOfService (m : Module) : Module :=
  let m := m.allStopped
  { m with sys := { m.sys with st := .outOfService, stage := 0, stageHeld := false, stageAt := m.now }, sup.authority := 0 }.settleMmps

/-- SAFE (R263, R264, R468, R482): the load is abandoned, LOADING, RUNNING and DRAINING partitions fail with 0x0902, a fast
shed is ordered, and every compute cluster is in RETAIN. -/
def Module.toSafe (m : Module) : Module :=
  let m := m.abandonLoad 0x0902
  let m := (List.range 16).foldl (fun m p => m.faultPart p 0x0902) m
  let cl (c : Nat) : Cluster := { m.cluster c with st := .retain, wakeAsked := false, deferFrom := none, half := none }
  { m.orderShed with
    sys := { m.sys with st := .safe }
    pwr.clusters := ((List.range 400).filter (fun c => !m.topo.dark.contains (dieOfCluster c))).map (fun c => (c, cl c)) }

/-- What a failed service die carries is absent (R22, R47): MMP-A on SVC-N, MMP-B and the CXL port on SVC-S. The failure is reported on the
out-of-band port while SVC-N is healthy, and on the power-sequencing interface as CARRIER_STATE tells it (R552). -/
def Module.dieAbsent (m : Module) (n : Nat) : Module :=
  let m := if n = svcN then { m with sup.a := { m.sup.a with st := .off, imageOk := false } }
    else if n = svcS then doCxlLinkDown { m with sup.b := { m.sup.b with st := .off, imageOk := false } } else m
  if m.mech.standby && !m.sys.svcFailed.contains svcN then m.emit (.svcFault n) else m

/-- A failed service die takes a module that runs to OUT_OF_SERVICE (R47, R264). -/
def Module.svcDown (m : Module) (n : Nat) : Module :=
  let m := if m.sys.svcFailed.contains n then m else { m with sys.svcFailed := m.sys.svcFailed ++ [n] }.dieAbsent n
  if m.serving then m.toOutOfService else m

/-- CARRIER_STATE (R552): 0 without standby power or with SVC-W failed, 7 with another failed service die, 6 from a stop of the
AOS watchdog until BRINGUP starts again. -/
def Module.carrierState (m : Module) : Nat :=
  if !m.mech.standby || m.sys.svcFailed.contains svcW then 0
  else if m.sys.svcFailed ≠ [] then 7
  else
    match m.sys.st with
    | .cold => if m.sup.wdHold then 6 else 1
    | .bringup => 2
    | .recovery => 2
    | .service => 3
    | .reduced => 3
    | .safe => 4
    | .outOfService => 5

end Sys2Proof.Machine
end

