-- ==== Sys2Proof/Machine/Power.lean ====
section
/-! DEFINITION. Power, clocks and cooling (chapter 13): the AOS sample, regulator, brick and e-fuse faults, the mesh, cluster
wakes, fast sheds, rack managers and their caps, loss of input, and the thermal trip. -/

namespace Sys2Proof.Machine

open Sys2Proof

/-! ## Steps (R459, R462, R465, R470, R481) -/

/-- Regulator phases of a die that are lost. -/
def DiePower.lost (x : DiePower) : Nat := (x.phases.filter (fun p => p < 64)).length

/-- The clock limit from lost phases for a jig step (R459). -/
def DiePower.phaseLimit (x : DiePower) (nj : Nat) : Nat :=
  if 9 ≤ x.lost then nj * (64 - x.lost) / 56 else 64

/-- The lowest of a die's phase, crack and throttle limits for a jig step; a die without a valid sensor is held at half of it
(R459, R462, R481). -/
def DiePower.limit (x : DiePower) (nj : Nat) : Nat :=
  min (x.phaseLimit nj)
    (min (if x.crackLimit || x.blind then nj / 2 else 64) (match x.throttle with | some t => t | none => 64))

/-- The step that the limits of R465 allow a cluster, the half-clock limit left out. -/
def Module.stepLimit (m : Module) (cl : Nat) : Nat :=
  let y := m.cluster cl
  max 8 (min y.jigN (min ((m.dieP (dieOfCluster cl)).limit y.jigN) (y.jigN * m.pwr.scale / 64)))

/-- The step that all limits allow. -/
def Module.stepGoal (m : Module) (cl : Nat) : Nat :=
  match (m.cluster cl).half with
  | some h => max 8 (min (m.stepLimit cl) h)
  | none => m.stepLimit cl

/-- A step moved toward its goal by at most 8. -/
def stepToward (n goal : Nat) : Nat := if n < goal then min goal (n + 8) else max goal (n - 8)

/-- The compute dies that share an edge with die `d`. -/
def nextDies (d : Nat) : List Nat :=
  (if d % 10 = 0 then [] else [d - 1]) ++ (if d % 10 = 9 then [] else [d + 1])
    ++ (if d < 10 then [] else [d - 10]) ++ (if 90 ≤ d then [] else [d + 10])

/-- Whether a die drew more than 90 % of its phase capacity in the last sample. -/
def Module.dieHot (m : Module) (d : Nat) : Bool :=
  match (m.dieP d).hotAt with
  | some t => !m.skPassed t 17
  | none => false

/-- Whether no edge-adjacent die has drawn more than 90 % of its capacity for 10 µs (R470). -/
def Module.calm (m : Module) (d : Nat) : Bool :=
  (nextDies d).all (fun e => match (m.dieP e).hotAt with | some t => m.usPassed t 10 | none => true)

/-- The clusters that run move toward their goals; half-clock limits are lifted where the neighbours are calm. Nothing moves
while a release is announced (R475). -/
def Module.moveSteps (m : Module) : Module :=
  if m.pwr.releasePending then m
  else
    let lift (cl : Nat) (y : Cluster) : Cluster := if m.calm (dieOfCluster cl) then { y with half := none } else y
    let m := { m with pwr.clusters := kmapv lift m.pwr.clusters }
    let go (cl : Nat) (y : Cluster) : Cluster := if y.st = .on then { y with n := stepToward y.n (m.stepGoal cl) } else y
    { m with pwr.clusters := kmapv go m.pwr.clusters }

/-! ## One die in a sample (R462, R470, R481) -/

/-- The drop is too high: more than 1.15 times the model, at 32 A or more. -/
def dropHigh (x : DiePower) (r : DieReading) : Bool := 320 ≤ r.amps && 115 * (r.amps * x.rDie) < 100 * r.drop

/-- The crack check of a die. -/
def Module.crackSample (m : Module) (r : DieReading) : Module :=
  let x := m.dieP r.die
  if !dropHigh x r then m.setDieP r.die { x with crackFrom := none }
  else
    let t := x.crackFrom.getD m.now
    let x := { x with crackFrom := some t }
    if m.skPassed t skMs && !x.crackLimit && !m.topo.dark.contains r.die then
      (m.setDieP r.die { x with crackLimit := true, crackMark := true }).logEvent 0x0803 (.die r.die)
    else m.setDieP r.die x

/-- The throttle limit at 95 °C or above: 4 steps lower every 100 µs. -/
def throttleDown (now : Nat) (x : DiePower) : DiePower :=
  match x.throttle with
  | none => { x with throttle := some 60, throttleAt := now }
  | some t => if 1_250 ≤ now - x.throttleAt then { x with throttle := some (max 8 (t - 4)), throttleAt := now } else x

/-- The throttle limit at 93 °C or below: 4 steps higher every 1 ms until it is lifted. -/
def throttleUp (now : Nat) (x : DiePower) : DiePower :=
  match x.throttle with
  | none => x
  | some t =>
    if now - x.throttleAt < skMs then x
    else { x with throttle := if 64 ≤ t + 4 then none else some (t + 4), throttleAt := now }

/-- The thermal rules for a compute die: throttling and its records. -/
def Module.heatSample (m : Module) (d : Nat) : Module :=
  let x := m.dieP d
  match x.tj with
  | none => m
  | some t =>
    if 950 ≤ t then
      let y := throttleDown m.now x
      let m := if x.throttle.isNone then { m with pwr.throttles := satN 16 (m.pwr.throttles + 1) } else m
      let due := match x.throttleLog with | some l => m.skPassed l skS | none => true
      if due then (m.setDieP d { y with throttleLog := some m.now }).logEvent 0x0901 (.die d) else m.setDieP d y
    else if t ≤ 930 then m.setDieP d (throttleUp m.now x)
    else m

/-- A die's readings taken over. -/
def Module.dieSample (m : Module) (r : DieReading) : Module :=
  if 100 ≤ r.die || m.topo.dark.contains r.die then m
  else
    let x := m.dieP r.die
    let blind := r.tj.isNone
    let m := if blind && !x.blind then { m with pwr.throttles := satN 16 (m.pwr.throttles + 1) } else m
    let hot : Bool := 54 * (64 - x.lost) < r.amps
    let m := m.setDieP r.die { x with
      tj := if blind then x.tj else r.tj, blind := blind, sensorFault := r.fault || blind
      hotAt := if hot then some m.now else x.hotAt }
    (m.crackSample r).heatSample r.die

/-- The place of a temperature of the ring: a ring die, or stack k under 64 + k. -/
def ringPlace (k : Nat) : Loc := if k < 64 then Loc.ring k else { kind := 5, idx := k - 64 }

/-- The thermal rules for ring dies and stacks: 0x0901, and s falls by 4 every 100 µs until every one is at 93 °C or below. -/
def Module.ringSample (m : Module) (ts : Pairs) : Module :=
  let m := ts.foldl (fun m e => { m with pwr.ringTj := kput m.pwr.ringTj e.1 e.2 }) m
  let hot := m.pwr.ringTj.filter (fun e => 950 ≤ e.2)
  let m := hot.foldl (fun m e =>
    let due := match kget? m.pwr.ringLog e.1 with | some l => m.skPassed l skS | none => true
    if due then { m with pwr.ringLog := kput m.pwr.ringLog e.1 m.now }.logEvent 0x0901 (ringPlace e.1) else m) m
  match m.pwr.scaleLim with
  | none => if hot = [] then m else { m with pwr.scaleLim := some (max 8 (m.pwr.scale - 4)), pwr.scaleAt := m.now }
  | some l =>
    if hot ≠ [] then
      if m.skPassed m.pwr.scaleAt 1_250 then { m with pwr.scaleLim := some (max 8 (l - 4)), pwr.scaleAt := m.now } else m
    else if m.pwr.ringTj.all (fun e => e.2 ≤ 930) then { m with pwr.scaleLim := none }
    else m

/-! ## Input, caps and sheds in a sample (R471 to R477) -/

/-- Since when a condition holds. -/
def since (now : Nat) (old : Option Nat) (b : Bool) : Option Nat := if b then some (old.getD now) else none

/-- The input voltage of a sample: droop, the timer of the droop sequence, which a rise in the sample of its end does not stop
(R483), and the timers of power good and of the end of droop. -/
def Module.inputSample (m : Module) (v : Nat) : Module :=
  let due := match m.pwr.lowSince with | some t => m.skPassed t (5 * skMs) | none => false
  { m with
    pwr.volts := v, pwr.droop := m.pwr.droop || v < 7_000
    pwr.lowSince := if due then m.pwr.lowSince else since m.now m.pwr.lowSince (v < 6_500)
    pwr.highSince := since m.now m.pwr.highSince (7_200 ≤ v) }

/-- A tenth of a kilowatt, the unit of caps, in mW. -/
def dkW : Nat := 100_000

/-- The samples of 1 ms and of 100 µs, one every 1.28 µs. -/
def samplesMs : Nat := 781
def samplesFast : Nat := 78

/-- The average of the newest `n` samples, of all where there are fewer (log 125). -/
def average (n : Nat) (l : List Nat) : Nat := (l.take n).foldl (· + ·) 0 / max 1 (l.take n).length

/-- The input power of a sample, from the brick currents and the input voltage, and its averages (R458). -/
def Module.powerSample (m : Module) (r : Reading) : Module :=
  let h := (r.bricks.foldl (· + ·) 0 * r.volts :: m.pwr.history).take samplesMs
  { m with pwr.history := h, pwr.power := average samplesMs h, pwr.fast := average samplesFast h }

/-- Whether the conditions of a fast shed hold (R473). -/
def Module.shedNeeded (m : Module) : Bool :=
  let c := m.pwr.capEffective * dkW
  let ramp := fld m.pwr.cap 16 10 * dkW
  (c < m.pwr.power && (ramp < m.pwr.power - c || ((m.pwr.capSource = 2 || m.pwr.capSource = 7) && 60 * dkW < m.pwr.power)))
  || 105 * c < 100 * m.pwr.fast

/-- Whether a release may be announced (R475): the model places it within the cap and the ramp, and every running cluster has
a step of 16 or more. -/
def Module.releaseFits (m : Module) (r : Reading) : Bool :=
  r.release && m.sys.st ≠ .safe && (m.pwr.clusters.filter (fun e => e.2.st = .on)).all (fun e => 16 ≤ e.2.n)

/-- A release is announced, with every odd step lowered by one. -/
def Module.announceRelease (m : Module) : Module :=
  { m with
    pwr.releasePending := true, pwr.shedAt := m.net.slot + announceSlots
    pwr.clusters := kmapv (fun _ (y : Cluster) => { y with n := y.n / 2 * 2 }) m.pwr.clusters }

/-- Fast shed and release as a sample decides them. -/
def Module.shedSample (m : Module) (r : Reading) : Module :=
  if m.shedNeeded then m.orderShed
  else if m.pwr.meshHalf && !m.pwr.releasePending && m.releaseFits r then m.announceRelease
  else m

/-- The clusters that wait for the load floor to end go to RETAIN (R468, R476). -/
def Module.restAll (m : Module) : Module :=
  (List.range 16).foldl (fun m p =>
    let x := m.part p
    if x.st = .off || x.st = .loading || x.taskRunning then m else m.restClusters p) m

/-- The load floor (R476): filler runs only while PWR_CTRL enables it; a window in which the floor was not held counts. -/
def Module.floorSample (m : Module) (r : Reading) : Module :=
  let on := r.filler && bitAt m.pwr.ctrl 0
  let ended := m.pwr.floorActive && !on
  let m := { m with pwr.floorActive := on
                    pwr.floorShort := if r.short && bitAt m.pwr.ctrl 0 then satN 16 (m.pwr.floorShort + 1) else m.pwr.floorShort }
  if ended then m.restAll else m

/-- Whether every valid sensor reads below 95 °C (R264, R482, R506). -/
def Module.cool (m : Module) : Bool :=
  m.pwr.dies.all (fun e => match e.2.tj with | some t => e.2.blind || t < 950 | none => true)
  && m.pwr.ringTj.all (fun e => e.2 < 950)

/-- AOS_SAMPLE (R458): input, dies, ring, coolant cap, caps, cap scale, shed or release, floor, and the steps. A bring-up held
by a thermal trip goes on once every sensor is cool (R506). -/
def doAosSample (r : Reading) (m : Module) : Module :=
  if !m.mech.standby then m
  else
    let m := (m.inputSample r.volts).powerSample r
    let m := { m with pwr.coolantCap := m.pwr.coolantFault }.recap
    if m.sys.st = .cold then m
    else
      let m := r.dies.foldl (fun m d => m.dieSample d) m
      let m := m.ringSample r.ring
      let s := min 64 (max 8 r.scale)
      let m := { m with pwr.scale := match m.pwr.scaleLim with | some l => min l s | none => s }
      let m := ((m.shedSample r).floorSample r).moveSteps
      if m.sys.stageHeld && m.cool then { m with sys.stageHeld := false, sys.stageAt := m.now } else m

/-! ## Phases, bricks and e-fuses (R454 to R461, R483) -/

/-- The quadrant rail of a phase: 16 phases to each at a remap, phase p to rail p ÷ 16 (DESIGN CHOICE, log 126), and where the AOS has moved
it since. -/
def DiePower.rail (x : DiePower) (p : Nat) : Nat := kgetD (p / 16) x.moved p

/-- The phases of a rail that are not lost. -/
def DiePower.onRail (x : DiePower) (r : Nat) : List Nat :=
  (List.range 64).filter (fun p => x.rail p = r && !x.phases.contains p)

/-- The rail with the most phases, the lowest among equals. -/
def DiePower.fullest (x : DiePower) : Nat :=
  [1, 2, 3].foldl (fun b r => if (x.onRail b).length < (x.onRail r).length then r else b) 0

/-- Phase `p` is lost: its rail takes a phase, the lowest, of the fullest rail when that has two more than it (R456; DESIGN CHOICE, log 126). -/
def DiePower.rebalance (x : DiePower) (p : Nat) : DiePower :=
  let a := x.rail p
  let b := x.fullest
  if (x.onRail a).length + 2 ≤ (x.onRail b).length then { x with moved := kput x.moved ((x.onRail b).headD 0) a } else x

/-- The rails at a remap: the assignment anew, and then a move for each phase that stays lost. -/
def DiePower.reassigned (x : DiePower) : DiePower :=
  (x.phases.filter (· < 64)).foldl (fun y p => y.rebalance p) { x with moved := [] }

/-- PHASE_FAULT: phases 0 to 63 feed the core rail, 64 to 67 the network rail; the 21st or the third takes the die dark. -/
def doPhaseFault (die phase : Nat) (m : Module) : Module :=
  let x := m.dieP die
  if 100 ≤ die || 68 ≤ phase || m.sys.st = .cold || m.topo.dark.contains die || x.phases.contains phase then m
  else
    let x := { x with phases := x.phases ++ [phase] }
    let x := if phase < 64 then x.rebalance phase else x
    let m := (m.setDieP die x).logEvent 0x0801 { Loc.die die with sub := phase }
    if 21 ≤ x.lost || 3 ≤ x.phases.length - x.lost then m.darkDie die else m

/-- BRICK_FAULT: the brick is isolated and the brick limit falls. -/
def doBrickFault (brick : Nat) (m : Module) : Module :=
  if 18 ≤ brick || m.pwr.bricks.contains brick then m
  else ({ m with pwr.bricks := m.pwr.bricks ++ [brick] }.logEvent 0x0801 { Loc.ring svcW with sub := brick }).recap

/-- EFUSE_TRIP: a phase loss of the same sample is not logged. -/
def doEfuseTrip (die : Nat) (m : Module) : Module :=
  if 100 ≤ die || m.sys.st = .cold || m.topo.dark.contains die then m
  else
    let same (r : FaultRec) : Bool := r.code = 0x0801 && r.locKind = 1 && r.locIndex = die && r.time / 16 = m.now / 16
    { m with sup.intake := m.sup.intake.filter (fun r => !same r) }.darkDie die

/-- The ring dies of a ring group (R453). -/
def groupDies (g : Nat) : List Nat :=
  if g % 2 = 0 then (List.range 12).map (fun i => 16 * (g / 2) + i) else (List.range 4).map (fun i => 16 * (g / 2) + 12 + i)

/-- RING_EFUSE_TRIP: the ports of a link group go down; a memory group takes its service die with it. -/
def doRingEfuseTrip (group : Nat) (m : Module) : Module :=
  if 8 ≤ group || m.sys.st = .cold || m.pwr.ringOpen.contains group then m
  else
    let m := m.logFatal 0x0802 (.ring ((groupDies group).headD 0))
    let m := if group % 2 = 0 then (groupDies group).foldl (fun m n => doLinkDown (portOfRing n) true false m) m
      else m.svcDown (16 * (group / 2) + 15)
    { m with pwr.ringOpen := m.pwr.ringOpen ++ [group] }

/-! ## Power good, the mesh and its routers (R455, R463, R464) -/

/-- POWER_GOOD: the input has held 720 V for 1 s and a verified image is there (R264); after a stop of the AOS watchdog the
AOS has sampled for 1 s, and a second stop holds the module in COLD (R489). -/
def doPowerGood (m : Module) : Module :=
  let held := match m.pwr.highSince with | some t => m.skPassed t skS | none => false
  let sampled := match m.sup.wdAt with | some t => m.skPassed t skS | none => true
  if m.sys.st = .cold && m.mech.standby && held && sampled && !m.sup.wdStuck && (m.sup.a.imageOk || m.sup.b.imageOk) then
    { m with sup.wdHold := false }.beginStages .bringup
  else m

/-- Whether compute stages are enabled: from stage 2 of bring-up on (R504), never with SVC-W failed (R47). -/
def Module.computeOn (m : Module) : Bool :=
  !m.sys.svcFailed.contains svcW && match m.sys.st with
  | .cold => false
  | .bringup => 2 ≤ m.sys.stage
  | .recovery => 2 ≤ m.sys.stage
  | .service => true
  | .reduced => true
  | .outOfService => true
  | .safe => true

/-- MESH_LOCK. -/
def doMeshLock (m : Module) : Module := if m.computeOn then { m with pwr.meshLocked := true } else m

/-- LOCK_FAULT: the router of core `c` stops forwarding; the slips of its routes come under R223. -/
def doLockFault (c : Nat) (m : Module) : Module :=
  if !m.computeOn || m.hole c || m.pwr.stopped.contains c then m
  else { m with pwr.stopped := m.pwr.stopped ++ [c], pwr.lockFaults := satN 16 (m.pwr.lockFaults + 1) }

/-! ## Cluster wakes (R465, R468 to R470) -/

/-- Whether a cluster of the die began to wake in the last 2 µs. -/
def Module.wokeLately (m : Module) (d : Nat) : Bool :=
  m.pwr.clusters.any (fun e => dieOfCluster e.1 = d && (match e.2.wakeAt with | some t => !m.usPassed t 2 | none => false))

/-- A cluster wakes: its clock starts at the lowest limit in force, a half-clock limit included, and its cores start a full
scrub pass. -/
def Module.wake (m : Module) (cl : Nat) (half : Bool) : Module :=
  let y := m.cluster cl
  let h := if half then some (m.stepLimit cl / 2) else none
  let m := m.setCluster cl { y with st := .on, wakeAsked := false, deferFrom := none, wakeAt := some m.now, half := h }
  let m := m.setCluster cl { m.cluster cl with n := m.stepGoal cl }
  { m with cores := kmapv (fun c k => if clusterOf c = cl then { k with scrubNext := 0, scrubs := 0 } else k) m.cores }

/-- Whether a wake of the cluster is asked for and may be served. -/
def Module.wakeDue (m : Module) (cl : Nat) : Bool :=
  let y := m.cluster cl
  y.wakeAsked && y.st ≠ .on && m.computeOn && m.sys.st ≠ .safe && !m.topo.dark.contains (dieOfCluster cl)
  && !m.wokeLately (dieOfCluster cl)

/-- CLUSTER_WAKE: one wake of a die per 2 µs; with an adjacent die above 90 % of its capacity the wake is deferred. -/
def doClusterWake (cl : Nat) (m : Module) : Module :=
  let y := m.cluster cl
  if !m.wakeDue cl then m
  else if (nextDies (dieOfCluster cl)).any m.dieHot then
    if y.deferFrom.isSome then m
    else { m.setCluster cl { y with deferFrom := some m.now } with pwr.deferrals := satN 16 (m.pwr.deferrals + 1) }
  else m.wake cl false

/-- WAKE_DEFERRAL_EXPIRY: after 200 µs the wake proceeds at half clock, or at full clock where the deferral has just ended
(R483). -/
def doWakeDeferralExpiry (cl : Nat) (m : Module) : Module :=
  match (m.cluster cl).deferFrom with
  | none => m
  | some t => if m.wakeDue cl && m.usPassed t 200 then m.wake cl ((nextDies (dieOfCluster cl)).any m.dieHot) else m

/-! ## Fast shed and release (R473, R475) -/

/-- FAST_SHED: at the announced boundary the mesh falls to 1,350 MHz. -/
def doFastShed (m : Module) : Module :=
  if m.pwr.shedPending && m.boundary then
    { m with pwr.shedPending := false, pwr.meshHalf := true, pwr.sheds := satN 16 (m.pwr.sheds + 1) }.logEvent 0x0804 .module
  else m

/-- SHED_RELEASE: at the announced boundary the mesh returns to 2.7 GHz and every step is halved. -/
def doShedRelease (m : Module) : Module :=
  if m.pwr.releasePending && m.pwr.meshHalf && m.boundary then
    { m with
      pwr.releasePending := false, pwr.meshHalf := false
      pwr.clusters := kmapv (fun _ (y : Cluster) => if y.st = .on then { y with n := max 8 (y.n / 2) } else y) m.pwr.clusters }
  else m

/-! ## Rack managers (R471, R480, R483, R484) -/

/-- Whether a write that only the lease holder may make takes effect. -/
def Module.holderOk (m : Module) (src : Source) : Bool := src ≠ .host && m.cfgOk src

/-- A cap and ramp under an epoch: ignored whole below the current epoch. -/
def Module.setRackCap (m : Module) (cap ramp epoch : Nat) : Module :=
  if epoch < m.sup.currentEpoch then m
  else
    { m with
      pwr.cap := put 0 9 (clampCap cap) + put 16 10 (min 100 (max 1 ramp)) + put 32 32 epoch
      pwr.safeCap := false }.recap

/-- PWR_CAP. -/
def doPwrCap (src : Source) (v : Reg64) (m : Module) : Module :=
  if m.holderOk src then m.setRackCap (fld v.toNat 0 9) (fld v.toNat 16 10) (fld v.toNat 32 32) else m

/-- A message of a manager with its epoch: a higher epoch becomes the current one, and the manager that carries it is the
epoch holder. -/
def Module.heartbeat (m : Module) (b : Bool) (epoch : Nat) : Module :=
  let g : Manager := { at_ := m.now, epoch := epoch, present := true }
  let cur := max m.sup.currentEpoch epoch
  let m := if b then { m with pwr.mgrB := g } else { m with pwr.mgrA := g }
  { m with sup.currentEpoch := cur, pwr.holderB := if epoch = cur then b else m.pwr.holderB, pwr.lostAt := none }.recap

/-- PWR_MGR_HEARTBEAT. -/
def doPwrMgrHeartbeat (src : Source) (v : Reg64) (m : Module) : Module :=
  if m.holderOk src then m.heartbeat (bitAt v.toNat 0) (fld v.toNat 32 32) else m

/-- MANAGER_LOST: no heartbeat for 5 s; with both lost the last cap holds (R480). -/
def doManagerLost (b : Bool) (m : Module) : Module :=
  let g := if b then m.pwr.mgrB else m.pwr.mgrA
  let other := if b then m.pwr.mgrA else m.pwr.mgrB
  if !g.present || !m.skPassed g.at_ (5 * skS) then m
  else
    let g := { g with present := false }
    let m := if b then { m with pwr.mgrB := g } else { m with pwr.mgrA := g }
    { m with pwr.lostAt := if other.present then none else some m.now }.recap

/-- HELD_CAP_EXPIRY: 60 s after both managers are lost the safe cap applies. -/
def doHeldCapExpiry (m : Module) : Module :=
  match m.pwr.lostAt with
  | none => m
  | some t => if m.pwr.safeCap || !m.skPassed t (60 * skS) then m else { m with pwr.safeCap := true }.recap

/-! ## Loss of input (R477, R478) -/

/-- OVERVOLTAGE: above 900 V the bricks disconnect. -/
def doOvervoltage (m : Module) : Module := if 9_000 < m.pwr.volts then m.toCold else m

/-- INPUT_COLLAPSE: below 550 V the bricks stop. -/
def doInputCollapse (m : Module) : Module := if m.pwr.volts < 5_500 then m.toCold else m

/-- DROOP_CLEAR: the droop cap is lifted after 10 ms at 720 V or above. -/
def doDroopClear (m : Module) : Module :=
  match m.pwr.highSince with
  | none => m
  | some t => if m.pwr.droop && m.skPassed t (10 * skMs) then { m with pwr.droop := false }.recap else m

/-- A partition in the droop sequence: RUNNING begins to drain, and the limit of 20 ms holds for it. -/
def Module.droopDrain (m : Module) (p : Nat) : Module :=
  let x := m.part p
  if x.st ≠ .running && x.st ≠ .draining then m
  else if x.taskRunning then m.modPart p (fun x => { x with st := .draining, drainFrom := m.now, drainDroop := true })
  else m.modPart p (fun x => { x with st := .halted })

/-- A fast shed is ordered when the input power is above 6 kW. -/
def Module.shedAbove6 (m : Module) : Module := if 60 * dkW < m.pwr.power then m.orderShed else m

/-- DROOP_SEQUENCE: the input has been below 650 V for 5 ms. -/
def doDroopSequence (m : Module) : Module :=
  match m.pwr.lowSince with
  | none => m
  | some t =>
    if m.pwr.droopSeq || m.sys.st = .cold || !m.skPassed t (5 * skMs) then m
    else
      let m := { m with pwr.droopSeq := true, pwr.droopAt := m.now }.recap
      let m := (m.logFatal 0x0805 .module).abandonLoad 0x0805
      ((List.range 16).foldl (fun m p => m.droopDrain p) m).shedAbove6

/-- DROOP_POWER_OFF: no partition is DRAINING, or the 20 ms are over and the tasks left abort with 0x0601. -/
def doDroopPowerOff (m : Module) : Module :=
  let busy := (List.range 16).filter (fun p => (m.part p).st = .draining)
  if !m.pwr.droopSeq || (busy ≠ [] && !m.skPassed m.pwr.droopAt (20 * skMs)) then m
  else (busy.foldl (fun m p => m.abortTask p 0x0601 .module) m).toCold

/-! ## The thermal trip (R482, R483, R506) -/

/-- The valid temperature at a place: compute die `d`, ring die d - 100 or stack d - 164. -/
def Module.tempOf (m : Module) (d : Nat) : Nat :=
  if 100 ≤ d then kgetD 0 m.pwr.ringTj (d - 100)
  else
    match (m.dieP d).blind, (m.dieP d).tj with
    | false, some t => t
    | _, _ => 0

/-- THERMAL_TRIP of compute die `d`, ring die d - 100 or stack d - 164, once its reading is 110 °C: 0x0902; SERVICE and REDUCED
become SAFE, and a bring-up waits. -/
def doThermalTrip (d : Nat) (m : Module) : Module :=
  if m.tempOf d < 1_100 || m.sys.st = .cold || m.sys.st = .safe || m.sys.stageHeld then m
  else
    let m := m.logFatal 0x0902 (if d < 100 then Loc.die d else ringPlace (d - 100))
    match m.sys.st with
    | .service => m.toSafe
    | .reduced => m.toSafe
    | .bringup => { m with sys.stageHeld := true }
    | .recovery => { m with sys.stageHeld := true }
    | .cold => m
    | .outOfService => m
    | .safe => m

end Sys2Proof.Machine
end

