-- ==== Sys2Proof/Machine/Security.lean ====
section
/-! DEFINITION. Firmware, identity and attestation (chapter 15): the firmware image and its loaders, security commands of the
host and of the out-of-band port, the identity tree, quotes and the customer jig key. -/

namespace Sys2Proof.Machine

open Sys2Proof

/-! ## The two MMPs -/

/-- MMP-A, or MMP-B. -/
def Module.mmp (m : Module) (b : Bool) : Mmp := if b then m.sup.b else m.sup.a
def Module.setMmp (m : Module) (b : Bool) (x : Mmp) : Module :=
  if b then { m with sup.b := x } else { m with sup.a := x }
/-- Whether an MMP runs Ngaulo (R491). -/
def Mmp.runs (x : Mmp) : Bool := x.st = .standby || x.st = .active
/-- Whether any MMP is STANDBY or ACTIVE; otherwise the recovery loader serves (R531). -/
def Module.mmpRuns (m : Module) : Bool := m.sup.a.runs || m.sup.b.runs
/-- The service die of an MMP (R490). -/
def mmpDie (b : Bool) : Nat := if b then svcS else svcN
/-- SEC_FW_MEAS of an MMP. -/
def Module.setMeas (m : Module) (b : Bool) (d : Digest) : Module :=
  if b then { m with sec.measB := d } else { m with sec.measA := d }

/-- Whether configuration writes are possible (R492 to R498): never while frozen; under the bring-up authority in BRINGUP and
RECOVERY, under a held lease otherwise. -/
def Module.cfgOpen (m : Module) : Bool :=
  if m.cfgFrozen then false
  else if m.sys.st = .bringup || m.sys.st = .recovery then m.sup.authority ≠ 0
  else m.sup.lease = .held

/-! ## The firmware image (R525 to R527) -/

/-- A field of the image header. -/
def imgFld (img : List Byte) (lo w : Nat) : Nat := fld (leAt img 0 256) lo w
/-- BODY_LEN. -/
def imgBody (img : List Byte) : Nat := imgFld img 96 32
/-- KEY_SLOT. -/
def imgSlot (img : List Byte) : Nat := imgFld img 57 2
/-- SVN. -/
def imgSvn (img : List Byte) : Nat := imgFld img 48 8
/-- PUBKEY. -/
def imgKey (img : List Byte) : List Byte := slice img 24 68
/-- The measurement: the digest of header and body. -/
def imgMeas (img : List Byte) : Digest := digestOf (shake256 (img.take (256 + imgBody img)))
/-- OID of XMSS-SHAKE256_20_256 (log 27). -/
def orovinOid : Nat := 0x12
/-- Bytes of its signatures (R524). -/
def orovinSig : Nat := 2_820

/-- Step 1: HCRC, MAGIC, VERSION, reserved bits and BODY_LEN. -/
def imgFormat (img : List Byte) : Bool :=
  crc32c (padTo 252 0 (img.take 252)) = leAt img 252 4 && imgFld img 0 32 = 0x5746_4B4F && imgFld img 32 16 = 1
  && imgFld img 59 1 = 0 && imgFld img 68 28 = 0 && imgFld img 736 1280 = 0
  && imgBody img % 64 = 0 && 64 ≤ imgBody img && imgBody img ≤ 33_551_296

/-- The first failing step of R526; none for an image that passes. -/
def Sec.imageCheck (s : Sec) (img : List Byte) : Option Nat :=
  if !imgFormat img then some 1
  else if !bitAt s.fwFused (imgSlot img) || bitAt s.fwRevoked (imgSlot img) then some 2
  else if keyDigest (imgKey img) ≠ s.fwKeys.getD (imgSlot img) 0 || keyOid (imgKey img) ≠ orovinOid then some 3
  else if imgSvn img < s.minSvn then some 4
  else if verifySig (imgKey img) (digestBytes (imgMeas img)) (slice img (256 + imgBody img) orovinSig) then none
  else some 5

/-- A loader checks the flash image: IMAGE_VALID, and the record of a refusal (R526). -/
def Module.loaderCheck (m : Module) (b : Bool) : Bool × Module :=
  match m.sec.imageCheck m.sec.image with
  | none => (true, { m with sec.imageValid := true })
  | some step => (false, { m with sec.imageValid := false }.logFatal 0x0A01 (.ring (mmpDie b)) (detail := step))

/-- IMAGE_PENDING ends once both MMPs run the image in flash (R530). -/
def Module.settlePending (m : Module) : Module :=
  let d := imgMeas m.sec.image
  if m.sec.imagePending && m.sec.measA = d && m.sec.measB = d then { m with sec.imagePending := false } else m

/-- IMAGE_VERIFY: the loader of an MMP checks the image in COLD, once no image is being written; when both refuse it the module enters
RECOVERY. -/
def doImageVerify (b : Bool) (m : Module) : Module :=
  let x := m.mmp b
  if !m.mech.standby || m.sys.st ≠ .cold || x.imageOk || x.refused || m.sec.writing.isSome then m
  else
    let (ok, m) := m.loaderCheck b
    let m := m.setMmp b { x with imageOk := ok, refused := !ok }
    if m.sup.a.refused && m.sup.b.refused then { m with sec.noImage := true }.beginStages .recovery else m

/-! ## Security commands (R529, R531) -/

/-- Bytes of output. -/
def secOut (op : Nat) : Nat :=
  match op with
  | 2 => 3_620
  | 3 => 2_980
  | 6 => 2_948
  | _ => 0

/-- Whether an OP is a configuration command. -/
def secConfig (op : Nat) : Bool := op ≠ 2 && op ≠ 3

/-- Whether the table of R529 lists the module state for an OP. -/
def secState (op : Nat) (st : ModState) : Bool :=
  let idle : Bool := st = .service || st = .reduced || st = .outOfService
  if op = 1 then idle || st = .recovery
  else if op = 8 then st = .recovery || st = .outOfService
  else if secConfig op then idle
  else st ≠ .cold && st ≠ .bringup

/-- The code with which a command ends before it begins: the recovery loader takes IMAGE_WRITE and RESET only, in every state
and with no lease. -/
def Module.secBar (m : Module) (op : Nat) (len : Option Nat) : Option Nat :=
  if op = 0 || 8 < op then some 0x0603
  else if !m.mmpRuns then (if op = 1 || op = 8 then none else some 0x0601)
  else if !secState op m.sys.st || (secConfig op && !m.cfgOpen) then some 0x0601
  else
    match len with
    | some n => if n < secOut op then some 0x0602 else none
    | none => none

/-- The running command ends: SEC_CMD_STATUS, and its output to the command buffer or to the out-of-band port. -/
def Module.secEnd (m : Module) (code : Nat) (out : List Byte) : Module :=
  match m.sec.cmd with
  | none => m
  | some c =>
    let m := { m with sec.cmd := none, sec.busy := false, sec.op := c.op, sec.result := code, sec.outLen := out.length }
    match c.oob with
    | none => if out = [] then m else m.emit (.hostWrite m.sec.cmdAddr out)
    | some x => if m.sec.oob.xid = some x then { m with sec.oob.code := some code, sec.oob.out := out } else m

/-! ## Images (R530) -/

/-- IMAGE_WRITE runs: with an MMP running, the staged copy is checked first; then flash is erased and written. -/
def Module.imageWrite (m : Module) (img : List Byte) : Module :=
  if m.jig.phase ≠ .idle then m.secEnd 0x0601 []
  else if m.mmpRuns && (m.sec.imageCheck img).isSome then m.secEnd 0x0A01 []
  else { m with sec.writing := some img, sec.image := [], sec.imageValid := false }

/-- IMAGE_WRITE_COMPLETE: flash reads back as written, or does not; the image there is checked. -/
def doImageWriteComplete (readbackOk : Bool) (m : Module) : Module :=
  match m.sec.writing with
  | none => m
  | some img =>
    let m := { m with sec.writing := none }
    if !readbackOk then m.secEnd 0x0A01 []
    else
      let m := { m with sec.image := img }
      if (m.sec.imageCheck img).isSome then m.secEnd 0x0A01 []
      else ({ m with sec.imageValid := true, sec.imagePending := true }.settlePending).secEnd 0 []

/-! ## The identity tree (R533 to R538) -/

/-- Quote leaves of a tree. -/
def quoteLeaves : Nat := 1_048_560
/-- REMAINING. -/
def Sec.remaining (s : Sec) : Nat := quoteLeaves - s.nextLeaf
/-- LOW. -/
def Sec.low (s : Sec) : Bool := s.remaining < 4_096
/-- The public key of a tree. -/
def treeKey (tree : Nat) : List Byte := padTo 68 0 (Config.xmssRoot tree)
/-- A signature of a tree. -/
def treeSign (tree leaf : Nat) (msg : List Byte) : List Byte := padTo orovinSig 0 (Config.xmssSign tree leaf msg)
/-- SEC_CUST_DIGEST. -/
def Sec.custDigest (s : Sec) : Digest := if s.custKey = [] then 0 else keyDigest s.custKey

/-- MOD_STATE.STATE (R267). -/
def ModState.num : ModState → Nat
  | .cold => 0 | .bringup => 1 | .service => 2 | .reduced => 3 | .outOfService => 4 | .safe => 5 | .recovery => 6

/-- JIG_PART_STATE.STATE (R266). -/
def PartState.num : PartState → Nat
  | .off => 0 | .loading => 1 | .ready => 2 | .running => 3 | .draining => 4 | .halted => 5 | .failed => 6

/-- PART[p] of a quote. -/
def Module.quotePart (m : Module) (p : Nat) : List Byte :=
  let x := m.part p
  [BitVec.ofNat 8 x.st.num, BitVec.ofNat 8 (b2n (x.st ≠ .off && x.inference)), 0, 0] ++ digestBytes x.krf.jigDigest

/-- Bytes 0 to 799 of a quote. -/
def Module.quoteBody (m : Module) (nonce : List Byte) : List Byte :=
  let s := m.sec
  let flags := put 0 1 (b2n s.imagePending) + put 1 1 (b2n s.custRequire) + put 2 1 (b2n (s.custKey ≠ [])) + put 3 1 (b2n s.low)
  leBytes 4 0x5451_4B4F ++ leBytes 2 1 ++ leBytes 1 m.sys.st.num ++ leBytes 1 flags ++ leBytes 8 s.serial
    ++ leBytes 2 s.generation ++ leBytes 1 (imgSvn s.image) ++ leBytes 1 s.minSvn ++ leBytes 4 s.nextLeaf ++ leBytes 8 m.now
    ++ padTo 32 0 nonce ++ digestBytes s.measA ++ digestBytes s.measB ++ digestBytes s.fuseDigest ++ digestBytes m.jig.digest
    ++ digestBytes s.custDigest ++ (List.range 16).flatMap m.quotePart

/-- Quotes of the last 3,600 s (R538, R540). -/
def Module.quotesNow (m : Module) : List Nat := m.sec.quoteAt.filter (fun t => m.now - t < 3_600 * skS)

/-- 0x0A02 with REMAINING. -/
def Module.logLow (m : Module) : Module := m.logEvent 0x0A02 (.ring svcN) (detail := m.sec.remaining)

/-- A quote leaf is used; a falling REMAINING is logged (R535). -/
def Module.useLeaf (m : Module) : Module :=
  let m := { m with sec.nextLeaf := m.sec.nextLeaf + 1 }
  let r := m.sec.remaining
  if r = 4_095 || r = 1_024 || r = 256 || r = 0 then m.logLow else m

/-- QUOTE runs. -/
def Module.quoteNow (m : Module) (nonce : List Byte) : Module :=
  let ts := m.quotesNow
  if m.sec.remaining = 0 then m.secEnd 0x0A02 []
  else if m.sec.quoteLimit ≤ ts.length then m.secEnd 0x0601 []
  else
    let body := m.quoteBody nonce
    let out := body ++ treeSign m.sec.tree m.sec.nextLeaf body
    ({ m with sec.quoteAt := ts ++ [m.now] }.useLeaf).secEnd 0 out

/-- ENROL_REQUEST runs (R536). -/
def Module.enrolRequest (m : Module) : Module :=
  let s := m.sec
  if s.enrol ≠ 2 || 16 ≤ s.nextReserved then m.secEnd 0x0601 []
  else
    let body := leBytes 4 0x5245_4B4F ++ leBytes 2 1 ++ leBytes 2 (s.generation + 1) ++ leBytes 8 s.serial ++ treeKey s.newTree
      ++ digestBytes s.fuseDigest ++ List.replicate 12 0
    let out := body ++ treeSign s.tree (quoteLeaves + s.nextReserved) body
    { m with sec.nextReserved := s.nextReserved + 1 }.secEnd 0 out

/-- The code with which ENROL_INSTALL refuses a certificate (R537). -/
def Sec.certBad (s : Sec) (c : List Byte) : Option Nat :=
  let slot := leAt c 84 4
  let ca := slice c 88 68
  if leAt c 0 4 ≠ 0x4349_4B4F || leAt c 4 2 ≠ 1 || leAt c 8 8 ≠ s.serial || leAt c 6 2 ≠ (s.generation + 1) % 2 ^ 16
      || s.enrol ≠ 2 || slice c 16 68 ≠ treeKey s.newTree then some 0x0603
  else if 4 ≤ slot || !bitAt s.caFused slot || bitAt s.caRevoked slot || keyDigest ca ≠ s.caKeys.getD slot 0
      || keyOid ca ≠ orovinOid || !verifySig ca (c.take 160) (slice c 160 orovinSig) then some 0x0A01
  else none

/-- ENROL_INSTALL runs: the new tree is current. -/
def Module.enrolInstall (m : Module) (bytes : List Byte) : Module :=
  let c := padTo 2_980 0 bytes
  match m.sec.certBad c with
  | some code => m.secEnd code []
  | none =>
    let s := m.sec
    { m with sec := { s with
        cert := c, generation := (s.generation + 1) % 2 ^ 16, tree := s.newTree, nextLeaf := 0, nextReserved := 0
        enrol := 0 } }.secEnd 0 []

/-- TREE_GENERATED: ENROL reads READY. -/
def doTreeGenerated (m : Module) : Module :=
  if m.sec.enrol = 1 then { m with sec.enrol := 2, sec.trees := m.sec.trees + 1, sec.newTree := m.sec.trees + 1 } else m

/-! ## The customer jig key (R539) -/

/-- The code with which a key change message is refused. -/
def Sec.keyBad (s : Sec) (b : List Byte) : Option Nat :=
  let action := leAt b 6 1
  let key := slice b 20 68
  let signed := b.take 96
  if leAt b 0 4 ≠ 0x4B43_4B4F || leAt b 4 2 ≠ 1 || action = 0 || 3 < action || (action ≠ 2 && 1 < leAt b 7 1)
      || leAt b 8 8 ≠ s.serial || leAt b 88 8 ≠ 0
      || (if action = 1 then (sigLength (keyOid key)).isNone else leNat key ≠ 0) || (s.custKey = [] && action ≠ 1) then some 0x0603
  else if leAt b 16 4 ≤ s.custCounter then some 0x0A01
  else if s.custKey = [] then none
  else if verifySig s.custKey signed (slice b 96 ((sigLength (keyOid s.custKey)).getD 0)) then none
  else some 0x0A01

/-- CUST_KEY runs. -/
def Module.custKeyNow (m : Module) (bytes : List Byte) : Module :=
  let b := padTo (max 96 bytes.length) 0 bytes
  if m.jig.phase ≠ .idle then m.secEnd 0x0601 []
  else
    match m.sec.keyBad b with
    | some code => m.secEnd code []
    | none =>
      let s := m.sec
      let action := leAt b 6 1
      { m with sec := { s with
          custCounter := leAt b 16 4
          custKey := if action = 1 then slice b 20 68 else if action = 2 then [] else s.custKey
          custRequire := if action = 2 then false else leAt b 7 1 = 1 } }.secEnd 0 []

/-! ## Running a command -/

/-- ENROL_BEGIN runs (R536). -/
def Module.enrolBegin (m : Module) : Module :=
  if m.sec.enrol = 1 then m.secEnd 0x0601 [] else { m with sec.enrol := 1 }.secEnd 0 []

/-- RESET runs: COLD; in COLD already (R531), the loaders check the image again. -/
def Module.resetNow (m : Module) : Module :=
  if m.sys.st = .cold then { m with sup.a := m.sup.a.stopped, sup.b := m.sup.b.stopped, sec := m.sec.poweredOff } else m.toCold

/-- The command whose turn it is runs; a quote waits at shed level 4 (R499). -/
def Module.secGo (m : Module) (c : SecCmd) : Module :=
  let m := { m with sec.cmd := some { c with begun := true }, sec.busy := true, sec.op := c.op }
  match c.op with
  | 1 => m.imageWrite c.data
  | 2 => if m.shedLevel = 4 then m else m.quoteNow c.data
  | 3 => m.secEnd 0 (padTo 2_980 0 m.sec.cert)
  | 4 => m.custKeyNow c.data
  | 5 => m.enrolBegin
  | 6 => m.enrolRequest
  | 7 => m.enrolInstall c.data
  | 8 => m.resetNow
  | _ => m.secEnd 0x0603 []

/-- The host's input of a command whose SEC_CMD was written is there (log 86). -/
def SecCmd.fed (c : SecCmd) (data : List Byte) : SecCmd := { c with data := data, awaits := false }

/-- SEC_CMD is written with the OP of a command that takes input: it ends at once where nothing of the input decides, and reads its
input otherwise (R529, R530, R539). -/
def Module.secHold (m : Module) (op : Nat) : Module :=
  if m.sec.busy then m
  else
    let c : SecCmd := { op := op, oob := none, begun := true, awaits := true }
    let held := { m with sec.cmd := some c }
    match m.secBar op (some m.sec.cmdLen) with
    | some code => held.secEnd code []
    | none =>
      if (op = 1 || op = 4) && m.jig.phase ≠ .idle then held.secEnd 0x0601 []
      else { held with sec.busy := true, sec.op := op }

/-- Configuration writes freeze: a configuration command that still reads its input ends with 0x0601 (R529, R540). -/
def Module.freezeSec (m : Module) : Module :=
  match m.sec.cmd with
  | some c => if c.awaits && secConfig c.op then m.secEnd 0x0601 [] else m
  | none => m

/-- A command of the host through SEC_CMD, with its input: the one that reads it, or else a new one, ignored while another runs. -/
def Module.secBar0 (m : Module) (op : Nat) (data : List Byte) : Module :=
  if m.sec.busy then
    (match m.sec.cmd with
    | some c => if c.awaits && c.op = op then m.secGo (c.fed data) else m
    | none => m)
  else
    let c : SecCmd := { op := op, oob := none, data := data }
    match m.secBar op (some m.sec.cmdLen) with
    | some code => { m with sec.cmd := some c }.secEnd code []
    | none => m.secGo c

/-- A command that an out-of-band RUN has started. -/
def Module.secOob (m : Module) (op : Nat) : Module :=
  match m.sec.cmd with
  | none => m
  | some c =>
    if c.op ≠ op || c.begun || c.oob.isNone then m
    else
      match m.secBar op none with
      | some code => m.secEnd code []
      | none => m.secGo c

/-- A security command of either path. -/
def Module.secRun (m : Module) (via : Via) (op : Nat) (data : List Byte) : Module :=
  match via with
  | .bar _ => m.secBar0 op data
  | .oob => m.secOob op

/-- IMAGE_WRITE (R530): SEC_CMD_LEN bytes of the host. -/
def doImageWrite (via : Via) (bytes : Bytes) (m : Module) : Module := m.secRun via 1 (padTo m.sec.cmdLen 0 bytes)
/-- QUOTE (R538). -/
def doQuote (via : Via) (bytes : Bytes) (m : Module) : Module := m.secRun via 2 (padTo 32 0 bytes)
/-- CERT_EXPORT (R534). -/
def doCertExport (via : Via) (bytes : Bytes) (m : Module) : Module := m.secRun via 3 bytes
/-- CUST_KEY (R539). -/
def doCustKey (via : Via) (bytes : Bytes) (m : Module) : Module := m.secRun via 4 bytes
/-- ENROL_BEGIN (R536). -/
def doEnrolBegin (via : Via) (bytes : Bytes) (m : Module) : Module := m.secRun via 5 bytes
/-- ENROL_REQUEST (R536). -/
def doEnrolRequest (via : Via) (bytes : Bytes) (m : Module) : Module := m.secRun via 6 bytes
/-- ENROL_INSTALL (R537). -/
def doEnrolInstall (via : Via) (bytes : Bytes) (m : Module) : Module := m.secRun via 7 bytes
/-- RESET (R529). -/
def doReset (via : Via) (bytes : Bytes) (m : Module) : Module := m.secRun via 8 bytes

/-! ## The out-of-band port (R532) -/

/-- The data of a datagram. -/
def dgData (dg : List Byte) : List Byte := slice dg 32 (leAt dg 16 4)

/-- Whether a datagram of a KIND is accepted: MAGIC, KIND, LEN and DCRC. -/
def dgOk (kind : Nat) (dg : List Byte) : Bool :=
  32 ≤ dg.length && leAt dg 0 4 = 0x4353_4B4F && leAt dg 5 1 = kind && leAt dg 16 4 ≤ 1_024
  && (dgData dg).length = leAt dg 16 4 && crc32c (dg.take 28 ++ dgData dg) = leAt dg 28 4

/-- A datagram of the module. -/
def dgMake (op kind xid ofs total code : Nat) (data : List Byte) : List Byte :=
  let h := leBytes 28 (0x4353_4B4F + put 32 8 op + put 40 8 kind + put 64 32 xid + put 96 32 ofs + put 128 32 data.length
    + put 160 32 total + put 192 16 code)
  h ++ leBytes 4 (crc32c (h ++ data)) ++ data

/-- The input put together from its parts, as far as it is held without a gap. -/
def dgJoin (parts : KMap (List Byte)) : List Byte :=
  parts.foldl (fun a e => if e.1 ≤ a.length then a.take e.1 ++ e.2 ++ a.drop (e.1 + e.2.length) else a) []

/-- Whether the command of the out-of-band input runs. -/
def Module.oobRuns (m : Module) : Bool :=
  match m.sec.cmd with
  | some c => c.oob.isSome && c.oob = m.sec.oob.xid
  | none => false

/-- RESULT of an answer: the code once the command has ended, 0xFFFF from its RUN until then. -/
def Module.oobResult (m : Module) : Nat :=
  match m.sec.oob.code with
  | some c => c
  | none => if m.oobRuns || m.sec.oob.total.isSome then 0xFFFF else 0

/-- A RESULT answer. -/
def Module.oobAnswer (m : Module) (op xid ofs code : Nat) : Module :=
  m.emit (.oob (dgMake op 3 xid ofs m.sec.oob.out.length code []))

/-- A RUN whose bytes are held starts its command once; while another command runs it ends with 0x0601. -/
def Module.oobStart (m : Module) : Module :=
  let x := m.sec.oob
  match x.total with
  | none => m
  | some n =>
    let input := dgJoin x.parts
    if x.code.isSome || m.oobRuns || input.length < n then m
    else if m.sec.busy then { m with sec.oob.code := some 0x0601 }
    else if x.op = 0 || 8 < x.op then { m with sec.oob.code := some 0x0603 }
    else { m with sec.cmd := some { op := x.op, oob := x.xid, data := input.take n }, sec.busy := true, sec.op := x.op }

/-- SEC_DATA: part of the input; a new XID discards the earlier one, and a repeated part has no effect. -/
def doSecData (dg : Bytes) (m : Module) : Module :=
  if !m.mech.standby || !dgOk 1 dg then m
  else
    let xid := leAt dg 8 4
    let ofs := leAt dg 12 4
    let m := if m.sec.oob.xid = some xid then m else { m with sec.oob := { xid := some xid, op := leAt dg 4 1 } }
    let m := if (kget? m.sec.oob.parts ofs).isSome then m
      else { m with sec.oob.parts := kput m.sec.oob.parts ofs (dgData dg) }.oobStart
    m.oobAnswer (leAt dg 4 1) xid ofs m.oobResult

/-- RUN: the command starts once TOTAL bytes are held. -/
def doRun (dg : Bytes) (m : Module) : Module :=
  if !m.mech.standby || !dgOk 2 dg then m
  else
    let xid := leAt dg 8 4
    let m := if m.sec.oob.xid = some xid then m else { m with sec.oob := { xid := some xid } }
    let m := if m.sec.oob.total.isSome then m
      else { m with sec.oob.total := some (leAt dg 20 4), sec.oob.op := leAt dg 4 1 }.oobStart
    m.oobAnswer (leAt dg 4 1) xid (leAt dg 12 4) m.oobResult

/-- FETCH: a part of the output of a command that has ended with 0x0000. -/
def doFetch (dg : Bytes) (m : Module) : Module :=
  if !m.mech.standby || !dgOk 4 dg then m
  else
    let xid := leAt dg 8 4
    let ofs := leAt dg 12 4
    if m.sec.oob.xid ≠ some xid then m.oobAnswer (leAt dg 4 1) xid ofs 0x0601
    else if m.sec.oob.code = some 0 then
      m.emit (.oob (dgMake (leAt dg 4 1) 5 xid ofs 0 0 (slice m.sec.oob.out ofs 1_024)))
    else m.oobAnswer (leAt dg 4 1) xid ofs m.oobResult

/-! ## The end of BRINGUP (R528, R535) -/

/-- Revocations of a header, its own slot excepted. -/
def revoked (old named : Nat) (own : Option Nat) : Nat :=
  (List.range 4).foldl (fun a i => if bitAt old i || (bitAt named i && own ≠ some i) then a + 2 ^ i else a) 0

/-- R528: the running image's header is applied, when every MMP that runs an image runs the one in flash. -/
def Module.applyHeader (m : Module) : Module :=
  let img := m.sec.image
  let d := imgMeas img
  let same (x : Mmp) (e : Digest) : Bool := !x.runs || e = d
  if m.mmpRuns && same m.sup.a m.sec.measA && same m.sup.b m.sec.measB then
    { m with
      sec.minSvn := if imgFld img 56 1 = 1 then max m.sec.minSvn (min 64 (imgSvn img)) else m.sec.minSvn
      sec.fwRevoked := revoked m.sec.fwRevoked (imgFld img 60 4) (some (imgSlot img))
      sec.caRevoked := revoked m.sec.caRevoked (imgFld img 64 4) none }
  else m

/-- 0x0A02 at each BRINGUP while LOW is 1. -/
def Module.lowAtBringup (m : Module) : Module := if m.sec.low then m.logLow else m

end Sys2Proof.Machine
end

