-- ==== Sys2Proof/Machine/Supervision.lean ====
section
/-! DEFINITION. Supervision, bring-up and faults (chapter 14): the watchdog, MMP failures, directives and the lease, shedding,
bring-up stages and the remap, cores that fail, the sideband loop, the fault log and the AOS interrupts. -/

namespace Sys2Proof.Machine

open Sys2Proof

/-! ## The watchdog and the MMPs (R489, R491, R493) -/

/-- AOS_WATCHDOG: SVC-W powers the module down; a second stop within 10 minutes holds it in COLD. -/
def doAosWatchdog (m : Module) : Module :=
  if !m.mech.standby || m.sys.svcFailed.contains svcW then m
  else
    let again : Bool := match m.sup.wdAt with | some t => m.now - t ≤ 600 * skS | none => false
    let failed := m.sys.svcFailed
    let m := m.toCold
    { m with
      sys.svcFailed := failed, sup.wdStops := m.sup.wdStops + 1, sup.wdHold := true, sup.wdAt := some m.now
      sup.wdStuck := m.sup.wdStuck || again }

/-- The AOS names the bring-up authority: MMP-A when it runs, else MMP-B (R493). -/
def Module.nameAuthority (m : Module) : Module :=
  { m with
    sup.authority := if m.sup.a.runs then 1 else if m.sup.b.runs then 2 else 0
    sys.stageAt := m.now }.settleMmps

/-- The lease expires (R496). -/
def Module.expireLease (m : Module) : Module :=
  { m with sup.lease := .none_, sup.expiries := satN 16 (m.sup.expiries + 1) }.settleMmps

/-- The MMP that runs a security command has failed (R540). -/
def Module.secLost (m : Module) : Module :=
  match m.sec.cmd with
  | some c => if c.begun then { m with sec.writing := none }.secEnd 0x0601 [] else m
  | none => m

/-- MMP_FAILED: no alive signal for 1 s. The holder's lease expires with its claims, and another bring-up authority is named. -/
def doMmpFailed (b : Bool) (m : Module) : Module :=
  let x := m.mmp b
  if !m.mech.standby || !x.runs then m
  else
    let m := m.setMmp b { x with st := .failed, imageOk := false, shedLevel := 0, busy := 0, lowRun := 0 }
    let m := if x.st = .active then m.secLost else m
    let m := if m.sup.lease = .held && m.sup.holderB = b then
      { m with sup.claims := m.sup.claims.filter (fun c => c.mmp ≠ b2n b) }.expireLease else m
    if m.sup.authority = b2n b + 1 then m.nameAuthority else m

/-- MMP_RESTART: the loader checks the image again, once no image is being written; the MMP comes back in STANDBY, or stays OFF. -/
def doMmpRestart (b : Bool) (m : Module) : Module :=
  let x := m.mmp b
  if x.st ≠ .failed || m.sec.writing.isSome then m
  else
    let (ok, m) := m.loaderCheck b
    let m := m.setMmp b { x with
      st := if ok then .standby else .off, imageOk := ok, restarts := satN 16 (x.restarts + 1) }
    let m := (m.setMeas b (if ok then imgMeas m.sec.image else 0)).settlePending
    if (m.sys.st = .bringup || m.sys.st = .recovery) && 1 ≤ m.sys.stage && m.sup.authority = 0 then m.nameAuthority
    else m.settleMmps

/-! ## The lease (R495 to R498, R520) -/

/-- A lease conflict: every claim is discarded and configuration writes freeze. -/
def Module.conflict (m : Module) (e : Nat) : Module :=
  let m := { m with
    sup.claims := [], sup.lease := .frozen, sup.leaseEpoch := e, sup.conflicts := satN 16 (m.sup.conflicts + 1) }
  ((m.logEvent 0x0B01 .module).freezeLoad).freezeSec.settleMmps

/-- A claim is pending; of two epochs the lower is discarded. -/
def Module.pend (m : Module) (c : Claim) : Module :=
  if m.sup.claims.any (fun d => c.epoch ≤ d.epoch) then m else { m with sup.claims := [c] }

/-- A claim of an MMP at an epoch as the AOS judges it. -/
def Module.claimLease (m : Module) (b : Bool) (e : Nat) : Module :=
  if e = 0 || e < m.sup.currentEpoch then m
  else if m.sup.claims.any (fun c => c.mmp ≠ b2n b && c.epoch = e) then m.conflict e
  else if m.sup.leaseEpoch < e then m.pend { mmp := b2n b, epoch := e, from_ := m.now }
  else if e < m.sup.leaseEpoch || m.sup.lease ≠ .held then m
  else if m.sup.holderB = b then { m with sup.renewAt := m.now }
  else m.conflict e

/-- AOS_LEASE_CLAIM: an MMP that runs writes its claim. -/
def doAosLeaseClaim (src : Source) (v : Reg64) (m : Module) : Module :=
  match src with
  | .host => m
  | .mmpA => if m.sup.a.runs then m.claimLease false (fld v.toNat 0 32) else m
  | .mmpB => if m.sup.b.runs then m.claimLease true (fld v.toNat 0 32) else m

/-- A claim takes effect: its writer holds the lease, and the manager whose epoch is current is the epoch holder (R480). -/
def Module.takeLease (m : Module) (c : Claim) : Module :=
  let b : Bool := c.mmp = 1
  { m with
    sup.claims := [], sup.lease := .held, sup.holderB := b, sup.leaseEpoch := c.epoch, sup.currentEpoch := c.epoch
    sup.handovers := satN 16 (m.sup.handovers + 1), sup.renewAt := m.now
    pwr.holderB := if m.pwr.mgrB.epoch = c.epoch then true else if m.pwr.mgrA.epoch = c.epoch then false else m.pwr.holderB
  }.settleMmps

/-- CLAIM_WINDOW_END: 1 ms after a claim. -/
def doClaimWindowEnd (m : Module) : Module :=
  match m.sup.claims.find? (fun c => m.skPassed c.from_ skMs) with
  | some c => m.takeLease c
  | none => m

/-- LEASE_EXPIRY: 1 s without a renewal. -/
def doLeaseExpiry (m : Module) : Module :=
  if m.sup.lease = .held && m.skPassed m.sup.renewAt skS then m.expireLease else m

/-! ## Directives (R480, R494) -/

/-- Whether Ngaulo accepts a directive of a TYPE: MAGIC, DCRC and reserved bits. -/
def directiveOk (type : Nat) (d : Nat) : Bool :=
  fld d 0 32 = 0x5244_4B4F && fld d 32 4 = type && fld d 38 26 = 0 && fld d 105 7 = 0 && fld d 122 102 = 0
  && crc32c (leBytes 28 d) = fld d 224 32

/-- An accepted directive counts as a message of its manager, while configuration writes are possible. -/
def Module.hear (m : Module) (d : Nat) : Module :=
  if m.cfgOpen then m.heartbeat (bitAt d 36) (fld d 64 32) else m

/-- A directive reaches an MMP that runs and is accepted. -/
def Module.directive (m : Module) (type : Nat) (d : BitVec 256) (f : Module → Module) : Module :=
  if m.mech.standby && m.mmpRuns && directiveOk type d.toNat then f (m.hear d.toNat) else m

/-- HEARTBEAT. -/
def doHeartbeat (d : BitVec 256) (m : Module) : Module := m.directive 1 d (fun m => m)

/-- GRANT: the MMP it names claims its epoch. -/
def doGrant (d : BitVec 256) (m : Module) : Module :=
  let b := bitAt d.toNat 37
  m.directive 2 d (fun m => if (m.mmp b).runs then m.claimLease b (fld d.toNat 64 32) else m)

/-- CAP: Ngaulo writes PWR_CAP. -/
def doCap (d : BitVec 256) (m : Module) : Module :=
  let x := d.toNat
  m.directive 3 d (fun m => if m.cfgOpen then m.setRackCap (fld x 96 9) (fld x 112 10) (fld x 64 32) else m)

/-! ## Shedding and the log flush (R499, R501) -/

/-- A quote that waited for shed level 4 to end is answered. -/
def Module.queuedQuote (m : Module) : Module :=
  match m.sec.cmd with
  | some c => if c.begun && !c.awaits && c.op = 2 && m.shedLevel < 4 then m.quoteNow c.data else m
  | none => m

/-- SHED_LEVEL_PERIOD: 100 ms of an MMP with its busy percentage. -/
def doShedLevelPeriod (b : Bool) (busy : Nat) (m : Module) : Module :=
  let x := m.mmp b
  if !x.runs then m
  else
    let x := { x with busy := min 100 busy, lowRun := if busy < 70 then x.lowRun + 1 else 0 }
    if x.st = .active && 90 ≤ busy then
      if x.shedLevel < 4 then
        (m.setMmp b { x with shedLevel := x.shedLevel + 1, rises := satN 16 (x.rises + 1) }).logEvent 0x0B02
          (.ring (mmpDie b)) (detail := x.shedLevel + 1)
      else m.setMmp b x
    else if 10 ≤ x.lowRun then (m.setMmp b { x with shedLevel := x.shedLevel - 1, lowRun := 0 }).queuedQuote
    else (m.setMmp b x).queuedQuote

/-- LOG_FLUSH: the whole log goes to flash. -/
def doLogFlush (m : Module) : Module :=
  if m.mech.standby then
    { m with sup.flashLog := m.sup.log, sup.flashNext := m.sup.nextIndex, sup.flashSeq := m.sup.seq }.passDone 10 60
  else m

/-! ## Bring-up: stages 0 to 6 (R504, R505) -/

/-- An MMP whose loader has verified the image starts. -/
def Module.startMmp (m : Module) (b : Bool) : Module :=
  let x := m.mmp b
  if x.imageOk && x.st = .off then (m.setMmp b { x with st := .standby }).setMeas b (imgMeas m.sec.image) else m

/-- The stage is over. -/
def Module.stageDone (m : Module) : Module := { m with sys.stage := m.sys.stage + 1, sys.stageAt := m.now }

/-- Stage 0: the MMPs start; without one that runs, bring-up waits. -/
def Module.stage0 (m : Module) : Module :=
  let m := (((m.startMmp false).startMmp true).settlePending).nameAuthority
  if m.sup.authority = 0 then m else m.stageDone

/-- Stage 1: ring dies that fail are recorded for the remap; with SVC-W failed the compute square stays unpowered (R47). -/
def Module.stage1 (m : Module) (f : StageFinding) : Module :=
  let bad := f.ring.filter (· < 64)
  let svc := bad.filter (fun n => n % 16 = 15 && !m.sys.svcFailed.contains n)
  let m := { m with topo.ringFound := bad, sys.svcFailed := m.sys.svcFailed ++ svc }
  let m := (f.links.filter (fun e => 32768 ≤ e.1)).foldl (fun m e => m.retireLater (.link e.1 e.2)) m
  let m := svc.foldl (fun m n => m.dieAbsent n) m
  if m.sys.svcFailed.contains svcW then m.toOutOfService else m.stageDone

/-- The die ring of a compute die (R40). -/
def dieRing (d : Nat) : Nat := min (min (d % 10) (d / 10)) (min (9 - d % 10) (9 - d / 10))

/-- The compute die of a physical core. -/
def dieOfPhys (q : Nat) : Nat := 10 * (q / 150 / 14) + q % 150 / 15

/-- The physical cores of a compute die. -/
def physOfDie (d : Nat) : List Nat :=
  (List.range 14).flatMap (fun r => (List.range 15).map (fun j => 150 * (14 * (d / 10) + r) + 15 * (d % 10) + j))

/-- A core found beyond repair by its self-test: 0x0403 names the physical core (R505), whose engine is not usable (R122). -/
def Module.coreBad (m : Module) (q : Nat) : Module :=
  (m.logEvent 0x0403 { kind := 3, idx := q }).engineOut q

/-- A die that stays dark (R460, R505). -/
def Module.leaveDark (m : Module) (d : Nat) : Module :=
  if m.topo.dark.contains d then m
  else { m.setDieP d { m.dieP d with efuseOpen := true } with topo.dark := m.topo.dark ++ [d] }

/-- A die marked for a crack is tested: retired whole, or at full rate again (R462). -/
def Module.crackTest (m : Module) (cracked : List Nat) (d : Nat) : Module :=
  let x := m.dieP d
  if !x.crackMark then m
  else if cracked.contains d then (physOfDie d).foldl (fun m q => m.retireLater (.core q)) m
  else m.setDieP d { x with crackMark := false, crackLimit := false, crackFrom := none }

/-- Stages 2 to 6: what the tests of die ring k find. -/
def Module.stageDies (m : Module) (k : Nat) (f : StageFinding) : Module :=
  let on (d : Nat) : Bool := d < 100 && dieRing d = k
  let ps (l : Pairs) : Pairs := l.filter (fun e => on (dieOfPhys e.1))
  let m := (f.dark.filter on).foldl (fun m d => m.leaveDark d) m
  let m := (f.unlocked.filter on).foldl (fun m d => (m.leaveDark d).logEvent 0x0403 (.die d)) m
  let m := (f.cores.filter (fun q => on (dieOfPhys q))).foldl (fun m q => m.coreBad q) m
  let m := m.enginesFault (ps f.rows) (ps f.cols)
  let m := { m with topo.arrayMasks := (f.masks.filter (fun e => e.1 < 21_000 && on (dieOfPhys e.1))).foldl (fun t e => kput t e.1 (e.2.1 % 2 ^ 33, e.2.2 % 2 ^ 33))
                      m.topo.arrayMasks }
  let m := (f.links.filter (fun e => e.1 < 21_000 && on (dieOfPhys e.1))).foldl (fun m e => m.retireLater (.link e.1 e.2)) m
  let m := (f.rDie.filter (fun e => on e.1)).foldl (fun m e => m.setDieP e.1 { m.dieP e.1 with rDie := e.2 }) m
  ((List.range 100).filter on).foldl (fun m d => m.crackTest f.cracked d) m

/-! ## The remap (R30 to R33, R51, R52, R113, R300) -/

/-- Die row and die-local column of a physical core (R51). -/
def rowOfPhys (q : Nat) : Nat := 140 * (q % 150 / 15) + q / 150
def colOfPhys (q : Nat) : Nat := q % 15

/-- The westernmost column of a mask; 14 for an empty one (R31). -/
def westmost (mask : Nat) : Nat := ((List.range 15).find? (fun j => bitAt mask j)).getD 14

/-- The mask of the listed physical cores in die row `i`. -/
def maskOf (qs : List Nat) (i : Nat) : Nat :=
  (qs.filter (fun q => rowOfPhys q = i)).foldl (fun a q => a ||| 2 ^ colOfPhys q) 0

/-- A die row at a remap: its fuses, the cores retired before, those retired since the last remap, and its map so far (R32). -/
def remapRow (fuse old new : Nat) (r : Option RowMap) : RowMap :=
  let p := match r with | some x => x.absorb | none => westmost fuse
  let dead := fuse ||| old ||| new
  { absorb := if bitAt dead p || new = 0 then p else westmost new
    dead := dead, field := (List.range 15).any (fun j => bitAt (old ||| new) j && !bitAt fuse j) }

/-- Physical cores on a retirement list. -/
def coresIn (l : List Retire) : List Nat := l.filterMap (fun r => match r with | .core q => some q | _ => none)

/-- Cores with a bank that needs more than its 32 spare lines (R300). -/
def spentBanks (l : List Retire) : List Nat :=
  let lines := l.filterMap (fun r => match r with | .t0Line q bank _ => some (q, bank) | _ => none)
  (lines.filter (fun e => 32 < (lines.filter (· = e)).length)).map Prod.fst

/-- The core map after the remap. -/
def Module.newMap (m : Module) : KMap RowMap :=
  let qs := coresIn m.topo.retire
  let was := coresIn m.topo.applied
  let old := qs.filter was.contains
  let new := qs.filter (fun q => !was.contains q)
  let rows := m.topo.fuseDead.map Prod.fst ++ m.topo.coreMap.map Prod.fst ++ qs.map rowOfPhys
  rows.foldl (fun t i =>
    kput t i (remapRow (kgetD 0 m.topo.fuseDead i) (maskOf old i) (maskOf new i) (kget? m.topo.coreMap i))) []

/-- Field repairs applied through the maintenance chain (R113), and the engines that failed with them (R122). -/
def Module.applyRepairs (m : Module) : KMap Repair :=
  m.topo.engineBad.foldl (fun t q => kmod {} t q (fun x => { x with usable := false })) <| m.topo.retire.foldl (fun t r =>
    match r with
    | .rowRepair q n => kmod {} t q (fun x => { x with rowSkip := n, rowField := true })
    | .colRepair q n => kmod {} t q (fun x => { x with colSkip := n, colField := true })
    | _ => t) m.topo.repair

/-- Links that are dead: sending physical core and direction. -/
def linksIn (l : List Retire) : List (Nat × Nat) :=
  l.filterMap (fun r => match r with | .link q d => some (q, d) | _ => none)

/-- The listed T1 rows, by stack and row, that find no spare row in their DRAM bank: all but the first 4 of each bank (R300). -/
def rowsLeft (l : List Retire) : List (Nat × Nat × Nat) :=
  let rows := l.filterMap (fun r => match r with | .t1Row d s n => some (d, s, n) | _ => none)
  (List.range rows.length).filterMap (fun i =>
    let e := rows.getD i (0, 0, 0)
    let before := (rows.take i).filter (fun f => f.2.1 = e.2.1 && Config.t1Bank f.2.1 f.2.2 = Config.t1Bank e.2.1 e.2.2)
    if 4 ≤ before.length then some e else none)

/-- The frames that a remap retires, as (die, frame), each once: every frame that holds a word of a row with no spare (R300). -/
def framesLost (l : List Retire) : List (Nat × Nat) :=
  let fs := (rowsLeft l).flatMap (fun e => (Config.t1Frames e.2.1 e.2.2).map (fun f => (e.1, f)))
  fs.foldl (fun a e => if a.contains e then a else a ++ [e]) []

/-- Retired frames by die. -/
def framesIn (l : List Retire) : KMap Nat := (framesLost l).foldl (fun t e => kmod 0 t e.1 (· + 1)) []

/-- The ports whose link die has turned out unhealthy are absent (R47, R350). -/
def Module.dropPorts (m : Module) : Module :=
  { m with fab.ports := kmapv (fun i x => if m.portPresent i then x else x.down) m.fab.ports }

/-- The dead ports and lane repairs of the new map (R25). DESIGN CHOICE (log 111): a remap extends lane repair to all that calibration found. -/
def Module.relink (m : Module) : Module :=
  { m with
    topo.deadPorts := m.topo.deadLinks.filterMap m.farPort
    topo.lanes := m.topo.lanesFound.foldl (fun t e => kput t e.1 e.2) m.topo.lanes
    topo.lanesFound := [] }

/-- REMAP: the topology block is rebuilt inside the MOD_MAP_EPOCH sequence, and engines leave reduced-array mode, but for those that
fail to: their cores are retired in it (R115). -/
def Module.remap (m : Module) (stuck : List Nat := []) : Module :=
  let m := (stuck.filter (· < 21_000)).foldl (fun m q => m.retireLater (.core q)) m
  let m := (spentBanks m.topo.retire).foldl (fun m q => m.retireLater (.core q)) m
  let open_ := m.pwr.ringOpen.flatMap groupDies
  let extra := (open_ ++ m.sys.svcFailed).filter (fun n => !m.topo.ringFound.contains n)
  let t := m.topo
  { m with
    topo := { t with
      coreMap := m.newMap, repair := m.applyRepairs, deadLinks := linksIn t.retire, applied := t.retire
      ringBad := t.ringFound ++ extra, darkMap := t.dark, runDead := [], markedRouters := [], markedLinks := []
      epoch := (t.epoch + 2) % 2 ^ 32, reducedActive := false
      arrayMasks := (stuck.filter (· < 21_000)).foldl (fun a q => kput a q (kgetD (t.rowMask, t.colMask) t.arrayMasks q)) [] }
    tier.retired := framesIn t.retire, tier.eccSeen := [], tier.eccLogAt := [], tier.tests := []
    pwr.clusters := [], pwr.dies := kmapv (fun _ x => x.reassigned) m.pwr.dies
    sec.fuseDigest := Config.fuseMapDigest m.sec.fwRevoked m.sec.caRevoked m.sec.minSvn }.relink.dropPorts

/-- Holes of a die row (R33). -/
def RowMap.holes (r : RowMap) : Nat := popcount 15 r.dead - b2n (bitAt r.dead r.absorb)

/-- Whether anything of R48 is missing: a hole, a port, a stack or an edge channel. -/
def Module.reduced (m : Module) : Bool :=
  m.topo.darkMap ≠ [] || m.topo.ringBad ≠ [] || m.topo.coreMap.any (fun e => e.2.holes ≠ 0)

/-- Stage 7: the remap, and the state that bring-up ends in; after BRINGUP the image's header is applied (R528). -/
def Module.stage7 (m : Module) (f : StageFinding) : Module :=
  let first : Bool := m.sys.st = .bringup
  let m := m.remap f.stuck
  let m := if first then m.applyHeader.lowAtBringup else m
  if m.sys.svcFailed ≠ [] then m.toOutOfService
  else
    { m with
      sys.st := if m.reduced then .reduced else .service
      sys.stage := 0, sys.stageAt := m.now, sup.authority := 0 }.settleMmps

/-- BRINGUP_STAGE: the stage under way is complete. -/
def doBringupStage (f : StageFinding) (m : Module) : Module :=
  if (m.sys.st ≠ .bringup && m.sys.st ≠ .recovery) || m.sys.stageHeld then m
  else if m.sys.stage = 0 then m.stage0
  else if m.sup.authority = 0 then m
  else if m.sys.stage = 1 then m.stage1 f
  else if m.sys.stage ≤ 6 then (m.stageDies (m.sys.stage - 2) f).stageDone
  else m.stage7 f

/-! ## Faults during a run and requests (R47, R264, R507, R508) -/

/-- LOC_SUB of R507. -/
def CoreDetector.num : CoreDetector → Nat
  | .monitor => 0 | .router => 1 | .silent => 2 | .power => 3

/-- CORE_FAILED: 0x0B03, the partitions that use the core fail, one that is LOADING where it uses the die (R262), and the core is retired at the next remap; in BRINGUP and RECOVERY
it is a self-test failure (R520). -/
def doCoreFailed (c : Nat) (det : CoreDetector) (m : Module) : Module :=
  match m.physOf c with
  | none => m
  | some q =>
    if m.sys.st = .bringup || m.sys.st = .recovery then m.coreBad q
    else if m.sys.st = .cold then m
    else
      let users := (List.range 16).filter (fun p => (m.usersOf [c]).contains p
        || ((m.part p).st = .loading && (m.part p).clusters.any (fun cl => dieOfCluster cl = dieOfCore c)))
      let p := m.partOfCore c
      let task := match p with | some p => m.taskOf p | none => 0
      let m := m.logFatal 0x0B03 { Loc.core c with sub := det.num } (part := p) (task := task)
      let m := users.foldl (fun m p => m.faultPart p 0x0B03) m
      { m with topo.runDead := m.topo.runDead ++ [c] }.retireLater (.core q)

/-- SERVICE_DIE_FAIL. -/
def doServiceDieFail (die : Nat) (m : Module) : Module :=
  if die % 16 ≠ 15 || 64 ≤ die || m.sys.st = .cold then m else m.svcDown die

/-- ENTER_RECOVERY: from SERVICE and REDUCED; from SAFE once it is cool; from SAFE and OUT_OF_SERVICE only with every service die healthy. -/
def doEnterRecovery (src : Source) (m : Module) : Module :=
  let allowed : Bool := match m.sys.st with
    | .service => true
    | .reduced => true
    | .safe => m.cool && m.sys.svcFailed = []
    | .outOfService => m.sys.svcFailed = []
    | .cold => false
    | .bringup => false
    | .recovery => false
  if m.cfgOk src && allowed then m.beginStages .recovery else m

/-- LEAVE_SERVICE. -/
def doLeaveService (src : Source) (m : Module) : Module :=
  if m.cfgOk src && m.serving then m.toOutOfService else m

/-! ## The sideband loop (R509 to R514) -/

/-- A loop frame arrives: one with a wrong FCRC is counted, the module's own is removed, any other is forwarded and acted on. -/
def Module.loopIn (m : Module) (frame : BitVec 160) (act : Module → Module) : Module :=
  let x := frame.toNat
  let s := m.sup.side
  if !m.mech.standby || s.bypass then m
  else if crc32c (leBytes 16 x) ≠ fld x 128 32 then { m with sup.side.framesBad := satN 16 (s.framesBad + 1) }
  else if fld x 4 4 = s.slot then m
  else
    let m := m.emit (.sideband frame)
    act (if fld x 4 4 = 0 then { m with sup.side.lastAt := m.now, sup.side.loopOk := true } else m)

/-- TIME: the tray's count less the module's. -/
def Module.loopTime (m : Module) (x : Nat) : Module :=
  { m with sup.side.offset := (fld x 16 64 : Int) - (m.now : Int), sup.side.synced := true }

/-- CAP: the tray cap; 0 means none. -/
def Module.loopCap (m : Module) (x : Nat) : Module :=
  let n := fld x 16 9
  { m with pwr.trayCap := if n = 0 then none else some (clampCap n), pwr.trayCapAt := m.now }.recap

/-- HERD_STOP: acted on once as a HERD_ABORT of that stage-1 member (R379, R513). -/
def Module.loopStop (m : Module) (x : Nat) : Module :=
  let id := fld x 16 32
  let j := fld x 80 10
  let key := (id, fld x 48 32, j)
  match m.herdOf id with
  | none => m
  | some k =>
    let g := (m.herd k).stage 1
    if !(m.part (k / 4096)).taskRunning || g.macs.length ≤ j || g.self = j || m.sup.side.acted.contains key then m
    else
      let m := { m with
        sup.side.acted := m.sup.side.acted ++ [key], sup.side.stopsActed := satN 16 (m.sup.side.stopsActed + 1) }
      if (m.herd k).lost.contains (1, j) then m else m.abortFrom (k / 4096) (k % 4096) 1 j (g.macs[j]?)

/-- What a forwarded frame does: TIME, CAP and COOLANT only from the tray controller. -/
def Module.loopAct (m : Module) (x : Nat) : Module :=
  let tray : Bool := fld x 4 4 = 0
  match fld x 0 4 with
  | 1 => if tray then m.loopTime x else m
  | 2 => if tray then m.loopCap x else m
  | 3 => if tray then { m with pwr.coolantFault := bitAt x 16 } else m
  | 4 => m.loopStop x
  | _ => m

/-- SIDEBAND_FRAME: any loop frame (R511). -/
def doSidebandFrame (frame : BitVec 160) (m : Module) : Module := m.loopIn frame (fun m => m.loopAct frame.toNat)

/-- A loop frame of one TYPE. -/
def loopType (t : Nat) (frame : BitVec 160) (m : Module) : Module :=
  if fld frame.toNat 0 4 = t then m.loopIn frame (fun m => m.loopAct frame.toNat) else m

/-- TIME (R514). -/
def doTime (frame : BitVec 160) (m : Module) : Module := loopType 1 frame m
/-- CAP (R512). -/
def doCapFrame (frame : BitVec 160) (m : Module) : Module := loopType 2 frame m
/-- COOLANT (R479, R512). -/
def doCoolant (frame : BitVec 160) (m : Module) : Module := loopType 3 frame m
/-- HERD_STOP (R513). -/
def doHerdStop (frame : BitVec 160) (m : Module) : Module := loopType 4 frame m

/-- LOOP_TIMEOUT: 10 ms without a frame of ORIGIN 0. -/
def doLoopTimeout (m : Module) : Module :=
  if m.sup.side.loopOk && m.skPassed m.sup.side.lastAt (10 * skMs) then
    { m with sup.side.loopOk := false, pwr.trayCap := none }.recap
  else m

/-- TRAY_CAP_LAPSE: 10 ms after the last CAP frame. -/
def doTrayCapLapse (m : Module) : Module :=
  if m.pwr.trayCap.isSome && m.skPassed m.pwr.trayCapAt (10 * skMs) then { m with pwr.trayCap := none }.recap else m

/-- HERD_STOP_RESEND: the oldest frame that was sent 100 µs ago is sent again. -/
def doHerdStopResend (m : Module) : Module :=
  match m.sup.side.resend with
  | [] => m
  | (f, t) :: rest =>
    if m.mech.standby && m.usPassed t 100 then { m.emit (.sideband f) with sup.side.resend := rest } else m

/-! ## The fault log (R515, R518) -/

/-- The order of classes among records of one time and partition: abort, fatal, event, refusal. -/
def clsOrder (c : Nat) : Nat :=
  match c with
  | 1 => 0
  | 2 => 1
  | 0 => 2
  | _ => 3

/-- The place of a record in the order of R518: time, partition, class. -/
def FaultRec.key (r : FaultRec) : Nat := (r.time * 17 + r.part.getD 16) * 4 + clsOrder r.cls

/-- The 32 bytes of a record with BOOT and SEQ. -/
def FaultRec.bytes (r : FaultRec) (boot seq : Nat) : List Byte :=
  sealedBytes 32 (put 0 16 r.code + put 16 2 r.cls + (match r.part with | some p => put 18 1 1 + put 20 4 p | none => 0)
    + put 24 3 r.locKind + put 32 16 r.locIndex + put 48 12 r.locSub + put 60 4 boot + put 64 64 r.time
    + put 128 32 r.task + put 160 32 r.detail + put 192 32 seq)

/-- The first of two records in the order of R518. -/
def earlier (a : Option FaultRec) (r : FaultRec) : Option FaultRec :=
  match a with
  | none => some r
  | some x => if r.key < x.key then some r else some x

/-- LOG_WRITE: the first record that has been held for 64 sk is written at NEXT_INDEX. -/
def doLogWrite (m : Module) : Module :=
  let held := (m.sup.intakeFatal ++ m.sup.intake).filter (fun r => m.skPassed r.time 64)
  match held.foldl earlier none with
  | none => m
  | some r =>
    let s := m.sup
    { m with
      sup.intake := s.intake.erase r
      sup.intakeFatal := if s.intake.contains r then s.intakeFatal else s.intakeFatal.erase r
      sup.log := kput s.log s.nextIndex (r.bytes s.boot s.seq)
      sup.nextIndex := (s.nextIndex + 1) % 4_096, sup.seq := (s.seq + 1) % 2 ^ 32 }.raiseIrq 0

/-! ## AOS interrupts (R522) -/

/-- IRQ_STATUS_CLEAR: bits written 1 are cleared. -/
def doIrqStatusClear (_src : Source) (v : Reg64) (m : Module) : Module :=
  { m with sup.irqStatus := (List.range 7).foldl (fun a i =>
      if bitAt m.sup.irqStatus i && !bitAt v.toNat i then a + 2 ^ i else a) 0 }

/-- AOS_IRQ_DEFER_EXPIRY: a deferred vector goes, if its status and enable bits still read 1. -/
def doAosIrqDeferExpiry (i : Nat) (m : Module) : Module :=
  let passed : Bool := match kget? m.sup.irqAt i with | some t => m.usPassed t 10 | none => true
  if !m.sup.irqDefer.contains i || !passed || !m.hostUp then m
  else
    let m := { m with sup.irqDefer := m.sup.irqDefer.filter (· ≠ i) }
    if bitAt m.sup.irqStatus i && bitAt m.sup.irqEn i then
      { m.emit (.msix (1_024 + i)) with sup.irqAt := kput m.sup.irqAt i m.now }
    else m

end Sys2Proof.Machine
end

