-- ==== Sys2Proof/Machine/Mechanical.lean ====
section
/-! DEFINITION. The connector face (chapter 16) and the standby rail: MATE, power-up with the slot straps, and power-off (R455,
R543, R544, R551 to R553). -/

namespace Sys2Proof.Machine

open Sys2Proof

/-- What power-off leaves: flash and fuses, the pins, and what has been sent. -/
def Module.dark (m : Module) : Module :=
  { topo := m.topo, fab := m.fab, pwr := { vfOffset := m.pwr.vfOffset }
    sup := { flashLog := m.sup.flashLog, flashNext := m.sup.flashNext, flashSeq := m.sup.flashSeq, boot := m.sup.boot }
    sec := { m.sec with quoteAt := [], enrol := 0 }
    mech := { m.mech with standby := false }, out := m.out, free := m.free }

/-- The standby rail is lost: COLD, the loop's bypass is closed, and the AOS, the slow clock and the fault log lose power. -/
def Module.standbyOff (m : Module) : Module := if m.mech.standby then m.toCold.dark else m

/-- MATE_MADE: the pin has been made for 100 ms, and the converters may start. -/
def doMateMade (m : Module) : Module := { m with mech.mate := true }

/-- MATE_BREAK: the bricks and the standby converters stop. -/
def doMateBreak (m : Module) : Module := { m.standbyOff with mech.mate := false }

/-- STANDBY_UP: the slow clock starts, the slot straps are read, the AOS starts from its reset state and reloads the fault log from
flash. Slot 0 is not legal: the bypass stays closed (R553). -/
def doStandbyUp (straps : BitVec 8) (m : Module) : Module :=
  if m.mech.standby || !m.mech.mate then m
  else
    let slot := straps.toNat % 16
    { m with
      mech.standby := true, mech.straps := slot
      sup := { m.sup with
        side := { slot := slot, bypass := slot = 0 }
        boot := (m.sup.boot + 1) % 16, log := m.sup.flashLog, nextIndex := m.sup.flashNext, seq := m.sup.flashSeq } }

/-- STANDBY_LOSS: the input has fallen below 400 V. -/
def doStandbyLoss (m : Module) : Module := m.standbyOff

end Sys2Proof.Machine
end

