-- ==== Sys2Proof/Machine/Registers.lean ====
section
/-! DEFINITION. What the registers of BAR0 and BAR2 read as, by block (R19 to R22, R390, R391, and the register tables of every
chapter). -/

namespace Sys2Proof.Machine

open Sys2Proof

/-- A register: its address, its width in bytes, and what a read returns. -/
structure RegVal where
  base : Nat
  bytes : Nat
  val : Nat := 0
deriving DecidableEq, Repr

/-- A register of 4 B, 8 B, and of `n` bytes. -/
def r4 (b v : Nat) : RegVal := { base := b, bytes := 4, val := v % 2 ^ 32 }
def r8 (b v : Nat) : RegVal := { base := b, bytes := 8, val := v % 2 ^ 64 }
def rN (b n v : Nat) : RegVal := { base := b, bytes := n, val := v % 2 ^ (8 * n) }

/-- Offsets that no chapter assigns read as 0 (R390). -/
def noReg (a : Nat) : RegVal := { base := a, bytes := 4, val := 0 }

/-- The element of an array of `n` registers `step` apart at `first`, of which register `f i` holds offset `o`. -/
def arrayAt (o first step n : Nat) : Option (Nat × Nat) :=
  if first ≤ o && o < first + step * n then some ((o - first) / step, (o - first) % step) else none

/-! ## MOD_ (R49 to R52, R267) -/

/-- Whether logical core `c` is a hole of the published map. -/
def Module.mapHole (m : Module) (c : Nat) : Bool :=
  let r := m.rowMap (coreU c / 14) (coreV c)
  bitAt r.dead (r.physCol (coreU c % 14))

/-- Whether channel `ch` of ring die `n` is dead (R44, R45, R47). -/
def Module.chanDead (m : Module) (n ch : Nat) : Bool := m.topo.ringBad.contains n || m.mapHole (edgeCore n ch)

/-- Live edge channels of ring die `n`. -/
def Module.chansUp (m : Module) (n : Nat) : Nat := ((List.range (chanCount n)).filter (fun ch => !m.chanDead n ch)).length

/-- Every die row's map. -/
def Module.allRows (m : Module) : List RowMap := (List.range 1400).map (fun i => m.rowMap (i / 140) (i % 140))

/-- MOD_CAPACITY. -/
def Module.capacity (m : Module) : Nat :=
  let rows := m.allRows
  put 0 15 (19_600 - rows.foldl (fun a r => a + r.holes) 0)
    + put 15 11 ((rows.filter (fun r => !bitAt r.dead r.absorb)).length)

/-- MOD_CAPACITY_RING. -/
def Module.capacityRing (m : Module) : Nat :=
  let up := (List.range 64).filter (fun n => !m.topo.ringBad.contains n)
  put 0 6 (up.filter isLink).length + put 6 5 (2 * (up.filter isMem).length)
    + put 11 10 ((List.range 64).foldl (fun a n => a + m.chansUp n) 0)

/-- MOD_RING_DIE_STATUS of ring die `n` (R50). -/
def Module.ringStatus (m : Module) (n : Nat) : Nat :=
  let kind := if isLink n then 0 else if isMem n then 1 else 2
  let dead := (List.range (chanCount n)).foldl (fun a ch => a + put (32 + ch) 1 (b2n (m.chanDead n ch))) 0
  put 0 2 kind + put 2 1 (b2n (!m.topo.ringBad.contains n)) + put 8 5 (chanCount n) + put 16 5 (m.chansUp n) + dead

/-- Whether physical column `pc` of row `v` holds no mapped core. -/
def Module.unmapped (m : Module) (pc v : Nat) : Bool :=
  let r := m.rowMap (pc / 15) v
  pc % 15 = r.absorb || bitAt r.dead (pc % 15)

/-- MOD_CORE_MAP of die row `i` (R51). -/
def Module.coreMapReg (m : Module) (i : Nat) : Nat :=
  let x := i / 140
  let v := i % 140
  let r := m.rowMap x v
  let broken := (List.range 15).any (fun j => 15 * x + j + 1 < 150 && m.unmapped (15 * x + j) v && m.unmapped (15 * x + j + 1) v)
  put 0 15 r.dead + put 16 4 r.absorb + put 20 1 (b2n (!bitAt r.dead r.absorb)) + put 21 1 (b2n broken)
    + put 22 1 (b2n (!m.unmapped (15 * x + 7) v && 7 < r.absorb)) + put 23 4 r.holes + put 27 1 (b2n r.field)

/-- The MOD_ block. -/
def Module.modReg (m : Module) (o : Nat) : RegVal :=
  if o = 0x0 then r4 o 0x010E_EFAA
  else if o = 0x8 then r4 o m.capacity
  else if o = 0xC then r4 o m.capacityRing
  else if o = 0x10 then r4 o m.topo.epoch
  else if o = 0x18 then r4 o m.sys.st.num
  else
    match arrayAt o 0x100 8 64, arrayAt o 0x1000 4 1400 with
    | some (n, _), _ => r8 (0x100 + 8 * n) (m.ringStatus n)
    | _, some (i, _) => r4 o (m.coreMapReg i)
    | _, _ => noReg o

/-! ## ENG_ (R95 to R97, R121 to R123, R158, R187, R188) -/

/-- Whether physical core `q` is mapped. -/
def Module.mappedPhys (m : Module) (q : Nat) : Bool := !m.unmapped (q % 150) (q / 150)

/-- Engines whose repair state satisfies `f`, mapped ones only where `mapped`. -/
def Module.repairs (m : Module) (mapped : Bool) (f : Repair → Bool) : Nat :=
  (m.topo.repair.filter (fun e => f e.2 && (!mapped || m.mappedPhys e.1))).length

/-- ENG_FUSE_DATA. -/
def Module.fuseData (m : Module) : Nat :=
  if 20_999 < m.topo.fuseSel then 0
  else
    let x : Repair := kgetD {} m.topo.repair m.topo.fuseSel
    put 0 6 x.rowSkip + put 6 1 (b2n x.rowField) + put 8 6 x.colSkip + put 14 1 (b2n x.colField) + put 16 1 (b2n x.usable)

/-- The ENG_ block. -/
def Module.engReg (m : Module) (o : Nat) : RegVal :=
  if o = 0x0 then r4 o 0xFF
  else if o = 0x4 then r4 o 0x0010_2FC0
  else if o = 0x400 then r4 o 0x0404_0820
  else if o = 0x404 then r4 o 0x90
  else if o = 0x410 then
    r4 o (put 0 15 (m.repairs true (fun x => x.rowSkip < 32)) + put 15 15 (m.repairs true (fun x => x.colSkip < 32)))
  else if o = 0x414 then r4 o (put 0 15 (m.repairs false (·.rowField)) + put 15 15 (m.repairs false (·.colField)))
  else if o = 0x420 then r4 o m.topo.fuseSel
  else if o = 0x424 then r4 o m.fuseData
  else if o = 0x428 then r4 o (b2n (m.topo.reducedActive || m.topo.arrayMasks ≠ []))
  else if o = 0x500 then r4 o 0x0200_1040
  else if o = 0x600 then r4 o 0x8040_4007
  else
    match arrayAt o 0x100 16 16, arrayAt o 0x700 8 16 with
    | some (p, k), _ =>
      let x := m.part p
      if k < 8 then r8 (0x100 + 16 * p) (if x.st = .off then 0 else x.seed)
      else if k < 12 then r4 (0x108 + 16 * p) (x.tags % 32)
      else noReg o
    | _, some (p, _) =>
      let x := m.part p
      r8 (0x700 + 8 * p) (if x.st = .off then 0 else put 0 32 x.dropped + put 32 16 x.fallbacks)
    | _, _ => noReg o

/-! ## NET_ and JIG_ (R227 to R229, R265, R266) -/

/-- The NET_ block. -/
def Module.netReg (m : Module) (o : Nat) : RegVal :=
  if o = 0x0 then r4 o 0x17FF_F000
  else if o = 0x4 then r4 o 0x0020_4840
  else if o = 0x8 then r4 o m.net.frameLen
  else if o = 0x10 || o = 0x14 then r8 0x10 m.net.slot
  else
    match arrayAt o 0x100 8 16 with
    | some (p, _) =>
      let e := kgetD (0, 0) m.net.errs p
      r8 (0x100 + 8 * p) (if (m.part p).st = .off then 0 else put 0 32 e.1 + put 32 32 e.2)
    | none => noReg o

/-- JIG_STATUS.PHASE. -/
def JigPhase.num : JigPhase → Nat
  | .idle => 0 | .staging => 1 | .checking => 2 | .writing => 3 | .armed => 4

/-- JIG_PART_STATE of partition `p` (R266). -/
def Part.stateReg (x : Part) : Nat :=
  if x.st = .off then 0
  else put 0 3 x.st.num + put 3 1 (b2n x.inference) + put 8 5 x.cx + put 16 5 x.cy + put 24 5 x.cw + put 32 5 x.ch

/-- The JIG_ block. -/
def Module.jigReg (m : Module) (o : Nat) : RegVal :=
  let j := m.jig
  if o = 0x0 then r4 o 0x0001_0410
  else if o = 0x8 || o = 0xC then r8 0x8 j.addr
  else if o = 0x10 || o = 0x14 then r8 0x10 j.len
  else if o = 0x18 || o = 0x1C then r8 0x18 j.fabricId
  else if o = 0x24 then
    r4 o (put 0 3 j.phase.num + put 3 1 (b2n j.lastRefused) + put 4 1 (b2n j.lastSigned) + put 5 1 (b2n j.lastPartial))
  else if o = 0x28 || o = 0x2C then r8 0x28 j.loadedId
  else if o = 0x30 then r4 o j.loadCount
  else if 0x40 ≤ o && o < 0x60 then rN 0x40 32 j.digest.toNat
  else if 0x60 ≤ o && o < 0x80 then rN 0x60 32 j.refusal.toNat
  else
    match arrayAt o 0x100 8 16 with
    | some (p, _) => r8 (0x100 + 8 * p) (m.part p).stateReg
    | none => noReg o

/-! ## TIER_ (R301 to R304) -/

/-- TIER_T1_FRAMES. -/
def Module.t1Frames (m : Module) : Nat :=
  let h := m.homes
  put 0 21 (h.foldl (fun a d => a + m.frames d) 0) + put 21 21 (h.foldl (fun a d => a + m.reservedT1 d) 0)
    + put 42 21 ((m.tier.pages.filter (fun e => e.2.occupies 1)).length)

/-- STATE of TIER_QUERY_RESULT. -/
def Page.stateNum (x : Page) : Nat := if x.tier = 0 then 1 else if x.move.isSome then 5 else x.tier + 1

/-- TIER_QUERY_RESULT (R303). -/
def Module.queryResult (m : Module) : Nat :=
  let pg := m.tier.query / pageBytes
  match m.objAt pg with
  | none => 0
  | some (k, _) =>
    let x := m.page pg
    put 0 3 x.stateNum + put 3 4 (k / 4096) + put 7 12 (k % 4096) + put 19 4 (pg % max 1 m.homes.length)
      + put 23 16 x.heat + put 64 32 x.rawMask + put 96 32 x.written

/-- The TIER_ block. -/
def Module.tierReg (m : Module) (o : Nat) : RegVal :=
  let t := m.tier
  if o = 0x0 then r4 o 0xE215
  else if o = 0x8 || o = 0xC then r8 0x8 m.t1Frames
  else if o = 0x10 then r4 o (put 0 21 (t.retired.foldl (fun a e => a + e.2) 0))
  else if o = 0x18 || o = 0x1C then r8 0x18 t.t2Base
  else if o = 0x20 then r4 o t.t2Pages
  else if o = 0x28 || o = 0x2C then r8 0x28 t.poolBase
  else if o = 0x30 then r4 o t.poolPages
  else if o = 0x38 || o = 0x3C then r8 0x38 t.migrate
  else if o = 0x40 then r4 o t.lowWater
  else if o = 0x48 || o = 0x4C then r8 0x48 t.query
  else if 0x50 ≤ o && o < 0x60 then rN 0x50 16 m.queryResult
  else if o = 0x60 || o = 0x64 then r8 0x60 (put 0 32 t.eccT0Corr + put 32 32 t.eccT0Unc)
  else if o = 0x68 || o = 0x6C then r8 0x68 (put 0 32 t.eccT1Corr + put 32 32 t.eccT1Unc)
  else if o = 0x70 || o = 0x74 then r8 0x70 (put 0 32 t.scrubT0 + put 32 32 t.scrubT1)
  else
    match arrayAt o 0x100 8 16 with
    | some (p, _) =>
      let x := m.part p
      r8 (0x100 + 8 * p) (if x.st = .off then 0 else put 0 32 x.promos + put 32 32 x.demos)
    | none => noReg o

/-! ## STR_, FAB_ and HRD_ (R348, R349, R382 to R385) -/

/-- The STR_ block. -/
def Module.strReg (m : Module) (o : Nat) : RegVal :=
  let s := m.str
  if o = 0x0 then r4 o 0x0521_007C
  else if o = 0x8 then r4 o s.ethertype
  else if o = 0xC then r4 o s.timeouts
  else if o = 0x10 then r4 o s.bypass
  else if o = 0x18 || o = 0x1C then r8 0x18 s.poolMac
  else if o = 0x20 || o = 0x24 then r8 0x20 s.poolPorts
  else if o = 0x28 || o = 0x2C then r8 0x28 (put 0 32 s.badHeader + put 32 32 s.noStream)
  else
    match arrayAt o 0x100 16 16 with
    | some (p, _) =>
      let x := m.part p
      rN (0x100 + 16 * p) 16 (if x.st = .off then 0
        else put 0 32 x.misses + put 32 32 x.veneers + put 64 32 x.bypassFills + put 96 16 x.reparents)
    | none => noReg o

/-- FAB_PORT_STATUS of a port (R383). -/
def Module.portStatus (m : Module) (p : Nat) : Nat :=
  let x := m.port p
  if m.portPresent p then
    1 + put 1 1 (b2n x.up) + put 2 1 (b2n x.localFault) + put 3 1 (b2n x.remoteFault) + put 16 16 x.downs
  else 0

/-- FAB_PORT_COUNTERS of a port. -/
def Port.counters (x : Port) : Nat :=
  put 0 32 x.framesTx + put 32 32 x.framesRx + put 64 32 x.discards + put 96 32 x.fcsErrors + put 128 32 x.crcFails
    + put 160 32 x.retransmits + put 192 32 x.pauseIgnored

/-- The FAB_ block. -/
def Module.fabReg (m : Module) (o : Nat) : RegVal :=
  let f := m.fab
  if o = 0x0 then r4 o 0x2400_91F0
  else if o = 0x8 || o = 0xC then r8 0x8 (f.macBase % 2 ^ 48 / 64 * 64)
  else if o = 0x10 || o = 0x14 then r8 0x10 m.jig.vcWeights
  else if o = 0x18 then r4 o f.vlan
  else if o = 0x1C then r4 o f.herdType
  else if o = 0x20 then r4 o f.timers
  else
    match arrayAt o 0x100 8 48, arrayAt o 0x400 32 48 with
    | some (p, _), _ => r8 (0x100 + 8 * p) (m.portStatus p)
    | _, some (p, _) => rN (0x400 + 32 * p) 32 (m.port p).counters
    | _, _ => noReg o

/-- Port die and buffers of the herds of partitions that are not OFF, those of a load in progress as they were before it (R384). -/
def Module.loadedHerds (m : Module) : List (Nat × Nat) :=
  (m.herds.filter (fun e => let st := (m.part (e.1 / 4096)).st; st ≠ .off && st ≠ .loading)).map (fun e => (e.2.portDie, e.2.buffers))
    ++ m.jig.oldHerds

/-- The HRD_ block. -/
def Module.hrdReg (m : Module) (o : Nat) : RegVal :=
  if o = 0x0 then r4 o 0x2004_1000
  else if o = 0x4 then r4 o 0x1C00
  else if o = 0x8 then r4 o (put 0 13 m.loadedHerds.length)
  else
    match arrayAt o 0x100 4 64, arrayAt o 0x200 16 16 with
    | some (n, _), _ => r4 o (put 0 11 ((m.loadedHerds.filter (fun h => h.1 = n)).foldl (fun a h => a + h.2) 0))
    | _, some (p, _) =>
      let x := m.part p
      rN (0x200 + 16 * p) 16 (if x.st = .off then 0
        else put 0 32 x.opsDone + put 32 16 x.lostMembers + put 48 16 x.abortsRx + put 64 32 x.dlMisses + put 96 32 x.herdRetx)
    | _, _ => noReg o

/-! ## QUE_ and the doorbells (R395, R396, R406, R413, R419) -/

/-- QUE_STATUS.STATE. -/
def QueueState.num : QueueState → Nat
  | .disabled => 0 | .active => 1 | .stopped => 2 | .disabling => 3

/-- QUE_STATUS of a queue. -/
def Queue.status (x : Queue) : Nat :=
  put 0 2 x.st.num + put 2 1 (b2n x.configErr) + put 3 1 (b2n x.dbErr) + put 4 1 (b2n x.running) + put 5 1 (b2n x.waiting)
    + put 16 16 x.stopCode + put 32 16 x.sqHead + put 48 16 x.cqTail

/-- QUE_CXL_STATUS (R419): 0 before stage 1 of bring-up. -/
def Module.cxlStatus (m : Module) : Nat :=
  let c := m.que.cxl
  if !m.cxlAlive then 0
  else put 0 1 (b2n c.up) + put 1 1 (b2n c.posB) + put 2 1 (b2n m.mech.bPresence) + put 8 4 c.width + put 12 4 c.speed
    + put 32 16 c.failovers

/-- QUE_PART_TASK of partition `p`. -/
def Module.partTask (m : Module) (p : Nat) : Nat :=
  let x := m.part p
  if x.st = .off then 0
  else (if x.taskSeq = 0 then 0 else put 0 28 x.taskSeq + put 28 4 p) + put 32 1 (b2n x.taskRunning) + put 48 16 x.lastCode

/-- QUE_PART_CTX of partition `p`. -/
def Module.partCtx (m : Module) (p : Nat) : Nat :=
  let x := m.part p
  let busy := (m.que.sessions.filter (fun e => e.1 / 2 ^ 18 = p && e.2.st ≠ .free)).length
  if x.st = .off then 0 else put 0 19 x.quota + put 19 19 (x.quota - x.used) + put 38 19 busy

/-- One register of queue `q`'s 64 B. -/
def Module.queueReg (m : Module) (q k : Nat) : RegVal :=
  let x := m.queue q
  let b := 0x1_0000 + 64 * q
  if k < 8 then r8 b x.sqBase
  else if k < 16 then r8 (b + 8) x.cqBase
  else if k < 24 then r8 (b + 16) x.tailAddr
  else if k < 28 then r4 (b + 24) x.cfg
  else if k < 32 then r4 (b + 28) 0
  else if k < 40 then r8 (b + 32) x.status
  else noReg (b + k)

/-- The QUE_ block. -/
def Module.queReg (m : Module) (o : Nat) : RegVal :=
  if o = 0x0 then r4 o 0x2102_0400
  else if o = 0x4 then r4 o 0x2084_0000
  else if o = 0x8 || o = 0xC then r8 0x8 m.cxlStatus
  else if o = 0x10 then r4 o (b2n m.que.cxl.failoverEn)
  else
    match arrayAt o 0x100 16 16, arrayAt o 0x200 16 256, arrayAt o 0x2000 4 1024, arrayAt o 0x1_0000 64 1024 with
    | some (p, k), _, _, _ => if k < 8 then r8 (0x100 + 16 * p) (m.partTask p) else r8 (0x108 + 16 * p) (m.partCtx p)
    | _, some (i, _), _, _ => rN (0x200 + 16 * i) 16 ((m.model i).reg + put 81 1 (b2n (m.model i).valid))
    | _, _, some (i, _), _ => r4 o (if (m.part (i / 64)).st = .off then 0 else m.fence (i / 64) (i % 64))
    | _, _, _, some (q, k) => m.queueReg q k
    | _, _, _, _ => noReg o

/-- The doorbell page of a queue in BAR2: only QUE_DB_STATE reads as other than 0. -/
def Module.doorReg (m : Module) (o : Nat) : RegVal :=
  if o % 4096 = 0xC then r4 o ((m.queue (o / 4096)).status % 2 ^ 32) else noReg o

/-! ## The function on the link (R386) -/

/-- What the host finds the function to be: its identity, its CXL capabilities, its BARs in bytes and its MSI-X vectors. No command of the table
reads configuration space or BAR4, whose layout is the PCIe and CXL specifications' (log 127). -/
structure LinkFunction where
  classCode : Nat := 0x12_0000
  deviceId : Nat := 0xA140
  vendorId : BitVec 16
  cacheCapable : Bool := true
  ioCapable : Bool := true
  memCapable : Bool := false
  hdmCount : Nat := 0
  functions : Nat := 1
  bar0 : Nat := 64 * 2 ^ 20
  bar2 : Nat := 4 * 2 ^ 20
  bar4 : Nat := 64 * 2 ^ 10
  vectors : Nat := 1_032
  cacheBytes : Nat := 4 * 2 ^ 20
deriving DecidableEq, Repr

/-- The one physical function (R386). -/
def linkFunction : LinkFunction := { vendorId := Config.vendorId }

/-! ## KRF_ (R450, R451) -/

/-- KRF_STATUS.PHASE. -/
def KrfPhase.num : KrfPhase → Nat
  | .idle => 0 | .awaitingCut => 1 | .dumping => 2 | .writing => 3 | .restoring => 4

/-- One register of partition `p`'s 64 B. -/
def Module.krfPart (m : Module) (p k : Nat) : RegVal :=
  let x := m.part p
  let f := x.krf
  let b := 0x1000 + 64 * p
  if k < 8 then
    r8 b (if x.st = .off then 0
      else put 0 3 f.phase.num + put 3 1 (b2n f.resume) + put 4 1 (b2n f.notBitExact) + put 5 1 (b2n f.predReset)
        + put 6 1 (b2n f.restoreBad) + put 32 32 f.generation)
  else if k < 24 then rN (b + 8) 16 (put 0 32 f.comGen + put 32 32 f.comTiles + put 64 64 f.comDest)
  else if k < 32 then r8 (b + 24) (put 0 32 f.cowStalls + put 32 32 f.commits)
  else rN (b + 32) 32 (if x.st = .off then 0 else f.jigDigest.toNat)

/-- The KRF_ block. -/
def Module.krfReg (m : Module) (o : Nat) : RegVal :=
  let l := m.launch
  if o = 0x0 then r4 o 0x0F14_4080
  else if o = 0x8 || o = 0xC then r8 0x8 l.poolBase
  else if o = 0x10 || o = 0x14 then r8 0x10 l.poolBytes
  else if o = 0x18 then r4 o l.limits
  else if o = 0x20 then r4 o l.ctrl
  else if o = 0x28 || o = 0x2C then r8 0x28 l.parent
  else if o = 0x30 || o = 0x34 then r8 0x30 l.grand
  else if o = 0x38 || o = 0x3C then r8 0x38 (put 0 32 l.unitsStaged + put 32 16 l.reparents)
  else
    match arrayAt o 0x1000 64 16 with
    | some (p, k) => m.krfPart p k
    | none => noReg o

/-! ## PWR_ and CLK_ (R484 to R486) -/

/-- The clusters of a die. -/
def clustersOfDie (d : Nat) : List Nat :=
  let b := 40 * (d / 10) + 2 * (d % 10)
  [b, b + 1, b + 20, b + 21]

/-- JIG_N of a cluster: 0 in no partition, or at FREQ_MHZ 0. -/
def Module.jigStep (m : Module) (cl : Nat) : Nat :=
  match m.parts.find? (fun q => q.2.st ≠ .off && q.2.hasCluster cl) with
  | some (_, x) => stepOf (x.clusterFreq.getD (x.clusters.idxOf cl) 0)
  | none => 0

/-- N_LIMIT of die `d`. -/
def Module.dieLimit (m : Module) (d : Nat) : Nat :=
  let nj := (clustersOfDie d).foldl (fun a cl => max a (m.jigStep cl)) 0
  min 64 (max 8 ((m.dieP d).limit (if nj = 0 then 64 else nj)))

/-- PWR_DIE_STATUS of die `d` (R485). -/
def Module.dieStatus (m : Module) (d : Nat) : Nat :=
  let x := m.dieP d
  let dark := m.topo.dark.contains d
  let n := if dark then 0 else m.dieLimit d
  put 0 7 x.lost + put 7 2 (if dark then 2 else if n < 64 then 1 else 0) + put 9 1 (b2n x.crackMark)
    + put 10 1 (b2n x.throttle.isSome) + put 11 1 (b2n x.sensorFault) + put 16 7 n + put 24 8 (min 150 (x.tj.getD 0 / 10))
    + put 32 1 (b2n x.efuseOpen)

/-- PWR_CAP_STATE. -/
def Pwr.capState (w : Pwr) : Nat :=
  put 0 9 w.capEffective + put 9 3 w.capSource + put 12 1 (b2n w.meshHalf) + put 13 1 (b2n w.floorActive)
    + put 14 1 (b2n w.mgrA.present) + put 15 1 (b2n w.mgrB.present) + put 16 1 (b2n w.holderB)

/-- PWR_INPUT_STATUS. -/
def Pwr.inputStatus (w : Pwr) : Nat :=
  put 0 1 (b2n (7_000 ≤ w.volts)) + put 1 1 (b2n w.droop) + put 2 1 (b2n w.droopSeq) + put 3 5 (18 - w.bricks.length)
    + put 8 1 (b2n w.coolantFault) + put 9 1 (b2n w.trayCap.isSome)

/-- The PWR_ block. -/
def Module.pwrReg (m : Module) (o : Nat) : RegVal :=
  let w := m.pwr
  if o = 0x0 then r4 o 0x120C_1F06
  else if o = 0x8 || o = 0xC then r8 0x8 w.cap
  else if o = 0x10 || o = 0x14 then r8 0x10 0
  else if o = 0x18 then r4 o w.capState
  else if o = 0x1C then r4 o w.ctrl
  else if o = 0x20 then r4 o w.inputStatus
  else if o = 0x28 || o = 0x2C then r8 0x28 (put 0 16 w.sheds + put 16 16 w.throttles + put 32 16 w.floorShort + put 48 16 w.deferrals)
  else
    match arrayAt o 0x100 8 100 with
    | some (d, _) => r8 (0x100 + 8 * d) (m.dieStatus d)
    | none => noReg o

/-- CLK_CLUSTER.STATE. -/
def ClusterState.num : ClusterState → Nat
  | .off => 0 | .retain => 1 | .waking => 2 | .on => 3

/-- The CLK_ block. -/
def Module.clkReg (m : Module) (o : Nat) : RegVal :=
  let w := m.pwr
  if o = 0x0 then r4 o 0x0044_0A8C
  else if o = 0x8 then r4 o (put 0 1 (b2n w.meshLocked) + put 1 1 (b2n w.meshHalf) + put 16 16 w.lockFaults)
  else if o = 0x10 || o = 0x14 then r8 0x10 w.sk
  else
    match arrayAt o 0x100 4 400 with
    | some (cl, _) =>
      let y := m.cluster cl
      r4 o (put 0 7 (if y.st = .on then y.n else 0) + put 7 2 y.st.num + put 9 7 (m.jigStep cl) + put 16 1 (b2n y.half.isSome))
    | none => noReg o

/-! ## AOS_ and MMP_ (R521, R523) -/

/-- AOS_LEASE. -/
def Sup.leaseReg (s : Sup) : Nat :=
  put 0 2 (match s.lease with | .none_ => 0 | .held => 1 | .frozen => 2) + put 2 1 (b2n s.holderB) + put 3 2 s.authority
    + put 5 1 (b2n (s.claims ≠ [])) + put 32 32 s.leaseEpoch

/-- AOS_SIDEBAND. -/
def Sideband.reg (x : Sideband) : Nat :=
  put 0 4 x.slot + put 4 1 (b2n x.loopOk) + put 5 1 (b2n x.bypass) + put 6 1 (b2n x.synced) + put 16 16 x.framesBad
    + put 32 16 x.stopsSent + put 48 16 x.stopsActed

/-- The AOS_ block. -/
def Module.aosReg (m : Module) (o : Nat) : RegVal :=
  let s := m.sup
  if o = 0x0 then r4 o 0x0084_1000
  else if o = 0x8 || o = 0xC then r8 0x8 s.leaseReg
  else if o = 0x10 then r4 o 0
  else if o = 0x14 then r4 o s.currentEpoch
  else if o = 0x18 || o = 0x1C then r8 0x18 (put 0 16 s.conflicts + put 16 16 s.expiries + put 32 16 s.handovers)
  else if o = 0x20 || o = 0x24 then r8 0x20 (twos 64 s.side.offset)
  else if o = 0x28 || o = 0x2C then r8 0x28 s.side.reg
  else if o = 0x30 || o = 0x34 then r8 0x30 (put 0 12 s.nextIndex + put 16 4 s.boot + put 32 32 s.seq)
  else if o = 0x38 || o = 0x3C then r8 0x38 (put 0 32 s.dropped)
  else if o = 0x40 then r4 o s.irqStatus
  else if o = 0x44 then r4 o s.irqEn
  else
    match arrayAt o 0x1_0000 32 4096 with
    | some (i, _) => rN (0x1_0000 + 32 * i) 32 (leNat (kgetD [] s.log i))
    | none => noReg o

/-- MMP_STATUS.STATE. -/
def MmpState.num : MmpState → Nat
  | .off => 0 | .standby => 1 | .active => 2 | .failed => 3

/-- MMP_STATUS. -/
def Mmp.reg (x : Mmp) : Nat :=
  put 0 2 x.st.num + put 2 1 (b2n (x.imageOk && x.st ≠ .off)) + put 3 3 x.shedLevel + put 8 8 x.busy + put 32 16 x.rises
    + put 48 16 x.restarts

/-- MMP_BG of activity `k`: activities 2, 3 and 6 run continuously. -/
def Module.bgReg (m : Module) (k : Nat) : Nat :=
  let x : Activity := kgetD {} m.sup.acts k
  let age := if k = 2 || k = 3 || k = 6 then 0 else (m.now - x.lastAt) / skS
  put 0 32 (satN 32 age) + put 32 16 x.misses

/-- The MMP_ block. -/
def Module.mmpReg (m : Module) (o : Nat) : RegVal :=
  match arrayAt o 0x0 8 2, arrayAt o 0x100 8 11 with
  | some (i, _), _ => r8 (8 * i) (m.mmp (i = 1)).reg
  | _, some (k, _) => r8 (0x100 + 8 * k) (m.bgReg k)
  | _, _ => noReg o

/-! ## SEC_ (R541) -/

/-- Slot states: FUSED and REVOKED of slots 0 to 3. -/
def slotStates (fused revoked : Nat) : Nat :=
  (List.range 4).foldl (fun a i => a + put (2 * i) 1 (b2n (bitAt fused i)) + put (2 * i + 1) 1 (b2n (bitAt revoked i))) 0

/-- SEC_FW_STATUS. -/
def Sec.fwStatus (s : Sec) : Nat :=
  put 0 1 (b2n s.imageValid) + put 1 1 (b2n s.imagePending) + put 2 1 (b2n s.noImage) + put 8 8 (imgSvn s.image)
    + put 16 8 s.minSvn + put 24 2 (imgSlot s.image) + put 32 8 (slotStates s.fwFused s.fwRevoked)
    + put 40 8 (slotStates s.caFused s.caRevoked)

/-- HEIGHT of the customer key. -/
def Sec.custHeight (s : Sec) : Nat :=
  if s.custKey = [] then 0
  else match keyOid s.custKey with
    | 0x10 => 10
    | 0x11 => 16
    | 0x12 => 20
    | _ => 0

/-- The SEC_ block. -/
def Module.secReg (m : Module) (o : Nat) : RegVal :=
  let s := m.sec
  if o = 0x0 then r4 o 0x0014_4420
  else if o = 0x8 || o = 0xC then r8 0x8 s.fwStatus
  else if 0x10 ≤ o && o < 0x30 then rN 0x10 32 s.measA.toNat
  else if 0x30 ≤ o && o < 0x50 then rN 0x30 32 s.measB.toNat
  else if 0x50 ≤ o && o < 0x70 then rN 0x50 32 s.fuseDigest.toNat
  else if o = 0x70 || o = 0x74 then
    r8 0x70 (put 0 16 s.generation + put 16 21 s.nextLeaf + put 37 5 (16 - s.nextReserved) + put 42 2 s.enrol + put 44 1 (b2n s.low))
  else if o = 0x78 then r4 o s.quoteLimit
  else if o = 0x80 || o = 0x84 then r8 0x80 s.cmdAddr
  else if o = 0x88 then r4 o s.cmdLen
  else if o = 0x90 || o = 0x94 then
    r8 0x90 (put 0 1 (b2n s.busy) + put 1 4 s.op + put 16 16 s.result + put 32 26 s.outLen)
  else if o = 0x98 || o = 0x9C then
    r8 0x98 (put 0 1 (b2n (s.custKey ≠ [])) + put 1 1 (b2n s.custRequire) + put 8 8 s.custHeight + put 32 32 s.custCounter)
  else if 0xA0 ≤ o && o < 0xC0 then rN 0xA0 32 s.custDigest.toNat
  else noReg o

/-! ## Both BARs (R390 to R392, R531) -/

/-- Where BAR2 begins in the addresses of this model; BAR0 takes 64 MiB (R386). -/
def bar2 : Nat := 0x0400_0000

/-- A register of a block of BAR0 moved to its place. -/
def RegVal.in_ (r : RegVal) (block : Nat) : RegVal := { r with base := 0x10_0000 * block + r.base }

/-- The register that holds address `a`, a multiple of 4: BAR0 below 64 MiB, the doorbell pages above. While the recovery loader
serves, blocks other than MOD_ and SEC_ read 0. -/
def Module.regOf (m : Module) (a : Nat) : RegVal :=
  let o := a % 0x10_0000
  let b := a / 0x10_0000
  if bar2 ≤ a then { m.doorReg (a - bar2) with base := a }
  else if b = 0 then (m.modReg o).in_ 0
  else if b = 14 then (m.secReg o).in_ 14
  else if !m.mmpRuns then noReg a
  else
    let r := match b with
      | 1 => m.engReg o | 2 => m.netReg o | 3 => m.jigReg o | 4 => m.tierReg o | 5 => m.strReg o | 6 => m.fabReg o
      | 7 => m.hrdReg o | 8 => m.queReg o | 9 => m.krfReg o | 10 => m.pwrReg o | 11 => m.clkReg o | 12 => m.aosReg o
      | 13 => m.mmpReg o | _ => noReg o
    r.in_ b

/-- The 4 B at address `a` of a register's value. -/
def RegVal.word (r : RegVal) (a : Nat) : Nat := fld r.val (8 * (a - r.base)) 32

/-- The latch of the register at `b` for reader `w` (0 the host, 1 MMP-A, 2 MMP-B); a register begins at a multiple of 4. -/
def latchKey (w b : Nat) : Nat := b + w

/-- What a read at `a` by reader `w` sees of a register: one wider than 8 B is latched by a read that begins at its first byte, and its
other bytes come from that latch until its first 8 B are read again (R391). -/
def Module.seenReg (m : Module) (w a : Nat) : RegVal :=
  let r := m.regOf a
  if r.bytes ≤ 8 || a = r.base then r
  else
    match kget? m.que.latches (latchKey w r.base) with
    | some v => { r with val := v }
    | none => r

/-- A read of 4 B or 8 B, naturally aligned; none for any other access. -/
def Module.barRead (m : Module) (w a : Nat) (wide : Bool) : Option (Nat × Module) :=
  if a % (if wide then 8 else 4) ≠ 0 then none
  else
    let r := m.regOf a
    let s := m.seenReg w a
    let hi := if s.base + s.bytes ≤ a + 4 then (m.regOf (a + 4)).word (a + 4) else s.word (a + 4)
    let v := s.word a + (if wide then 2 ^ 32 * hi else 0)
    some (v, if 8 < r.bytes && a = r.base then { m with que.latches := kput m.que.latches (latchKey w r.base) r.val } else m)

end Sys2Proof.Machine
end

