-- ==== Sys2Proof/Machine/RegWrite.lean ====
section
/-! DEFINITION. Writes of registers (R19, R20, R391, R556): which take effect, from whom and when, and the value that is stored. -/

namespace Sys2Proof.Machine

open Sys2Proof

/-- Whether a partition that is not OFF has an object whose span includes tier `k` (R302, R348). -/
def Module.spans (m : Module) (k : Nat) : Bool := m.tier.objects.any (fun e => e.2.fast ≤ k && k ≤ e.2.slow)

/-- Whether a partition is RUNNING or DRAINING (R348, R382). -/
def Module.anyActive (m : Module) : Bool := (List.range 16).any (fun p => m.active p)

/-- Bits [w - 1 : lo] of a value, in place; the others read as 0. -/
def keepBits (v lo w : Nat) : Nat := put lo (w - lo) (fld v lo (w - lo))

/-- A write of the JIG_ block (R265). -/
def Module.writeJig (m : Module) (src : Source) (o v : Nat) : Module :=
  if o = 0x20 then
    (match v % 8 with
    | 1 => doStart src m
    | 2 => doArmFabric src m
    | 4 => doDisarm src m
    | _ => m)
  else if !m.cfgOk src then m
  else if o = 0x8 then { m with jig.addr := v }
  else if o = 0x10 then { m with jig.len := v }
  else if o = 0x18 then { m with jig.fabricId := v }
  else m

/-- A write of the TIER_ block: from the lease holder only (R301, R302). -/
def Module.writeTier (m : Module) (src : Source) (o v : Nat) : Module :=
  if !m.holderOk src then m
  else if o = 0x18 then if m.spans 2 then m else { m with tier.t2Base := keepBits v 21 64 }
  else if o = 0x20 then if m.spans 2 then m else { m with tier.t2Pages := min 16_777_216 (fld v 0 25) }
  else if o = 0x28 then if m.spans 3 then m else { m with tier.poolBase := keepBits v 21 64 }
  else if o = 0x30 then if m.spans 3 then m else { m with tier.poolPages := min 16_777_216 (fld v 0 25) }
  else if o = 0x38 then
    { m with tier.migrate := put 0 32 v + put 32 16 (max 1 (fld v 32 16)) + put 48 12 (max 1 (fld v 48 12)) + put 60 1 (fld v 60 1) }
  else if o = 0x40 then { m with tier.lowWater := fld v 0 32 }
  else if o = 0x48 then { m with tier.query := fld v 0 56 }
  else m

/-- A write of the STR_ block: from the lease holder only (R348). -/
def Module.writeStr (m : Module) (src : Source) (o v : Nat) : Module :=
  if !m.holderOk src then m
  else if o = 0x8 then if m.anyActive || fld v 0 16 < 0x600 then m else { m with str.ethertype := fld v 0 16 }
  else if o = 0xC then
    if m.anyActive then m else { m with str.timeouts := put 0 16 (max 21 (fld v 0 16)) + put 16 16 (fld v 16 16) }
  else if o = 0x10 then { m with str.bypass := put 0 16 (max 1 (fld v 0 16)) + put 16 10 (fld v 16 10) }
  else if o = 0x18 then if m.spans 3 then m else { m with str.poolMac := fld v 0 48 }
  else if o = 0x20 then if m.spans 3 then m else { m with str.poolPorts := fld v 0 48 }
  else m

/-- A write of the FAB_ block: from the lease holder only, and with no partition RUNNING or DRAINING (R382). -/
def Module.writeFab (m : Module) (src : Source) (o v : Nat) : Module :=
  if !m.holderOk src || m.anyActive then m
  else if o = 0x18 then { m with fab.vlan := fld v 0 12 }
  else if o = 0x1C then if fld v 0 16 < 0x600 then m else { m with fab.herdType := fld v 0 16 }
  else if o = 0x20 then { m with fab.timers := put 0 16 (max 1 (fld v 0 16)) + put 16 16 (max 1 (fld v 16 16)) }
  else m

/-- A write of one register of queue `q`: the first four only while it is DISABLED (R395). -/
def Module.writeQueue (m : Module) (src : Source) (q k v : Nat) : Module :=
  let x := m.queue q
  if k = 28 then
    (match v % 4 with
    | 1 => doEnable src q m
    | 2 => doDisable src q m
    | _ => m)
  else if !m.cfgOk src || x.st ≠ .disabled then m
  else if k = 0 then m.setQueue q { x with sqBase := put 0 1 v + keepBits v 12 64 }
  else if k = 8 then m.setQueue q { x with cqBase := keepBits v 12 64 }
  else if k = 16 then m.setQueue q { x with tailAddr := fld v 0 56 }
  else if k = 24 then m.setQueue q { x with cfg := put 0 5 v + put 8 5 (fld v 8 5) + put 16 1 (fld v 16 1) }
  else m

/-- A write of a part of QUE_MODEL; VALID follows a write of ENABLE (R413). -/
def Module.writeModel (m : Module) (src : Source) (i v mask : Nat) : Module :=
  let st := (m.part (i / 16)).st
  if bitAt mask 80 then doModelBind src (i / 16) (i % 16) (BitVec.ofNat 128 v) m
  else if !m.cfgOk src || (st ≠ .ready && st ≠ .halted) then m
  else m.setModel i { m.model i with reg := v &&& modelMask }

/-- A write of the QUE_ block. -/
def Module.writeQue (m : Module) (src : Source) (o v mask : Nat) : Module :=
  if o = 0x10 then if m.cfgOk src then { m with que.cxl.failoverEn := bitAt v 0 } else m
  else
    match arrayAt o 0x200 16 256, arrayAt o 0x2000 4 1024, arrayAt o 0x1_0000 64 1024 with
    | some (i, _), _, _ => m.writeModel src i v mask
    | _, some (i, _), _ => m.writeFence (i / 64) (i % 64) v
    | _, _, some (q, k) => m.writeQueue src q k v
    | _, _, _ => m

/-- A doorbell: never a configuration write (R396). -/
def Module.writeDoor (m : Module) (src : Source) (o v : Nat) : Module :=
  let q := o / 4096
  if o % 4096 = 0 then doQueSqTail q (BitVec.ofNat 32 v) m
  else if o % 4096 = 4 then doQueCqHead q (BitVec.ofNat 32 v) m
  else if o % 4096 = 8 then
    (match v % 4 with
    | 1 => doSkip src q m
    | 2 => doRetry src q m
    | _ => m)
  else m

/-- Whether every partition's kerf PHASE is IDLE. -/
def Module.kerfsIdle (m : Module) : Bool := m.parts.all (fun e => e.2.krf.phase = .idle)

/-- A write of the KRF_ block: from the lease holder only (R450). -/
def Module.writeKrf (m : Module) (src : Source) (o v : Nat) : Module :=
  if o = 0x20 then doServe src (BitVec.ofNat 64 v) m
  else if !m.holderOk src then m
  else if o = 0x8 then if m.kerfsIdle then { m with launch.poolBase := keepBits v 16 64 } else m
  else if o = 0x10 then if m.kerfsIdle then { m with launch.poolBytes := keepBits v 16 64 } else m
  else if o = 0x18 then { m with launch.limits := max 1 (fld v 0 16) }
  else if m.jig.phase = .staging || m.jig.phase = .armed then m
  else if o = 0x28 then { m with launch.parent := fld v 0 48 }
  else if o = 0x30 then { m with launch.grand := fld v 0 48 }
  else m

/-- A write of the PWR_ block (R484); DROOP_CAP_DKW is clamped as CAP_DKW is. -/
def Module.writePwr (m : Module) (src : Source) (o v : Nat) : Module :=
  if o = 0x8 then doPwrCap src (BitVec.ofNat 64 v) m
  else if o = 0x10 then doPwrMgrHeartbeat src (BitVec.ofNat 64 v) m
  else if o = 0x1C && m.holderOk src then { m with pwr.ctrl := put 0 1 v + put 8 9 (clampCap (fld v 8 9)) }.recap
  else m

/-- A write of the AOS_ block (R521, R522); `raw` holds the bits written. -/
def Module.writeAos (m : Module) (src : Source) (o v raw : Nat) : Module :=
  if o = 0x10 then doAosLeaseClaim src (BitVec.ofNat 64 v) m
  else if o = 0x40 then doIrqStatusClear src (BitVec.ofNat 64 raw) m
  else if o = 0x44 then { m with sup.irqEn := fld v 0 7 }
  else m

/-- A write of the SEC_ block (R541). A command that takes input holds SEC_CMD_STATUS until its own row brings the
input (log 86). -/
def Module.writeSec (m : Module) (src : Source) (o v : Nat) : Module :=
  if o = 0x78 then if m.holderOk src then { m with sec.quoteLimit := min 1_024 (max 1 (fld v 0 11)) } else m
  else if o = 0x80 then { m with sec.cmdAddr := keepBits v 6 64 }
  else if o = 0x88 then { m with sec.cmdLen := fld v 0 26 }
  else if o = 0x8C then
    let op := fld v 0 4
    if op = 1 || op = 2 || op = 4 || op = 7 then m.secHold op else m.secRun (.bar src) op []
  else m

/-- A write of the MOD_ block: a write of MOD_CTRL with both bits does nothing (R267). -/
def Module.writeMod (m : Module) (src : Source) (o v : Nat) : Module :=
  if o ≠ 0x1C then m
  else
    match v % 4 with
    | 1 => doEnterRecovery src m
    | 2 => doLeaveService src m
    | _ => m

/-- A write of the ENG_ block (R97, R122). -/
def Module.writeEng (m : Module) (o v raw : Nat) : Module :=
  if o = 0x420 then { m with topo.fuseSel := fld v 0 15 }
  else
    match arrayAt o 0x100 16 16 with
    | some (p, k) => if k = 8 then doEngTagSummaryClear p (BitVec.ofNat 64 raw) m else m
    | none => m

/-- A register at `base` takes a value `v`, of which the bits of `mask` were written; RO and RWJ registers ignore it. -/
def Module.putReg (m : Module) (src : Source) (base v mask : Nat) : Module :=
  let o := base % 0x10_0000
  let b := base / 0x10_0000
  if bar2 ≤ base then m.writeDoor src (base - bar2) v
  else if b = 0 then m.writeMod src o v
  else if b = 14 then m.writeSec src o v
  else if !m.mmpRuns then m
  else
    match b with
    | 1 => m.writeEng o v (v &&& mask)
    | 3 => m.writeJig src o v
    | 4 => m.writeTier src o v
    | 5 => m.writeStr src o v
    | 6 => m.writeFab src o v
    | 8 => m.writeQue src o v mask
    | 9 => m.writeKrf src o v
    | 10 => m.writePwr src o v
    | 12 => m.writeAos src o v (v &&& mask)
    | _ => m

/-- `n` bytes written at address `a`, within one register: the register's other bytes keep their value. -/
def Module.writeBytesAt (m : Module) (src : Source) (a n v : Nat) : Module :=
  let r := m.regOf a
  let sh := 8 * (a - r.base)
  let mask := put sh (8 * n) (2 ^ (8 * n) - 1)
  let old := (List.range r.bytes).foldl (fun x i =>
    if sh / 8 ≤ i && i < sh / 8 + n then x else x + put (8 * i) 8 (fld r.val (8 * i) 8)) 0
  m.putReg src r.base (old + put sh (8 * n) v) mask

/-- Whether a source can write registers: the host, or an MMP that runs. -/
def Module.canWrite (m : Module) (src : Source) : Bool :=
  match src with
  | .host => m.sys.st ≠ .cold
  | .mmpA => m.sup.a.runs
  | .mmpB => m.sup.b.runs

/-- REGISTER_WRITE: a write of 4 B or 8 B, naturally aligned, in BAR0 or in the doorbell pages (from 64 MiB on); one of 8 B may
cover two registers. -/
def doRegisterWrite (src : Source) (offset : Nat) (wide : Bool) (v : Reg64) (m : Module) : Module :=
  if offset % (if wide then 8 else 4) ≠ 0 || bar2 + 0x40_0000 ≤ offset || !m.canWrite src then m
  else if !wide then m.writeBytesAt src offset 4 (fld v.toNat 0 32)
  else
    let r := m.regOf offset
    if offset + 8 ≤ r.base + r.bytes then m.writeBytesAt src offset 8 v.toNat
    else (m.writeBytesAt src offset 4 (fld v.toNat 0 32)).writeBytesAt src (offset + 4) 4 (fld v.toNat 32 32)

end Sys2Proof.Machine
end

