-- ==== Sys2Proof/Machine/Meanings.lean ====
section
/-! DEFINITION. The meanings of the commands whose effects the family files define: each is its operation on the module inside the
frame of every command (`onModule`). Those of the core's instructions stand in CoreIssue.lean and TaskStart.lean. -/

namespace Sys2Proof.Machine

open Sys2Proof

/-- With no command waiting one sk passes, and what waited for the next sk goes on (log 4). -/
def idleStep (s : State) : Host.Outcome State Fault Refusal := onModule (tick s) Module.skBegins

/-- REGISTER_WRITE (R19). -/
def execRegisterWrite (src : Source) (offset : Nat) (wide : Bool) (v : Reg64) (s : State) : Host.Outcome State Fault Refusal :=
  onModule s (doRegisterWrite src offset wide v)
/-- PACKET_DELIVERY (R217). -/
def execPacketDelivery (site : Nat) (route : Nat) (w : WireFinding) (s : State) : Host.Outcome State Fault Refusal :=
  onModule s (doPacketDelivery site route w)
/-- CREDIT_PACKET (R215). -/
def execCreditPacket (site : Nat) (route : Nat) (w : WireFinding) (s : State) : Host.Outcome State Fault Refusal :=
  onModule s (doCreditPacket site route w)
/-- START (R252). -/
def execStart (src : Source) (s : State) : Host.Outcome State Fault Refusal := onModule s (doStart src)
/-- ARM_FABRIC (R252). -/
def execArmFabric (src : Source) (s : State) : Host.Outcome State Fault Refusal := onModule s (doArmFabric src)
/-- DISARM (R252). -/
def execDisarm (src : Source) (s : State) : Host.Outcome State Fault Refusal := onModule s (doDisarm src)
/-- STAGING_COMPLETE (R254). -/
def execStagingComplete (bytes : Bytes) (s : State) : Host.Outcome State Fault Refusal :=
  onModule s (doStagingComplete bytes)
/-- CHECKING_COMPLETE (R260). -/
def execCheckingComplete (s : State) : Host.Outcome State Fault Refusal := onModule s doCheckingComplete
/-- WRITING_COMPLETE (R256). -/
def execWritingComplete (s : State) : Host.Outcome State Fault Refusal := onModule s doWritingComplete
/-- PARTITION_READY (R258). -/
def execPartitionReady (s : State) : Host.Outcome State Fault Refusal := onModule s doPartitionReady
/-- DRAIN_LIMIT_EXPIRY (R262). -/
def execDrainLimitExpiry (p : Nat) (s : State) : Host.Outcome State Fault Refusal := onModule s (doDrainLimitExpiry p)
/-- ENTER_RECOVERY (R264). -/
def execEnterRecovery (src : Source) (s : State) : Host.Outcome State Fault Refusal := onModule s (doEnterRecovery src)
/-- LEAVE_SERVICE (R264). -/
def execLeaveService (src : Source) (s : State) : Host.Outcome State Fault Refusal := onModule s (doLeaveService src)
/-- READ (R280). -/
def execRead (die : Nat) (route : ReadInput) (s : State) : Host.Outcome State Fault Refusal :=
  onModule s (doRead die route.route route.found)
/-- WRITE (R280). -/
def execWrite (die : Nat) (route : Nat) (s : State) : Host.Outcome State Fault Refusal :=
  onModule s (doWrite die route)
/-- WRITE_DONE (R281). -/
def execWriteDone (c : Nat) (route : Nat) (s : State) : Host.Outcome State Fault Refusal :=
  onModule s (doWriteDone c route)
/-- EPOCH_END (R285). -/
def execEpochEnd (die : Nat) (s : State) : Host.Outcome State Fault Refusal := onModule s (doEpochEnd die)
/-- MOVE_TILE_COPIED (R287). -/
def execMoveTileCopied (page : Nat) (failed : CopyInput) (s : State) : Host.Outcome State Fault Refusal :=
  onModule s (doMoveTileCopied page failed.failed failed.found)
/-- MOVE_COMPLETE (R287). -/
def execMoveComplete (page : Nat) (s : State) : Host.Outcome State Fault Refusal := onModule s (doMoveComplete page)
/-- ECC_WRITEBACK (R297). -/
def execEccWriteback (c : Nat) (word : Nat) (s : State) : Host.Outcome State Fault Refusal :=
  onModule s (doEccWriteback c word)
/-- T0_SCRUB (R299). -/
def execT0Scrub (c : Nat) (word : Nat) (f : EccFinding) (s : State) : Host.Outcome State Fault Refusal :=
  onModule s (doT0Scrub c word f)
/-- T1_SCRUB (R299). -/
def execT1Scrub (die : Nat) (stack : Nat) (row : Nat) (idx : Nat) (word : Place) (f : EccFinding) (s : State) : Host.Outcome State Fault Refusal :=
  onModule s (doT1Scrub die stack row idx word f)
/-- T1_REFRESH (R299). -/
def execT1Refresh (stack : Nat) (s : State) : Host.Outcome State Fault Refusal := onModule s (doT1Refresh stack)
/-- ACTIVATION_GUARD (R501). -/
def execActivationGuard (stack : Nat) (row : Nat) (s : State) : Host.Outcome State Fault Refusal :=
  onModule s (doActivationGuard stack row)
/-- TARGETED_SELF_TEST (R300). -/
def execTargetedSelfTest (loc : EccLoc) (failed : Bool) (s : State) : Host.Outcome State Fault Refusal :=
  onModule s (doTargetedSelfTest loc failed)
/-- PSP_PULL (R338). -/
def execPspPull (port : Nat) (mac : Nat) (msg : Bytes) (s : State) : Host.Outcome State Fault Refusal :=
  onModule s (doPspPull port mac msg)
/-- DATA (R311). -/
def execData (k : Chunk) (s : State) : Host.Outcome State Fault Refusal := onModule s (doData k)
/-- STATUS (R311). -/
def execStatus (port : Nat) (mac : Nat) (msg : Bytes) (s : State) : Host.Outcome State Fault Refusal :=
  onModule s (doStatus port mac msg)
/-- POOL_DATA (R313). -/
def execPoolData (k : Chunk) (s : State) : Host.Outcome State Fault Refusal := onModule s (doPoolData k)
/-- POOL_ACK (R313). -/
def execPoolAck (port : Nat) (mac : Nat) (msg : Bytes) (s : State) : Host.Outcome State Fault Refusal :=
  onModule s (doPoolAck port mac msg)
/-- GRAD_ACK (R346). -/
def execGradAck (port : Nat) (mac : Nat) (msg : Bytes) (s : State) : Host.Outcome State Fault Refusal :=
  onModule s (doGradAck port mac msg)
/-- STAGE_PULL_ISSUE (R322). -/
def execStagePullIssue (p : Nat) (flow : Nat) (sect : Nat) (s : State) : Host.Outcome State Fault Refusal :=
  onModule s (doStagePullIssue p flow sect)
/-- PULL_RESEND (R312). -/
def execPullResend (p : Nat) (flow : Nat) (idx : Nat) (s : State) : Host.Outcome State Fault Refusal :=
  onModule s (doPullResend p flow idx)
/-- SOURCE_TIMEOUT (R311). -/
def execSourceTimeout (p : Nat) (flow : Nat) (s : State) : Host.Outcome State Fault Refusal :=
  onModule s (doSourceTimeout p flow)
/-- GRAD_ACK_TIMEOUT (R346). -/
def execGradAckTimeout (p : Nat) (flow : Nat) (s : State) : Host.Outcome State Fault Refusal :=
  onModule s (doGradAckTimeout p flow)
/-- POOL_TIMEOUT (R313). -/
def execPoolTimeout (port : Nat) (s : State) : Host.Outcome State Fault Refusal := onModule s (doPoolTimeout port)
/-- REPARENT (R340). -/
def execReparent (p : Nat) (flow : Nat) (s : State) : Host.Outcome State Fault Refusal :=
  onModule s (doReparent p flow)
/-- CHILD_SILENT (R339). -/
def execChildSilent (p : Nat) (flow : Nat) (child : Nat) (s : State) : Host.Outcome State Fault Refusal :=
  onModule s (doChildSilent p flow child)
/-- ADOPT_HOLD_EXPIRY (R339). -/
def execAdoptHoldExpiry (p : Nat) (flow : Nat) (child : Nat) (s : State) : Host.Outcome State Fault Refusal :=
  onModule s (doAdoptHoldExpiry p flow child)
/-- WINDOW_PULL (R327). -/
def execWindowPull (die : Nat) (route : Nat) (load : FeederLoad) (s : State) : Host.Outcome State Fault Refusal :=
  onModule s (doWindowPull die route load)
/-- UNIT_ARRIVAL (R323). -/
def execUnitArrival (c : Nat) (route : Nat) (s : State) : Host.Outcome State Fault Refusal :=
  onModule s (doUnitArrival c route)
/-- MISS (R336). -/
def execMiss (site : Nat) (route : Nat) (s : State) : Host.Outcome State Fault Refusal :=
  onModule s (doMiss site route)
/-- SWITCH (R336). -/
def execSwitch (c : Nat) (route : Nat) (s : State) : Host.Outcome State Fault Refusal := onModule s (doSwitch c route)
/-- FRAME_RECEIVE (R353). -/
def execFrameReceive (port : Nat) (frame : Bytes) (s : State) : Host.Outcome State Fault Refusal :=
  onModule s (doFrameReceive port frame)
/-- LINK_DOWN (R354). -/
def execLinkDown (port : Nat) (localFault : Bool) (remoteFault : Bool) (s : State) : Host.Outcome State Fault Refusal :=
  onModule s (doLinkDown port localFault remoteFault)
/-- LINK_UP (R354). -/
def execLinkUp (port : Nat) (s : State) : Host.Outcome State Fault Refusal := onModule s (doLinkUp port)
/-- VC0_BUDGET_INTERVAL (R356). -/
def execVc0BudgetInterval (port : Nat) (s : State) : Host.Outcome State Fault Refusal :=
  onModule s (doVc0BudgetInterval port)
/-- CHUNK_SEGMENT (R361). -/
def execChunkSegment (port : Nat) (mac : Nat) (msg : Bytes) (s : State) : Host.Outcome State Fault Refusal :=
  onModule s (doChunkSegment port mac msg)
/-- GAP_TIMEOUT (R361). -/
def execGapTimeout (port : Nat) (idx : Nat) (s : State) : Host.Outcome State Fault Refusal :=
  onModule s (doGapTimeout port idx)
/-- ACK (R363). -/
def execAck (port : Nat) (mac : Nat) (msg : Bytes) (s : State) : Host.Outcome State Fault Refusal :=
  onModule s (doAck port mac msg)
/-- NAK (R363). -/
def execNak (port : Nat) (mac : Nat) (msg : Bytes) (s : State) : Host.Outcome State Fault Refusal :=
  onModule s (doNak port mac msg)
/-- WAIT_ANSWER (R363). -/
def execWaitAnswer (port : Nat) (mac : Nat) (msg : Bytes) (s : State) : Host.Outcome State Fault Refusal :=
  onModule s (doWaitAnswer port mac msg)
/-- ACK_TIMEOUT (R363). -/
def execAckTimeout (idx : Nat) (s : State) : Host.Outcome State Fault Refusal := onModule s (doAckTimeout idx)
/-- HERD_RUN (R371). -/
def execHerdRun (q : Nat) (s : State) : Host.Outcome State Fault Refusal := onModule s (doHerdRun q)
/-- HERD_DEADLINE_EXPIRY (R376). -/
def execHerdDeadlineExpiry (p : Nat) (herd : Nat) (stage : Nat) (chunk : Nat) (s : State) : Host.Outcome State Fault Refusal :=
  onModule s (doHerdDeadlineExpiry p herd stage chunk)
/-- RESULT_DEADLINE_EXPIRY (R378). -/
def execResultDeadlineExpiry (p : Nat) (herd : Nat) (chunk : Nat) (s : State) : Host.Outcome State Fault Refusal :=
  onModule s (doResultDeadlineExpiry p herd chunk)
/-- LOST (R378). -/
def execLost (port : Nat) (mac : Nat) (msg : Bytes) (s : State) : Host.Outcome State Fault Refusal :=
  onModule s (doLost port mac msg)
/-- HERD_ABORT (R379). -/
def execHerdAbort (port : Nat) (mac : Nat) (msg : Bytes) (s : State) : Host.Outcome State Fault Refusal :=
  onModule s (doHerdAbort port mac msg)
/-- CXL_LINK_DOWN (R389). -/
def execCxlLinkDown (s : State) : Host.Outcome State Fault Refusal := onModule s doCxlLinkDown
/-- CXL_LINK_UP (R389). -/
def execCxlLinkUp (width : Nat) (speed : Nat) (s : State) : Host.Outcome State Fault Refusal :=
  onModule s (doCxlLinkUp width speed)
/-- FAILOVER (R388). -/
def execFailover (trained : Bool) (width : Nat) (speed : Nat) (s : State) : Host.Outcome State Fault Refusal :=
  onModule s (doFailover trained width speed)
/-- ENABLE (R394). -/
def execEnable (src : Source) (q : Nat) (s : State) : Host.Outcome State Fault Refusal := onModule s (doEnable src q)
/-- DISABLE (R394). -/
def execDisable (src : Source) (q : Nat) (s : State) : Host.Outcome State Fault Refusal := onModule s (doDisable src q)
/-- QUE_SQ_TAIL (R396). -/
def execQueSqTail (q : Nat) (v : Word) (s : State) : Host.Outcome State Fault Refusal := onModule s (doQueSqTail q v)
/-- QUE_CQ_HEAD (R396). -/
def execQueCqHead (q : Nat) (v : Word) (s : State) : Host.Outcome State Fault Refusal := onModule s (doQueCqHead q v)
/-- SKIP (R400). -/
def execSkip (src : Source) (q : Nat) (s : State) : Host.Outcome State Fault Refusal := onModule s (doSkip src q)
/-- RETRY (R400). -/
def execRetry (src : Source) (q : Nat) (s : State) : Host.Outcome State Fault Refusal := onModule s (doRetry src q)
/-- TAIL_WORD_POLL (R393). -/
def execTailWordPoll (q : Nat) (s : State) : Host.Outcome State Fault Refusal := onModule s (doTailWordPoll q)
/-- DESCRIPTOR_ENTRY (R400). -/
def execDescriptorEntry (q : Nat) (hostDesc : Bytes) (hostData : Bytes) (s : State) : Host.Outcome State Fault Refusal :=
  onModule s (doDescriptorEntry q hostDesc hostData)
/-- FENCE_WAIT_SATISFIED (R399). -/
def execFenceWaitSatisfied (q : Nat) (s : State) : Host.Outcome State Fault Refusal :=
  onModule s (doFenceWaitSatisfied q)
/-- QUEUE_NOP (R398). -/
def execQueueNop (q : Nat) (s : State) : Host.Outcome State Fault Refusal := onModule s (doQueueNop q)
/-- PART_START (R405). -/
def execPartStart (q : Nat) (s : State) : Host.Outcome State Fault Refusal := onModule s (doPartStart q)
/-- TASK_RUN (R405). -/
def execTaskRun (q : Nat) (s : State) : Host.Outcome State Fault Refusal := onModule s (doTaskRun q)
/-- PART_DRAIN (R398). -/
def execPartDrain (q : Nat) (s : State) : Host.Outcome State Fault Refusal := onModule s (doPartDrain q)
/-- PART_UNLOAD (R398). -/
def execPartUnload (q : Nat) (s : State) : Host.Outcome State Fault Refusal := onModule s (doPartUnload q)
/-- COPY_IN (R407). -/
def execCopyIn (q : Nat) (host : Bytes) (s : State) : Host.Outcome State Fault Refusal := onModule s (doCopyIn q host)
/-- COPY_OUT (R407). -/
def execCopyOut (q : Nat) (s : State) : Host.Outcome State Fault Refusal := onModule s (doCopyOut q)
/-- SESSION_OPEN (R412). -/
def execSessionOpen (q : Nat) (s : State) : Host.Outcome State Fault Refusal := onModule s (doSessionOpen q)
/-- SESSION_SUBMIT (R412). -/
def execSessionSubmit (q : Nat) (s : State) : Host.Outcome State Fault Refusal := onModule s (doSessionSubmit q)
/-- SESSION_CLOSE (R412). -/
def execSessionClose (q : Nat) (s : State) : Host.Outcome State Fault Refusal := onModule s (doSessionClose q)
/-- TASK_END (R405). -/
def execTaskEnd (p : EndInput) (s : State) : Host.Outcome State Fault Refusal :=
  onModule s (doTaskEnd p.part p.sessions p.owner)
/-- COMPLETION_WRITE (R403). -/
def execCompletionWrite (q : Nat) (s : State) : Host.Outcome State Fault Refusal := onModule s (doCompletionWrite q)
/-- MSIX_DEFER_EXPIRY (R403). -/
def execMsixDeferExpiry (q : Nat) (s : State) : Host.Outcome State Fault Refusal := onModule s (doMsixDeferExpiry q)
/-- MODEL_BIND (R413). -/
def execModelBind (src : Source) (p : Nat) (idx : Nat) (v : BitVec 128) (s : State) : Host.Outcome State Fault Refusal :=
  onModule s (doModelBind src p idx v)
/-- BATCHER_VISIT (R414). -/
def execBatcherVisit (s : State) : Host.Outcome State Fault Refusal := onModule s doBatcherVisit
/-- BATCH_RESULT (R417). -/
def execBatchResult (p : Nat) (idx : Nat) (s : State) : Host.Outcome State Fault Refusal :=
  onModule s (doBatchResult p idx)
/-- KRF_TAKE (R425). -/
def execKrfTake (q : Nat) (s : State) : Host.Outcome State Fault Refusal := onModule s (doKrfTake q)
/-- CUT (R426). -/
def execCut (p : Nat) (s : State) : Host.Outcome State Fault Refusal := onModule s (doCut p)
/-- QUIET_TIMEOUT (R428). -/
def execQuietTimeout (p : Nat) (s : State) : Host.Outcome State Fault Refusal := onModule s (doQuietTimeout p)
/-- DUMP_END (R429). -/
def execDumpEnd (p : Nat) (s : State) : Host.Outcome State Fault Refusal := onModule s (doDumpEnd p)
/-- KRF_RESTORE (R439). -/
def execKrfRestore (q : Nat) (host : Bytes) (s : State) : Host.Outcome State Fault Refusal :=
  onModule s (doKrfRestore q host)
/-- SERVE (R446). -/
def execServe (src : Source) (v : Reg64) (s : State) : Host.Outcome State Fault Refusal := onModule s (doServe src v)
/-- LAUNCH_DATA (R447). -/
def execLaunchData (k : Chunk) (s : State) : Host.Outcome State Fault Refusal := onModule s (doLaunchData k)
/-- LAUNCH_REPARENT (R448). -/
def execLaunchReparent (s : State) : Host.Outcome State Fault Refusal := onModule s doLaunchReparent
/-- AOS_SAMPLE (R458). -/
def execAosSample (reading : Reading) (s : State) : Host.Outcome State Fault Refusal :=
  onModule s (doAosSample reading)
/-- PHASE_FAULT (R459). -/
def execPhaseFault (die : Nat) (phase : Nat) (s : State) : Host.Outcome State Fault Refusal :=
  onModule s (doPhaseFault die phase)
/-- BRICK_FAULT (R454). -/
def execBrickFault (brick : Nat) (s : State) : Host.Outcome State Fault Refusal := onModule s (doBrickFault brick)
/-- EFUSE_TRIP (R460). -/
def execEfuseTrip (die : Nat) (s : State) : Host.Outcome State Fault Refusal := onModule s (doEfuseTrip die)
/-- RING_EFUSE_TRIP (R461). -/
def execRingEfuseTrip (group : Nat) (s : State) : Host.Outcome State Fault Refusal :=
  onModule s (doRingEfuseTrip group)
/-- POWER_GOOD (R455). -/
def execPowerGood (s : State) : Host.Outcome State Fault Refusal := onModule s doPowerGood
/-- MESH_LOCK (R463). -/
def execMeshLock (s : State) : Host.Outcome State Fault Refusal := onModule s doMeshLock
/-- LOCK_FAULT (R464). -/
def execLockFault (c : Nat) (s : State) : Host.Outcome State Fault Refusal := onModule s (doLockFault c)
/-- CLUSTER_WAKE (R469). -/
def execClusterWake (cl : Nat) (s : State) : Host.Outcome State Fault Refusal := onModule s (doClusterWake cl)
/-- WAKE_DEFERRAL_EXPIRY (R470). -/
def execWakeDeferralExpiry (cl : Nat) (s : State) : Host.Outcome State Fault Refusal :=
  onModule s (doWakeDeferralExpiry cl)
/-- FAST_SHED (R473). -/
def execFastShed (s : State) : Host.Outcome State Fault Refusal := onModule s doFastShed
/-- SHED_RELEASE (R475). -/
def execShedRelease (s : State) : Host.Outcome State Fault Refusal := onModule s doShedRelease
/-- PWR_CAP (R480). -/
def execPwrCap (src : Source) (v : Reg64) (s : State) : Host.Outcome State Fault Refusal := onModule s (doPwrCap src v)
/-- PWR_MGR_HEARTBEAT (R480). -/
def execPwrMgrHeartbeat (src : Source) (v : Reg64) (s : State) : Host.Outcome State Fault Refusal :=
  onModule s (doPwrMgrHeartbeat src v)
/-- MANAGER_LOST (R480). -/
def execManagerLost (b : Bool) (s : State) : Host.Outcome State Fault Refusal := onModule s (doManagerLost b)
/-- HELD_CAP_EXPIRY (R471). -/
def execHeldCapExpiry (s : State) : Host.Outcome State Fault Refusal := onModule s doHeldCapExpiry
/-- OVERVOLTAGE (R477). -/
def execOvervoltage (s : State) : Host.Outcome State Fault Refusal := onModule s doOvervoltage
/-- INPUT_COLLAPSE (R477). -/
def execInputCollapse (s : State) : Host.Outcome State Fault Refusal := onModule s doInputCollapse
/-- DROOP_CLEAR (R477). -/
def execDroopClear (s : State) : Host.Outcome State Fault Refusal := onModule s doDroopClear
/-- DROOP_SEQUENCE (R478). -/
def execDroopSequence (s : State) : Host.Outcome State Fault Refusal := onModule s doDroopSequence
/-- DROOP_POWER_OFF (R478). -/
def execDroopPowerOff (s : State) : Host.Outcome State Fault Refusal := onModule s doDroopPowerOff
/-- THERMAL_TRIP (R482). -/
def execThermalTrip (die : Nat) (s : State) : Host.Outcome State Fault Refusal := onModule s (doThermalTrip die)
/-- AOS_WATCHDOG (R489). -/
def execAosWatchdog (s : State) : Host.Outcome State Fault Refusal := onModule s doAosWatchdog
/-- MMP_FAILED (R491). -/
def execMmpFailed (b : Bool) (s : State) : Host.Outcome State Fault Refusal := onModule s (doMmpFailed b)
/-- MMP_RESTART (R491). -/
def execMmpRestart (b : Bool) (s : State) : Host.Outcome State Fault Refusal := onModule s (doMmpRestart b)
/-- HEARTBEAT (R494). -/
def execHeartbeat (d : BitVec 256) (s : State) : Host.Outcome State Fault Refusal := onModule s (doHeartbeat d)
/-- GRANT (R495). -/
def execGrant (d : BitVec 256) (s : State) : Host.Outcome State Fault Refusal := onModule s (doGrant d)
/-- CAP (R494). -/
def execCap (d : BitVec 256) (s : State) : Host.Outcome State Fault Refusal := onModule s (doCap d)
/-- AOS_LEASE_CLAIM (R495). -/
def execAosLeaseClaim (src : Source) (v : Reg64) (s : State) : Host.Outcome State Fault Refusal :=
  onModule s (doAosLeaseClaim src v)
/-- CLAIM_WINDOW_END (R495). -/
def execClaimWindowEnd (s : State) : Host.Outcome State Fault Refusal := onModule s doClaimWindowEnd
/-- LEASE_EXPIRY (R496). -/
def execLeaseExpiry (s : State) : Host.Outcome State Fault Refusal := onModule s doLeaseExpiry
/-- SHED_LEVEL_PERIOD (R499). -/
def execShedLevelPeriod (b : Bool) (busy : Nat) (s : State) : Host.Outcome State Fault Refusal :=
  onModule s (doShedLevelPeriod b busy)
/-- ENGINE_SELF_TEST (R502). -/
def execEngineSelfTest (c : Nat) (f : TestFinding) (s : State) : Host.Outcome State Fault Refusal :=
  onModule s (doEngineSelfTest c f)
/-- OSCILLATOR_CALIBRATION (R501). -/
def execOscillatorCalibration (s : State) : Host.Outcome State Fault Refusal := onModule s doOscillatorCalibration
/-- LINK_CALIBRATION (R501). -/
def execLinkCalibration (found : List LinkFinding) (s : State) : Host.Outcome State Fault Refusal :=
  onModule s (doLinkCalibration found)
/-- AGING_MONITOR_READ (R501). -/
def execAgingMonitorRead (raises : Pairs) (s : State) : Host.Outcome State Fault Refusal :=
  onModule s (doAgingMonitorRead raises)
/-- TELEMETRY_EXPORT (R501). -/
def execTelemetryExport (s : State) : Host.Outcome State Fault Refusal := onModule s doTelemetryExport
/-- LOG_FLUSH (R501). -/
def execLogFlush (s : State) : Host.Outcome State Fault Refusal := onModule s doLogFlush
/-- BRINGUP_STAGE (R504). -/
def execBringupStage (f : StageFinding) (s : State) : Host.Outcome State Fault Refusal := onModule s (doBringupStage f)
/-- CORE_FAILED (R507). -/
def execCoreFailed (c : Nat) (det : CoreDetector) (s : State) : Host.Outcome State Fault Refusal :=
  onModule s (doCoreFailed c det)
/-- SERVICE_DIE_FAIL (R47). -/
def execServiceDieFail (die : Nat) (s : State) : Host.Outcome State Fault Refusal := onModule s (doServiceDieFail die)
/-- TIME (R514). -/
def execTime (frame : BitVec 160) (s : State) : Host.Outcome State Fault Refusal := onModule s (doTime frame)
/-- CAP_FRAME (R512). -/
def execCapFrame (frame : BitVec 160) (s : State) : Host.Outcome State Fault Refusal := onModule s (doCapFrame frame)
/-- COOLANT (R479). -/
def execCoolant (frame : BitVec 160) (s : State) : Host.Outcome State Fault Refusal := onModule s (doCoolant frame)
/-- HERD_STOP (R513). -/
def execHerdStop (frame : BitVec 160) (s : State) : Host.Outcome State Fault Refusal := onModule s (doHerdStop frame)
/-- LOOP_TIMEOUT (R512). -/
def execLoopTimeout (s : State) : Host.Outcome State Fault Refusal := onModule s doLoopTimeout
/-- TRAY_CAP_LAPSE (R512). -/
def execTrayCapLapse (s : State) : Host.Outcome State Fault Refusal := onModule s doTrayCapLapse
/-- LOG_WRITE (R518). -/
def execLogWrite (s : State) : Host.Outcome State Fault Refusal := onModule s doLogWrite
/-- IRQ_STATUS_CLEAR (R522). -/
def execIrqStatusClear (src : Source) (v : Reg64) (s : State) : Host.Outcome State Fault Refusal :=
  onModule s (doIrqStatusClear src v)
/-- AOS_IRQ_DEFER_EXPIRY (R522). -/
def execAosIrqDeferExpiry (idx : Nat) (s : State) : Host.Outcome State Fault Refusal :=
  onModule s (doAosIrqDeferExpiry idx)
/-- IMAGE_VERIFY (R526). -/
def execImageVerify (b : Bool) (s : State) : Host.Outcome State Fault Refusal := onModule s (doImageVerify b)
/-- IMAGE_WRITE (R530). -/
def execImageWrite (via : Via) (bytes : Bytes) (s : State) : Host.Outcome State Fault Refusal :=
  onModule s (doImageWrite via bytes)
/-- QUOTE (R538). -/
def execQuote (via : Via) (bytes : Bytes) (s : State) : Host.Outcome State Fault Refusal :=
  onModule s (doQuote via bytes)
/-- CERT_EXPORT (R534). -/
def execCertExport (via : Via) (bytes : Bytes) (s : State) : Host.Outcome State Fault Refusal :=
  onModule s (doCertExport via bytes)
/-- CUST_KEY (R539). -/
def execCustKey (via : Via) (bytes : Bytes) (s : State) : Host.Outcome State Fault Refusal :=
  onModule s (doCustKey via bytes)
/-- ENROL_BEGIN (R536). -/
def execEnrolBegin (via : Via) (bytes : Bytes) (s : State) : Host.Outcome State Fault Refusal :=
  onModule s (doEnrolBegin via bytes)
/-- TREE_GENERATED (R536). -/
def execTreeGenerated (s : State) : Host.Outcome State Fault Refusal := onModule s doTreeGenerated
/-- ENROL_REQUEST (R536). -/
def execEnrolRequest (via : Via) (bytes : Bytes) (s : State) : Host.Outcome State Fault Refusal :=
  onModule s (doEnrolRequest via bytes)
/-- ENROL_INSTALL (R537). -/
def execEnrolInstall (via : Via) (bytes : Bytes) (s : State) : Host.Outcome State Fault Refusal :=
  onModule s (doEnrolInstall via bytes)
/-- RESET (R529). -/
def execReset (via : Via) (bytes : Bytes) (s : State) : Host.Outcome State Fault Refusal :=
  onModule s (doReset via bytes)
/-- SEC_DATA (R532). -/
def execSecData (dg : Bytes) (s : State) : Host.Outcome State Fault Refusal := onModule s (doSecData dg)
/-- RUN (R532). -/
def execRun (dg : Bytes) (s : State) : Host.Outcome State Fault Refusal := onModule s (doRun dg)
/-- FETCH (R532). -/
def execFetch (dg : Bytes) (s : State) : Host.Outcome State Fault Refusal := onModule s (doFetch dg)
/-- MATE_MADE (R544). -/
def execMateMade (s : State) : Host.Outcome State Fault Refusal := onModule s doMateMade
/-- MATE_BREAK (R544). -/
def execMateBreak (s : State) : Host.Outcome State Fault Refusal := onModule s doMateBreak
/-- STANDBY_UP (R553). -/
def execStandbyUp (straps : BitVec 8) (s : State) : Host.Outcome State Fault Refusal := onModule s (doStandbyUp straps)
/-- STANDBY_LOSS (R455). -/
def execStandbyLoss (s : State) : Host.Outcome State Fault Refusal := onModule s doStandbyLoss
/-- BUS_MASTER_ENABLE (R389). -/
def execBusMasterEnable (v : Bool) (s : State) : Host.Outcome State Fault Refusal := onModule s (doBusMasterEnable v)
/-- HOST_ACCESS_FAILED (R254). -/
def execHostAccessFailed (a : HostAccess) (s : State) : Host.Outcome State Fault Refusal :=
  onModule s (doHostAccessFailed a)
/-- SIDEBAND_FRAME (R511). -/
def execSidebandFrame (frame : BitVec 160) (s : State) : Host.Outcome State Fault Refusal :=
  onModule s (doSidebandFrame frame)
/-- HERD_STOP_RESEND (R513). -/
def execHerdStopResend (s : State) : Host.Outcome State Fault Refusal := onModule s doHerdStopResend
/-- IMAGE_WRITE_COMPLETE (R530). -/
def execImageWriteComplete (readbackOk : Bool) (s : State) : Host.Outcome State Fault Refusal :=
  onModule s (doImageWriteComplete readbackOk)
/-- CXL_CABLE_PRESENCE (R549). -/
def execCxlCablePresence (present : Bool) (s : State) : Host.Outcome State Fault Refusal :=
  onModule s (doCxlCablePresence present)

end Sys2Proof.Machine
end

