-- ==== Sys2Proof/Machine/Dispatch.lean ====
section
/-! DEFINITION. The dispatch: one arm for each command. -/

namespace Sys2Proof.Machine

open Sys2Proof

def exec (i : Instr) (s : State) : Host.Outcome State Fault Refusal :=
  match i with
  | .registerWrite src offset wide v => Sys2Proof.Machine.execRegisterWrite src offset wide v s
  | .engTagSummaryClear p v => Sys2Proof.Machine.execEngTagSummaryClear p v s
  | .tmm c t => Sys2Proof.Machine.execTmm c t s
  | .tmmS24 c t => Sys2Proof.Machine.execTmmS24 c t s
  | .tmmSub c t => Sys2Proof.Machine.execTmmSub c t s
  | .tmmPg c t => Sys2Proof.Machine.execTmmPg c t s
  | .stationarySwap c => Sys2Proof.Machine.execStationarySwap c s
  | .vecAdd c t => Sys2Proof.Machine.execVecAdd c t s
  | .vecSub c t => Sys2Proof.Machine.execVecSub c t s
  | .vecMul c t => Sys2Proof.Machine.execVecMul c t s
  | .fma c t => Sys2Proof.Machine.execFma c t s
  | .vecMin c t => Sys2Proof.Machine.execVecMin c t s
  | .vecMax c t => Sys2Proof.Machine.execVecMax c t s
  | .cmplt c t => Sys2Proof.Machine.execCmplt c t s
  | .cmpeq c t => Sys2Proof.Machine.execCmpeq c t s
  | .sel c t => Sys2Proof.Machine.execSel c t s
  | .div c t => Sys2Proof.Machine.execDiv c t s
  | .sqrt c t => Sys2Proof.Machine.execSqrt c t s
  | .recip c t => Sys2Proof.Machine.execRecip c t s
  | .rsqrt c t => Sys2Proof.Machine.execRsqrt c t s
  | .exp c t => Sys2Proof.Machine.execExp c t s
  | .exp2 c t => Sys2Proof.Machine.execExp2 c t s
  | .log c t => Sys2Proof.Machine.execLog c t s
  | .log2 c t => Sys2Proof.Machine.execLog2 c t s
  | .tanh c t => Sys2Proof.Machine.execTanh c t s
  | .sigmoid c t => Sys2Proof.Machine.execSigmoid c t s
  | .erf c t => Sys2Proof.Machine.execErf c t s
  | .cvt c t => Sys2Proof.Machine.execCvt c t s
  | .rsum c t => Sys2Proof.Machine.execRsum c t s
  | .rmax c t => Sys2Proof.Machine.execRmax c t s
  | .rmin c t => Sys2Proof.Machine.execRmin c t s
  | .softmax c t => Sys2Proof.Machine.execSoftmax c t s
  | .layernorm c t => Sys2Proof.Machine.execLayernorm c t s
  | .rmsnorm c t => Sys2Proof.Machine.execRmsnorm c t s
  | .nop c t => Sys2Proof.Machine.execNop c t s
  | .halt c t => Sys2Proof.Machine.execHalt c t s
  | .signal c t => Sys2Proof.Machine.execSignal c t s
  | .wait c t => Sys2Proof.Machine.execWait c t s
  | .fence c t => Sys2Proof.Machine.execFence c t s
  | .br c t => Sys2Proof.Machine.execBr c t s
  | .beqz c t => Sys2Proof.Machine.execBeqz c t s
  | .bnez c t => Sys2Proof.Machine.execBnez c t s
  | .bltu c t => Sys2Proof.Machine.execBltu c t s
  | .li c t => Sys2Proof.Machine.execLi c t s
  | .add c t => Sys2Proof.Machine.execAdd c t s
  | .addi c t => Sys2Proof.Machine.execAddi c t s
  | .sub c t => Sys2Proof.Machine.execSub c t s
  | .mul c t => Sys2Proof.Machine.execMul c t s
  | .andOp c t => Sys2Proof.Machine.execAndOp c t s
  | .orOp c t => Sys2Proof.Machine.execOrOp c t s
  | .xorOp c t => Sys2Proof.Machine.execXorOp c t s
  | .shl c t => Sys2Proof.Machine.execShl c t s
  | .shr c t => Sys2Proof.Machine.execShr c t s
  | .modi c t => Sys2Proof.Machine.execModi c t s
  | .ldw c t => Sys2Proof.Machine.execLdw c t s
  | .stw c t => Sys2Proof.Machine.execStw c t s
  | .send c t => Sys2Proof.Machine.execSend c t s
  | .recv c t => Sys2Proof.Machine.execRecv c t s
  | .release c t => Sys2Proof.Machine.execRelease c t s
  | .whead c t => Sys2Proof.Machine.execWhead c t s
  | .wfull c t => Sys2Proof.Machine.execWfull c t s
  | .wfree c t => Sys2Proof.Machine.execWfree c t s
  | .tread c t => Sys2Proof.Machine.execTread c t s
  | .twrite c t => Sys2Proof.Machine.execTwrite c t s
  | .tdone c t => Sys2Proof.Machine.execTdone c t s
  | .gpush c t => Sys2Proof.Machine.execGpush c t s
  | .gwait c t => Sys2Proof.Machine.execGwait c t s
  | .resolve c w => Sys2Proof.Machine.execResolve c w s
  | .networkFlushEnd p => Sys2Proof.Machine.execNetworkFlushEnd p s
  | .threadStart p => Sys2Proof.Machine.execThreadStart p s
  | .packetInject c e => Sys2Proof.Machine.execPacketInject c e s
  | .packetDelivery site route w => Sys2Proof.Machine.execPacketDelivery site route w s
  | .creditPacket site route w => Sys2Proof.Machine.execCreditPacket site route w s
  | .reductionEmit c b => Sys2Proof.Machine.execReductionEmit c b s
  | .start src => Sys2Proof.Machine.execStart src s
  | .armFabric src => Sys2Proof.Machine.execArmFabric src s
  | .disarm src => Sys2Proof.Machine.execDisarm src s
  | .stagingComplete bytes => Sys2Proof.Machine.execStagingComplete bytes s
  | .checkingComplete => Sys2Proof.Machine.execCheckingComplete s
  | .writingComplete => Sys2Proof.Machine.execWritingComplete s
  | .partitionReady => Sys2Proof.Machine.execPartitionReady s
  | .drainLimitExpiry p => Sys2Proof.Machine.execDrainLimitExpiry p s
  | .enterRecovery src => Sys2Proof.Machine.execEnterRecovery src s
  | .leaveService src => Sys2Proof.Machine.execLeaveService src s
  | .read die route => Sys2Proof.Machine.execRead die route s
  | .write die route => Sys2Proof.Machine.execWrite die route s
  | .writeDone c route => Sys2Proof.Machine.execWriteDone c route s
  | .epochEnd die => Sys2Proof.Machine.execEpochEnd die s
  | .moveTileCopied page failed => Sys2Proof.Machine.execMoveTileCopied page failed s
  | .moveComplete page => Sys2Proof.Machine.execMoveComplete page s
  | .eccWriteback c word => Sys2Proof.Machine.execEccWriteback c word s
  | .t0Scrub c word f => Sys2Proof.Machine.execT0Scrub c word f s
  | .t1Scrub die stack row idx word f => Sys2Proof.Machine.execT1Scrub die stack row idx word f s
  | .t1Refresh stack => Sys2Proof.Machine.execT1Refresh stack s
  | .activationGuard stack row => Sys2Proof.Machine.execActivationGuard stack row s
  | .targetedSelfTest loc failed => Sys2Proof.Machine.execTargetedSelfTest loc failed s
  | .pspPull port mac msg => Sys2Proof.Machine.execPspPull port mac msg s
  | .data k => Sys2Proof.Machine.execData k s
  | .status port mac msg => Sys2Proof.Machine.execStatus port mac msg s
  | .poolData k => Sys2Proof.Machine.execPoolData k s
  | .poolAck port mac msg => Sys2Proof.Machine.execPoolAck port mac msg s
  | .gradAck port mac msg => Sys2Proof.Machine.execGradAck port mac msg s
  | .stagePullIssue p flow sect => Sys2Proof.Machine.execStagePullIssue p flow sect s
  | .pullResend p flow idx => Sys2Proof.Machine.execPullResend p flow idx s
  | .sourceTimeout p flow => Sys2Proof.Machine.execSourceTimeout p flow s
  | .gradAckTimeout p flow => Sys2Proof.Machine.execGradAckTimeout p flow s
  | .poolTimeout port => Sys2Proof.Machine.execPoolTimeout port s
  | .reparent p flow => Sys2Proof.Machine.execReparent p flow s
  | .childSilent p flow child => Sys2Proof.Machine.execChildSilent p flow child s
  | .adoptHoldExpiry p flow child => Sys2Proof.Machine.execAdoptHoldExpiry p flow child s
  | .windowPull die route load => Sys2Proof.Machine.execWindowPull die route load s
  | .unitArrival c route => Sys2Proof.Machine.execUnitArrival c route s
  | .deadlineMiss c w slot => Sys2Proof.Machine.execDeadlineMiss c w slot s
  | .miss site route => Sys2Proof.Machine.execMiss site route s
  | .switch c route => Sys2Proof.Machine.execSwitch c route s
  | .frameReceive port frame => Sys2Proof.Machine.execFrameReceive port frame s
  | .linkDown port localFault remoteFault => Sys2Proof.Machine.execLinkDown port localFault remoteFault s
  | .linkUp port => Sys2Proof.Machine.execLinkUp port s
  | .vc0BudgetInterval port => Sys2Proof.Machine.execVc0BudgetInterval port s
  | .chunkSegment port mac msg => Sys2Proof.Machine.execChunkSegment port mac msg s
  | .gapTimeout port idx => Sys2Proof.Machine.execGapTimeout port idx s
  | .ack port mac msg => Sys2Proof.Machine.execAck port mac msg s
  | .nak port mac msg => Sys2Proof.Machine.execNak port mac msg s
  | .waitAnswer port mac msg => Sys2Proof.Machine.execWaitAnswer port mac msg s
  | .ackTimeout idx => Sys2Proof.Machine.execAckTimeout idx s
  | .herdRun q => Sys2Proof.Machine.execHerdRun q s
  | .herdDeadlineExpiry p herd stage chunk => Sys2Proof.Machine.execHerdDeadlineExpiry p herd stage chunk s
  | .resultDeadlineExpiry p herd chunk => Sys2Proof.Machine.execResultDeadlineExpiry p herd chunk s
  | .lost port mac msg => Sys2Proof.Machine.execLost port mac msg s
  | .herdAbort port mac msg => Sys2Proof.Machine.execHerdAbort port mac msg s
  | .cxlLinkDown => Sys2Proof.Machine.execCxlLinkDown s
  | .cxlLinkUp width speed => Sys2Proof.Machine.execCxlLinkUp width speed s
  | .failover trained width speed => Sys2Proof.Machine.execFailover trained width speed s
  | .enable src q => Sys2Proof.Machine.execEnable src q s
  | .disable src q => Sys2Proof.Machine.execDisable src q s
  | .queSqTail q v => Sys2Proof.Machine.execQueSqTail q v s
  | .queCqHead q v => Sys2Proof.Machine.execQueCqHead q v s
  | .skip src q => Sys2Proof.Machine.execSkip src q s
  | .retry src q => Sys2Proof.Machine.execRetry src q s
  | .tailWordPoll q => Sys2Proof.Machine.execTailWordPoll q s
  | .descriptorEntry q hostDesc hostData => Sys2Proof.Machine.execDescriptorEntry q hostDesc hostData s
  | .fenceWaitSatisfied q => Sys2Proof.Machine.execFenceWaitSatisfied q s
  | .queueNop q => Sys2Proof.Machine.execQueueNop q s
  | .partStart q => Sys2Proof.Machine.execPartStart q s
  | .taskRun q => Sys2Proof.Machine.execTaskRun q s
  | .partDrain q => Sys2Proof.Machine.execPartDrain q s
  | .partUnload q => Sys2Proof.Machine.execPartUnload q s
  | .copyIn q host => Sys2Proof.Machine.execCopyIn q host s
  | .copyOut q => Sys2Proof.Machine.execCopyOut q s
  | .sessionOpen q => Sys2Proof.Machine.execSessionOpen q s
  | .sessionSubmit q => Sys2Proof.Machine.execSessionSubmit q s
  | .sessionClose q => Sys2Proof.Machine.execSessionClose q s
  | .taskEnd p => Sys2Proof.Machine.execTaskEnd p s
  | .completionWrite q => Sys2Proof.Machine.execCompletionWrite q s
  | .msixDeferExpiry q => Sys2Proof.Machine.execMsixDeferExpiry q s
  | .modelBind src p idx v => Sys2Proof.Machine.execModelBind src p idx v s
  | .batcherVisit => Sys2Proof.Machine.execBatcherVisit s
  | .batchResult p idx => Sys2Proof.Machine.execBatchResult p idx s
  | .krfTake q => Sys2Proof.Machine.execKrfTake q s
  | .cut p => Sys2Proof.Machine.execCut p s
  | .quietTimeout p => Sys2Proof.Machine.execQuietTimeout p s
  | .dumpEnd p => Sys2Proof.Machine.execDumpEnd p s
  | .krfRestore q host => Sys2Proof.Machine.execKrfRestore q host s
  | .serve src v => Sys2Proof.Machine.execServe src v s
  | .launchData k => Sys2Proof.Machine.execLaunchData k s
  | .launchReparent => Sys2Proof.Machine.execLaunchReparent s
  | .aosSample reading => Sys2Proof.Machine.execAosSample reading s
  | .phaseFault die phase => Sys2Proof.Machine.execPhaseFault die phase s
  | .brickFault brick => Sys2Proof.Machine.execBrickFault brick s
  | .efuseTrip die => Sys2Proof.Machine.execEfuseTrip die s
  | .ringEfuseTrip group => Sys2Proof.Machine.execRingEfuseTrip group s
  | .powerGood => Sys2Proof.Machine.execPowerGood s
  | .meshLock => Sys2Proof.Machine.execMeshLock s
  | .lockFault c => Sys2Proof.Machine.execLockFault c s
  | .clusterWake cl => Sys2Proof.Machine.execClusterWake cl s
  | .wakeDeferralExpiry cl => Sys2Proof.Machine.execWakeDeferralExpiry cl s
  | .fastShed => Sys2Proof.Machine.execFastShed s
  | .shedRelease => Sys2Proof.Machine.execShedRelease s
  | .pwrCap src v => Sys2Proof.Machine.execPwrCap src v s
  | .pwrMgrHeartbeat src v => Sys2Proof.Machine.execPwrMgrHeartbeat src v s
  | .managerLost b => Sys2Proof.Machine.execManagerLost b s
  | .heldCapExpiry => Sys2Proof.Machine.execHeldCapExpiry s
  | .overvoltage => Sys2Proof.Machine.execOvervoltage s
  | .inputCollapse => Sys2Proof.Machine.execInputCollapse s
  | .droopClear => Sys2Proof.Machine.execDroopClear s
  | .droopSequence => Sys2Proof.Machine.execDroopSequence s
  | .droopPowerOff => Sys2Proof.Machine.execDroopPowerOff s
  | .thermalTrip die => Sys2Proof.Machine.execThermalTrip die s
  | .aosWatchdog => Sys2Proof.Machine.execAosWatchdog s
  | .mmpFailed b => Sys2Proof.Machine.execMmpFailed b s
  | .mmpRestart b => Sys2Proof.Machine.execMmpRestart b s
  | .heartbeat d => Sys2Proof.Machine.execHeartbeat d s
  | .grant d => Sys2Proof.Machine.execGrant d s
  | .cap d => Sys2Proof.Machine.execCap d s
  | .aosLeaseClaim src v => Sys2Proof.Machine.execAosLeaseClaim src v s
  | .claimWindowEnd => Sys2Proof.Machine.execClaimWindowEnd s
  | .leaseExpiry => Sys2Proof.Machine.execLeaseExpiry s
  | .shedLevelPeriod b busy => Sys2Proof.Machine.execShedLevelPeriod b busy s
  | .engineSelfTest c f => Sys2Proof.Machine.execEngineSelfTest c f s
  | .oscillatorCalibration => Sys2Proof.Machine.execOscillatorCalibration s
  | .linkCalibration found => Sys2Proof.Machine.execLinkCalibration found s
  | .agingMonitorRead raises => Sys2Proof.Machine.execAgingMonitorRead raises s
  | .telemetryExport => Sys2Proof.Machine.execTelemetryExport s
  | .logFlush => Sys2Proof.Machine.execLogFlush s
  | .bringupStage f => Sys2Proof.Machine.execBringupStage f s
  | .coreFailed c det => Sys2Proof.Machine.execCoreFailed c det s
  | .serviceDieFail die => Sys2Proof.Machine.execServiceDieFail die s
  | .time frame => Sys2Proof.Machine.execTime frame s
  | .capFrame frame => Sys2Proof.Machine.execCapFrame frame s
  | .coolant frame => Sys2Proof.Machine.execCoolant frame s
  | .herdStop frame => Sys2Proof.Machine.execHerdStop frame s
  | .loopTimeout => Sys2Proof.Machine.execLoopTimeout s
  | .trayCapLapse => Sys2Proof.Machine.execTrayCapLapse s
  | .logWrite => Sys2Proof.Machine.execLogWrite s
  | .irqStatusClear src v => Sys2Proof.Machine.execIrqStatusClear src v s
  | .aosIrqDeferExpiry idx => Sys2Proof.Machine.execAosIrqDeferExpiry idx s
  | .imageVerify b => Sys2Proof.Machine.execImageVerify b s
  | .imageWrite via bytes => Sys2Proof.Machine.execImageWrite via bytes s
  | .quote via bytes => Sys2Proof.Machine.execQuote via bytes s
  | .certExport via bytes => Sys2Proof.Machine.execCertExport via bytes s
  | .custKey via bytes => Sys2Proof.Machine.execCustKey via bytes s
  | .enrolBegin via bytes => Sys2Proof.Machine.execEnrolBegin via bytes s
  | .treeGenerated => Sys2Proof.Machine.execTreeGenerated s
  | .enrolRequest via bytes => Sys2Proof.Machine.execEnrolRequest via bytes s
  | .enrolInstall via bytes => Sys2Proof.Machine.execEnrolInstall via bytes s
  | .reset via bytes => Sys2Proof.Machine.execReset via bytes s
  | .secData dg => Sys2Proof.Machine.execSecData dg s
  | .run dg => Sys2Proof.Machine.execRun dg s
  | .fetch dg => Sys2Proof.Machine.execFetch dg s
  | .mateMade => Sys2Proof.Machine.execMateMade s
  | .mateBreak => Sys2Proof.Machine.execMateBreak s
  | .standbyUp straps => Sys2Proof.Machine.execStandbyUp straps s
  | .standbyLoss => Sys2Proof.Machine.execStandbyLoss s
  | .busMasterEnable v => Sys2Proof.Machine.execBusMasterEnable v s
  | .hostAccessFailed a => Sys2Proof.Machine.execHostAccessFailed a s
  | .sidebandFrame frame => Sys2Proof.Machine.execSidebandFrame frame s
  | .herdStopResend => Sys2Proof.Machine.execHerdStopResend s
  | .imageWriteComplete readbackOk => Sys2Proof.Machine.execImageWriteComplete readbackOk s
  | .cxlCablePresence present => Sys2Proof.Machine.execCxlCablePresence present s

end Sys2Proof.Machine
end

