-- ==== Sys2Proof/Machine/Step.lean ====
section
/-! DEFINITION. One step of the block: the command at the front of the queue, or, with none waiting, one sk of time. -/

namespace Sys2Proof.Machine

open Sys2Proof

/-- One step: the front command runs on the state that holds the queue's rest; on an empty queue one sk passes and
what waited for it goes on (log 4). -/
def step (s : State) : Host.Outcome State Fault Refusal :=
  match s.pending with
  | [] => idleStep s
  | i :: rest => exec i { s with pending := rest }

/-- The command a table word spells put at the front of the queue: no row of this table has bits, so no word spells
one. -/
def State.withFetchWord (s : State) (nbits w : Nat) : State :=
  match decodeTableWord nbits w with
  | some i => { s with pending := i :: s.pending }
  | none => s

end Sys2Proof.Machine
end

