-- ==== Sys2Proof/Safety.lean ====
section
/-! DEFINITION. What counts as a safe run, in the terms the claims use: steps that end in a next state, what such a step leaves,
and the rule of power. -/

namespace Sys2Proof.Machine

open Sys2Proof

/-- A step ends in a next state. -/
def Runs (s : State) : Prop := ∃ t, step s = .next t

/-- The command runs on `s` to a next state with the same commands waiting, whose module meets `P`. -/
def Completes (i : Instr) (s : State) (P : Module → Prop) : Prop :=
  ∃ t, exec i s = .next t ∧ t.pending = s.pending ∧ P t.m

/-- What a command leaves whose effect makes the module `m'`: `m'` with the interrupts of R522 that the change causes, and the queue
of waiting commands as it was. -/
def after (s : State) (m' : Module) : Host.Outcome State Fault Refusal :=
  .next { s with m := settleIrq s.m.watched m' }

/-- The rule of power (R264, R491, R524, R544): standby power only when mated; without standby power the module is COLD; in COLD
both MMPs are OFF; the revocations name the four key slots. -/
def PowerRule (m : Module) : Prop :=
  (m.mech.standby = true → m.mech.mate = true) ∧ (m.mech.standby = false → m.sys.st = .cold)
  ∧ (m.sys.st = .cold → m.sup.a.st = .off ∧ m.sup.b.st = .off) ∧ m.sec.fwRevoked < 16 ∧ m.sec.caRevoked < 16

/-- A fuse word that only gains bits. -/
def Gained (a b : Nat) : Prop := ∀ i, bitAt a i = true → bitAt b i = true

/-- Thread `t` of core `c` can issue the instruction of opcode `op` at its pc: its partition is RUNNING or DRAINING with a task whose
threads have started and that no dump pauses, its cluster is ON, it is READY or WAITING, and the fetch meets no uncorrectable
word. `p`, `k`, `th` and `w` name its partition, core, thread and instruction word (R195, R200, R202, R297, R468). -/
structure Issues (s : State) (c t op p : Nat) (k : Core) (th : Thread) (w : Nat) : Prop where
  can : s.m.canIssue c t = some (p, k, th)
  word : k.fetch th = w
  opcode : fld w 0 8 = op
  good : k.badFetch th = none

/-- The next instruction of a thread lies in its program region (R200). -/
def NextInside (k : Core) (th : Thread) : Prop := k.pcInside (th.pc + 32) = true

/-- A thread that goes on, READY, at the next instruction. -/
def Thread.next (th : Thread) : Thread := { th with pc := th.pc + 32, st := .ready }

/-- `s` after thread `t` of core `c` has left the core as `k` and itself as `th`, and nothing else has changed. -/
def left (s : State) (c t : Nat) (u : CUnit) (k : Core) (th : Thread) : State :=
  { s with m := { s.m with cores := kput s.m.cores c ({ k with threads := kput k.threads t th }.served u t) } }

/-- `m` once core `c` has found a correctable error in each of the words `qs`: counted and logged (R297). -/
def foundAt (m : Module) (c : Nat) (qs : List Nat) : Module := qs.foldl (fun m q => m.t0Corrected c q) m

/-- A state whose module has found those errors beside. -/
def State.found (s : State) (c : Nat) (qs : List Nat) : State := { s with m := foundAt s.m c qs }

/-- `s` after thread `t` of core `c`, at `th` of core `k`, has begun to wait. -/
def parked (s : State) (c t : Nat) (k : Core) (th : Thread) : State :=
  { s with m := { s.m with cores := kput s.m.cores c { k with threads := kput k.threads t { th with st := .waiting } } } }

/-- `s` after the instruction `w` of thread `t` has entered the queue of unit `u` with the bytes `spans` that it touches; the thread goes on
at the next instruction (R138, R196). -/
def enqueued (s : State) (c t : Nat) (u : CUnit) (k : Core) (th : Thread) (w : Nat) (spans : List Span) : Module :=
  let k' := k.setQueue u (k.queue u ++ [{ thread := t, pc := th.pc, word := w, x := th.x, spans := spans }])
  foundAt { s.m with cores := kput s.m.cores c { k' with threads := kput k'.threads t th.next } } c (k.softFetch th)

/-- The instruction at the head of the queue of unit `u` of core `c` is `q`, thread `t`'s, of opcode `op`, and the units of the core run;
`p`, `k` and `qs` name the partition, the core and the queue's rest (R138, R196). -/
structure AtHead (s : State) (c t op p : Nat) (u : CUnit) (k : Core) (q : Issued) (qs : List Issued) : Prop where
  runs : s.m.unitsRun c = some (p, k)
  queue : k.queue u = q :: qs
  thread : q.thread = t
  opcode : fld q.word 0 8 = op

/-- The vector commands with their opcodes and operations (R151). -/
def vectorTable : List ((Nat → Nat → Instr) × Nat × VOp) :=
  [(.vecAdd, 0x40, .add), (.vecSub, 0x41, .sub), (.vecMul, 0x42, .mul), (.fma, 0x43, .fma), (.vecMin, 0x44, .min), (.vecMax, 0x45, .max),
   (.cmplt, 0x46, .cmplt), (.cmpeq, 0x47, .cmpeq), (.sel, 0x48, .sel), (.div, 0x49, .div), (.sqrt, 0x4A, .sqrt), (.recip, 0x4B, .recip)]
  ++ [(.rsqrt, 0x4C, .fn .rsqrt), (.exp, 0x50, .fn .exp), (.exp2, 0x51, .fn .exp2), (.log, 0x52, .fn .log), (.log2, 0x53, .fn .log2),
   (.tanh, 0x54, .fn .tanh), (.sigmoid, 0x55, .fn .sigmoid), (.erf, 0x56, .fn .erf), (.cvt, 0x58, .cvt), (.rsum, 0x60, .rsum),
   (.rmax, 0x61, .rmax), (.rmin, 0x62, .rmin), (.softmax, 0x63, .softmax), (.layernorm, 0x64, .layernorm), (.rmsnorm, 0x65, .rmsnorm)]

/-- The TMM commands with their opcodes and forms (R134, R159). -/
def tmmTable : List ((Nat → Nat → Instr) × Nat × TmmForm) :=
  [(.tmm, 0x10, .dense), (.tmmS24, 0x11, .s24), (.tmmSub, 0x12, .sub), (.tmmPg, 0x13, .pg)]

/-- A write of `bits` bits at half-byte address `p.1` and another share no half byte. -/
def Apart (p q : Nat × Nat × Nat) : Prop := p.1 + p.2.1 / 4 ≤ q.1 ∨ q.1 + q.2.1 / 4 ≤ p.1

/-- A write of an element code: of a half byte, or of whole bytes. -/
def WholeCode (p : Nat × Nat × Nat) : Prop := p.2.1 = 4 ∨ (p.1 % 2 = 0 ∧ p.2.1 % 8 = 0)

/-- The rows a vector instruction computes, and the tag words of its destination tiles. -/
def Vec.rowsOut (i : Vec) (k : Core) (th : Thread) : List (List Cell × List Nat) := (List.range i.rows).map (fun r => i.row k th r)
def Vec.tagsOut (i : Vec) (k : Core) (th : Thread) : List Nat := (List.range i.groups).map (fun g => i.tag k (i.rowsOut k th) g)

/-- What a vector instruction with an SRAM destination writes, as (half-byte address, bits, code): elements and scale bytes row by row,
then tag words (R131, R154). -/
def Vec.putsOut (i : Vec) (k : Core) (th : Thread) : List (Nat × Nat × Nat) :=
  (List.range i.rows).flatMap (fun r =>
    let row := (i.rowsOut k th).getD r ([], [])
    (List.range row.1.length).map (fun c => (elemNib i.dst.d i.fout.bits r c 0 i.x, i.fout.bits, (row.1.getD c (0, 0)).1))
    ++ (List.range row.2.length).map (fun b => (2 * scaleAddr i.dst.d r (32 * b) 0 i.x, 8, row.2.getD b 0)))
  ++ (List.range i.groups).map (fun g => (2 * tagAddr i.dst.d 0 g i.x i.groups, 32, (i.tagsOut k th).getD g 0))

/-- The core once the carry slots of the sources are EMPTY again (R148). -/
def Vec.freed (i : Vec) (k : Core) : Core :=
  i.srcs.foldl (fun k s => if s.kind = 1 then k.freeSlots s.first (s.slots i.fin i.rows) else k) k

/-- Every carry slot of a vector instruction's sources is FULL, and every one of its destination EMPTY (R148). -/
def Vec.ready (i : Vec) (k : Core) : Bool :=
  i.srcs.all (fun a => a.kind ≠ 1 || k.slotsAre .full a.first (a.slots i.fin i.rows))
  && (i.dst.kind ≠ 1 || k.slotsAre .empty i.dst.first (i.groups * tileSlots i.fout))

/-- The codes of an SRAM destination; none of another. -/
def Vec.puts (i : Vec) (k : Core) (th : Thread) : List (Nat × Nat × Nat) := if i.dst.kind = 0 then i.putsOut k th else []

/-- The flags that a vector instruction adds to its partition's tag summary: those of the tiles it writes (R97). -/
def Vec.flags (i : Vec) (k : Core) (th : Thread) : Nat := if i.dst.kind ≤ 1 then (i.tagsOut k th).foldl tagSummary 0 else 0

/-- What a vector instruction run by thread `th` on core `k` leaves: the core `k'` and the vector registers `v`. In SRAM every byte outside the
elements, scales and tag words named by `putsOut` reads as before, and each of these reads as the code written last to it. In the carry
buffer: complete tiles with their tag words. In a vector register: lane r × LEN + j, or lane r where a row gives one element, takes cell j of row r, and
every other lane stays (R131, R142, R153, R154). -/
def VecLeaves (i : Vec) (k : Core) (th : Thread) (k' : Core) (v : KMap Word) : Prop :=
  let th' : Thread := { th with v := v }
  (i.dst.kind = 0 → v = th.v ∧ k'.carry = (i.freed k).carry
    ∧ (∀ a, (∀ q ∈ i.putsOut k th, WholeCode q ∧ Apart (2 * a, 8, 0) q) → readByte k'.sram a = readByte k.sram a)
    ∧ (∀ xs q ys, i.putsOut k th = xs ++ q :: ys → WholeCode q → (∀ r ∈ ys, WholeCode r ∧ Apart q r) →
        readCode k'.sram q.1 q.2.1 = q.2.2 % 2 ^ q.2.1)
    ∧ { k' with sram := k.sram, badWords := k.badWords, softWords := k.softWords, carry := k.carry } = k)
  ∧ (i.dst.kind = 1 → v = th.v ∧ k' = (List.range i.groups).foldl (fun k' g =>
      k'.putTile i.fout (i.dst.first + g * tileSlots i.fout) (tileCodes ((i.rowsOut k th).map (fun r => r.1)) g) ((i.tagsOut k th).getD g 0))
      (i.freed k))
  ∧ (1 < i.dst.kind → i.fout.blockScaled = false → k' = i.freed k
    ∧ (∀ r j, r < i.rows → j < (i.row k th r).1.length →
        th'.lane i.dst.idx (if i.op.perRow then r else r * i.len + j) = BitVec.ofNat 32 ((i.row k th r).1.getD j (0, 0)).1)
    ∧ (∀ n q, (∀ r j, r < i.rows → j < (i.row k th r).1.length →
          64 * n + q ≠ 64 * i.dst.idx + (if i.op.perRow then r else r * i.len + j)) → th'.lane n q = th.lane n q))

/-- Every carry source of a TMM is FULL, its carry destination EMPTY, and no unit of a window slot that it reads is missing (R144, R148). -/
def Tmm.ready (i : Tmm) (k : Core) : Bool := i.sourcesFull k && i.destEmpty k && !i.waitsStream k

/-- What a TMM that ends leaves on core `k`, with the write units `us`, the batches `os` and the SRAM `sram` after the last: its carry sources
are EMPTY, its carry destination holds its tiles, and apart from the header of a list that a down-projection audits (R183) every byte of SRAM
outside what the units write reads as before. -/
def TmmLeaves (i : Tmm) (k k' : Core) (us : List WUnit) (os : List BatchOut) (sram : Memory) : Prop :=
  k'.sram = i.audit os sram ∧ (i.gatherK = false → k'.sram = sram)
  ∧ (∀ a, (∀ q ∈ us.flatMap (fun u => u.puts), WholeCode q ∧ Apart (2 * a, 8, 0) q) → readByte sram a = readByte k.sram a)
  ∧ k'.carry = ((os.flatMap (fun o => o.tiles)).foldl (fun k t => k.putTile i.fc t.1 t.2.1 t.2.2) (i.consume k)).carry
  ∧ k'.eng = i.engineAfter k.eng os
  ∧ { k' with sram := k.sram, badWords := k.badWords, softWords := k.softWords, carry := k.carry, eng := k.eng } = k

/-- A module whose partition's tag summary has gained the flags of the tiles written (R97). -/
def tagged (m : Module) (p tags : Nat) : Module :=
  if tags = 0 then m else { m with parts := kput m.parts p { m.part p with tags := (m.part p).tags ||| tags } }

/-- The command of queue `q`, whose record is `x`, has ended with a code (R399 to R402): its completion waits to be written, the queue
holds no entry; with a stop it is STOPPED at the entry, otherwise its head is past it; a code 0 adds 1 to the fence it signals. -/
def ended (m : Module) (q : Nat) (x : Queue) (code info : Nat) (stop noop : Bool) : Module :=
  let f := 64 * (q / 64) + x.fld 16 6
  let y := { x with
    desc := none, waiting := false, passed := false, running := false
    todo := x.todo ++ [{ tag := x.fld 64 32, code := code, kind := 0, stopped := stop, noop := noop, sqIndex := x.idx, info := info }]
    st := if stop then .stopped else x.st, stopCode := if stop then code else x.stopCode
    sqHead := if stop then x.idx else (x.idx + 1) % 2 ^ fld x.cfg 0 5 }
  { m with
    que.queues := kput m.que.queues q y
    que.fences := if code = 0 ∧ x.fld 15 1 = 1 then kset 0 m.que.fences f ((kgetD 0 m.que.fences f + 1) % 2 ^ 32) else m.que.fences
    que.signals := if code = 0 ∧ x.fld 15 1 = 1 then kput m.que.signals f (m.now, m.signalsNow (q / 64) (x.fld 16 6) + 1) else m.que.signals }

/-- Queue `q`, with the record `y`, is at the start of its command of opcode `op`: it is ACTIVE, and the entry fetched has passed its
checks and its fence. -/
structure AtStart (s : State) (q op : Nat) (y : Queue) : Prop where
  entry : kget? s.m.que.queues q = some y
  act : y.st = .active
  desc : y.desc.isSome = true
  opcode : y.op = op
  passed : y.passed = true
  idle : y.running = false

/-- In `t`, a pass of background activity `k` with a floor of `floor` seconds has ended, as counted from `m` (R501, R503). -/
def PassOver (m : Module) (k floor : Nat) (t : Module) : Prop :=
  let x := kgetD {} m.sup.acts k
  kget? t.sup.acts k = some { lastAt := m.now, progress := 0, misses := min (2 ^ 16 - 1) (x.misses + if floor ≠ 0 ∧ floor * skS < m.now - x.lastAt then 1 else 0) }

/-- In `t`, the security command `c` that ran on `m` has ended with a code and an output (R529, R532): SEC_CMD_STATUS tells its result, and
the output has gone to the command buffer, or waits at the out-of-band port. -/
structure SecEnded (m : Module) (c : SecCmd) (code : Nat) (out : List Byte) (t : Module) : Prop where
  cmd : t.sec.cmd = none
  busy : t.sec.busy = false
  op : t.sec.op = c.op
  result : t.sec.result = code
  outLen : t.sec.outLen = out.length
  sent : t.out = if c.oob = none ∧ out ≠ [] then m.out ++ [.hostWrite m.sec.cmdAddr out] else m.out
  held : ∀ x, c.oob = some x → m.sec.oob.xid = some x → t.sec.oob.code = some code ∧ t.sec.oob.out = out

/-- The security commands with their OP (R529). -/
def secTable : List ((Via → Bytes → Instr) × Nat) :=
  [(.imageWrite, 1), (.quote, 2), (.certExport, 3), (.custKey, 4), (.enrolBegin, 5), (.enrolRequest, 6), (.enrolInstall, 7), (.reset, 8)]

end Sys2Proof.Machine
end

