-- ==== Sys2Proof/Certificates/Slice0/Obligations.lean ====
section
/-! DEFINITION. The obligations: what the rules of the manual say the module does, command family by command family, and what every
step keeps. -/

open Sys2Proof Sys2Proof.Machine

/-! ## The block and its step -/

/-- A step runs the command at the front of the queue, on the state that holds the queue's rest. -/
def Obligations.StepRunsFront : Prop :=
  ∀ (s : State) (i : Instr) (rest : List Instr),
    step { s with pending := i :: rest } = exec i { s with pending := rest }

/-- With no command waiting a step is one sk (the model's choice, log 4, over R15 and R203): the sk counter counts while standby power is up,
the mesh, once locked, moves 216 slots of 1/2.7 GHz, or 108 at half clock; then what waited for the next sk goes on (R281, R381, R404; log 118). Where
nothing waits nothing else changes; a partition that drained with no task halts. -/
def Obligations.IdleStepIsOneSk : Prop :=
  ∀ s : State, s.pending = [] → let m := { s.m with
        pwr.sk := s.m.pwr.sk + (if s.m.mech.standby then 1 else 0)
        net.slot := s.m.net.slot + (if s.m.pwr.meshLocked then (if s.m.pwr.meshHalf then 108 else 216) else 0) }
    step s = after { s with m := m } m.hostAcks.copyAcks.drainsOver.herdsTick.restoresTick
    ∧ ((∀ r ∈ m.tier.reqs, r.phase = .acking → (m.page (r.addr / pageBytes)).tier ≠ 2) → (∀ e ∈ m.que.queues, ∀ x ∈ e.2.pieces, x.host = false) →
      (∀ e ∈ m.herds, e.2.lossAt = none ∧ ∀ r, e.2.run = some r → ∀ a ∈ r.awaits, a.2 = false) →
      (∀ e ∈ m.parts, ∀ r, e.2.krf.restore = some r → r.hostAt = none) →
      ((∀ e ∈ m.parts, e.2.st = .draining → e.2.taskRunning = true ∨ m.now ≤ e.2.drainFrom) → step s = .next { s with m := m })
      ∧ (∀ p, (m.part p).st = .draining → (m.part p).taskRunning = false → (m.part p).drainFrom < m.now → ∃ t, step s = .next t ∧ t.pending = []
          ∧ (t.m.part p).st = .halted))

/-- At reset the module is COLD and unpowered, no command waits, no partition and no core exists, no lease is held, both MMPs are OFF, the
effective cap is the safe cap of 12 kW, and the rule of power holds. The fuse and flash contents at reset are the model's (log 6). -/
def Obligations.ResetIsCold : Prop :=
  State.reset.pending = [] ∧ State.reset.m.sys.st = .cold ∧ State.reset.m.mech.standby = false ∧ State.reset.m.parts = []
    ∧ State.reset.m.cores = [] ∧ State.reset.m.jig.phase = .idle ∧ State.reset.m.sup.lease = .none_
    ∧ State.reset.m.sup.a.st = .off ∧ State.reset.m.sup.b.st = .off ∧ State.reset.m.pwr.capEffective = 120
    ∧ State.reset.m.pwr.safeCap = true ∧ PowerRule State.reset.m

/-- Every step keeps the rule of power (R264, R491, R544): standby power only when mated, COLD without standby power, MMPs OFF in COLD, and
revocations that name key slots only. -/
def Obligations.PowerRuleKept : Prop :=
  ∀ s t : State, PowerRule s.m → step s = .next t → PowerRule t.m

/-- Fuses are only ever blown (R524, R528): no step takes a revocation back or lowers the least security version. -/
def Obligations.FusesOnlyGain : Prop :=
  ∀ s t : State, PowerRule s.m → step s = .next t →
    Gained s.m.sec.fwRevoked t.m.sec.fwRevoked ∧ Gained s.m.sec.caRevoked t.m.sec.caRevoked ∧ s.m.sec.minSvn ≤ t.m.sec.minSvn

/-- The interrupt causes 1 to 6 of R522 that a command brings about: with standby power, each of the bits 1 to 6 of AOS_IRQ_STATUS
becomes 1 when its cause has occurred and otherwise stays; bit 0 and everything beside the interrupt's own records
stays. -/
def Obligations.CausesSetTheirBits : Prop :=
  ∀ (w : Watched) (m : Module), m.mech.standby = true →
    let v := m.watched
    let t := settleIrq w m
    (bitAt t.sup.irqStatus 0 = bitAt m.sup.irqStatus 0)
    ∧ (bitAt t.sup.irqStatus 1 = (bitAt m.sup.irqStatus 1 || decide (v.modSt ≠ w.modSt)))
    ∧ (bitAt t.sup.irqStatus 2 = (bitAt m.sup.irqStatus 2 || decide (v.lease ≠ w.lease)))
    ∧ (bitAt t.sup.irqStatus 3 = (bitAt m.sup.irqStatus 3 || decide (v.parts ≠ w.parts)))
    ∧ (bitAt t.sup.irqStatus 4 = (bitAt m.sup.irqStatus 4 || (v.idle && !w.idle)))
    ∧ (bitAt t.sup.irqStatus 5 = (bitAt m.sup.irqStatus 5 || decide (v.cap ≠ w.cap)))
    ∧ (bitAt t.sup.irqStatus 6 = (bitAt m.sup.irqStatus 6 || decide (v.mmps ≠ w.mmps)))
    ∧ { t with sup.irqStatus := m.sup.irqStatus, sup.irqAt := m.sup.irqAt, sup.irqDefer := m.sup.irqDefer, out := m.out } = m

/-! ## Instructions of a core: scalar unit (R195 to R200, R297, R427) -/

/-- The scalar instructions of R199, on any state in which thread `t` of core `c` can issue them and the next instruction lies in its
program region: X[RD] takes the value the table gives, modulo 2^32, the thread goes on at the next instruction, and nothing else of the
module changes but the scalar unit's round-robin pointer and what a correctable error in the fetched word brings (R297). A write to X0 is
discarded, and X0 reads as 0 (R195). -/
def Obligations.ScalarResults : Prop :=
  (∀ (th : Thread) (n j : Nat) (v : Word), (th.setX n v).xr j = if j = n ∧ n ≠ 0 then v else th.xr j)
  ∧ (∀ th : Thread, th.xr 0 = 0)
  ∧ ∀ (s : State) (c t p : Nat) (k : Core) (th : Thread) (w : Nat), NextInside k th →
    let sets (v : Word) : Host.Outcome State Fault Refusal :=
      .next ((left s c t .scalar k (th.setX (fld w 8 5) v).next).found c (k.softFetch th))
    let a := th.xr (fld w 13 5)
    let b := th.xr (fld w 18 5)
    let imm : Word := BitVec.ofNat 32 (fld w 32 32)
    (Issues s c t 0x20 p k th w → exec (.li c t) s = sets imm)
    ∧ (Issues s c t 0x21 p k th w → exec (.add c t) s = sets (a + b))
    ∧ (Issues s c t 0x22 p k th w → exec (.addi c t) s = sets (a + imm))
    ∧ (Issues s c t 0x23 p k th w → exec (.sub c t) s = sets (a - b))
    ∧ (Issues s c t 0x24 p k th w → exec (.mul c t) s = sets (a * b))
    ∧ (Issues s c t 0x25 p k th w → exec (.andOp c t) s = sets (a &&& b))
    ∧ (Issues s c t 0x26 p k th w → exec (.orOp c t) s = sets (a ||| b))
    ∧ (Issues s c t 0x27 p k th w → exec (.xorOp c t) s = sets (a ^^^ b))
    ∧ (Issues s c t 0x28 p k th w → exec (.shl c t) s = sets (a <<< (b.toNat % 32)))
    ∧ (Issues s c t 0x29 p k th w → exec (.shr c t) s = sets (a >>> (b.toNat % 32)))
    ∧ (Issues s c t 0x2A p k th w → exec (.modi c t) s = sets (BitVec.ofNat 32 (a.toNat % fld w 32 32)))

/-- NOP, FENCE, HALT and the branches of R199. A branch taken goes on at PC + 32 × IMM, IMM a signed count; one not taken goes on at the next
instruction. HALT leaves the thread HALTED; that its pc stays is the model's choice (log 3). FENCE goes on once every earlier instruction of
the thread is complete: none waits in a queue, and every buffer it marked has left (R199, R216); before that it waits. -/
def Obligations.ControlFlow : Prop :=
  ∀ (s : State) (c t p : Nat) (k : Core) (th : Thread) (w : Nat),
    let goes (th' : Thread) : Host.Outcome State Fault Refusal := .next ((left s c t .scalar k th').found c (k.softFetch th))
    let a := th.xr (fld w 13 5)
    let b := th.xr (fld w 18 5)
    (Issues s c t 0x00 p k th w → NextInside k th → exec (.nop c t) s = goes th.next)
    ∧ (Issues s c t 0x04 p k th w → NextInside k th → k.busy t = false → exec (.fence c t) s = goes th.next)
    ∧ (Issues s c t 0x04 p k th w → k.busy t = true → exec (.fence c t) s = .next (parked s c t k th))
    ∧ (Issues s c t 0x01 p k th w → exec (.halt c t) s = goes { th with st := .halted })
    ∧ (∀ n : Nat, (n : Int) = th.pc + 32 * signed 32 (fld w 32 32) → k.pcInside n = true →
        let jumps := goes { th with pc := n, st := .ready }
        (Issues s c t 0x05 p k th w → exec (.br c t) s = jumps)
        ∧ (Issues s c t 0x06 p k th w → a = 0 → exec (.beqz c t) s = jumps)
        ∧ (Issues s c t 0x07 p k th w → a ≠ 0 → exec (.bnez c t) s = jumps)
        ∧ (Issues s c t 0x08 p k th w → a.toNat < b.toNat → exec (.bltu c t) s = jumps))
    ∧ (NextInside k th →
        (Issues s c t 0x06 p k th w → a ≠ 0 → exec (.beqz c t) s = goes th.next)
        ∧ (Issues s c t 0x07 p k th w → a = 0 → exec (.bnez c t) s = goes th.next)
        ∧ (Issues s c t 0x08 p k th w → b.toNat ≤ a.toNat → exec (.bltu c t) s = goes th.next))

/-- SIGNAL, once the thread's queued instructions write nothing more, adds 1 to its semaphore, and waits before that; WAIT takes 1 from a semaphore
that is not zero, and on one that is zero its thread is WAITING and nothing else changes (R197). A WAIT on semaphore 15 is a gate point: ready at once
while no GATE take is armed, and it waits while one is (R427). -/
def Obligations.SignalAndWait : Prop :=
  ∀ (s : State) (c t p : Nat) (k : Core) (th : Thread) (w : Nat),
    let i := fld w 23 6
    let n := kgetD 0 k.sems i
    let armed : Bool := (match (s.m.part p).krf.take with | some x => x.gate | none => false) && (s.m.part p).krf.phase = .awaitingCut
    let waits : Host.Outcome State Fault Refusal := .next (parked s c t k th)
    (Issues s c t 0x02 p k th w → NextInside k th → (k.queued t).any Span.write = false → n < 0xFFFF →
      ∃ k', exec (.signal c t) s = .next ((left s c t .scalar k' th.next).found c (k.softFetch th))
        ∧ (∀ j, kgetD 0 k'.sems j = if j = i then n + 1 else kgetD 0 k.sems j) ∧ { k' with sems := k.sems } = k)
    ∧ (Issues s c t 0x02 p k th w → (k.queued t).any Span.write = true → exec (.signal c t) s = waits)
    ∧ (Issues s c t 0x03 p k th w → NextInside k th → i ≠ 15 → 0 < n →
      ∃ k', exec (.wait c t) s = .next ((left s c t .scalar k' th.next).found c (k.softFetch th))
        ∧ (∀ j, kgetD 0 k'.sems j = if j = i then n - 1 else kgetD 0 k.sems j) ∧ { k' with sems := k.sems } = k)
    ∧ (Issues s c t 0x03 p k th w → i ≠ 15 → n = 0 → exec (.wait c t) s = waits)
    ∧ (Issues s c t 0x03 p k th w → NextInside k th → i = 15 → armed = false →
      exec (.wait c t) s = .next ((left s c t .scalar k th.next).found c (k.softFetch th)))
    ∧ (Issues s c t 0x03 p k th w → i = 15 → armed = true → exec (.wait c t) s = waits)

/-- LDW and STW at X[RS1] + IMM below 0x28_0000, bits [1:0] ignored (R199, R200), once the interlock of R139 lets them; before that they wait. LDW
loads the word into X[RD]; a correctable error in the ECC word that either reads is found besides (R297). STW, outside the program region and the
descriptor table, stores X[RS2] in the four bytes at that address: every other byte of SRAM, and everything else of the core, stays. -/
def Obligations.LoadAndStore : Prop :=
  ∀ (s : State) (c t p : Nat) (k : Core) (th : Thread) (w : Nat),
    let a := (th.xr (fld w 13 5) + BitVec.ofNat 32 (fld w 32 32)).toNat
    let v := th.xr (fld w 18 5)
    let free (write : Bool) : Bool := k.clear t [{ lo := a / 4 * 4, hi := a / 4 * 4 + 4, write := write }]
    let soft : List Nat := k.softFetch th ++ k.softWords.filter (fun q => q = a / 32)
    a ≤ 0x27_FFFF →
    (Issues s c t 0x2B p k th w → free false = false → exec (.ldw c t) s = .next (parked s c t k th))
    ∧ (Issues s c t 0x2C p k th w → free true = false → exec (.stw c t) s = .next (parked s c t k th))
    ∧ (NextInside k th → a / 32 ∉ k.badWords →
    (Issues s c t 0x2B p k th w → free false = true →
      exec (.ldw c t) s =
        .next ((left s c t .scalar k (th.setX (fld w 8 5) (BitVec.ofNat 32 (readLE k.sram (a / 4 * 4) 4))).next).found c soft))
    ∧ (Issues s c t 0x2C p k th w → free true = true → k.readOnlyAt (a / 4 * 4) = false →
      ∃ k', exec (.stw c t) s = .next ((left s c t .scalar k' th.next).found c soft)
        ∧ readLE k'.sram (a / 4 * 4) 4 = v.toNat
        ∧ (∀ b, b < a / 4 * 4 ∨ a / 4 * 4 + 4 ≤ b → readByte k'.sram b = readByte k.sram b)
        ∧ { k' with sram := k.sram, softWords := k.softWords } = k))

/-! ## Instructions of a core: network and stream flow (R199, R216 to R218, R328 to R330, R347) -/

/-- SEND, RECV and RELEASE of n = IMM[15:0] packets of endpoint IDX (R199, R216, R217). SEND marks n more buffers ready, for its thread, once the
interlock of R139 is clear for the bytes that it reads; before that it waits. RECV, once n packets are delivered and unreleased, gives the ring index
of the oldest; before that its thread is WAITING. RELEASE frees the n oldest and returns their credits (`releaseCredits`, the clause after). Returned
credits (R217, R218). An endpoint on no chain, or at the last router of one, sends n credits in CREDIT packets of at most 64 each; n of 1 to 64 is one
packet, of kind 3 and LEN_M1 n - 1, on CREDIT_ROUTE with the next SEQ of the endpoint. At another router of a chain the credits wait in O for the D
that come from downstream: with D = 0 nothing is sent. -/
def Obligations.SendRecvRelease : Prop :=
  (∀ (s : State) (c t p : Nat) (k : Core) (th : Thread) (w : Nat) (e : Endpoint),
      let i := fld w 23 6
      let n := fld w 32 16
      kget? k.eps i = some e → NextInside k th →
      let soft := k.softFetch th
      (Issues s c t 0x70 p k th w → k.clear t (sendSpans k w) = true →
        exec (.send c t) s = .next ((left s c t .stream
          { k with eps := kput k.eps i { e with count := e.count + n, marks := e.marks ++ List.replicate n t } } th.next).found c soft))
      ∧ (Issues s c t 0x70 p k th w → k.clear t (sendSpans k w) = false → exec (.send c t) s = .next (parked s c t k th))
      ∧ (Issues s c t 0x71 p k th w → 0 < n → n ≤ e.ringPkts →
        (n ≤ e.count → exec (.recv c t) s =
          .next ((left s c t .stream k (th.setX (fld w 8 5) (BitVec.ofNat 32 e.nextRel)).next).found c soft))
        ∧ (e.count < n → exec (.recv c t) s =
          .next (parked s c t k th)))
      ∧ (Issues s c t 0x72 p k th w → 0 < n → n ≤ e.ringPkts → n ≤ e.count →
        let u := left s c t .stream
          { k with eps := kput k.eps i { e with count := e.count - n, nextRel := (e.nextRel + n) % e.ringPkts } } th.next
        exec (.release c t) s = .next ({ u with m := u.m.releaseCredits p c i n }.found c soft)))
  ∧ ∀ (m : Module) (p c i n : Nat) (e : Endpoint),
      kget? (m.core c).eps i = some e →
      (m.midChain c e.route = false → 0 < n → n ≤ 64 →
        m.releaseCredits p c i n = { m with
          cores := kput m.cores c ((m.core c).setEp i { e with seqCredit := (e.seqCredit + 1) % 256 })
          net.flights := m.net.flights ++ [{ route := e.creditRoute, part := p, hdr := mkHeader e.creditRoute 3 (n - 1) e.seqCredit 0,
                                             payload := [], sites := packetSites 1 (m.flitsFromCore c e.creditRoute) }] })
      ∧ (m.midChain c e.route = true → (kgetD ({} : Chain) (m.core c).chains i).d = 0 →
        let x : Chain := kgetD {} (m.core c).chains i
        m.releaseCredits p c i n = m.setCore c { m.core c with chains := kput (m.core c).chains i { x with o := x.o + n } })
      ∧ (∀ x, x ∈ creditCounts n → 0 < x ∧ x ≤ 64) ∧ (creditCounts n).sum = n

/-- WHEAD, WFULL and WFREE on window IDX, whose oldest slot that is not FREE is slot o (R323, R328, R330, R334). The status word holds
the slot, bit 8 FULL, bit 9 VENEER and the layer. WHEAD gives it; WFULL gives it once the slot is FULL or VENEER, and otherwise its thread
is WAITING and the slot's deadline timer runs. WFREE frees the slot: the next in cyclic order is the oldest, and the window's core pulls or
forwards for it. With every slot FREE, WHEAD and WFULL wait. -/
def Obligations.WindowInstructions : Prop :=
  ∀ (s : State) (c t p : Nat) (k : Core) (th : Thread) (w : Nat),
    let i := fld w 23 6
    let win : Window := kgetD {} k.wins i
    let o := win.oldest
    let x := win.slot o
    let word : Word := BitVec.ofNat 32 (o % 256 + 256 * b2n (x.st = .full) + 512 * b2n (x.st = .veneer) + 65536 * (x.layer % 65536))
    let soft := k.softFetch th
    let sets := Host.Outcome.next (ρ := Refusal) (φ := Fault) ((left s c t .stream k (th.setX (fld w 8 5) word).next).found c soft)
    let waits (k : Core) : Host.Outcome State Fault Refusal := .next (parked s c t k th)
    (Issues s c t 0x73 p k th w → NextInside k th → x.st ≠ .free → exec (.whead c t) s = sets)
    ∧ (Issues s c t 0x73 p k th w → x.st = .free → exec (.whead c t) s = waits k)
    ∧ (Issues s c t 0x74 p k th w → NextInside k th → x.st = .full ∨ x.st = .veneer → exec (.wfull c t) s = sets)
    ∧ (Issues s c t 0x74 p k th w → x.st = .pulled →
        exec (.wfull c t) s = waits { k with wins := kput k.wins i (startTimer s.m.now win o) })
    ∧ (Issues s c t 0x74 p k th w → x.st = .free → exec (.wfull c t) s = waits k)
    ∧ (Issues s c t 0x75 p k th w → NextInside k th → x.st ≠ .free → (s.m.part p).taskRunning = true →
        let u := (left s c t .stream
          { k with wins := kput k.wins i { win.setSlot o {} with oldest := (o + 1) % max 1 win.nslots } } th.next).found c soft
        exec (.wfree c t) s = after s (u.m.slotFreed p c i)
        ∧ (win.tail = false → win.waiting = [] → exec (.wfree c t) s = .next u))

/-- TREAD, TWRITE and TDONE on request port IDX (R280, R328 to R330). With fewer than 16 requests without a reply, TREAD and TWRITE send one request
on REQ_ROUTE, of OP 1 or 2, the reply on READ_ROUTE or DONE_ROUTE, the tag X[RD], the address 64 × (X[RS1] + 2^32 × X[RS2]) and 64 × (IMM[14:0] + 1)
bytes; with 16 they wait. TDONE takes n = IMM[15:0] of 1 to 16 WRITE_DONEs off the port's count, and gives the last TAG. GPUSH marks layer X[RS1] of
return flow IMM[7:0] complete at its core once more; GWAIT goes on when the layer is done, with every core's gradients handed to the herd and, at the
root, acknowledged, and waits before that (R347). -/
def Obligations.TerournAndGradients : Prop :=
  (∀ (s : State) (c t p : Nat) (k : Core) (th : Thread) (w : Nat),
      let i := fld w 23 6
      let q : ReqPort := kgetD {} k.ports i
      let hi := (th.xr (fld w 18 5)).toNat
      let addr := 64 * ((th.xr (fld w 13 5)).toNat + hi * 2 ^ 32)
      let len := 64 * (fld w 32 15 + 1)
      let tag := (th.xr (fld w 8 5)).toNat
      let n := fld w 32 16
      let soft := k.softFetch th
      let waits : Host.Outcome State Fault Refusal := .next (parked s c t k th)
      (Issues s c t 0x76 p k th w → NextInside k th → hi < 2 ^ 18 → q.open_ < 16 →
        let u := left s c t .stream { k with ports := kput k.ports i { q with open_ := q.open_ + 1, reads := q.reads ++ [len] } } th.next
        exec (.tread c t) s = .next ({ u with m := u.m.portSend p c q.reqRoute (requestMsg 1 q.readRoute 0 tag addr len) }.found c soft))
      ∧ (Issues s c t 0x77 p k th w → NextInside k th → hi < 2 ^ 18 → q.open_ < 16 →
        let u := left s c t .stream { k with ports := kput k.ports i { q with open_ := q.open_ + 1 } } th.next
        let data := (kgetD ({} : Endpoint) k.eps (fld w 48 6)).route
        exec (.twrite c t) s = .next ({ u with m := u.m.portSend p c q.reqRoute (requestMsg 2 q.doneRoute data tag addr len) }.found c soft))
      ∧ (Issues s c t 0x76 p k th w → hi < 2 ^ 18 → 16 ≤ q.open_ → exec (.tread c t) s = waits)
      ∧ (Issues s c t 0x77 p k th w → hi < 2 ^ 18 → 16 ≤ q.open_ → exec (.twrite c t) s = waits)
      ∧ (Issues s c t 0x78 p k th w → NextInside k th → 0 < n → n ≤ 16 → n ≤ q.done →
        exec (.tdone c t) s = .next ((left s c t .stream { k with ports := kput k.ports i { q with done := q.done - n } }
          (th.setX (fld w 8 5) (BitVec.ofNat 32 q.lastTag)).next).found c soft))
      ∧ (Issues s c t 0x78 p k th w → 0 < n → n ≤ 16 → q.done < n → exec (.tdone c t) s = waits))
  ∧ ∀ (s : State) (c t p : Nat) (k : Core) (th : Thread) (w : Nat),
      let key := 256 * p + fld w 32 8
      let l := (th.xr (fld w 13 5)).toNat
      let f := s.m.flow key
      (Issues s c t 0x79 p k th w → NextInside k th → (∃ r ∈ f.routes, r.layer = l) → (s.m.part p).taskRunning = true →
        let u := (left s c t .stream k th.next).found c (k.softFetch th)
        exec (.gpush c t) s = .next { u with m := u.m.setFlow key { f with pushed := kput f.pushed (32768 * l + c) (f.pushes l c + 1) } })
      ∧ (Issues s c t 0x7A p k th w → NextInside k th → s.m.layerDone p key l c = true →
        exec (.gwait c t) s = .next ((left s c t .stream k th.next).found c (k.softFetch th)))
      ∧ (Issues s c t 0x7A p k th w → s.m.layerDone p key l c = false → exec (.gwait c t) s =
        .next (parked s c t k th))

/-! ## Task aborts, engine commands, list resolution, and a task's start (R97, R105, R107, R149, R178, R195, R200 to R202, R405) -/

/-- A task abort (R105, R149, R201, R405): on every core of the partition all eight threads are HALTED, the carry slots are EMPTY, the queues of
its units are empty, the engine has forgotten its pass and its shadow set (what that set then holds is the model's choice, log 19), and window slots
are FREE; SRAM and registers of the threads stay. Cores of other partitions stay,
and so do the other partitions. The partition's task has ended with the code; a DRAINING partition is HALTED. -/
def Obligations.TaskAbort : Prop :=
  ∀ (m : Module) (p code : Nat) (l : Loc), (m.part p).taskRunning = true →
    let t := m.abortTask p code l
    (∀ c k, kget? m.cores c = some k → (m.part p).hasCore c = true →
      ∃ k', kget? t.cores c = some k' ∧ (∀ i, i < 8 → kgetD {} k'.threads i = { kgetD ({} : Thread) k.threads i with st := .halted })
        ∧ k'.carry = [] ∧ k'.engQ = [] ∧ k'.vecQ = [] ∧ k'.eng.half0 = [] ∧ k'.eng.half1 = [] ∧ k'.eng.activeB = k.eng.activeB
        ∧ (if k.eng.activeB then k'.eng.setA = {} ∧ k'.eng.setB = k.eng.setB else k'.eng.setB = {} ∧ k'.eng.setA = k.eng.setA)
        ∧ (∀ i w, kget? k'.wins i = some w → w.slots = [])
        ∧ { k' with threads := k.threads, carry := k.carry, engQ := k.engQ, vecQ := k.vecQ, eng := k.eng, wins := k.wins } = k)
    ∧ (∀ c, (m.part p).hasCore c = false → kget? t.cores c = kget? m.cores c)
    ∧ (t.part p).taskRunning = false ∧ (t.part p).started = false ∧ (t.part p).lastCode = code
    ∧ (t.part p).st = (if (m.part p).st = .draining then .halted else (m.part p).st)
    ∧ ∀ q, q ≠ p → t.part q = m.part q

/-- What aborts the task with 0x0602 at run time (R200): a next sequential address or a branch target outside the program region, an LDW or STW above
0x27_FFFF, an STW into the program region or the descriptor table, a SIGNAL that would raise a count above 0xFFFF (R197), a RECV or RELEASE count of 0
or above RING_PKTS, and a RELEASE of more than is delivered and unreleased. The instruction leaves nothing else. -/
def Obligations.RunTimeAborts : Prop :=
  ∀ (s : State) (c t p : Nat) (k : Core) (th : Thread) (w : Nat),
    let aborts (u : CUnit) : Host.Outcome State Fault Refusal :=
      after s ((foundAt (left s c t u k th).m c (k.softFetch th)).abortTask p 0x0602 (.core c))
    let a := (th.xr (fld w 13 5) + BitVec.ofNat 32 (fld w 32 32)).toNat
    let e : Endpoint := kgetD {} k.eps (fld w 23 6)
    let n := fld w 32 16
    (Issues s c t 0x00 p k th w → k.pcInside (th.pc + 32) = false → exec (.nop c t) s = aborts .scalar)
    ∧ (Issues s c t 0x05 p k th w → (∀ j : Nat, (j : Int) = th.pc + 32 * signed 32 (fld w 32 32) → k.pcInside j = false) →
        exec (.br c t) s = aborts .scalar)
    ∧ (Issues s c t 0x2B p k th w → 0x27_FFFF < a → exec (.ldw c t) s = aborts .scalar)
    ∧ (Issues s c t 0x2C p k th w → 0x27_FFFF < a → exec (.stw c t) s = aborts .scalar)
    ∧ (Issues s c t 0x2C p k th w → k.clear t [{ lo := a / 4 * 4, hi := a / 4 * 4 + 4, write := true }] = true →
        k.readOnlyAt (a / 4 * 4) = true → exec (.stw c t) s = aborts .scalar)
    ∧ (Issues s c t 0x02 p k th w → (k.queued t).any Span.write = false → 0xFFFF ≤ kgetD 0 k.sems (fld w 23 6) →
        exec (.signal c t) s = aborts .scalar)
    ∧ (Issues s c t 0x71 p k th w → n = 0 ∨ e.ringPkts < n → exec (.recv c t) s = aborts .stream)
    ∧ (Issues s c t 0x72 p k th w → n = 0 ∨ e.ringPkts < n ∨ e.count < n → exec (.release c t) s = aborts .stream)

/-- STATIONARY_SWAP (R107, R108): once the last row of the pass has entered and the shadow set is loaded, the sets change roles, the set that was
active may be loaded, no row of the new pass has entered, and nothing else changes; a scale of 0xFF in the new active set aborts the task with 0x0104.
ENG_TAG_SUMMARY_CLEAR (R97) clears the bits written with 1 of the partition's five, and nothing else. -/
def Obligations.EngineCommands : Prop :=
  (∀ (s : State) (c p : Nat) (k : Core), kget? s.m.cores c = some k → s.m.partOfCore c = some p → (s.m.part p).taskRunning = true →
    k.eng.lastRowIn = true →
    let shadow := if k.eng.activeB then k.eng.setA else k.eng.setB
    let eng' : Engine := { k.eng with
      activeB := !k.eng.activeB, lastRowIn := false
      setA := if k.eng.activeB then k.eng.setA else { k.eng.setA with loaded := false }
      setB := if k.eng.activeB then { k.eng.setB with loaded := false } else k.eng.setB }
    let m' : Module := { s.m with cores := kput s.m.cores c { k with eng := eng' } }
    shadow.loaded = true →
      exec (.stationarySwap c) s = if 0xFF ∈ shadow.scales then after s (m'.abortTask p 0x0104 (.core c)) else .next { s with m := m' })
  ∧ ∀ (s : State) (p : Nat) (v : Reg64), (s.m.part p).tags < 32 →
      ∃ tags, exec (.engTagSummaryClear p v) s = after s { s.m with parts := kput s.m.parts p { s.m.part p with tags := tags } }
        ∧ ∀ i, bitAt tags i = (bitAt (s.m.part p).tags i && !bitAt v.toNat i)

/-- RESOLVE (R178, R179, R325, R332): the stream unit of a tail, whose list was not armed before, resolves it and pulls. For the next slot
of a tail window, FREE, with a predicted layer, whose list resolves, while the slot after is not FREE: the list region is as the resolution
leaves it, the dropped entries and the fallbacks are counted, one PULL of the resolved blocks has gone out, and the slot is
PULLED for its units. A list that is not armed changes nothing. -/
def Obligations.ResolveGoesOn : Prop :=
  ∀ (s : State) (c i p : Nat), s.m.partOfCore c = some p → (s.m.part p).started = true → (s.m.part p).taskRunning = true →
    let w := s.m.win c i
    let e := s.m.layer p w.layer
    w.tail = true → (w.slot w.next).st = .free → w.seqOut < 256 → e.predicted = true → e.predReuse = false →
    (resolve (s.m.core c) w.listAddr = .wait → exec (.resolve c i) s = .next s)
    ∧ (∀ k dropped fb, resolve (s.m.core c) w.listAddr = .done k dropped fb →
        (w.slot ((w.next + 1) % max 1 w.nslots)).st ≠ .free → (w.next + 1) % max 1 w.nslots ≠ w.next →
        let entries := listEntries k.sram w.listAddr
        let units := entries.length * e.blockUnits
        Completes (.resolve c i) s (fun m =>
          (m.core c).sram = k.sram
          ∧ (m.part p).dropped = min (2 ^ 32 - 1) ((s.m.part p).dropped + dropped)
          ∧ (m.part p).fallbacks = min (2 ^ 16 - 1) ((s.m.part p).fallbacks + fb)
          ∧ (m.win c i).slot w.next = assignSlot w.layer w.step units
          ∧ (∀ j, j ≠ w.next → (m.win c i).slot j = w.slot j)
          ∧ (m.win c i).next = (w.next + 1) % max 1 w.nslots
          ∧ (∀ d, d ≠ c → m.core d = s.m.core d)
          ∧ ∃ fs : List Flight, m.net.flights = s.m.net.flights ++ fs
            ∧ fs.map (fun f => (f.route, f.part, f.hdr, f.payload))
              = (List.range (max 1 (ceilDiv entries.length 12))).map (fun j =>
                (w.pullOut, p, mkHeader w.pullOut 4 0 ((w.seqOut + j) % 256) 0,
                  [controlFlit ((pullMsgs w.next w.layer w.step units (entries.map Prod.fst)).getD j 0)]))))

/-- NETWORK_FLUSH_END and THREAD_START (R195, R202). After 1,024 slots, or one frame when that is longer, the flush ends: no packet of the partition
is in flight, and every endpoint of its cores holds CREDITS_INIT credits and no count. Once the network is flushed and every
cluster the task needs is ON, the threads start: on each core of the partition an enabled thread is READY at its start address and every other
IDLE, all with registers 0; then tails pull. -/
def Obligations.TaskStart : Prop :=
  (∀ (s : State) (p : Nat), (s.m.part p).flushing = true → (s.m.part p).flushFrom + max 1024 s.m.net.frameLen ≤ s.m.net.slot →
    Completes (.networkFlushEnd p) s (fun m =>
      (m.part p) = { s.m.part p with flushing := false } ∧ (∀ q, q ≠ p → m.part q = s.m.part q)
      ∧ m.net.flights = s.m.net.flights.filter (fun f => f.part ≠ p)
      ∧ ∀ c k, kget? s.m.cores c = some k → (s.m.part p).hasCore c = true →
          ∃ k', kget? m.cores c = some k' ∧ k'.threads = k.threads ∧ k'.sram = k.sram ∧ k'.chains = []
            ∧ ∀ e x, kget? k.eps e = some x → kget? k'.eps e = some { x with
                credits := x.creditsInit, nextBuf := 0, count := 0, nextRel := 0, seq := 0, seqCredit := 0, expect := 0, marks := [] }))
  ∧ ∀ (s : State) (p : Nat), (s.m.part p).taskRunning = true → (s.m.part p).started = false → (s.m.part p).flushing = false →
      (s.m.part p).resumed = false → (∀ cl ∈ s.m.neededClusters p, (s.m.cluster cl).st = .on) →
      ∃ m' : Module, exec (.threadStart p) s = after s (m'.startPulls p)
        ∧ m'.parts = kput s.m.parts p { s.m.part p with started := true }
        ∧ (∀ c k im, kget? s.m.cores c = some k → k.img = some im → (s.m.part p).hasCore c = true →
            ∃ k' : Core, kget? m'.cores c = some k' ∧ { k' with threads := k.threads } = k
              ∧ ∀ t, t < 8 → kgetD {} k'.threads t = if bitAt im.threadEn t then { st := .ready, pc := im.starts.getD t 0 } else {})
        ∧ (∀ c, (s.m.part p).hasCore c = false → kget? m'.cores c = kget? s.m.cores c)
        ∧ { m' with parts := s.m.parts, cores := s.m.cores } = s.m
        ∧ ((∀ e ∈ m'.cores, e.2.wins = []) → m'.startPulls p = m')

/-! ## Numbers and time (R66 to R74, R514) -/

/-- EXACT accumulation (R69, R71, R74). A column adds each block contribution into the accumulator: finite values as integers, and a sum outside
−(2¹²⁷ − 2) to 2¹²⁷ − 2 becomes the infinity of its sign and sets OVERFLOW. Specials combine by R69. An accumulator of 0 writes back as +0, code 0, in
FP32, BF16, FP16 and ACC128, whatever the rounding mode. -/
def Obligations.ExactAccumulator : Prop :=
  (∀ (fa fs : Fmt) (row col : List Nat) (sa sb : Nat) (c : Cell),
    let v := blockContribution (List.zipWith (fun p q => elemMul (elemDecode fa p) (elemDecode fs q)) row col)
      (fa.lsbExp + fs.lsbExp + ((sa : Int) - 127) + ((sb : Int) - 127) + 64)
    let sum := accAdd (accDecode c.1) v.1
    exactCell fa fs row col sa sb c = (accEncode sum.1, c.2 ||| accFlags v.2.1 (v.2.2 || sum.2)))
  ∧ (∀ a b : Int, (-(2 ^ 127 - 2) ≤ a + b → a + b ≤ 2 ^ 127 - 2 → accAdd (.fin a) (.fin b) = (.fin (a + b), false))
    ∧ (2 ^ 127 - 2 < a + b → accAdd (.fin a) (.fin b) = (.inf false, true)) ∧ (a + b < -(2 ^ 127 - 2) → accAdd (.fin a) (.fin b) = (.inf true, true)))
  ∧ (∀ (x : Acc) (a : Int) (neg other : Bool), accAdd .nan x = (.nan, false) ∧ accAdd x .nan = (.nan, false)
    ∧ accAdd (.inf neg) (.fin a) = (.inf neg, false) ∧ accAdd (.fin a) (.inf neg) = (.inf neg, false)
    ∧ accAdd (.inf neg) (.inf other) = (if neg = other then .inf neg else .nan, false))
  ∧ (∀ x : Acc, (∀ a, x = .fin a → -(2 ^ 127 - 2) ≤ a ∧ a ≤ 2 ^ 127 - 2) → accDecode (accEncode x) = x)
  ∧ (∀ (i : Tmm) (b m n flags : Nat), i.exact = true → i.fc = .fp32 ∨ i.fc = .bf16 ∨ i.fc = .fp16 ∨ i.fc = .acc128 →
    (i.writeBack b m n (accEncode (.fin 0), flags)).1 = 0)

/-- The time of the tray (R514). A TIME frame of the tray controller sets AOS_TIME_OFFSET to the tray count less the module's own, and SYNCED reads 1.
The module's own count and the times in its fault records stay, and the time of a record plus the offset is its tray time: the tray count, less the
age of the record. -/
def Obligations.TrayTime : Prop :=
  ∀ (s : State) (frame : BitVec 160), let x := frame.toNat
    s.m.mech.standby = true → s.m.sup.side.bypass = false → crc32c (leBytes 16 x) = fld x 128 32 → fld x 4 4 = 0 → s.m.sup.side.slot ≠ 0 →
        fld x 0 4 = 1 →
    Completes (.time frame) s (fun m =>
      m.sup.side.offset = (fld x 16 64 : Int) - (s.m.now : Int) ∧ m.sup.side.synced = true
      ∧ (m.aosReg 0x20).val = twos 64 m.sup.side.offset % 2 ^ 64 ∧ bitAt (m.aosReg 0x28).val 6 = true
      ∧ m.now = s.m.now ∧ m.sup.intake = s.m.sup.intake ∧ m.sup.intakeFatal = s.m.sup.intakeFatal ∧ m.sup.log = s.m.sup.log
      ∧ (∀ r : FaultRec, r.time ≤ s.m.now → (r.time : Int) + m.sup.side.offset = (fld x 16 64 : Int) - ((s.m.now - r.time : Nat) : Int)))

/-! ## Vector and engine instructions (R97, R116, R118, R131, R136 to R139, R142, R144, R148 to R156) -/

/-- The 27 vector instructions of R151, as `vectorTable` lists them (R138, R139, R148, R196). With an empty queue: an instruction with ROWS = 0 only
goes on. One whose bytes clash with an unfinished instruction of its thread waits. One whose carry slots are not all ready, its sources FULL and its
destination EMPTY, enters the unit's queue and its thread goes on. One that is ready consumes its carry sources, goes on at the next instruction and
leaves its results as `VecLeaves` says; the tag summary gains the flags of the tiles written. Behind others an instruction enters the queue while that
has room, else it waits. The head of the queue, once ready, runs with the registers of its issue, and its thread keeps its place. -/
def Obligations.VectorInstructions : Prop :=
  ∀ e ∈ vectorTable, ∀ (s : State) (c t p : Nat) (k : Core),
    (∀ (th : Thread) (w : Nat), Issues s c t e.2.1 p k th w → NextInside k th →
      let i := vecOf e.2.2 (s.m.ctx p c) k th w
      let enters := after s (enqueued s c t .vector k th w i.spans)
      (i.rows = 0 → k.vecQ = [] → exec (e.1 c t) s = .next ((left s c t .vector k th.next).found c (k.softFetch th)))
      ∧ (i.rows ≠ 0 → i.inRange = true → i.outSpans.any k.writesCode = false →
        (k.vecQ = [] → k.clear t i.spans = false → exec (e.1 c t) s = .next (parked s c t k th))
        ∧ (k.vecQ = [] → k.clear t i.spans = true → i.ready k = false → exec (e.1 c t) s = enters)
        ∧ (k.vecQ = [] → k.clear t i.spans = true → i.ready k = true → i.badRead k w = none → k.rmwBad (i.puts k th) = none →
          ∃ (k' : Core) (v : KMap Word), VecLeaves i k th k' v ∧ exec (e.1 c t) s = after s
            (foundAt (tagged (left s c t .vector k' { th.next with v := v }).m p (i.flags k th)) c (k.softFetch th ++ i.softRead k w (i.puts k th))))
        ∧ (∀ q qs, k.vecQ = q :: qs → q.thread ≠ t ∨ fld q.word 0 8 ≠ e.2.1 → k.clear t i.spans = true →
          exec (e.1 c t) s = if k.vecQ.length < 5 then enters else .next (parked s c t k th))))
    ∧ ∀ (q : Issued) (qs : List Issued), AtHead s c t e.2.1 p .vector k q qs →
      let k0 : Core := { k with vecQ := qs }
      let th := q.view k
      let i := vecOf e.2.2 (s.m.ctx p c) k0 th q.word
      NextInside k0 th → i.rows ≠ 0 → i.inRange = true → i.outSpans.any k0.writesCode = false → i.ready k0 = true →
      i.badRead k0 q.word = none → k0.rmwBad (i.puts k0 th) = none →
      ∃ (k' : Core) (v : KMap Word), VecLeaves i k0 th k' v ∧ exec (e.1 c t) s = after s
        (foundAt (tagged (left s c t .vector k' { kgetD ({} : Thread) k.threads t with v := v }).m p (i.flags k0 th)) c
          (i.softRead k0 q.word (i.puts k0 th)))

/-- What an element of a vector instruction is (R81, R116, R117, R151, R152). The elementwise operations round one exact result; a function of
R117 rounds its silicon value again when the destination is not FP32; CVT to ACC128 takes its input exactly. A row of an operation that
is not a row operation, with an unscaled destination, is these elements in order; RSUM, RMAX and RMIN give one element a row. -/
def Obligations.VectorElements : Prop :=
  ∀ (i : Vec) (a b c : Fp) (rand : Nat),
    let rounds (v : Fp) : Prop := i.elem a b c rand = ((fpRound i.fout i.rnd rand v).1, accFlags false (fpRound i.fout i.rnd rand v).2)
    (i.fout ≠ .acc128 →
      (i.op = .add → rounds (a.add b)) ∧ (i.op = .sub → rounds (a.add b.neg)) ∧ (i.op = .mul → rounds (a.mul b))
      ∧ (i.op = .fma → rounds ((a.mul b).add c)) ∧ (i.op = .min → rounds (a.min b)) ∧ (i.op = .max → rounds (a.max b))
      ∧ (i.op = .cmplt → rounds (if a.lt b then .one else .zero)) ∧ (i.op = .cmpeq → rounds (if a.eqv b then .one else .zero))
      ∧ (i.op = .sel → rounds (if c.isNan || c.isZero then b else a)) ∧ (i.op = .div → rounds (a.div b))
      ∧ (i.op = .sqrt → rounds a.sqrt) ∧ (i.op = .recip → rounds (Fp.one.div a)) ∧ (i.op = .cvt → rounds a))
    ∧ (∀ f, i.op = .fn f → i.fout = .fp32 → i.elem a b c rand = ((silicon f (f32 a)).1, accFlags false (silicon f (f32 a)).2))
    ∧ (∀ f, i.op = .fn f → i.fout ≠ .fp32 → (i.elem a b c rand).1 = (fpRound i.fout i.rnd rand (fpDecode .fp32 (silicon f (f32 a)).1)).1)
    ∧ (i.op = .cvt → i.fout = .acc128 → (i.elem a b c rand).1 = accEncode (accOfFp i.rnd rand a).1)
    ∧ (∀ k th r, i.fout.blockScaled = false → (i.row k th r).1.length = if i.op.perRow then 1 else i.len)

/-- The TMM forms (R97, R136 to R139, R144, R148, R155, R183, R196). With an empty queue: an instruction with M = 0 only goes on. One whose bytes
clash with an unfinished instruction of its thread waits. One that lacks a carry slot, a unit of a window slot or its resolved list enters the
engine's queue, where it starts the timers of the slots that it lacks and loads its first tile, and its thread goes on. One that is
ready, and whose batches end without an abort, goes on and leaves its results as `TmmLeaves` says; the tag summary gains the flags of the tiles
completed. Behind others an instruction enters the queue while that has room, else it waits. The head of the queue, once ready, runs with the
registers of its issue, and its thread keeps its place. -/
def Obligations.TmmInstructions : Prop :=
  ∀ e ∈ tmmTable, ∀ (s : State) (c t p : Nat) (k : Core),
    (∀ (th : Thread) (w : Nat), Issues s c t e.2.1 p k th w → NextInside k th →
      let i := tmmOf e.2.2 (s.m.ctx p c) k th w
      let enters := after s ((enqueued s c t .engine k th w i.spans).headWaits c .engine)
      (fld w 32 16 = 0 → k.engQ = [] → exec (e.1 c t) s = .next ((left s c t .engine k th.next).found c (k.softFetch th)))
      ∧ (fld w 32 16 ≠ 0 → i.inRange = true → i.outSpans.any k.writesCode = false →
        (k.engQ = [] → k.clear t i.spans = false → exec (e.1 c t) s = .next (parked s c t k th))
        ∧ (k.engQ = [] → k.clear t i.spans = true → listPending e.2.2 k w = true ∨ i.ready k = false → exec (e.1 c t) s = enters)
        ∧ (k.engQ = [] → k.clear t i.spans = true → listPending e.2.2 k w = false → i.ready k = true → i.badRead k w = none →
          ∀ sram us os, i.batchesGo k (i.mark k) i.batches 0 k.sram [] = .ok (sram, us, os) →
          let puts := us.flatMap (fun u => u.puts)
          k.rmwBad puts = none →
          ∃ k' : Core, TmmLeaves i k k' us os sram ∧ exec (e.1 c t) s = after s
            (foundAt (tagged (left s c t .engine k' th.next).m p (unitTags us)) c (k.softFetch th ++ i.softRead k w puts)))
        ∧ (∀ q qs, k.engQ = q :: qs → q.thread ≠ t ∨ fld q.word 0 8 ≠ e.2.1 → k.clear t i.spans = true → s.m.headWaits c .engine = s.m →
          exec (e.1 c t) s = if k.engQ.length < 8 then enters else .next (parked s c t k th))))
    ∧ ∀ (q : Issued) (qs : List Issued), AtHead s c t e.2.1 p .engine k q qs →
      let k0 : Core := { k with engQ := qs }
      let th := q.view k
      let i := tmmOf e.2.2 (s.m.ctx p c) k0 th q.word
      NextInside k0 th → fld q.word 32 16 ≠ 0 → listPending e.2.2 k0 q.word = false → i.inRange = true → i.outSpans.any k0.writesCode = false →
      i.ready k0 = true → i.badRead k0 q.word = none →
      ∀ sram us os, i.batchesGo k0 (i.mark k0) i.batches 0 k0.sram [] = .ok (sram, us, os) →
      let puts := us.flatMap (fun u => u.puts)
      k0.rmwBad puts = none →
      ∃ k' : Core, TmmLeaves i k0 k' us os sram ∧ exec (e.1 c t) s = after s
        (foundAt (tagged (left s c t .engine k' (kgetD ({} : Thread) k.threads t)).m p (unitTags us)) c (i.softRead k0 q.word puts))

/-! ## The network (R210, R211, R215 to R217, R219 to R221, R225, R228) -/

/-- PACKET_INJECT (R210, R216): a send endpoint with a ready buffer and a credit injects its oldest ready packet, with the next SEQ and the tag word
of the buffer, which goes where every one of its flits goes (R206, R210); the credit and the buffer are spent, correctable errors in the bytes read
are found (R297), and nothing else of the module changes. -/
def Obligations.PacketInjected : Prop :=
  ∀ (s : State) (c e p : Nat) (k : Core) (x : Endpoint), kget? s.m.cores c = some k → kget? k.eps e = some x → s.m.partOfCore c = some p →
    let n := 64 * (x.pktM1 + 1)
    let sites := packetSites (x.pktM1 + 2) (s.m.flitsFromCore c x.route)
    x.recv = false → 0 < x.count → 0 < x.credits → s.m.netOpen p = true → sites ≠ [] →
    k.badAt (x.ringBase + x.nextBuf * n) n = none → k.badAt (x.tagBase + 4 * x.nextBuf) 4 = none →
    exec (.packetInject c e) s = .next (State.found { s with m := { s.m with
      net.flights := s.m.net.flights ++ [{ route := x.route, part := p, payload := ringFlits k x x.nextBuf, sites := sites
                                           hdr := mkHeader x.route (wireKind x.wire) x.pktM1 x.seq (readLE k.sram (x.tagBase + 4 * x.nextBuf) 4) }]
      cores := kput s.m.cores c { k with eps := kput k.eps e { x with
        count := x.count - 1, credits := x.credits - 1, nextBuf := (x.nextBuf + 1) % x.ringPkts, seq := (x.seq + 1) % 256, marks := x.marks.tail } } } }
      c (k.softAt (x.ringBase + x.nextBuf * n) n ++ k.softAt (x.tagBase + 4 * x.nextBuf) 4))

/-- PACKET_DELIVERY at a receive endpoint (R217): the oldest packet of the route at the core, of the endpoint's kind and the SEQ expected, with a free
buffer, is taken off the route; its payload, in memory form, is in the next buffer, its tag word in the tag array, and the buffer counts as
delivered. The READ whose data the endpoint takes is counted besides, and a correctable error in the word of the tag is found (R297). -/
def Obligations.PacketDelivered : Prop :=
  ∀ (s : State) (c route e : Nat) (f : Flight) (rest : List Flight) (k : Core) (x : Endpoint), c < 19600 →
    takeFlight c route s.m.net.flights = some (f, rest) → kget? s.m.cores c = some k → s.m.recvEndpoint c f.route = some e →
    kget? k.eps e = some x → (s.m.part f.part).flushing = false → s.m.active f.part = true →
    hKind f.hdr = wireKind x.wire → hKind f.hdr ≠ 3 → (x.wire = .redExact → hLen f.hdr % 2 = 1) → hSeq f.hdr = x.expect → x.count < x.ringPkts →
    let fs := if x.wire = .redExact then exactToMem f.payload else f.payload
    let at_ := x.ringBase + x.nextBuf * 64 * (x.pktM1 + 1)
    let tagAt := x.tagBase + 4 * x.nextBuf
    k.rmwBad [(2 * tagAt, 32, 0)] = none →
    let k' := ({ k with
      sram := writeLE (writeBytes k.sram at_ (flitBytes fs)) tagAt 4 (hTag f.hdr)
      eps := kput k.eps e { x with count := x.count + 1, nextBuf := (x.nextBuf + 1) % x.ringPkts, expect := (x.expect + 1) % 256 }
      }.rewrite at_ (64 * fs.length)).rewrite tagAt 4
    exec (.packetDelivery c route .ok) s = .next (State.found { s with m := { s.m with
      net.flights := rest, cores := kput s.m.cores c (k'.noteRead f.route (64 * fs.length)) } }
      c (k'.softWords.filter (fun q => inWord q tagAt 4)))

/-- CREDIT_PACKET at a send endpoint (R215): a CREDIT packet of the SEQ expected gives LEN_M1 + 1 credits, up to CREDITS_INIT, and is gone. -/
def Obligations.CreditsArrive : Prop :=
  ∀ (s : State) (c route e : Nat) (f : Flight) (rest : List Flight) (k : Core) (x : Endpoint), c < 19600 →
    takeFlight c route s.m.net.flights = some (f, rest) → kget? s.m.cores c = some k → hKind f.hdr = 3 →
    k.eps.find? (fun q => !q.2.recv && q.2.creditRoute = f.route) = some (e, x) → kget? k.eps e = some x →
    (s.m.part f.part).flushing = false → s.m.active f.part = true →
    hSeq f.hdr = kgetD 0 k.expects (16384 + f.route) → x.credits + (hLen f.hdr + 1) ≤ x.creditsInit →
    exec (.creditPacket c route .ok) s = .next { s with m := { s.m with
      net.flights := rest
      cores := kput s.m.cores c { k with
        expects := kput k.expects (16384 + f.route) ((hSeq f.hdr + 1) % 256)
        eps := kput k.eps e { x with credits := x.credits + (hLen f.hdr + 1) } } } }

/-- REDUCTION_EMIT (R219 to R221): with both inputs of a binding holding a packet and a credit left, the unit emits the sum of the oldest two, FIRST +
SECOND, with their combined tag words and the flags of the sum, and gives one credit back on each input's credit route. Both packets are
gone. (Inputs from other routers; from its own core the credit stays inside the router.) -/
def Obligations.ReductionEmitted : Prop :=
  ∀ (s : State) (c i : Nat) (k : Core) (b : Binding) (h1 h2 : BitVec 512) (p1 p2 : List (BitVec 512))
    (r1 r2 : List (BitVec 512 × List (BitVec 512))),
    kget? s.m.cores c = some k → k.binds[i]? = some b → b.qFirst = (h1, p1) :: r1 → b.qSecond = (h2, p2) :: r2 → 0 < b.credits →
    s.m.netOpen b.part = true → b.first ≠ 5 → b.second ≠ 5 →
    Completes (.reductionEmit c i) s (fun m =>
      (∃ b' : Binding, m.core c = { k with binds := k.binds.set i b' } ∧ b'.qFirst = r1 ∧ b'.qSecond = r2 ∧ b'.credits = b.credits - 1
        ∧ b'.seqCreditF = (b.seqCreditF + 1) % 256 ∧ b'.seqCreditS = (b.seqCreditS + 1) % 256)
      ∧ (∀ d, d ≠ c → m.core d = s.m.core d) ∧ m.parts = s.m.parts
      ∧ ∃ fs : List Flight, m.net.flights = s.m.net.flights ++ fs
        ∧ fs.map (fun f => (f.route, f.part, f.hdr, f.payload)) =
          [(b.route, b.part, mkHeader b.route (hKind h1) (hLen h1) (hSeq h1) (tagAdd (tagCombine (hTag h1) (hTag h2)) (sumPayload b.exact p1 p2).2),
              (sumPayload b.exact p1 p2).1),
           (b.crFirst, b.part, mkHeader b.crFirst 3 0 b.seqCreditF 0, []),
           (b.crSecond, b.part, mkHeader b.crSecond 3 0 b.seqCreditS 0, [])])

/-- A schedule slip or a wrong CRC that a receiving unit finds on a route (R224, R225, R228): the partition of the route has FAILED, its detection is
counted in NET_ERR_COUNT, the input port is marked, and no other partition is touched. While the partition's network is flushed a flit that arrives is
discarded without a slip (R202). -/
def Obligations.WireFaultFails : Prop :=
  ∀ (s : State) (site route port p : Nat), s.m.routeOwner route = some p → (s.m.part p).st ≠ .off → (s.m.part p).st ≠ .failed →
    let old : Nat × Nat := kgetD (0, 0) s.m.net.errs p
    let fails (slips crcs : Nat) (m : Module) : Prop :=
      (m.part p).st = .failed ∧ (m.part p).taskRunning = false ∧ (∀ q, q ≠ p → m.part q = s.m.part q)
      ∧ m.topo.markedLinks = s.m.topo.markedLinks ++ [(routerOf site, port)]
      ∧ kgetD (0, 0) m.net.errs p = (if 0 < slips then satN 32 (old.1 + slips) else old.1, if 0 < crcs then satN 32 (old.2 + crcs) else old.2)
    ((s.m.part p).flushing = true → exec (.packetDelivery site route (.slip port)) s = .next s
        ∧ exec (.packetDelivery site route (.badCrc port)) s = .next s
      ∧ exec (.creditPacket site route (.slip port)) s = .next s ∧ exec (.creditPacket site route (.badCrc port)) s = .next s)
    ∧ ((s.m.part p).flushing = false → Completes (.packetDelivery site route (.slip port)) s (fails 1 0)
      ∧ Completes (.packetDelivery site route (.badCrc port)) s (fails 0 1)
      ∧ Completes (.creditPacket site route (.slip port)) s (fails 1 0)
      ∧ Completes (.creditPacket site route (.badCrc port)) s (fails 0 1))

/-! ## The memory tiers (R271 to R304, R501) -/

/-- READ (R280, R281, R285, R298, R329): a READ that keeps the checks of R280, first of its route at its home die, on a page of T1, of T2 with the
host reached, or ZERO, whose bytes fit one packet, decode, and hold no uncorrectable word, sends its data in order on READ_ROUTE for one credit. Its
page's heat grows by one for every 64 KiB read since it last grew; each correctable error that the read finds in T1 is counted and logged, and its
word written back; nothing else changes. -/
def Obligations.ReadServed : Prop :=
  ∀ (s : State) (die route : Nat) (found : List T1Finding) (f : Flight) (rest : List Flight) (bs : List Byte),
    die < 64 → takeFlight (ringSite die) route s.m.net.flights = some (f, rest) → (s.m.part f.part).flushing = false → s.m.netOpen f.part = true →
    (∀ r ∈ s.m.tier.reqs, ¬(r.die = die ∧ r.route = f.route) ∧ r.id ≠ s.m.tier.ids + 1) →
    hKind f.hdr = 4 → s.m.isRequest f.part f.route = true → hSeq f.hdr = kgetD 0 s.m.net.dieExpect f.route →
    s.m.badRequest f.part die f.msg = false → fld f.msg 0 4 = 1 →
    let m := s.m.t1Found (found.filter (fun x => s.m.home? (32 * x.word / pageBytes) = some die))
    let addr := fld f.msg 96 56
    let len := fld f.msg 160 22
    let reply := fld f.msg 16 14
    let pg := addr / pageBytes
    let seq := kgetD 0 s.m.net.dieSeq reply
    (s.m.page pg).tier ≠ 3 → ((s.m.page pg).tier = 2 → s.m.hostUp = true) → len ≤ 4096 → m.badIn addr len = none → s.m.load? addr len = some bs →
    0 < kgetD 0 s.m.net.dieCredits reply →
    exec (.read die ⟨route, found⟩) s = .next { s with m := { m.readT1 addr len with
      net.flights := rest ++ [{ route := reply, part := f.part, hdr := mkHeader reply 0 ((flitsOf bs).length - 1) seq 0
                                payload := flitsOf bs, sites := packetSites ((flitsOf bs).length + 1) (s.m.flitsFromRing die reply) }]
      net.dieExpect := kput s.m.net.dieExpect f.route ((hSeq f.hdr + 1) % 256)
      net.dieSeq := kput s.m.net.dieSeq reply ((seq + 1) % 256)
      net.dieCredits := kput s.m.net.dieCredits reply (kgetD 0 s.m.net.dieCredits reply - 1)
      tier.ids := s.m.tier.ids + 1
      tier.pages := kset {} s.m.tier.pages pg ((s.m.page pg).heated len) } }

/-- WRITE and WRITE_DONE (R280, R281, R329). A WRITE that keeps the checks of R280 and is first of its route opens its page of T1 and waits for its
data. A packet of its data is stored at the next bytes, in the coded form of its tile where the object is compressed, its endpoint has one credit
back, and after the last byte WRITE_DONE, repeating TAG, ADDR and LEN, goes out on the route the request names and the request is over. A WRITE_DONE
counts at its port, with its TAG. -/
def Obligations.WritesServed : Prop :=
  ∀ (s : State) (site route : Nat) (f : Flight) (rest : List Flight),
    takeFlight site route s.m.net.flights = some (f, rest) → (s.m.part f.part).flushing = false → s.m.netOpen f.part = true →
    let seqD := hSeq f.hdr = kgetD 0 s.m.net.dieExpect f.route
    let expect := kput s.m.net.dieExpect f.route ((hSeq f.hdr + 1) % 256)
    (∀ die, die < 64 → site = ringSite die → seqD → hKind f.hdr = 4 → s.m.isRequest f.part f.route = true → s.m.badRequest f.part die f.msg = false →
      fld f.msg 0 4 = 2 → (∀ r ∈ s.m.tier.reqs, ¬(r.die = die ∧ r.route = f.route) ∧ r.id ≠ s.m.tier.ids + 1) →
      let addr := fld f.msg 96 56
      let len := fld f.msg 160 22
      let pg := addr / pageBytes
      (s.m.page pg).tier = 1 → (s.m.page pg).move = none → (s.m.page pg).pending = false →
      exec (.write die route) s = .next { s with m := { s.m with
        net.flights := rest
        net.dieExpect := expect
        tier.ids := s.m.tier.ids + 1
        tier.pages := kset {} s.m.tier.pages pg ((s.m.page pg).heated len)
        tier.reqs := s.m.tier.reqs ++ [{ id := s.m.tier.ids + 1, die := die, route := f.route, part := f.part, write := true
                                         reply := fld f.msg 16 14, data := fld f.msg 32 14, tag := fld f.msg 64 32, addr := addr, len := len
                                         phase := .moving }] } })
    ∧ (∀ (die back : Nat) (r : TierReq) (l1 l2 : List TierReq), die < 64 → die ≠ svcS → site = ringSite die → seqD → hKind f.hdr = 0 →
      s.m.gradRouteAt f.part die f.route = none → s.m.tier.reqs = l1 ++ r :: l2 →
      (∀ x ∈ l1 ++ l2, ¬(x.die = die ∧ (x.route = r.route ∨ x.data = f.route)) ∧ x.id ≠ r.id) →
      r.die = die → r.part = f.part → r.write = true → r.data = f.route → r.phase = .moving → r.pos < r.len →
      s.m.cores.findSome? (fun e => (e.2.eps.find? (fun q => !q.2.recv && q.2.route = f.route)).map (fun q => q.2.creditRoute)) = some back →
          back ≠ 0 →
      let bs := (flitBytes f.payload).take (r.len - r.pos)
      let pg := r.addr / pageBytes
      (s.m.page pg).tier = 1 → (s.m.page pg).move = none →
      (r.addr + r.pos) / pageBytes = pg →
      Completes (.write die route) s (fun m =>
        m.tier.mem = (s.m.putBytes (r.addr + r.pos) bs).tier.mem
        ∧ ((s.m.objOf pg).2.compress = false → m.tier.mem = writeBytes s.m.tier.mem (r.addr + r.pos) bs) ∧ m.cores = s.m.cores ∧ m.parts = s.m.parts
        ∧ (∀ q, q ≠ pg → m.page q = s.m.page q)
        ∧ (m.page pg).written = (tilesIn (r.addr + r.pos) bs.length).foldl (fun w t => setMask w t true) (s.m.page pg).written
        ∧ m.tier.reqs = (if r.len ≤ r.pos + bs.length then l1 ++ l2 else l1 ++ { r with pos := r.pos + bs.length } :: l2)
        ∧ ∃ fs : List Flight, m.net.flights = rest ++ fs ∧ fs.map (fun g => (g.route, g.part, g.hdr, g.payload)) =
          [(back, r.part, mkHeader back 3 0 (kgetD 0 s.m.net.dieSeqCredit back) 0, [])]
          ++ (if r.len ≤ r.pos + bs.length then
                [(r.reply, r.part, mkHeader r.reply 4 0 (kgetD 0 s.m.net.dieSeq r.reply) 0, [controlFlit (doneMsg r)])] else [])))
    ∧ (∀ (c i : Nat) (k : Core), c < 19600 → site = c → kget? s.m.cores c = some k → hKind f.hdr = 4 →
      s.m.recvEndpoint c f.route = none → s.m.winsAt c (fun w => w.dataRoute = f.route) = [] → s.m.winsAt c (fun w => w.pullIn = f.route) = [] →
      s.m.donePort c f.route = some i → hSeq f.hdr = kgetD 0 k.expects f.route →
      exec (.writeDone c route) s = .next { s with m := { s.m with
        net.flights := rest
        cores := kput s.m.cores c { k with
          expects := kput k.expects f.route ((hSeq f.hdr + 1) % 256)
          ports := kupd k.ports i (fun q => { q with done := q.done + 1, lastTag := fld f.msg 64 32, open_ := q.open_ - 1 }) } } })

/-- EPOCH_END, MOVE_TILE_COPIED and MOVE_COMPLETE (R285 to R288, R298, R302). An epoch over, heat at the die is halved, the epoch counts, TIER_MIGRATE
and the low water marks take effect at the die, and no page leaves its tier at that moment; with migration off at the die no move starts there. A move
of a page between T1 and T2 copies its written tiles in stored form in order, each that goes to T2 as one write of the host; what its read finds in T1
is counted, and an uncorrectable word, like a failure of the remote side, abandons the move, the page staying where it is. After the last tile the
directory entry switches at once, the frames that are neither the page's tier's nor its reserved one's are free, and the promotion or demotion counts.
-/
def Obligations.EpochsAndMoves : Prop :=
  ∀ s : State,
    (∀ die, die ∈ s.m.homes → s.m.usPassed (kgetD 0 s.m.tier.epochAt die) (fld (s.m.mig die) 32 16) = true →
      Completes (.epochEnd die) s (fun m => m.tier.epochNo = kput s.m.tier.epochNo die (kgetD 0 s.m.tier.epochNo die + 1)
        ∧ m.tier.epochAt = kput s.m.tier.epochAt die s.m.now
        ∧ m.tier.migNow = kput s.m.tier.migNow die s.m.tier.migrate ∧ m.tier.lowNow = kput s.m.tier.lowNow die s.m.tier.lowWater
        ∧ m.tier.mem = s.m.tier.mem ∧ m.cores = s.m.cores ∧ m.parts = s.m.parts
        ∧ ∀ q, (m.page q).heat = (if s.m.home? q = some die then (s.m.page q).heat / 2 else (s.m.page q).heat)
          ∧ (m.page q).tier = (s.m.page q).tier ∧ (m.page q).written = (s.m.page q).written
          ∧ (fld (s.m.mig die) 60 1 = 0 → (m.page q).move = (s.m.page q).move)))
    ∧ (∀ (pg t : Nat) (v : Move) (found : List T1Finding), (s.m.page pg).move = some v →
      (List.range 32).find? (fun t => v.next ≤ t && bitAt (s.m.page pg).written t) = some t →
      (s.m.page pg).tier ≠ 3 → v.dest ≠ 3 → (((s.m.page pg).tier = 2 ∨ v.dest = 2) → s.m.hostUp = true) →
      let m := s.m.t1Found found
      let done := (m.readT1 (slotAddr pg t) tileBytes).setPage pg { s.m.page pg with move := some { v with next := t + 1 } }
      (m.badIn (slotAddr pg t) tileBytes = none →
        exec (.moveTileCopied pg ⟨false, found⟩) s = .next { s with m := if v.dest = 2 then
          { done with out := done.out ++ [.hostWrite (s.m.t2Addr pg t) (s.m.slot pg t)] } else done })
      ∧ (∀ failed, m.badIn (slotAddr pg t) tileBytes ≠ none ∨ (failed = true ∧ ((s.m.page pg).tier ≠ 1 ∨ v.dest ≠ 1)) →
        Completes (.moveTileCopied pg ⟨failed, found⟩) s (fun m => m.tier.mem = s.m.tier.mem ∧ m.cores = s.m.cores ∧ m.parts = s.m.parts
          ∧ m.page pg = { s.m.page pg with move := none }.settled (s.m.objOf pg).2.slow ∧ ∀ q, q ≠ pg → m.page q = s.m.page q)))
    ∧ (∀ (pg p i : Nat) (v : Move) (o : TierObj), (s.m.page pg).move = some v → s.m.objAt pg = some (4096 * p + i, o) → i < 4096 →
      (∀ t, t < 32 → v.next ≤ t → bitAt (s.m.page pg).written t = false) → v.open_ = 0 →
      exec (.moveComplete pg) s = after s { s.m with
        tier.pages := kset {} s.m.tier.pages pg { s.m.page pg with
          tier := v.dest, move := none
          t2 := if v.dest = 2 || o.slow = 2 then (s.m.page pg).t2 else none
          pool := if v.dest = 3 || o.slow = 3 then (s.m.page pg).pool else none }
        tier.badWords := s.m.tier.badWords.filter (fun e => 32 * e.1 / pageBytes ≠ pg)
        tier.softWords := s.m.tier.softWords.filter (fun e => 32 * e.1 / pageBytes ≠ pg)
        parts := kput s.m.parts p (if v.dest < (s.m.page pg).tier then { s.m.part p with promos := satN 32 ((s.m.part p).promos + 1) }
          else { s.m.part p with demos := satN 32 ((s.m.part p).demos + 1) }) })

/-- What runs behind the work (R297 to R300, R501): ECC_WRITEBACK mends the soft word; T0_SCRUB and T1_SCRUB read the line or word whose turn it is;
an error that a scrub corrects counts and is mended at its bank's next write-back; T1_REFRESH starts a stack's activation counts again,
ACTIVATION_GUARD refreshes the neighbours of a row once more; a TARGETED_SELF_TEST ends the location's test, and a mismatch enters it into the field
retirement list. -/
def Obligations.TierUpkeep : Prop :=
  ∀ s : State,
    (∀ (c w : Nat) (k : Core), kget? s.m.cores c = some k → w ∈ k.softWords →
      exec (.eccWriteback c w) s = .next { s with m := s.m.setCore c { k with softWords := k.softWords.filter (· ≠ w) } })
    ∧ (∀ (c w : Nat) (k : Core), kget? s.m.cores c = some k → s.m.serving = true → s.m.powered c = true → w / 2 = k.scrubNext →
        k.scrubNext + 1 < 40960 →
      exec (.t0Scrub c w .clean) s = .next { s with m := s.m.setCore c { k with scrubNext := k.scrubNext + 1 } }
      ∧ Completes (.t0Scrub c w .corrected) s (fun m => w ∈ (m.core c).softWords ∧ (m.core c).scrubNext = k.scrubNext + 1
          ∧ m.tier.eccT0Corr = satN 32 (s.m.tier.eccT0Corr + 1) ∧ (m.core c).sram = k.sram))
    ∧ (∀ (die stack row idx : Nat) (word : Place), s.m.serving = true → s.m.stackUp stack = true → die = (t1Loc stack).idx →
      idx = kgetD 0 s.m.tier.t1At stack → idx + 1 < 3 * 2 ^ 30 →
      exec (.t1Scrub die stack row idx word .clean) s = .next { s with m := { s.m with tier.t1At := kput s.m.tier.t1At stack (idx + 1) } }
      ∧ Completes (.t1Scrub die stack row idx word .corrected) s (fun m => m.tier.t1At = kput s.m.tier.t1At stack (idx + 1)
          ∧ m.tier.eccT1Corr = satN 32 (s.m.tier.eccT1Corr + 1) ∧ m.tier.mem = s.m.tier.mem))
    ∧ (∀ stack, exec (.t1Refresh stack) s = .next { s with m := { s.m with
        tier.acts := s.m.tier.acts.filter (fun e => e.1 / 2 ^ 32 ≠ stack + 1) } })
    ∧ (∀ stack row, s.m.stackUp stack = true → exec (.activationGuard stack row) s = .next { s with m := { s.m with
        tier.acts := kmod 0 s.m.tier.acts (t1Key stack row) (· + 1) } })
    ∧ (∀ (l : EccLoc) (failed : Bool), (s.m.eccPlace l).1 ∈ s.m.tier.tests →
      Completes (.targetedSelfTest l failed) s (fun m => m.tier.tests = s.m.tier.tests.filter (· ≠ (s.m.eccPlace l).1)
        ∧ m.cores = s.m.cores ∧ m.parts = s.m.parts
        ∧ (failed = true → (s.m.eccPlace l).2.2 ∈ m.topo.retire)
        ∧ (failed = false → kgetD 0 s.m.tier.eccSeen (s.m.eccPlace l).1 < 2 → m.topo = s.m.topo)))

/-! ## Streams and the pool (R305 to R349) -/

/-- The ingress die and its timers (R311, R312, R322, R339, R340). STAGE_PULL_ISSUE asks for the next section of a RING stage, as many units as free
tiles hold; PULL_RESEND sends a PULL again, unchanged, after 5 ms without its data; SOURCE_TIMEOUT aborts the task with 0x0202; REPARENT turns a tine
child to its grandparent and counts; CHILD_SILENT stops the wait for a child, and ADOPT_HOLD_EXPIRY lets its last ACKED hold no tile. -/
def Obligations.StreamTimers : Prop :=
  ∀ (s : State) (p i : Nat) (f : Flow), let key := 256 * p + i
    kget? s.m.str.flows key = some f →
    (∀ sect, f.ret = false → f.resident = false → sect < f.feeders.length → (s.m.part p).taskRunning = true → (s.m.part p).krf.phase ≠ .dumping →
      f.pos % 16 = sect → kget? f.sects f.pos = none →
      let e := s.m.layer p (f.layerNo (f.pos / 16))
      let units := f.sectionUnits e sect
      let count := min (16 * f.freeTiles sect) units
      0 < count →
      let f' := { f with
        sects := kput f.sects f.pos { layer := f.layerNo (f.pos / 16), units := units, place := kgetD 0 f.alloc sect, next := count
                                      served := kgetD [] f.early f.pos }
        early := f.early.filter (fun e => e.1 ≠ f.pos)
        alloc := kput f.alloc sect (kgetD 0 f.alloc sect + count / 16)
        pos := if units ≤ count then f.nextPos f.pos else f.pos }
      exec (.stagePullIssue p i sect) s = after s (((s.m.setFlow key f').sendPsp (portOfRing f.portDie) f.parent 1 (count = units) f.stream e.src sect 0
        count 0 (leBytes 4 0)).setFlow key { f' with
          pulls := f.pulls ++ [{ key := f.pos, unit := 0, count := count, at_ := s.m.now, last := s.m.now }]
          forgot := f.forgot.filter (fun y => !(y.key = f.pos && 0 < y.unit + y.count && y.unit < count)) }))
    ∧ (∀ (j : Nat) (x : Pull), p < 16 → f.pulls[j]? = some x → s.m.msPassed (max x.at_ x.last) 5 = true →
      exec (.pullResend p i j) s = after s ((s.m.sendPull p key x).setFlow key { f with pulls := f.pulls.set j { x with at_ := s.m.now } }))
    ∧ ((f.tine = false ∨ f.reparented = true) → f.pulls.any (fun x => s.m.msPassed x.last (fld s.m.str.timeouts 0 16)) = true →
      exec (.sourceTimeout p i) s = after s (s.m.abortTask p 0x0202 (.ring f.portDie)))
    ∧ (f.tine = true → f.reparented = false → f.pulls.any (fun x => s.m.msPassed x.last 20) = true →
      Completes (.reparent p i) s (fun m =>
        m.flow key = { f with parent := f.grand, reparented := true, pulls := f.pulls.map (fun x => { x with at_ := s.m.now, last := s.m.now }) }
        ∧ m.part p = { s.m.part p with reparents := satN 16 ((s.m.part p).reparents + 1) } ∧ (∀ q, q ≠ p → m.part q = s.m.part q)
        ∧ m.cores = s.m.cores ∧ m.tier = s.m.tier))
    ∧ (∀ (c : Nat) (x : Child), f.children[c]? = some x →
      (x.silentAt = none → (s.m.part p).taskRunning = true → s.m.msPassed x.lastAt 20 = true →
        exec (.childSilent p i c) s = .next { s with m := s.m.setFlow key (f.setChild { x with silentAt := some s.m.now, wants := [] }) })
      ∧ (∀ t, x.silentAt = some t → x.gone = false → s.m.msPassed t (fld s.m.str.timeouts 16 16) = true →
        exec (.adoptHoldExpiry p i c) s = after s ((s.m.setFlow key (f.setChild { x with gone := true })).freeStage p key)))

/-- PSP messages (R309, R311, R338, R346): a PULL that names no flow is answered with NOT_FOUND and counted, and one that names a return flow is
answered so too but not counted (the model's choice, log 124); a child's PULL of a section to come waits at the stage; a nonzero STATUS that answers a
PULL aborts the task with 0x0202 and a STATUS of zero changes nothing; a GRAD_ACK acknowledges the units it names, of which a GRAD may keep a rest,
with a nonzero STATUS it aborts the task, and without it the task ends at SRC_MS. A message with a bad header is only counted. -/
def Obligations.PspMessages : Prop :=
  ∀ (s : State) (port mac : Nat) (msg : List Byte), let h := leNat (msg.take 32)
    let stream := fld h 32 32
    (pspOk msg = false → ∀ c, c ∈ [Instr.pspPull port mac msg, .status port mac msg, .gradAck port mac msg, .poolAck port mac msg] →
      exec c s = .next { s with m := { s.m with str.badHeader := satN 32 (s.m.str.badHeader + 1) } })
    ∧ (pspOk msg = true → pspType msg = 1 → ¬ (s.m.servedStream = some stream ∧ s.m.launchPort = some port) →
      (s.m.flowOf stream false = none → exec (.pspPull port mac msg) s =
        after s ((if (s.m.flowOf stream true).isSome then s.m else s.m.unknownStream).sendPsp port mac 3 false stream (fld h 64 16) (fld h 80 4)
          (fld h 96 32) (fld h 128 32) 1 []))
      ∧ (∀ (key n : Nat) (f : Flow) (c : Child), s.m.flowOf stream false = some key → kget? s.m.str.flows key = some f → f.resident = true →
        let p := key / 256
        let src := fld h 64 16
        let sect := fld h 80 4
        let unit := fld h 96 32
        let count := fld h 128 32
        (List.range f.count).find? (fun i => (s.m.layer p (f.first + i)).src = src) = some n → sect < f.feeders.length → 0 < count → unit % 16 = 0 →
        unit + count ≤ f.sectionUnits (s.m.layer p (f.first + n)) sect →
        (count % 16 = 0 ∨ unit + count = f.sectionUnits (s.m.layer p (f.first + n)) sect) →
        f.children.find? (fun c => c.mac = mac) = some c → c.wants = [] →
        let sk := s.m.childKey p f c src sect
        kget? f.sects sk = none →
        exec (.pspPull port mac msg) s = .next { s with m := s.m.setFlow key (f.setChild { c with
          port := portOfRing f.portDie, lastAt := s.m.now, silentAt := none, gone := false, acked := kput c.acked sk (leAt msg 32 4)
          top := max c.top sk, wants := [(sk, unit, unit + count)] }) }))
    ∧ (∀ (key : Nat) (f : Flow), pspOk msg = true → pspType msg = 3 → s.m.launching = false → s.m.flowOf stream false = some key →
      kget? s.m.str.flows key = some f →
      (fld h 160 16 = 0 → exec (.status port mac msg) s = .next s)
      ∧ (fld h 160 16 ≠ 0 → f.pulls.any (s.m.pullNames (key / 256) f (fld h 64 16) (fld h 80 4) (fld h 96 32)) = true →
        exec (.status port mac msg) s = after s (s.m.abortTask (key / 256) 0x0202 (.ring f.portDie))))
    ∧ (∀ (key : Nat) (f : Flow), pspOk msg = true → fld h 8 8 = 9 → s.m.flowOf stream true = some key → kget? s.m.str.flows key = some f →
      let l := fld h 64 16
      let b := fld h 96 32
      let c := fld h 128 32
      let n := ((f.grads.filter (fun g => g.layer = l)).map (fun g => g.shared b c)).foldl (· + ·) 0
      (n = 0 → exec (.gradAck port mac msg) s = .next s)
      ∧ (n ≠ 0 → fld h 160 16 = 0 → exec (.gradAck port mac msg) s = after s ((s.m.setFlow key { f with
        grads := f.grads.flatMap (fun g => if g.layer = l then g.less b c else [g])
        ackedUnits := kmod 0 f.ackedUnits l (fun a => a + n) }).herdGo (key / 256) f.herd herdFuel))
      ∧ (n ≠ 0 → fld h 160 16 ≠ 0 → exec (.gradAck port mac msg) s = after s (s.m.abortTask (key / 256) 0x0202 (.ring f.portDie))))
    ∧ (∀ (p i : Nat) (f : Flow), kget? s.m.str.flows (256 * p + i) = some f →
      f.grads.any (fun g => s.m.msPassed g.at_ (fld s.m.str.timeouts 0 16)) = true →
      exec (.gradAckTimeout p i) s = after s (s.m.abortTask p 0x0202 (.ring f.portDie)))

/-- DATA (R290, R295, R311, R321): a tile that passes its check and is named by the one outstanding PULL of a RESIDENT stage is written at its place
in the stage in stored form, counts as stored, and no other page and no other byte of Terourn space changes. A tile that fails aborts the task with
0x0203, and one that no PULL names with 0x0204. -/
def Obligations.DataStored : Prop :=
  ∀ (s : State) (k : Chunk) (key : Nat) (f : Flow) (x : Pull) (sec : Section), let h := leNat (k.upper.take 32)
    let p := key / 256
    let src := fld h 64 16
    let sect := fld h 80 4
    let u := fld h 96 32 + 16 * k.chunk
    pspOk k.upper = true → leAt k.upper 1 1 = 2 → s.m.launching = false → fld h 160 16 = 0 → s.m.flowOf (fld h 32 32) false = some key →
    kget? s.m.str.flows key = some f → 0 < fld h 128 32 → fld h 96 32 % 16 = 0 → fld h 128 32 % 16 = 0 → 16 * k.chunk < fld h 128 32 →
    (f.pulls = [] → f.forgot = [] → f.sects = [] → exec (.data k) s = after s (s.m.abortTask p 0x0204 (.ring f.portDie)))
    ∧ (f.pulls = [x] → s.m.pullNames p f src sect u x = true →
      let e := s.m.layer p (f.layerNo (x.key / 16))
      (readTransit e.width 0xFFFF src (u / 16 % 32) k.payload = none → exec (.data k) s = after s (s.m.abortTask p 0x0203 (.ring f.portDie)))
      ∧ (∀ (r : List Byte × Bool), readTransit e.width 0xFFFF src (u / 16 % 32) k.payload = some r →
        x.bypass = none → kget? f.sects x.key = some sec → u / 16 ∉ sec.got → f.resident = true → f.children = [] → s.m.str.winPulls = [] →
        let a := s.m.stageAddr p f (f.feeder sect) (sec.place + u / 16)
        let pg := a / pageBytes
        let t := a % pageBytes / tileBytes
        (s.m.page pg).tier = 1 → (s.m.page pg).pending = false → (s.m.page pg).move = none →
        let len := bodyLenOf k.payload
        let body := slice k.payload 64 len
        let stored := if len = tileBytes then body else tileHeader len (s.m.objOf pg).2.width (s.m.objOf pg).1 (pg - (s.m.objOf pg).2.base) t ++ body
        Completes (.data k) s (fun m => m.tier.mem = writeBytes s.m.tier.mem (slotAddr pg t) stored
          ∧ m.page pg = { s.m.page pg with
              written := setMask (s.m.page pg).written t true, rawMask := setMask (s.m.page pg).rawMask t (len = tileBytes) }
          ∧ kget? (m.flow key).sects x.key = some { sec with got := sec.got ++ [u / 16] }
          ∧ (∀ q, q ≠ pg → m.page q = s.m.page q) ∧ m.cores = s.m.cores ∧ m.parts = s.m.parts)))

/-- The pool's answers to a move (R287, R292, R313): POOL_ACK and POOL_DATA end the oldest unanswered transfer of their port; the tile of POOL_DATA is
put in its place in stored form, with no recoding; a nonzero STATUS, a tile that has no stored form, or 10 ms without an answer abandons the move, and
the page stays where it is. -/
def Obligations.PoolAnswers : Prop :=
  ∀ (s : State) (port pg : Nat) (op : PoolOp) (v : Move), op.owner = .move pg → (s.m.page pg).move = some v →
    let given := { s.m.page pg with move := none }.settled (s.m.objOf pg).2.slow
    (∀ (mac : Nat) (msg : List Byte), pspOk msg = true → leAt msg 1 1 = 7 → s.m.str.poolWrites.find? (fun o => o.port = port) = some op →
      let m0 := { s.m with str.poolWrites := s.m.str.poolWrites.filter (fun o => o.id ≠ op.id) }
      (leAt msg 20 2 = 0 → exec (.poolAck port mac msg) s =
        .next { s with m := m0.setPage pg { s.m.page pg with move := some { v with open_ := v.open_ - 1 } } })
      ∧ (leAt msg 20 2 ≠ 0 → Completes (.poolAck port mac msg) s (fun m => m.page pg = given
          ∧ (∀ q, q ≠ pg → m.page q = s.m.page q) ∧ m.tier.mem = s.m.tier.mem)))
    ∧ (∀ (k : Chunk) (pg' t : Nat) (o : TierObj) (oi : Nat), k.port = port → pspOk k.upper = true → leAt k.upper 1 1 = 5 →
      s.m.str.poolReads.find? (fun o => o.port = port) = some op → fld (leNat (k.upper.take 32)) 160 16 = 0 →
      s.m.placeOfPool op.addr = some (pg', t) → s.m.objAt pg = some (oi, o) →
      let read := readTransit o.width oi (pg - o.base) t k.payload
      let stored : Option (List Byte × Bool) :=
        match transitParts k.payload with
        | none => none
        | some (hdr, body) =>
          if read.isNone && !o.compress then none
          else if bodyLenOf hdr = tileBytes then some (body, true)
          else if o.compress then some (hdr ++ body, false)
          else read.map (fun r => (r.1, true))
      (stored = none → Completes (.poolData k) s (fun m => m.page pg = given ∧ (∀ q, q ≠ pg → m.page q = s.m.page q) ∧ m.tier.mem = s.m.tier.mem))
      ∧ (∀ bs raw, stored = some (bs, raw) → Completes (.poolData k) s (fun m =>
          m.tier.mem = writeBytes s.m.tier.mem (slotAddr pg t) bs
          ∧ m.page pg = { s.m.page pg with written := setMask (s.m.page pg).written t true, rawMask := setMask (s.m.page pg).rawMask t raw
                                           move := some { v with open_ := v.open_ - 1 } }
          ∧ (∀ q, q ≠ pg → m.page q = s.m.page q) ∧ m.str.poolReads = s.m.str.poolReads.filter (fun o => o.id ≠ op.id))))
    ∧ (s.m.str.poolReads.find? (s.m.poolLate port) = some op →
      Completes (.poolTimeout port) s (fun m => m.page pg = given ∧ (∀ q, q ≠ pg → m.page q = s.m.page q)
        ∧ m.tier.mem = s.m.tier.mem ∧ m.str.poolReads = s.m.str.poolReads.filter (fun o => o.id ≠ op.id)))

/-! ## Layer windows, frames, chunks and herds (R323 to R336, R352 to R364, R371 to R380) -/

/-- Windows (R323, R324, R327, R334 to R336). UNIT_ARRIVAL puts 4,096 bytes at the next unit of the slot that the earliest pull with units to come
names, whose state they advance while it is still that pull's; SWITCH says how that pull goes on; WINDOW_PULL queues a member's pull at its feeder
while the stage lacks its units; a MISS meets its pull, waits for it, is answered with COMPLETE = 1 or is discarded; a DEADLINE_MISS counts and marks
its slot. -/
def Obligations.WindowTraffic : Prop :=
  ∀ s : State,
    (∀ (c route i : Nat) (f : Flight) (rest : List Flight) (k : Core) (w : Window) (fl : Fill) (fr : List Fill), c < 19600 →
      takeFlight c route s.m.net.flights = some (f, rest) →
      (s.m.part f.part).flushing = false → s.m.active f.part = true → kget? s.m.cores c = some k → s.m.recvEndpoint c f.route = none →
      s.m.winsAt c (fun w => w.dataRoute = f.route) = [i] → kget? k.wins i = some w → hSeq f.hdr = kgetD 0 k.expects f.route → w.fills = fl :: fr →
      let k' := { k with expects := kput k.expects f.route ((hSeq f.hdr + 1) % 256) }
      let x := w.slot fl.slot
      (hKind f.hdr = 0 →
        let at_ := w.slotBase + (fl.slot * w.slotUnits + fl.got) * 4096
        let g := { fl with got := fl.got + 1 }
        let w1 := { w with fills := if g.got < g.units then g :: fr else fr }
        let w' := if x.ofFill fl then w1.setSlot fl.slot (settleSlot x g) else w1
        let m1 := { s.m with
          net.flights := rest
          cores := kput s.m.cores c ({ { k' with sram := writeBytes k.sram at_ ((flitBytes f.payload).take 4096) }.rewrite at_ 4096 with
            wins := kput k.wins i w' }) }
        let done : Bool := x.ofFill fl && (settleSlot x g).st = .veneer
        (done = false → exec (.unitArrival c route) s = .next { s with m := m1 })
        ∧ (∀ p, done = true → s.m.partOfCore c = some p →
          exec (.unitArrival c route) s = after s (m1.modPart p (fun y => { y with veneers := satN 32 (y.veneers + b2n w.tail) }))))
      ∧ (hKind f.hdr = 4 → winMsgOk f.msg = true → fld f.msg 0 4 = 3 →
        let named : Bool := fl.slot = fld f.msg 4 4 && fl.layer = fld f.msg 8 16 && fl.step = fld f.msg 24 32
        let whole := bitAt f.msg 66
        let g := if whole then fl else { fl with units := (s.m.layer f.part fl.layer).veneerUnits, got := 0, veneer := true }
        let w1 := { w with fills := g :: fr }
        let w' := if x.ofFill fl then w1.setSlot fl.slot { x with sw := some (fld f.msg 56 10, whole), units := g.units, arrived := g.got } else w1
        exec (.switch c route) s = .next { s with m := { s.m with
          net.flights := rest
          cores := kput s.m.cores c (if named then { k' with wins := kput k.wins i w' } else k') } }))
    ∧ (∀ (die route key mem : Nat) (f : Flight) (rest : List Flight) (g : Flow), die < 64 →
        takeFlight (ringSite die) route s.m.net.flights = some (f, rest) →
      (s.m.part f.part).flushing = false → s.m.netOpen f.part = true → (s.m.part f.part).taskRunning = true → hKind f.hdr = 4 →
      s.m.isRequest f.part f.route = false →
      hSeq f.hdr = kgetD 0 s.m.net.dieExpect f.route → s.m.pullRouteAt f.part die f.route = some (key, mem) → winMsgOk f.msg = true →
      kget? s.m.str.flows key = some g → g.resident = true →
      let x := f.msg
      let slot := fld x 4 4
      let layer := fld x 8 16
      let n := seqOf g x
      let m0 := { s.m with net.flights := rest, net.dieExpect := kput s.m.net.dieExpect f.route ((hSeq f.hdr + 1) % 256) }
      (∀ load : FeederLoad, fld x 0 4 = 1 → (∀ w ∈ s.m.str.winPulls, w.flow ≠ key) → (s.m.layer f.part layer).predicted = false → bitAt x 71 = false →
        0 < fld x 56 10 → g.sects = [] → kgetD 0 g.pulledTo mem ≤ n → (∀ e ∈ g.misses, ¬(e.1 = mem ∧ seqOf g e.2 = n)) →
        mem ∈ g.membersOf die → (s.m.part f.part).bypass = false →
        exec (.windowPull die route load) s = .next { s with m := { m0 with
          str.loads := kput s.m.str.loads die (load.cycles, load.permille)
          str.flows := kput s.m.str.flows key { g with pulledTo := kput g.pulledTo mem (n + 1) }
          str.winPulls := s.m.str.winPulls ++ [
            { flow := key, feeder := die, member := mem, slot := slot, layer := layer, seqNo := n, units := fld x 56 10
              blocks := (List.range (fld x 67 4)).map (fun i => fld x (96 + 32 * i) 16) }] } })
      ∧ (fld x 0 4 = 2 →
        let found := s.m.str.winPulls.find? (fun w => w.flow = key && w.member = mem && w.seqNo = n)
        let due := kgetD 0 g.pulledTo mem
        (∀ w, found = some w →
          (w.veneer = true ∨ w.slot ≠ slot → exec (.miss (ringSite die) route) s = .next { s with m := m0 })
          ∧ (w.veneer = false → w.slot = slot → exec (.miss (ringSite die) route) s = after s ((m0.cutPull f.part w x).feed f.part key die)))
        ∧ (found = none →
          (due ≤ n → exec (.miss (ringSite die) route) s = .next { s with m := m0.setFlow key { g with misses := g.misses ++ [(mem, x)] } })
          ∧ (n < due → n + s.m.slotsOf key mem < due → exec (.miss (ringSite die) route) s = .next { s with m := m0 })
          ∧ (n < due → due ≤ n + s.m.slotsOf key mem → exec (.miss (ringSite die) route) s = .next { s with
              m := m0.ringControl f.part die (kgetD 0 g.dataRoute mem) (winMsg 3 slot layer (fld x 24 32) (fld x 56 10) true [] false) }))))
    ∧ (∀ (c i sl p t : Nat) (k : Core) (w : Window), kget? s.m.cores c = some k → kget? k.wins i = some w → s.m.partOfCore c = some p →
      (w.slot sl).timer = some t → (w.slot sl).st = .pulled → (s.m.part p).taskRunning = true →
      (s.m.part p).deadline (s.m.layer p (w.slot sl).layer).cls ≠ 0 →
          s.m.usPassed t ((s.m.part p).deadline (s.m.layer p (w.slot sl).layer).cls) = true →
      Completes (.deadlineMiss c i sl) s (fun m => (m.part p).misses = satN 32 ((s.m.part p).misses + 1)
        ∧ ((m.win c i).slot sl) = { w.slot sl with timer := none, missed := true } ∧ (∀ d, d ≠ c → m.core d = s.m.core d)
        ∧ (∀ q, q ≠ p → m.part q = s.m.part q) ∧ m.tier = s.m.tier))

/-- Frames and links (R352 to R354, R356, R548). At a port whose link is up FRAME_RECEIVE counts a wrong FCS, a discard or a PAUSE, and an accepted
frame does what the row of its content does; LINK_DOWN loses the frames that wait, LINK_UP clears the faults where the port is present and its
transmitter enabled, and a new VC0 interval lets waiting frames go. -/
def Obligations.FramesAndLinks : Prop :=
  ∀ (s : State) (port : Nat), port < 48 → let x := s.m.port port
    (∀ frame : List Byte, x.up = true →
      (s.m.frameFate port frame = .fcs → exec (.frameReceive port frame) s =
        .next { s with m := s.m.setPort port { x with fcsErrors := satN 32 (x.fcsErrors + 1) } })
      ∧ (s.m.frameFate port frame = .discard → exec (.frameReceive port frame) s =
        .next { s with m := s.m.setPort port { x with discards := satN 32 (x.discards + 1) } })
      ∧ (s.m.frameFate port frame = .pause → exec (.frameReceive port frame) s =
        .next { s with m := s.m.setPort port { x with pauseIgnored := satN 32 (x.pauseIgnored + 1) } })
      ∧ (s.m.frameFate port frame = .accept →
        let mac := beNat (slice frame 6 6)
        let msg := slice frame 16 (frame.length - 20)
        let s' := { s with m := s.m.setPort port { x with framesRx := satN 32 (x.framesRx + 1) } }
        let b := msg.drop 2
        (leAt b 0 1 = 0xC1 → exec (.frameReceive port frame) s = exec (.chunkSegment port mac msg) s')
        ∧ (leAt b 0 1 = 0xC2 → sealOk 64 (b.take 64) = true →
          (leAt (b.take 64) 1 1 = 1 → exec (.frameReceive port frame) s = exec (.ack port mac msg) s')
          ∧ (leAt (b.take 64) 1 1 = 2 → exec (.frameReceive port frame) s = exec (.nak port mac msg) s')
          ∧ (leAt (b.take 64) 1 1 = 3 → exec (.frameReceive port frame) s = exec (.waitAnswer port mac msg) s'))
        ∧ (leAt b 0 1 = 0x01 → beNat (msg.take 2) = s.m.str.ethertype → pspOk b = true →
          (leAt b 1 1 = 1 → exec (.frameReceive port frame) s = exec (.pspPull port mac b) s')
          ∧ (leAt b 1 1 = 3 → exec (.frameReceive port frame) s = exec (.status port mac b) s')
          ∧ (leAt b 1 1 = 7 → exec (.frameReceive port frame) s = exec (.poolAck port mac b) s')
          ∧ (leAt b 1 1 = 9 → exec (.frameReceive port frame) s = exec (.gradAck port mac b) s'))))
    ∧ (∀ lf rf, s.m.portPresent port = true → exec (.linkDown port lf rf) s = .next { s with m := s.m.setPort port { x with
        up := false, localFault := lf, remoteFault := rf, vc0Wait := [], downs := if x.up then satN 16 (x.downs + 1) else x.downs } })
    ∧ (s.m.portPresent port = true → s.m.transmitOn = true → exec (.linkUp port) s = .next { s with m := s.m.setPort port { x with
        up := true, localFault := false, remoteFault := false } })
    ∧ (s.m.portPresent port = false ∨ s.m.transmitOn = false → exec (.linkUp port) s = .next s)
    ∧ (s.m.usPassed x.vc0From 10 = true →
      exec (.vc0BudgetInterval port) s = after s ((s.m.setPort port { x with vc0Used := 0, vc0From := s.m.now }).drainVc0 port x.vc0Wait.length)
      ∧ (x.vc0Wait = [] → exec (.vc0BudgetInterval port) s = .next { s with m := s.m.setPort port { x with vc0Used := 0, vc0From := s.m.now } }))

/-- Chunks (R361 to R364). A segment of a chunk not yet whole is kept with it; a chunk that was accepted before has its ACK sent again, and one whose
CRC-64 is wrong its NAK, as has one that is not whole at GAP_TIMEOUT; a segment that comes with the expiry of GAP_US goes with the partial chunk. ACK
ends a chunk sent; NAK and ACK_TIMEOUT send all its segments again with RETRY + 1, WAIT after ACK_US with the same RETRY; an answer to an earlier
transmission is stale, except ACK. -/
def Obligations.Chunks : Prop :=
  ∀ s : State,
    (∀ (port mac : Nat) (msg : List Byte), let etype := beNat (msg.take 2)
      let q := (segmentOf mac etype s.m.now (msg.drop 2)).1
      (etype = s.m.str.ethertype ∨ etype = s.m.fab.herdType) → leAt msg 2 1 = 0xC1 → sealOk 96 (msg.drop 2) = true →
      (∀ e ∈ s.m.fab.partials, ¬(e.1 = port ∧ e.2.key = q.key)) →
      let whole := (List.range q.nsegs).all (fun i => (kget? q.segs i).isSome)
      let answer (m : Module) (kind : Nat) := after s (m.sendAnswer port mac etype kind q.chan q.msg q.chunk q.retry)
      (whole = false → exec (.chunkSegment port mac msg) s = .next { s with m := { s.m with fab.partials := s.m.fab.partials ++ [(port, q)] } })
      ∧ (whole = true → q.key ∈ s.m.fab.accepted → exec (.chunkSegment port mac msg) s = answer s.m 1)
      ∧ (whole = true → q.key ∉ s.m.fab.accepted → crc64 (q.toChunk port).payload ≠ fld (leNat (q.hdr.take 96)) 192 64 → q.retry ≠ 4 →
        exec (.chunkSegment port mac msg) s = answer (s.m.noteCrc port) 2))
    ∧ (∀ (port mac : Nat) (msg : List Byte) (e : Nat × Partial), let etype := beNat (msg.take 2)
      let q := (segmentOf mac etype s.m.now (msg.drop 2)).1
      let sn := (segmentOf mac etype s.m.now (msg.drop 2)).2
      (etype = s.m.str.ethertype ∨ etype = s.m.fab.herdType) → leAt msg 2 1 = 0xC1 → sealOk 96 (msg.drop 2) = true →
      s.m.fab.partials.find? (fun e => e.1 = port && e.2.key = q.key) = some e →
      (s.m.usPassed e.2.at_ s.m.gapUs = false → exec (.chunkSegment port mac msg) s = after s (s.m.collect port q sn))
      ∧ (s.m.usPassed e.2.at_ s.m.gapUs = true → s.m.usOver e.2.at_ s.m.gapUs = false →
        exec (.chunkSegment port mac msg) s = after s (s.m.gapOut port e.2)))
    ∧ (∀ (port i : Nat) (q : Partial), s.m.fab.partials[i]? = some (port, q) → s.m.usPassed q.at_ s.m.gapUs = true →
      let m0 := { s.m with fab.partials := s.m.fab.partials.filter (fun e => !(e.1 = port && e.2.key = q.key)) }
      let answer (kind : Nat) := after s (m0.sendAnswer port q.mac q.etype kind q.chan q.msg q.chunk q.retry)
      (q.key ∈ s.m.fab.accepted → exec (.gapTimeout port i) s = answer 1)
      ∧ (q.key ∉ s.m.fab.accepted → q.retry ≠ 4 → exec (.gapTimeout port i) s = answer 2))
    ∧ (∀ (i : Nat) (c : SentChunk) (gp gf : Nat), s.m.fab.sent[i]? = some c → c.owner = .grad gp gf →
      let again (c : SentChunk) : Module :=
        let m := s.m.setSent i { c with at_ := s.m.now, waiting := false }
        (if c.retry = 0 then m else m.setPort c.port { m.port c.port with retransmits := satN 32 ((m.port c.port).retransmits + 1) }).sendSegments c
      (∀ (port mac r : Nat) (msg : List Byte),
        (s.m.answered mac 1 msg = some (i, c, r) →
          exec (.ack port mac msg) s = .next { s with m := { s.m with fab.sent := s.m.fab.sent.eraseIdx i } })
        ∧ (s.m.answered mac 2 msg = some (i, c, r) →
          (r < c.retry → exec (.nak port mac msg) s = .next s)
          ∧ (c.retry ≤ r → c.retry < 4 → exec (.nak port mac msg) s = after s (again { c with nak := true, retry := c.retry + 1 })))
        ∧ (s.m.answered mac 3 msg = some (i, c, r) →
          (r < c.retry → exec (.waitAnswer port mac msg) s = .next s)
          ∧ (c.retry ≤ r → exec (.waitAnswer port mac msg) s =
            .next { s with m := s.m.setSent i { c with waiting := true, at_ := s.m.now } })))
      ∧ (s.m.usPassed c.at_ s.m.ackUs = true →
        (c.waiting = true → exec (.ackTimeout i) s = after s (again c))
        ∧ (c.waiting = false → c.retry < 4 → exec (.ackTimeout i) s = after s (again { c with retry := c.retry + 1 }))))

/-- Herds (R371, R376 to R380, R383). HERD_RUN starts the herd's next operation with the chunks and places its descriptor names; a chunk's deadline,
once it is over, counts the inputs that lack, each member of which is lost with its third miss in a row, and a result's counts once; LOST aborts the
task of a lost member that still runs; HERD_ABORT counts and aborts the task where the herd does not re-form; one that is malformed is discarded and
counted, and one that names no herd of the sender changes nothing. -/
def Obligations.HerdCommands : Prop :=
  ∀ s : State,
    (∀ q : Nat, let y := s.m.queue q
      let p := q / 64
      let key := 4096 * p + y.param 0 12
      let h := s.m.herd key
      let m1 := (s.m.startCmd q).setQueue q { (s.m.startCmd q).queue q with opSeq := h.opSeq }
      let n := kgetD 0 m1.fab.msgs (herdKey h.id)
      s.m.atStart q 0x20 = true → (s.m.part p).st = .running → (s.m.part p).taskRunning = true → h.run = none →
      exec (.herdRun q) s = after s (({ m1 with
        fab.msgs := kput m1.fab.msgs (herdKey h.id) ((n + 1) % 2 ^ 32)
        herds := kput m1.herds key { m1.herd key with began := true, run := some {
          chunks := y.param 32 24, msg := n, src := y.param 64 56, dst := y.param 128 56, queue := some q, ret := none } }
        }).herdGo p (y.param 0 12) herdFuel))
    ∧ (∀ (p i k c t : Nat) (r : HerdOp) (x : ChunkIn), let key := 4096 * p + i
      let h := s.m.herd key
      h.run = some r → kget? (r.at_ k).ins c = some x → x.first = some t → h.leads k = true →
      s.m.usOver t (h.deadlineUs * (2 * k - 1)) = true →
      let late := (h.included k).filter (fun j => (kget? x.tiles j).isNone && j ≠ (h.stage k).self)
      let missed := (r.at_ k).missed ++ late.map (fun j => (j, c))
      exec (.herdDeadlineExpiry p i k c) s = after s ((late.filter (fun j => threeMisses ((missed.filter (fun e => e.1 = j)).map Prod.snd) c)).foldl
        (fun m j => m.memberLost p i k j)
        ((s.m.setRun key (r.setAt k { r.at_ k with missed := missed, ins := kput (r.at_ k).ins c { x with first := none } })).modPart p
          (fun y => { y with dlMisses := satN 32 (y.dlMisses + late.length) }))))
    ∧ (∀ (p i c t : Nat) (r : HerdOp), let key := 4096 * p + i
      let h := s.m.herd key
      h.run = some r → kget? r.resTimer c = some t → c ∉ r.arrived → s.m.usPassed t (4 * h.top * h.deadlineUs) = true →
      let m1 := (s.m.setRun key { r with resTimer := kdel r.resTimer c, resMissed := r.resMissed ++ [c] }).modPart p
        (fun y => { y with dlMisses := satN 32 (y.dlMisses + 1) })
      (threeMisses (r.resMissed ++ [c]) c = false → exec (.resultDeadlineExpiry p i c) s = after s m1)
      ∧ (threeMisses (r.resMissed ++ [c]) c = true → exec (.resultDeadlineExpiry p i c) s =
        after s (m1.abortTask p 0x0502 { Loc.ring h.portDie with sub := (h.stage h.levels).leader } h.levels)))
    ∧ (∀ (port mac : Nat) (msg : List Byte), let dropped := Host.Outcome.next { s with m := s.m.discard port }
      (badHerdMsg msg 1 = true → exec (.herdAbort port mac msg) s = dropped) ∧ (badHerdMsg msg 2 = true → exec (.lost port mac msg) s = dropped)
      ∧ (s.m.herdMsg mac msg = none → (badHerdMsg msg 1 = false → exec (.herdAbort port mac msg) s = .next s)
        ∧ (badHerdMsg msg 2 = false → exec (.lost port mac msg) s = .next s)))
    ∧ (∀ (port mac key k j n : Nat) (msg : List Byte), let h := s.m.herd key
      s.m.herdMsg mac msg = some (key, k, j, n) →
      (badHerdMsg msg 2 = false → (h.stage k).self = j → (h.stage k).self ≠ (h.stage k).leader →
        (h.stage k).macs.getD (h.stage k).leader 0 = mac →
        exec (.lost port mac msg) s = after s (s.m.abortTask (key / 4096) 0x0502 { Loc.ring h.portDie with sub := j } k))
      ∧ (badHerdMsg msg 1 = false → (h.stage k).macs.getD j 0 = mac → (k, j) ∉ h.lost → (s.m.part (key / 4096)).taskRunning = true →
          h.reform = false →
        exec (.herdAbort port mac msg) s = after s ((s.m.modPart (key / 4096) (fun y => { y with abortsRx := satN 16 (y.abortsRx + 1) })).abortTask
          (key / 4096) 0x0502 { Loc.ring h.portDie with sub := j } k (some mac))))

/-! ## The host link, command queues, tasks, copies, sessions and batches (R388, R389, R393 to R417) -/

/-- The CXL link (R254, R388, R389, R407, R549). LINK_DOWN and a cleared Bus Master Enable end a jig staging read with 0x0603; LINK_UP trains the
active position; FAILOVER after 10 ms down tries the other position, with Bus Master Enable 0; a failed access ends the copy of its queue with 0x0202,
or with 0x0402 where the line was poisoned, and INFO counts the leading lines that are complete; of a completion write it has the entry written again.
-/
def Obligations.HostLinkEvents : Prop :=
  ∀ s : State, let x := s.m.que.cxl
    let lost (m : Module) : Host.Outcome State Fault Refusal := if m.jig.phase = .staging ∧ m.jig.fabric = false
      then after s (m.refuseLoad { code := 0x0603, res := 0x30 } 0) else .next { s with m := m }
    let alive := s.m.sys.svcFailed.contains svcS = false ∧ s.m.sys.st ≠ .cold ∧ (s.m.sys.st = .bringup → 1 ≤ s.m.sys.stage)
      ∧ (s.m.sys.st = .recovery → 1 ≤ s.m.sys.stage ∨ s.m.sec.noImage = true)
    (x.up = true → exec .cxlLinkDown s = lost { s.m with que.cxl := { x with up := false, width := 0, speed := 0, downAt := s.m.now } })
    ∧ (∀ width speed, x.up = false → alive →
      exec (.cxlLinkUp width speed) s = .next { s with m := { s.m with
        que.cxl := { x with up := true, width := width % 16, speed := speed % 16 } } })
    ∧ (∀ width speed trained, x.up = false → x.failoverEn = true → s.m.msPassed x.downAt 10 = true → alive →
      exec (.failover trained width speed) s = .next { s with m := { s.m with que.cxl := { x with
        posB := !x.posB, failovers := min (2 ^ 16 - 1) (x.failovers + 1), downAt := s.m.now, busMaster := false, up := trained
        width := if trained then width % 16 else 0, speed := if trained then speed % 16 else 0 } } })
    ∧ (x.up = true → exec (.busMasterEnable true) s = .next { s with m := { s.m with que.cxl := { x with busMaster := true } } }
      ∧ exec (.busMasterEnable false) s = lost { s.m with que.cxl := { x with busMaster := false } })
    ∧ (∀ b, exec (.cxlCablePresence b) s = .next { s with m := { s.m with mech := { s.m.mech with bPresence := b } } })
    ∧ exec (.hostAccessFailed .staging) s = lost s.m
    ∧ (∀ q y poisoned, kget? s.m.que.queues q = some y → y.running = true → y.op = 0x10 ∨ y.op = 0x11 → y.desc.isSome = true →
      exec (.hostAccessFailed (.copy q poisoned)) s = .next { s with
        m := ended (s.m.copyFreed q) q y (if poisoned then 0x0402 else 0x0202) (y.pieces.foldl (fun a x => min a x.pos) y.copyPos) false false })
    ∧ (∀ q y, kget? s.m.que.queues q = some y →
      (y.written.isSome = true → exec (.hostAccessFailed (.queue q)) s = .next { s with m := s.m.setQueue q { y with redo := true } })
      ∧ (y.written = none → exec (.hostAccessFailed (.queue q)) s = .next s))

/-- Queue control (R394 to R396, R400). ENABLE from DISABLED makes the queue ACTIVE with empty rings and phase 1, or sets CONFIG_ERR; a host ring
passes with both sizes 4 to 16. DISABLE waits for a running command. A doorbell of the ring's size or more sets DB_ERR, another moves the position.
SKIP resumes at the next entry and RETRY at the same. The tail word of a Terourn ring is read like a doorbell. -/
def Obligations.QueueControl : Prop :=
  ∀ (s : State) (src : Source) (q : Nat) (x : Queue), kget? s.m.que.queues q = some x →
    let set (y : Queue) : Host.Outcome State Fault Refusal := .next { s with
        m := { s.m with que := { s.m.que with queues := kput s.m.que.queues q y } } }
    let size := 2 ^ fld x.cfg 0 5
    (s.m.cfgOk src = true → x.st = .disabled →
      exec (.enable src q) s = (if s.m.enableOk q then set { x with
        st := .active, configErr := false, dbErr := false, stopCode := 0, sqHead := 0, sqTail := 0, cqTail := 0, cqHead := 0, phase := true
        desc := none, todo := [] } else set { x with configErr := true })
      ∧ (bitAt x.sqBase 0 = false → (s.m.enableOk q = true ↔ (4 ≤ fld x.cfg 0 5 ∧ fld x.cfg 0 5 ≤ 16) ∧ 4 ≤ fld x.cfg 8 5 ∧ fld x.cfg 8 5 ≤ 16)))
    ∧ (s.m.cfgOk src = true → x.st = .active ∨ x.st = .stopped →
      (x.running = true → exec (.disable src q) s = set { x with st := .disabling, waiting := false, passed := false, stopCode := 0 })
      ∧ (x.running = false → x.todo = [] →
        exec (.disable src q) s = set { x with st := .disabled, desc := none, waiting := false, passed := false, stopCode := 0 }))
    ∧ (∀ v : Word, let t := fld v.toNat 0 16
      (x.st ≠ .disabled → bitAt x.sqBase 0 = false →
        exec (.queSqTail q v) s = set (if size ≤ t then { x with dbErr := true } else { x with sqTail := t }))
      ∧ (x.st ≠ .disabled → exec (.queCqHead q v) s = set (if 2 ^ fld x.cfg 8 5 ≤ t then { x with dbErr := true } else { x with cqHead := t }))
      ∧ (x.st = .disabled → exec (.queSqTail q v) s = .next s ∧ exec (.queCqHead q v) s = .next s))
    ∧ (x.st = .stopped → exec (.skip src q) s = set { x with st := .active, stopCode := 0, sqHead := (x.sqHead + 1) % size }
      ∧ exec (.retry src q) s = set { x with st := .active, stopCode := 0 })
    ∧ (x.st = .active → bitAt x.sqBase 0 = true → let t := leNat (s.m.load x.tailAddr 2)
      exec (.tailWordPoll q) s = set (if size ≤ t then { x with dbErr := true } else { x with sqTail := t }))

/-- Entries (R389, R399 to R403). The entry at the head of a host ring is fetched; the first failing check ends it: its DCRC (INFO 1), its opcode
(INFO 2), a reserved bit (INFO 3); an entry that passes waits for its fence when WAIT_EN is 1. The wait ends once (FENCE − WAIT_VALUE) mod 2³² is
below 2³¹. NOP completes at its start. The oldest completion is written where its ring has space, with the phase, and inverts the phase at the wrap;
one whose acknowledgement was lost is written again first; its vector goes out at most once per µs, a deferred one at the end of it. -/
def Obligations.QueueEntries : Prop :=
  ∀ (s : State) (q : Nat) (y : Queue), kget? s.m.que.queues q = some y →
    let set (y : Queue) : Host.Outcome State Fault Refusal := .next { s with
        m := { s.m with que := { s.m.que with queues := kput s.m.que.queues q y } } }
    (∀ hostDesc hostData : List Byte, y.st = .active → y.desc = none → y.todo = [] → y.sqHead ≠ y.sqTail → s.m.hostUp = true →
      bitAt y.sqBase 0 = false → hostDesc.length = 64 →
      let d := leNat hostDesc
      let op := fld d 0 8
      let y0 := { y with desc := some (BitVec.ofNat 512 d), idx := y.sqHead, map := [], waiting := false, passed := false, running := false, copyPos := 0
                         pieces := [] }
      let stops (info : Nat) := exec (.descriptorEntry q hostDesc hostData) s = .next { s with m := ended s.m q y0 0x0603 info true false }
      (sealOk 64 hostDesc = false → stops 1)
      ∧ (sealOk 64 hostDesc = true →
        (op ∉ [0x00, 0x01, 0x02, 0x03, 0x04, 0x10, 0x11, 0x20, 0x30, 0x31, 0x32, 0x40, 0x41] → stops 2)
        ∧ (op ∈ [0x00, 0x01, 0x02, 0x03, 0x04] →
          (fld d 22 10 ≠ 0 ∨ fld d 96 32 ≠ 0 ∨ fld d 384 96 ≠ 0 ∨ fld d 128 256 ≠ 0 → stops 3)
          ∧ (fld d 22 10 = 0 → fld d 96 32 = 0 → fld d 384 96 = 0 → fld d 128 256 = 0 →
            exec (.descriptorEntry q hostDesc hostData) s = set { y0 with waiting := bitAt d 8, passed := !bitAt d 8 }))))
    ∧ (y.waiting = true → let v := kgetD 0 s.m.que.fences (64 * (q / 64) + y.fld 9 6)
      exec (.fenceWaitSatisfied q) s = if (v + 2 ^ 32 - y.fld 32 32) % 2 ^ 32 < 2 ^ 31 then set { y with
          waiting := false, passed := true } else .next s)
    ∧ (AtStart s q 0x00 y → (s.m.part (q / 64)).st ≠ .draining → exec (.queueNop q) s = .next { s with m := ended s.m q y 0 0 false false })
    ∧ (∀ a bs, y.redo = true → y.written = some (a, bs) → s.m.hostUp = true → exec (.completionWrite q) s =
      .next { s with m := { s.m with que.queues := kput s.m.que.queues q { y with redo := false }, out := s.m.out ++ [.hostWrite a bs] } })
    ∧ (∀ c rest, y.redo = false ∨ y.written = none → y.todo = c :: rest → y.st ≠ .disabled → y.st ≠ .disabling → s.m.hostUp = true → y.cqSpace ≠ 0 →
      let last := y.cqTail + 1 = 2 ^ fld y.cfg 8 5
      let a := y.cqBase / 4096 * 4096 + 32 * y.cqTail
      let bs := completionBytes c y.phase
      let y1 := { y with todo := rest, written := some (a, bs), cqTail := if last then 0 else y.cqTail + 1, phase := if last then !y.phase else y.phase }
      let w := Emission.hostWrite a bs
      let sent (out : List Emission) (y : Queue) := exec (.completionWrite q) s =
        .next { s with m := { s.m with que.queues := kput s.m.que.queues q y, out := s.m.out ++ out } }
      (bitAt y.cfg 16 = false → sent [w] y1)
      ∧ (bitAt y.cfg 16 = true → y.irqAt = none → sent [w, .msix q] { y1 with irqAt := some s.m.now, irqDefer := false })
      ∧ (∀ t, bitAt y.cfg 16 = true → y.irqAt = some t → s.m.usPassed t 1 = false → sent [w] { y1 with irqDefer := true }))
    ∧ (∀ t, y.irqDefer = true → y.irqAt = some t → s.m.usPassed t 1 = true → s.m.hostUp = true →
      exec (.msixDeferExpiry q) s = .next { s with m := { s.m with
        que.queues := kput s.m.que.queues q { y with irqAt := some s.m.now, irqDefer := false }, out := s.m.out ++ [.msix q] } })

/-- Partition commands (R262, R398, R405, R408). In a legal state PART_START and TASK_RUN start the partition's next task: it is RUNNING, its sequence
number advances, its network is flushed, and the command runs until the task ends; in another state they end with 0x0601. PART_DRAIN makes the
partition DRAINING, with a task or without, PART_UNLOAD turns the partition OFF. Once every thread is HALTED and its operations are complete the task
ends with code 0. With a record of the context store in which an uncorrectable error is found (with TASK_END: the model's choice, log 121) its session
is freed with an event, or the task aborts. -/
def Obligations.PartitionCommands : Prop :=
  ∀ (s : State) (q : Nat) (y : Queue), let p := q / 64
    let x := s.m.part p
    let started (i : Instr) := x.krf.phase = .idle → x.krf.resume = false →
      Completes i s (fun m => (m.part p) = { x with st := .running, taskRunning := true, started := false, resumed := false, flushing := true
                                                    flushFrom := s.m.net.slot, starter := some q
                                                    taskSeq := if x.taskSeq = 0x0FFF_FFFF then 1 else x.taskSeq + 1 }
        ∧ (∀ p', p' ≠ p → m.part p' = s.m.part p')
        ∧ (m.queue q).running = true ∧ (m.queue q).sqHead = (y.idx + 1) % 2 ^ fld y.cfg 0 5 ∧ (∀ q', q' ≠ q → m.queue q' = s.m.queue q')
        ∧ (∀ c k, kget? s.m.cores c = some k → x.hasCore c = true → ∃ k', kget? m.cores c = some k' ∧ k'.carry = [] ∧ k'.threads = k.threads
          ∧ (∀ i, i < 16 → kgetD 0 k'.sems i = (k.img.getD {}).semInit.getD i 0)))
    let bad (i : Instr) := exec i s = .next { s with m := ended s.m q y 0x0601 0 true false }
    (AtStart s q 0x01 y → (x.st = .ready ∨ x.st = .halted → s.m.jig.locked.contains p = false → started (.partStart q))
      ∧ (x.st ≠ .ready → x.st ≠ .halted → x.st ≠ .draining → bad (.partStart q)))
    ∧ (AtStart s q 0x02 y → (x.st = .running → x.taskRunning = false → started (.taskRun q))
      ∧ (x.st = .running → x.taskRunning = true → bad (.taskRun q)))
    ∧ (AtStart s q 0x03 y → (x.st = .running → exec (.partDrain q) s = after s { s.m with
        parts := kput s.m.parts p { x with st := .draining, drainFrom := s.m.now, drainDroop := false }
        que.queues := kput s.m.que.queues q { y with running := true, passed := false, sqHead := (y.idx + 1) % 2 ^ fld y.cfg 0 5 } })
      ∧ (x.st ≠ .running → x.st ≠ .draining → bad (.partDrain q)))
    ∧ (AtStart s q 0x04 y → (x.st = .ready ∨ x.st = .halted ∨ x.st = .failed → s.m.jig.phase ≠ .checking → s.m.jig.phase ≠ .writing →
        s.m.cfgFrozen = false →
        exec (.partUnload q) s = after s ((ended s.m q y 0 0 false false).offPart p 0x0601))
      ∧ (x.st = .running → bad (.partUnload q)))
    ∧ (∀ p, let x := s.m.part p
      x.taskRunning = true → x.started = true → (∀ e ∈ s.m.cores, x.hasCore e.1 = true → coreHalted e.2 = true ∧ e.2.idle = true) →
      (∀ e ∈ s.m.herds, e.1 / 4096 = p → e.2.run = none) → s.m.writesOpen p = false → s.m.returnsOpen p = false → x.krf.phase = .idle →
          x.krf.take = none →
      Completes (.taskEnd { part := p }) s (fun m => (m.part p).taskRunning = false ∧ (m.part p).started = false ∧ (m.part p).lastCode = 0
        ∧ (m.part p).st = (if x.st = .draining then .halted else x.st) ∧ (∀ p', p' ≠ p → m.part p' = s.m.part p')
        ∧ (∀ c k, kget? s.m.cores c = some k → ∃ k', kget? m.cores c = some k' ∧ k'.sram = k.sram ∧ k'.threads = k.threads ∧ k'.carry = k.carry)))
    ∧ (∀ p, exec (.taskEnd { part := p, owner := true }) s = after s (s.m.abortTask p 0x0402 (.ring svcS)))
    ∧ (∀ p h, let z := s.m.session p h
      let q := 64 * p + z.notifyQ
      let y := s.m.queue q
      let event : Completion := { tag := z.slot, code := 0x0402, kind := 1, info := h, user := z.user, next := 0 }
      let told := if y.st = .disabled ∨ y.cqSpace ≤ y.todo.length then s.m else s.m.setQueue q { y with todo := y.todo ++ [event] }
      (z.st = .free → exec (.taskEnd { part := p, sessions := [h] }) s = exec (.taskEnd { part := p }) s)
      ∧ (z.st ≠ .free → exec (.taskEnd { part := p, sessions := [h] }) s = after s ((told.setSession p h { z with st := .free }).normalEnd p)))

/-- Copies and sessions (R407 to R412, R418, R430). A copy moves a piece of at most 64 KiB inside one page, between host memory and a page: in T1 at
once, in T2 or T3 it waits for the host or the pool to hold it, and it completes once its last line has moved and no piece waits; without the host it
ends with 0x0202. OPEN takes the lowest free handle, SUBMIT makes an IDLE session READY, CLOSE, after the batcher's visit of the sk, frees one, or
closes it after its batch; a session command in a wrong state ends with 0x0601 and its handle. -/
def Obligations.CopiesAndSessions : Prop :=
  ∀ (s : State) (q : Nat) (y : Queue), let p := q / 64
    let x := s.m.part p
    kget? s.m.que.queues q = some y →
    (∀ op, (y.running = true ∧ y.op = op ∧ y.desc.isSome = true)
        ∨ (AtStart s q op y ∧ (x.st = .ready ∨ x.st = .running ∨ x.st = .halted ∨ (op = 0x11 ∧ x.st = .failed))
            ∧ s.m.copyBad p (y.param 0 56) (y.param 128 32) = false) →
      let y0 := if y.running then y else { y with running := true, passed := false, sqHead := (y.idx + 1) % 2 ^ fld y.cfg 0 5 }
      let m0 := if y.running then s.m else s.m.setQueue q y0
      let lines := y.param 128 32
      let a := y.param 0 56 + 64 * y.copyPos
      let n := pieceBytes a (64 * (lines - y.copyPos))
      let pg := a / pageBytes
      let lost (m : Module) (code : Nat) := ended (m.copyFreed q) q y0 code (y.pieces.foldl (fun a x => min a x.pos) y.copyPos) false false
      let moved (m : Module) (piece : List CopyPiece) :=
        let y1 := { y0 with copyPos := y.copyPos + n / 64, pieces := y.pieces ++ piece }
        if y1.pieces = [] ∧ lines ≤ y1.copyPos then ended (m.copyFreed q) q y1 0 y1.copyPos false false else m.setQueue q y1
      y.copyPos < lines → y.pieces.length < 32 →
      (op = 0x10 → ∀ host : List Byte,
        (s.m.hostUp = false ∨ s.m.storeFails pg = true ∨ m0.fetchTiles (.copy q) (partTiles a n) = none →
          exec (.copyIn q host) s = .next { s with m := lost m0 0x0202 })
        ∧ (s.m.hostUp = true → s.m.storeFails pg = false →
          (∀ m1, m0.fetchTiles (.copy q) (partTiles a n) = some (m1, false) → exec (.copyIn q host) s = after s m1)
          ∧ (∀ m1 m2, m0.fetchTiles (.copy q) (partTiles a n) = some (m1, true) →
            (m1.store a (padTo n 0 host) (.copyIn q y.copyPos) = (m2, false) → exec (.copyIn q host) s = after s m2)
            ∧ (m1.store a (padTo n 0 host) (.copyIn q y.copyPos) = (m2, true) →
              exec (.copyIn q host) s = after s (m2.copyMoved q n (
                if (m2.page pg).tier = 1 then []
                else [{ pos := y.copyPos, lines := n / 64, host := decide ((m2.page pg).tier = 2)
                        open_ := if (m2.page pg).tier = 2 then 1 else (tilesIn a n).length }]))))
          ∧ ((s.m.page pg).tier = 1 → (s.m.page pg).pending = false → (s.m.page pg).move = none → (.copyIn q y.copyPos, pg) ∉ s.m.str.stalled →
            (∀ b ∈ s.m.str.buffers, b.1 ≠ .copy q) → exec (.copyIn q host) s = .next { s with m := moved (m0.putBytes a (padTo n 0 host)) [] })))
      ∧ (op = 0x11 →
        (s.m.hostUp = false → exec (.copyOut q) s = .next { s with m := lost m0 0x0202 })
        ∧ (s.m.hostUp = true → let ahead := m0.askPool (.copy q) (tilesOf a (min (32 * tileBytes) (64 * (lines - y.copyPos))))
          (ahead = none → exec (.copyOut q) s = .next { s with m := lost m0 0x0202 })
          ∧ (∀ m1, ahead = some m1 →
            (m1.lacks (.copy q) (tilesOf a n) ≠ [] → exec (.copyOut q) s = after s m1)
            ∧ (m1.lacks (.copy q) (tilesOf a n) = [] →
              (∀ stack row, m1.badIn a n = some (stack, row) → exec (.copyOut q) s = after s ((m1.t1Unc stack row).endCopy q 0x0402))
              ∧ (m1.badIn a n = none → m1.load? a n = none → exec (.copyOut q) s = after s (m1.endCopy q 0x0203))
              ∧ (∀ bs, m1.badIn a n = none → m1.load? a n = some bs → exec (.copyOut q) s = after s (Module.copyMoved
                  { ((m1.readT1 a n).emit (.hostWrite (y.param 64 64 + 64 * y.copyPos) bs)) with
                    str.buffers := m1.str.buffers.filter (fun b => b.1 ≠ .copy q || a + n < (b.2 + 1) * tileBytes) } q n []))))
          ∧ (∀ bs, m0.lacks (.copy q) (tilesOf a (min (32 * tileBytes) (64 * (lines - y.copyPos)))) = [] → m0.lacks (.copy q) (tilesOf a n) = [] →
            s.m.badIn a n = none → s.m.load? a n = some bs → (∀ e ∈ s.m.tier.softWords, s.m.readsWord a n e.1 = false) →
                (∀ b ∈ s.m.str.buffers, b.1 ≠ .copy q) →
            exec (.copyOut q) s = .next { s with m := moved (m0.emit (.hostWrite (y.param 64 64 + 64 * y.copyPos) bs)) [] }))))
    ∧ (∀ op host i, (op = 0x10 ∧ i = Instr.copyIn q host) ∨ (op = 0x11 ∧ i = Instr.copyOut q) → AtStart s q op y →
      (x.st = .off ∨ x.st = .loading ∨ (op = 0x10 ∧ x.st = .failed) → exec i s = .next { s with m := ended s.m q y 0x0601 0 true false })
      ∧ (x.st = .ready ∨ x.st = .running ∨ x.st = .halted → s.m.copyBad p (y.param 0 56) (y.param 128 32) = true →
        exec i s = .next { s with m := ended s.m q y 0x0602 0 true false }))
    ∧ (let model := kgetD ({} : Model) s.m.que.models (16 * p + y.param 23 4)
      let bad (i : Instr) (h : Nat) := exec i s = .next { s with m := ended s.m q y 0x0601 h true false }
      (x.st ≠ .draining → s.m.sessionsOpen p = false → (AtStart s q 0x30 y → bad (.sessionOpen q) 0)
        ∧ (AtStart s q 0x31 y → bad (.sessionSubmit q) (y.param 0 18)) ∧ (AtStart s q 0x32 y → bad (.sessionClose q) (y.param 0 18)))
      ∧ (s.m.sessionsOpen p = true → AtStart s q 0x30 y →
        (x.sessDeadline (y.param 20 3) = 0 ∨ model.bound = false → bad (.sessionOpen q) 0)
        ∧ (x.sessDeadline (y.param 20 3) ≠ 0 → model.bound = true →
          ((∀ h, h < x.sessionCap → (s.m.session p h).st ≠ .free) → exec (.sessionOpen q) s = .next { s with m := ended s.m q y 0x0602 0 true false })
          ∧ (∀ h, h < x.sessionCap → (s.m.session p h).st = .free → (∀ j, j < h → (s.m.session p j).st ≠ .free) →
            let sub := y.param 192 1 = 1
            exec (.sessionOpen q) s = .next { s with m := ended (s.m.setSession p h {
              st := if sub then .ready else .idle, cls := y.param 20 3, model := y.param 23 4, notifyQ := y.param 27 6, notifyEn := decide (y.param 33 1 = 1)
              slot := y.param 64 32, user := y.param 128 64, readySk := if sub then s.m.now else 0 }) q y 0 h false false }))))
    ∧ (s.m.sessionsOpen p = true → let h := y.param 0 18
      (AtStart s q 0x31 y → let z := s.m.session p h
        (z.st = .idle → exec (.sessionSubmit q) s = .next { s with
          m := ended (s.m.setSession p h { z with st := .ready, readySk := s.m.now, submitAt := some s.m.now }) q y 0 h false false })
        ∧ (z.st = .ready → exec (.sessionSubmit q) s = .next { s with m := ended s.m q y 0 h false false })
        ∧ (z.st = .inBatch → exec (.sessionSubmit q) s = .next { s with
            m := ended (s.m.setSession p h { z with resubmit := true }) q y 0 h false false })
        ∧ (z.st = .free ∨ z.st = .closing → exec (.sessionSubmit q) s = .next { s with m := ended s.m q y 0x0601 h true false }))
      ∧ (AtStart s q 0x32 y → let z := s.m.visit.session p h
        (z.st = .idle ∨ z.st = .ready → exec (.sessionClose q) s = after s (ended (s.m.visit.setSession p h { z with
            st := .free }) q y 0 h false false))
        ∧ (z.st = .inBatch → exec (.sessionClose q) s = after s (ended (s.m.visit.setSession p h { z with st := .closing }) q y 0 h false false))
        ∧ (z.st = .free ∨ z.st = .closing → exec (.sessionClose q) s = after s (ended s.m.visit q y 0x0601 h true false))))

/-- Batches (R413 to R418). MODEL_BIND takes the writable bits while the partition is READY or HALTED, VALID with its check. BATCHER_VISIT, once an
sk, launches at most one batch: that of the first model at or after the last visited whose READY sessions are 32, or hold one whose deadline has come;
its sessions are IN_BATCH and one credit is spent. A batch result ends the batch, changes each session and returns one credit; what it changed is kept
for an abort of the same sk; one that breaks R416 aborts the task. -/
def Obligations.Batches : Prop :=
  ∀ s : State,
    (∀ (src : Source) (p i : Nat) (v : BitVec 128),
      (s.m.cfgOk src = true → (s.m.part p).st = .ready ∨ (s.m.part p).st = .halted →
        let x := kgetD ({} : Model) s.m.que.models (16 * p + i)
        let w := v.toNat &&& (0x3FFF_3FFF_3FFF_3FFF + 2 ^ 64 * 0xFFF + 2 ^ 80)
        exec (.modelBind src p i v) s = .next { s with m := { s.m with
          que.models := kput s.m.que.models (16 * p + i) { x with reg := w, valid := bitAt w 80 && s.m.bindOk p w } } })
      ∧ (s.m.cfgOk src = false ∨ ((s.m.part p).st ≠ .ready ∧ (s.m.part p).st ≠ .halted) → exec (.modelBind src p i v) s = .next s))
    ∧ (s.m.que.batchAt = s.m.now → exec .batcherVisit s = .next s)
    ∧ (s.m.que.batchAt ≠ s.m.now →
      let m0 := { s.m with que.batchAt := s.m.now }
      let ks := s.m.que.models.map Prod.fst
      let order := ks.filter (fun k => s.m.que.rrModel ≤ k) ++ ks.filter (fun k => k < s.m.que.rrModel)
      ((∀ k ∈ order, s.m.batchOf k = none) → exec .batcherVisit s = .next { s with m := m0 })
      ∧ (∀ pre k post ss expired, order = pre ++ k :: post → (∀ j ∈ pre, s.m.batchOf j = none) → s.m.batchOf k = some (ss, expired) →
        let p := k / 16
        let x := s.m.model k
        let m1 := ss.foldl (fun m e => m.setSession p e.1 { e.2 with st := .inBatch, batchSeq := x.seq }) m0
        let m2 := m1.ringPacket p svcS (fld x.reg 0 14) 0 0 (flitsOf (batchRecord k x.seq s.m.now expired ss))
        exec .batcherVisit s = .next { s with m := { m2 with
          que.models := kput s.m.que.models k { x with
              credits := x.credits - 1, seq := (x.seq + 1) % 2 ^ 32, open_ := x.open_ ++ [(x.seq, ss.map Prod.fst)] }
          que.rrModel := k + 1, que.launchAt := some s.m.now } }))
    ∧ (∀ (p i : Nat) (x : Model) (bs : List Byte) (j seq : Nat) (hs : List Nat) (rest : List (Nat × List Nat)),
      kget? s.m.que.models (16 * p + i) = some x → i < 16 → x.held = some (bs, j) → x.open_ = (seq, hs) :: rest →
      let old := match x.undo with
        | some (t, ss) => if t = s.m.now then ss else []
        | none => []
      let undo (n : Nat) := some (s.m.now, old ++ s.m.before p bs (slice hs j n) j)
      (∀ m' j', s.m.takeEntries p bs hs 33 j = (m', some j') → exec (.batchResult p i) s = after s { m' with
        que.models := kput m'.que.models (16 * p + i) { x with undo := undo (j' - j), held := some (bs, j') } })
      ∧ (∀ m', s.m.takeEntries p bs hs 33 j = (m', none) → exec (.batchResult p i) s = after s (({ m' with
        que.models := kput m'.que.models (16 * p + i) { x with undo := undo (33 - j), open_ := rest, held := none } } : Module).ringCredit
        p svcS (fld x.reg 48 14) 1))
      ∧ (j = 0 → hs.length ≤ 32 → hs.Nodup → (∀ h ∈ hs, (s.m.session p h).st = .inBatch ∧ (s.m.session p h).notifyEn = false) →
        let step (m : Module) (e : Nat × Nat) := m.setSession p e.1 (nextSession (s.m.session p e.1) (leAt bs (8 + e.2) 1 % 4) s.m.now)
        let m1 := (hs.zip (List.range hs.length)).foldl step s.m
        exec (.batchResult p i) s = after s (({ m1 with
          que.models := kput s.m.que.models (16 * p + i) { x with
              undo := undo 33, open_ := rest, held := none } } : Module).ringCredit p svcS (fld x.reg 48 14) 1)))
    ∧ (∀ (p i k : Nat) (f : Flight) (rest : List Flight), let x := s.m.model (16 * p + i)
      let bs := flitBytes f.payload
      x.held = none → takeFlight (ringSite svcS) (fld x.reg 32 14) s.m.net.flights = some (f, rest) →
          s.m.modelOn f.part 32 f.route = some (16 * p + i) → f.part = p →
      (s.m.part p).flushing = false → s.m.active p = true → hKind f.hdr = 0 → hLen f.hdr = 0 → hSeq f.hdr = kgetD 0 s.m.net.dieExpect f.route →
      let m0 := { s.m with net.flights := rest, net.dieExpect := kput s.m.net.dieExpect f.route ((hSeq f.hdr + 1) % 256) }
      i < 16 → k = 16 * p + i →
      (badResult k x bs = true → exec (.batchResult p i) s = after s (m0.abortTask p 0x0602 (.ring svcS)))
      ∧ (badResult k x bs = false → exec (.batchResult p i) s = after s (m0.takeResult k bs 0)))

/-! ## Kerfs, launches and jig loads (R252 to R265, R420 to R450) -/

/-- Kerf takes and restores (R425 to R430, R438, R439). A take whose checks pass runs, and awaits its cut while a task runs; the cut of a boundary
take comes once no task runs, that of a GATE take once the partition is quiet, and the partition dumps; a GATE take that is not quiet in QUIET_MS
completes with 0x0702; the dump's end makes the pages pending and begins the writes, or, where a word of SRAM or a page of IMAGE_OBJ fails, ends the
take. A restore reads tile 0 of the first manifest; with no host link it completes with 0x0202. In another state both end with 0x0601. -/
def Obligations.KerfTakes : Prop :=
  (∀ (s : State) (q : Nat) (y : Queue), let p := q / 64
    let x := s.m.part p
    let y1 := { y with running := true, passed := false, sqHead := (y.idx + 1) % 2 ^ fld y.cfg 0 5 }
    let gate := decide (y.param 128 1 = 1)
    let opens := s.m.poolPorts ≠ [] ∧ x.krf.phase = .idle ∧ mapDigest y.map = x.krf.jigDigest ∧ s.m.jig.locked.contains p = false
    (AtStart s q 0x40 y → x.st = .running → x.taskRunning = true → opens →
      let area := areaTiles (s.m.kerfShards p y.map gate)
      s.m.areaBusy p (y.param 192 64) area = false →
      let t : Take := { queue := q, gate := gate, generation := y.param 96 32, dest := y.param 192 64, area := area, map := y.map, startAt := s.m.now }
      exec (.krfTake q) s = after s { s.m with
        parts := kput s.m.parts p { x with krf := { x.krf with phase := .awaitingCut, generation := y.param 96 32, take := some t } }
        que.queues := kput s.m.que.queues q y1 })
    ∧ (AtStart s q 0x40 y → x.st = .running ∨ x.st = .ready ∨ x.st = .halted → x.taskRunning = false → gate = false → opens →
      let area := areaTiles (s.m.kerfShards p y.map gate)
      s.m.areaBusy p (y.param 192 64) area = false →
      let t : Take := { queue := q, gate := gate, generation := y.param 96 32, dest := y.param 192 64, area := area, map := y.map, startAt := s.m.now
                        cutSk := s.m.now, cutSeq := x.taskSeq }
      exec (.krfTake q) s = after s (Module.askWakes { s.m with
        parts := kput s.m.parts p { x with krf := { x.krf with phase := .dumping, generation := y.param 96 32, take := some t } }
        que.queues := kput s.m.que.queues q y1 } (dumpClusters y.map)))
    ∧ (∀ op host i, (op = 0x40 ∧ i = Instr.krfTake q) ∨ (op = 0x41 ∧ i = Instr.krfRestore q host) → AtStart s q op y →
      x.st = .off ∨ x.st = .loading ∨ x.st = .failed ∨ (x.st ≠ .draining ∧ ¬opens) → exec i s = .next { s with
          m := ended s.m q y 0x0601 0 true false })
    ∧ (∀ host : List Byte, AtStart s q 0x41 y → x.st = .ready ∨ x.st = .halted → opens →
      (s.m.hostUp = false → exec (.krfRestore q host) s = .next { s with m := ended s.m q y1 0x0202 0 false false })
      ∧ (∀ port, let list := (List.range (y.param 128 12)).map (fun i => leAt host (8 * i) 8)
        s.m.hostUp = true → 0 < y.param 128 12 → s.m.poolPort (leAt host 0 8 / pageBytes) = some port →
        let r : Restore := { queue := q, generation := y.param 96 32, map := y.map, list := list, want := list.map (fun a => (a, 0xFFFF_FFFF, 0, 0)) }
        exec (.krfRestore q host) s = after s (Module.poolRead { s.m with
          parts := kput s.m.parts p { x with krf := { x.krf with phase := .restoring, generation := y.param 96 32, restore := some r } }
          que.queues := kput s.m.que.queues q y1 } port (leAt host 0 8) (.restore p)))))
  ∧ ∀ (s : State) (p : Nat) (t : Take), let x := s.m.part p
    x.krf.take = some t →
    (x.krf.phase = .awaitingCut → (t.gate = false ∧ x.taskRunning = false) ∨ (t.gate = true ∧ x.taskRunning = true ∧ x.started = true
        ∧ s.m.quiet p = true) →
      exec (.cut p) s = after s (Module.askWakes { s.m with parts := kput s.m.parts p { x with krf := { x.krf with
        phase := .dumping, take := some { t with cutSk := s.m.now, cutSeq := x.taskSeq } } } } (dumpClusters t.map)))
    ∧ (∀ y, x.krf.phase = .awaitingCut → t.gate = true → s.m.msPassed t.startAt (max 1 (fld s.m.launch.limits 0 16)) = true →
      kget? s.m.que.queues t.queue = some y → y.running = true → y.desc.isSome = true →
      Completes (.quietTimeout p) s (fun m => (m.part p) = { x with krf := { x.krf with take := none, phase := .idle } }
        ∧ (∀ p', p' ≠ p → m.part p' = s.m.part p')
        ∧ (m.queue t.queue).running = false ∧ (m.queue t.queue).todo = y.todo ++ [
          { tag := y.fld 64 32, code := 0x0702, kind := 0, stopped := false, noop := false, sqIndex := y.idx, info := 0 }]))
    ∧ (x.krf.phase = .dumping → (∀ f ∈ s.m.net.flights, f.part ≠ p) → s.m.jig.phase ≠ .writing →
        (∀ cl ∈ dumpClusters t.map, (s.m.cluster cl).st = .on) →
      (∀ m, s.m.dumpFault t.map = some m → exec (.dumpEnd p) s = after s (m.failTake p))
      ∧ (∀ m, s.m.dumpFault t.map = none → s.m.dump p t.map = (m, false) → exec (.dumpEnd p) s = after s (m.failTake p))
      ∧ (∀ m, s.m.dumpFault t.map = none → s.m.dump p t.map = (m, true) →
        let tiles := m.kerfTiles p t
        let m1 := (tiles.flatMap (fun k => k.pages)).foldl (fun m g => m.setPage g { m.page g with pending := true }) m
        let m2 := m1.setPart p { m.part p with krf := { (m.part p).krf with phase := .writing, take := some { t with tiles := tiles } } }
        exec (.dumpEnd p) s = after s ((((if x.taskRunning then m2 else m2.restClusters p).feedAll p).serveAll p).sendKerf p))
      ∧ (t0Regions t.map = [] → s.m.dump p t.map = (s.m, true)))

/-- Launches (R252, R446 to R448). The lease holder writes SERVE while no fabric jig is awaited. A DATA tile that a PULL asked for enters the staging
region; the last one begins CHECKING on the whole jig. After 20 ms of silence the PULLs go to the grandparent; once it is silent for SRC_MS, or with
none, the load ends with 0x0603. -/
def Obligations.Launches : Prop :=
  ∀ s : State, let x := s.m.launch
    (∀ (src : Source) (v : Reg64), src ≠ .host → s.m.cfgOk src = true → s.m.jig.phase ≠ .staging → s.m.jig.phase ≠ .armed → x.held = [] →
      exec (.serve src v) s = .next { s with m := { s.m with
        launch := { x with ctrl := fld v.toNat 0 1 + put 8 6 (fld v.toNat 8 6) + put 16 3 (max 1 (fld v.toNat 16 3)) } } })
    ∧ (∀ (k : Chunk) (n : Nat) (bs : List Byte) (raw : Bool), s.m.jig.phase = .staging → s.m.jig.fabric = true → k.chan = s.m.jig.fabricId % 2 ^ 32 →
      let h := leNat (k.upper.take 32)
      let t := fld h 96 32 / 16 + k.chunk
      fld h 96 32 % 16 = 0 → fld h 128 32 % 16 = 0 → 16 * k.chunk < fld h 128 32 → kget? x.tiles t = none →
      (∃ q ∈ x.pulls, q.unit ≤ 16 * t ∧ 16 * t < q.unit + q.count) → readTransit 0 0xFFFF 0 (t % 32) k.payload = some (bs, raw) →
      0 < t → x.total = some n → x.nextUnit = jigUnits n → x.held = [] →
      let tiles := kput x.tiles t bs
      let pulls := x.pulls.map (fun q => if q.unit ≤ 16 * t ∧ 16 * t < q.unit + q.count then { q with last := s.m.now } else q)
      let m1 := { s.m with launch := { x with
        tiles := tiles, unitsStaged := 16 * tiles.length
        pulls := pulls.filter (fun q => (List.range (q.count / 16)).any (fun i => (kget? tiles (q.unit / 16 + i)).isNone)) } }
      ((∃ i, i < ceilDiv n tileBytes ∧ kget? tiles i = none) → exec (.launchData k) s = .next { s with m := m1 })
      ∧ ((∀ i, i < ceilDiv n tileBytes → (kget? tiles i).isSome = true) → exec (.launchData k) s = after s
        { m1.beginChecking (((List.range (ceilDiv n tileBytes)).flatMap (fun i => kgetD [] tiles i)).take n) with
          launch.pulls := [], launch.tiles := [] }))
    ∧ (let late (n : Nat) := ∃ q ∈ x.pulls, s.m.msPassed q.last n = true
      s.m.jig.phase = .staging → s.m.jig.fabric = true →
      (x.reparented = true → late (fld s.m.str.timeouts 0 16) →
          exec .launchReparent s = after s (s.m.refuseLoad { code := 0x0603, res := 0x30 } s.m.jig.fabricId))
      ∧ (x.reparented = false → late 20 → x.grand = 0 →
          exec .launchReparent s = after s (s.m.refuseLoad { code := 0x0603, res := 0x30 } s.m.jig.fabricId))
      ∧ (x.reparented = false → late 20 → x.grand ≠ 0 →
        let pulls := x.pulls.map (fun q => { q with at_ := s.m.now, last := s.m.now })
        exec .launchReparent s = after s (pulls.foldl (fun m q => m.sendLaunchPull q) { (s.m.logEvent 0x0503 (.ring (fld x.ctrl 8 6))) with
          launch := { x with reparents := satN 16 (x.reparents + 1), parentNow := x.grand, reparented := true, pulls := pulls } })))

/-- Load requests and what a load goes through first (R252 to R255, R262, R265). START and ARM_FABRIC are ignored while configuration writes are
frozen or from an MMP beside the lease holder; refused with 0x0601 outside SERVICE and REDUCED, with no held lease, or while a load is under way;
otherwise the load stages, or awaits its jig. DISARM ends the wait. Staged bytes are checked as they stand. A task that still drains at its limit, 20
ms where input droop began the drain, is aborted with 0x0601. -/
def Obligations.JigRequests : Prop :=
  ∀ (s : State) (src : Source), let x := s.m.jig
    let refused (b : JBad) := after s (s.m.refuse b 0)
    let mine := src = .host ∨ s.m.sup.lease ≠ .held ∨ s.m.isHolder src = true
    (s.m.cfgFrozen = true ∨ ¬mine → exec (.start src) s = .next s ∧ exec (.armFabric src) s = .next s ∧ exec (.disarm src) s = .next s)
    ∧ (s.m.cfgFrozen = false → mine →
      (s.m.sys.st ≠ .service → s.m.sys.st ≠ .reduced →
        exec (.start src) s = refused { code := 0x0601, res := 0x20 } ∧ exec (.armFabric src) s = refused { code := 0x0601, res := 0x20 })
      ∧ (s.m.sys.st = .service ∨ s.m.sys.st = .reduced →
        (s.m.sup.lease ≠ .held →
          exec (.start src) s = refused { code := 0x0601, res := 0x21 } ∧ exec (.armFabric src) s = refused { code := 0x0601, res := 0x21 })
        ∧ (s.m.sup.lease = .held → x.phase ≠ .idle ∨ s.m.sec.writing.isSome = true ∨ (∃ c, s.m.sec.cmd = some c ∧ c.awaits = true ∧ c.op = 1) →
          exec (.start src) s = refused { code := 0x0601, res := 0x22 } ∧ exec (.armFabric src) s = refused { code := 0x0601, res := 0x22 })
        ∧ (s.m.sup.lease = .held → x.phase = .idle → s.m.sec.writing = none → (∀ c, s.m.sec.cmd = some c → c.awaits = false ∨ c.op ≠ 1) →
          (x.len = 0 ∨ 2 ^ 32 < x.len → exec (.start src) s = refused { code := 0x0602, res := 0x01 })
          ∧ (0 < x.len → x.len ≤ 2 ^ 32 → exec (.start src) s = after s { s.m with
            jig := { x with phase := .staging, fabric := false, staging := [] }, launch := { s.m.launch with tiles := [], held := [] } })
          ∧ (s.m.launchPort = none → exec (.armFabric src) s = after s { s.m with
            jig := { x with phase := .armed, fabric := true, staging := [] }
            launch := { s.m.launch with
              tiles := [], held := [], pulls := [], total := none, nextUnit := 0, unitsStaged := 0, reparented := false, parentNow := s.m.launch.parent } })
          ∧ (∀ port, s.m.launchPort = some port → Completes (.armFabric src) s (fun m => m.jig.phase = .armed ∧ m.jig.fabric = true
            ∧ m.launch.pulls = [{ key := 0, unit := 0, count := 16, at_ := s.m.now, last := s.m.now }] ∧ m.launch.nextUnit = 16 ∧ m.launch.tiles = []
            ∧ m.parts = s.m.parts ∧ m.cores = s.m.cores))))
      ∧ (x.phase = .armed → exec (.disarm src) s = after s s.m.endLoad ∧ s.m.endLoad.jig.phase = .idle))
    ∧ (∀ bytes : List Byte, x.phase = .staging → x.fabric = false →
      (s.m.hostUp = false → exec (.stagingComplete bytes) s = after s (s.m.refuseLoad { code := 0x0603, res := 0x30 } 0))
      ∧ (s.m.hostUp = true → let jig := padTo x.len 0 bytes
        exec (.stagingComplete bytes) s = after s { s.m with jig := { x with
          phase := .checking, staging := jig, stagedBad := false, locked := lockedOf jig
          snapDead := s.m.topo.runDead, snapRouters := s.m.topo.markedRouters, snapLinks := s.m.topo.markedLinks
          snapT2 := s.m.tier.t2Pages, snapPool := s.m.tier.poolPages } }))
    ∧ (∀ p, (s.m.part p).st = .draining → s.m.msPassed (s.m.part p).drainFrom (if (s.m.part p).drainDroop then 20 else (s.m.part p).drainMs) = true →
      exec (.drainLimitExpiry p) s = after s (s.m.abortTask p 0x0601 .module))

/-- The checks, the writes and READY (R255, R256, R258, R261). A jig that fails a check, or finds a partition in another state than OFF, READY, HALTED
and FAILED, is refused and changes no partition; the checks of an accepted jig wait for a dump to end, and then its partitions are LOADING, and with a
full jig every other one is OFF. Writing ends once the clusters are ON; a CORE section then stands in its core's SRAM. At the frame sync of a full
jig, which starts the frame anew, or at the frame boundary of a partial one the defined partitions are READY with their counters 0, and the load is
recorded; with MESH_LOCK 0 it waits. -/
def Obligations.JigLoads : Prop :=
  ∀ s : State, let v := viewOf s.m.jig.staging
    (s.m.jig.phase = .checking →
      (s.m.jig.stagedBad = true → exec .checkingComplete s = after s (s.m.refuseLoad { code := 0x0402, res := 0x30 } v.jigId))
      ∧ (s.m.jig.stagedBad = false →
        (∀ b, v.check s.m s.m.jig.staging = some b → exec .checkingComplete s = after s (s.m.refuseLoad b v.jigId))
        ∧ (v.check s.m s.m.jig.staging = none →
          (∀ p, v.stateBad s.m = some p → exec .checkingComplete s = after s (s.m.refuseLoad { code := 0x0601, res := 0x23, part := some p } 0))
          ∧ (v.stateBad s.m = none → (∃ p, p < 16 ∧ (s.m.part p).krf.phase = .dumping) → exec .checkingComplete s = .next s)
          ∧ (v.stateBad s.m = none → (∀ p, p < 16 → (s.m.part p).krf.phase ≠ .dumping) →
            Completes .checkingComplete s (fun m => m.jig.phase = .writing ∧ m.jig.written = false
              ∧ (∀ p, v.defines p = true → (m.part p).st = .loading ∧ (m.part p).cx = (rectOf (v.ent p)).cx ∧ (m.part p).cy = (rectOf (v.ent p)).cy
                ∧ (m.part p).cw = (rectOf (v.ent p)).cw ∧ (m.part p).ch = (rectOf (v.ent p)).ch)
              ∧ (∀ p, v.defines p = false → if v.full = true ∧ p < 16 then (m.part p).st = .off else m.part p = s.m.part p))))))
    ∧ (∀ b id, let m := s.m.refuseLoad b id
      m.jig.refusal = BitVec.ofNat 256 (refusalWord b id) ∧ m.jig.lastRefused = true ∧ m.jig.phase = .idle
        ∧ m.parts = s.m.parts ∧ m.cores = s.m.cores ∧ m.jig.loadedId = s.m.jig.loadedId ∧ m.jig.digest = s.m.jig.digest)
    ∧ (let live := v.defined.filter (fun p => (s.m.part p).st = .loading)
      s.m.jig.phase = .writing → s.m.jig.written = false → live.all s.m.clustersUp = true →
      let w := { v with secs := v.secs.filter (fun x => !x.note && (x.type = 1 || x.type = 2 || live.contains x.part)) }
      let m1 := live.foldl (fun m p => (m.mapCores p bareCore).modPart p (fun x => { x with used := v.records p, windows := 0 })) s.m
      exec .writingComplete s = after s { (w.secs.foldl (fun m x => x.writeInto m) (w.merge m1).1) with jig.written := true })
    ∧ (s.m.jig.phase ≠ .writing ∨ s.m.jig.written = true ∨ (∃ p, v.defines p = true ∧ (s.m.part p).st = .loading ∧ s.m.clustersUp p = false) →
      exec .writingComplete s = .next s)
    ∧ (∀ (m : Module) (x : JSec) (k : JCore), x.type = 0x10 → coreOf x = some k →
      (x.writeInto m).core x.inst = { m.core x.inst with img := some k.image, sram := k.sram }
      ∧ (∀ c, c ≠ x.inst → (x.writeInto m).core c = m.core c) ∧ (x.writeInto m).parts = m.parts)
    ∧ (s.m.jig.phase ≠ .writing ∨ s.m.jig.written = false ∨ s.m.pwr.meshLocked = false ∨ (v.full = false ∧ s.m.frameStarts = false) →
      exec .partitionReady s = .next s)
    ∧ (s.m.jig.phase = .writing → s.m.jig.written = true → s.m.pwr.meshLocked = true → v.full = true ∨ s.m.frameStarts = true →
      Completes .partitionReady s (fun m => m.jig.phase = .idle ∧ m.jig.loadedId = v.jigId ∧ m.jig.digest = s.m.jig.digestNow
        ∧ m.jig.loadCount = (s.m.jig.loadCount + 1) % 2 ^ 32 ∧ m.jig.lastRefused = false ∧ m.jig.lastPartial = !v.full
        ∧ (v.full = true → m.net.slot = 0 ∧ m.net.frameLen = fld v.module 0 13 ∧ m.jig.perCluster = bitAt v.module 16
            ∧ m.jig.freq = fld v.module 32 12)
        ∧ (∀ p, v.defines p = true → (s.m.part p).st = .loading → (m.part p) = v.ready s.m.jig.digestNow p (s.m.part p))
        ∧ (∀ p, v.defines p = false ∨ (s.m.part p).st ≠ .loading → m.part p = s.m.part p) ∧ m.cores = s.m.cores))

/-! ## Power, clocks and cooling (R454 to R484, R504, R506) -/

/-- Power faults (R454 to R464, R477, R482). A lost phase is kept and logged, its rail takes a phase of the fullest (log 126), and the 21st of the
core rail or the third of the network rail takes the die dark, as its e-fuse does; a dark die's cores are dead to the loader, and the partitions that
use it FAILED. A brick lost lowers the cap. A ring e-fuse takes the links of its group down, or its service die. A lock fault stops a router. Over 900
V or under 550 V the module is COLD; 110 °C makes it SAFE, or holds a bring-up. -/
def Obligations.PowerFaults : Prop :=
  ∀ s : State,
    (∀ die phase, die < 100 → phase < 68 → s.m.sys.st ≠ .cold → die ∉ s.m.topo.dark → phase ∉ (s.m.dieP die).phases →
      let x0 := { s.m.dieP die with phases := (s.m.dieP die).phases ++ [phase] }
      let x := if phase < 64 then x0.rebalance phase else x0
      let core := (x.phases.filter (fun p => p < 64)).length
      let m1 := (s.m.setDieP die x).logEvent 0x0801 { Loc.die die with sub := phase }
      exec (.phaseFault die phase) s = if 21 ≤ core ∨ 3 ≤ x.phases.length - core then after s (m1.darkDie die) else .next { s with m := m1 })
    ∧ (∀ (x : DiePower) p, let a := x.rail p
      let b := x.fullest
      (x.rebalance p).phases = x.phases
      ∧ ((x.onRail a).length + 2 ≤ (x.onRail b).length → x.rebalance p = { x with moved := kput x.moved ((x.onRail b).headD 0) a })
      ∧ ((x.onRail b).length < (x.onRail a).length + 2 → x.rebalance p = x))
    ∧ (∀ die, die < 100 → s.m.sys.st ≠ .cold → die ∉ s.m.topo.dark → exec (.efuseTrip die) s = after s (Module.darkDie { s.m with
        sup.intake := s.m.sup.intake.filter (fun r => !(r.code = 0x0801 && r.locKind = 1 && r.locIndex = die && r.time / 16 = s.m.now / 16)) } die))
    ∧ (∀ d, d ∉ s.m.topo.dark → let t := s.m.darkDie d
      t.topo.dark = s.m.topo.dark ++ [d] ∧ (∀ c ∈ coresOfDie d, c ∈ t.topo.runDead)
      ∧ (∀ p, p ∈ s.m.usersOf (coresOfDie d) → (s.m.part p).st = .loading ∨ (s.m.part p).st = .running ∨ (s.m.part p).st = .draining →
          (t.part p).st = .failed)
      ∧ (∀ p, p ∉ s.m.usersOf (coresOfDie d) → t.part p = s.m.part p))
    ∧ (∀ b, b < 18 → b ∉ s.m.pwr.bricks → exec (.brickFault b) s = after s
        (Module.recap (Module.logEvent { s.m with pwr.bricks := s.m.pwr.bricks ++ [b] } 0x0801 { Loc.ring svcW with sub := b })))
    ∧ (∀ g, g < 8 → s.m.sys.st ≠ .cold → g ∉ s.m.pwr.ringOpen →
      let m1 := s.m.logFatal 0x0802 (.ring ((groupDies g).headD 0))
      let m2 := if g % 2 = 0 then (groupDies g).foldl (fun m n => doLinkDown (portOfRing n) true false m) m1 else m1.svcDown (16 * (g / 2) + 15)
      exec (.ringEfuseTrip g) s = after s { m2 with pwr.ringOpen := m2.pwr.ringOpen ++ [g] })
    ∧ (∀ c, s.m.sys.st = .service ∨ s.m.sys.st = .reduced → s.m.sys.svcFailed.contains svcW = false → s.m.hole c = false → c ∉ s.m.pwr.stopped →
        exec (.lockFault c) s = .next { s with m := { s.m with
        pwr.stopped := s.m.pwr.stopped ++ [c], pwr.lockFaults := min (2 ^ 16 - 1) (s.m.pwr.lockFaults + 1) } })
    ∧ (9_000 < s.m.pwr.volts → exec .overvoltage s = after s s.m.toCold) ∧ (s.m.pwr.volts < 5_500 → exec .inputCollapse s = after s s.m.toCold)
    ∧ (s.m.toCold.sys.st = .cold ∧ (s.m.sys.st ≠ .cold → s.m.toCold.parts = [] ∧ s.m.toCold.cores = [] ∧ s.m.toCold.net = {} ∧ s.m.toCold.que = {}))
    ∧ (∀ d t, d < 100 → (s.m.dieP d).tj = some t → (s.m.dieP d).blind = false → 1_100 ≤ t → s.m.sys.stageHeld = false →
      let m1 := s.m.logFatal 0x0902 (.die d)
      (s.m.sys.st = .service ∨ s.m.sys.st = .reduced → exec (.thermalTrip d) s = after s m1.toSafe ∧ m1.toSafe.sys.st = .safe)
      ∧ (s.m.sys.st = .bringup ∨ s.m.sys.st = .recovery → exec (.thermalTrip d) s = .next { s with
          m := { m1 with sys := { m1.sys with stageHeld := true } } }))

/-- Samples, wakes and sheds (R458, R464 to R476, R481, R504). A sample takes the readings over, averages the power that the brick currents and the
voltage give, moves no cluster by more than 8 steps, and orders a fast shed while the 1 ms power is more than 1.05 times the cap; a die at 95 °C is
throttled to 60 steps. POWER_GOOD begins bring-up. A wake starts a cluster at its goal; a hot neighbour defers it, and after 200 µs it wakes at half
clock. At its boundary a shed halves the mesh clock, and a release the steps. -/
def Obligations.PowerSteps : Prop :=
  ∀ s : State,
    (∀ r : Reading, s.m.mech.standby = true → s.m.sys.st ≠ .cold → Completes (.aosSample r) s (fun m =>
      let h := (r.bricks.foldl (· + ·) 0 * r.volts :: s.m.pwr.history).take 781
      m.pwr.volts = r.volts ∧ m.pwr.history = h ∧ m.pwr.power = average 781 h ∧ m.pwr.fast = average 78 h
          ∧ m.pwr.droop = (s.m.pwr.droop || decide (r.volts < 7_000)) ∧ m.pwr.coolantCap = s.m.pwr.coolantFault
      ∧ (105 * (m.pwr.capEffective * 100_000) < 100 * m.pwr.fast → m.pwr.meshHalf = true ∨ m.pwr.shedPending = true)
      ∧ (∀ cl y, kget? s.m.pwr.clusters cl = some y → ∃ y', kget? m.pwr.clusters cl = some y' ∧ y'.n ≤ y.n + 8 ∧ y.n ≤ y'.n + 8)
      ∧ (∀ d x t, r.dies = [x] → x.die = d → d < 100 → d ∉ s.m.topo.dark → x.tj = some t → 950 ≤ t →
          (m.dieP d).tj = some t ∧ ((s.m.dieP d).throttle = none → (m.dieP d).throttle = some 60
              ∧ m.pwr.throttles = min (2 ^ 16 - 1) (s.m.pwr.throttles + 1)))
      ∧ m.parts = s.m.parts ∧ m.cores = s.m.cores ∧ m.sys.st = s.m.sys.st))
    ∧ (∀ t, s.m.sys.st = .cold → s.m.mech.standby = true → s.m.pwr.highSince = some t → s.m.skPassed t skS = true → s.m.sup.wdAt = none →
        s.m.sup.wdStuck = false →
      s.m.sup.a.imageOk = true ∨ s.m.sup.b.imageOk = true →
      exec .powerGood s = after s (Module.beginStages { s.m with sup.wdHold := false } .bringup)
      ∧ (let t := Module.beginStages { s.m with sup.wdHold := false } .bringup
        t.sys.st = .bringup ∧ t.sys.stage = 0 ∧ t.sys.stageHeld = false ∧ t.pwr.meshLocked = false ∧ t.sup.authority = 0))
    ∧ (s.m.sys.svcFailed.contains svcW = false → (s.m.sys.st = .bringup ∧ 2 ≤ s.m.sys.stage) ∨ s.m.sys.st = .service →
        exec .meshLock s = .next { s with m := { s.m with pwr.meshLocked := true } })
    ∧ (∀ cl, let y := s.m.cluster cl
      let next := nextDies (dieOfCluster cl)
      let woken (half : Option Nat) (m : Module) := (m.cluster cl).st = .on ∧ (m.cluster cl).wakeAsked = false ∧ (m.cluster cl).deferFrom = none
        ∧ (m.cluster cl).wakeAt = some s.m.now ∧ (m.cluster cl).half = half
        ∧ (m.cluster cl).n = (match half with | some h => max 8 (min (s.m.stepLimit cl) h) | none => s.m.stepLimit cl)
        ∧ (∀ d, d ≠ cl → m.cluster d = s.m.cluster d) ∧ m.parts = s.m.parts
      s.m.wakeDue cl = true →
      ((∀ d ∈ next, s.m.dieHot d = false) → Completes (.clusterWake cl) s (woken none))
      ∧ ((∃ d ∈ next, s.m.dieHot d = true) → y.deferFrom = none → exec (.clusterWake cl) s = .next { s with m := { s.m with
          pwr.clusters := kput s.m.pwr.clusters cl { y with
              deferFrom := some s.m.now }, pwr.deferrals := min (2 ^ 16 - 1) (s.m.pwr.deferrals + 1) } })
      ∧ (∀ t, y.deferFrom = some t → s.m.usPassed t 200 = true → (∃ d ∈ next, s.m.dieHot d = true) →
          Completes (.wakeDeferralExpiry cl) s (woken (some (s.m.stepLimit cl / 2)))))
    ∧ (s.m.pwr.shedPending = true → s.m.boundary = true → exec .fastShed s = after s (Module.logEvent { s.m with
        pwr.shedPending := false, pwr.meshHalf := true, pwr.sheds := satN 16 (s.m.pwr.sheds + 1) } 0x0804 .module))
    ∧ (s.m.pwr.releasePending = true → s.m.pwr.meshHalf = true → s.m.boundary = true → exec .shedRelease s = after s { s.m with
        pwr.releasePending := false, pwr.meshHalf := false
        pwr.clusters := kmapv (fun _ (y : Cluster) => if y.st = .on then { y with n := max 8 (y.n / 2) } else y) s.m.pwr.clusters })

/-- Caps and input droop (R454, R471, R477, R478, R480, R484). The effective cap is the lowest of those in force. The lease holder's PWR_CAP under an
epoch not below the current one sets cap and ramp in their ranges; a heartbeat raises the current epoch and names the epoch holder; a manager silent
for 5 s is lost, and 60 s after both are the safe cap applies. 5 ms under 650 V begin the droop sequence: the load ends, running tasks drain, and the
module is COLD once none drains or the 20 ms are over. -/
def Obligations.CapsAndDroop : Prop :=
  ∀ s : State,
    (∀ m : Module, let t := m.recap
      (∀ c ∈ m.pwr.caps, t.pwr.capEffective ≤ c.1) ∧ t.pwr.capEffective ≤ 310
      ∧ ((t.pwr.capEffective, t.pwr.capSource) ∈ m.pwr.caps ∨ (t.pwr.capEffective, t.pwr.capSource) = (310, 7)))
    ∧ (∀ (src : Source) (v : Reg64), let w := v.toNat
      src ≠ .host → s.m.cfgOk src = true →
      (s.m.sup.currentEpoch ≤ fld w 32 32 → exec (.pwrCap src v) s = after s (Module.recap { s.m with
        pwr.cap := put 0 9 (min 310 (max 60 (fld w 0 9))) + put 16 10 (min 100 (max 1 (fld w 16 10))) + put 32 32 (fld w 32 32), pwr.safeCap := false }))
      ∧ (fld w 32 32 < s.m.sup.currentEpoch → exec (.pwrCap src v) s = .next s)
      ∧ (bitAt w 0 = false → exec (.pwrMgrHeartbeat src v) s = after s (Module.recap { s.m with
        pwr.mgrA := { at_ := s.m.now, epoch := fld w 32 32, present := true }, sup.currentEpoch := max s.m.sup.currentEpoch (fld w 32 32)
        pwr.holderB := if s.m.sup.currentEpoch ≤ fld w 32 32 then false else s.m.pwr.holderB, pwr.lostAt := none }))
      ∧ (bitAt w 0 = true → exec (.pwrMgrHeartbeat src v) s = after s (Module.recap { s.m with
        pwr.mgrB := { at_ := s.m.now, epoch := fld w 32 32, present := true }, sup.currentEpoch := max s.m.sup.currentEpoch (fld w 32 32)
        pwr.holderB := if s.m.sup.currentEpoch ≤ fld w 32 32 then true else s.m.pwr.holderB, pwr.lostAt := none })))
    ∧ (s.m.pwr.mgrA.present = true → s.m.skPassed s.m.pwr.mgrA.at_ (5 * skS) = true → exec (.managerLost false) s = after s (Module.recap { s.m with
        pwr.mgrA := { s.m.pwr.mgrA with present := false }, pwr.lostAt := if s.m.pwr.mgrB.present then none else some s.m.now }))
    ∧ (s.m.pwr.mgrB.present = true → s.m.skPassed s.m.pwr.mgrB.at_ (5 * skS) = true → exec (.managerLost true) s = after s (Module.recap { s.m with
        pwr.mgrB := { s.m.pwr.mgrB with present := false }, pwr.lostAt := if s.m.pwr.mgrA.present then none else some s.m.now }))
    ∧ (∀ t, s.m.pwr.lostAt = some t → s.m.pwr.safeCap = false → s.m.skPassed t (60 * skS) = true →
      exec .heldCapExpiry s = after s (Module.recap { s.m with pwr.safeCap := true }))
    ∧ (∀ t, s.m.pwr.highSince = some t → s.m.pwr.droop = true → s.m.skPassed t (10 * skMs) = true →
      exec .droopClear s = after s (Module.recap { s.m with pwr.droop := false }))
    ∧ (∀ t, s.m.pwr.lowSince = some t → s.m.pwr.droopSeq = false → s.m.sys.st ≠ .cold → s.m.skPassed t (5 * skMs) = true → s.m.jig.phase = .idle →
      Completes .droopSequence s (fun m => m.pwr.droopSeq = true ∧ m.pwr.droopAt = s.m.now
        ∧ (∀ p, p < 16 → (s.m.part p).st = .running → (s.m.part p).taskRunning = true →
            (m.part p) = { s.m.part p with st := .draining, drainFrom := s.m.now, drainDroop := true })
        ∧ (∀ p, p < 16 → (s.m.part p).st = .running → (s.m.part p).taskRunning = false → (m.part p).st = .halted)
        ∧ (∀ p, (s.m.part p).st ≠ .running → (s.m.part p).st ≠ .draining → m.part p = s.m.part p) ∧ m.cores = s.m.cores))
    ∧ (s.m.pwr.droopSeq = true → (∀ p, p < 16 → (s.m.part p).st ≠ .draining) → exec .droopPowerOff s = after s s.m.toCold)
    ∧ (s.m.pwr.droopSeq = true → s.m.skPassed s.m.pwr.droopAt (20 * skMs) = true →
      exec .droopPowerOff s = after s ((((List.range 16).filter (fun p => (s.m.part p).st = .draining)).foldl (fun m p => m.abortTask p 0x0601 .module) s.m).toCold))

/-! ## Supervision (R487 to R514) -/

/-- The watchdog, the MMPs and the lease (R480, R489 to R499, R520). A stop of the AOS takes the module to COLD; a second within 10 minutes holds it
there. A failed MMP loses the lease it holds, its claims and the command it runs, and the other becomes the bring-up authority; it comes back when the
image verifies. Of claims, one below the current epoch is ignored, one above the lease epoch is pending for 1 ms, the holder's renews, and a second
claimant of one epoch freezes configuration. -/
def Obligations.MmpsAndLease : Prop :=
  (∀ (m : Module) (b : Bool) (e : Nat), let t := m.claimLease b e
    let other := ∃ c ∈ m.sup.claims, c.mmp ≠ b2n b ∧ c.epoch = e
    let frozen := t.sup.lease = .frozen ∧ t.sup.leaseEpoch = e ∧ t.sup.claims = [] ∧ t.sup.conflicts = min (2 ^ 16 - 1) (m.sup.conflicts + 1)
    (e = 0 ∨ e < m.sup.currentEpoch → t = m)
    ∧ (e ≠ 0 → m.sup.currentEpoch ≤ e →
      (other → frozen)
      ∧ (¬ other → m.sup.leaseEpoch < e → (∀ d ∈ m.sup.claims, d.epoch < e) →
          t = { m with sup := { m.sup with claims := [{ mmp := b2n b, epoch := e, from_ := m.now }] } })
      ∧ (¬ other → m.sup.leaseEpoch < e → (∃ d ∈ m.sup.claims, e ≤ d.epoch) → t = m)
      ∧ (¬ other → e = m.sup.leaseEpoch → m.sup.lease = .held → m.sup.holderB = b → t = { m with sup := { m.sup with renewAt := m.now } })
      ∧ (¬ other → e = m.sup.leaseEpoch → m.sup.lease = .held → m.sup.holderB ≠ b → frozen)
      ∧ (¬ other → e < m.sup.leaseEpoch ∨ (e = m.sup.leaseEpoch ∧ m.sup.lease ≠ .held) → t = m)))
  ∧ ∀ s : State,
    (s.m.mech.standby = true → svcW ∉ s.m.sys.svcFailed → Completes .aosWatchdog s (fun m =>
      m.sys.st = .cold ∧ m.sup.wdHold = true ∧ m.sup.wdAt = some s.m.now ∧ m.sup.wdStops = s.m.sup.wdStops + 1 ∧ (s.m.sys.svcFailed = [] →
          m.carrierState = 6)
      ∧ (m.sup.wdStuck = true ↔ s.m.sup.wdStuck = true ∨ ∃ t, s.m.sup.wdAt = some t ∧ s.m.now - t ≤ 600 * skS)))
    ∧ (∀ b, let x := s.m.mmp b
      (s.m.mech.standby = true → x.runs = true → Completes (.mmpFailed b) s (fun m =>
        (m.mmp b).st = .failed ∧ (m.mmp b).imageOk = false ∧ m.parts = s.m.parts
        ∧ (s.m.sup.lease = .held ∧ s.m.sup.holderB = b → m.sup.lease = .none_ ∧ m.sup.expiries = min (2 ^ 16 - 1) (s.m.sup.expiries + 1)
            ∧ (∀ c, c ∈ m.sup.claims ↔ c ∈ s.m.sup.claims ∧ c.mmp ≠ b2n b))
        ∧ (¬ (s.m.sup.lease = .held ∧ s.m.sup.holderB = b) → m.sup.lease = s.m.sup.lease ∧ m.sup.claims = s.m.sup.claims)
        ∧ m.sup.authority = (if s.m.sup.authority = b2n b + 1 then (if (s.m.mmp (!b)).runs then b2n (!b) + 1 else 0) else s.m.sup.authority)
        ∧ (∀ c, x.st = .active → s.m.sec.cmd = some c → c.begun = true → m.sec.cmd = none ∧ m.sec.result = 0x0601 ∧ m.sec.writing = none)))
      ∧ (x.st = .failed → s.m.sec.writing = none → Completes (.mmpRestart b) s (fun m =>
        (m.mmp b).restarts = min (2 ^ 16 - 1) (x.restarts + 1) ∧ m.sup.lease = s.m.sup.lease ∧ m.sup.holderB = s.m.sup.holderB
            ∧ m.sup.leaseEpoch = s.m.sup.leaseEpoch
        ∧ (s.m.sec.imageCheck s.m.sec.image = none → (m.mmp b).runs = true ∧ (m.mmp b).imageOk = true ∧ m.sec.imageValid = true
            ∧ (if b then m.sec.measB else m.sec.measA) = imgMeas s.m.sec.image)
        ∧ (s.m.sec.imageCheck s.m.sec.image ≠ none → (m.mmp b).st = .off ∧ (m.mmp b).imageOk = false ∧ m.sec.imageValid = false
            ∧ (if b then m.sec.measB else m.sec.measA) = 0)))
      ∧ (∀ busy, x.st = .active → 90 ≤ busy → x.shedLevel < 4 → exec (.shedLevelPeriod b busy) s = after s ((s.m.setMmp b { x with
          busy := min 100 busy, lowRun := 0, shedLevel := x.shedLevel + 1, rises := satN 16 (x.rises + 1) }).logEvent 0x0B02
          (.ring (mmpDie b)) (detail := x.shedLevel + 1)))
      ∧ (∀ busy, x.runs = true → busy < 70 → Completes (.shedLevelPeriod b busy) s (fun m => (m.mmp b).busy = busy
          ∧ (9 ≤ x.lowRun → (m.mmp b).shedLevel = x.shedLevel - 1 ∧ (m.mmp b).lowRun = 0)
          ∧ (x.lowRun < 9 → (m.mmp b).shedLevel = x.shedLevel ∧ (m.mmp b).lowRun = x.lowRun + 1))))
    ∧ (∀ d : BitVec 256, let x := d.toNat
      let heard := s.m.heartbeat (bitAt x 36) (fld x 64 32)
      (s.m.mech.standby = true → s.m.mmpRuns = true → s.m.cfgOpen = true →
        (directiveOk 1 x = true → exec (.heartbeat d) s = after s heard)
        ∧ (directiveOk 2 x = true → (s.m.mmp (bitAt x 37)).runs = true → exec (.grant d) s = after s (heard.claimLease (bitAt x 37) (fld x 64 32)))
        ∧ (directiveOk 3 x = true → fld x 64 32 = heard.sup.currentEpoch → exec (.cap d) s = after s (Module.recap { heard with
            pwr.cap := put 0 9 (min 310 (max 60 (fld x 96 9))) + put 16 10 (min 100 (max 1 (fld x 112 10))) + put 32 32 (fld x 64 32), pwr.safeCap := false })))
      ∧ (directiveOk 1 x = false → exec (.heartbeat d) s = .next s) ∧ (directiveOk 2 x = false → exec (.grant d) s = .next s)
      ∧ (directiveOk 3 x = false → exec (.cap d) s = .next s))
    ∧ (∀ v : Reg64, let e := fld v.toNat 0 32
      (s.m.sup.a.runs = true → exec (.aosLeaseClaim .mmpA v) s = after s (s.m.claimLease false e))
      ∧ (s.m.sup.b.runs = true → exec (.aosLeaseClaim .mmpB v) s = after s (s.m.claimLease true e)) ∧ exec (.aosLeaseClaim .host v) s = .next s)
    ∧ (∀ c, s.m.sup.claims = [c] → s.m.skPassed c.from_ skMs = true → Completes .claimWindowEnd s (fun m =>
      m.sup.lease = .held ∧ m.sup.holderB = decide (c.mmp = 1) ∧ m.sup.leaseEpoch = c.epoch ∧ m.sup.currentEpoch = c.epoch ∧ m.sup.claims = []
      ∧ m.sup.handovers = min (2 ^ 16 - 1) (s.m.sup.handovers + 1) ∧ m.sup.renewAt = s.m.now ∧ m.parts = s.m.parts ∧ m.pwr.cap = s.m.pwr.cap))
    ∧ (s.m.sup.lease = .held → s.m.skPassed s.m.sup.renewAt skS = true → Completes .leaseExpiry s (fun m =>
      m.sup.lease = .none_ ∧ m.sup.expiries = min (2 ^ 16 - 1) (s.m.sup.expiries + 1) ∧ m.parts = s.m.parts ∧ m.sup.leaseEpoch = s.m.sup.leaseEpoch))

/-- Bring-up, retired cores and the background activities (R25, R30, R47, R52, R113, R264, R467, R493, R500 to R508, R520, R528). Stages 0 to 7 run in
order, each with what its tests find; the remap of stage 7 applies the retirement list and gives the topology a new epoch. A core that fails in a run
fails the partitions that use it and is retired at the next remap; a failed service die takes a module in SERVICE or REDUCED to OUT_OF_SERVICE. A pass
of an activity is counted, and a late one is a miss of its floor. -/
def Obligations.BringupAndUpkeep : Prop :=
  ∀ s : State,
    (∀ f : StageFinding, (s.m.sys.st = .bringup ∨ s.m.sys.st = .recovery) → s.m.sys.stageHeld = false →
      (s.m.sys.stage = 0 → Completes (.bringupStage f) s (fun m =>
        (s.m.sup.a.imageOk = true → s.m.sup.a.st = .off → m.sup.a.st = .active ∧ m.sup.authority = 1 ∧ m.sys.stage = 1
            ∧ m.sec.measA = imgMeas s.m.sec.image)
        ∧ (s.m.sup.a.imageOk = false → s.m.sup.a.st = .off → s.m.sup.b.imageOk = true → s.m.sup.b.st = .off → m.sup.b.st = .active
            ∧ m.sup.authority = 2 ∧ m.sys.stage = 1)
        ∧ (s.m.sup.a.imageOk = false → s.m.sup.a.st = .off → s.m.sup.b.imageOk = false → s.m.sup.b.st = .off → m.sup.authority = 0
            ∧ m.sys.stage = 0)))
      ∧ (s.m.sys.stage = 1 → s.m.sup.authority ≠ 0 → Completes (.bringupStage f) s (fun m =>
        (svcW ∉ f.ring → svcW ∉ s.m.sys.svcFailed → m.sys.stage = 2 ∧ m.topo.ringFound = f.ring.filter (· < 64) ∧ m.sys.st = s.m.sys.st)
        ∧ (svcW ∈ f.ring ∨ svcW ∈ s.m.sys.svcFailed → m.sys.st = .outOfService)
        ∧ (∀ n ∈ f.ring, n < 64 → n % 16 = 15 → n ∈ m.sys.svcFailed) ∧ (∀ e ∈ f.links, 32768 ≤ e.1 → Retire.link e.1 e.2 ∈ m.topo.retire)
        ∧ (svcN ∈ f.ring → svcN ∉ s.m.sys.svcFailed → m.sup.a.st = .off) ∧ (svcS ∈ f.ring → svcS ∉ s.m.sys.svcFailed → m.sup.b.st = .off)))
      ∧ (2 ≤ s.m.sys.stage → s.m.sys.stage ≤ 6 → s.m.sup.authority ≠ 0 → Completes (.bringupStage f) s (fun m =>
        let here (d : Nat) : Prop := d < 100 ∧ dieRing d = s.m.sys.stage - 2
        m.sys.stage = s.m.sys.stage + 1 ∧ m.parts = s.m.parts
        ∧ (∀ d ∈ f.dark, here d → d ∈ m.topo.dark) ∧ (∀ d ∈ f.unlocked, here d → d ∈ m.topo.dark)
        ∧ (∀ q ∈ f.cores, here (dieOfPhys q) → Retire.core q ∈ m.topo.retire) ∧ (∀ e ∈ f.links, here (dieOfPhys e.1) →
            Retire.link e.1 e.2 ∈ m.topo.retire)
        ∧ (∀ q r r', (q, r) ∈ f.rows → (q, r') ∈ f.rows → r ≤ 32 → r' ≤ 32 → r ≠ r' → here (dieOfPhys q) → Retire.core q ∈ m.topo.retire
            ∧ q ∈ m.topo.engineBad)
        ∧ (∀ q r c, f.masks = [(q, r, c)] → here (dieOfPhys q) → kget? m.topo.arrayMasks q = some (r % 2 ^ 33, c % 2 ^ 33))
        ∧ (∀ d ∈ f.cracked, here d → (s.m.dieP d).crackMark = true → ∀ q ∈ physOfDie d, Retire.core q ∈ m.topo.retire)))
      ∧ (s.m.sys.stage = 7 → s.m.sup.authority ≠ 0 → Completes (.bringupStage f) s (fun m =>
        m.topo.epoch = (s.m.topo.epoch + 2) % 2 ^ 32 ∧ m.topo.runDead = [] ∧ m.topo.reducedActive = false ∧ m.pwr.clusters = []
            ∧ m.topo.applied = m.topo.retire
        ∧ (∀ r ∈ s.m.topo.retire, r ∈ m.topo.retire) ∧ m.topo.deadLinks = linksIn m.topo.retire
            ∧ m.topo.deadPorts = m.topo.deadLinks.filterMap m.farPort ∧ m.topo.lanesFound = [] ∧ m.sup.authority = 0
        ∧ (∀ q ∈ f.stuck, q < 21_000 → Retire.core q ∈ m.topo.retire)
        ∧ (s.m.sys.svcFailed = [] → m.sys.st = if m.reduced then .reduced else .service) ∧ (s.m.sys.svcFailed ≠ [] → m.sys.st = .outOfService))))
    ∧ (∀ c det q, s.m.physOf c = some q →
      (s.m.sys.st = .bringup ∨ s.m.sys.st = .recovery →
          exec (.coreFailed c det) s = after s ((s.m.logEvent 0x0403 { kind := 3, idx := q }).engineOut q))
      ∧ (s.m.sys.st ≠ .bringup → s.m.sys.st ≠ .recovery → s.m.sys.st ≠ .cold → Completes (.coreFailed c det) s (fun m =>
          let hit (p : Nat) : Prop := p ∈ s.m.usersOf [c] ∨ (p < 16 ∧ (s.m.part p).st = .loading
              ∧ ∃ cl ∈ (s.m.part p).clusters, dieOfCluster cl = dieOfCore c)
          c ∈ m.topo.runDead ∧ Retire.core q ∈ m.topo.retire ∧ (∀ p, ¬ hit p → m.part p = s.m.part p)
          ∧ (∀ p, hit p → (s.m.part p).st = .loading ∨ (s.m.part p).st = .running ∨ (s.m.part p).st = .draining → (m.part p).st = .failed))))
    ∧ (∀ die, die < 64 → die % 16 = 15 → s.m.sys.st ≠ .cold → Completes (.serviceDieFail die) s (fun m => die ∈ m.sys.svcFailed
      ∧ (s.m.sys.st = .service ∨ s.m.sys.st = .reduced → m.sys.st = .outOfService)
      ∧ (die = svcN → svcN ∉ s.m.sys.svcFailed → m.sup.a.st = .off) ∧ (die = svcS → svcS ∉ s.m.sys.svcFailed → m.sup.b.st = .off)
      ∧ (s.m.sys.st ≠ .service → s.m.sys.st ≠ .reduced → m.sys.st = s.m.sys.st ∧ m.parts = s.m.parts ∧ (die = svcS → svcS ∉ s.m.sys.svcFailed →
          m.que.cxl.up = false))))
    ∧ (∀ src, (s.m.cfgOk src = true → s.m.sys.st = .service ∨ s.m.sys.st = .reduced ∨ (s.m.sys.st = .safe ∧ s.m.cool = true ∧ s.m.sys.svcFailed = [])
        ∨ (s.m.sys.st = .outOfService ∧ s.m.sys.svcFailed = []) →
        exec (.enterRecovery src) s = after s (s.m.beginStages .recovery) ∧ (s.m.beginStages .recovery).sys.st = .recovery
            ∧ (s.m.beginStages .recovery).sys.stage = 0)
      ∧ (s.m.cfgOk src = true → s.m.sys.st = .service ∨ s.m.sys.st = .reduced →
        exec (.leaveService src) s = after s s.m.toOutOfService ∧ s.m.toOutOfService.sys.st = .outOfService)
      ∧ (s.m.sys.st = .safe ∨ s.m.sys.st = .outOfService → s.m.sys.svcFailed ≠ [] → exec (.enterRecovery src) s = .next s)
      ∧ (s.m.cfgOk src = false → exec (.enterRecovery src) s = .next s ∧ exec (.leaveService src) s = .next s))
    ∧ (s.m.sys.st = .service ∨ s.m.sys.st = .reduced →
      (∀ c q, s.m.physOf c = some q → Completes (.engineSelfTest c .pass) s (fun m => (m.core c).selfTestAt = s.m.now ∧ m.topo = s.m.topo
          ∧ m.parts = s.m.parts))
      ∧ (∀ c q r, r ≤ 32 → s.m.physOf c = some q → kget? s.m.topo.repair q = none → (∀ r', Retire.rowRepair q r' ∉ s.m.topo.retire) →
          Completes (.engineSelfTest c (.row r)) s (fun m => Retire.rowRepair q r ∈ m.topo.retire ∧ m.topo.engineBad = s.m.topo.engineBad))
      ∧ (∀ c q, s.m.physOf c = some q → Completes (.engineSelfTest c .engine) s (fun m => Retire.core q ∈ m.topo.retire ∧ q ∈ m.topo.engineBad))
      ∧ Completes .oscillatorCalibration s (PassOver s.m 4 60)
      ∧ (∀ found : List LinkFinding, Completes (.linkCalibration found) s (fun m => PassOver s.m 5 600 m
          ∧ (∀ f ∈ found, 16 < (s.m.failedWires f).length → Retire.link f.site f.port ∈ m.topo.retire)
          ∧ (∀ f, found = [f] → (s.m.failedWires f).length ≤ 16 → m.topo.retire = s.m.topo.retire
              ∧ kget? m.topo.lanesFound (64 * f.site + f.port) = some (s.m.failedWires f))))
      ∧ (∀ d n, Completes (.agingMonitorRead [(d, n)]) s (fun m => PassOver s.m 8 60 m ∧ kgetD 0 m.pwr.vfOffset d = kgetD 0 s.m.pwr.vfOffset d + n))
      ∧ (s.m.shedLevel = 0 ∨ (s.m.shedLevel = 1 ∧ s.m.skPassed (kgetD {} s.m.sup.acts 9).lastAt (8 * skS) = true) →
          Completes .telemetryExport s (PassOver s.m 9 0))
      ∧ (2 ≤ s.m.shedLevel → exec .telemetryExport s = .next s))
    ∧ (s.m.mech.standby = true → Completes .logFlush s (fun m =>
      PassOver s.m 10 60 m ∧ m.sup.flashLog = s.m.sup.log ∧ m.sup.flashNext = s.m.sup.nextIndex ∧ m.sup.flashSeq = s.m.sup.seq))

/-- The sideband loop, the fault log and the AOS interrupts (R379, R471, R479, R509 to R518, R522). A good frame of another slot is forwarded as it
is; TIME, CAP and COOLANT act only from the tray controller, and the tray cap lapses after 10 ms without them; a HERD_STOP acts once for each herd
operation and member, as a HERD_ABORT does. A record is written once it has been held for 64 sk, the first in order first. A status bit is cleared by
a 1, and a deferred vector goes only while its status and enable bits read 1. -/
def Obligations.LoopAndLog : Prop :=
  ∀ s : State,
    (∀ frame : BitVec 160, let x := frame.toNat
      let tray := fld x 4 4 = 0
      let all := [Instr.sidebandFrame, Instr.time, Instr.capFrame, Instr.coolant, Instr.herdStop]
      let sent := s.m.emit (.sideband frame)
      let heard := if tray then { sent with sup.side.lastAt := s.m.now, sup.side.loopOk := true } else sent
      let good := crc32c (leBytes 16 x) = fld x 128 32
      s.m.mech.standby = true → s.m.sup.side.bypass = false →
      (¬ good → exec (.sidebandFrame frame) s = .next { s with m := { s.m with sup.side.framesBad := satN 16 (s.m.sup.side.framesBad + 1) } })
      ∧ (good → fld x 4 4 = s.m.sup.side.slot → ∀ f ∈ all, exec (f frame) s = .next s)
      ∧ (good → fld x 4 4 ≠ s.m.sup.side.slot →
        (fld x 0 4 = 1 → exec (.sidebandFrame frame) s = exec (.time frame) s)
            ∧ (fld x 0 4 = 2 → exec (.sidebandFrame frame) s = exec (.capFrame frame) s)
        ∧ (fld x 0 4 = 3 → exec (.sidebandFrame frame) s = exec (.coolant frame) s)
            ∧ (fld x 0 4 = 4 → exec (.sidebandFrame frame) s = exec (.herdStop frame) s)
        ∧ (fld x 0 4 = 0 ∨ 5 ≤ fld x 0 4 ∨ (¬ tray ∧ fld x 0 4 ≠ 4) → exec (.sidebandFrame frame) s = .next { s with m := heard })
        ∧ (tray → fld x 0 4 = 1 → exec (.time frame) s = .next { s with m := { heard with
            sup.side.offset := (fld x 16 64 : Int) - (s.m.now : Int), sup.side.synced := true } })
        ∧ (tray → fld x 0 4 = 2 → exec (.capFrame frame) s = after s (Module.recap { heard with
            pwr.trayCap := if fld x 16 9 = 0 then none else some (min 310 (max 60 (fld x 16 9))), pwr.trayCapAt := s.m.now }))
        ∧ (tray → fld x 0 4 = 3 → exec (.coolant frame) s = .next { s with m := { heard with pwr.coolantFault := bitAt x 16 } })
        ∧ (fld x 0 4 = 4 → let j := fld x 80 10
          let act := (fld x 16 32, fld x 48 32, j)
          (s.m.herdOf (fld x 16 32) = none → exec (.herdStop frame) s = .next { s with m := heard })
          ∧ (∀ k, s.m.herdOf (fld x 16 32) = some k → let g := (s.m.herd k).stage 1
            ((s.m.part (k / 4096)).taskRunning = false ∨ act ∈ s.m.sup.side.acted ∨ j = g.self ∨ g.macs.length ≤ j →
                exec (.herdStop frame) s = .next { s with m := heard })
            ∧ ((s.m.part (k / 4096)).taskRunning = true → act ∉ s.m.sup.side.acted → j ≠ g.self → j < g.macs.length → (1, j) ∉ (s.m.herd k).lost →
                exec (.herdStop frame) s = after s (Module.abortFrom { heard with
                  sup.side.acted := s.m.sup.side.acted ++ [act], sup.side.stopsActed := satN 16 (s.m.sup.side.stopsActed + 1) }
                  (k / 4096) (k % 4096) 1 j g.macs[j]?))))))
    ∧ (s.m.sup.side.loopOk = true → s.m.skPassed s.m.sup.side.lastAt (10 * skMs) = true →
      exec .loopTimeout s = after s (Module.recap { s.m with sup.side.loopOk := false, pwr.trayCap := none }))
    ∧ (s.m.pwr.trayCap ≠ none → s.m.skPassed s.m.pwr.trayCapAt (10 * skMs) = true → exec .trayCapLapse s = after s (Module.recap { s.m with
        pwr.trayCap := none }))
    ∧ (∀ f t rest, s.m.sup.side.resend = (f, t) :: rest → s.m.mech.standby = true → s.m.usPassed t 100 = true →
      exec .herdStopResend s = .next { s with m := { s.m.emit (.sideband f) with sup.side.resend := rest } })
    ∧ (let held := (s.m.sup.intakeFatal ++ s.m.sup.intake).filter (fun r => s.m.skPassed r.time 64)
      (held = [] → exec .logWrite s = .next s)
      ∧ (∀ r ∈ held, (∀ r' ∈ held, r' ≠ r → r.key < r'.key) → Completes .logWrite s (fun m =>
          kget? m.sup.log s.m.sup.nextIndex = some (r.bytes s.m.sup.boot s.m.sup.seq)
          ∧ (∀ i, i ≠ s.m.sup.nextIndex → kget? m.sup.log i = kget? s.m.sup.log i)
          ∧ m.sup.nextIndex = (s.m.sup.nextIndex + 1) % 4_096 ∧ m.sup.seq = (s.m.sup.seq + 1) % 2 ^ 32
          ∧ m.sup.intakeFatal.length + m.sup.intake.length + 1 = s.m.sup.intakeFatal.length + s.m.sup.intake.length
          ∧ (s.m.mech.standby = true → bitAt m.sup.irqStatus 0 = true))))
    ∧ (∀ src (v : Reg64), Completes (.irqStatusClear src v) s (fun m =>
      (∀ i, i < 7 → bitAt m.sup.irqStatus i = (bitAt s.m.sup.irqStatus i && !bitAt v.toNat i)) ∧ { m with sup.irqStatus := s.m.sup.irqStatus } = s.m))
    ∧ (∀ i, i ∈ s.m.sup.irqDefer → s.m.hostUp = true → (∀ t, kget? s.m.sup.irqAt i = some t → s.m.usPassed t 10 = true) →
      (bitAt s.m.sup.irqStatus i = true → bitAt s.m.sup.irqEn i = true → exec (.aosIrqDeferExpiry i) s = .next { s with
          m := { s.m.emit (.msix (1_024 + i)) with
        sup.irqDefer := s.m.sup.irqDefer.filter (· ≠ i), sup.irqAt := kput s.m.sup.irqAt i s.m.now } })
      ∧ (bitAt s.m.sup.irqStatus i = false ∨ bitAt s.m.sup.irqEn i = false → exec (.aosIrqDeferExpiry i) s = .next { s with m := { s.m with
          sup.irqDefer := s.m.sup.irqDefer.filter (· ≠ i) } }))

/-! ## Firmware, identity and attestation (R524 to R541) -/

/-- Firmware images and security commands (R525 to R532, R540). A loader accepts an image only when every check of R526 passes. In COLD each MMP's
loader checks the flash image, and when both refuse it the module enters RECOVERY. One security command runs at a time, from the host or out of band;
SEC_CMD holds one that takes input until the host's input comes; one in a wrong state, without a lease or with too short a buffer ends at once.
IMAGE_WRITE checks a staged copy first, then writes flash; RESET takes the module to COLD. The out-of-band port answers every datagram and starts a
command once. -/
def Obligations.ImagesAndCommands : Prop :=
  (∀ (x : Sec) (img : List Byte), x.imageCheck img = none ↔ imgFormat img = true ∧ bitAt x.fwFused (imgSlot img) = true
      ∧ bitAt x.fwRevoked (imgSlot img) = false
    ∧ keyDigest (imgKey img) = x.fwKeys.getD (imgSlot img) 0 ∧ keyOid (imgKey img) = orovinOid ∧ x.minSvn ≤ imgSvn img
    ∧ verifySig (imgKey img) (digestBytes (imgMeas img)) (slice img (256 + imgBody img) orovinSig) = true)
  ∧ ∀ s : State,
    (∀ b, let x := s.m.mmp b
      s.m.mech.standby = true → s.m.sys.st = .cold → x.imageOk = false → x.refused = false → s.m.sec.writing = none →
          Completes (.imageVerify b) s (fun m =>
        (s.m.sec.imageCheck s.m.sec.image = none → m.sec.imageValid = true ∧ m.mmp b = { x with imageOk := true } ∧ m.sys.st = .cold)
        ∧ (s.m.sec.imageCheck s.m.sec.image ≠ none → m.sec.imageValid = false ∧ (m.mmp b).refused = true ∧ (m.mmp b).imageOk = false
            ∧ ((s.m.mmp (!b)).refused = true → m.sys.st = .recovery ∧ m.sec.noImage = true) ∧ ((s.m.mmp (!b)).refused = false → m.sys.st = .cold))))
    ∧ (∀ e ∈ secTable,
      (∀ src bytes, s.m.sec.busy = false →
        let c : SecCmd := { op := e.2, oob := none, data := if e.2 = 1 then padTo s.m.sec.cmdLen 0 bytes else if e.2 = 2 then padTo 32 0 bytes else bytes }
        (s.m.secBar e.2 (some s.m.sec.cmdLen) = none → exec (e.1 (.bar src) bytes) s = after s (s.m.secGo c))
        ∧ (∀ code, s.m.secBar e.2 (some s.m.sec.cmdLen) = some code → Completes (e.1 (.bar src) bytes) s (fun m => SecEnded s.m c code [] m
            ∧ m.sys = s.m.sys ∧ m.parts = s.m.parts)))
      ∧ (∀ src bytes, s.m.sec.busy = true →
        let data : Bytes := if e.2 = 1 then padTo s.m.sec.cmdLen 0 bytes else if e.2 = 2 then padTo 32 0 bytes else bytes
        ((∀ c, s.m.sec.cmd = some c → c.awaits = true → c.op ≠ e.2) → exec (e.1 (.bar src) bytes) s = .next s)
        ∧ (∀ c, s.m.sec.cmd = some c → c.awaits = true → c.op = e.2 → exec (e.1 (.bar src) bytes) s = after s (s.m.secGo (c.fed data))))
      ∧ (∀ c bytes, s.m.sec.cmd = some c → c.op = e.2 → c.begun = false → c.oob.isSome = true →
        (s.m.secBar e.2 none = none → exec (e.1 .oob bytes) s = after s (s.m.secGo c))
        ∧ (∀ code, s.m.secBar e.2 none = some code → Completes (e.1 .oob bytes) s (fun m => SecEnded s.m c code [] m))))
    ∧ (∀ op, let c : SecCmd := { op := op, oob := none, begun := true, awaits := true }
      (s.m.sec.busy = true → s.m.secHold op = s.m)
      ∧ (s.m.sec.busy = false →
        (∀ code, s.m.secBar op (some s.m.sec.cmdLen) = some code → SecEnded s.m c code [] (s.m.secHold op))
        ∧ (s.m.secBar op (some s.m.sec.cmdLen) = none →
          (op = 1 ∨ op = 4 → s.m.jig.phase ≠ .idle → SecEnded s.m c 0x0601 [] (s.m.secHold op))
          ∧ ((op ≠ 1 ∧ op ≠ 4) ∨ s.m.jig.phase = .idle →
              s.m.secHold op = { s.m with sec := { s.m.sec with cmd := some c, busy := true, op := op } }))))
    ∧ (∀ op len, 1 ≤ op → op ≤ 8 →
      (s.m.mmpRuns = false → s.m.secBar op len = if op = 1 ∨ op = 8 then none else some 0x0601)
      ∧ (s.m.mmpRuns = true → (secState op s.m.sys.st = false ∨ (op ≠ 2 ∧ op ≠ 3 ∧ s.m.cfgOpen = false) → s.m.secBar op len = some 0x0601)
        ∧ (secState op s.m.sys.st = true → (op = 2 ∨ op = 3 ∨ s.m.cfgOpen = true) → s.m.secBar op len = match len with
            | some n => if n < secOut op then some 0x0602 else none | none => none)))
    ∧ (∀ c : SecCmd, let m0 : Module := { s.m with sec.cmd := some { c with begun := true }, sec.busy := true, sec.op := c.op }
      (c.op = 1 →
        (s.m.jig.phase ≠ .idle → SecEnded s.m c 0x0601 [] (s.m.secGo c) ∧ (s.m.secGo c).sec.image = s.m.sec.image)
        ∧ (s.m.jig.phase = .idle → s.m.mmpRuns = true → s.m.sec.imageCheck c.data ≠ none → SecEnded s.m c 0x0A01 [] (s.m.secGo c)
            ∧ (s.m.secGo c).sec.image = s.m.sec.image)
        ∧ (s.m.jig.phase = .idle → s.m.mmpRuns = false ∨ s.m.sec.imageCheck c.data = none →
            s.m.secGo c = { m0 with sec.writing := some c.data, sec.image := [], sec.imageValid := false }))
      ∧ (c.op = 8 → s.m.sys.st ≠ .cold → s.m.secGo c = m0.toCold ∧ m0.toCold.sys.st = .cold ∧ m0.toCold.sec.busy = false
          ∧ m0.toCold.sec.image = s.m.sec.image))
    ∧ (∀ img c, s.m.sec.writing = some img → s.m.sec.cmd = some c →
      (s.m.sec.imageCheck img = none → Completes (.imageWriteComplete true) s (fun m => SecEnded s.m c 0 [] m ∧ m.sec.image = img
          ∧ m.sec.imageValid = true ∧ m.sec.writing = none
        ∧ (m.sec.imagePending = true ↔ ¬ (s.m.sec.measA = imgMeas img ∧ s.m.sec.measB = imgMeas img))))
      ∧ (s.m.sec.imageCheck img ≠ none → Completes (.imageWriteComplete true) s (fun m => SecEnded s.m c 0x0A01 [] m
          ∧ m.sec.imageValid = s.m.sec.imageValid ∧ m.sec.writing = none))
      ∧ Completes (.imageWriteComplete false) s (fun m => SecEnded s.m c 0x0A01 [] m ∧ m.sec.imageValid = s.m.sec.imageValid ∧ m.sec.writing = none))
    ∧ (∀ dg : List Byte, s.m.mech.standby = true →
      let xid := leAt dg 8 4
      let ofs := leAt dg 12 4
      let answered (code : Nat) (m : Module) := ∃ total, m.out = s.m.out ++ [.oob (dgMake (leAt dg 4 1) 3 xid ofs total code [])]
      (dgOk 1 dg = true → s.m.sec.oob.xid ≠ some xid → (∀ c, s.m.sec.cmd = some c → c.oob ≠ some xid) → Completes (.secData dg) s (fun m =>
        answered 0 m ∧ m.sec.oob = { xid := some xid, op := leAt dg 4 1, parts := [(ofs, dgData dg)] } ∧ m.sec.cmd = s.m.sec.cmd))
      ∧ (dgOk 1 dg = true → s.m.sec.oob.xid = some xid → kget? s.m.sec.oob.parts ofs ≠ none →
          Completes (.secData dg) s (fun m => answered s.m.oobResult m ∧ m.sec = s.m.sec))
      ∧ (dgOk 2 dg = true → s.m.sec.oob.xid = some xid → s.m.sec.oob.total = none → s.m.sec.oob.code = none → s.m.sec.busy = false →
          s.m.sec.cmd = none →
          1 ≤ leAt dg 4 1 → leAt dg 4 1 ≤ 8 → leAt dg 20 4 ≤ (dgJoin s.m.sec.oob.parts).length → Completes (.run dg) s (fun m =>
          answered 0xFFFF m ∧ m.sec.busy = true
              ∧ m.sec.cmd = some { op := leAt dg 4 1, oob := some xid, data := (dgJoin s.m.sec.oob.parts).take (leAt dg 20 4) }))
      ∧ (dgOk 2 dg = true → s.m.sec.oob.xid = some xid → s.m.sec.oob.total ≠ none → Completes (.run dg) s (fun m => answered s.m.oobResult m
          ∧ m.sec = s.m.sec))
      ∧ (dgOk 4 dg = true → s.m.sec.oob.xid = some xid → s.m.sec.oob.code = some 0 → exec (.fetch dg) s =
          .next { s with m := s.m.emit (.oob (dgMake (leAt dg 4 1) 5 xid ofs 0 0 ((s.m.sec.oob.out.drop ofs).take 1_024))) })
      ∧ (dgOk 4 dg = true → s.m.sec.oob.xid ≠ some xid → Completes (.fetch dg) s (fun m => answered 0x0601 m ∧ m.sec = s.m.sec)))

/-- Quotes, certificates, re-enrolment and the customer key (R499, R533 to R539). A quote is signed by the next leaf, which is never used again;
beyond the hourly limit it ends with 0x0601, with no leaf left with 0x0A02, and at shed level 4 it waits. Enrolment makes a new tree, signs a request
by a reserved leaf, and installs a certificate only for the READY tree. A key change is accepted only with a higher counter, and, when a key is
enrolled, with its signature. -/
def Obligations.IdentityAndKeys : Prop :=
  (∀ (x : Sec) (b : List Byte), x.keyBad b = none → x.custCounter < leAt b 16 4 ∧ leAt b 8 8 = x.serial ∧ leAt b 0 4 = 0x4B43_4B4F
      ∧ (x.custKey = [] → leAt b 6 1 = 1)
    ∧ (x.custKey ≠ [] → verifySig x.custKey (b.take 96) (slice b 96 ((sigLength (keyOid x.custKey)).getD 0)) = true))
  ∧ (∀ (x : Sec) (b : List Byte), x.certBad b = none → x.enrol = 2 ∧ leAt b 8 8 = x.serial ∧ leAt b 6 2 = (x.generation + 1) % 2 ^ 16
      ∧ slice b 16 68 = treeKey x.newTree
    ∧ bitAt x.caFused (leAt b 84 4) = true ∧ bitAt x.caRevoked (leAt b 84 4) = false ∧ keyDigest (slice b 88 68) = x.caKeys.getD (leAt b 84 4) 0
    ∧ verifySig (slice b 88 68) (b.take 160) (slice b 160 orovinSig) = true)
  ∧ ∀ s : State,
    (∀ c : SecCmd, let t := s.m.secGo c
      (c.op = 2 →
        (s.m.shedLevel = 4 → t.sec.cmd = some { c with begun := true } ∧ t.sec.busy = true ∧ t.sec.nextLeaf = s.m.sec.nextLeaf ∧ t.out = s.m.out)
        ∧ (s.m.shedLevel ≠ 4 → s.m.sec.remaining ≠ 0 → s.m.quotesNow.length < s.m.sec.quoteLimit →
            (∃ body, SecEnded s.m c 0 (body ++ treeSign s.m.sec.tree s.m.sec.nextLeaf body) t ∧ body.length = 800 ∧ leAt body 0 4 = 0x5451_4B4F
              ∧ slice body 32 32 = padTo 32 0 c.data)
            ∧ t.sec.nextLeaf = s.m.sec.nextLeaf + 1 ∧ t.sec.quoteAt = s.m.quotesNow ++ [s.m.now])
        ∧ (s.m.shedLevel ≠ 4 → s.m.sec.remaining = 0 → SecEnded s.m c 0x0A02 [] t ∧ t.sec.nextLeaf = s.m.sec.nextLeaf)
        ∧ (s.m.shedLevel ≠ 4 → s.m.sec.remaining ≠ 0 → s.m.sec.quoteLimit ≤ s.m.quotesNow.length → SecEnded s.m c 0x0601 [] t
            ∧ t.sec.nextLeaf = s.m.sec.nextLeaf))
      ∧ (c.op = 3 → SecEnded s.m c 0 (padTo 2_980 0 s.m.sec.cert) t)
      ∧ (c.op = 4 → let b := padTo (max 96 c.data.length) 0 c.data
        (s.m.jig.phase ≠ .idle → SecEnded s.m c 0x0601 [] t ∧ t.sec.custKey = s.m.sec.custKey)
        ∧ (∀ code, s.m.jig.phase = .idle → s.m.sec.keyBad b = some code →
            SecEnded s.m c code [] t ∧ t.sec.custKey = s.m.sec.custKey ∧ t.sec.custCounter = s.m.sec.custCounter
                ∧ t.sec.custRequire = s.m.sec.custRequire)
        ∧ (s.m.jig.phase = .idle → s.m.sec.keyBad b = none → SecEnded s.m c 0 [] t ∧ t.sec.custCounter = leAt b 16 4
          ∧ (leAt b 6 1 = 1 → t.sec.custKey = slice b 20 68 ∧ t.sec.custRequire = decide (leAt b 7 1 = 1))
          ∧ (leAt b 6 1 = 2 → t.sec.custKey = [] ∧ t.sec.custRequire = false)
          ∧ (leAt b 6 1 = 3 → t.sec.custKey = s.m.sec.custKey ∧ t.sec.custRequire = decide (leAt b 7 1 = 1))))
      ∧ (c.op = 5 → (s.m.sec.enrol = 1 → SecEnded s.m c 0x0601 [] t ∧ t.sec.enrol = 1) ∧ (s.m.sec.enrol ≠ 1 → SecEnded s.m c 0 [] t
          ∧ t.sec.enrol = 1))
      ∧ (c.op = 6 → (s.m.sec.enrol ≠ 2 ∨ 16 ≤ s.m.sec.nextReserved → SecEnded s.m c 0x0601 [] t ∧ t.sec.nextReserved = s.m.sec.nextReserved)
        ∧ (s.m.sec.enrol = 2 → s.m.sec.nextReserved < 16 →
            (∃ body, SecEnded s.m c 0 (body ++ treeSign s.m.sec.tree (1_048_560 + s.m.sec.nextReserved) body) t ∧ body.length = 128
                ∧ slice body 16 68 = treeKey s.m.sec.newTree)
            ∧ t.sec.nextReserved = s.m.sec.nextReserved + 1))
      ∧ (c.op = 7 → let b := padTo 2_980 0 c.data
        (∀ code, s.m.sec.certBad b = some code → SecEnded s.m c code [] t ∧ t.sec.tree = s.m.sec.tree ∧ t.sec.cert = s.m.sec.cert)
        ∧ (s.m.sec.certBad b = none → SecEnded s.m c 0 [] t ∧ t.sec.cert = b ∧ t.sec.tree = s.m.sec.newTree
            ∧ t.sec.generation = (s.m.sec.generation + 1) % 2 ^ 16
            ∧ t.sec.nextLeaf = 0 ∧ t.sec.nextReserved = 0 ∧ t.sec.enrol = 0))
      ∧ (2 ≤ c.op → c.op ≤ 7 → t.parts = s.m.parts ∧ t.sys = s.m.sys ∧ t.sec.image = s.m.sec.image))
    ∧ (s.m.sec.enrol = 1 → exec .treeGenerated s = .next { s with
        m := { s.m with sec.enrol := 2, sec.trees := s.m.sec.trees + 1, sec.newTree := s.m.sec.trees + 1 } })

/-! ## The connector face (R455, R543 to R553) -/

/-- The connector and the standby rail (R455, R489, R509, R518, R544, R551, R553). With MATE made, standby power comes up with the slot of the straps
and the log of flash; the loop's bypass stays closed for slot 0. Losing MATE or the input takes standby power and everything but flash, fuses and
pins: the module is COLD, every partition OFF, and what the AOS and its log held is gone. -/
def Obligations.ConnectorFace : Prop :=
  ∀ s : State,
    exec .mateMade s = .next { s with m := { s.m with mech.mate := true } }
    ∧ (∀ straps : BitVec 8, s.m.mech.standby = false → s.m.mech.mate = true → Completes (.standbyUp straps) s (fun m =>
      m.mech.standby = true ∧ m.mech.straps = straps.toNat % 16 ∧ m.sup.side.slot = straps.toNat % 16
          ∧ (m.sup.side.bypass = true ↔ straps.toNat % 16 = 0)
      ∧ m.sup.boot = (s.m.sup.boot + 1) % 16 ∧ m.sup.log = s.m.sup.flashLog ∧ m.sup.nextIndex = s.m.sup.flashNext ∧ m.sup.seq = s.m.sup.flashSeq
          ∧ m.sys.st = s.m.sys.st))
    ∧ (s.m.mech.standby = true →
      let lost (mate : Bool) (m : Module) := m.mech.standby = false ∧ m.mech.mate = mate ∧ m.sys.st = .cold ∧ m.parts = [] ∧ m.cores = []
          ∧ m.pwr.sk = 0
        ∧ m.sup.lease = .none_ ∧ m.sup.currentEpoch = 0 ∧ m.sup.leaseEpoch = 0 ∧ m.sup.log = [] ∧ m.sup.flashLog = s.m.sup.flashLog
            ∧ m.sup.flashSeq = s.m.sup.flashSeq
        ∧ m.sup.side.bypass = true ∧ m.sup.wdStops = 0 ∧ m.sup.wdStuck = false ∧ m.sec.minSvn = s.m.sec.minSvn ∧ m.sec.fwRevoked = s.m.sec.fwRevoked
        ∧ m.sec.nextLeaf = s.m.sec.nextLeaf ∧ m.sec.custKey = s.m.sec.custKey ∧ m.sec.custCounter = s.m.sec.custCounter ∧ m.sec.image = s.m.sec.image
      Completes .standbyLoss s (lost s.m.mech.mate) ∧ Completes .mateBreak s (lost false))
    ∧ (s.m.mech.standby = false → exec .standbyLoss s = .next s ∧ exec .mateBreak s = .next { s with m := { s.m with mech.mate := false } })

/-! ## Register writes (R19, R20, R265, R267, R391, R396, R484, R521, R541, R556) -/

/-- Register writes (R19, R20, R265, R267, R382, R391, R396, R484, R521, R522, R541). A misaligned write, one outside the registers, and one from a
source that cannot write do nothing; read-only registers ignore writes. A command register acts as its command does, a configuration register takes a
value only from who may write it, and a half of a wide register keeps its other half. -/
def Obligations.RegisterWrites : Prop :=
  ∀ (s : State) (src : Source) (v : Reg64),
    let lo := v.toNat % 2 ^ 32
    let w32 (o : Nat) := exec (.registerWrite src o false v) s
    let w64 (o : Nat) := exec (.registerWrite src o true v) s
    (∀ o wide, o % (if wide then 8 else 4) ≠ 0 ∨ bar2 + 0x40_0000 ≤ o ∨ s.m.canWrite src = false → exec (.registerWrite src o wide v) s = .next s)
    ∧ (s.m.canWrite src = true →
      (lo % 4 = 1 → w32 0x1C = exec (.enterRecovery src) s) ∧ (lo % 4 = 2 → w32 0x1C = exec (.leaveService src) s) ∧ (lo % 4 = 0 ∨ lo % 4 = 3 →
          w32 0x1C = .next s)
      ∧ (∀ o ∈ [0x0, 0x8, 0xC, 0x10, 0x18, 0xE0_0000, 0xE0_0008, 0xE0_0070, 0xE0_0090], w32 o = .next s)
      ∧ w64 0xE0_0080 = .next { s with m := { s.m with sec.cmdAddr := v.toNat / 64 * 64 } }
      ∧ w32 0xE0_0088 = .next { s with m := { s.m with sec.cmdLen := lo % 2 ^ 26 } }
      ∧ (lo % 16 = 3 → w32 0xE0_008C = exec (.certExport (.bar src) []) s) ∧ (lo % 16 = 5 → w32 0xE0_008C = exec (.enrolBegin (.bar src) []) s)
      ∧ (lo % 16 = 6 → w32 0xE0_008C = exec (.enrolRequest (.bar src) []) s) ∧ (lo % 16 = 8 → w32 0xE0_008C = exec (.reset (.bar src) []) s)
      ∧ (lo % 16 ∈ [1, 2, 4, 7] → w32 0xE0_008C = after s (s.m.secHold (lo % 16)))
      ∧ (∀ q, q < 1_024 → w32 (bar2 + 4_096 * q) = exec (.queSqTail q (BitVec.ofNat 32 lo)) s
          ∧ w32 (bar2 + 4_096 * q + 4) = exec (.queCqHead q (BitVec.ofNat 32 lo)) s
        ∧ (lo % 4 = 1 → w32 (bar2 + 4_096 * q + 8) = exec (.skip src q) s) ∧ (lo % 4 = 2 → w32 (bar2 + 4_096 * q + 8) = exec (.retry src q) s))
      ∧ (s.m.mmpRuns = false → ∀ o, o < bar2 → o % 4 = 0 → o / 0x10_0000 ≠ 0 → o / 0x10_0000 ≠ 14 → w32 o = .next s)
      ∧ (s.m.mmpRuns = true →
        (lo % 8 = 1 → w32 0x30_0020 = exec (.start src) s) ∧ (lo % 8 = 2 → w32 0x30_0020 = exec (.armFabric src) s)
            ∧ (lo % 8 = 4 → w32 0x30_0020 = exec (.disarm src) s)
        ∧ (s.m.cfgOk src = true → w64 0x30_0008 = .next { s with m := { s.m with jig.addr := v.toNat } }
          ∧ (s.m.jig.addr < 2 ^ 64 → w32 0x30_0008 = .next { s with m := { s.m with jig.addr := s.m.jig.addr / 2 ^ 32 * 2 ^ 32 + lo } }))
        ∧ (s.m.cfgOk src = false → w64 0x30_0008 = .next s)
        ∧ (s.m.holderOk src = true → w32 0x40_0040 = .next { s with m := { s.m with tier.lowWater := lo } }
          ∧ (s.m.anyActive = false → w32 0x60_0018 = .next { s with m := { s.m with fab.vlan := lo % 2 ^ 12 } })
          ∧ (s.m.anyActive = true → w32 0x60_0018 = .next s)
          ∧ w32 0xA0_001C = after s (Module.recap { s.m with pwr.ctrl := lo % 2 + put 8 9 (min 310 (max 60 (fld lo 8 9))) })
          ∧ w32 0xE0_0078 = .next { s with m := { s.m with sec.quoteLimit := min 1_024 (max 1 (lo % 2 ^ 11)) } })
        ∧ (s.m.holderOk src = false → w32 0x40_0040 = .next s ∧ w32 0x60_0018 = .next s ∧ w32 0xA0_001C = .next s ∧ w32 0xE0_0078 = .next s)
        ∧ w32 0x90_0020 = exec (.serve src (BitVec.ofNat 64 lo)) s ∧ w64 0xA0_0008 = exec (.pwrCap src v) s
            ∧ w64 0xA0_0010 = exec (.pwrMgrHeartbeat src v) s
        ∧ w32 0xC0_0010 = exec (.aosLeaseClaim src (BitVec.ofNat 64 lo)) s ∧ w32 0xC0_0040 = exec (.irqStatusClear src (BitVec.ofNat 64 lo)) s
        ∧ w32 0xC0_0044 = .next { s with m := { s.m with sup.irqEn := lo % 2 ^ 7 } }
        ∧ (∀ q, q < 1_024 → (lo % 4 = 1 → w32 (0x81_0000 + 64 * q + 28) = exec (.enable src q) s)
            ∧ (lo % 4 = 2 → w32 (0x81_0000 + 64 * q + 28) = exec (.disable src q) s))
        ∧ (∀ p, p < 16 → w32 (0x10_0108 + 16 * p) = exec (.engTagSummaryClear p (BitVec.ofNat 64 lo)) s)
        ∧ (∀ o, o % 4 = 0 → o / 0x10_0000 ∈ [2, 7, 11, 13] → w32 o = .next s)))
end

