-- ==== Sys2Proof/Laws/Map.lean ====
section
/-! SUPPORT. Laws of sparse maps and memories: a read after a write, the canonical form, and what a write leaves alone. -/

namespace Sys2Proof.Machine

variable {α : Type}

/-! ## Keys of a map -/

/-- Every listed key is above `k`. -/
def kabove (k : Nat) (m : KMap α) : Prop := ∀ p ∈ m, k < p.1

theorem ksorted_cons (p : Nat × α) (t : KMap α) :
    ksorted (p :: t) = true ↔ kabove p.1 t ∧ ksorted t = true := by
  induction t generalizing p with
  | nil => simp [ksorted, kabove]
  | cons q t ih =>
    rw [ksorted, Bool.and_eq_true, decide_eq_true_eq, ih q]
    constructor
    · rintro ⟨h, hq, ht⟩
      refine ⟨fun x hx => ?_, hq, ht⟩
      rcases List.mem_cons.1 hx with rfl | hx
      · exact h
      · exact Nat.lt_trans h (hq x hx)
    · rintro ⟨h, hq, ht⟩
      exact ⟨h q List.mem_cons_self, hq, ht⟩

theorem kget?_of_above {k : Nat} {m : KMap α} (h : kabove k m) : kget? m k = none := by
  induction m with
  | nil => rfl
  | cons p t ih =>
    have hp := h p List.mem_cons_self
    rw [kget?, if_neg (by omega)]
    exact ih (fun x hx => h x (List.mem_cons_of_mem _ hx))

theorem kget?_kins_self (k : Nat) (v : α) (m : KMap α) (h : ∀ p ∈ m, p.1 ≠ k) : kget? (kins k v m) k = some v := by
  induction m with
  | nil => simp [kins, kget?]
  | cons p t ih =>
    rw [kins]
    split
    · simp [kget?]
    · rw [kget?, if_neg (h p List.mem_cons_self)]
      exact ih (fun x hx => h x (List.mem_cons_of_mem _ hx))

theorem kget?_kins_ne {k j : Nat} (v : α) (m : KMap α) (h : j ≠ k) : kget? (kins k v m) j = kget? m j := by
  induction m with
  | nil => simp [kins, kget?, Ne.symm h]
  | cons p t ih =>
    rw [kins]
    split
    · rw [kget?, if_neg (Ne.symm h)]
    · rw [kget?, kget?, ih]

theorem kget?_kdel_self (m : KMap α) (k : Nat) : kget? (kdel m k) k = none := by
  induction m with
  | nil => rfl
  | cons p t ih =>
    rw [kdel, List.filter_cons] at *
    split
    · rename_i hp
      rw [kget?, if_neg (by simpa using hp)]
      exact ih
    · exact ih

theorem kget?_kdel_ne {k j : Nat} (m : KMap α) (h : j ≠ k) : kget? (kdel m k) j = kget? m j := by
  induction m with
  | nil => rfl
  | cons p t ih =>
    rw [kdel, List.filter_cons] at *
    split
    · rw [kget?, kget?]
      split
      · rfl
      · exact ih
    · rename_i hp
      have hp : p.1 = k := by simpa using hp
      rw [kget?, if_neg (by omega)]
      exact ih

theorem kdel_ne (m : KMap α) (k : Nat) : ∀ p ∈ kdel m k, p.1 ≠ k := by
  intro p hp
  simpa using (List.mem_filter.1 hp).2

/-- What is written at a key is read there. -/
@[simp] theorem kget?_kput_self (m : KMap α) (k : Nat) (v : α) : kget? (kput m k v) k = some v :=
  kget?_kins_self k v _ (kdel_ne m k)

/-- A write leaves every other key alone. -/
theorem kget?_kput_ne {k j : Nat} (m : KMap α) (v : α) (h : j ≠ k) : kget? (kput m k v) j = kget? m j := by
  rw [kput, kget?_kins_ne v _ h, kget?_kdel_ne m h]

@[simp] theorem kgetD_kput_self (d : α) (m : KMap α) (k : Nat) (v : α) : kgetD d (kput m k v) k = v := by
  simp [kgetD]

theorem kgetD_kput_ne {k j : Nat} (d : α) (m : KMap α) (v : α) (h : j ≠ k) :
    kgetD d (kput m k v) j = kgetD d m j := by
  simp [kgetD, kget?_kput_ne m v h]

/-- A write as a condition on the key. -/
theorem kgetD_kput (d : α) (m : KMap α) (k j : Nat) (v : α) :
    kgetD d (kput m k v) j = if j = k then v else kgetD d m j := by
  split
  · subst j; simp
  · exact kgetD_kput_ne d m v ‹_›

theorem kgetD_kset [DecidableEq α] (d : α) (m : KMap α) (k j : Nat) (v : α) :
    kgetD d (kset d m k v) j = if j = k then v else kgetD d m j := by
  rw [kset]
  split
  · subst v
    split
    · subst j; simp [kgetD, kget?_kdel_self]
    · rename_i h; simp [kgetD, kget?_kdel_ne m h]
  · exact kgetD_kput d m k j v

@[simp] theorem kgetD_kset_self [DecidableEq α] (d : α) (m : KMap α) (k : Nat) (v : α) :
    kgetD d (kset d m k v) k = v := by
  simp [kgetD_kset]

theorem kdel_kins (k : Nat) (v : α) (m : KMap α) : kdel (kins k v m) k = kdel m k := by
  induction m with
  | nil => simp [kins, kdel]
  | cons p t ih =>
    rw [kins]
    split
    · simp [kdel]
    · unfold kdel at *
      rw [List.filter_cons, List.filter_cons, ih]

/-- The later of two writes of a key stays. -/
@[simp] theorem kput_kput (m : KMap α) (k : Nat) (a b : α) : kput (kput m k a) k b = kput m k b := by
  unfold kput
  rw [kdel_kins]
  unfold kdel
  rw [List.filter_filter]
  simp

/-! ## Order is kept -/

theorem kabove_kins {k j : Nat} {v : α} {m : KMap α} (h : kabove j m) (hk : j < k) : kabove j (kins k v m) := by
  induction m with
  | nil => intro p hp; simp only [kins, List.mem_singleton] at hp; simpa [hp] using hk
  | cons q t ih =>
    rw [kins]
    split
    · intro p hp
      rcases List.mem_cons.1 hp with rfl | hp
      · exact hk
      · exact h p hp
    · intro p hp
      rcases List.mem_cons.1 hp with rfl | hp
      · exact h _ List.mem_cons_self
      · exact ih (fun x hx => h x (List.mem_cons_of_mem _ hx)) p hp

theorem ksorted_filter {m : KMap α} (f : Nat × α → Bool) (h : ksorted m = true) : ksorted (m.filter f) = true := by
  induction m with
  | nil => rfl
  | cons p t ih =>
    obtain ⟨ha, hs⟩ := (ksorted_cons p t).1 h
    rw [List.filter_cons]
    split
    · exact (ksorted_cons _ _).2 ⟨fun x hx => ha x (List.mem_filter.1 hx).1, ih hs⟩
    · exact ih hs

theorem ksorted_kins {k : Nat} {v : α} {m : KMap α} (h : ksorted m = true) (hn : ∀ p ∈ m, p.1 ≠ k) :
    ksorted (kins k v m) = true := by
  induction m with
  | nil => rfl
  | cons p t ih =>
    obtain ⟨ha, hs⟩ := (ksorted_cons p t).1 h
    rw [kins]
    split
    · rename_i hk
      refine (ksorted_cons _ _).2 ⟨fun x hx => ?_, h⟩
      rcases List.mem_cons.1 hx with rfl | hx
      · exact hk
      · exact Nat.lt_trans hk (ha x hx)
    · have hp := hn p List.mem_cons_self
      exact (ksorted_cons _ _).2 ⟨kabove_kins ha (by omega), ih hs (fun x hx => hn x (List.mem_cons_of_mem _ hx))⟩

/-- A write keeps the keys strictly rising. -/
theorem ksorted_kput {m : KMap α} (k : Nat) (v : α) (h : ksorted m = true) : ksorted (kput m k v) = true :=
  ksorted_kins (ksorted_filter _ h) (kdel_ne m k)

/-! ## Memories -/

theorem mem_kins {k : Nat} {v : α} {m : KMap α} {p : Nat × α} (h : p ∈ kins k v m) : p = (k, v) ∨ p ∈ m := by
  induction m with
  | nil => simpa [kins] using h
  | cons q t ih =>
    rw [kins] at h
    split at h
    · simpa using h
    · rcases List.mem_cons.1 h with rfl | h
      · exact .inr List.mem_cons_self
      · exact (ih h).imp id (List.mem_cons_of_mem _)

theorem Memory.wf_iff (m : Memory) : m.wf = true ↔ ksorted m = true ∧ ∀ p ∈ m, p.2 ≠ Memory.unlisted := by
  simp [Memory.wf]

/-- A write of one byte keeps the canonical form. -/
theorem Memory.wf_writeByte {m : Memory} (a : Nat) (v : Byte) (h : m.wf = true) : (writeByte m a v).wf = true := by
  rw [Memory.wf_iff] at *
  rw [writeByte, kset]
  split
  · exact ⟨ksorted_filter _ h.1, fun p hp => h.2 p (List.mem_filter.1 hp).1⟩
  · refine ⟨ksorted_kput a v h.1, fun p hp => ?_⟩
    rcases mem_kins hp with rfl | hp
    · assumption
    · exact h.2 p (List.mem_filter.1 hp).1

theorem Memory.wf_writeLE {m : Memory} (a n x : Nat) (h : m.wf = true) : (writeLE m a n x).wf = true := by
  induction n generalizing m a x with
  | zero => exact h
  | succ n ih => exact ih _ _ (Memory.wf_writeByte _ _ h)

theorem Memory.wf_filter {m : Memory} (f : Nat × Byte → Bool) (h : m.wf = true) : Memory.wf (m.filter f) = true := by
  rw [Memory.wf_iff] at *
  exact ⟨ksorted_filter _ h.1, fun p hp => h.2 p (List.mem_filter.1 hp).1⟩

theorem Memory.wf_clearBytes {m : Memory} (a n : Nat) (h : m.wf = true) : (clearBytes m a n).wf = true :=
  Memory.wf_filter _ h

theorem mem_listCells {a : Nat} {bs : List Byte} {p : Nat × Byte} (h : p ∈ listCells a bs) :
    a ≤ p.1 ∧ p.1 < a + bs.length ∧ p.2 ≠ Memory.unlisted := by
  induction bs generalizing a with
  | nil => simp [listCells] at h
  | cons b t ih =>
    rw [List.length_cons]
    rw [listCells] at h
    split at h
    · obtain ⟨h1, h2, h3⟩ := ih h
      exact ⟨by omega, by omega, h3⟩
    · rcases List.mem_cons.1 h with rfl | h
      · exact ⟨Nat.le_refl _, by simp, ‹_›⟩
      · obtain ⟨h1, h2, h3⟩ := ih h
        exact ⟨by omega, by omega, h3⟩

theorem ksorted_listCells (a : Nat) (bs : List Byte) : ksorted (listCells a bs) = true := by
  induction bs generalizing a with
  | nil => rfl
  | cons b t ih =>
    rw [listCells]
    split
    · exact ih _
    · exact (ksorted_cons _ _).2 ⟨fun p hp => by have := mem_listCells hp; exact this.1, ih _⟩

theorem ksorted_append {m n : KMap α} (hm : ksorted m = true) (hn : ksorted n = true)
    (h : ∀ p ∈ m, ∀ q ∈ n, p.1 < q.1) : ksorted (m ++ n) = true := by
  induction m with
  | nil => exact hn
  | cons p t ih =>
    obtain ⟨ha, hs⟩ := (ksorted_cons p t).1 hm
    refine (ksorted_cons _ _).2 ⟨fun q hq => ?_, ih hs (fun x hx => h x (List.mem_cons_of_mem _ hx))⟩
    rcases List.mem_append.1 hq with hq | hq
    · exact ha q hq
    · exact h p List.mem_cons_self q hq

/-- A write of consecutive bytes keeps the canonical form. -/
theorem Memory.wf_writeBytes {m : Memory} (a : Nat) (bs : List Byte) (h : m.wf = true) :
    (writeBytes m a bs).wf = true := by
  rw [Memory.wf_iff] at *
  refine ⟨?_, fun p hp => ?_⟩
  · refine ksorted_append (ksorted_filter _ h.1) (ksorted_append (ksorted_listCells a bs) (ksorted_filter _ h.1) ?_) ?_
    · intro p hp q hq
      have h1 := mem_listCells hp
      have h2 := (List.mem_filter.1 hq).2
      simp only [decide_eq_true_eq] at h2
      omega
    · intro p hp q hq
      have h1 := (List.mem_filter.1 hp).2
      simp only [decide_eq_true_eq] at h1
      rcases List.mem_append.1 hq with hq | hq
      · have h2 := mem_listCells hq; omega
      · have h2 := (List.mem_filter.1 hq).2
        simp only [decide_eq_true_eq] at h2
        omega
  · rcases List.mem_append.1 hp with hp | hp
    · exact h.2 p (List.mem_filter.1 hp).1
    · rcases List.mem_append.1 hp with hp | hp
      · exact (mem_listCells hp).2.2
      · exact h.2 p (List.mem_filter.1 hp).1

/-- A byte written is read back, and every other address reads as before. -/
theorem readByte_writeByte (m : Memory) (a b : Nat) (v : Byte) :
    readByte (writeByte m a v) b = if b = a then v else readByte m b :=
  kgetD_kset Memory.unlisted m a b v

/-- A field written leaves every address outside it alone. -/
theorem readByte_writeLE_ne {m : Memory} {a n x b : Nat} (h : b < a ∨ a + n ≤ b) :
    readByte (writeLE m a n x) b = readByte m b := by
  induction n generalizing m a x with
  | zero => rfl
  | succ n ih => rw [writeLE, ih (by omega), readByte_writeByte, if_neg (by omega)]

/-- A field written is read back. -/
theorem readLE_writeLE (m : Memory) (a n x : Nat) : readLE (writeLE m a n x) a n = x % 256 ^ n := by
  induction n generalizing m a x with
  | zero => simp [readLE, Nat.mod_one]
  | succ n ih =>
    rw [readLE, writeLE, ih, readByte_writeLE_ne (by omega), readByte_writeByte, if_pos rfl, BitVec.toNat_ofNat,
      show 256 ^ (n + 1) = 256 * 256 ^ n from Nat.pow_succ', Nat.mod_mul]

end Sys2Proof.Machine
end

