-- ==== Sys2Proof/Laws/State.lean ====
section
/-! SUPPORT. Laws of the state: what each named update leaves, what the interrupts after a command change, and the frame
of every command. -/

namespace Sys2Proof.Machine

open Sys2Proof

/-! ## Named parts: what is put is read, and nothing else changes -/

@[simp] theorem Module.setPart_part (m : Module) (p : Nat) (x : Part) : (m.setPart p x).part p = x := by
  simp [Module.part, Module.setPart]
@[simp] theorem Module.setPart_sys (m : Module) (p : Nat) (x : Part) : (m.setPart p x).sys = m.sys := rfl
@[simp] theorem Module.setPart_topo (m : Module) (p : Nat) (x : Part) : (m.setPart p x).topo = m.topo := rfl
@[simp] theorem Module.setPart_cores (m : Module) (p : Nat) (x : Part) : (m.setPart p x).cores = m.cores := rfl
@[simp] theorem Module.setPart_net (m : Module) (p : Nat) (x : Part) : (m.setPart p x).net = m.net := rfl
@[simp] theorem Module.setPart_jig (m : Module) (p : Nat) (x : Part) : (m.setPart p x).jig = m.jig := rfl
@[simp] theorem Module.setPart_tier (m : Module) (p : Nat) (x : Part) : (m.setPart p x).tier = m.tier := rfl
@[simp] theorem Module.setPart_str (m : Module) (p : Nat) (x : Part) : (m.setPart p x).str = m.str := rfl
@[simp] theorem Module.setPart_fab (m : Module) (p : Nat) (x : Part) : (m.setPart p x).fab = m.fab := rfl
@[simp] theorem Module.setPart_herds (m : Module) (p : Nat) (x : Part) : (m.setPart p x).herds = m.herds := rfl
@[simp] theorem Module.setPart_que (m : Module) (p : Nat) (x : Part) : (m.setPart p x).que = m.que := rfl
@[simp] theorem Module.setPart_launch (m : Module) (p : Nat) (x : Part) : (m.setPart p x).launch = m.launch := rfl
@[simp] theorem Module.setPart_pwr (m : Module) (p : Nat) (x : Part) : (m.setPart p x).pwr = m.pwr := rfl
@[simp] theorem Module.setPart_sec (m : Module) (p : Nat) (x : Part) : (m.setPart p x).sec = m.sec := rfl
@[simp] theorem Module.setPart_mech (m : Module) (p : Nat) (x : Part) : (m.setPart p x).mech = m.mech := rfl
@[simp] theorem Module.setPart_free (m : Module) (p : Nat) (x : Part) : (m.setPart p x).free = m.free := rfl
@[simp] theorem Module.setPart_sup (m : Module) (p : Nat) (x : Part) : (m.setPart p x).sup = m.sup := rfl
@[simp] theorem Module.setPart_out (m : Module) (p : Nat) (x : Part) : (m.setPart p x).out = m.out := rfl
@[simp] theorem Module.setCore_core (m : Module) (p : Nat) (x : Core) : (m.setCore p x).core p = x := by
  simp [Module.core, Module.setCore]
@[simp] theorem Module.setCore_sys (m : Module) (p : Nat) (x : Core) : (m.setCore p x).sys = m.sys := rfl
@[simp] theorem Module.setCore_topo (m : Module) (p : Nat) (x : Core) : (m.setCore p x).topo = m.topo := rfl
@[simp] theorem Module.setCore_parts (m : Module) (p : Nat) (x : Core) : (m.setCore p x).parts = m.parts := rfl
@[simp] theorem Module.setCore_net (m : Module) (p : Nat) (x : Core) : (m.setCore p x).net = m.net := rfl
@[simp] theorem Module.setCore_jig (m : Module) (p : Nat) (x : Core) : (m.setCore p x).jig = m.jig := rfl
@[simp] theorem Module.setCore_tier (m : Module) (p : Nat) (x : Core) : (m.setCore p x).tier = m.tier := rfl
@[simp] theorem Module.setCore_str (m : Module) (p : Nat) (x : Core) : (m.setCore p x).str = m.str := rfl
@[simp] theorem Module.setCore_fab (m : Module) (p : Nat) (x : Core) : (m.setCore p x).fab = m.fab := rfl
@[simp] theorem Module.setCore_herds (m : Module) (p : Nat) (x : Core) : (m.setCore p x).herds = m.herds := rfl
@[simp] theorem Module.setCore_que (m : Module) (p : Nat) (x : Core) : (m.setCore p x).que = m.que := rfl
@[simp] theorem Module.setCore_launch (m : Module) (p : Nat) (x : Core) : (m.setCore p x).launch = m.launch := rfl
@[simp] theorem Module.setCore_pwr (m : Module) (p : Nat) (x : Core) : (m.setCore p x).pwr = m.pwr := rfl
@[simp] theorem Module.setCore_sec (m : Module) (p : Nat) (x : Core) : (m.setCore p x).sec = m.sec := rfl
@[simp] theorem Module.setCore_mech (m : Module) (p : Nat) (x : Core) : (m.setCore p x).mech = m.mech := rfl
@[simp] theorem Module.setCore_free (m : Module) (p : Nat) (x : Core) : (m.setCore p x).free = m.free := rfl
@[simp] theorem Module.setCore_sup (m : Module) (p : Nat) (x : Core) : (m.setCore p x).sup = m.sup := rfl
@[simp] theorem Module.setCore_out (m : Module) (p : Nat) (x : Core) : (m.setCore p x).out = m.out := rfl
@[simp] theorem Module.setHerd_herd (m : Module) (p : Nat) (x : Herd) : (m.setHerd p x).herd p = x := by
  simp [Module.herd, Module.setHerd]
@[simp] theorem Module.setHerd_sys (m : Module) (p : Nat) (x : Herd) : (m.setHerd p x).sys = m.sys := rfl
@[simp] theorem Module.setHerd_topo (m : Module) (p : Nat) (x : Herd) : (m.setHerd p x).topo = m.topo := rfl
@[simp] theorem Module.setHerd_parts (m : Module) (p : Nat) (x : Herd) : (m.setHerd p x).parts = m.parts := rfl
@[simp] theorem Module.setHerd_cores (m : Module) (p : Nat) (x : Herd) : (m.setHerd p x).cores = m.cores := rfl
@[simp] theorem Module.setHerd_net (m : Module) (p : Nat) (x : Herd) : (m.setHerd p x).net = m.net := rfl
@[simp] theorem Module.setHerd_jig (m : Module) (p : Nat) (x : Herd) : (m.setHerd p x).jig = m.jig := rfl
@[simp] theorem Module.setHerd_tier (m : Module) (p : Nat) (x : Herd) : (m.setHerd p x).tier = m.tier := rfl
@[simp] theorem Module.setHerd_str (m : Module) (p : Nat) (x : Herd) : (m.setHerd p x).str = m.str := rfl
@[simp] theorem Module.setHerd_fab (m : Module) (p : Nat) (x : Herd) : (m.setHerd p x).fab = m.fab := rfl
@[simp] theorem Module.setHerd_que (m : Module) (p : Nat) (x : Herd) : (m.setHerd p x).que = m.que := rfl
@[simp] theorem Module.setHerd_launch (m : Module) (p : Nat) (x : Herd) : (m.setHerd p x).launch = m.launch := rfl
@[simp] theorem Module.setHerd_pwr (m : Module) (p : Nat) (x : Herd) : (m.setHerd p x).pwr = m.pwr := rfl
@[simp] theorem Module.setHerd_sec (m : Module) (p : Nat) (x : Herd) : (m.setHerd p x).sec = m.sec := rfl
@[simp] theorem Module.setHerd_mech (m : Module) (p : Nat) (x : Herd) : (m.setHerd p x).mech = m.mech := rfl
@[simp] theorem Module.setHerd_free (m : Module) (p : Nat) (x : Herd) : (m.setHerd p x).free = m.free := rfl
@[simp] theorem Module.setHerd_sup (m : Module) (p : Nat) (x : Herd) : (m.setHerd p x).sup = m.sup := rfl
@[simp] theorem Module.setHerd_out (m : Module) (p : Nat) (x : Herd) : (m.setHerd p x).out = m.out := rfl
@[simp] theorem Module.setQueue_queue (m : Module) (p : Nat) (x : Queue) : (m.setQueue p x).queue p = x := by
  simp [Module.queue, Module.setQueue]
@[simp] theorem Module.setQueue_sys (m : Module) (p : Nat) (x : Queue) : (m.setQueue p x).sys = m.sys := rfl
@[simp] theorem Module.setQueue_topo (m : Module) (p : Nat) (x : Queue) : (m.setQueue p x).topo = m.topo := rfl
@[simp] theorem Module.setQueue_parts (m : Module) (p : Nat) (x : Queue) : (m.setQueue p x).parts = m.parts := rfl
@[simp] theorem Module.setQueue_cores (m : Module) (p : Nat) (x : Queue) : (m.setQueue p x).cores = m.cores := rfl
@[simp] theorem Module.setQueue_net (m : Module) (p : Nat) (x : Queue) : (m.setQueue p x).net = m.net := rfl
@[simp] theorem Module.setQueue_jig (m : Module) (p : Nat) (x : Queue) : (m.setQueue p x).jig = m.jig := rfl
@[simp] theorem Module.setQueue_tier (m : Module) (p : Nat) (x : Queue) : (m.setQueue p x).tier = m.tier := rfl
@[simp] theorem Module.setQueue_str (m : Module) (p : Nat) (x : Queue) : (m.setQueue p x).str = m.str := rfl
@[simp] theorem Module.setQueue_fab (m : Module) (p : Nat) (x : Queue) : (m.setQueue p x).fab = m.fab := rfl
@[simp] theorem Module.setQueue_herds (m : Module) (p : Nat) (x : Queue) : (m.setQueue p x).herds = m.herds := rfl
@[simp] theorem Module.setQueue_launch (m : Module) (p : Nat) (x : Queue) : (m.setQueue p x).launch = m.launch := rfl
@[simp] theorem Module.setQueue_pwr (m : Module) (p : Nat) (x : Queue) : (m.setQueue p x).pwr = m.pwr := rfl
@[simp] theorem Module.setQueue_sec (m : Module) (p : Nat) (x : Queue) : (m.setQueue p x).sec = m.sec := rfl
@[simp] theorem Module.setQueue_mech (m : Module) (p : Nat) (x : Queue) : (m.setQueue p x).mech = m.mech := rfl
@[simp] theorem Module.setQueue_free (m : Module) (p : Nat) (x : Queue) : (m.setQueue p x).free = m.free := rfl
@[simp] theorem Module.setQueue_sup (m : Module) (p : Nat) (x : Queue) : (m.setQueue p x).sup = m.sup := rfl
@[simp] theorem Module.setQueue_out (m : Module) (p : Nat) (x : Queue) : (m.setQueue p x).out = m.out := rfl
@[simp] theorem Module.setPort_port (m : Module) (p : Nat) (x : Port) : (m.setPort p x).port p = x := by
  simp [Module.port, Module.setPort]
@[simp] theorem Module.setPort_sys (m : Module) (p : Nat) (x : Port) : (m.setPort p x).sys = m.sys := rfl
@[simp] theorem Module.setPort_topo (m : Module) (p : Nat) (x : Port) : (m.setPort p x).topo = m.topo := rfl
@[simp] theorem Module.setPort_parts (m : Module) (p : Nat) (x : Port) : (m.setPort p x).parts = m.parts := rfl
@[simp] theorem Module.setPort_cores (m : Module) (p : Nat) (x : Port) : (m.setPort p x).cores = m.cores := rfl
@[simp] theorem Module.setPort_net (m : Module) (p : Nat) (x : Port) : (m.setPort p x).net = m.net := rfl
@[simp] theorem Module.setPort_jig (m : Module) (p : Nat) (x : Port) : (m.setPort p x).jig = m.jig := rfl
@[simp] theorem Module.setPort_tier (m : Module) (p : Nat) (x : Port) : (m.setPort p x).tier = m.tier := rfl
@[simp] theorem Module.setPort_str (m : Module) (p : Nat) (x : Port) : (m.setPort p x).str = m.str := rfl
@[simp] theorem Module.setPort_herds (m : Module) (p : Nat) (x : Port) : (m.setPort p x).herds = m.herds := rfl
@[simp] theorem Module.setPort_que (m : Module) (p : Nat) (x : Port) : (m.setPort p x).que = m.que := rfl
@[simp] theorem Module.setPort_launch (m : Module) (p : Nat) (x : Port) : (m.setPort p x).launch = m.launch := rfl
@[simp] theorem Module.setPort_pwr (m : Module) (p : Nat) (x : Port) : (m.setPort p x).pwr = m.pwr := rfl
@[simp] theorem Module.setPort_sec (m : Module) (p : Nat) (x : Port) : (m.setPort p x).sec = m.sec := rfl
@[simp] theorem Module.setPort_mech (m : Module) (p : Nat) (x : Port) : (m.setPort p x).mech = m.mech := rfl
@[simp] theorem Module.setPort_free (m : Module) (p : Nat) (x : Port) : (m.setPort p x).free = m.free := rfl
@[simp] theorem Module.setPort_sup (m : Module) (p : Nat) (x : Port) : (m.setPort p x).sup = m.sup := rfl
@[simp] theorem Module.setPort_out (m : Module) (p : Nat) (x : Port) : (m.setPort p x).out = m.out := rfl
@[simp] theorem Module.setCluster_cluster (m : Module) (p : Nat) (x : Cluster) : (m.setCluster p x).cluster p = x := by
  simp [Module.cluster, Module.setCluster]
@[simp] theorem Module.setCluster_sys (m : Module) (p : Nat) (x : Cluster) : (m.setCluster p x).sys = m.sys := rfl
@[simp] theorem Module.setCluster_topo (m : Module) (p : Nat) (x : Cluster) : (m.setCluster p x).topo = m.topo := rfl
@[simp] theorem Module.setCluster_parts (m : Module) (p : Nat) (x : Cluster) : (m.setCluster p x).parts = m.parts := rfl
@[simp] theorem Module.setCluster_cores (m : Module) (p : Nat) (x : Cluster) : (m.setCluster p x).cores = m.cores := rfl
@[simp] theorem Module.setCluster_net (m : Module) (p : Nat) (x : Cluster) : (m.setCluster p x).net = m.net := rfl
@[simp] theorem Module.setCluster_jig (m : Module) (p : Nat) (x : Cluster) : (m.setCluster p x).jig = m.jig := rfl
@[simp] theorem Module.setCluster_tier (m : Module) (p : Nat) (x : Cluster) : (m.setCluster p x).tier = m.tier := rfl
@[simp] theorem Module.setCluster_str (m : Module) (p : Nat) (x : Cluster) : (m.setCluster p x).str = m.str := rfl
@[simp] theorem Module.setCluster_fab (m : Module) (p : Nat) (x : Cluster) : (m.setCluster p x).fab = m.fab := rfl
@[simp] theorem Module.setCluster_herds (m : Module) (p : Nat) (x : Cluster) : (m.setCluster p x).herds = m.herds := rfl
@[simp] theorem Module.setCluster_que (m : Module) (p : Nat) (x : Cluster) : (m.setCluster p x).que = m.que := rfl
@[simp] theorem Module.setCluster_launch (m : Module) (p : Nat) (x : Cluster) : (m.setCluster p x).launch = m.launch := rfl
@[simp] theorem Module.setCluster_sec (m : Module) (p : Nat) (x : Cluster) : (m.setCluster p x).sec = m.sec := rfl
@[simp] theorem Module.setCluster_mech (m : Module) (p : Nat) (x : Cluster) : (m.setCluster p x).mech = m.mech := rfl
@[simp] theorem Module.setCluster_free (m : Module) (p : Nat) (x : Cluster) : (m.setCluster p x).free = m.free := rfl
@[simp] theorem Module.setCluster_sup (m : Module) (p : Nat) (x : Cluster) : (m.setCluster p x).sup = m.sup := rfl
@[simp] theorem Module.setCluster_out (m : Module) (p : Nat) (x : Cluster) : (m.setCluster p x).out = m.out := rfl
@[simp] theorem Module.setDieP_dieP (m : Module) (p : Nat) (x : DiePower) : (m.setDieP p x).dieP p = x := by
  simp [Module.dieP, Module.setDieP]
@[simp] theorem Module.setDieP_sys (m : Module) (p : Nat) (x : DiePower) : (m.setDieP p x).sys = m.sys := rfl
@[simp] theorem Module.setDieP_topo (m : Module) (p : Nat) (x : DiePower) : (m.setDieP p x).topo = m.topo := rfl
@[simp] theorem Module.setDieP_parts (m : Module) (p : Nat) (x : DiePower) : (m.setDieP p x).parts = m.parts := rfl
@[simp] theorem Module.setDieP_cores (m : Module) (p : Nat) (x : DiePower) : (m.setDieP p x).cores = m.cores := rfl
@[simp] theorem Module.setDieP_net (m : Module) (p : Nat) (x : DiePower) : (m.setDieP p x).net = m.net := rfl
@[simp] theorem Module.setDieP_jig (m : Module) (p : Nat) (x : DiePower) : (m.setDieP p x).jig = m.jig := rfl
@[simp] theorem Module.setDieP_tier (m : Module) (p : Nat) (x : DiePower) : (m.setDieP p x).tier = m.tier := rfl
@[simp] theorem Module.setDieP_str (m : Module) (p : Nat) (x : DiePower) : (m.setDieP p x).str = m.str := rfl
@[simp] theorem Module.setDieP_fab (m : Module) (p : Nat) (x : DiePower) : (m.setDieP p x).fab = m.fab := rfl
@[simp] theorem Module.setDieP_herds (m : Module) (p : Nat) (x : DiePower) : (m.setDieP p x).herds = m.herds := rfl
@[simp] theorem Module.setDieP_que (m : Module) (p : Nat) (x : DiePower) : (m.setDieP p x).que = m.que := rfl
@[simp] theorem Module.setDieP_launch (m : Module) (p : Nat) (x : DiePower) : (m.setDieP p x).launch = m.launch := rfl
@[simp] theorem Module.setDieP_sec (m : Module) (p : Nat) (x : DiePower) : (m.setDieP p x).sec = m.sec := rfl
@[simp] theorem Module.setDieP_mech (m : Module) (p : Nat) (x : DiePower) : (m.setDieP p x).mech = m.mech := rfl
@[simp] theorem Module.setDieP_free (m : Module) (p : Nat) (x : DiePower) : (m.setDieP p x).free = m.free := rfl
@[simp] theorem Module.setDieP_sup (m : Module) (p : Nat) (x : DiePower) : (m.setDieP p x).sup = m.sup := rfl
@[simp] theorem Module.setDieP_out (m : Module) (p : Nat) (x : DiePower) : (m.setDieP p x).out = m.out := rfl
@[simp] theorem Module.setFlow_flow (m : Module) (p : Nat) (x : Flow) : (m.setFlow p x).flow p = x := by
  simp [Module.flow, Module.setFlow]
@[simp] theorem Module.setFlow_sys (m : Module) (p : Nat) (x : Flow) : (m.setFlow p x).sys = m.sys := rfl
@[simp] theorem Module.setFlow_topo (m : Module) (p : Nat) (x : Flow) : (m.setFlow p x).topo = m.topo := rfl
@[simp] theorem Module.setFlow_parts (m : Module) (p : Nat) (x : Flow) : (m.setFlow p x).parts = m.parts := rfl
@[simp] theorem Module.setFlow_cores (m : Module) (p : Nat) (x : Flow) : (m.setFlow p x).cores = m.cores := rfl
@[simp] theorem Module.setFlow_net (m : Module) (p : Nat) (x : Flow) : (m.setFlow p x).net = m.net := rfl
@[simp] theorem Module.setFlow_jig (m : Module) (p : Nat) (x : Flow) : (m.setFlow p x).jig = m.jig := rfl
@[simp] theorem Module.setFlow_tier (m : Module) (p : Nat) (x : Flow) : (m.setFlow p x).tier = m.tier := rfl
@[simp] theorem Module.setFlow_fab (m : Module) (p : Nat) (x : Flow) : (m.setFlow p x).fab = m.fab := rfl
@[simp] theorem Module.setFlow_herds (m : Module) (p : Nat) (x : Flow) : (m.setFlow p x).herds = m.herds := rfl
@[simp] theorem Module.setFlow_que (m : Module) (p : Nat) (x : Flow) : (m.setFlow p x).que = m.que := rfl
@[simp] theorem Module.setFlow_launch (m : Module) (p : Nat) (x : Flow) : (m.setFlow p x).launch = m.launch := rfl
@[simp] theorem Module.setFlow_pwr (m : Module) (p : Nat) (x : Flow) : (m.setFlow p x).pwr = m.pwr := rfl
@[simp] theorem Module.setFlow_sec (m : Module) (p : Nat) (x : Flow) : (m.setFlow p x).sec = m.sec := rfl
@[simp] theorem Module.setFlow_mech (m : Module) (p : Nat) (x : Flow) : (m.setFlow p x).mech = m.mech := rfl
@[simp] theorem Module.setFlow_free (m : Module) (p : Nat) (x : Flow) : (m.setFlow p x).free = m.free := rfl
@[simp] theorem Module.setFlow_sup (m : Module) (p : Nat) (x : Flow) : (m.setFlow p x).sup = m.sup := rfl
@[simp] theorem Module.setFlow_out (m : Module) (p : Nat) (x : Flow) : (m.setFlow p x).out = m.out := rfl
@[simp] theorem Module.setPage_page (m : Module) (p : Nat) (x : Page) : (m.setPage p x).page p = x := by
  simp [Module.page, Module.setPage]
@[simp] theorem Module.setPage_sys (m : Module) (p : Nat) (x : Page) : (m.setPage p x).sys = m.sys := rfl
@[simp] theorem Module.setPage_topo (m : Module) (p : Nat) (x : Page) : (m.setPage p x).topo = m.topo := rfl
@[simp] theorem Module.setPage_parts (m : Module) (p : Nat) (x : Page) : (m.setPage p x).parts = m.parts := rfl
@[simp] theorem Module.setPage_cores (m : Module) (p : Nat) (x : Page) : (m.setPage p x).cores = m.cores := rfl
@[simp] theorem Module.setPage_net (m : Module) (p : Nat) (x : Page) : (m.setPage p x).net = m.net := rfl
@[simp] theorem Module.setPage_jig (m : Module) (p : Nat) (x : Page) : (m.setPage p x).jig = m.jig := rfl
@[simp] theorem Module.setPage_str (m : Module) (p : Nat) (x : Page) : (m.setPage p x).str = m.str := rfl
@[simp] theorem Module.setPage_fab (m : Module) (p : Nat) (x : Page) : (m.setPage p x).fab = m.fab := rfl
@[simp] theorem Module.setPage_herds (m : Module) (p : Nat) (x : Page) : (m.setPage p x).herds = m.herds := rfl
@[simp] theorem Module.setPage_que (m : Module) (p : Nat) (x : Page) : (m.setPage p x).que = m.que := rfl
@[simp] theorem Module.setPage_launch (m : Module) (p : Nat) (x : Page) : (m.setPage p x).launch = m.launch := rfl
@[simp] theorem Module.setPage_pwr (m : Module) (p : Nat) (x : Page) : (m.setPage p x).pwr = m.pwr := rfl
@[simp] theorem Module.setPage_sec (m : Module) (p : Nat) (x : Page) : (m.setPage p x).sec = m.sec := rfl
@[simp] theorem Module.setPage_mech (m : Module) (p : Nat) (x : Page) : (m.setPage p x).mech = m.mech := rfl
@[simp] theorem Module.setPage_free (m : Module) (p : Nat) (x : Page) : (m.setPage p x).free = m.free := rfl
@[simp] theorem Module.setPage_sup (m : Module) (p : Nat) (x : Page) : (m.setPage p x).sup = m.sup := rfl
@[simp] theorem Module.setPage_out (m : Module) (p : Nat) (x : Page) : (m.setPage p x).out = m.out := rfl
@[simp] theorem Module.emit_sys (m : Module) (e : Emission) : (m.emit e).sys = m.sys := rfl
@[simp] theorem Module.emit_topo (m : Module) (e : Emission) : (m.emit e).topo = m.topo := rfl
@[simp] theorem Module.emit_parts (m : Module) (e : Emission) : (m.emit e).parts = m.parts := rfl
@[simp] theorem Module.emit_cores (m : Module) (e : Emission) : (m.emit e).cores = m.cores := rfl
@[simp] theorem Module.emit_net (m : Module) (e : Emission) : (m.emit e).net = m.net := rfl
@[simp] theorem Module.emit_jig (m : Module) (e : Emission) : (m.emit e).jig = m.jig := rfl
@[simp] theorem Module.emit_tier (m : Module) (e : Emission) : (m.emit e).tier = m.tier := rfl
@[simp] theorem Module.emit_str (m : Module) (e : Emission) : (m.emit e).str = m.str := rfl
@[simp] theorem Module.emit_fab (m : Module) (e : Emission) : (m.emit e).fab = m.fab := rfl
@[simp] theorem Module.emit_herds (m : Module) (e : Emission) : (m.emit e).herds = m.herds := rfl
@[simp] theorem Module.emit_que (m : Module) (e : Emission) : (m.emit e).que = m.que := rfl
@[simp] theorem Module.emit_launch (m : Module) (e : Emission) : (m.emit e).launch = m.launch := rfl
@[simp] theorem Module.emit_pwr (m : Module) (e : Emission) : (m.emit e).pwr = m.pwr := rfl
@[simp] theorem Module.emit_sec (m : Module) (e : Emission) : (m.emit e).sec = m.sec := rfl
@[simp] theorem Module.emit_mech (m : Module) (e : Emission) : (m.emit e).mech = m.mech := rfl
@[simp] theorem Module.emit_free (m : Module) (e : Emission) : (m.emit e).free = m.free := rfl
@[simp] theorem Module.emit_sup (m : Module) (e : Emission) : (m.emit e).sup = m.sup := rfl
@[simp] theorem Module.emit_out (m : Module) (e : Emission) : (m.emit e).out = m.out ++ [e] := rfl

/-! ## Interrupts (R522) -/

/-- What raising causes leaves: the status, the marks of sent and deferred vectors, and vectors sent. -/
def IrqOnly (m m' : Module) : Prop :=
  ∃ a b c o, m' = { m with sup := { m.sup with irqStatus := a, irqAt := b, irqDefer := c }, out := m.out ++ o }

theorem IrqOnly.refl (m : Module) : IrqOnly m m := ⟨_, _, _, [], by rw [List.append_nil]⟩

theorem IrqOnly.trans {m m' m'' : Module} (h : IrqOnly m m') (h' : IrqOnly m' m'') : IrqOnly m m'' := by
  obtain ⟨a, b, c, o, rfl⟩ := h
  obtain ⟨a', b', c', o', rfl⟩ := h'
  exact ⟨a', b', c', o ++ o', by rw [← List.append_assoc]⟩

theorem aosVector_only (m : Module) (i : Nat) : IrqOnly m (m.aosVector i) := by
  unfold Module.aosVector
  extract_lets free
  split
  · exact ⟨_, _, _, [.msix (1024 + i)], rfl⟩
  · split
    · exact .refl m
    · exact ⟨_, _, _, [], by rw [List.append_nil]⟩

theorem raiseIrq_only (m : Module) (i : Nat) : IrqOnly m (m.raiseIrq i) := by
  unfold Module.raiseIrq
  split
  · exact .refl m
  · have h : IrqOnly m { m with sup.irqStatus := m.sup.irqStatus ||| 2 ^ i } := ⟨_, _, _, [], by rw [List.append_nil]⟩
    extract_lets m'
    split
    · exact h.trans (aosVector_only ..)
    · exact h

theorem raiseIf_only (m : Module) (i : Nat) (b : Bool) : IrqOnly m (m.raiseIf i b) := by
  unfold Module.raiseIf
  split
  · exact raiseIrq_only m i
  · exact .refl m

/-- The interrupts after a command change the interrupt status and its marks, and send vectors, and no more. -/
theorem settleIrq_only (w : Watched) (m : Module) : IrqOnly m (settleIrq w m) := by
  unfold settleIrq
  extract_lets v m1 m2 m3 m4 m5
  split
  · exact .refl m
  · exact (((((raiseIf_only ..).trans (raiseIf_only ..)).trans (raiseIf_only ..)).trans (raiseIf_only ..)).trans
      (raiseIf_only ..)).trans (raiseIf_only ..)

@[simp] theorem settleIrq_sys (w : Watched) (m : Module) : (settleIrq w m).sys = m.sys := by
  obtain ⟨a, b, c, o, h⟩ := settleIrq_only w m; rw [h]
@[simp] theorem settleIrq_topo (w : Watched) (m : Module) : (settleIrq w m).topo = m.topo := by
  obtain ⟨a, b, c, o, h⟩ := settleIrq_only w m; rw [h]
@[simp] theorem settleIrq_parts (w : Watched) (m : Module) : (settleIrq w m).parts = m.parts := by
  obtain ⟨a, b, c, o, h⟩ := settleIrq_only w m; rw [h]
@[simp] theorem settleIrq_cores (w : Watched) (m : Module) : (settleIrq w m).cores = m.cores := by
  obtain ⟨a, b, c, o, h⟩ := settleIrq_only w m; rw [h]
@[simp] theorem settleIrq_net (w : Watched) (m : Module) : (settleIrq w m).net = m.net := by
  obtain ⟨a, b, c, o, h⟩ := settleIrq_only w m; rw [h]
@[simp] theorem settleIrq_jig (w : Watched) (m : Module) : (settleIrq w m).jig = m.jig := by
  obtain ⟨a, b, c, o, h⟩ := settleIrq_only w m; rw [h]
@[simp] theorem settleIrq_tier (w : Watched) (m : Module) : (settleIrq w m).tier = m.tier := by
  obtain ⟨a, b, c, o, h⟩ := settleIrq_only w m; rw [h]
@[simp] theorem settleIrq_str (w : Watched) (m : Module) : (settleIrq w m).str = m.str := by
  obtain ⟨a, b, c, o, h⟩ := settleIrq_only w m; rw [h]
@[simp] theorem settleIrq_fab (w : Watched) (m : Module) : (settleIrq w m).fab = m.fab := by
  obtain ⟨a, b, c, o, h⟩ := settleIrq_only w m; rw [h]
@[simp] theorem settleIrq_herds (w : Watched) (m : Module) : (settleIrq w m).herds = m.herds := by
  obtain ⟨a, b, c, o, h⟩ := settleIrq_only w m; rw [h]
@[simp] theorem settleIrq_que (w : Watched) (m : Module) : (settleIrq w m).que = m.que := by
  obtain ⟨a, b, c, o, h⟩ := settleIrq_only w m; rw [h]
@[simp] theorem settleIrq_launch (w : Watched) (m : Module) : (settleIrq w m).launch = m.launch := by
  obtain ⟨a, b, c, o, h⟩ := settleIrq_only w m; rw [h]
@[simp] theorem settleIrq_pwr (w : Watched) (m : Module) : (settleIrq w m).pwr = m.pwr := by
  obtain ⟨a, b, c, o, h⟩ := settleIrq_only w m; rw [h]
@[simp] theorem settleIrq_sec (w : Watched) (m : Module) : (settleIrq w m).sec = m.sec := by
  obtain ⟨a, b, c, o, h⟩ := settleIrq_only w m; rw [h]
@[simp] theorem settleIrq_mech (w : Watched) (m : Module) : (settleIrq w m).mech = m.mech := by
  obtain ⟨a, b, c, o, h⟩ := settleIrq_only w m; rw [h]
@[simp] theorem settleIrq_free (w : Watched) (m : Module) : (settleIrq w m).free = m.free := by
  obtain ⟨a, b, c, o, h⟩ := settleIrq_only w m; rw [h]
@[simp] theorem settleIrq_sup_lease (w : Watched) (m : Module) : (settleIrq w m).sup.lease = m.sup.lease := by
  obtain ⟨a, b, c, o, h⟩ := settleIrq_only w m; rw [h]
@[simp] theorem settleIrq_sup_holderB (w : Watched) (m : Module) : (settleIrq w m).sup.holderB = m.sup.holderB := by
  obtain ⟨a, b, c, o, h⟩ := settleIrq_only w m; rw [h]
@[simp] theorem settleIrq_sup_leaseEpoch (w : Watched) (m : Module) : (settleIrq w m).sup.leaseEpoch = m.sup.leaseEpoch := by
  obtain ⟨a, b, c, o, h⟩ := settleIrq_only w m; rw [h]
@[simp] theorem settleIrq_sup_authority (w : Watched) (m : Module) : (settleIrq w m).sup.authority = m.sup.authority := by
  obtain ⟨a, b, c, o, h⟩ := settleIrq_only w m; rw [h]
@[simp] theorem settleIrq_sup_renewAt (w : Watched) (m : Module) : (settleIrq w m).sup.renewAt = m.sup.renewAt := by
  obtain ⟨a, b, c, o, h⟩ := settleIrq_only w m; rw [h]
@[simp] theorem settleIrq_sup_claims (w : Watched) (m : Module) : (settleIrq w m).sup.claims = m.sup.claims := by
  obtain ⟨a, b, c, o, h⟩ := settleIrq_only w m; rw [h]
@[simp] theorem settleIrq_sup_currentEpoch (w : Watched) (m : Module) : (settleIrq w m).sup.currentEpoch = m.sup.currentEpoch := by
  obtain ⟨a, b, c, o, h⟩ := settleIrq_only w m; rw [h]
@[simp] theorem settleIrq_sup_conflicts (w : Watched) (m : Module) : (settleIrq w m).sup.conflicts = m.sup.conflicts := by
  obtain ⟨a, b, c, o, h⟩ := settleIrq_only w m; rw [h]
@[simp] theorem settleIrq_sup_expiries (w : Watched) (m : Module) : (settleIrq w m).sup.expiries = m.sup.expiries := by
  obtain ⟨a, b, c, o, h⟩ := settleIrq_only w m; rw [h]
@[simp] theorem settleIrq_sup_handovers (w : Watched) (m : Module) : (settleIrq w m).sup.handovers = m.sup.handovers := by
  obtain ⟨a, b, c, o, h⟩ := settleIrq_only w m; rw [h]
@[simp] theorem settleIrq_sup_a (w : Watched) (m : Module) : (settleIrq w m).sup.a = m.sup.a := by
  obtain ⟨a, b, c, o, h⟩ := settleIrq_only w m; rw [h]
@[simp] theorem settleIrq_sup_b (w : Watched) (m : Module) : (settleIrq w m).sup.b = m.sup.b := by
  obtain ⟨a, b, c, o, h⟩ := settleIrq_only w m; rw [h]
@[simp] theorem settleIrq_sup_log (w : Watched) (m : Module) : (settleIrq w m).sup.log = m.sup.log := by
  obtain ⟨a, b, c, o, h⟩ := settleIrq_only w m; rw [h]
@[simp] theorem settleIrq_sup_nextIndex (w : Watched) (m : Module) : (settleIrq w m).sup.nextIndex = m.sup.nextIndex := by
  obtain ⟨a, b, c, o, h⟩ := settleIrq_only w m; rw [h]
@[simp] theorem settleIrq_sup_seq (w : Watched) (m : Module) : (settleIrq w m).sup.seq = m.sup.seq := by
  obtain ⟨a, b, c, o, h⟩ := settleIrq_only w m; rw [h]
@[simp] theorem settleIrq_sup_boot (w : Watched) (m : Module) : (settleIrq w m).sup.boot = m.sup.boot := by
  obtain ⟨a, b, c, o, h⟩ := settleIrq_only w m; rw [h]
@[simp] theorem settleIrq_sup_intake (w : Watched) (m : Module) : (settleIrq w m).sup.intake = m.sup.intake := by
  obtain ⟨a, b, c, o, h⟩ := settleIrq_only w m; rw [h]
@[simp] theorem settleIrq_sup_intakeFatal (w : Watched) (m : Module) : (settleIrq w m).sup.intakeFatal = m.sup.intakeFatal := by
  obtain ⟨a, b, c, o, h⟩ := settleIrq_only w m; rw [h]
@[simp] theorem settleIrq_sup_dropped (w : Watched) (m : Module) : (settleIrq w m).sup.dropped = m.sup.dropped := by
  obtain ⟨a, b, c, o, h⟩ := settleIrq_only w m; rw [h]
@[simp] theorem settleIrq_sup_flashLog (w : Watched) (m : Module) : (settleIrq w m).sup.flashLog = m.sup.flashLog := by
  obtain ⟨a, b, c, o, h⟩ := settleIrq_only w m; rw [h]
@[simp] theorem settleIrq_sup_flashNext (w : Watched) (m : Module) : (settleIrq w m).sup.flashNext = m.sup.flashNext := by
  obtain ⟨a, b, c, o, h⟩ := settleIrq_only w m; rw [h]
@[simp] theorem settleIrq_sup_flashSeq (w : Watched) (m : Module) : (settleIrq w m).sup.flashSeq = m.sup.flashSeq := by
  obtain ⟨a, b, c, o, h⟩ := settleIrq_only w m; rw [h]
@[simp] theorem settleIrq_sup_irqEn (w : Watched) (m : Module) : (settleIrq w m).sup.irqEn = m.sup.irqEn := by
  obtain ⟨a, b, c, o, h⟩ := settleIrq_only w m; rw [h]
@[simp] theorem settleIrq_sup_side (w : Watched) (m : Module) : (settleIrq w m).sup.side = m.sup.side := by
  obtain ⟨a, b, c, o, h⟩ := settleIrq_only w m; rw [h]
@[simp] theorem settleIrq_sup_wdStops (w : Watched) (m : Module) : (settleIrq w m).sup.wdStops = m.sup.wdStops := by
  obtain ⟨a, b, c, o, h⟩ := settleIrq_only w m; rw [h]
@[simp] theorem settleIrq_sup_wdAt (w : Watched) (m : Module) : (settleIrq w m).sup.wdAt = m.sup.wdAt := by
  obtain ⟨a, b, c, o, h⟩ := settleIrq_only w m; rw [h]
@[simp] theorem settleIrq_sup_wdHold (w : Watched) (m : Module) : (settleIrq w m).sup.wdHold = m.sup.wdHold := by
  obtain ⟨a, b, c, o, h⟩ := settleIrq_only w m; rw [h]
@[simp] theorem settleIrq_sup_wdStuck (w : Watched) (m : Module) : (settleIrq w m).sup.wdStuck = m.sup.wdStuck := by
  obtain ⟨a, b, c, o, h⟩ := settleIrq_only w m; rw [h]
@[simp] theorem settleIrq_sup_acts (w : Watched) (m : Module) : (settleIrq w m).sup.acts = m.sup.acts := by
  obtain ⟨a, b, c, o, h⟩ := settleIrq_only w m; rw [h]
@[simp] theorem settleIrq_part (w : Watched) (m : Module) (p : Nat) : (settleIrq w m).part p = m.part p := by
  obtain ⟨a, b, c, o, h⟩ := settleIrq_only w m; rw [h]; rfl
@[simp] theorem settleIrq_core (w : Watched) (m : Module) (p : Nat) : (settleIrq w m).core p = m.core p := by
  obtain ⟨a, b, c, o, h⟩ := settleIrq_only w m; rw [h]; rfl
@[simp] theorem settleIrq_herd (w : Watched) (m : Module) (p : Nat) : (settleIrq w m).herd p = m.herd p := by
  obtain ⟨a, b, c, o, h⟩ := settleIrq_only w m; rw [h]; rfl
@[simp] theorem settleIrq_queue (w : Watched) (m : Module) (p : Nat) : (settleIrq w m).queue p = m.queue p := by
  obtain ⟨a, b, c, o, h⟩ := settleIrq_only w m; rw [h]; rfl
@[simp] theorem settleIrq_port (w : Watched) (m : Module) (p : Nat) : (settleIrq w m).port p = m.port p := by
  obtain ⟨a, b, c, o, h⟩ := settleIrq_only w m; rw [h]; rfl
@[simp] theorem settleIrq_cluster (w : Watched) (m : Module) (p : Nat) : (settleIrq w m).cluster p = m.cluster p := by
  obtain ⟨a, b, c, o, h⟩ := settleIrq_only w m; rw [h]; rfl
@[simp] theorem settleIrq_dieP (w : Watched) (m : Module) (p : Nat) : (settleIrq w m).dieP p = m.dieP p := by
  obtain ⟨a, b, c, o, h⟩ := settleIrq_only w m; rw [h]; rfl
@[simp] theorem settleIrq_flow (w : Watched) (m : Module) (p : Nat) : (settleIrq w m).flow p = m.flow p := by
  obtain ⟨a, b, c, o, h⟩ := settleIrq_only w m; rw [h]; rfl
@[simp] theorem settleIrq_page (w : Watched) (m : Module) (p : Nat) : (settleIrq w m).page p = m.page p := by
  obtain ⟨a, b, c, o, h⟩ := settleIrq_only w m; rw [h]; rfl

/-- What a command sent is still sent after its interrupts. -/
theorem settleIrq_out (w : Watched) (m : Module) : ∃ o, (settleIrq w m).out = m.out ++ o := by
  obtain ⟨a, b, c, o, h⟩ := settleIrq_only w m; rw [h]; exact ⟨o, rfl⟩

/-- A command that changes nothing R522 watches causes no interrupt besides its own. -/
theorem settleIrq_same {m m' : Module} (h : m'.watched = m.watched) : settleIrq m.watched m' = m' := by
  unfold settleIrq
  dsimp only
  rw [if_pos h]

/-! ## The frame of every command -/

/-- A command answers a next state in which the queue is as it was. -/
theorem onModule_next (s : State) (f : Module → Module) :
    onModule s f = .next { s with m := settleIrq s.m.watched (f s.m) } := rfl

end Sys2Proof.Machine
end

