-- ==== Sys2Proof/Laws/Face.lean ====
section
/-! SUPPORT. The frame of the operations: none of those below changes the face of the module (power, COLD, the MMPs' power, the
fuses). The few that do are in Laws/Leads.lean. One lemma an operation, in the order of the files. -/

namespace Sys2Proof.Machine

open Sys2Proof

/-- What of a module only power, the fuses and an MMP's loader change: the connector face, whether the module is COLD, whether each
MMP is OFF, the revoked key slots, and the least SVN (R264, R491, R524, R528). -/
structure Face where
  mech : Mech
  cold : Bool
  aOff : Bool
  bOff : Bool
  fw : Nat
  ca : Nat
  svn : Nat
/-- The face of a module. -/
def Module.face (m : Module) : Face :=
  { mech := m.mech, cold := decide (m.sys.st = .cold), aOff := decide (m.sup.a.st = .off), bOff := decide (m.sup.b.st = .off),
    fw := m.sec.fwRevoked, ca := m.sec.caRevoked, svn := m.sec.minSvn }
theorem face_mk (sys topo parts cores net jig tier str fab herds que launch pwr sup sec mech out free) :
    (Module.mk sys topo parts cores net jig tier str fab herds que launch pwr sup sec mech out free).face =
      { mech := mech, cold := decide (sys.st = .cold), aOff := decide (sup.a.st = .off), bOff := decide (sup.b.st = .off),
        fw := sec.fwRevoked, ca := sec.caRevoked, svn := sec.minSvn } := rfl
/-- The face of an update, and of a choice. -/
theorem face_simp :
    (∀ sys topo parts cores net jig tier str fab herds que launch pwr sup sec mech out free,
      (Module.mk sys topo parts cores net jig tier str fab herds que launch pwr sup sec mech out free).face =
      { mech := mech, cold := decide (sys.st = .cold), aOff := decide (sup.a.st = .off), bOff := decide (sup.b.st = .off),
        fw := sec.fwRevoked, ca := sec.caRevoked, svn := sec.minSvn })
    ∧ (∀ m : Module, m.mech = m.face.mech) ∧ (∀ m : Module, decide (m.sys.st = .cold) = m.face.cold)
    ∧ (∀ m : Module, decide (m.sup.a.st = .off) = m.face.aOff) ∧ (∀ m : Module, decide (m.sup.b.st = .off) = m.face.bOff)
    ∧ (∀ m : Module, m.sec.fwRevoked = m.face.fw) ∧ (∀ m : Module, m.sec.caRevoked = m.face.ca)
    ∧ (∀ m : Module, m.sec.minSvn = m.face.svn)
    ∧ (∀ (c : Prop) [Decidable c] (a b : Module), (if c then a else b).face = if c then a.face else b.face)
    ∧ (∀ (c : Prop) [Decidable c] (a : Face), (if c then a else a) = a) :=
  ⟨fun _ _ _ _ _ _ _ _ _ _ _ _ _ _ _ _ _ _ => rfl, fun _ => rfl, fun _ => rfl, fun _ => rfl, fun _ => rfl, fun _ => rfl,
    fun _ => rfl, fun _ => rfl, fun c _ a b => by split <;> rfl, fun c _ a => by split <;> rfl⟩
theorem getD_face {o : Option Module} {m : Module} (h : ∀ n, o = some n → n.face = m.face) : (o.getD m).face = m.face := by
  cases o with
  | none => rfl
  | some n => exact h n rfl
/-- The face of the module that a reader of Terourn space leaves. -/
def Reach.face : Reach → Face
  | .here m => m.face
  | .wait m => m.face
  | .fail m _ _ _ => m.face
/-- The face of the module that a feeder's read leaves. -/
def UnitRead.face : UnitRead → Face
  | .bytes m _ => m.face
  | .wait m => m.face
  | .bad m _ _ _ => m.face
theorem fold1_face {α β : Type} {f : Module × α → β → Module × α} (h : ∀ a e, (f a e).1.face = a.1.face) (l : List β) (a : Module × α) :
    (l.foldl f a).1.face = a.1.face := by
  induction l generalizing a with
  | nil => rfl
  | cons e t ih => exact (ih _).trans (h a e)
theorem foldl_face {β : Type} (g : Module → β → Module) (l : List β) (m : Module)
    (h : ∀ m x, (g m x).face = m.face) : (l.foldl g m).face = m.face := by
  induction l generalizing m with
  | nil => rfl
  | cons x t ih => exact (ih _).trans (h m x)
theorem Module.setPart_face (m : Module) (p : Nat) (x : Part) : (Module.setPart m p x).face = m.face := by
  simp only [Module.setPart, face_simp]
theorem Module.modPart_face (m : Module) (p : Nat) (f : Part → Part) : (Module.modPart m p f).face = m.face :=
  Module.setPart_face ..
theorem Module.setCore_face (m : Module) (c : Nat) (k : Core) : (Module.setCore m c k).face = m.face := by
  simp only [Module.setCore, face_simp]
theorem Module.modCore_face (m : Module) (c : Nat) (f : Core → Core) : (Module.modCore m c f).face = m.face :=
  Module.setCore_face ..
theorem Module.setFlow_face (m : Module) (key : Nat) (f : Flow) : (Module.setFlow m key f).face = m.face := by
  simp only [Module.setFlow, face_simp]
theorem Module.setHerd_face (m : Module) (key : Nat) (h : Herd) : (Module.setHerd m key h).face = m.face := by
  simp only [Module.setHerd, face_simp]
theorem Module.setQueue_face (m : Module) (q : Nat) (x : Queue) : (Module.setQueue m q x).face = m.face := by
  simp only [Module.setQueue, face_simp]
theorem Module.setPort_face (m : Module) (p : Nat) (x : Port) : (Module.setPort m p x).face = m.face := by
  simp only [Module.setPort, face_simp]
theorem Module.setCluster_face (m : Module) (c : Nat) (x : Cluster) : (Module.setCluster m c x).face = m.face := by
  simp only [Module.setCluster, face_simp]
theorem Module.setDieP_face (m : Module) (d : Nat) (x : DiePower) : (Module.setDieP m d x).face = m.face := by
  simp only [Module.setDieP, face_simp]
theorem Module.setPage_face (m : Module) (i : Nat) (x : Page) : (Module.setPage m i x).face = m.face := by
  simp only [Module.setPage, face_simp]
theorem Module.emit_face (m : Module) (e : Emission) : (Module.emit m e).face = m.face := by
  simp only [Module.emit, face_simp]
theorem Module.logRec_face (m : Module) (r : FaultRec) : (Module.logRec m r).face = m.face := by
  simp only [Module.logRec, face_simp]
theorem Module.logEvent_face (m : Module) (code : Nat) (l : Loc) (part : optParam (Option Nat) none) (task : optParam Nat 0) (detail : optParam Nat 0) : (Module.logEvent m code l part task detail).face = m.face :=
  Module.logRec_face ..
theorem Module.logFatal_face (m : Module) (code : Nat) (l : Loc) (part : optParam (Option Nat) none) (task : optParam Nat 0) (detail : optParam Nat 0) : (Module.logFatal m code l part task detail).face = m.face :=
  Module.logRec_face ..
theorem Module.dueTest_face (m : Module) (key : Nat) : (Module.dueTest m key).face = m.face := by
  simp only [Module.dueTest, face_simp]
theorem Module.corrected_face (m : Module) (key : Nat) (l : Loc) (part : Option Nat) (detail : Nat) : (Module.corrected m key l part detail).face = m.face := by
  simp only [Module.corrected, face_simp, Module.dueTest_face, Module.logEvent_face]
theorem Module.t0Corrected_face (m : Module) (c : Nat) (w : Nat) : (Module.t0Corrected m c w).face = m.face :=
  Module.corrected_face ..
theorem Module.t1Corrected_face (m : Module) (stack : Nat) (row : Nat) : (Module.t1Corrected m stack row).face = m.face :=
  Module.corrected_face ..
theorem Module.t0Unc_face (m : Module) (c : Nat) (w : Nat) : (Module.t0Unc m c w).face = m.face :=
  Module.dueTest_face ..
theorem Module.t1Unc_face (m : Module) (stack : Nat) (row : Nat) : (Module.t1Unc m stack row).face = m.face :=
  Module.dueTest_face ..
theorem Module.aosVector_face (m : Module) (i : Nat) : (Module.aosVector m i).face = m.face := by
  simp only [Module.aosVector, face_simp, Module.emit_face]
theorem Module.raiseIrq_face (m : Module) (i : Nat) : (Module.raiseIrq m i).face = m.face := by
  simp only [Module.raiseIrq, face_simp, Module.aosVector_face]
theorem Module.raiseIf_face (m : Module) (i : Nat) (b : Bool) : (Module.raiseIf m i b).face = m.face := by
  simp only [Module.raiseIf, face_simp, Module.raiseIrq_face]
theorem settleIrq_face (w : Watched) (m : Module) : (settleIrq w m).face = m.face := by
  simp only [settleIrq, face_simp, Module.raiseIf_face]
theorem Module.txFrame_face (m : Module) (port : Nat) (f : List Byte) : (Module.txFrame m port f).face = m.face := by
  simp only [Module.txFrame, Module.emit_face, Module.setPort_face]
theorem Module.sendFrame_face (m : Module) (port : Nat) (mac : Nat) (etype : Nat) (vc : Nat) (body : List Byte) : (Module.sendFrame m port mac etype vc body).face = m.face := by
  simp only [Module.sendFrame, face_simp, Module.setPort_face, Module.txFrame_face]
theorem Module.sendControl_face (m : Module) (port : Nat) (mac : Nat) (etype : Nat) (body : List Byte) : (Module.sendControl m port mac etype body).face = m.face :=
  Module.sendFrame_face ..
theorem Module.sendAnswer_face (m : Module) (port : Nat) (mac : Nat) (etype : Nat) (kind : Nat) (chan : Nat) (msg : Nat) (chunk : Nat) (retry : Nat) : (Module.sendAnswer m port mac etype kind chan msg chunk retry).face = m.face :=
  Module.sendControl_face ..
theorem Module.sendSegments_face (m : Module) (c : SentChunk) : (Module.sendSegments m c).face = m.face := by
  unfold Module.sendSegments
  repeat' first
    | with_reducible rfl
    | (simp only [face_simp, Module.sendFrame_face]; done)
    | (with_reducible refine (foldl_face _ _ _ (fun m x => ?_)).trans ?_)
    | (with_reducible refine (getD_face ?_).trans ?_; (with_reducible intro _ _))
    | split
    | dsimp only
    | simp only [face_simp, Module.sendFrame_face]
theorem Module.sendChunk_face (m : Module) (c : SentChunk) : (Module.sendChunk m c).face = m.face :=
  Module.sendSegments_face ..
theorem Module.nextMsg_face (m : Module) (key : Nat) : (Module.nextMsg m key).2.face = m.face := by
  simp only [Module.nextMsg, face_simp]
theorem Module.nextMsg_face' {m : Module} {key : Nat} {mm : Module} {yy} (h : Module.nextMsg m key = (yy, mm)) : mm.face = m.face := by
  have := Module.nextMsg_face m key; rw [h] at this; exact this
theorem Module.nextMsg_on {m : Module} {key : Nat} {mm : Module} {yy} {qq : Face} (h : Module.nextMsg m key = (yy, mm)) (e : m.face = qq) : mm.face = qq :=
  (Module.nextMsg_face' h).trans e
theorem Module.nextPspSeq_face (m : Module) (stream : Nat) : (Module.nextPspSeq m stream).2.face = m.face := by
  simp only [Module.nextPspSeq, face_simp]
theorem Module.nextPspSeq_face' {m : Module} {stream : Nat} {mm : Module} {yy} (h : Module.nextPspSeq m stream = (yy, mm)) : mm.face = m.face := by
  have := Module.nextPspSeq_face m stream; rw [h] at this; exact this
theorem Module.nextPspSeq_on {m : Module} {stream : Nat} {mm : Module} {yy} {qq : Face} (h : Module.nextPspSeq m stream = (yy, mm)) (e : m.face = qq) : mm.face = qq :=
  (Module.nextPspSeq_face' h).trans e
theorem Module.sendPsp_face (m : Module) (port : Nat) (mac : Nat) (type : Nat) (last : Bool) (stream : Nat) (layer : Nat) (sect : Nat) (unit : Nat) (count : Nat) (status : Nat) (body : List Byte) : (Module.sendPsp m port mac type last stream layer sect unit count status body).face = m.face := by
  simp only [Module.sendPsp, Module.nextPspSeq_face, Module.sendControl_face]
theorem Module.sendHerdControl_face (m : Module) (port : Nat) (mac : Nat) (type : Nat) (id : Nat) (opSeq : Nat) (stage : Nat) (member : Nat) (code : Nat) (reform : Nat) : (Module.sendHerdControl m port mac type id opSeq stage member code reform).face = m.face :=
  Module.sendControl_face ..
theorem Module.loopFrame_face (m : Module) (type : Nat) (payload : Nat) : (Module.loopFrame m type payload).2.face = m.face := by
  simp only [Module.loopFrame, face_simp]
theorem Module.loopFrame_face' {m : Module} {type : Nat} {payload : Nat} {mm : Module} {yy} (h : Module.loopFrame m type payload = (yy, mm)) : mm.face = m.face := by
  have := Module.loopFrame_face m type payload; rw [h] at this; exact this
theorem Module.loopFrame_on {m : Module} {type : Nat} {payload : Nat} {mm : Module} {yy} {qq : Face} (h : Module.loopFrame m type payload = (yy, mm)) (e : m.face = qq) : mm.face = qq :=
  (Module.loopFrame_face' h).trans e
theorem Module.sendHerdStop_face (m : Module) (id : Nat) (opSeq : Nat) (member : Nat) (code : Nat) : (Module.sendHerdStop m id opSeq member code).face = m.face := by
  simp only [Module.sendHerdStop, face_simp, Module.loopFrame_face, Module.emit_face]
theorem Module.sendHerdAbort_face (m : Module) (h : Herd) (code : Nat) (but : Option Nat) : (Module.sendHerdAbort m h code but).face = m.face := by
  unfold Module.sendHerdAbort
  repeat' first
    | with_reducible rfl
    | (simp only [face_simp, Module.sendHerdControl_face, Module.sendHerdStop_face]; done)
    | (with_reducible refine (foldl_face _ _ _ (fun m x => ?_)).trans ?_)
    | (with_reducible refine (getD_face ?_).trans ?_; (with_reducible intro _ _))
    | split
    | dsimp only
    | simp only [face_simp, Module.sendHerdControl_face, Module.sendHerdStop_face]
theorem Module.setFence_face (m : Module) (p : Nat) (i : Nat) (v : Nat) : (Module.setFence m p i v).face = m.face := by
  simp only [Module.setFence, face_simp]
theorem Module.signalFence_face (m : Module) (p : Nat) (i : Nat) : (Module.signalFence m p i).face = m.face := by
  simp only [Module.signalFence, face_simp, Module.setFence_face]
theorem Module.writeFence_face (m : Module) (p : Nat) (i : Nat) (v : Nat) : (Module.writeFence m p i v).face = m.face :=
  Module.setFence_face ..
theorem Module.finish_face (m : Module) (q : Nat) (code : Nat) (stop : Bool) (noop : Bool) (info : Nat) : (Module.finish m q code stop noop info).face = m.face := by
  simp only [Module.finish]
  repeat' split
  all_goals simp only [face_simp, Module.setQueue_face, Module.signalFence_face]
theorem Module.complete_face (m : Module) (q : Nat) (code : Nat) (info : Nat) : (Module.complete m q code info).face = m.face := by
  simp only [Module.complete, face_simp, Module.finish_face]
theorem Module.completeAll_face (m : Module) (p : Nat) (code : Nat) (sel : Queue → Bool) : (Module.completeAll m p code sel).face = m.face := by
  unfold Module.completeAll
  repeat' first
    | with_reducible rfl
    | (simp only [face_simp, Module.complete_face]; done)
    | (with_reducible refine (foldl_face _ _ _ (fun m x => ?_)).trans ?_)
    | (with_reducible refine (getD_face ?_).trans ?_; (with_reducible intro _ _))
    | split
    | dsimp only
    | simp only [face_simp, Module.complete_face]
theorem Module.mapCores_face (m : Module) (p : Nat) (f : Core → Core) : (Module.mapCores m p f).face = m.face := by
  simp only [Module.mapCores, face_simp]
theorem Module.endFlows_face (m : Module) (p : Nat) : (Module.endFlows m p).face = m.face := by
  simp only [Module.endFlows, face_simp]
theorem Module.undoResults_face (m : Module) (p : Nat) : (Module.undoResults m p).face = m.face := by
  unfold Module.undoResults
  repeat' first
    | with_reducible rfl
    | (simp only [face_simp, Module.setQueue_face]; done)
    | (with_reducible refine (foldl_face _ _ _ (fun m x => ?_)).trans ?_)
    | (with_reducible refine (getD_face ?_).trans ?_; (with_reducible intro _ _))
    | split
    | dsimp only
    | simp only [face_simp, Module.setQueue_face]
theorem Module.endSessions_face (m : Module) (p : Nat) : (Module.endSessions m p).face = m.face := by
  simp only [Module.endSessions, face_simp]
theorem Module.endHerds_face (m : Module) (p : Nat) : (Module.endHerds m p).face = m.face := by
  simp only [Module.endHerds, face_simp]
theorem Module.restClusters_face (m : Module) (p : Nat) : (Module.restClusters m p).face = m.face := by
  simp only [Module.restClusters, face_simp]
theorem Module.clearPending_face (m : Module) (p : Nat) : (Module.clearPending m p).face = m.face := by
  simp only [Module.clearPending, face_simp]
theorem Module.failTake_face (m : Module) (p : Nat) : (Module.failTake m p).face = m.face := by
  simp only [Module.failTake]
  repeat' split
  all_goals simp only [face_simp, Module.clearPending_face, Module.modPart_face, Module.logEvent_face, Module.complete_face]
theorem Module.endTask_face (m : Module) (p : Nat) (code : Nat) : (Module.endTask m p code).face = m.face := by
  simp only [Module.endTask]
  repeat' split
  all_goals simp only [face_simp, Module.modPart_face, Module.endSessions_face, Module.restClusters_face, Module.complete_face, Module.completeAll_face]
theorem Module.logAbort_face (m : Module) (p : Nat) (code : Nat) (l : Loc) (detail : Nat) : (Module.logAbort m p code l detail).face = m.face :=
  Module.logRec_face ..
theorem Module.abortHerds_face (m : Module) (p : Nat) (code : Nat) (but : Option Nat) : (Module.abortHerds m p code but).face = m.face := by
  unfold Module.abortHerds
  repeat' first
    | with_reducible rfl
    | (simp only [face_simp, Module.sendHerdAbort_face]; done)
    | (with_reducible refine (foldl_face _ _ _ (fun m x => ?_)).trans ?_)
    | (with_reducible refine (getD_face ?_).trans ?_; (with_reducible intro _ _))
    | split
    | dsimp only
    | simp only [face_simp, Module.sendHerdAbort_face]
theorem Module.abortTask_face (m : Module) (p : Nat) (code : Nat) (l : Loc) (detail : optParam Nat 0) (but : optParam (Option Nat) none) : (Module.abortTask m p code l detail but).face = m.face := by
  simp only [Module.abortTask, face_simp, Module.logAbort_face, Module.modPart_face, Module.mapCores_face, Module.abortHerds_face, Module.completeAll_face, Module.undoResults_face, Module.endHerds_face, Module.endFlows_face, Module.endTask_face, Module.failTake_face]
theorem Module.t0Abort_face (m : Module) (p : Nat) (c : Nat) (w : Nat) : (Module.t0Abort m p c w).face = m.face := by
  simp only [Module.t0Abort, Module.abortTask_face, Module.t0Unc_face]
theorem Module.clearRoutes_face (m : Module) (p : Nat) : (Module.clearRoutes m p).face = m.face := by
  simp only [Module.clearRoutes, face_simp]
theorem Module.failPart_face (m : Module) (p : Nat) (code : Nat) : (Module.failPart m p code).face = m.face := by
  simp only [Module.failPart, face_simp, Module.endHerds_face, Module.endFlows_face, Module.mapCores_face, Module.modPart_face, Module.endSessions_face, Module.restClusters_face, Module.failTake_face, Module.completeAll_face]
theorem Module.fatalPart_face (m : Module) (p : Nat) (code : Nat) (l : Loc) (detail : optParam Nat 0) : (Module.fatalPart m p code l detail).face = m.face := by
  simp only [Module.fatalPart, Module.failPart_face, Module.logFatal_face]
theorem Module.deleteObjects_face (m : Module) (p : Nat) : (Module.deleteObjects m p).face = m.face := by
  simp only [Module.deleteObjects, face_simp]
theorem Module.offPart_face (m : Module) (p : Nat) (code : Nat) : (Module.offPart m p code).face = m.face := by
  simp only [Module.offPart, face_simp, Module.endFlows_face, Module.mapCores_face, Module.failTake_face, Module.completeAll_face, Module.clearRoutes_face, Module.deleteObjects_face, Module.setPart_face]
theorem Module.allOff_face (m : Module) (code : Nat) : (Module.allOff m code).face = m.face := by
  unfold Module.allOff
  repeat' first
    | with_reducible rfl
    | (simp only [face_simp, Module.offPart_face]; done)
    | (with_reducible refine (foldl_face _ _ _ (fun m x => ?_)).trans ?_)
    | (with_reducible refine (getD_face ?_).trans ?_; (with_reducible intro _ _))
    | split
    | dsimp only
    | simp only [face_simp, Module.offPart_face]
theorem Module.launchPacket_face (m : Module) (p : Nat) (route : Nat) (h : BitVec 512) (payload : List (BitVec 512)) (sites : List Nat) : (Module.launchPacket m p route h payload sites).face = m.face := by
  simp only [Module.launchPacket, face_simp]
theorem Module.coreControl_face (m : Module) (p : Nat) (c : Nat) (route : Nat) (seq : Nat) (msg : BitVec 480) : (Module.coreControl m p c route seq msg).face = m.face :=
  Module.launchPacket_face ..
theorem Module.ringPacket_face (m : Module) (p : Nat) (n : Nat) (route : Nat) (kind : Nat) (tag : Nat) (payload : List (BitVec 512)) : (Module.ringPacket m p n route kind tag payload).face = m.face := by
  simp only [Module.ringPacket, face_simp, Module.launchPacket_face]
theorem Module.ringControl_face (m : Module) (p : Nat) (n : Nat) (route : Nat) (msg : BitVec 480) : (Module.ringControl m p n route msg).face = m.face :=
  Module.ringPacket_face ..
theorem Module.ringCredit_face (m : Module) (p : Nat) (n : Nat) (route : Nat) (k : Nat) : (Module.ringCredit m p n route k).face = m.face := by
  simp only [Module.ringCredit, face_simp, Module.launchPacket_face]
theorem Module.endpointCredits_face (m : Module) (p : Nat) (c : Nat) (e : Nat) (n : Nat) : (Module.endpointCredits m p c e n).face = m.face := by
  unfold Module.endpointCredits
  repeat' first
    | with_reducible rfl
    | (simp only [face_simp, Module.launchPacket_face, Module.modCore_face]; done)
    | (with_reducible refine (foldl_face _ _ _ (fun m x => ?_)).trans ?_)
    | (with_reducible refine (getD_face ?_).trans ?_; (with_reducible intro _ _))
    | split
    | dsimp only
    | simp only [face_simp, Module.launchPacket_face, Module.modCore_face]
theorem Module.chainForward_face (m : Module) (p : Nat) (c : Nat) (e : Nat) : (Module.chainForward m p c e).face = m.face := by
  simp only [Module.chainForward, face_simp, Module.endpointCredits_face, Module.modCore_face]
theorem Module.releaseCredits_face (m : Module) (p : Nat) (c : Nat) (e : Nat) (n : Nat) : (Module.releaseCredits m p c e n).face = m.face := by
  simp only [Module.releaseCredits, face_simp, Module.modCore_face, Module.chainForward_face, Module.endpointCredits_face]
theorem Module.countErr_face (m : Module) (p : Nat) (code : Nat) : (Module.countErr m p code).face = m.face := by
  simp only [Module.countErr, face_simp]
theorem Module.slip_face (m : Module) (p : Nat) (code : Nat) (site : Nat) (port : Nat) (route : Nat) : (Module.slip m p code site port route).face = m.face := by
  simp only [Module.slip, face_simp, Module.countErr_face, Module.clearRoutes_face, Module.fatalPart_face]
theorem doPacketInject_face (c : Nat) (e : Nat) (m : Module) : (doPacketInject c e m).face = m.face := by
  unfold doPacketInject
  repeat' first
    | with_reducible rfl
    | (simp only [face_simp, Module.t0Abort_face, Module.launchPacket_face, Module.modCore_face, Module.t0Corrected_face]; done)
    | (with_reducible refine (foldl_face _ _ _ (fun m x => ?_)).trans ?_)
    | (with_reducible refine (getD_face ?_).trans ?_; (with_reducible intro _ _))
    | split
    | dsimp only
    | simp only [face_simp, Module.t0Abort_face, Module.launchPacket_face, Module.modCore_face, Module.t0Corrected_face]
theorem Module.deliver_face (m : Module) (p : Nat) (c : Nat) (e : Nat) (f : Flight) : (Module.deliver m p c e f).face = m.face := by
  unfold Module.deliver
  repeat' first
    | with_reducible rfl
    | (simp only [face_simp, Module.slip_face, Module.t0Abort_face, Module.t0Corrected_face, Module.setCore_face]; done)
    | (with_reducible refine (foldl_face _ _ _ (fun m x => ?_)).trans ?_)
    | (with_reducible refine (getD_face ?_).trans ?_; (with_reducible intro _ _))
    | split
    | dsimp only
    | simp only [face_simp, Module.slip_face, Module.t0Abort_face, Module.t0Corrected_face, Module.setCore_face]
theorem Module.absorb_face (m : Module) (p : Nat) (c : Nat) (u : Nat) (d : Nat) (f : Flight) : (Module.absorb m p c u d f).face = m.face := by
  simp only [Module.absorb]
  repeat' split
  all_goals simp only [face_simp, Module.slip_face, Module.setCore_face]
theorem Module.sendCredit_face (m : Module) (p : Nat) (c : Nat) (e : Nat) (n : Nat) (route : Nat) : (Module.sendCredit m p c e n route).face = m.face := by
  simp only [Module.sendCredit, face_simp, Module.slip_face, Module.modCore_face]
theorem Module.coreCredit_face (m : Module) (p : Nat) (c : Nat) (f : Flight) : (Module.coreCredit m p c f).face = m.face := by
  simp only [Module.coreCredit]
  repeat' split
  all_goals simp only [face_simp, Module.sendCredit_face, Module.slip_face, Module.setCore_face, Module.modCore_face, Module.chainForward_face]
theorem Module.unitCredit_face (m : Module) (p : Nat) (c : Nat) (port : Nat) (route : Nat) (cr : Nat) (seq : Nat) : (Module.unitCredit m p c port route cr seq).face = m.face := by
  unfold Module.unitCredit
  repeat' split
  all_goals simp only [face_simp, Module.sendCredit_face, Module.launchPacket_face]
theorem doReductionEmit_face (c : Nat) (i : Nat) (m : Module) : (doReductionEmit c i m).face = m.face := by
  simp only [doReductionEmit]
  repeat' split
  all_goals simp only [face_simp, Module.setCore_face, Module.launchPacket_face, Module.unitCredit_face]
theorem doNetworkFlushEnd_face (p : Nat) (m : Module) : (doNetworkFlushEnd p m).face = m.face := by
  simp only [doNetworkFlushEnd, face_simp, Module.mapCores_face, Module.modPart_face]
theorem Module.setWin_face (m : Module) (c : Nat) (i : Nat) (w : Window) : (Module.setWin m c i w).face = m.face :=
  Module.modCore_face ..
theorem Module.winSend_face (m : Module) (p : Nat) (c : Nat) (i : Nat) (msg : BitVec 480) : (Module.winSend m p c i msg).face = m.face := by
  simp only [Module.winSend, Module.coreControl_face, Module.setWin_face]
theorem Module.resolveFor_face (m : Module) (p : Nat) (c : Nat) (i : Nat) (e : Layer) : (Module.resolveFor m p c i e).1.face = m.face := by
  unfold Module.resolveFor
  repeat' first
    | with_reducible rfl
    | (simp only [face_simp, Module.abortTask_face, Module.t0Abort_face, Module.t0Corrected_face, Module.setCore_face, Module.modPart_face, Module.logEvent_face]; done)
    | (with_reducible refine (foldl_face _ _ _ (fun m x => ?_)).trans ?_)
    | (with_reducible refine (getD_face ?_).trans ?_; (with_reducible intro _ _))
    | split
    | dsimp only
    | simp only [face_simp, Module.abortTask_face, Module.t0Abort_face, Module.t0Corrected_face, Module.setCore_face, Module.modPart_face, Module.logEvent_face]
theorem Module.resolveFor_face' {m : Module} {p : Nat} {c : Nat} {i : Nat} {e : Layer} {mm : Module} {yy} (h : Module.resolveFor m p c i e = (mm, yy)) : mm.face = m.face := by
  have := Module.resolveFor_face m p c i e; rw [h] at this; exact this
theorem Module.resolveFor_on {m : Module} {p : Nat} {c : Nat} {i : Nat} {e : Layer} {mm : Module} {yy} {qq : Face} (h : Module.resolveFor m p c i e = (mm, yy)) (e : m.face = qq) : mm.face = qq :=
  (Module.resolveFor_face' h).trans e
theorem Module.tailPull_face (m : Module) (p : Nat) (c : Nat) (i : Nat) (fuel : Nat) : (Module.tailPull m p c i fuel).face = m.face := by
  induction fuel generalizing m p c i with
  | zero => simp only [Module.tailPull]
  | succ n ih =>
  simp only [Module.tailPull]
  repeat' first
    | with_reducible rfl
    | (simp only [face_simp, Module.resolveFor_face, Module.winSend_face, Module.setWin_face, ih]; done)
    | (with_reducible refine (foldl_face _ _ _ (fun m x => ?_)).trans ?_)
    | (apply Module.resolveFor_on; assumption)
    | (with_reducible refine (getD_face ?_).trans ?_; (with_reducible intro _ _))
    | split
    | dsimp only
    | simp only [face_simp, Module.resolveFor_face, Module.winSend_face, Module.setWin_face, ih]
theorem Module.forwardPulls_face (m : Module) (p : Nat) (c : Nat) (i : Nat) (fuel : Nat) : (Module.forwardPulls m p c i fuel).face = m.face := by
  induction fuel generalizing m p c i with
  | zero => simp only [Module.forwardPulls]
  | succ n ih =>
  simp only [Module.forwardPulls]
  repeat' first
    | with_reducible rfl
    | (simp only [face_simp, Module.winSend_face, Module.setWin_face, ih]; done)
    | (with_reducible refine (foldl_face _ _ _ (fun m x => ?_)).trans ?_)
    | (with_reducible refine (getD_face ?_).trans ?_; (with_reducible intro _ _))
    | split
    | dsimp only
    | simp only [face_simp, Module.winSend_face, Module.setWin_face, ih]
theorem Module.slotFreed_face (m : Module) (p : Nat) (c : Nat) (i : Nat) : (Module.slotFreed m p c i).face = m.face := by
  simp only [Module.slotFreed, face_simp, Module.tailPull_face, Module.forwardPulls_face]
theorem doResolve_face (c : Nat) (i : Nat) (m : Module) : (doResolve c i m).face = m.face := by
  unfold doResolve
  split <;> simp only [face_simp, Module.tailPull_face]
theorem Module.pullAtCore_face (m : Module) (p : Nat) (c : Nat) (i : Nat) (f : Flight) : (Module.pullAtCore m p c i f).face = m.face := by
  simp only [Module.pullAtCore, face_simp, Module.slip_face, Module.winSend_face, Module.forwardPulls_face, Module.setWin_face]
theorem Module.unitAtWindow_face (m : Module) (c : Nat) (i : Nat) (bytes : List Byte) : (Module.unitAtWindow m c i bytes).face = m.face := by
  simp only [Module.unitAtWindow]
  repeat' split
  all_goals simp only [face_simp, Module.modCore_face, Module.setWin_face, Module.modPart_face]
theorem Module.switchAtWindow_face (m : Module) (p : Nat) (c : Nat) (i : Nat) (x : Nat) : (Module.switchAtWindow m p c i x).face = m.face := by
  simp only [Module.switchAtWindow]
  repeat' split
  all_goals simp only [face_simp, Module.setWin_face]
theorem doDeadlineMiss_face (c : Nat) (i : Nat) (s : Nat) (m : Module) : (doDeadlineMiss c i s m).face = m.face := by
  simp only [doDeadlineMiss]
  repeat' split
  all_goals simp only [face_simp, Module.modPart_face, Module.logEvent_face, Module.setWin_face, Module.winSend_face]
theorem Module.portSend_face (m : Module) (p : Nat) (c : Nat) (route : Nat) (msg : BitVec 480) : (Module.portSend m p c route msg).face = m.face := by
  unfold Module.portSend
  split <;> simp only [face_simp, Module.coreControl_face, Module.modCore_face]
theorem Module.commit_face (m : Module) (p : Nat) (c : Nat) (t : Nat) (u : CUnit) (o : CoreOut) : (Module.commit m p c t u o).face = m.face := by
  unfold Module.commit
  repeat' first
    | with_reducible rfl
    | (simp only [face_simp, Module.modPart_face, Module.releaseCredits_face, Module.portSend_face, Module.t0Corrected_face, Module.t0Abort_face, Module.abortTask_face]; done)
    | (with_reducible refine (foldl_face _ _ _ (fun m x => ?_)).trans ?_)
    | (with_reducible refine (getD_face ?_).trans ?_; (with_reducible intro _ _))
    | split
    | dsimp only
    | simp only [face_simp, Module.modPart_face, Module.releaseCredits_face, Module.portSend_face, Module.t0Corrected_face, Module.t0Abort_face, Module.abortTask_face]
theorem Module.park_face (m : Module) (c : Nat) (t : Nat) (k : Core) (th : Thread) : (Module.park m c t k th).face = m.face :=
  Module.setCore_face ..
theorem issue_face (c : Nat) (t : Nat) (opcode : Nat) (u : CUnit) (f : Ctx → Core → Thread → Nat → CoreRes) (m : Module) : (issue c t opcode u f m).face = m.face := by
  simp only [issue]
  repeat' split
  all_goals simp only [face_simp, Module.t0Abort_face, Module.park_face, Module.commit_face]
theorem issueOr_face (c : Nat) (t : Nat) (opcode : Nat) (u : CUnit) (f : Ctx → Core → Thread → Nat → CoreRes) (onWait : Core → Thread → Nat → Core) (m : Module) : (issueOr c t opcode u f onWait m).face = m.face := by
  simp only [issueOr]
  repeat' split
  all_goals simp only [face_simp, Module.t0Abort_face, Module.park_face, Module.commit_face]
theorem Module.runHead_face' {m : Module} {c : Nat} {t : Nat} {opcode : Nat} {u : CUnit} {f : Ctx → Core → Thread → Nat → CoreRes} {mm : Module} (h : Module.runHead m c t opcode u f = some mm) : mm.face = m.face := by
  unfold Module.runHead at h
  repeat' first
    | (injection h with h; subst h; with_reducible rfl)
    | (injection h with h; subst h; simp only [face_simp, Module.commit_face]; done)
    | contradiction
    | split at h
    | dsimp only at h
    | (injection h with h; subst h)
    | (simp only [Option.map_eq_some_iff] at h; obtain ⟨_, h, rfl⟩ := h)
    | simp only [face_simp, Module.commit_face]
    | (with_reducible refine (foldl_face _ _ _ (fun m x => ?_)).trans ?_)
theorem Module.runHead_on {m : Module} {c : Nat} {t : Nat} {opcode : Nat} {u : CUnit} {f : Ctx → Core → Thread → Nat → CoreRes} {mm : Module} {qq : Face} (h : Module.runHead m c t opcode u f = some mm) (e : m.face = qq) : mm.face = qq :=
  (Module.runHead_face' h).trans e
theorem Module.headWaits_face (m : Module) (c : Nat) (u : CUnit) : (Module.headWaits m c u).face = m.face := by
  simp only [Module.headWaits]
  repeat' split
  all_goals simp only [face_simp, Module.abortTask_face, Module.setCore_face]
theorem Module.enqueue_face (m : Module) (c : Nat) (t : Nat) (u : CUnit) (k : Core) (th : Thread) (w : Nat) (spans : List Span) : (Module.enqueue m c t u k th w spans).face = m.face := by
  unfold Module.enqueue
  repeat' first
    | with_reducible rfl
    | (simp only [face_simp, Module.headWaits_face, Module.t0Corrected_face, Module.setCore_face]; done)
    | (with_reducible refine (foldl_face _ _ _ (fun m x => ?_)).trans ?_)
    | (with_reducible refine (getD_face ?_).trans ?_; (with_reducible intro _ _))
    | split
    | dsimp only
    | simp only [face_simp, Module.headWaits_face, Module.t0Corrected_face, Module.setCore_face]
theorem issueQ_face (c : Nat) (t : Nat) (opcode : Nat) (u : CUnit) (f : Ctx → Core → Thread → Nat → CoreRes) (atOnce : Ctx → Core → Thread → Nat → Bool) (spans : Ctx → Core → Thread → Nat → List Span) (m : Module) : (issueQ c t opcode u f atOnce spans m).face = m.face := by
  unfold issueQ
  repeat' first
    | with_reducible rfl
    | (simp only [face_simp, Module.headWaits_face, Module.t0Abort_face, Module.park_face, Module.enqueue_face, Module.commit_face]; done)
    | (with_reducible refine (foldl_face _ _ _ (fun m x => ?_)).trans ?_)
    | (apply Module.runHead_on; assumption)
    | (with_reducible refine (getD_face ?_).trans ?_; (with_reducible intro _ _))
    | split
    | dsimp only
    | simp only [face_simp, Module.headWaits_face, Module.t0Abort_face, Module.park_face, Module.enqueue_face, Module.commit_face]
theorem doTmmForm_face (form : TmmForm) (op : Nat) (c : Nat) (t : Nat) (m : Module) : (doTmmForm form op c t m).face = m.face :=
  issueQ_face ..
theorem doTmm_face (c : Nat) (t : Nat) (m : Module) : (doTmm c t m).face = m.face :=
  doTmmForm_face ..
theorem doTmmS24_face (c : Nat) (t : Nat) (m : Module) : (doTmmS24 c t m).face = m.face :=
  doTmmForm_face ..
theorem doTmmSub_face (c : Nat) (t : Nat) (m : Module) : (doTmmSub c t m).face = m.face :=
  doTmmForm_face ..
theorem doTmmPg_face (c : Nat) (t : Nat) (m : Module) : (doTmmPg c t m).face = m.face :=
  doTmmForm_face ..
theorem doStationarySwap_face (c : Nat) (m : Module) : (doStationarySwap c m).face = m.face := by
  unfold doStationarySwap
  split <;> simp only [face_simp, Module.setCore_face, Module.abortTask_face]
theorem doVec_face (op : VOp) (code : Nat) (c : Nat) (t : Nat) (m : Module) : (doVec op code c t m).face = m.face :=
  issueQ_face ..
theorem doVecAdd_face (c : Nat) (t : Nat) (m : Module) : (doVecAdd c t m).face = m.face :=
  doVec_face ..
theorem doVecSub_face (c : Nat) (t : Nat) (m : Module) : (doVecSub c t m).face = m.face :=
  doVec_face ..
theorem doVecMul_face (c : Nat) (t : Nat) (m : Module) : (doVecMul c t m).face = m.face :=
  doVec_face ..
theorem doFma_face (c : Nat) (t : Nat) (m : Module) : (doFma c t m).face = m.face :=
  doVec_face ..
theorem doVecMin_face (c : Nat) (t : Nat) (m : Module) : (doVecMin c t m).face = m.face :=
  doVec_face ..
theorem doVecMax_face (c : Nat) (t : Nat) (m : Module) : (doVecMax c t m).face = m.face :=
  doVec_face ..
theorem doCmplt_face (c : Nat) (t : Nat) (m : Module) : (doCmplt c t m).face = m.face :=
  doVec_face ..
theorem doCmpeq_face (c : Nat) (t : Nat) (m : Module) : (doCmpeq c t m).face = m.face :=
  doVec_face ..
theorem doSel_face (c : Nat) (t : Nat) (m : Module) : (doSel c t m).face = m.face :=
  doVec_face ..
theorem doDiv_face (c : Nat) (t : Nat) (m : Module) : (doDiv c t m).face = m.face :=
  doVec_face ..
theorem doSqrt_face (c : Nat) (t : Nat) (m : Module) : (doSqrt c t m).face = m.face :=
  doVec_face ..
theorem doRecip_face (c : Nat) (t : Nat) (m : Module) : (doRecip c t m).face = m.face :=
  doVec_face ..
theorem doRsqrt_face (c : Nat) (t : Nat) (m : Module) : (doRsqrt c t m).face = m.face :=
  doVec_face ..
theorem doExp_face (c : Nat) (t : Nat) (m : Module) : (doExp c t m).face = m.face :=
  doVec_face ..
theorem doExp2_face (c : Nat) (t : Nat) (m : Module) : (doExp2 c t m).face = m.face :=
  doVec_face ..
theorem doLog_face (c : Nat) (t : Nat) (m : Module) : (doLog c t m).face = m.face :=
  doVec_face ..
theorem doLog2_face (c : Nat) (t : Nat) (m : Module) : (doLog2 c t m).face = m.face :=
  doVec_face ..
theorem doTanh_face (c : Nat) (t : Nat) (m : Module) : (doTanh c t m).face = m.face :=
  doVec_face ..
theorem doSigmoid_face (c : Nat) (t : Nat) (m : Module) : (doSigmoid c t m).face = m.face :=
  doVec_face ..
theorem doErf_face (c : Nat) (t : Nat) (m : Module) : (doErf c t m).face = m.face :=
  doVec_face ..
theorem doCvt_face (c : Nat) (t : Nat) (m : Module) : (doCvt c t m).face = m.face :=
  doVec_face ..
theorem doRsum_face (c : Nat) (t : Nat) (m : Module) : (doRsum c t m).face = m.face :=
  doVec_face ..
theorem doRmax_face (c : Nat) (t : Nat) (m : Module) : (doRmax c t m).face = m.face :=
  doVec_face ..
theorem doRmin_face (c : Nat) (t : Nat) (m : Module) : (doRmin c t m).face = m.face :=
  doVec_face ..
theorem doSoftmax_face (c : Nat) (t : Nat) (m : Module) : (doSoftmax c t m).face = m.face :=
  doVec_face ..
theorem doLayernorm_face (c : Nat) (t : Nat) (m : Module) : (doLayernorm c t m).face = m.face :=
  doVec_face ..
theorem doRmsnorm_face (c : Nat) (t : Nat) (m : Module) : (doRmsnorm c t m).face = m.face :=
  doVec_face ..
theorem doNop_face (c : Nat) (t : Nat) (m : Module) : (doNop c t m).face = m.face :=
  issue_face ..
theorem doHalt_face (c : Nat) (t : Nat) (m : Module) : (doHalt c t m).face = m.face :=
  issue_face ..
theorem doSignal_face (c : Nat) (t : Nat) (m : Module) : (doSignal c t m).face = m.face :=
  issue_face ..
theorem doWait_face (c : Nat) (t : Nat) (m : Module) : (doWait c t m).face = m.face :=
  issue_face ..
theorem doFence_face (c : Nat) (t : Nat) (m : Module) : (doFence c t m).face = m.face :=
  issue_face ..
theorem doBr_face (c : Nat) (t : Nat) (m : Module) : (doBr c t m).face = m.face :=
  issue_face ..
theorem doBeqz_face (c : Nat) (t : Nat) (m : Module) : (doBeqz c t m).face = m.face :=
  issue_face ..
theorem doBnez_face (c : Nat) (t : Nat) (m : Module) : (doBnez c t m).face = m.face :=
  issue_face ..
theorem doBltu_face (c : Nat) (t : Nat) (m : Module) : (doBltu c t m).face = m.face :=
  issue_face ..
theorem doLi_face (c : Nat) (t : Nat) (m : Module) : (doLi c t m).face = m.face :=
  issue_face ..
theorem doAdd_face (c : Nat) (t : Nat) (m : Module) : (doAdd c t m).face = m.face :=
  issue_face ..
theorem doAddi_face (c : Nat) (t : Nat) (m : Module) : (doAddi c t m).face = m.face :=
  issue_face ..
theorem doSub_face (c : Nat) (t : Nat) (m : Module) : (doSub c t m).face = m.face :=
  issue_face ..
theorem doMul_face (c : Nat) (t : Nat) (m : Module) : (doMul c t m).face = m.face :=
  issue_face ..
theorem doAndOp_face (c : Nat) (t : Nat) (m : Module) : (doAndOp c t m).face = m.face :=
  issue_face ..
theorem doOrOp_face (c : Nat) (t : Nat) (m : Module) : (doOrOp c t m).face = m.face :=
  issue_face ..
theorem doXorOp_face (c : Nat) (t : Nat) (m : Module) : (doXorOp c t m).face = m.face :=
  issue_face ..
theorem doShl_face (c : Nat) (t : Nat) (m : Module) : (doShl c t m).face = m.face :=
  issue_face ..
theorem doShr_face (c : Nat) (t : Nat) (m : Module) : (doShr c t m).face = m.face :=
  issue_face ..
theorem doModi_face (c : Nat) (t : Nat) (m : Module) : (doModi c t m).face = m.face :=
  issue_face ..
theorem doStw_face (c : Nat) (t : Nat) (m : Module) : (doStw c t m).face = m.face :=
  issue_face ..
theorem doSend_face (c : Nat) (t : Nat) (m : Module) : (doSend c t m).face = m.face :=
  issue_face ..
theorem doRecv_face (c : Nat) (t : Nat) (m : Module) : (doRecv c t m).face = m.face :=
  issue_face ..
theorem doRelease_face (c : Nat) (t : Nat) (m : Module) : (doRelease c t m).face = m.face :=
  issue_face ..
theorem doWhead_face (c : Nat) (t : Nat) (m : Module) : (doWhead c t m).face = m.face :=
  issue_face ..
theorem doTread_face (c : Nat) (t : Nat) (m : Module) : (doTread c t m).face = m.face :=
  issue_face ..
theorem doTwrite_face (c : Nat) (t : Nat) (m : Module) : (doTwrite c t m).face = m.face :=
  issue_face ..
theorem doTdone_face (c : Nat) (t : Nat) (m : Module) : (doTdone c t m).face = m.face :=
  issue_face ..
theorem doLdw_face (c : Nat) (t : Nat) (m : Module) : (doLdw c t m).face = m.face :=
  issue_face ..
theorem doWfull_face (c : Nat) (t : Nat) (m : Module) : (doWfull c t m).face = m.face :=
  issueOr_face ..
theorem doWfree_face (c : Nat) (t : Nat) (m : Module) : (doWfree c t m).face = m.face := by
  unfold doWfree
  split <;> simp only [face_simp, issue_face, Module.slotFreed_face]
theorem doGpush_face (c : Nat) (t : Nat) (m : Module) : (doGpush c t m).face = m.face := by
  unfold doGpush
  split <;> simp only [face_simp, issue_face, Module.setFlow_face]
theorem doGwait_face (c : Nat) (t : Nat) (m : Module) : (doGwait c t m).face = m.face :=
  issue_face ..
theorem doEngTagSummaryClear_face (p : Nat) (v : Reg64) (m : Module) : (doEngTagSummaryClear p v m).face = m.face :=
  Module.modPart_face ..
theorem Module.askWakes_face (m : Module) (cls : List Nat) : (Module.askWakes m cls).face = m.face := by
  unfold Module.askWakes
  repeat' first
    | with_reducible rfl
    | (simp only [face_simp, Module.setCluster_face]; done)
    | (with_reducible refine (foldl_face _ _ _ (fun m x => ?_)).trans ?_)
    | (with_reducible refine (getD_face ?_).trans ?_; (with_reducible intro _ _))
    | split
    | dsimp only
    | simp only [face_simp, Module.setCluster_face]
theorem Module.startTask_face (m : Module) (p : Nat) (q : Nat) : (Module.startTask m p q).face = m.face := by
  simp only [Module.startTask, face_simp, Module.mapCores_face, Module.modPart_face, Module.askWakes_face]
theorem Module.startPulls_face (m : Module) (p : Nat) : (Module.startPulls m p).face = m.face := by
  unfold Module.startPulls
  repeat' first
    | with_reducible rfl
    | (simp only [face_simp, Module.tailPull_face]; done)
    | (with_reducible refine (foldl_face _ _ _ (fun m x => ?_)).trans ?_)
    | (with_reducible refine (getD_face ?_).trans ?_; (with_reducible intro _ _))
    | split
    | dsimp only
    | simp only [face_simp, Module.tailPull_face]
theorem doThreadStart_face (p : Nat) (m : Module) : (doThreadStart p m).face = m.face := by
  simp only [doThreadStart, face_simp, Module.mapCores_face, Module.modPart_face, Module.startPulls_face]
theorem Module.withFrame_face (m : Module) (pg : Nat) (k : Nat) : (Module.withFrame m pg k).face = m.face := by
  simp only [Module.withFrame, face_simp, Module.setPage_face]
theorem Module.readT1_face (m : Module) (addr : Nat) (n : Nat) : (Module.readT1 m addr n).face = m.face := by
  unfold Module.readT1
  repeat' first
    | with_reducible rfl
    | (simp only [face_simp, Module.t1Corrected_face]; done)
    | (with_reducible refine (foldl_face _ _ _ (fun m x => ?_)).trans ?_)
    | (with_reducible refine (getD_face ?_).trans ?_; (with_reducible intro _ _))
    | split
    | dsimp only
    | simp only [face_simp, Module.t1Corrected_face]
theorem Module.t1Found_face (m : Module) (found : List T1Finding) : (Module.t1Found m found).face = m.face := by
  unfold Module.t1Found
  repeat' first
    | with_reducible rfl
    | (simp only [face_simp]; done)
    | (with_reducible refine (foldl_face _ _ _ (fun m x => ?_)).trans ?_)
    | (with_reducible refine (getD_face ?_).trans ?_; (with_reducible intro _ _))
    | split
    | dsimp only
    | simp only [face_simp]
theorem Module.putRaw_face (m : Module) (addr : Nat) (bs : List Byte) : (Module.putRaw m addr bs).face = m.face := by
  simp only [Module.putRaw, face_simp]
theorem Module.markTile_face (m : Module) (pg : Nat) (t : Nat) (raw : Bool) : (Module.markTile m pg t raw).face = m.face :=
  Module.setPage_face ..
theorem Module.putSlot_face (m : Module) (pg : Nat) (t : Nat) (stored : List Byte) (raw : Bool) : (Module.putSlot m pg t stored raw).face = m.face := by
  simp only [Module.putSlot, Module.markTile_face, Module.putRaw_face]
theorem Module.recode_face (m : Module) (addr : Nat) (bs : List Byte) : (Module.recode m addr bs).face = m.face :=
  Module.putSlot_face ..
theorem Module.putBytes_face (m : Module) (addr : Nat) (bs : List Byte) : (Module.putBytes m addr bs).face = m.face := by
  unfold Module.putBytes
  repeat' first
    | with_reducible rfl
    | (simp only [face_simp, Module.recode_face, Module.markTile_face, Module.putRaw_face]; done)
    | (with_reducible refine (foldl_face _ _ _ (fun m x => ?_)).trans ?_)
    | (with_reducible refine (getD_face ?_).trans ?_; (with_reducible intro _ _))
    | split
    | dsimp only
    | simp only [face_simp, Module.recode_face, Module.markTile_face, Module.putRaw_face]
theorem Module.nextId_face (m : Module) : (Module.nextId m).2.face = m.face := by
  simp only [Module.nextId, face_simp]
theorem Module.nextId_face' {m : Module} {mm : Module} {yy} (h : Module.nextId m = (yy, mm)) : mm.face = m.face := by
  have := Module.nextId_face m; rw [h] at this; exact this
theorem Module.nextId_on {m : Module} {mm : Module} {yy} {qq : Face} (h : Module.nextId m = (yy, mm)) (e : m.face = qq) : mm.face = qq :=
  (Module.nextId_face' h).trans e
theorem Module.poolRead_face (m : Module) (port : Nat) (addr : Nat) (owner : PoolOwner) : (Module.poolRead m port addr owner).face = m.face := by
  simp only [Module.poolRead, face_simp, Module.nextId_face, Module.sendPsp_face]
theorem Module.poolWrite_face (m : Module) (port : Nat) (addr : Nat) (payload : List Byte) (owner : PoolOwner) : (Module.poolWrite m port addr payload owner).face = m.face := by
  simp only [Module.poolWrite, face_simp, Module.nextId_face, Module.nextPspSeq_face, Module.nextMsg_face, Module.sendChunk_face]
theorem Module.askPool_face' {m : Module} {o : PoolOwner} {gs : List Nat} {mm : Module} (h : Module.askPool m o gs = some mm) : mm.face = m.face := by
  unfold Module.askPool at h
  generalize m.lacks o gs = l at h
  have none_ (f : Module → Nat → Option Module) (l : List Nat) : l.foldl (fun m g => m.bind (fun m => f m g)) none = none := by
    induction l with
    | nil => rfl
    | cons r t ih => exact ih
  induction l generalizing m with
  | nil => injection h with h; rw [h]
  | cons r t ih =>
    rw [List.foldl_cons, Option.bind_some] at h
    cases hp : m.poolPort (r / 32) with
    | none => rw [hp, Option.map_none, none_] at h; contradiction
    | some port =>
      rw [hp, Option.map_some] at h
      refine (ih h).trans ?_
      dsimp only
      split
      · rfl
      · simp only [Module.poolRead_face]
theorem Module.askPool_on {m : Module} {o : PoolOwner} {gs : List Nat} {mm : Module} {qq : Face} (h : Module.askPool m o gs = some mm) (e : m.face = qq) : mm.face = qq :=
  (Module.askPool_face' h).trans e
theorem Module.fetchTiles_face' {m : Module} {o : PoolOwner} {gs : List Nat} {mm : Module} {yy : Bool} (h : Module.fetchTiles m o gs = some (mm, yy)) : mm.face = m.face := by
  unfold Module.fetchTiles at h
  split at h
  · injection h with h; injection h with h _; rw [← h]; rfl
  · simp only [Option.map_eq_some_iff] at h
    obtain ⟨a, h, e⟩ := h
    injection e with e _; rw [← e]
    exact Module.askPool_face' h
theorem Module.fetchTiles_on {m : Module} {o : PoolOwner} {gs : List Nat} {mm : Module} {yy : Bool} {qq : Face} (h : Module.fetchTiles m o gs = some (mm, yy)) (e : m.face = qq) : mm.face = qq :=
  (Module.fetchTiles_face' h).trans e
theorem Module.noteStall_face (m : Module) (pg : Nat) : (Module.noteStall m pg).face = m.face := by
  unfold Module.noteStall
  split <;> simp only [face_simp, Module.modPart_face, Module.logEvent_face]
theorem Module.copyAhead_face (m : Module) (pg : Nat) : (Module.copyAhead m pg).1.face = m.face := by
  unfold Module.copyAhead
  generalize tilesOf (slotAddr pg 0) pageBytes = l
  generalize m.badIn (slotAddr pg 0) pageBytes = bad
  extract_lets x p
  split
  · rfl
  · split
    · rfl
    · split
      · exact Module.failTake_face ..
      · cases bad with
        | some e =>
          refine (Module.failTake_face ..).trans ?_
          exact (Module.logEvent_face (m.t1Unc _ _) _ _ _ _ _).trans (Module.t1Unc_face ..)
        | none =>
          cases h : m.fetchTiles (.bounce pg) l with
          | none => exact Module.failTake_face ..
          | some e =>
            obtain ⟨n, b⟩ := e
            have hf := Module.fetchTiles_face' h
            cases b
            · exact hf
            · exact hf
theorem Module.copyAhead_on {m : Module} {pg : Nat} {mm : Module} {yy} {qq : Face} (h : Module.copyAhead m pg = (mm, yy)) (e : m.face = qq) : mm.face = qq := by
  have := Module.copyAhead_face m pg; rw [h] at this; exact this.trans e
theorem Module.copyAhead_face' {m : Module} {pg : Nat} {mm : Module} {yy} (h : Module.copyAhead m pg = (mm, yy)) : mm.face = m.face :=
  Module.copyAhead_on h rfl
theorem Module.stopMove_face (m : Module) (pg : Nat) (cancel : Bool) : (Module.stopMove m pg cancel).face = m.face := by
  simp only [Module.stopMove, face_simp, Module.setPage_face]
theorem Module.openPage_face (m : Module) (pg : Nat) : (Module.openPage m pg).1.face = m.face := by
  unfold Module.openPage
  repeat' first
    | with_reducible rfl
    | (simp only [face_simp, Module.copyAhead_face, Module.stopMove_face, Module.setPage_face, Module.withFrame_face]; done)
    | (with_reducible refine (foldl_face _ _ _ (fun m x => ?_)).trans ?_)
    | (apply Module.copyAhead_on; assumption)
    | (with_reducible refine (getD_face ?_).trans ?_; (with_reducible intro _ _))
    | split
    | dsimp only
    | simp only [face_simp, Module.copyAhead_face, Module.stopMove_face, Module.setPage_face, Module.withFrame_face]
theorem Module.openPage_face' {m : Module} {pg : Nat} {mm : Module} {yy} (h : Module.openPage m pg = (mm, yy)) : mm.face = m.face := by
  have := Module.openPage_face m pg; rw [h] at this; exact this
theorem Module.openPage_on {m : Module} {pg : Nat} {mm : Module} {yy} {qq : Face} (h : Module.openPage m pg = (mm, yy)) (e : m.face = qq) : mm.face = qq :=
  (Module.openPage_face' h).trans e
theorem Module.reach_face (m : Module) (o : PoolOwner) (addr n : Nat) : (Module.reach m o addr n).face = m.face := by
  unfold Module.reach
  split
  · rfl
  · split
    · rfl
    · rename_i h; exact Module.fetchTiles_face' h
    · rename_i h
      split
      · exact (Module.t1Unc_face ..).trans (Module.fetchTiles_face' h)
      · exact (Module.readT1_face ..).trans (Module.fetchTiles_face' h)
theorem Module.reach_onH {m : Module} {o : PoolOwner} {addr n : Nat} {mm : Module} {qq : Face} (h : Module.reach m o addr n = .here mm) (e : m.face = qq) : mm.face = qq := by
  have := Module.reach_face m o addr n; rw [h] at this; exact this.trans e
theorem Module.reach_onW {m : Module} {o : PoolOwner} {addr n : Nat} {mm : Module} {qq : Face} (h : Module.reach m o addr n = .wait mm) (e : m.face = qq) : mm.face = qq := by
  have := Module.reach_face m o addr n; rw [h] at this; exact this.trans e
theorem Module.reach_onF {m : Module} {o : PoolOwner} {addr n : Nat} {a b c : Nat} {mm : Module} {qq : Face} (h : Module.reach m o addr n = .fail mm a b c) (e : m.face = qq) : mm.face = qq := by
  have := Module.reach_face m o addr n; rw [h] at this; exact this.trans e
theorem Module.toHost_face (m : Module) (pg : Nat) (ts : List Nat) : (Module.toHost m pg ts).face = m.face := by
  unfold Module.toHost
  repeat' first
    | with_reducible rfl
    | (simp only [face_simp, Module.emit_face]; done)
    | (with_reducible refine (foldl_face _ _ _ (fun m x => ?_)).trans ?_)
    | (with_reducible refine (getD_face ?_).trans ?_; (with_reducible intro _ _))
    | split
    | dsimp only
    | simp only [face_simp, Module.emit_face]
theorem Module.toPool_face (m : Module) (port : Nat) (pg : Nat) (ts : List Nat) (owner : PoolOwner) : (Module.toPool m port pg ts owner).face = m.face := by
  unfold Module.toPool
  repeat' first
    | with_reducible rfl
    | (simp only [face_simp, Module.poolWrite_face]; done)
    | (with_reducible refine (foldl_face _ _ _ (fun m x => ?_)).trans ?_)
    | (with_reducible refine (getD_face ?_).trans ?_; (with_reducible intro _ _))
    | split
    | dsimp only
    | simp only [face_simp, Module.poolWrite_face]
theorem Module.through_face (m : Module) (pg : Nat) (ts : List Nat) (owner : PoolOwner) : (Module.through m pg ts owner).face = m.face := by
  unfold Module.through
  repeat' split
  all_goals simp only [face_simp, Module.toHost_face, Module.toPool_face]
theorem Module.storeWith_face {m : Module} {pg : Nat} {ts : List Nat} {owner : PoolOwner} {put : Module → Module} (hp : ∀ m, (put m).face = m.face) : (Module.storeWith m pg ts owner put).1.face = m.face := by
  unfold Module.storeWith
  extract_lets waits m1
  have h1 : m1.face = m.face := by
    show (if ((m.page pg).pending && !waits) = true then m.noteStall pg else m).face = m.face
    split
    · exact Module.noteStall_face ..
    · rfl
  split
  · rename_i h
    have := (Module.openPage_face' h).trans h1
    dsimp only
    split <;> exact this
  · rename_i n h
    dsimp only
    rw [Module.through_face]
    exact (show (put n).face = m.face from (hp n).trans ((Module.openPage_face' h).trans h1))
theorem Module.storeWith_on {m : Module} {pg : Nat} {ts : List Nat} {owner : PoolOwner} {put : Module → Module} {mm : Module} {yy} {qq : Face} (hp : ∀ m, (put m).face = m.face) (h : Module.storeWith m pg ts owner put = (mm, yy)) (e : m.face = qq) : mm.face = qq := by
  have := Module.storeWith_face (m := m) (pg := pg) (ts := ts) (owner := owner) hp; rw [h] at this; exact this.trans e
theorem Module.store_face (m : Module) (addr : Nat) (bs : List Byte) (owner : PoolOwner) : (Module.store m addr bs owner).1.face = m.face :=
  Module.storeWith_face (fun _ => Module.putBytes_face ..)
theorem Module.store_on {m : Module} {addr : Nat} {bs : List Byte} {owner : PoolOwner} {mm : Module} {yy} {qq : Face} (h : Module.store m addr bs owner = (mm, yy)) (e : m.face = qq) : mm.face = qq := by
  have := Module.store_face m addr bs owner; rw [h] at this; exact this.trans e
theorem Module.setReq_face (m : Module) (r : TierReq) : (Module.setReq m r).face = m.face := by
  simp only [Module.setReq, face_simp]
theorem Module.dropReq_face (m : Module) (r : TierReq) : (Module.dropReq m r).face = m.face := by
  simp only [Module.dropReq, face_simp]
theorem Module.failReq_face (m : Module) (r : TierReq) (code : Nat) (sub : optParam Nat 0) (detail : optParam Nat 0) : (Module.failReq m r code sub detail).face = m.face := by
  simp only [Module.failReq, Module.abortTask_face, Module.dropReq_face]
theorem Module.beginReq_face (m : Module) (r : TierReq) : (Module.beginReq m r).face = m.face := by
  unfold Module.beginReq
  repeat' first
    | with_reducible rfl
    | (simp only [face_simp, Module.noteStall_face, Module.openPage_face, Module.setReq_face, Module.failReq_face, Module.poolRead_face]; done)
    | (with_reducible refine (foldl_face _ _ _ (fun m x => ?_)).trans ?_)
    | (apply Module.openPage_on; assumption)
    | (with_reducible refine (getD_face ?_).trans ?_; (with_reducible intro _ _))
    | split
    | dsimp only
    | simp only [face_simp, Module.noteStall_face, Module.openPage_face, Module.setReq_face, Module.failReq_face, Module.poolRead_face]
theorem Module.readPacket_face (m : Module) (r : TierReq) : (Module.readPacket m r).face = m.face := by
  simp only [Module.readPacket]
  repeat' split
  all_goals simp only [face_simp, Module.failReq_face, Module.t1Unc_face, Module.readT1_face, Module.ringPacket_face, Module.setReq_face]
theorem Module.endWrite_face (m : Module) (r : TierReq) : (Module.endWrite m r).face = m.face := by
  simp only [Module.endWrite]
  repeat' split
  all_goals simp only [face_simp, Module.failReq_face, Module.toPool_face, Module.setReq_face, Module.toHost_face, Module.ringControl_face, Module.dropReq_face]
theorem Module.serve_face (m : Module) (die : Nat) (route : Nat) (fuel : Nat) : (Module.serve m die route fuel).face = m.face := by
  induction fuel generalizing m die route with
  | zero => simp only [Module.serve]
  | succ n ih =>
  simp only [Module.serve]
  repeat' first
    | with_reducible rfl
    | (simp only [face_simp, Module.beginReq_face, Module.setReq_face, Module.endWrite_face, Module.dropReq_face, Module.readPacket_face, Module.ringControl_face, ih]; done)
    | (with_reducible refine (foldl_face _ _ _ (fun m x => ?_)).trans ?_)
    | (with_reducible refine (getD_face ?_).trans ?_; (with_reducible intro _ _))
    | split
    | dsimp only
    | simp only [face_simp, Module.beginReq_face, Module.setReq_face, Module.endWrite_face, Module.dropReq_face, Module.readPacket_face, Module.ringControl_face, ih]
theorem Module.serveAll_face (m : Module) (p : Nat) : (Module.serveAll m p).face = m.face := by
  unfold Module.serveAll
  repeat' first
    | with_reducible rfl
    | (simp only [face_simp, Module.serve_face]; done)
    | (with_reducible refine (foldl_face _ _ _ (fun m x => ?_)).trans ?_)
    | (with_reducible refine (getD_face ?_).trans ?_; (with_reducible intro _ _))
    | split
    | dsimp only
    | simp only [face_simp, Module.serve_face]
theorem Module.hostAcks_face (m : Module) : (Module.hostAcks m).face = m.face := by
  unfold Module.hostAcks
  repeat' first
    | with_reducible rfl
    | (simp only [face_simp, Module.serve_face, Module.setReq_face]; done)
    | (with_reducible refine (foldl_face _ _ _ (fun m x => ?_)).trans ?_)
    | (with_reducible refine (getD_face ?_).trans ?_; (with_reducible intro _ _))
    | split
    | dsimp only
    | simp only [face_simp, Module.serve_face, Module.setReq_face]
theorem Module.requestAtDie_face (m : Module) (p : Nat) (die : Nat) (f : Flight) : (Module.requestAtDie m p die f).face = m.face := by
  simp only [Module.requestAtDie, face_simp, Module.abortTask_face, Module.nextId_face, Module.setPage_face, Module.serve_face]
theorem Module.writeDataAtDie_face (m : Module) (die : Nat) (r : TierReq) (f : Flight) : (Module.writeDataAtDie m die r f).face = m.face := by
  simp only [Module.writeDataAtDie, face_simp, Module.stopMove_face, Module.setReq_face, Module.putBytes_face, Module.ringCredit_face, Module.serve_face]
theorem Module.writeDoneAtCore_face (m : Module) (c : Nat) (i : Nat) (f : Flight) : (Module.writeDoneAtCore m c i f).face = m.face :=
  Module.modCore_face ..
theorem Module.startMove_face (m : Module) (pg : Nat) (k : Nat) : (Module.startMove m pg k).face = m.face := by
  simp only [Module.startMove, Module.withFrame_face, Module.setPage_face]
theorem Module.demote_face (m : Module) (die : Nat) (k : Nat) (fuel : Nat) (moves : Nat) : (Module.demote m die k fuel moves).2.face = m.face := by
  induction fuel generalizing m die k moves with
  | zero => simp only [Module.demote]
  | succ n ih =>
  simp only [Module.demote]
  repeat' first
    | with_reducible rfl
    | (simp only [face_simp, Module.startMove_face, ih]; done)
    | (with_reducible refine (foldl_face _ _ _ (fun m x => ?_)).trans ?_)
    | (with_reducible refine (getD_face ?_).trans ?_; (with_reducible intro _ _))
    | split
    | dsimp only
    | simp only [face_simp, Module.startMove_face, ih]
theorem Module.demote_face' {m : Module} {die : Nat} {k : Nat} {fuel : Nat} {moves : Nat} {mm : Module} {yy} (h : Module.demote m die k fuel moves = (yy, mm)) : mm.face = m.face := by
  have := Module.demote_face m die k fuel moves; rw [h] at this; exact this
theorem Module.demote_on {m : Module} {die : Nat} {k : Nat} {fuel : Nat} {moves : Nat} {mm : Module} {yy} {qq : Face} (h : Module.demote m die k fuel moves = (yy, mm)) (e : m.face = qq) : mm.face = qq :=
  (Module.demote_face' h).trans e
theorem Module.promote_face (m : Module) (die : Nat) (moves : Nat) : (Module.promote m die moves).face = m.face := by
  unfold Module.promote
  dsimp only
  generalize (List.foldl (fun l e => insHot e l) [] _) = l
  have h : ∀ (l : List (Nat × Page)) (a : Nat × Module), (l.foldl (fun (a : Nat × Module) e =>
    match a.2.objAt e.1 with
    | none => a
    | some (_, o) =>
      if fld (a.2.mig die) 48 12 ≤ a.1 then a
      else
        match ([1, 2].filter (fun t => o.fast ≤ t && t < e.2.tier && 0 < a.2.openFrames t die)).head? with
        | none => a
        | some t => (a.1 + 1, a.2.startMove e.1 t)) a).2.face = a.2.face := by
    intro l
    induction l with
    | nil => intro a; rfl
    | cons e t ih =>
      intro a
      rw [List.foldl_cons]
      refine (ih _).trans ?_
      repeat' first
        | with_reducible rfl
        | exact Module.startMove_face ..
        | split
  exact h l (moves, m)
theorem doEpochEnd_face (die : Nat) (m : Module) : (doEpochEnd die m).face = m.face := by
  simp only [doEpochEnd, face_simp, Module.demote_face, Module.promote_face]
theorem Module.abandonMove_face (m : Module) (pg : Nat) (code : Nat) (sub : optParam Nat 0) (detail : optParam Nat 0) : (Module.abandonMove m pg code sub detail).face = m.face := by
  simp only [Module.abandonMove, Module.logEvent_face, Module.stopMove_face]
theorem doMoveTileCopied_face (pg : Nat) (failed : Bool) (found : List T1Finding) (m : Module) : (doMoveTileCopied pg failed found m).face = m.face := by
  simp only [doMoveTileCopied]
  repeat' split
  all_goals simp only [face_simp, Module.t1Found_face, Module.abandonMove_face, Module.t1Unc_face, Module.readT1_face, Module.setPage_face, Module.poolRead_face, Module.poolWrite_face, Module.toHost_face]
theorem doMoveComplete_face (pg : Nat) (m : Module) : (doMoveComplete pg m).face = m.face := by
  simp only [doMoveComplete]
  repeat' split
  all_goals simp only [face_simp, Module.setPage_face, Module.modPart_face]
theorem Module.poolTile_face' {m : Module} {pg : Nat} {t : Nat} {payload : List Byte} {check : Bool} {mm : Module} (h : Module.poolTile m pg t payload check = some mm) : mm.face = m.face := by
  unfold Module.poolTile at h
  repeat' first
    | (injection h with h; subst h; with_reducible rfl)
    | (injection h with h; subst h; simp only [face_simp, Module.putSlot_face]; done)
    | contradiction
    | split at h
    | dsimp only at h
    | (injection h with h; subst h)
    | (simp only [Option.map_eq_some_iff] at h; obtain ⟨_, h, rfl⟩ := h)
    | simp only [face_simp, Module.putSlot_face]
    | (with_reducible refine (foldl_face _ _ _ (fun m x => ?_)).trans ?_)
theorem Module.poolTile_on {m : Module} {pg : Nat} {t : Nat} {payload : List Byte} {check : Bool} {mm : Module} {qq : Face} (h : Module.poolTile m pg t payload check = some mm) (e : m.face = qq) : mm.face = qq :=
  (Module.poolTile_face' h).trans e
theorem Module.reqData_face (m : Module) (op : PoolOp) (id : Nat) (status : Nat) (payload : List Byte) : (Module.reqData m op id status payload).face = m.face := by
  unfold Module.reqData
  repeat' first
    | with_reducible rfl
    | (simp only [face_simp, Module.failReq_face, Module.serve_face, Module.setReq_face]; done)
    | (with_reducible refine (foldl_face _ _ _ (fun m x => ?_)).trans ?_)
    | (apply Module.poolTile_on; assumption)
    | (with_reducible refine (getD_face ?_).trans ?_; (with_reducible intro _ _))
    | split
    | dsimp only
    | simp only [face_simp, Module.failReq_face, Module.serve_face, Module.setReq_face]
theorem Module.reqAck_face (m : Module) (id : Nat) (status : Nat) : (Module.reqAck m id status).face = m.face := by
  unfold Module.reqAck
  split <;> simp only [face_simp, Module.failReq_face, Module.serve_face, Module.setReq_face]
theorem Module.moveAnswer_face (m : Module) (op : PoolOp) (pg : Nat) (status : Nat) (payload : Option (List Byte)) : (Module.moveAnswer m op pg status payload).face = m.face := by
  unfold Module.moveAnswer
  repeat' first
    | with_reducible rfl
    | (simp only [face_simp, Module.abandonMove_face, Module.setPage_face, Module.toHost_face]; done)
    | (with_reducible refine (foldl_face _ _ _ (fun m x => ?_)).trans ?_)
    | (apply Module.poolTile_on; assumption)
    | (with_reducible refine (getD_face ?_).trans ?_; (with_reducible intro _ _))
    | split
    | dsimp only
    | simp only [face_simp, Module.abandonMove_face, Module.setPage_face, Module.toHost_face]
theorem Module.failTransfer_face (m : Module) (op : PoolOp) (code : Nat) : (Module.failTransfer m op code).face = m.face := by
  unfold Module.failTransfer
  repeat' split
  all_goals simp only [face_simp, Module.failReq_face, Module.abandonMove_face]
theorem Module.bufferTile_face' {m : Module} {op : PoolOp} {payload : List Byte} {mm : Module} (h : Module.bufferTile m op payload = some mm) : mm.face = m.face := by
  unfold Module.bufferTile at h
  repeat' first
    | (injection h with h; subst h; with_reducible rfl)
    | (injection h with h; subst h; simp only [face_simp]; done)
    | contradiction
    | split at h
    | dsimp only at h
    | (injection h with h; subst h)
    | (simp only [Option.map_eq_some_iff] at h; obtain ⟨_, h, rfl⟩ := h)
    | simp only [face_simp]
    | (with_reducible refine (foldl_face _ _ _ (fun m x => ?_)).trans ?_)
    | (apply Module.poolTile_on; assumption)
theorem Module.bufferTile_on {m : Module} {op : PoolOp} {payload : List Byte} {mm : Module} {qq : Face} (h : Module.bufferTile m op payload = some mm) (e : m.face = qq) : mm.face = qq :=
  (Module.bufferTile_face' h).trans e
theorem Module.freeStage_face (m : Module) (p : Nat) (key : Nat) : (Module.freeStage m p key).face = m.face := by
  simp only [Module.freeStage, face_simp, Module.setFlow_face]
theorem Module.feederRead_face (m : Module) (key die addr n : Nat) : (Module.feederRead m key die addr n).face = m.face := by
  unfold Module.feederRead
  split
  · rename_i h; exact Module.reach_onW h rfl
  · rename_i h; exact Module.reach_onF h rfl
  · rename_i h
    split
    · exact Module.reach_onH h rfl
    · exact Module.reach_onH h rfl
theorem Module.readUnit_face (m : Module) (p : Nat) (w : WinPull) (u : Nat) : (Module.readUnit m p w u).face = m.face := by
  unfold Module.readUnit
  extract_lets f
  split
  · exact Module.feederRead_face ..
  · split
    · split <;> rfl
    · split
      · rfl
      · split
        · exact Module.feederRead_face ..
        · rfl
theorem Module.readUnit_onB {m : Module} {p : Nat} {w : WinPull} {u : Nat} {bs : List Byte} {mm : Module} {qq : Face} (h : Module.readUnit m p w u = .bytes mm bs) (e : m.face = qq) : mm.face = qq := by
  have := Module.readUnit_face m p w u; rw [h] at this; exact this.trans e
theorem Module.readUnit_onW {m : Module} {p : Nat} {w : WinPull} {u : Nat} {mm : Module} {qq : Face} (h : Module.readUnit m p w u = .wait mm) (e : m.face = qq) : mm.face = qq := by
  have := Module.readUnit_face m p w u; rw [h] at this; exact this.trans e
theorem Module.readUnit_onF {m : Module} {p : Nat} {w : WinPull} {u : Nat} {a b c : Nat} {mm : Module} {qq : Face} (h : Module.readUnit m p w u = .bad mm a b c) (e : m.face = qq) : mm.face = qq := by
  have := Module.readUnit_face m p w u; rw [h] at this; exact this.trans e
theorem Module.noteServed_face (m : Module) (w : WinPull) (n : Nat) : (Module.noteServed m w n).face = m.face := by
  simp only [Module.noteServed, face_simp, Module.setFlow_face]
theorem Module.sendPull_face (m : Module) (p : Nat) (key : Nat) (x : Pull) : (Module.sendPull m p key x).face = m.face :=
  Module.sendPsp_face ..
theorem Module.newPull_face (m : Module) (p : Nat) (key : Nat) (x : Pull) : (Module.newPull m p key x).face = m.face := by
  simp only [Module.newPull, Module.setFlow_face, Module.sendPull_face]
theorem Module.headPull_face (m : Module) (p : Nat) (w : WinPull) : (Module.headPull m p w).1.face = m.face := by
  simp only [Module.headPull]
  repeat' split
  all_goals simp only [face_simp, Module.newPull_face, Module.modPart_face]
theorem Module.headPull_face' {m : Module} {p : Nat} {w : WinPull} {mm : Module} {yy} (h : Module.headPull m p w = (mm, yy)) : mm.face = m.face := by
  have := Module.headPull_face m p w; rw [h] at this; exact this
theorem Module.headPull_on {m : Module} {p : Nat} {w : WinPull} {mm : Module} {yy} {qq : Face} (h : Module.headPull m p w = (mm, yy)) (e : m.face = qq) : mm.face = qq :=
  (Module.headPull_face' h).trans e
theorem Module.setWinPull_face (m : Module) (w : WinPull) : (Module.setWinPull m w).face = m.face := by
  simp only [Module.setWinPull, face_simp]
theorem Module.dropWinPull_face (m : Module) (w : WinPull) : (Module.dropWinPull m w).face = m.face := by
  simp only [Module.dropWinPull, face_simp]
theorem Module.feedMember_face (m : Module) (p : Nat) (key : Nat) (member : Nat) (fuel : Nat) : (Module.feedMember m p key member fuel).face = m.face := by
  induction fuel generalizing m p key member with
  | zero => simp only [Module.feedMember]
  | succ n ih =>
  simp only [Module.feedMember]
  repeat' first
    | with_reducible rfl
    | (simp only [face_simp, Module.headPull_face, Module.setWinPull_face, Module.dropWinPull_face, Module.noteServed_face, Module.abortTask_face, Module.ringPacket_face, ih]; done)
    | (with_reducible refine (foldl_face _ _ _ (fun m x => ?_)).trans ?_)
    | (apply Module.headPull_on; assumption)
    | (apply Module.readUnit_onB; assumption)
    | (apply Module.readUnit_onW; assumption)
    | (apply Module.readUnit_onF; assumption)
    | (with_reducible refine (getD_face ?_).trans ?_; (with_reducible intro _ _))
    | split
    | dsimp only
    | simp only [face_simp, Module.headPull_face, Module.setWinPull_face, Module.dropWinPull_face, Module.noteServed_face, Module.abortTask_face, Module.ringPacket_face, ih]
theorem Module.feed_face (m : Module) (p : Nat) (key : Nat) (feeder : Nat) : (Module.feed m p key feeder).face = m.face := by
  unfold Module.feed
  repeat' first
    | with_reducible rfl
    | (simp only [face_simp, Module.freeStage_face, Module.feedMember_face]; done)
    | (with_reducible refine (foldl_face _ _ _ (fun m x => ?_)).trans ?_)
    | (with_reducible refine (getD_face ?_).trans ?_; (with_reducible intro _ _))
    | split
    | dsimp only
    | simp only [face_simp, Module.freeStage_face, Module.feedMember_face]
theorem Module.feedAll_face (m : Module) (p : Nat) : (Module.feedAll m p).face = m.face := by
  unfold Module.feedAll
  repeat' first
    | with_reducible rfl
    | (simp only [face_simp, Module.feed_face]; done)
    | (with_reducible refine (foldl_face _ _ _ (fun m x => ?_)).trans ?_)
    | (with_reducible refine (getD_face ?_).trans ?_; (with_reducible intro _ _))
    | split
    | dsimp only
    | simp only [face_simp, Module.feed_face]
theorem Module.sendTile_face (m : Module) (p : Nat) (key : Nat) (c : Child) (sk : Nat) (u : Nat) : (Module.sendTile m p key c sk u).face = m.face := by
  simp only [Module.sendTile, Module.nextPspSeq_face, Module.nextMsg_face, Module.sendChunk_face]
theorem Module.serveChild_face (m : Module) (p : Nat) (key : Nat) (mac : Nat) (fuel : Nat) : (Module.serveChild m p key mac fuel).face = m.face := by
  induction fuel generalizing m p key mac with
  | zero => simp only [Module.serveChild]
  | succ n ih =>
  simp only [Module.serveChild]
  repeat' first
    | with_reducible rfl
    | (simp only [face_simp, Module.setFlow_face, Module.abortTask_face, Module.sendTile_face, ih]; done)
    | (with_reducible refine (foldl_face _ _ _ (fun m x => ?_)).trans ?_)
    | (apply Module.reach_onH; assumption)
    | (apply Module.reach_onW; assumption)
    | (apply Module.reach_onF; assumption)
    | (with_reducible refine (getD_face ?_).trans ?_; (with_reducible intro _ _))
    | split
    | dsimp only
    | simp only [face_simp, Module.setFlow_face, Module.abortTask_face, Module.sendTile_face, ih]
theorem Module.serveChildren_face (m : Module) (p : Nat) (key : Nat) : (Module.serveChildren m p key).face = m.face := by
  unfold Module.serveChildren
  repeat' first
    | with_reducible rfl
    | (simp only [face_simp, Module.serveChild_face]; done)
    | (with_reducible refine (foldl_face _ _ _ (fun m x => ?_)).trans ?_)
    | (with_reducible refine (getD_face ?_).trans ?_; (with_reducible intro _ _))
    | split
    | dsimp only
    | simp only [face_simp, Module.serveChild_face]
theorem Module.sendStatus_face (m : Module) (port : Nat) (mac : Nat) (stream : Nat) (src : Nat) (sect : Nat) (unit : Nat) (count : Nat) (status : Nat) : (Module.sendStatus m port mac stream src sect unit count status).face = m.face :=
  Module.sendPsp_face ..
theorem Module.pullFromChild_face (m : Module) (key : Nat) (mac : Nat) (src : Nat) (sect : Nat) (unit : Nat) (count : Nat) (acked : Nat) : (Module.pullFromChild m key mac src sect unit count acked).face = m.face := by
  simp only [Module.pullFromChild, face_simp, Module.sendStatus_face, Module.freeStage_face, Module.setFlow_face, Module.serveChild_face]
theorem doStagePullIssue_face (p : Nat) (i : Nat) (sect : Nat) (m : Module) : (doStagePullIssue p i sect m).face = m.face := by
  simp only [doStagePullIssue]
  repeat' split
  all_goals simp only [face_simp, Module.setFlow_face, Module.newPull_face]
theorem Module.badPsp_face (m : Module) : (Module.badPsp m).face = m.face := by
  simp only [Module.badPsp, face_simp]
theorem Module.unknownStream_face (m : Module) : (Module.unknownStream m).face = m.face := by
  simp only [Module.unknownStream, face_simp]
theorem Module.bypassTile_face (m : Module) (key : Nat) (mem : Nat) (slot : Nat) (t : Nat) (bs : List Byte) : (Module.bypassTile m key mem slot t bs).face = m.face := by
  simp only [Module.bypassTile, face_simp]
theorem Module.stageTile_face (m : Module) (p key sk t : Nat) (payload : List Byte) : (Module.stageTile m p key sk t payload).1.face = m.face := by
  have hp (pg i len : Nat) (b c : List Byte) : ∀ m : Module, (if len = tileBytes then m.putSlot pg i b true else m.putSlot pg i c false).face = m.face := by
    intro m
    split <;> simp only [Module.putSlot_face]
  unfold Module.stageTile
  dsimp only
  split
  · exact Module.abortTask_face ..
  · split
    · rename_i h; exact Module.storeWith_on (fun m => hp _ _ _ _ _ m) h rfl
    · rename_i h
      dsimp only
      rw [Module.setFlow_face]
      exact Module.storeWith_on (fun m => hp _ _ _ _ _ m) h rfl
theorem Module.stageTile_on {m : Module} {p key sk t : Nat} {payload : List Byte} {mm : Module} {yy} {qq : Face} (h : Module.stageTile m p key sk t payload = (mm, yy)) (e : m.face = qq) : mm.face = qq := by
  have := Module.stageTile_face m p key sk t payload; rw [h] at this; exact this.trans e
theorem Module.closePulls_face (m : Module) (key : Nat) : (Module.closePulls m key).face = m.face :=
  Module.setFlow_face ..
theorem Module.dataTile_face (m : Module) (key src sect u : Nat) (payload : List Byte) :
    (Module.dataTile m key src sect u payload).1.face = m.face := by
  unfold Module.dataTile
  extract_lets p f loc held m1
  split
  · dsimp only
    split
    · rfl
    · exact Module.abortTask_face ..
  · extract_lets e
    split
    · exact Module.abortTask_face ..
    · extract_lets m2 toStage stored
      have h1 : m1.face = m.face := Module.setFlow_face ..
      have h2 : m2.face = m.face := by
        refine (foldl_face _ _ _ (fun m x => ?_)).trans h1
        split
        · exact Module.bypassTile_face ..
        · rfl
      have hs : stored.1.face = m.face := by
        cases ht : toStage with
        | none => simp only [stored, ht]; exact h2
        | some sk =>
          simp only [stored, ht]
          split
          · exact h2
          · exact (Module.stageTile_face ..).trans h2
      clear_value stored
      obtain ⟨n, b⟩ := stored
      cases b
      · exact hs
      · simp only [Module.feed_face, Module.serveChildren_face, Module.closePulls_face]
        exact hs
theorem Module.dataTile_on {m : Module} {key src sect u : Nat} {payload : List Byte} {mm : Module} {yy} {qq : Face}
    (h : Module.dataTile m key src sect u payload = (mm, yy)) (e : m.face = qq) : mm.face = qq := by
  have := Module.dataTile_face m key src sect u payload
  rw [h] at this
  exact this.trans e
theorem Module.dataChunk_face (m : Module) (key : Nat) (k : Chunk) : (Module.dataChunk m key k).1.face = m.face := by
  simp only [Module.dataChunk]
  repeat' split
  all_goals simp only [face_simp, Module.abortTask_face, Module.dataTile_face]
theorem Module.dataChunk_face' {m : Module} {key : Nat} {k : Chunk} {mm : Module} {yy} (h : Module.dataChunk m key k = (mm, yy)) : mm.face = m.face := by
  have := Module.dataChunk_face m key k; rw [h] at this; exact this
theorem Module.dataChunk_on {m : Module} {key : Nat} {k : Chunk} {mm : Module} {yy} {qq : Face} (h : Module.dataChunk m key k = (mm, yy)) (e : m.face = qq) : mm.face = qq :=
  (Module.dataChunk_face' h).trans e
theorem Module.statusForFlow_face (m : Module) (key : Nat) (h : Nat) : (Module.statusForFlow m key h).face = m.face := by
  simp only [Module.statusForFlow, face_simp, Module.abortTask_face]
theorem Module.flowResend_face (m : Module) (p : Nat) (i : Nat) (j : Nat) : (Module.flowResend m p i j).face = m.face := by
  simp only [Module.flowResend]
  repeat' split
  all_goals simp only [face_simp, Module.setFlow_face, Module.sendPull_face]
theorem doSourceTimeout_face (p : Nat) (i : Nat) (m : Module) : (doSourceTimeout p i m).face = m.face := by
  simp only [doSourceTimeout, face_simp, Module.abortTask_face]
theorem doReparent_face (p : Nat) (i : Nat) (m : Module) : (doReparent p i m).face = m.face := by
  unfold doReparent
  repeat' first
    | with_reducible rfl
    | (simp only [face_simp, Module.logEvent_face, Module.modPart_face, Module.setFlow_face, Module.sendPull_face]; done)
    | (with_reducible refine (foldl_face _ _ _ (fun m x => ?_)).trans ?_)
    | (with_reducible refine (getD_face ?_).trans ?_; (with_reducible intro _ _))
    | split
    | dsimp only
    | simp only [face_simp, Module.logEvent_face, Module.modPart_face, Module.setFlow_face, Module.sendPull_face]
theorem doChildSilent_face (p : Nat) (i : Nat) (c : Nat) (m : Module) : (doChildSilent p i c m).face = m.face := by
  simp only [doChildSilent]
  repeat' split
  all_goals simp only [face_simp, Module.setFlow_face]
theorem doAdoptHoldExpiry_face (p : Nat) (i : Nat) (c : Nat) (m : Module) : (doAdoptHoldExpiry p i c m).face = m.face := by
  simp only [doAdoptHoldExpiry]
  repeat' split
  all_goals simp only [face_simp, Module.freeStage_face, Module.setFlow_face]
theorem Module.cutPull_face (m : Module) (p : Nat) (w : WinPull) (x : Nat) : (Module.cutPull m p w x).face = m.face := by
  simp only [Module.cutPull, face_simp, Module.ringControl_face, Module.noteServed_face, Module.setFlow_face, Module.dropWinPull_face, Module.setWinPull_face]
theorem Module.missAtFeeder_face (m : Module) (p : Nat) (die : Nat) (key : Nat) (mem : Nat) (x : Nat) : (Module.missAtFeeder m p die key mem x).face = m.face := by
  simp only [Module.missAtFeeder]
  repeat' split
  all_goals simp only [face_simp, Module.feed_face, Module.cutPull_face, Module.setFlow_face, Module.ringControl_face]
theorem Module.queuePull_face (m : Module) (p : Nat) (y : WinPull) : (Module.queuePull m p y).face = m.face := by
  simp only [Module.queuePull]
  repeat' split
  all_goals simp only [face_simp, Module.setFlow_face, Module.feed_face, Module.cutPull_face]
theorem Module.pullAtFeeder_face (m : Module) (p : Nat) (die : Nat) (key : Nat) (mem : Nat) (x : Nat) : (Module.pullAtFeeder m p die key mem x).face = m.face := by
  unfold Module.pullAtFeeder
  split <;> simp only [face_simp, Module.feed_face, Module.setWinPull_face, Module.queuePull_face]
theorem Module.windowAtFeeder_face (m : Module) (p : Nat) (die : Nat) (key : Nat) (mem : Nat) (f : Flight) : (Module.windowAtFeeder m p die key mem f).face = m.face := by
  simp only [Module.windowAtFeeder, face_simp, Module.slip_face, Module.pullAtFeeder_face, Module.missAtFeeder_face]
theorem doEnable_face (src : Source) (q : Nat) (m : Module) : (doEnable src q m).face = m.face := by
  simp only [doEnable, face_simp, Module.setQueue_face]
theorem doDisable_face (src : Source) (q : Nat) (m : Module) : (doDisable src q m).face = m.face := by
  simp only [doDisable, face_simp, Module.setQueue_face]
theorem doQueSqTail_face (q : Nat) (v : Word) (m : Module) : (doQueSqTail q v m).face = m.face := by
  simp only [doQueSqTail, face_simp, Module.setQueue_face]
theorem doQueCqHead_face (q : Nat) (v : Word) (m : Module) : (doQueCqHead q v m).face = m.face := by
  simp only [doQueCqHead, face_simp, Module.setQueue_face]
theorem doSkip_face (y0 : Source) (q : Nat) (m : Module) : (doSkip y0 q m).face = m.face := by
  simp only [doSkip, face_simp, Module.setQueue_face]
theorem doRetry_face (y0 : Source) (q : Nat) (m : Module) : (doRetry y0 q m).face = m.face := by
  simp only [doRetry, face_simp, Module.setQueue_face]
theorem doTailWordPoll_face (q : Nat) (m : Module) : (doTailWordPoll q m).face = m.face := by
  simp only [doTailWordPoll, face_simp, Module.setQueue_face]
theorem doDescriptorEntry_face (q : Nat) (hostDesc : Bytes) (hostData : Bytes) (m : Module) : (doDescriptorEntry q hostDesc hostData m).face = m.face := by
  unfold doDescriptorEntry
  repeat' first
    | with_reducible rfl
    | (simp only [face_simp, Module.setQueue_face, Module.finish_face]; done)
    | (with_reducible refine (foldl_face _ _ _ (fun m x => ?_)).trans ?_)
    | (with_reducible refine (getD_face ?_).trans ?_; (with_reducible intro _ _))
    | split
    | dsimp only
    | simp only [face_simp, Module.setQueue_face, Module.finish_face]
theorem doFenceWaitSatisfied_face (q : Nat) (m : Module) : (doFenceWaitSatisfied q m).face = m.face := by
  simp only [doFenceWaitSatisfied, face_simp, Module.setQueue_face]
theorem Module.startCmd_face (m : Module) (q : Nat) : (Module.startCmd m q).face = m.face :=
  Module.setQueue_face ..
theorem Module.badStart_face (m : Module) (q : Nat) : (Module.badStart m q).face = m.face :=
  Module.finish_face ..
theorem Module.endAtStart_face (m : Module) (q : Nat) (info : Nat) : (Module.endAtStart m q info).face = m.face :=
  Module.finish_face ..
theorem doQueueNop_face (q : Nat) (m : Module) : (doQueueNop q m).face = m.face := by
  simp only [doQueueNop, face_simp, Module.endAtStart_face]
theorem doPartDrain_face (q : Nat) (m : Module) : (doPartDrain q m).face = m.face := by
  simp only [doPartDrain, face_simp, Module.badStart_face, Module.modPart_face, Module.startCmd_face]
theorem Module.drainsOver_face (m : Module) : (Module.drainsOver m).face = m.face := by
  unfold Module.drainsOver
  repeat' first
    | with_reducible rfl
    | (simp only [face_simp, Module.completeAll_face, Module.modPart_face]; done)
    | (with_reducible refine (foldl_face _ _ _ (fun m x => ?_)).trans ?_)
    | (with_reducible refine (getD_face ?_).trans ?_; (with_reducible intro _ _))
    | split
    | dsimp only
    | simp only [face_simp, Module.completeAll_face, Module.modPart_face]
theorem doPartUnload_face (q : Nat) (m : Module) : (doPartUnload q m).face = m.face := by
  simp only [doPartUnload, face_simp, Module.badStart_face, Module.offPart_face, Module.endAtStart_face]
theorem Module.copyFreed_face (m : Module) (q : Nat) : (Module.copyFreed m q).face = m.face := by
  simp only [Module.copyFreed, face_simp]
theorem Module.endCopy_face (m : Module) (q : Nat) (code : Nat) : (Module.endCopy m q code).face = m.face := by
  simp only [Module.endCopy, Module.complete_face, Module.copyFreed_face]
theorem Module.startCopy_face (m : Module) (q : Nat) (op : Nat) (failedToo : Bool) : (Module.startCopy m q op failedToo).face = m.face := by
  simp only [Module.startCopy, face_simp, Module.badStart_face, Module.finish_face, Module.startCmd_face]
theorem Module.copyDone_face (m : Module) (q : Nat) : (Module.copyDone m q).face = m.face := by
  simp only [Module.copyDone, face_simp, Module.endCopy_face]
theorem Module.copyMoved_face (m : Module) (q : Nat) (n : Nat) (piece : List CopyPiece) : (Module.copyMoved m q n piece).face = m.face := by
  simp only [Module.copyMoved, Module.copyDone_face, Module.setQueue_face]
theorem doCopyIn_face (q : Nat) (host : Bytes) (m : Module) : (doCopyIn q host m).face = m.face := by
  unfold doCopyIn
  repeat' first
    | with_reducible rfl
    | (simp only [face_simp, Module.startCopy_face, Module.endCopy_face, Module.store_face, Module.copyMoved_face]; done)
    | (with_reducible refine (foldl_face _ _ _ (fun m x => ?_)).trans ?_)
    | (apply Module.fetchTiles_on; assumption)
    | (apply Module.store_on; assumption)
    | (with_reducible refine (getD_face ?_).trans ?_; (with_reducible intro _ _))
    | split
    | dsimp only
    | simp only [face_simp, Module.startCopy_face, Module.endCopy_face, Module.store_face, Module.copyMoved_face]
theorem doCopyOut_face (q : Nat) (m : Module) : (doCopyOut q m).face = m.face := by
  unfold doCopyOut
  repeat' first
    | with_reducible rfl
    | (simp only [face_simp, Module.startCopy_face, Module.endCopy_face, Module.t1Unc_face, Module.emit_face, Module.readT1_face, Module.copyMoved_face]; done)
    | (with_reducible refine (foldl_face _ _ _ (fun m x => ?_)).trans ?_)
    | (apply Module.askPool_on; assumption)
    | (with_reducible refine (getD_face ?_).trans ?_; (with_reducible intro _ _))
    | split
    | dsimp only
    | simp only [face_simp, Module.startCopy_face, Module.endCopy_face, Module.t1Unc_face, Module.emit_face, Module.readT1_face, Module.copyMoved_face]
theorem Module.pieceAck_face (m : Module) (q : Nat) (pos : Nat) : (Module.pieceAck m q pos).face = m.face := by
  simp only [Module.pieceAck, Module.copyDone_face, Module.setQueue_face]
theorem Module.copyAcks_face (m : Module) : (Module.copyAcks m).face = m.face := by
  unfold Module.copyAcks
  repeat' first
    | with_reducible rfl
    | (simp only [face_simp, Module.pieceAck_face]; done)
    | (with_reducible refine (foldl_face _ _ _ (fun m x => ?_)).trans ?_)
    | (with_reducible refine (getD_face ?_).trans ?_; (with_reducible intro _ _))
    | split
    | dsimp only
    | simp only [face_simp, Module.pieceAck_face]
theorem Module.copyData_face (m : Module) (op : PoolOp) (q : Nat) (status : Nat) (payload : List Byte) : (Module.copyData m op q status payload).face = m.face := by
  unfold Module.copyData
  repeat' first
    | with_reducible rfl
    | (simp only [face_simp, Module.endCopy_face]; done)
    | (with_reducible refine (foldl_face _ _ _ (fun m x => ?_)).trans ?_)
    | (apply Module.bufferTile_on; assumption)
    | (with_reducible refine (getD_face ?_).trans ?_; (with_reducible intro _ _))
    | split
    | dsimp only
    | simp only [face_simp, Module.endCopy_face]
theorem Module.copyAck_face (m : Module) (q : Nat) (pos : Nat) (status : Nat) : (Module.copyAck m q pos status).face = m.face := by
  simp only [Module.copyAck, face_simp, Module.endCopy_face, Module.pieceAck_face]
theorem Module.setSession_face (m : Module) (p : Nat) (h : Nat) (s : Session) : (Module.setSession m p h s).face = m.face := by
  simp only [Module.setSession, face_simp]
theorem doSessionOpen_face (q : Nat) (m : Module) : (doSessionOpen q m).face = m.face := by
  simp only [doSessionOpen]
  repeat' split
  all_goals simp only [face_simp, Module.badStart_face, Module.finish_face, Module.endAtStart_face, Module.setSession_face]
theorem doSessionSubmit_face (q : Nat) (m : Module) : (doSessionSubmit q m).face = m.face := by
  simp only [doSessionSubmit]
  repeat' split
  all_goals simp only [face_simp, Module.badStart_face, Module.endAtStart_face, Module.setSession_face]
theorem Module.queueVector_face (m : Module) (q : Nat) : (Module.queueVector m q).face = m.face := by
  simp only [Module.queueVector, face_simp, Module.setQueue_face, Module.emit_face]
theorem doCompletionWrite_face (q : Nat) (m : Module) : (doCompletionWrite q m).face = m.face := by
  simp only [doCompletionWrite]
  repeat' split
  all_goals simp only [face_simp, Module.setQueue_face, Module.emit_face, Module.queueVector_face]
theorem doMsixDeferExpiry_face (q : Nat) (m : Module) : (doMsixDeferExpiry q m).face = m.face := by
  simp only [doMsixDeferExpiry, face_simp, Module.setQueue_face, Module.emit_face]
theorem Module.setModel_face (m : Module) (k : Nat) (x : Model) : (Module.setModel m k x).face = m.face := by
  simp only [Module.setModel, face_simp]
theorem doModelBind_face (src : Source) (p : Nat) (i : Nat) (v : BitVec 128) (m : Module) : (doModelBind src p i v m).face = m.face := by
  simp only [doModelBind, face_simp, Module.setModel_face]
theorem Module.launchBatch_face (m : Module) (k : Nat) (ss : List (Nat × Session)) (expired : Bool) : (Module.launchBatch m k ss expired).face = m.face := by
  unfold Module.launchBatch
  repeat' first
    | with_reducible rfl
    | (simp only [face_simp, Module.setSession_face, Module.ringPacket_face, Module.setModel_face]; done)
    | (with_reducible refine (foldl_face _ _ _ (fun m x => ?_)).trans ?_)
    | (with_reducible refine (getD_face ?_).trans ?_; (with_reducible intro _ _))
    | split
    | dsimp only
    | simp only [face_simp, Module.setSession_face, Module.ringPacket_face, Module.setModel_face]
theorem Module.visitModels_face (m : Module) : (Module.visitModels m).face = m.face := by
  simp only [Module.visitModels]
  repeat' split
  all_goals simp only [face_simp, Module.launchBatch_face]
theorem Module.visit_face (m : Module) : (Module.visit m).face = m.face := by
  simp only [Module.visit, face_simp, Module.visitModels_face]
theorem Module.sessionEvent_face' {m : Module} {p : Nat} {h : Nat} {code : Nat} {next : Nat} {s : Session} {mm : Module} (h : Module.sessionEvent m p h code next s = some mm) : mm.face = m.face := by
  unfold Module.sessionEvent at h
  repeat' first
    | (injection h with h; subst h; with_reducible rfl)
    | (injection h with h; subst h; simp only [face_simp, Module.setQueue_face]; done)
    | contradiction
    | split at h
    | dsimp only at h
    | (injection h with h; subst h)
    | (simp only [Option.map_eq_some_iff] at h; obtain ⟨_, h, rfl⟩ := h)
    | simp only [face_simp, Module.setQueue_face]
    | (with_reducible refine (foldl_face _ _ _ (fun m x => ?_)).trans ?_)
theorem Module.sessionEvent_on {m : Module} {p : Nat} {h : Nat} {code : Nat} {next : Nat} {s : Session} {mm : Module} {qq : Face} (h : Module.sessionEvent m p h code next s = some mm) (e : m.face = qq) : mm.face = qq :=
  (Module.sessionEvent_face' h).trans e
theorem Module.ctxError_face (m : Module) (p h : Nat) : (Module.ctxError m p h).face = m.face := by
  unfold Module.ctxError
  repeat' first
    | with_reducible rfl
    | (simp only [face_simp, Module.abortTask_face, Module.setSession_face]; done)
    | (with_reducible refine (foldl_face _ _ _ (fun m x => ?_)).trans ?_)
    | (apply Module.sessionEvent_on; assumption)
    | (with_reducible refine (getD_face ?_).trans ?_; (with_reducible intro _ _))
    | split
    | dsimp only
    | simp only [face_simp, Module.abortTask_face, Module.setSession_face]
theorem doBatcherVisit_face (m : Module) : (doBatcherVisit m).face = m.face := Module.visit_face m
theorem doSessionClose_face (q : Nat) (m : Module) : (doSessionClose q m).face = m.face := by
  simp only [doSessionClose]
  repeat' split
  all_goals simp only [face_simp, Module.badStart_face, Module.visit_face, Module.endAtStart_face, Module.setSession_face]
theorem Module.takeEntries_face (m : Module) (p : Nat) (bs : List Byte) (hs : List Nat) (fuel : Nat) (j : Nat) : (Module.takeEntries m p bs hs fuel j).1.face = m.face := by
  induction fuel generalizing m p bs hs j with
  | zero => simp only [Module.takeEntries]
  | succ n ih =>
  simp only [Module.takeEntries]
  repeat' first
    | with_reducible rfl
    | (simp only [face_simp, Module.setSession_face, ih]; done)
    | (with_reducible refine (foldl_face _ _ _ (fun m x => ?_)).trans ?_)
    | (apply Module.sessionEvent_on; assumption)
    | (with_reducible refine (getD_face ?_).trans ?_; (with_reducible intro _ _))
    | split
    | dsimp only
    | simp only [face_simp, Module.setSession_face, ih]
theorem Module.takeEntries_face' {m : Module} {p : Nat} {bs : List Byte} {hs : List Nat} {fuel : Nat} {j : Nat} {mm : Module} {yy} (h : Module.takeEntries m p bs hs fuel j = (mm, yy)) : mm.face = m.face := by
  have := Module.takeEntries_face m p bs hs fuel j; rw [h] at this; exact this
theorem Module.takeEntries_on {m : Module} {p : Nat} {bs : List Byte} {hs : List Nat} {fuel : Nat} {j : Nat} {mm : Module} {yy} {qq : Face} (h : Module.takeEntries m p bs hs fuel j = (mm, yy)) (e : m.face = qq) : mm.face = qq :=
  (Module.takeEntries_face' h).trans e
theorem Module.takeResult_face (m : Module) (k : Nat) (bs : List Byte) (j : Nat) : (Module.takeResult m k bs j).face = m.face := by
  simp only [Module.takeResult]
  repeat' split
  all_goals simp only [face_simp, Module.takeEntries_face, Module.setModel_face, Module.ringCredit_face]
theorem Module.resultAtSvc_face (m : Module) (k : Nat) (f : Flight) : (Module.resultAtSvc m k f).face = m.face := by
  simp only [Module.resultAtSvc, face_simp, Module.abortTask_face, Module.takeResult_face]
theorem Module.dispatchCredit_face (m : Module) (k : Nat) (n : Nat) (route : Nat) : (Module.dispatchCredit m k n route).face = m.face := by
  simp only [Module.dispatchCredit, face_simp, Module.slip_face, Module.setModel_face, Module.visitModels_face]
theorem Module.normalEnd_face (m : Module) (p : Nat) : (Module.normalEnd m p).face = m.face := by
  simp only [Module.normalEnd]
  repeat' split
  all_goals simp only [face_simp, Module.endHerds_face, Module.endFlows_face, Module.mapCores_face, Module.endTask_face, Module.failTake_face]
theorem doTaskEnd_face (p : Nat) (sessions : List Nat) (owner : Bool) (m : Module) : (doTaskEnd p sessions owner m).face = m.face := by
  have h := foldl_face (fun m h => m.ctxError p h) sessions m (fun m h => Module.ctxError_face m p h)
  unfold doTaskEnd
  dsimp only
  split
  · exact (Module.abortTask_face ..).trans h
  · exact (Module.normalEnd_face ..).trans h
theorem Module.setRun_face (m : Module) (key : Nat) (r : HerdOp) : (Module.setRun m key r).face = m.face :=
  Module.setHerd_face ..
theorem Module.sendHerd_face (m : Module) (p : Nat) (i : Nat) (k : Nat) (j : Nat) (down : Bool) (c : Nat) (tile : List Byte × Nat) : (Module.sendHerd m p i k j down c tile).face = m.face := by
  simp only [Module.sendHerd]
  repeat' split
  all_goals simp only [face_simp, Module.sendChunk_face]
theorem Module.sendGrad_face (m : Module) (fk : Nat) (l : Nat) (bs : List Byte) : (Module.sendGrad m fk l bs).face = m.face := by
  simp only [Module.sendGrad, face_simp, Module.nextPspSeq_face, Module.nextMsg_face, Module.sendChunk_face, Module.setFlow_face]
theorem Module.drainGrads_face (m : Module) (fk : Nat) (l : Nat) (flush : Bool) (fuel : Nat) : (Module.drainGrads m fk l flush fuel).face = m.face := by
  induction fuel generalizing m fk l flush with
  | zero => simp only [Module.drainGrads]
  | succ n ih =>
  simp only [Module.drainGrads]
  repeat' first
    | with_reducible rfl
    | (simp only [face_simp, Module.sendGrad_face, Module.setFlow_face, ih]; done)
    | (with_reducible refine (foldl_face _ _ _ (fun m x => ?_)).trans ?_)
    | (with_reducible refine (getD_face ?_).trans ?_; (with_reducible intro _ _))
    | split
    | dsimp only
    | simp only [face_simp, Module.sendGrad_face, Module.setFlow_face, ih]
theorem Module.enterResult_face (m : Module) (p : Nat) (i : Nat) (c : Nat) (tile : List Byte × Nat) : (Module.enterResult m p i c tile).face = m.face := by
  simp only [Module.enterResult]
  repeat' split
  all_goals simp only [face_simp, Module.setFlow_face, Module.drainGrads_face, Module.setRun_face]
theorem Module.placeOwn_face (m : Module) (p : Nat) (i : Nat) (c : Nat) (tile : List Byte × Nat) : (Module.placeOwn m p i c tile).face = m.face := by
  simp only [Module.placeOwn]
  repeat' split
  all_goals simp only [face_simp, Module.enterResult_face, Module.setRun_face]
theorem Module.readSource_face' {m : Module} {p i c a : Nat} {mm : Module} (h : Module.readSource m p i c a = some mm) : mm.face = m.face := by
  have key : ∀ x : Module, some x = some mm → x.face = m.face → mm.face = m.face := fun x e hx => Option.some.inj e ▸ hx
  have step : ∀ (n : Nat) (die hk : Nat), (match m.reach (.herd hk) a n with
      | .wait m => some m
      | .fail m code sub detail => some (m.abortTask p code { Loc.ring die with sub := sub } detail)
      | .here m =>
        match m.load? a n with
        | none => some (m.abortTask p 0x0203 (.ring die))
        | some bs => some (m.placeOwn p i c (bs, 0))) = some mm → mm.face = m.face := by
    intro n die hk h
    split at h
    · rename_i hr; exact key _ h (Module.reach_onW hr rfl)
    · rename_i hr; exact key _ h ((Module.abortTask_face _ _ _ _ _ _).trans (Module.reach_onF hr rfl))
    · rename_i hr
      split at h
      · exact key _ h ((Module.abortTask_face _ _ _ _ _ _).trans (Module.reach_onH hr rfl))
      · exact key _ h ((Module.placeOwn_face ..).trans (Module.reach_onH hr rfl))
  unfold Module.readSource at h
  dsimp only at h
  by_cases hb : m.str.poolReads.any (fun q => q.owner = PoolOwner.herd (4096 * p + i)) = true
  · rw [if_pos hb] at h; contradiction
  · rw [if_neg hb] at h; exact step tileBytes _ _ h
theorem Module.readSource_on {m : Module} {p i c a : Nat} {mm : Module} {qq : Face} (h : Module.readSource m p i c a = some mm) (e : m.face = qq) : mm.face = qq :=
  (Module.readSource_face' h).trans e
theorem Module.ownStep_face' {m : Module} {p : Nat} {i : Nat} {mm : Module} (h : Module.ownStep m p i = some mm) : mm.face = m.face := by
  unfold Module.ownStep at h
  repeat' first
    | (injection h with h; subst h; with_reducible rfl)
    | (injection h with h; subst h; simp only [face_simp, Module.setFlow_face, Module.placeOwn_face]; done)
    | contradiction
    | split at h
    | dsimp only at h
    | (injection h with h; subst h)
    | (simp only [Option.map_eq_some_iff] at h; obtain ⟨_, h, rfl⟩ := h)
    | simp only [face_simp, Module.setFlow_face, Module.placeOwn_face]
    | (with_reducible refine (foldl_face _ _ _ (fun m x => ?_)).trans ?_)
    | (apply Module.readSource_on; assumption)
theorem Module.ownStep_on {m : Module} {p : Nat} {i : Nat} {mm : Module} {qq : Face} (h : Module.ownStep m p i = some mm) (e : m.face = qq) : mm.face = qq :=
  (Module.ownStep_face' h).trans e
theorem Module.reduceStep_face' {m : Module} {p : Nat} {i : Nat} {mm : Module} (h : Module.reduceStep m p i = some mm) : mm.face = m.face := by
  unfold Module.reduceStep at h
  repeat' first
    | (injection h with h; subst h; with_reducible rfl)
    | (injection h with h; subst h; simp only [face_simp, Module.enterResult_face, Module.setRun_face]; done)
    | contradiction
    | split at h
    | dsimp only at h
    | (injection h with h; subst h)
    | (simp only [Option.map_eq_some_iff] at h; obtain ⟨_, h, rfl⟩ := h)
    | simp only [face_simp, Module.enterResult_face, Module.setRun_face]
    | (with_reducible refine (foldl_face _ _ _ (fun m x => ?_)).trans ?_)
theorem Module.reduceStep_on {m : Module} {p : Nat} {i : Nat} {mm : Module} {qq : Face} (h : Module.reduceStep m p i = some mm) (e : m.face = qq) : mm.face = qq :=
  (Module.reduceStep_face' h).trans e
theorem Module.upStep_face' {m : Module} {p : Nat} {i : Nat} {mm : Module} (h : Module.upStep m p i = some mm) : mm.face = m.face := by
  unfold Module.upStep at h
  repeat' first
    | (injection h with h; subst h; with_reducible rfl)
    | (injection h with h; subst h; simp only [face_simp, Module.sendHerd_face, Module.setRun_face]; done)
    | contradiction
    | split at h
    | dsimp only at h
    | (injection h with h; subst h)
    | (simp only [Option.map_eq_some_iff] at h; obtain ⟨_, h, rfl⟩ := h)
    | simp only [face_simp, Module.sendHerd_face, Module.setRun_face]
    | (with_reducible refine (foldl_face _ _ _ (fun m x => ?_)).trans ?_)
theorem Module.upStep_on {m : Module} {p : Nat} {i : Nat} {mm : Module} {qq : Face} (h : Module.upStep m p i = some mm) (e : m.face = qq) : mm.face = qq :=
  (Module.upStep_face' h).trans e
theorem Module.downStep_face' {m : Module} {p : Nat} {i : Nat} {mm : Module} (h : Module.downStep m p i = some mm) : mm.face = m.face := by
  unfold Module.downStep at h
  repeat' first
    | (injection h with h; subst h; with_reducible rfl)
    | (injection h with h; subst h; simp only [face_simp, Module.sendHerd_face, Module.setRun_face]; done)
    | contradiction
    | split at h
    | dsimp only at h
    | (injection h with h; subst h)
    | (simp only [Option.map_eq_some_iff] at h; obtain ⟨_, h, rfl⟩ := h)
    | simp only [face_simp, Module.sendHerd_face, Module.setRun_face]
    | (with_reducible refine (foldl_face _ _ _ (fun m x => ?_)).trans ?_)
theorem Module.downStep_on {m : Module} {p : Nat} {i : Nat} {mm : Module} {qq : Face} (h : Module.downStep m p i = some mm) (e : m.face = qq) : mm.face = qq :=
  (Module.downStep_face' h).trans e
theorem Module.writeStep_face' {m : Module} {p : Nat} {i : Nat} {mm : Module} (h : Module.writeStep m p i = some mm) : mm.face = m.face := by
  unfold Module.writeStep at h
  repeat' first
    | (injection h with h; subst h; with_reducible rfl)
    | (injection h with h; subst h; simp only [face_simp, Module.abortTask_face, Module.store_face, Module.setRun_face]; done)
    | contradiction
    | split at h
    | dsimp only at h
    | (injection h with h; subst h)
    | (simp only [Option.map_eq_some_iff] at h; obtain ⟨_, h, rfl⟩ := h)
    | simp only [face_simp, Module.abortTask_face, Module.store_face, Module.setRun_face]
    | (with_reducible refine (foldl_face _ _ _ (fun m x => ?_)).trans ?_)
    | (apply Module.store_on; assumption)
theorem Module.writeStep_on {m : Module} {p : Nat} {i : Nat} {mm : Module} {qq : Face} (h : Module.writeStep m p i = some mm) (e : m.face = qq) : mm.face = qq :=
  (Module.writeStep_face' h).trans e
theorem Module.startOp_face (m : Module) (p : Nat) (i : Nat) (chunks : Nat) (src : Nat) (dst : Nat) (queue : Option Nat) (ret : Option (Nat × Nat)) : (Module.startOp m p i chunks src dst queue ret).face = m.face := by
  simp only [Module.startOp, Module.nextMsg_face, Module.setHerd_face]
theorem Module.endStep_face' {m : Module} {p : Nat} {i : Nat} {mm : Module} (h : Module.endStep m p i = some mm) : mm.face = m.face := by
  unfold Module.endStep at h
  repeat' first
    | (injection h with h; subst h; with_reducible rfl)
    | (injection h with h; subst h; simp only [face_simp, Module.setFlow_face, Module.startOp_face, Module.setHerd_face, Module.modPart_face, Module.complete_face]; done)
    | contradiction
    | split at h
    | dsimp only at h
    | (injection h with h; subst h)
    | (simp only [Option.map_eq_some_iff] at h; obtain ⟨_, h, rfl⟩ := h)
    | simp only [face_simp, Module.setFlow_face, Module.startOp_face, Module.setHerd_face, Module.modPart_face, Module.complete_face]
    | (with_reducible refine (foldl_face _ _ _ (fun m x => ?_)).trans ?_)
theorem Module.endStep_on {m : Module} {p : Nat} {i : Nat} {mm : Module} {qq : Face} (h : Module.endStep m p i = some mm) (e : m.face = qq) : mm.face = qq :=
  (Module.endStep_face' h).trans e
theorem Module.herdStep_face' {m : Module} {p : Nat} {i : Nat} {mm : Module} (h : Module.herdStep m p i = some mm) : mm.face = m.face := by
  unfold Module.herdStep at h
  split at h
  · contradiction
  · simp only [Option.orElse_eq_orElse, Option.orElse_eq_or, Option.or_eq_some_iff] at h
    rcases h with h | ⟨-, h | ⟨-, h | ⟨-, h | ⟨-, h | ⟨-, h⟩⟩⟩⟩⟩
    · exact Module.reduceStep_face' h
    · exact Module.upStep_face' h
    · exact Module.writeStep_face' h
    · exact Module.downStep_face' h
    · exact Module.ownStep_face' h
    · exact Module.endStep_face' h
theorem Module.herdStep_on {m : Module} {p : Nat} {i : Nat} {mm : Module} {qq : Face} (h : Module.herdStep m p i = some mm) (e : m.face = qq) : mm.face = qq :=
  (Module.herdStep_face' h).trans e
theorem Module.herdGo_face (m : Module) (p : Nat) (i : Nat) (fuel : Nat) : (Module.herdGo m p i fuel).face = m.face := by
  induction fuel generalizing m p i with
  | zero => simp only [Module.herdGo]
  | succ n ih =>
  simp only [Module.herdGo]
  repeat' first
    | with_reducible rfl
    | (simp only [face_simp, ih]; done)
    | (with_reducible refine (foldl_face _ _ _ (fun m x => ?_)).trans ?_)
    | (apply Module.herdStep_on; assumption)
    | (with_reducible refine (getD_face ?_).trans ?_; (with_reducible intro _ _))
    | split
    | dsimp only
    | simp only [face_simp, ih]
theorem Module.herdsGo_face (m : Module) (p : Nat) : (Module.herdsGo m p).face = m.face := by
  unfold Module.herdsGo
  repeat' first
    | with_reducible rfl
    | (simp only [face_simp, Module.herdGo_face]; done)
    | (with_reducible refine (foldl_face _ _ _ (fun m x => ?_)).trans ?_)
    | (with_reducible refine (getD_face ?_).trans ?_; (with_reducible intro _ _))
    | split
    | dsimp only
    | simp only [face_simp, Module.herdGo_face]
theorem Module.herdStored_face (m : Module) (key : Nat) (c : Nat) : (Module.herdStored m key c).face = m.face := by
  unfold Module.herdStored
  split <;> simp only [face_simp, Module.herdGo_face, Module.setRun_face]
theorem Module.herdsTick_face (m : Module) : (Module.herdsTick m).face = m.face := by
  unfold Module.herdsTick
  repeat' first
    | with_reducible rfl
    | (simp only [face_simp, Module.herdGo_face, Module.setHerd_face]; done)
    | (with_reducible refine (foldl_face _ _ _ (fun m x => ?_)).trans ?_)
    | (with_reducible refine (getD_face ?_).trans ?_; (with_reducible intro _ _))
    | split
    | dsimp only
    | simp only [face_simp, Module.herdGo_face, Module.setHerd_face]
theorem doHerdRun_face (q : Nat) (m : Module) : (doHerdRun q m).face = m.face := by
  simp only [doHerdRun, face_simp, Module.badStart_face, Module.startCmd_face, Module.setQueue_face, Module.herdGo_face, Module.startOp_face]
theorem Module.memberLost_face (m : Module) (p : Nat) (i : Nat) (k : Nat) (j : Nat) : (Module.memberLost m p i k j).face = m.face := by
  simp only [Module.memberLost, face_simp, Module.abortTask_face, Module.logEvent_face, Module.modPart_face, Module.sendHerdControl_face, Module.setHerd_face]
theorem Module.abortFrom_face (m : Module) (p : Nat) (i : Nat) (k : Nat) (j : Nat) (back : Option Nat) : (Module.abortFrom m p i k j back).face = m.face := by
  simp only [Module.abortFrom, face_simp, Module.modPart_face, Module.memberLost_face, Module.abortTask_face]
theorem Module.discard_face (m : Module) (port : Nat) : (Module.discard m port).face = m.face :=
  Module.setPort_face ..
theorem doHerdAbort_face (port : Nat) (mac : Nat) (msg : Bytes) (m : Module) : (doHerdAbort port mac msg m).face = m.face := by
  unfold doHerdAbort
  repeat' split
  all_goals simp only [face_simp, Module.discard_face, Module.abortFrom_face]
theorem doLost_face (port : Nat) (mac : Nat) (msg : Bytes) (m : Module) : (doLost port mac msg m).face = m.face := by
  unfold doLost
  repeat' split
  all_goals simp only [face_simp, Module.discard_face, Module.abortTask_face]
theorem doHerdDeadlineExpiry_face (p : Nat) (i : Nat) (k : Nat) (c : Nat) (m : Module) : (doHerdDeadlineExpiry p i k c m).face = m.face := by
  unfold doHerdDeadlineExpiry
  repeat' first
    | with_reducible rfl
    | (simp only [face_simp, Module.modPart_face, Module.setRun_face, Module.memberLost_face]; done)
    | (with_reducible refine (foldl_face _ _ _ (fun m x => ?_)).trans ?_)
    | (with_reducible refine (getD_face ?_).trans ?_; (with_reducible intro _ _))
    | split
    | dsimp only
    | simp only [face_simp, Module.modPart_face, Module.setRun_face, Module.memberLost_face]
theorem doResultDeadlineExpiry_face (p : Nat) (i : Nat) (c : Nat) (m : Module) : (doResultDeadlineExpiry p i c m).face = m.face := by
  simp only [doResultDeadlineExpiry]
  repeat' split
  all_goals simp only [face_simp, Module.modPart_face, Module.setRun_face, Module.abortTask_face]
theorem Module.herdChunk_face (m : Module) (k : Chunk) : (Module.herdChunk m k).1.face = m.face := by
  unfold Module.herdChunk
  repeat' first
    | with_reducible rfl
    | (simp only [face_simp, Module.discard_face, Module.sendHerdControl_face, Module.abortTask_face, Module.setRun_face, Module.herdGo_face, Module.enterResult_face]; done)
    | (with_reducible refine (foldl_face _ _ _ (fun m x => ?_)).trans ?_)
    | (with_reducible refine (getD_face ?_).trans ?_; (with_reducible intro _ _))
    | split
    | dsimp only
    | simp only [face_simp, Module.discard_face, Module.sendHerdControl_face, Module.abortTask_face, Module.setRun_face, Module.herdGo_face, Module.enterResult_face]
theorem Module.herdChunk_face' {m : Module} {k : Chunk} {mm : Module} {yy} (h : Module.herdChunk m k = (mm, yy)) : mm.face = m.face := by
  have := Module.herdChunk_face m k; rw [h] at this; exact this
theorem Module.herdChunk_on {m : Module} {k : Chunk} {mm : Module} {yy} {qq : Face} (h : Module.herdChunk m k = (mm, yy)) (e : m.face = qq) : mm.face = qq :=
  (Module.herdChunk_face' h).trans e
theorem Module.herdAcked_face (m : Module) (p : Nat) (i : Nat) (down : Bool) (c : Nat) : (Module.herdAcked m p i down c).face = m.face := by
  simp only [Module.herdAcked]
  repeat' split
  all_goals simp only [face_simp, Module.setRun_face, Module.herdGo_face]
theorem Module.gradBytes_face (m : Module) (fk : Nat) (l : Nat) (pos : Nat) (tag : Nat) (bs : List Byte) (fuel : Nat) : (Module.gradBytes m fk l pos tag bs fuel).face = m.face := by
  induction fuel generalizing m fk l pos tag bs with
  | zero => simp only [Module.gradBytes]
  | succ n ih =>
  simp only [Module.gradBytes]
  repeat' first
    | with_reducible rfl
    | (simp only [face_simp, Module.setFlow_face, ih]; done)
    | (with_reducible refine (foldl_face _ _ _ (fun m x => ?_)).trans ?_)
    | (with_reducible refine (getD_face ?_).trans ?_; (with_reducible intro _ _))
    | split
    | dsimp only
    | simp only [face_simp, Module.setFlow_face, ih]
theorem Module.gradAtDie_face (m : Module) (p : Nat) (die : Nat) (fk : Nat) (r : GradRoute) (f : Flight) : (Module.gradAtDie m p die fk r f).face = m.face := by
  simp only [Module.gradAtDie]
  repeat' split
  all_goals simp only [face_simp, Module.slip_face, Module.setFlow_face, Module.gradBytes_face, Module.ringCredit_face, Module.herdGo_face, Module.setHerd_face]
theorem doGradAck_face (y0 : Nat) (y1 : Nat) (msg : Bytes) (m : Module) : (doGradAck y0 y1 msg m).face = m.face := by
  simp only [doGradAck]
  repeat' split
  all_goals simp only [face_simp, Module.badPsp_face, Module.unknownStream_face, Module.abortTask_face, Module.herdGo_face, Module.setFlow_face]
theorem doGradAckTimeout_face (p : Nat) (i : Nat) (m : Module) : (doGradAckTimeout p i m).face = m.face := by
  simp only [doGradAckTimeout, face_simp, Module.abortTask_face]
theorem Module.cutNow_face (m : Module) (p : Nat) : (Module.cutNow m p).face = m.face := by
  simp only [Module.cutNow]
  repeat' split
  all_goals simp only [face_simp, Module.modPart_face, Module.askWakes_face]
theorem doKrfTake_face (q : Nat) (m : Module) : (doKrfTake q m).face = m.face := by
  simp only [doKrfTake, face_simp, Module.badStart_face, Module.modPart_face, Module.startCmd_face, Module.cutNow_face]
theorem doCut_face (p : Nat) (m : Module) : (doCut p m).face = m.face := by
  simp only [doCut]
  repeat' split
  all_goals simp only [face_simp, Module.cutNow_face]
theorem doQuietTimeout_face (p : Nat) (m : Module) : (doQuietTimeout p m).face = m.face := by
  simp only [doQuietTimeout]
  repeat' split
  all_goals simp only [face_simp, Module.failTake_face]
theorem Module.storeRange_face (m : Module) (o : PoolOwner) (addr : Nat) (fuel : Nat) (bs : List Byte) : (Module.storeRange m o addr fuel bs).1.face = m.face := by
  induction fuel generalizing m addr bs with
  | zero => cases bs <;> rfl
  | succ n ih =>
    cases bs with
    | nil => rfl
    | cons b t =>
      rw [Module.storeRange]
      · split
        · rfl
        · exact (ih _ _ _).trans (Module.store_face ..)
      · simp
theorem Module.storeRange_on {m : Module} {o : PoolOwner} {addr : Nat} {fuel : Nat} {bs : List Byte} {mm : Module} {yy} {qq : Face} (h : Module.storeRange m o addr fuel bs = (mm, yy)) (e : m.face = qq) : mm.face = qq := by
  have := Module.storeRange_face m o addr fuel bs; rw [h] at this; exact this.trans e
theorem Module.t0Event_face (m : Module) (c : Nat) (w : Nat) : (Module.t0Event m c w).face = m.face := by
  simp only [Module.t0Event, Module.logEvent_face, Module.t0Unc_face]
theorem Module.t1Event_face (m : Module) (pg : Nat) (stack : Nat) (row : Nat) : (Module.t1Event m pg stack row).face = m.face := by
  simp only [Module.t1Event, Module.logEvent_face, Module.t1Unc_face]
theorem Module.dumpFault_face' {m : Module} {map : List Byte} {mm : Module} (h : Module.dumpFault m map = some mm) : mm.face = m.face := by
  unfold Module.dumpFault at h
  simp only [Option.map_eq_some_iff] at h
  obtain ⟨a, h, rfl⟩ := h
  exact Module.t0Event_face ..
theorem Module.dumpFault_on {m : Module} {map : List Byte} {mm : Module} {qq : Face} (h : Module.dumpFault m map = some mm) (e : m.face = qq) : mm.face = qq :=
  (Module.dumpFault_face' h).trans e
theorem Module.dump_face (m : Module) (p : Nat) (map : List Byte) : (Module.dump m p map).1.face = m.face := by
  unfold Module.dump
  refine fold1_face (fun a e => ?_) _ _
  split
  · exact Module.storeRange_face ..
  · rfl
theorem Module.dump_on {m : Module} {p : Nat} {map : List Byte} {mm : Module} {yy} {qq : Face} (h : Module.dump m p map = (mm, yy)) (e : m.face = qq) : mm.face = qq := by
  have := Module.dump_face m p map; rw [h] at this; exact this.trans e
theorem Module.refreshTake_face (m : Module) (p : Nat) (g : Nat) : (Module.refreshTake m p g).face = m.face := by
  unfold Module.refreshTake
  split <;> simp only [face_simp, Module.modPart_face]
theorem Module.sendKerf_face (m : Module) (p : Nat) : (Module.sendKerf m p).face = m.face := by
  unfold Module.sendKerf
  repeat' first
    | with_reducible rfl
    | (simp only [face_simp, Module.failTake_face, Module.t1Event_face, Module.readT1_face, Module.setPage_face, Module.modPart_face, Module.herdsGo_face, Module.serveAll_face, Module.poolWrite_face]; done)
    | (with_reducible refine (foldl_face _ _ _ (fun m x => ?_)).trans ?_)
    | (apply Module.fetchTiles_on; assumption)
    | (with_reducible refine (getD_face ?_).trans ?_; (with_reducible intro _ _))
    | split
    | dsimp only
    | simp only [face_simp, Module.failTake_face, Module.t1Event_face, Module.readT1_face, Module.setPage_face, Module.modPart_face, Module.herdsGo_face, Module.serveAll_face, Module.poolWrite_face]
theorem Module.kerfData_face (m : Module) (op : PoolOp) (p : Nat) (status : Nat) (payload : List Byte) : (Module.kerfData m op p status payload).face = m.face := by
  unfold Module.kerfData
  repeat' first
    | with_reducible rfl
    | (simp only [face_simp, Module.failTake_face, Module.refreshTake_face, Module.sendKerf_face, Module.herdsGo_face, Module.serveAll_face]; done)
    | (with_reducible refine (foldl_face _ _ _ (fun m x => ?_)).trans ?_)
    | (apply Module.bufferTile_on; assumption)
    | (with_reducible refine (getD_face ?_).trans ?_; (with_reducible intro _ _))
    | split
    | dsimp only
    | simp only [face_simp, Module.failTake_face, Module.refreshTake_face, Module.sendKerf_face, Module.herdsGo_face, Module.serveAll_face]
theorem doDumpEnd_face (p : Nat) (m : Module) : (doDumpEnd p m).face = m.face := by
  unfold doDumpEnd
  repeat' first
    | with_reducible rfl
    | (simp only [face_simp, Module.failTake_face, Module.dump_face, Module.setPage_face, Module.modPart_face, Module.restClusters_face, Module.sendKerf_face, Module.serveAll_face, Module.feedAll_face]; done)
    | (with_reducible refine (foldl_face _ _ _ (fun m x => ?_)).trans ?_)
    | (apply Module.dumpFault_on; assumption)
    | (apply Module.dump_on; assumption)
    | (with_reducible refine (getD_face ?_).trans ?_; (with_reducible intro _ _))
    | split
    | dsimp only
    | simp only [face_simp, Module.failTake_face, Module.dump_face, Module.setPage_face, Module.modPart_face, Module.restClusters_face, Module.sendKerf_face, Module.serveAll_face, Module.feedAll_face]
theorem Module.commitKerf_face (m : Module) (p : Nat) (t : Take) : (Module.commitKerf m p t).face = m.face := by
  simp only [Module.commitKerf, Module.clearPending_face, Module.modPart_face, Module.complete_face]
theorem Module.kerfAck_face (m : Module) (op : PoolOp) (p : Nat) (status : Nat) : (Module.kerfAck m op p status).face = m.face := by
  unfold Module.kerfAck
  repeat' split
  all_goals simp only [face_simp, Module.failTake_face, Module.commitKerf_face, Module.sendKerf_face, Module.herdsGo_face, Module.serveAll_face, Module.modPart_face]
theorem Module.failRestore_face (m : Module) (p : Nat) (code : Nat) : (Module.failRestore m p code).face = m.face := by
  unfold Module.failRestore
  split <;> simp only [face_simp, Module.modPart_face, Module.logEvent_face, Module.complete_face]
theorem Module.readNext_face (m : Module) (p : Nat) : (Module.readNext m p).face = m.face := by
  unfold Module.readNext
  repeat' split
  all_goals simp only [face_simp, Module.failRestore_face, Module.poolRead_face]
theorem Module.setRestore_face (m : Module) (p : Nat) (r : Restore) : (Module.setRestore m p r).face = m.face :=
  Module.modPart_face ..
theorem Module.writeRun_face (m : Module) (p : Nat) (g : KRegion) (i ofs : Nat) (bs : List Byte) : (Module.writeRun m p g i ofs bs).1.face = m.face := by
  unfold Module.writeRun
  split
  · dsimp only
    split
    · exact Module.t1Event_face ..
    · exact Module.storeRange_face ..
  · dsimp only
    split
    · exact Module.t0Event_face ..
    · exact Module.modCore_face ..
theorem Module.writeTile_face (m : Module) (p : Nat) (r : Restore) (s : MShard) (t : Nat) : (Module.writeTile m p r s t).1.face = m.face := by
  unfold Module.writeTile
  refine fold1_face (fun a e => ?_) _ _
  obtain ⟨m, c⟩ := a
  cases c with
  | some c => rfl
  | none => exact (Module.modPart_face ..).trans (Module.writeRun_face ..)
theorem Module.putList_face (m : Module) (c : Nat) (a : Nat) (row : List Byte) : (Module.putList m c a row).face = m.face :=
  Module.modCore_face ..
theorem Module.listsExact_face (m : Module) (p : Nat) (rows : List (Nat × List Byte)) : (Module.listsExact m p rows).face = m.face := by
  unfold Module.listsExact
  repeat' first
    | with_reducible rfl
    | (simp only [face_simp, Module.putList_face]; done)
    | (with_reducible refine (foldl_face _ _ _ (fun m x => ?_)).trans ?_)
    | (with_reducible refine (getD_face ?_).trans ?_; (with_reducible intro _ _))
    | split
    | dsimp only
    | simp only [face_simp, Module.putList_face]
theorem Module.listsSliced_face (m : Module) (p : Nat) (rows : List (Nat × List Byte)) : (Module.listsSliced m p rows).face = m.face := by
  unfold Module.listsSliced
  repeat' first
    | with_reducible rfl
    | (simp only [face_simp, Module.putList_face, Module.modPart_face]; done)
    | (with_reducible refine (foldl_face _ _ _ (fun m x => ?_)).trans ?_)
    | (with_reducible refine (getD_face ?_).trans ?_; (with_reducible intro _ _))
    | split
    | dsimp only
    | simp only [face_simp, Module.putList_face, Module.modPart_face]
theorem Module.putFences_face (m : Module) (p : Nat) (row : List Byte) : (Module.putFences m p row).face = m.face := by
  unfold Module.putFences
  repeat' first
    | with_reducible rfl
    | (simp only [face_simp, Module.setFence_face]; done)
    | (with_reducible refine (foldl_face _ _ _ (fun m x => ?_)).trans ?_)
    | (with_reducible refine (getD_face ?_).trans ?_; (with_reducible intro _ _))
    | split
    | dsimp only
    | simp only [face_simp, Module.setFence_face]
theorem Module.endRestore_face (m : Module) (p : Nat) (r : Restore) : (Module.endRestore m p r).face = m.face := by
  unfold Module.endRestore
  repeat' first
    | with_reducible rfl
    | (simp only [face_simp, Module.failRestore_face, Module.modPart_face, Module.putFences_face, Module.setSession_face, Module.listsExact_face, Module.listsSliced_face, Module.complete_face]; done)
    | (with_reducible refine (foldl_face _ _ _ (fun m x => ?_)).trans ?_)
    | (with_reducible refine (getD_face ?_).trans ?_; (with_reducible intro _ _))
    | split
    | dsimp only
    | simp only [face_simp, Module.failRestore_face, Module.modPart_face, Module.putFences_face, Module.setSession_face, Module.listsExact_face, Module.listsSliced_face, Module.complete_face]
theorem Module.nextStage_face (m : Module) (p : Nat) (r : Restore) : (Module.nextStage m p r).face = m.face := by
  unfold Module.nextStage
  split <;> simp only [face_simp, Module.failRestore_face, Module.setRestore_face, Module.endRestore_face]
theorem Module.restoreGo_face (m : Module) (p : Nat) (fuel : Nat) : (Module.restoreGo m p fuel).face = m.face := by
  induction fuel generalizing m p with
  | zero => simp only [Module.restoreGo]
  | succ n ih =>
  simp only [Module.restoreGo]
  repeat' first
    | with_reducible rfl
    | (simp only [face_simp, Module.readNext_face, Module.nextStage_face, ih]; done)
    | (with_reducible refine (foldl_face _ _ _ (fun m x => ?_)).trans ?_)
    | (with_reducible refine (getD_face ?_).trans ?_; (with_reducible intro _ _))
    | split
    | dsimp only
    | simp only [face_simp, Module.readNext_face, Module.nextStage_face, ih]
theorem Module.restoreData_face (m : Module) (op : PoolOp) (p status : Nat) (payload : List Byte) : (Module.restoreData m op p status payload).face = m.face := by
  unfold Module.restoreData
  repeat' first
    | with_reducible rfl
    | exact Module.failRestore_face ..
    | dsimp only
    | (rename_i h
       have key := fold1_face (fun (b : Module × Option Nat) (e : MShard × Nat) => ?_) _ _ |>.symm.trans (congrArg (fun x => x.1.face) h)
       rw [Module.modPart_face, Module.setRestore_face] at key
       first
         | exact (Module.failRestore_face ..).trans key.symm
         | exact (Module.restoreGo_face ..).trans key.symm)
    | split
    | exact Module.writeTile_face ..
theorem Module.restoreAck_face (m : Module) (p : Nat) (status : Nat) : (Module.restoreAck m p status).face = m.face := by
  simp only [Module.restoreAck, face_simp, Module.failRestore_face, Module.restoreGo_face]
theorem Module.restoresTick_face (m : Module) : (Module.restoresTick m).face = m.face := by
  unfold Module.restoresTick
  repeat' first
    | with_reducible rfl
    | (simp only [face_simp, Module.restoreGo_face]; done)
    | (with_reducible refine (foldl_face _ _ _ (fun m x => ?_)).trans ?_)
    | (with_reducible refine (getD_face ?_).trans ?_; (with_reducible intro _ _))
    | split
    | dsimp only
    | simp only [face_simp, Module.restoreGo_face]
theorem doKrfRestore_face (q : Nat) (host : Bytes) (m : Module) : (doKrfRestore q host m).face = m.face := by
  simp only [doKrfRestore, face_simp, Module.badStart_face, Module.startCmd_face, Module.complete_face, Module.restoreGo_face, Module.modPart_face]
theorem Module.resumeTask_face (m : Module) (p : Nat) (q : Nat) : (Module.resumeTask m p q).face = m.face := by
  simp only [Module.resumeTask, face_simp, Module.modPart_face, Module.askWakes_face]
theorem Module.runTask_face (m : Module) (q : Nat) : (Module.runTask m q).face = m.face := by
  simp only [Module.runTask, face_simp, Module.resumeTask_face, Module.startCmd_face, Module.startTask_face]
theorem doPartStart_face (q : Nat) (m : Module) : (doPartStart q m).face = m.face := by
  simp only [doPartStart, face_simp, Module.badStart_face, Module.runTask_face]
theorem doTaskRun_face (q : Nat) (m : Module) : (doTaskRun q m).face = m.face := by
  simp only [doTaskRun, face_simp, Module.badStart_face, Module.runTask_face]
theorem JView.netBase_face (v : JView) (m : Module) : (JView.netBase v m).face = m.face := by
  unfold JView.netBase
  repeat' first
    | with_reducible rfl
    | (simp only [face_simp, Module.mapCores_face, Module.clearRoutes_face]; done)
    | (with_reducible refine (foldl_face _ _ _ (fun m x => ?_)).trans ?_)
    | (with_reducible refine (getD_face ?_).trans ?_; (with_reducible intro _ _))
    | split
    | dsimp only
    | simp only [face_simp, Module.mapCores_face, Module.clearRoutes_face]
theorem Module.claim_face' {m : Module} {p : Nat} {r : Nat} {mm : Module} (h : Module.claim m p r = some mm) : mm.face = m.face := by
  unfold Module.claim at h
  repeat' first
    | (injection h with h; subst h; with_reducible rfl)
    | (injection h with h; subst h; simp only [face_simp]; done)
    | contradiction
    | split at h
    | dsimp only at h
    | (injection h with h; subst h)
    | (simp only [Option.map_eq_some_iff] at h; obtain ⟨_, h, rfl⟩ := h)
    | simp only [face_simp]
    | (with_reducible refine (foldl_face _ _ _ (fun m x => ?_)).trans ?_)
theorem Module.claim_on {m : Module} {p : Nat} {r : Nat} {mm : Module} {qq : Face} (h : Module.claim m p r = some mm) (e : m.face = qq) : mm.face = qq :=
  (Module.claim_face' h).trans e
theorem Module.claims_face' {m : Module} {p : Nat} {rs : List Nat} {mm : Module} (h : Module.claims m p rs = some mm) : mm.face = m.face := by
  have none_ (rs : List Nat) : rs.foldl (fun m r => m.bind (fun m => Module.claim m p r)) none = none := by
    induction rs with
    | nil => rfl
    | cons r t ih => exact ih
  unfold Module.claims at h
  induction rs generalizing m with
  | nil => injection h with h; rw [h]
  | cons r t ih =>
    rw [List.foldl_cons, Option.bind_some] at h
    cases hc : m.claim p r with
    | none => rw [hc, none_] at h; contradiction
    | some n => rw [hc] at h; exact (ih h).trans (Module.claim_face' hc)
theorem Module.claims_on {m : Module} {p : Nat} {rs : List Nat} {mm : Module} {qq : Face} (h : Module.claims m p rs = some mm) (e : m.face = qq) : mm.face = qq :=
  (Module.claims_face' h).trans e
theorem Module.mergeSched_face' {m : Module} {p : Nat} {c : Nat} {slot : Nat} {w : Nat} {mm : Module} (h : Module.mergeSched m p c slot w = some mm) : mm.face = m.face := by
  unfold Module.mergeSched at h
  repeat' first
    | (injection h with h; subst h; with_reducible rfl)
    | (injection h with h; subst h; simp only [face_simp, Module.modCore_face]; done)
    | contradiction
    | split at h
    | dsimp only at h
    | (injection h with h; subst h)
    | (simp only [Option.map_eq_some_iff] at h; obtain ⟨_, h, rfl⟩ := h)
    | simp only [face_simp, Module.modCore_face]
    | (with_reducible refine (foldl_face _ _ _ (fun m x => ?_)).trans ?_)
    | (apply Module.claims_on; assumption)
theorem Module.mergeSched_on {m : Module} {p : Nat} {c : Nat} {slot : Nat} {w : Nat} {mm : Module} {qq : Face} (h : Module.mergeSched m p c slot w = some mm) (e : m.face = qq) : mm.face = qq :=
  (Module.mergeSched_face' h).trans e
theorem Module.mergeBind_face' {m : Module} {p c x : Nat} {mm : Module} (h : Module.mergeBind m p c x = some mm) : mm.face = m.face := by
  unfold Module.mergeBind at h
  split at h
  · contradiction
  · split at h
    · injection h with h; rw [h]
    · simp only [Option.map_eq_some_iff] at h
      obtain ⟨a, h, rfl⟩ := h
      simp only [Module.modCore_face]
      exact Module.claims_face' h
theorem Module.mergeRingSlot_face' {m : Module} {p : Nat} {n : Nat} {ch : Nat} {slot : Nat} {x : Nat} {mm : Module} (h : Module.mergeRingSlot m p n ch slot x = some mm) : mm.face = m.face := by
  unfold Module.mergeRingSlot at h
  repeat' first
    | (injection h with h; subst h; with_reducible rfl)
    | (injection h with h; subst h; simp only [face_simp]; done)
    | contradiction
    | split at h
    | dsimp only at h
    | (injection h with h; subst h)
    | (simp only [Option.map_eq_some_iff] at h; obtain ⟨_, h, rfl⟩ := h)
    | simp only [face_simp]
    | (with_reducible refine (foldl_face _ _ _ (fun m x => ?_)).trans ?_)
    | (apply Module.claims_on; assumption)
theorem Module.mergeRingSlot_on {m : Module} {p : Nat} {n : Nat} {ch : Nat} {slot : Nat} {x : Nat} {mm : Module} {qq : Face} (h : Module.mergeRingSlot m p n ch slot x = some mm) (e : m.face = qq) : mm.face = qq :=
  (Module.mergeRingSlot_face' h).trans e
theorem orBad_face {m : Module} {r : Option Module} {b : JBad} (h : ∀ n, r = some n → n.face = m.face) : (orBad m r b).1.face = m.face := by
  unfold orBad
  split
  · exact h _ rfl
  · rfl
theorem tryAll_face {α : Type} {f : Module → α → Module × Option JBad} (hf : ∀ m a, (f m a).1.face = m.face) (l : List α) (m : Module) :
    (tryAll f l m).1.face = m.face := by
  induction l generalizing m with
  | nil => rfl
  | cons a t ih =>
    have h := hf m a
    rw [tryAll]
    split
    · rename_i he; rw [he] at h; exact (ih _).trans h
    · exact h
theorem tryAll_on {α : Type} {f : Module → α → Module × Option JBad} (hf : ∀ m a, (f m a).1.face = m.face) {l : List α} {m mm : Module} {yy}
    {qq : Face} (h : tryAll f l m = (mm, yy)) (e : m.face = qq) : mm.face = qq := by
  have := tryAll_face hf l m
  rw [h] at this
  exact this.trans e
theorem Module.mergeSec_face (m : Module) (f : Nat) (s : JSec) : (Module.mergeSec m f s).1.face = m.face := by
  unfold Module.mergeSec
  dsimp only
  have hs (e : Nat → Nat) (w : Nat → JBad) (p c : Nat) : ∀ (m : Module) (a : Nat),
      (orBad m (m.mergeSched p c a (e a)) (w a)).1.face = m.face :=
    fun m a => orBad_face (fun _ h => Module.mergeSched_face' h)
  have hb (e : Nat → Nat) (w : Nat → JBad) (p c : Nat) : ∀ (m : Module) (a : Nat),
      (orBad m (m.mergeBind p c (e a)) (w a)).1.face = m.face :=
    fun m a => orBad_face (fun _ h => Module.mergeBind_face' h)
  split
  · split
    · rfl
    · split
      · rename_i h1
        have h1 := tryAll_on (fun m a => orBad_face (fun _ h => Module.mergeSched_face' h)) h1 rfl
        split
        · rename_i h2
          exact tryAll_on (fun m a => orBad_face (fun _ h => Module.mergeBind_face' h)) h2 h1
        · exact (tryAll_face (fun m a => orBad_face (fun _ h => Module.mergeBind_face' h)) _ _).trans h1
      · exact tryAll_face (fun m a => orBad_face (fun _ h => Module.mergeSched_face' h)) _ _
  · split
    · split
      · rfl
      · exact tryAll_face (fun m a => orBad_face (fun _ h => Module.mergeRingSlot_face' h)) _ _
    · split
      · refine tryAll_face (fun m a => ?_) _ _
        split
        · exact (orBad_face (fun _ h => Module.claims_face' h)).trans (Module.modCore_face ..)
        · rfl
      · rfl
theorem JView.merge_face (v : JView) (m : Module) : (JView.merge v m).1.face = m.face := by
  unfold JView.merge
  exact (tryAll_face (fun m a => Module.mergeSec_face ..) _ _).trans (JView.netBase_face ..)
theorem JView.merge_on {v : JView} {m : Module} {mm : Module} {yy} {qq : Face} (h : JView.merge v m = (mm, yy)) (e : m.face = qq) : mm.face = qq := by
  have := JView.merge_face v m
  rw [h] at this
  exact this.trans e
theorem Module.atSnapshot_face (m : Module) : (Module.atSnapshot m).face = m.face := by
  simp only [Module.atSnapshot, face_simp]
theorem Module.refuse_face (m : Module) (b : JBad) (id : Nat) : (Module.refuse m b id).face = m.face :=
  Module.logRec_face ..
theorem Module.endLoad_face (m : Module) : (Module.endLoad m).face = m.face := by
  simp only [Module.endLoad, face_simp]
theorem Module.refuseLoad_face (m : Module) (b : JBad) (id : Nat) : (Module.refuseLoad m b id).face = m.face := by
  simp only [Module.refuseLoad, Module.refuse_face, Module.endLoad_face]
theorem doStart_face (src : Source) (m : Module) : (doStart src m).face = m.face := by
  unfold doStart
  repeat' split
  all_goals simp only [face_simp, Module.refuse_face]
theorem Module.beginChecking_face (m : Module) (jig : List Byte) : (Module.beginChecking m jig).face = m.face := by
  simp only [Module.beginChecking, face_simp]
theorem doStagingComplete_face (bytes : Bytes) (m : Module) : (doStagingComplete bytes m).face = m.face := by
  simp only [doStagingComplete, face_simp, Module.refuseLoad_face, Module.beginChecking_face]
theorem Module.darkClusters_face (m : Module) (p : Nat) : (Module.darkClusters m p).face = m.face := by
  simp only [Module.darkClusters, face_simp]
theorem Module.askClusters_face (m : Module) (p : Nat) : (Module.askClusters m p).face = m.face := by
  unfold Module.askClusters
  repeat' first
    | with_reducible rfl
    | (simp only [face_simp, Module.setCluster_face]; done)
    | (with_reducible refine (foldl_face _ _ _ (fun m x => ?_)).trans ?_)
    | (with_reducible refine (getD_face ?_).trans ?_; (with_reducible intro _ _))
    | split
    | dsimp only
    | simp only [face_simp, Module.setCluster_face]
theorem Module.dropRings_face (m : Module) (p : Nat) : (Module.dropRings m p).face = m.face := by
  simp only [Module.dropRings, face_simp]
theorem Module.dropTables_face (m : Module) (p : Nat) : (Module.dropTables m p).face = m.face := by
  simp only [Module.dropTables, face_simp]
theorem JView.accept_face (v : JView) (m : Module) : (JView.accept v m).face = m.face := by
  unfold JView.accept
  repeat' first
    | with_reducible rfl
    | (simp only [face_simp, Module.offPart_face, JView.netBase_face, Module.darkClusters_face, Module.dropTables_face, Module.dropRings_face, Module.deleteObjects_face, Module.askClusters_face, Module.modPart_face]; done)
    | (with_reducible refine (foldl_face _ _ _ (fun m x => ?_)).trans ?_)
    | (with_reducible refine (getD_face ?_).trans ?_; (with_reducible intro _ _))
    | split
    | dsimp only
    | simp only [face_simp, Module.offPart_face, JView.netBase_face, Module.darkClusters_face, Module.dropTables_face, Module.dropRings_face, Module.deleteObjects_face, Module.askClusters_face, Module.modPart_face]
theorem doCheckingComplete_face (m : Module) : (doCheckingComplete m).face = m.face := by
  simp only [doCheckingComplete]
  repeat' split
  all_goals simp only [face_simp, Module.refuseLoad_face, JView.accept_face]
theorem JSec.writeWindows_face (s : JSec) (m : Module) : (JSec.writeWindows s m).face = m.face := by
  unfold JSec.writeWindows
  repeat' first
    | with_reducible rfl
    | (simp only [face_simp, Module.modCore_face]; done)
    | (with_reducible refine (foldl_face _ _ _ (fun m x => ?_)).trans ?_)
    | (with_reducible refine (getD_face ?_).trans ?_; (with_reducible intro _ _))
    | split
    | dsimp only
    | simp only [face_simp, Module.modCore_face]
theorem JSec.writeInto_face (s : JSec) (m : Module) : (JSec.writeInto s m).face = m.face := by
  unfold JSec.writeInto
  repeat' split
  all_goals simp only [face_simp, Module.modPart_face, Module.modCore_face, JSec.writeWindows_face]
theorem doWritingComplete_face (m : Module) : (doWritingComplete m).face = m.face := by
  unfold doWritingComplete
  repeat' first
    | with_reducible rfl
    | (simp only [face_simp, Module.modPart_face, Module.mapCores_face, JView.merge_face, JSec.writeInto_face]; done)
    | (with_reducible refine (foldl_face _ _ _ (fun m x => ?_)).trans ?_)
    | (apply JView.merge_on; assumption)
    | (with_reducible refine (getD_face ?_).trans ?_; (with_reducible intro _ _))
    | split
    | dsimp only
    | simp only [face_simp, Module.modPart_face, Module.mapCores_face, JView.merge_face, JSec.writeInto_face]
theorem Module.freshPart_face (m : Module) (p : Nat) : (Module.freshPart m p).face = m.face := by
  simp only [Module.freshPart, face_simp]
theorem JView.settings_face (v : JView) (m : Module) : (JView.settings v m).face = m.face := by
  simp only [JView.settings, face_simp]
theorem doPartitionReady_face (m : Module) : (doPartitionReady m).face = m.face := by
  unfold doPartitionReady
  repeat' first
    | with_reducible rfl
    | (simp only [face_simp, JView.settings_face, Module.freshPart_face, Module.modPart_face, Module.restClusters_face, Module.endLoad_face]; done)
    | (with_reducible refine (foldl_face _ _ _ (fun m x => ?_)).trans ?_)
    | (with_reducible refine (getD_face ?_).trans ?_; (with_reducible intro _ _))
    | split
    | dsimp only
    | simp only [face_simp, JView.settings_face, Module.freshPart_face, Module.modPart_face, Module.restClusters_face, Module.endLoad_face]
theorem Module.failLoading_face (m : Module) (code : Nat) : (Module.failLoading m code).face = m.face := by
  unfold Module.failLoading
  repeat' first
    | with_reducible rfl
    | (simp only [face_simp, Module.failPart_face]; done)
    | (with_reducible refine (foldl_face _ _ _ (fun m x => ?_)).trans ?_)
    | (with_reducible refine (getD_face ?_).trans ?_; (with_reducible intro _ _))
    | split
    | dsimp only
    | simp only [face_simp, Module.failPart_face]
theorem Module.abandonLoad_face (m : Module) (code : Nat) : (Module.abandonLoad m code).face = m.face := by
  simp only [Module.abandonLoad, face_simp, Module.endLoad_face, Module.failLoading_face]
theorem Module.freezeLoad_face (m : Module) : (Module.freezeLoad m).face = m.face := by
  unfold Module.freezeLoad
  split <;> simp only [face_simp, Module.refuseLoad_face, Module.abandonLoad_face]
theorem Module.stagedError_face (m : Module) : (Module.stagedError m).face = m.face := by
  unfold Module.stagedError
  split <;> simp only [face_simp, Module.abandonLoad_face]
theorem doDrainLimitExpiry_face (p : Nat) (m : Module) : (doDrainLimitExpiry p m).face = m.face := by
  simp only [doDrainLimitExpiry, face_simp, Module.abortTask_face]
theorem Module.sendLaunchTile_face (m : Module) (stream : Nat) (mac : Nat) (u : Nat) (bs : List Byte) : (Module.sendLaunchTile m stream mac u bs).face = m.face := by
  simp only [Module.sendLaunchTile, Module.nextPspSeq_face, Module.nextMsg_face, Module.sendChunk_face]
theorem Module.serveLaunch_face (m : Module) (stream : Nat) (mac : Nat) (fuel : Nat) (u : Nat) (stop : Nat) : (Module.serveLaunch m stream mac fuel u stop).1.face = m.face := by
  induction fuel generalizing m stream mac u stop with
  | zero => simp only [Module.serveLaunch]
  | succ n ih =>
  simp only [Module.serveLaunch]
  repeat' first
    | with_reducible rfl
    | (simp only [face_simp, Module.sendLaunchTile_face, ih]; done)
    | (with_reducible refine (foldl_face _ _ _ (fun m x => ?_)).trans ?_)
    | (with_reducible refine (getD_face ?_).trans ?_; (with_reducible intro _ _))
    | split
    | dsimp only
    | simp only [face_simp, Module.sendLaunchTile_face, ih]
theorem Module.serveLaunch_face' {m : Module} {stream : Nat} {mac : Nat} {fuel : Nat} {u : Nat} {stop : Nat} {mm : Module} {yy} (h : Module.serveLaunch m stream mac fuel u stop = (mm, yy)) : mm.face = m.face := by
  have := Module.serveLaunch_face m stream mac fuel u stop; rw [h] at this; exact this
theorem Module.serveLaunch_on {m : Module} {stream : Nat} {mac : Nat} {fuel : Nat} {u : Nat} {stop : Nat} {mm : Module} {yy} {qq : Face} (h : Module.serveLaunch m stream mac fuel u stop = (mm, yy)) (e : m.face = qq) : mm.face = qq :=
  (Module.serveLaunch_face' h).trans e
theorem Module.answerLaunch_face (m : Module) (stream : Nat) (x : Nat × Nat × Nat) : (Module.answerLaunch m stream x).1.face = m.face := by
  simp only [Module.answerLaunch]
  repeat' split
  all_goals simp only [face_simp, Module.sendStatus_face, Module.serveLaunch_face]
theorem Module.answerLaunch_face' {m : Module} {stream : Nat} {x : Nat × Nat × Nat} {mm : Module} {yy} (h : Module.answerLaunch m stream x = (mm, yy)) : mm.face = m.face := by
  have := Module.answerLaunch_face m stream x; rw [h] at this; exact this
theorem Module.answerLaunch_on {m : Module} {stream : Nat} {x : Nat × Nat × Nat} {mm : Module} {yy} {qq : Face} (h : Module.answerLaunch m stream x = (mm, yy)) (e : m.face = qq) : mm.face = qq :=
  (Module.answerLaunch_face' h).trans e
theorem Module.launchGo_face (m : Module) : (Module.launchGo m).face = m.face := by
  unfold Module.launchGo
  repeat' first
    | with_reducible rfl
    | (simp only [face_simp, Module.answerLaunch_face]; done)
    | (with_reducible refine (foldl_face _ _ _ (fun m x => ?_)).trans ?_)
    | (apply Module.answerLaunch_on; assumption)
    | (with_reducible refine (getD_face ?_).trans ?_; (with_reducible intro _ _))
    | split
    | dsimp only
    | simp only [face_simp, Module.answerLaunch_face]
theorem Module.launchPull_face (m : Module) (stream : Nat) (mac : Nat) (unit : Nat) (count : Nat) : (Module.launchPull m stream mac unit count).face = m.face := by
  simp only [Module.launchPull, face_simp, Module.sendStatus_face, Module.launchGo_face]
theorem doServe_face (src : Source) (v : Reg64) (m : Module) : (doServe src v m).face = m.face := by
  unfold doServe
  repeat' first
    | with_reducible rfl
    | (simp only [face_simp, Module.sendStatus_face, Module.launchGo_face]; done)
    | (with_reducible refine (foldl_face _ _ _ (fun m x => ?_)).trans ?_)
    | (with_reducible refine (getD_face ?_).trans ?_; (with_reducible intro _ _))
    | split
    | dsimp only
    | simp only [face_simp, Module.sendStatus_face, Module.launchGo_face]
theorem Module.sendLaunchPull_face (m : Module) (x : Pull) : (Module.sendLaunchPull m x).face = m.face := by
  unfold Module.sendLaunchPull
  split <;> simp only [face_simp, Module.sendPsp_face]
theorem Module.newLaunchPull_face (m : Module) (unit : Nat) (count : Nat) : (Module.newLaunchPull m unit count).face = m.face :=
  Module.sendLaunchPull_face ..
theorem doArmFabric_face (src : Source) (m : Module) : (doArmFabric src m).face = m.face := by
  unfold doArmFabric
  repeat' split
  all_goals simp only [face_simp, Module.refuse_face, Module.newLaunchPull_face]
theorem doDisarm_face (src : Source) (m : Module) : (doDisarm src m).face = m.face := by
  simp only [doDisarm, face_simp, Module.endLoad_face]
theorem Module.failLaunch_face (m : Module) : (Module.failLaunch m).face = m.face :=
  Module.refuseLoad_face ..
theorem Module.launchMore_face (m : Module) (fuel : Nat) : (Module.launchMore m fuel).face = m.face := by
  induction fuel generalizing m with
  | zero => simp only [Module.launchMore]
  | succ n ih =>
  simp only [Module.launchMore]
  repeat' first
    | with_reducible rfl
    | (simp only [face_simp, Module.newLaunchPull_face, ih]; done)
    | (with_reducible refine (foldl_face _ _ _ (fun m x => ?_)).trans ?_)
    | (with_reducible refine (getD_face ?_).trans ?_; (with_reducible intro _ _))
    | split
    | dsimp only
    | simp only [face_simp, Module.newLaunchPull_face, ih]
theorem Module.launchDone_face (m : Module) : (Module.launchDone m).face = m.face := by
  unfold Module.launchDone
  split <;> simp only [face_simp, Module.beginChecking_face]
theorem Module.stageLaunch_face (m : Module) (t : Nat) (bs : List Byte) : (Module.stageLaunch m t bs).face = m.face := by
  simp only [Module.stageLaunch, face_simp, Module.refuseLoad_face, Module.launchGo_face, Module.launchDone_face, Module.launchMore_face]
theorem Module.launchChunk_face (m : Module) (k : Chunk) : (Module.launchChunk m k).1.face = m.face := by
  simp only [Module.launchChunk]
  repeat' split
  all_goals simp only [face_simp, Module.refuseLoad_face, Module.failLaunch_face, Module.stageLaunch_face]
theorem Module.launchChunk_face' {m : Module} {k : Chunk} {mm : Module} {yy} (h : Module.launchChunk m k = (mm, yy)) : mm.face = m.face := by
  have := Module.launchChunk_face m k; rw [h] at this; exact this
theorem Module.launchChunk_on {m : Module} {k : Chunk} {mm : Module} {yy} {qq : Face} (h : Module.launchChunk m k = (mm, yy)) (e : m.face = qq) : mm.face = qq :=
  (Module.launchChunk_face' h).trans e
theorem doLaunchData_face (k : Chunk) (m : Module) : (doLaunchData k m).face = m.face :=
  Module.launchChunk_face ..
theorem Module.launchStatus_face (m : Module) (h : Nat) : (Module.launchStatus m h).face = m.face := by
  simp only [Module.launchStatus, face_simp, Module.failLaunch_face]
theorem doLaunchReparent_face (m : Module) : (doLaunchReparent m).face = m.face := by
  unfold doLaunchReparent
  repeat' first
    | with_reducible rfl
    | (simp only [face_simp, Module.failLaunch_face, Module.logEvent_face, Module.sendLaunchPull_face]; done)
    | (with_reducible refine (foldl_face _ _ _ (fun m x => ?_)).trans ?_)
    | (with_reducible refine (getD_face ?_).trans ?_; (with_reducible intro _ _))
    | split
    | dsimp only
    | simp only [face_simp, Module.failLaunch_face, Module.logEvent_face, Module.sendLaunchPull_face]
theorem doPullResend_face (p : Nat) (i : Nat) (j : Nat) (m : Module) : (doPullResend p i j m).face = m.face := by
  unfold doPullResend
  repeat' split
  all_goals simp only [face_simp, Module.sendLaunchPull_face, Module.flowResend_face]
theorem Module.readerData_face {m : Module} {op : PoolOp} {p die status : Nat} {payload : List Byte} {go : Module → Module} (hg : ∀ m, (go m).face = m.face) : (Module.readerData m op p die status payload go).face = m.face := by
  unfold Module.readerData
  split
  · exact Module.abortTask_face ..
  · split
    · exact Module.abortTask_face ..
    · rename_i h; rw [hg]; exact Module.bufferTile_face' h
theorem Module.ownerFails_face (m : Module) (op : PoolOp) (code : Nat) : (Module.ownerFails m op code).face = m.face := by
  unfold Module.ownerFails
  split <;> simp only [face_simp, Module.abortTask_face]
theorem Module.poolDone_face (m : Module) (op : PoolOp) (status : Nat) (payload : Option (List Byte)) : (Module.poolDone m op status payload).face = m.face := by
  unfold Module.poolDone
  repeat' first
    | with_reducible rfl
    | (simp only [face_simp, Module.reqData_face, Module.reqAck_face, Module.moveAnswer_face, Module.kerfAck_face, Module.restoreData_face, Module.kerfData_face, Module.failTake_face, Module.restoreAck_face, Module.copyData_face, Module.copyAck_face, Module.herdGo_face, Module.ownerFails_face, Module.herdStored_face, Module.feed_face, Module.freeStage_face, Module.serveChild_face]; done)
    | (with_reducible refine (foldl_face _ _ _ (fun m x => ?_)).trans ?_)
    | (with_reducible refine (Module.readerData_face (fun m => ?_)).trans ?_)
    | (with_reducible refine (getD_face ?_).trans ?_; (with_reducible intro _ _))
    | split
    | dsimp only
    | simp only [face_simp, Module.reqData_face, Module.reqAck_face, Module.moveAnswer_face, Module.kerfAck_face, Module.restoreData_face, Module.kerfData_face, Module.failTake_face, Module.restoreAck_face, Module.copyData_face, Module.copyAck_face, Module.herdGo_face, Module.ownerFails_face, Module.herdStored_face, Module.feed_face, Module.freeStage_face, Module.serveChild_face]
theorem Module.poolFail_face (m : Module) (op : PoolOp) (code : Nat) : (Module.poolFail m op code).face = m.face := by
  unfold Module.poolFail
  split <;> simp only [face_simp, Module.failTake_face, Module.failRestore_face, Module.endCopy_face, Module.failTransfer_face, Module.ownerFails_face]
theorem Module.poolChunk_face (m : Module) (k : Chunk) : (Module.poolChunk m k).face = m.face := by
  unfold Module.poolChunk
  split <;> simp only [face_simp, Module.poolDone_face]
theorem doPoolData_face (k : Chunk) (m : Module) : (doPoolData k m).face = m.face := by
  simp only [doPoolData, face_simp, Module.badPsp_face, Module.poolChunk_face]
theorem doPoolAck_face (port : Nat) (y1 : Nat) (msg : Bytes) (m : Module) : (doPoolAck port y1 msg m).face = m.face := by
  unfold doPoolAck
  repeat' split
  all_goals simp only [face_simp, Module.badPsp_face, Module.poolDone_face]
theorem doPoolTimeout_face (port : Nat) (m : Module) : (doPoolTimeout port m).face = m.face := by
  unfold doPoolTimeout
  repeat' split
  all_goals simp only [face_simp, Module.poolFail_face]
theorem Module.noFlow_face (m : Module) (stream : Nat) : (Module.noFlow m stream).face = m.face := by
  simp only [Module.noFlow, face_simp, Module.unknownStream_face]
theorem doPspPull_face (port : Nat) (mac : Nat) (msg : Bytes) (m : Module) : (doPspPull port mac msg m).face = m.face := by
  simp only [doPspPull]
  repeat' split
  all_goals simp only [face_simp, Module.badPsp_face, Module.launchPull_face, Module.pullFromChild_face, Module.sendStatus_face, Module.noFlow_face]
theorem doStatus_face (y0 : Nat) (y1 : Nat) (msg : Bytes) (m : Module) : (doStatus y0 y1 msg m).face = m.face := by
  simp only [doStatus]
  repeat' split
  all_goals simp only [face_simp, Module.badPsp_face, Module.launchStatus_face, Module.statusForFlow_face, Module.noFlow_face]
theorem Module.pspData_face (m : Module) (k : Chunk) : (Module.pspData m k).1.face = m.face := by
  simp only [Module.pspData]
  repeat' split
  all_goals simp only [face_simp, Module.launchStatus_face, Module.launchChunk_face, Module.abortTask_face, Module.unknownStream_face, Module.statusForFlow_face, Module.dataChunk_face]
theorem Module.pspData_face' {m : Module} {k : Chunk} {mm : Module} {yy} (h : Module.pspData m k = (mm, yy)) : mm.face = m.face := by
  have := Module.pspData_face m k; rw [h] at this; exact this
theorem Module.pspData_on {m : Module} {k : Chunk} {mm : Module} {yy} {qq : Face} (h : Module.pspData m k = (mm, yy)) (e : m.face = qq) : mm.face = qq :=
  (Module.pspData_face' h).trans e
theorem doData_face (k : Chunk) (m : Module) : (doData k m).face = m.face := by
  simp only [doData, face_simp, Module.badPsp_face, Module.pspData_face]
theorem Module.pspChunk_face (m : Module) (k : Chunk) : (Module.pspChunk m k).1.face = m.face := by
  unfold Module.pspChunk
  repeat' split
  all_goals simp only [face_simp, Module.badPsp_face, Module.pspData_face, Module.poolChunk_face, Module.noFlow_face]
theorem Module.pspChunk_face' {m : Module} {k : Chunk} {mm : Module} {yy} (h : Module.pspChunk m k = (mm, yy)) : mm.face = m.face := by
  have := Module.pspChunk_face m k; rw [h] at this; exact this
theorem Module.pspChunk_on {m : Module} {k : Chunk} {mm : Module} {yy} {qq : Face} (h : Module.pspChunk m k = (mm, yy)) (e : m.face = qq) : mm.face = qq :=
  (Module.pspChunk_face' h).trans e
theorem Module.pspControl_face (m : Module) (port : Nat) (mac : Nat) (msg : List Byte) : (Module.pspControl m port mac msg).face = m.face := by
  simp only [Module.pspControl, face_simp, Module.badPsp_face, doPspPull_face, doStatus_face, doPoolAck_face, doGradAck_face, Module.noFlow_face]
theorem Module.failChannel_face (m : Module) (port : Nat) (etype : Nat) (chan : Nat) : (Module.failChannel m port etype chan).face = m.face := by
  unfold Module.failChannel
  repeat' split
  all_goals simp only [face_simp, Module.poolFail_face, Module.failLaunch_face, Module.abortTask_face]
theorem Module.noteCrc_face (m : Module) (port : Nat) : (Module.noteCrc m port).face = m.face := by
  simp only [Module.noteCrc, face_simp, Module.logEvent_face, Module.setPort_face]
theorem Module.answerChunk_face (m : Module) (port : Nat) (q : Partial) (kind : Nat) : (Module.answerChunk m port q kind).face = m.face :=
  Module.sendAnswer_face ..
theorem Module.chunkFails_face (m : Module) (port : Nat) (q : Partial) : (Module.chunkFails m port q).face = m.face := by
  simp only [Module.chunkFails, face_simp, Module.answerChunk_face, Module.failChannel_face]
theorem Module.chunkWhole_face (m : Module) (port : Nat) (q : Partial) : (Module.chunkWhole m port q).face = m.face := by
  unfold Module.chunkWhole
  repeat' first
    | with_reducible rfl
    | (simp only [face_simp, Module.answerChunk_face, Module.chunkFails_face, Module.noteCrc_face, Module.pspChunk_face, Module.herdChunk_face]; done)
    | (with_reducible refine (foldl_face _ _ _ (fun m x => ?_)).trans ?_)
    | (apply Module.pspChunk_on; assumption)
    | (apply Module.herdChunk_on; assumption)
    | (with_reducible refine (getD_face ?_).trans ?_; (with_reducible intro _ _))
    | split
    | dsimp only
    | simp only [face_simp, Module.answerChunk_face, Module.chunkFails_face, Module.noteCrc_face, Module.pspChunk_face, Module.herdChunk_face]
theorem Module.gapOut_face (m : Module) (port : Nat) (q : Partial) : (Module.gapOut m port q).face = m.face := by
  simp only [Module.gapOut, face_simp, Module.answerChunk_face, Module.chunkFails_face]
theorem Module.collect_face (m : Module) (port : Nat) (y : Partial) (s : Nat) : (Module.collect m port y s).face = m.face := by
  simp only [Module.collect]
  repeat' split
  all_goals simp only [face_simp, Module.chunkWhole_face]
theorem Module.segment_face (m : Module) (port : Nat) (mac : Nat) (etype : Nat) (body : List Byte) : (Module.segment m port mac etype body).face = m.face := by
  unfold Module.segment
  repeat' split
  all_goals simp only [face_simp, Module.discard_face, Module.collect_face, Module.gapOut_face]
theorem doChunkSegment_face (port : Nat) (mac : Nat) (msg : Bytes) (m : Module) : (doChunkSegment port mac msg m).face = m.face := by
  simp only [doChunkSegment, face_simp, Module.discard_face, Module.segment_face]
theorem doGapTimeout_face (port : Nat) (i : Nat) (m : Module) : (doGapTimeout port i m).face = m.face := by
  unfold doGapTimeout
  split <;> simp only [face_simp, Module.gapOut_face]
theorem Module.setSent_face (m : Module) (i : Nat) (c : SentChunk) : (Module.setSent m i c).face = m.face := by
  simp only [Module.setSent, face_simp]
theorem Module.resend_face (m : Module) (i : Nat) (c : SentChunk) : (Module.resend m i c).face = m.face := by
  unfold Module.resend
  repeat' split
  all_goals simp only [face_simp, Module.setSent_face, Module.setPort_face, Module.modPart_face, Module.sendSegments_face]
theorem Module.exhausted_face (m : Module) (i : Nat) (c : SentChunk) : (Module.exhausted m i c).face = m.face := by
  simp only [Module.exhausted]
  repeat' split
  all_goals simp only [face_simp, Module.abortTask_face, Module.setFlow_face, Module.poolFail_face]
theorem Module.retransmit_face (m : Module) (i : Nat) (c : SentChunk) : (Module.retransmit m i c).face = m.face := by
  simp only [Module.retransmit, face_simp, Module.exhausted_face, Module.resend_face]
theorem Module.heardFrom_face (m : Module) (c : SentChunk) : (Module.heardFrom m c).face = m.face := by
  unfold Module.heardFrom
  split <;> simp only [face_simp, Module.setFlow_face]
theorem doAck_face (y0 : Nat) (mac : Nat) (msg : Bytes) (m : Module) : (doAck y0 mac msg m).face = m.face := by
  unfold doAck
  repeat' split
  all_goals simp only [face_simp, Module.herdAcked_face, Module.heardFrom_face]
theorem doNak_face (y0 : Nat) (mac : Nat) (msg : Bytes) (m : Module) : (doNak y0 mac msg m).face = m.face := by
  unfold doNak
  split <;> simp only [face_simp, Module.heardFrom_face, Module.retransmit_face]
theorem doWaitAnswer_face (y0 : Nat) (mac : Nat) (msg : Bytes) (m : Module) : (doWaitAnswer y0 mac msg m).face = m.face := by
  unfold doWaitAnswer
  split <;> simp only [face_simp, Module.heardFrom_face, Module.setSent_face]
theorem doAckTimeout_face (i : Nat) (m : Module) : (doAckTimeout i m).face = m.face := by
  unfold doAckTimeout
  split <;> simp only [face_simp, Module.resend_face, Module.retransmit_face]
theorem Module.frameBody_face (m : Module) (port : Nat) (mac : Nat) (msg : List Byte) : (Module.frameBody m port mac msg).face = m.face := by
  simp only [Module.frameBody, face_simp, doChunkSegment_face, doAck_face, doNak_face, doWaitAnswer_face, Module.pspControl_face, doHerdAbort_face, doLost_face, Module.discard_face]
theorem doFrameReceive_face (port : Nat) (frame : Bytes) (m : Module) : (doFrameReceive port frame m).face = m.face := by
  unfold doFrameReceive
  split <;> simp only [face_simp, Module.setPort_face, Module.discard_face, Module.frameBody_face]
theorem doLinkDown_face (port : Nat) (localFault : Bool) (remoteFault : Bool) (m : Module) : (doLinkDown port localFault remoteFault m).face = m.face := by
  simp only [doLinkDown, face_simp, Module.setPort_face]
theorem doLinkUp_face (port : Nat) (m : Module) : (doLinkUp port m).face = m.face := by
  simp only [doLinkUp, face_simp, Module.setPort_face]
theorem Module.drainVc0_face (m : Module) (port : Nat) (fuel : Nat) : (Module.drainVc0 m port fuel).face = m.face := by
  induction fuel generalizing m port with
  | zero => simp only [Module.drainVc0]
  | succ n ih =>
  simp only [Module.drainVc0]
  repeat' first
    | with_reducible rfl
    | (simp only [face_simp, Module.txFrame_face, Module.setPort_face, ih]; done)
    | (with_reducible refine (foldl_face _ _ _ (fun m x => ?_)).trans ?_)
    | (with_reducible refine (getD_face ?_).trans ?_; (with_reducible intro _ _))
    | split
    | dsimp only
    | simp only [face_simp, Module.txFrame_face, Module.setPort_face, ih]
theorem doVc0BudgetInterval_face (port : Nat) (m : Module) : (doVc0BudgetInterval port m).face = m.face := by
  simp only [doVc0BudgetInterval, face_simp, Module.drainVc0_face, Module.setPort_face]
theorem Module.inSeqCore_face {m : Module} {p c : Nat} {f : Flight} {go : Module → Module} (h : ∀ m, (go m).face = m.face) : (Module.inSeqCore m p c f go).face = m.face := by
  unfold Module.inSeqCore
  split
  · simp only [Module.slip_face]
  · rw [h]; simp only [Module.modCore_face]
theorem Module.inSeqDie_face {m : Module} {p n : Nat} {f : Flight} {go : Module → Module} (h : ∀ m, (go m).face = m.face) : (Module.inSeqDie m p n f go).face = m.face := by
  unfold Module.inSeqDie
  split
  · simp only [Module.slip_face]
  · rw [h]; rfl
theorem Module.switchAtCore_face (m : Module) (p : Nat) (c : Nat) (f : Flight) : (Module.switchAtCore m p c f).face = m.face := by
  unfold Module.switchAtCore
  repeat' first
    | with_reducible rfl
    | (simp only [face_simp, Module.slip_face, Module.switchAtWindow_face]; done)
    | (with_reducible refine (foldl_face _ _ _ (fun m x => ?_)).trans ?_)
    | (with_reducible refine (getD_face ?_).trans ?_; (with_reducible intro _ _))
    | split
    | dsimp only
    | simp only [face_simp, Module.slip_face, Module.switchAtWindow_face]
theorem Module.arriveCore_face (m : Module) (p c : Nat) (f : Flight) : (Module.arriveCore m p c f).face = m.face := by
  unfold Module.arriveCore
  extract_lets kind data pulls
  repeat' first
    | exact Module.slip_face ..
    | exact Module.deliver_face ..
    | exact Module.inSeqCore_face (fun m => Module.coreCredit_face ..)
    | exact Module.inSeqCore_face (fun m => foldl_face _ _ _ (fun m x => Module.unitAtWindow_face ..))
    | exact Module.inSeqCore_face (fun m => Module.switchAtCore_face ..)
    | exact Module.inSeqCore_face (fun m => foldl_face _ _ _ (fun m x => Module.pullAtCore_face ..))
    | exact Module.inSeqCore_face (fun m => Module.writeDoneAtCore_face ..)
    | split
theorem Module.dieCredit_face (m : Module) (p : Nat) (n : Nat) (f : Flight) : (Module.dieCredit m p n f).face = m.face := by
  simp only [Module.dieCredit]
  repeat' split
  all_goals simp only [face_simp, Module.dispatchCredit_face, Module.slip_face, Module.serveAll_face]
theorem Module.arriveDie_face' {m : Module} {p n : Nat} {f : Flight} {mm : Module} (h : Module.arriveDie m p n f = some mm) : mm.face = m.face := by
  unfold Module.arriveDie at h
  extract_lets kind slip at h
  have hslip : slip.face = m.face := Module.slip_face ..
  have key : ∀ x : Module, x.face = m.face → some x = some mm → mm.face = m.face := by
    intro x hx e; injection e with e; rw [← e]; exact hx
  repeat' first
    | contradiction
    | exact key _ hslip h
    | exact key _ (Module.inSeqDie_face (fun m => Module.dieCredit_face ..)) h
    | exact key _ (Module.inSeqDie_face (fun m => Module.requestAtDie_face ..)) h
    | exact key _ (Module.inSeqDie_face (fun m => Module.windowAtFeeder_face ..)) h
    | exact key _ (Module.inSeqDie_face (fun m => Module.resultAtSvc_face ..)) h
    | exact key _ (Module.inSeqDie_face (fun m => Module.gradAtDie_face ..)) h
    | exact key _ (Module.inSeqDie_face (fun m => Module.writeDataAtDie_face ..)) h
    | split at h
theorem Module.arriveDie_on {m : Module} {p n : Nat} {f : Flight} {mm : Module} {qq : Face} (h : Module.arriveDie m p n f = some mm) (e : m.face = qq) : mm.face = qq :=
  (Module.arriveDie_face' h).trans e
theorem Module.arrive_face' {m : Module} {site : Nat} {f : Flight} {mm : Module} (h : Module.arrive m site f = some mm) : mm.face = m.face := by
  unfold Module.arrive at h
  repeat' first
    | (injection h with h; subst h; with_reducible rfl)
    | (injection h with h; subst h; simp only [face_simp, Module.absorb_face, Module.arriveCore_face]; done)
    | contradiction
    | split at h
    | dsimp only at h
    | (injection h with h; subst h)
    | (simp only [Option.map_eq_some_iff] at h; obtain ⟨_, h, rfl⟩ := h)
    | simp only [face_simp, Module.absorb_face, Module.arriveCore_face]
    | (with_reducible refine (foldl_face _ _ _ (fun m x => ?_)).trans ?_)
    | (apply Module.arriveDie_on; assumption)
theorem Module.arrive_on {m : Module} {site : Nat} {f : Flight} {mm : Module} {qq : Face} (h : Module.arrive m site f = some mm) (e : m.face = qq) : mm.face = qq :=
  (Module.arrive_face' h).trans e
theorem Module.takeArrival_face (m : Module) (site : Nat) (route : Nat) (ok : Flight → Bool) : (Module.takeArrival m site route ok).face = m.face := by
  unfold Module.takeArrival
  repeat' first
    | with_reducible rfl
    | (simp only [face_simp]; done)
    | (with_reducible refine (foldl_face _ _ _ (fun m x => ?_)).trans ?_)
    | (apply Module.arrive_on; assumption)
    | (with_reducible refine (getD_face ?_).trans ?_; (with_reducible intro _ _))
    | split
    | dsimp only
    | simp only [face_simp]
theorem Module.slipOpen_face (m : Module) (p : Nat) (code : Nat) (site : Nat) (port : Nat) (route : Nat) : (Module.slipOpen m p code site port route).face = m.face := by
  simp only [Module.slipOpen, face_simp, Module.slip_face]
theorem Module.wireFault_face (m : Module) (code : Nat) (site : Nat) (port : Nat) (route : Nat) : (Module.wireFault m code site port route).face = m.face := by
  unfold Module.wireFault
  repeat' first
    | with_reducible rfl
    | (simp only [face_simp, Module.slipOpen_face]; done)
    | (with_reducible refine (foldl_face _ _ _ (fun m x => ?_)).trans ?_)
    | (with_reducible refine (getD_face ?_).trans ?_; (with_reducible intro _ _))
    | split
    | dsimp only
    | simp only [face_simp, Module.slipOpen_face]
theorem Module.wire_face (m : Module) (site : Nat) (route : Nat) (w : WireFinding) (ok : Flight → Bool) : (Module.wire m site route w ok).face = m.face := by
  unfold Module.wire
  split <;> simp only [face_simp, Module.wireFault_face, Module.takeArrival_face]
theorem doPacketDelivery_face (site : Nat) (route : Nat) (w : WireFinding) (m : Module) : (doPacketDelivery site route w m).face = m.face :=
  Module.wire_face ..
theorem doCreditPacket_face (site : Nat) (route : Nat) (w : WireFinding) (m : Module) : (doCreditPacket site route w m).face = m.face :=
  Module.wire_face ..
theorem doRead_face (die : Nat) (route : Nat) (found : List T1Finding) (m : Module) : (doRead die route found m).face = m.face := by
  simp only [doRead, Module.t1Found_face, Module.takeArrival_face]
theorem doWrite_face (die : Nat) (route : Nat) (m : Module) : (doWrite die route m).face = m.face :=
  Module.takeArrival_face ..
theorem doWriteDone_face (c : Nat) (route : Nat) (m : Module) : (doWriteDone c route m).face = m.face :=
  Module.takeArrival_face ..
theorem doWindowPull_face (die : Nat) (route : Nat) (load : FeederLoad) (m : Module) : (doWindowPull die route load m).face = m.face :=
  Module.takeArrival_face ..
theorem doUnitArrival_face (c : Nat) (route : Nat) (m : Module) : (doUnitArrival c route m).face = m.face :=
  Module.takeArrival_face ..
theorem doMiss_face (site : Nat) (route : Nat) (m : Module) : (doMiss site route m).face = m.face :=
  Module.takeArrival_face ..
theorem doSwitch_face (c : Nat) (route : Nat) (m : Module) : (doSwitch c route m).face = m.face :=
  Module.takeArrival_face ..
theorem doBatchResult_face (p : Nat) (i : Nat) (m : Module) : (doBatchResult p i m).face = m.face := by
  simp only [doBatchResult]
  repeat' split
  all_goals simp only [face_simp, Module.takeResult_face, Module.takeArrival_face]
theorem Module.passDone_face (m : Module) (k : Nat) (s : Nat) : (Module.passDone m k s).face = m.face := by
  simp only [Module.passDone, face_simp]
theorem Module.retireLater_face (m : Module) (r : Retire) : (Module.retireLater m r).face = m.face := by
  simp only [Module.retireLater, face_simp]
theorem doEccWriteback_face (c : Nat) (word : Nat) (m : Module) : (doEccWriteback c word m).face = m.face := by
  simp only [doEccWriteback, face_simp, Module.modCore_face]
theorem Module.t0Next_face (m : Module) (c : Nat) : (Module.t0Next m c).face = m.face := by
  simp only [Module.t0Next, face_simp, Module.setCore_face, Module.passDone_face]
theorem doT0Scrub_face (c : Nat) (word : Nat) (f : EccFinding) (m : Module) : (doT0Scrub c word f m).face = m.face := by
  unfold doT0Scrub
  repeat' split
  all_goals simp only [face_simp, Module.t0Next_face, Module.t0Corrected_face, Module.modCore_face, Module.logEvent_face, Module.t0Unc_face]
theorem Module.t1Next_face (m : Module) (stack : Nat) (idx : Nat) : (Module.t1Next m stack idx).face = m.face := by
  simp only [Module.t1Next, face_simp, Module.passDone_face]
theorem doT1Scrub_face (die : Nat) (stack : Nat) (row : Nat) (idx : Nat) (word : Place) (f : EccFinding) (m : Module) : (doT1Scrub die stack row idx word f m).face = m.face := by
  unfold doT1Scrub
  repeat' split
  all_goals simp only [face_simp, Module.t1Next_face, Module.t1Corrected_face, Module.logEvent_face, Module.t1Unc_face, Module.stagedError_face]
theorem doT1Refresh_face (stack : Nat) (m : Module) : (doT1Refresh stack m).face = m.face := by
  simp only [doT1Refresh, face_simp]
theorem doActivationGuard_face (stack : Nat) (row : Nat) (m : Module) : (doActivationGuard stack row m).face = m.face := by
  simp only [doActivationGuard, face_simp]
theorem doTargetedSelfTest_face (l : EccLoc) (failed : Bool) (m : Module) : (doTargetedSelfTest l failed m).face = m.face := by
  simp only [doTargetedSelfTest, face_simp, Module.retireLater_face, Module.logEvent_face]
theorem Module.engineOut_face (m : Module) (phys : Nat) : (Module.engineOut m phys).face = m.face := by
  simp only [Module.engineOut, face_simp, Module.retireLater_face]
theorem Module.rowsFault_face (m : Module) (phys : Nat) (rows : List Nat) : (Module.rowsFault m phys rows).face = m.face := by
  unfold Module.rowsFault
  split <;> simp only [face_simp, Module.retireLater_face, Module.engineOut_face]
theorem Module.colsFault_face (m : Module) (phys : Nat) (cols : List Nat) : (Module.colsFault m phys cols).face = m.face := by
  unfold Module.colsFault
  split <;> simp only [face_simp, Module.retireLater_face, Module.engineOut_face]
theorem Module.enginesFault_face (m : Module) (rows : Pairs) (cols : Pairs) : (Module.enginesFault m rows cols).face = m.face := by
  unfold Module.enginesFault
  repeat' first
    | with_reducible rfl
    | (simp only [face_simp, Module.colsFault_face, Module.rowsFault_face]; done)
    | (with_reducible refine (foldl_face _ _ _ (fun m x => ?_)).trans ?_)
    | (with_reducible refine (getD_face ?_).trans ?_; (with_reducible intro _ _))
    | split
    | dsimp only
    | simp only [face_simp, Module.colsFault_face, Module.rowsFault_face]
theorem Module.engineFault_face (m : Module) (phys : Nat) (f : TestFinding) : (Module.engineFault m phys f).face = m.face := by
  unfold Module.engineFault
  split <;> simp only [face_simp, Module.rowsFault_face, Module.colsFault_face, Module.engineOut_face]
theorem Module.wokenForTest_face (m : Module) (c : Nat) : (Module.wokenForTest m c).face = m.face := by
  simp only [Module.wokenForTest, face_simp]
theorem doEngineSelfTest_face (c : Nat) (f : TestFinding) (m : Module) : (doEngineSelfTest c f m).face = m.face := by
  unfold doEngineSelfTest
  split <;> simp only [face_simp, Module.modCore_face, Module.wokenForTest_face, Module.engineFault_face, Module.logEvent_face, Module.passDone_face]
theorem doOscillatorCalibration_face (m : Module) : (doOscillatorCalibration m).face = m.face := by
  simp only [doOscillatorCalibration, face_simp, Module.passDone_face]
theorem Module.calibrated_face (m : Module) (f : LinkFinding) : (Module.calibrated m f).face = m.face := by
  simp only [Module.calibrated, face_simp, Module.retireLater_face]
theorem doLinkCalibration_face (found : List LinkFinding) (m : Module) : (doLinkCalibration found m).face = m.face := by
  unfold doLinkCalibration
  repeat' first
    | with_reducible rfl
    | (simp only [face_simp, Module.passDone_face, Module.calibrated_face]; done)
    | (with_reducible refine (foldl_face _ _ _ (fun m x => ?_)).trans ?_)
    | (with_reducible refine (getD_face ?_).trans ?_; (with_reducible intro _ _))
    | split
    | dsimp only
    | simp only [face_simp, Module.passDone_face, Module.calibrated_face]
theorem doAgingMonitorRead_face (raises : Pairs) (m : Module) : (doAgingMonitorRead raises m).face = m.face := by
  unfold doAgingMonitorRead
  repeat' first
    | with_reducible rfl
    | (simp only [face_simp, Module.passDone_face]; done)
    | (with_reducible refine (foldl_face _ _ _ (fun m x => ?_)).trans ?_)
    | (with_reducible refine (getD_face ?_).trans ?_; (with_reducible intro _ _))
    | split
    | dsimp only
    | simp only [face_simp, Module.passDone_face]
theorem doTelemetryExport_face (m : Module) : (doTelemetryExport m).face = m.face := by
  simp only [doTelemetryExport, face_simp, Module.passDone_face]
theorem Module.stagingLost_face (m : Module) : (Module.stagingLost m).face = m.face := by
  simp only [Module.stagingLost, face_simp, Module.refuseLoad_face]
theorem doCxlLinkDown_face (m : Module) : (doCxlLinkDown m).face = m.face := by
  simp only [doCxlLinkDown, face_simp, Module.stagingLost_face]
theorem doCxlLinkUp_face (width : Nat) (speed : Nat) (m : Module) : (doCxlLinkUp width speed m).face = m.face := by
  simp only [doCxlLinkUp, face_simp]
theorem doFailover_face (trained : Bool) (width : Nat) (speed : Nat) (m : Module) : (doFailover trained width speed m).face = m.face := by
  simp only [doFailover, face_simp]
theorem doBusMasterEnable_face (v : Bool) (m : Module) : (doBusMasterEnable v m).face = m.face := by
  simp only [doBusMasterEnable, face_simp, Module.stagingLost_face]
theorem Module.t2Reader_face (m : Module) (pg : Nat) (code : Nat) : (Module.t2Reader m pg code).face = m.face := by
  simp only [Module.t2Reader, face_simp, Module.logEvent_face, Module.failTake_face, Module.failRestore_face, Module.abortTask_face]
theorem Module.t2Failed_face (m : Module) (pg : Nat) (code : Nat) : (Module.t2Failed m pg code).face = m.face := by
  unfold Module.t2Failed
  repeat' split
  all_goals simp only [face_simp, Module.failReq_face, Module.abandonMove_face, Module.t2Reader_face]
theorem doHostAccessFailed_face (a : HostAccess) (m : Module) : (doHostAccessFailed a m).face = m.face := by
  unfold doHostAccessFailed
  split <;> simp only [face_simp, Module.stagingLost_face, Module.t2Failed_face, Module.endCopy_face, Module.setQueue_face]
theorem Module.skBegins_face (m : Module) : (Module.skBegins m).face = m.face := by
  simp only [Module.skBegins, Module.restoresTick_face, Module.herdsTick_face, Module.drainsOver_face, Module.copyAcks_face, Module.hostAcks_face]
theorem Module.recap_face (m : Module) : (Module.recap m).face = m.face := by
  simp only [Module.recap, face_simp]
theorem Module.orderShed_face (m : Module) : (Module.orderShed m).face = m.face := by
  simp only [Module.orderShed, face_simp]
theorem Module.faultPart_face (m : Module) (p : Nat) (code : Nat) : (Module.faultPart m p code).face = m.face := by
  unfold Module.faultPart
  split <;> simp only [face_simp, Module.failPart_face]
theorem Module.darkDie_face (m : Module) (d : Nat) : (Module.darkDie m d).face = m.face := by
  unfold Module.darkDie
  repeat' first
    | with_reducible rfl
    | (simp only [face_simp, Module.logFatal_face, Module.setDieP_face, Module.faultPart_face]; done)
    | (with_reducible refine (foldl_face _ _ _ (fun m x => ?_)).trans ?_)
    | (with_reducible refine (getD_face ?_).trans ?_; (with_reducible intro _ _))
    | split
    | dsimp only
    | simp only [face_simp, Module.logFatal_face, Module.setDieP_face, Module.faultPart_face]
theorem Module.allStopped_face (m : Module) : (Module.allStopped m).face = m.face := by
  simp only [Module.allStopped, face_simp, Module.allOff_face, Module.abandonLoad_face]
theorem Module.settleMmps_face (m : Module) : m.settleMmps.face = m.face := by
  have h (x : Mmp) (b : Bool) : decide ((x.settle b).st = .off) = decide (x.st = .off) := by
    cases x with
    | mk st => cases st <;> cases b <;> rfl
  simp only [Module.settleMmps, face_mk, h]
  rfl
theorem Module.moveSteps_face (m : Module) : (Module.moveSteps m).face = m.face := by
  simp only [Module.moveSteps, face_simp]
theorem Module.crackSample_face (m : Module) (r : DieReading) : (Module.crackSample m r).face = m.face := by
  simp only [Module.crackSample, face_simp, Module.setDieP_face, Module.logEvent_face]
theorem Module.heatSample_face (m : Module) (d : Nat) : (Module.heatSample m d).face = m.face := by
  simp only [Module.heatSample]
  repeat' split
  all_goals simp only [face_simp, Module.logEvent_face, Module.setDieP_face]
theorem Module.dieSample_face (m : Module) (r : DieReading) : (Module.dieSample m r).face = m.face := by
  simp only [Module.dieSample, face_simp, Module.setDieP_face, Module.heatSample_face, Module.crackSample_face]
theorem Module.ringSample_face (m : Module) (ts : Pairs) : (Module.ringSample m ts).face = m.face := by
  unfold Module.ringSample
  repeat' first
    | with_reducible rfl
    | (simp only [face_simp, Module.logEvent_face]; done)
    | (with_reducible refine (foldl_face _ _ _ (fun m x => ?_)).trans ?_)
    | (with_reducible refine (getD_face ?_).trans ?_; (with_reducible intro _ _))
    | split
    | dsimp only
    | simp only [face_simp, Module.logEvent_face]
theorem Module.inputSample_face (m : Module) (v : Nat) : (Module.inputSample m v).face = m.face := by
  simp only [Module.inputSample, face_simp]
theorem Module.powerSample_face (m : Module) (r : Reading) : (Module.powerSample m r).face = m.face := by
  simp only [Module.powerSample, face_simp]
theorem Module.announceRelease_face (m : Module) : (Module.announceRelease m).face = m.face := by
  simp only [Module.announceRelease, face_simp]
theorem Module.shedSample_face (m : Module) (r : Reading) : (Module.shedSample m r).face = m.face := by
  simp only [Module.shedSample, face_simp, Module.orderShed_face, Module.announceRelease_face]
theorem Module.restAll_face (m : Module) : (Module.restAll m).face = m.face := by
  unfold Module.restAll
  repeat' first
    | with_reducible rfl
    | (simp only [face_simp, Module.restClusters_face]; done)
    | (with_reducible refine (foldl_face _ _ _ (fun m x => ?_)).trans ?_)
    | (with_reducible refine (getD_face ?_).trans ?_; (with_reducible intro _ _))
    | split
    | dsimp only
    | simp only [face_simp, Module.restClusters_face]
theorem Module.floorSample_face (m : Module) (r : Reading) : (Module.floorSample m r).face = m.face := by
  simp only [Module.floorSample, face_simp, Module.restAll_face]
theorem doAosSample_face (r : Reading) (m : Module) : (doAosSample r m).face = m.face := by
  unfold doAosSample
  repeat' first
    | with_reducible rfl
    | (simp only [face_simp, Module.powerSample_face, Module.inputSample_face, Module.recap_face, Module.dieSample_face, Module.ringSample_face, Module.moveSteps_face, Module.floorSample_face, Module.shedSample_face]; done)
    | (with_reducible refine (foldl_face _ _ _ (fun m x => ?_)).trans ?_)
    | (with_reducible refine (getD_face ?_).trans ?_; (with_reducible intro _ _))
    | split
    | dsimp only
    | simp only [face_simp, Module.powerSample_face, Module.inputSample_face, Module.recap_face, Module.dieSample_face, Module.ringSample_face, Module.moveSteps_face, Module.floorSample_face, Module.shedSample_face]
theorem doPhaseFault_face (die : Nat) (phase : Nat) (m : Module) : (doPhaseFault die phase m).face = m.face := by
  simp only [doPhaseFault, face_simp, Module.logEvent_face, Module.setDieP_face, Module.darkDie_face]
theorem doBrickFault_face (brick : Nat) (m : Module) : (doBrickFault brick m).face = m.face := by
  simp only [doBrickFault, face_simp, Module.recap_face, Module.logEvent_face]
theorem doEfuseTrip_face (die : Nat) (m : Module) : (doEfuseTrip die m).face = m.face := by
  simp only [doEfuseTrip, face_simp, Module.darkDie_face]
theorem doMeshLock_face (m : Module) : (doMeshLock m).face = m.face := by
  simp only [doMeshLock, face_simp]
theorem doLockFault_face (c : Nat) (m : Module) : (doLockFault c m).face = m.face := by
  simp only [doLockFault, face_simp]
theorem Module.wake_face (m : Module) (cl : Nat) (half : Bool) : (Module.wake m cl half).face = m.face := by
  simp only [Module.wake, face_simp, Module.setCluster_face]
theorem doClusterWake_face (cl : Nat) (m : Module) : (doClusterWake cl m).face = m.face := by
  simp only [doClusterWake, face_simp, Module.setCluster_face, Module.wake_face]
theorem doWakeDeferralExpiry_face (cl : Nat) (m : Module) : (doWakeDeferralExpiry cl m).face = m.face := by
  unfold doWakeDeferralExpiry
  split <;> simp only [face_simp, Module.wake_face]
theorem doFastShed_face (m : Module) : (doFastShed m).face = m.face := by
  simp only [doFastShed, face_simp, Module.logEvent_face]
theorem doShedRelease_face (m : Module) : (doShedRelease m).face = m.face := by
  simp only [doShedRelease, face_simp]
theorem Module.setRackCap_face (m : Module) (cap : Nat) (ramp : Nat) (epoch : Nat) : (Module.setRackCap m cap ramp epoch).face = m.face := by
  simp only [Module.setRackCap, face_simp, Module.recap_face]
theorem doPwrCap_face (src : Source) (v : Reg64) (m : Module) : (doPwrCap src v m).face = m.face := by
  simp only [doPwrCap, face_simp, Module.setRackCap_face]
theorem Module.heartbeat_face (m : Module) (b : Bool) (epoch : Nat) : (Module.heartbeat m b epoch).face = m.face := by
  simp only [Module.heartbeat, face_simp, Module.recap_face]
theorem doPwrMgrHeartbeat_face (src : Source) (v : Reg64) (m : Module) : (doPwrMgrHeartbeat src v m).face = m.face := by
  simp only [doPwrMgrHeartbeat, face_simp, Module.heartbeat_face]
theorem doManagerLost_face (b : Bool) (m : Module) : (doManagerLost b m).face = m.face := by
  simp only [doManagerLost, face_simp, Module.recap_face]
theorem doHeldCapExpiry_face (m : Module) : (doHeldCapExpiry m).face = m.face := by
  unfold doHeldCapExpiry
  split <;> simp only [face_simp, Module.recap_face]
theorem doDroopClear_face (m : Module) : (doDroopClear m).face = m.face := by
  unfold doDroopClear
  split <;> simp only [face_simp, Module.recap_face]
theorem Module.droopDrain_face (m : Module) (p : Nat) : (Module.droopDrain m p).face = m.face := by
  simp only [Module.droopDrain, face_simp, Module.modPart_face]
theorem Module.shedAbove6_face (m : Module) : (Module.shedAbove6 m).face = m.face := by
  simp only [Module.shedAbove6, face_simp, Module.orderShed_face]
theorem Module.setMeas_face (m : Module) (b : Bool) (d : Digest) : (Module.setMeas m b d).face = m.face := by
  simp only [Module.setMeas, face_simp]
theorem Module.loaderCheck_face (m : Module) (b : Bool) : (Module.loaderCheck m b).2.face = m.face := by
  unfold Module.loaderCheck
  split <;> simp only [face_simp, Module.logFatal_face]
theorem Module.loaderCheck_face' {m : Module} {b : Bool} {mm : Module} {yy} (h : Module.loaderCheck m b = (yy, mm)) : mm.face = m.face := by
  have := Module.loaderCheck_face m b; rw [h] at this; exact this
theorem Module.loaderCheck_on {m : Module} {b : Bool} {mm : Module} {yy} {qq : Face} (h : Module.loaderCheck m b = (yy, mm)) (e : m.face = qq) : mm.face = qq :=
  (Module.loaderCheck_face' h).trans e
theorem Module.settlePending_face (m : Module) : (Module.settlePending m).face = m.face := by
  simp only [Module.settlePending, face_simp]
theorem Module.secEnd_face (m : Module) (code : Nat) (out : List Byte) : (Module.secEnd m code out).face = m.face := by
  unfold Module.secEnd
  repeat' split
  all_goals simp only [face_simp, Module.emit_face]
theorem Module.imageWrite_face (m : Module) (img : List Byte) : (Module.imageWrite m img).face = m.face := by
  simp only [Module.imageWrite, face_simp, Module.secEnd_face]
theorem doImageWriteComplete_face (readbackOk : Bool) (m : Module) : (doImageWriteComplete readbackOk m).face = m.face := by
  unfold doImageWriteComplete
  split <;> simp only [face_simp, Module.secEnd_face, Module.settlePending_face]
theorem Module.logLow_face (m : Module) : (Module.logLow m).face = m.face := by
  simp only [Module.logLow, Module.logEvent_face]
theorem Module.useLeaf_face (m : Module) : (Module.useLeaf m).face = m.face := by
  simp only [Module.useLeaf, face_simp, Module.logLow_face]
theorem Module.quoteNow_face (m : Module) (nonce : List Byte) : (Module.quoteNow m nonce).face = m.face := by
  simp only [Module.quoteNow, face_simp, Module.secEnd_face, Module.useLeaf_face]
theorem Module.enrolRequest_face (m : Module) : (Module.enrolRequest m).face = m.face := by
  simp only [Module.enrolRequest, face_simp, Module.secEnd_face]
theorem Module.enrolInstall_face (m : Module) (bytes : List Byte) : (Module.enrolInstall m bytes).face = m.face := by
  simp only [Module.enrolInstall]
  repeat' split
  all_goals simp only [face_simp, Module.secEnd_face]
theorem doTreeGenerated_face (m : Module) : (doTreeGenerated m).face = m.face := by
  simp only [doTreeGenerated, face_simp]
theorem Module.custKeyNow_face (m : Module) (bytes : List Byte) : (Module.custKeyNow m bytes).face = m.face := by
  simp only [Module.custKeyNow]
  repeat' split
  all_goals simp only [face_simp, Module.secEnd_face]
theorem Module.enrolBegin_face (m : Module) : (Module.enrolBegin m).face = m.face := by
  simp only [Module.enrolBegin, face_simp, Module.secEnd_face]
theorem Module.secHold_face (m : Module) (op : Nat) : (Module.secHold m op).face = m.face := by
  unfold Module.secHold
  repeat' split
  all_goals simp only [face_simp, Module.secEnd_face]
theorem Module.freezeSec_face (m : Module) : (Module.freezeSec m).face = m.face := by
  unfold Module.freezeSec
  split <;> simp only [face_simp, Module.secEnd_face]
theorem Module.oobAnswer_face (m : Module) (op : Nat) (xid : Nat) (ofs : Nat) (code : Nat) : (Module.oobAnswer m op xid ofs code).face = m.face :=
  Module.emit_face ..
theorem Module.oobStart_face (m : Module) : (Module.oobStart m).face = m.face := by
  simp only [Module.oobStart]
  repeat' split
  all_goals simp only [face_simp]
theorem doSecData_face (dg : Bytes) (m : Module) : (doSecData dg m).face = m.face := by
  simp only [doSecData, face_simp, Module.oobStart_face, Module.oobAnswer_face]
theorem doRun_face (dg : Bytes) (m : Module) : (doRun dg m).face = m.face := by
  simp only [doRun, face_simp, Module.oobStart_face, Module.oobAnswer_face]
theorem doFetch_face (dg : Bytes) (m : Module) : (doFetch dg m).face = m.face := by
  simp only [doFetch, face_simp, Module.oobAnswer_face, Module.emit_face]
theorem Module.lowAtBringup_face (m : Module) : (Module.lowAtBringup m).face = m.face := by
  simp only [Module.lowAtBringup, face_simp, Module.logLow_face]
theorem Module.nameAuthority_face (m : Module) : (Module.nameAuthority m).face = m.face :=
  Module.settleMmps_face ..
theorem Module.expireLease_face (m : Module) : (Module.expireLease m).face = m.face :=
  Module.settleMmps_face ..
theorem Module.secLost_face (m : Module) : (Module.secLost m).face = m.face := by
  unfold Module.secLost
  split <;> simp only [face_simp, Module.secEnd_face]
theorem Module.conflict_face (m : Module) (e : Nat) : (Module.conflict m e).face = m.face := by
  simp only [Module.conflict, face_simp, Module.settleMmps_face, Module.freezeSec_face, Module.freezeLoad_face, Module.logEvent_face]
theorem Module.pend_face (m : Module) (c : Claim) : (Module.pend m c).face = m.face := by
  simp only [Module.pend, face_simp]
theorem Module.claimLease_face (m : Module) (b : Bool) (e : Nat) : (Module.claimLease m b e).face = m.face := by
  simp only [Module.claimLease, face_simp, Module.conflict_face, Module.pend_face]
theorem doAosLeaseClaim_face (src : Source) (v : Reg64) (m : Module) : (doAosLeaseClaim src v m).face = m.face := by
  unfold doAosLeaseClaim
  split <;> simp only [face_simp, Module.claimLease_face]
theorem Module.takeLease_face (m : Module) (c : Claim) : (Module.takeLease m c).face = m.face :=
  Module.settleMmps_face ..
theorem doClaimWindowEnd_face (m : Module) : (doClaimWindowEnd m).face = m.face := by
  unfold doClaimWindowEnd
  split <;> simp only [face_simp, Module.takeLease_face]
theorem doLeaseExpiry_face (m : Module) : (doLeaseExpiry m).face = m.face := by
  simp only [doLeaseExpiry, face_simp, Module.expireLease_face]
theorem Module.hear_face (m : Module) (d : Nat) : (Module.hear m d).face = m.face := by
  simp only [Module.hear, face_simp, Module.heartbeat_face]
theorem Module.queuedQuote_face (m : Module) : (Module.queuedQuote m).face = m.face := by
  unfold Module.queuedQuote
  split <;> simp only [face_simp, Module.quoteNow_face]
theorem doLogFlush_face (m : Module) : (doLogFlush m).face = m.face := by
  simp only [doLogFlush, face_simp, Module.passDone_face]
theorem Module.stageDone_face (m : Module) : (Module.stageDone m).face = m.face := by
  simp only [Module.stageDone, face_simp]
theorem Module.coreBad_face (m : Module) (q : Nat) : (Module.coreBad m q).face = m.face := by
  simp only [Module.coreBad, Module.engineOut_face, Module.logEvent_face]
theorem Module.leaveDark_face (m : Module) (d : Nat) : (Module.leaveDark m d).face = m.face := by
  simp only [Module.leaveDark, face_simp, Module.setDieP_face]
theorem Module.crackTest_face (m : Module) (cracked : List Nat) (d : Nat) : (Module.crackTest m cracked d).face = m.face := by
  unfold Module.crackTest
  repeat' first
    | with_reducible rfl
    | (simp only [face_simp, Module.retireLater_face, Module.setDieP_face]; done)
    | (with_reducible refine (foldl_face _ _ _ (fun m x => ?_)).trans ?_)
    | (with_reducible refine (getD_face ?_).trans ?_; (with_reducible intro _ _))
    | split
    | dsimp only
    | simp only [face_simp, Module.retireLater_face, Module.setDieP_face]
theorem Module.stageDies_face (m : Module) (k : Nat) (f : StageFinding) : (Module.stageDies m k f).face = m.face := by
  unfold Module.stageDies
  repeat' first
    | with_reducible rfl
    | (simp only [face_simp, Module.leaveDark_face, Module.logEvent_face, Module.coreBad_face, Module.enginesFault_face, Module.retireLater_face, Module.setDieP_face, Module.crackTest_face]; done)
    | (with_reducible refine (foldl_face _ _ _ (fun m x => ?_)).trans ?_)
    | (with_reducible refine (getD_face ?_).trans ?_; (with_reducible intro _ _))
    | split
    | dsimp only
    | simp only [face_simp, Module.leaveDark_face, Module.logEvent_face, Module.coreBad_face, Module.enginesFault_face, Module.retireLater_face, Module.setDieP_face, Module.crackTest_face]
theorem Module.dropPorts_face (m : Module) : (Module.dropPorts m).face = m.face := by
  simp only [Module.dropPorts, face_simp]
theorem Module.relink_face (m : Module) : (Module.relink m).face = m.face := by
  simp only [Module.relink, face_simp]
theorem Module.remap_face (m : Module) (stuck : optParam (List Nat) []) : (Module.remap m stuck).face = m.face := by
  unfold Module.remap
  repeat' first
    | with_reducible rfl
    | (simp only [face_simp, Module.retireLater_face, Module.dropPorts_face, Module.relink_face]; done)
    | (with_reducible refine (foldl_face _ _ _ (fun m x => ?_)).trans ?_)
    | (with_reducible refine (getD_face ?_).trans ?_; (with_reducible intro _ _))
    | split
    | dsimp only
    | simp only [face_simp, Module.retireLater_face, Module.dropPorts_face, Module.relink_face]
theorem doCoreFailed_face (c : Nat) (det : CoreDetector) (m : Module) : (doCoreFailed c det m).face = m.face := by
  unfold doCoreFailed
  repeat' first
    | with_reducible rfl
    | (simp only [face_simp, Module.coreBad_face, Module.logFatal_face, Module.faultPart_face, Module.retireLater_face]; done)
    | (with_reducible refine (foldl_face _ _ _ (fun m x => ?_)).trans ?_)
    | (with_reducible refine (getD_face ?_).trans ?_; (with_reducible intro _ _))
    | split
    | dsimp only
    | simp only [face_simp, Module.coreBad_face, Module.logFatal_face, Module.faultPart_face, Module.retireLater_face]
theorem Module.loopTime_face (m : Module) (x : Nat) : (Module.loopTime m x).face = m.face := by
  simp only [Module.loopTime, face_simp]
theorem Module.loopCap_face (m : Module) (x : Nat) : (Module.loopCap m x).face = m.face :=
  Module.recap_face ..
theorem Module.loopStop_face (m : Module) (x : Nat) : (Module.loopStop m x).face = m.face := by
  simp only [Module.loopStop]
  repeat' split
  all_goals simp only [face_simp, Module.abortFrom_face]
theorem Module.loopAct_face (m : Module) (x : Nat) : (Module.loopAct m x).face = m.face := by
  unfold Module.loopAct
  split <;> simp only [face_simp, Module.loopTime_face, Module.loopCap_face, Module.loopStop_face]
theorem doLoopTimeout_face (m : Module) : (doLoopTimeout m).face = m.face := by
  simp only [doLoopTimeout, face_simp, Module.recap_face]
theorem doTrayCapLapse_face (m : Module) : (doTrayCapLapse m).face = m.face := by
  simp only [doTrayCapLapse, face_simp, Module.recap_face]
theorem doHerdStopResend_face (m : Module) : (doHerdStopResend m).face = m.face := by
  unfold doHerdStopResend
  split <;> simp only [face_simp, Module.emit_face]
theorem doLogWrite_face (m : Module) : (doLogWrite m).face = m.face := by
  simp only [doLogWrite]
  repeat' split
  all_goals simp only [face_simp, Module.raiseIrq_face]
theorem doIrqStatusClear_face (y0 : Source) (v : Reg64) (m : Module) : (doIrqStatusClear y0 v m).face = m.face := by
  simp only [doIrqStatusClear, face_simp]
theorem doAosIrqDeferExpiry_face (i : Nat) (m : Module) : (doAosIrqDeferExpiry i m).face = m.face := by
  simp only [doAosIrqDeferExpiry, face_simp, Module.emit_face]
theorem Module.writeJig_face (m : Module) (src : Source) (o : Nat) (v : Nat) : (Module.writeJig m src o v).face = m.face := by
  unfold Module.writeJig
  repeat' split
  all_goals simp only [face_simp, doStart_face, doArmFabric_face, doDisarm_face]
theorem Module.writeTier_face (m : Module) (src : Source) (o : Nat) (v : Nat) : (Module.writeTier m src o v).face = m.face := by
  simp only [Module.writeTier, face_simp]
theorem Module.writeStr_face (m : Module) (src : Source) (o : Nat) (v : Nat) : (Module.writeStr m src o v).face = m.face := by
  simp only [Module.writeStr, face_simp]
theorem Module.writeFab_face (m : Module) (src : Source) (o : Nat) (v : Nat) : (Module.writeFab m src o v).face = m.face := by
  simp only [Module.writeFab, face_simp]
theorem Module.writeQueue_face (m : Module) (src : Source) (q : Nat) (k : Nat) (v : Nat) : (Module.writeQueue m src q k v).face = m.face := by
  unfold Module.writeQueue
  repeat' split
  all_goals simp only [face_simp, doEnable_face, doDisable_face, Module.setQueue_face]
theorem Module.writeModel_face (m : Module) (src : Source) (i : Nat) (v : Nat) (mask : Nat) : (Module.writeModel m src i v mask).face = m.face := by
  simp only [Module.writeModel, face_simp, doModelBind_face, Module.setModel_face]
theorem Module.writeQue_face (m : Module) (src : Source) (o : Nat) (v : Nat) (mask : Nat) : (Module.writeQue m src o v mask).face = m.face := by
  unfold Module.writeQue
  repeat' split
  all_goals simp only [face_simp, Module.writeModel_face, Module.writeFence_face, Module.writeQueue_face]
theorem Module.writeDoor_face (m : Module) (src : Source) (o : Nat) (v : Nat) : (Module.writeDoor m src o v).face = m.face := by
  unfold Module.writeDoor
  repeat' split
  all_goals simp only [face_simp, doQueSqTail_face, doQueCqHead_face, doSkip_face, doRetry_face]
theorem Module.writeKrf_face (m : Module) (src : Source) (o : Nat) (v : Nat) : (Module.writeKrf m src o v).face = m.face := by
  simp only [Module.writeKrf, face_simp, doServe_face]
theorem Module.writePwr_face (m : Module) (src : Source) (o : Nat) (v : Nat) : (Module.writePwr m src o v).face = m.face := by
  simp only [Module.writePwr, face_simp, doPwrCap_face, doPwrMgrHeartbeat_face, Module.recap_face]
theorem Module.writeAos_face (m : Module) (src : Source) (o : Nat) (v : Nat) (raw : Nat) : (Module.writeAos m src o v raw).face = m.face := by
  simp only [Module.writeAos, face_simp, doAosLeaseClaim_face, doIrqStatusClear_face]
theorem Module.writeEng_face (m : Module) (o : Nat) (v : Nat) (raw : Nat) : (Module.writeEng m o v raw).face = m.face := by
  unfold Module.writeEng
  repeat' split
  all_goals simp only [face_simp, doEngTagSummaryClear_face]

end Sys2Proof.Machine
end

