-- ==== Sys2Proof/Laws/Issue.lean ====
section
/-! SUPPORT. Laws of the issue of an instruction: where a thread goes on, what an instruction that goes leaves, and the three things
that an issue can do. -/

namespace Sys2Proof.Machine

open Sys2Proof

/-- A bit of a word is Lean's own. -/
theorem bitAt_eq (x i : Nat) : bitAt x i = x.testBit i := by
  rw [Nat.testBit_eq_decide_div_mod_eq]
  simp [bitAt, fld, Nat.shiftRight_eq_div_pow]
  rfl

@[simp] theorem setX_pc (th : Thread) (n : Nat) (v : Word) : (th.setX n v).pc = th.pc := by
  unfold Thread.setX
  split <;> rfl

@[simp] theorem setX_v (th : Thread) (n : Nat) (v : Word) : (th.setX n v).v = th.v := by
  unfold Thread.setX
  split <;> rfl

/-- What a register reads as after a write: X0 stays 0 (R195). -/
theorem xr_setX (th : Thread) (n j : Nat) (v : Word) :
    (th.setX n v).xr j = if j = n ∧ n ≠ 0 then v else th.xr j := by
  unfold Thread.setX Thread.xr
  by_cases h : n = 0
  · simp [h]
  · rw [if_neg h]
    by_cases hj : j = 0
    · simp [hj, h, Ne.symm h]
    · simp only [hj, if_false, kgetD_kset, h, ne_eq, not_false_eq_true, and_true]

/-- What a lane reads as after a write. -/
theorem lane_setLane (th : Thread) (n i a j : Nat) (v : Word) :
    (th.setLane n i v).lane a j = if 64 * a + j = 64 * n + i then v else th.lane a j := by
  unfold Thread.setLane Thread.lane
  exact kgetD_kset ..

/-- The thread goes on inside the program region. -/
theorem goTo_inside {k : Core} {th : Thread} {n : Nat} (h : k.pcInside n = true) :
    goTo k th n = .go { core := k, th := { th with pc := n, st := .ready } } := by
  unfold goTo
  rw [if_pos ⟨Int.natCast_nonneg n, by simpa using h⟩]
  simp

/-- Outside it the task aborts with 0x0602 (R200). -/
theorem goTo_outside {k : Core} {th : Thread} {t : Int} (h : t < 0 ∨ k.pcInside t.toNat = false) :
    goTo k th t = goAbort k th 0x0602 := by
  unfold goTo
  rw [if_neg]
  rintro ⟨h1, h2⟩
  rcases h with h | h
  · omega
  · rw [h] at h2; contradiction

theorem goNext_inside {k : Core} {th : Thread} (h : NextInside k th) :
    goNext k th = .go { core := k, th := { th with pc := th.pc + 32, st := .ready } } :=
  goTo_inside h

theorem goSet_inside {k : Core} {th : Thread} {w : Nat} {v : Word} (h : NextInside k th) :
    goSet k th w v = .go { core := k, th := { th.setX (iRD w) v with pc := th.pc + 32, st := .ready } } := by
  unfold goSet
  rw [goNext_inside (by simpa [NextInside] using h)]
  simp

/-- Another core with the same image has the same program region. -/
theorem pcInside_img {k k' : Core} (h : k'.img = k.img) (n : Nat) : k'.pcInside n = k.pcInside n := by
  unfold Core.pcInside
  rw [h]

theorem NextInside.img {k k' : Core} {th : Thread} (h : NextInside k th) (e : k'.img = k.img) : NextInside k' th := by
  unfold NextInside at *
  rw [pcInside_img e]
  exact h

/-- An instruction that leaves only a core and a thread. -/
theorem commit_plain (m : Module) (p c t : Nat) (u : CUnit) (k : Core) (th : Thread) :
    m.commit p c t u { core := k, th := th }
      = { m with cores := kput m.cores c ({ k with threads := kput k.threads t th }.served u t) } := by
  simp [Module.commit]

/-- What an instruction leaves with the correctable errors that its fetch met (R297). -/
def CoreOut.fetched (o : CoreOut) (k : Core) (th : Thread) : CoreOut := { o with soft := k.softFetch th ++ o.soft }

theorem issue_go {s : State} {c t op p : Nat} {k : Core} {th : Thread} {w : Nat} {u : CUnit}
    {f : Ctx → Core → Thread → Nat → CoreRes} {o : CoreOut} (h : Issues s c t op p k th w)
    (hf : f (s.m.ctx p c) k th w = .go o) : issue c t op u f s.m = s.m.commit p c t u (o.fetched k th) := by
  obtain ⟨h1, rfl, h3, h4⟩ := h
  unfold issue
  simp [h1, h3, h4, hf, CoreOut.fetched]

theorem issue_wait {s : State} {c t op p : Nat} {k : Core} {th : Thread} {w : Nat} {u : CUnit}
    {f : Ctx → Core → Thread → Nat → CoreRes} (h : Issues s c t op p k th w)
    (hf : f (s.m.ctx p c) k th w = .wait) : issue c t op u f s.m = s.m.park c t k th := by
  obtain ⟨h1, rfl, h3, h4⟩ := h
  unfold issue
  simp [h1, h3, h4, hf]

theorem issueOr_go {s : State} {c t op p : Nat} {k : Core} {th : Thread} {w : Nat} {u : CUnit}
    {f : Ctx → Core → Thread → Nat → CoreRes} {g : Core → Thread → Nat → Core} {o : CoreOut} (h : Issues s c t op p k th w)
    (hf : f (s.m.ctx p c) k th w = .go o) : issueOr c t op u f g s.m = s.m.commit p c t u (o.fetched k th) := by
  obtain ⟨h1, rfl, h3, h4⟩ := h
  unfold issueOr
  simp [h1, h3, h4, hf, CoreOut.fetched]

theorem issueOr_wait {s : State} {c t op p : Nat} {k : Core} {th : Thread} {w : Nat} {u : CUnit}
    {f : Ctx → Core → Thread → Nat → CoreRes} {g : Core → Thread → Nat → Core} (h : Issues s c t op p k th w)
    (hf : f (s.m.ctx p c) k th w = .wait) : issueOr c t op u f g s.m = s.m.park c t (g k th w) th := by
  obtain ⟨h1, rfl, h3, h4⟩ := h
  unfold issueOr
  simp [h1, h3, h4, hf]

/-- An instruction that the interlock does not hold runs as it is. -/
theorem held_go {hold : Core → Thread → Nat → Bool} {f : Ctx → Core → Thread → Nat → CoreRes} {x : Ctx} {k : Core} {th : Thread} {w : Nat}
    (h : hold k th w = false) : held hold f x k th w = f x k th w := by
  unfold held
  rw [if_neg (by simp [h])]

theorem held_wait {hold : Core → Thread → Nat → Bool} {f : Ctx → Core → Thread → Nat → CoreRes} {x : Ctx} {k : Core} {th : Thread} {w : Nat}
    (h : hold k th w = true) : held hold f x k th w = .wait := by
  unfold held
  rw [if_pos h]

/-- The three things an issue can do: nothing, an abort at an uncorrectable word, or what the instruction does at its core. -/
theorem issue_cases (c t op : Nat) (u : CUnit) (f : Ctx → Core → Thread → Nat → CoreRes) (m : Module) :
    issue c t op u f m = m
    ∨ (∃ p k th b, m.canIssue c t = some (p, k, th) ∧ k.badFetch th = some b ∧ issue c t op u f m = m.t0Abort p c b)
    ∨ (∃ p k th, m.canIssue c t = some (p, k, th) ∧ fld (k.fetch th) 0 8 = op ∧ k.badFetch th = none
        ∧ ((f (m.ctx p c) k th (k.fetch th) = .wait ∧ issue c t op u f m = m.park c t k th)
          ∨ ∃ o, f (m.ctx p c) k th (k.fetch th) = .go o ∧ issue c t op u f m = m.commit p c t u (o.fetched k th))) := by
  unfold issue
  cases h : m.canIssue c t with
  | none => exact .inl rfl
  | some x =>
    obtain ⟨p, k, th⟩ := x
    dsimp only
    by_cases ho : fld (k.fetch th) 0 8 = op
    · rw [if_neg (by simpa using ho)]
      right
      cases hb : k.badFetch th with
      | some b => exact .inl ⟨p, k, th, b, rfl, hb, rfl⟩
      | none =>
        right
        refine ⟨p, k, th, rfl, ho, hb, ?_⟩
        cases hf : f (m.ctx p c) k th (k.fetch th) with
        | wait => exact .inl ⟨rfl, rfl⟩
        | go o => exact .inr ⟨o, rfl, rfl⟩
    · rw [if_pos (by simpa using ho)]
      exact .inl rfl

theorem watched_cores (m : Module) (x : KMap Core) : ({ m with cores := x } : Module).watched = m.watched := rfl

@[simp] theorem foundAt_nil (m : Module) (c : Nat) : foundAt m c [] = m := rfl

theorem watched_logRec (m : Module) (r : FaultRec) : (m.logRec r).watched = m.watched := by
  unfold Module.logRec
  dsimp only
  repeat' split
  all_goals rfl

theorem watched_dueTest (m : Module) (key : Nat) : (m.dueTest key).watched = m.watched := by
  unfold Module.dueTest
  repeat' split
  all_goals rfl

theorem watched_corrected (m : Module) (key : Nat) (l : Loc) (part : Option Nat) (d : Nat) :
    (m.corrected key l part d).watched = m.watched := by
  unfold Module.corrected
  extract_lets quiet m1
  split
  · rfl
  · rw [watched_dueTest]
    unfold Module.logEvent
    rw [watched_logRec]
    rfl

/-- A correctable error that is found changes nothing that an interrupt watches. -/
theorem watched_foundAt (m : Module) (c : Nat) (qs : List Nat) : (foundAt m c qs).watched = m.watched := by
  induction qs generalizing m with
  | nil => rfl
  | cons q qs ih =>
    show (foundAt (m.t0Corrected c q) c qs).watched = _
    rw [ih]
    unfold Module.t0Corrected
    rw [watched_corrected]
    rfl

theorem commit_soft (m : Module) (p c t : Nat) (u : CUnit) (k : Core) (th : Thread) (qs : List Nat) :
    m.commit p c t u { core := k, th := th, soft := qs }
      = foundAt { m with cores := kput m.cores c ({ k with threads := kput k.threads t th }.served u t) } c qs := by
  simp [Module.commit, foundAt]

/-- A core instruction that leaves its core, its thread and the correctable errors it found, as a command. -/
theorem onModule_soft {s : State} {c t op p : Nat} {k k' : Core} {th th' : Thread} {w : Nat} {u : CUnit} {qs : List Nat}
    {f : Ctx → Core → Thread → Nat → CoreRes} (h : Issues s c t op p k th w)
    (hf : f (s.m.ctx p c) k th w = .go { core := k', th := th', soft := qs }) :
    onModule s (issue c t op u f) = .next ((left s c t u k' th').found c (k.softFetch th ++ qs)) := by
  unfold onModule
  rw [issue_go h hf, CoreOut.fetched, commit_soft, settleIrq_same (by rw [watched_foundAt]; exact watched_cores ..)]
  rfl

/-- The same for one that meets no correctable error of its own. -/
theorem onModule_issue {s : State} {c t op p : Nat} {k k' : Core} {th th' : Thread} {w : Nat} {u : CUnit}
    {f : Ctx → Core → Thread → Nat → CoreRes} (h : Issues s c t op p k th w)
    (hf : f (s.m.ctx p c) k th w = .go { core := k', th := th' }) :
    onModule s (issue c t op u f) = .next ((left s c t u k' th').found c (k.softFetch th)) := by
  rw [onModule_soft h hf, List.append_nil]

/-- A core instruction that waits leaves its thread WAITING and nothing else. -/
theorem onModule_wait {s : State} {c t op p : Nat} {k : Core} {th : Thread} {w : Nat} {u : CUnit}
    {f : Ctx → Core → Thread → Nat → CoreRes} (h : Issues s c t op p k th w) (hf : f (s.m.ctx p c) k th w = .wait) :
    onModule s (issue c t op u f) = .next (parked s c t k th) := by
  unfold onModule
  rw [issue_wait h hf]
  unfold Module.park Module.setCore
  rw [settleIrq_same (watched_cores ..)]
  rfl

/-! ## The queues of the engine and the vector unit -/

/-- A thread that can issue stands on a core whose units run. -/
theorem unitsRun_of {m : Module} {c t p : Nat} {k : Core} {th : Thread} (h : m.canIssue c t = some (p, k, th)) :
    m.unitsRun c = some (p, k) := by
  unfold Module.canIssue at h
  unfold Module.unitsRun
  split at h
  · rename_i k' p' e1 e2
    dsimp only at h ⊢
    split at h
    · rename_i h1
      injection h with h
      injection h with h2 h3
      injection h3 with h3 h4
      subst h2 h3
      rw [if_pos (by simp only [Bool.and_eq_true] at h1 ⊢; exact h1.1)]
    · contradiction
  · contradiction

/-- With an empty queue no head runs, and none waits. -/
theorem runHead_empty {m : Module} {c t op p : Nat} {u : CUnit} {k : Core} {f : Ctx → Core → Thread → Nat → CoreRes}
    (h : m.unitsRun c = some (p, k)) (hq : k.queue u = []) : m.runHead c t op u f = none := by
  unfold Module.runHead
  simp only [h, hq]

/-- No head of another thread or opcode runs. -/
theorem runHead_other {m : Module} {c t op p : Nat} {u : CUnit} {k : Core} {f : Ctx → Core → Thread → Nat → CoreRes} {q : Issued} {qs : List Issued}
    (h : m.unitsRun c = some (p, k)) (hq : k.queue u = q :: qs) (hn : q.thread ≠ t ∨ fld q.word 0 8 ≠ op) : m.runHead c t op u f = none := by
  unfold Module.runHead
  simp only [h, hq]
  exact if_pos hn

theorem headWaits_empty {m : Module} {c p : Nat} {u : CUnit} {k : Core} (h : m.unitsRun c = some (p, k)) (hq : k.queue u = []) :
    m.headWaits c u = m := by
  cases u with
  | engine => unfold Module.headWaits; simp only [h]; rw [show k.engQ = [] from hq]
  | vector => rfl
  | stream => rfl
  | scalar => rfl

/-- The head of the vector unit's queue waits for nothing that time brings. -/
theorem headWaits_vector (m : Module) (c : Nat) : m.headWaits c .vector = m := by
  unfold Module.headWaits
  rfl

section Queue

variable {s : State} {c t op p : Nat} {k : Core} {th : Thread} {w : Nat} {u : CUnit} {f : Ctx → Core → Thread → Nat → CoreRes}
  {once : Ctx → Core → Thread → Nat → Bool} {spans : Ctx → Core → Thread → Nat → List Span}

/-- What an issue does once no head has run and, with an empty queue, none waits. -/
theorem issueQ_empty (h : Issues s c t op p k th w) (hq : k.queue u = []) :
    issueQ c t op u f once spans s.m =
      if !once (s.m.ctx p c) k th w && (!k.clear t (spans (s.m.ctx p c) k th w) || u.room = 0) then s.m.park c t k th
      else match f (s.m.ctx p c) k th w with
        | .wait => s.m.enqueue c t u k th w (spans (s.m.ctx p c) k th w)
        | .go o => s.m.commit p c t u (o.fetched k th) := by
  obtain ⟨h1, rfl, h3, h4⟩ := h
  unfold issueQ
  simp only [runHead_empty (unitsRun_of h1) hq, headWaits_empty (unitsRun_of h1) hq, h1, h3, h4, hq, List.isEmpty_nil, Bool.or_true,
    if_true, List.length_nil, Nat.le_zero_eq, CoreOut.fetched]
  rw [if_neg (by simp)]
  first
    | done
    | split <;> rfl

/-- An instruction that is over at issue, or that the interlock lets go, runs at once where the unit's queue is empty. -/
theorem issueQ_go {o : CoreOut} (h : Issues s c t op p k th w) (hq : k.queue u = [])
    (hc : once (s.m.ctx p c) k th w = true ∨ (k.clear t (spans (s.m.ctx p c) k th w) = true ∧ u.room ≠ 0))
    (hf : f (s.m.ctx p c) k th w = .go o) : issueQ c t op u f once spans s.m = s.m.commit p c t u (o.fetched k th) := by
  rw [issueQ_empty h hq, if_neg, hf]
  rcases hc with hc | ⟨hc, hr⟩
  · simp [hc]
  · simp [hc, hr]

/-- One that the interlock of R139 holds back waits. -/
theorem issueQ_hold (h : Issues s c t op p k th w) (hq : k.queue u = []) (ho : once (s.m.ctx p c) k th w = false)
    (hc : k.clear t (spans (s.m.ctx p c) k th w) = false) : issueQ c t op u f once spans s.m = s.m.park c t k th := by
  rw [issueQ_empty h hq, if_pos (by simp [ho, hc])]

/-- One that waits at its start enters the queue. -/
theorem issueQ_wait (h : Issues s c t op p k th w) (hq : k.queue u = []) (hr : u.room ≠ 0)
    (hc : k.clear t (spans (s.m.ctx p c) k th w) = true) (hf : f (s.m.ctx p c) k th w = .wait) :
    issueQ c t op u f once spans s.m = (enqueued s c t u k th w (spans (s.m.ctx p c) k th w)).headWaits c u := by
  rw [issueQ_empty h hq, if_neg (by simp [hc, hr]), hf]
  cases u <;> rfl

/-- Behind others an instruction enters the queue, or waits for room. -/
theorem issueQ_behind {s : State} {c t op p : Nat} {k : Core} {th : Thread} {w : Nat} {u : CUnit} {f : Ctx → Core → Thread → Nat → CoreRes}
    {once : Ctx → Core → Thread → Nat → Bool} {spans : Ctx → Core → Thread → Nat → List Span} {q : Issued} {qs : List Issued}
    (h : Issues s c t op p k th w) (hq : k.queue u = q :: qs) (hn : q.thread ≠ t ∨ fld q.word 0 8 ≠ op) (hh : s.m.headWaits c u = s.m)
    (ho : once (s.m.ctx p c) k th w = false) (hc : k.clear t (spans (s.m.ctx p c) k th w) = true) :
    issueQ c t op u f once spans s.m = if (k.queue u).length < u.room then (enqueued s c t u k th w (spans (s.m.ctx p c) k th w)).headWaits c u
      else s.m.park c t k th := by
  obtain ⟨h1, rfl, h3, h4⟩ := h
  unfold issueQ
  simp only [runHead_other (unitsRun_of h1) hq hn, hh, h1, h3, h4, ho, hc]
  by_cases hr : (k.queue u).length < u.room
  · rw [if_neg (by simp), if_neg (by simp; omega), if_neg (by simp [hq]), if_pos hr]
    cases u <;> rfl
  · rw [if_neg (by simp), if_pos (by simp; omega), if_neg hr]

/-- The instruction at the head of the queue runs. -/
theorem issueQ_head {q : Issued} {qs : List Issued} {o : CoreOut} (h : AtHead s c t op p u k q qs)
    (hf : f (s.m.ctx p c) (k.setQueue u qs) (q.view k) q.word = .go o) :
    issueQ c t op u f once spans s.m = s.m.commit p c t u { o with th := { kgetD ({} : Thread) k.threads t with v := o.th.v } } := by
  obtain ⟨h1, h2, h3, h4⟩ := h
  unfold issueQ Module.runHead
  simp only [h1, h2, h3, h4, hf, ne_eq, not_true_eq_false, or_self, if_false]

end Queue

/-- An instruction with a tag summary beside its core, its thread and the errors it found, as a command. -/
theorem commit_tags (m : Module) (p c t : Nat) (u : CUnit) (k : Core) (th : Thread) (g : Nat) (qs : List Nat) :
    m.commit p c t u { core := k, th := th, tags := g, soft := qs }
      = foundAt (tagged { m with cores := kput m.cores c ({ k with threads := kput k.threads t th }.served u t) } p g) c qs := by
  simp only [Module.commit, foundAt, tagged]
  rfl

end Sys2Proof.Machine
end

