-- ==== Sys2Proof/Laws/Outcome.lean ====
section
/-! SUPPORT. What a command's outcome is, from what its effect does to the module: the equations from which completion and result statements
follow, and the fields that interrupts leave alone. -/

namespace Sys2Proof.Machine

open Sys2Proof

theorem goSet_next {k : Core} {th : Thread} {w : Nat} {v : Word} (h : NextInside k th) :
    goSet k th w v = .go { core := k, th := (th.setX (iRD w) v).next } := by
  rw [goSet_inside h]; simp [Thread.next]

theorem exec_set {s : State} {c t op p k k' th w v f} {u : CUnit} (h : Issues s c t op p k th w) (hn : NextInside k' th)
    (hf : f (s.m.ctx p c) k th w = goSet k' th w v) :
    onModule s (issue c t op u f) = .next ((left s c t u k' (th.setX (iRD w) v).next).found c (k.softFetch th)) := 
  onModule_issue h (hf.trans (goSet_next hn))

theorem exec_next {s : State} {c t op p k k' th w f} {u : CUnit} (h : Issues s c t op p k th w) (hn : NextInside k' th)
    (hf : f (s.m.ctx p c) k th w = goNext k' th) :
    onModule s (issue c t op u f) = .next ((left s c t u k' th.next).found c (k.softFetch th)) := 
  onModule_issue h (hf.trans (goNext_inside hn))

theorem logRec_watched (m : Module) (r : FaultRec) : (m.logRec r).watched = m.watched := by
  unfold Module.logRec
  split
  · dsimp only
    split <;> split <;> rfl
  · rfl

theorem corrected_watched (m : Module) (key l part d) : (m.corrected key l part d).watched = m.watched := by
  unfold Module.corrected
  extract_lets q
  split
  · rfl
  · unfold Module.dueTest Module.logEvent
    split
    · rw [logRec_watched]; rfl
    · show Module.watched (Module.logRec _ _) = _
      rw [logRec_watched]; rfl

theorem t0Corrected_watched (m : Module) (c w) : (m.t0Corrected c w).watched = m.watched := by
  unfold Module.t0Corrected
  rw [corrected_watched]; rfl

theorem issue_next {s : State} {c t op p : Nat} {k k' : Core} {th th' : Thread} {w : Nat} {u : CUnit}
    {f : Ctx → Core → Thread → Nat → CoreRes} (h : Issues s c t op p k th w)
    (hf : f (s.m.ctx p c) k th w = .go { core := k', th := th' }) : issue c t op u f s.m = foundAt (left s c t u k' th').m c (k.softFetch th) := by
  rw [issue_go h hf, CoreOut.fetched, commit_soft, List.append_nil]; rfl

theorem issueOr_next {s : State} {c t op p : Nat} {k k' : Core} {th th' : Thread} {w : Nat} {u : CUnit}
    {f : Ctx → Core → Thread → Nat → CoreRes} {g} (h : Issues s c t op p k th w)
    (hf : f (s.m.ctx p c) k th w = .go { core := k', th := th' }) : issueOr c t op u f g s.m = foundAt (left s c t u k' th').m c (k.softFetch th) := by
  rw [issueOr_go h hf, CoreOut.fetched, commit_soft, List.append_nil]; rfl

theorem onModule_same {s : State} {f : Module → Module} {m : Module} (h : f s.m = m) (hw : m.watched = s.m.watched) :
    onModule s f = .next { s with m := m } := by
  unfold onModule; rw [h, settleIrq_same hw]

/-- A command's outcome is what its effect leaves, with the interrupts that the change causes. -/
theorem onModule_of {s : State} {f : Module → Module} {m : Module} (h : f s.m = m) : onModule s f = after s m := by
  unfold onModule; rw [h]; rfl

/-- The outcome of a command that leaves its thread WAITING. -/
theorem onModule_parked {s : State} {f : Module → Module} {c t : Nat} {k : Core} {th : Thread} (h : f s.m = s.m.park c t k th) :
    onModule s f = .next (parked s c t k th) := by
  refine (onModule_same h ?_).trans rfl
  rfl

theorem coreControl_watched (m : Module) (p c r q x) : (m.coreControl p c r q x).watched = m.watched := rfl

theorem portSend_watched (m : Module) (p c r x) : (m.portSend p c r x).watched = m.watched := by
  unfold Module.portSend
  split <;> rfl

theorem foldl_watched {α : Type} (f : Module → α → Module) (h : ∀ m a, (f m a).watched = m.watched) (l : List α) (m : Module) :
    (l.foldl f m).watched = m.watched := by
  induction l generalizing m with
  | nil => rfl
  | cons a l ih => rw [List.foldl_cons, ih, h]

theorem endpointCredits_watched (m : Module) (p c e n) : (m.endpointCredits p c e n).watched = m.watched := by
  unfold Module.endpointCredits
  refine foldl_watched _ (fun m a => ?_) _ _
  rfl

theorem chainForward_watched (m : Module) (p c e) : (m.chainForward p c e).watched = m.watched := by
  unfold Module.chainForward
  extract_lets x n
  split
  · rfl
  · rw [endpointCredits_watched]; rfl

theorem releaseCredits_watched (m : Module) (p c e n) : (m.releaseCredits p c e n).watched = m.watched := by
  unfold Module.releaseCredits
  extract_lets x
  split
  · show (Module.chainForward _ _ _ _).watched = _
    rw [chainForward_watched]; rfl
  · rw [endpointCredits_watched]

theorem kupd_some {α} {m : KMap α} {k v} {f : α → α} (h : kget? m k = some v) : kupd m k f = kput m k (f v) := by
  unfold kupd; rw [h]

def SameCP (m m' : Module) : Prop := m'.cores = m.cores ∧ m'.parts = m.parts

theorem SameCP.refl (m : Module) : SameCP m m := ⟨rfl, rfl⟩

theorem SameCP.trans {a b c : Module} (h : SameCP a b) (g : SameCP b c) : SameCP a c := ⟨g.1.trans h.1, g.2.trans h.2⟩

theorem logRec_cp (m r) : SameCP m (m.logRec r) := by
  unfold Module.logRec
  split
  · dsimp only
    split <;> split <;> exact ⟨rfl, rfl⟩
  · exact .refl m

theorem foldl_cp {α : Type} (f : Module → α → Module) (h : ∀ m a, SameCP m (f m a)) (l : List α) (m : Module) :
    SameCP m (l.foldl f m) := by
  induction l generalizing m with
  | nil => exact .refl m
  | cons a l ih => rw [List.foldl_cons]; exact (h m a).trans (ih _)

theorem finish_cp (m q c s n i) : SameCP m (Module.finish m q c s n i) := by
  unfold Module.finish
  extract_lets x
  split
  · exact .refl m
  · split <;> exact ⟨rfl, rfl⟩

theorem complete_cp (m q c i) : SameCP m (Module.complete m q c i) := by
  unfold Module.complete
  split
  · exact finish_cp ..
  · exact .refl m

theorem completeAll_cp (m p c sel) : SameCP m (Module.completeAll m p c sel) := by
  unfold Module.completeAll
  refine foldl_cp _ (fun m q => ?_) _ _
  split
  · exact complete_cp ..
  · exact .refl m

theorem restClusters_cp (m p) : SameCP m (Module.restClusters m p) := by
  unfold Module.restClusters
  split
  · exact .refl m
  · exact ⟨rfl, rfl⟩

theorem txFrame_cp (m p f) : SameCP m (Module.txFrame m p f) := ⟨rfl, rfl⟩

theorem sendFrame_cp (m a b c d e) : SameCP m (Module.sendFrame m a b c d e) := by
  unfold Module.sendFrame
  extract_lets p
  split
  · exact .refl m
  · repeat' split
    all_goals exact ⟨rfl, rfl⟩

theorem sendHerdStop_cp (m a b c d) : SameCP m (Module.sendHerdStop m a b c d) := by
  unfold Module.sendHerdStop
  split
  · exact .refl m
  · exact ⟨rfl, rfl⟩

theorem sendHerdAbort_cp (m h c b) : SameCP m (Module.sendHerdAbort m h c b) := by
  unfold Module.sendHerdAbort
  dsimp only
  refine SameCP.trans (foldl_cp _ (fun m a => ?_) _ _) (sendHerdStop_cp ..)
  obtain ⟨k, g⟩ := a
  refine foldl_cp _ (fun m j => ?_) _ _
  split
  · exact .refl m
  · exact sendFrame_cp ..

theorem abortHerds_cp (m p c b) : SameCP m (Module.abortHerds m p c b) := by
  unfold Module.abortHerds
  exact foldl_cp _ (fun m a => sendHerdAbort_cp ..) _ _

/-- cores same; parts same but for p, whose change is f -/
theorem part_modPart (m : Module) (p q f) : (m.modPart p f).part q = if q = p then f (m.part p) else m.part q := by
  unfold Module.modPart Module.setPart Module.part
  rw [kgetD_kput]

theorem SameCP.part {m m' : Module} (h : SameCP m m') (q) : m'.part q = m.part q := by
  unfold Module.part; rw [h.2]

theorem endTask_eq (m : Module) (p code : Nat) :
    (m.endTask p code).cores = m.cores ∧ (∀ q, q ≠ p → (m.endTask p code).part q = m.part q)
    ∧ ((m.endTask p code).part p) = { m.part p with taskRunning := false, started := false, flushing := false, lastCode := code, starter := none, resumed := false, st := if (m.part p).st = .draining then .halted else (m.part p).st } := by
  unfold Module.endTask
  extract_lets x id m1 m2 m3 m4 m5
  have h3 : SameCP m1 m3 := SameCP.trans (⟨rfl, rfl⟩ : SameCP m1 m2) (restClusters_cp ..)
  have h4 : SameCP m1 m4 := by
    refine h3.trans ?_
    show SameCP m3 (match x.starter with | some q => m3.complete q code id | none => m3)
    split
    · exact complete_cp ..
    · exact .refl _
  have e1 : ∀ q, m1.part q = if q = p then { m.part p with taskRunning := false, started := false, flushing := false, lastCode := code, starter := none, resumed := false } else m.part q := fun q => part_modPart ..
  split
  · rename_i hd
    have h5 : SameCP m5 (m5.completeAll p 0 fun q => q.op = 0x03) := completeAll_cp ..
    have e5 : ∀ q, m5.part q = if q = p then { m4.part p with st := .halted } else m4.part q := fun q => part_modPart ..
    refine ⟨h5.1.trans h4.1, fun q hq => ?_, ?_⟩
    · rw [h5.part, e5, if_neg hq, h4.part, e1, if_neg hq]
    · rw [h5.part, e5, if_pos rfl, h4.part, e1, if_pos rfl]
  · rename_i hd
    refine ⟨h4.1, fun q hq => ?_, ?_⟩
    · rw [h4.part, e1, if_neg hq]
    · rw [h4.part, e1, if_pos rfl]

theorem failTake_eq (m : Module) (p : Nat) :
    (m.failTake p).cores = m.cores ∧ (∀ q, q ≠ p → (m.failTake p).part q = m.part q)
    ∧ ∃ k, ((m.failTake p).part p) = { m.part p with krf := k } := by
  unfold Module.failTake
  extract_lets x m1 drop s0 m2 m3 m4
  split
  · exact ⟨rfl, fun _ _ => rfl, _, rfl⟩
  · rename_i t _
    have h1 : SameCP m m2 := ⟨rfl, rfl⟩
    have h4 : SameCP m3 (m4.complete t.queue 0x0702 0) := (logRec_cp ..).trans (complete_cp ..)
    have e3 : ∀ q, m3.part q = if q = p then { m2.part p with krf := { (m2.part p).krf with take := none, phase := .idle } } else m2.part q := fun q => part_modPart ..
    refine ⟨h4.1.trans h1.1, fun q hq => ?_, { (m2.part p).krf with take := none, phase := .idle }, ?_⟩
    · rw [h4.part, e3, if_neg hq, h1.part]
    · rw [h4.part, e3, if_pos rfl, h1.part]

theorem kget?_kmapv {α} (f : Nat → α → α) (m : KMap α) (k : Nat) : kget? (kmapv f m) k = (kget? m k).map (f k) := by
  induction m with
  | nil => rfl
  | cons a m ih =>
    obtain ⟨j, v⟩ := a
    unfold kmapv at *
    simp only [List.map_cons, kget?]
    split
    · rename_i h; subst h; rfl
    · exact ih

theorem mapCores_part (m : Module) (p f q) : (m.mapCores p f).part q = m.part q := rfl

theorem undoResults_cp (m : Module) (p) : SameCP m (m.undoResults p) := by
  unfold Module.undoResults
  refine foldl_cp _ (fun m e => ?_) _ _
  split
  · exact .refl m
  · split
    · exact .refl m
    · refine foldl_cp _ (fun m x => ?_) _ _
      dsimp only
      split <;> exact ⟨rfl, rfl⟩

theorem endFH_cp (m : Module) (p) : SameCP m (((m.endFlows p).endHerds p).undoResults p) :=
  SameCP.trans ⟨rfl, rfl⟩ (undoResults_cp ..)

theorem abortTask_eq (m : Module) (p code : Nat) (l : Loc) (h : (m.part p).taskRunning = true) :
    (m.abortTask p code l).cores = (m.mapCores p abortCore).cores ∧ (∀ q, q ≠ p → (m.abortTask p code l).part q = m.part q)
    ∧ ∃ k, (m.abortTask p code l).part p = { m.part p with taskRunning := false, started := false, flushing := false, lastCode := code, starter := none, resumed := false, st := if (m.part p).st = .draining then .halted else (m.part p).st, krf := k, abortSlot := some m.net.slot } := by
  unfold Module.abortTask
  rw [if_pos h]
  extract_lets m1 m0 m2 m3 m4 m5 m6
  have h1 : SameCP m m1 := logRec_cp ..
  have hs : m1.net.slot = m.net.slot := by
    show (Module.logRec _ _).net.slot = _
    unfold Module.logRec
    dsimp only
    repeat' split
    all_goals rfl
  have e0 : ∀ q, m0.part q = if q = p then { m1.part p with abortSlot := some m1.net.slot } else m1.part q := fun q => part_modPart ..
  have h2 : m2.cores = (m.mapCores p abortCore).cores := by
    have : m2 = m0.mapCores p abortCore := rfl
    rw [this]
    unfold Module.mapCores
    have hc : m0.cores = m.cores := h1.1
    have hp : (m0.part p).hasCore = (m.part p).hasCore := by rw [e0, if_pos rfl, h1.part]; rfl
    simp only [hc, hp]
  have h2p : ∀ q, m2.part q = if q = p then { m.part p with abortSlot := some m.net.slot } else m.part q := fun q => by
    rw [show m2.part q = m0.part q from mapCores_part m0 p abortCore q, e0, h1.part, hs, h1.part]
  have a3 : SameCP m2 m3 := abortHerds_cp ..
  have a4 : SameCP m3 m4 := completeAll_cp ..
  have a5 : SameCP m4 m5 := endFH_cp m4 p
  have h3 := (a3.trans a4).trans a5
  have a6 : m6 = m5.endTask p code := rfl
  clear_value m1 m0 m2 m3 m4 m5 m6
  obtain ⟨g1, g2, g3⟩ := endTask_eq m5 p code
  rw [← a6] at g1 g2 g3
  rw [h3.part, h2p, if_pos rfl] at g3
  have e6 : ∀ q, q ≠ p → m6.part q = m.part q := fun q hq => by rw [g2 q hq, h3.part, h2p, if_neg hq]
  split
  · obtain ⟨f1, f2, k, f3⟩ := failTake_eq m6 p
    have u1 : (m6.failTake p).cores = (m.mapCores p abortCore).cores := by rw [f1, g1, h3.1, h2]
    have u2 : ∀ q, q ≠ p → (m6.failTake p).part q = m.part q := fun q hq => by rw [f2 q hq, e6 q hq]
    rw [g3] at f3
    exact ⟨u1, u2, k, f3⟩
  · have u1 : m6.cores = (m.mapCores p abortCore).cores := by rw [g1, h3.1, h2]
    exact ⟨u1, e6, (m.part p).krf, g3⟩

theorem exec_jump {s : State} {c t op p k th w f n} (h : Issues s c t op p k th w) (hi : k.pcInside n = true)
    (hf : f (s.m.ctx p c) k th w = goTo k th n) :
    onModule s (issue c t op .scalar f) = .next ((left s c t .scalar k { th with pc := n, st := .ready }).found c (k.softFetch th)) := 
  onModule_issue h (hf.trans (goTo_inside hi))

end Sys2Proof.Machine
end

