-- ==== Sys2Proof/Laws/Task.lean ====
section
/-! SUPPORT. Task aborts, failed partitions, engine commands, list resolution and the start of threads: what each operation does, once. -/

namespace Sys2Proof.Machine

open Sys2Proof

theorem issue_abort {s : State} {c t op p : Nat} {k : Core} {th : Thread} {w : Nat} {u : CUnit} {code : Nat}
    {f : Ctx → Core → Thread → Nat → CoreRes} (h : Issues s c t op p k th w)
    (hf : f (s.m.ctx p c) k th w = goAbort k th code) (hc : code ≠ 0x0402) :
    issue c t op u f s.m = (foundAt (left s c t u k th).m c (k.softFetch th)).abortTask p code (.core c) := by
  rw [issue_go h hf]
  unfold Module.commit CoreOut.fetched
  simp [hc, left, foundAt]

theorem exec_abort {s : State} {c t op p : Nat} {k : Core} {th : Thread} {w : Nat} {u : CUnit} {code : Nat}
    {f : Ctx → Core → Thread → Nat → CoreRes} (h : Issues s c t op p k th w)
    (hf : f (s.m.ctx p c) k th w = goAbort k th code) (hc : code ≠ 0x0402) :
    onModule s (issue c t op u f) = after s ((foundAt (left s c t u k th).m c (k.softFetch th)).abortTask p code (.core c)) := by
  unfold onModule
  rw [issue_abort h hf hc]; rfl

theorem core_modCore (m : Module) (c d f) : (m.modCore c f).core d = if d = c then f (m.core c) else m.core d := by
  unfold Module.modCore Module.setCore Module.core
  rw [kgetD_kput]

theorem win_setWin (m : Module) (c i d j w) : (m.setWin c i w).win d j = if d = c ∧ j = i then w else m.win d j := by
  unfold Module.win Module.setWin
  rw [core_modCore]
  by_cases h : d = c
  · subst h
    simp only [if_true, true_and]
    rw [kgetD_kput]
  · simp [h]

/-- what winSend leaves -/
structure Sent (m m' : Module) (p c i : Nat) (x : BitVec 480) : Prop where
  win : m'.win c i = { m.win c i with seqOut := ((m.win c i).seqOut + 1) % 256 }
  sram : (m'.core c).sram = (m.core c).sram
  other : ∀ d, d ≠ c → m'.core d = m.core d
  parts : m'.parts = m.parts
  fl : ∃ f : Flight, m'.net.flights = m.net.flights ++ [f] ∧ (f.route, f.part, f.hdr, f.payload) = ((m.win c i).pullOut, p, mkHeader (m.win c i).pullOut 4 0 (m.win c i).seqOut 0, [controlFlit x])

theorem winSend_sent (m p c i x) : Sent m (m.winSend p c i x) p c i x := by
  constructor
  · show (m.setWin c i _).win c i = _
    rw [win_setWin, if_pos ⟨rfl, rfl⟩]
  · show ((m.setWin c i _).core c).sram = _
    unfold Module.setWin
    rw [core_modCore, if_pos rfl]
  · intro d hd
    show (m.setWin c i _).core d = _
    unfold Module.setWin
    rw [core_modCore, if_neg hd]
  · rfl
  · exact ⟨_, rfl, rfl⟩

theorem fold_sent (xs : List (BitVec 480)) (m m' : Module) (p c i : Nat) (hs : (m.win c i).seqOut < 256)
    (hm : xs.foldl (fun m x => m.winSend p c i x) m = m') :
    m'.win c i = { m.win c i with seqOut := ((m.win c i).seqOut + xs.length) % 256 }
    ∧ (m'.core c).sram = (m.core c).sram ∧ (∀ d, d ≠ c → m'.core d = m.core d) ∧ m'.parts = m.parts
    ∧ ∃ fs : List Flight, m'.net.flights = m.net.flights ++ fs ∧ fs.map (fun f => (f.route, f.part, f.hdr, f.payload)) =
      (List.range xs.length).map (fun j => ((m.win c i).pullOut, p, mkHeader (m.win c i).pullOut 4 0 (((m.win c i).seqOut + j) % 256) 0, [controlFlit (xs.getD j 0)])) := by
  induction xs generalizing m with
  | nil =>
    subst hm
    refine ⟨?_, rfl, fun _ _ => rfl, rfl, [], by simp, rfl⟩
    have : ((m.win c i).seqOut + 0) % 256 = (m.win c i).seqOut := Nat.mod_eq_of_lt hs
    rw [show ([] : List (BitVec 480)).length = 0 from rfl, this]
    rfl
  | cons x xs ih =>
    rw [List.foldl_cons] at hm
    have h := winSend_sent m p c i x
    generalize m.winSend p c i x = m1 at *
    obtain ⟨a1, a2, a3, a4, fs, a5, a6⟩ := ih m1 (by rw [h.win]; exact Nat.mod_lt _ (by decide)) hm
    refine ⟨?_, a2.trans h.sram, fun d hd => (a3 d hd).trans (h.other d hd), a4.trans h.parts, ?_⟩
    · rw [a1, h.win]
      simp only [List.length_cons, Nat.mod_add_mod]
      rw [show (m.win c i).seqOut + 1 + xs.length = (m.win c i).seqOut + (xs.length + 1) by omega]
    · obtain ⟨f, b1, b2⟩ := h.fl
      refine ⟨f :: fs, ?_, ?_⟩
      · rw [a5, b1]; simp
      · rw [List.map_cons, a6, b2, h.win, List.length_cons, List.range_succ_eq_map, List.map_cons, List.map_map]
        refine congr (congrArg List.cons ?_) ?_
        · rw [Nat.add_zero, Nat.mod_eq_of_lt hs, List.getD_cons_zero]
        · apply List.map_congr_left
          intro j _
          simp only [Function.comp, Nat.mod_add_mod, List.getD_cons_succ]
          rw [show (m.win c i).seqOut + 1 + j = (m.win c i).seqOut + j.succ by omega]

theorem resolve_wins {k k' : Core} {a d f : Nat} (h : resolve k a = .done k' d f) : k'.wins = k.wins := by
  unfold resolve at h
  dsimp only at h
  repeat' split at h
  all_goals first | contradiction | (injection h with h1; rw [← h1]; rfl)

theorem logEvent_cp (m c l p t d) : SameCP m (Module.logEvent m c l p t d) := logRec_cp ..

theorem logRec_net (m r) : (Module.logRec m r).net = m.net ∧ (Module.logRec m r).str = m.str := by
  unfold Module.logRec
  split
  · dsimp only
    split <;> split <;> exact ⟨rfl, rfl⟩
  · exact ⟨rfl, rfl⟩

/-- What the finding of correctable errors leaves alone (R297). -/
structure Quiet (m m' : Module) : Prop where
  cp : SameCP m m'
  net : m'.net = m.net
  str : m'.str = m.str

theorem Quiet.trans {a b c : Module} (h : Quiet a b) (g : Quiet b c) : Quiet a c :=
  ⟨h.cp.trans g.cp, g.net.trans h.net, g.str.trans h.str⟩

theorem logRec_quiet (m r) : Quiet m (m.logRec r) := ⟨logRec_cp .., (logRec_net ..).1, (logRec_net ..).2⟩

theorem corrected_quiet (m : Module) (key l part d) : Quiet m (m.corrected key l part d) := by
  unfold Module.corrected
  extract_lets q
  split
  · exact ⟨.refl m, rfl, rfl⟩
  · have h : ∀ t, Quiet m (({ m with tier := t } : Module).logEvent 0x0401 l part 0 d) := fun t =>
      Quiet.trans (b := { m with tier := t }) ⟨⟨rfl, rfl⟩, rfl, rfl⟩ (logRec_quiet ..)
    unfold Module.dueTest
    split
    · exact h _
    · exact (h _).trans ⟨⟨rfl, rfl⟩, rfl, rfl⟩

theorem t0Corrected_quiet (m : Module) (c w : Nat) : Quiet m (m.t0Corrected c w) := by
  have h : ∀ t, Quiet m (({ m with tier := t } : Module).corrected (t0Key c (w / 2)) (t0Loc c w) (m.partOfCore c) (w / 40)) := fun t =>
    Quiet.trans (b := { m with tier := t }) ⟨⟨rfl, rfl⟩, rfl, rfl⟩ (corrected_quiet { m with tier := t } ..)
  exact h { m.tier with eccT0Corr := satN 32 (m.tier.eccT0Corr + 1) }

theorem foundAt_quiet (m : Module) (c : Nat) (qs : List Nat) : Quiet m (foundAt m c qs) := by
  induction qs generalizing m with
  | nil => exact ⟨.refl m, rfl, rfl⟩
  | cons q qs ih => exact (t0Corrected_quiet m c q).trans (ih _)

theorem resolveFor_done {m : Module} {p c i : Nat} {e : Layer} {k : Core} {dropped fb : Nat} (h1 : e.predicted = true) (h2 : e.predReuse = false)
    (hk : resolve (m.core c) (m.win c i).listAddr = .done k dropped fb) :
    ∃ mr, m.resolveFor p c i e = (mr, true) ∧ mr.cores = kput m.cores c k
        ∧ mr.net = m.net ∧ mr.str = m.str
        ∧ mr.part p = { m.part p with dropped := satN 32 ((m.part p).dropped + dropped), fallbacks := satN 16 ((m.part p).fallbacks + fb) } := by
  unfold Module.resolveFor
  simp only [h1, h2, hk]
  simp only [Bool.not_false, Bool.and_self, if_true]
  refine ⟨_, rfl, ?_⟩
  have hq := foundAt_quiet (m.setCore c k) c ((m.core c).softAt (m.win c i).listAddr 0x80
    ++ (m.core c).softAt ((m.win c i).listAddr + 0x80) (2 * readLE (m.core c).sram (listHeader (m.win c i).listAddr) 2))
  unfold foundAt at hq
  generalize List.foldl (fun m q => m.t0Corrected c q) (m.setCore c k) _ = m1 at hq ⊢
  generalize hm : m1.modPart p (fun x => { x with dropped := satN 32 (x.dropped + dropped), fallbacks := satN 16 (x.fallbacks + fb) }) = m2
  have q1 : m2.cores = kput m.cores c k := by rw [← hm]; exact hq.cp.1
  have q2 : m2.net = m.net := by rw [← hm]; exact hq.net
  have q3 : m2.str = m.str := by rw [← hm]; exact hq.str
  have q4 : m2.part p = { m.part p with dropped := satN 32 ((m.part p).dropped + dropped), fallbacks := satN 16 ((m.part p).fallbacks + fb) } := by
    rw [← hm, part_modPart, if_pos rfl, hq.cp.part]; rfl
  split
  · have := logEvent_cp m2 0x0103 (.core c) (some p) (m2.taskOf p) 0
    have h := logRec_net m2 { code := 0x0103, cls := 0, part := some p, locKind := (Loc.core c).kind, locIndex := (Loc.core c).idx, locSub := (Loc.core c).sub, task := m2.taskOf p, detail := 0 }
    exact ⟨this.1.trans q1, h.1.trans q2, h.2.trans q3, (this.part p).trans q4⟩
  · exact ⟨q1, q2, q3, q4⟩

theorem settleIrq_win (w m c i) : (settleIrq w m).win c i = m.win c i := by
  unfold Module.win; rw [settleIrq_core]

theorem tailPull_stop {m : Module} {p c i n : Nat} {w : Window} (h : (w.slot w.next).st ≠ .free) :
    (m.setWin c i w).tailPull p c i n = m.setWin c i w := by
  cases n with
  | zero => rfl
  | succ n =>
    unfold Module.tailPull
    simp only [win_setWin, and_self, if_true]
    simp [h]

theorem mapCores_get (m : Module) (p f c) : kget? (m.mapCores p f).cores c = (kget? m.cores c).map (fun k => if (m.part p).hasCore c then f k else k) := by
  have : (m.mapCores p f).cores = kmapv (fun c k => if (m.part p).hasCore c then f k else k) m.cores := rfl
  rw [this, kget?_kmapv]

end Sys2Proof.Machine
end

