-- ==== Sys2Proof/Laws/Network.lean ====
section
/-! SUPPORT. Packets, credits, windows and reduction units: what the operations of the network do. -/

namespace Sys2Proof.Machine

open Sys2Proof

theorem slotFreed_same (m : Module) (p c i : Nat) (h1 : (m.win c i).tail = false) (h2 : (m.win c i).waiting = []) : m.slotFreed p c i = m := by
  unfold Module.slotFreed
  rw [h1]
  simp only [Bool.false_eq_true, if_false]
  unfold Module.forwardPulls
  simp only [h2]

theorem word_eq (o : Nat) (x : WinSlot) : BitVec.ofNat 32 (o % 256 + 256 * b2n (x.st = .full) + 512 * b2n (x.st = .veneer) + 65536 * (x.layer % 65536)) = statusWord o x := by
  unfold statusWord put
  congr 1
  cases x.st <;> simp [b2n] <;> omega

theorem left_part (s : State) (c t u k th p) : (left s c t u k th).m.part p = s.m.part p := rfl

theorem go_ctrl {s : State} {c t op p k th w f k' th' r x} {u : CUnit} (h : Issues s c t op p k th w)
    (hf : f (s.m.ctx p c) k th w = .go { core := k', th := th', ctrls := [(r, x)] }) :
    onModule s (issue c t op u f) =
      .next { left s c t u k' th' with m := foundAt ((left s c t u k' th').m.portSend p c r x) c (k.softFetch th) } := by
  refine onModule_same (s := s) (m := foundAt ((left s c t u k' th').m.portSend p c r x) c (k.softFetch th)) ?_
    ((watched_foundAt ..).trans (portSend_watched ..))
  rw [issue_go h hf]
  simp only [CoreOut.fetched, List.append_nil]
  rfl

theorem can_part {m : Module} {c t p k th} (h : m.canIssue c t = some (p, k, th)) : m.partOfCore c = some p := by
  unfold Module.canIssue at h
  split at h
  · rename_i k' p' e1 e2
    dsimp only at h
    split at h
    · injection h with h; injection h with h; subst h; exact e2
    · contradiction
  · contradiction

theorem core_of {m : Module} {c k} (h : kget? m.cores c = some k) : m.core c = k := by unfold Module.core kgetD; rw [h]; rfl

theorem ep_of {k : Core} {e x} (h : kget? k.eps e = some x) : kgetD ({} : Endpoint) k.eps e = x := by unfold kgetD; rw [h]; rfl

theorem part_launch (m : Module) (a b d e f p) : (m.launchPacket a b d e f).part p = m.part p := rfl

theorem arrive_core {m : Module} {f : Flight} {c : Nat} (h1 : (m.part f.part).flushing = false) (h2 : m.active f.part = true) (hc : c < 19600) :
    m.arrive c f = some (m.arriveCore f.part c f) := by
  unfold Module.arrive
  simp only [h1, h2]
  simp only [Bool.not_true, Bool.or_false, Bool.false_eq_true, if_false]
  rw [if_neg (by omega), if_neg (by omega)]

theorem endSessions_cp (m : Module) (p) : SameCP m (m.endSessions p) := ⟨rfl, rfl⟩

structure Failed (m m' : Module) (p : Nat) : Prop where
  st : (m'.part p).st = .failed
  task : (m'.part p).taskRunning = false
  other : ∀ q, q ≠ p → m'.part q = m.part q

structure SameTN (m m' : Module) : Prop where
  topo : m'.topo = m.topo
  errs : m'.net.errs = m.net.errs

theorem SameTN.trans {a b c : Module} (h : SameTN a b) (g : SameTN b c) : SameTN a c := ⟨g.1.trans h.1, g.2.trans h.2⟩

theorem logRec_tn (m r) : SameTN m (m.logRec r) := by
  unfold Module.logRec
  split
  · dsimp only
    split <;> split <;> exact ⟨rfl, rfl⟩
  · exact ⟨rfl, rfl⟩

theorem foldl_tn {α : Type} (f : Module → α → Module) (h : ∀ m a, SameTN m (f m a)) (l : List α) (m : Module) :
    SameTN m (l.foldl f m) := by
  induction l generalizing m with
  | nil => exact ⟨rfl, rfl⟩
  | cons a l ih => rw [List.foldl_cons]; exact (h m a).trans (ih _)

theorem finish_tn (m q c s n i) : SameTN m (Module.finish m q c s n i) := by
  unfold Module.finish
  extract_lets x
  split
  · exact ⟨rfl, rfl⟩
  · split <;> exact ⟨rfl, rfl⟩

theorem complete_tn (m q c i) : SameTN m (Module.complete m q c i) := by
  unfold Module.complete
  split
  · exact finish_tn ..
  · exact ⟨rfl, rfl⟩

theorem completeAll_tn (m p c sel) : SameTN m (Module.completeAll m p c sel) := by
  unfold Module.completeAll
  refine foldl_tn _ (fun m q => ?_) _ _
  split
  · exact complete_tn ..
  · exact ⟨rfl, rfl⟩

theorem restClusters_tn (m p) : SameTN m (Module.restClusters m p) := by
  unfold Module.restClusters
  split <;> exact ⟨rfl, rfl⟩

theorem modPart_tn (m p f) : SameTN m (Module.modPart m p f) := ⟨rfl, rfl⟩

theorem failTake_tn (m : Module) (p : Nat) : SameTN m (m.failTake p) := by
  unfold Module.failTake
  extract_lets x m1 drop s0 m2 m3 m4
  split
  · exact ⟨rfl, rfl⟩
  · rename_i t _
    have h1 : SameTN m m3 := ⟨rfl, rfl⟩
    exact h1.trans ((logRec_tn ..).trans (complete_tn ..))

theorem failPart_failed (m : Module) (p code : Nat) (h : (m.part p).st ≠ .off) (h' : (m.part p).st ≠ .failed) :
    Failed m (m.failPart p code) p ∧ SameTN m (m.failPart p code) := by
  unfold Module.failPart
  extract_lets x m1 m2 m3 m4 m5
  rw [if_neg (by simp [x, h, h'])]
  have c1 : SameCP m { m1 with cores := m.cores } := by
    show SameCP m { (if x.taskRunning = true then _ else _ : Module) with cores := m.cores }
    split <;> exact ⟨rfl, rfl⟩
  have t1 : SameTN m m1 := by
    show SameTN m (if x.taskRunning = true then _ else _ : Module)
    split <;> exact ⟨rfl, rfl⟩
  have p1 : ∀ q, m1.part q = m.part q := fun q => c1.part q
  have e2 : ∀ q, m2.part q = if q = p then _ else m1.part q := fun q => part_modPart ..
  have c3 : SameCP m2 m4 := (endSessions_cp m2 p).trans (restClusters_cp ..)
  have t4 : SameTN m m4 := (t1.trans (modPart_tn ..)).trans ((⟨rfl, rfl⟩ : SameTN m2 m3).trans (restClusters_tn ..))
  have e5 : (∀ q, q ≠ p → m5.part q = m4.part q) ∧ (∃ k, m5.part p = { m4.part p with krf := k }) ∧ SameTN m4 m5 := by
    have h5 : m5 = if (x.krf.take.isSome && !x.dumped) = true then m4.failTake p else m4 := rfl
    rw [h5]
    split
    · obtain ⟨a, b, c⟩ := failTake_eq m4 p
      exact ⟨b, c, failTake_tn ..⟩
    · exact ⟨fun _ _ => rfl, ⟨_, rfl⟩, ⟨rfl, rfl⟩⟩
  have c6 : SameCP m5 (m5.completeAll p code fun q => decide (q.op ≠ 0x40)) := completeAll_cp ..
  have t6 : SameTN m5 (m5.completeAll p code fun q => decide (q.op ≠ 0x40)) := completeAll_tn ..
  generalize m5.completeAll p code (fun q => decide (q.op ≠ 0x40)) = m6 at *
  clear_value m1 m2 m3 m4 m5
  obtain ⟨f1, ⟨k, f2⟩, f3⟩ := e5
  refine ⟨⟨?_, ?_, fun q hq => ?_⟩, (t4.trans f3).trans t6⟩
  · rw [c6.part, f2, c3.part, e2, if_pos rfl]
  · rw [c6.part, f2, c3.part, e2, if_pos rfl]
  · rw [c6.part, f1 q hq, c3.part, e2, if_neg hq, p1]

theorem slip_fails (m : Module) (p code site port route : Nat) (h : (m.part p).st ≠ .off) (h' : (m.part p).st ≠ .failed) :
    let m' := m.slip p code site port route
    Failed m m' p ∧ m'.topo.markedLinks = m.topo.markedLinks ++ [(routerOf site, port)] ∧ m'.net.errs = (m.countErr p code).net.errs := by
  intro m'
  have hm : m' = m.slip p code site port route := rfl
  unfold Module.slip at hm
  extract_lets m1 st l src src2 m2 at hm
  rw [if_neg (by
    show ¬((m.part p).st = .failed ∨ (m.part p).st = .off)
    simp [h, h'])] at hm
  clear_value m'
  have hh : ∃ m3, SameCP m2 m3 ∧ SameTN m2 m3 ∧ m' = (m3.failPart p code).clearRoutes p := by
    refine ⟨_, logRec_cp .., logRec_tn .., hm⟩
  obtain ⟨m3, c3, t3, rfl⟩ := hh
  have c2 : SameCP m m2 := ⟨rfl, rfl⟩
  have hp : ∀ q, m3.part q = m.part q := fun q => by rw [c3.part, c2.part]
  obtain ⟨f, g⟩ := failPart_failed m3 p code (by rw [hp]; exact h) (by rw [hp]; exact h')
  refine ⟨⟨f.st, f.task, fun q hq => ?_⟩, ?_, ?_⟩
  · exact (f.other q hq).trans (hp q)
  · show (m3.failPart p code).topo.markedLinks = _
    rw [g.topo, t3.topo]; rfl
  · show (m3.failPart p code).net.errs = _
    rw [g.errs, t3.errs]

theorem core_setCore (m : Module) (c d k) : (m.setCore c k).core d = if d = c then k else m.core d := by
  unfold Module.setCore Module.core
  rw [kgetD_kput]

theorem core_launch (m : Module) (a b d e f c) : (m.launchPacket a b d e f).core c = m.core c := rfl

theorem three_launch (m : Module) (p r1 r2 r3 : Nat) (h1 h2 h3 z1 z2 z3 s1) (s2 s3 : Module → List Nat) :
    ∃ fs : List Flight,
      ((((m.launchPacket p r1 h1 z1 s1).launchPacket p r2 h2 z2 (s2 (m.launchPacket p r1 h1 z1 s1))).launchPacket p r3 h3 z3
        (s3 ((m.launchPacket p r1 h1 z1 s1).launchPacket p r2 h2 z2 (s2 (m.launchPacket p r1 h1 z1 s1))))).net.flights = m.net.flights ++ fs)
      ∧ fs.map (fun f => (f.route, f.part, f.hdr, f.payload)) = [(r1, p, h1, z1), (r2, p, h2, z2), (r3, p, h3, z3)] := by
  generalize ha : s2 _ = a
  generalize hb : s3 _ = b
  unfold Module.launchPacket
  simp only [List.append_assoc, List.cons_append, List.nil_append]
  exact ⟨_, rfl, rfl⟩

end Sys2Proof.Machine
end

