-- ==== Sys2Proof/Laws/Vector.lean ====
section
/-! SUPPORT. Vector and engine instructions: writes of element codes to SRAM, lanes of vector registers, carry slots, and what a whole
instruction leaves. -/

namespace Sys2Proof.Machine

open Sys2Proof

theorem readByte_writeCode {m : Memory} {p : Nat × Nat × Nat} {a : Nat} (h : WholeCode p) (ha : Apart (2 * a, 8, 0) p) :
    readByte (writeCode m p.1 p.2.1 p.2.2) a = readByte m a := by
  obtain ⟨n, b, c⟩ := p
  simp only [WholeCode, Apart] at h ha
  unfold writeCode
  by_cases hb : b = 4
  · subst hb
    rw [if_pos rfl]
    simp only [readByte_writeByte]
    rw [if_neg (by omega)]
  · rw [if_neg hb]
    refine readByte_writeLE_ne ?_
    dsimp only
    omega

theorem readLE_congr {m m' : Memory} {a n : Nat} (h : ∀ b, a ≤ b → b < a + n → readByte m' b = readByte m b) : readLE m' a n = readLE m a n := by
  induction n generalizing a with
  | zero => rfl
  | succ n ih =>
    rw [readLE, readLE, h a (by omega) (by omega), ih (fun b h1 h2 => h b (by omega) (by omega))]

theorem apart_symm {p q} (h : Apart p q) : Apart q p := by unfold Apart at *; omega

theorem readCode_apart {m : Memory} {p q : Nat × Nat × Nat} (hp : WholeCode p) (hq : WholeCode q) (h : Apart q p) :
    readCode (writeCode m p.1 p.2.1 p.2.2) q.1 q.2.1 = readCode m q.1 q.2.1 := by
  by_cases hb : q.2.1 = 4
  · by_cases hs : p.2.1 = 4 ∧ p.1 / 2 = q.1 / 2
    · obtain ⟨n, b, c⟩ := p
      obtain ⟨n', b', c'⟩ := q
      simp only [Apart] at *
      obtain ⟨rfl, hs⟩ := hs
      subst hb
      unfold readCode writeCode
      rw [if_pos rfl, if_pos rfl, if_pos rfl]
      simp only [← hs, readByte_writeByte, if_true]
      have e : fld (readByte m (n / 2)).toNat (4 * (n' % 2)) 4 = (readByte m (n / 2)).toNat / 2 ^ (4 * (n' % 2)) % 16 := by
        unfold fld; rw [Nat.shiftRight_eq_div_pow]; try rfl
      have e' : ∀ x : Nat, x < 256 → fld (BitVec.ofNat 8 x).toNat (4 * (n' % 2)) 4 = x / 2 ^ (4 * (n' % 2)) % 16 := by
        intro x hx; unfold fld; rw [Nat.shiftRight_eq_div_pow, BitVec.toNat_ofNat, Nat.mod_eq_of_lt (show x < 2 ^ 8 by omega)]; try rfl
      have ho := (readByte m (n / 2)).isLt
      rcases Nat.mod_two_eq_zero_or_one n with h0 | h0 <;> rcases Nat.mod_two_eq_zero_or_one n' with h1 | h1
      · omega
      · rw [if_pos h0, e, e' _ (by omega), h1]; simp; omega
      · rw [if_neg (by omega), e, e' _ (by omega), h1]; simp
      · omega
    · unfold readCode
      rw [if_pos hb, if_pos hb, readByte_writeCode hp]
      unfold WholeCode Apart at *
      simp only
      omega
  · unfold readCode
    rw [if_neg hb, if_neg hb]
    refine readLE_congr (fun b h1 h2 => readByte_writeCode hp ?_)
    unfold WholeCode Apart at *
    simp only
    omega

theorem readCode_self {m : Memory} {q : Nat × Nat × Nat} (hq : WholeCode q) :
    readCode (writeCode m q.1 q.2.1 q.2.2) q.1 q.2.1 = q.2.2 % 2 ^ q.2.1 := by
  obtain ⟨n, b, c⟩ := q
  simp only [WholeCode] at hq
  by_cases hb : b = 4
  · subst hb
    unfold readCode writeCode
    rw [if_pos rfl, if_pos rfl]
    simp only [readByte_writeByte, if_true]
    have ho := (readByte m (n / 2)).isLt
    have e' : ∀ x : Nat, x < 256 → fld (BitVec.ofNat 8 x).toNat (4 * (n % 2)) 4 = x / 2 ^ (4 * (n % 2)) % 16 := by
      intro x hx; unfold fld; rw [Nat.shiftRight_eq_div_pow, BitVec.toNat_ofNat, Nat.mod_eq_of_lt (show x < 2 ^ 8 by omega)]; try rfl
    rcases Nat.mod_two_eq_zero_or_one n with h0 | h0
    · rw [if_pos h0, e' _ (by omega), h0]; simp
    · rw [if_neg (by omega), e' _ (by omega), h0]; simp; omega
  · unfold readCode writeCode
    rw [if_neg hb, if_neg hb, readLE_writeLE]
    have : b = 8 * (b / 8) := by omega
    rw [show (256 : Nat) = 2 ^ 8 from rfl, ← Nat.pow_mul, ← this]

theorem puts_frame {m : Memory} {ps : List (Nat × Nat × Nat)} {a : Nat} (h : ∀ q ∈ ps, WholeCode q ∧ Apart (2 * a, 8, 0) q) :
    readByte (ps.foldl (fun m p => writeCode m p.1 p.2.1 p.2.2) m) a = readByte m a := by
  induction ps generalizing m with
  | nil => rfl
  | cons q ps ih =>
    rw [List.foldl_cons, ih (fun r hr => h r (by simp [hr]))]
    exact readByte_writeCode (h q (by simp)).1 (h q (by simp)).2

theorem puts_apart {m : Memory} {ps : List (Nat × Nat × Nat)} {q} (hq : WholeCode q) (h : ∀ r ∈ ps, WholeCode r ∧ Apart q r) :
    readCode (ps.foldl (fun m p => writeCode m p.1 p.2.1 p.2.2) m) q.1 q.2.1 = readCode m q.1 q.2.1 := by
  induction ps generalizing m with
  | nil => rfl
  | cons r ps ih =>
    rw [List.foldl_cons, ih (fun r hr => h r (by simp [hr]))]
    exact readCode_apart (h r (by simp)).1 hq (h r (by simp)).2

theorem puts_last {m : Memory} {xs ys : List (Nat × Nat × Nat)} {q} (hq : WholeCode q) (h : ∀ r ∈ ys, WholeCode r ∧ Apart q r) :
    readCode ((xs ++ q :: ys).foldl (fun m p => writeCode m p.1 p.2.1 p.2.2) m) q.1 q.2.1 = q.2.2 % 2 ^ q.2.1 := by
  rw [List.foldl_append, List.foldl_cons, puts_apart hq h, readCode_self hq]
/-! cells in lanes -/

theorem setLane_v (th : Thread) (n i v) : { th.setLane n i v with v := th.v } = th := rfl

theorem lanes_inner (n idx : Nat) (pos : Nat → Nat) (val : Nat → Word) (th : Thread) :
    let th' := (List.range n).foldl (fun th c => th.setLane idx (pos c) (val c)) th
    ({ th' with v := th.v } = th)
    ∧ (∀ m q, (∀ c, c < n → 64 * m + q ≠ 64 * idx + pos c) → th'.lane m q = th.lane m q)
    ∧ ((∀ c d, c < n → d < n → pos c = pos d → c = d) → ∀ c, c < n → th'.lane idx (pos c) = val c) := by
  induction n with
  | zero => exact ⟨rfl, fun _ _ _ => rfl, fun _ c h => absurd h (by omega)⟩
  | succ n ih =>
    simp only [List.range_succ, List.foldl_append, List.foldl_cons, List.foldl_nil]
    obtain ⟨h1, h2, h3⟩ := ih
    refine ⟨h1, fun m q h => ?_, fun hi c hc => ?_⟩
    · rw [lane_setLane, if_neg (h n (by omega))]
      exact h2 m q (fun c hc => h c (by omega))
    · rw [lane_setLane]
      by_cases e : c = n
      · subst e; rw [if_pos rfl]
      · rw [if_neg (fun h => e (hi c n hc (by omega) (by omega)))]
        exact h3 (fun c d hc hd => hi c d (by omega) (by omega)) c (by omega)

theorem lanes_outer (rows idx : Nat) (len : Nat → Nat) (pos : Nat → Nat → Nat) (val : Nat → Nat → Word) (th : Thread) :
    let th' := (List.range rows).foldl (fun th r => (List.range (len r)).foldl (fun th c => th.setLane idx (pos r c) (val r c)) th) th
    ({ th' with v := th.v } = th)
    ∧ (∀ m q, (∀ r c, r < rows → c < len r → 64 * m + q ≠ 64 * idx + pos r c) → th'.lane m q = th.lane m q)
    ∧ ((∀ r c r' c', r < rows → c < len r → r' < rows → c' < len r' → pos r c = pos r' c' → r = r' ∧ c = c') →
        ∀ r c, r < rows → c < len r → th'.lane idx (pos r c) = val r c) := by
  induction rows with
  | zero => exact ⟨rfl, fun _ _ _ => rfl, fun _ c _ h => absurd h (by omega)⟩
  | succ n ih =>
    simp only [List.range_succ, List.foldl_append, List.foldl_cons, List.foldl_nil]
    obtain ⟨h1, h2, h3⟩ := ih
    generalize (List.range n).foldl (fun th r => (List.range (len r)).foldl (fun th c => th.setLane idx (pos r c) (val r c)) th) th = t1 at *
    obtain ⟨g1, g2, g3⟩ := lanes_inner (len n) idx (pos n) (val n) t1
    generalize (List.range (len n)).foldl (fun th c => th.setLane idx (pos n c) (val n c)) t1 = t2 at *
    refine ⟨?_, fun m q h => ?_, fun hi r c hr hc => ?_⟩
    · rw [← h1, ← g1]
    · rw [g2 m q (fun c hc => h n c (by omega) hc)]
      exact h2 m q (fun r c hr hc => h r c (by omega) hc)
    · by_cases e : r = n
      · subst e
        exact g3 (fun c d hc hd he => (hi r c r d hr hc hr hd he).2) c hc
      · rw [g2]
        · exact h3 (fun r c r' c' a b d e => hi r c r' c' (by omega) b (by omega) e) r c (by omega) hc
        · intro d hd he
          exact e (hi r c n d hr hc (by omega) hd (by omega)).1

theorem row_length (i : Vec) (k th r) (hb : i.fout.blockScaled = false) : (i.row k th r).1.length = if i.op.perRow then 1 else i.len := by
  unfold Vec.row
  cases h : i.op <;> simp [hb, Vec.rowOp, h, VOp.perRow, softmaxRow, normRow]

/-- A vector command is the issue of its operation (R151). -/
theorem vector_exec : ∀ e ∈ vectorTable, ∀ c t s, exec (e.1 c t) s = onModule s
    (issueQ c t e.2.1 .vector (runVec e.2.2) (vecAtOnce e.2.2) (fun x k th w => (vecOf e.2.2 x k th w).spans)) := by
  intro e he c t s
  simp only [vectorTable, List.cons_append, List.nil_append, List.mem_cons, List.not_mem_nil, or_false] at he
  rcases he with h|h|h|h|h|h|h|h|h|h|h|h|h|h|h|h|h|h|h|h|h|h|h|h|h|h|h <;> subst h <;> rfl

/-- What a vector instruction does at its core, by the parts that the claims name. -/
theorem runVec_eq (op : VOp) (x : Ctx) (k : Core) (th : Thread) (w : Nat) (i : Vec) (hi : vecOf op x k th w = i) (hn : NextInside k th) :
    runVec op x k th w = if i.rows = 0 then .go { core := k, th := th.next }
      else if !i.inRange || i.outSpans.any k.writesCode then goAbort k th 0x0602
      else if !i.srcs.all (fun a => a.kind ≠ 1 || k.slotsAre .full a.first (a.slots i.fin i.rows)) then .wait
      else if i.dst.kind = 1 && !k.slotsAre .empty i.dst.first (i.groups * tileSlots i.fout) then .wait
      else if let some w := i.badRead k w then goBad k th.next w
      else
        if i.dst.kind = 0 then
          if let some w := k.rmwBad (i.putsOut k th) then goBad k th.next w
          else .go { core := { i.freed k with sram := applyUnits (i.freed k).sram [{ puts := i.putsOut k th, tag := 0 }] }.mend (i.putsOut k th), th := th.next, tags := (i.tagsOut k th).foldl tagSummary 0, soft := i.softRead k w (i.putsOut k th) }
        else if i.dst.kind = 1 then
          .go { core := (List.range i.groups).foldl (fun k' g =>
            k'.putTile i.fout (i.dst.first + g * tileSlots i.fout) (tileCodes ((i.rowsOut k th).map (fun r => r.1)) g) ((i.tagsOut k th).getD g 0)) (i.freed k), th := th.next, tags := (i.tagsOut k th).foldl tagSummary 0, soft := i.softRead k w [] }
        else .go { core := i.freed k, th := (List.range i.rows).foldl (fun th' r =>
          (List.range ((i.rowsOut k th).getD r ([], [])).1.length).foldl (fun th' c => th'.setLane i.dst.idx (if i.op.perRow then r else r * i.len + c) (BitVec.ofNat 32 (((i.rowsOut k th).getD r ([], [])).1.getD c (0, 0)).1)) th') th.next, soft := i.softRead k w [] } := by
  subst hi
  have hp : k.pcInside (th.pc + 32) = true := hn
  unfold runVec
  simp only [hp]
  rw [if_neg (by simp)]
  rfl

theorem freeSlots_carry (k : Core) (a n) : { k.freeSlots a n with carry := k.carry } = k := rfl

theorem freed_eq (i : Vec) (k : Core) : { i.freed k with carry := k.carry } = k := by
  unfold Vec.freed
  have : ∀ (l : List VSrc) (k' : Core), { k' with carry := k.carry } = k → { (l.foldl (fun k s => if s.kind = 1 then k.freeSlots s.first (s.slots i.fin i.rows) else k) k') with carry := k.carry } = k := by
    intro l
    induction l with
    | nil => intro k' h; exact h
    | cons s l ih =>
      intro k' h
      rw [List.foldl_cons]
      refine ih _ ?_
      split
      · exact h
      · exact h
  exact this _ k rfl

/-- A vector instruction that has operands, sources and room runs, and leaves what `VecLeaves` says. -/
theorem runVec_leaves {op : VOp} {x : Ctx} {k : Core} {th : Thread} {w : Nat} {i : Vec} (hi : vecOf op x k th w = i) (hn : NextInside k th)
    (h0 : i.rows ≠ 0) (hr : i.inRange = true) (hw : i.outSpans.any k.writesCode = false) (hx : i.ready k = true)
    (hb : i.badRead k w = none) (hm : k.rmwBad (i.puts k th) = none) :
    ∃ k' v, runVec op x k th w = .go { core := k', th := { th.next with v := v }, tags := i.flags k th, soft := i.softRead k w (i.puts k th) }
      ∧ VecLeaves i k th k' v := by
  have e := runVec_eq op x k th w i hi hn
  unfold Vec.ready at hx
  rw [Bool.and_eq_true] at hx
  have hgo : (decide (i.dst.kind = 1) && !k.slotsAre .empty i.dst.first (i.groups * tileSlots i.fout)) = false := by
    have e2 := hx.2
    cases hk1 : k.slotsAre .empty i.dst.first (i.groups * tileSlots i.fout) <;> by_cases hk2 : i.dst.kind = 1 <;> simp [hk1, hk2] at e2 ⊢
  rw [if_neg h0, hr, hw, hx.1, hgo] at e
  simp only [Bool.not_true, Bool.false_or, Bool.false_eq_true, if_false, hb] at e
  unfold Vec.puts at hm ⊢
  unfold Vec.flags
  by_cases hk : i.dst.kind = 0
  · rw [if_pos hk] at e hm
    simp only [hm] at e
    rw [if_pos (show i.dst.kind ≤ 1 by omega), if_pos hk]
    refine ⟨_, th.v, e, ?_⟩
    · refine ⟨fun _ => ⟨rfl, rfl, fun a ha => ?_, fun xs q ys e1 e2 e3 => ?_, ?_⟩, fun h => absurd h (by omega), fun h => absurd h (by omega)⟩
      · have e4 := congrArg Core.sram (freed_eq i k)
        dsimp only at e4
        show readByte (applyUnits (i.freed k).sram _) a = _
        rw [e4]
        exact puts_frame ha
      · show readCode ((i.putsOut k th).foldl (fun m p => writeCode m p.1 p.2.1 p.2.2) (i.freed k).sram) _ _ = _
        rw [e1]
        exact puts_last e2 e3
      · have e3 := freed_eq i k
        have e4 := congrArg Core.sram e3
        have e5 := congrArg Core.badWords e3
        have e6 := congrArg Core.softWords e3
        dsimp only at e4 e5 e6
        show ({ i.freed k with sram := k.sram, badWords := k.badWords, softWords := k.softWords, carry := k.carry } : Core) = k
        rw [← e4, ← e5, ← e6]
        exact e3
  · rw [if_neg hk] at e ⊢
    by_cases hk1 : i.dst.kind = 1
    · rw [if_pos hk1] at e
      rw [if_pos (show i.dst.kind ≤ 1 by omega)]
      exact ⟨_, th.v, e,
        fun h => absurd h hk, fun _ => ⟨rfl, rfl⟩, fun h => absurd h (by omega)⟩
    · rw [if_neg hk1] at e
      rw [if_neg (show ¬ i.dst.kind ≤ 1 by omega)]
      have hl : ∀ r, r < i.rows → (i.rowsOut k th).getD r ([], []) = i.row k th r := by
        intro r hr
        unfold Vec.rowsOut
        simp [List.getD_eq_getElem?_getD, hr]
      obtain ⟨g1, g2, g3⟩ := lanes_outer i.rows i.dst.idx (fun r => ((i.rowsOut k th).getD r ([], [])).1.length)
        (fun r j => if i.op.perRow then r else r * i.len + j)
        (fun r c => BitVec.ofNat 32 (((i.rowsOut k th).getD r ([], [])).1.getD c (0, 0)).1) th.next
      generalize (List.range i.rows).foldl (fun th' r => (List.range ((i.rowsOut k th).getD r ([], [])).1.length).foldl
        (fun th' c => th'.setLane i.dst.idx (if i.op.perRow then r else r * i.len + c)
          (BitVec.ofNat 32 (((i.rowsOut k th).getD r ([], [])).1.getD c (0, 0)).1)) th') th.next = t at *
      refine ⟨_, t.v, ?_, fun h => absurd h hk, fun h => absurd h hk1, fun _ hbs => ⟨rfl, ?_, ?_⟩⟩
      · rw [e, ← g1]
      · intro r j h1 h2
        have := g3 ?_ r j h1 (by rw [hl r h1]; exact h2)
        · rw [hl r h1] at this
          exact this
        · intro r c r' c' a b d f g
          rw [hl r a, row_length i k th r hbs] at b
          rw [hl r' d, row_length i k th r' hbs] at f
          by_cases hpr : i.op.perRow = true
          · rw [if_pos hpr] at b f
            simp only [hpr, if_true] at g
            omega
          · rw [if_neg hpr] at b f
            have hpr' : i.op.perRow = false := by simpa using hpr
            simp only [hpr', Bool.false_eq_true, if_false] at g
            have e1 : r = r' := by
              have : (r * i.len + c) / i.len = (r' * i.len + c') / i.len := by rw [g]
              rw [Nat.mul_comm, Nat.mul_add_div (by omega), Nat.div_eq_of_lt b, Nat.mul_comm, Nat.mul_add_div (by omega), Nat.div_eq_of_lt f] at this
              omega
            subst e1; omega
      · intro n q hh
        refine g2 n q (fun r c h1 h2 => ?_)
        rw [hl r h1] at h2
        exact hh r c h1 h2

/-- A TMM command is the issue of its form (R134, R159). -/
theorem tmm_exec : ∀ e ∈ tmmTable, ∀ c t s, exec (e.1 c t) s = onModule s
    (issueQ c t e.2.1 .engine (runTmm e.2.2) (tmmAtOnce e.2.2) (fun x k th w => (tmmOf e.2.2 x k th w).spans)) := by
  intro e he c t s
  simp only [tmmTable, List.mem_cons, List.not_mem_nil, or_false] at he
  rcases he with h|h|h|h <;> subst h <;> rfl

theorem units_puts (us : List WUnit) (m : Memory) : applyUnits m us = (us.flatMap (fun u => u.puts)).foldl (fun m p => writeCode m p.1 p.2.1 p.2.2) m := by
  unfold applyUnits
  induction us generalizing m with
  | nil => rfl
  | cons u us ih => rw [List.foldl_cons, ih, List.flatMap_cons, List.foldl_append]

theorem batchesGo_sram (i : Tmm) (k : Core) (mark n b : Nat) (sram : Memory) (done : List WUnit) {r : Memory × List WUnit × List BatchOut}
    (h : i.batchesGo k mark n b sram done = .ok r) : ∃ us, r.2.1 = done ++ us ∧ r.1 = applyUnits sram us := by
  induction n generalizing b sram done r with
  | zero =>
    unfold Tmm.batchesGo at h; injection h with h; subst h
    exact ⟨[], by simp, rfl⟩
  | succ n ih =>
    unfold Tmm.batchesGo at h
    split at h
    · contradiction
    · rename_i o _
      split at h
      · contradiction
      · rename_i m us os hb
        injection h with h; subst h
        obtain ⟨vs, h1, h2⟩ := ih _ _ _ hb
        refine ⟨o.units ++ vs, ?_, ?_⟩
        · simpa using h1
        · dsimp only at h2 ⊢
          rw [h2]; unfold applyUnits; simp only [List.foldl_append]

theorem putTile_eq (k : Core) (f s c g) : { k.putTile f s c g with carry := k.carry } = k := by
  unfold Core.putTile
  dsimp only
  have : ∀ (l : List Nat) (k' : Core) (g : Nat → Nat × CarrySlot), { k' with carry := k.carry } = k → { (l.foldl (fun k i => k.setSlot (g i).1 (g i).2) k') with carry := k.carry } = k := by
    intro l
    induction l with
    | nil => intro k' _ h; exact h
    | cons a l ih => intro k' g h; rw [List.foldl_cons]; exact ih _ g h
  exact this _ k (fun i => (s + i, _)) rfl

/-- cores that agree but for carry, sram, eng, words -/
def Same4 (k k' : Core) : Prop := ∃ a b c d e, k' = { k with sram := a, badWords := b, softWords := c, carry := d, eng := e }

theorem Same4.trans {a b c : Core} (h : Same4 a b) (g : Same4 b c) : Same4 a c := by
  obtain ⟨_, _, _, _, _, rfl⟩ := h
  obtain ⟨_, _, _, _, _, rfl⟩ := g
  exact ⟨_, _, _, _, _, rfl⟩

def SameC (k k' : Core) : Prop := ∃ d, k' = { k with carry := d }

theorem SameC.refl (k) : SameC k k := ⟨_, rfl⟩

theorem SameC.trans {a b c : Core} (h : SameC a b) (g : SameC b c) : SameC a c := by
  obtain ⟨_, rfl⟩ := h
  obtain ⟨_, rfl⟩ := g
  exact ⟨_, rfl⟩

theorem setSlot_c (k s c) : SameC k (Core.setSlot k s c) := ⟨_, rfl⟩

theorem foldl_c {α} (f : Core → α → Core) (h : ∀ k a, SameC k (f k a)) (l : List α) (k) : SameC k (l.foldl f k) := by
  induction l generalizing k with
  | nil => exact .refl k
  | cons a l ih => rw [List.foldl_cons]; exact (h k a).trans (ih _)

theorem putTile_c (k f s c g) : SameC k (Core.putTile k f s c g) := by
  unfold Core.putTile; dsimp only
  exact foldl_c _ (fun k a => setSlot_c ..) _ _

theorem consume_c (i k) : SameC k (Tmm.consume i k) := by
  unfold Tmm.consume
  extract_lets a b
  have ha : SameC k a := by show SameC k (if i.aCarry then _ else _); split; exact ⟨_, rfl⟩; exact .refl k
  have hb : SameC a b := by show SameC a (if i.bCarry then _ else _); split; exact ⟨_, rfl⟩; exact .refl a
  refine (ha.trans hb).trans ?_
  split
  · exact ⟨_, rfl⟩
  · exact .refl b

theorem setSlot_carry (k s c) : (Core.setSlot k s c).carry = kset {} k.carry s c := rfl

theorem carry_putTile (k k' : Core) (h : k'.carry = k.carry) (f s c g) : (k'.putTile f s c g).carry = (k.putTile f s c g).carry := by
  unfold Core.putTile
  dsimp only
  generalize List.range _ = l
  induction l generalizing k k' with
  | nil => exact h
  | cons a l ih =>
    rw [List.foldl_cons, List.foldl_cons]
    refine ih _ _ ?_
    rw [setSlot_carry, setSlot_carry, h]

theorem carry_tiles (ts : List (Nat × List Nat × Nat)) (f) (k k' : Core) (h : k'.carry = k.carry) :
    (ts.foldl (fun k t => k.putTile f t.1 t.2.1 t.2.2) k').carry = (ts.foldl (fun k t => k.putTile f t.1 t.2.1 t.2.2) k).carry := by
  induction ts generalizing k k' with
  | nil => exact h
  | cons a l ih =>
    rw [List.foldl_cons, List.foldl_cons]
    exact ih _ _ (carry_putTile _ _ h ..)

theorem consume_carry (i : Tmm) (k k' : Core) (h : k'.carry = k.carry) : (i.consume k').carry = (i.consume k).carry := by
  have e : ∀ (k k' : Core) (a n), k'.carry = k.carry → (k'.freeSlots a n).carry = (k.freeSlots a n).carry := by
    intro k k' a n h; show List.filter _ k'.carry = List.filter _ k.carry; rw [h]
  unfold Tmm.consume
  dsimp only
  repeat' split
  all_goals first | exact h | exact e _ _ _ _ h | exact e _ _ _ _ (e _ _ _ _ h) | exact e _ _ _ _ (e _ _ _ _ (e _ _ _ _ h))

/-- What a TMM does at its core, by the parts that the claims name. -/
theorem runTmm_go (form : TmmForm) (x : Ctx) (k : Core) (th : Thread) (w : Nat) (i : Tmm) (hi : tmmOf form x k th w = i) (hn : NextInside k th) :
    runTmm form x k th w = if fld w 32 16 = 0 then .go { core := k, th := th.next }
    else if listPending form k w then .wait
    else if !i.inRange || i.outSpans.any k.writesCode then goAbort k th 0x0602
    else if !i.sourcesFull k || !i.destEmpty k || i.waitsStream k then .wait
    else if let some w := i.badRead k w then goBad k th.next w
    else
      match i.batchesGo k (i.mark k) i.batches 0 k.sram [] with
      | .error (code, done) =>
        let landed := done.take (min done.length (Config.freeNat x.free))
        .go { core := { k with sram := applyUnits k.sram landed }.mend (landed.flatMap WUnit.puts), th := th.next, used := 2,
              tags := unitTags landed, abort := some code, soft := i.softRead k w (landed.flatMap WUnit.puts) }
      | .ok (sram, us, os) =>
        if let some w := k.rmwBad (us.flatMap (fun u => u.puts)) then goBad k th.next w else
        .go { core := (os.flatMap (fun o => o.tiles)).foldl (fun k t => k.putTile i.fc t.1 t.2.1 t.2.2) { i.consume (k.mend (us.flatMap (fun u => u.puts))) with sram := i.audit os sram, eng := i.engineAfter k.eng os }, th := th.next, tags := unitTags us,
              soft := i.softRead k w (us.flatMap (fun u => u.puts)) } := by
  subst hi
  have hp : k.pcInside (th.pc + 32) = true := hn
  unfold runTmm
  simp only [hp]
  rw [if_neg (by simp)]
  rfl

/-- A TMM that is ready and whose batches end without an abort runs, and leaves what `TmmLeaves` says. -/
theorem runTmm_leaves {form : TmmForm} {x : Ctx} {k : Core} {th : Thread} {w : Nat} {i : Tmm} {sram : Memory} {us : List WUnit}
    {os : List BatchOut} (hi : tmmOf form x k th w = i) (hn : NextInside k th) (h0 : fld w 32 16 ≠ 0) (hl : listPending form k w = false)
    (hr : i.inRange = true) (hw : i.outSpans.any k.writesCode = false) (hx : i.ready k = true) (hb : i.badRead k w = none)
    (hbt : i.batchesGo k (i.mark k) i.batches 0 k.sram [] = .ok (sram, us, os)) (hm : k.rmwBad (us.flatMap (fun u => u.puts)) = none) :
    ∃ k', runTmm form x k th w = .go { core := k', th := th.next, tags := unitTags us, soft := i.softRead k w (us.flatMap (fun u => u.puts)) }
      ∧ TmmLeaves i k k' us os sram := by
  have e := runTmm_go form x k th w i hi hn
  unfold Tmm.ready at hx
  rw [Bool.and_eq_true, Bool.and_eq_true] at hx
  obtain ⟨⟨h1, h2⟩, h3⟩ := hx
  have h3 : i.waitsStream k = false := by simpa using h3
  rw [if_neg h0, hl, hr, hw, h1, h2, h3] at e
  simp only [Bool.false_eq_true, if_false, Bool.not_true, Bool.or_false, hb, hbt, hm] at e
  refine ⟨_, e, ?_⟩
  generalize hk1 : k.mend (us.flatMap (fun u => u.puts)) = k1
  have hc1 : k1.carry = k.carry := by rw [← hk1]; rfl
  have hs1 : Same4 k k1 := by rw [← hk1]; exact ⟨k.sram, _, _, k.carry, k.eng, rfl⟩
  obtain ⟨d2, h2'⟩ := consume_c i k1
  obtain ⟨d3, h3'⟩ := foldl_c (fun (k : Core) (t : Nat × List Nat × Nat) => k.putTile i.fc t.1 t.2.1 t.2.2) (fun k a => putTile_c ..)
    (os.flatMap (fun o : BatchOut => o.tiles)) { i.consume k1 with sram := i.audit os sram, eng := i.engineAfter k.eng os }
  obtain ⟨vs, v1, v2⟩ := batchesGo_sram i k _ _ _ _ _ hbt
  refine ⟨by rw [h3'], fun hga => ?_, fun a ha' => ?_, ?_, by rw [h3'], ?_⟩
  · rw [h3']; unfold Tmm.audit; simp only [hga, Bool.false_eq_true, if_false]
  · dsimp only at v1 v2
    rw [List.nil_append] at v1
    rw [v2, ← v1, units_puts]
    exact puts_frame ha'
  · refine carry_tiles _ _ _ _ ?_
    exact consume_carry _ _ _ hc1
  · rw [h3', h2']
    obtain ⟨_, _, _, _, _, hs⟩ := hs1
    rw [hs]

/-- A command whose effect is an instruction that goes, with a tag summary and the errors it found. -/
theorem onModule_commit {s : State} {c t p : Nat} {k' : Core} {th' : Thread} {u : CUnit} {g : Nat} {qs : List Nat} {f : Module → Module}
    (hf : f s.m = s.m.commit p c t u { core := k', th := th', tags := g, soft := qs }) :
    onModule s f = after s (foundAt (tagged (left s c t u k' th').m p g) c qs) := by
  unfold onModule
  rw [hf, commit_tags]
  rfl

end Sys2Proof.Machine
end

