-- ==== Sys2Proof/Laws/Tiers.lean ====
section
/-! SUPPORT. Terourn requests, epochs, moves and what runs behind the work. -/

namespace Sys2Proof.Machine

open Sys2Proof

theorem arrive_die {m : Module} {f : Flight} {n : Nat} (h1 : (m.part f.part).flushing = false) (h2 : m.active f.part = true) (hc : n < 64) :
    m.arrive (ringSite n) f = m.arriveDie f.part n f := by
  unfold Module.arrive ringSite
  simp only [h1, h2]
  simp only [Bool.not_true, Bool.or_false, Bool.false_eq_true, if_false]
  rw [if_neg (by omega), if_pos (by omega), show 32768 + n - 32768 = n by omega]

theorem arriveDie_request {m : Module} {f : Flight} {n : Nat} {p : Nat} (h1 : hKind f.hdr = 4) (h2 : m.isRequest p f.route = true)
   (h3 : hSeq f.hdr = kgetD 0 m.net.dieExpect f.route) :
   m.arriveDie p n f = some (Module.requestAtDie { m with net.dieExpect := kput m.net.dieExpect f.route ((hSeq f.hdr + 1) % 256) } p n f) := by
  unfold Module.arriveDie
  simp only [h1, h2]
  unfold Module.inSeqDie
  have : seqKey f = f.route := if_neg (by omega)
  rw [this]
  simp [h3]

/-- A packet in sequence at a ring die advances the expectation of its route. -/
theorem inSeqDie_next {m : Module} {p n : Nat} {f : Flight} {go : Module → Module} (h : hSeq f.hdr = kgetD 0 m.net.dieExpect f.route)
    (hk : hKind f.hdr ≠ 3) :
    m.inSeqDie p n f go = go { m with net.dieExpect := kput m.net.dieExpect f.route ((hSeq f.hdr + 1) % 256) } := by
  unfold Module.inSeqDie
  have : seqKey f = f.route := if_neg hk
  rw [this, if_neg (not_not_intro h)]

theorem takeFlight_route {site route : Nat} {l : List Flight} {f rest} (h : takeFlight site route l = some (f, rest)) : f.route = route := by
  induction l generalizing rest with
  | nil => simp [takeFlight] at h
  | cons a t ih =>
    unfold takeFlight at h
    split at h
    · rename_i hc
      simp at hc
      simp at h
      rw [← h.1]; exact hc.1
    · cases ht : takeFlight site route t with
      | none => rw [ht] at h; simp at h
      | some x =>
        rw [ht] at h
        simp at h
        obtain ⟨h1, h2⟩ := h
        exact ih (rest := x.2) (by rw [ht, ← h1])

/-- Where routes lead depends on the schedules, the topology and the frame only. -/
theorem fanOut_same {m m' : Module} (h1 : m'.cores = m.cores) (h2 : m'.topo = m.topo) (h4 : m'.net.frameLen = m.net.frameLen) (r c i s) :
    m'.fanOut r c i s = m.fanOut r c i s := by
  have e : ∀ x y z, ({ m' with cores := x, topo := y, net.frameLen := z } : Module).fanOut r c i s
      = ({ m with cores := x, topo := y, net.frameLen := z } : Module).fanOut r c i s := fun x y z => rfl
  have := e m.cores m.topo m.net.frameLen
  rw [← h1, ← h2, ← h4] at this
  rw [show m' = { m' with cores := m'.cores, topo := m'.topo, net.frameLen := m'.net.frameLen } from rfl, this, h1, h2, h4]

theorem trace_same {m m' : Module} (h1 : m'.cores = m.cores) (h2 : m'.topo = m.topo) (h4 : m'.net.frameLen = m.net.frameLen) (r n) (l seen) :
    m'.trace r n l seen = m.trace r n l seen := by
  induction n generalizing l seen with
  | zero => rfl
  | succ n ih =>
    cases l with
    | nil => rfl
    | cons a l =>
      obtain ⟨c, i, s⟩ := a
      rw [Module.trace, Module.trace]
      simp only [fanOut_same h1 h2 h4, ih]

theorem flitsFromRing_same {m m' : Module} (h1 : m'.cores = m.cores) (h2 : m'.topo = m.topo) (h3 : m'.net.ring = m.net.ring)
    (h4 : m'.net.frameLen = m.net.frameLen) (h5 : m'.net.slot = m.net.slot) (n r) : m'.flitsFromRing n r = m.flitsFromRing n r := by
  have hr : m'.ringStarts n r = m.ringStarts n r := by
    funext s
    unfold Module.ringStarts Module.frame_
    rw [h3, h4]
  have hs : m'.slotsAhead = m.slotsAhead := by
    unfold Module.slotsAhead Module.frame_
    rw [h4, h5]
  unfold Module.flitsFromRing
  rw [hr, hs]
  refine List.map_congr_left (fun s _ => ?_)
  exact trace_same h1 h2 h4 ..

theorem find_only {l : List TierReq} {P : TierReq → Bool} {r : TierReq} (h : ∀ x ∈ l, P x = false) (hr : P r = true) :
    (l ++ [r]).find? P = some r := by
  rw [List.find?_append, List.find?_eq_none.2 (by simpa using h)]
  simp [hr]

theorem setReq_only {m : Module} {l : List TierReq} {r r' : TierReq} (hl : m.tier.reqs = l ++ [r]) (h : ∀ x ∈ l, x.id ≠ r'.id) (hr : r.id = r'.id) :
    m.setReq r' = { m with tier.reqs := l ++ [r'] } := by
  unfold Module.setReq
  rw [hl]
  have e : (l ++ [r]).map (fun x => if x.id = r'.id then r' else x) = l ++ [r'] := by
    simp only [List.map_append, List.map_cons, List.map_nil, hr, if_true]
    congr 1
    have : l.map (fun x => if x.id = r'.id then r' else x) = l.map id := List.map_congr_left fun x hx => by rw [if_neg (h x hx)]; rfl
    rw [this, List.map_id]
  rw [e]

theorem dropReq_only {m : Module} {l : List TierReq} {r r' : TierReq} (hl : m.tier.reqs = l ++ [r]) (h : ∀ x ∈ l, x.id ≠ r'.id) (hr : r.id = r'.id) :
    m.dropReq r' = { m with tier.reqs := l } := by
  unfold Module.dropReq
  rw [hl]
  have e : (l ++ [r]).filter (fun x => decide (x.id ≠ r'.id)) = l := by
    simp only [List.filter_append, List.filter_cons, List.filter_nil, hr]
    simp only [ne_eq, not_true, decide_false, if_false, Bool.false_eq_true, List.append_nil]
    exact List.filter_eq_self.2 fun x hx => by simpa using h x hx
  rw [e]

/-- What a log entry leaves. -/
theorem logRec_keep (m : Module) (r : FaultRec) : ∃ a b c, m.logRec r = { m with sup.intakeFatal := a, sup.intake := b, sup.dropped := c } := by
  unfold Module.logRec
  split
  · dsimp only
    split
    · split
      · exact ⟨_, m.sup.intake, m.sup.dropped, rfl⟩
      · exact ⟨m.sup.intakeFatal, m.sup.intake, _, rfl⟩
    · split
      · exact ⟨m.sup.intakeFatal, _, m.sup.dropped, rfl⟩
      · exact ⟨m.sup.intakeFatal, m.sup.intake, _, rfl⟩
  · exact ⟨m.sup.intakeFatal, m.sup.intake, m.sup.dropped, rfl⟩

theorem logEvent_keep (m : Module) (x l p t d) : ∃ a b c, m.logEvent x l p t d = { m with sup.intakeFatal := a, sup.intake := b, sup.dropped := c } := logRec_keep ..

theorem corrected_keep (m : Module) (key l part d) : ∃ t a b x y z, m.corrected key l part d = { m with
    tier.tests := t, tier.eccLogAt := a, tier.eccSeen := b, sup.intakeFatal := x, sup.intake := y, sup.dropped := z } := by
  unfold Module.corrected
  extract_lets q
  split
  · exact ⟨m.tier.tests, m.tier.eccLogAt, m.tier.eccSeen, m.sup.intakeFatal, m.sup.intake, m.sup.dropped, rfl⟩
  · obtain ⟨a, b, c, h⟩ := logEvent_keep { m with tier.eccLogAt := kput m.tier.eccLogAt key m.now, tier.eccSeen := kmod 0 m.tier.eccSeen key (· + 1) } 0x0401 l part 0 d
    show ∃ t a b x y z, Module.dueTest (Module.logEvent _ _ _ _ _ _) key = _
    rw [h]
    unfold Module.dueTest
    split
    · exact ⟨m.tier.tests, _, _, _, _, _, rfl⟩
    · exact ⟨_, _, _, _, _, _, rfl⟩

/-- What the finding of a correctable error in T1 leaves. -/
def Found1 (m m' : Module) : Prop := ∃ n t a b x y z, m' = { m with
  tier.eccT1Corr := n, tier.tests := t, tier.eccLogAt := a, tier.eccSeen := b, sup.intakeFatal := x, sup.intake := y, sup.dropped := z }

theorem t1Corrected_found (m : Module) (st row : Nat) : Found1 m (m.t1Corrected st row) := by
  obtain ⟨t, a, b, x, y, z, h⟩ := corrected_keep { m with tier.eccT1Corr := satN 32 (m.tier.eccT1Corr + 1) } (t1Key st row) (t1Loc st) none row
  exact ⟨_, t, a, b, x, y, z, h⟩

theorem Found1.trans {a b c : Module} (h : Found1 a b) (g : Found1 b c) : Found1 a c := by
  obtain ⟨_, _, _, _, _, _, _, rfl⟩ := h
  obtain ⟨_, _, _, _, _, _, _, rfl⟩ := g
  exact ⟨_, _, _, _, _, _, _, rfl⟩

theorem t1Folds_found (l : List (Nat × Nat × Nat)) (m : Module) : Found1 m (l.foldl (fun m e => m.t1Corrected e.2.1 e.2.2) m) := by
  induction l generalizing m with
  | nil => exact ⟨_, _, _, _, _, _, _, rfl⟩
  | cons e l ih => rw [List.foldl_cons]; exact (t1Corrected_found ..).trans (ih _)

/-- What a read of T1 leaves: its correctable errors are counted, logged, and mended. -/
theorem readT1_keep (m : Module) (a n : Nat) : ∃ s, Found1 { m with tier.softWords := s } (m.readT1 a n) := ⟨_, t1Folds_found ..⟩

theorem watched_keep {m m' : Module} (h : Found1 m m') : m'.watched = m.watched := by
  obtain ⟨_, _, _, _, _, _, _, rfl⟩ := h; rfl

/-- What reads find of words of T1 stands in its lists of words. -/
theorem t1Found_keep (m : Module) (found : List T1Finding) : ∃ b w, m.t1Found found = { m with tier.badWords := b, tier.softWords := w } := by
  unfold Module.t1Found
  induction found generalizing m with
  | nil => exact ⟨_, _, rfl⟩
  | cons f l ih =>
    rw [List.foldl_cons]
    split
    · exact ih m
    · split
      · obtain ⟨b, w, h⟩ := ih { m with tier.badWords := kput m.tier.badWords f.word (f.stack, f.row) }
        exact ⟨b, w, h⟩
      · obtain ⟨b, w, h⟩ := ih { m with tier.softWords := kput m.tier.softWords f.word (f.stack, f.row) }
        exact ⟨b, w, h⟩

/-- A module with its network, requests and pages replaced. -/
def Module.refit (m : Module) (n : Net) (i : Nat) (ps : KMap Page) (rs : List TierReq) : Module :=
  { m with net := n, tier.ids := i, tier.pages := ps, tier.reqs := rs }

theorem logRec_refit (m : Module) (n i ps rs r) : (m.refit n i ps rs).logRec r = (m.logRec r).refit n i ps rs := by
  unfold Module.logRec
  by_cases h : m.mech.standby = true
  · rw [if_pos h, if_pos (show (m.refit n i ps rs).mech.standby = true from h)]
    dsimp only
    by_cases h2 : r.cls = 2 ∨ r.cls = 3
    · rw [if_pos h2, if_pos h2]
      by_cases h3 : m.sup.intakeFatal.length < 64
      · rw [if_pos h3, if_pos (show (m.refit n i ps rs).sup.intakeFatal.length < 64 from h3)]; rfl
      · rw [if_neg h3, if_neg (show ¬ (m.refit n i ps rs).sup.intakeFatal.length < 64 from h3)]; rfl
    · rw [if_neg h2, if_neg h2]
      by_cases h3 : m.sup.intake.length < 256
      · rw [if_pos h3, if_pos (show (m.refit n i ps rs).sup.intake.length < 256 from h3)]; rfl
      · rw [if_neg h3, if_neg (show ¬ (m.refit n i ps rs).sup.intake.length < 256 from h3)]; rfl
  · rw [if_neg h, if_neg (show ¬ (m.refit n i ps rs).mech.standby = true from h)]

theorem dueTest_refit (m : Module) (n i ps rs k) : (m.refit n i ps rs).dueTest k = (m.dueTest k).refit n i ps rs := by
  unfold Module.dueTest
  by_cases h : m.tier.tests.contains k = true
  · rw [if_pos h, if_pos (show (m.refit n i ps rs).tier.tests.contains k = true from h)]
  · rw [if_neg h, if_neg (show ¬ (m.refit n i ps rs).tier.tests.contains k = true from h)]; rfl

theorem corrected_refit (m : Module) (n i ps rs key l part d) : (m.refit n i ps rs).corrected key l part d = (m.corrected key l part d).refit n i ps rs := by
  have log : ∀ x, Module.dueTest (Module.logRec { m.refit n i ps rs with tier.eccLogAt := kput m.tier.eccLogAt key m.now, tier.eccSeen := kmod 0 m.tier.eccSeen key (· + 1) } x) key
      = (Module.dueTest (Module.logRec { m with tier.eccLogAt := kput m.tier.eccLogAt key m.now, tier.eccSeen := kmod 0 m.tier.eccSeen key (· + 1) } x) key).refit n i ps rs := by
    intro x
    rw [← dueTest_refit, ← logRec_refit]; rfl
  unfold Module.corrected Module.logEvent
  cases hk : kget? m.tier.eccLogAt key with
  | none =>
    have hk' : kget? (m.refit n i ps rs).tier.eccLogAt key = none := hk
    simp only [hk, hk', Bool.false_eq_true, if_false]
    exact log _
  | some t =>
    have hk' : kget? (m.refit n i ps rs).tier.eccLogAt key = some t := hk
    have hs : (m.refit n i ps rs).skPassed t skS = m.skPassed t skS := rfl
    simp only [hk, hk', hs]
    cases m.skPassed t skS
    · rfl
    · exact log _

theorem t1Corrected_refit (m : Module) (n i ps rs st row) : (m.refit n i ps rs).t1Corrected st row = (m.t1Corrected st row).refit n i ps rs :=
  corrected_refit { m with tier.eccT1Corr := satN 32 (m.tier.eccT1Corr + 1) } n i ps rs _ _ _ _

theorem readT1_refit (m : Module) (n i ps rs a k) (h : ∀ w, (m.refit n i ps rs).readsWord a k w = m.readsWord a k w) :
    (m.refit n i ps rs).readT1 a k = (m.readT1 a k).refit n i ps rs := by
  unfold Module.readT1
  have hs : (m.refit n i ps rs).tier.softWords = m.tier.softWords := rfl
  simp only [h, hs]
  generalize m.tier.softWords.filter (fun e => m.readsWord a k e.1) = l
  generalize hm : ({ m with tier.softWords := m.tier.softWords.filter (fun e => !l.contains e) } : Module) = m1
  have : ({ m.refit n i ps rs with tier.softWords := m.tier.softWords.filter (fun e => !l.contains e) } : Module) = m1.refit n i ps rs := by rw [← hm]; rfl
  rw [this]
  clear this hm h hs
  induction l generalizing m1 with
  | nil => rfl
  | cons e l ih => rw [List.foldl_cons, List.foldl_cons, t1Corrected_refit, ih]

/-- One packet read on its way: a moving READ, alone on its route, of one packet. -/
theorem serve_read {m : Module} {l : List TierReq} {r : TierReq} {n : Nat} {bs : List Byte} (hl : m.tier.reqs = l ++ [r])
    (h : ∀ x ∈ l, (¬(x.die = r.die ∧ x.route = r.route)) ∧ x.id ≠ r.id) (ho : m.netOpen r.part = true) (hp : r.phase = .moving) (hw : r.write = false)
    (h0 : r.pos = 0) (h1 : 0 < r.len) (h2 : r.len ≤ 4096) (hc : 0 < kgetD 0 m.net.dieCredits r.reply) (hb : m.badIn r.addr r.len = none)
    (hd : m.load? r.addr r.len = some bs) :
    m.serve r.die r.route (n + 3) = { m.readT1 r.addr r.len with
      net.flights := m.net.flights ++ [{ route := r.reply, part := r.part, hdr := mkHeader r.reply 0 ((flitsOf bs).length - 1) (kgetD 0 m.net.dieSeq r.reply) 0
                                         payload := flitsOf bs, sites := packetSites ((flitsOf bs).length + 1) (m.flitsFromRing r.die r.reply) }]
      net.dieSeq := kput m.net.dieSeq r.reply ((kgetD 0 m.net.dieSeq r.reply + 1) % 256)
      net.dieCredits := kput m.net.dieCredits r.reply (kgetD 0 m.net.dieCredits r.reply - 1)
      tier.reqs := l } := by
  have hn : ∀ x ∈ l, (decide (x.die = r.die) && decide (x.route = r.route)) = false := fun x hx => by
    have := (h x hx).1
    simpa using this
  have hid : ∀ x ∈ l, x.id ≠ r.id := fun x hx => (h x hx).2
  obtain ⟨ss, q1, q2, q3, q4, q5, q6, q7, hq⟩ := readT1_keep m r.addr r.len
  rw [Module.serve, hl, find_only hn (by simp)]
  simp only [ho, hp, hw, h0]
  simp only [Bool.not_true, Bool.false_eq_true, if_false]
  rw [if_neg (by omega), if_neg (by omega)]
  have e1 : m.readPacket r = { m.readT1 r.addr r.len with
      net.flights := m.net.flights ++ [{ route := r.reply, part := r.part, hdr := mkHeader r.reply 0 ((flitsOf bs).length - 1) (kgetD 0 m.net.dieSeq r.reply) 0
                                         payload := flitsOf bs, sites := packetSites ((flitsOf bs).length + 1) (m.flitsFromRing r.die r.reply) }]
      net.dieSeq := kput m.net.dieSeq r.reply ((kgetD 0 m.net.dieSeq r.reply + 1) % 256)
      net.dieCredits := kput m.net.dieCredits r.reply (kgetD 0 m.net.dieCredits r.reply - 1)
      tier.reqs := l ++ [{ r with pos := r.len }] } := by
    unfold Module.readPacket
    have hm : min 4096 (r.len - r.pos) = r.len := by omega
    simp only [h0, Nat.sub_zero, Nat.add_zero, Nat.min_eq_right h2, hb, hd]
    simp only [Nat.zero_add]
    generalize hg : Module.ringPacket _ _ _ _ _ _ _ = mm
    have hl' : mm.tier.reqs = l ++ [r] := by rw [← hg, hq]; exact hl
    have hid' : ∀ x ∈ l, x.id ≠ ({ r with pos := r.len } : TierReq).id := hid
    have e := setReq_only (r' := { r with pos := r.len }) hl' hid' rfl
    rw [show mm.setReq _ = _ from e, ← hg]
    unfold Module.ringPacket Module.launchPacket
    dsimp only
    have es : ∀ x n r', ({ (m.readT1 r.addr r.len) with net.dieCredits := x } : Module).flitsFromRing n r' = m.flitsFromRing n r' := fun x n r' => by
      rw [hq]; refine flitsFromRing_same (m := m) ?_ ?_ ?_ ?_ ?_ _ _ <;> rfl
    rw [es, hq]
    rfl
  rw [e1]
  generalize hg : ({ m.readT1 r.addr r.len with net.flights := _, net.dieSeq := _, net.dieCredits := _, tier.reqs := l ++ [{ r with pos := r.len }] } : Module) = m2
  have l2 : m2.tier.reqs = l ++ [{ r with pos := r.len }] := by rw [← hg]
  have o2 : m2.netOpen r.part = true := by rw [← hg, hq]; exact ho
  rw [Module.serve, l2, find_only hn (by simp)]
  simp only [o2, hp, hw]
  simp only [Bool.not_true, Bool.false_eq_true, if_false, Nat.le_refl, if_true]
  have e3 := dropReq_only (r' := { r with pos := r.len, phase := .moving, write := false }) l2 hid rfl
  rw [show m2.dropReq _ = _ from e3, Module.serve, List.find?_eq_none.2 (by simpa using hn)]
  rw [← hg]

/-- A page's heat changes nothing that a read asks of it. -/
theorem heated_page (m : Module) (n i rs pg len q) :
    let x := (m.refit n i (kset {} m.tier.pages pg ((m.page pg).heated len)) rs).page q
    x.tier = (m.page q).tier ∧ x.written = (m.page q).written ∧ x.rawMask = (m.page q).rawMask ∧ x.move = (m.page q).move
      ∧ x.pending = (m.page q).pending := by
  intro x
  have : x = if q = pg then (m.page pg).heated len else m.page q := by
    show kgetD {} (kset {} m.tier.pages pg _) q = _
    rw [kgetD_kset]; rfl
  rw [this]
  split
  · rename_i h; subst h; exact ⟨rfl, rfl, rfl, rfl, rfl⟩
  · exact ⟨rfl, rfl, rfl, rfl, rfl⟩

theorem heated_packed (m : Module) (n i rs pg len a b) :
    (m.refit n i (kset {} m.tier.pages pg ((m.page pg).heated len)) rs).packed a b = m.packed a b := by
  obtain ⟨_, h2, h3, _⟩ := heated_page m n i rs pg len a
  unfold Module.packed
  rw [h2, h3]; rfl

theorem heated_storedLen (m : Module) (n i rs pg len a b) :
    (m.refit n i (kset {} m.tier.pages pg ((m.page pg).heated len)) rs).storedLen a b = m.storedLen a b := by
  unfold Module.storedLen
  rw [heated_packed]; rfl

theorem heated_readsWord (m : Module) (n i rs pg len a k w) :
    (m.refit n i (kset {} m.tier.pages pg ((m.page pg).heated len)) rs).readsWord a k w = m.readsWord a k w := by
  unfold Module.readsWord
  dsimp only
  obtain ⟨h1, h2, _⟩ := heated_page m n i rs pg len (32 * w / tileBytes / 32)
  rw [h1, h2, heated_packed, heated_storedLen]

theorem tiles_same {m m' : Module} (h : ∀ a b, m'.tile? a b = m.tile? a b) (g k : Nat) : m'.tiles? g k = m.tiles? g k := by
  induction k generalizing g with
  | zero => rfl
  | succ k ih => unfold Module.tiles?; rw [h, ih]

/-- What a read gives depends on the stored bytes and their form only. -/
theorem load_same {m m' : Module} (hp : ∀ a b, m'.packed a b = m.packed a b) (ht : ∀ a b, m'.tile? a b = m.tile? a b)
    (hm : m'.tier.mem = m.tier.mem) (a n : Nat) : m'.load? a n = m.load? a n := by
  unfold Module.load?
  dsimp only
  simp only [hp, tiles_same ht, hm]

theorem heated_load (m : Module) (n i rs pg len a k) :
    (m.refit n i (kset {} m.tier.pages pg ((m.page pg).heated len)) rs).load? a k = m.load? a k := by
  refine load_same (fun a b => heated_packed ..) (fun a b => ?_) rfl a k
  unfold Module.tile? Module.slot
  rw [heated_packed, heated_storedLen]; rfl

theorem heated_badIn (m : Module) (n i rs pg len a k) :
    (m.refit n i (kset {} m.tier.pages pg ((m.page pg).heated len)) rs).badIn a k = m.badIn a k := by
  unfold Module.badIn
  simp only [heated_readsWord]
  rfl

/-- A READ that is accepted, first of its route, whose bytes fit one packet (R280, R281, R298). -/
theorem request_read {m : Module} {p die : Nat} {f : Flight} {bs : List Byte} (hb1 : m.badRequest p die f.msg = false) (ho : m.netOpen p = true)
    (hreq : ∀ r ∈ m.tier.reqs, ¬(r.die = die ∧ r.route = f.route) ∧ r.id ≠ m.tier.ids + 1) (hop : fld f.msg 0 4 = 1)
    (h3 : (m.page (fld f.msg 96 56 / pageBytes)).tier ≠ 3) (h2 : (m.page (fld f.msg 96 56 / pageBytes)).tier = 2 → m.hostUp = true)
    (hl64 : 64 ≤ fld f.msg 160 22) (hlen : fld f.msg 160 22 ≤ 4096) (hbi : m.badIn (fld f.msg 96 56) (fld f.msg 160 22) = none)
    (hd : m.load? (fld f.msg 96 56) (fld f.msg 160 22) = some bs)
    (hcr : 0 < kgetD 0 m.net.dieCredits (fld f.msg 16 14)) :
    m.requestAtDie p die f = { m.readT1 (fld f.msg 96 56) (fld f.msg 160 22) with
      net.flights := m.net.flights ++ [{ route := fld f.msg 16 14, part := p, hdr := mkHeader (fld f.msg 16 14) 0 ((flitsOf bs).length - 1) (kgetD 0 m.net.dieSeq (fld f.msg 16 14)) 0, payload := flitsOf bs, sites := packetSites ((flitsOf bs).length + 1) (m.flitsFromRing die (fld f.msg 16 14)) }]
      net.dieSeq := kput m.net.dieSeq (fld f.msg 16 14) ((kgetD 0 m.net.dieSeq (fld f.msg 16 14) + 1) % 256)
      net.dieCredits := kput m.net.dieCredits (fld f.msg 16 14) (kgetD 0 m.net.dieCredits (fld f.msg 16 14) - 1)
      tier.ids := m.tier.ids + 1
      tier.pages := kset {} m.tier.pages (fld f.msg 96 56 / pageBytes) ((m.page (fld f.msg 96 56 / pageBytes)).heated (fld f.msg 160 22)) } := by
  unfold Module.requestAtDie
  simp only [hb1]
  simp only [Bool.false_eq_true, if_false]
  generalize fld f.msg 96 56 = addr at *
  generalize fld f.msg 160 22 = len at *
  generalize fld f.msg 16 14 = reply at *
  generalize hpg : addr / pageBytes = pg at *
  have hw : decide (fld f.msg 0 4 = 2) = false := by rw [hop]; rfl
  rw [hw]
  generalize fld f.msg 32 14 = data
  generalize fld f.msg 64 32 = tag
  generalize hr : ({ id := _, die := die, route := f.route, part := p, write := false, reply := _, data := _, tag := _, addr := addr, len := len } : TierReq) = r
  generalize hm : ({ (Module.setPage _ _ _) with tier.reqs := _ } : Module) = m2
  have hm' : m2 = m.refit m.net (m.tier.ids + 1) (kset {} m.tier.pages pg ((m.page pg).heated len)) (m.tier.reqs ++ [r]) := by
    rw [← hm, ← hr]; rfl
  have l2 : m2.tier.reqs = m.tier.reqs ++ [r] := by rw [hm']; rfl
  have hh : ∀ x ∈ m.tier.reqs, (¬(x.die = r.die ∧ x.route = r.route)) ∧ x.id ≠ r.id := by rw [← hr]; exact hreq
  have hn : ∀ x ∈ m.tier.reqs, (decide (x.die = r.die) && decide (x.route = r.route)) = false := fun x hx => by
    have := (hh x hx).1
    simpa using this
  have hid : ∀ x ∈ m.tier.reqs, x.id ≠ r.id := fun x hx => (hh x hx).2
  have ph : ∀ q, (m2.page q).tier = (m.page q).tier := by
    intro q
    rw [hm']
    exact (heated_page ..).1
  have eb : m2.beginReq r = { m2 with tier.reqs := m.tier.reqs ++ [{ r with phase := .moving }] } := by
    have e := setReq_only (r' := { r with phase := .moving }) l2 hid rfl
    have ra : r.addr / pageBytes = pg := by rw [← hr]; exact hpg
    have rw' : r.write = false := by rw [← hr]
    have rop : r.open_ = 0 := by rw [← hr]
    have hwant : m2.wanted r = [] := by
      unfold Module.wanted
      simp only [ra, ph]
      rw [if_pos h3]
    unfold Module.beginReq
    simp only [rw', ra, ph, hwant]
    simp only [Bool.false_and, Bool.false_eq_true, if_false]
    rw [if_neg (by
      have : m2.hostUp = m.hostUp := by rw [hm']; rfl
      rw [this]
      simp only [Bool.and_eq_true, decide_eq_true_eq, Bool.not_eq_true', not_and, Bool.not_eq_false]
      rw [ph]; exact h2)]
    split
    · rw [if_neg (by rw [ph]; exact h3)]; simp only [rw'] at e; exact e
    · rw [hwant]; simp only [rw'] at e; simp only [List.length_nil, ← rop]; exact e
  show m2.serve die f.route (9997 + 3) = _
  rw [show die = r.die by rw [← hr], show f.route = r.route by rw [← hr]]
  rw [Module.serve, l2, find_only hn (by simp)]
  have o2 : m2.netOpen r.part = true := by rw [hm', ← hr]; exact ho
  have rp : r.phase = .queued := by rw [← hr]
  simp only [o2, rp, eb]
  simp only [Bool.not_true, Bool.false_eq_true, if_false]
  rw [if_neg (by
    simp only [List.any_append, List.any_cons, List.any_nil, Bool.or_eq_true, List.any_eq_true, Bool.and_eq_true, decide_eq_true_eq, not_or]
    refine ⟨fun ⟨x, hx, h1, _⟩ => hid x hx h1, ?_⟩
    rw [← hr]; simp)]
  have h5 : ({ m2 with tier.reqs := m.tier.reqs ++ [{ r with phase := .moving }] } : Module)
      = m.refit m.net (m.tier.ids + 1) (kset {} m.tier.pages pg ((m.page pg).heated len)) (m.tier.reqs ++ [{ r with phase := .moving }]) := by
    rw [hm']; rfl
  have := serve_read (m := { m2 with tier.reqs := m.tier.reqs ++ [{ r with phase := .moving }] }) (r := { r with phase := .moving }) (l := m.tier.reqs) (n := 9996) (bs := bs) rfl hh o2 rfl (by rw [← hr]) (by rw [← hr]) (by rw [← hr]; show 0 < len; omega) (by rw [← hr]; exact hlen) (by rw [hm', ← hr]; exact hcr) (by
    rw [h5, ← hr]
    exact (heated_badIn ..).trans hbi) (by
    rw [h5, ← hr]
    exact (heated_load ..).trans hd)
  have es : ({ m2 with tier.reqs := m.tier.reqs ++ [{ r with phase := .moving }] } : Module).flitsFromRing r.die r.reply = m.flitsFromRing r.die r.reply :=
    flitsFromRing_same (m := m) (by rw [hm']; rfl) (by rw [hm']; rfl) (by rw [hm']; rfl) (by rw [hm']; rfl) (by rw [hm']; rfl) _ _
  refine Eq.trans this ?_
  simp only [es]
  have e6 : ({ m2 with tier.reqs := m.tier.reqs ++ [{ r with phase := .moving }] } : Module).readT1 r.addr r.len
      = (m.readT1 addr len).refit m.net (m.tier.ids + 1) (kset {} m.tier.pages pg ((m.page pg).heated len)) (m.tier.reqs ++ [{ r with phase := .moving }]) := by
    rw [h5, ← hr]
    exact readT1_refit _ _ _ _ _ _ _ (fun w => heated_readsWord ..)
  rw [e6]
  obtain ⟨ss, q1, q2, q3, q4, q5, q6, q7, hq⟩ := readT1_keep m addr len
  rw [hq, hm', ← hr]
  rfl

theorem serve_writing {m : Module} {die route n : Nat} {r : TierReq} (hf : m.tier.reqs.find? (fun r => r.die = die && r.route = route) = some r)
    (ho : m.netOpen r.part = true) (hp : r.phase = .moving) (hw : r.write = true) :
    m.serve die route (n + 1) = if r.len ≤ r.pos then (m.endWrite r).serve die route n else m := by
  rw [Module.serve, hf]
  simp only [ho, hp, hw]
  simp

theorem serve_none {m : Module} {die route n : Nat} (hf : m.tier.reqs.find? (fun r => r.die = die && r.route = route) = none) :
    m.serve die route n = m := by
  cases n with
  | zero => rfl
  | succ n => rw [Module.serve, hf]

theorem netOpen_active {m : Module} {p} (ho : m.netOpen p = true) : m.active p = true := by
  unfold Module.netOpen at ho; unfold Module.active
  simp only [Bool.and_eq_true] at ho
  exact ho.1.1

theorem request_write {m : Module} {p die : Nat} {f : Flight} (hb1 : m.badRequest p die f.msg = false) (ho : m.netOpen p = true)
    (hreq : ∀ r ∈ m.tier.reqs, ¬(r.die = die ∧ r.route = f.route) ∧ r.id ≠ m.tier.ids + 1) (hop : fld f.msg 0 4 = 2)
    (h1 : (m.page (fld f.msg 96 56 / pageBytes)).tier = 1) (h2 : (m.page (fld f.msg 96 56 / pageBytes)).move = none)
    (h3 : (m.page (fld f.msg 96 56 / pageBytes)).pending = false) :
    m.requestAtDie p die f = { m with
        tier.ids := m.tier.ids + 1
        tier.pages := kset {} m.tier.pages (fld f.msg 96 56 / pageBytes) ((m.page (fld f.msg 96 56 / pageBytes)).heated (fld f.msg 160 22))
        tier.reqs := m.tier.reqs ++ [{ id := m.tier.ids + 1, die := die, route := f.route, part := p, write := true, reply := fld f.msg 16 14, data := fld f.msg 32 14, tag := fld f.msg 64 32, addr := fld f.msg 96 56, len := fld f.msg 160 22, phase := .moving }] } := by
  have hl64 : 64 ≤ fld f.msg 160 22 := by
    unfold Module.badRequest at hb1
    simp only [Bool.or_eq_false_iff, decide_eq_false_iff_not] at hb1
    have := hb1.1.1.1.1.1.1.1.2
    omega
  have hobj : ∃ o, m.objAt (fld f.msg 96 56 / pageBytes) = some o := by
    unfold Module.badRequest at hb1
    simp only [Bool.or_eq_false_iff] at hb1
    have := hb1.2
    revert this
    cases m.objAt (fld f.msg 96 56 / pageBytes) with
    | none => simp
    | some o => exact fun _ => ⟨o, rfl⟩
  unfold Module.requestAtDie
  simp only [hb1]
  simp only [Bool.false_eq_true, if_false]
  generalize fld f.msg 96 56 = addr at *
  generalize fld f.msg 160 22 = len at *
  generalize fld f.msg 16 14 = reply at *
  generalize hpg : addr / pageBytes = pg at *
  have hw : decide (fld f.msg 0 4 = 2) = true := by rw [hop]; rfl
  rw [hw]
  generalize fld f.msg 32 14 = data
  generalize fld f.msg 64 32 = tag
  generalize hr : ({ id := _, die := die, route := f.route, part := p, write := true, reply := _, data := _, tag := _, addr := addr, len := len } : TierReq) = r
  generalize hm : ({ (Module.setPage _ _ _) with tier.reqs := _ } : Module) = m2
  have hm' : m2 = m.refit m.net (m.tier.ids + 1) (kset {} m.tier.pages pg ((m.page pg).heated len)) (m.tier.reqs ++ [r]) := by
    rw [← hm, ← hr]; rfl
  have l2 : m2.tier.reqs = m.tier.reqs ++ [r] := by rw [hm']; rfl
  have hh : ∀ x ∈ m.tier.reqs, (¬(x.die = r.die ∧ x.route = r.route)) ∧ x.id ≠ r.id := by rw [← hr]; exact hreq
  have hn : ∀ x ∈ m.tier.reqs, (decide (x.die = r.die) && decide (x.route = r.route)) = false := fun x hx => by
    have := (hh x hx).1
    simpa using this
  have hid : ∀ x ∈ m.tier.reqs, x.id ≠ r.id := fun x hx => (hh x hx).2
  have pp : m2.page pg = (m.page pg).heated len := by
    rw [hm']
    show kgetD {} (kset {} m.tier.pages pg _) pg = _
    rw [kgetD_kset, if_pos rfl]
  have q1 : ((m.page pg).heated len).tier = 1 := h1
  have q2 : ((m.page pg).heated len).move = none := h2
  have q3 : ((m.page pg).heated len).pending = false := h3
  have hop' : m2.openPage pg = (m2, true) := by
    obtain ⟨o, ho'⟩ := hobj
    have e0 : m2.objAt pg = some o := by rw [hm']; exact ho'
    have ec : m2.copyAhead pg = (m2, true) := by
      unfold Module.copyAhead
      simp only [pp, q3]
      rfl
    have es : m2.stopMove pg true = m2 := by unfold Module.stopMove; simp only [pp, q2]; rfl
    have ef : m2.withFrame pg 1 = m2 := by unfold Module.withFrame; rw [if_neg (by simp), if_neg (by simp)]
    unfold Module.openPage
    simp only [ec, e0, es, pp, q1]
    rw [if_neg (by decide), pp, q1, ef]
  have eb : m2.beginReq r = { m2 with tier.reqs := m.tier.reqs ++ [{ r with phase := .moving }] } := by
    have e := setReq_only (r' := { r with phase := .moving }) l2 hid rfl
    have ra : r.addr / pageBytes = pg := by rw [← hr]; exact hpg
    have rw' : r.write = true := by rw [← hr]
    have rop : r.open_ = 0 := by rw [← hr]
    have hwant : m2.wanted r = [] := by
      unfold Module.wanted
      simp only [ra, pp, q1]
      rfl
    unfold Module.beginReq
    simp only [rw', ra, pp, q3, hop', q1]
    simp only [Bool.and_false, Bool.false_and, Bool.false_eq_true, if_false, if_true]
    simp only [hop']
    rw [if_neg (by rw [pp]; simp [q1])]
    split
    · rw [if_neg (by rw [pp, q1]; decide)]; simp only [rw'] at e; exact e
    · rw [hwant]; simp only [rw'] at e; simp only [List.length_nil, ← rop]; exact e
  show m2.serve die f.route (9998 + 2) = _
  rw [show die = r.die by rw [← hr], show f.route = r.route by rw [← hr]]
  rw [Module.serve, l2, find_only hn (by simp)]
  have o2 : m2.netOpen r.part = true := by rw [hm', ← hr]; exact ho
  have rp : r.phase = .queued := by rw [← hr]
  simp only [o2, rp, eb]
  simp only [Bool.not_true, Bool.false_eq_true, if_false]
  rw [if_neg (by
    simp only [List.any_append, List.any_cons, List.any_nil, Bool.or_eq_true, List.any_eq_true, Bool.and_eq_true, decide_eq_true_eq, not_or]
    refine ⟨fun ⟨x, hx, h1, _⟩ => hid x hx h1, ?_⟩
    rw [← hr]; simp)]
  have rw' : r.write = true := by rw [← hr]
  have hlen : ¬ r.len ≤ r.pos := by rw [← hr]; show ¬ len ≤ 0; omega
  have e := serve_writing (m := { m2 with tier.reqs := m.tier.reqs ++ [{ r with phase := .moving }] }) (n := 9998) (find_only (r := { r with phase := .moving }) hn (by simp)) o2 rfl rw'
  refine Eq.trans e ?_
  rw [if_neg hlen, hm', ← hr]
  rfl

/-- What a store into tiles `ts` of page `pg` leaves. -/
structure Put (m m' : Module) (pg : Nat) (ts : List Nat) : Prop where
  keep : ∃ a b c d, m' = { m with tier.mem := a, tier.pages := b, tier.badWords := c, tier.softWords := d }
  other : ∀ q, q ≠ pg → m'.page q = m.page q
  written : (m'.page pg).written = ts.foldl (fun w t => setMask w t true) (m.page pg).written
  rest : ∃ w r, m'.page pg = { m.page pg with written := w, rawMask := r }

theorem Put.refl (m : Module) (pg : Nat) : Put m m pg [] := ⟨⟨_, _, _, _, rfl⟩, fun _ _ => rfl, rfl, _, _, rfl⟩

theorem Put.trans {a b c : Module} {pg : Nat} {xs ys : List Nat} (h : Put a b pg xs) (g : Put b c pg ys) : Put a c pg (xs ++ ys) := by
  obtain ⟨⟨_, _, _, _, rfl⟩, h2, h3, w1, r1, h4⟩ := h
  obtain ⟨⟨_, _, _, _, rfl⟩, g2, g3, w2, r2, g4⟩ := g
  refine ⟨⟨_, _, _, _, rfl⟩, fun q hq => (g2 q hq).trans (h2 q hq), ?_, w2, r2, ?_⟩
  · rw [g3, h3, List.foldl_append]
  · rw [g4, h4]

theorem page_setPage (m : Module) (pg q : Nat) (x : Page) : (m.setPage pg x).page q = if q = pg then x else m.page q := by
  unfold Module.setPage Module.page
  rw [kgetD_kset]

theorem putRaw_put (m : Module) (addr : Nat) (bs : List Byte) (pg : Nat) : Put m (m.putRaw addr bs) pg [] :=
  ⟨⟨_, _, _, _, rfl⟩, fun _ _ => rfl, rfl, _, _, rfl⟩

theorem markTile_put (m : Module) (pg t : Nat) (raw : Bool) : Put m (m.markTile pg t raw) pg [t] := by
  refine ⟨⟨_, _, _, _, rfl⟩, fun q hq => ?_, ?_, ?_⟩
  · exact (page_setPage ..).trans (if_neg hq)
  · unfold Module.markTile; rw [page_setPage, if_pos rfl]; rfl
  · unfold Module.markTile; rw [page_setPage, if_pos rfl]; exact ⟨_, _, rfl⟩

theorem putSlot_put (m : Module) (pg t : Nat) (st : List Byte) (raw : Bool) : Put m (m.putSlot pg t st raw) pg [t] :=
  (putRaw_put ..).trans (markTile_put ..)

theorem recode_put (m : Module) (a pg t : Nat) (bs : List Byte) (h1 : a / pageBytes = pg) (h2 : a % pageBytes / tileBytes = t) :
    Put m (m.recode a bs) pg [t] := by
  subst h1 h2
  exact putSlot_put ..

theorem putFold {f : Module → Nat → Module} {pg : Nat} (ts : List Nat) (h : ∀ m, ∀ t ∈ ts, Put m (f m t) pg [t]) (m : Module) :
    Put m (ts.foldl f m) pg ts := by
  induction ts generalizing m with
  | nil => exact .refl ..
  | cons t ts ih =>
    rw [List.foldl_cons]
    exact (h m t (by simp)).trans (ih (fun m t ht => h m t (by simp [ht])) _)

/-- A store of bytes marks the tiles that it touches, and changes nothing of any other page. -/
theorem putBytes_put (m : Module) (addr : Nat) (bs : List Byte) :
    Put m (m.putBytes addr bs) (addr / pageBytes) (tilesIn addr bs.length) := by
  unfold Module.putBytes
  dsimp only
  split
  · refine putFold _ (fun m t ht => ?_) m
    unfold tilesIn at ht
    simp only [List.mem_filter, List.mem_range, Bool.and_eq_true, decide_eq_true_eq] at ht
    have e : slotAddr (addr / pageBytes) t = addr / pageBytes * 2097152 + t * 65536 := rfl
    have hp : pageBytes = 2097152 := rfl
    have ht' : tileBytes = 65536 := rfl
    rw [ht', hp] at ht
    rw [hp] at e
    have ha : max addr (slotAddr (addr / pageBytes) t) = max addr (addr / 2097152 * 2097152 + t * 65536) := by rw [hp, e]
    refine recode_put _ _ _ _ _ ?_ ?_
    · rw [ha, hp]; omega
    · rw [ha, hp, ht']; omega
  · exact (putRaw_put m addr bs _).trans (putFold _ (fun m t _ => markTile_put ..) _)

theorem recode_net (m : Module) (n : Net) (addr : Nat) (bs : List Byte) :
    ({ m with net := n } : Module).recode addr bs = { m.recode addr bs with net := n } := by
  unfold Module.recode
  have h1 : ∀ a, Module.objOf { m with net := n } a = m.objOf a := fun _ => rfl
  have h2 : ∀ a b, Module.tile? { m with net := n } a b = m.tile? a b := fun _ _ => rfl
  have h3 : ∀ a b c d, Module.putSlot { m with net := n } a b c d = { m.putSlot a b c d with net := n } := fun _ _ _ _ => rfl
  simp only [h1, h2, h3]

/-- The network plays no part in a store. -/
theorem putBytes_net (m : Module) (n : Net) (addr : Nat) (bs : List Byte) :
    ({ m with net := n } : Module).putBytes addr bs = { m.putBytes addr bs with net := n } := by
  have f : ∀ (ts : List Nat) (g : Module → Nat → Module) (hg : ∀ m t, g { m with net := n } t = { g m t with net := n }) (m : Module),
      ts.foldl g { m with net := n } = { ts.foldl g m with net := n } := by
    intro ts g hg
    induction ts with
    | nil => intro m; rfl
    | cons t ts ih => intro m; rw [List.foldl_cons, List.foldl_cons, hg, ih]
  unfold Module.putBytes
  dsimp only
  by_cases h : (m.objOf (addr / pageBytes)).2.compress = true
  · rw [if_pos h, if_pos (show (Module.objOf { m with net := n } (addr / pageBytes)).2.compress = true from h)]
    exact f _ _ (fun m t => recode_net ..) m
  · rw [if_neg h, if_neg (show ¬ (Module.objOf { m with net := n } (addr / pageBytes)).2.compress = true from h)]
    exact f _ _ (fun m t => rfl) (m.putRaw addr bs)

/-- The bytes of an object that is not compressed are stored as they are. -/
theorem putBytes_mem {m : Module} {addr : Nat} {bs : List Byte} (h : (m.objOf (addr / pageBytes)).2.compress = false) :
    (m.putBytes addr bs).tier.mem = writeBytes m.tier.mem addr bs := by
  unfold Module.putBytes
  dsimp only
  rw [if_neg (by simp [h])]
  have : ∀ (ts : List Nat) (m : Module), (ts.foldl (fun m t => m.markTile (addr / pageBytes) t true) m).tier.mem = m.tier.mem := by
    intro ts
    induction ts with
    | nil => intro m; rfl
    | cons t ts ih => intro m; rw [List.foldl_cons, ih]; rfl
  rw [this]; rfl

theorem findA {l1 l2 : List TierReq} {P : TierReq → Bool} {r : TierReq} (h : ∀ x ∈ l1 ++ l2, P x = false) (hr : P r = true) :
    (l1 ++ r :: l2).find? P = some r := by
  rw [List.find?_append, List.find?_eq_none.2, List.find?_cons_of_pos]
  · rfl
  · exact hr
  · intro x hx; rw [h x (List.mem_append_left _ hx)]; simp

theorem setReqA {m : Module} {l1 l2 : List TierReq} {r r' : TierReq} (hl : m.tier.reqs = l1 ++ r :: l2) (h : ∀ x ∈ l1 ++ l2, x.id ≠ r'.id) (hr : r.id = r'.id) :
    m.setReq r' = { m with tier.reqs := l1 ++ r' :: l2 } := by
  unfold Module.setReq
  rw [hl]
  have g : ∀ l : List TierReq, (∀ x ∈ l, x ∈ l1 ++ l2) → l.map (fun x => if x.id = r'.id then r' else x) = l := by
    intro l hl
    have : l.map (fun x => if x.id = r'.id then r' else x) = l.map id := List.map_congr_left fun x hx => by rw [if_neg (h x (hl x hx))]; rfl
    rw [this, List.map_id]
  have e : (l1 ++ r :: l2).map (fun x => if x.id = r'.id then r' else x) = l1 ++ r' :: l2 := by
    simp only [List.map_append, List.map_cons, hr, if_true]
    rw [g l1 (fun x hx => List.mem_append_left _ hx), g l2 (fun x hx => List.mem_append_right _ hx)]
  rw [e]

theorem dropReqA {m : Module} {l1 l2 : List TierReq} {r r' : TierReq} (hl : m.tier.reqs = l1 ++ r :: l2) (h : ∀ x ∈ l1 ++ l2, x.id ≠ r'.id) (hr : r.id = r'.id) :
    m.dropReq r' = { m with tier.reqs := l1 ++ l2 } := by
  unfold Module.dropReq
  rw [hl]
  have e : (l1 ++ r :: l2).filter (fun x => decide (x.id ≠ r'.id)) = l1 ++ l2 := by
    simp only [List.filter_append, List.filter_cons, hr]
    simp only [ne_eq, not_true, decide_false, if_false, Bool.false_eq_true]
    rw [List.filter_eq_self.2 fun x hx => by simpa using h x (List.mem_append_left _ hx), List.filter_eq_self.2 fun x hx => by simpa using h x (List.mem_append_right _ hx)]
  rw [e]

structure Wrote (m m' : Module) (die route back : Nat) (r : TierReq) (l1 l2 : List TierReq) (bs : List Byte) (pg : Nat) : Prop where
  mem : m'.tier.mem = (m.putBytes (r.addr + r.pos) bs).tier.mem
  cores : m'.cores = m.cores
  parts : m'.parts = m.parts
  pages : ∀ q, q ≠ pg → m'.page q = m.page q
  written : (m'.page pg).written = (tilesIn (r.addr + r.pos) bs.length).foldl (fun w t => setMask w t true) (m.page pg).written
  reqs : m'.tier.reqs = (if r.len ≤ r.pos + bs.length then l1 ++ l2 else l1 ++ { r with pos := r.pos + bs.length } :: l2)
  fl : ∃ fs : List Flight, m'.net.flights = m.net.flights ++ fs ∧ fs.map (fun g => (g.route, g.part, g.hdr, g.payload)) =
          [(back, r.part, mkHeader back 3 0 (kgetD 0 m.net.dieSeqCredit back) 0, [])]
          ++ (if r.len ≤ r.pos + bs.length then
                [(r.reply, r.part, mkHeader r.reply 4 0 (kgetD 0 m.net.dieSeq r.reply) 0, [controlFlit (doneMsg r)])] else [])

theorem ringCredit_eq (m : Module) (p n route k : Nat) : ∃ ss, m.ringCredit p n route k = { m with
    net.flights := m.net.flights ++ [{ route := route, part := p, hdr := mkHeader route 3 (k - 1) (kgetD 0 m.net.dieSeqCredit route) 0, payload := [], sites := ss }]
    net.dieSeqCredit := kput m.net.dieSeqCredit route ((kgetD 0 m.net.dieSeqCredit route + 1) % 256) } := ⟨_, rfl⟩

theorem ringControl_eq (m : Module) (p n route : Nat) (x) : ∃ ss, m.ringControl p n route x = { m with
    net.flights := m.net.flights ++ [{ route := route, part := p, hdr := mkHeader route 4 0 (kgetD 0 m.net.dieSeq route) 0, payload := [controlFlit x], sites := ss }]
    net.dieSeq := kput m.net.dieSeq route ((kgetD 0 m.net.dieSeq route + 1) % 256) } := ⟨_, rfl⟩

theorem stopMove_none {m : Module} {pg : Nat} (h : (m.page pg).move = none) (b) : m.stopMove pg b = m := by
  unfold Module.stopMove; simp [h]

theorem writeData_wrote {m : Module} {die back : Nat} {r : TierReq} {l1 l2 : List TierReq} {f : Flight} {pg : Nat}
    (ho : m.netOpen r.part = true) (hreqs : m.tier.reqs = l1 ++ r :: l2)
    (hh : ∀ x ∈ l1 ++ l2, ¬(x.die = r.die ∧ x.route = r.route) ∧ x.id ≠ r.id) (hrw : r.write = true) (hph : r.phase = .moving) (hdie : r.die = die)
    (hback : m.cores.findSome? (fun e => (e.2.eps.find? (fun q => !q.2.recv && q.2.route = f.route)).map (fun q => q.2.creditRoute)) = some back) (hb0 : back ≠ 0)
    (hp1 : (m.page pg).tier = 1) (hp2 : (m.page pg).move = none) (hpg : (r.addr + r.pos) / pageBytes = pg) (hpg' : r.addr / pageBytes = pg) :
    Wrote m (m.writeDataAtDie die r f) die r.route back r l1 l2 ((flitBytes f.payload).take (r.len - r.pos)) pg ∧ (m.writeDataAtDie die r f).watched = m.watched := by
  unfold Module.writeDataAtDie
  generalize (flitBytes f.payload).take (r.len - r.pos) = bs
  simp only [hpg', stopMove_none hp2]
  obtain ⟨⟨x1, x2, x3, x4, e⟩, q1, q2, w0, r0, q3⟩ := putBytes_put m (r.addr + r.pos) bs
  rw [hpg] at q1 q2 q3
  generalize hm1 : m.putBytes (r.addr + r.pos) bs = m1 at e q1 q2 q3 ⊢
  have e1 : m1.setReq { r with pos := r.pos + bs.length } = { m1 with tier.reqs := l1 ++ { r with pos := r.pos + bs.length } :: l2 } := setReqA (r := r) (by rw [e]; exact hreqs) (fun x hx => (hh x hx).2) rfl
  rw [e1]
  generalize hm2 : ({ m1 with tier.reqs := l1 ++ { r with pos := r.pos + bs.length } :: l2 } : Module) = m2
  have c1 : m2.cores = m.cores := by rw [← hm2, e]
  rw [c1, hback, Option.getD_some, if_neg hb0]
  obtain ⟨ss, e2⟩ := ringCredit_eq m2 r.part die back 1
  rw [e2]
  generalize hm3 : ({ m2 with net.flights := _, net.dieSeqCredit := _ } : Module) = m3
  rw [← hm2] at hm3
  have r3 : m3.tier.reqs = l1 ++ { r with pos := r.pos + bs.length } :: l2 := by rw [← hm3]
  have o3 : m3.netOpen r.part = true := by rw [← hm3, e]; exact ho
  have hn : ∀ x ∈ l1 ++ l2, (decide (x.die = die) && decide (x.route = r.route)) = false := fun x hx => by
    have := (hh x hx).1
    rw [hdie] at this
    simpa using this
  have f3 : m3.tier.reqs.find? (fun x => x.die = die && x.route = r.route) = some { r with pos := r.pos + bs.length } := by
    rw [r3]; exact findA hn (by simp [hdie])
  show Wrote m (m3.serve die r.route (9999 + 1)) _ _ _ _ _ _ _ _ ∧ _
  rw [show serveFuel = 9999 + 1 from rfl, serve_writing f3 o3 hph hrw]
  have t3 : (m3.page pg).tier = 1 := by
    show (m3.page pg).tier = 1
    have : m3.page pg = m1.page pg := by rw [← hm3]; rfl
    rw [this, q3]; exact hp1
  split
  · rename_i hl
    have hl : r.len ≤ r.pos + bs.length := hl
    have ee : m3.endWrite { r with pos := r.pos + bs.length } = (m3.dropReq { r with pos := r.pos + bs.length }).ringControl r.part r.die r.reply (doneMsg r) := by
      unfold Module.endWrite
      simp only [hpg', t3]
      rw [if_neg (by decide), if_neg (by simp)]
      rfl
    rw [ee, dropReqA (r := { r with pos := r.pos + bs.length }) (r' := { r with pos := r.pos + bs.length }) r3 (fun x hx => (hh x hx).2) rfl]
    obtain ⟨s2, e4⟩ := ringControl_eq { m3 with tier.reqs := l1 ++ l2 } r.part r.die r.reply (doneMsg r)
    rw [e4, serve_none]
    · refine ⟨⟨?_, ?_, ?_, ?_, ?_, ?_, ?_⟩, ?_⟩
      · rw [← hm3, hm1]
      · rw [← hm3, e]
      · rw [← hm3, e]
      · intro q hq; exact Eq.trans (by rw [← hm3]; rfl) (q1 q hq)
      · exact Eq.trans (by rw [← hm3]; rfl) q2
      · rw [if_pos hl]
      · rw [if_pos hl, ← hm3, e]
        refine ⟨_, by simp only [List.append_assoc, List.cons_append, List.nil_append]; rfl, rfl⟩
      · rw [← hm3, e]; rfl
    · rw [List.find?_eq_none]
      intro x hx
      rw [hn x hx]; simp
  · rename_i hl
    have hl : ¬ r.len ≤ r.pos + bs.length := hl
    refine ⟨⟨?_, ?_, ?_, ?_, ?_, ?_, ?_⟩, ?_⟩
    · rw [← hm3, hm1]
    · rw [← hm3, e]
    · rw [← hm3, e]
    · intro q hq; exact Eq.trans (by rw [← hm3]; rfl) (q1 q hq)
    · exact Eq.trans (by rw [← hm3]; rfl) q2
    · rw [if_neg hl, r3]
    · rw [if_neg hl, ← hm3, e]
      exact ⟨_, rfl, rfl⟩
    · rw [← hm3, e]; rfl

theorem core_of' {m : Module} {c k} (h : kget? m.cores c = some k) : m.core c = k := by unfold Module.core kgetD; rw [h]; rfl

theorem onModule_after {s : State} {f : Module → Module} {m : Module} (h : f s.m = m) : onModule s f = after s m := by
  unfold onModule; rw [h]; rfl

/-- What the start of moves at a die leaves (R285, R286). -/
structure Moved (die : Nat) (m m' : Module) : Prop where
  page : ∀ q, (m'.page q).heat = (m.page q).heat ∧ (m'.page q).tier = (m.page q).tier ∧ (m'.page q).written = (m.page q).written
  off : fld (m.mig die) 60 1 = 0 → ∀ q, (m'.page q).move = (m.page q).move
  mig : m'.tier.migNow = m.tier.migNow
  low : m'.tier.lowNow = m.tier.lowNow
  home : ∀ q, m'.home? q = m.home? q
  epochNo : m'.tier.epochNo = m.tier.epochNo
  epochAt : m'.tier.epochAt = m.tier.epochAt
  now : m'.now = m.now
  migrate : m'.tier.migrate = m.tier.migrate
  lowWater : m'.tier.lowWater = m.tier.lowWater
  mem : m'.tier.mem = m.tier.mem
  cores : m'.cores = m.cores
  parts : m'.parts = m.parts
  watched : m'.watched = m.watched

theorem Moved.refl {die : Nat} (m : Module) : Moved die m m := ⟨fun _ => ⟨rfl, rfl, rfl⟩, fun _ _ => rfl, rfl, rfl, fun _ => rfl, rfl, rfl, rfl, rfl, rfl, rfl, rfl, rfl, rfl⟩

theorem Moved.trans {die : Nat} {a b c : Module} (h : Moved die a b) (g : Moved die b c) : Moved die a c :=
  ⟨fun q => ⟨(g.page q).1.trans (h.page q).1, (g.page q).2.1.trans (h.page q).2.1, (g.page q).2.2.trans (h.page q).2.2⟩,
   fun hz q => (g.off (by unfold Module.mig; rw [h.mig]; exact hz) q).trans (h.off hz q), g.mig.trans h.mig, g.low.trans h.low, fun q => (g.home q).trans (h.home q),
   g.epochNo.trans h.epochNo, g.epochAt.trans h.epochAt, g.now.trans h.now, g.migrate.trans h.migrate, g.lowWater.trans h.lowWater, g.mem.trans h.mem,
   g.cores.trans h.cores, g.parts.trans h.parts, g.watched.trans h.watched⟩

theorem setPage_moved {die : Nat} (m : Module) (pg : Nat) (x : Page) (h : x.heat = (m.page pg).heat ∧ x.tier = (m.page pg).tier ∧ x.written = (m.page pg).written)
    (hm : fld (m.mig die) 60 1 ≠ 0) : Moved die m (m.setPage pg x) := by
  refine ⟨fun q => ?_, fun hz => absurd hz hm, rfl, rfl, fun _ => rfl, rfl, rfl, rfl, rfl, rfl, rfl, rfl, rfl, rfl⟩
  have : (m.setPage pg x).page q = if q = pg then x else m.page q := by unfold Module.setPage Module.page; rw [kgetD_kset]
  rw [this]
  split
  · rename_i hq; rw [hq]; exact h
  · exact ⟨rfl, rfl, rfl⟩

theorem withFrame_moved {die : Nat} (m : Module) (pg k) (hm : fld (m.mig die) 60 1 ≠ 0) : Moved die m (m.withFrame pg k) := by
  unfold Module.withFrame
  dsimp only
  split
  · exact setPage_moved m pg _ ⟨rfl, rfl, rfl⟩ hm
  · split
    · exact setPage_moved m pg _ ⟨rfl, rfl, rfl⟩ hm
    · exact .refl _

theorem startMove_moved {die : Nat} (m : Module) (pg k) (hm : fld (m.mig die) 60 1 ≠ 0) : Moved die m (m.startMove pg k) := by
  unfold Module.startMove
  have h1 : Moved die m (m.setPage pg { m.page pg with move := some { dest := k } }) := setPage_moved m pg _ ⟨rfl, rfl, rfl⟩ hm
  refine h1.trans (withFrame_moved _ pg k ?_)
  unfold Module.mig
  rw [h1.mig]; exact hm

theorem frozen_off {m : Module} {die pg} (h : fld (m.mig die) 60 1 = 0) : m.frozen die pg = true := by
  unfold Module.frozen; simp [h]

theorem movable_on {m : Module} {die} {e} (h : e ∈ m.movable die) : fld (m.mig die) 60 1 ≠ 0 := by
  intro hz
  unfold Module.movable at h
  rw [List.mem_filter] at h
  have := h.2
  rw [frozen_off hz] at this
  simp at this

theorem coldest_mem {l : List (Nat × Page)} {e} (h : coldest l = some e) : e ∈ l := by
  induction l generalizing e with
  | nil => simp [coldest] at h
  | cons a t ih =>
    unfold coldest at h
    cases hc : coldest t with
    | none => rw [hc] at h; simp at h; simp [h]
    | some g =>
      rw [hc] at h
      simp only at h
      split at h
      · simp at h; simp [h]
      · simp at h; rw [← h]; exact List.mem_cons_of_mem _ (ih hc)

theorem demote_moved (m : Module) (die k n v) : Moved die m (m.demote die k n v).2 := by
  induction n generalizing m v with
  | zero => exact .refl m
  | succ n ih =>
    rw [Module.demote]
    dsimp only
    generalize (if k = 1 then fld (m.low die) 0 16 else fld (m.low die) 16 16) = low
    split
    · split
      · exact .refl m
      · rename_i e he
        have := coldest_mem he
        rw [List.mem_filter] at this
        exact (startMove_moved m _ _ (movable_on this.1)).trans (ih ..)
    · exact .refl m

theorem insHot_mem {e g : Nat × Page} {l : List (Nat × Page)} (h : g ∈ insHot e l) : g = e ∨ g ∈ l := by
  induction l with
  | nil => simpa [insHot] using h
  | cons a t ih =>
    unfold insHot at h
    split at h
    · simpa using h
    · rcases List.mem_cons.1 h with h | h
      · exact .inr (by simp [h])
      · rcases ih h with h | h
        · exact .inl h
        · exact .inr (List.mem_cons_of_mem _ h)

theorem promote_moved (m : Module) (die v) : Moved die m (m.promote die v) := by
  unfold Module.promote
  extract_lets hot
  have hmem : ∀ g ∈ hot, g ∈ m.movable die := by
    have key : ∀ (l : List (Nat × Page)) (a : List (Nat × Page)), (∀ g ∈ l, g ∈ m.movable die) → (∀ g ∈ a, g ∈ m.movable die) →
        ∀ g ∈ l.foldl (fun l e => insHot e l) a, g ∈ m.movable die := by
      intro l
      induction l with
      | nil => exact fun a _ h => h
      | cons b t ih =>
        intro a h1 h2
        rw [List.foldl_cons]
        refine ih _ (fun g hg => h1 g (List.mem_cons_of_mem _ hg)) (fun g hg => ?_)
        rcases insHot_mem hg with h | h
        · rw [h]; exact h1 b (by simp)
        · exact h2 g h
    exact key _ [] (fun g hg => (List.mem_filter.1 hg).1) (by simp)
  clear_value hot
  by_cases hz : fld (m.mig die) 60 1 = 0
  · have : hot = [] := by
      cases hot with
      | nil => rfl
      | cons a t => exact absurd hz (movable_on (hmem a (by simp)))
    rw [this]; exact .refl m
  · have key : ∀ (l : List (Nat × Page)) (a : Nat × Module), Moved die m a.2 → Moved die m (l.foldl (fun (a : Nat × Module) e =>
        let (v, m) := a
        match m.objAt e.1 with
        | none => a
        | some (_, o) =>
          if fld (m.mig die) 48 12 ≤ v then a
          else
            match ([1, 2].filter (fun t => o.fast ≤ t && t < e.2.tier && 0 < m.openFrames t die)).head? with
            | none => a
            | some t => (v + 1, m.startMove e.1 t)) a).2 := by
      intro l
      induction l with
      | nil => exact fun _ h => h
      | cons b t ih =>
        intro a h
        rw [List.foldl_cons]
        refine ih _ ?_
        obtain ⟨v, m1⟩ := a
        dsimp only
        split
        · exact h
        · split
          · exact h
          · split
            · exact h
            · exact h.trans (startMove_moved m1 _ _ (by unfold Module.mig; rw [h.mig]; exact hz))
    exact key hot (v, m) (.refl m)

def doEpochEnd' (die : Nat) (m : Module) : Module :=
    ((m.demote die 1 4096 (m.movesAt die)).2.demote die 2 4096 (m.demote die 1 4096 (m.movesAt die)).1).2.promote die
      ((m.demote die 1 4096 (m.movesAt die)).2.demote die 2 4096 (m.demote die 1 4096 (m.movesAt die)).1).1

end Sys2Proof.Machine
end

