-- ==== Sys2Proof/Laws/Streams.lean ====
section
/-! SUPPORT. Stream flows: PULLs, timers, DATA and the pool. -/

namespace Sys2Proof.Machine

open Sys2Proof

theorem flow_of {m : Module} {k f} (h : kget? m.str.flows k = some f) : m.flow k = f := by unfold Module.flow kgetD; rw [h]; rfl

theorem setFlow_flow (m : Module) (k j f) : (m.setFlow k f).flow j = if j = k then f else m.flow j := by
  unfold Module.setFlow Module.flow; rw [kgetD_kput]

theorem sendFrame_keep (m : Module) (a b c d e) : ∃ fp o, Module.sendFrame m a b c d e = { m with fab.ports := fp, out := o } := by
  unfold Module.sendFrame
  extract_lets p f
  split
  · exact ⟨m.fab.ports, m.out, rfl⟩
  · split
    · split
      · exact ⟨_, m.out, rfl⟩
      · exact ⟨_, _, rfl⟩
    · exact ⟨_, _, rfl⟩

theorem sendPsp_keep (m : Module) (a b c d e f g h i j k) : ∃ fp o sq, Module.sendPsp m a b c d e f g h i j k = { m with fab.ports := fp, out := o, str.seqs := sq } := by
  unfold Module.sendPsp Module.sendControl Module.nextPspSeq
  obtain ⟨fp, o, h⟩ := sendFrame_keep { m with str.seqs := kput m.str.seqs e ((kgetD 0 m.str.seqs e + 1) % 2 ^ 32) } a b m.str.ethertype 0
      (pspHeader c d e f g h i j (kgetD 0 m.str.seqs e) ++ k)
  exact ⟨fp, o, _, h⟩

theorem ackedOf_zero (f : Flow) (key) (h : (kgetD {} f.sects key).heldUnits = 0) : f.ackedOf key = 0 := by
  unfold Flow.ackedOf
  rw [h]
  generalize f.children = l
  induction l with
  | nil => rfl
  | cons c t ih =>
    rw [List.foldl_cons]
    have : (if c.gone then 0 else min 0 (kgetD 0 c.acked key)) = 0 := by split <;> simp
    rw [this]; exact ih

theorem sendPulls_keep (p key : Nat) (l : List Pull) (m : Module) : ∃ fp o sq, l.foldl (fun m x => m.sendPull p key x) m = { m with fab.ports := fp, out := o, str.seqs := sq } := by
  induction l generalizing m with
  | nil => exact ⟨m.fab.ports, m.out, m.str.seqs, rfl⟩
  | cons a t ih =>
    rw [List.foldl_cons]
    obtain ⟨b1, b2, b3, g⟩ := ih (m.sendPull p key a)
    rw [g]
    unfold Module.sendPull
    obtain ⟨a1, a2, a3, h⟩ := sendPsp_keep m (portOfRing (m.flow key).portDie) (m.flow key).parent 1 (decide (a.unit + a.count = (let s : Section := kgetD {} (m.flow key).sects a.key
                 let e := m.layer p ((m.flow key).layerNo (a.key / 16))
                 if s.units = 0 then (m.flow key).sectionUnits e (a.key % 16) else s.units))) (m.flow key).stream
       (m.layer p ((m.flow key).layerNo (a.key / 16))).src (a.key % 16) a.unit a.count 0 (leBytes 4 a.acked)
    refine ⟨b1, b2, b3, ?_⟩
    dsimp only at h ⊢
    rw [h]

theorem newPull_eq (m : Module) (p key : Nat) (x : Pull) (f : Flow) (units : Nat) (hf : m.flow key = f) (ha : f.ackedOf x.key = 0)
    (hu : (if (kgetD ({} : Section) f.sects x.key).units = 0 then f.sectionUnits (m.layer p (f.layerNo (x.key / 16))) (x.key % 16) else (kgetD ({} : Section) f.sects x.key).units) = units) :
    m.newPull p key x = (m.sendPsp (portOfRing f.portDie) f.parent 1 (x.unit + x.count = units) f.stream (m.layer p (f.layerNo (x.key / 16))).src (x.key % 16) x.unit x.count 0
      (leBytes 4 0)).setFlow key { f with
        pulls := f.pulls ++ [{ x with acked := 0, at_ := m.now, last := m.now }]
        forgot := f.forgot.filter (fun y => !(y.key = x.key && x.unit < y.unit + y.count && y.unit < x.unit + x.count)) } := by
  unfold Module.newPull Module.sendPull
  simp only [hf, ha, hu]

/-- A move that ends leaves the page in its tier with the frames it keeps, and nothing else of memory changes. -/
theorem abandon_page (m : Module) (pg code sub detail : Nat) (v : Move) (hv : (m.page pg).move = some v) :
    (∀ q, (m.abandonMove pg code sub detail).page q = if q = pg then { m.page pg with move := none }.settled (m.objOf pg).2.slow else m.page q)
    ∧ (m.abandonMove pg code sub detail).tier.mem = m.tier.mem ∧ (m.abandonMove pg code sub detail).str = m.str
    ∧ (m.abandonMove pg code sub detail).watched = m.watched := by
  unfold Module.abandonMove
  obtain ⟨a, b, c, h⟩ := logEvent_keep (m.stopMove pg false) code { Loc.ring ((m.home? pg).getD 0) with sub := sub } none 0 detail
  rw [h]
  have e : m.stopMove pg false = m.setPage pg ({ m.page pg with move := none }.settled (m.objOf pg).2.slow) := by
    unfold Module.stopMove
    simp [hv]
  rw [e]
  exact ⟨fun q => page_setPage m pg q _, rfl, rfl, rfl⟩

theorem feed_idle {m : Module} (p key d : Nat) (hw : m.str.winPulls = []) (hr : (m.flow key).resident = true) : m.feed p key d = m := by
  unfold Module.feed
  have : ∀ l : List Nat, l.foldl (fun m x => m.feedMember p key x feedFuel) m = m := by
    intro l
    induction l with
    | nil => rfl
    | cons a t ih =>
      rw [List.foldl_cons]
      rw [show m.feedMember p key a feedFuel = m by
        rw [show feedFuel = 19999 + 1 from rfl, Module.feedMember, hw]; rfl]
      exact ih
  rw [this]
  unfold Module.freeStage
  simp only [hr]
  rfl

/-- A page of T1 that neither moves nor waits for a kerf is open as it is. -/
theorem copyAhead_plain {m : Module} {pg : Nat} (h2 : (m.page pg).pending = false) : m.copyAhead pg = (m, true) := by
  have e : (!(m.page pg).pending) = true := by rw [h2]; rfl
  rw [Module.copyAhead, if_pos e]

theorem withFrame_t1 (m : Module) (pg : Nat) : m.withFrame pg 1 = m := by
  unfold Module.withFrame
  dsimp only
  rw [if_neg (by simp), if_neg (by simp)]

theorem openPage_plain {m : Module} {pg : Nat} (h1 : (m.page pg).tier = 1)
    (h2 : (m.page pg).pending = false) (h3 : (m.page pg).move = none) : m.openPage pg = (m, true) := by
  unfold Module.openPage
  rw [copyAhead_plain h2]
  dsimp only
  cases m.objAt pg with
  | none => rfl
  | some e =>
    dsimp only
    rw [stopMove_none h3, if_neg (by rw [h1]; decide), h1, withFrame_t1]

theorem through_t1 {m : Module} {pg : Nat} (h : (m.page pg).tier = 1) (ts ow) : m.through pg ts ow = m := by
  unfold Module.through
  rw [if_neg (by rw [h]; decide), if_neg (by rw [h]; decide)]

/-- A write of the module itself into such a page only puts the bytes. -/
theorem storeWith_plain {m : Module} {pg : Nat} {ts : List Nat} {ow : PoolOwner} {put : Module → Module}
    (h1 : (m.page pg).tier = 1) (h2 : (m.page pg).pending = false) (h3 : (m.page pg).move = none) (hk : ((put m).page pg).tier = 1) :
    m.storeWith pg ts ow put = ({ put m with str.stalled := m.str.stalled.filter (fun b => b ≠ (ow, pg)) }, true) := by
  unfold Module.storeWith
  dsimp only
  rw [if_neg (by rw [h2]; simp), openPage_plain h1 h2 h3]
  dsimp only
  rw [through_t1]
  exact hk

theorem store_t1 {m : Module} {addr : Nat} {bs : List Byte} {ow : PoolOwner} (h1 : (m.page (addr / pageBytes)).tier = 1)
    (h2 : (m.page (addr / pageBytes)).pending = false) (h3 : (m.page (addr / pageBytes)).move = none)
    (hs : (ow, addr / pageBytes) ∉ m.str.stalled) : m.store addr bs ow = (m.putBytes addr bs, true) := by
  have hput := putBytes_put m addr bs
  have hpt : ((m.putBytes addr bs).page (addr / pageBytes)).tier = 1 := by
    obtain ⟨_, _, e⟩ := hput.rest
    rw [e]; exact h1
  have e := storeWith_plain (ts := tilesIn addr bs.length) (ow := ow) (put := fun m => m.putBytes addr bs) h1 h2 h3 hpt
  have f : m.str.stalled.filter (fun b => b ≠ (ow, addr / pageBytes)) = m.str.stalled := by
    rw [List.filter_eq_self]
    intro b hb
    have : b ≠ (ow, addr / pageBytes) := fun e => hs (e ▸ hb)
    simpa using this
  rw [f] at e
  refine e.trans ?_
  obtain ⟨_, _, _, _, e⟩ := hput.keep
  dsimp only
  rw [e]

theorem storeFails_t1 {m : Module} {pg : Nat} (h1 : (m.page pg).tier = 1) : m.storeFails pg = false := by
  unfold Module.storeFails Module.landsIn
  simp [h1]

theorem setFlow_watched (m : Module) (k f) : (m.setFlow k f).watched = m.watched := rfl

theorem closePulls_eq (m : Module) (key) : ∃ f', m.closePulls key = m.setFlow key f' ∧ f'.sects = (m.flow key).sects ∧ f'.children = (m.flow key).children ∧ f'.resident = (m.flow key).resident :=
  ⟨_, rfl, rfl, rfl, rfl⟩

theorem setFlow_page (m : Module) (k f q) : (m.setFlow k f).page q = m.page q := rfl

theorem setFlow_winPulls (m : Module) (k f) : (m.setFlow k f).str.winPulls = m.str.winPulls := rfl

end Sys2Proof.Machine
end

