-- ==== Sys2Proof/Laws/Windows.lean ====
section
/-! SUPPORT. Windows, frames, chunks and herds. -/

namespace Sys2Proof.Machine

open Sys2Proof

theorem port_setPort (m : Module) (p x) : (m.setPort p x).port p = x := by simp

theorem arrive_core' {m : Module} {f : Flight} {c : Nat} (h1 : (m.part f.part).flushing = false) (h2 : m.active f.part = true) (hc : c < 19600) :
    m.arrive c f = some (m.arriveCore f.part c f) := arrive_core h1 h2 hc

theorem feedMember_none {m : Module} {p key x : Nat} {n : Nat} (h : m.str.winPulls.find? (fun w => w.flow = key && w.member = x) = none) : m.feedMember p key x (n + 1) = m := by
  rw [Module.feedMember, h]

end Sys2Proof.Machine
end

