-- ==== Sys2Proof/Laws/Queues.lean ====
section
/-! SUPPORT. The host link, command queues, copies, sessions and batches. -/

namespace Sys2Proof.Machine

open Sys2Proof

theorem finish_ended (m : Module) (q code : Nat) (stop noop : Bool) (info : Nat) (h : (m.queue q).desc.isSome = true) :
    m.finish q code stop noop info = ended m q (m.queue q) code info stop noop := by
  unfold Module.finish ended
  generalize m.queue q = x at h
  obtain ⟨d, hd⟩ := Option.isSome_iff_exists.1 h
  simp only [hd]
  cases stop
  · by_cases hc : code = 0 ∧ x.fld 15 1 = 1
    · rw [if_pos hc, if_pos hc, if_pos (by simp [hc])]
      rfl
    · rw [if_neg hc, if_neg hc, if_neg (by simpa using hc)]
      rfl
  · by_cases hc : code = 0 ∧ x.fld 15 1 = 1
    · rw [if_pos hc, if_pos hc, if_pos (by simp [hc])]
      rfl
    · rw [if_neg hc, if_neg hc, if_neg (by simpa using hc)]
      rfl

theorem queue_of {m : Module} {q y} (h : kget? m.que.queues q = some y) : m.queue q = y := by unfold Module.queue kgetD; rw [h]; rfl

theorem queue_setQueue (m : Module) (q r y) : (m.setQueue q y).queue r = if r = q then y else m.queue r := by
  unfold Module.queue Module.setQueue
  rw [kgetD_kput]

theorem ended_setQueue (m : Module) (q x y code info stop noop) : ended (m.setQueue q x) q y code info stop noop = ended m q y code info stop noop := by
  unfold ended Module.setQueue
  simp only [kput_kput]
  rfl

theorem ended_watched (m : Module) (q y code info stop noop) : (ended m q y code info stop noop).watched = m.watched := rfl

theorem atStart_of {s : State} {q op y} (h : AtStart s q op y) (hd : (s.m.part (q / 64)).st ≠ .draining) : s.m.atStart q op = true := by
  unfold Module.atStart
  rw [queue_of h.entry]
  simp [h.act, h.desc, h.opcode, h.passed, h.idle, hd]

/-- A start check that fails ends the command with 0x0601; INFO of a session command is its handle. -/
theorem badStart_ended {s : State} {q op y} (h : AtStart s q op y) :
    s.m.badStart q = ended s.m q y 0x0601 (if op = 0x31 ∨ op = 0x32 then y.param 0 18 else 0) true false := by
  unfold Module.badStart
  rw [finish_ended _ _ _ _ _ _ (by rw [queue_of h.entry]; exact h.desc), queue_of h.entry]
  obtain ⟨d, hd⟩ := Option.isSome_iff_exists.1 h.desc
  have ho : fld d.toNat 0 8 = op := by
    have := h.opcode
    unfold Queue.op Queue.fld at this
    rw [hd] at this
    exact this
  have hp : y.param 0 18 = fld d.toNat 128 18 := by
    unfold Queue.param Queue.fld
    rw [hd]; rfl
  have : ((y.desc.map (fun d => sessionInfo d.toNat)).getD 0) = if op = 0x31 ∨ op = 0x32 then y.param 0 18 else 0 := by
    rw [hd, hp]
    show sessionInfo d.toNat = _
    unfold sessionInfo
    rw [ho]
    by_cases h1 : op = 0x31 <;> by_cases h2 : op = 0x32 <;> simp [h1, h2]
  rw [this]

theorem stagingLost_eq (m : Module) : m.stagingLost = if m.jig.phase = .staging ∧ m.jig.fabric = false then m.refuseLoad { code := 0x0603, res := 0x30 } 0 else m := by
  unfold Module.stagingLost
  by_cases h : m.jig.phase = .staging ∧ m.jig.fabric = false
  · rw [if_pos h, if_pos (by simp [h])]
  · rw [if_neg h, if_neg (by simpa using h)]

theorem lost_ok {s : State} {f : Module → Module} {m : Module} (h : f s.m = m.stagingLost) (hw : m.watched = s.m.watched) :
    onModule s f = if m.jig.phase = .staging ∧ m.jig.fabric = false
      then after s (m.refuseLoad { code := 0x0603, res := 0x30 } 0) else .next { s with m := m } := by
  rw [stagingLost_eq] at h
  by_cases hc : m.jig.phase = .staging ∧ m.jig.fabric = false
  · rw [if_pos hc] at h ⊢; exact onModule_after h
  · rw [if_neg hc] at h ⊢; exact onModule_same h hw

theorem padTo_self {n : Nat} {b : Byte} {l : List Byte} (h : l.length = n) : padTo n b l = l := by
  unfold padTo
  rw [h]; simp [← h]

theorem emit_queue (m : Module) (e q) : (m.emit e).queue q = m.queue q := rfl

theorem foldl_kset (v : Nat → Nat) (n : Nat) (i : Nat) : kgetD 0 ((List.range n).foldl (fun s i => kset 0 s i (v i)) []) i = if i < n then v i else 0 := by
  induction n with
  | zero => simp [kgetD, kget?]
  | succ n ih =>
    rw [List.range_succ, List.foldl_append, List.foldl_cons, List.foldl_nil, kgetD_kset]
    by_cases h : i = n
    · subst h; simp
    · rw [if_neg h, ih]
      by_cases h2 : i < n
      · rw [if_pos h2, if_pos (by omega)]
      · rw [if_neg h2, if_neg (by omega)]

theorem prepare_threads (l : List Nat) (k : Core) : (l.foldl prepareList k).threads = k.threads := by
  induction l generalizing k with
  | nil => rfl
  | cons a t ih => rw [List.foldl_cons, ih]; rfl

theorem askWakes_eq (l : List Nat) (m : Module) : ∃ c, m.askWakes l = { m with pwr.clusters := c } := by
  unfold Module.askWakes
  induction l generalizing m with
  | nil => exact ⟨m.pwr.clusters, rfl⟩
  | cons a t ih =>
    rw [List.foldl_cons]
    dsimp only
    split
    · exact ih m
    · obtain ⟨c, h⟩ := ih (m.setCluster a { m.cluster a with wakeAsked := true })
      exact ⟨c, by rw [h]; rfl⟩

theorem startTask_core (m : Module) (p q : Nat) :
    let x := m.part p
    let t := m.startTask p q
    (t.part p) = { x with st := .running, taskRunning := true, started := false, resumed := false, flushing := true
                          flushFrom := m.net.slot, starter := some q
                          taskSeq := if x.taskSeq = 0x0FFF_FFFF then 1 else x.taskSeq + 1 }
    ∧ (∀ p', p' ≠ p → t.part p' = m.part p') ∧ (∀ q, t.queue q = m.queue q)
    ∧ (∀ c k, kget? m.cores c = some k → x.hasCore c = true → ∃ k', kget? t.cores c = some k' ∧ k'.carry = [] ∧ k'.threads = k.threads
          ∧ (∀ i, i < 16 → kgetD 0 k'.sems i = (k.img.getD {}).semInit.getD i 0)) := by
  intro x t
  have ht : ∃ c f h mo, t = { (m.mapCores p (startCore (fun i => m.flow (256 * p + i)))) with
      parts := kput m.parts p { x with
        st := .running, taskRunning := true, started := false, resumed := false, taskSeq := nextTaskSeq x.taskSeq, starter := some q, flushing := true, flushFrom := m.net.slot }
      str.flows := f, herds := h, que.models := mo, pwr.clusters := c } := by
    show ∃ c f h mo, m.startTask p q = _
    unfold Module.startTask
    exact ⟨_, _, _, _, (askWakes_eq _ _).choose_spec⟩
  clear_value t
  obtain ⟨c, f, h, mo, ht⟩ := ht
  subst ht
  refine ⟨?_, fun p' hp => ?_, fun q => rfl, fun c k hk hc => ?_⟩
  · unfold Module.part
    dsimp only
    rw [kgetD_kput, if_pos rfl]
    rfl
  · unfold Module.part
    dsimp only
    rw [kgetD_kput, if_neg hp]
  · refine ⟨startCore (fun i => m.flow (256 * p + i)) k, ?_, rfl, ?_, fun i hi => ?_⟩
    · unfold Module.mapCores
      dsimp only
      rw [kget?_kmapv, hk]
      show some (if x.hasCore c = true then _ else _) = _
      rw [hc, if_pos rfl]
    · unfold startCore
      exact prepare_threads ..
    · unfold startCore
      dsimp only
      rw [foldl_kset, if_pos hi]

theorem runTask_ok {s : State} {q op : Nat} {y : Queue} {i : Instr} {f : Module → Module} (ha : AtStart s q op y) (he : exec i s = onModule s f) (hf : f s.m = s.m.runTask q)
    (hr : (s.m.part (q / 64)).krf.resume = false) :
    let p := q / 64
    let x := s.m.part p
    Completes i s (fun m => (m.part p) = { x with
        st := .running, taskRunning := true, started := false, resumed := false, flushing := true
        flushFrom := s.m.net.slot, starter := some q
        taskSeq := if x.taskSeq = 0x0FFF_FFFF then 1 else x.taskSeq + 1 }
        ∧ (∀ p', p' ≠ p → m.part p' = s.m.part p')
        ∧ (m.queue q).running = true ∧ (m.queue q).sqHead = (y.idx + 1) % 2 ^ fld y.cfg 0 5 ∧ (∀ q', q' ≠ q → m.queue q' = s.m.queue q')
        ∧ (∀ c k, kget? s.m.cores c = some k → x.hasCore c = true → ∃ k', kget? m.cores c = some k' ∧ k'.carry = [] ∧ k'.threads = k.threads
          ∧ (∀ i, i < 16 → kgetD 0 k'.sems i = (k.img.getD {}).semInit.getD i 0))) := by
  intro p x
  unfold Module.runTask at hf
  dsimp only at hf
  rw [if_neg (by rw [hr]; decide)] at hf
  have hy := queue_of ha.entry
  have hs : s.m.startCmd q = s.m.setQueue q { y with running := true, passed := false, sqHead := (y.idx + 1) % 2 ^ fld y.cfg 0 5 } := by
    unfold Module.startCmd
    rw [hy]
    rfl
  rw [hs] at hf
  generalize hm1 : s.m.setQueue q { y with running := true, passed := false, sqHead := (y.idx + 1) % 2 ^ fld y.cfg 0 5 } = m1 at hf
  obtain ⟨k1, k2, k3, k4⟩ := startTask_core m1 p q
  have hp : ∀ p', m1.part p' = s.m.part p' := by intro p'; rw [← hm1]; rfl
  have hq : ∀ r, m1.queue r = if r = q then { y with running := true, passed := false, sqHead := (y.idx + 1) % 2 ^ fld y.cfg 0 5 } else s.m.queue r := by
    intro r; rw [← hm1]; exact queue_setQueue ..
  generalize hm2 : m1.startTask p q = m2 at hf k1 k2 k3 k4
  refine ⟨_, he.trans (onModule_after hf), rfl, ?_⟩
  dsimp only
  have sq : ∀ r, (settleIrq s.m.watched m2).queue r = m2.queue r := by
    intro r; unfold Module.queue; rw [settleIrq_que]
  refine ⟨?_, fun p' h => ?_, ?_, ?_, fun q' h => ?_, fun c k hk hc => ?_⟩
  · rw [settleIrq_part, k1, hp, show m1.net.slot = s.m.net.slot by rw [← hm1]; rfl]
  · rw [settleIrq_part, k2 p' h, hp]
  · rw [sq, k3, hq, if_pos rfl]
  · rw [sq, k3, hq, if_pos rfl]
  · rw [sq, k3, hq, if_neg h]
  · rw [settleIrq_cores]
    exact k4 c k (by rw [← hm1]; exact hk) (by rw [hp]; exact hc)

theorem startCopy_running {m : Module} {q op : Nat} {b : Bool} {y : Queue} (hq : m.queue q = y) (hr : y.running = true) : m.startCopy q op b = m := by
  unfold Module.startCopy
  dsimp only
  rw [if_pos]
  unfold Module.atStart
  dsimp only
  rw [hq, hr]; simp

theorem copyFreed_none {m : Module} {q : Nat} (h1 : ∀ o ∈ m.str.poolReads, o.ofCopy q = false) (h2 : ∀ o ∈ m.str.poolWrites, o.ofCopy q = false)
    (h3 : ∀ b ∈ m.str.buffers, b.1 ≠ PoolOwner.copy q) : m.copyFreed q = m := by
  have e : ∀ l : List PoolOp, (∀ o ∈ l, o.ofCopy q = false) → l.map (fun o => if o.ofCopy q then { o with owner := .nobody } else o) = l := by
    intro l hl
    conv => rhs; rw [← List.map_id l]
    exact List.map_congr_left (fun o ho => by rw [hl o ho]; rfl)
  have f : m.str.buffers.filter (fun b => b.1 ≠ PoolOwner.copy q) = m.str.buffers := by
    rw [List.filter_eq_self]; intro b hb; simpa using h3 b hb
  unfold Module.copyFreed
  rw [e _ h1, e _ h2, f]

/-- The end of a running copy. -/
theorem endCopy_eq {m : Module} {q code : Nat} {y : Queue} (hq : m.queue q = y) (hr : y.running = true) (hd : y.desc.isSome = true) :
    m.endCopy q code = ended (m.copyFreed q) q y code y.copied false false := by
  unfold Module.endCopy
  have hq' : (m.copyFreed q).queue q = y := hq
  unfold Module.complete
  rw [hq', hq, if_pos hr, finish_ended _ _ _ _ _ _ (by rw [hq']; exact hd), hq']

/-- A piece of a copy has moved: it ends once its last line has and no piece waits. -/
theorem copyMoved_eq {m : Module} {q n : Nat} {piece : List CopyPiece} {y y1 : Queue} (hq : m.queue q = y) (hr : y.running = true)
    (hd : y.desc.isSome = true) (hop : y.op = 0x10 ∨ y.op = 0x11)
    (h1 : y1 = { y with copyPos := y.copyPos + n / 64, pieces := y.pieces ++ piece }) :
    m.copyMoved q n piece =
      if y1.pieces = [] ∧ y.param 128 32 ≤ y1.copyPos then ended (m.copyFreed q) q y1 0 y1.copyPos false false else m.setQueue q y1 := by
  unfold Module.copyMoved
  dsimp only
  rw [hq, ← h1]
  show (m.setQueue q y1).copyDone q = _
  have hq1 : (m.setQueue q y1).queue q = y1 := by rw [queue_setQueue, if_pos rfl]
  have hop1 : (decide (y1.op = 0x10) || decide (y1.op = 0x11)) = true := by
    rcases hop with h | h
    · rw [show y1.op = 0x10 by rw [h1]; exact h]; rfl
    · rw [show y1.op = 0x11 by rw [h1]; exact h]; rfl
  unfold Module.copyDone
  dsimp only
  have hr1 : y1.running = true := by rw [h1]; exact hr
  have hd1 : y1.desc.isSome = true := by rw [h1]; exact hd
  rw [hq1, hr1, hop1, show y1.param 128 32 = y.param 128 32 by rw [h1]; rfl]
  by_cases h : y1.pieces = [] ∧ y.param 128 32 ≤ y1.copyPos
  · rw [if_pos (by simpa using h), if_pos h, endCopy_eq hq1 hr1 hd1]
    show ended ((m.copyFreed q).setQueue q y1) q y1 0 y1.copied false false = _
    rw [ended_setQueue]
    unfold Queue.copied
    rw [h.1]; rfl
  · rw [if_neg (by simpa using h), if_neg h]

/-- The tiles of a piece lie in its page. -/
theorem piece_page {a left g : Nat} (h : g ∈ tilesOf a (pieceBytes a left)) : g / 32 = a / pageBytes := by
  unfold tilesOf tileSpan pieceBytes ceilDiv at h
  have hp : pageBytes = 2097152 := rfl
  have ht : tileBytes = 65536 := rfl
  simp only [List.mem_map, List.mem_range, hp, ht] at h
  rw [hp]
  obtain ⟨i, hi, rfl⟩ := h
  omega

theorem part_lacks {m : Module} {o : PoolOwner} {a left : Nat} (h : (m.page (a / pageBytes)).tier = 1) :
    m.lacks o (partTiles a (pieceBytes a left)) = [] := by
  unfold Module.lacks
  rw [List.filter_eq_nil_iff]
  intro g hg
  rw [piece_page (List.mem_filter.1 hg).1, h]
  simp

theorem fetchTiles_plain {m : Module} {o : PoolOwner} {gs : List Nat} (h : m.lacks o gs = []) (hb : ∀ b ∈ m.str.buffers, b.1 ≠ o) :
    m.fetchTiles o gs = some (m, true) := by
  unfold Module.fetchTiles
  have f : m.str.buffers.filter (fun b => b.1 ≠ o || gs.contains b.2) = m.str.buffers := by
    rw [List.filter_eq_self]; intro b hm; simp [hb b hm]
  rw [if_pos h, f]

theorem askPool_none {m : Module} {o : PoolOwner} {gs : List Nat} (h : m.lacks o gs = []) : m.askPool o gs = some m := by
  unfold Module.askPool
  rw [h]; rfl

theorem readT1_plain {m : Module} {a n : Nat} (h : ∀ e ∈ m.tier.softWords, m.readsWord a n e.1 = false) : m.readT1 a n = m := by
  have e : m.tier.softWords.filter (fun e => m.readsWord a n e.1) = [] := by
    rw [List.filter_eq_nil_iff]; intro x hx; rw [h x hx]; decide
  unfold Module.readT1
  dsimp only
  rw [e]
  have f : m.tier.softWords.filter (fun e => !([] : List (Nat × Nat × Nat)).contains e) = m.tier.softWords := by
    rw [List.filter_eq_self]; intro b hm; rfl
  rw [f]; rfl

theorem ite_next {s : State} {f : Module → Module} {c : Prop} [Decidable c] {a b : Module} (h : f s.m = if c then a else b)
    (ha : a.watched = s.m.watched) (hb : b.watched = s.m.watched) :
    onModule s f = if c then .next { s with m := a } else .next { s with m := b } := by
  split
  · rename_i hc; rw [if_pos hc] at h; exact onModule_same h ha
  · rename_i hc; rw [if_neg hc] at h; exact onModule_same h hb

theorem setSession_queue (m : Module) (p h z q) : (m.setSession p h z).queue q = m.queue q := rfl

theorem pigeon {α : Type} (base h : Nat) (l : List (Nat × α)) (hl : ∀ j, j < h → ∃ e ∈ l, e.1 = base + j) : h ≤ l.length := by
  induction h generalizing l with
  | zero => omega
  | succ h ih =>
    obtain ⟨e, he, heq⟩ := hl h (by omega)
    have h1 : h ≤ (l.filter (fun e => e.1 ≠ base + h)).length := ih _ (fun j hj => by
      obtain ⟨e, he, heq⟩ := hl j (by omega)
      exact ⟨e, List.mem_filter.2 ⟨he, by simp [heq]; omega⟩, heq⟩)
    have h2 : (l.filter (fun e => e.1 ≠ base + h)).length < l.length :=
      List.length_filter_lt_length_iff_exists.2 ⟨e, he, by simp [heq]⟩
    omega

theorem mem_of_kget? {α : Type} {m : KMap α} {k v} (h : kget? m k = some v) : (k, v) ∈ m := by
  induction m with
  | nil => simp [kget?] at h
  | cons a t ih =>
    obtain ⟨j, w⟩ := a
    unfold kget? at h
    split at h
    · rename_i e; injection h with h; subst h; subst e; exact List.mem_cons_self
    · exact List.mem_cons_of_mem _ (ih h)

theorem setSession_session (m : Module) (p h z j) (hf : z.st ≠ .free) : (m.setSession p h z).session p j = if j = h then z else m.session p j := by
  unfold Module.session Module.setSession
  rw [if_neg hf]
  dsimp only
  rw [kgetD_kput]
  by_cases e : j = h
  · subst e; simp
  · rw [if_neg e, if_neg (by unfold sessKey; omega)]

theorem session_del (m : Module) (p h z j) (hf : z.st = .free) (hj : j ≠ h) : (m.setSession p h z).session p j = m.session p j := by
  unfold Module.session Module.setSession kgetD
  rw [if_pos hf]
  dsimp only
  rw [kget?_kdel_ne _ (by unfold sessKey; omega)]

theorem setSession_other (m : Module) (p h z j) (hj : j ≠ h) : (m.setSession p h z).session p j = m.session p j := by
  by_cases hf : z.st = .free
  · exact session_del m p h z j hf hj
  · rw [setSession_session _ _ _ _ _ hf, if_neg hj]

theorem takeEntries_all (p : Nat) (bs : List Byte) (hs : List Nat) (m0 : Module) (hn : hs.Nodup) :
    ∀ (fuel : Nat) (l : List Nat) (j : Nat) (m : Module), hs = hs.take j ++ l → j + l.length = hs.length → l.length < fuel →
    (∀ h ∈ l, (m0.session p h).st = .inBatch ∧ (m0.session p h).notifyEn = false) →
    (∀ h ∈ l, m.session p h = m0.session p h) → m.now = m0.now →
    m.takeEntries p bs hs fuel j = ((l.zip (List.range' j l.length)).foldl (fun m e => m.setSession p e.1 (nextSession (m0.session p e.1) (leAt bs (8 + e.2) 1 % 4) m0.now)) m, none) := by
  intro fuel
  induction fuel with
  | zero => intro l j m _ _ h; omega
  | succ fuel ih =>
    intro l j m h1 h2 h3 h4 h5 hnow
    rw [Module.takeEntries]
    cases l with
    | nil =>
      have : hs[j]? = none := by rw [List.getElem?_eq_none]; simp at h2; omega
      rw [this]; rfl
    | cons a l =>
      have hget : hs[j]? = some a := by
        rw [h1, List.getElem?_append_right (by simp [List.length_take] <;> omega)]
        have : j - (hs.take j).length = 0 := by simp [List.length_take]; omega
        rw [this]; rfl
      rw [hget]
      dsimp only
      obtain ⟨q1, q2⟩ := h4 a List.mem_cons_self
      have hs' := h5 a List.mem_cons_self
      rw [hs', q1, q2, hnow]
      rw [if_neg (by simp), if_pos (by simp)]
      have hj : hs = hs.take (j + 1) ++ l := by
        have : hs.take (j + 1) = hs.take j ++ [a] := by rw [List.take_add_one, hget]; rfl
        rw [this, List.append_assoc]; exact h1
      have hna : a ∉ l := by
        rw [h1] at hn
        exact (List.nodup_cons.1 (List.nodup_append.1 hn).2.1).1
      rw [ih l (j + 1) (m.setSession p a (nextSession (m0.session p a) (leAt bs (8 + j) 1 % 4) m0.now)) hj (by simp at h2; omega) (by simp at h3; omega) (fun h hh => h4 h (List.mem_cons_of_mem _ hh)) (fun h hh => by
        rw [setSession_other _ _ _ _ _ (fun e => by subst e; exact hna hh)]
        exact h5 h (List.mem_cons_of_mem _ hh)) hnow]
      rw [List.length_cons, List.range'_succ, List.zip_cons_cons, List.foldl_cons]

theorem foldl_models (p : Nat) (g : Nat × Nat → Session) (l : List (Nat × Nat)) (m : Module) :
    (l.foldl (fun m e => m.setSession p e.1 (g e)) m).que.models = m.que.models := by
  induction l generalizing m with
  | nil => rfl
  | cons a t ih => rw [List.foldl_cons, ih]; rfl

theorem open_draining {m : Module} {p : Nat} (h : m.sessionsOpen p = true) : (m.part p).st ≠ .draining := by
  intro e
  unfold Module.sessionsOpen at h
  simp [e] at h

theorem launchBatch_eq {m : Module} {k : Nat} {ss : List (Nat × Session)} {e : Bool} {x : Model} {now : Nat} (hx : m.model k = x) (hn : m.now = now) :
    m.launchBatch k ss e = ((ss.foldl (fun m e => m.setSession (k / 16) e.1 { e.2 with st := .inBatch, batchSeq := x.seq }) m).ringPacket (k / 16) svcS (fld x.reg 0 14) 0 0
      (flitsOf (batchRecord k x.seq now e ss))).setModel k { x with credits := x.credits - 1, seq := (x.seq + 1) % 2 ^ 32, open_ := x.open_ ++ [(x.seq, ss.map Prod.fst)] } := by
  unfold Module.launchBatch
  have : ∀ (l : List (Nat × Session)) (m : Module), (l.foldl (fun m e => m.setSession (k / 16) e.1 { e.2 with st := .inBatch, batchSeq := x.seq }) m).now = m.now := by
    intro l
    induction l with
    | nil => intro m; rfl
    | cons a t ih => intro m; rw [List.foldl_cons, ih]; rfl
  dsimp only
  rw [hx, this, hn]

/-- The batcher's visit changes no queue. -/
theorem visit_queues (m : Module) : m.visit.que.queues = m.que.queues := by
  have hf : ∀ (p : Nat) (g : Nat × Session → Session) (l : List (Nat × Session)) (m : Module),
      (l.foldl (fun m e => m.setSession p e.1 (g e)) m).que.queues = m.que.queues := by
    intro p g l
    induction l with
    | nil => intro m; rfl
    | cons a t ih => intro m; rw [List.foldl_cons, ih]; rfl
  have hl : ∀ (m : Module) k ss e, (m.launchBatch k ss e).que.queues = m.que.queues := by
    intro m k ss e
    rw [launchBatch_eq rfl rfl]
    exact hf ..
  have hv : ∀ m : Module, m.visitModels.que.queues = m.que.queues := by
    intro m
    unfold Module.visitModels
    dsimp only
    split
    · rfl
    · exact hl ..
  unfold Module.visit
  split
  · rfl
  · exact hv _

end Sys2Proof.Machine
end

