-- ==== Sys2Proof/Laws/Launch.lean ====
section
/-! SUPPORT. Kerfs, launches and jig loads. -/

namespace Sys2Proof.Machine

open Sys2Proof

theorem refuse_keep (m : Module) (b : JBad) (id : Nat) : ∃ a c d, m.refuse b id = { m with
    sup.intakeFatal := a, sup.intake := c, sup.dropped := d, jig.refusal := BitVec.ofNat 256 (refusalWord b id), jig.lastRefused := true } := by
  unfold Module.refuse
  obtain ⟨a, c, d, h⟩ := logRec_keep m { code := b.code, cls := 3, part := b.part, locKind := b.loc.kind, locIndex := b.loc.idx, detail := b.res }
  dsimp only
  rw [h]
  exact ⟨a, c, d, rfl⟩

theorem heldNil (m : Module) (h : m.launch.held = []) : ({ m with launch.held := [] } : Module) = m := by
  obtain ⟨⟩ := m
  rename_i l _ _ _ _ _ _
  obtain ⟨⟩ := l
  dsimp only at h
  subst h
  rfl

theorem launchGo_nil {m : Module} (h : m.launch.held = []) : m.launchGo = m := by
  unfold Module.launchGo
  split
  · rfl
  · dsimp only
    rw [h, List.foldl_nil]
    exact heldNil m h

theorem failLaunch_eq (m : Module) : m.failLaunch = m.refuseLoad { code := 0x0603, res := 0x30 } m.jig.fabricId := rfl

set_option maxHeartbeats 1000000 in

theorem startCmd_eq {m : Module} {q y} (hy : m.queue q = y) : m.startCmd q = m.setQueue q { y with running := true, passed := false, sqHead := (y.idx + 1) % 2 ^ fld y.cfg 0 5 } := by
  unfold Module.startCmd
  rw [hy]
  rfl

/-- The cut of a take: the partition dumps, and the clusters that it reads are asked to wake. -/
theorem cutNow_eq {m : Module} {p : Nat} {t : Take} (h : (m.part p).krf.take = some t) :
    m.cutNow p = Module.askWakes { m with parts := kput m.parts p { m.part p with krf := { (m.part p).krf with
      phase := .dumping, take := some { t with cutSk := m.now, cutSeq := (m.part p).taskSeq } } } } (dumpClusters t.map) := by
  unfold Module.cutNow
  generalize hM : m.modPart p _ = M
  have hk : (M.part p).krf.take = some { t with cutSk := m.now, cutSeq := (m.part p).taskSeq } := by
    rw [← hM, part_modPart, if_pos rfl]
    show Option.map _ (m.part p).krf.take = _
    rw [h]
    rfl
  dsimp only
  rw [hk]
  dsimp only
  rw [← hM]
  unfold Module.modPart
  dsimp only
  rw [h]
  rfl

theorem foldl_pend_keep (l : List Nat) (m : Module) : ∃ ps, l.foldl (fun m g => m.setPage g { m.page g with pending := true }) m = { m with tier.pages := ps } := by
  induction l generalizing m with
  | nil => exact ⟨m.tier.pages, rfl⟩
  | cons a t ih =>
    rw [List.foldl_cons]
    obtain ⟨ps, h⟩ := ih (m.setPage a { m.page a with pending := true })
    exact ⟨ps, by rw [h]; rfl⟩

theorem foldl_parts {α : Type} (f : Module → α → Module) (h : ∀ m a, (f m a).parts = m.parts) (l : List α) (m : Module) : (l.foldl f m).parts = m.parts := by
  induction l generalizing m with
  | nil => rfl
  | cons a t ih => rw [List.foldl_cons, ih, h]

theorem part_of_parts {m m' : Module} (h : m'.parts = m.parts) (p) : m'.part p = m.part p := by unfold Module.part; rw [h]

theorem netBase_parts (v : JView) (m : Module) : (v.netBase m).parts = m.parts := by
  unfold JView.netBase
  refine foldl_parts _ (fun m a => ?_) _ _
  split <;> rfl

theorem askClusters_parts (m : Module) (p) : (m.askClusters p).parts = m.parts := by
  unfold Module.askClusters
  refine foldl_parts _ (fun m a => ?_) _ _
  dsimp only
  split <;> rfl

theorem loading_fold (v : JView) (l : List Nat) (m : Module) :
    let t := l.foldl (fun m p => (m.modPart p (v.loading m p)).askClusters p) m
    (∀ p, p ∈ l → (t.part p).st = .loading ∧ (t.part p).cx = (rectOf (v.ent p)).cx ∧ (t.part p).cy = (rectOf (v.ent p)).cy
                ∧ (t.part p).cw = (rectOf (v.ent p)).cw ∧ (t.part p).ch = (rectOf (v.ent p)).ch)
    ∧ (∀ p, p ∉ l → t.part p = m.part p) := by
  induction l generalizing m with
  | nil => exact ⟨fun _ h => absurd h (by simp), fun _ _ => rfl⟩
  | cons a l ih =>
    intro t
    obtain ⟨i1, i2⟩ := ih ((m.modPart a (v.loading m a)).askClusters a)
    have e : ∀ p, ((m.modPart a (v.loading m a)).askClusters a).part p = if p = a then v.loading m a (m.part a) else m.part p := by
      intro p
      rw [part_of_parts (askClusters_parts _ _), part_modPart]
    have ht : t = l.foldl (fun m p => (m.modPart p (v.loading m p)).askClusters p) ((m.modPart a (v.loading m a)).askClusters a) := rfl
    refine ⟨fun p hp => ?_, fun p hp => ?_⟩
    · by_cases h : p ∈ l
      · exact i1 p h
      · have : p = a := by rcases List.mem_cons.1 hp with h' | h'
                           · exact h'
                           · exact absurd h' h
        subst this
        rw [ht, i2 p h, e, if_pos rfl]
        exact ⟨rfl, rfl, rfl, rfl, rfl⟩
    · rw [ht, i2 p (fun h => hp (List.mem_cons_of_mem _ h)), e, if_neg (fun h => hp (by rw [h]; exact List.mem_cons_self))]

theorem ready_fold (v : JView) (d : Digest) (l : List Nat) (hn : l.Nodup) (m : Module) (hd : m.jig.digestNow = d) :
    let t := l.foldl (fun m p => (m.modPart p (v.ready m.jig.digestNow p)).freshPart p) m
    (∀ p, p ∈ l → t.part p = v.ready d p (m.part p)) ∧ (∀ p, p ∉ l → t.part p = m.part p) ∧ t.cores = m.cores ∧ t.jig = m.jig
    ∧ t.net.slot = m.net.slot ∧ t.net.frameLen = m.net.frameLen := by
  induction l generalizing m with
  | nil => exact ⟨fun _ h => absurd h (by simp), fun _ _ => rfl, rfl, rfl, rfl, rfl⟩
  | cons a l ih =>
    intro t
    obtain ⟨hn1, hn2⟩ := List.nodup_cons.1 hn
    obtain ⟨i1, i2, i3, i4, i5, i6⟩ := ih hn2 ((m.modPart a (v.ready m.jig.digestNow a)).freshPart a) hd
    have e : ∀ p, ((m.modPart a (v.ready m.jig.digestNow a)).freshPart a).part p = if p = a then v.ready d a (m.part a) else m.part p := by
      intro p
      show (m.modPart a (v.ready m.jig.digestNow a)).part p = _
      rw [part_modPart, hd]
    have ht : t = l.foldl (fun m p => (m.modPart p (v.ready m.jig.digestNow p)).freshPart p) ((m.modPart a (v.ready m.jig.digestNow a)).freshPart a) := rfl
    refine ⟨fun p hp => ?_, fun p hp => ?_, i3, i4, i5, i6⟩
    · by_cases h : p ∈ l
      · rw [ht, i1 p h, e, if_neg (fun h' => hn1 (by rw [← h']; exact h))]
      · have : p = a := by rcases List.mem_cons.1 hp with h' | h'
                           · exact h'
                           · exact absurd h' h
        subst this
        rw [ht, i2 p h, e, if_pos rfl]
    · rw [ht, i2 p (fun h => hp (List.mem_cons_of_mem _ h)), e, if_neg (fun h => hp (by rw [h]; exact List.mem_cons_self))]

/-- A partition that becomes OFF leaves every other one. -/
theorem offPart_part (m : Module) (p code : Nat) :
    ((m.offPart p code).part p).st = .off ∧ ∀ q, q ≠ p → (m.offPart p code).part q = m.part q := by
  unfold Module.offPart
  dsimp only
  split
  · rename_i h
    exact ⟨h, fun _ _ => rfl⟩
  · have e1 : ∀ q, (if (m.part p).taskRunning = true then (m.mapCores p abortCore).endFlows p else m).part q = m.part q := by
      intro q; split <;> rfl
    generalize (if (m.part p).taskRunning = true then (m.mapCores p abortCore).endFlows p else m) = m1 at e1
    have e2 := (failTake_eq m1 p).2.1
    generalize m1.failTake p = m2 at e2
    have e3 := (completeAll_cp m2 p code (fun _ => true)).2
    generalize m2.completeAll p code (fun _ => true) = m3 at e3
    refine ⟨?_, fun q hq => ?_⟩
    · unfold Module.setPart Module.part
      dsimp only
      rw [kgetD_kput_self]
    · unfold Module.setPart
      rw [Module.part, kgetD_kput_ne _ _ _ hq]
      show m3.part q = _
      rw [part_of_parts e3, e2 q hq, e1]

/-- The partitions that a full jig does not define are OFF. -/
theorem offFold (v : JView) (l : List Nat) (m : Module) :
    let t := l.foldl (fun m p => if v.defines p then m else m.offPart p 0x0601) m
    (∀ p, p ∈ l → v.defines p = false → (t.part p).st = .off) ∧ (∀ p, p ∉ l ∨ v.defines p = true → t.part p = m.part p) := by
  induction l generalizing m with
  | nil => exact ⟨fun _ h => absurd h (by simp), fun _ _ => rfl⟩
  | cons a l ih =>
    intro t
    obtain ⟨i1, i2⟩ := ih (if v.defines a then m else m.offPart a 0x0601)
    have ht : t = l.foldl (fun m p => if v.defines p then m else m.offPart p 0x0601) (if v.defines a then m else m.offPart a 0x0601) := rfl
    refine ⟨fun p hp hd => ?_, fun p hp => ?_⟩
    · by_cases h : p ∈ l
      · exact i1 p h hd
      · have : p = a := by
          rcases List.mem_cons.1 hp with h' | h'
          · exact h'
          · exact absurd h' h
        subst this
        rw [ht, i2 p (.inl h), if_neg (by rw [hd]; decide)]
        exact (offPart_part ..).1
    · have hp' : p ∉ l ∨ v.defines p = true := hp.imp (fun h hm => h (List.mem_cons_of_mem _ hm)) id
      rw [ht, i2 p hp']
      by_cases ha : v.defines a = true
      · rw [if_pos ha]
      · rw [if_neg ha]
        refine (offPart_part m a 0x0601).2 p (fun e => ?_)
        rcases hp with h | h
        · exact h (by rw [e]; exact List.mem_cons_self)
        · exact ha (e ▸ h)

theorem mem_defined (v : JView) (p) : p ∈ v.defined ↔ v.defines p = true := by
  unfold JView.defined
  rw [List.mem_filter, List.mem_range]
  refine ⟨fun h => h.2, fun h => ⟨?_, h⟩⟩
  unfold JView.defines at h
  simp at h
  exact h.1

theorem restFold (l : List Nat) (m : Module) : SameCP m (l.foldl (fun m p => m.restClusters p) m) ∧ (l.foldl (fun m p => m.restClusters p) m).jig = m.jig
    ∧ (l.foldl (fun m p => m.restClusters p) m).net = m.net := by
  induction l generalizing m with
  | nil => exact ⟨.refl _, rfl, rfl⟩
  | cons a t ih =>
    rw [List.foldl_cons]
    refine ⟨(restClusters_cp m a).trans (ih _).1, (ih _).2.1.trans ?_, (ih _).2.2.trans ?_⟩ <;>
    · unfold Module.restClusters
      split <;> rfl

end Sys2Proof.Machine
end

