-- ==== Sys2Proof/Laws/Leads.lean ====
section
/-! SUPPORT. What every command keeps of the face of the module: the rule of power, and that fuses are only ever blown. The
operations that change the face, one lemma each. -/

namespace Sys2Proof.Machine

open Sys2Proof

/-! ## The rule of power and the growth of fuses over a command -/

/-- A fuse word that only gains bits. -/
def Gains (a b : Nat) : Prop := ∀ i, bitAt a i = true → bitAt b i = true

/-- The rule of power: standby power only when mated; without standby power the module is COLD; in COLD no MMP has power.
Revocations name the four key slots (R524). -/
def Face.ok (f : Face) : Prop :=
  (f.mech.standby = true → f.mech.mate = true) ∧ (f.mech.standby = false → f.cold = true)
  ∧ (f.cold = true → f.aOff = true ∧ f.bOff = true) ∧ f.fw < 16 ∧ f.ca < 16

/-- What every command keeps: the rule of power; fuses that are blown stay blown, and the least SVN never falls (R524, R528). -/
def Face.Leads (f g : Face) : Prop :=
  f.ok → g.ok ∧ Gains f.fw g.fw ∧ Gains f.ca g.ca ∧ f.svn ≤ g.svn

theorem Face.Leads.refl (f : Face) : f.Leads f := fun h => ⟨h, fun _ => id, fun _ => id, Nat.le_refl _⟩

theorem Face.Leads.of_eq {f g : Face} (h : g = f) : f.Leads g := h ▸ .refl f

theorem Face.Leads.trans {f g h : Face} (a : f.Leads g) (b : g.Leads h) : f.Leads h := by
  intro x
  obtain ⟨y, a1, a2, a3⟩ := a x
  obtain ⟨z, b1, b2, b3⟩ := b y
  exact ⟨z, fun i u => b1 i (a1 i u), fun i u => b2 i (a2 i u), Nat.le_trans a3 b3⟩

/-- The module leaves COLD, with standby power. -/
theorem Face.leads_up {f : Face} (h : f.ok → f.mech.standby = true) : f.Leads { f with cold := false } :=
  fun x => ⟨⟨x.1, fun y => absurd (h x) (by simp_all), fun y => by simp_all, x.2.2.2⟩, fun _ => id, fun _ => id, Nat.le_refl _⟩

/-- Out of COLD there is standby power. -/
theorem Face.ok.standby {f : Face} (h : f.ok) (c : f.cold = false) : f.mech.standby = true := by
  cases hs : f.mech.standby with
  | true => rfl
  | false => rw [h.2.1 hs] at c; contradiction

theorem Face.leads_cold (f : Face) : f.Leads { f with cold := true, aOff := true, bOff := true } :=
  fun x => ⟨⟨x.1, fun _ => rfl, fun _ => ⟨rfl, rfl⟩, x.2.2.2⟩, fun _ => id, fun _ => id, Nat.le_refl _⟩

theorem Face.leads_a {f : Face} {o : Bool} (h : f.ok → f.cold = false) : f.Leads { f with aOff := o } :=
  fun x => ⟨⟨x.1, x.2.1, fun y => by have := h x; simp_all, x.2.2.2⟩, fun _ => id, fun _ => id, Nat.le_refl _⟩

theorem Face.leads_b {f : Face} {o : Bool} (h : f.ok → f.cold = false) : f.Leads { f with bOff := o } :=
  fun x => ⟨⟨x.1, x.2.1, fun y => by have := h x; simp_all, x.2.2.2⟩, fun _ => id, fun _ => id, Nat.le_refl _⟩

theorem Face.leads_offA (f : Face) : f.Leads { f with aOff := true } :=
  fun x => ⟨⟨x.1, x.2.1, fun y => ⟨rfl, (x.2.2.1 y).2⟩, x.2.2.2⟩, fun _ => id, fun _ => id, Nat.le_refl _⟩

theorem Face.leads_offB (f : Face) : f.Leads { f with bOff := true } :=
  fun x => ⟨⟨x.1, x.2.1, fun y => ⟨(x.2.2.1 y).1, rfl⟩, x.2.2.2⟩, fun _ => id, fun _ => id, Nat.le_refl _⟩

theorem foldl_leads {β : Type} {g : Module → β → Module} (h : ∀ (m : Module) x, m.face.Leads (g m x).face) (l : List β) (m : Module) :
    m.face.Leads (l.foldl g m).face := by
  induction l generalizing m with
  | nil => exact .refl _
  | cons x t ih => exact (h m x).trans (ih _)

theorem leads_ite {f : Face} {c : Prop} [Decidable c] {a b : Module} (ha : f.Leads a.face) (hb : f.Leads b.face) :
    f.Leads (if c then a else b).face := by
  split
  · exact ha
  · exact hb

theorem cold_false {m : Module} (h : m.sys.st ≠ .cold) : m.face.cold = false := by
  simpa [Module.face] using h

theorem cold_true {m : Module} (h : m.sys.st = .cold) : m.face.cold = true := by
  simpa [Module.face] using h

/-! ### Changes of state (R264) -/

theorem Module.beginStages_face (m : Module) (st : ModState) :
    (m.beginStages st).face = { m.face with cold := decide (st = .cold) } := by
  unfold Module.beginStages
  simp only [face_simp, Module.settleMmps_face, Module.allStopped_face]

theorem Module.beginStages_leads {m : Module} {st : ModState} (hs : st ≠ .cold) (h : m.face.ok → m.mech.standby = true) :
    m.face.Leads (m.beginStages st).face := by
  rw [Module.beginStages_face, decide_eq_false hs]
  exact Face.leads_up h

theorem Module.toOutOfService_face (m : Module) : m.toOutOfService.face = { m.face with cold := false } := by
  unfold Module.toOutOfService
  simp only [face_simp, Module.settleMmps_face, Module.allStopped_face]
  rfl

theorem Module.toOutOfService_leads {m : Module} (h : m.sys.st ≠ .cold) : m.face.Leads m.toOutOfService.face := by
  rw [Module.toOutOfService_face]
  exact Face.leads_up (fun x => x.standby (cold_false h))

theorem Module.toSafe_face (m : Module) : m.toSafe.face = { m.face with cold := false } := by
  have h : ((List.range 16).foldl (fun m p => m.faultPart p 0x0902) (m.abandonLoad 0x0902)).face = m.face :=
    (foldl_face _ _ _ (fun m x => Module.faultPart_face ..)).trans (Module.abandonLoad_face ..)
  unfold Module.toSafe
  simp only [face_simp, Module.orderShed_face, h]
  rfl

theorem Module.toSafe_leads {m : Module} (h : m.sys.st ≠ .cold) : m.face.Leads m.toSafe.face := by
  rw [Module.toSafe_face]
  exact Face.leads_up (fun x => x.standby (cold_false h))

theorem Module.toCold_leads (m : Module) : m.face.Leads m.toCold.face := by
  unfold Module.toCold
  split
  · exact .refl _
  · have h := Module.allStopped_face m
    simp only [Module.recap_face, face_simp, h, Sec.poweredOff, Mmp.stopped, decide_true]
    exact Face.leads_cold m.face

theorem Module.dieAbsent_face (m : Module) (n : Nat) :
    (m.dieAbsent n).face = if n = svcN then { m.face with aOff := true } else if n = svcS then { m.face with bOff := true } else m.face := by
  have emit (b : Bool) (k : Module) : (if b then k.emit (.svcFault n) else k).face = k.face := by
    cases b
    · rfl
    · exact Module.emit_face ..
  unfold Module.dieAbsent
  refine (emit _ _).trans ?_
  by_cases h1 : n = svcN
  · rw [if_pos h1, if_pos h1]; rfl
  · by_cases h2 : n = svcS
    · rw [if_neg h1, if_neg h1, if_pos h2, if_pos h2]; exact doCxlLinkDown_face ..
    · rw [if_neg h1, if_neg h1, if_neg h2, if_neg h2]

theorem Module.dieAbsent_leads (m : Module) (n : Nat) : m.face.Leads (m.dieAbsent n).face := by
  rw [Module.dieAbsent_face]
  split
  · exact Face.leads_offA _
  · split
    · exact Face.leads_offB _
    · exact .refl _

theorem Module.serving_leads (m : Module) : m.face.Leads (if m.serving then m.toOutOfService else m).face := by
  split
  · rename_i hs
    refine Module.toOutOfService_leads (fun h => ?_)
    simp [Module.serving, h] at hs
  · exact .refl _

theorem Module.svcDown_leads (m : Module) (n : Nat) : m.face.Leads (m.svcDown n).face := by
  unfold Module.svcDown
  dsimp only
  refine Face.Leads.trans ?_ (Module.serving_leads _)
  split
  · exact .refl _
  · exact Module.dieAbsent_leads { m with sys.svcFailed := m.sys.svcFailed ++ [n] } n

theorem Module.setMmp_leads {m : Module} {b : Bool} {x : Mmp} (h : x.st = (m.mmp b).st ∨ (m.face.ok → m.face.cold = false)) :
    m.face.Leads (m.setMmp b x).face := by
  unfold Module.setMmp
  cases b with
  | true =>
    rcases h with h | h
    · refine .of_eq ?_
      simp only [Module.mmp] at h
      simp only [face_simp, h, if_true]
    · exact Face.leads_b h
  | false =>
    rcases h with h | h
    · refine .of_eq ?_
      simp only [Module.mmp] at h
      simp only [face_simp, h, if_false, Bool.false_eq_true]
    · exact Face.leads_a h

/-- An MMP that is not OFF has power, so that the module is not COLD. -/
theorem mmp_power {m : Module} {b : Bool} (h : (m.mmp b).st ≠ .off) : m.face.ok → m.face.cold = false := by
  intro x
  cases hc : m.face.cold with
  | false => rfl
  | true =>
    obtain ⟨ha, hb⟩ := x.2.2.1 hc
    exfalso
    apply h
    cases b with
    | true => exact of_decide_eq_true hb
    | false => exact of_decide_eq_true ha

/-! ### Commands of chapters 13 and 14 that change the module's state or an MMP -/

theorem doRingEfuseTrip_leads (group : Nat) (m : Module) : m.face.Leads (doRingEfuseTrip group m).face := by
  unfold doRingEfuseTrip
  split
  · exact .refl _
  · simp only [face_simp]
    split
    · exact .of_eq ((foldl_face _ _ _ (fun m x => doLinkDown_face ..)).trans (Module.logFatal_face ..))
    · exact (Face.Leads.of_eq (Module.logFatal_face ..)).trans (Module.svcDown_leads _ _)

theorem doPowerGood_leads (m : Module) : m.face.Leads (doPowerGood m).face := by
  unfold doPowerGood
  extract_lets held sampled
  split
  · rename_i h
    simp only [Bool.and_eq_true] at h
    exact Module.beginStages_leads (m := { m with sup.wdHold := false }) (by decide) (fun _ => h.1.1.1.1.2)
  · exact .refl _

theorem doOvervoltage_leads (m : Module) : m.face.Leads (doOvervoltage m).face := by
  unfold doOvervoltage
  split
  · exact Module.toCold_leads m
  · exact .refl _

theorem doInputCollapse_leads (m : Module) : m.face.Leads (doInputCollapse m).face := by
  unfold doInputCollapse
  split
  · exact Module.toCold_leads m
  · exact .refl _

theorem doDroopSequence_leads (m : Module) : m.face.Leads (doDroopSequence m).face := by
  unfold doDroopSequence
  split
  · exact .refl _
  · split
    · exact .refl _
    · refine .of_eq ?_
      simp only [Module.shedAbove6_face]
      refine (foldl_face _ _ _ (fun m x => Module.droopDrain_face ..)).trans ?_
      simp only [Module.abandonLoad_face, Module.logFatal_face, Module.recap_face]
      rfl

theorem doDroopPowerOff_leads (m : Module) : m.face.Leads (doDroopPowerOff m).face := by
  unfold doDroopPowerOff
  extract_lets busy
  split
  · exact .refl _
  · exact (Face.Leads.of_eq (foldl_face _ _ _ (fun m x => Module.abortTask_face ..))).trans (Module.toCold_leads _)

theorem doThermalTrip_leads (d : Nat) (m : Module) : m.face.Leads (doThermalTrip d m).face := by
  unfold doThermalTrip
  split
  · exact .refl _
  · extract_lets n
    have hn : n.face = m.face := Module.logFatal_face ..
    rw [← hn]
    split
    · exact Module.toSafe_leads (by simp_all)
    · exact Module.toSafe_leads (by simp_all)
    · exact .of_eq rfl
    · exact .of_eq rfl
    · exact .refl _
    · exact .refl _
    · exact .refl _

theorem Module.logRec_mmps (m : Module) (r : FaultRec) : (m.logRec r).sup.a = m.sup.a ∧ (m.logRec r).sup.b = m.sup.b := by
  unfold Module.logRec
  dsimp only
  repeat' split
  all_goals exact ⟨rfl, rfl⟩

theorem doImageVerify_leads (b : Bool) (m : Module) : m.face.Leads (doImageVerify b m).face := by
  unfold doImageVerify
  extract_lets x
  split
  · exact .refl _
  · rename_i h
    have hs : m.mech.standby = true := by
      cases hm : m.mech.standby <;> simp_all
    cases hl : m.loaderCheck b with
    | mk ok n =>
      have hn : n.face = m.face := Module.loaderCheck_on hl rfl
      have hx : x.st = (n.mmp b).st := by
        have hk : (m.loaderCheck b).2.sup.a = m.sup.a ∧ (m.loaderCheck b).2.sup.b = m.sup.b := by
          unfold Module.loaderCheck
          split
          · exact ⟨rfl, rfl⟩
          · exact Module.logRec_mmps ..
        rw [hl] at hk
        dsimp only at hk
        simp only [x, Module.mmp, hk.1, hk.2]
      have h1 : m.face.Leads (n.setMmp b { x with imageOk := ok, refused := !ok }).face := by
        rw [← hn]
        exact Module.setMmp_leads (.inl hx)
      have hm : (n.setMmp b { x with imageOk := ok, refused := !ok }).mech.standby = true := by
        have : n.mech = m.mech := congrArg Face.mech hn
        unfold Module.setMmp
        split <;> simpa [this] using hs
      dsimp only
      split
      · exact h1.trans (Module.beginStages_leads (m := { n.setMmp b { x with imageOk := ok, refused := !ok } with sec.noImage := true })
          (by decide) (fun _ => hm))
      · exact h1

theorem doAosWatchdog_leads (m : Module) : m.face.Leads (doAosWatchdog m).face := by
  unfold doAosWatchdog
  split
  · exact .refl _
  · extract_lets again failed n
    have h : m.face.Leads n.face := Module.toCold_leads m
    exact h.trans (.of_eq rfl)

theorem doMmpFailed_leads (b : Bool) (m : Module) : m.face.Leads (doMmpFailed b m).face := by
  unfold doMmpFailed
  extract_lets x n1 n2 src n3
  split
  · exact .refl _
  · rename_i h
    have hr : (m.mmp b).st ≠ .off := by
      intro ho
      simp [x, Mmp.runs, ho] at h
    have h1 : m.face.Leads n1.face := Module.setMmp_leads (.inr (mmp_power hr))
    have h2 : n2.face = n1.face := by
      simp only [n2]
      split
      · exact Module.secLost_face ..
      · rfl
    have h3 : n3.face = n2.face := by
      simp only [n3]
      split
      · simp only [Module.expireLease_face]; rfl
      · rfl
    refine h1.trans (.of_eq ?_)
    split
    · rw [Module.nameAuthority_face, h3, h2]
    · rw [h3, h2]

theorem doMmpRestart_leads (b : Bool) (m : Module) : m.face.Leads (doMmpRestart b m).face := by
  unfold doMmpRestart
  extract_lets x
  split
  · exact .refl _
  · rename_i h
    have hf : (m.mmp b).st ≠ .off := by
      intro ho
      simp [x, ho] at h
    cases hl : m.loaderCheck b with
    | mk ok n =>
      have hn : n.face = m.face := Module.loaderCheck_on hl rfl
      dsimp only
      have h1 : m.face.Leads (n.setMmp b { x with
          st := if ok = true then .standby else .off, imageOk := ok, restarts := satN 16 (x.restarts + 1) }).face := by
        rw [← hn]
        exact Module.setMmp_leads (.inr (by rw [hn]; exact mmp_power hf))
      refine h1.trans (.of_eq ?_)
      have key (k : Module) (c : Bool) : (if c then k.nameAuthority else k.settleMmps).face = k.face := by
        cases c
        · exact Module.settleMmps_face k
        · exact Module.nameAuthority_face k
      exact (key _ _).trans ((Module.settlePending_face _).trans (Module.setMeas_face ..))

theorem doShedLevelPeriod_leads (b : Bool) (busy : Nat) (m : Module) : m.face.Leads (doShedLevelPeriod b busy m).face := by
  unfold doShedLevelPeriod
  extract_lets x y
  split
  · exact .refl _
  · have key (z : Mmp) (hz : z.st = (m.mmp b).st) : m.face.Leads (m.setMmp b z).face := Module.setMmp_leads (.inl hz)
    repeat' first
      | exact key _ rfl
      | (refine Face.Leads.trans ?_ (.of_eq (Module.logEvent_face _ _ _ _ _ _)); exact key _ rfl)
      | (rw [Module.queuedQuote_face]; exact key _ rfl)
      | split

/-! ### Bring-up (R504) -/

theorem Module.startMmp_leads {m : Module} {b : Bool} (h : m.sys.st ≠ .cold) : m.face.Leads (m.startMmp b).face := by
  unfold Module.startMmp
  extract_lets x
  split
  · exact (Module.setMmp_leads (.inr (fun _ => cold_false h))).trans (.of_eq (Module.setMeas_face ..))
  · exact .refl _

theorem Module.startMmp_sys (m : Module) (b : Bool) : (m.startMmp b).sys = m.sys := by
  unfold Module.startMmp Module.setMmp Module.setMeas
  dsimp only
  repeat' split
  all_goals rfl

theorem Module.stage0_leads {m : Module} (h : m.sys.st ≠ .cold) : m.face.Leads m.stage0.face := by
  have h1 : m.face.Leads ((m.startMmp false).startMmp true).face :=
    (Module.startMmp_leads h).trans (Module.startMmp_leads (by rw [Module.startMmp_sys]; exact h))
  unfold Module.stage0
  dsimp only
  split
  · exact h1.trans (.of_eq (by simp only [Module.nameAuthority_face, Module.settlePending_face]))
  · exact h1.trans (.of_eq (by simp only [Module.stageDone_face, Module.nameAuthority_face, Module.settlePending_face]))

theorem Module.stage1_leads {m : Module} {f : StageFinding} (h : m.sys.st ≠ .cold) : m.face.Leads (m.stage1 f).face := by
  unfold Module.stage1
  extract_lets bad svc t s n1 n2 n3
  have hn : n2.face = m.face := foldl_face _ _ _ (fun m x => Module.retireLater_face ..)
  have hl : n2.face.Leads n3.face := foldl_leads (fun m n => Module.dieAbsent_leads m n) svc n2
  have hc : n3.face.cold = false := by
    have keep : ∀ (l : List Nat) (k : Module), (l.foldl (fun m n => m.dieAbsent n) k).face.cold = k.face.cold := by
      intro l
      induction l with
      | nil => exact fun k => rfl
      | cons a t ih =>
        intro k
        refine (ih _).trans ?_
        rw [Module.dieAbsent_face]
        split
        · rfl
        · split <;> rfl
    refine (keep svc n2).trans ?_
    rw [hn]; exact cold_false h
  clear_value n3
  rw [← hn]
  refine hl.trans ?_
  split
  · refine Module.toOutOfService_leads (fun he => ?_)
    rw [cold_true he] at hc
    contradiction
  · exact .of_eq (Module.stageDone_face ..)

theorem revoked_gains (old named : Nat) (own : Option Nat) (h : old < 16) : Gains old (revoked old named own) := by
  intro i hi
  have hi4 : i < 4 := by
    rcases Nat.lt_or_ge i 4 with h4 | h4
    · exact h4
    · rw [bitAt_eq, Nat.testBit_lt_two_pow (Nat.lt_of_lt_of_le h (Nat.pow_le_pow_right (by decide : 2 > 0) h4))] at hi
      contradiction
  unfold revoked
  generalize hb : (fun i => bitAt old i || bitAt named i && decide (own ≠ some i)) = b
  have hbi : b i = true := by rw [← hb]; simp [hi]
  have hr : (List.range 4).foldl (fun a i => if (bitAt old i || bitAt named i && decide (own ≠ some i)) = true then a + 2 ^ i else a) 0
      = (if b 0 then 1 else 0) + (if b 1 then 2 else 0) + (if b 2 then 4 else 0) + (if b 3 then 8 else 0) := by
    rw [← hb]
    simp only [List.range, List.range.loop, List.foldl_cons, List.foldl_nil]
    repeat' split
    all_goals simp_all
  rw [hr]
  revert hbi
  match i, hi4 with
  | 0, _ => cases b 0 <;> cases b 1 <;> cases b 2 <;> cases b 3 <;> decide
  | 1, _ => cases b 0 <;> cases b 1 <;> cases b 2 <;> cases b 3 <;> decide
  | 2, _ => cases b 0 <;> cases b 1 <;> cases b 2 <;> cases b 3 <;> decide
  | 3, _ => cases b 0 <;> cases b 1 <;> cases b 2 <;> cases b 3 <;> decide

theorem revoked_lt (old named : Nat) (own : Option Nat) : revoked old named own < 16 := by
  unfold revoked
  simp only [List.range, List.range.loop, List.foldl_cons, List.foldl_nil]
  repeat' split
  all_goals decide

theorem Module.applyHeader_leads (m : Module) : m.face.Leads m.applyHeader.face := by
  unfold Module.applyHeader
  extract_lets img d same
  split
  · intro h
    refine ⟨⟨h.1, h.2.1, h.2.2.1, revoked_lt .., revoked_lt ..⟩, revoked_gains _ _ _ h.2.2.2.1, revoked_gains _ _ _ h.2.2.2.2, ?_⟩
    simp only [Module.face]
    split
    · exact Nat.le_max_left ..
    · exact Nat.le_refl _
  · exact .refl _

theorem Module.stage7_leads {m : Module} {f : StageFinding} (h : m.sys.st ≠ .cold) : m.face.Leads (m.stage7 f).face := by
  unfold Module.stage7
  extract_lets first m1 m2
  have h1 : m1.face = m.face := Module.remap_face m f.stuck
  have h2 : m1.face.Leads m2.face := by
    simp only [m2]
    split
    · exact (Module.applyHeader_leads m1).trans (.of_eq (Module.lowAtBringup_face _))
    · exact .refl _
  have hc : m2.face.cold = false := by
    have hm : m1.face.cold = false := by rw [h1]; exact cold_false h
    simp only [m2]
    split
    · rw [Module.lowAtBringup_face]
      unfold Module.applyHeader
      extract_lets img d same
      split <;> exact hm
    · exact hm
  have key : m2.face.Leads { m2.face with cold := false } := Face.leads_up (fun x => x.standby hc)
  rw [← h1]
  refine h2.trans ?_
  clear_value m2
  split
  · rw [Module.toOutOfService_face]; exact key
  · refine key.trans (.of_eq ?_)
    simp only [Module.settleMmps_face, face_simp]
    cases m2.reduced <;> rfl

theorem doBringupStage_leads (f : StageFinding) (m : Module) : m.face.Leads (doBringupStage f m).face := by
  unfold doBringupStage
  split
  · exact .refl _
  · rename_i h
    have hc : m.sys.st ≠ .cold := by
      intro hc
      simp [hc] at h
    split
    · exact Module.stage0_leads hc
    · split
      · exact .refl _
      · split
        · exact Module.stage1_leads hc
        · split
          · exact .of_eq ((Module.stageDone_face _).trans (Module.stageDies_face _ _ _))
          · exact Module.stage7_leads hc

/-! ### Faults and requests (R47, R264) -/

theorem doServiceDieFail_leads (die : Nat) (m : Module) : m.face.Leads (doServiceDieFail die m).face := by
  unfold doServiceDieFail
  split
  · exact .refl _
  · exact Module.svcDown_leads _ _

theorem doEnterRecovery_leads (src : Source) (m : Module) : m.face.Leads (doEnterRecovery src m).face := by
  unfold doEnterRecovery
  extract_lets allowed
  split
  · rename_i h
    refine Module.beginStages_leads (by decide) (fun x => x.standby (cold_false (fun hc => ?_)))
    simp [allowed, hc] at h
  · exact .refl _

theorem doLeaveService_leads (src : Source) (m : Module) : m.face.Leads (doLeaveService src m).face := by
  unfold doLeaveService
  split
  · rename_i h
    refine Module.toOutOfService_leads (fun hc => ?_)
    simp [Module.serving, hc] at h
  · exact .refl _

/-! ### Directives and the sideband loop (R494, R511) -/

theorem Module.directive_leads {m : Module} {type : Nat} {d : BitVec 256} {f : Module → Module}
    (h : ∀ m, (f m).face = m.face) : m.face.Leads (m.directive type d f).face := by
  unfold Module.directive
  split
  · exact .of_eq ((h _).trans (Module.hear_face _ _))
  · exact .refl _

theorem doHeartbeat_leads (d : BitVec 256) (m : Module) : m.face.Leads (doHeartbeat d m).face :=
  Module.directive_leads (fun _ => rfl)

theorem doGrant_leads (d : BitVec 256) (m : Module) : m.face.Leads (doGrant d m).face := by
  refine Module.directive_leads (f := fun m => if (m.mmp (bitAt d.toNat 37)).runs then m.claimLease (bitAt d.toNat 37) (fld d.toNat 64 32) else m) (fun n => ?_)
  split
  · exact Module.claimLease_face _ _ _
  · rfl

theorem doCap_leads (d : BitVec 256) (m : Module) : m.face.Leads (doCap d m).face := by
  refine Module.directive_leads (f := fun m => if m.cfgOpen then m.setRackCap (fld d.toNat 96 9) (fld d.toNat 112 10) (fld d.toNat 64 32) else m)
    (fun n => ?_)
  split
  · exact Module.setRackCap_face _ _ _ _
  · rfl

theorem Module.loopIn_leads {m : Module} {frame : BitVec 160} {f : Module → Module} (h : ∀ m, (f m).face = m.face) :
    m.face.Leads (m.loopIn frame f).face := by
  unfold Module.loopIn
  extract_lets x s
  split
  · exact .refl _
  · split
    · exact .of_eq rfl
    · split
      · exact .refl _
      · refine .of_eq ((h _).trans ?_)
        split <;> rfl

theorem doSidebandFrame_leads (frame : BitVec 160) (m : Module) : m.face.Leads (doSidebandFrame frame m).face :=
  Module.loopIn_leads (fun _ => Module.loopAct_face ..)

theorem loopType_leads (t : Nat) (frame : BitVec 160) (m : Module) : m.face.Leads (loopType t frame m).face := by
  unfold loopType
  split
  · exact Module.loopIn_leads (fun _ => Module.loopAct_face ..)
  · exact .refl _

/-! ### Security commands (R529, R532) -/

theorem Module.resetNow_leads (m : Module) : m.face.Leads m.resetNow.face := by
  unfold Module.resetNow
  split
  · rename_i hc
    refine (Face.leads_cold m.face).trans (.of_eq ?_)
    simp [Module.face, hc, Mmp.stopped, Sec.poweredOff]
  · exact Module.toCold_leads m

theorem Module.secGo_leads (m : Module) (c : SecCmd) : m.face.Leads (m.secGo c).face := by
  unfold Module.secGo
  extract_lets s n
  have hn : n.face = m.face := rfl
  rw [← hn]
  clear_value n
  split
  · exact .of_eq (Module.imageWrite_face _ _)
  · split
    · exact .refl _
    · exact .of_eq (Module.quoteNow_face _ _)
  · exact .of_eq (Module.secEnd_face _ _ _)
  · exact .of_eq (Module.custKeyNow_face _ _)
  · exact .of_eq (Module.enrolBegin_face _)
  · exact .of_eq (Module.enrolRequest_face _)
  · exact .of_eq (Module.enrolInstall_face _ _)
  · exact Module.resetNow_leads _
  · exact .of_eq (Module.secEnd_face _ _ _)

theorem Module.secRun_leads (m : Module) (via : Via) (op : Nat) (data : List Byte) :
    m.face.Leads (m.secRun via op data).face := by
  unfold Module.secRun
  split
  · unfold Module.secBar0
    split
    · split
      · split
        · exact Module.secGo_leads _ _
        · exact .refl _
      · exact .refl _
    · extract_lets c
      split
      · exact .of_eq (Module.secEnd_face _ _ _)
      · exact Module.secGo_leads _ _
  · unfold Module.secOob
    split
    · exact .refl _
    · split
      · exact .refl _
      · split
        · exact .of_eq (Module.secEnd_face _ _ _)
        · exact Module.secGo_leads _ _

/-! ### Register writes (R19) -/

theorem Module.writeSec_leads (m : Module) (src : Source) (o v : Nat) : m.face.Leads (m.writeSec src o v).face := by
  unfold Module.writeSec
  repeat' first
    | exact .refl _
    | exact .of_eq rfl
    | exact Module.secRun_leads _ _ _ _
    | exact .of_eq (Module.secHold_face _ _)
    | split
    | dsimp only

theorem Module.writeMod_leads (m : Module) (src : Source) (o v : Nat) : m.face.Leads (m.writeMod src o v).face := by
  unfold Module.writeMod
  split
  · exact .refl _
  · split
    · exact doEnterRecovery_leads _ _
    · exact doLeaveService_leads _ _
    · exact .refl _

theorem Module.putReg_leads (m : Module) (src : Source) (base v mask : Nat) :
    m.face.Leads (m.putReg src base v mask).face := by
  unfold Module.putReg
  extract_lets o b
  split
  · exact .of_eq (Module.writeDoor_face _ _ _ _)
  · split
    · exact Module.writeMod_leads _ _ _ _
    · split
      · exact Module.writeSec_leads _ _ _ _
      · split
        · exact .refl _
        · clear_value b
          split
          · exact .of_eq (Module.writeEng_face _ _ _ _)
          · exact .of_eq (Module.writeJig_face _ _ _ _)
          · exact .of_eq (Module.writeTier_face _ _ _ _)
          · exact .of_eq (Module.writeStr_face _ _ _ _)
          · exact .of_eq (Module.writeFab_face _ _ _ _)
          · exact .of_eq (Module.writeQue_face _ _ _ _ _)
          · exact .of_eq (Module.writeKrf_face _ _ _ _)
          · exact .of_eq (Module.writePwr_face _ _ _ _)
          · exact .of_eq (Module.writeAos_face _ _ _ _ _)
          · exact .refl _

theorem Module.writeBytesAt_leads (m : Module) (src : Source) (a n v : Nat) : m.face.Leads (m.writeBytesAt src a n v).face :=
  Module.putReg_leads _ _ _ _ _

theorem doRegisterWrite_leads (src : Source) (offset : Nat) (wide : Bool) (v : Reg64) (m : Module) :
    m.face.Leads (doRegisterWrite src offset wide v m).face := by
  have h (m : Module) (a n v : Nat) := Module.writeBytesAt_leads m src a n v
  exact leads_ite (.refl _) (leads_ite (h _ _ _ _) (leads_ite (h _ _ _ _) ((h _ _ _ _).trans (h _ _ _ _))))

/-! ### The connector face (chapter 16) -/

theorem doMateMade_leads (m : Module) : m.face.Leads (doMateMade m).face :=
  fun h => ⟨⟨fun _ => rfl, h.2.1, h.2.2⟩, fun _ => id, fun _ => id, Nat.le_refl _⟩

/-- What the fuses of `toCold` and `dark` are. -/
theorem Module.dark_leads (m : Module) : m.face.Leads m.dark.face :=
  fun h => ⟨⟨fun x => absurd x (by simp [Module.face, Module.dark]), fun _ => rfl, fun _ => ⟨rfl, rfl⟩, h.2.2.2⟩,
    fun _ => id, fun _ => id, Nat.le_refl _⟩

theorem Module.standbyOff_leads (m : Module) : m.face.Leads m.standbyOff.face := by
  unfold Module.standbyOff
  split
  · exact (Module.toCold_leads m).trans (Module.dark_leads _)
  · exact .refl _

theorem Module.standbyOff_standby (m : Module) : m.standbyOff.mech.standby = false := by
  unfold Module.standbyOff
  split
  · rfl
  · simp_all

theorem doMateBreak_leads (m : Module) : m.face.Leads (doMateBreak m).face := by
  intro h
  obtain ⟨⟨_, h2, h3⟩, g⟩ := Module.standbyOff_leads m h
  exact ⟨⟨fun x => absurd (Module.standbyOff_standby m) (by simp_all [Module.face, doMateBreak]), h2, h3⟩, g⟩

theorem doStandbyUp_leads (straps : BitVec 8) (m : Module) : m.face.Leads (doStandbyUp straps m).face := by
  unfold doStandbyUp
  split
  · exact .refl _
  · rename_i hm
    intro h
    refine ⟨⟨fun _ => ?_, fun x => absurd x (by simp [Module.face]), h.2.2⟩, fun _ => id, fun _ => id, Nat.le_refl _⟩
    have hm : m.mech.standby = false ∧ m.mech.mate = true := by simpa using hm
    exact hm.2

theorem doStandbyLoss_leads (m : Module) : m.face.Leads (doStandbyLoss m).face := Module.standbyOff_leads m

theorem doCxlCablePresence_leads (present : Bool) (m : Module) : m.face.Leads (doCxlCablePresence present m).face :=
  fun h => ⟨h, fun _ => id, fun _ => id, Nat.le_refl _⟩

end Sys2Proof.Machine
end

