-- ==== Sys2Proof/Laws/Power.lean ====
section
/-! SUPPORT. Faults that fail partitions, dark dies, and the AOS sample. -/

namespace Sys2Proof.Machine

open Sys2Proof

theorem logFatal_keep (m : Module) (x l p t d) : ∃ a b c, m.logFatal x l p t d = { m with sup.intakeFatal := a, sup.intake := b, sup.dropped := c } := logRec_keep ..

theorem faultPart_keep (m : Module) (p code : Nat) : SameTN m (m.faultPart p code) ∧ (∀ q, q ≠ p → (m.faultPart p code).part q = m.part q)
    ∧ ((m.part p).st = .loading ∨ (m.part p).st = .running ∨ (m.part p).st = .draining → ((m.faultPart p code).part p).st = .failed) := by
  unfold Module.faultPart
  cases h : (m.part p).st
  · exact ⟨⟨rfl, rfl⟩, fun _ _ => rfl, fun h => by simp at h⟩
  · obtain ⟨f, t⟩ := failPart_failed m p code (by rw [h]; decide) (by rw [h]; decide)
    exact ⟨t, f.other, fun _ => f.st⟩
  · exact ⟨⟨rfl, rfl⟩, fun _ _ => rfl, fun h => by simp at h⟩
  · obtain ⟨f, t⟩ := failPart_failed m p code (by rw [h]; decide) (by rw [h]; decide)
    exact ⟨t, f.other, fun _ => f.st⟩
  · obtain ⟨f, t⟩ := failPart_failed m p code (by rw [h]; decide) (by rw [h]; decide)
    exact ⟨t, f.other, fun _ => f.st⟩
  · exact ⟨⟨rfl, rfl⟩, fun _ _ => rfl, fun h => by simp at h⟩
  · exact ⟨⟨rfl, rfl⟩, fun _ _ => rfl, fun h => by simp at h⟩

theorem faultFold (code : Nat) (l : List Nat) (hn : l.Nodup) (m : Module) : let t := l.foldl (fun m p => m.faultPart p code) m
    SameTN m t ∧ (∀ p, p ∉ l → t.part p = m.part p) ∧ (∀ p ∈ l, (m.part p).st = .loading ∨ (m.part p).st = .running ∨ (m.part p).st = .draining → (t.part p).st = .failed) := by
  induction l generalizing m with
  | nil => exact ⟨⟨rfl, rfl⟩, fun _ _ => rfl, fun _ h => absurd h (by simp)⟩
  | cons a l ih =>
    intro t
    obtain ⟨hn1, hn2⟩ := List.nodup_cons.1 hn
    obtain ⟨k1, k2, k3⟩ := faultPart_keep m a code
    obtain ⟨i1, i2, i3⟩ := ih hn2 (m.faultPart a code)
    refine ⟨k1.trans i1, fun p hp => ?_, fun p hp h => ?_⟩
    · exact (i2 p (fun h => hp (List.mem_cons_of_mem _ h))).trans (k2 p (fun h => hp (by rw [h]; exact List.mem_cons_self)))
    · by_cases hpl : p ∈ l
      · refine i3 p hpl ?_
        rw [k2 p (fun h => hn1 (by rw [← h]; exact hpl))]; exact h
      · have : p = a := by rcases List.mem_cons.1 hp with h' | h'
                           · exact h'
                           · exact absurd h' hpl
        subst this
        have := i2 p hpl
        exact (congrArg Part.st this).trans (k3 h)

theorem contains_false {l : List Nat} {a : Nat} (h : a ∉ l) : l.contains a = false := by simpa using h

theorem darkDie_eq (m : Module) (d : Nat) (hd : d ∉ m.topo.dark) : ∃ m1 : Module, m.darkDie d = (m.usersOf (coresOfDie d)).foldl (fun m p => m.faultPart p 0x0802) m1
    ∧ m1.topo = { m.topo with dark := m.topo.dark ++ [d], runDead := m.topo.runDead ++ (coresOfDie d).filter (fun c => !m.topo.runDead.contains c) } ∧ m1.parts = m.parts := by
  unfold Module.darkDie
  rw [if_neg (by rw [contains_false hd]; decide)]
  obtain ⟨a, b, c, e⟩ := logFatal_keep (m.setDieP d { m.dieP d with efuseOpen := true }) 0x0802 (.die d) none 0 0
  rw [e]
  exact ⟨_, rfl, rfl, rfl⟩

theorem logEvent_keep' (m : Module) (x l p t d) : ∃ a b c, m.logEvent x l p t d = { m with sup := { m.sup with intakeFatal := a, intake := b, dropped := c } } := logRec_keep ..

theorem setDieP_dieP (m : Module) (d e x) : (m.setDieP d x).dieP e = if e = d then x else m.dieP e := by
  unfold Module.dieP Module.setDieP
  rw [kgetD_kput]

theorem crackSample_keep (m : Module) (r : DieReading) : ∃ ds a b c, m.crackSample r = { m with pwr := { m.pwr with dies := ds }, sup := { m.sup with intakeFatal := a, intake := b, dropped := c } }
    ∧ (({ m with pwr := { m.pwr with dies := ds } } : Module).dieP r.die).tj = (m.dieP r.die).tj ∧ (({ m with pwr := { m.pwr with dies := ds } } : Module).dieP r.die).throttle = (m.dieP r.die).throttle := by
  unfold Module.crackSample
  dsimp only
  split
  · exact ⟨_, m.sup.intakeFatal, m.sup.intake, m.sup.dropped, rfl, by unfold Module.dieP; dsimp only; rw [kgetD_kput_self], by unfold Module.dieP; dsimp only; rw [kgetD_kput_self]⟩
  · split
    · obtain ⟨a, b, c, e⟩ := logEvent_keep' (m.setDieP r.die { m.dieP r.die with crackFrom := some ((m.dieP r.die).crackFrom.getD m.now), crackLimit := true, crackMark := true }) 0x0803 (.die r.die) none 0 0
      rw [e]
      exact ⟨_, a, b, c, rfl, by unfold Module.dieP; dsimp only; rw [kgetD_kput_self], by unfold Module.dieP; dsimp only; rw [kgetD_kput_self]⟩
    · exact ⟨_, m.sup.intakeFatal, m.sup.intake, m.sup.dropped, rfl, by unfold Module.dieP; dsimp only; rw [kgetD_kput_self], by unfold Module.dieP; dsimp only; rw [kgetD_kput_self]⟩

end Sys2Proof.Machine
end

