-- ==== Sys2Proof/Laws/Steady.lean ====
section
/-! SUPPORT. What ends of tasks, failures of partitions and ends of jig loads leave as it was: the module state, the topology, the pins,
the slow clock, the security block, and the supervision block but for its intakes, sideband and interrupts. -/

namespace Sys2Proof.Machine

open Sys2Proof

/-- What task ends, failures of partitions and the end of a jig load leave: the module's state, its topology, its pins, the slow clock, the
security block, and the supervision block but for its intakes, its sideband and its interrupts. -/
def Module.steady (m : Module) : Sys × Topo × Mech × Nat × Sec × Sup :=
  (m.sys, m.topo, m.mech, m.pwr.sk, m.sec,
    { m.sup with side := {}, intake := [], intakeFatal := [], dropped := 0, irqStatus := 0, irqAt := [], irqDefer := [] })

theorem steady_same {m m' : Module} (h1 : m'.sys = m.sys) (h2 : m'.topo = m.topo) (h3 : m'.mech = m.mech) (h4 : m'.pwr.sk = m.pwr.sk)
    (h5 : m'.sec = m.sec) (h6 : m'.sup = m.sup) : m'.steady = m.steady := by
  unfold Module.steady
  rw [h1, h2, h3, h4, h5, h6]

theorem logRec_steady (m r) : (Module.logRec m r).steady = m.steady := by
  unfold Module.logRec
  split
  · dsimp only
    split <;> split <;> rfl
  · rfl

theorem logEvent_steady (m : Module) (x l p t d) : (m.logEvent x l p t d).steady = m.steady := logRec_steady ..
theorem logFatal_steady (m : Module) (x l p t d) : (m.logFatal x l p t d).steady = m.steady := logRec_steady ..

theorem foldl_steady {α : Type} (f : Module → α → Module) (h : ∀ m a, (f m a).steady = m.steady) (l : List α) (m : Module) :
    (l.foldl f m).steady = m.steady := by
  induction l generalizing m with
  | nil => rfl
  | cons a l ih => rw [List.foldl_cons]; exact (ih _).trans (h m a)

theorem finish_steady (m q c s n i) : (Module.finish m q c s n i).steady = m.steady := by
  unfold Module.finish
  extract_lets x
  split
  · rfl
  · split <;> rfl

theorem complete_steady (m q c i) : (Module.complete m q c i).steady = m.steady := by
  unfold Module.complete
  split
  · exact finish_steady ..
  · rfl

theorem completeAll_steady (m p c sel) : (Module.completeAll m p c sel).steady = m.steady := by
  unfold Module.completeAll
  refine foldl_steady _ (fun m q => ?_) _ _
  split
  · exact complete_steady ..
  · rfl

theorem restClusters_steady (m p) : (Module.restClusters m p).steady = m.steady := by
  unfold Module.restClusters
  split <;> rfl

theorem sendFrame_steady (m a b c d e) : (Module.sendFrame m a b c d e).steady = m.steady := by
  unfold Module.sendFrame
  extract_lets p
  split
  · rfl
  · repeat' split
    all_goals rfl

theorem sendHerdStop_steady (m a b c d) : (Module.sendHerdStop m a b c d).steady = m.steady := by
  unfold Module.sendHerdStop
  split <;> rfl

theorem sendHerdAbort_steady (m h c b) : (Module.sendHerdAbort m h c b).steady = m.steady := by
  unfold Module.sendHerdAbort
  dsimp only
  refine Eq.trans (sendHerdStop_steady ..) (foldl_steady _ (fun m a => ?_) _ _)
  obtain ⟨k, g⟩ := a
  refine foldl_steady _ (fun m j => ?_) _ _
  split
  · rfl
  · exact sendFrame_steady ..

theorem abortHerds_steady (m p c b) : (Module.abortHerds m p c b).steady = m.steady := by
  unfold Module.abortHerds
  exact foldl_steady _ (fun m a => sendHerdAbort_steady ..) _ _

theorem undoResults_steady (m : Module) (p : Nat) : (m.undoResults p).steady = m.steady := by
  unfold Module.undoResults
  refine foldl_steady _ (fun m e => ?_) _ _
  cases e.2.undo with
  | none => rfl
  | some u =>
    obtain ⟨t, ss⟩ := u
    dsimp only
    split
    · rfl
    · refine foldl_steady _ (fun m x => ?_) _ _
      split <;> rfl

theorem failTake_steady (m : Module) (p : Nat) : (m.failTake p).steady = m.steady := by
  unfold Module.failTake
  extract_lets x m1 drop s0 m2 m3 m4
  split
  · rfl
  · rename_i t _
    exact ((complete_steady ..).trans (logRec_steady ..)).trans (show m3.steady = m.steady from rfl)

theorem endTask_steady (m : Module) (p code : Nat) : (m.endTask p code).steady = m.steady := by
  unfold Module.endTask
  extract_lets x id m1 m2 m3 m4 m5
  have h1 : m2.steady = m.steady := rfl
  have h3 : m3.steady = m.steady := (restClusters_steady ..).trans h1
  have h4 : m4.steady = m.steady := by
    refine Eq.trans ?_ h3
    show (match x.starter with | some q => m3.complete q code id | none => m3).steady = m3.steady
    split
    · exact complete_steady ..
    · rfl
  clear_value m1 m2 m3 m4
  split
  · have h5 : m5.steady = m4.steady := steady_same rfl rfl rfl rfl rfl rfl
    exact (completeAll_steady ..).trans (h5.trans h4)
  · exact h4

theorem abortTask_steady (m : Module) (p code : Nat) (l : Loc) : (m.abortTask p code l).steady = m.steady := by
  unfold Module.abortTask
  split
  · extract_lets m1 m2 m3 m4 m5 m6 m7
    have h1 : m1.steady = m.steady := logRec_steady ..
    clear_value m1
    have h3 : m3.steady = m1.steady := steady_same rfl rfl rfl rfl rfl rfl
    have h4 : m4.steady = m3.steady := abortHerds_steady ..
    have h5 : m5.steady = m4.steady := completeAll_steady ..
    clear_value m3 m4 m5
    have h6 : m6.steady = m5.steady := (undoResults_steady _ p).trans (steady_same rfl rfl rfl rfl rfl rfl)
    have h7 : m7.steady = m6.steady := endTask_steady ..
    have h : m7.steady = m.steady := h7.trans (h6.trans (h5.trans (h4.trans (h3.trans h1))))
    split
    · exact (failTake_steady ..).trans h
    · exact h
  · rfl

theorem failPart_steady (m : Module) (p code : Nat) : (m.failPart p code).steady = m.steady := by
  unfold Module.failPart
  extract_lets x m1 m2 m3 m4 m5
  split
  · rfl
  · have t1 : m1.steady = m.steady := by
      show (if x.taskRunning = true then _ else _ : Module).steady = m.steady
      split
      · exact steady_same rfl rfl rfl rfl rfl rfl
      · rfl
    clear_value m1
    have t3 : m3.steady = m1.steady := steady_same rfl rfl rfl rfl rfl rfl
    have t4 : m4.steady = m3.steady := restClusters_steady ..
    have t5 : m5.steady = m4.steady := by
      show (if (x.krf.take.isSome && !x.dumped) = true then m4.failTake p else m4).steady = _
      split
      · exact failTake_steady ..
      · rfl
    exact (completeAll_steady ..).trans (t5.trans (t4.trans (t3.trans t1)))

theorem faultPart_steady (m : Module) (p code : Nat) : (m.faultPart p code).steady = m.steady := by
  unfold Module.faultPart
  split
  all_goals first | rfl | exact failPart_steady ..

theorem failLoading_steady (m : Module) (code : Nat) : (m.failLoading code).steady = m.steady := by
  unfold Module.failLoading
  refine foldl_steady _ (fun m p => ?_) _ _
  split
  · exact failPart_steady ..
  · rfl

theorem abandonLoad_steady (m : Module) (code : Nat) : (m.abandonLoad code).steady = m.steady := by
  unfold Module.abandonLoad
  split
  · rfl
  · have h := failLoading_steady m code
    generalize m.failLoading code = a at h
    exact (steady_same rfl rfl rfl rfl rfl rfl : a.endLoad.steady = a.steady).trans h

theorem refuseLoad_steady (m : Module) (b : JBad) (id : Nat) : (m.refuseLoad b id).steady = m.steady := by
  unfold Module.refuseLoad Module.refuse
  dsimp only
  have h := logRec_steady m.endLoad { code := b.code, cls := 3, part := b.part, locKind := b.loc.kind, locIndex := b.loc.idx, detail := b.res }
  generalize m.endLoad.logRec _ = a at h ⊢
  exact (steady_same rfl rfl rfl rfl rfl rfl : _ = a.steady).trans h

theorem freezeLoad_steady (m : Module) : m.freezeLoad.steady = m.steady := by
  unfold Module.freezeLoad
  split
  all_goals first | rfl | exact refuseLoad_steady .. | exact abandonLoad_steady ..

theorem offPart_steady (m : Module) (p code : Nat) : (m.offPart p code).steady = m.steady := by
  unfold Module.offPart
  extract_lets x m1 m2 m3 m4 m5 kf
  split
  · rfl
  · have t1 : m1.steady = m.steady := by
      show (if x.taskRunning = true then _ else _ : Module).steady = m.steady
      split <;> rfl
    have t2 : m2.steady = m1.steady := failTake_steady ..
    have t3 : m3.steady = m2.steady := completeAll_steady ..
    clear_value m1 m2 m3
    refine Eq.trans ?_ (t3.trans (t2.trans t1))
    exact steady_same rfl rfl rfl rfl rfl rfl

theorem allOff_steady (m : Module) (code : Nat) : (m.allOff code).steady = m.steady := by
  unfold Module.allOff
  exact foldl_steady _ (fun _ _ => offPart_steady ..) _ _

theorem allStopped_steady (m : Module) : m.allStopped.steady = m.steady := by
  have h := (allOff_steady (m.abandonLoad 0x0601) 0x0601).trans (abandonLoad_steady m 0x0601)
  unfold Module.allStopped
  generalize (m.abandonLoad 0x0601).allOff 0x0601 = a at h
  refine Eq.trans ?_ h
  exact steady_same rfl rfl rfl rfl rfl rfl

/-! ### What two modules of the same steady part share -/

theorem steady_sys {m m' : Module} (h : m'.steady = m.steady) : m'.sys = m.sys := by
  have := congrArg Prod.fst h; exact this
theorem steady_topo {m m' : Module} (h : m'.steady = m.steady) : m'.topo = m.topo := by
  have := congrArg (fun x => x.2.1) h; exact this
theorem steady_mech {m m' : Module} (h : m'.steady = m.steady) : m'.mech = m.mech := by
  have := congrArg (fun x => x.2.2.1) h; exact this
theorem steady_sk {m m' : Module} (h : m'.steady = m.steady) : m'.pwr.sk = m.pwr.sk := by
  have := congrArg (fun x => x.2.2.2.1) h; exact this
theorem steady_now {m m' : Module} (h : m'.steady = m.steady) : m'.now = m.now := steady_sk h
theorem steady_sec {m m' : Module} (h : m'.steady = m.steady) : m'.sec = m.sec := by
  have := congrArg (fun x => x.2.2.2.2.1) h; exact this
theorem steady_sup_lease {m m' : Module} (h : m'.steady = m.steady) : m'.sup.lease = m.sup.lease := by
  have := congrArg (fun x => x.2.2.2.2.2.lease) h; exact this
theorem steady_sup_holderB {m m' : Module} (h : m'.steady = m.steady) : m'.sup.holderB = m.sup.holderB := by
  have := congrArg (fun x => x.2.2.2.2.2.holderB) h; exact this
theorem steady_sup_leaseEpoch {m m' : Module} (h : m'.steady = m.steady) : m'.sup.leaseEpoch = m.sup.leaseEpoch := by
  have := congrArg (fun x => x.2.2.2.2.2.leaseEpoch) h; exact this
theorem steady_sup_authority {m m' : Module} (h : m'.steady = m.steady) : m'.sup.authority = m.sup.authority := by
  have := congrArg (fun x => x.2.2.2.2.2.authority) h; exact this
theorem steady_sup_renewAt {m m' : Module} (h : m'.steady = m.steady) : m'.sup.renewAt = m.sup.renewAt := by
  have := congrArg (fun x => x.2.2.2.2.2.renewAt) h; exact this
theorem steady_sup_claims {m m' : Module} (h : m'.steady = m.steady) : m'.sup.claims = m.sup.claims := by
  have := congrArg (fun x => x.2.2.2.2.2.claims) h; exact this
theorem steady_sup_currentEpoch {m m' : Module} (h : m'.steady = m.steady) : m'.sup.currentEpoch = m.sup.currentEpoch := by
  have := congrArg (fun x => x.2.2.2.2.2.currentEpoch) h; exact this
theorem steady_sup_conflicts {m m' : Module} (h : m'.steady = m.steady) : m'.sup.conflicts = m.sup.conflicts := by
  have := congrArg (fun x => x.2.2.2.2.2.conflicts) h; exact this
theorem steady_sup_expiries {m m' : Module} (h : m'.steady = m.steady) : m'.sup.expiries = m.sup.expiries := by
  have := congrArg (fun x => x.2.2.2.2.2.expiries) h; exact this
theorem steady_sup_handovers {m m' : Module} (h : m'.steady = m.steady) : m'.sup.handovers = m.sup.handovers := by
  have := congrArg (fun x => x.2.2.2.2.2.handovers) h; exact this
theorem steady_sup_a {m m' : Module} (h : m'.steady = m.steady) : m'.sup.a = m.sup.a := by
  have := congrArg (fun x => x.2.2.2.2.2.a) h; exact this
theorem steady_sup_b {m m' : Module} (h : m'.steady = m.steady) : m'.sup.b = m.sup.b := by
  have := congrArg (fun x => x.2.2.2.2.2.b) h; exact this
theorem steady_sup_log {m m' : Module} (h : m'.steady = m.steady) : m'.sup.log = m.sup.log := by
  have := congrArg (fun x => x.2.2.2.2.2.log) h; exact this
theorem steady_sup_nextIndex {m m' : Module} (h : m'.steady = m.steady) : m'.sup.nextIndex = m.sup.nextIndex := by
  have := congrArg (fun x => x.2.2.2.2.2.nextIndex) h; exact this
theorem steady_sup_seq {m m' : Module} (h : m'.steady = m.steady) : m'.sup.seq = m.sup.seq := by
  have := congrArg (fun x => x.2.2.2.2.2.seq) h; exact this
theorem steady_sup_boot {m m' : Module} (h : m'.steady = m.steady) : m'.sup.boot = m.sup.boot := by
  have := congrArg (fun x => x.2.2.2.2.2.boot) h; exact this
theorem steady_sup_flashLog {m m' : Module} (h : m'.steady = m.steady) : m'.sup.flashLog = m.sup.flashLog := by
  have := congrArg (fun x => x.2.2.2.2.2.flashLog) h; exact this
theorem steady_sup_flashNext {m m' : Module} (h : m'.steady = m.steady) : m'.sup.flashNext = m.sup.flashNext := by
  have := congrArg (fun x => x.2.2.2.2.2.flashNext) h; exact this
theorem steady_sup_flashSeq {m m' : Module} (h : m'.steady = m.steady) : m'.sup.flashSeq = m.sup.flashSeq := by
  have := congrArg (fun x => x.2.2.2.2.2.flashSeq) h; exact this
theorem steady_sup_irqEn {m m' : Module} (h : m'.steady = m.steady) : m'.sup.irqEn = m.sup.irqEn := by
  have := congrArg (fun x => x.2.2.2.2.2.irqEn) h; exact this
theorem steady_sup_wdStops {m m' : Module} (h : m'.steady = m.steady) : m'.sup.wdStops = m.sup.wdStops := by
  have := congrArg (fun x => x.2.2.2.2.2.wdStops) h; exact this
theorem steady_sup_wdAt {m m' : Module} (h : m'.steady = m.steady) : m'.sup.wdAt = m.sup.wdAt := by
  have := congrArg (fun x => x.2.2.2.2.2.wdAt) h; exact this
theorem steady_sup_wdHold {m m' : Module} (h : m'.steady = m.steady) : m'.sup.wdHold = m.sup.wdHold := by
  have := congrArg (fun x => x.2.2.2.2.2.wdHold) h; exact this
theorem steady_sup_wdStuck {m m' : Module} (h : m'.steady = m.steady) : m'.sup.wdStuck = m.sup.wdStuck := by
  have := congrArg (fun x => x.2.2.2.2.2.wdStuck) h; exact this
theorem steady_sup_acts {m m' : Module} (h : m'.steady = m.steady) : m'.sup.acts = m.sup.acts := by
  have := congrArg (fun x => x.2.2.2.2.2.acts) h; exact this

end Sys2Proof.Machine
end

