-- ==== Sys2Proof/Tests/Slice0.lean ====
section
/-! SUPPORT. The model's own tests: ill-formed commands are refused, worked examples of the manual come out as it gives them, and for
every obligation with hypotheses a concrete state and operands that meet them. -/

namespace Sys2Proof.Tests

open Sys2Proof Sys2Proof.Machine

set_option maxRecDepth 20000
set_option exponentiation.threshold 2000

/-! ## A small machine -/

/-- An instruction word with the fields given as (bit, value). -/
def word (op : Nat) (fields : List (Nat × Nat)) : Nat := fields.foldl (fun w f => w + f.2 * 2 ^ f.1) op

/-- The thread of the tests: READY at 32, with X1 = 5 and X2 = 0xFFFF_FFFF. -/
def thr : Thread := { st := .ready, pc := 32, x := [(1, 5), (2, 0xFFFF_FFFF)] }

/-- Core 0 with the instruction word at that pc of a program region of 96 bytes. -/
def coreOf (w : Nat) : Core :=
  { img := some { threadEn := 255, progLen := 96, descBase := 4096 }, sram := writeLE [] 32 32 w, threads := [(0, thr)] }

/-- A RUNNING partition of one cluster whose task has started. -/
def partOf : Part := { st := .running, cw := 1, ch := 1, taskRunning := true, started := true }

/-- A module in SERVICE with partition 0 on cluster 0. -/
def base : Module :=
  { sys.st := .service, mech.mate := true, mech.standby := true, pwr.sk := 1000000000, parts := [(0, partOf)], pwr.clusters := [(0, { st := .on })] }

/-- That module with core 0. -/
def on (k : Core) : State := { m := { base with cores := [(0, k)] } }

/-- Core 0 and the state for one instruction. -/
def kOf (op : Nat) (fields : List (Nat × Nat)) : Core := coreOf (word op fields)

/-- `Issues` for thread 0 of core 0 of partition 0, as one check. -/
def issues (s : State) (op w : Nat) (k : Core) : Bool :=
  (s.m.canIssue 0 0 == some (0, k, thr)) && k.fetch thr == w && fld w 0 8 == op && (k.badFetch thr).isNone

theorem issues_of {s : State} {op w : Nat} {k : Core} (h : issues s op w k = true) : Issues s 0 0 op 0 k thr w := by
  simp only [issues, Bool.and_eq_true, beq_iff_eq, Option.isNone_iff_eq_none] at h
  exact ⟨h.1.1.1, h.1.1.2, h.1.2, h.2⟩

theorem can_issue {k : Core} (h : k.threads = [(0, thr)]) : (on k).m.canIssue 0 0 = some (0, k, thr) := by
  have hp : (on k).m.partOfCore 0 = some 0 := by
    rw [show (on k).m.partOfCore 0 = base.partOfCore 0 from rfl]; decide
  have ht : kgetD ({} : Thread) k.threads 0 = thr := by rw [h]; rfl
  unfold Module.canIssue
  rw [show kget? (on k).m.cores 0 = some k from rfl, hp]
  simp only [ht]
  rfl

/-- What `Ready` asks, as one check on the core. -/
def goodWord (k : Core) (op w : Nat) : Bool :=
  k.threads == [(0, thr)] && k.fetch thr == w && fld w 0 8 == op && (k.badFetch thr).isNone && k.pcInside 64

/-- Core 0 can issue the instruction, with `edit` done to the core. -/
def Ready (op : Nat) (fields : List (Nat × Nat)) (edit : Core → Core := id) : Prop :=
  Issues (on (edit (kOf op fields))) 0 0 op 0 (edit (kOf op fields)) thr (word op fields) ∧ NextInside (edit (kOf op fields)) thr

theorem ready_of {op : Nat} {fields : List (Nat × Nat)} {edit : Core → Core} (h : goodWord (edit (kOf op fields)) op (word op fields) = true) :
    Ready op fields edit := by
  simp only [goodWord, Bool.and_eq_true, beq_iff_eq, Option.isNone_iff_eq_none] at h
  exact ⟨⟨can_issue h.1.1.1.1, h.1.1.1.2, h.1.1.2, h.1.2⟩, h.2⟩

/-- The module a command leaves. -/
def gives (i : Instr) (s : State) : Module := match exec i s with | .next t => t.m | _ => {}
/-- Core 0 and its thread 0 after a command. -/
def coreAfter (i : Instr) (s : State) : Core := (gives i s).core 0
def thrAfter (i : Instr) (s : State) : Thread := kgetD {} (coreAfter i s).threads 0
def dieOf : Nat := (base.home? 1).getD 0

/-! ## The block, and the instructions of a core -/

theorem test_hyp_steps : State.reset.pending = [] ∧ PowerRule State.reset.m ∧ Runs State.reset
    ∧ Runs { State.reset with pending := [.mateMade] } ∧ ({ mech.standby := true } : Module).mech.standby = true :=
  ⟨rfl, by unfold PowerRule; decide, ⟨_, rfl⟩, ⟨_, rfl⟩, rfl⟩

/-- `IdleStepIsOneSk`: a module where nothing waits for the next sk, with no partition and with one that drains with no task, from this sk and
from the sk before. -/
def drained (from_ : Nat) : Module := { base with parts := [(3, { st := .draining, drainFrom := from_ })] }
theorem test_hyp_idle : (∀ m ∈ [State.reset.m, drained 999_999_999, drained 1_000_000_001],
      m.tier.reqs = [] ∧ m.que.queues = [] ∧ m.herds = [] ∧ (∀ e ∈ m.parts, e.2.krf.restore = none))
    ∧ ((drained 1_000_000_001).part 3).st = .draining ∧ ((drained 1_000_000_001).part 3).taskRunning = false
    ∧ ((drained 999_999_999).part 3).drainFrom < (drained 999_999_999).now := by decide
theorem test_idle : (match step { m := drained 999_999_999 } with | .next t => (t.m.part 3).st | _ => .off) = .halted
    ∧ (match step { m := drained 1_000_000_000 } with | .next t => t.m.now | _ => 0) = 1_000_000_001 := by decide

/-- `ScalarResults`, with RD = X3, RS1 = X1, RS2 = X2, IMM = 64. -/
theorem test_hyp_scalar : ∀ op ∈ [0x20, 0x21, 0x22, 0x23, 0x24, 0x25, 0x26, 0x27, 0x28, 0x29, 0x2A],
    Ready op [(8, 3), (13, 1), (18, 2), (32, 64)] := by
  have h : ∀ op ∈ [0x20, 0x21, 0x22, 0x23, 0x24, 0x25, 0x26, 0x27, 0x28, 0x29, 0x2A],
      goodWord (kOf op [(8, 3), (13, 1), (18, 2), (32, 64)]) op (word op [(8, 3), (13, 1), (18, 2), (32, 64)]) = true := by decide
  exact fun op ho => ready_of (edit := id) (h op ho)

/-- The values of R199 for those operands, worked by hand. -/
theorem test_scalar_values : ∀ e ∈ ([(.li 0 0, 0x20, 64), (.add 0 0, 0x21, 4), (.addi 0 0, 0x22, 69), (.sub 0 0, 0x23, 6), (.mul 0 0, 0x24, 0xFFFF_FFFB),
    (.andOp 0 0, 0x25, 5), (.orOp 0 0, 0x26, 0xFFFF_FFFF), (.xorOp 0 0, 0x27, 0xFFFF_FFFA), (.shl 0 0, 0x28, 0x8000_0000), (.shr 0 0, 0x29, 0),
    (.modi 0 0, 0x2A, 5)] : List (Instr × Nat × Word)),
    (thrAfter e.1 (on (kOf e.2.1 [(8, 3), (13, 1), (18, 2), (32, 64)]))).xr 3 = e.2.2
    ∧ (thrAfter e.1 (on (kOf e.2.1 [(8, 3), (13, 1), (18, 2), (32, 64)]))).pc = 64 := by decide

/-- X0 discards what is written to it (R195). -/
theorem test_x0_discards : (thrAfter (.li 0 0) (on (kOf 0x20 [(8, 0), (32, 64)]))).xr 0 = 0 := by decide

/-- An earlier instruction of the thread waits in the engine's queue, to write bytes lo to hi. -/
def writing (lo hi : Nat) (k : Core) : Core := { k with engQ := [{ thread := 0, spans := [{ lo := lo, hi := hi, write := true }] }] }

/-- `ControlFlow`: NOP, HALT and FENCE, with nothing before it and with an instruction queued; branches taken to the last instruction of the region and, backwards, to its first; branches not
taken. -/
theorem test_hyp_flow : (Ready 0x00 [] ∧ Ready 0x01 [] ∧ Ready 0x04 [] ∧ (kOf 0x04 []).busy 0 = false ∧ Ready 0x04 [] (writing 0 4)
      ∧ (writing 0 4 (kOf 0x04 [])).busy 0 = true)
    ∧ (Ready 0x05 [(32, 1)] ∧ ((64 : Nat) : Int) = thr.pc + 32 * signed 32 (fld (word 0x05 [(32, 1)]) 32 32) ∧ (kOf 0x05 [(32, 1)]).pcInside 64 = true)
    ∧ (Ready 0x06 [(32, 0xFFFF_FFFF)] ∧ thr.xr (fld (word 0x06 [(32, 0xFFFF_FFFF)]) 13 5) = 0
        ∧ ((0 : Nat) : Int) = thr.pc + 32 * signed 32 (fld (word 0x06 [(32, 0xFFFF_FFFF)]) 32 32) ∧ (kOf 0x06 [(32, 0xFFFF_FFFF)]).pcInside 0 = true)
    ∧ (Ready 0x07 [(13, 1), (32, 1)] ∧ thr.xr (fld (word 0x07 [(13, 1), (32, 1)]) 13 5) ≠ 0)
    ∧ (Ready 0x08 [(13, 1), (18, 2), (32, 1)] ∧ (thr.xr 1).toNat < (thr.xr 2).toNat)
    ∧ (Ready 0x06 [(13, 1)] ∧ thr.xr (fld (word 0x06 [(13, 1)]) 13 5) ≠ 0)
    ∧ (Ready 0x07 [] ∧ thr.xr (fld (word 0x07 []) 13 5) = 0)
    ∧ (Ready 0x08 [(13, 1), (18, 1)] ∧ (thr.xr 1).toNat ≤ (thr.xr 1).toNat) :=
  ⟨⟨ready_of (by decide), ready_of (by decide), ready_of (by decide), by decide, ready_of (by decide), by decide⟩,
    ⟨ready_of (by decide), by decide, by decide⟩, ⟨ready_of (by decide), by decide, by decide, by decide⟩, ⟨ready_of (by decide), by decide⟩, ⟨ready_of (by decide), by decide⟩,
    ⟨ready_of (by decide), by decide⟩, ⟨ready_of (by decide), by decide⟩, ⟨ready_of (by decide), by decide⟩⟩

/-- A backward branch, and one whose operands are equal, as R199 gives them. -/
theorem test_branches : (thrAfter (.br 0 0) (on (kOf 0x05 [(32, 0xFFFF_FFFF)]))).pc = 0
    ∧ (thrAfter (.bltu 0 0) (on (kOf 0x08 [(13, 1), (18, 1), (32, 0xFFFF_FFFF)]))).pc = 64
    ∧ (thrAfter (.halt 0 0) (on (kOf 0x01 []))).st = .halted := by decide

/-- `SignalAndWait`: a semaphore one below its greatest value, one that is 1 or 0, and the gate point with and without an armed
take. -/
def sem (i n : Nat) (k : Core) : Core := { k with sems := [(i, n)] }
def gated (k : Core) : State :=
  { m := { base with cores := [(0, k)], parts := [(0, { partOf with krf.phase := .awaitingCut, krf.take := some { gate := true } })] } }
theorem test_hyp_semaphores :
    (Ready 0x02 [(23, 15)] (sem 15 0xFFFE) ∧ kgetD 0 (sem 15 0xFFFE (kOf 0x02 [(23, 15)])).sems 15 < 0xFFFF
        ∧ ((sem 15 0xFFFE (kOf 0x02 [(23, 15)])).queued 0).any Span.write = false)
    ∧ (Ready 0x02 [] (writing 0 4) ∧ ((writing 0 4 (kOf 0x02 [])).queued 0).any Span.write = true)
    ∧ (Ready 0x03 [(23, 14)] (sem 14 1) ∧ 0 < kgetD 0 (sem 14 1 (kOf 0x03 [(23, 14)])).sems 14)
    ∧ (Ready 0x03 [(23, 0)] ∧ kgetD 0 (kOf 0x03 [(23, 0)]).sems 0 = 0)
    ∧ Ready 0x03 [(23, 15)]
    ∧ (Issues (gated (kOf 0x03 [(23, 15)])) 0 0 0x03 0 (kOf 0x03 [(23, 15)]) thr (word 0x03 [(23, 15)])
        ∧ ((gated (kOf 0x03 [(23, 15)])).m.part 0).krf.phase = .awaitingCut) :=
  ⟨⟨ready_of (by decide), by decide, by decide⟩, ⟨ready_of (by decide), by decide⟩, ⟨ready_of (by decide), by decide⟩, ⟨ready_of (by decide), by decide⟩,
    ready_of (by decide), issues_of (by decide), by decide⟩

/-- `LoadAndStore`: the last word of SRAM, with a correctable error in the ECC word of the load, with and without an earlier write to it that has
not completed; and what a load and a store at an
address that is not a multiple of 4 do (bits [1:0] are ignored, R199). -/
def soft (k : Core) : Core := { k with softWords := [0x27_FFFC / 32] }
def lastWord (write : Bool) : List Span := [{ lo := 0x27_FFFF / 4 * 4, hi := 0x27_FFFF / 4 * 4 + 4, write := write }]
theorem test_hyp_memory :
    (Ready 0x2B [(8, 3), (32, 0x27_FFFF)] soft ∧ (thr.xr 0 + BitVec.ofNat 32 0x27_FFFF).toNat = 0x27_FFFF
        ∧ 0x27_FFFF / 32 ∉ (soft (kOf 0x2B [(8, 3), (32, 0x27_FFFF)])).badWords ∧ (soft (kOf 0x2B [(8, 3), (32, 0x27_FFFF)])).clear 0 (lastWord false) = true)
    ∧ (Ready 0x2C [(18, 2), (32, 0x27_FFFF)] ∧ (kOf 0x2C [(18, 2), (32, 0x27_FFFF)]).readOnlyAt (0x27_FFFF / 4 * 4) = false
        ∧ (kOf 0x2C [(18, 2), (32, 0x27_FFFF)]).clear 0 (lastWord true) = true)
    ∧ (∀ op ∈ [0x2B, 0x2C], Ready op [(8, 3), (32, 0x27_FFFF)] (writing 0x27_FFFF 0x28_0000)
        ∧ ∀ b, (writing 0x27_FFFF 0x28_0000 (kOf op [(8, 3), (32, 0x27_FFFF)])).clear 0 (lastWord b) = false) :=
  ⟨⟨ready_of (by decide), by decide, by decide, by decide⟩, ⟨ready_of (by decide), by decide, by decide⟩, by
    have h : ∀ op ∈ [0x2B, 0x2C], goodWord (writing 0x27_FFFF 0x28_0000 (kOf op [(8, 3), (32, 0x27_FFFF)])) op (word op [(8, 3), (32, 0x27_FFFF)]) = true
      ∧ ∀ b, (writing 0x27_FFFF 0x28_0000 (kOf op [(8, 3), (32, 0x27_FFFF)])).clear 0 (lastWord b) = false := by decide
    exact fun op ho => ⟨ready_of (h op ho).1, (h op ho).2⟩⟩
theorem test_memory_values : (thrAfter (.ldw 0 0) (on (kOf 0x2B [(8, 3), (32, 39)]))).xr 3 = BitVec.ofNat 32 39
    ∧ readLE (coreAfter (.stw 0 0) (on (kOf 0x2C [(18, 2), (32, 0x2_0003)]))).sram 0x2_0000 5 = 0xFFFF_FFFF := by decide

/-- `SendRecvRelease`: a ring of 64 buffers, of which n are delivered or one fewer; credits returned by an endpoint on no chain and in
the middle of one; 1 and 64 credits are one packet; a SEND of a buffer that an earlier instruction writes. -/
def ep (i : Nat) (x : Endpoint) (k : Core) : Core := { k with eps := [(i, x)] }
def midChained : Module := { cores := [(0, { coreOf 0 with eps := [(0, { route := 9 })], sched := [(0, 1 + 2 ^ 12 + 2 ^ 32 * 9)] })] }
theorem test_hyp_packets : (midChained.midChain 0 9 = true ∧ (kgetD ({} : Chain) (midChained.core 0).chains 0).d = 0) ∧
    (Ready 0x70 [(23, 63), (32, 0xFFFF)] (ep 63 {}) ∧ kget? (ep 63 {} (kOf 0x70 [(23, 63), (32, 0xFFFF)])).eps 63 = some {}
        ∧ (ep 63 {} (kOf 0x70 [(23, 63), (32, 0xFFFF)])).clear 0 (sendSpans (ep 63 {} (kOf 0x70 [(23, 63), (32, 0xFFFF)])) (word 0x70 [(23, 63), (32, 0xFFFF)])) = true)
    ∧ (let e : Core → Core := fun k => ep 0 { ringPkts := 1, ringBase := 0x1_0000 } (writing 0x1_003F 0x1_0040 k)
       Ready 0x70 [(32, 1)] e ∧ (e (kOf 0x70 [(32, 1)])).clear 0 (sendSpans (e (kOf 0x70 [(32, 1)])) (word 0x70 [(32, 1)])) = false)
    ∧ (Ready 0x71 [(8, 3), (32, 64)] (ep 0 { ringPkts := 64, count := 64 }) ∧ (64 : Nat) ≤ ({ ringPkts := 64, count := 64 } : Endpoint).ringPkts)
    ∧ (Ready 0x71 [(8, 3), (32, 64)] (ep 0 { ringPkts := 64, count := 63 }) ∧ ({ ringPkts := 64, count := 63 } : Endpoint).count < 64)
    ∧ (Ready 0x72 [(32, 64)] (ep 0 { ringPkts := 64, count := 64 }) ∧ (64 : Nat) ≤ ({ ringPkts := 64, count := 64 } : Endpoint).count)
    ∧ (kget? ((on (ep 5 { creditRoute := 7 } (coreOf 0))).m.core 0).eps 5 = some { creditRoute := 7 }
        ∧ (on (ep 5 { creditRoute := 7 } (coreOf 0))).m.midChain 0 0 = false) :=
  ⟨by decide, ⟨ready_of (by decide), by decide, by decide⟩, ⟨ready_of (by decide), by decide⟩, ⟨ready_of (by decide), by decide⟩,
    ⟨ready_of (by decide), by decide⟩, ⟨ready_of (by decide), by decide⟩, by decide, by decide⟩

/-- `WindowInstructions`: a slot of each state, and a window with no slot in use. -/
def winOf (x : WinSlot) (k : Core) : Core := { k with wins := [(0, { slots := [(2, x)], oldest := 2 })] }
theorem test_hyp_windows :
    (Ready 0x73 [(8, 3)] (winOf { st := .pulled }) ∧ Ready 0x73 [(8, 3)] (winOf {}) ∧ Ready 0x73 [(8, 3)])
    ∧ (Ready 0x74 [(8, 3)] (winOf { st := .full }) ∧ Ready 0x74 [(8, 3)] (winOf { st := .veneer }) ∧ Ready 0x74 [(8, 3)] (winOf { st := .pulled })
        ∧ Ready 0x74 [(8, 3)] (winOf {}))
    ∧ Ready 0x75 [] (winOf { st := .full }) ∧ (base.part 0).taskRunning = true
    ∧ (let w := kgetD ({} : Window) (winOf { st := .full } (kOf 0x75 [])).wins 0; w.slot 2 = { st := .full } ∧ w.tail = false ∧ w.waiting = []) :=
  ⟨⟨ready_of (by decide), ready_of (by decide), ready_of (by decide)⟩, ⟨ready_of (by decide), ready_of (by decide), ready_of (by decide),
    ready_of (by decide)⟩, ready_of (by decide), by decide, by decide⟩

/-- What WHEAD reads of a FULL slot 2 of layer 3 (R328), and that WFREE moves on from the last slot of three to the first. -/
theorem test_whead_wfree : (thrAfter (.whead 0 0) (on (winOf { st := .full, layer := 3 } (kOf 0x73 [(8, 3)])))).xr 3 = 0x3_0102
    ∧ (kgetD ({} : Window) (coreAfter (.wfree 0 0) (on (winOf { st := .full } (kOf 0x75 [])))).wins 0).oldest = 0 := by decide

/-- `TerournAndGradients`: 15 and 16 requests without a reply; 16 WRITE_DONEs counted and 15; a return flow with a route of the layer,
done and not done. -/
def rp (x : ReqPort) (k : Core) : Core := { k with ports := [(0, x)] }
def gradOn (f : Flow) (k : Core) : State := { m := { base with cores := [(0, k)], str.flows := [(255, f)] } }
theorem test_hyp_requests :
    (Ready 0x76 [(8, 3), (13, 1)] (rp { open_ := 15 }) ∧ (thr.xr 0).toNat < 2 ^ 18)
    ∧ (Ready 0x77 [(8, 3), (13, 1)] (rp { open_ := 15 }) ∧ Ready 0x76 [(8, 3), (13, 1)] (rp { open_ := 16 })
        ∧ Ready 0x77 [(8, 3), (13, 1)] (rp { open_ := 16 }))
    ∧ (Ready 0x78 [(8, 3), (32, 16)] (rp { done := 16 }) ∧ Ready 0x78 [(8, 3), (32, 16)] (rp { done := 15 }))
    ∧ (Issues (gradOn { routes := [{ route := 9, layer := 5, ofs := 0, units := 1 }] } (kOf 0x79 [(13, 1), (32, 255)])) 0 0 0x79 0
          (kOf 0x79 [(13, 1), (32, 255)]) thr (word 0x79 [(13, 1), (32, 255)]) ∧ (thr.xr 1).toNat = 5)
    ∧ (Issues (gradOn {} (kOf 0x7A [(13, 1), (32, 255)])) 0 0 0x7A 0 (kOf 0x7A [(13, 1), (32, 255)]) thr (word 0x7A [(13, 1), (32, 255)])
        ∧ (gradOn {} (kOf 0x7A [(13, 1), (32, 255)])).m.layerDone 0 255 5 0 = true)
    ∧ (Issues (gradOn { routes := [{ route := 9, layer := 5, ofs := 0, units := 1 }] } (kOf 0x7A [(13, 1), (32, 255)])) 0 0 0x7A 0
          (kOf 0x7A [(13, 1), (32, 255)]) thr (word 0x7A [(13, 1), (32, 255)])
        ∧ (gradOn { routes := [{ route := 9, layer := 5, ofs := 0, units := 1 }] } (kOf 0x7A [(13, 1), (32, 255)])).m.layerDone 0 255 5 0 = false) :=
  ⟨⟨ready_of (by decide), by decide⟩, ⟨ready_of (by decide), ready_of (by decide), ready_of (by decide)⟩, ⟨ready_of (by decide), ready_of (by decide)⟩,
    ⟨issues_of (by decide), by decide⟩, ⟨issues_of (by decide), by decide⟩, issues_of (by decide), by decide⟩

/-- `TaskAbort`, `RunTimeAborts`: a task runs; a pc at the region's end, a branch past it, the first address above SRAM, a store into the
program, a semaphore at its greatest value, and counts of 0, above the ring and above what is delivered. -/
def atEnd (k : Core) : Core := { k with img := some { threadEn := 255, progLen := 64, descBase := 4096 } }
def Stops (op : Nat) (fields : List (Nat × Nat)) (edit : Core → Core := id) : Prop :=
  Issues (on (edit (kOf op fields))) 0 0 op 0 (edit (kOf op fields)) thr (word op fields)
theorem test_hyp_aborts :
    ((base.part 0).taskRunning = true ∧ kget? (on (coreOf 0)).m.cores 0 = some (coreOf 0) ∧ (base.part 0).hasCore 0 = true
        ∧ (base.part 0).hasCore 7 = false)
    ∧ (Stops 0x00 [] atEnd ∧ (atEnd (kOf 0 [])).pcInside (thr.pc + 32) = false)
    ∧ (Stops 0x05 [(32, 2)] ∧ ∀ j : Nat, (j : Int) = thr.pc + 32 * signed 32 (fld (word 0x05 [(32, 2)]) 32 32) → (kOf 0x05 [(32, 2)]).pcInside j = false)
    ∧ (Stops 0x2B [(8, 3), (32, 0x28_0000)] ∧ 0x27_FFFF < (thr.xr 0 + BitVec.ofNat 32 0x28_0000).toNat)
    ∧ (Stops 0x2C [(18, 2), (32, 0x28_0000)] ∧ Stops 0x2C [(18, 2), (32, 95)] ∧ (kOf 0x2C [(18, 2), (32, 95)]).readOnlyAt (95 / 4 * 4) = true
        ∧ (kOf 0x2C [(18, 2), (32, 95)]).clear 0 [{ lo := 95 / 4 * 4, hi := 95 / 4 * 4 + 4, write := true }] = true)
    ∧ (Stops 0x02 [(23, 15)] (sem 15 0xFFFF) ∧ ((sem 15 0xFFFF (kOf 0x02 [(23, 15)])).queued 0).any Span.write = false
        ∧ 0xFFFF ≤ kgetD 0 (sem 15 0xFFFF (kOf 0x02 [(23, 15)])).sems 15)
    ∧ (Stops 0x71 [(8, 3)] (ep 0 { ringPkts := 64 }) ∧ Stops 0x71 [(8, 3), (32, 65)] (ep 0 { ringPkts := 64, count := 64 }))
    ∧ (Stops 0x72 [] (ep 0 { ringPkts := 64 }) ∧ Stops 0x72 [(32, 64)] (ep 0 { ringPkts := 64, count := 63 })) :=
  ⟨⟨by decide, by decide, by decide, by decide⟩, ⟨issues_of (by decide), by decide⟩,
    ⟨issues_of (by decide), fun j h => by
      have h' : j = 96 := by
        have e : (32 : Int) + 32 * signed 32 (fld (word 0x05 [(32, 2)]) 32 32) = 96 := by decide
        have : thr.pc = 32 := rfl
        simp only [this] at h; omega
      subst h'; decide⟩,
    ⟨issues_of (by decide), by decide⟩, ⟨issues_of (by decide), issues_of (by decide), by decide, by decide⟩, ⟨issues_of (by decide), by decide, by decide⟩, ⟨issues_of (by decide), issues_of (by decide)⟩,
    issues_of (by decide), issues_of (by decide)⟩

/-- The code and the state after an abort (R200, R405). -/
theorem test_abort : ((gives (.nop 0 0) (on (atEnd (kOf 0 [])))).part 0).lastCode = 0x0602 ∧ (thrAfter (.nop 0 0) (on (atEnd (kOf 0 [])))).st = .halted := by
  decide

/-- `EngineCommands`: a loaded shadow set, with a scale of 0xFF and without; all five tag bits. -/
def shadowed (scales : List Nat) : Core := { coreOf 0 with eng := { setB := { scales := scales, loaded := true } } }
theorem test_hyp_engine :
    (kget? (on (shadowed [0xFF])).m.cores 0 = some (shadowed [0xFF]) ∧ base.partOfCore 0 = some 0 ∧ (shadowed [0xFF]).eng.lastRowIn = true
        ∧ (shadowed [0xFF]).eng.setB.loaded = true) ∧ (shadowed [127]).eng.setB.loaded = true ∧ (base.part 0).tags < 32 := by decide
theorem test_engine : (coreAfter (.stationarySwap 0) (on (shadowed [127]))).eng.activeB = true
    ∧ ((gives (.stationarySwap 0) (on (shadowed [0xFF]))).part 0).lastCode = 0x0104
    ∧ ((gives (.engTagSummaryClear 0 0x15) { m := { base with parts := [(0, { partOf with tags := 0x1F })] } }).part 0).tags = 0x0A := by decide

/-! ## Resolution, task start, numbers, time, vector and engine instructions -/

/-- `ResolveGoesOn`: slot 0 of a tail window is FREE, slot 1 is in use, its predicted layer has an empty list that is armed, or one
resolved already. -/
def tailWin : Window := { tail := true, nslots := 3, listAddr := 0x1_0000, slots := [(1, { st := .full })] }
def tailOn (resolved : Nat) : State :=
  let k := { coreOf 0 with sram := writeLE [] 0x1_004A 1 resolved, wins := [(0, tailWin)] }
  { m := { base with cores := [(0, k)], str.layers := [(0, [{ predicted := true }])] } }
theorem test_hyp_resolve : (∀ n ∈ [0, 1], let s := tailOn n; let w := s.m.win 0 0
      s.m.partOfCore 0 = some 0 ∧ (s.m.part 0).started = true ∧ (s.m.part 0).taskRunning = true ∧ w.tail = true ∧ (w.slot w.next).st = .free
      ∧ w.seqOut < 256 ∧ (s.m.layer 0 w.layer).predicted = true ∧ (s.m.layer 0 w.layer).predReuse = false
      ∧ (w.slot ((w.next + 1) % max 1 w.nslots)).st ≠ .free ∧ (w.next + 1) % max 1 w.nslots ≠ w.next)
    ∧ resolve ((tailOn 1).m.core 0) 0x1_0000 = .wait ∧ ∃ k, resolve ((tailOn 0).m.core 0) 0x1_0000 = .done k 0 0 :=
  ⟨by decide, by decide, _, rfl⟩

/-- `TaskStart`: a network that is flushed in this slot; threads that wait to start, with every cluster needed ON. -/
def starting (x : Part) : State :=
  { m := { base with net.slot := 1024, parts := [(0, x)], cores := [(0, { coreOf 0 with img := some { threadEn := 1, starts := [32] } })] } }
theorem test_hyp_task_start :
    (let s := starting { partOf with flushing := true };
      (s.m.part 0).flushing = true ∧ (s.m.part 0).flushFrom + max 1024 s.m.net.frameLen ≤ s.m.net.slot)
    ∧ (let s := starting { partOf with started := false, clusterFreq := [1000] };
      (s.m.part 0).taskRunning = true ∧ (s.m.part 0).started = false ∧ (s.m.part 0).flushing = false ∧ (s.m.part 0).resumed = false
      ∧ s.m.neededClusters 0 = [0] ∧ ∀ cl ∈ s.m.neededClusters 0, (s.m.cluster cl).st = .on) := by decide

/-- `ExactAccumulator`: sums at both ends of the range and one beyond them, and a write-back format of each kind. -/
theorem test_hyp_accumulator :
    (2 ^ 127 - 3 : Int) + 1 ≤ 2 ^ 127 - 2 ∧ (2 ^ 127 - 2 : Int) < 2 ^ 127 - 2 + 1 ∧ (-(2 ^ 127 - 2) : Int) - 1 < -(2 ^ 127 - 2)
    ∧ (∀ f ∈ [0, 1, 2, 3], (tmmOf .dense (base.ctx 0 0) (coreOf 0) thr (word 0x10 [(8, f), (16, 6)])).exact = true)
    ∧ (tmmOf .dense (base.ctx 0 0) (coreOf 0) thr (word 0x10 [(16, 6)])).fc = .fp32 := by decide

/-- `TrayTime`: the tray count 5 of a controller's TIME frame, sealed by its CRC, at a module with a place in the loop. -/
def timeFrame (count : Nat) : BitVec 160 :=
  let x := 1 + count * 2 ^ 16
  BitVec.ofNat 160 (x + crc32c (leBytes 16 x) * 2 ^ 128)
def looped : State := { m := { base with sup.side.slot := 1, sup.side.bypass := false } }
theorem test_hyp_tray_time : let x := (timeFrame 5).toNat
    looped.m.mech.standby = true ∧ looped.m.sup.side.bypass = false ∧ crc32c (leBytes 16 x) = fld x 128 32 ∧ fld x 4 4 = 0
    ∧ looped.m.sup.side.slot ≠ 0 ∧ fld x 0 4 = 1 ∧ ({ time := 7 } : FaultRec).time ≤ looped.m.now := by decide
theorem test_tray_time : (gives (.time (timeFrame 5)) looped).sup.side.offset = 5 - 1000000000 := by decide

/-- A tensor descriptor of FP32 rows. -/
def fp32Desc (addr len stride : Nat) : Nat := addr + 6 * 2 ^ 22 + 2 ^ 29 + len * 2 ^ 32 + stride * 2 ^ 64
/-- Core 0 with the descriptor at entry 1. -/
def withDesc (d : Nat) (k : Core) : Core := { k with sram := writeLE k.sram (4096 + 64) 64 d }
/-- One row of 32 FP32 elements, every source X1, with a destination byte. -/
def vecFields (rows dst : Nat) : List (Nat × Nat) := [(8, 6), (12, 6), (24, 193), (32, 193), (40, 193), (48, dst), (56, rows)]

/-- `VectorInstructions`: no row; a carry destination that is not EMPTY, for every instruction of the table; and for an elementwise one and a row
operation, destinations in SRAM, in the carry buffer and in V1, at issue and at the head of the queue; a clash with an earlier write; a queue
with and without room. -/
def busySlot (k : Core) : Core := { k with carry := [(2, { st := .full })] }
/-- What the conditions on an instruction's operands ask, but for its readiness. -/
def vecFree (k : Core) (i : Vec) : Bool := i.rows ≠ 0 && i.inRange && !i.outSpans.any k.writesCode && k.vecQ = [] && k.clear 0 i.spans
theorem test_hyp_vector : ∀ e ∈ vectorTable, Ready e.2.1 (vecFields 0 65)
    ∧ (Ready e.2.1 (vecFields 1 66) busySlot
        ∧ (let k := busySlot (kOf e.2.1 (vecFields 1 66))
           let i := vecOf e.2.2 (base.ctx 0 0) k thr (word e.2.1 (vecFields 1 66))
           vecFree k i = true ∧ i.ready k = false)) := by
  have h0 : ∀ e ∈ vectorTable, goodWord (kOf e.2.1 (vecFields 0 65)) e.2.1 (word e.2.1 (vecFields 0 65)) = true := by decide
  have h1 : ∀ e ∈ vectorTable, goodWord (busySlot (kOf e.2.1 (vecFields 1 66))) e.2.1 (word e.2.1 (vecFields 1 66)) = true
      ∧ (let k := busySlot (kOf e.2.1 (vecFields 1 66))
         let i := vecOf e.2.2 (base.ctx 0 0) k thr (word e.2.1 (vecFields 1 66))
         vecFree k i = true ∧ i.ready k = false) := by decide
  exact fun e he => ⟨ready_of (edit := id) (h0 e he), ready_of (h1 e he).1, (h1 e he).2⟩

/-- The instruction of the tests as it waits in a queue. -/
def waitsAs (w : Nat) : Issued := { thread := 0, pc := 32, word := w, x := thr.x }
theorem waits_view (w : Nat) {k : Core} (h : k.threads = [(0, thr)]) : (waitsAs w).view k = thr := by unfold Issued.view; rw [h]; rfl
theorem units_run (k : Core) : (on k).m.unitsRun 0 = some (0, k) := by
  have hp : (on k).m.partOfCore 0 = some 0 := by
    rw [show (on k).m.partOfCore 0 = base.partOfCore 0 from rfl]; decide
  unfold Module.unitsRun
  rw [show kget? (on k).m.cores 0 = some k from rfl, hp]
  rfl
theorem at_head {k : Core} {u : CUnit} {w op : Nat} (hq : k.queue u = [waitsAs w]) (ho : fld w 0 8 = op) : AtHead (on k) 0 0 op 0 u k (waitsAs w) [] :=
  ⟨units_run k, hq, rfl, ho⟩
theorem test_hyp_vector_writes : ∀ e ∈ [(0x40, VOp.add), (0x60, VOp.rsum)], ∀ dst ∈ [1, 65, 129],
    let w := word e.1 (vecFields 1 dst)
    let k := withDesc (fp32Desc 0x1_0000 256 128) (kOf e.1 (vecFields 1 dst))
    Ready e.1 (vecFields 1 dst) (withDesc (fp32Desc 0x1_0000 256 128))
    ∧ AtHead (on { k with vecQ := [waitsAs w] }) 0 0 e.1 0 .vector { k with vecQ := [waitsAs w] } (waitsAs w) [] ∧ (waitsAs w).view { k with vecQ := [waitsAs w] } = thr
    ∧ (let i := vecOf e.2 (base.ctx 0 0) k thr w
       vecFree k i = true ∧ i.ready k = true ∧ i.dst.kind = dst / 64 ∧ i.badRead k w = none ∧ k.rmwBad (i.puts k thr) = none) := by
  have h : ∀ e ∈ [(0x40, VOp.add), (0x60, VOp.rsum)], ∀ dst ∈ [1, 65, 129],
      goodWord (withDesc (fp32Desc 0x1_0000 256 128) (kOf e.1 (vecFields 1 dst))) e.1 (word e.1 (vecFields 1 dst)) = true
      ∧ fld (word e.1 (vecFields 1 dst)) 0 8 = e.1
      ∧ (let k := withDesc (fp32Desc 0x1_0000 256 128) (kOf e.1 (vecFields 1 dst))
         let w := word e.1 (vecFields 1 dst)
         let i := vecOf e.2 (base.ctx 0 0) k thr w
         vecFree k i = true ∧ i.ready k = true ∧ i.dst.kind = dst / 64 ∧ i.badRead k w = none ∧ k.rmwBad (i.puts k thr) = none) := by decide
  exact fun e he d hd => ⟨ready_of (h e he d hd).1, at_head rfl (h e he d hd).2.1, waits_view _ rfl, (h e he d hd).2.2⟩
theorem test_hyp_vector_queue : let w := word 0x40 (vecFields 1 1)
    let k := withDesc (fp32Desc 0x1_0000 256 128) (kOf 0x40 (vecFields 1 1))
    let i := vecOf .add (base.ctx 0 0) k thr w
    (Ready 0x40 (vecFields 1 1) (fun k => writing 0x1_0000 0x1_0001 (withDesc (fp32Desc 0x1_0000 256 128) k)) ∧ (writing 0x1_0000 0x1_0001 k).clear 0 i.spans = false)
    ∧ (∀ n ∈ [1, 5], ({ k with vecQ := List.replicate n { waitsAs w with thread := 1 } } : Core).vecQ = { waitsAs w with thread := 1 } :: List.replicate (n - 1) { waitsAs w with thread := 1 }
        ∧ ({ k with vecQ := List.replicate n { waitsAs w with thread := 1 } } : Core).clear 0 i.spans = true) := ⟨⟨ready_of (by decide), by decide⟩, by decide⟩

/-- 1.5 + 1.5 = 3.0 in FP32, in each of the 32 lanes (R151). -/
theorem test_vec_add :
    let k := coreOf (word 0x40 (vecFields 1 129))
    let s := on { k with threads := [(0, { thr with x := [(1, 0x3FC0_0000)] })] }
    (thrAfter (.vecAdd 0 0) s).lane 1 0 = 0x4040_0000 ∧ (thrAfter (.vecAdd 0 0) s).lane 1 31 = 0x4040_0000 := by decide


/-- The first 12 bytes of a descriptor of BF16 (format 4) or FP32 (format 6). -/
def descW (addr fmt len stride : Nat) : Nat := addr + fmt * 2 ^ 22 + 2 ^ 29 + len * 2 ^ 32 + stride * 2 ^ 64
/-- Core 0 with A, B, C and the metadata at entries 1 to 4, all of it zero, the tag words of C 128 bytes on; the list region at 0x1_8000 is
resolved and names no block. -/
def tensors (k : Core) : Core :=
  let m := writeLE k.sram (4096 + 64) 12 (descW 0x1_0000 4 128 128)
  let m := writeLE m (4096 + 128) 12 (descW 0x1_1000 4 4096 64)
  let m := writeLE m (4096 + 192) 12 (descW 0x1_4000 6 256 128)
  let m := writeLE m (4096 + 232) 1 128
  let m := writeLE m (4096 + 256) 12 (descW 0x1_5000 4 4096 64)
  { k with sram := writeLE m 0x1_804A 1 1 }
/-- One row of one K-block, or of a span of two, with C in SRAM. -/
def tmmFields (m span : Nat) : List (Nat × Nat) :=
  [(8, 4), (12, 4), (16, 6), (32, m), (48, 1), (54, 1), (78, span), (90, 1), (96, 2), (102, 3), (114, 4), (218, 0x1_8000 / 64)]
/-- S24 and SUB name their metadata where TMM_PG names its list. -/
def tmmMeta (m : Nat) : List (Nat × Nat) :=
  [(8, 4), (12, 4), (16, 6), (32, m), (48, 1), (54, 1), (78, 1), (90, 1), (96, 2), (102, 3), (114, 4), (218, 4)]
def tmmWords (f : TmmForm) (m : Nat) : List (Nat × Nat) := if f = .s24 ∨ f = .sub then tmmMeta m else tmmFields m 0
def goes (i : Tmm) (k : Core) : Bool := match i.batchesGo k (i.mark k) i.batches 0 k.sram [] with | .ok r => (k.rmwBad (r.2.1.flatMap (fun u => u.puts))).isNone | .error _ => false
def tmmFree (k : Core) (i : Tmm) : Bool := i.inRange && !i.outSpans.any k.writesCode && k.engQ = [] && k.clear 0 i.spans

/-- `TmmInstructions`, for each form: M = 0; and M = 1, ready, at issue and at the head of the queue. -/
theorem test_hyp_tmm : ∀ e ∈ tmmTable, Ready e.2.1 (tmmWords e.2.2 0) tensors ∧ Ready e.2.1 (tmmWords e.2.2 1) tensors
    ∧ (let k := tensors (kOf e.2.1 (tmmWords e.2.2 1))
       let w := word e.2.1 (tmmWords e.2.2 1)
       AtHead (on { k with engQ := [waitsAs w] }) 0 0 e.2.1 0 .engine { k with engQ := [waitsAs w] } (waitsAs w) [] ∧ (waitsAs w).view { k with engQ := [waitsAs w] } = thr
       ∧ (let i := tmmOf e.2.2 (base.ctx 0 0) k thr w
          fld w 32 16 = 1 ∧ listPending e.2.2 k w = false ∧ tmmFree k i = true ∧ i.ready k = true ∧ i.badRead k w = none ∧ goes i k = true)) := by
  have h0 : ∀ e ∈ tmmTable, goodWord (tensors (kOf e.2.1 (tmmWords e.2.2 0))) e.2.1 (word e.2.1 (tmmWords e.2.2 0)) = true := by decide
  have h1 : ∀ e ∈ tmmTable, goodWord (tensors (kOf e.2.1 (tmmWords e.2.2 1))) e.2.1 (word e.2.1 (tmmWords e.2.2 1)) = true
      ∧ fld (word e.2.1 (tmmWords e.2.2 1)) 0 8 = e.2.1 := by decide
  have h2 : ∀ e ∈ tmmTable, (let k := tensors (kOf e.2.1 (tmmWords e.2.2 1))
       let w := word e.2.1 (tmmWords e.2.2 1)
       let i := tmmOf e.2.2 (base.ctx 0 0) k thr w
       fld w 32 16 = 1 ∧ listPending e.2.2 k w = false ∧ tmmFree k i = true ∧ i.ready k = true ∧ i.badRead k w = none) := by decide
  have h3 : ∀ e ∈ tmmTable, (let k := tensors (kOf e.2.1 (tmmWords e.2.2 1))
       goes (tmmOf e.2.2 (base.ctx 0 0) k thr (word e.2.1 (tmmWords e.2.2 1))) k = true) := by decide
  exact fun e he => ⟨ready_of (h0 e he), ready_of (h1 e he).1, at_head rfl (h1 e he).2, waits_view _ rfl, (h2 e he).1, (h2 e he).2.1, (h2 e he).2.2.1,
    (h2 e he).2.2.2.1, (h2 e he).2.2.2.2, h3 e he⟩

/-- A TMM whose A operand is a carry tile that has not come; one whose list is not resolved; one that clashes with an earlier write; one
behind another's in a queue with room and without. -/
def carryFields : List (Nat × Nat) := [(8, 4), (12, 4), (16, 6), (22, 1), (32, 1), (48, 1), (54, 1), (96, 2), (102, 3)]
def unarmed (k : Core) : Core := { tensors k with sram := writeLE (tensors k).sram 0x1_804A 1 0 }
def behind (n : Nat) (k : Core) : Core :=
  { tensors k with engQ := List.replicate n { waitsAs (word 0x13 [(32, 1), (218, 0x1_9000 / 64)]) with thread := 1 } }
theorem test_hyp_tmm_waits : (Ready 0x10 carryFields tensors
    ∧ (let k := tensors (kOf 0x10 carryFields)
       let i := tmmOf .dense (base.ctx 0 0) k thr (word 0x10 carryFields)
       tmmFree k i = true ∧ i.ready k = false))
    ∧ (Ready 0x13 (tmmFields 1 0) unarmed ∧ (let k := unarmed (kOf 0x13 (tmmFields 1 0))
       listPending .pg k (word 0x13 (tmmFields 1 0)) = true ∧ tmmFree k (tmmOf .pg (base.ctx 0 0) k thr (word 0x13 (tmmFields 1 0))) = true))
    ∧ (Ready 0x10 (tmmFields 1 0) (fun k => writing 0x1_0000 0x1_0001 (tensors k))
        ∧ (writing 0x1_0000 0x1_0001 (tensors (kOf 0x10 (tmmFields 1 0)))).clear 0
          (tmmOf .dense (base.ctx 0 0) (tensors (kOf 0x10 (tmmFields 1 0))) thr (word 0x10 (tmmFields 1 0))).spans = false) :=
  ⟨⟨ready_of (by decide), by decide⟩, ⟨ready_of (by decide), by decide⟩, ready_of (by decide), by decide⟩
theorem test_hyp_tmm_queue : ∀ n ∈ [1, 8], let k := behind n (kOf 0x10 (tmmFields 1 0))
    Ready 0x10 (tmmFields 1 0) (behind n) ∧ (∃ q qs, k.engQ = q :: qs ∧ q.thread ≠ 0)
    ∧ k.clear 0 (tmmOf .dense (base.ctx 0 0) k thr (word 0x10 (tmmFields 1 0))).spans = true ∧ (on k).m.headWaits 0 .engine = (on k).m := by
  have h : ∀ n ∈ [1, 8], goodWord (behind n (kOf 0x10 (tmmFields 1 0))) 0x10 (word 0x10 (tmmFields 1 0)) = true
      ∧ (behind n (kOf 0x10 (tmmFields 1 0))).clear 0 (tmmOf .dense (base.ctx 0 0) (behind n (kOf 0x10 (tmmFields 1 0))) thr (word 0x10 (tmmFields 1 0))).spans = true
      ∧ listPending .pg (behind n (kOf 0x10 (tmmFields 1 0))) (word 0x13 [(32, 1), (218, 0x1_9000 / 64)]) = true := by decide
  intro n hn k
  refine ⟨ready_of (h n hn).1, ?_, (h n hn).2.1, ?_⟩
  · simp only [List.mem_cons, List.not_mem_nil, or_false] at hn
    rcases hn with rfl | rfl <;> exact ⟨_, _, rfl, by decide⟩
  · unfold Module.headWaits
    rw [units_run]
    have hl := (h n hn).2.2
    simp only [List.mem_cons, List.not_mem_nil, or_false] at hn
    rcases hn with rfl | rfl <;> exact if_pos hl

/-! ## The network and the tiers -/

/-- A router entry that delivers route 9 from the local input to the local output (R211). -/
def loop9 : KMap Nat := [(0, 5 * 2 ^ 12 + 9 * 2 ^ 88)]

/-- `PacketInjected`: one credit and one ready packet, on a route that leads to the core itself. -/
def sendEp : Endpoint := { route := 9, count := 1, credits := 1, ringBase := 0x1_0000, tagBase := 0x1_1000 }
def sender : Core := { coreOf 0 with eps := [(2, sendEp)], sched := loop9 }
theorem test_hyp_inject : (on sender).m.partOfCore 0 = some 0 ∧ (on sender).m.netOpen 0 = true ∧ packetSites (sendEp.pktM1 + 2) ((on sender).m.flitsFromCore 0 sendEp.route) ≠ []
    ∧ 0 < sendEp.count ∧ 0 < sendEp.credits ∧ sender.badAt sendEp.ringBase 64 = none ∧ sender.badAt sendEp.tagBase 4 = none
    ∧ kget? (on sender).m.cores 0 = some sender ∧ kget? sender.eps 2 = some sendEp := by decide
theorem test_inject : ((gives (.packetInject 0 2) (on sender)).net.flights.map (fun f => (f.route, hSeq f.hdr, f.sites))) = [(9, 0, [0])] := by decide

/-- `PacketDelivered`, `CreditsArrive`: the last free buffer of a ring, with the SEQ expected; a credit packet that fills the credits. -/
def flight (route kind len seq tag site : Nat) (payload : List (BitVec 512)) : Flight :=
  { route := route, part := 0, hdr := mkHeader route kind len seq tag, payload := payload, sites := [site] }
def inFlight (k : Core) (f : Flight) : State := { m := { base with cores := [(0, k)], net.flights := [f] } }
def recvEp : Endpoint := { route := 9, recv := true, ringBase := 0x1_0000, tagBase := 0x1_1000, ringPkts := 2, count := 1, nextBuf := 1, expect := 255 }
def receiver : Core := { coreOf 0 with eps := [(2, recvEp)] }
theorem test_hyp_deliver : let f := flight 9 0 0 255 7 0 [0]; let s := inFlight receiver f
    takeFlight 0 9 s.m.net.flights = some (f, []) ∧ s.m.recvEndpoint 0 f.route = some 2 ∧ kget? receiver.eps 2 = some recvEp
    ∧ (s.m.part f.part).flushing = false ∧ s.m.active f.part = true ∧ hKind f.hdr = wireKind recvEp.wire ∧ hKind f.hdr ≠ 3
    ∧ recvEp.wire ≠ .redExact ∧ hSeq f.hdr = recvEp.expect ∧ recvEp.count < recvEp.ringPkts
    ∧ receiver.rmwBad [(2 * (recvEp.tagBase + 4 * recvEp.nextBuf), 32, 0)] = none := by decide
theorem test_deliver : let k := coreAfter (.packetDelivery 0 9 .ok) (inFlight receiver (flight 9 0 0 255 7 0 [0x55]))
    readLE k.sram 0x1_0040 1 = 0x55 ∧ readLE k.sram 0x1_1004 4 = 7 ∧ (kgetD {} k.eps 2).count = 2 ∧ (kgetD {} k.eps 2).expect = 0 := by decide

def creditEp : Endpoint := { route := 9, creditRoute := 12, credits := 1, creditsInit := 65 }
def credited : Core := { coreOf 0 with eps := [(2, creditEp)] }
theorem test_hyp_credit : let f := flight 12 3 63 0 0 0 []; let s := inFlight credited f
    takeFlight 0 12 s.m.net.flights = some (f, []) ∧ hKind f.hdr = 3 ∧ credited.eps.find? (fun q => !q.2.recv && q.2.creditRoute = f.route) = some (2, creditEp)
    ∧ (s.m.part f.part).flushing = false ∧ s.m.active f.part = true ∧ hSeq f.hdr = kgetD 0 credited.expects (16384 + f.route)
    ∧ creditEp.credits + (hLen f.hdr + 1) ≤ creditEp.creditsInit := by decide

/-- `ReductionEmitted`: both inputs hold one packet and one credit is left. -/
def bindOf : Binding :=
  { route := 20, first := 1, second := 2, crFirst := 21, crSecond := 22, credits := 1, qFirst := [(mkHeader 20 1 0 0 0, [0])], qSecond := [(mkHeader 20 1 0 0 0, [0])] }
theorem test_hyp_reduction : let k := { coreOf 0 with binds := [bindOf] }
    kget? (on k).m.cores 0 = some k ∧ k.binds[0]? = some bindOf ∧ 0 < bindOf.credits ∧ (on k).m.netOpen bindOf.part = true
    ∧ bindOf.first ≠ 5 ∧ bindOf.second ≠ 5 := by decide

/-- `WireFaultFails`: a route of a RUNNING partition, and of one whose network is flushed. -/
def routed : State := { m := { base with net.routes := [(9, 0)] } }
theorem test_hyp_wire : routed.m.routeOwner 9 = some 0 ∧ (routed.m.part 0).st ≠ .off ∧ (routed.m.part 0).st ≠ .failed ∧ (routed.m.part 0).flushing = false
    ∧ (let m : Module := { routed.m with parts := [(0, { partOf with flushing := true })] }; m.routeOwner 9 = some 0 ∧ (m.part 0).st ≠ .off ∧ (m.part 0).flushing = true) := by
  decide
theorem test_wire : ((gives (.packetDelivery 0 9 (.badCrc 1)) routed).part 0).st = .failed := by decide

/-- `ReadServed`, `WritesServed`: page 1 is on T1 at its home die, the object of partition 0 has it, and the request is 64 bytes, or 2 MiB that fill
the page. -/
def tiered (f : Flight) (reqs : List TierReq) : State :=
  { m := { base with
      cores := [(0, { coreOf 0 with ports := [(0, { reqRoute := 30, readRoute := 31, doneRoute := 32 })], eps := [(0, { route := 33, creditRoute := 34 })] })]
      net.flights := [f], net.dieCredits := [(31, 1)], tier.objects := [(0, { base := 1, pages := 1 })]
      tier.pages := [(1, { tier := 1 })], tier.reqs := reqs } }
def request (op len : Nat) : Flight := flight 30 4 0 0 0 (ringSite dieOf) [controlFlit (requestMsg op 31 33 5 pageBytes len)]
theorem test_hyp_read : ∀ len ∈ [64, 4096], let f := request 1 len; let s := tiered f []
    dieOf < 64 ∧ takeFlight (ringSite dieOf) 30 s.m.net.flights = some (f, []) ∧ (s.m.part f.part).flushing = false ∧ s.m.netOpen f.part = true
    ∧ hKind f.hdr = 4 ∧ s.m.isRequest f.part f.route = true ∧ hSeq f.hdr = kgetD 0 s.m.net.dieExpect f.route
    ∧ s.m.badRequest f.part dieOf f.msg = false ∧ fld f.msg 0 4 = 1 ∧ fld f.msg 96 56 = pageBytes ∧ fld f.msg 160 22 = len
    ∧ s.m.tier.reqs = [] ∧ (s.m.page 1).tier = 1 ∧ (s.m.t1Found []).badIn pageBytes len = none ∧ (s.m.load? pageBytes len).isSome = true ∧ 0 < kgetD 0 s.m.net.dieCredits (fld f.msg 16 14) := by decide
theorem test_hyp_write : let f := request 2 2_097_152; let s := tiered f []
    takeFlight (ringSite dieOf) 30 s.m.net.flights = some (f, []) ∧ hKind f.hdr = 4 ∧ s.m.isRequest f.part f.route = true
    ∧ (s.m.part f.part).flushing = false ∧ s.m.netOpen f.part = true ∧ hSeq f.hdr = kgetD 0 s.m.net.dieExpect f.route ∧ s.m.tier.reqs = []
    ∧ s.m.badRequest f.part dieOf f.msg = false ∧ fld f.msg 0 4 = 2 ∧ (s.m.page 1).tier = 1 ∧ (s.m.page 1).move = none ∧ (s.m.page 1).pending = false := by
  decide
/-- The last packet of its data: 64 bytes at the end of the request. -/
def waitingReq : TierReq :=
  { id := 1, die := dieOf, route := 30, write := true, reply := 32, data := 33, addr := pageBytes, len := 128, phase := .moving, pos := 64 }
theorem test_hyp_write_data : let f := flight 33 0 0 0 0 (ringSite dieOf) [0]; let s := tiered f [waitingReq]
    dieOf ≠ svcS ∧ takeFlight (ringSite dieOf) 33 s.m.net.flights = some (f, []) ∧ hKind f.hdr = 0 ∧ hSeq f.hdr = kgetD 0 s.m.net.dieExpect f.route
    ∧ s.m.gradRouteAt f.part dieOf f.route = none ∧ s.m.tier.reqs = [] ++ waitingReq :: [] ∧ waitingReq.pos < waitingReq.len
    ∧ s.m.cores.findSome? (fun e => (e.2.eps.find? (fun q => !q.2.recv && q.2.route = f.route)).map (fun q => q.2.creditRoute)) = some 34
    ∧ (s.m.page (waitingReq.addr / pageBytes)).tier = 1 ∧ (waitingReq.addr + waitingReq.pos) / pageBytes = waitingReq.addr / pageBytes := by decide
theorem test_hyp_write_done : let f := flight 32 4 0 0 0 0 [0]; let s := tiered f []; let k := s.m.core 0
    takeFlight 0 32 s.m.net.flights = some (f, []) ∧ hKind f.hdr = 4 ∧ s.m.recvEndpoint 0 f.route = none
    ∧ s.m.winsAt 0 (fun w => w.dataRoute = f.route) = [] ∧ s.m.winsAt 0 (fun w => w.pullIn = f.route) = [] ∧ s.m.donePort 0 f.route = some 0
    ∧ hSeq f.hdr = kgetD 0 k.expects f.route := by decide

/-- `EpochsAndMoves`: an epoch that is over at its home die; a move with a written tile to copy, between T1 and T2; and one with none left. -/
def moving (v : Move) (written : Nat) : State :=
  { m := { base with
      que.cxl.up := true, que.cxl.busMaster := true, tier.objects := [(0, { base := 1, pages := 1 })]
      tier.pages := [(1, { tier := 2, written := written, move := some v })] } }
theorem test_hyp_moves :
    (dieOf ∈ base.homes ∧ base.usPassed (kgetD 0 base.tier.epochAt dieOf) (fld (base.mig dieOf) 32 16) = true)
    ∧ (let s := moving { dest := 1, next := 31 } (2 ^ 31)
      (s.m.page 1).move = some { dest := 1, next := 31 } ∧ (s.m.page 1).tier ≠ 3 ∧
      (List.range 32).find? (fun t => 31 ≤ t && bitAt (s.m.page 1).written t) = some 31 ∧ (s.m.t1Found []).badIn (slotAddr 1 31) tileBytes = none
      ∧ s.m.hostUp = true)
    ∧ (let s := moving { dest := 1, next := 32 } (2 ^ 31)
      s.m.objAt 1 = some (4096 * 0 + 0, { base := 1, pages := 1 }) ∧ ∀ t, t < 32 → 32 ≤ t → bitAt (s.m.page 1).written t = false) := by decide
theorem test_move : let m := gives (.moveComplete 1) (moving { dest := 1, next := 32 } (2 ^ 31))
    (m.page 1).tier = 1 ∧ (m.page 1).move = none ∧ (m.part 0).promos = 1 := by decide

/-- `TierUpkeep`: a soft word; the last line of T0 but one; a stack of a home die; a location whose self-test is due. -/
def upkeep : State := { m := { base with cores := [(0, { coreOf 0 with softWords := [7], scrubNext := 40958 })] } }
def tested (l : EccLoc) : State := { m := { base with tier.tests := [(base.eccPlace l).1] } }
theorem test_hyp_upkeep :
    (7 ∈ (upkeep.m.core 0).softWords ∧ upkeep.m.serving = true ∧ upkeep.m.powered 0 = true ∧ 81917 / 2 = (upkeep.m.core 0).scrubNext
        ∧ (upkeep.m.core 0).scrubNext + 1 < 40960)
    ∧ (base.stackUp 0 = true ∧ 0 = kgetD 0 base.tier.t1At 0 ∧ (0 : Nat) + 1 < 3 * 2 ^ 30)
    ∧ (∀ l ∈ [EccLoc.t0 0 7 3], ((tested l).m.eccPlace l).1 ∈ (tested l).m.tier.tests) := by decide

/-! ## Streams, the pool, windows, frames, chunks and herds -/

/-- A flow of one feeder and one member, with key 0, and a stage of four tiles. -/
def flow0 : Flow := { stream := 77, portDie := 3, count := 1, stageTiles := 4, feeders := [dieOf], fed := [(0, dieOf)] }
def streamOn (f : Flow) : State := { m := { base with str.flows := [(0, f)], str.layers := [(0, [{ shardUnits := 16 }])] } }
/-- A PULL sent, and last answered, so many sk before the present. -/
def pullAgo (n : Nat) : Pull := { key := 0, unit := 0, count := 16, at_ := 1000000000 - n, last := 1000000000 - n }

/-- `StreamTimers`: a stage with room; a PULL of 5 ms; a source silent for SRC_MS, its parent for 20 ms; a child silent for 20 ms and for ADOPT_HOLD. -/
theorem test_hyp_stream_timers :
    (let s := streamOn flow0;
      kget? s.m.str.flows (256 * 0 + 0) = some flow0 ∧ flow0.ret = false ∧ flow0.resident = false ∧ 0 < flow0.feeders.length ∧ (s.m.part 0).taskRunning = true
      ∧ (s.m.part 0).krf.phase ≠ .dumping ∧ flow0.pos % 16 = 0 ∧ kget? flow0.sects flow0.pos = none
      ∧ 0 < min (16 * flow0.freeTiles 0) (flow0.sectionUnits (s.m.layer 0 (flow0.layerNo 0)) 0))
    ∧ base.msPassed (max (pullAgo (5 * skMs)).at_ (pullAgo (5 * skMs)).last) 5 = true
    ∧ (let s := streamOn { flow0 with pulls := [pullAgo (50 * skMs)] }
      (s.m.flow 0).tine = false ∧ (s.m.flow 0).pulls.any (fun x => s.m.msPassed x.last (fld s.m.str.timeouts 0 16)) = true)
    ∧ (let s := streamOn { flow0 with tine := true, pulls := [pullAgo (20 * skMs)] }
      (s.m.flow 0).reparented = false ∧ (s.m.flow 0).pulls.any (fun x => s.m.msPassed x.last 20) = true)
    ∧ (base.msPassed (1000000000 - 20 * skMs) 20 = true ∧ base.msPassed (1000000000 - 100 * skMs) (fld base.str.timeouts 16 16) = true) := by decide

/-- `PspMessages`: a header with a wrong CRC; a PULL of an unknown stream and a child's PULL of a whole section; STATUS; GRAD_ACK; a GRAD unanswered
for SRC_MS. -/
def resident : Flow := { flow0 with resident := true, children := [{ mac := 5 }] }
def graded : Flow := { ret := true, stream := 77, grads := [{ layer := 2, unit := 0, count := 16, at_ := 1000000000 - 50 * skMs }] }
def psp (type sect unit count status : Nat) : List Byte := pspHeader type true 77 0 sect unit count status 0 ++ [0, 0, 0, 0]
theorem test_hyp_psp :
    pspOk (List.replicate 36 0) = false
    ∧ (let s := streamOn resident
       let h := leNat ((psp 1 0 0 16 0).take 32)
       pspOk (psp 1 0 0 16 0) = true ∧ pspType (psp 1 0 0 16 0) = 1 ∧ s.m.servedStream ≠ some (fld h 32 32) ∧ ({} : Module).flowOf 77 false = none
       ∧ s.m.flowOf (fld h 32 32) false = some 0
       ∧ (List.range resident.count).find? (fun i => (s.m.layer (0 / 256) (resident.first + i)).src = fld h 64 16) = some 0
       ∧ fld h 80 4 < resident.feeders.length ∧ 0 < fld h 128 32 ∧ fld h 96 32 % 16 = 0
       ∧ fld h 96 32 + fld h 128 32 = resident.sectionUnits (s.m.layer 0 0) 0 ∧ resident.children.find? (fun c => c.mac = 5) = some { mac := 5 }
       ∧ kget? resident.sects (s.m.childKey 0 resident { mac := 5 } 0 0) = none)
    ∧ (let f := { flow0 with pulls := [pullAgo 0] }
       let s := streamOn f
       pspType (psp 3 0 15 1 1) = 3 ∧ s.m.launching = false ∧ s.m.flowOf 77 false = some 0 ∧ fld (leNat ((psp 3 0 15 1 1).take 32)) 160 16 ≠ 0
       ∧ fld (leNat ((psp 3 0 15 1 0).take 32)) 160 16 = 0 ∧ f.pulls.any (s.m.pullNames 0 f 0 0 15) = true)
    ∧ (let s := streamOn graded
       let h := leNat ((pspHeader 9 true 77 2 0 0 16 0 0).take 32)
       fld h 8 8 = 9 ∧ s.m.flowOf 77 true = some 0
       ∧ ((graded.grads.filter (fun g => g.layer = fld h 64 16)).map (fun g => g.shared (fld h 96 32) (fld h 128 32))).foldl (· + ·) 0 = 16
       ∧ ((graded.grads.filter (fun g => g.layer = 3)).map (fun g => g.shared 0 16)).foldl (· + ·) 0 = 0 ∧ (s.m.flowOf 77 false).isNone = true
       ∧ graded.grads.any (fun g => s.m.msPassed g.at_ (fld s.m.str.timeouts 0 16)) = true) := by decide

/-- A tile that travels raw has its header and its bytes as its parts, and reads as those bytes. -/
theorem raw_parts (pad bs : List Byte) (h64 : pad.length = 64) (hl : bs.length = tileBytes) (hb : bodyLenOf pad = tileBytes) :
    transitParts (pad ++ bs) = some (pad.take 32, bs) := by
  have e32 : (pad ++ bs).take 32 = pad.take 32 := List.take_append_of_le_length (by omega)
  have eb : bodyLenOf (pad ++ bs) = tileBytes := by
    refine Eq.trans ?_ hb
    unfold bodyLenOf; rw [e32]
  have el : (pad ++ bs).length = 64 + 65536 := by rw [List.length_append, h64, hl]; rfl
  have es : slice (pad ++ bs) 64 tileBytes = bs := by
    unfold slice
    rw [List.drop_append_of_le_length (by omega), List.drop_of_length_le (by omega), List.nil_append, List.take_of_length_le (by omega)]
  unfold transitParts
  dsimp only
  rw [eb, el, e32, es, if_neg (by decide)]
theorem raw_reads {width object page tile : Nat} (pad bs : List Byte) (h64 : pad.length = 64) (hl : bs.length = tileBytes)
    (hh : headerOk width object page tile (pad.take 32) = true) (hb : bodyLenOf (pad.take 32) = tileBytes) (hb' : bodyLenOf pad = tileBytes) :
    readTransit width object page tile (pad ++ bs) = some (bs, true) := by
  unfold readTransit
  rw [raw_parts pad bs h64 hl hb']
  dsimp only
  rw [hh, hb]; rfl

/-- `DataStored`: the one tile that the one outstanding PULL names, raw or with a header of another object; its place in the stage is the first tile
of page 1. -/
def zeros : List Byte := List.replicate tileBytes 0
def tileMsg (object : Nat) : List Byte := padTo 64 0 (tileHeader tileBytes 0 object 0 0) ++ zeros
def dataOf (object : Nat) : Chunk := { upper := pspHeader 2 true 77 0 0 0 16 0 0, payload := tileMsg object }
def staged : Flow := { flow0 with resident := true, pulls := [pullAgo 0], sects := [(0, { units := 16 })] }
def stagedOn (f : Flow) : State :=
  { m := { (streamOn f).m with tier.objects := [(0, { base := 0, pages := 64 })], tier.pages := [(1, { tier := 1 })] } }
theorem test_hyp_data :
    (let h := leNat ((dataOf 0xFFFF).upper.take 32);
     let s := stagedOn staged
     pspOk (dataOf 0xFFFF).upper = true ∧ leAt (dataOf 0xFFFF).upper 1 1 = 2 ∧ s.m.launching = false ∧ fld h 160 16 = 0
     ∧ s.m.flowOf (fld h 32 32) false = some 0 ∧ 0 < fld h 128 32 ∧ fld h 96 32 % 16 = 0 ∧ fld h 128 32 % 16 = 0 ∧ 16 * 0 < fld h 128 32
     ∧ s.m.pullNames 0 staged (fld h 64 16) (fld h 80 4) (fld h 96 32) (pullAgo 0) = true
     ∧ (let a := s.m.stageAddr 0 staged (staged.feeder 0) 0
        a / pageBytes = 1 ∧ (s.m.objAt (a / pageBytes)).isSome = true ∧ (s.m.page (a / pageBytes)).tier = 1)
     ∧ (s.m.layer 0 (staged.layerNo 0)).width = 0 ∧ kget? staged.sects 0 = some { units := 16 } ∧ staged.children = [] ∧ s.m.str.winPulls = []
     ∧ (s.m.page 1).pending = false ∧ (s.m.page 1).move = none)
    ∧ readTransit 0 0xFFFF 0 0 (dataOf 0xFFFF).payload = some (zeros, true)
    ∧ readTransit 0 0xFFFF 0 0 ((dataOf 0xFFFF).payload.drop 1) = none
    ∧ flow0.pulls = [] ∧ flow0.forgot = [] ∧ flow0.sects = [] := by
  refine ⟨by decide, raw_reads _ _ (by decide) List.length_replicate (by decide) (by decide) (by decide), ?_, rfl, rfl, rfl⟩
  unfold readTransit transitParts
  dsimp only
  rw [if_pos]
  have : ((dataOf 0xFFFF).payload.drop 1).length = 65599 := by
    simp only [dataOf, tileMsg, List.length_drop, List.length_append, zeros, List.length_replicate]
    rw [show (padTo 64 (0 : Byte) (tileHeader tileBytes 0 0xFFFF 0 0)).length = 64 by decide]; rfl
  simp only [this, Bool.or_eq_true, decide_eq_true_eq]
  right
  simp only [ceilDiv]
  omega

/-- `PoolAnswers`: a POOL_ACK with STATUS 0 and 1; the tile of a move to T1; a transfer of 10 ms. -/
def poolOp (at_ : Nat) : PoolOp := { id := 4, port := 6, addr := 0, owner := .move 1, at_ := some at_ }
def pooled (op : PoolOp) : State :=
  { m := { base with
      str.poolReads := [op], str.poolWrites := [op], tier.objects := [(0, { base := 1, pages := 1 })]
      tier.pages := [(1, { tier := 3, pool := some 0, move := some { dest := 1, open_ := 1 } })] } }
def poolData : Chunk := { port := 6, upper := pspHeader 5 true 0 0 0 0 0 0 0, payload := tileMsg 0 }
theorem test_hyp_pool : let s := pooled (poolOp 0)
    (s.m.page 1).move = some { dest := 1, open_ := 1 } ∧ s.m.str.poolWrites.find? (fun o => o.port = 6) = some (poolOp 0)
    ∧ (∀ st ∈ [0, 1], let msg := pspHeader 7 true 0 0 0 0 0 st 0; pspOk msg = true ∧ leAt msg 1 1 = 7 ∧ leAt msg 20 2 = st)
    ∧ pspOk poolData.upper = true ∧ leAt poolData.upper 1 1 = 5 ∧ s.m.str.poolReads.find? (fun o => o.port = 6) = some (poolOp 0)
    ∧ fld (leNat (poolData.upper.take 32)) 160 16 = 0 ∧ s.m.placeOfPool (poolOp 0).addr = some (1, 0)
    ∧ s.m.objAt 1 = some (0, { base := 1, pages := 1 }) ∧ readTransit 0 0 0 0 poolData.payload = some (zeros, true)
    ∧ transitParts poolData.payload = some ((padTo 64 0 (tileHeader tileBytes 0 0 0 0)).take 32, zeros) ∧ transitParts ([] : List Byte) = none
    ∧ s.m.str.poolReads.find? (s.m.poolLate 6) = some (poolOp 0) := by
  refine ⟨by decide, by decide, by decide, by decide, by decide, by decide, by decide, by decide, by decide, ?_,
    raw_parts _ _ (by decide) List.length_replicate (by decide), by decide, by decide⟩
  exact raw_reads _ zeros (by decide) List.length_replicate (by decide) (by decide) (by decide)

/-- `WindowTraffic`: a unit for the slot of the earliest pull with units to come, one of two, the last, and the veneer's last; a SWITCH; a feeder
that pulls for its member, and a MISS that meets its pull, precedes it, or is answered or discarded; a deadline of 1 µs that has passed. -/
def windowOf (x : WinSlot) (fl : Fill) : Window := { dataRoute := 40, slotUnits := 2, slots := [(2, x)], oldest := 2, fills := [fl] }
def arriving (x : WinSlot) (fl : Fill) (f : Flight) : State :=
  { m := { base with cores := [(0, { coreOf 0 with wins := [(0, windowOf x fl)] })], net.flights := [f] } }
def fillOf (got : Nat) (veneer : Bool) : Fill := { slot := 2, units := 2, got := got, veneer := veneer }
def switchF : Flight := flight 40 4 0 0 0 0 [controlFlit (winMsg 3 2 0 0 1 true [] false)]
theorem test_hyp_units :
    (∀ e ∈ [(fillOf 0 false, false), (fillOf 1 false, false), (fillOf 1 true, true)], let x : WinSlot := { st := .pulled, units := 2, arrived := e.1.got }
      let f := flight 40 0 0 0 0 0 [0]; let s := arriving x e.1 f
      takeFlight 0 40 s.m.net.flights = some (f, []) ∧ s.m.recvEndpoint 0 f.route = none ∧ s.m.winsAt 0 (fun w => w.dataRoute = f.route) = [0]
      ∧ (s.m.part f.part).flushing = false ∧ s.m.active f.part = true ∧ s.m.partOfCore 0 = some 0
      ∧ hSeq f.hdr = kgetD 0 (s.m.core 0).expects f.route ∧ hKind f.hdr = 0 ∧ (windowOf x e.1).fills = [e.1]
      ∧ (x.ofFill e.1 && (settleSlot x { e.1 with got := e.1.got + 1 }).st = .veneer) = e.2)
    ∧ hKind switchF.hdr = 4 ∧ winMsgOk switchF.msg = true ∧ fld switchF.msg 0 4 = 3 ∧ fld switchF.msg 4 4 = 2
    ∧ takeFlight 0 40 [switchF] = some (switchF, []) := by decide
def feeding : Flow := { flow0 with resident := true, dataRoute := [(0, 40)], pullRoute := [(41, 0)] }
def pullF (op : Nat) : Flight := flight 41 4 0 0 0 (ringSite dieOf) [controlFlit (winMsg op 2 0 0 2 true [] false)]
def pullOn (op up : Nat) (w : List WinPull) : State :=
  { m := { (streamOn { feeding with pulledTo := [(0, up)] }).m with net.flights := [pullF op], str.winPulls := w } }
theorem test_hyp_pulls : (∀ op ∈ [1, 2], let f := pullF op; let s := pullOn op 0 []
    dieOf < 64 ∧ takeFlight (ringSite dieOf) 41 s.m.net.flights = some (f, []) ∧ (s.m.part 0).flushing = false ∧ s.m.netOpen 0 = true
    ∧ (s.m.part 0).taskRunning = true ∧ hKind f.hdr = 4 ∧ s.m.isRequest 0 f.route = false ∧ hSeq f.hdr = kgetD 0 s.m.net.dieExpect f.route
    ∧ s.m.pullRouteAt 0 dieOf f.route = some (0, 0) ∧ winMsgOk f.msg = true ∧ feeding.resident = true ∧ fld f.msg 0 4 = op ∧ seqOf feeding f.msg = 0
    ∧ s.m.str.winPulls = [] ∧ (s.m.layer 0 (fld f.msg 8 16)).predicted = false ∧ bitAt f.msg 71 = false ∧ 0 < fld f.msg 56 10 ∧ feeding.sects = []
    ∧ feeding.misses = [] ∧ 0 ∈ feeding.membersOf dieOf ∧ (s.m.part 0).bypass = false)
    ∧ (∀ v, ∀ w : WinPull, w = { flow := 0, feeder := dieOf, member := 0, slot := 2, layer := 0, seqNo := 0, units := 2, veneer := v } →
        (pullOn 2 1 [w]).m.str.winPulls.find? (fun w => w.flow = 0 && w.member = 0 && w.seqNo = 0) = some w ∧ w.veneer = v ∧ w.slot = fld (pullF 2).msg 4 4)
    ∧ (∀ up ∈ [1, 3], up ≤ 0 + (pullOn 2 up []).m.slotsOf 0 0) ∧ 0 + (pullOn 2 4 []).m.slotsOf 0 0 < 4 := by
  refine ⟨by decide, fun v w h => ?_, by decide, by decide⟩
  subst h; exact ⟨rfl, rfl, show 2 = fld (pullF 2).msg 4 4 by decide⟩
def lateOn : State :=
  { m := { base with
      parts := [(0, { partOf with layerClass := [1] })]
      cores := [(0, { coreOf 0 with wins := [(0, windowOf { st := .pulled, timer := some (1000000000 - 13) } (fillOf 0 false))] })] } }
theorem test_hyp_deadline : kget? lateOn.m.cores 0 = some (lateOn.m.core 0) ∧ lateOn.m.partOfCore 0 = some 0
    ∧ ((lateOn.m.win 0 0).slot 2).timer = some (1000000000 - 13) ∧ ((lateOn.m.win 0 0).slot 2).st = .pulled
    ∧ (lateOn.m.part 0).deadline (lateOn.m.layer 0 0).cls = 1 ∧ lateOn.m.usPassed (1000000000 - 13) 1 = true
    ∧ base.usPassed (1000000000 - 12) 1 = false := by decide

/-- `FramesAndLinks`: frames of each fate at port 47, with bodies of each kind. -/
def linked : State := { m := { base with fab.macBase := 0x0200_0000_0000, fab.vlan := 5, fab.ports := [(47, { up := true })] } }
def frameOf (etype : Nat) (body : List Byte) : List Byte := linked.m.frame 47 (linked.m.portMac 47) etype 0 body
def answerMsg (kind retry : Nat) : List Byte := sealedBytes 64 (0xC2 + put 8 8 kind + put 32 32 7 + put 128 3 retry)
def bodyOf (frame : List Byte) : List Byte := slice frame 16 (frame.length - 20)
theorem test_hyp_frames :
    linked.m.frameFate 47 (frameOf 0x88B5 [0xC1] ++ [0]) = .fcs ∧ linked.m.frameFate 47 (frameOf 0x88B7 [0xC1]) = .discard
    ∧ linked.m.frameFate 47 (frameOf 0x8808 [0xC1]) = .pause ∧ linked.m.frameFate 47 (frameOf 0x88B5 [0xC1]) = .accept
    ∧ leAt ((bodyOf (frameOf 0x88B5 [0xC1])).drop 2) 0 1 = 0xC1
    ∧ (∀ kind ∈ [1, 2, 3], let b := (bodyOf (frameOf 0x88B5 (answerMsg kind 0))).drop 2
        linked.m.frameFate 47 (frameOf 0x88B5 (answerMsg kind 0)) = .accept ∧ leAt b 0 1 = 0xC2 ∧ sealOk 64 (b.take 64) = true ∧ leAt (b.take 64) 1 1 = kind)
    ∧ (∀ type ∈ [1, 3, 7, 9], let msg := bodyOf (frameOf 0x88B5 (psp type 0 0 16 0))
        linked.m.frameFate 47 (frameOf 0x88B5 (psp type 0 0 16 0)) = .accept ∧ leAt (msg.drop 2) 0 1 = 1 ∧ beNat (msg.take 2) = linked.m.str.ethertype
        ∧ pspOk (msg.drop 2) = true ∧ leAt (msg.drop 2) 1 1 = type) := by decide
theorem test_hyp_links : linked.m.portPresent 47 = true ∧ linked.m.transmitOn = true ∧ State.reset.m.transmitOn = false ∧ (linked.m.port 47).vc0Wait = [] ∧ linked.m.usPassed (linked.m.port 47).vc0From 10 = true := by decide

/-- `Chunks`: the only segment of a chunk of 64 bytes, with its CRC-64 and without it, and the first of two; the chunk that waits at GAP_TIMEOUT; answers
to a chunk sent twice, of its present transmission and of an earlier one. -/
def chunkOf (payload : List Byte) : SentChunk :=
  { port := 47, mac := 0x55, etype := 0x88B5, vc := 1, chan := 7, msg := 0, chunk := 0, last := true, aux := 0, upper := [], payload := payload, owner := .grad 0 0 }
def segMsg (hdr data : List Byte) : List Byte := [0x88, 0xB5] ++ hdr ++ data
def oneSeg : List Byte := segMsg (chunkHeader (chunkOf (List.replicate 64 1)) 0) (List.replicate 64 1)
def badSeg : List Byte := segMsg (chunkHeader (chunkOf (List.replicate 64 1)) 0) (List.replicate 64 2)
def halfSeg : List Byte := segMsg (sealedBytes 96 (0xC1 + put 11 3 1 + put 32 32 7 + put 128 17 8512)) (List.replicate 64 1)
def partialOf (msg : List Byte) : Partial := (segmentOf 0x55 0x88B5 base.now (msg.drop 2)).1
theorem test_hyp_segments :
    (∀ msg ∈ [oneSeg, badSeg, halfSeg], beNat (msg.take 2) = base.str.ethertype ∧ leAt msg 2 1 = 0xC1 ∧ sealOk 96 (msg.drop 2) = true)
    ∧ (List.range (partialOf halfSeg).nsegs).all (fun i => (kget? (partialOf halfSeg).segs i).isSome) = false
    ∧ (∀ msg ∈ [oneSeg, badSeg], (List.range (partialOf msg).nsegs).all (fun i => (kget? (partialOf msg).segs i).isSome) = true ∧ (partialOf msg).retry ≠ 4
      ∧ (partialOf msg).key ∉ base.fab.accepted)
    ∧ crc64 ((partialOf badSeg).toChunk 47).payload ≠ fld (leNat ((partialOf badSeg).hdr.take 96)) 192 64
    ∧ crc64 ((partialOf oneSeg).toChunk 47).payload = fld (leNat ((partialOf oneSeg).hdr.take 96)) 192 64
    ∧ ({ base with fab.accepted := [(partialOf oneSeg).key] } : Module).fab.accepted = [(partialOf oneSeg).key]
    ∧ base.fab.partials = [] ∧ base.usPassed (1000000000 - 125) base.gapUs = true ∧ base.usOver (1000000000 - 125) base.gapUs = false
    ∧ (let q := partialOf halfSeg; [(47, q)].find? (fun e => e.1 = 47 && e.2.key = q.key) = some (47, q) ∧ base.usPassed q.at_ base.gapUs = false) := by decide
def sentOn (c : SentChunk) : State := { m := { base with fab.sent := [c] } }
theorem test_hyp_answers :
    (∀ kind ∈ [1, 2, 3], ∀ r ∈ [0, 1], let c := { chunkOf [] with retry := 1 }
      (sentOn c).m.fab.sent[0]? = some c ∧ (sentOn c).m.answered 0x55 kind ([0x88, 0xB5] ++ answerMsg kind r) = some (0, c, r))
    ∧ (0 < ({ chunkOf [] with retry := 1 } : SentChunk).retry ∧ ({ chunkOf [] with retry := 1 } : SentChunk).retry ≤ 1
        ∧ ({ chunkOf [] with retry := 3 } : SentChunk).retry < 4)
    ∧ (chunkOf []).waiting = false ∧ ({ chunkOf [] with waiting := true } : SentChunk).waiting = true ∧ (chunkOf []).owner = .grad 0 0
    ∧ base.usPassed (1000000000 - 250) base.ackUs = true := by decide

/-- `HerdCommands`: HERD_RUN at its start; a chunk whose 1 ms deadline is over, but not at 1 ms itself (R376), with one input lacking; a result late for the third time in a row,
and not; LOST from the leader of a member, and HERD_ABORT. -/
def herdOf0 : Herd := { id := 9, stages := [{ self := 0, leader := 1, macs := [0xA0, 0xA1] }], deadlineUs := 1000 }
def descQ (x : Nat) : Queue :=
  { st := .active, cfg := 4 + 4 * 256, desc := some (BitVec.ofNat 512 x), passed := true }
def herdRunOn : State :=
  { m := { base with herds := [(0, herdOf0)], que.queues := [(0, descQ 0x20)] } }
def herdOn (h : Herd) (r : HerdOp) : State := { m := { base with herds := [(0, { h with run := some r })] } }
def lateOp : HerdOp := { chunks := 1, stages := [(1, { ins := [(0, { tiles := [(0, ([], 0))], first := some (1000000000 - 12501) })] })] }
def ledHerd : Herd := { herdOf0 with stages := [{ self := 0, leader := 0, macs := [0xA0, 0xA1] }] }
theorem test_hyp_herds :
    (herdRunOn.m.atStart 0 0x20 = true ∧ (herdRunOn.m.part 0).st = .running ∧ (herdRunOn.m.part 0).taskRunning = true ∧ herdOf0.run = none
      ∧ herdRunOn.m.herd (4096 * 0 + (herdRunOn.m.queue 0).param 0 12) = herdOf0)
    ∧ (let s := herdOn ledHerd lateOp
       let h := s.m.herd 0
       h.run = some lateOp ∧ kget? (lateOp.at_ 1).ins 0 = some { tiles := [(0, ([], 0))], first := some (1000000000 - 12501) } ∧ h.leads 1 = true
       ∧ s.m.usOver (1000000000 - 12501) (h.deadlineUs * (2 * 1 - 1)) = true ∧ s.m.usOver (1000000000 - 12500) (h.deadlineUs * (2 * 1 - 1)) = false
       ∧ (h.included 1).filter (fun j => decide (j ≠ 0)) = [1] ∧ threeMisses [0] 0 = false)
    ∧ (base.usPassed (1000000000 - 50000) (4 * herdOf0.top * herdOf0.deadlineUs) = true ∧ threeMisses [0, 1, 2] 2 = true ∧ threeMisses [1, 2] 2 = false)
    ∧ (let s := herdOn herdOf0 {}
       let lost := sealedBytes 64 (0x01 + put 8 8 2 + put 32 32 9 + put 96 3 1 + put 112 10 0)
       let abort := sealedBytes 64 (0x01 + put 8 8 1 + put 32 32 9 + put 96 3 1 + put 112 10 1)
       badHerdMsg [] 1 = true ∧ badHerdMsg [] 2 = true ∧ base.herdMsg 0xA1 lost = none ∧ base.herdMsg 0xA1 abort = none ∧
       s.m.herdMsg 0xA1 lost = some (0, 1, 0, 0) ∧ badHerdMsg lost 2 = false ∧ (s.m.herd 0).stage 1 = { self := 0, leader := 1, macs := [0xA0, 0xA1] }
       ∧ s.m.herdMsg 0xA1 abort = some (0, 1, 1, 0) ∧ badHerdMsg abort 1 = false ∧ (s.m.part 0).taskRunning = true ∧ (s.m.herd 0).reform = false
       ∧ (1, 1) ∉ (s.m.herd 0).lost) := by decide

/-! ## The host link, queues, tasks, sessions and batches -/

def cxlOn (up : Bool) : Module := { base with que.cxl := { up := up, busMaster := up, failoverEn := true, downAt := 1000000000 - 10 * skMs } }

/-- `HostLinkEvents`: the link up, and down for 10 ms; a copy that runs; a queue with a completion written and one without; a jig that stages from
the host. -/
theorem test_hyp_link :
    (cxlOn true).que.cxl.up = true ∧ (cxlOn false).que.cxl.up = false ∧ (cxlOn false).sys.st ≠ .cold ∧ (cxlOn false).sys.st ≠ .recovery
    ∧ (cxlOn false).sys.st ≠ .bringup ∧ (cxlOn false).que.cxl.failoverEn = true ∧ (cxlOn false).msPassed (cxlOn false).que.cxl.downAt 10 = true
    ∧ (cxlOn false).sys.svcFailed.contains svcS = false
    ∧ (∀ op ∈ [0x10, 0x11], ({ descQ op with running := true } : Queue).op = op ∧ ({ descQ op with running := true } : Queue).desc.isSome = true)
    ∧ ({ descQ 0 with written := some (0, []) } : Queue).written.isSome = true ∧ (descQ 0).written = none := by decide
theorem test_failover : let m := gives (.failover true 8 5) { m := cxlOn false }
    m.que.cxl.posB = true ∧ m.que.cxl.failovers = 1 ∧ m.que.cxl.busMaster = false ∧ m.que.cxl.up = true := by decide

/-- `QueueControl`: ENABLE with the smallest and the largest rings and one beyond; DISABLE with and without a running command; doorbells below
the ring's size and at it; a STOPPED queue; a Terourn ring. -/
def queueOn (y : Queue) : State := { m := { cxlOn true with sup.lease := .held, que.queues := [(0, y)] } }
theorem test_hyp_queue_control :
    (∀ n ∈ [4, 16], (queueOn { cfg := n + n * 256 }).m.cfgOk .host = true ∧ (queueOn { cfg := n + n * 256 }).m.enableOk 0 = true)
    ∧ (∀ n ∈ [3, 17], (queueOn { cfg := n + n * 256 }).m.enableOk 0 = false)
    ∧ ({ cfg := 4 } : Queue).st = .disabled ∧ bitAt ({ cfg := 4 } : Queue).sqBase 0 = false ∧ (descQ 0).st = .active ∧ (descQ 0).running = false ∧ (descQ 0).todo = []
    ∧ ({ descQ 0 with running := true } : Queue).running = true
    ∧ fld (15 : Word).toNat 0 16 < 2 ^ fld (descQ 0).cfg 0 5 ∧ 2 ^ fld (descQ 0).cfg 0 5 ≤ fld (16 : Word).toNat 0 16
    ∧ ({ st := .stopped } : Queue).st = .stopped ∧ bitAt ({ st := .active, sqBase := 1 } : Queue).sqBase 0 = true := by decide
theorem test_doorbells : ((gives (.queSqTail 0 15) (queueOn (descQ 0))).queue 0).sqTail = 15 ∧ ((gives (.queSqTail 0 16) (queueOn (descQ 0))).queue 0).dbErr = true
    ∧ ((gives (.enable .host 0) (queueOn { cfg := 4 + 16 * 256 })).queue 0).st = .active := by decide

/-- `QueueEntries`: an entry whose DCRC is wrong, whose opcode is reserved, that sets a reserved bit, that waits, and that goes on; a fence one behind
and 2^31 behind; completions with space, with a vector due at once, and deferred. -/
def entry (x : Nat) : List Byte := sealedBytes 64 x
def headQ : Queue := { descQ 0 with desc := none, passed := false, sqTail := 1 }
theorem test_hyp_entries :
    (headQ.desc = none ∧ headQ.todo = [] ∧ headQ.sqHead ≠ headQ.sqTail ∧ (queueOn headQ).m.hostUp = true ∧ bitAt headQ.sqBase 0 = false)
    ∧ (sealOk 64 (List.replicate 63 0 ++ [1]) = false ∧ (List.replicate 63 (0 : Byte) ++ [1]).length = 64)
    ∧ (∀ x ∈ [0x05, 0x00, 0x104, 2 ^ 22, 2 ^ 96], sealOk 64 (entry x) = true ∧ (entry x).length = 64)
    ∧ fld (leNat (entry 0x05)) 0 8 ∉ [0x00, 0x01, 0x02, 0x03, 0x04, 0x10, 0x11, 0x20, 0x30, 0x31, 0x32, 0x40, 0x41]
    ∧ fld (leNat (entry (2 ^ 22))) 22 10 ≠ 0 ∧ fld (leNat (entry (2 ^ 96))) 96 32 ≠ 0
    ∧ (let d := leNat (entry 0x104); fld d 0 8 = 0x04 ∧ bitAt d 8 = true ∧ fld d 22 10 = 0 ∧ fld d 96 32 = 0 ∧ fld d 384 96 = 0 ∧ fld d 128 256 = 0) := by decide
theorem test_hyp_completions :
    (let y := { descQ (0x100 + 5 * 2 ^ 32) with waiting := true, passed := false }
     y.waiting = true ∧ (5 + 2 ^ 32 - y.fld 32 32) % 2 ^ 32 < 2 ^ 31 ∧ ¬(4 + 2 ^ 32 - y.fld 32 32) % 2 ^ 32 < 2 ^ 31)
    ∧ (let y := { descQ 0 with todo := [{}] }
       y.todo = {} :: [] ∧ y.cqSpace ≠ 0 ∧ bitAt y.cfg 16 = false ∧ (queueOn y).m.hostUp = true)
    ∧ (let y : Queue := { descQ 0 with written := some (64, [1]), redo := true }; y.redo = true ∧ y.written = some (64, [1]) ∧ (queueOn y).m.hostUp = true)
    ∧ (let y := { descQ 0 with cfg := 4 + 4 * 256 + 2 ^ 16, todo := [{}], cqTail := 15, cqHead := 15 }
       y.cqTail + 1 = 2 ^ fld y.cfg 8 5 ∧ y.cqSpace ≠ 0 ∧ bitAt y.cfg 16 = true ∧ y.irqAt = none
       ∧ (queueOn y).m.usPassed (1000000000 - 12) 1 = false ∧ (queueOn y).m.usPassed (1000000000 - 13) 1 = true) := by decide

/-- `PartitionCommands`, `AtStart`: the four commands at their start in a state that admits them, and in one that does not; a task all of whose
threads have halted. -/
def cmdOn (op : Nat) (x : Part) : State := { m := { cxlOn true with parts := [(0, x)], que.queues := [(0, descQ op)] } }
theorem start_of (op : Nat) (x : Part) (h : (descQ op).op = op) : AtStart (cmdOn op x) 0 op (descQ op) :=
  ⟨rfl, rfl, rfl, h, rfl, rfl⟩
theorem test_hyp_partition_commands :
    (∀ op ∈ [0x00, 0x01, 0x02, 0x03, 0x04], ∀ x : Part, AtStart (cmdOn op x) 0 op (descQ op))
    ∧ (∀ st ∈ [PartState.ready, .halted, .failed, .running, .off], ((cmdOn 1 { partOf with st := st }).m.part 0).st = st)
    ∧ ((cmdOn 1 partOf).m.part 0).krf.phase = .idle ∧ ((cmdOn 1 partOf).m.part 0).krf.resume = false ∧ (cmdOn 1 partOf).m.jig.locked.contains 0 = false
    ∧ (cmdOn 4 partOf).m.jig.phase ≠ .checking ∧ (cmdOn 4 partOf).m.jig.phase ≠ .writing ∧ (cmdOn 4 partOf).m.cfgFrozen = false
    ∧ (∀ e ∈ (on { coreOf 0 with threads := (List.range 8).map (fun t => (t, { st := .halted })) }).m.cores, partOf.hasCore e.1 = true ∧ coreHalted e.2 = true ∧ e.2.idle = true)
    ∧ base.herds = [] ∧ partOf.krf.phase = .idle
    ∧ base.writesOpen 0 = false ∧ base.returnsOpen 0 = false ∧ partOf.krf.take = none := by
  refine ⟨fun op h x => start_of op x ?_, by decide, by decide, by decide, by decide, by decide, by decide, by decide, by decide, by decide, by decide, by decide⟩
  exact (by decide : ∀ op ∈ [0x00, 0x01, 0x02, 0x03, 0x04], (descQ op).op = op) op h
theorem test_partition_commands : ((gives (.partStart 0) (cmdOn 1 { partOf with st := .ready, taskRunning := false, taskSeq := 0x0FFF_FFFF })).part 0).taskSeq = 1
    ∧ ((gives (.partStart 0) (cmdOn 1 partOf)).queue 0).stopCode = 0x0601 ∧ ((gives (.partDrain 0) (cmdOn 3 partOf)).part 0).st = .draining
    ∧ ((gives (.partUnload 0) (cmdOn 4 { partOf with st := .halted, taskRunning := false })).part 0).st = .off := by decide

/-- `CopiesAndSessions`: copies of one line and of a piece of the last line, to and from page 1: in T1 at once; in T3 a store that fails without a port,
and a tile that lacks and one that the pool has sent; in T2; a page pending in a kerf; a bad word; a compressed tile that fails to decode; the
commands at their start; sessions in each state, the lowest free handle being 1. -/
def copyQ (op : Nat) : Queue := { descQ (op + pageBytes * 2 ^ 128 + 2 ^ 256) with running := true, passed := false }
def copyOn (op : Nat) (pg : Page) (ports : Nat) (got : List Nat) : State :=
  { m := { cxlOn true with
      tier.objects := [(0, { base := 1, pages := 1 })], tier.pages := [(1, pg)], que.queues := [(0, copyQ op)], str.poolPorts := ports
      str.buffers := got.map (fun g => (PoolOwner.copy 0, g)) } }
/-- Whether the tiles for COPY_IN are there; none where they cannot come. -/
def fetches (s : State) : Option Bool := (s.m.fetchTiles (.copy 0) (partTiles pageBytes 64)).map Prod.snd
theorem test_hyp_copies : (∀ op ∈ [0x10, 0x11], let y := copyQ op; let s := copyOn op { tier := 1 } 0 []
      y.op = op ∧ y.running = true ∧ y.desc.isSome = true ∧ y.copyPos < y.param 128 32 ∧ y.pieces.length < 32 ∧ s.m.hostUp = true
      ∧ y.param 0 56 + 64 * y.copyPos = pageBytes ∧ pieceBytes pageBytes (64 * (y.param 128 32 - y.copyPos)) = 64 ∧ (s.m.page 1).tier = 1 ∧ s.m.storeFails 1 = false
      ∧ (s.m.page 1).pending = false ∧ (s.m.page 1).move = none ∧ s.m.str.stalled = [] ∧ s.m.str.buffers = [] ∧ s.m.lacks (.copy 0) (tilesOf pageBytes 64) = []
      ∧ s.m.badIn pageBytes 64 = none ∧ (s.m.load? pageBytes 64).isSome = true ∧ s.m.tier.softWords = [])
    ∧ (copyOn 0x10 { tier := 3, written := 1, pool := some 0 } 0 []).m.storeFails 1 = true
    ∧ fetches (copyOn 0x10 { tier := 3, written := 1, pool := some 0 } 1 []) = some false ∧ fetches (copyOn 0x10 { tier := 3, written := 1, pool := some 0 } 1 [32]) = some true
    ∧ (copyOn 0x10 { tier := 3, written := 1, pool := some 0 } 1 []).m.storeFails 1 = false
    ∧ (∀ e ∈ [({ tier := 2, t2 := some 0 }, true), ({ tier := 3, pool := some 0 }, true), ({ tier := 1, pending := true }, true)],
        ((copyOn 0x10 e.1 1 []).m.store pageBytes (List.replicate 64 1) (.copyIn 0 0)).2 = e.2)
    ∧ ((copyOn 0x11 { tier := 3, written := 1, pool := some 0 } 0 []).m.askPool (.copy 0) (tilesOf pageBytes 64)).isNone = true
    ∧ ((copyOn 0x11 { tier := 3, written := 1, pool := some 0 } 1 []).m.askPool (.copy 0) (tilesOf pageBytes 64)).isSome = true
    ∧ ({ (copyOn 0x11 { tier := 1, written := 1 } 0 []).m with tier.badWords := [(65_536, (0, 0))] } : Module).badIn pageBytes 64 = some (0, 0) := by
  decide
theorem test_hyp_copy_entries :
    (∀ op ∈ [0x10, 0x11], ∀ x : Part, AtStart (cmdOn op x) 0 op (descQ op)) ∧ (cmdOn 0x10 partOf).m.copyBad 0 ((descQ 0x10).param 0 56) ((descQ 0x10).param 128 32) = true
    ∧ (let s : State := { m := { (copyOn 0x10 { tier := 1 } 0 []).m with que.queues := [(0, { copyQ 0x10 with running := false, passed := true })] } }
       AtStart s 0 0x10 { copyQ 0x10 with running := false, passed := true } ∧ (s.m.part 0).st = .running ∧ s.m.copyBad 0 pageBytes 1 = false)
    ∧ (∀ op ∈ [0x30, 0x31, 0x32], ∀ x : Part, AtStart (cmdOn op x) 0 op (descQ op)) ∧ (cmdOn 0x30 partOf).m.sessionsOpen 0 = false := by
  refine ⟨fun op h x => start_of op x ?_, by decide, ⟨⟨by decide, rfl, rfl, by decide, rfl, rfl⟩, by decide, by decide⟩, fun op h x => start_of op x ?_, by decide⟩
  · exact (by decide : ∀ op ∈ [0x10, 0x11], (descQ op).op = op) op h
  · exact (by decide : ∀ op ∈ [0x30, 0x31, 0x32], (descQ op).op = op) op h
def sessPart : Part := { partOf with inference := true, sessClass := [1000], quota := 16 }
def sessOn (op param : Nat) (z : Session) : State :=
  { m := { cxlOn true with parts := [(0, sessPart)], que.queues := [(0, descQ (op + param * 2 ^ 128))], que.models := [(0, { reg := 2 ^ 80, valid := true })]
                           que.sessions := [(0, z)] } }
theorem test_hyp_sessions :
    (sessPart.st = .running ∧ (sessOn 0x30 0 { st := .idle }).m.sessionsOpen 0 = true ∧ sessPart.sessDeadline 0 ≠ 0
      ∧ (kgetD ({} : Model) (sessOn 0x30 0 { st := .idle }).m.que.models 0).bound = true ∧ 1 < sessPart.sessionCap
      ∧ ((sessOn 0x30 0 { st := .idle }).m.session 0 1).st = .free ∧ ∀ j, j < 1 → ((sessOn 0x30 0 { st := .idle }).m.session 0 j).st ≠ .free)
    ∧ (∀ op ∈ [0x30, 0x31, 0x32], (descQ (op + 0 * 2 ^ 128)).op = op)
    ∧ (∀ st ∈ [SessState.free, .idle, .ready, .inBatch, .closing], ((sessOn 0x31 0 { st := st }).m.session 0 ((descQ 0x31).param 0 18)).st = st
      ∧ ((sessOn 0x32 0 { st := st }).m.visit.session 0 0).st = st)
    ∧ partOf.sessDeadline 0 = 0 ∧ (∀ h, h < 1 → ((sessOn 0x30 0 { st := .ready }).m.session 0 h).st ≠ .free) := by decide
theorem test_sessions : ((gives (.sessionOpen 0) (sessOn 0x30 0 { st := .idle })).session 0 1).st = .idle
    ∧ ((gives (.sessionSubmit 0) (sessOn 0x31 0 { st := .inBatch })).session 0 0).resubmit = true
    ∧ ((gives (.sessionClose 0) (sessOn 0x32 0 { st := .inBatch })).session 0 0).st = .closing := by decide

/-- `Batches`: a READY partition for the binding; one READY session whose deadline has come; a session, and none, whose record of the context store is bad (`PartitionCommands`); a result for the oldest
batch, taken whole, or held at a session whose event ring is full; and a result that comes in a packet, as R416 has it and not. -/
def readySess : Session := { st := .ready, readySk := 1000000000 - 12500 }
def batchOn (open_ : List (Nat × List Nat)) (held : Option (List Byte × Nat)) (z : Session) : State :=
  { m := { cxlOn true with
      sup.lease := .held, parts := [(0, sessPart)], que.sessions := [(0, z)]
      que.models := [(0, { reg := 2 ^ 80 + 44 * 2 ^ 32, valid := true, credits := 1, open_ := open_, held := held })] } }
def resultF (bytes : Nat) : Flight := flight 44 0 0 0 0 (ringSite svcS) [BitVec.ofNat 512 bytes]
def told : Session := { st := .inBatch, notifyEn := true }
theorem test_hyp_batches :
    (let m := { (queueOn {}).m with parts := [(0, { partOf with st := .ready })] }; m.cfgOk .host = true ∧ (m.part 0).st = .ready ∧ base.cfgOk .host = false)
    ∧ ((batchOn [] none readySess).m.que.batchAt ≠ (batchOn [] none readySess).m.now
      ∧ (batchOn [] none readySess).m.que.models = [(0, { reg := 2 ^ 80 + 44 * 2 ^ 32, valid := true, credits := 1 })]
      ∧ (batchOn [] none readySess).m.batchOf 0 = some ([(0, readySess)], true) ∧ (batchOn [] none {}).m.batchOf 0 = none)
    ∧ ((batchOn [] none readySess).m.session 0 0).st ≠ .free ∧ ((batchOn [] none readySess).m.session 0 1).st = .free
    ∧ (let s := batchOn [(7, [0])] (some (List.replicate 64 0, 0)) { st := .inBatch }
       (kget? s.m.que.models (16 * 0 + 0)).any (fun x => x.held = some (List.replicate 64 0, 0) && x.open_ = [(7, [0])]) = true
       ∧ (s.m.takeEntries 0 (List.replicate 64 0) [0] 33 0).2 = none
       ∧ [0].length ≤ 32 ∧ [0].Nodup ∧ ∀ h ∈ [0], (s.m.session 0 h).st = .inBatch ∧ (s.m.session 0 h).notifyEn = false)
    ∧ (let m : Module := { (batchOn [(7, [0])] none told).m with que.queues := [(0, { descQ 0 with cqHead := 1 })] }
       (m.takeEntries 0 (leBytes 64 (4 * 2 ^ 64)) [0] 33 0).2 = some 0)
    ∧ (∀ e ∈ [(7, false), (8, true)], let f := resultF e.1
       let s : State := { m := { (batchOn [(7, [0])] none { st := .inBatch }).m with net.flights := [f] } }
       (s.m.model 0).held = none ∧ takeFlight (ringSite svcS) (fld (s.m.model 0).reg 32 14) s.m.net.flights = some (f, []) ∧ s.m.modelOn 0 32 f.route = some (16 * 0 + 0)
       ∧ (s.m.part 0).flushing = false ∧ s.m.active 0 = true ∧ hKind f.hdr = 0 ∧ hLen f.hdr = 0 ∧ hSeq f.hdr = kgetD 0 s.m.net.dieExpect f.route
       ∧ badResult 0 (s.m.model 0) (flitBytes f.payload) = e.2) := by decide

/-! ## Kerfs, launches and jig loads -/

/-- A map of a kerf with no region, whose digest is 0; a take in each phase. -/
def emptyMap : List Byte := List.replicate 64 0
def krfOn (op : Nat) (x : Part) (param : Nat) : State :=
  { m := { base with str.poolPorts := 1, parts := [(0, x)], que.queues := [(0, { descQ (op + param * 2 ^ 128) with map := emptyMap })] } }
def takeOn (phase : KrfPhase) (t : Take) (running : Bool) : State :=
  { m := { base with
      parts := [(0, { partOf with taskRunning := running, krf.phase := phase, krf.take := some t })]
      que.queues := [(0, { descQ 0x40 with running := true, passed := false })] } }
theorem test_hyp_kerf :
    (let s := krfOn 0x40 partOf 0
     let y := s.m.queue 0
     AtStart s 0 0x40 y ∧ (s.m.part 0).st = .running ∧ (s.m.part 0).taskRunning = true ∧ s.m.poolPorts ≠ [] ∧ (s.m.part 0).krf.phase = .idle
     ∧ mapDigest y.map = (s.m.part 0).krf.jigDigest ∧ s.m.jig.locked.contains 0 = false
     ∧ s.m.areaBusy 0 (y.param 192 64) (areaTiles (s.m.kerfShards 0 y.map false)) = false)
    ∧ (let s := krfOn 0x41 { partOf with st := .ready, taskRunning := false } (2 ^ 128)
       AtStart s 0 0x41 (s.m.queue 0) ∧ s.m.hostUp = false ∧ 0 < (s.m.queue 0).param 128 12
       ∧ s.m.poolPort (leAt (List.replicate 8 0) 0 8 / pageBytes) = some 0 ∧ ({ s.m with que.cxl.up := true, que.cxl.busMaster := true } : Module).hostUp = true)
    ∧ (let s := takeOn .awaitingCut {} false; ((s.m.part 0).krf.take = some {} ∧ (s.m.part 0).krf.phase = .awaitingCut ∧ (s.m.part 0).taskRunning = false))
    ∧ (let s := takeOn .awaitingCut { gate := true, startAt := 1000000000 - 100 * skMs } true
       s.m.msPassed (1000000000 - 100 * skMs) (max 1 (fld s.m.launch.limits 0 16)) = true ∧ (s.m.queue 0).running = true ∧ (s.m.queue 0).desc.isSome = true)
    ∧ (let s := takeOn .dumping { map := emptyMap } true
       (s.m.part 0).krf.phase = .dumping ∧ (s.m.part 0).taskRunning = true ∧ s.m.net.flights = [] ∧ s.m.jig.phase ≠ .writing
       ∧ s.m.dumpFault emptyMap = none ∧ t0Regions emptyMap = []) :=
  ⟨⟨⟨by decide, by decide, by decide, by decide, by decide, by decide⟩, by decide, by decide, by decide, by decide, by decide, by decide, by decide⟩,
    ⟨⟨by decide, by decide, by decide, by decide, by decide, by decide⟩, by decide, by decide, by decide, by decide⟩, by decide, by decide, by decide⟩

/-- `Launches`: the lease holder A; a fabric load that waits for tile 1 of two, the last, and of three; 20 ms and SRC_MS of silence. -/
def held : Module := { base with sup.lease := .held, sup.a := { st := .active }, sup.authority := 1, sup.leaseEpoch := 1 }
def fabricOn (n : Nat) : State :=
  { m := { held with
      jig.phase := .staging, jig.fabric := true, jig.fabricId := 5
      launch := { total := some n, nextUnit := jigUnits n, tiles := [(0, [])], pulls := [{ key := 0, unit := 16, count := 16, at_ := 0, last := 1000000000 - 50 * skMs }] } } }
def launchChunk : Chunk := { chan := 5, upper := pspHeader 2 true 5 0 0 16 16 0 0, payload := padTo 64 0 (tileHeader tileBytes 0 0xFFFF 0 1) ++ zeros }
theorem test_hyp_launch :
    (held.cfgOk .mmpA = true ∧ held.jig.phase ≠ .staging ∧ held.jig.phase ≠ .armed ∧ held.launch.held = [])
    ∧ (∀ n ∈ [100_000, 140_000], let h := leNat (launchChunk.upper.take 32); let t := fld h 96 32 / 16 + launchChunk.chunk
        launchChunk.chan = (fabricOn n).m.jig.fabricId % 2 ^ 32 ∧ t = 1 ∧ fld h 96 32 % 16 = 0 ∧ fld h 128 32 % 16 = 0 ∧ 16 * launchChunk.chunk < fld h 128 32
        ∧ kget? (fabricOn n).m.launch.tiles t = none ∧ (∃ q ∈ (fabricOn n).m.launch.pulls, q.unit ≤ 16 * t ∧ 16 * t < q.unit + q.count))
    ∧ readTransit 0 0xFFFF 0 1 launchChunk.payload = some (zeros, true)
    ∧ ceilDiv 100_000 tileBytes = 2 ∧ ceilDiv 140_000 tileBytes = 3
    ∧ (∃ q ∈ (fabricOn 100_000).m.launch.pulls, (fabricOn 100_000).m.msPassed q.last (fld (fabricOn 100_000).m.str.timeouts 0 16) = true) :=
  ⟨by decide, by decide, raw_reads _ zeros (by decide) List.length_replicate (by decide) (by decide) (by decide), by decide, by decide, by decide⟩

/-- `JigRequests`: requests in each state, from the host, the holder and the other MMP; lengths 0, 1, 2^32 and one more; a drain at its limit. -/
theorem test_hyp_jig_requests :
    (({ held with sup.lease := .frozen } : Module).cfgFrozen = true ∧ held.cfgFrozen = false ∧ held.isHolder .mmpA = true ∧ held.isHolder .mmpB = false)
    ∧ (({ held with sys.st := .safe } : Module).sys.st ≠ .service ∧ base.sup.lease ≠ .held ∧ held.sup.lease = .held ∧ held.sec.writing = none)
    ∧ (held.jig.phase = .idle ∧ ({ held with jig.phase := .armed } : Module).jig.phase = .armed ∧ (0 : Nat) < 1 ∧ 2 ^ 32 ≤ 2 ^ 32 ∧ 2 ^ 32 < 2 ^ 32 + 1)
    ∧ (({ held with launch.ctrl := 12 * 256 } : Module).launchPort = none ∧ held.launchPort = some 0)
    ∧ (let s : State := { m := { cxlOn true with jig.phase := .staging, jig.len := 3 } }
       s.m.hostUp = true ∧ s.m.jig.fabric = false ∧ ([0, 0, 0] : List Byte).length = s.m.jig.len ∧ (cxlOn false).hostUp = false)
    ∧ (let x := { partOf with st := .draining, drainFrom := 1000000000 - 7 * skMs, drainMs := 7 }
       x.drainDroop = false ∧ base.msPassed x.drainFrom x.drainMs = true)
    ∧ base.msPassed (1000000000 - 20 * skMs) (if { partOf with drainDroop := true, drainMs := 500 }.drainDroop then 20 else 500) = true
    ∧ (let m : Module := { held with sec.cmd := some { op := 1, oob := none, begun := true, awaits := true } }
       ∃ c, m.sec.cmd = some c ∧ c.awaits = true ∧ c.op = 1)
    ∧ (∀ c, ({ held with sec.cmd := some { op := 4, oob := none, awaits := true } } : Module).sec.cmd = some c → c.awaits = false ∨ c.op ≠ 1) := by
  refine ⟨by decide, by decide, by decide, by decide, by decide, by decide, by decide, ⟨_, rfl, rfl, rfl⟩, fun c h => ?_⟩
  rw [← Option.some.inj h]; exact .inr (by decide)
theorem test_jig_requests : (gives (.start .host) { m := { held with jig.len := 2 ^ 32 } }).jig.phase = .staging
    ∧ (gives (.start .host) { m := { held with jig.len := 2 ^ 32 + 1 } }).jig.phase = .idle ∧ (gives (.armFabric .mmpB) { m := held }).jig.phase = .idle
    ∧ (gives (.armFabric .mmpA) { m := held }).jig.phase = .armed
    ∧ (gives (.start .host) { m := { held with jig.len := 1, sec.cmd := some { op := 1, oob := none, awaits := true } } }).jig.phase = .idle
    ∧ (gives (.stagingComplete [7]) { m := { cxlOn true with jig.phase := .staging, jig.len := 3 } }).jig.staging = [7, 0, 0] := by decide

/-- `JigLoads`: a partial jig that defines partition 3 on cluster 0, with its POLICY (a drain limit of 1 ms), while CHECKING and while WRITING. -/
def policySec : List Byte := leBytes 128 (2 ^ 80)
def partsSec : List Byte := leBytes 512 ((1 + 2 ^ 24 + 2 ^ 32) * 2 ^ 768)
def dirEntry (type p off len : Nat) (bytes : List Byte) : List Byte :=
  leBytes 32 (type + put 16 4 p + put 64 64 off + put 128 64 len + put 192 32 (crc32c bytes))
def jigDir : List Byte := dirEntry 2 0 192 512 partsSec ++ dirEntry 3 3 704 128 policySec
def jigHead : List Byte :=
  sealedBytes 128 (0x4749_4A4F + put 32 16 1 + put 64 32 2 + put 128 64 832 + put 192 64 9 + put 960 32 (crc32c jigDir))
def smallJig : List Byte := jigHead ++ jigDir ++ partsSec ++ policySec
def jigOn (phase : JigPhase) (written : Bool) (st : PartState) : State :=
  { m := { held with
      parts := [(3, { st := st })], net.frameLen := 64, pwr.meshLocked := true
      jig := { phase := phase, written := written, staging := smallJig, fullSeen := true } } }
set_option maxRecDepth 100000 in
theorem test_hyp_jig_loads : let v := viewOf smallJig
    v.check (jigOn .checking false .off).m smallJig = none ∧ v.stateBad (jigOn .checking false .off).m = none
    ∧ v.stateBad (jigOn .checking false .running).m = some 3 ∧ v.full = false ∧ v.defined = [3] ∧ v.jigId = 9
    ∧ v.check (jigOn .checking false .off).m (smallJig.drop 1) ≠ none
    ∧ (v.defined.filter (fun p => ((jigOn .writing false .loading).m.part p).st = .loading)).all (jigOn .writing false .loading).m.clustersUp = true
    ∧ (jigOn .writing true .loading).m.pwr.meshLocked = true
    ∧ (let m : Module := { (jigOn .checking false .off).m with parts := [(5, { krf.phase := .dumping })] }
       v.stateBad m = none ∧ ∃ p, p < 16 ∧ (m.part p).krf.phase = .dumping)
    ∧ (∀ p, p < 16 → ((jigOn .checking false .off).m.part p).krf.phase ≠ .dumping)
    ∧ (jigOn .writing true .loading).m.frameStarts = true ∧ ({ (jigOn .writing true .loading).m with net.slot := 30, net.frameLen := 4_096 } : Module).frameStarts = false
    ∧ (viewOf (jigHead ++ dirEntry 1 0 192 512 partsSec ++ jigDir.drop 32 ++ partsSec ++ policySec)).full = true := by
  refine ⟨by decide, by decide, by decide, by decide, by decide, by decide, by decide, by decide, by decide, ?_, by decide, by decide, by decide, by decide⟩
  exact ⟨by decide, 5, by decide, by decide⟩
/-- A CORE section of core 0 with one instruction. -/
def coreSec : JSec := { type := 0x10, inst := 0, bytes := leBytes imageHead (32 * 2 ^ 64) ++ List.replicate 32 0 }
set_option maxRecDepth 100000 in
theorem test_hyp_core_section : (Machine.coreOf coreSec).isSome = true := by decide

/-! ## Power, supervision, identity, the connector and registers -/

/-- `PowerFaults`: the 20th and the 21st core phase and the third network phase of die 0; bricks, e-fuses of a link group and of a service die; 900.1 V
and 549.9 V; a junction at 110 °C. -/
def phased (ps : List Nat) : Module := { base with pwr.dies := [(0, { phases := ps, tj := some 1_100 })] }
theorem test_hyp_power_faults :
    (∀ ps ∈ [List.range 19, List.range 20, [64, 65]], 67 ∉ ((phased ps).dieP 0).phases ∧ 0 ∉ (phased ps).topo.dark ∧ (phased ps).sys.st ≠ .cold)
    ∧ ((List.range 20 ++ [20]).filter (fun p => p < 64)).length = 21 ∧ ([64, 65] ++ [67] : List Nat).length - 0 = 3
    ∧ 17 ∉ base.pwr.bricks ∧ 0 ∉ base.pwr.ringOpen ∧ 7 ∉ base.pwr.ringOpen ∧ base.hole 0 = false ∧ 0 ∉ base.pwr.stopped
    ∧ 9_000 < ({ base with pwr.volts := 9_001 } : Module).pwr.volts ∧ ({ base with pwr.volts := 5_499 } : Module).pwr.volts < 5_500
    ∧ ((phased []).dieP 0).tj = some 1_100 ∧ ((phased []).dieP 0).blind = false ∧ (phased []).sys.stageHeld = false
    ∧ ({ phased [] with sys.st := .bringup } : Module).sys.st = .bringup
    ∧ (let x : DiePower := { phases := [0] }; (x.onRail (x.rail 0)).length + 2 > (x.onRail x.fullest).length)
    ∧ (let x : DiePower := { phases := [0, 1] }; (x.onRail (x.rail 1)).length + 2 ≤ (x.onRail x.fullest).length ∧ (x.rebalance 1).rail 16 = 0)
    ∧ ((phased []).usersOf (coresOfDie 0)) = [0] ∧ ((phased []).part 0).st = .running ∧ 1 ∉ (phased []).usersOf (coresOfDie 0) := by decide
theorem test_power_faults : (gives (.phaseFault 0 20) { m := phased (List.range 20) }).topo.dark = [0]
    ∧ (gives (.phaseFault 0 19) { m := phased (List.range 19) }).topo.dark = [] ∧ (gives (.thermalTrip 0) { m := phased [] }).sys.st = .safe
    ∧ (gives .overvoltage { m := { base with pwr.volts := 9_001 } }).sys.st = .cold ∧ (gives .overvoltage { m := { base with pwr.volts := 9_000 } }).sys.st = .service := by
  decide

/-- `PowerSteps`: a sample of a die at 95 °C with 1.06 times the cap; an input of 720 V for 1 s; wakes with cool and hot neighbours; a shed and a
release at their boundary. -/
def coldOn : Module :=
  { mech.mate := true, mech.standby := true, pwr.sk := 1000000000, pwr.highSince := some (1000000000 - skS), sup.a := { imageOk := true } }
def waking (defer : Option Nat) (hot : Option Nat) : Module :=
  { base with pwr.clusters := [(0, { st := .off, jigN := 64, wakeAsked := true, deferFrom := defer })], pwr.meshLocked := true, pwr.dies := [(1, { hotAt := hot })] }
theorem test_hyp_power_steps :
    (base.mech.standby = true ∧ average 781 [128 * 100_000] = 128 * 100_000 ∧ 100 * average 78 [128 * 100_000] > 105 * (base.pwr.capEffective * 100_000) ∧ 0 ∉ base.topo.dark ∧ (base.dieP 0).throttle = none ∧ (950 : Nat) ≤ 950)
    ∧ (coldOn.sys.st = .cold ∧ coldOn.skPassed (1000000000 - skS) skS = true ∧ coldOn.sup.wdAt = none ∧ coldOn.sup.wdStuck = false ∧ coldOn.sup.a.imageOk = true)
    ∧ (({ base with sys.st := .bringup, sys.stage := 2 } : Module).sys.stage = 2 ∧ base.sys.st = .service)
    ∧ ((waking none none).wakeDue 0 = true ∧ ∀ d ∈ nextDies 0, (waking none none).dieHot d = false)
    ∧ ((waking none (some 999_999_990)).dieHot 1 = true ∧ 1 ∈ nextDies 0 ∧ ((waking none (some 999_999_990)).cluster 0).deferFrom = none)
    ∧ ((waking (some (1000000000 - 2500)) (some 999_999_990)).wakeDue 0 = true ∧ base.usPassed (1000000000 - 2500) 200 = true)
    ∧ (let m : Module := { base with pwr.shedPending := true, pwr.releasePending := true, pwr.meshHalf := true }
       m.pwr.shedPending = true ∧ m.boundary = true ∧ m.pwr.releasePending = true ∧ m.pwr.meshHalf = true) := by decide
theorem test_power_good : (gives .powerGood { m := coldOn }).sys.st = .bringup ∧ (gives .powerGood { m := { coldOn with pwr.sk := 999_999_999 } }).sys.st = .cold := by
  decide

/-- `CapsAndDroop`: caps with an epoch at and below the current one; heartbeats of both managers; managers silent for 5 s, lost for 60 s; 10 ms
at 720 V; 5 ms under 650 V; the end of the droop sequence. -/
def capOn : Module := { held with sup.currentEpoch := 3 }
def capWord (epoch cap ramp : Nat) : Reg64 := BitVec.ofNat 64 (cap + put 16 10 ramp + put 32 32 epoch)
theorem test_hyp_caps :
    (capOn.cfgOk .mmpA = true ∧ capOn.sup.currentEpoch ≤ fld (capWord 3 100 5).toNat 32 32 ∧ fld (capWord 2 100 5).toNat 32 32 < capOn.sup.currentEpoch
      ∧ bitAt (capWord 3 0 0).toNat 0 = false ∧ bitAt (capWord 3 1 0).toNat 0 = true)
    ∧ base.skPassed (1000000000 - 5 * skS) (5 * skS) = true ∧ base.skPassed (1000000000 - 60 * skS) (60 * skS) = true
    ∧ base.skPassed (1000000000 - 10 * skMs) (10 * skMs) = true ∧ base.skPassed (1000000000 - 5 * skMs) (5 * skMs) = true
    ∧ ({ base with pwr.safeCap := false, pwr.lostAt := some 0, pwr.mgrA := { present := true }, pwr.mgrB := { present := true } } : Module).pwr.mgrB.present = true
    ∧ ({ base with pwr.lowSince := some 0 } : Module).pwr.droopSeq = false ∧ base.jig.phase = .idle ∧ (base.part 0).st = .running ∧ (base.part 0).taskRunning = true
    ∧ (∀ p, p < 16 → (base.part p).st ≠ .draining) ∧ ({ base with pwr.droopSeq := true } : Module).pwr.droopSeq = true
    ∧ base.skPassed (1000000000 - 20 * skMs) (20 * skMs) = true := by decide
theorem test_average : (gives (.aosSample { bricks := [3, 4], volts := 8_000 }) { m := { base with pwr.history := [40_000] } }).pwr.power = 48_000
    ∧ (gives .droopPowerOff { m := { base with pwr.droopSeq := true, pwr.droopAt := 1000000000 - 20 * skMs, parts := [(0, { partOf with st := .draining })] } }).sys.st = .cold := by
  decide
theorem test_caps : (gives (.pwrCap .mmpA (capWord 3 100 5)) { m := capOn }).pwr.capEffective = 100 ∧ (gives (.pwrCap .mmpA (capWord 2 100 5)) { m := capOn }).pwr.capEffective = 120
    ∧ fld (gives (.pwrCap .mmpA (capWord 3 500 0)) { m := capOn }).pwr.cap 0 26 = 310 + 2 ^ 16 := by decide

/-- `MmpsAndLease`: claims of epochs 0, below the current one, at the lease's by its holder and by the other, above it alone, with a higher one pending, and
against the other's claim; the AOS, an MMP and its image; a directive of each type; a window of 1 ms and a lease of 1 s. -/
def directive (type epoch payload : Nat) : BitVec 256 :=
  BitVec.ofNat 256 (leNat (sealedBytes 32 (0x5244_4B4F + put 32 4 type + put 64 32 epoch + put 96 26 payload)))
def claimed (c : Claim) : Module := { held with sup.currentEpoch := 1, sup.claims := [c] }
theorem test_hyp_lease :
    (0 < ({ held with sup.currentEpoch := 1 } : Module).sup.currentEpoch ∧ held.sup.leaseEpoch = 1 ∧ held.sup.lease = .held ∧ held.sup.holderB = false)
    ∧ (¬ ∃ c ∈ (claimed { mmp := 0, epoch := 5, from_ := 0 }).sup.claims, c.mmp ≠ b2n false ∧ c.epoch = 6)
    ∧ (∃ c ∈ (claimed { mmp := 1, epoch := 5, from_ := 0 }).sup.claims, c.mmp ≠ b2n false ∧ c.epoch = 5)
    ∧ (∃ d ∈ (claimed { mmp := 0, epoch := 5, from_ := 0 }).sup.claims, 4 ≤ d.epoch) ∧ (1 : Nat) < 4
    ∧ (svcW ∉ base.sys.svcFailed ∧ (held.mmp false).runs = true ∧ (held.mmp false).st = .active ∧ ({ held with sup.a := { st := .failed } } : Module).sec.writing = none)
    ∧ (90 ≤ 100 ∧ (held.mmp false).shedLevel < 4 ∧ (69 : Nat) < 70 ∧ 9 ≤ ({ held.sup.a with lowRun := 9 } : Mmp).lowRun ∧ held.sup.a.lowRun < 9)
    ∧ (held.mmpRuns = true ∧ held.cfgOpen = true ∧ ∀ t ∈ [1, 2, 3], directiveOk t (directive t 7 100).toNat = true ∧ directiveOk (t + 1) (directive t 7 100).toNat = false)
    ∧ fld (directive 3 7 100).toNat 64 32 = (held.heartbeat (bitAt (directive 3 7 100).toNat 36) 7).sup.currentEpoch
    ∧ (claimed { mmp := 1, epoch := 5, from_ := 1000000000 - skMs }).skPassed (1000000000 - skMs) skMs = true
    ∧ ({ held with sup.renewAt := 1000000000 - skS } : Module).skPassed (1000000000 - skS) skS = true := by decide
theorem test_lease : (gives .claimWindowEnd { m := claimed { mmp := 1, epoch := 5, from_ := 1000000000 - skMs } }).sup.leaseEpoch = 5
    ∧ (gives (.aosLeaseClaim .mmpA 5) { m := claimed { mmp := 1, epoch := 5, from_ := 0 } }).sup.lease = .frozen
    ∧ (gives .leaseExpiry { m := { held with sup.renewAt := 1000000000 - skS } }).sup.lease = .none_
    ∧ (gives (.cap (directive 3 7 100)) { m := held }).pwr.capEffective = 100 := by decide

/-- `BringupAndUpkeep`: each stage; a core, a service die, states from which RECOVERY and OUT_OF_SERVICE are entered; engines, and passes at each shed
level. -/
def stageOn (n : Nat) : Module := { base with sys.st := .bringup, sys.stage := n, sup.authority := 1, sup.a := { imageOk := true } }
theorem test_hyp_bringup :
    (∀ n ∈ [0, 1, 2, 6, 7], (stageOn n).sys.st = .bringup ∧ (stageOn n).sys.stageHeld = false ∧ (stageOn n).sys.stage = n ∧ (stageOn n).sup.authority ≠ 0)
    ∧ ((stageOn 0).sup.a.imageOk = true ∧ (stageOn 0).sup.a.st = .off ∧ (stageOn 0).sup.b.imageOk = false ∧ svcW ∉ (stageOn 1).sys.svcFailed)
    ∧ (base.physOf 0 = some 0 ∧ (stageOn 2).physOf 0 = some 0 ∧ base.sys.st ≠ .bringup ∧ (63 : Nat) < 64 ∧ 63 % 16 = 15)
    ∧ (held.cfgOk .host = true ∧ base.cfgOk .host = false ∧ ({ held with sys.st := .safe } : Module).cool = true ∧ held.sys.svcFailed = [])
    ∧ (kget? base.topo.repair 0 = none ∧ base.topo.retire = [] ∧ base.shedLevel = 0)
    ∧ (∀ n ∈ [1, 2], ({ held with sup.a := { st := .active, shedLevel := n } } : Module).shedLevel = n)
    ∧ base.skPassed (kgetD {} base.sup.acts 9).lastAt (8 * skS) = true
    ∧ dieRing (dieOfPhys 0) = 0 ∧ dieOfPhys 0 < 100 ∧ ({ stageOn 2 with pwr.dies := [(0, { crackMark := true })] } : Module).topo.dark = []
    ∧ (let m : Module := { base with parts := [(0, partOf), (1, { st := .loading, cw := 1, ch := 1 })] }
       1 ∉ m.usersOf [9_999] ∧ ((m.part 1).clusters.map dieOfCluster).contains (dieOfCore 1) = true ∧ (m.part 1).st = .loading)
    ∧ ({ held with sys.st := .safe, sys.svcFailed := [15] } : Module).sys.svcFailed ≠ []
    ∧ (base.failedWires { site := 7, port := 2, wires := List.range 17 }).length = 17 ∧ (base.failedWires { site := 7, port := 2, wires := List.range 16 }).length = 16
    ∧ svcN ∉ base.sys.svcFailed ∧ svcS ∉ base.sys.svcFailed := by decide
/-- What a stage finds: two faulty rows of one engine, a mask, a failed link of a ring die, an engine stuck in reduced-array mode, and service die N. -/
theorem test_stages : (gives (.bringupStage { rows := [(0, 3), (0, 9)] }) { m := stageOn 2 }).topo.engineBad = [0]
    ∧ (gives (.bringupStage { rows := [(0, 3)] }) { m := stageOn 2 }).topo.engineBad = []
    ∧ kget? (gives (.bringupStage { masks := [(0, 1, 2)] }) { m := stageOn 2 }).topo.arrayMasks 0 = some (1, 2)
    ∧ (gives (.bringupStage { links := [(32_768 + 3, 1)] }) { m := stageOn 1 }).topo.retire.contains (.link (32_768 + 3) 1) = true
    ∧ (gives (.bringupStage { ring := [svcN] }) { m := stageOn 1 }).sys.svcFailed = [svcN] := by decide
theorem test_link_calibration : (gives (.linkCalibration [{ site := 7, port := 2, wires := List.range 17 }]) { m := base }).topo.retire = [.link 7 2]
    ∧ (gives (.linkCalibration [{ site := 7, port := 2, wires := List.range 16 }]) { m := base }).topo.retire = []
    ∧ (gives (.enterRecovery .host) { m := { held with sys.st := .safe, sys.svcFailed := [15] } }).sys.st = .safe := by decide
theorem test_stage_zero : (gives (.bringupStage {}) { m := stageOn 0 }).sup.a.st = .active ∧ (gives (.bringupStage {}) { m := stageOn 0 }).sys.stage = 1 := by decide

/-- `LoopAndLog`: a frame with a wrong CRC, of the module's own slot, of each TYPE of the tray controller, of a module's HERD_STOP; silence of 10 ms; a frame
to be sent again; two records held; interrupts deferred. -/
def loopOf (type slot payload : Nat) : BitVec 160 :=
  let x := put 0 4 type + put 4 4 slot + put 16 112 payload
  BitVec.ofNat 160 (x + put 128 32 (crc32c (leBytes 16 x)))
def stopFrame : BitVec 160 := loopOf 4 2 (put 0 32 9 + put 32 32 1 + put 64 10 1)
def logOn (rs : List FaultRec) : Module := { base with sup.intake := rs }
theorem test_hyp_loop :
    (looped.m.sup.side.bypass = false ∧ crc32c (leBytes 16 5) ≠ fld 5 128 32)
    ∧ (∀ t ∈ [0, 1, 2, 3, 4, 5, 15], ∀ n ∈ [0, 1, 2], let x := (loopOf t n 0).toNat; crc32c (leBytes 16 x) = fld x 128 32 ∧ fld x 0 4 = t ∧ fld x 4 4 = n)
    ∧ looped.m.sup.side.slot = 1
    ∧ (let x := stopFrame.toNat; let m := (herdOn herdOf0 {}).m
       m.herdOf (fld x 16 32) = some 0 ∧ base.herdOf (fld x 16 32) = none ∧ (m.part 0).taskRunning = true
       ∧ (fld x 16 32, fld x 48 32, fld x 80 10) ∉ m.sup.side.acted ∧ fld x 80 10 = 1 ∧ 1 ≠ ((m.herd 0).stage 1).self ∧ 1 < ((m.herd 0).stage 1).macs.length
       ∧ (1, 1) ∉ (m.herd 0).lost)
    ∧ base.skPassed (1000000000 - 10 * skMs) (10 * skMs) = true ∧ base.usPassed (1000000000 - 1250) 100 = true
    ∧ (let m := logOn [{ code := 0x0801, time := 1000000000 - 64 }, { code := 0x0802, time := 1000000000 - 65 }]
       ((m.sup.intakeFatal ++ m.sup.intake).filter (fun r => m.skPassed r.time 64)).length = 2
       ∧ ({ code := 0x0802, time := 1000000000 - 65 } : FaultRec).key < ({ code := 0x0801, time := 1000000000 - 64 } : FaultRec).key)
    ∧ ((logOn [{ time := 1000000000 - 63 }]).sup.intake.filter (fun r => (logOn []).skPassed r.time 64)) = []
    ∧ (let m : Module := { cxlOn true with sup.irqDefer := [6], sup.irqStatus := 64, sup.irqEn := 64 }
       6 ∈ m.sup.irqDefer ∧ m.hostUp = true ∧ kget? m.sup.irqAt 6 = none ∧ bitAt m.sup.irqStatus 6 = true ∧ bitAt m.sup.irqEn 6 = true) := by decide
theorem test_log_write : let m := gives .logWrite { m := logOn [{ code := 0x0801, time := 1000000000 - 64 }, { code := 0x0802, time := 1000000000 - 65 }] }
    m.sup.nextIndex = 1 ∧ (leAt (kgetD [] m.sup.log 0) 0 2, m.sup.intake.length) = (0x0802, 1) ∧ bitAt m.sup.irqStatus 0 = true := by decide

/-- `ImagesAndCommands`: an MMP whose loader has not checked; commands from the host and out of band in and out of their states; datagrams of each KIND;
no image in flash. -/
def secOn (c : Option SecCmd) : Module := { held with sec.cmd := c, sec.cmdLen := 4_096 }
def dg (kind : Nat) : List Byte := dgMake 3 kind 9 0 0 0 []
set_option maxRecDepth 100000 in
theorem test_hyp_commands :
    (let m : Module := { mech.mate := true, mech.standby := true }
     (m.mmp false).imageOk = false ∧ (m.mmp false).refused = false ∧ m.sec.writing = none ∧ m.sys.st = .cold ∧ m.sec.imageCheck m.sec.image ≠ none)
    ∧ (∀ op ∈ [2, 3, 4, 5, 6, 7], (secOn none).secBar op (some 4_096) = none) ∧ (secOn none).sec.busy = false
    ∧ ({ secOn none with sys.st := .outOfService } : Module).secBar 8 (some 0) = none ∧ (secOn none).secBar 8 (some 4_096) = some 0x0601
    ∧ (secOn none).secBar 3 (some 0) = some 0x0602 ∧ ({ secOn none with sec.busy := true } : Module).sec.busy = true
    ∧ (let m := (secOn none).secHold 4; m.sec.busy = true ∧ (∃ c, m.sec.cmd = some c ∧ c.awaits = true ∧ c.op = 4)
       ∧ ({ secOn none with jig.phase := .armed } : Module).jig.phase ≠ .idle ∧ (secOn none).secBar 4 (some 4_096) = none
       ∧ ({ secOn none with sec.cmdLen := 0 } : Module).secBar 2 (some 0) = some 0x0602)
    ∧ ((secOn (some { op := 3, oob := some 9 })).sec.cmd = some { op := 3, oob := some 9 } ∧ (secOn none).secBar 3 none = none)
    ∧ (base.mmpRuns = false ∧ (secOn none).mmpRuns = true ∧ base.secBar 1 none = none ∧ base.secBar 2 none = some 0x0601)
    ∧ (held.jig.phase = .idle ∧ held.sys.st ≠ .cold ∧ held.sec.imageCheck [] ≠ none)
    ∧ (∀ kind ∈ [1, 2, 4], dgOk kind (dg kind) = true) ∧ leAt (dg 2) 8 4 = 9 ∧ leAt (dg 2) 4 1 = 3 ∧ leAt (dg 2) 20 4 ≤ (dgJoin [(0, [])]).length
    ∧ held.sec.oob.xid ≠ some 9 ∧ ({ xid := some 9, parts := [(0, [])], code := some 0, total := some 0 } : Oob).xid = some 9 := by decide

/-- An image that every check but that of its signature passes, under a key whose digest is fused in slot 0; where the signature verifies, which is open
(log 8), the whole check passes. -/
def pubKey : List Byte := beBytes 4 orovinOid ++ List.replicate 64 1
def imgHead : List Byte := leBytes 24 (0x5746_4B4F + put 32 16 1 + put 96 32 64) ++ pubKey ++ List.replicate 160 0
def goodImage : List Byte := imgHead ++ leBytes 4 (crc32c imgHead) ++ List.replicate 64 0 ++ List.replicate orovinSig 0
def fusedSec : Sec := { fwFused := 1, fwKeys := [keyDigest pubKey, 0, 0, 0] }
set_option maxRecDepth 100000 in
theorem test_hyp_image : imgFormat goodImage = true ∧ bitAt fusedSec.fwFused (imgSlot goodImage) = true ∧ bitAt fusedSec.fwRevoked (imgSlot goodImage) = false
    ∧ imgKey goodImage = pubKey ∧ imgSlot goodImage = 0 ∧ keyOid (imgKey goodImage) = orovinOid ∧ fusedSec.minSvn ≤ imgSvn goodImage
    ∧ sigLength (keyOid (imgKey goodImage)) = some (slice goodImage (256 + imgBody goodImage) orovinSig).length := by decide
theorem image_passes (h : Config.xmssVerify (keyDigest (imgKey goodImage)) (digestBytes (imgMeas goodImage)) (slice goodImage (256 + imgBody goodImage) orovinSig) = true) :
    fusedSec.imageCheck goodImage = none := by
  obtain ⟨h1, h2, h3, h4, h0, h5, h6, h7⟩ := test_hyp_image
  have hk : ¬ (keyDigest (imgKey goodImage) ≠ fusedSec.fwKeys.getD (imgSlot goodImage) 0 || keyOid (imgKey goodImage) ≠ orovinOid) = true := by
    rw [h0, h5, h4]; simp [fusedSec]
  have hv : verifySig (imgKey goodImage) (digestBytes (imgMeas goodImage)) (slice goodImage (256 + imgBody goodImage) orovinSig) = true := by
    unfold verifySig; rw [h, decide_eq_true h7]; rfl
  unfold Sec.imageCheck
  rw [h1, h2, h3, if_neg (by simp), if_neg (by simp), if_neg hk, if_neg (by omega), if_pos hv]

/-- `IdentityAndKeys`: quotes at shed level 4, with a leaf, with none, and beyond the limit; a first customer key, and one with an old counter; enrolment in
each state; a certificate of another serial number. -/
def keyMsg (counter : Nat) : List Byte := leBytes 20 (0x4B43_4B4F + put 32 16 1 + put 48 8 1 + put 128 32 counter) ++ pubKey ++ List.replicate 8 0
theorem test_hyp_identity :
    ({ held with sup.a := { st := .active, shedLevel := 4 } } : Module).shedLevel = 4 ∧ held.shedLevel ≠ 4 ∧ held.sec.remaining ≠ 0
    ∧ held.quotesNow.length < held.sec.quoteLimit ∧ ({ nextLeaf := 1_048_560 } : Sec).remaining = 0
    ∧ ({ held with sec.quoteAt := [1000000000], sec.quoteLimit := 1 } : Module).quotesNow.length = 1
    ∧ ({} : Sec).keyBad (keyMsg 1) = none ∧ ({} : Sec).keyBad (keyMsg 0) = some 0x0A01 ∧ ({} : Sec).custKey = [] ∧ leAt (keyMsg 1) 6 1 = 1
    ∧ ({ enrol := 2, nextReserved := 15 } : Sec).nextReserved < 16 ∧ ({ enrol := 2, nextReserved := 16 } : Sec).nextReserved = 16
    ∧ ({ enrol := 2 } : Sec).certBad (padTo 2_980 0 []) = some 0x0603 ∧ ({ enrol := 1 } : Sec).enrol = 1 := by decide

/-- `ConnectorFace`, `RegisterWrites`: standby power down and up; sources that may write and may not; values of the command registers. -/
theorem test_hyp_face :
    (({ mech.mate := true } : Module).mech.standby = false ∧ base.mech.standby = true)
    ∧ (base.canWrite .host = true ∧ base.canWrite .mmpA = false ∧ held.canWrite .mmpA = true ∧ held.mmpRuns = true ∧ base.mmpRuns = false)
    ∧ (held.cfgOk .mmpA = true ∧ held.cfgOk .mmpB = false ∧ held.holderOk .mmpA = true ∧ held.holderOk .mmpB = false)
    ∧ (held.anyActive = true ∧ ({ held with parts := [] } : Module).anyActive = false ∧ held.jig.addr < 2 ^ 64)
    ∧ (∀ n ∈ [0, 1, 2, 3], (BitVec.ofNat 64 n : Reg64).toNat % 2 ^ 32 % 4 = n) ∧ (0x1E : Nat) % 4 ≠ 0 := by decide
theorem test_connector : let m := gives (.standbyUp 0x13) { m := { mech.mate := true } }
    m.sup.side.slot = 3 ∧ m.sup.boot = 1 ∧ m.sup.side.bypass = false ∧ (gives .mateBreak { m := m }).mech.standby = false := by decide
theorem test_register_write : (gives (.registerWrite .host 0x1C false 2) { m := held }).sys.st = .outOfService
    ∧ (gives (.registerWrite .mmpA 0x30_0008 true 0x1_0000_0005) { m := held }).jig.addr = 0x1_0000_0005
    ∧ (gives (.registerWrite .mmpB 0x30_0008 true 5) { m := held }).jig.addr = 0
    ∧ (let m := gives (.registerWrite .host 0xE0_008C false 4) { m := secOn none }; m.sec.busy = true ∧ m.sec.op = 4 ∧ (gives (.custKey (.bar .host) []) { m := m }).sec.busy = false)
    ∧ (let m := gives (.registerWrite .host 0xE0_008C false 2) { m := { secOn none with sec.cmdLen := 0 } }; m.sec.busy = false ∧ m.sec.result = 0x0602) := by decide

/-! ## Ill-formed commands -/

/-- Every check of a command's places refuses the first place that does not exist, and takes the last one that does. -/
theorem test_ill_formed : (∀ i ∈ ([.nop 19_600 0, .nop 0 8, .taskEnd { part := 16 }, .enable .host 1_024, .linkUp 48, .serviceDieFail 64, .phaseFault 100 0, .phaseFault 0 68,
      .thermalTrip 188, .clusterWake 400, .miss 19_600 1, .miss 0 0, .miss 32_832 1, .miss 0 16_384, .t1Refresh 24, .packetInject 0 64, .brickFault 18, .ringEfuseTrip 8, .batchResult 0 16,
      .aosIrqDeferExpiry 7, .reparent 0 256, .resolve 0 4, .reductionEmit 0 16, .registerWrite .host 2 false 0, .registerWrite .host 4 true 0,
      .registerWrite .host 0x0440_0000 false 0,
      .read 0 { route := 1, found := [{ stack := 24 }] }, .moveTileCopied 0 { found := [{ stack := 24 }] }] : List Instr), i.wellFormed = false) := by decide
theorem test_well_formed : (∀ i ∈ ([.nop 19_599 7, .taskEnd { part := 15 }, .enable .host 1_023, .linkUp 47, .serviceDieFail 63, .phaseFault 99 67, .thermalTrip 187, .clusterWake 399,
      .miss 19_599 1, .miss 32_831 16_383, .t1Refresh 23, .packetInject 0 63, .brickFault 17, .ringEfuseTrip 7, .batchResult 0 15,
      .aosIrqDeferExpiry 6, .reparent 0 255, .resolve 0 3, .reductionEmit 0 15, .registerWrite .host 4 false 0, .registerWrite .host 8 true 0,
      .registerWrite .host 0x043F_FFFC false 0,
      .read 0 { route := 1, found := [{ stack := 23 }] }, .moveTileCopied 0 { found := [{ stack := 23 }] }] : List Instr), i.wellFormed = true) := by decide

/-! ## Worked examples of the manual -/

/-- The check value of R360: the nine ASCII characters 123456789. -/
theorem test_crc64_check : crc64 ((List.range 9).map (fun i => BitVec.ofNat 8 (0x31 + i))) = 0x6C40_DF5F_0B49_7347 := by decide

/-- The worked FP4 dot product of chapter 02: both blocks, packed as the example packs them. -/
def dotRow (bytes : List Byte) : List Nat := (List.range 32).map (fun e => readCode (writeBytes [] 0 bytes) e 4)
def dotAcc : Cell := exactCell .fp4 .fp4 (dotRow [0x51, 0x00]) (dotRow [0x32, 0x00]) 0x43 0x7A
  (exactCell .fp4 .fp4 (dotRow [0xC3, 0x15]) (dotRow [0x36, 0x4F]) 0x7F 0x80 (0, 0))
theorem test_fp4_dot : (dotRow [0xC3, 0x15]).take 4 = [3, 0xC, 5, 1] ∧ dotAcc = (0xFFFF_FFFF_FFFF_FFE4_0000_0000_0000_0002, tagInexact) := by decide
set_option maxRecDepth 100000 in
theorem test_fp4_write_back : (let v := accValue (accDecode 0xFFFF_FFFF_FFFF_FFE4_0000_0000_0000_0002)
    (fpRound .bf16 .rne 0 v).1 = 0xC1E0 ∧ (fpRound .bf16 .rtz 0 v).1 = 0xC1DF ∧ (fpRound .fp32 .rne 0 v).1 = 0xC1E0_0000
    ∧ (fpRound .fp32 .rtz 0 v).1 = 0xC1DF_FFFF ∧ (fpRound .bf16 .sr 0xFFFF_FFFF v).1 = 0xC1DF ∧ (fpRound .bf16 .sr 0xFFFF_FFFE v).1 = 0xC1E0) := by decide

/-- The example of R271: page 65,536 is homed at E13, and at W13 once N14 has failed. -/
theorem test_home : ({} : Module).home? 65_536 = some 29 ∧ ({ topo.ringBad := [14] } : Module).home? 65_536 = some 61 := by decide

/-- The example of R518: a failed core at logical index 14,120 in partition 2. -/
theorem test_fault_record : let b := ({ code := 0x0B03, cls := 2, part := some 2, locKind := 2, locIndex := 14_120, task := 0x2000_0039 } : FaultRec).bytes 0 0
    leAt b 0 4 = 0x0226_0B03 ∧ leAt b 4 2 = 0x3728 ∧ leAt b 16 4 = 0x2000_0039 ∧ b.length = 32 := by decide

/-- R459: with 12 phases lost a die jigged at 64 runs at 59, with 20 at 50. -/
theorem test_phase_limits : ({ phases := List.range 12 } : DiePower).limit 64 = 59 ∧ ({ phases := List.range 20 } : DiePower).limit 64 = 50 ∧ ({ phases := List.range 8 } : DiePower).limit 64 = 64 := by decide

/-- The remap example of chapter 01, row 75 of die (3,5): dead physical column 4 carries no logical column. -/
theorem test_remap : [3, 4, 5, 6].map ({ absorb := 4 } : RowMap).physCol = [3, 5, 6, 7] ∧ ({} : RowMap).physCol 13 = 13 := by decide

/-- R18: fabric port 29 is ring die 37. -/
theorem test_ports : portOfRing 37 = 29 ∧ ringOfPort 29 = 37 ∧ isLink 37 = true := by decide

/-- `StepRunsFront`: no word spells a command, and the front of a queue runs. -/
theorem test_hyp_front : decodeTableWord 0 0 = none ∧ State.reset.withFetchWord 0 0 = State.reset
    ∧ step { State.reset with pending := [.mateMade, .standbyUp 0] } = exec .mateMade { State.reset with pending := [.standbyUp 0] } := ⟨rfl, rfl, rfl⟩

end Sys2Proof.Tests
end

section
/-! The step with no command waiting (R15, R203, R281, R381, R404): what one sk brings about, and what it leaves when nothing waits for it. -/

namespace Sys2Proof.Machine

open Sys2Proof

theorem mem_kput {α : Type} {m : KMap α} {k : Nat} {v : α} {e : Nat × α} (h : e ∈ kput m k v) : e = (k, v) ∨ e ∈ m :=
  (mem_kins h).imp id (fun h => (List.mem_filter.1 h).1)

/-! ## What waited for the next sk -/

theorem Module.hostAcks_idle {m : Module} (h : ∀ r ∈ m.tier.reqs, r.phase = .acking → (m.page (r.addr / pageBytes)).tier ≠ 2) :
    m.hostAcks = m := by
  have none : m.tier.reqs.filter (fun r => r.phase = .acking && (m.page (r.addr / pageBytes)).tier = 2) = [] :=
    List.filter_eq_nil_iff.2 (fun r hr => by simpa using h r hr)
  rw [Module.hostAcks, none, List.foldl_nil]

theorem Module.copyAcks_idle {m : Module} (h : ∀ e ∈ m.que.queues, ∀ x ∈ e.2.pieces, x.host = false) : m.copyAcks = m := by
  refine List.foldlRecOn (motive := fun t => t = m) m.que.queues _ rfl (fun t ht e he => ?_)
  have none : e.2.pieces.filter (fun x => x.host) = [] := List.filter_eq_nil_iff.2 (fun x hx => by simp [h e he x hx])
  rw [none, List.foldl_nil, ht]

theorem Module.drainsOver_idle {m : Module} (h : ∀ e ∈ m.parts, e.2.st = .draining → e.2.taskRunning = true ∨ m.now ≤ e.2.drainFrom) :
    m.drainsOver = m := by
  have none : m.parts.filter (fun e => e.2.st = .draining && !e.2.taskRunning && e.2.drainFrom < m.now) = [] :=
    List.filter_eq_nil_iff.2 (fun e he => by
      simp only [Bool.and_eq_true, decide_eq_true_eq, Bool.not_eq_true']
      rintro ⟨⟨hd, ht⟩, hn⟩
      rcases h e he hd with h | h
      · simp [ht] at h
      · omega)
  rw [Module.drainsOver, none, List.foldl_nil]

theorem Module.herdsTick_idle {m : Module}
    (h : ∀ e ∈ m.herds, e.2.lossAt = none ∧ ∀ r, e.2.run = some r → ∀ a ∈ r.awaits, a.2 = false) : m.herdsTick = m := by
  have none : m.herds.filter (fun e => e.2.lossAt.isSome || e.2.run.any (fun r => r.awaits.any Prod.snd)) = [] :=
    List.filter_eq_nil_iff.2 (fun e he => by
      obtain ⟨hl, hr⟩ := h e he
      cases hrun : e.2.run with
      | none => simp [hl]
      | some r => simpa [hl] using hr r hrun)
  rw [Module.herdsTick, none, List.foldl_nil]

theorem Module.restoresTick_idle {m : Module} (h : ∀ e ∈ m.parts, ∀ r, e.2.krf.restore = some r → r.hostAt = none) :
    m.restoresTick = m := by
  have none : m.parts.filter (fun e => e.2.krf.restore.any (fun r => r.stage = .shards && r.want = [] && r.hostAt.isSome)) = [] :=
    List.filter_eq_nil_iff.2 (fun e he => by
      cases hr : e.2.krf.restore with
      | none => simp
      | some r => simp [h e he r hr])
  rw [Module.restoresTick, none, List.foldl_nil]

/-! ## Partitions that have drained (R404) -/

theorem finish_herds (m : Module) (q c s n i) : (m.finish q c s n i).herds = m.herds := by
  unfold Module.finish
  extract_lets x
  split
  · rfl
  · split <;> rfl

theorem completeAll_herds (m : Module) (p c sel) : (m.completeAll p c sel).herds = m.herds := by
  refine List.foldlRecOn (motive := fun t : Module => t.herds = m.herds) (m.runningQueues p) _ rfl (fun t ht q _ => ?_)
  split
  · unfold Module.complete
    split
    · rw [finish_herds, ht]
    · exact ht
  · exact ht

/-- Partition `p` is HALTED, and its PART_DRAIN completes: one round of `drainsOver`. -/
def Module.drained (m : Module) (p : Nat) : Module :=
  (m.modPart p (fun x => { x with st := .halted })).completeAll p 0 (fun q => q.op = 0x03)

theorem Module.drainsOver_eq (m : Module) : m.drainsOver =
    (m.parts.filter (fun e => e.2.st = .draining && !e.2.taskRunning && e.2.drainFrom < m.now)).foldl (fun t e => t.drained e.1) m := rfl

theorem Module.drained_parts (m : Module) (p : Nat) : (m.drained p).parts = kput m.parts p { m.part p with st := .halted } :=
  (completeAll_cp _ _ _ _).2

theorem Module.drained_part (m : Module) (p q : Nat) :
    (m.drained p).part q = if q = p then { m.part p with st := .halted } else m.part q :=
  ((completeAll_cp _ _ _ _).part q).trans (part_modPart ..)

theorem Module.drained_herds (m : Module) (p : Nat) : (m.drained p).herds = m.herds := completeAll_herds ..

theorem Module.drainsOver_herds (m : Module) : m.drainsOver.herds = m.herds := by
  rw [m.drainsOver_eq]
  exact List.foldlRecOn (motive := fun t : Module => t.herds = m.herds) _ _ rfl (fun (t : Module) ht e _ => (t.drained_herds e.1).trans ht)

/-- No restore waits for the host. -/
def Module.RestoresIdle (m : Module) : Prop := ∀ e ∈ m.parts, ∀ r, e.2.krf.restore = some r → r.hostAt = none

theorem Module.RestoresIdle.part {m : Module} (h : m.RestoresIdle) (p : Nat) (r : Restore) (hr : (m.part p).krf.restore = some r) :
    r.hostAt = none := by
  unfold Module.part kgetD at hr
  cases hk : kget? m.parts p with
  | none => rw [hk] at hr; cases hr
  | some x => rw [hk] at hr; exact h _ (mem_of_kget? hk) r hr

theorem Module.RestoresIdle.drained {m : Module} (h : m.RestoresIdle) (p : Nat) : (m.drained p).RestoresIdle := by
  intro e he r hr
  rw [m.drained_parts] at he
  rcases mem_kput he with rfl | he
  · exact h.part p r hr
  · exact h e he r hr

theorem Module.RestoresIdle.drainsOver {m : Module} (h : m.RestoresIdle) : m.drainsOver.RestoresIdle := by
  rw [m.drainsOver_eq]
  exact List.foldlRecOn (motive := Module.RestoresIdle) _ _ h (fun t ht e _ => ht.drained e.1)

/-- Rounds that name `p` leave it HALTED, the others leave it as it is. -/
theorem foldl_drained_halted (l : List (Nat × Part)) (p : Nat) (m : Module) (h : (m.part p).st = .halted ∨ ∃ e ∈ l, e.1 = p) :
    ((l.foldl (fun t e => t.drained e.1) m).part p).st = .halted := by
  induction l generalizing m with
  | nil => simpa using h
  | cons a l ih =>
    refine ih _ ?_
    rw [m.drained_part]
    by_cases hp : p = a.1
    · exact .inl (by rw [if_pos hp])
    · rw [if_neg hp]
      refine h.imp_right (fun ⟨e, he, hep⟩ => ?_)
      rcases List.mem_cons.1 he with rfl | he
      · exact absurd hep.symm hp
      · exact ⟨e, he, hep⟩

theorem Module.drainsOver_halts {m : Module} {p : Nat} (hd : (m.part p).st = .draining) (ht : (m.part p).taskRunning = false)
    (hf : (m.part p).drainFrom < m.now) : (m.drainsOver.part p).st = .halted := by
  rw [m.drainsOver_eq]
  refine foldl_drained_halted _ p m (.inr ?_)
  unfold Module.part kgetD at hd ht hf
  cases hk : kget? m.parts p with
  | none => rw [hk] at hd; cases hd
  | some x =>
    rw [hk] at hd ht hf
    refine ⟨(p, x), List.mem_filter.2 ⟨mem_of_kget? hk, ?_⟩, rfl⟩
    simpa using ⟨⟨hd, ht⟩, hf⟩

/-! ## The step -/

theorem tick_m (s : State) : (tick s).m = { s.m with
    pwr.sk := s.m.pwr.sk + (if s.m.mech.standby then 1 else 0)
    net.slot := s.m.net.slot + (if s.m.pwr.meshLocked then (if s.m.pwr.meshHalf then 108 else 216) else 0) } := by
  have hsk : (if s.m.mech.standby then s.m.pwr.sk + 1 else s.m.pwr.sk) = s.m.pwr.sk + (if s.m.mech.standby then 1 else 0) := by
    split <;> rfl
  have hslot : s.m.slotsPerSk = if s.m.pwr.meshLocked then (if s.m.pwr.meshHalf then 108 else 216) else 0 := by
    unfold Module.slotsPerSk
    cases s.m.pwr.meshLocked <;> rfl
  unfold tick
  rw [hsk, hslot]

theorem step_idle {s : State} (h : s.pending = []) : step s = after (tick s) (tick s).m.skBegins := by
  rw [step, h]; rfl

/-- Settles O2: a step with no command waiting is `skBegins` after `tick`; where nothing waits for the next sk each part of `skBegins`
but `drainsOver` is the identity. -/
theorem idleStepIsOneSk : Obligations.IdleStepIsOneSk := by
  unfold Obligations.IdleStepIsOneSk
  intro s hs m
  have htick : tick s = { s with m := m } := by
    have : tick s = { s with m := (tick s).m } := rfl
    rw [this, tick_m]
  have hstep : step s = after { s with m := m } m.hostAcks.copyAcks.drainsOver.herdsTick.restoresTick := by
    rw [step_idle hs, htick]; rfl
  clear_value m
  refine ⟨hstep, fun hreq hque hherd hrest => ?_⟩
  rw [Module.hostAcks_idle hreq, Module.copyAcks_idle hque, Module.herdsTick_idle (m.drainsOver_herds ▸ hherd),
    Module.restoresTick_idle (Module.RestoresIdle.drainsOver hrest)] at hstep
  refine ⟨fun hdrain => ?_, fun p hd ht hf => ?_⟩
  · rw [hstep, Module.drainsOver_idle hdrain]
    exact onModule_same (f := id) rfl rfl
  · refine ⟨_, hstep, hs, ?_⟩
    rw [settleIrq_part]
    exact Module.drainsOver_halts hd ht hf

/-- Settles O3: every field of the reset state has the value its structure names. -/
theorem resetIsCold : Obligations.ResetIsCold := by
  have hrule : PowerRule State.reset.m := by unfold PowerRule; decide
  exact ⟨rfl, rfl, rfl, rfl, rfl, rfl, rfl, rfl, rfl, rfl, rfl, hrule⟩

end Sys2Proof.Machine
end

section
/-! Register writes (R19, R20, R391): which register a write meets, the value it brings there, and what the register's block does with it. -/

namespace Sys2Proof.Machine

open Sys2Proof

/-! ## Fields and arrays -/

theorem fld_zero (x w : Nat) : fld x 0 w = x % 2 ^ w := by rw [fld, Nat.shiftRight_zero]

theorem put_zero (w v : Nat) : put 0 w v = v % 2 ^ w := by rw [put, Nat.shiftLeft_zero]

theorem keepBits_six {v : Nat} (h : v < 2 ^ 64) : keepBits v 6 64 = v / 64 * 64 := by
  simp only [keepBits, put, fld, Nat.shiftRight_eq_div_pow, Nat.shiftLeft_eq]
  omega

/-- The upper half of a 64-bit value is its bytes 4 to 7. -/
theorem upper_bytes {x : Nat} (h : x < 2 ^ 64) :
    put 32 8 (fld x 32 8) + put 40 8 (fld x 40 8) + put 48 8 (fld x 48 8) + put 56 8 (fld x 56 8) = x / 2 ^ 32 * 2 ^ 32 := by
  simp only [put, fld, Nat.shiftRight_eq_div_pow, Nat.shiftLeft_eq]
  omega

theorem arrayAt_elem {first step n i k : Nat} (hi : i < n) (hk : k < step) :
    arrayAt (first + step * i + k) first step n = some (i, k) := by
  have hlast : step * (i + 1) ≤ step * n := Nat.mul_le_mul_left _ hi
  rw [Nat.mul_add] at hlast
  have hdiff : first + step * i + k - first = k + step * i := by omega
  unfold arrayAt
  rw [if_pos (by simp; omega), hdiff, Nat.add_mul_div_left _ _ (by omega), Nat.div_eq_of_lt hk, Nat.add_mul_mod_self_left,
    Nat.mod_eq_of_lt hk, Nat.zero_add]

theorem arrayAt_above {o first step n : Nat} (h : first + step * n ≤ o) : arrayAt o first step n = none := by
  rw [arrayAt, if_neg (by simp; omega)]

theorem arrayAt_below {o first step n : Nat} (h : o < first) : arrayAt o first step n = none := by
  rw [arrayAt, if_neg (by simp; omega)]

/-- An element of an array begins at or below the offsets it holds. -/
theorem arrayAt_le {o first step n : Nat} {e : Nat × Nat} (h : arrayAt o first step n = some e) : first + step * e.1 ≤ o := by
  unfold arrayAt at h
  split at h
  · rename_i hin
    obtain ⟨hfirst, _⟩ := by simpa using hin
    injection h with h
    subst h
    have := Nat.mul_div_le (o - first) step
    dsimp only
    omega
  · cases h

/-! ## The register that a write meets -/

/-- Offset `o` of block `b` of BAR0, one of those that read 0 while the recovery loader serves (R531). -/
abbrev Served (b o : Nat) : Prop := b < 64 ∧ b ≠ 0 ∧ b ≠ 14 ∧ o < 0x10_0000

/-- The register at offset `o` of such a block: the cases of `regOf` for a running MMP. -/
def Module.servedReg (m : Module) (b o : Nat) : RegVal :=
  match b with
  | 1 => m.engReg o | 2 => m.netReg o | 3 => m.jigReg o | 4 => m.tierReg o | 5 => m.strReg o | 6 => m.fabReg o
  | 7 => m.hrdReg o | 8 => m.queReg o | 9 => m.krfReg o | 10 => m.pwrReg o | 11 => m.clkReg o | 12 => m.aosReg o
  | 13 => m.mmpReg o | _ => noReg o

theorem Module.regOf_served {m : Module} {b o : Nat} (hm : m.mmpRuns = true) (hp : Served b o) :
    m.regOf (0x10_0000 * b + o) = (m.servedReg b o).in_ b := by
  obtain ⟨hb, h0, h14, ho⟩ := hp
  have hdiv : (0x10_0000 * b + o) / 0x10_0000 = b := by omega
  have hmod : (0x10_0000 * b + o) % 0x10_0000 = o := by omega
  unfold Module.regOf
  rw [hdiv, hmod, hm, if_neg (by unfold bar2; omega), if_neg h0, if_neg h14]
  rfl

theorem Module.regOf_unserved {m : Module} {a : Nat} (hm : m.mmpRuns = false) (ha : a < bar2) (h0 : a / 0x10_0000 ≠ 0)
    (h14 : a / 0x10_0000 ≠ 14) : m.regOf a = noReg a := by
  have hstop : (!m.mmpRuns) = true := by rw [hm]; rfl
  unfold Module.regOf
  extract_lets o b r
  rw [if_neg (Nat.not_le.2 ha), if_neg h0, if_neg h14, if_pos hstop]

theorem Module.doorReg_bytes (m : Module) (o : Nat) : (m.doorReg o).bytes = 4 := by
  unfold Module.doorReg
  split <;> rfl

theorem Module.regOf_door {m : Module} {a : Nat} (ha : bar2 ≤ a) : (m.regOf a).base = a ∧ (m.regOf a).bytes = 4 := by
  obtain ⟨o, ho⟩ : ∃ o, m.regOf a = { m.doorReg o with base := a } := ⟨_, if_pos ha⟩
  rw [ho]
  exact ⟨rfl, m.doorReg_bytes o⟩

/-- The control register of a queue (R395). -/
theorem Module.queReg_ctrl {m : Module} {q : Nat} (hq : q < 1_024) :
    m.queReg (0x1_0000 + 64 * q + 28) = r4 (0x1_0000 + 64 * q + 28) 0 := by
  unfold Module.queReg
  simp only [arrayAt_above (show 0x100 + 16 * 16 ≤ 0x1_0000 + 64 * q + 28 by omega),
    arrayAt_above (show 0x200 + 16 * 256 ≤ 0x1_0000 + 64 * q + 28 by omega),
    arrayAt_above (show 0x2000 + 4 * 1_024 ≤ 0x1_0000 + 64 * q + 28 by omega), arrayAt_elem hq (show 28 < 64 by decide)]
  rw [if_neg (by omega), if_neg (by omega), if_neg (by simp), if_neg (by omega)]
  rfl

/-- The tag summary of a partition (R97). -/
theorem Module.engReg_tags {m : Module} {p : Nat} (hp : p < 16) :
    m.engReg (0x100 + 16 * p + 8) = r4 (0x100 + 16 * p + 8) ((m.part p).tags % 32) := by
  unfold Module.engReg
  simp only [arrayAt_elem hp (show 8 < 16 by decide)]
  iterate 11 rw [if_neg (by omega)]
  rw [if_neg (by decide), if_pos (by decide)]
  congr 1
  omega

/-! ## The value that a write brings to its register -/

/-- The bytes of a register that a write of its first `n` bytes leaves. -/
def RegVal.kept (r : RegVal) (n : Nat) : Nat :=
  (List.range r.bytes).foldl (fun x i => if i < n then x else x + put (8 * i) 8 (fld r.val (8 * i) 8)) 0

theorem Module.writeBytesAt_first {m : Module} {src : Source} {a n v : Nat} (hb : (m.regOf a).base = a) (hv : v < 2 ^ (8 * n)) :
    m.writeBytesAt src a n v = m.putReg src a ((m.regOf a).kept n + v) (2 ^ (8 * n) - 1) := by
  unfold Module.writeBytesAt
  extract_lets r sh mask old
  have hsh : sh = 0 := by show 8 * (a - (m.regOf a).base) = 0; rw [hb, Nat.sub_self]
  have hmask : mask = 2 ^ (8 * n) - 1 := by
    show put sh (8 * n) (2 ^ (8 * n) - 1) = _
    rw [hsh, put_zero, Nat.mod_eq_of_lt (by omega)]
  have hput : put sh (8 * n) v = v := by rw [hsh, put_zero, Nat.mod_eq_of_lt hv]
  have hcond : ∀ i, (decide (sh / 8 ≤ i) && decide (i < sh / 8 + n)) = decide (i < n) := fun i => by
    rw [hsh, Nat.zero_div, Nat.zero_add, decide_eq_true (Nat.zero_le i), Bool.true_and]
  have hold : old = (m.regOf a).kept n := by
    show (List.range r.bytes).foldl _ 0 = _
    simp only [hcond, decide_eq_true_eq, RegVal.kept, r]
  rw [hold, hput, hmask, hb]

/-- A write of the whole of a register. -/
theorem Module.writeBytesAt_whole {m : Module} {src : Source} {a n v : Nat} (hb : (m.regOf a).base = a) (hn : (m.regOf a).bytes = n)
    (hv : v < 2 ^ (8 * n)) : m.writeBytesAt src a n v = m.putReg src a v (2 ^ (8 * n) - 1) := by
  have hkept : (m.regOf a).kept n = 0 := by
    unfold RegVal.kept
    rw [hn]
    exact List.foldlRecOn (motive := fun x => x = 0) _ _ rfl (fun x hx i hi => by rw [if_pos (List.mem_range.1 hi), hx])
  rw [Module.writeBytesAt_first hb hv, hkept, Nat.zero_add]

/-- A write of the low half of a register of 8 B keeps the other half. -/
theorem Module.writeBytesAt_low {m : Module} {src : Source} {a v : Nat} (hb : (m.regOf a).base = a) (hn : (m.regOf a).bytes = 8)
    (hx : (m.regOf a).val < 2 ^ 64) (hv : v < 2 ^ 32) :
    m.writeBytesAt src a 4 v = m.putReg src a ((m.regOf a).val / 2 ^ 32 * 2 ^ 32 + v) (2 ^ 32 - 1) := by
  have hkept : (m.regOf a).kept 4 = (m.regOf a).val / 2 ^ 32 * 2 ^ 32 := by
    rw [← upper_bytes hx, RegVal.kept, hn]
    show 0 + _ + _ + _ + _ = _
    rw [Nat.zero_add]
  exact hkept ▸ Module.writeBytesAt_first hb hv

/-- What a register of a served block does with its value: the cases of `putReg` for a running MMP. -/
def Module.putServed (m : Module) (src : Source) (b o v mask : Nat) : Module :=
  match b with
  | 1 => m.writeEng o v (v &&& mask) | 3 => m.writeJig src o v | 4 => m.writeTier src o v | 5 => m.writeStr src o v
  | 6 => m.writeFab src o v | 8 => m.writeQue src o v mask | 9 => m.writeKrf src o v | 10 => m.writePwr src o v
  | 12 => m.writeAos src o v (v &&& mask) | _ => m

theorem Module.putReg_served {m : Module} {src : Source} {b o v mask : Nat} (hm : m.mmpRuns = true) (hp : Served b o) :
    m.putReg src (0x10_0000 * b + o) v mask = m.putServed src b o v mask := by
  obtain ⟨hb, h0, h14, ho⟩ := hp
  have hdiv : (0x10_0000 * b + o) / 0x10_0000 = b := by omega
  have hmod : (0x10_0000 * b + o) % 0x10_0000 = o := by omega
  unfold Module.putReg
  rw [hdiv, hmod, hm, if_neg (by unfold bar2; omega), if_neg h0, if_neg h14]
  rfl

theorem Module.putReg_unserved {m : Module} {src : Source} {a v mask : Nat} (hm : m.mmpRuns = false) (ha : a < bar2)
    (h0 : a / 0x10_0000 ≠ 0) (h14 : a / 0x10_0000 ≠ 14) : m.putReg src a v mask = m := by
  have hstop : (!m.mmpRuns) = true := by rw [hm]; rfl
  unfold Module.putReg
  extract_lets o b
  rw [if_neg (Nat.not_le.2 ha), if_neg h0, if_neg h14, if_pos hstop]

theorem Module.putReg_door {m : Module} {src : Source} {o v mask : Nat} : m.putReg src (bar2 + o) v mask = m.writeDoor src o v := by
  unfold Module.putReg
  rw [if_pos (by omega), Nat.add_sub_cancel_left]

/-! ## Blocks of read-only registers: NET_, HRD_, CLK_ and MMP_ -/

theorem Module.netReg_base_le (m : Module) (o : Nat) : (m.netReg o).base ≤ o := by
  unfold Module.netReg
  split; · exact Nat.le_refl o
  split; · exact Nat.le_refl o
  split; · exact Nat.le_refl o
  split
  · rename_i h
    show 0x10 ≤ o
    simp at h; omega
  · split
    · exact arrayAt_le ‹_›
    · exact Nat.le_refl o

theorem Module.hrdReg_base_le (m : Module) (o : Nat) : (m.hrdReg o).base ≤ o := by
  unfold Module.hrdReg
  split; · exact Nat.le_refl o
  split; · exact Nat.le_refl o
  split; · exact Nat.le_refl o
  split
  · exact Nat.le_refl o
  · exact arrayAt_le ‹_›
  · exact Nat.le_refl o

theorem Module.clkReg_base_le (m : Module) (o : Nat) : (m.clkReg o).base ≤ o := by
  unfold Module.clkReg
  extract_lets w
  split; · exact Nat.le_refl o
  split; · exact Nat.le_refl o
  split
  · rename_i h
    show 0x10 ≤ o
    simp at h; omega
  · split <;> exact Nat.le_refl o

theorem Module.mmpReg_base_le (m : Module) (o : Nat) : (m.mmpReg o).base ≤ o := by
  unfold Module.mmpReg
  split
  · rename_i h
    have := arrayAt_le h
    show 8 * _ ≤ o
    omega
  · exact arrayAt_le ‹_›
  · exact Nat.le_refl o

theorem Module.servedReg_base_le {m : Module} {b : Nat} (hb : b ∈ [2, 7, 11, 13]) (o : Nat) : (m.servedReg b o).base ≤ o := by
  simp only [List.mem_cons, List.not_mem_nil, or_false] at hb
  obtain rfl | rfl | rfl | rfl := hb
  · exact m.netReg_base_le o
  · exact m.hrdReg_base_le o
  · exact m.clkReg_base_le o
  · exact m.mmpReg_base_le o

theorem Module.putServed_readOnly {m : Module} {src : Source} {b o v mask : Nat} (hb : b ∈ [2, 7, 11, 13]) :
    m.putServed src b o v mask = m := by
  simp only [List.mem_cons, List.not_mem_nil, or_false] at hb
  obtain rfl | rfl | rfl | rfl := hb <;> rfl

theorem Module.putReg_readOnlyBlock {m : Module} {src : Source} {a v mask : Nat} (hm : m.mmpRuns = true)
    (hb : a / 0x10_0000 ∈ [2, 7, 11, 13]) : m.putReg src (m.regOf a).base v mask = m := by
  have hle := m.servedReg_base_le hb (a % 0x10_0000)
  have hplace : ∀ o, o < 0x10_0000 → Served (a / 0x10_0000) o := fun o ho => by
    simp only [List.mem_cons, List.not_mem_nil, or_false] at hb
    exact ⟨by omega, by omega, by omega, ho⟩
  have hreg := Module.regOf_served hm (hplace (a % 0x10_0000) (Nat.mod_lt _ (by decide)))
  rw [Nat.div_add_mod] at hreg
  rw [hreg]
  exact (Module.putReg_served hm (hplace _ (by omega))).trans (Module.putServed_readOnly hb)

/-! ## The command -/

/-- A command whose effect R522 does not watch. -/
theorem after_quiet {s : State} {m : Module} (h : m.watched = s.m.watched) : after s m = .next { s with m := m } :=
  onModule_same (f := fun _ => m) rfl h

theorem after_self (s : State) : after s s.m = .next s := after_quiet rfl

theorem registerWrite_rejected {s : State} {src : Source} {v : Reg64} {o : Nat} {wide : Bool}
    (h : o % (if wide then 8 else 4) ≠ 0 ∨ bar2 + 0x40_0000 ≤ o ∨ s.m.canWrite src = false) :
    exec (.registerWrite src o wide v) s = .next s := by
  have same : doRegisterWrite src o wide v s.m = s.m := by
    unfold doRegisterWrite
    rw [if_pos (by simpa [or_assoc] using h)]
  exact onModule_same same rfl

section Writes

variable {s : State} {src : Source} {v : Reg64}

theorem registerWrite_word {o : Nat} (hw : s.m.canWrite src = true) (ha : o % 4 = 0) (hlt : o < bar2 + 0x40_0000) :
    exec (.registerWrite src o false v) s = after s (s.m.writeBytesAt src o 4 (v.toNat % 2 ^ 32)) := by
  refine onModule_of ?_
  unfold doRegisterWrite
  rw [if_neg (by simp [ha, hlt, hw]), fld_zero]
  rfl

theorem registerWrite_reg4 {o : Nat} (hw : s.m.canWrite src = true) (ha : o % 4 = 0) (hlt : o < bar2 + 0x40_0000)
    (hb : (s.m.regOf o).base = o) (hn : (s.m.regOf o).bytes = 4) :
    exec (.registerWrite src o false v) s = after s (s.m.putReg src o (v.toNat % 2 ^ 32) (2 ^ 32 - 1)) := by
  rw [registerWrite_word hw ha hlt, Module.writeBytesAt_whole hb hn (Nat.mod_lt _ (by decide))]

theorem registerWrite_reg8 {o : Nat} (hw : s.m.canWrite src = true) (ha : o % 8 = 0) (hlt : o < bar2 + 0x40_0000)
    (hb : (s.m.regOf o).base = o) (hn : (s.m.regOf o).bytes = 8) :
    exec (.registerWrite src o true v) s = after s (s.m.putReg src o v.toNat (2 ^ 64 - 1)) := by
  refine onModule_of ?_
  unfold doRegisterWrite
  rw [if_neg (by simp [ha, hlt, hw]), if_neg (by simp), ← Module.writeBytesAt_whole hb hn v.isLt]
  exact if_pos (by omega)

/-- A write that its register ignores, whatever the value. -/
theorem registerWrite_ignored {o b : Nat} (hw : s.m.canWrite src = true) (ha : o % 4 = 0) (hlt : o < bar2 + 0x40_0000)
    (hb : (s.m.regOf o).base = b) (h : ∀ x mask, s.m.putReg src b x mask = s.m) : exec (.registerWrite src o false v) s = .next s := by
  rw [registerWrite_word hw ha hlt, Module.writeBytesAt, hb, h, after_self]

theorem registerWrite_served4 {b o : Nat} (hw : s.m.canWrite src = true) (hm : s.m.mmpRuns = true) (hp : Served b o) (ha : o % 4 = 0)
    (hb : (s.m.servedReg b o).base = o) (hn : (s.m.servedReg b o).bytes = 4) :
    exec (.registerWrite src (0x10_0000 * b + o) false v) s
      = after s (s.m.putServed src b o (v.toNat % 2 ^ 32) (2 ^ 32 - 1)) := by
  have hreg := Module.regOf_served hm hp
  obtain ⟨hlt, _, _, ho⟩ := id hp
  rw [registerWrite_reg4 hw (by omega) (by unfold bar2; omega) (by rw [hreg, RegVal.in_, hb]) (by rw [hreg, RegVal.in_, hn]),
    Module.putReg_served hm hp]

theorem registerWrite_served8 {b o : Nat} (hw : s.m.canWrite src = true) (hm : s.m.mmpRuns = true) (hp : Served b o) (ha : o % 8 = 0)
    (hb : (s.m.servedReg b o).base = o) (hn : (s.m.servedReg b o).bytes = 8) :
    exec (.registerWrite src (0x10_0000 * b + o) true v) s = after s (s.m.putServed src b o v.toNat (2 ^ 64 - 1)) := by
  have hreg := Module.regOf_served hm hp
  obtain ⟨hlt, _, _, ho⟩ := id hp
  rw [registerWrite_reg8 hw (by omega) (by unfold bar2; omega) (by rw [hreg, RegVal.in_, hb]) (by rw [hreg, RegVal.in_, hn]),
    Module.putReg_served hm hp]

/-! ### MOD_ and SEC_, which the recovery loader serves too (R267, R531, R541) -/

theorem registerWrite_modCtrl (hw : s.m.canWrite src = true) :
    exec (.registerWrite src 0x1C false v) s = after s (s.m.writeMod src 0x1C (v.toNat % 2 ^ 32)) :=
  registerWrite_reg4 hw rfl (by decide) rfl rfl

theorem Module.writeMod_ctrl {m : Module} {x : Nat} : (x % 4 = 1 → m.writeMod src 0x1C x = doEnterRecovery src m)
    ∧ (x % 4 = 2 → m.writeMod src 0x1C x = doLeaveService src m) ∧ (x % 4 = 0 ∨ x % 4 = 3 → m.writeMod src 0x1C x = m) := by
  unfold Module.writeMod
  rw [if_neg (by decide)]
  exact ⟨fun h => by rw [h]; rfl, fun h => by rw [h]; rfl, fun h => by rcases h with h | h <;> (rw [h]; rfl)⟩

theorem registerWrite_readOnly (hw : s.m.canWrite src = true) :
    ∀ o ∈ [0x0, 0x8, 0xC, 0x10, 0x18, 0xE0_0000, 0xE0_0008, 0xE0_0070, 0xE0_0090], exec (.registerWrite src o false v) s = .next s := by
  intro o ho
  have haddr : o % 4 = 0 ∧ o < bar2 + 0x40_0000 :=
    (by decide : ∀ o ∈ [0x0, 0x8, 0xC, 0x10, 0x18, 0xE0_0000, 0xE0_0008, 0xE0_0070, 0xE0_0090], o % 4 = 0 ∧ o < bar2 + 0x40_0000) o ho
  have hquiet : (s.m.regOf o).base = o ∧ ∀ x mask, s.m.putReg src o x mask = s.m := by
    simp only [List.mem_cons, List.not_mem_nil, or_false] at ho
    obtain rfl | rfl | rfl | rfl | rfl | rfl | rfl | rfl | rfl := ho <;> exact ⟨rfl, fun _ _ => rfl⟩
  exact registerWrite_ignored hw haddr.1 haddr.2 hquiet.1 hquiet.2

theorem registerWrite_secCmdAddr (hw : s.m.canWrite src = true) :
    exec (.registerWrite src 0xE0_0080 true v) s = .next { s with m := { s.m with sec.cmdAddr := v.toNat / 64 * 64 } } := by
  rw [registerWrite_reg8 hw rfl (by decide) rfl rfl, ← keepBits_six v.isLt]
  exact after_quiet rfl

theorem registerWrite_secCmdLen (hw : s.m.canWrite src = true) :
    exec (.registerWrite src 0xE0_0088 false v) s = .next { s with m := { s.m with sec.cmdLen := v.toNat % 2 ^ 32 % 2 ^ 26 } } := by
  rw [registerWrite_reg4 hw rfl (by decide) rfl rfl, ← fld_zero _ 26]
  exact after_quiet rfl

theorem registerWrite_secCmd (hw : s.m.canWrite src = true) :
    exec (.registerWrite src 0xE0_008C false v) s = after s (s.m.writeSec src 0x8C (v.toNat % 2 ^ 32)) :=
  registerWrite_reg4 hw rfl (by decide) rfl rfl

theorem Module.writeSec_holds {m : Module} {x : Nat} (h : x % 16 ∈ [1, 2, 4, 7]) : m.writeSec src 0x8C x = m.secHold (x % 16) := by
  have hop : fld x 0 4 = x % 16 := fld_zero x 4
  unfold Module.writeSec
  rw [if_neg (by decide), if_neg (by decide), if_neg (by decide), if_pos rfl, hop]
  exact if_pos (by simpa [or_assoc] using h)

theorem Module.writeSec_runs {m : Module} {x : Nat} (h : x % 16 ∈ [3, 5, 6, 8]) :
    m.writeSec src 0x8C x = m.secRun (.bar src) (x % 16) [] := by
  have hop : fld x 0 4 = x % 16 := fld_zero x 4
  have hnot : ¬ x % 16 ∈ [1, 2, 4, 7] := fun h' => by simp at h h'; omega
  unfold Module.writeSec
  rw [if_neg (by decide), if_neg (by decide), if_neg (by decide), if_pos rfl, hop]
  exact if_neg (by simpa [and_assoc] using hnot)

/-- SEC_CMD with the OP of a command that takes no input. -/
theorem registerWrite_secRun (hw : s.m.canWrite src = true) {op : Nat} (hop : op ∈ [3, 5, 6, 8]) (h : v.toNat % 2 ^ 32 % 16 = op) :
    exec (.registerWrite src 0xE0_008C false v) s = after s (s.m.secRun (.bar src) op []) := by
  subst h
  rw [registerWrite_secCmd hw, Module.writeSec_runs hop]

/-! ### Doorbells (R396) -/

theorem registerWrite_door {q k : Nat} (hw : s.m.canWrite src = true) (hq : q < 1_024) (hk : k < 4_096) (ha : k % 4 = 0) :
    exec (.registerWrite src (bar2 + 4_096 * q + k) false v) s = after s (s.m.writeDoor src (4_096 * q + k) (v.toNat % 2 ^ 32)) := by
  obtain ⟨hb, hn⟩ := s.m.regOf_door (a := bar2 + 4_096 * q + k) (by omega)
  rw [registerWrite_reg4 hw (by unfold bar2; omega) (by omega) hb hn, Nat.add_assoc, Module.putReg_door]

theorem Module.writeDoor_place {m : Module} {q k x : Nat} (hk : k < 4_096) : m.writeDoor src (4_096 * q + k) x =
    if k = 0 then doQueSqTail q (BitVec.ofNat 32 x) m else if k = 4 then doQueCqHead q (BitVec.ofNat 32 x) m
    else if k = 8 then (if x % 4 = 1 then doSkip src q m else if x % 4 = 2 then doRetry src q m else m) else m := by
  have hdiv : (4_096 * q + k) / 4_096 = q := by omega
  have hmod : (4_096 * q + k) % 4_096 = k := by omega
  unfold Module.writeDoor
  simp only [hdiv, hmod]
  congr 3
  split
  · rename_i h; rw [if_pos h]
  · rename_i h; rw [if_neg (by omega), if_pos h]
  · rename_i h1 h2; rw [if_neg h1, if_neg h2]

theorem registerWrite_doorbells {q : Nat} (hw : s.m.canWrite src = true) (hq : q < 1_024) :
    let lo := v.toNat % 2 ^ 32
    exec (.registerWrite src (bar2 + 4_096 * q) false v) s = exec (.queSqTail q (BitVec.ofNat 32 lo)) s
    ∧ exec (.registerWrite src (bar2 + 4_096 * q + 4) false v) s = exec (.queCqHead q (BitVec.ofNat 32 lo)) s
    ∧ (lo % 4 = 1 → exec (.registerWrite src (bar2 + 4_096 * q + 8) false v) s = exec (.skip src q) s)
    ∧ (lo % 4 = 2 → exec (.registerWrite src (bar2 + 4_096 * q + 8) false v) s = exec (.retry src q) s) := by
  intro lo
  have door : ∀ k, k < 4_096 → k % 4 = 0 →
      exec (.registerWrite src (bar2 + 4_096 * q + k) false v) s = after s (s.m.writeDoor src (4_096 * q + k) lo) :=
    fun k hk ha => registerWrite_door hw hq hk ha
  refine ⟨?_, ?_, fun h => ?_, fun h => ?_⟩
  · refine (door 0 (by decide) rfl).trans ?_
    rw [Module.writeDoor_place (by decide), if_pos rfl]
    rfl
  · rw [door 4 (by decide) rfl, Module.writeDoor_place (by decide), if_neg (by decide), if_pos rfl]
    rfl
  · rw [door 8 (by decide) rfl, Module.writeDoor_place (by decide), if_neg (by decide), if_neg (by decide), if_pos rfl, if_pos h]
    rfl
  · rw [door 8 (by decide) rfl, Module.writeDoor_place (by decide), if_neg (by decide), if_neg (by decide), if_pos rfl,
      if_neg (by omega), if_pos h]
    rfl

/-! ### Blocks that an MMP serves -/

theorem registerWrite_unserved {o : Nat} (hw : s.m.canWrite src = true) (hm : s.m.mmpRuns = false) (ho : o < bar2) (ha : o % 4 = 0)
    (h0 : o / 0x10_0000 ≠ 0) (h14 : o / 0x10_0000 ≠ 14) : exec (.registerWrite src o false v) s = .next s :=
  registerWrite_ignored hw ha (Nat.lt_add_right _ ho) (by rw [Module.regOf_unserved hm ho h0 h14]; rfl)
    (fun _ _ => Module.putReg_unserved hm ho h0 h14)

theorem registerWrite_readOnlyBlock {o : Nat} (hw : s.m.canWrite src = true) (hm : s.m.mmpRuns = true) (ha : o % 4 = 0)
    (hb : o / 0x10_0000 ∈ [2, 7, 11, 13]) : exec (.registerWrite src o false v) s = .next s :=
  registerWrite_ignored hw ha (by simp at hb; unfold bar2; omega) rfl (fun _ _ => Module.putReg_readOnlyBlock hm hb)

/-! ### JIG_ (R265) -/

theorem registerWrite_jigCtrl (hw : s.m.canWrite src = true) (hm : s.m.mmpRuns = true) :
    exec (.registerWrite src 0x30_0020 false v) s = after s (s.m.writeJig src 0x20 (v.toNat % 2 ^ 32)) :=
  registerWrite_served4 (b := 3) (o := 0x20) hw hm (by decide) rfl rfl rfl

theorem registerWrite_jigAddr (hw : s.m.canWrite src = true) (hm : s.m.mmpRuns = true) :
    exec (.registerWrite src 0x30_0008 true v) s = after s (s.m.writeJig src 0x8 v.toNat) :=
  registerWrite_served8 (b := 3) (o := 0x8) hw hm (by decide) rfl rfl rfl

theorem registerWrite_jigAddrLow (hw : s.m.canWrite src = true) (hm : s.m.mmpRuns = true) (hx : s.m.jig.addr < 2 ^ 64) :
    exec (.registerWrite src 0x30_0008 false v) s
      = after s (s.m.writeJig src 0x8 (s.m.jig.addr / 2 ^ 32 * 2 ^ 32 + v.toNat % 2 ^ 32)) := by
  have hreg : s.m.regOf 0x30_0008 = (r8 0x8 s.m.jig.addr).in_ 3 := Module.regOf_served (b := 3) (o := 0x8) hm (by decide)
  have hval : (s.m.regOf 0x30_0008).val = s.m.jig.addr := by rw [hreg]; exact Nat.mod_eq_of_lt hx
  have hput := Module.putReg_served (src := src) (b := 3) (o := 0x8) (v := s.m.jig.addr / 2 ^ 32 * 2 ^ 32 + v.toNat % 2 ^ 32)
    (mask := 2 ^ 32 - 1) hm (by decide)
  rw [registerWrite_word hw rfl (by decide), Module.writeBytesAt_low (by rw [hreg]; rfl) (by rw [hreg]; rfl) (hval ▸ hx)
    (Nat.mod_lt _ (by decide)), hval]
  exact congrArg (after s) hput

theorem Module.writeJig_ctrl {m : Module} {x : Nat} : (x % 8 = 1 → m.writeJig src 0x20 x = doStart src m)
    ∧ (x % 8 = 2 → m.writeJig src 0x20 x = doArmFabric src m) ∧ (x % 8 = 4 → m.writeJig src 0x20 x = doDisarm src m) := by
  unfold Module.writeJig
  rw [if_pos rfl]
  exact ⟨fun h => by rw [h]; rfl, fun h => by rw [h]; rfl, fun h => by rw [h]; rfl⟩

theorem Module.writeJig_addr {m : Module} (hc : m.cfgOk src = true) (x : Nat) :
    m.writeJig src 0x8 x = { m with jig.addr := x } := by
  unfold Module.writeJig
  rw [if_neg (by decide), hc]
  rfl

theorem Module.writeJig_frozen {m : Module} (hc : m.cfgOk src = false) (x : Nat) : m.writeJig src 0x8 x = m := by
  unfold Module.writeJig
  rw [if_neg (by decide), hc]
  rfl

theorem registerWrite_jig (hw : s.m.canWrite src = true) (hm : s.m.mmpRuns = true) :
    let lo := v.toNat % 2 ^ 32
    (lo % 8 = 1 → exec (.registerWrite src 0x30_0020 false v) s = exec (.start src) s)
    ∧ (lo % 8 = 2 → exec (.registerWrite src 0x30_0020 false v) s = exec (.armFabric src) s)
    ∧ (lo % 8 = 4 → exec (.registerWrite src 0x30_0020 false v) s = exec (.disarm src) s)
    ∧ (s.m.cfgOk src = true → exec (.registerWrite src 0x30_0008 true v) s = .next { s with m := { s.m with jig.addr := v.toNat } }
      ∧ (s.m.jig.addr < 2 ^ 64 → exec (.registerWrite src 0x30_0008 false v) s
          = .next { s with m := { s.m with jig.addr := s.m.jig.addr / 2 ^ 32 * 2 ^ 32 + lo } }))
    ∧ (s.m.cfgOk src = false → exec (.registerWrite src 0x30_0008 true v) s = .next s) := by
  intro lo
  obtain ⟨start, arm, disarm⟩ := s.m.writeJig_ctrl (src := src) (x := lo)
  have ctrl : exec (.registerWrite src 0x30_0020 false v) s = after s (s.m.writeJig src 0x20 lo) := registerWrite_jigCtrl hw hm
  refine ⟨fun h => ctrl.trans (congrArg (after s) (start h)), fun h => ctrl.trans (congrArg (after s) (arm h)),
    fun h => ctrl.trans (congrArg (after s) (disarm h)), fun hc => ⟨?_, fun hx => ?_⟩, fun hc => ?_⟩
  · rw [registerWrite_jigAddr hw hm, Module.writeJig_addr hc]
    exact after_quiet rfl
  · rw [registerWrite_jigAddrLow hw hm hx, Module.writeJig_addr hc]
    exact after_quiet rfl
  · rw [registerWrite_jigAddr hw hm, Module.writeJig_frozen hc, after_self]

/-! ### Registers that only the lease holder writes (R301, R382, R484, R541) -/

theorem Module.writeTier_lowWater {m : Module} (hh : m.holderOk src = true) (x : Nat) :
    m.writeTier src 0x40 x = { m with tier.lowWater := x % 2 ^ 32 } := by
  rw [← fld_zero]
  unfold Module.writeTier
  rw [hh]
  rfl

theorem Module.writeTier_other {m : Module} (hh : m.holderOk src = false) (o x : Nat) : m.writeTier src o x = m := by
  unfold Module.writeTier
  rw [hh]
  rfl

theorem Module.writeFab_vlan {m : Module} (hh : m.holderOk src = true) (ha : m.anyActive = false) (x : Nat) :
    m.writeFab src 0x18 x = { m with fab.vlan := x % 2 ^ 12 } := by
  rw [← fld_zero]
  unfold Module.writeFab
  rw [hh, ha]
  rfl

theorem Module.writeFab_ignored {m : Module} (h : m.holderOk src = false ∨ m.anyActive = true) (o x : Nat) : m.writeFab src o x = m :=
  if_pos (by simpa using h)

theorem Module.writePwr_ctrl {m : Module} (hh : m.holderOk src = true) (x : Nat) :
    m.writePwr src 0x1C x = Module.recap { m with pwr.ctrl := x % 2 + put 8 9 (min 310 (max 60 (fld x 8 9))) } := by
  have hbit : put 0 1 x = x % 2 := put_zero 1 x
  rw [← hbit]
  unfold Module.writePwr
  rw [if_neg (by decide), if_neg (by decide), hh]
  rfl

theorem Module.writePwr_ctrl_other {m : Module} (hh : m.holderOk src = false) (x : Nat) : m.writePwr src 0x1C x = m := by
  unfold Module.writePwr
  rw [if_neg (by decide), if_neg (by decide), hh]
  rfl

theorem Module.writeSec_quoteLimit {m : Module} (hh : m.holderOk src = true) (x : Nat) :
    m.writeSec src 0x78 x = { m with sec.quoteLimit := min 1_024 (max 1 (x % 2 ^ 11)) } := by
  rw [← fld_zero]
  unfold Module.writeSec
  rw [hh]
  rfl

theorem Module.writeSec_quoteLimit_other {m : Module} (hh : m.holderOk src = false) (x : Nat) : m.writeSec src 0x78 x = m := by
  unfold Module.writeSec
  rw [hh]
  rfl

theorem registerWrite_lowWater (hw : s.m.canWrite src = true) (hm : s.m.mmpRuns = true) :
    exec (.registerWrite src 0x40_0040 false v) s = after s (s.m.writeTier src 0x40 (v.toNat % 2 ^ 32)) :=
  registerWrite_served4 (b := 4) (o := 0x40) hw hm (by decide) rfl rfl rfl

theorem registerWrite_vlan (hw : s.m.canWrite src = true) (hm : s.m.mmpRuns = true) :
    exec (.registerWrite src 0x60_0018 false v) s = after s (s.m.writeFab src 0x18 (v.toNat % 2 ^ 32)) :=
  registerWrite_served4 (b := 6) (o := 0x18) hw hm (by decide) rfl rfl rfl

theorem registerWrite_pwrCtrl (hw : s.m.canWrite src = true) (hm : s.m.mmpRuns = true) :
    exec (.registerWrite src 0xA0_001C false v) s = after s (s.m.writePwr src 0x1C (v.toNat % 2 ^ 32)) :=
  registerWrite_served4 (b := 10) (o := 0x1C) hw hm (by decide) rfl rfl rfl

theorem registerWrite_quoteLimit (hw : s.m.canWrite src = true) :
    exec (.registerWrite src 0xE0_0078 false v) s = after s (s.m.writeSec src 0x78 (v.toNat % 2 ^ 32)) :=
  registerWrite_reg4 hw rfl (by decide) rfl rfl

/-- What the lease holder's writes do. -/
theorem registerWrite_holder (hw : s.m.canWrite src = true) (hm : s.m.mmpRuns = true) (hh : s.m.holderOk src = true) :
    let lo := v.toNat % 2 ^ 32
    exec (.registerWrite src 0x40_0040 false v) s = .next { s with m := { s.m with tier.lowWater := lo } }
    ∧ (s.m.anyActive = false → exec (.registerWrite src 0x60_0018 false v) s = .next { s with m := { s.m with fab.vlan := lo % 2 ^ 12 } })
    ∧ (s.m.anyActive = true → exec (.registerWrite src 0x60_0018 false v) s = .next s)
    ∧ exec (.registerWrite src 0xA0_001C false v) s
        = after s (Module.recap { s.m with pwr.ctrl := lo % 2 + put 8 9 (min 310 (max 60 (fld lo 8 9))) })
    ∧ exec (.registerWrite src 0xE0_0078 false v) s
        = .next { s with m := { s.m with sec.quoteLimit := min 1_024 (max 1 (lo % 2 ^ 11)) } } := by
  refine ⟨?_, fun ha => ?_, fun ha => ?_, ?_, ?_⟩
  · rw [registerWrite_lowWater hw hm, Module.writeTier_lowWater hh, Nat.mod_mod]
    exact after_quiet rfl
  · rw [registerWrite_vlan hw hm, Module.writeFab_vlan hh ha]
    exact after_quiet rfl
  · rw [registerWrite_vlan hw hm, Module.writeFab_ignored (.inr ha), after_self]
  · rw [registerWrite_pwrCtrl hw hm, Module.writePwr_ctrl hh]
  · rw [registerWrite_quoteLimit hw, Module.writeSec_quoteLimit hh]
    exact after_quiet rfl

/-- The same writes from anyone else do nothing. -/
theorem registerWrite_other (hw : s.m.canWrite src = true) (hm : s.m.mmpRuns = true) (hh : s.m.holderOk src = false) :
    ∀ o ∈ [0x40_0040, 0x60_0018, 0xA0_001C, 0xE0_0078], exec (.registerWrite src o false v) s = .next s := by
  simp only [List.forall_mem_cons, List.not_mem_nil, false_imp_iff, implies_true, and_true]
  refine ⟨?_, ?_, ?_, ?_⟩
  · rw [registerWrite_lowWater hw hm, Module.writeTier_other hh, after_self]
  · rw [registerWrite_vlan hw hm, Module.writeFab_ignored (.inl hh), after_self]
  · rw [registerWrite_pwrCtrl hw hm, Module.writePwr_ctrl_other hh, after_self]
  · rw [registerWrite_quoteLimit hw, Module.writeSec_quoteLimit_other hh, after_self]

/-! ### Command registers of KRF_, PWR_, AOS_, QUE_ and ENG_ (R97, R394, R447, R484, R521, R522) -/

theorem registerWrite_krfCtrl (hw : s.m.canWrite src = true) (hm : s.m.mmpRuns = true) :
    exec (.registerWrite src 0x90_0020 false v) s = exec (.serve src (BitVec.ofNat 64 (v.toNat % 2 ^ 32))) s :=
  registerWrite_served4 (b := 9) (o := 0x20) hw hm (by decide) rfl rfl rfl

theorem registerWrite_pwrCap (hw : s.m.canWrite src = true) (hm : s.m.mmpRuns = true) :
    exec (.registerWrite src 0xA0_0008 true v) s = exec (.pwrCap src v) s := by
  have h := registerWrite_served8 (v := v) (b := 10) (o := 0x8) hw hm (by decide) rfl rfl rfl
  refine h.trans (congrArg (fun x => after s (doPwrCap src x s.m)) ?_)
  exact BitVec.ofNat_toNat .. |>.trans (BitVec.setWidth_eq v)

theorem registerWrite_pwrHeartbeat (hw : s.m.canWrite src = true) (hm : s.m.mmpRuns = true) :
    exec (.registerWrite src 0xA0_0010 true v) s = exec (.pwrMgrHeartbeat src v) s := by
  have h := registerWrite_served8 (v := v) (b := 10) (o := 0x10) hw hm (by decide) rfl rfl rfl
  refine h.trans (congrArg (fun x => after s (doPwrMgrHeartbeat src x s.m)) ?_)
  exact BitVec.ofNat_toNat .. |>.trans (BitVec.setWidth_eq v)

theorem registerWrite_leaseClaim (hw : s.m.canWrite src = true) (hm : s.m.mmpRuns = true) :
    exec (.registerWrite src 0xC0_0010 false v) s = exec (.aosLeaseClaim src (BitVec.ofNat 64 (v.toNat % 2 ^ 32))) s :=
  registerWrite_served4 (b := 12) (o := 0x10) hw hm (by decide) rfl rfl rfl

/-- Every bit of a 4 B register is written. -/
theorem written_bits (x : Nat) : x % 2 ^ 32 &&& (2 ^ 32 - 1) = x % 2 ^ 32 := by
  rw [Nat.and_two_pow_sub_one_eq_mod, Nat.mod_mod]

theorem registerWrite_irqStatus (hw : s.m.canWrite src = true) (hm : s.m.mmpRuns = true) :
    exec (.registerWrite src 0xC0_0040 false v) s = exec (.irqStatusClear src (BitVec.ofNat 64 (v.toNat % 2 ^ 32))) s := by
  have h := registerWrite_served4 (v := v) (b := 12) (o := 0x40) hw hm (by decide) rfl rfl rfl
  exact h.trans (congrArg (fun x => after s (doIrqStatusClear src (BitVec.ofNat 64 x) s.m)) (written_bits _))

theorem registerWrite_irqEn (hw : s.m.canWrite src = true) (hm : s.m.mmpRuns = true) :
    exec (.registerWrite src 0xC0_0044 false v) s = .next { s with m := { s.m with sup.irqEn := v.toNat % 2 ^ 32 % 2 ^ 7 } } := by
  have h := registerWrite_served4 (v := v) (b := 12) (o := 0x44) hw hm (by decide) rfl rfl rfl
  rw [← fld_zero _ 7]
  exact h.trans (after_quiet rfl)

theorem Module.writeQue_ctrl {m : Module} {q x mask : Nat} (hq : q < 1_024) :
    m.writeQue src (0x1_0000 + 64 * q + 28) x mask = m.writeQueue src q 28 x := by
  unfold Module.writeQue
  simp only [arrayAt_above (show 0x200 + 16 * 256 ≤ 0x1_0000 + 64 * q + 28 by omega),
    arrayAt_above (show 0x2000 + 4 * 1_024 ≤ 0x1_0000 + 64 * q + 28 by omega), arrayAt_elem hq (show 28 < 64 by decide)]
  rw [if_neg (by omega)]

theorem registerWrite_queueCtrl {q : Nat} (hw : s.m.canWrite src = true) (hm : s.m.mmpRuns = true) (hq : q < 1_024) :
    exec (.registerWrite src (0x81_0000 + 64 * q + 28) false v) s = after s (s.m.writeQueue src q 28 (v.toNat % 2 ^ 32)) := by
  have hreg : s.m.servedReg 8 (0x1_0000 + 64 * q + 28) = r4 (0x1_0000 + 64 * q + 28) 0 := Module.queReg_ctrl hq
  have h := registerWrite_served4 (v := v) (b := 8) (o := 0x1_0000 + 64 * q + 28) hw hm (by omega) (by omega) (by rw [hreg]; rfl)
    (by rw [hreg]; rfl)
  rw [show 0x81_0000 + 64 * q + 28 = 0x10_0000 * 8 + (0x1_0000 + 64 * q + 28) by omega, h]
  exact congrArg (after s) (Module.writeQue_ctrl hq)

theorem registerWrite_queueCommands {q : Nat} (hw : s.m.canWrite src = true) (hm : s.m.mmpRuns = true) (hq : q < 1_024) :
    (v.toNat % 2 ^ 32 % 4 = 1 → exec (.registerWrite src (0x81_0000 + 64 * q + 28) false v) s = exec (.enable src q) s)
    ∧ (v.toNat % 2 ^ 32 % 4 = 2 → exec (.registerWrite src (0x81_0000 + 64 * q + 28) false v) s = exec (.disable src q) s) := by
  rw [registerWrite_queueCtrl hw hm hq]
  unfold Module.writeQueue
  rw [if_pos rfl]
  exact ⟨fun h => by rw [h]; rfl, fun h => by rw [h]; rfl⟩

theorem Module.writeEng_tags {m : Module} {p x raw : Nat} (hp : p < 16) :
    m.writeEng (0x100 + 16 * p + 8) x raw = doEngTagSummaryClear p (BitVec.ofNat 64 raw) m := by
  unfold Module.writeEng
  simp only [arrayAt_elem hp (show 8 < 16 by decide)]
  rw [if_neg (by omega), if_pos trivial]

theorem registerWrite_engTags {p : Nat} (hw : s.m.canWrite src = true) (hm : s.m.mmpRuns = true) (hp : p < 16) :
    exec (.registerWrite src (0x10_0108 + 16 * p) false v) s = exec (.engTagSummaryClear p (BitVec.ofNat 64 (v.toNat % 2 ^ 32))) s := by
  have hreg : s.m.servedReg 1 (0x100 + 16 * p + 8) = r4 (0x100 + 16 * p + 8) ((s.m.part p).tags % 32) := Module.engReg_tags hp
  have h := registerWrite_served4 (v := v) (b := 1) (o := 0x100 + 16 * p + 8) hw hm (by omega) (by omega) (by rw [hreg]; rfl)
    (by rw [hreg]; rfl)
  rw [show 0x10_0108 + 16 * p = 0x10_0000 * 1 + (0x100 + 16 * p + 8) by omega, h]
  refine congrArg (after s) ((Module.writeEng_tags hp).trans ?_)
  rw [written_bits]

end Writes

/-- Settles O60, register by register. -/
theorem registerWrites : Obligations.RegisterWrites := by
  unfold Obligations.RegisterWrites
  intro s src v lo w32 w64
  refine ⟨fun o wide h => registerWrite_rejected h, fun hw => ?_⟩
  obtain ⟨enter, leave, neither⟩ := s.m.writeMod_ctrl (src := src) (x := lo)
  have modCtrl : w32 0x1C = after s (s.m.writeMod src 0x1C lo) := registerWrite_modCtrl hw
  have secCmd : ∀ op, op ∈ [3, 5, 6, 8] → lo % 16 = op → w32 0xE0_008C = after s (s.m.secRun (.bar src) op []) :=
    fun _ hop h => registerWrite_secRun hw hop h
  refine ⟨fun h => modCtrl.trans (congrArg (after s) (enter h)), fun h => modCtrl.trans (congrArg (after s) (leave h)),
    fun h => (modCtrl.trans (congrArg (after s) (neither h))).trans (after_self s), registerWrite_readOnly hw, registerWrite_secCmdAddr hw,
    registerWrite_secCmdLen hw, secCmd 3 (by decide), secCmd 5 (by decide), secCmd 6 (by decide), secCmd 8 (by decide), fun h => ?_, fun q hq => ?_,
    fun hm o ho ha h0 h14 => registerWrite_unserved hw hm ho ha h0 h14, fun hm => ?_⟩
  · exact (registerWrite_secCmd hw).trans (congrArg (after s) (Module.writeSec_holds h))
  · exact registerWrite_doorbells hw hq
  · obtain ⟨start, arm, disarm, addr, frozen⟩ := registerWrite_jig (v := v) hw hm
    refine ⟨start, arm, disarm, addr, frozen, registerWrite_holder hw hm, fun hh => ?_, registerWrite_krfCtrl hw hm,
      registerWrite_pwrCap hw hm, registerWrite_pwrHeartbeat hw hm, registerWrite_leaseClaim hw hm, registerWrite_irqStatus hw hm,
      registerWrite_irqEn hw hm, fun q hq => registerWrite_queueCommands hw hm hq, fun p hp => registerWrite_engTags hw hm hp,
      fun o ha hb => registerWrite_readOnlyBlock hw hm ha hb⟩
    have other := registerWrite_other (v := v) hw hm hh
    exact ⟨other _ (by decide), other _ (by decide), other _ (by decide), other _ (by decide)⟩

end Sys2Proof.Machine
end

section
/-! What the tests of a bring-up stage add (R25, R113, R115, R460, R462, R505): the retirement list, engines beyond repair, dies that stay dark,
and the tests of a die ring. -/

namespace Sys2Proof.Machine

open Sys2Proof

/-! ## Folds over findings -/

/-- A property that holds only after `a` has had its turn: until then the others keep `I`, and afterwards everyone keeps `Q`. -/
theorem foldl_reaches {α : Type} {I Q : Module → Prop} {f : Module → α → Module} {a : α} (keep : ∀ m b, b ≠ a → I m → I (f m b))
    (reach : ∀ m, I m → Q (f m a)) (stay : ∀ m b, Q m → Q (f m b)) {l : List α} (h : a ∈ l) {m : Module} (hm : I m) :
    Q (l.foldl f m) := by
  have held : ∀ (l : List α) (m : Module), Q m → Q (l.foldl f m) := fun l m hq => List.foldlRecOn l f hq (fun t ht b _ => stay t b ht)
  induction l generalizing m with
  | nil => exact absurd h List.not_mem_nil
  | cons b l ih =>
    by_cases hb : b = a
    · subst hb
      exact held l _ (reach m hm)
    · exact ih ((List.mem_cons.1 h).resolve_left (Ne.symm hb)) (keep m b hb hm)

/-- A property that the turn of `a` brings about and every other turn keeps. -/
theorem foldl_brings {α : Type} {Q : Module → Prop} {f : Module → α → Module} {a : α} (reach : ∀ m, Q (f m a))
    (stay : ∀ m b, Q m → Q (f m b)) {l : List α} (h : a ∈ l) (m : Module) : Q (l.foldl f m) :=
  foldl_reaches (I := fun _ => True) (fun _ _ _ h => h) (fun m _ => reach m) stay h trivial

/-! ## The field retirement list (R32, R113) -/

/-- The retirement list after `l` has been entered into it, each entry once. -/
def Module.retired (m : Module) (l : List Retire) : List Retire := l.foldl (fun a r => if a.contains r then a else a ++ [r]) m.topo.retire

theorem Module.retireLater_eq (m : Module) (r : Retire) : m.retireLater r = { m with topo.retire := m.retired [r] } := by
  unfold Module.retireLater Module.retired
  rw [List.foldl_cons, List.foldl_nil]
  split <;> rfl

theorem Module.foldl_retireLater {α : Type} (g : α → Retire) (l : List α) (m : Module) :
    l.foldl (fun m e => m.retireLater (g e)) m = { m with topo.retire := m.retired (l.map g) } := by
  induction l generalizing m with
  | nil => rfl
  | cons e l ih => rw [List.foldl_cons, ih, m.retireLater_eq]; rfl

theorem Module.retired_old {m : Module} {l : List Retire} {r : Retire} (h : r ∈ m.topo.retire) : r ∈ m.retired l := by
  refine List.foldlRecOn (motive := fun a => r ∈ a) l _ h (fun a ha b _ => ?_)
  split
  · exact ha
  · exact List.mem_append_left _ ha

theorem Module.retired_new {m : Module} {l : List Retire} {r : Retire} (h : r ∈ l) : r ∈ m.retired l := by
  suffices ∀ t : List Retire, r ∈ l.foldl (fun a r => if a.contains r then a else a ++ [r]) t from this _
  induction l with
  | nil => exact absurd h List.not_mem_nil
  | cons b l ih =>
    intro t
    rcases List.mem_cons.1 h with rfl | h
    · refine List.foldlRecOn (motive := fun a => r ∈ a) l _ ?_ (fun a ha b _ => ?_)
      · dsimp only
        split
        · exact List.contains_iff_mem.1 ‹_›
        · exact List.mem_append_right _ List.mem_cons_self
      · split
        · exact ha
        · exact List.mem_append_left _ ha
    · exact ih h _

/-! ## What a test adds (R505) -/

/-- What the tests of a stage leave of `m` in `t`: they add dark dies, entries of the retirement list and engines that are not usable, and take
none away; partitions and the module's state stay. -/
structure Kept (m t : Module) : Prop where
  parts : t.parts = m.parts
  sys : t.sys = m.sys
  dark : ∀ d ∈ m.topo.dark, d ∈ t.topo.dark
  retire : ∀ r ∈ m.topo.retire, r ∈ t.topo.retire
  bad : ∀ q ∈ m.topo.engineBad, q ∈ t.topo.engineBad

/-- The same of a test that touches neither the masks of engines nor the crack marks of dies. -/
structure Tested (m t : Module) : Prop extends Kept m t where
  masks : t.topo.arrayMasks = m.topo.arrayMasks
  marks : ∀ d, (t.dieP d).crackMark = (m.dieP d).crackMark

theorem Kept.refl (m : Module) : Kept m m := ⟨rfl, rfl, fun _ => id, fun _ => id, fun _ => id⟩

theorem Kept.trans {a b c : Module} (h : Kept a b) (g : Kept b c) : Kept a c :=
  ⟨g.parts.trans h.parts, g.sys.trans h.sys, fun d hd => g.dark d (h.dark d hd), fun r hr => g.retire r (h.retire r hr),
    fun q hq => g.bad q (h.bad q hq)⟩

theorem Tested.refl (m : Module) : Tested m m := ⟨.refl m, rfl, fun _ => rfl⟩

theorem Tested.trans {a b c : Module} (h : Tested a b) (g : Tested b c) : Tested a c :=
  ⟨h.toKept.trans g.toKept, g.masks.trans h.masks, fun d => (g.marks d).trans (h.marks d)⟩

theorem Tested.foldl {α : Type} {f : Module → α → Module} (h : ∀ m a, Tested m (f m a)) (l : List α) (m : Module) :
    Tested m (l.foldl f m) :=
  List.foldlRecOn l f (Tested.refl m) (fun t ht a _ => ht.trans (h t a))

theorem Module.logEvent_tested (m : Module) (x l p t d) : Tested m (m.logEvent x l p t d) := by
  obtain ⟨a, b, c, e⟩ := logEvent_keep m x l p t d
  rw [e]
  exact ⟨⟨rfl, rfl, fun _ => id, fun _ => id, fun _ => id⟩, rfl, fun _ => rfl⟩

theorem Module.retireLater_tested (m : Module) (r : Retire) : Tested m (m.retireLater r) := by
  rw [m.retireLater_eq]
  exact ⟨⟨rfl, rfl, fun _ => id, fun _ => Module.retired_old, fun _ => id⟩, rfl, fun _ => rfl⟩

theorem Module.retireLater_mem (m : Module) (r : Retire) : r ∈ (m.retireLater r).topo.retire := by
  rw [m.retireLater_eq]
  exact Module.retired_new List.mem_cons_self

theorem Module.foldl_retireLater_mem {α : Type} (g : α → Retire) {l : List α} {e : α} (h : e ∈ l) (m : Module) :
    g e ∈ (l.foldl (fun m e => m.retireLater (g e)) m).topo.retire := by
  rw [Module.foldl_retireLater]
  exact Module.retired_new (List.mem_map_of_mem h)

/-- A die whose drop model changes but for its crack mark. -/
theorem Module.setDieP_tested {m : Module} {d : Nat} {x : DiePower} (h : x.crackMark = (m.dieP d).crackMark) : Tested m (m.setDieP d x) := by
  refine ⟨⟨rfl, rfl, fun _ => id, fun _ => id, fun _ => id⟩, rfl, fun e => ?_⟩
  rw [Machine.setDieP_dieP]
  split
  · rename_i he; rw [he]; exact h
  · rfl

theorem Module.leaveDark_tested (m : Module) (d : Nat) : Tested m (m.leaveDark d) := by
  unfold Module.leaveDark
  split
  · exact .refl m
  · have h : Tested m (m.setDieP d { m.dieP d with efuseOpen := true }) := Module.setDieP_tested rfl
    exact h.trans ⟨⟨rfl, rfl, fun _ => List.mem_append_left _, fun _ => id, fun _ => id⟩, rfl, fun _ => rfl⟩

theorem Module.leaveDark_dark (m : Module) (d : Nat) : d ∈ (m.leaveDark d).topo.dark := by
  unfold Module.leaveDark
  split
  · exact List.contains_iff_mem.1 ‹_›
  · exact List.mem_append_right _ List.mem_cons_self

/-! ## Engines (R113, R122) -/

/-- The core of engine `q` is to be retired and the engine is not usable. -/
def EngineOut (q : Nat) (m : Module) : Prop := Retire.core q ∈ m.topo.retire ∧ q ∈ m.topo.engineBad

theorem EngineOut.kept {q : Nat} {m t : Module} (h : EngineOut q m) (k : Kept m t) : EngineOut q t := ⟨k.retire _ h.1, k.bad _ h.2⟩

theorem Module.engineOut_out (m : Module) (q : Nat) : EngineOut q (m.engineOut q) := by
  unfold Module.engineOut
  extract_lets topo m'
  have hq : q ∈ m'.topo.engineBad := by
    unfold m'
    split
    · exact List.contains_iff_mem.1 ‹_›
    · exact List.mem_append_right _ List.mem_cons_self
  exact ⟨m'.retireLater_mem _, (m'.retireLater_tested _).bad q hq⟩

theorem Module.engineOut_tested (m : Module) (q : Nat) : Tested m (m.engineOut q) := by
  unfold Module.engineOut
  extract_lets topo m'
  refine Tested.trans (b := m') ?_ (m'.retireLater_tested _)
  unfold m'
  split
  · exact .refl m
  · exact ⟨⟨rfl, rfl, fun _ => id, fun _ => id, fun _ => List.mem_append_left _⟩, rfl, fun _ => rfl⟩

theorem Module.coreBad_tested (m : Module) (q : Nat) : Tested m (m.coreBad q) := (m.logEvent_tested ..).trans (Module.engineOut_tested ..)

theorem Module.coreBad_out (m : Module) (q : Nat) : EngineOut q (m.coreBad q) := Module.engineOut_out ..

theorem Module.rowsFault_tested (m : Module) (q : Nat) (rows : List Nat) : Tested m (m.rowsFault q rows) := by
  unfold Module.rowsFault
  split
  · exact .refl m
  · dsimp only
    repeat' split
    · exact .refl m
    · exact m.retireLater_tested _
    · exact m.engineOut_tested q
  · exact m.engineOut_tested q

theorem Module.colsFault_tested (m : Module) (q : Nat) (cols : List Nat) : Tested m (m.colsFault q cols) := by
  unfold Module.colsFault
  split
  · exact .refl m
  · dsimp only
    repeat' split
    · exact .refl m
    · exact m.retireLater_tested _
    · exact m.engineOut_tested q
  · exact m.engineOut_tested q

theorem mem_distinct {l : List Nat} {a : Nat} : a ∈ distinct l ↔ a ∈ l := by
  induction l with
  | nil => rfl
  | cons b l ih =>
    rw [distinct, List.mem_cons]
    split
    · rename_i hb
      rw [ih]
      exact ⟨.inr, fun h => h.elim (fun e => e ▸ List.contains_iff_mem.1 hb) id⟩
    · rw [List.mem_cons, ih]

/-- Two faulty rows of one engine are beyond repair. -/
theorem Module.rowsFault_two {m : Module} {q r r' : Nat} {rows : List Nat} (h : r ∈ rows) (h' : r' ∈ rows) (hr : r ≤ 32) (hr' : r' ≤ 32)
    (hne : r ≠ r') : EngineOut q (m.rowsFault q rows) := by
  have listed : ∀ x ∈ rows, x ≤ 32 → x ∈ distinct (rows.filter (· ≤ 32)) := fun x hx hle =>
    mem_distinct.2 (List.mem_filter.2 ⟨hx, decide_eq_true hle⟩)
  have h1 := listed r h hr
  have h2 := listed r' h' hr'
  unfold Module.rowsFault
  split
  · rename_i e; rw [e] at h1; exact absurd h1 List.not_mem_nil
  · rename_i a e
    rw [e, List.mem_singleton] at h1 h2
    exact absurd (h1.trans h2.symm) hne
  · exact m.engineOut_out q

theorem Module.enginesFault_tested (m : Module) (rows cols : Pairs) : Tested m (m.enginesFault rows cols) :=
  .foldl (fun m _ => (m.rowsFault_tested ..).trans (Module.colsFault_tested ..)) _ m

theorem Module.enginesFault_two {m : Module} {q r r' : Nat} {rows cols : Pairs} (h : (q, r) ∈ rows) (h' : (q, r') ∈ rows) (hr : r ≤ 32)
    (hr' : r' ≤ 32) (hne : r ≠ r') : EngineOut q (m.enginesFault rows cols) := by
  have named : ∀ x, (q, x) ∈ rows → x ∈ (rows.filter (fun e => e.1 = q)).map Prod.snd := fun x hx =>
    List.mem_map.2 ⟨(q, x), List.mem_filter.2 ⟨hx, decide_eq_true rfl⟩, rfl⟩
  refine foldl_brings (a := q) (fun m => ?_) (fun m b hb => ?_) ?_ m
  · exact (Module.rowsFault_two (named r h) (named r' h') hr hr' hne).kept (Module.colsFault_tested ..).toKept
  · exact hb.kept ((m.rowsFault_tested ..).trans (Module.colsFault_tested ..)).toKept
  · exact mem_distinct.2 (List.mem_map.2 ⟨(q, r), List.mem_append_left _ h, rfl⟩)

/-- A single faulty row of an engine whose spare row is unused is repaired, and the engine stays usable. -/
theorem Module.rowsFault_spare {m : Module} {q r : Nat} (hr : r ≤ 32) (hrep : kget? m.topo.repair q = none)
    (hnew : ∀ r', Retire.rowRepair q r' ∉ m.topo.retire) : m.rowsFault q [r] = m.retireLater (.rowRepair q r) := by
  have one : distinct ([r].filter (· ≤ 32)) = [r] := by
    rw [List.filter_cons, if_pos (decide_eq_true hr), List.filter_nil]
    rfl
  have skip : (kgetD ({} : Repair) m.topo.repair q).rowSkip = 32 := by rw [kgetD, hrep]; rfl
  unfold Module.rowsFault
  dsimp only
  rw [one]
  dsimp only
  rw [if_neg (fun h => hnew r (List.contains_iff_mem.1 h)), if_pos]
  rw [skip, decide_eq_true rfl, Bool.true_and, Bool.not_eq_true', List.any_eq_false]
  intro x hx
  cases x with
  | rowRepair p n => exact fun h => hnew n (of_decide_eq_true h ▸ hx)
  | _ => exact Bool.false_ne_true

/-! ## Stages 2 to 6 (R505) -/

theorem Module.crackTest_kept (m : Module) (cracked : List Nat) (d : Nat) : Kept m (m.crackTest cracked d)
    ∧ (m.crackTest cracked d).topo.arrayMasks = m.topo.arrayMasks
    ∧ ∀ e, e ≠ d → ((m.crackTest cracked d).dieP e).crackMark = (m.dieP e).crackMark := by
  unfold Module.crackTest
  extract_lets x
  split
  · exact ⟨.refl m, rfl, fun _ _ => rfl⟩
  · split
    · have h := Tested.foldl (fun m q => m.retireLater_tested (.core q)) (physOfDie d) m
      exact ⟨h.toKept, h.masks, fun e _ => h.marks e⟩
    · refine ⟨⟨rfl, rfl, fun _ => id, fun _ => id, fun _ => id⟩, rfl, fun e he => ?_⟩
      rw [Machine.setDieP_dieP, if_neg he]

theorem Module.crackTest_retires {m : Module} {cracked : List Nat} {d q : Nat} (hd : d ∈ cracked) (hm : (m.dieP d).crackMark = true)
    (hq : q ∈ physOfDie d) : Retire.core q ∈ (m.crackTest cracked d).topo.retire := by
  rw [Module.crackTest, if_neg (by rw [hm]; exact Bool.false_ne_true), if_pos (List.contains_iff_mem.2 hd)]
  exact Module.foldl_retireLater_mem Retire.core hq m

theorem dieOfPhys_lt {q : Nat} (h : dieOfPhys q < 100) : q < 21_000 := by unfold dieOfPhys at h; omega

/-- What the tests of die ring `k` find and leave (R25, R113, R460, R462, R505). -/
theorem Module.stageDies_finds (m : Module) (k : Nat) (f : StageFinding) :
    let t := m.stageDies k f
    let here (d : Nat) : Prop := d < 100 ∧ dieRing d = k
    Kept m t
    ∧ (∀ d ∈ f.dark, here d → d ∈ t.topo.dark) ∧ (∀ d ∈ f.unlocked, here d → d ∈ t.topo.dark)
    ∧ (∀ q ∈ f.cores, here (dieOfPhys q) → Retire.core q ∈ t.topo.retire)
    ∧ (∀ e ∈ f.links, here (dieOfPhys e.1) → Retire.link e.1 e.2 ∈ t.topo.retire)
    ∧ (∀ q r r', (q, r) ∈ f.rows → (q, r') ∈ f.rows → r ≤ 32 → r' ≤ 32 → r ≠ r' → here (dieOfPhys q) → EngineOut q t)
    ∧ (∀ q r c, f.masks = [(q, r, c)] → here (dieOfPhys q) → kget? t.topo.arrayMasks q = some (r % 2 ^ 33, c % 2 ^ 33))
    ∧ (∀ d ∈ f.cracked, here d → (m.dieP d).crackMark = true → ∀ q ∈ physOfDie d, Retire.core q ∈ t.topo.retire) := by
  intro t here
  have ht : t = m.stageDies k f := rfl
  clear_value t
  unfold Module.stageDies at ht
  extract_lets on ps m1 m2 m3 m4 topo m5 m6 m7 at ht
  have onHere : ∀ d, here d → on d = true := fun d hd => by
    rw [Bool.and_eq_true]
    exact ⟨decide_eq_true hd.1, decide_eq_true hd.2⟩
  have k1 : Tested m m1 := .foldl Module.leaveDark_tested ..
  have unlock : ∀ (m : Module) (d : Nat), Tested m ((m.leaveDark d).logEvent 0x0403 (.die d)) := fun m d =>
    (m.leaveDark_tested d).trans (Module.logEvent_tested ..)
  have k2 : Tested m1 m2 := .foldl unlock ..
  have k3 : Tested m2 m3 := .foldl Module.coreBad_tested ..
  have k4 : Tested m3 m4 := m3.enginesFault_tested _ _
  have k5 : Kept m4 m5 := ⟨rfl, rfl, fun _ => id, fun _ => id, fun _ => id⟩
  have k6 : Tested m5 m6 := .foldl (fun m (e : Nat × Nat) => m.retireLater_tested (.link e.1 e.2)) ..
  have k7 : Tested m6 m7 := .foldl (fun m (e : Nat × Nat) => Module.setDieP_tested (x := { m.dieP e.1 with rDie := e.2 }) rfl) ..
  have k8 : Kept m7 t ∧ t.topo.arrayMasks = m7.topo.arrayMasks := by
    rw [ht]
    refine List.foldlRecOn (motive := fun t => Kept m7 t ∧ t.topo.arrayMasks = m7.topo.arrayMasks) _ _ ⟨.refl _, rfl⟩ (fun t ht d _ => ?_)
    obtain ⟨kept, masks, _⟩ := t.crackTest_kept f.cracked d
    exact ⟨ht.1.trans kept, masks.trans ht.2⟩
  have k58 : Kept m4 t := k5.trans (k6.toKept.trans (k7.toKept.trans k8.1))
  have k38 : Kept m3 t := k4.toKept.trans k58
  have k28 : Kept m2 t := k3.toKept.trans k38
  have k18 : Kept m1 t := k2.toKept.trans k28
  refine ⟨k1.toKept.trans k18, fun d hd hh => k18.dark d ?_, fun d hd hh => k28.dark d ?_, fun q hq hh => k38.retire _ ?_, fun e he hh => ?_,
    fun q r r' h h' hr hr' hne hh => EngineOut.kept ?_ k58, fun q r c hf hh => ?_, fun d hd hh hm q hq => ?_⟩
  · exact foldl_brings (fun m => m.leaveDark_dark d) (fun m b h => (m.leaveDark_tested b).dark d h) (List.mem_filter.2 ⟨hd, onHere d hh⟩) m
  · exact foldl_brings (Q := fun m => d ∈ m.topo.dark) (f := fun m d => (m.leaveDark d).logEvent 0x0403 (.die d))
      (fun m => (Module.logEvent_tested ..).dark d (m.leaveDark_dark d)) (fun m b h => (unlock m b).dark d h) (List.mem_filter.2 ⟨hd, onHere d hh⟩) m1
  · have out : EngineOut q m3 := foldl_brings (fun m => m.coreBad_out q) (fun m b h => h.kept (m.coreBad_tested b).toKept)
      (List.mem_filter.2 ⟨hq, onHere (dieOfPhys q) hh⟩) m2
    exact out.1
  · have listed : e ∈ f.links.filter (fun e => e.1 < 21_000 && on (dieOfPhys e.1)) :=
      List.mem_filter.2 ⟨he, Bool.and_eq_true_iff.2 ⟨decide_eq_true (dieOfPhys_lt hh.1), onHere _ hh⟩⟩
    exact (k7.toKept.trans k8.1).retire _ (Module.foldl_retireLater_mem (fun e => Retire.link e.1 e.2) listed m5)
  · exact Module.enginesFault_two (List.mem_filter.2 ⟨h, onHere _ hh⟩) (List.mem_filter.2 ⟨h', onHere _ hh⟩) hr hr' hne
  · rw [k8.2, k7.masks, k6.masks]
    unfold m5
    dsimp only
    rw [hf, List.filter_cons, if_pos (Bool.and_eq_true_iff.2 ⟨decide_eq_true (dieOfPhys_lt hh.1), onHere _ hh⟩), List.filter_nil]
    exact kget?_kput_self ..
  · have marked : (m7.dieP d).crackMark = true := by
      rw [k7.marks, k6.marks]
      exact (k4.marks d).trans ((k3.marks d).trans ((k2.marks d).trans ((k1.marks d).trans hm)))
    rw [ht]
    refine foldl_reaches (I := fun m => (m.dieP d).crackMark = true) (a := d) (fun m b hb h => ?_) (fun m h => Module.crackTest_retires hd h hq)
      (fun m b h => (m.crackTest_kept f.cracked b).1.retire _ h) (List.mem_filter.2 ⟨List.mem_range.2 hh.1, onHere d hh⟩) marked
    exact ((m.crackTest_kept f.cracked b).2.2 d (Ne.symm hb)).trans h

end Sys2Proof.Machine
end

section
/-! The MMPs, the ring dies and the remap of a bring-up (R22, R25, R30, R47, R52, R113, R264, R493, R504): what stages 0, 1 and 7 find and leave. -/

namespace Sys2Proof.Machine

open Sys2Proof

/-! ## Stage 0: the MMPs start (R493, R504) -/

/-- An MMP that runs and is named becomes ACTIVE. -/
theorem Mmp.settle_active {x : Mmp} (h : x.runs = true) : (x.settle true).st = .active := by
  unfold Mmp.settle
  unfold Mmp.runs at h
  cases hx : x.st
  · rw [hx] at h; exact absurd h (by decide)
  · rfl
  · exact hx
  · rw [hx] at h; exact absurd h (by decide)

theorem Mmp.settle_off {x : Mmp} {active : Bool} (h : x.st = .off) : (x.settle active).st = .off := by
  unfold Mmp.settle
  rw [h]
  exact h

theorem Module.nameAuthority_a {m : Module} (h : m.sup.a.runs = true) :
    m.nameAuthority.sup.authority = 1 ∧ m.nameAuthority.sup.a.st = .active := by
  have ha : m.nameAuthority.sup.authority = 1 := if_pos h
  refine ⟨ha, ?_⟩
  show (m.sup.a.settle (_ || decide (m.nameAuthority.sup.authority = 1))).st = .active
  rw [ha, decide_eq_true rfl, Bool.or_true]
  exact Mmp.settle_active h

theorem Module.nameAuthority_b {m : Module} (ha : m.sup.a.runs = false) (h : m.sup.b.runs = true) :
    m.nameAuthority.sup.authority = 2 ∧ m.nameAuthority.sup.b.st = .active := by
  have hb : m.nameAuthority.sup.authority = 2 := (if_neg (by rw [ha]; exact Bool.false_ne_true)).trans (if_pos h)
  refine ⟨hb, ?_⟩
  show (m.sup.b.settle (_ || decide (m.nameAuthority.sup.authority = 2))).st = .active
  rw [hb, decide_eq_true rfl, Bool.or_true]
  exact Mmp.settle_active h

theorem Module.nameAuthority_none {m : Module} (ha : m.sup.a.runs = false) (hb : m.sup.b.runs = false) : m.nameAuthority.sup.authority = 0 :=
  (if_neg (by rw [ha]; exact Bool.false_ne_true)).trans (if_neg (by rw [hb]; exact Bool.false_ne_true))

/-- An MMP after stage 0 has met it: one that is OFF with a verified image runs. -/
def Mmp.started (x : Mmp) : Mmp := if x.imageOk && x.st = .off then { x with st := .standby } else x

theorem Mmp.runs_started {x : Mmp} (ok : x.imageOk = true) (off : x.st = .off) : x.started.runs = true := by
  rw [Mmp.started, ok, off]
  rfl

/-- An MMP whose loader refused the image stays OFF. -/
theorem Mmp.runs_refused {x : Mmp} (ok : x.imageOk = false) (off : x.st = .off) : x.started.runs = false := by
  rw [Mmp.started, ok, Bool.false_and, if_neg Bool.false_ne_true, Mmp.runs, off]
  rfl

theorem Module.startMmp_false (m : Module) : (m.startMmp false).sup.a = m.sup.a.started ∧ (m.startMmp false).sup.b = m.sup.b
    ∧ (m.sup.a.imageOk = true → m.sup.a.st = .off → (m.startMmp false).sec.measA = imgMeas m.sec.image) := by
  have h : m.startMmp false = if m.sup.a.imageOk && m.sup.a.st = .off then
      { m with sup.a := { m.sup.a with st := .standby }, sec.measA := imgMeas m.sec.image } else m := rfl
  rw [h, Mmp.started]
  split
  · exact ⟨rfl, rfl, fun _ _ => rfl⟩
  · rename_i h
    refine ⟨rfl, rfl, fun ok off => absurd ?_ h⟩
    rw [ok, off]
    rfl

theorem Module.startMmp_true (m : Module) : (m.startMmp true).sup.a = m.sup.a ∧ (m.startMmp true).sup.b = m.sup.b.started
    ∧ (m.startMmp true).sec.measA = m.sec.measA := by
  have h : m.startMmp true = if m.sup.b.imageOk && m.sup.b.st = .off then
      { m with sup.b := { m.sup.b with st := .standby }, sec.measB := imgMeas m.sec.image } else m := rfl
  rw [h, Mmp.started]
  split <;> exact ⟨rfl, rfl, rfl⟩

theorem Module.settlePending_keep (m : Module) : m.settlePending.sup = m.sup ∧ m.settlePending.sys = m.sys
    ∧ m.settlePending.sec.measA = m.sec.measA := by
  unfold Module.settlePending
  dsimp only
  split <;> exact ⟨rfl, rfl, rfl⟩

/-- The MMPs after their start, before an authority is named. -/
def Module.started (m : Module) : Module := ((m.startMmp false).startMmp true).settlePending

/-- Each MMP starts by its own state and image, and the start of one leaves the other. -/
theorem Module.started_mmps (m : Module) : m.started.sup.a = m.sup.a.started ∧ m.started.sup.b = m.sup.b.started ∧ m.started.sys = m.sys
    ∧ (m.sup.a.imageOk = true → m.sup.a.st = .off → m.started.sec.measA = imgMeas m.sec.image) := by
  obtain ⟨a1, b1, meas1⟩ := m.startMmp_false
  obtain ⟨a2, b2, meas2⟩ := (m.startMmp false).startMmp_true
  obtain ⟨sup, sys, meas⟩ := ((m.startMmp false).startMmp true).settlePending_keep
  unfold Module.started
  rw [sup, sys, meas, a2, b2, meas2, a1, b1, Module.startMmp_sys, Module.startMmp_sys]
  exact ⟨rfl, rfl, rfl, meas1⟩

theorem Module.stage0_eq (m : Module) : m.stage0 = if m.started.nameAuthority.sup.authority = 0 then m.started.nameAuthority
    else m.started.nameAuthority.stageDone := rfl

/-- Stage 0 ends with the MMP named that runs, MMP-A before MMP-B; without one it does not end. -/
theorem Module.stage0_finds {m : Module} (h0 : m.sys.stage = 0) :
    let t := m.stage0
    (m.sup.a.imageOk = true → m.sup.a.st = .off → t.sup.a.st = .active ∧ t.sup.authority = 1 ∧ t.sys.stage = 1 ∧ t.sec.measA = imgMeas m.sec.image)
    ∧ (m.sup.a.imageOk = false → m.sup.a.st = .off → m.sup.b.imageOk = true → m.sup.b.st = .off →
        t.sup.b.st = .active ∧ t.sup.authority = 2 ∧ t.sys.stage = 1)
    ∧ (m.sup.a.imageOk = false → m.sup.a.st = .off → m.sup.b.imageOk = false → m.sup.b.st = .off → t.sup.authority = 0 ∧ t.sys.stage = 0) := by
  intro t
  obtain ⟨ha, hb, hsys, hmeas⟩ := m.started_mmps
  have stage : m.started.nameAuthority.sys.stage = 0 := by
    show m.started.sys.stage = 0
    rw [hsys, h0]
  have done : m.started.nameAuthority.stageDone.sys.stage = 1 := congrArg (· + 1) stage
  refine ⟨fun ok off => ?_, fun ok off okB offB => ?_, fun ok off okB offB => ?_⟩
  · obtain ⟨auth, act⟩ := Module.nameAuthority_a (m := m.started) (by rw [ha]; exact Mmp.runs_started ok off)
    have ht : t = m.started.nameAuthority.stageDone := m.stage0_eq.trans (if_neg (by rw [auth]; decide))
    rw [ht]
    exact ⟨act, auth, done, hmeas ok off⟩
  · obtain ⟨auth, act⟩ := Module.nameAuthority_b (m := m.started) (by rw [ha]; exact Mmp.runs_refused ok off)
      (by rw [hb]; exact Mmp.runs_started okB offB)
    have ht : t = m.started.nameAuthority.stageDone := m.stage0_eq.trans (if_neg (by rw [auth]; decide))
    rw [ht]
    exact ⟨act, auth, done⟩
  · have auth := Module.nameAuthority_none (m := m.started) (by rw [ha]; exact Mmp.runs_refused ok off)
      (by rw [hb]; exact Mmp.runs_refused okB offB)
    have ht : t = m.started.nameAuthority := m.stage0_eq.trans (if_pos auth)
    rw [ht]
    exact ⟨auth, stage⟩

/-! ## Service dies (R22, R47, R264) -/

theorem Module.stagingLost_keep (m : Module) : m.stagingLost.steady = m.steady ∧ m.stagingLost.parts = m.parts ∧ m.stagingLost.que = m.que := by
  unfold Module.stagingLost
  split
  · refine ⟨refuseLoad_steady .., ?_⟩
    obtain ⟨a, c, d, h⟩ := refuse_keep m.endLoad { code := 0x0603, res := 0x30 } 0
    rw [Module.refuseLoad, h]
    exact ⟨rfl, rfl⟩
  · exact ⟨rfl, rfl, rfl⟩

theorem doCxlLinkDown_keep (m : Module) : (doCxlLinkDown m).steady = m.steady ∧ (doCxlLinkDown m).parts = m.parts
    ∧ (doCxlLinkDown m).que.cxl.up = false := by
  unfold doCxlLinkDown
  split
  · obtain ⟨hs, hp, hq⟩ := ({ m with que.cxl := { m.que.cxl with up := false, width := 0, speed := 0, downAt := m.now } } : Module).stagingLost_keep
    exact ⟨hs, hp, by rw [hq]⟩
  · rename_i h
    exact ⟨rfl, rfl, eq_false_of_ne_true h⟩

/-- A service die that is absent changes no state, no map and no partition; SVC-S takes the CXL link with it. -/
theorem Module.dieAbsent_keep (m : Module) (n : Nat) : (m.dieAbsent n).sys = m.sys ∧ (m.dieAbsent n).topo = m.topo
    ∧ (m.dieAbsent n).parts = m.parts ∧ (n = svcS → (m.dieAbsent n).que.cxl.up = false) := by
  let Left (k : Module) : Prop := k.sys = m.sys ∧ k.topo = m.topo ∧ k.parts = m.parts ∧ (n = svcS → k.que.cxl.up = false)
  have reported : ∀ (b : Bool) (k : Module), Left k → Left (if b then k.emit (.svcFault n) else k) := fun b k h => by
    cases b <;> exact h
  refine reported _ _ ?_
  split
  · rename_i hn
    exact ⟨rfl, rfl, rfl, fun hs => absurd (hn.symm.trans hs) (by decide)⟩
  · split
    · obtain ⟨hs, hp, hup⟩ := doCxlLinkDown_keep { m with sup.b := { m.sup.b with st := .off, imageOk := false } }
      have sys := steady_sys hs
      have topo := steady_topo hs
      exact ⟨sys, topo, hp, fun _ => hup⟩
    · rename_i hn
      exact ⟨rfl, rfl, rfl, fun hs => absurd hs hn⟩

theorem Module.aOff_of_face {m : Module} (h : m.face.aOff = true) : m.sup.a.st = .off := of_decide_eq_true h

theorem Module.bOff_of_face {m : Module} (h : m.face.bOff = true) : m.sup.b.st = .off := of_decide_eq_true h

theorem Module.dieAbsent_aOff {m : Module} {n : Nat} (h : n = svcN ∨ m.face.aOff = true) : (m.dieAbsent n).face.aOff = true := by
  rw [Module.dieAbsent_face]
  rcases h with rfl | h
  · rw [if_pos rfl]
  · split
    · rfl
    · split <;> exact h

theorem Module.dieAbsent_bOff {m : Module} {n : Nat} (h : n = svcS ∨ m.face.bOff = true) : (m.dieAbsent n).face.bOff = true := by
  rw [Module.dieAbsent_face]
  rcases h with rfl | h
  · rw [if_neg (by decide), if_pos rfl]
  · split
    · exact h
    · split
      · rfl
      · exact h

theorem Module.allStopped_clusters (m : Module) : m.allStopped.pwr.clusters = [] := by
  unfold Module.allStopped
  generalize (m.abandonLoad 0x0601).allOff 0x0601 = a
  rfl

/-- OUT_OF_SERVICE: the state, with the failed service dies, the map and the authority (R264). -/
theorem Module.toOutOfService_keep (m : Module) : m.toOutOfService.sys = { m.sys with st := .outOfService, stage := 0, stageHeld := false, stageAt := m.now }
    ∧ m.toOutOfService.topo = m.topo ∧ m.toOutOfService.sup.authority = 0 ∧ m.toOutOfService.pwr.clusters = [] := by
  have h := allStopped_steady m
  have topo := steady_topo h
  have hc := m.allStopped_clusters
  unfold Module.toOutOfService
  generalize m.allStopped = a at h topo hc
  refine ⟨?_, topo, rfl, hc⟩
  rw [← steady_sys h, ← steady_now h]
  rfl

theorem Module.toOutOfService_offs {m : Module} : (m.face.aOff = true → m.toOutOfService.sup.a.st = .off)
    ∧ (m.face.bOff = true → m.toOutOfService.sup.b.st = .off) :=
  ⟨fun h => Module.aOff_of_face (by rw [Module.toOutOfService_face]; exact h),
    fun h => Module.bOff_of_face (by rw [Module.toOutOfService_face]; exact h)⟩

/-! ## Stage 1: ring dies (R47, R504) -/

/-- What stage 1 finds: the failed ring dies, with what the service dies among them carry, and the links that they send on. -/
theorem Module.stage1_finds (m : Module) (f : StageFinding) :
    let t := m.stage1 f
    (svcW ∉ f.ring → svcW ∉ m.sys.svcFailed → t.sys.stage = m.sys.stage + 1 ∧ t.topo.ringFound = f.ring.filter (· < 64) ∧ t.sys.st = m.sys.st)
    ∧ (svcW ∈ f.ring ∨ svcW ∈ m.sys.svcFailed → t.sys.st = .outOfService)
    ∧ (∀ n ∈ f.ring, n < 64 → n % 16 = 15 → n ∈ t.sys.svcFailed) ∧ (∀ e ∈ f.links, 32768 ≤ e.1 → Retire.link e.1 e.2 ∈ t.topo.retire)
    ∧ (svcN ∈ f.ring → svcN ∉ m.sys.svcFailed → t.sup.a.st = .off) ∧ (svcS ∈ f.ring → svcS ∉ m.sys.svcFailed → t.sup.b.st = .off) := by
  intro t
  have ht : t = m.stage1 f := rfl
  clear_value t
  unfold Module.stage1 at ht
  extract_lets bad svc topo sys m0 m1 m2 at ht
  have inSvc : ∀ n, n ∈ svc ↔ n ∈ f.ring ∧ n < 64 ∧ n % 16 = 15 ∧ n ∉ m.sys.svcFailed := fun n => by
    simp only [svc, bad, List.mem_filter, decide_eq_true_eq, Bool.and_eq_true, Bool.not_eq_true', List.contains_eq_mem, decide_eq_false_iff_not,
      and_assoc]
  have h1 : m1.sys = m0.sys ∧ m1.topo.ringFound = bad := by
    have e : m1 = { m0 with topo.retire := m0.retired _ } := Module.foldl_retireLater (fun e : Nat × Nat => Retire.link e.1 e.2) _ m0
    rw [e]
    exact ⟨rfl, rfl⟩
  have links : ∀ e ∈ f.links, 32768 ≤ e.1 → Retire.link e.1 e.2 ∈ m1.topo.retire := fun e he h =>
    Module.foldl_retireLater_mem (fun e : Nat × Nat => Retire.link e.1 e.2) (List.mem_filter.2 ⟨he, decide_eq_true h⟩) m0
  clear_value m1
  have h2 : m2.sys = m1.sys ∧ m2.topo = m1.topo := by
    refine List.foldlRecOn (motive := fun t : Module => t.sys = m1.sys ∧ t.topo = m1.topo) svc _ ⟨rfl, rfl⟩ (fun t ht n _ => ?_)
    obtain ⟨sys, topo, _⟩ := t.dieAbsent_keep n
    exact ⟨sys.trans ht.1, topo.trans ht.2⟩
  have offA : svcN ∈ svc → m2.face.aOff = true := fun h =>
    foldl_brings (Q := fun m => m.face.aOff = true) (fun m => Module.dieAbsent_aOff (.inl rfl)) (fun m n h => Module.dieAbsent_aOff (.inr h)) h m1
  have offB : svcS ∈ svc → m2.face.bOff = true := fun h =>
    foldl_brings (Q := fun m => m.face.bOff = true) (fun m => Module.dieAbsent_bOff (.inl rfl)) (fun m n h => Module.dieAbsent_bOff (.inr h)) h m1
  clear_value m2
  have sys2 : m2.sys = m0.sys := h2.1.trans h1.1
  have failed2 : m2.sys.svcFailed = m.sys.svcFailed ++ svc := congrArg Sys.svcFailed sys2
  have failed : ∀ n ∈ f.ring, n < 64 → n % 16 = 15 → n ∈ m2.sys.svcFailed := fun n hn h64 h15 => by
    rw [failed2]
    by_cases hf : n ∈ m.sys.svcFailed
    · exact List.mem_append_left _ hf
    · exact List.mem_append_right _ ((inSvc n).2 ⟨hn, h64, h15, hf⟩)
  by_cases hw : m2.sys.svcFailed.contains svcW
  · rw [if_pos hw] at ht
    obtain ⟨sys, topo, -, -⟩ := m2.toOutOfService_keep
    rw [ht, sys, topo, h2.2]
    refine ⟨fun hr hf => ?_, fun _ => rfl, failed, links, fun hr hf => Module.toOutOfService_offs.1 (offA ?_),
      fun hr hf => Module.toOutOfService_offs.2 (offB ?_)⟩
    · rw [List.contains_iff_mem, failed2] at hw
      exact ((List.mem_append.1 hw).elim hf (fun h => hr ((inSvc _).1 h).1)).elim
    · exact (inSvc _).2 ⟨hr, by decide, by decide, hf⟩
    · exact (inSvc _).2 ⟨hr, by decide, by decide, hf⟩
  · rw [if_neg hw] at ht
    rw [ht]
    refine ⟨fun hr hf => ⟨?_, ?_, ?_⟩, fun h => absurd ?_ hw, failed, ?_, fun hr hf => Module.aOff_of_face (offA ?_),
      fun hr hf => Module.bOff_of_face (offB ?_)⟩
    · have stage := congrArg (fun x : Sys => x.stage + 1) sys2
      exact stage
    · exact (congrArg Topo.ringFound h2.2).trans h1.2
    · have st := congrArg Sys.st sys2
      exact st
    · rw [List.contains_iff_mem]
      refine h.elim (fun h => failed _ h (by decide) (by decide)) (fun h => ?_)
      rw [failed2]
      exact List.mem_append_left _ h
    · intro e he h
      rw [show m2.stageDone.topo = m1.topo from h2.2]
      exact links e he h
    · exact (inSvc _).2 ⟨hr, by decide, by decide, hf⟩
    · exact (inSvc _).2 ⟨hr, by decide, by decide, hf⟩

/-! ## Stage 7: the remap (R25, R30, R52, R113, R115) -/

/-- Where a link ends depends on the maps of the topology only. -/
theorem Module.farPort_same {m t : Module} (h : t.topo = m.topo) : t.farPort = m.farPort := by
  have e : t.farPort = ({ m with topo := t.topo } : Module).farPort := rfl
  rw [e, h]

theorem Module.reduced_same {m t : Module} (h : t.topo = m.topo) : t.reduced = m.reduced := by
  unfold Module.reduced
  rw [h]

/-- What the remap of `m` leaves in `t`, with the engines `stuck` in reduced-array mode. -/
structure Remapped (m : Module) (stuck : List Nat) (t : Module) : Prop where
  sys : t.sys = m.sys
  epoch : t.topo.epoch = (m.topo.epoch + 2) % 2 ^ 32
  runDead : t.topo.runDead = []
  fullArray : t.topo.reducedActive = false
  applied : t.topo.applied = t.topo.retire
  keeps : ∀ r ∈ m.topo.retire, r ∈ t.topo.retire
  retires : ∀ q ∈ stuck, q < 21_000 → Retire.core q ∈ t.topo.retire
  deadLinks : t.topo.deadLinks = linksIn t.topo.retire
  deadPorts : t.topo.deadPorts = t.topo.deadLinks.filterMap t.farPort
  lanesFound : t.topo.lanesFound = []
  clusters : t.pwr.clusters = []

theorem Module.remap_remapped (m : Module) (stuck : List Nat) : Remapped m stuck (m.remap stuck) := by
  generalize ht : m.remap stuck = t
  unfold Module.remap at ht
  extract_lets m1 m2 open_ extra topo at ht
  have e1 : m1 = { m with topo.retire := m.retired _ } := Module.foldl_retireLater Retire.core _ m
  have e2 : m2 = { m1 with topo.retire := m1.retired _ } := Module.foldl_retireLater Retire.core _ m1
  have sys : m2.sys = m.sys := by rw [e2, e1]
  have epoch : m2.topo.epoch = m.topo.epoch := by rw [e2, e1]
  have old1 : ∀ r ∈ m1.topo.retire, r ∈ m2.topo.retire := fun r h => by rw [e2]; exact Module.retired_old h
  have old : ∀ r ∈ m.topo.retire, r ∈ m2.topo.retire := fun r h => old1 r (by rw [e1]; exact Module.retired_old h)
  have new : ∀ q ∈ stuck, q < 21_000 → Retire.core q ∈ m2.topo.retire := fun q hq h =>
    old1 _ (Module.foldl_retireLater_mem Retire.core (List.mem_filter.2 ⟨hq, decide_eq_true h⟩) m)
  clear_value m1 m2 extra
  rw [← ht]
  exact ⟨sys, congrArg (fun n => (n + 2) % 2 ^ 32) epoch, rfl, rfl, rfl, old, new, rfl, rfl, rfl, rfl⟩

theorem Module.applyHeader_keep (m : Module) : ∃ x, m.applyHeader = { m with sec := x } := by
  unfold Module.applyHeader
  dsimp only
  split
  · exact ⟨_, rfl⟩
  · exact ⟨m.sec, rfl⟩

theorem Module.lowAtBringup_keep (m : Module) : m.lowAtBringup.steady = m.steady ∧ m.lowAtBringup.pwr = m.pwr := by
  unfold Module.lowAtBringup
  split
  · obtain ⟨a, b, c, e⟩ := logEvent_keep m 0x0A02 (.ring svcN) none 0 m.sec.remaining
    exact ⟨logEvent_steady .., by rw [Module.logLow, e]⟩
  · exact ⟨rfl, rfl⟩

/-- What stage 7 finds: the remap, no authority, and the state that bring-up ends in (R264, R508). -/
theorem Module.stage7_finds (m : Module) (f : StageFinding) : ∃ t, Remapped m f.stuck t ∧ (m.stage7 f).topo = t.topo
    ∧ (m.stage7 f).pwr.clusters = [] ∧ (m.stage7 f).sup.authority = 0
    ∧ (m.sys.svcFailed = [] → (m.stage7 f).sys.st = if t.reduced then .reduced else .service)
    ∧ (m.sys.svcFailed ≠ [] → (m.stage7 f).sys.st = .outOfService) := by
  generalize ht : m.stage7 f = t
  unfold Module.stage7 at ht
  extract_lets first m1 m2 at ht
  have remapped : Remapped m f.stuck m1 := m.remap_remapped f.stuck
  have h2 : m2.sys = m1.sys ∧ m2.topo = m1.topo ∧ m2.pwr = m1.pwr := by
    unfold m2
    split
    · obtain ⟨x, e⟩ := m1.applyHeader_keep
      obtain ⟨steady, pwr⟩ := m1.applyHeader.lowAtBringup_keep
      rw [steady_sys steady, steady_topo steady, pwr, e]
      exact ⟨rfl, rfl, rfl⟩
    · exact ⟨rfl, rfl, rfl⟩
  clear_value m1 m2
  obtain ⟨sys, topo, pwr⟩ := h2
  have failed : m2.sys.svcFailed = m.sys.svcFailed := by rw [sys, remapped.sys]
  refine ⟨m1, remapped, ?_⟩
  by_cases hf : m.sys.svcFailed = []
  · rw [if_neg (fun h => h (failed.trans hf))] at ht
    rw [← ht]
    refine ⟨topo, ?_, rfl, fun _ => ?_, fun h => absurd hf h⟩
    · exact (congrArg Pwr.clusters pwr).trans remapped.clusters
    · rw [← Module.reduced_same topo]
      rfl
  · rw [if_pos (fun h => hf (failed.symm.trans h))] at ht
    obtain ⟨sys', topo', auth, clusters⟩ := m2.toOutOfService_keep
    rw [← ht, sys', topo']
    exact ⟨topo, clusters, auth, fun h => absurd h hf, fun _ => rfl⟩

end Sys2Proof.Machine
end

section
/-! Cores and service dies that fail in a run, background activities, and bring-up as a whole (R25, R47, R262, R264, R467, R500 to R508, R520). -/

namespace Sys2Proof.Machine

open Sys2Proof

/-! ## Cores and service dies that fail in a run (R47, R262, R264, R520) -/

/-- The partitions that a failure of core `c` reaches: those that use it, and those that are LOADING where they use its die. -/
def Module.hitBy (m : Module) (c p : Nat) : Prop :=
  p ∈ m.usersOf [c] ∨ (p < 16 ∧ (m.part p).st = .loading ∧ ∃ cl ∈ (m.part p).clusters, dieOfCluster cl = dieOfCore c)

theorem Module.lt_of_mem_usersOf {m : Module} {cs : List Nat} {p : Nat} (h : p ∈ m.usersOf cs) : p < 16 :=
  List.mem_range.1 (List.mem_filter.1 h).1

/-- A core that fails in a run fails the partitions that it reaches, and is retired at the next remap. -/
theorem doCoreFailed_run {m : Module} {c q : Nat} {det : CoreDetector} (hq : m.physOf c = some q) (hb : m.sys.st ≠ .bringup)
    (hr : m.sys.st ≠ .recovery) (hc : m.sys.st ≠ .cold) :
    let t := doCoreFailed c det m
    c ∈ t.topo.runDead ∧ Retire.core q ∈ t.topo.retire ∧ (∀ p, ¬ m.hitBy c p → t.part p = m.part p)
    ∧ (∀ p, m.hitBy c p → (m.part p).st = .loading ∨ (m.part p).st = .running ∨ (m.part p).st = .draining → (t.part p).st = .failed) := by
  intro t
  have ht : t = doCoreFailed c det m := rfl
  clear_value t
  rw [doCoreFailed, hq] at ht
  dsimp only at ht
  rw [if_neg (by simp [hb, hr]), if_neg hc] at ht
  have users : ∀ p, p ∈ (List.range 16).filter (fun p => (m.usersOf [c]).contains p
      || ((m.part p).st = .loading && (m.part p).clusters.any (fun cl => dieOfCluster cl = dieOfCore c))) ↔ m.hitBy c p := fun p => by
    rw [List.mem_filter, List.mem_range, Bool.or_eq_true, List.contains_iff_mem, Bool.and_eq_true, decide_eq_true_eq, List.any_eq_true]
    simp only [decide_eq_true_eq]
    exact ⟨fun ⟨h16, h⟩ => h.imp id (⟨h16, ·⟩), fun h => h.elim (fun h => ⟨Module.lt_of_mem_usersOf h, .inl h⟩) (fun h => ⟨h.1, .inr h.2⟩)⟩
  have nodup : ((List.range 16).filter (fun p => (m.usersOf [c]).contains p
      || ((m.part p).st = .loading && (m.part p).clusters.any (fun cl => dieOfCluster cl = dieOfCore c)))).Nodup :=
    List.nodup_range.filter _
  generalize (List.range 16).filter _ = l at ht users nodup
  generalize hlog : m.logFatal _ _ _ _ = m1 at ht
  have parts : m1.parts = m.parts := by rw [← hlog]; exact (logRec_cp ..).2
  obtain ⟨-, others, fail⟩ := faultFold 0x0B03 l nodup m1
  generalize l.foldl (fun m p => m.faultPart p 0x0B03) m1 = m2 at ht others fail
  rw [ht, Module.retireLater_eq]
  refine ⟨List.mem_append_right _ List.mem_cons_self, Module.retired_new List.mem_cons_self, fun p hp => ?_, fun p hp hs => ?_⟩
  · exact (others p (fun h => hp ((users p).1 h))).trans (part_of_parts parts p)
  · refine fail p ((users p).2 hp) ?_
    rw [part_of_parts parts]
    exact hs

/-- A failed service die is kept in the list of those, and what it carries is absent; a module that runs goes OUT_OF_SERVICE. -/
theorem Module.svcDown_finds (m : Module) (n : Nat) :
    let t := m.svcDown n
    n ∈ t.sys.svcFailed ∧ (m.sys.st = .service ∨ m.sys.st = .reduced → t.sys.st = .outOfService)
    ∧ (n = svcN → svcN ∉ m.sys.svcFailed → t.sup.a.st = .off) ∧ (n = svcS → svcS ∉ m.sys.svcFailed → t.sup.b.st = .off)
    ∧ (m.sys.st ≠ .service → m.sys.st ≠ .reduced → t.sys.st = m.sys.st ∧ t.parts = m.parts
        ∧ (n = svcS → svcS ∉ m.sys.svcFailed → t.que.cxl.up = false)) := by
  intro t
  have ht : t = m.svcDown n := rfl
  clear_value t
  unfold Module.svcDown at ht
  extract_lets sys m1 at ht
  have absent : n ∈ m1.sys.svcFailed ∧ m1.sys.st = m.sys.st ∧ m1.parts = m.parts
      ∧ (n = svcN → svcN ∉ m.sys.svcFailed → m1.face.aOff = true) ∧ (n = svcS → svcS ∉ m.sys.svcFailed → m1.face.bOff = true)
      ∧ (n = svcS → svcS ∉ m.sys.svcFailed → m1.que.cxl.up = false) := by
    unfold m1
    split
    · rename_i h
      rw [List.contains_iff_mem] at h
      exact ⟨h, rfl, rfl, fun e hn => absurd (e ▸ h) hn, fun e hn => absurd (e ▸ h) hn, fun e hn => absurd (e ▸ h) hn⟩
    · obtain ⟨hs, -, hp, hup⟩ := ({ m with sys.svcFailed := m.sys.svcFailed ++ [n] } : Module).dieAbsent_keep n
      refine ⟨?_, ?_, hp, fun e _ => Module.dieAbsent_aOff (.inl e), fun e _ => Module.dieAbsent_bOff (.inl e), fun e _ => hup e⟩
      · rw [hs]; exact List.mem_append_right _ List.mem_cons_self
      · rw [hs]
  clear_value m1
  obtain ⟨listed, st, parts, offA, offB, down⟩ := absent
  by_cases hs : m1.serving = true
  · rw [if_pos hs] at ht
    obtain ⟨sys', -, -, -⟩ := m1.toOutOfService_keep
    rw [ht, sys']
    refine ⟨listed, fun _ => rfl, fun e h => Module.toOutOfService_offs.1 (offA e h), fun e h => Module.toOutOfService_offs.2 (offB e h),
      fun h1 h2 => absurd hs ?_⟩
    rw [Module.serving, st, decide_eq_false h1, decide_eq_false h2]
    exact Bool.false_ne_true
  · rw [if_neg hs] at ht
    rw [ht]
    refine ⟨listed, fun h => absurd ?_ hs, fun e h => Module.aOff_of_face (offA e h), fun e h => Module.bOff_of_face (offB e h),
      fun _ _ => ⟨st, parts, down⟩⟩
    rw [Module.serving, st, Bool.or_eq_true]
    exact h.imp decide_eq_true decide_eq_true

/-! ## Background activities (R25, R467, R501 to R503) -/

theorem Module.serving_of {m : Module} (h : m.sys.st = .service ∨ m.sys.st = .reduced) : m.serving = true := by
  rw [Module.serving, Bool.or_eq_true]
  exact h.imp decide_eq_true decide_eq_true

/-- A pass that ends is over, whatever else has changed but the activities and the time. -/
theorem Module.passDone_over {m t : Module} (k floor : Nat) (ha : t.sup.acts = m.sup.acts) (hn : t.now = m.now) :
    PassOver m k floor (t.passDone k floor) := by
  unfold PassOver Module.passDone
  dsimp only
  rw [kget?_kput_self, ha, hn, satN, Nat.min_comm]
  by_cases h : floor ≠ 0 ∧ floor * skS < m.now - (kgetD {} m.sup.acts k).lastAt
  · rw [if_pos h, decide_eq_true h.1, decide_eq_true h.2]
    rfl
  · rw [if_neg h, ← Bool.decide_and, decide_eq_false h]
    rfl

theorem Module.wokenForTest_keep (m : Module) (c : Nat) : ∃ ks, m.wokenForTest c = { m with cores := ks } := by
  unfold Module.wokenForTest
  extract_lets cl
  split
  · exact ⟨m.cores, rfl⟩
  · exact ⟨_, rfl⟩

/-- The module when the engine of core `c` has been tested: the core is marked with the time, and the test is counted. -/
def Module.testedAt (m : Module) (c : Nat) : Module :=
  let x : Activity := kgetD {} m.sup.acts 7
  let t := (m.wokenForTest c).modCore c (fun k => { k with selfTestAt := m.now })
  { t with sup.acts := kput t.sup.acts 7 { x with progress := x.progress + b2n ((m.core c).selfTestAt ≤ x.lastAt) } }

/-- The module when that test has ended with a finding of engine `q`. -/
def Module.engineTested (m : Module) (c q : Nat) (f : TestFinding) : Module :=
  if f = .pass then m.testedAt c else ((m.testedAt c).logEvent 0x0403 (.core c)).engineFault q f

theorem Module.testedAt_keep (m : Module) (c : Nat) : (m.testedAt c).topo = m.topo ∧ (m.testedAt c).parts = m.parts
    ∧ ((m.testedAt c).core c).selfTestAt = m.now := by
  obtain ⟨ks, hw⟩ := m.wokenForTest_keep c
  rw [Module.testedAt, hw]
  exact ⟨rfl, rfl, congrArg Core.selfTestAt (Module.setCore_core ..)⟩

/-- Beyond the finding, the end of a test only counts it or ends the pass. -/
theorem doEngineSelfTest_keep {m : Module} {c q : Nat} {f : TestFinding} (hq : m.physOf c = some q) (hs : m.serving = true) :
    let t := doEngineSelfTest c f m
    t.topo = (m.engineTested c q f).topo ∧ t.parts = (m.engineTested c q f).parts ∧ t.cores = (m.engineTested c q f).cores := by
  have e : doEngineSelfTest c f m = if (m.engineTested c q f).mappedCores
      ≤ (kgetD {} m.sup.acts 7).progress + b2n ((m.core c).selfTestAt ≤ (kgetD {} m.sup.acts 7).lastAt)
      then (m.engineTested c q f).passDone 7 86_400 else m.engineTested c q f := by
    rw [doEngineSelfTest, hq]
    dsimp only
    rw [if_neg (by rw [hs]; decide)]
    rfl
  rw [e]
  split <;> exact ⟨rfl, rfl, rfl⟩

/-- Link calibration keeps what a later direction is judged by, and the activities and the time. -/
theorem Module.calibrated_keep (m : Module) (f : LinkFinding) : (m.calibrated f).topo.lanes = m.topo.lanes
    ∧ (∀ r ∈ m.topo.retire, r ∈ (m.calibrated f).topo.retire) ∧ (m.calibrated f).sup = m.sup ∧ (m.calibrated f).now = m.now := by
  unfold Module.calibrated
  split
  · rw [Module.retireLater_eq]
    exact ⟨rfl, fun _ => Module.retired_old, rfl, rfl⟩
  · exact ⟨rfl, fun _ => id, rfl, rfl⟩

theorem Module.failedWires_same {m t : Module} (h : t.topo.lanes = m.topo.lanes) (f : LinkFinding) : t.failedWires f = m.failedWires f := by
  unfold Module.failedWires
  rw [h]

theorem Module.calibrated_retires {m : Module} {f : LinkFinding} (h : 16 < (m.failedWires f).length) :
    Retire.link f.site f.port ∈ (m.calibrated f).topo.retire := by
  rw [Module.calibrated, if_pos h]
  exact m.retireLater_mem _

theorem Module.calibrated_few {m : Module} {f : LinkFinding} (h : (m.failedWires f).length ≤ 16) :
    (m.calibrated f).topo.retire = m.topo.retire
    ∧ kget? (m.calibrated f).topo.lanesFound (64 * f.site + f.port) = some (m.failedWires f) := by
  rw [Module.calibrated, if_neg (Nat.not_lt.2 h)]
  exact ⟨rfl, kget?_kput_self ..⟩

/-! ## The commands (R264, R501 to R504, R508) -/

/-- A command completes with what holds of the module that its operation makes, once the interrupts have been raised. -/
theorem completes_of {i : Instr} {s : State} {f : Module → Module} {P : Module → Prop} (h : exec i s = onModule s f)
    (hp : P (settleIrq s.m.watched (f s.m))) : Completes i s P := ⟨_, h, rfl, hp⟩

/-- A command whose operation leaves the module as it is. -/
theorem onModule_still {s : State} {f : Module → Module} (h : f s.m = s.m) : onModule s f = .next s := by
  rw [onModule_of h]
  exact after_self s

theorem PassOver.settled {m t : Module} {k floor : Nat} (h : PassOver m k floor t) (w : Watched) : PassOver m k floor (settleIrq w t) := by
  unfold PassOver at h ⊢
  rw [settleIrq_sup_acts]
  exact h

/-- The stage that a BRINGUP_STAGE ends. -/
theorem doBringupStage_open {m : Module} {f : StageFinding} (h : m.sys.st = .bringup ∨ m.sys.st = .recovery) (hh : m.sys.stageHeld = false) :
    doBringupStage f m = if m.sys.stage = 0 then m.stage0 else if m.sup.authority = 0 then m else if m.sys.stage = 1 then m.stage1 f
      else if m.sys.stage ≤ 6 then (m.stageDies (m.sys.stage - 2) f).stageDone else m.stage7 f := by
  rw [doBringupStage, if_neg]
  rw [hh, Bool.or_false, Bool.and_eq_true, decide_eq_true_eq, decide_eq_true_eq]
  exact fun hn => h.elim hn.1 hn.2

/-- Where RECOVERY may be entered from (R264). -/
theorem doEnterRecovery_enters {m : Module} {src : Source} (hc : m.cfgOk src = true)
    (h : m.sys.st = .service ∨ m.sys.st = .reduced ∨ (m.sys.st = .safe ∧ m.cool = true ∧ m.sys.svcFailed = [])
      ∨ (m.sys.st = .outOfService ∧ m.sys.svcFailed = [])) : doEnterRecovery src m = m.beginStages .recovery := by
  unfold doEnterRecovery
  rcases h with h | h | ⟨h, cool, hf⟩ | ⟨h, hf⟩
  · rw [h, hc]; rfl
  · rw [h, hc]; rfl
  · rw [h, hc, cool, hf]; rfl
  · rw [h, hc, hf]; rfl

/-- With a failed service die neither SAFE nor OUT_OF_SERVICE is left for RECOVERY. -/
theorem doEnterRecovery_failed {m : Module} {src : Source} (h : m.sys.st = .safe ∨ m.sys.st = .outOfService) (hf : m.sys.svcFailed ≠ []) :
    doEnterRecovery src m = m := by
  unfold doEnterRecovery
  rcases h with h | h
  · rw [h]
    dsimp only
    rw [decide_eq_false hf, Bool.and_false, Bool.and_false, if_neg Bool.false_ne_true]
  · rw [h]
    dsimp only
    rw [decide_eq_false hf, Bool.and_false, if_neg Bool.false_ne_true]

theorem doEnterRecovery_closed {m : Module} {src : Source} (hc : m.cfgOk src = false) : doEnterRecovery src m = m := by
  unfold doEnterRecovery
  rw [hc]
  rfl

theorem doLeaveService_closed {m : Module} {src : Source} (hc : m.cfgOk src = false) : doLeaveService src m = m := by
  unfold doLeaveService
  rw [hc]
  rfl

theorem doLeaveService_leaves {m : Module} {src : Source} (hc : m.cfgOk src = true) (h : m.sys.st = .service ∨ m.sys.st = .reduced) :
    doLeaveService src m = m.toOutOfService := by
  rw [doLeaveService, hc, Module.serving_of h]
  rfl

theorem Module.beginStages_sys (m : Module) (st : ModState) : (m.beginStages st).sys.st = st ∧ (m.beginStages st).sys.stage = 0 := ⟨rfl, rfl⟩

theorem Module.toOutOfService_st (m : Module) : m.toOutOfService.sys.st = .outOfService := by rw [m.toOutOfService_keep.1]

theorem doTelemetryExport_reports {m : Module} (h : m.sys.st = .service ∨ m.sys.st = .reduced)
    (hl : m.shedLevel = 0 ∨ (m.shedLevel = 1 ∧ m.skPassed (kgetD {} m.sup.acts 9).lastAt (8 * skS) = true)) :
    doTelemetryExport m = m.passDone 9 0 := by
  unfold doTelemetryExport
  dsimp only
  rw [Module.serving_of h, if_neg]
  rcases hl with hl | ⟨hl, ht⟩
  · simp [hl]
  · simp [hl, ht]

theorem doTelemetryExport_shed {m : Module} (hl : 2 ≤ m.shedLevel) : doTelemetryExport m = m := by
  unfold doTelemetryExport
  dsimp only
  rw [decide_eq_true hl, Bool.or_true, Bool.true_or, if_pos rfl]

theorem doEngineSelfTest_pass {m : Module} {c q : Nat} (hq : m.physOf c = some q) (hs : m.serving = true) :
    let t := doEngineSelfTest c .pass m
    (t.core c).selfTestAt = m.now ∧ t.topo = m.topo ∧ t.parts = m.parts := by
  obtain ⟨topo, parts, cores⟩ := doEngineSelfTest_keep (f := .pass) hq hs
  obtain ⟨topo', parts', marked⟩ := m.testedAt_keep c
  have core : (doEngineSelfTest c .pass m).core c = (m.testedAt c).core c := congrArg (fun ks => kgetD ({} : Core) ks c) cores
  exact ⟨(congrArg Core.selfTestAt core).trans marked, topo.trans topo', parts.trans parts'⟩

/-- A test that finds one faulty row, of an engine whose spare row is unused. -/
theorem doEngineSelfTest_row {m : Module} {c q r : Nat} (hr : r ≤ 32) (hq : m.physOf c = some q) (hs : m.serving = true)
    (hrep : kget? m.topo.repair q = none) (hnew : ∀ r', Retire.rowRepair q r' ∉ m.topo.retire) :
    let t := doEngineSelfTest c (.row r) m
    Retire.rowRepair q r ∈ t.topo.retire ∧ t.topo.engineBad = m.topo.engineBad := by
  let logged := (m.testedAt c).logEvent 0x0403 (.core c)
  have topo : logged.topo = m.topo := (steady_topo (logEvent_steady ..)).trans (m.testedAt_keep c).1
  have tested : m.engineTested c q (.row r) = logged.retireLater (.rowRepair q r) :=
    Module.rowsFault_spare hr (by rw [topo]; exact hrep) (fun r' => by rw [topo]; exact hnew r')
  intro t
  rw [show t.topo = (m.engineTested c q (.row r)).topo from (doEngineSelfTest_keep hq hs).1, tested]
  refine ⟨Module.retireLater_mem .., ?_⟩
  rw [Module.retireLater_eq, ← topo]

theorem doEngineSelfTest_engine {m : Module} {c q : Nat} (hq : m.physOf c = some q) (hs : m.serving = true) :
    EngineOut q (doEngineSelfTest c .engine m) := by
  rw [EngineOut, (doEngineSelfTest_keep hq hs).1]
  exact Module.engineOut_out _ q

theorem doLinkCalibration_finds {m : Module} (found : List LinkFinding) (hs : m.serving = true) :
    let t := doLinkCalibration found m
    PassOver m 5 600 t
    ∧ (∀ f ∈ found, 16 < (m.failedWires f).length → Retire.link f.site f.port ∈ t.topo.retire)
    ∧ (∀ f, found = [f] → (m.failedWires f).length ≤ 16 → t.topo.retire = m.topo.retire
        ∧ kget? t.topo.lanesFound (64 * f.site + f.port) = some (m.failedWires f)) := by
  have kept : (found.foldl Module.calibrated m).sup = m.sup ∧ (found.foldl Module.calibrated m).now = m.now := by
    refine List.foldlRecOn (motive := fun t : Module => t.sup = m.sup ∧ t.now = m.now) found _ ⟨rfl, rfl⟩ (fun t ht f _ => ?_)
    obtain ⟨-, -, sup, now⟩ := t.calibrated_keep f
    exact ⟨sup.trans ht.1, now.trans ht.2⟩
  rw [doLinkCalibration, if_pos hs]
  refine ⟨Module.passDone_over 5 600 (congrArg Sup.acts kept.1) kept.2, fun f hf hw => ?_, fun f hf hw => ?_⟩
  · refine foldl_reaches (I := fun t => t.topo.lanes = m.topo.lanes) (Q := fun t => Retire.link f.site f.port ∈ t.topo.retire) (a := f)
      (fun t g _ ht => (t.calibrated_keep g).1.trans ht) (fun t ht => Module.calibrated_retires ?_)
      (fun t g ht => (t.calibrated_keep g).2.1 _ ht) hf rfl
    rw [Module.failedWires_same ht]
    exact hw
  · rw [hf]
    exact Module.calibrated_few hw

theorem doAgingMonitorRead_raises {m : Module} (d n : Nat) (hs : m.serving = true) :
    let t := doAgingMonitorRead [(d, n)] m
    PassOver m 8 60 t ∧ kgetD 0 t.pwr.vfOffset d = kgetD 0 m.pwr.vfOffset d + n := by
  have e : doAgingMonitorRead [(d, n)] m
      = { m with pwr.vfOffset := kput m.pwr.vfOffset d (kgetD 0 m.pwr.vfOffset d + n) }.passDone 8 60 := if_pos hs
  rw [e]
  exact ⟨Module.passDone_over 8 60 rfl rfl, kgetD_kput_self 0 m.pwr.vfOffset d (kgetD 0 m.pwr.vfOffset d + n)⟩

/-- Settles O55: the stages, then cores and service dies that fail, then requests, then the background activities. -/
theorem bringupAndUpkeep : Obligations.BringupAndUpkeep := by
  unfold Obligations.BringupAndUpkeep
  intro s
  refine ⟨fun f h hh => ?_, fun c det q hq => ⟨fun h => ?_, fun hb hr hc => completes_of rfl ?_⟩,
    fun die h64 h15 hc => completes_of rfl ?_, fun src => ⟨fun hc h => ?_, fun hc h => ?_, fun h hf => onModule_still (doEnterRecovery_failed h hf),
      fun hc => ⟨onModule_still (doEnterRecovery_closed hc), onModule_still (doLeaveService_closed hc)⟩⟩,
    fun h => ?_, fun hs => completes_of rfl ?_⟩
  · have run := doBringupStage_open (f := f) h hh
    refine ⟨fun h0 => completes_of rfl ?_, fun h1 ha => completes_of rfl ?_, fun h2 h6 ha => completes_of rfl ?_, fun h7 ha => completes_of rfl ?_⟩
    · rw [run, if_pos h0]
      simp only [settleIrq_sup_a, settleIrq_sup_b, settleIrq_sup_authority, settleIrq_sys, settleIrq_sec]
      exact Module.stage0_finds h0
    · rw [run, if_neg (by omega), if_neg ha, if_pos h1]
      simp only [settleIrq_sup_a, settleIrq_sup_b, settleIrq_topo, settleIrq_sys]
      have found := s.m.stage1_finds f
      rw [h1] at found
      exact found
    · rw [run, if_neg (by omega), if_neg ha, if_neg (by omega), if_pos h6]
      simp only [settleIrq_parts, settleIrq_topo, settleIrq_sys]
      obtain ⟨kept, found⟩ := s.m.stageDies_finds (s.m.sys.stage - 2) f
      exact ⟨congrArg (fun x : Sys => x.stage + 1) kept.sys, kept.parts, found⟩
    · rw [run, if_neg (by omega), if_neg ha, if_neg (by omega), if_neg (by omega)]
      obtain ⟨t, remapped, topo, clusters, auth, well, failed⟩ := s.m.stage7_finds f
      have settled : (settleIrq s.m.watched (s.m.stage7 f)).topo = t.topo := (settleIrq_topo ..).trans topo
      rw [Module.farPort_same settled, Module.reduced_same settled, settled]
      simp only [settleIrq_pwr, settleIrq_sup_authority, settleIrq_sys]
      exact ⟨remapped.epoch, remapped.runDead, remapped.fullArray, clusters, remapped.applied, remapped.keeps, remapped.deadLinks,
        remapped.deadPorts, remapped.lanesFound, auth, remapped.retires, well, failed⟩
  · refine onModule_of (f := doCoreFailed c det) ?_
    rw [doCoreFailed, hq]
    dsimp only
    rw [if_pos (by rw [Bool.or_eq_true]; exact h.imp decide_eq_true decide_eq_true)]
    rfl
  · simp only [settleIrq_topo, settleIrq_part]
    exact doCoreFailed_run hq hb hr hc
  · rw [doServiceDieFail, if_neg (by simp [h15, hc, h64])]
    simp only [settleIrq_sys, settleIrq_parts, settleIrq_que, settleIrq_sup_a, settleIrq_sup_b]
    exact s.m.svcDown_finds die
  · exact ⟨onModule_of (doEnterRecovery_enters hc h), s.m.beginStages_sys .recovery⟩
  · exact ⟨onModule_of (doLeaveService_leaves hc h), s.m.toOutOfService_st⟩
  · have hs := Module.serving_of h
    refine ⟨fun c q hq => completes_of rfl ?_, fun c q r hr hq hrep hnew => completes_of rfl ?_, fun c q hq => completes_of rfl ?_,
      completes_of rfl ?_, fun found => completes_of rfl ?_, fun d n => completes_of rfl ?_, fun hl => completes_of rfl ?_,
      fun hl => onModule_still (doTelemetryExport_shed hl)⟩
    · rw [settleIrq_core, settleIrq_topo, settleIrq_parts]
      exact doEngineSelfTest_pass hq hs
    · rw [settleIrq_topo]
      exact doEngineSelfTest_row hr hq hs hrep hnew
    · rw [settleIrq_topo]
      exact doEngineSelfTest_engine hq hs
    · rw [doOscillatorCalibration, if_pos hs]
      exact (Module.passDone_over 4 60 rfl rfl).settled _
    · obtain ⟨pass, finds⟩ := doLinkCalibration_finds found hs
      rw [settleIrq_topo]
      exact ⟨pass.settled _, finds⟩
    · obtain ⟨pass, raised⟩ := doAgingMonitorRead_raises d n hs
      rw [settleIrq_pwr]
      exact ⟨pass.settled _, raised⟩
    · rw [doTelemetryExport_reports h hl]
      exact (Module.passDone_over 9 0 rfl rfl).settled _
  · rw [doLogFlush, if_pos hs, settleIrq_sup_flashLog, settleIrq_sup_flashNext, settleIrq_sup_flashSeq]
    exact ⟨(Module.passDone_over 10 60 rfl rfl).settled _, rfl, rfl, rfl⟩

end Sys2Proof.Machine
end

section
/-! EXACT accumulation (R66, R69, R71, R74): sums within the range and beyond it, specials, the codes of an accumulator, and the zero
written back. -/

namespace Sys2Proof.Machine

open Sys2Proof

/-! ## Sums (R69, R71) -/

theorem accAdd_fin_inside {a b : Int} (hlo : -accMax ≤ a + b) (hhi : a + b ≤ accMax) : accAdd (.fin a) (.fin b) = (.fin (a + b), false) := by
  dsimp only [accAdd]
  rw [if_neg (Int.not_lt.2 hhi), if_neg (Int.not_lt.2 hlo)]

theorem accAdd_fin_above {a b : Int} (h : accMax < a + b) : accAdd (.fin a) (.fin b) = (.inf false, true) := by
  dsimp only [accAdd]
  rw [if_pos h]

theorem accAdd_fin_below {a b : Int} (h : a + b < -accMax) : accAdd (.fin a) (.fin b) = (.inf true, true) := by
  have hmax : 0 ≤ accMax := by decide
  dsimp only [accAdd]
  rw [if_neg (by omega), if_pos h]

@[simp] theorem accAdd_nan_left (x : Acc) : accAdd .nan x = (.nan, false) := rfl

@[simp] theorem accAdd_nan_right (x : Acc) : accAdd x .nan = (.nan, false) := by
  cases x <;> rfl

/-! ## Codes (R66) -/

/-- The code of a finite accumulator is the number itself, or that number and 2^128 where it is negative; neither is a special's code. -/
theorem twos_of_finite {a : Int} (hlo : -accMax ≤ a) (hhi : a ≤ accMax) :
    (twos 128 a : Int) = if 0 ≤ a then a else a + 2 ^ 128 := by
  unfold accMax at hlo hhi
  unfold twos
  split <;> omega

theorem accDecode_twos {a : Int} (hlo : -accMax ≤ a) (hhi : a ≤ accMax) : accDecode (twos 128 a) = .fin a := by
  have hcode := twos_of_finite hlo hhi
  unfold accMax at hlo hhi
  generalize twos 128 a = b at hcode
  have hb : b % 2 ^ 128 = b := Nat.mod_eq_of_lt (by split at hcode <;> omega)
  have hnan : b ≠ 2 ^ 127 := by split at hcode <;> omega
  have hneg : b ≠ 2 ^ 127 + 1 := by split at hcode <;> omega
  have hpos : b ≠ 2 ^ 127 - 1 := by split at hcode <;> omega
  have hval : signed 128 b = a := by
    simp only [signed, hb]
    split at hcode <;> split <;> omega
  simp only [accDecode, hb, if_neg hnan, if_neg hneg, if_neg hpos, hval]

theorem accDecode_accEncode {x : Acc} (h : ∀ a, x = .fin a → -accMax ≤ a ∧ a ≤ accMax) : accDecode (accEncode x) = x := by
  cases x with
  | nan => decide
  | inf neg => cases neg <;> decide
  | fin a => exact accDecode_twos (h a rfl).1 (h a rfl).2

/-! ## The zero written back (R74) -/

/-- A zero magnitude has code 0 under every rounding mode. -/
theorem roundCode_zero (f : Fmt) (mode : Rnd) (rand d : Nat) : roundCode f mode rand 0 d = 0 := if_pos rfl

theorem fpRound_zero (f : Fmt) (mode : Rnd) (rand d : Nat) : (fpRound f mode rand (.fin false 0 d)).1 = 0 := by
  cases mode with
  | rne => simp [fpRound, withSign, roundCode_zero]
  | rtz => simp [fpRound, withSign, roundCode_zero]
  | sr => simp [fpRound, withSign, roundCode_zero, pastMax]

theorem accValue_code_zero : accValue (accDecode (accEncode (.fin 0))) = .fin false 0 (2 ^ 64) := by decide

/-- An EXACT accumulator of 0 writes back as code 0 in every format. -/
theorem Tmm.writeBack_zero (i : Tmm) (b m n flags : Nat) (h : i.exact = true) :
    (i.writeBack b m n (accEncode (.fin 0), flags)).1 = 0 := by
  unfold Tmm.writeBack
  rw [if_pos h]
  by_cases hc : i.fc = .acc128
  · rw [if_pos hc]; rfl
  · rw [if_neg hc]
    dsimp only
    rw [accValue_code_zero]
    exact fpRound_zero ..

/-- Settles O19: sums by their place in the range, specials by their constructors, codes through `accDecode_accEncode`. -/
theorem exactAccumulator : Obligations.ExactAccumulator := by
  unfold Obligations.ExactAccumulator
  exact ⟨fun fa fs row col sa sb c => rfl, fun a b => ⟨accAdd_fin_inside, accAdd_fin_above, accAdd_fin_below⟩,
    fun x a neg other => ⟨accAdd_nan_left x, accAdd_nan_right x, rfl, rfl, rfl⟩, fun x => accDecode_accEncode,
    fun i b m n flags h _ => i.writeBack_zero b m n flags h⟩

end Sys2Proof.Machine
end

section
/-! Vector and TMM instructions as commands (R138, R139, R196): what the issue of one leaves, when it is over at issue, is held back, enters its
unit's queue, runs at once, or runs from the head of the queue. -/

namespace Sys2Proof.Machine

open Sys2Proof

/-! ## A command of a unit with a queue -/

section Queue

variable {s : State} {c t op p : Nat} {k k' : Core} {th th' : Thread} {w g : Nat} {u : CUnit} {qs : List Nat}
  {f : Ctx → Core → Thread → Nat → CoreRes} {once : Ctx → Core → Thread → Nat → Bool} {spans : Ctx → Core → Thread → Nat → List Span}

/-- One that is over at issue leaves its core and its thread. -/
theorem onModule_issueQ_over (h : Issues s c t op p k th w) (hq : k.queue u = []) (ho : once (s.m.ctx p c) k th w = true)
    (hf : f (s.m.ctx p c) k th w = .go { core := k', th := th' }) :
    onModule s (issueQ c t op u f once spans) = .next ((left s c t u k' th').found c (k.softFetch th)) := by
  have run := issueQ_go (f := f) (spans := spans) h hq (.inl ho) hf
  rw [CoreOut.fetched, List.append_nil, commit_soft] at run
  exact onModule_same run (watched_foundAt ..)

/-- One that the interlock holds back waits. -/
theorem onModule_issueQ_hold (h : Issues s c t op p k th w) (hq : k.queue u = []) (ho : once (s.m.ctx p c) k th w = false)
    (hc : k.clear t (spans (s.m.ctx p c) k th w) = false) :
    onModule s (issueQ c t op u f once spans) = .next (parked s c t k th) :=
  onModule_parked (issueQ_hold h hq ho hc)

/-- One that is not ready enters the empty queue, and leaves the module `m'`. -/
theorem onModule_issueQ_wait {m' : Module} (h : Issues s c t op p k th w) (hq : k.queue u = []) (hr : u.room ≠ 0)
    (hc : k.clear t (spans (s.m.ctx p c) k th w) = true) (hf : f (s.m.ctx p c) k th w = .wait)
    (hm : (enqueued s c t u k th w (spans (s.m.ctx p c) k th w)).headWaits c u = m') :
    onModule s (issueQ c t op u f once spans) = after s m' :=
  onModule_of ((issueQ_wait h hq hr hc hf).trans hm)

/-- One that is ready runs at once where nothing is before it. -/
theorem onModule_issueQ_go (h : Issues s c t op p k th w) (hq : k.queue u = []) (hr : u.room ≠ 0)
    (hc : k.clear t (spans (s.m.ctx p c) k th w) = true)
    (hf : f (s.m.ctx p c) k th w = .go { core := k', th := th', tags := g, soft := qs }) :
    onModule s (issueQ c t op u f once spans)
      = after s (foundAt (tagged (left s c t u k' th').m p g) c (k.softFetch th ++ qs)) :=
  onModule_commit (issueQ_go h hq (.inr ⟨hc, hr⟩) hf)

/-- One behind others enters the queue, and leaves the module `m'`, while that has room, else it waits. -/
theorem onModule_issueQ_behind {q : Issued} {l : List Issued} {m' : Module} (h : Issues s c t op p k th w) (hq : k.queue u = q :: l)
    (hn : q.thread ≠ t ∨ fld q.word 0 8 ≠ op) (hh : s.m.headWaits c u = s.m) (ho : once (s.m.ctx p c) k th w = false)
    (hc : k.clear t (spans (s.m.ctx p c) k th w) = true)
    (hm : (enqueued s c t u k th w (spans (s.m.ctx p c) k th w)).headWaits c u = m') :
    onModule s (issueQ c t op u f once spans)
      = if (k.queue u).length < u.room then after s m' else .next (parked s c t k th) := by
  have run := issueQ_behind (f := f) h hq hn hh ho hc
  rw [hm] at run
  by_cases hr : (k.queue u).length < u.room
  · rw [if_pos hr] at run ⊢
    exact onModule_of run
  · rw [if_neg hr] at run ⊢
    exact onModule_parked run

/-- The head of the queue runs on the core `k₀` without it, with the registers of its issue; its thread is left as `th₁`, in its place with
the vector registers written. -/
theorem onModule_issueQ_head {q : Issued} {l : List Issued} {k₀ : Core} {th₁ : Thread} (h : AtHead s c t op p u k q l)
    (hk : k.setQueue u l = k₀) (hf : f (s.m.ctx p c) k₀ (q.view k) q.word = .go { core := k', th := th', tags := g, soft := qs })
    (hv : { kgetD ({} : Thread) k.threads t with v := th'.v } = th₁) :
    onModule s (issueQ c t op u f once spans) = after s (foundAt (tagged (left s c t u k' th₁).m p g) c qs) := by
  subst hk hv
  exact onModule_commit (issueQ_head h hf)

end Queue

/-! ## Vector instructions (R148, R151, R156) -/

section Vec

variable {op : VOp} {x : Ctx} {k : Core} {th : Thread} {w : Nat}

theorem vecAtOnce_of_rows_zero (h : (vecOf op x k th w).rows = 0) : vecAtOnce op x k th w = true := by
  have hw : fld w 56 16 = 0 := h
  simp [vecAtOnce, hw]

/-- Nothing ends at issue an instruction that has rows and operands in range. -/
theorem vecAtOnce_eq_false (hn : NextInside k th) (h0 : (vecOf op x k th w).rows ≠ 0) (hr : (vecOf op x k th w).inRange = true)
    (hw : (vecOf op x k th w).outSpans.any k.writesCode = false) : vecAtOnce op x k th w = false := by
  have hp : k.pcInside (th.pc + 32) = true := hn
  have hw0 : fld w 56 16 ≠ 0 := h0
  simp [vecAtOnce, hp, hw0, hr, hw]

theorem runVec_of_rows_zero (hn : NextInside k th) (h : (vecOf op x k th w).rows = 0) :
    runVec op x k th w = .go { core := k, th := th.next } := by
  rw [runVec_eq op x k th w _ rfl hn, if_pos h]

/-- An instruction one of whose carry slots is not ready waits (R148). -/
theorem runVec_of_not_ready (hn : NextInside k th) (h0 : (vecOf op x k th w).rows ≠ 0) (hr : (vecOf op x k th w).inRange = true)
    (hw : (vecOf op x k th w).outSpans.any k.writesCode = false) (hx : (vecOf op x k th w).ready k = false) :
    runVec op x k th w = .wait := by
  rw [runVec_eq op x k th w _ rfl hn, if_neg h0, hr, hw, if_neg (by simp)]
  unfold Vec.ready at hx
  rcases Bool.and_eq_false_iff.1 hx with hsrc | hdst
  · rw [hsrc]; rfl
  · split
    · rfl
    · rw [if_pos]
      simpa using hdst

end Vec

/-- Settles O21: each clause is one case of the issue of a queued command, with what `runVec` does there. -/
theorem vectorInstructions : Obligations.VectorInstructions := by
  unfold Obligations.VectorInstructions
  intro e he s c t p k
  simp only [vector_exec e he c t s]
  refine ⟨fun th w h hn => ⟨fun h0 hq => ?_, fun h0 hr hw => ⟨fun hq hc => ?_, fun hq hc hx => ?_, fun hq hc hx hb hm => ?_,
    fun q qs hq ho hc => ?_⟩⟩, fun q qs h hn h0 hr hw hx hb hm => ?_⟩
  · exact onModule_issueQ_over h hq (vecAtOnce_of_rows_zero h0) (runVec_of_rows_zero hn h0)
  · exact onModule_issueQ_hold h hq (vecAtOnce_eq_false hn h0 hr hw) hc
  · exact onModule_issueQ_wait h hq (by decide) hc (runVec_of_not_ready hn h0 hr hw hx) (headWaits_vector ..)
  · obtain ⟨k', v, run, leaves⟩ := runVec_leaves rfl hn h0 hr hw hx hb hm
    exact ⟨k', v, leaves, onModule_issueQ_go h hq (by decide) hc run⟩
  · exact onModule_issueQ_behind h hq ho (headWaits_vector ..) (vecAtOnce_eq_false hn h0 hr hw) hc (headWaits_vector ..)
  · obtain ⟨k', v, run, leaves⟩ := runVec_leaves rfl hn h0 hr hw hx hb hm
    exact ⟨k', v, leaves, onModule_issueQ_head h rfl run rfl⟩

/-! ## TMM instructions (R136, R144, R148, R183) -/

section Tmm

variable {form : TmmForm} {x : Ctx} {k : Core} {th : Thread} {w : Nat}

theorem tmmAtOnce_of_m_zero (h : fld w 32 16 = 0) : tmmAtOnce form x k th w = true := by
  simp [tmmAtOnce, h]

/-- Nothing ends at issue a TMM that has rows and operands in range. -/
theorem tmmAtOnce_eq_false (hn : NextInside k th) (h0 : fld w 32 16 ≠ 0) (hr : (tmmOf form x k th w).inRange = true)
    (hw : (tmmOf form x k th w).outSpans.any k.writesCode = false) : tmmAtOnce form x k th w = false := by
  have hp : k.pcInside (th.pc + 32) = true := hn
  simp [tmmAtOnce, hp, h0, hr, hw]

theorem runTmm_of_m_zero (hn : NextInside k th) (h : fld w 32 16 = 0) :
    runTmm form x k th w = .go { core := k, th := th.next } := by
  rw [runTmm_go form x k th w _ rfl hn, if_pos h]

/-- A TMM that lacks its resolved list, a carry slot or a unit of a window slot waits (R144, R148, R183). -/
theorem runTmm_of_not_ready (hn : NextInside k th) (h0 : fld w 32 16 ≠ 0) (hr : (tmmOf form x k th w).inRange = true)
    (hw : (tmmOf form x k th w).outSpans.any k.writesCode = false)
    (hx : listPending form k w = true ∨ (tmmOf form x k th w).ready k = false) : runTmm form x k th w = .wait := by
  rw [runTmm_go form x k th w _ rfl hn, if_neg h0]
  split
  · rfl
  · next hl =>
    have hlacks := hx.resolve_left hl
    rw [hr, hw, if_neg (by simp), if_pos]
    simpa only [Tmm.ready, Bool.and_eq_false_iff, Bool.or_eq_true, Bool.not_eq_true', Bool.not_eq_false'] using hlacks

end Tmm

/-- Settles O23: each clause is one case of the issue of a queued command, with what `runTmm` does there. -/
theorem tmmInstructions : Obligations.TmmInstructions := by
  unfold Obligations.TmmInstructions
  intro e he s c t p k
  simp only [tmm_exec e he c t s]
  refine ⟨fun th w h hn => ⟨fun h0 hq => ?_, fun h0 hr hw => ⟨fun hq hc => ?_, fun hq hc hx => ?_,
    fun hq hc hl hx hb sram us os hgo hm => ?_, fun q qs hq ho hc hh => ?_⟩⟩,
    fun q qs h hn h0 hl hr hw hx hb sram us os hgo hm => ?_⟩
  · exact onModule_issueQ_over h hq (tmmAtOnce_of_m_zero h0) (runTmm_of_m_zero hn h0)
  · exact onModule_issueQ_hold h hq (tmmAtOnce_eq_false hn h0 hr hw) hc
  · exact onModule_issueQ_wait h hq (by decide) hc (runTmm_of_not_ready hn h0 hr hw hx) rfl
  · obtain ⟨k', run, leaves⟩ := runTmm_leaves rfl hn h0 hl hr hw hx hb hgo hm
    exact ⟨k', leaves, onModule_issueQ_go h hq (by decide) hc run⟩
  · exact onModule_issueQ_behind h hq ho hh (tmmAtOnce_eq_false hn h0 hr hw) hc rfl
  · obtain ⟨k', run, leaves⟩ := runTmm_leaves rfl hn h0 hl hr hw hx hb hgo hm
    obtain rfl := h.thread
    exact ⟨k', leaves, onModule_issueQ_head h rfl run rfl⟩

end Sys2Proof.Machine
end

section
/-! Task aborts (R105, R149, R201, R341, R405), the swap of the stationary sets (R107, R108), and the tag summary's W1C write (R97). -/

namespace Sys2Proof.Machine

open Sys2Proof

/-! ## A core whose task aborted -/

/-- A map that lists `f j` at every `j` of a list reads so there. -/
theorem kget?_map_graph {α : Type} (f : Nat → α) {l : List Nat} {i : Nat} (h : i ∈ l) :
    kget? (l.map (fun j => (j, f j))) i = some (f i) := by
  induction l with
  | nil => exact absurd h List.not_mem_nil
  | cons j l ih =>
    rw [List.map_cons, kget?]
    by_cases hj : j = i
    · rw [if_pos hj, hj]
    · rw [if_neg hj]
      exact ih ((List.mem_cons.1 h).resolve_left (Ne.symm hj))

/-- Every thread is HALTED, with its pc and registers (R201). -/
theorem abortCore_thread (k : Core) {i : Nat} (h : i < 8) :
    kgetD {} (abortCore k).threads i = { kgetD ({} : Thread) k.threads i with st := .halted } := by
  rw [kgetD, abortCore, kget?_map_graph _ (List.mem_range.2 h), Option.getD_some]

/-- The shadow set is forgotten, the active one stays (R105, log 19). -/
theorem abortCore_sets (k : Core) :
    if k.eng.activeB then (abortCore k).eng.setA = {} ∧ (abortCore k).eng.setB = k.eng.setB
    else (abortCore k).eng.setB = {} ∧ (abortCore k).eng.setA = k.eng.setA := by
  split
  · next h => exact ⟨if_pos h, if_pos h⟩
  · next h => exact ⟨if_neg h, if_neg h⟩

/-- No window keeps a slot in use (R341). -/
theorem abortCore_slots {k : Core} {i : Nat} {w : Window} (h : kget? (abortCore k).wins i = some w) : w.slots = [] := by
  rw [abortCore, kget?_kmapv, Option.map_eq_some_iff] at h
  obtain ⟨w', -, rfl⟩ := h
  rfl

/-- Settles O14: `abortTask_eq` gives the cores as those of `mapCores` and the partitions, `abortCore` gives each core. -/
theorem taskAbort : Obligations.TaskAbort := by
  unfold Obligations.TaskAbort
  intro m p code l running t
  obtain ⟨hcores, hothers, krf, hpart⟩ := abortTask_eq m p code l running
  have hcore (c : Nat) : kget? t.cores c = (kget? m.cores c).map (fun k => if (m.part p).hasCore c then abortCore k else k) :=
    (congrArg (kget? · c) hcores).trans (mapCores_get m p abortCore c)
  refine ⟨fun c k hk hc => ⟨abortCore k, ?_, fun i hi => abortCore_thread k hi, rfl, rfl, rfl, rfl, rfl, rfl, abortCore_sets k,
    fun i w => abortCore_slots, rfl⟩, fun c hc => ?_, ?_, ?_, ?_, ?_, hothers⟩
  · rw [hcore, hk, Option.map_some, if_pos hc]
  · simp only [hcore, hc, Bool.false_eq_true, if_false, Option.map_id']
  all_goals rw [hpart]

/-! ## STATIONARY_SWAP -/

/-- The set that the next swap makes active (R106). -/
def Engine.shadow (e : Engine) : StationarySet := if e.activeB then e.setA else e.setB

/-- The swap of R107 field by field. -/
theorem Engine.swap_eq (e : Engine) :
    e.swap = { e with
      activeB := !e.activeB, lastRowIn := false
      setA := if e.activeB then e.setA else { e.setA with loaded := false }
      setB := if e.activeB then { e.setB with loaded := false } else e.setB } := by
  unfold Engine.swap
  split
  · next h => simp [h]
  · next h => simp [h]

/-- A swap that nothing holds back happens, and a scale of 0xFF in the set that it makes active aborts the task (R108). -/
theorem doStationarySwap_ready {m : Module} {c p : Nat} {k : Core} (hk : kget? m.cores c = some k) (hp : m.partOfCore c = some p)
    (running : (m.part p).taskRunning = true) (lastRow : k.eng.lastRowIn = true) (loaded : k.eng.shadow.loaded = true) :
    doStationarySwap c m =
      if 0xFF ∈ k.eng.shadow.scales then (m.setCore c { k with eng := k.eng.swap }).abortTask p 0x0104 (.core c)
      else m.setCore c { k with eng := k.eng.swap } := by
  unfold Engine.shadow at loaded ⊢
  simp [doStationarySwap, hk, hp, running, lastRow, loaded]

/-! ## ENG_TAG_SUMMARY_CLEAR -/

/-- The W1C write of R97 on the five tag bits. -/
theorem bitAt_w1c {tags : Nat} (h : tags < 32) (v i : Nat) :
    bitAt (tags &&& (31 ^^^ fld v 0 5)) i = (bitAt tags i && !bitAt v i) := by
  rw [bitAt_eq, bitAt_eq, bitAt_eq, fld_zero, show (31 : Nat) = 2 ^ 5 - 1 from rfl, Nat.testBit_and, Nat.testBit_xor,
    Nat.testBit_two_pow_sub_one, Nat.testBit_mod_two_pow]
  by_cases hi : i < 5
  · simp [hi]
  · have hclear : tags.testBit i = false :=
      Nat.testBit_lt_two_pow (Nat.lt_of_lt_of_le h (Nat.pow_le_pow_right (n := 2) (by decide) (Nat.not_lt.1 hi)))
    rw [hclear, Bool.false_and, Bool.false_and]

/-- Settles O16: the swap by `doStationarySwap_ready`, with and without a scale of 0xFF; the clear bit by bit. -/
theorem engineCommands : Obligations.EngineCommands := by
  unfold Obligations.EngineCommands
  refine ⟨?swap, fun s p v h => ⟨_, onModule_of rfl, bitAt_w1c h v.toNat⟩⟩
  intro s c p k hk hp running lastRow shadow eng' m' loaded
  have run : doStationarySwap c s.m = if 0xFF ∈ shadow.scales then m'.abortTask p 0x0104 (.core c) else m' := by
    rw [doStationarySwap_ready hk hp running lastRow loaded, Engine.swap_eq]
    rfl
  show onModule s (doStationarySwap c) = _
  split
  · next h => exact onModule_of (run.trans (if_pos h))
  · next h => exact onModule_same (run.trans (if_neg h)) (watched_cores ..)

end Sys2Proof.Machine
end

section
/-! Resolution of a tail's list and the pull that follows (R178, R179, R325, R332): one pull of the next slot, said once, and RESOLVE as at
most one such pull. -/

namespace Sys2Proof.Machine

open Sys2Proof

/-! ## The window once its next slot is assigned (R325) -/

/-- The window whose next slot has become the pull of `units` units of its layer, and which goes on in slots and in the layers of its flow `f`. -/
def Window.advance (w : Window) (f : Flow) (units : Nat) : Window :=
  let wrap : Bool := w.layer + 1 = f.first + f.count
  { w.assign w.next w.layer w.step units with
    next := (w.next + 1) % max 1 w.nslots
    layer := if wrap then f.first else w.layer + 1
    step := if wrap then w.step + 1 else w.step }

theorem Window.advance_slot (w : Window) (f : Flow) (units j : Nat) :
    (w.advance f units).slot j = if j = w.next then assignSlot w.layer w.step units else w.slot j := kgetD_kput ..

theorem Window.advance_next (w : Window) (f : Flow) (units : Nat) : (w.advance f units).next = (w.next + 1) % max 1 w.nslots := rfl

/-! ## One pull -/

/-- One round of `tailPull` after the resolution: the PULL of the next slot for its layer `e` goes out, and the window advances. -/
def Module.pullNext (m : Module) (p c i : Nat) (e : Layer) : Module :=
  let w := m.win c i
  let entries := listEntries (m.core c).sram w.listAddr
  let units := if e.predicted then entries.length * e.blockUnits else e.shardUnits
  let blocks := if e.predicted then entries.map Prod.fst else []
  let sent := (pullMsgs w.next w.layer w.step units blocks).foldl (fun m x => m.winSend p c i x) m
  sent.setWin c i ((sent.win c i).advance (sent.flow (256 * p + (sent.win c i).flow)) units)

/-- A tail whose next slot is FREE resolves for its next layer, and pulls where the resolution lets it. -/
theorem Module.tailPull_succ {m : Module} {p c i n : Nat} (tail : (m.win c i).tail = true)
    (free : ((m.win c i).slot (m.win c i).next).st = .free) (running : (m.part p).taskRunning = true) :
    let e := m.layer p (m.win c i).layer
    let r := m.resolveFor p c i e
    m.tailPull p c i (n + 1) = if r.2 then (r.1.pullNext p c i e).tailPull p c i n else r.1 := by
  intro e r
  have hr : m.resolveFor p c i (m.layer p (m.win c i).layer) = (r.1, r.2) := rfl
  rw [Module.tailPull]
  simp only [tail, free, running, hr]
  cases r.2 <;> rfl

/-- A window whose next slot is in use pulls nothing. -/
theorem Module.tailPull_held {m : Module} {p c i : Nat} (n : Nat) (h : ((m.win c i).slot (m.win c i).next).st ≠ .free) :
    m.tailPull p c i n = m := by
  cases n with
  | zero => rfl
  | succ n => simp [Module.tailPull, h]

theorem length_pullMsgs (slot layer step units : Nat) (blocks : List Nat) :
    (pullMsgs slot layer step units blocks).length = max 1 (ceilDiv blocks.length 12) := by
  simp [pullMsgs]

theorem win_setWin_self (m : Module) (c i : Nat) (w : Window) : (m.setWin c i w).win c i = w :=
  (win_setWin ..).trans (if_pos ⟨rfl, rfl⟩)

theorem core_setWin_ne {c d : Nat} (h : d ≠ c) (m : Module) (i : Nat) (w : Window) : (m.setWin c i w).core d = m.core d :=
  (core_modCore ..).trans (if_neg h)

theorem sram_setWin (m : Module) (c i : Nat) (w : Window) : ((m.setWin c i w).core c).sram = (m.core c).sram := by
  rw [Module.setWin, core_modCore, if_pos rfl]

/-- What one pull of `units` units, for the blocks `blocks`, leaves: the window advanced, its packets sent, and the core's SRAM, the other
cores and the partitions as they were. -/
structure Pulled (m m' : Module) (p c i units : Nat) (blocks : List Nat) : Prop where
  win : ∃ q f, m'.win c i = ({ m.win c i with seqOut := q } : Window).advance f units
  sram : (m'.core c).sram = (m.core c).sram
  other : ∀ d, d ≠ c → m'.core d = m.core d
  parts : m'.parts = m.parts
  flights : ∃ fs : List Flight, m'.net.flights = m.net.flights ++ fs
    ∧ fs.map (fun f => (f.route, f.part, f.hdr, f.payload))
      = (List.range (max 1 (ceilDiv blocks.length 12))).map (fun j =>
        ((m.win c i).pullOut, p, mkHeader (m.win c i).pullOut 4 0 (((m.win c i).seqOut + j) % 256) 0,
          [controlFlit ((pullMsgs (m.win c i).next (m.win c i).layer (m.win c i).step units blocks).getD j 0)]))

theorem Module.pullNext_pulled {m : Module} {p c i : Nat} {e : Layer} (predicted : e.predicted = true) (seq : (m.win c i).seqOut < 256) :
    let entries := listEntries (m.core c).sram (m.win c i).listAddr
    Pulled m (m.pullNext p c i e) p c i (entries.length * e.blockUnits) (entries.map Prod.fst) := by
  intro entries
  unfold Module.pullNext
  simp only [predicted, if_true]
  obtain ⟨hwin, hsram, hother, hparts, fs, hfl, hfs⟩ := fold_sent (pullMsgs (m.win c i).next (m.win c i).layer (m.win c i).step
    (entries.length * e.blockUnits) (entries.map Prod.fst)) m _ p c i seq rfl
  rw [length_pullMsgs] at hfs
  refine ⟨⟨_, _, (win_setWin_self ..).trans (congrArg (Window.advance · _ _) hwin)⟩, (sram_setWin ..).trans hsram,
    fun d hd => (core_setWin_ne hd ..).trans (hother d hd), hparts, fs, hfl, hfs⟩

theorem Pulled.slot {m m' : Module} {p c i units : Nat} {blocks : List Nat} (h : Pulled m m' p c i units blocks) (j : Nat) :
    (m'.win c i).slot j
      = if j = (m.win c i).next then assignSlot (m.win c i).layer (m.win c i).step units else (m.win c i).slot j := by
  obtain ⟨q, f, hw⟩ := h.win
  rw [hw]
  exact Window.advance_slot ..

theorem Pulled.next {m m' : Module} {p c i units : Nat} {blocks : List Nat} (h : Pulled m m' p c i units blocks) :
    (m'.win c i).next = ((m.win c i).next + 1) % max 1 (m.win c i).nslots := by
  obtain ⟨q, f, hw⟩ := h.win
  rw [hw]
  exact Window.advance_next ..

theorem Pulled.part {m m' : Module} {p c i units : Nat} {blocks : List Nat} (h : Pulled m m' p c i units blocks) (q : Nat) :
    m'.part q = m.part q := by
  rw [Module.part, h.parts]
  rfl

/-! ## RESOLVE -/

theorem doResolve_started {m : Module} {c i p : Nat} (hp : m.partOfCore c = some p) (started : (m.part p).started = true) :
    doResolve c i m = m.tailPull p c i 16 := by
  simp [doResolve, hp, started]

/-- A list that is not armed keeps its layer's pull back (R178). -/
theorem resolveFor_wait {m : Module} {p c i : Nat} {e : Layer} (predicted : e.predicted = true) (own : e.predReuse = false)
    (h : resolve (m.core c) (m.win c i).listAddr = .wait) : m.resolveFor p c i e = (m, false) := by
  simp [Module.resolveFor, predicted, own, h]

theorem core_of_kput {m m' : Module} {c : Nat} {k : Core} (h : m'.cores = kput m.cores c k) (d : Nat) :
    m'.core d = if d = c then k else m.core d := by
  rw [Module.core, h, kgetD_kput]
  rfl

/-- A resolution of the list of core `c` leaves its windows as they were. -/
theorem win_of_resolved {m m' : Module} {c a dropped fb : Nat} {k : Core} (h : m'.cores = kput m.cores c k)
    (hk : resolve (m.core c) a = .done k dropped fb) (i : Nat) : m'.win c i = m.win c i := by
  rw [Module.win, core_of_kput h, if_pos rfl, resolve_wins hk]
  rfl

/-- Settles O17: a list that is not armed ends the first round of `tailPull`; one that resolves makes it one pull (`pullNext_pulled`),
after which the window's next slot is in use and the second round ends. -/
theorem resolveGoesOn : Obligations.ResolveGoesOn := by
  unfold Obligations.ResolveGoesOn
  intro s c i p hp started running w e tail free seq predicted own
  have first := (doResolve_started (i := i) hp started).trans (Module.tailPull_succ tail free running)
  constructor
  · intro wait
    rw [resolveFor_wait predicted own wait] at first
    exact onModule_still first
  · intro k dropped fb hk busy moves entries units
    obtain ⟨mr, hr, hcores, hnet, -, hpart⟩ := resolveFor_done (p := p) predicted own hk
    have hwin : mr.win c i = w := win_of_resolved hcores hk i
    have hcore : mr.core c = k := (core_of_kput hcores c).trans (if_pos rfl)
    have pulled := Module.pullNext_pulled (m := mr) (p := p) (c := c) (i := i) predicted (by rwa [hwin])
    rw [hcore, hwin] at pulled
    have run : doResolve c i s.m = mr.pullNext p c i e := by
      rw [hr] at first
      refine first.trans (Module.tailPull_held 15 ?_)
      rwa [pulled.next, pulled.slot, hwin, if_neg moves]
    obtain ⟨fs, hfl, hfs⟩ := pulled.flights
    refine completes_of (f := doResolve c i) rfl ?_
    simp only [run, settleIrq_core, settleIrq_part, settleIrq_win, settleIrq_net]
    refine ⟨pulled.sram.trans (by rw [hcore]), ?_, ?_, ?_, fun j hj => ?_, ?_, fun d hd => ?_, fs, ?_, ?_⟩
    · rw [pulled.part, hpart]
      exact Nat.min_comm ..
    · rw [pulled.part, hpart]
      exact Nat.min_comm ..
    · rw [pulled.slot, hwin, if_pos rfl]
    · rw [pulled.slot, hwin, if_neg hj]
    · rw [pulled.next, hwin]
    · rw [pulled.other d hd, core_of_kput hcores, if_neg hd]
    · rw [hfl, hnet]
    · rw [hfs, hwin, List.length_map]

end Sys2Proof.Machine
end

section
/-! The instructions of the scalar unit (R139, R195 to R200, R297, R427): what each does at its core, case by case, and each command as one
issue of it. -/

namespace Sys2Proof.Machine

open Sys2Proof

section Scalar

variable {s : State} {c t op p : Nat} {k : Core} {th : Thread} {w : Nat} {x : Ctx} {f : Ctx → Core → Thread → Nat → CoreRes}

/-! ## Where a thread goes on (R199, R200) -/

theorem goNext_outside (h : k.pcInside (th.pc + 32) = false) : goNext k th = goAbort k th 0x0602 := goTo_outside (.inr h)

theorem goBranch_taken {n : Nat} (hn : (n : Int) = th.pc + 32 * signed 32 (fld w 32 32)) : goBranch k th w true = goTo k th n := by
  rw [goBranch, if_pos rfl, hn]
  rfl

theorem goBranch_not_taken : goBranch k th w false = goNext k th := if_neg Bool.false_ne_true

/-- A branch with no target in the program region aborts the task (R200). -/
theorem goBranch_outside (h : ∀ j : Nat, (j : Int) = th.pc + 32 * signed 32 (fld w 32 32) → k.pcInside j = false) :
    goBranch k th w true = goAbort k th 0x0602 := by
  rw [goBranch, if_pos rfl]
  refine goTo_outside ?_
  by_cases hneg : branchTarget th w < 0
  · exact .inl hneg
  · exact .inr (h _ (Int.toNat_of_nonneg (Int.not_lt.1 hneg)))

theorem exec_branch_taken {taken : Bool} {n : Nat} (h : Issues s c t op p k th w) (hi : k.pcInside n = true)
    (hn : (n : Int) = th.pc + 32 * signed 32 (fld w 32 32)) (ht : taken = true) (hf : f (s.m.ctx p c) k th w = goBranch k th w taken) :
    onModule s (issue c t op .scalar f) = .next ((left s c t .scalar k { th with pc := n, st := .ready }).found c (k.softFetch th)) :=
  exec_jump h hi (by rw [hf, ht, goBranch_taken hn])

theorem exec_branch_not_taken {taken : Bool} (h : Issues s c t op p k th w) (hn : NextInside k th) (ht : taken = false)
    (hf : f (s.m.ctx p c) k th w = goBranch k th w taken) :
    onModule s (issue c t op .scalar f) = .next ((left s c t .scalar k th.next).found c (k.softFetch th)) :=
  exec_next h hn (by rw [hf, ht, goBranch_not_taken])

/-! ## SIGNAL and WAIT (R197, R427) -/

/-- A core with the count of a semaphore replaced. -/
def Core.setSem (k : Core) (i n : Nat) : Core := { k with sems := kset 0 k.sems i n }

theorem setSem_sem (k : Core) (i n j : Nat) : kgetD 0 (k.setSem i n).sems j = if j = i then n else kgetD 0 k.sems j := kgetD_kset ..

theorem coreSignal_below (h : kgetD 0 k.sems (fld w 23 6) < 0xFFFF) :
    coreSignal x k th w = goNext (k.setSem (fld w 23 6) (kgetD 0 k.sems (fld w 23 6) + 1)) th := if_neg (Nat.not_le.2 h)

theorem coreSignal_full (h : 0xFFFF ≤ kgetD 0 k.sems (fld w 23 6)) : coreSignal x k th w = goAbort k th 0x0602 := if_pos h

theorem coreWait_sem (hi : fld w 23 6 ≠ 15) : coreWait x k th w =
    if kgetD 0 k.sems (fld w 23 6) = 0 then .wait else goNext (k.setSem (fld w 23 6) (kgetD 0 k.sems (fld w 23 6) - 1)) th := if_neg hi

theorem coreWait_gate (hi : fld w 23 6 = 15) : coreWait x k th w = if x.gateArmed = true then .wait else goNext k th := if_pos hi

/-! ## LDW and STW (R199, R200, R297) -/

theorem sramBytes_le_iff (a : Nat) : sramBytes ≤ a ↔ 0x27_FFFF < a := Iff.rfl

theorem ldstSpan_inside {write : Bool} (h : ldstAddr th w ≤ 0x27_FFFF) :
    ldstSpan th w write = [{ lo := ldstAddr th w / 4 * 4, hi := ldstAddr th w / 4 * 4 + 4, write := write }] :=
  if_neg (mt (sramBytes_le_iff _).1 (Nat.not_lt.2 h))

/-- The interlock holds no access above SRAM: it aborts (R139, R200). -/
theorem clear_ldstSpan_above {write : Bool} (h : 0x27_FFFF < ldstAddr th w) : k.clear t (ldstSpan th w write) = true := by
  rw [ldstSpan, if_pos ((sramBytes_le_iff _).2 h)]
  rfl

theorem coreLdw_inside (h : ldstAddr th w ≤ 0x27_FFFF) (hb : ldstAddr th w / 32 ∉ k.badWords) (hn : NextInside k th) :
    coreLdw x k th w = .go { core := k, soft := k.softWords.filter (fun q => q = ldstAddr th w / 32)
                             th := (th.setX (fld w 8 5) (BitVec.ofNat 32 (readLE k.sram (ldstAddr th w / 4 * 4) 4))).next } := by
  unfold coreLdw
  simp only [sramBytes_le_iff, Nat.not_lt.2 h, List.contains_iff_mem, hb, if_false, goSet_next hn]
  rfl

theorem coreLdw_above (h : 0x27_FFFF < ldstAddr th w) : coreLdw x k th w = goAbort k th 0x0602 := if_pos ((sramBytes_le_iff _).2 h)

/-- A core with a word of SRAM replaced, and the ECC word around it good (R124, R297). -/
def Core.storeWord (k : Core) (a v : Nat) : Core := { k with sram := writeLE k.sram a 4 v }.rewrite a 4

theorem storeWord_read (k : Core) (a : Nat) (v : Word) : readLE (k.storeWord a v.toNat).sram a 4 = v.toNat :=
  (readLE_writeLE ..).trans (Nat.mod_eq_of_lt v.isLt)

theorem storeWord_other {k : Core} {a v b : Nat} (h : b < a ∨ a + 4 ≤ b) : readByte (k.storeWord a v).sram b = readByte k.sram b :=
  readByte_writeLE_ne h

/-- Four bytes cover no ECC word: every uncorrectable word stays one. -/
theorem storeWord_badWords (k : Core) (a v : Nat) : (k.storeWord a v).badWords = k.badWords :=
  List.filter_eq_self.2 (fun q _ => by rw [Bool.or_eq_true, decide_eq_true_iff, decide_eq_true_iff]; omega)

theorem storeWord_frame (k : Core) (a v : Nat) :
    { k.storeWord a v with sram := k.sram, softWords := k.softWords } = k :=
  congrArg (fun l => { k with badWords := l }) (storeWord_badWords k a v)

theorem coreStw_inside (h : ldstAddr th w ≤ 0x27_FFFF) (hr : k.readOnlyAt (ldstAddr th w / 4 * 4) = false)
    (hb : ldstAddr th w / 32 ∉ k.badWords) (hn : NextInside k th) :
    coreStw x k th w = .go { core := k.storeWord (ldstAddr th w / 4 * 4) (rs2 th w).toNat, th := th.next
                             soft := k.softWords.filter (fun q => q = ldstAddr th w / 32) } := by
  have next : goNext (k.storeWord (ldstAddr th w / 4 * 4) (rs2 th w).toNat) th = .go { core := _, th := th.next } :=
    goNext_inside (hn.img rfl)
  unfold coreStw
  rw [Core.storeWord] at next
  simp only [sramBytes_le_iff, Nat.not_lt.2 h, hr, List.contains_iff_mem, hb, next, false_or, Bool.false_eq_true, if_false]
  rfl

theorem coreStw_outside (h : 0x27_FFFF < ldstAddr th w ∨ k.readOnlyAt (ldstAddr th w / 4 * 4) = true) :
    coreStw x k th w = goAbort k th 0x0602 := if_pos h

/-- An access that is inside SRAM waits exactly while its four bytes are not clear (R139). -/
theorem held_ldst {write : Bool} (h : ldstAddr th w ≤ 0x27_FFFF) :
    held (fun k th w => !k.clear t (ldstSpan th w write)) f x k th w =
      if k.clear t [{ lo := ldstAddr th w / 4 * 4, hi := ldstAddr th w / 4 * 4 + 4, write := write }] = true then f x k th w else .wait := by
  rw [held, ldstSpan_inside h]
  cases k.clear t _ <;> rfl

/-! ## Counts that RECV and RELEASE refuse (R200) -/

theorem coreRecv_badCount (h : fld w 32 16 = 0 ∨ (kgetD ({} : Endpoint) k.eps (fld w 23 6)).ringPkts < fld w 32 16) :
    coreRecv x k th w = goAbort k th 0x0602 := if_pos h

theorem coreRelease_badCount (h : fld w 32 16 = 0 ∨ (kgetD ({} : Endpoint) k.eps (fld w 23 6)).ringPkts < fld w 32 16
    ∨ (kgetD ({} : Endpoint) k.eps (fld w 23 6)).count < fld w 32 16) : coreRelease x k th w = goAbort k th 0x0602 := if_pos h

end Scalar

/-! ## The obligations -/

/-- Settles O7: every form is `goSet` with the value of its row. -/
theorem scalarResults : Obligations.ScalarResults := by
  unfold Obligations.ScalarResults
  refine ⟨xr_setX, fun th => if_pos rfl, ?_⟩
  intro s c t p k th w hn sets a b imm
  and_intros
  all_goals exact fun h => exec_set h hn rfl

/-- Settles O8: NOP and a free FENCE are `goNext`, HALT is `goThread`, a branch is `goBranch` with its condition. -/
theorem controlFlow : Obligations.ControlFlow := by
  unfold Obligations.ControlFlow
  intro s c t p k th w goes a b
  refine ⟨fun h hn => exec_next h hn rfl, fun h hn free => exec_next h hn (held_go free), fun h busy => onModule_wait h (held_wait busy),
    fun h => onModule_issue h rfl, fun n hn hi => ?taken, fun hn => ?next⟩
  case taken =>
    exact ⟨fun h => exec_branch_taken h hi hn rfl rfl, fun h ha => exec_branch_taken h hi hn (beq_iff_eq.2 ha) rfl,
      fun h ha => exec_branch_taken h hi hn (bne_iff_ne.2 ha) rfl, fun h hlt => exec_branch_taken h hi hn (decide_eq_true hlt) rfl⟩
  case next =>
    exact ⟨fun h ha => exec_branch_not_taken h hn (beq_eq_false_iff_ne.2 ha) rfl,
      fun h ha => exec_branch_not_taken h hn (bne_eq_false_iff_eq.2 ha) rfl,
      fun h hle => exec_branch_not_taken h hn (decide_eq_false (Nat.not_lt.2 hle)) rfl⟩

/-- Settles O9: a count that changes is one `setSem`; the gate point asks whether a GATE take is armed. -/
theorem signalAndWait : Obligations.SignalAndWait := by
  unfold Obligations.SignalAndWait
  intro s c t p k th w i n armed waits
  refine ⟨fun h hn free lt => ?signal, fun h busy => onModule_wait h (held_wait busy), fun h hn hi pos => ?takes,
    fun h hi zero => ?zero, fun h hn hi gate => ?passes, fun h hi gate => ?holds⟩
  case signal =>
    exact ⟨k.setSem i (n + 1), exec_next h (hn.img rfl) ((held_go free).trans (coreSignal_below lt)), setSem_sem k i (n + 1), rfl⟩
  case takes =>
    exact ⟨k.setSem i (n - 1), exec_next h (hn.img rfl) ((coreWait_sem hi).trans (if_neg (Nat.ne_of_gt pos))), setSem_sem k i (n - 1), rfl⟩
  case zero => exact onModule_wait h ((coreWait_sem hi).trans (if_pos zero))
  case passes => exact exec_next h hn ((coreWait_gate hi).trans (if_neg (Bool.eq_false_iff.1 gate)))
  case holds => exact onModule_wait h ((coreWait_gate hi).trans (if_pos gate))

/-- Settles O10: the interlock by `held_ldst`; past it the load by `coreLdw_inside`, the store as one `storeWord`. -/
theorem loadAndStore : Obligations.LoadAndStore := by
  unfold Obligations.LoadAndStore
  intro s c t p k th w a v free soft inside
  refine ⟨fun h hold => ?_, fun h hold => ?_, fun hn good => ⟨fun h clear => ?_, fun h clear writable => ?_⟩⟩
  · exact onModule_wait h ((held_ldst inside).trans (if_neg (Bool.eq_false_iff.1 hold)))
  · exact onModule_wait h ((held_ldst inside).trans (if_neg (Bool.eq_false_iff.1 hold)))
  · exact onModule_soft h (((held_ldst inside).trans (if_pos clear)).trans (coreLdw_inside inside good hn))
  · exact ⟨k.storeWord (a / 4 * 4) v.toNat,
      onModule_soft h (((held_ldst inside).trans (if_pos clear)).trans (coreStw_inside inside writable good hn)),
      storeWord_read .., fun b => storeWord_other, storeWord_frame ..⟩

/-- Settles O15: in each case the instruction comes to `goAbort` with 0x0602, and `exec_abort` says what that leaves. -/
theorem runTimeAborts : Obligations.RunTimeAborts := by
  unfold Obligations.RunTimeAborts
  intro s c t p k th w aborts a e n
  have code : 0x0602 ≠ 0x0402 := by decide
  refine ⟨fun h out => exec_abort h (goNext_outside out) code, fun h out => exec_abort h (goBranch_outside out) code, fun h above => ?ldw,
    fun h above => ?stw, fun h clear readOnly => ?readOnly, fun h free full => ?signal,
    fun h bad => exec_abort h (coreRecv_badCount bad) code, fun h bad => exec_abort h (coreRelease_badCount bad) code⟩
  case ldw => exact exec_abort h ((held_go (congrArg not (clear_ldstSpan_above above))).trans (coreLdw_above above)) code
  case stw => exact exec_abort h ((held_go (congrArg not (clear_ldstSpan_above above))).trans (coreStw_outside (.inl above))) code
  case readOnly =>
    by_cases inside : a ≤ 0x27_FFFF
    · exact exec_abort h (((held_ldst inside).trans (if_pos clear)).trans (coreStw_outside (.inr readOnly))) code
    · have above : 0x27_FFFF < a := Nat.not_le.1 inside
      exact exec_abort h ((held_go (congrArg not (clear_ldstSpan_above above))).trans (coreStw_outside (.inr readOnly))) code
  case signal => exact exec_abort h ((held_go free).trans (coreSignal_full full)) code

end Sys2Proof.Machine
end

section
/-! The stream unit's packet instructions and the credits they return (R139, R199, R200, R216 to R218). -/

namespace Sys2Proof.Machine

open Sys2Proof

/-! ## SEND, RECV and RELEASE at the core -/

section Packets

variable {s : State} {c t op p : Nat} {k : Core} {th : Thread} {w : Nat} {x : Ctx} {e : Endpoint} {f : Ctx → Core → Thread → Nat → CoreRes}

theorem coreSend_listed (he : kget? k.eps (fld w 23 6) = some e) : coreSend t x k th w = goNext { k with
    eps := kput k.eps (fld w 23 6) { e with count := e.count + fld w 32 16, marks := e.marks ++ List.replicate (fld w 32 16) t } } th := by
  unfold coreSend
  rw [show iIDX w = fld w 23 6 from rfl, kupd_some he]
  rfl

/-- RECV of a count that the ring can hold (R200, R217). -/
theorem coreRecv_listed (he : kget? k.eps (fld w 23 6) = some e) (hpos : 0 < fld w 32 16) (hle : fld w 32 16 ≤ e.ringPkts) :
    coreRecv x k th w = if e.count < fld w 32 16 then .wait else goSet k th w (BitVec.ofNat 32 e.nextRel) := by
  have he' : kgetD ({} : Endpoint) k.eps (iIDX w) = e := ep_of he
  unfold coreRecv immCount
  rw [he']
  exact if_neg (by omega)

/-- RELEASE of buffers that are delivered and unreleased (R217). -/
theorem coreRelease_listed (he : kget? k.eps (fld w 23 6) = some e) (hpos : 0 < fld w 32 16) (hle : fld w 32 16 ≤ e.ringPkts)
    (hcount : fld w 32 16 ≤ e.count) (hn : NextInside k th) :
    coreRelease x k th w = .go { th := th.next, credits := [(fld w 23 6, fld w 32 16)], core := { k with
      eps := kput k.eps (fld w 23 6) { e with count := e.count - fld w 32 16, nextRel := (e.nextRel + fld w 32 16) % e.ringPkts } } } := by
  have he' : kgetD ({} : Endpoint) k.eps (iIDX w) = e := ep_of he
  have next (es : KMap Endpoint) : goNext { k with eps := es } th = .go { core := { k with eps := es }, th := th.next } :=
    goNext_inside (hn.img rfl)
  unfold coreRelease immCount
  rw [he']
  dsimp only
  rw [if_neg (by omega), next]
  rfl

/-- A core instruction that also returns credits, as a command. -/
theorem onModule_credits {k' : Core} {th' : Thread} {u : CUnit} {i n : Nat} (h : Issues s c t op p k th w)
    (hf : f (s.m.ctx p c) k th w = .go { core := k', th := th', credits := [(i, n)] }) :
    onModule s (issue c t op u f) = .next (State.found { left s c t u k' th' with m := (left s c t u k' th').m.releaseCredits p c i n } c
      (k.softFetch th)) := by
  refine onModule_same (m := foundAt ((left s c t u k' th').m.releaseCredits p c i n) c (k.softFetch th)) ?_
    ((watched_foundAt ..).trans (releaseCredits_watched ..))
  rw [issue_go h hf]
  simp only [CoreOut.fetched, List.append_nil]
  rfl

end Packets

/-! ## Credits (R217, R218) -/

theorem ceilDiv_64 (n : Nat) : n ≤ 64 * ceilDiv n 64 ∧ 64 * ceilDiv n 64 < n + 64 := by
  unfold ceilDiv
  omega

theorem creditCounts_mem {n x : Nat} (h : x ∈ creditCounts n) : 0 < x ∧ x ≤ 64 := by
  obtain ⟨i, hi, rfl⟩ := List.mem_map.1 h
  have hi := List.mem_range.1 hi
  have := (ceilDiv_64 n).2
  omega

/-- The first `j` packets of at most 64 credits return `64 * j` credits, or all. -/
theorem sum_first_credits (n j : Nat) : ((List.range j).map (fun i => min 64 (n - 64 * i))).sum = min (64 * j) n := by
  induction j with
  | zero => simp
  | succ j ih =>
    rw [List.range_succ, List.map_append, List.sum_append, ih, List.map_singleton, List.sum_singleton]
    omega

theorem creditCounts_sum (n : Nat) : (creditCounts n).sum = n :=
  (sum_first_credits n _).trans (Nat.min_eq_right (ceilDiv_64 n).1)

theorem creditCounts_one {n : Nat} (hpos : 0 < n) (hle : n ≤ 64) : creditCounts n = [n] := by
  have one : ceilDiv n 64 = 1 := by unfold ceilDiv; omega
  rw [creditCounts, one]
  exact congrArg (fun a => [a]) (Nat.min_eq_right hle)

/-- Up to 64 credits go as one CREDIT packet with the endpoint's next SEQ (R217). -/
theorem endpointCredits_one {m : Module} {p c i n : Nat} {e : Endpoint} (he : kget? (m.core c).eps i = some e) (hpos : 0 < n) (hle : n ≤ 64) :
    m.endpointCredits p c i n =
      (m.launchPacket p e.creditRoute (mkHeader e.creditRoute 3 (n - 1) e.seqCredit 0) [] (packetSites 1 (m.flitsFromCore c e.creditRoute))).setCore c
        ((m.core c).setEp i { e with seqCredit := (e.seqCredit + 1) % 256 }) := by
  unfold Module.endpointCredits
  rw [creditCounts_one hpos hle, List.foldl_cons, List.foldl_nil]
  simp only [ep_of he, Module.modCore, core_launch, kupd_some he]
  rfl

theorem releaseCredits_off_chain {m : Module} {p c i n : Nat} {e : Endpoint} (he : kget? (m.core c).eps i = some e)
    (hmid : m.midChain c e.route = false) : m.releaseCredits p c i n = m.endpointCredits p c i n := by
  unfold Module.releaseCredits
  rw [ep_of he]
  exact if_neg (Bool.eq_false_iff.1 hmid)

/-- At a router of a chain that is not its last, with D = 0, the credits wait in O (R218). -/
theorem releaseCredits_mid_chain {m : Module} {p c i n : Nat} {e : Endpoint} (he : kget? (m.core c).eps i = some e)
    (hmid : m.midChain c e.route = true) (hd : (kgetD ({} : Chain) (m.core c).chains i).d = 0) :
    m.releaseCredits p c i n = m.modCore c (fun k => { k with chains := kmod {} k.chains i (fun y => { y with o := y.o + n }) }) := by
  unfold Module.releaseCredits
  rw [ep_of he]
  refine (if_pos hmid).trans ?_
  unfold Module.chainForward
  refine if_pos ?_
  rw [core_modCore, if_pos rfl, kmod, kgetD_kput_self]
  exact (congrArg (min · _) hd).trans (Nat.zero_min _)

/-- Settles O11: the instructions by what each does at a listed endpoint, the credits by whether its router is inside a chain. SEND adds its
count whatever the ring has left (log 109). -/
theorem sendRecvRelease : Obligations.SendRecvRelease := by
  unfold Obligations.SendRecvRelease
  refine ⟨?instructions, fun m p c i n e he => ⟨fun hmid hpos hle => ?one, fun hmid hd => ?chain, fun x => creditCounts_mem,
    creditCounts_sum n⟩⟩
  case one => exact (releaseCredits_off_chain he hmid).trans (endpointCredits_one he hpos hle)
  case chain => exact releaseCredits_mid_chain he hmid hd
  intro s c t p k th w e i n he hn soft
  refine ⟨fun h clear => ?send, fun h hold => ?hold, fun h hpos hle => ⟨fun got => ?recv, fun few => ?wait⟩,
    fun h hpos hle hcount => ?release⟩
  case send => exact exec_next h (hn.img rfl) ((held_go (congrArg not clear)).trans (coreSend_listed he))
  case hold => exact onModule_wait h (held_wait (congrArg not hold))
  case recv => exact exec_set h hn ((coreRecv_listed he hpos hle).trans (if_neg (Nat.not_lt.2 got)))
  case wait => exact onModule_wait h ((coreRecv_listed he hpos hle).trans (if_pos few))
  case release => exact onModule_credits h (coreRelease_listed he hpos hle hcount hn)

end Sys2Proof.Machine
end

section
/-! Packets on the wafer network (R202, R206, R210, R215 to R217, R219 to R221, R224, R225, R228): injection, arrival at a core, the output
of a reduction unit, and what a receiving unit finds on a wire. -/

namespace Sys2Proof.Machine

open Sys2Proof

/-! ## Injection (R210, R216) -/

/-- A send endpoint once its oldest ready packet has left for one credit. -/
def Endpoint.injected (x : Endpoint) : Endpoint :=
  { x with count := x.count - 1, credits := x.credits - 1, nextBuf := (x.nextBuf + 1) % x.ringPkts, seq := (x.seq + 1) % 256
           marks := x.marks.tail }

theorem doPacketInject_ready {m : Module} {c e p : Nat} {k : Core} {x : Endpoint} (hk : kget? m.cores c = some k) (hx : kget? k.eps e = some x)
    (hp : m.partOfCore c = some p) (send : x.recv = false) (ready : 0 < x.count) (credit : 0 < x.credits) (isOpen : m.netOpen p = true)
    (sites : packetSites (x.pktM1 + 2) (m.flitsFromCore c x.route) ≠ [])
    (good : k.badAt (x.ringBase + x.nextBuf * (64 * (x.pktM1 + 1))) (64 * (x.pktM1 + 1)) = none)
    (goodTag : k.badAt (x.tagBase + 4 * x.nextBuf) 4 = none) :
    doPacketInject c e m = foundAt
      ((m.launchPacket p x.route (mkHeader x.route (wireKind x.wire) x.pktM1 x.seq (readLE k.sram (x.tagBase + 4 * x.nextBuf) 4))
        (ringFlits k x x.nextBuf) (packetSites (x.pktM1 + 2) (m.flitsFromCore c x.route))).setCore c (k.setEp e x.injected)) c
      (k.softAt (x.ringBase + x.nextBuf * (64 * (x.pktM1 + 1))) (64 * (x.pktM1 + 1)) ++ k.softAt (x.tagBase + 4 * x.nextBuf) 4) := by
  unfold doPacketInject
  simp only [core_of hk, hx, hp, good, goodTag, Module.modCore, core_launch]
  refine (if_neg ?_).trans rfl
  simp [send, isOpen, sites, Nat.ne_of_gt ready, Nat.ne_of_gt credit]

/-- Settles O24: the one case of `doPacketInject` that sends, to the sites that every flit reaches (log 112); no interrupt watches what it
changes. -/
theorem packetInjected : Obligations.PacketInjected := by
  unfold Obligations.PacketInjected
  intro s c e p k x hk hx hp n sites send ready credit isOpen hsites good goodTag
  exact onModule_same (doPacketInject_ready hk hx hp send ready credit isOpen hsites good goodTag) (watched_foundAt ..)

/-! ## Arrival at a core (R211, R215, R217) -/

section Arrival

variable {m : Module} {c e route : Nat} {f : Flight} {rest : List Flight} {k : Core} {x : Endpoint} {ok : Flight → Bool}

theorem modCore_modCore (m : Module) (c : Nat) (f g : Core → Core) : (m.modCore c f).modCore c g = m.modCore c (fun k => g (f k)) := by
  unfold Module.modCore
  rw [Module.setCore_core, Module.setCore, Module.setCore, kput_kput]
  rfl

/-- The oldest packet of a route, one that the command takes, arrives at its core. -/
theorem takeArrival_core (ht : takeFlight c route m.net.flights = some (f, rest)) (hok : ok f = true) (hc : c < 19600)
    (flushed : (m.part f.part).flushing = false) (active : m.active f.part = true) :
    m.takeArrival c route ok = ({ m with net.flights := rest } : Module).arriveCore f.part c f := by
  unfold Module.takeArrival
  rw [ht]
  refine (if_pos hok).trans ?_
  rw [arrive_core (m := { m with net.flights := rest }) flushed active hc, Option.getD_some]

theorem arriveCore_credit {p : Nat} (kind : hKind f.hdr = 3) (seq : hSeq f.hdr = kgetD 0 (m.core c).expects (16384 + f.route)) :
    m.arriveCore p c f = (m.modCore c (fun k =>
      { k with expects := kput k.expects (16384 + f.route) ((hSeq f.hdr + 1) % 256) })).coreCredit p c f := by
  have key : seqKey f = 16384 + f.route := if_pos kind
  unfold Module.arriveCore
  refine (if_pos kind).trans ?_
  rw [Module.inSeqCore, key, if_neg (not_not_intro seq)]

theorem arriveCore_recv {p : Nat} (kind : hKind f.hdr ≠ 3) (recv : m.recvEndpoint c f.route = some e) : m.arriveCore p c f = m.deliver p c e f := by
  unfold Module.arriveCore
  refine (if_neg kind).trans ?_
  rw [recv]

theorem coreCredit_send {p : Nat} (find : (m.core c).eps.find? (fun q => !q.2.recv && q.2.creditRoute = f.route) = some (e, x))
    (hx : kget? (m.core c).eps e = some x) (room : x.credits + (hLen f.hdr + 1) ≤ x.creditsInit) :
    m.coreCredit p c f = m.modCore c (fun k => k.setEp e { x with credits := x.credits + (hLen f.hdr + 1) }) := by
  unfold Module.coreCredit
  simp only [find]
  rw [Module.sendCredit, ep_of hx]
  exact if_neg (Nat.not_lt.2 room)

/-- The payload of a packet in memory form (R213). -/
def Endpoint.memFlits (x : Endpoint) (f : Flight) : List (BitVec 512) := if x.wire = .redExact then exactToMem f.payload else f.payload

/-- The start of the next buffer and of its tag word (R217). -/
def Endpoint.bufferAt (x : Endpoint) : Nat := x.ringBase + x.nextBuf * 64 * (x.pktM1 + 1)
def Endpoint.tagAt (x : Endpoint) : Nat := x.tagBase + 4 * x.nextBuf

/-- A core whose receive endpoint `e` has the packet `f` in its next buffer (R217). -/
def Core.received (k : Core) (e : Nat) (x : Endpoint) (f : Flight) : Core :=
  ({ k with
    sram := writeLE (writeBytes k.sram x.bufferAt (flitBytes (x.memFlits f))) x.tagAt 4 (hTag f.hdr)
    eps := kput k.eps e { x with count := x.count + 1, nextBuf := (x.nextBuf + 1) % x.ringPkts, expect := (x.expect + 1) % 256 }
    }.rewrite x.bufferAt (64 * (x.memFlits f).length)).rewrite x.tagAt 4

theorem deliver_stored {p : Nat} (hx : kget? (m.core c).eps e = some x) (kind : hKind f.hdr = wireKind x.wire)
    (even : x.wire = .redExact → hLen f.hdr % 2 = 1) (seq : hSeq f.hdr = x.expect) (room : x.count < x.ringPkts)
    (good : (m.core c).rmwBad [(2 * x.tagAt, 32, 0)] = none) :
    m.deliver p c e f = foundAt (m.setCore c (((m.core c).received e x f).noteRead f.route (64 * (x.memFlits f).length))) c
      (((m.core c).received e x f).softWords.filter (fun q => inWord q x.tagAt 4)) := by
  unfold Module.deliver
  simp only [ep_of hx]
  refine (if_neg ?_).trans ?_
  · rintro (h | ⟨hw, h⟩ | h | h)
    · exact h kind
    · rw [even hw] at h
      exact absurd h (by decide)
    · exact h seq
    · exact absurd room (Nat.not_lt.2 h)
  · unfold Endpoint.tagAt at good
    rw [good]
    rfl

end Arrival

/-- Settles O25: the packet is taken off its route and arrives at its core's receive endpoint, which stores the whole payload and raises no
summary bit (logs 113, 114). -/
theorem packetDelivered : Obligations.PacketDelivered := by
  unfold Obligations.PacketDelivered
  intro s c route e f rest k x hc ht hk recv hx flushed active kind notCredit even seq room fs at_ tagAt good k'
  have core : ({ s.m with net.flights := rest } : Module).core c = k := core_of hk
  have run : doPacketDelivery c route .ok s.m = foundAt (({ s.m with net.flights := rest } : Module).setCore c
      ((k.received e x f).noteRead f.route (64 * (x.memFlits f).length))) c ((k.received e x f).softWords.filter (fun q => inWord q x.tagAt 4)) := by
    refine (takeArrival_core ht rfl hc flushed active).trans ((arriveCore_recv (m := { s.m with net.flights := rest }) notCredit recv).trans ?_)
    rw [deliver_stored (by rwa [core]) kind even seq room (by rwa [core]), core]
  exact onModule_same run (watched_foundAt ..)

/-- Settles O26: the packet is taken off its route and its credits go to the send endpoint that waits for them. -/
theorem creditsArrive : Obligations.CreditsArrive := by
  unfold Obligations.CreditsArrive
  intro s c route e f rest k x hc ht hk kind find hx flushed active seq room
  have core : ({ s.m with net.flights := rest } : Module).core c = k := core_of hk
  refine onModule_same (f := doCreditPacket c route .ok) ?_ rfl
  refine (takeArrival_core ht (decide_eq_true kind) hc flushed active).trans ((arriveCore_credit kind (by rwa [core])).trans ?_)
  have core' : (({ s.m with net.flights := rest } : Module).modCore c (fun k =>
      { k with expects := kput k.expects (16384 + f.route) ((hSeq f.hdr + 1) % 256) })).core c
      = { k with expects := kput k.expects (16384 + f.route) ((hSeq f.hdr + 1) % 256) } := by
    rw [core_modCore, if_pos rfl, core]
  rw [coreCredit_send (by rw [core']; exact find) (by rw [core']; exact hx) room, modCore_modCore, Module.modCore, core]
  rfl

/-! ## Reduction (R219 to R221) -/

/-- A credit to a sender at another router is a CREDIT packet of one (R219). -/
theorem unitCredit_outside {m : Module} {p c port route cr seq : Nat} (h : port ≠ 5) : m.unitCredit p c port route cr seq =
    m.launchPacket p cr (mkHeader cr 3 0 seq 0) [] (packetSites 1 (m.flitsFromCore c cr)) := if_neg h

/-- A binding once it has emitted the sum of its oldest pair, with `r1` and `r2` left at its inputs (R220). -/
def Binding.emitted (b : Binding) (r1 r2 : List (BitVec 512 × List (BitVec 512))) : Binding :=
  { b with qFirst := r1, qSecond := r2, credits := b.credits - 1, seqCreditF := (b.seqCreditF + 1) % 256, seqCreditS := (b.seqCreditS + 1) % 256 }

/-- The header of the sum of two packets (R219, R221). -/
def Binding.sumHeader (b : Binding) (h1 h2 : BitVec 512) (p1 p2 : List (BitVec 512)) : BitVec 512 :=
  mkHeader b.route (hKind h1) (hLen h1) (hSeq h1) (tagAdd (tagCombine (hTag h1) (hTag h2)) (sumPayload b.exact p1 p2).2)

theorem doReductionEmit_pair {m : Module} {c i : Nat} {k : Core} {b : Binding} {h1 h2 : BitVec 512} {p1 p2 : List (BitVec 512)}
    {r1 r2 : List (BitVec 512 × List (BitVec 512))} (hk : kget? m.cores c = some k) (hb : k.binds[i]? = some b) (first : b.qFirst = (h1, p1) :: r1)
    (second : b.qSecond = (h2, p2) :: r2) (credit : 0 < b.credits) (isOpen : m.netOpen b.part = true) :
    doReductionEmit c i m = (((m.setCore c { k with binds := k.binds.set i (b.emitted r1 r2) }).launchPacket b.part b.route
        (b.sumHeader h1 h2 p1 p2) (sumPayload b.exact p1 p2).1 (packetSites ((sumPayload b.exact p1 p2).1.length + 1)
          ((m.setCore c { k with binds := k.binds.set i (b.emitted r1 r2) }).flitsFromUnit c b.unit b.route))).unitCredit
      b.part c b.first b.route b.crFirst b.seqCreditF).unitCredit b.part c b.second b.route b.crSecond b.seqCreditS := by
  unfold doReductionEmit
  simp only [core_of hk, hb, first, second, isOpen, Nat.ne_of_gt credit]
  rfl

/-- Settles O27: `doReductionEmit_pair` leaves the pair's core and three packets, the sum and a credit for each input. -/
theorem reductionEmitted : Obligations.ReductionEmitted := by
  unfold Obligations.ReductionEmitted
  intro s c i k b h1 h2 p1 p2 r1 r2 hk hb first second credit isOpen hf hs
  let m := s.m.setCore c { k with binds := k.binds.set i (b.emitted r1 r2) }
  have run := doReductionEmit_pair hk hb first second credit isOpen
  rw [unitCredit_outside hf, unitCredit_outside hs] at run
  obtain ⟨fs, flights, packets⟩ := three_launch m b.part b.route b.crFirst b.crSecond (b.sumHeader h1 h2 p1 p2)
    (mkHeader b.crFirst 3 0 b.seqCreditF 0) (mkHeader b.crSecond 3 0 b.seqCreditS 0) (sumPayload b.exact p1 p2).1 [] []
    (packetSites ((sumPayload b.exact p1 p2).1.length + 1) (m.flitsFromUnit c b.unit b.route))
    (fun m => packetSites 1 (m.flitsFromCore c b.crFirst)) (fun m => packetSites 1 (m.flitsFromCore c b.crSecond))
  refine completes_of (f := doReductionEmit c i) rfl ?_
  simp only [settleIrq_core, settleIrq_parts, settleIrq_net, run]
  refine ⟨⟨b.emitted r1 r2, ?_, rfl, rfl, rfl, rfl, rfl⟩, fun d hd => ?_, rfl, fs, flights, packets⟩
  · exact Module.setCore_core ..
  · exact (core_setCore ..).trans (if_neg hd)

/-! ## Findings on a wire (R202, R224, R225, R228) -/

section Wire

variable {m : Module} {code site port route p : Nat}

theorem wireFault_flushed (owner : m.routeOwner route = some p) (flushing : (m.part p).flushing = true) : m.wireFault code site port route = m := by
  unfold Module.wireFault
  rw [owner]
  exact if_pos flushing

theorem wireFault_slips (owner : m.routeOwner route = some p) (flushing : (m.part p).flushing = false) :
    m.wireFault code site port route = m.slip p code site port route := by
  unfold Module.wireFault
  rw [owner]
  exact if_neg (Bool.eq_false_iff.1 flushing)

theorem countErr_errs (m : Module) (p code : Nat) : kgetD (0, 0) (m.countErr p code).net.errs p =
    if code = 0x0301 then (satN 32 ((kgetD (0, 0) m.net.errs p).1 + 1), (kgetD (0, 0) m.net.errs p).2)
    else ((kgetD (0, 0) m.net.errs p).1, satN 32 ((kgetD (0, 0) m.net.errs p).2 + 1)) := kgetD_kput_self ..

/-- A finding on a route of a partition that is neither OFF nor FAILED, and not flushed (R225). -/
theorem wireFault_completes {i : Instr} {s : State} (hi : exec i s = onModule s (fun m => m.wireFault code site port route))
    (owner : s.m.routeOwner route = some p) (on : (s.m.part p).st ≠ .off) (alive : (s.m.part p).st ≠ .failed)
    (flushing : (s.m.part p).flushing = false) :
    Completes i s (fun m => (m.part p).st = .failed ∧ (m.part p).taskRunning = false ∧ (∀ q, q ≠ p → m.part q = s.m.part q)
      ∧ m.topo.markedLinks = s.m.topo.markedLinks ++ [(routerOf site, port)]
      ∧ kgetD (0, 0) m.net.errs p =
        if code = 0x0301 then (satN 32 ((kgetD (0, 0) s.m.net.errs p).1 + 1), (kgetD (0, 0) s.m.net.errs p).2)
        else ((kgetD (0, 0) s.m.net.errs p).1, satN 32 ((kgetD (0, 0) s.m.net.errs p).2 + 1))) := by
  obtain ⟨failed, marked, errs⟩ := slip_fails s.m p code site port route on alive
  refine completes_of hi ?_
  simp only [settleIrq_part, settleIrq_topo, settleIrq_net, wireFault_slips owner flushing]
  exact ⟨failed.st, failed.task, failed.other, marked, by rw [errs, countErr_errs]⟩

end Wire

/-- Settles O28: either command with a finding is a `wireFault`, which a flushed network discards. -/
theorem wireFaultFails : Obligations.WireFaultFails := by
  unfold Obligations.WireFaultFails
  intro s site route port p owner on alive old fails
  refine ⟨fun flushing => ?_, fun flushing => ?_⟩
  · exact ⟨onModule_still (wireFault_flushed owner flushing), onModule_still (wireFault_flushed owner flushing),
      onModule_still (wireFault_flushed owner flushing), onModule_still (wireFault_flushed owner flushing)⟩
  · exact ⟨wireFault_completes (code := 0x0301) rfl owner on alive flushing, wireFault_completes (code := 0x0302) rfl owner on alive flushing,
      wireFault_completes (code := 0x0301) rfl owner on alive flushing, wireFault_completes (code := 0x0302) rfl owner on alive flushing⟩

end Sys2Proof.Machine
end

section
/-! The start of a task: the end of its network flush and the start of its threads (R195, R202, R325, R468). -/

namespace Sys2Proof.Machine

open Sys2Proof

/-- A core after the flush of partition `p`, in the partition or, where `mine` picks the partition's routes, beside it (R202). -/
def Core.flushed (k : Core) (p : Nat) (inside : Bool) (mine : Nat → Bool) : Core :=
  let k := if inside then resetNet p k else k
  { k with binds := k.binds.map (resetBind p), expects := k.expects.filter (fun e => !mine (e.1 % 16384)) }

/-- What the end of partition `p`'s network flush leaves (R202). -/
structure Flushed (m m' : Module) (p : Nat) : Prop where
  part : m'.part p = { m.part p with flushing := false }
  other : ∀ q, q ≠ p → m'.part q = m.part q
  flights : m'.net.flights = m.net.flights.filter (fun f => f.part ≠ p)
  core : ∀ c, kget? m'.cores c =
    (kget? m.cores c).map (fun k => k.flushed p ((m.part p).hasCore c) (fun r => m.routeOwner r = some p))

theorem doNetworkFlushEnd_flushed {m : Module} {p : Nat} (flushing : (m.part p).flushing = true)
    (due : (m.part p).flushFrom + max 1024 m.net.frameLen ≤ m.net.slot) : Flushed m (doNetworkFlushEnd p m) p := by
  unfold doNetworkFlushEnd
  extract_lets x mine m1 m2 m3
  rw [if_neg (by simp only [x, flushing, Bool.not_true, Bool.false_or, decide_eq_true_iff]; omega)]
  refine ⟨(part_modPart ..).trans (if_pos rfl), fun q hq => (part_modPart ..).trans (if_neg hq), rfl, fun c => ?_⟩
  show kget? m2.cores c = _
  rw [kget?_kmapv, mapCores_get, Option.map_map]
  rfl

/-- The endpoints of a core of the partition hold CREDITS_INIT credits and no count (R202). -/
theorem flushed_ep {k : Core} {p e : Nat} {x : Endpoint} {mine : Nat → Bool} (h : kget? k.eps e = some x) :
    kget? (k.flushed p true mine).eps e = some { x with
      credits := x.creditsInit, nextBuf := 0, count := 0, nextRel := 0, seq := 0, seqCredit := 0, expect := 0, marks := [] } := by
  show kget? (resetNet p k).eps e = _
  rw [resetNet, kget?_kmapv, h]
  rfl

/-- The module when the threads of partition `p` have started and no tail has pulled yet (R195). -/
def Module.threadsStarted (m : Module) (p : Nat) : Module := (m.mapCores p startThreads).modPart p (fun x => { x with started := true })

theorem doThreadStart_ready {m : Module} {p : Nat} (running : (m.part p).taskRunning = true) (waiting : (m.part p).started = false)
    (flushed : (m.part p).flushing = false) (fresh : (m.part p).resumed = false)
    (on : ∀ cl ∈ m.neededClusters p, (m.cluster cl).st = .on) : doThreadStart p m = (m.threadsStarted p).startPulls p := by
  have all : (m.neededClusters p).all (fun cl => (m.cluster cl).st = .on) = true := List.all_eq_true.2 (fun cl h => decide_eq_true (on cl h))
  unfold doThreadStart
  simp only [running, waiting, flushed, fresh, all]
  rfl

theorem startThreads_image {k : Core} {im : Image} (h : k.img = some im) :
    startThreads k = { k with threads := (List.range 8).map (fun t => (t, startThread im t)) } := by
  unfold startThreads
  rw [h]

theorem threadsStarted_core (m : Module) (p c : Nat) : kget? (m.threadsStarted p).cores c =
    (kget? m.cores c).map (fun k => if (m.part p).hasCore c then startThreads k else k) := mapCores_get ..

/-- With no window there is no tail to pull (R325). -/
theorem startPulls_no_windows {m : Module} {p : Nat} (h : ∀ e ∈ m.cores, e.2.wins = []) : m.startPulls p = m := by
  refine List.foldlRecOn (motive := fun t => t = m) _ _ rfl (fun t ht e he => ?_)
  rw [h e (List.mem_filter.1 he).1, List.foldl_nil, ht]

/-- Settles O18: the flush by `doNetworkFlushEnd_flushed`, the start as `threadsStarted` and then the pulls. -/
theorem taskStart : Obligations.TaskStart := by
  unfold Obligations.TaskStart
  refine ⟨fun s p flushing due => ?flush, fun s p running waiting flushed fresh on => ?start⟩
  case flush =>
    refine completes_of (f := doNetworkFlushEnd p) rfl ?_
    obtain ⟨part, other, flights, core⟩ := doNetworkFlushEnd_flushed flushing due
    simp only [settleIrq_part, settleIrq_net, settleIrq_cores]
    refine ⟨part, other, flights, fun c k hk inside =>
      ⟨k.flushed p true (fun r => s.m.routeOwner r = some p), ?_, rfl, rfl, rfl, fun e x hx => flushed_ep hx⟩⟩
    rw [core, hk, inside]
    rfl
  case start =>
    refine ⟨s.m.threadsStarted p, onModule_of (doThreadStart_ready running waiting flushed fresh on), rfl, fun c k im hk img inside => ?core,
      fun c outside => ?outside, rfl, startPulls_no_windows⟩
    case core =>
      refine ⟨startThreads k, by rw [threadsStarted_core, hk, inside]; rfl, by rw [startThreads_image img], fun t ht => ?_⟩
      rw [startThreads_image img, kgetD, kget?_map_graph _ (List.mem_range.2 ht)]
      rfl
    case outside => simp only [threadsStarted_core, outside, Bool.false_eq_true, if_false, Option.map_id']

end Sys2Proof.Machine
end

section
/-! The rule of power over a step (R264, R491, R544): each command leads the face of the module on. -/

namespace Sys2Proof.Machine

open Sys2Proof

theorem powerRule_iff_face_ok (m : Module) : PowerRule m ↔ m.face.ok := by
  simp only [PowerRule, Face.ok, Module.face, decide_eq_true_eq]

/-- Whatever next state the outcome `o` of a command on `s` is, its face is one that the face of `s` leads to. -/
def Led (s : State) (o : Host.Outcome State Fault Refusal) : Prop := ∀ t, o = .next t → s.m.face.Leads t.m.face

theorem led_of_leads {s : State} {f : Module → Module} (h : s.m.face.Leads (f s.m).face) : Led s (onModule s f) := by
  rintro _ ⟨⟩
  exact h.trans (.of_eq (settleIrq_face ..))

/-- A command whose operation leaves the face as it was. -/
theorem led_of_face {s : State} {f : Module → Module} (h : (f s.m).face = s.m.face) : Led s (onModule s f) := led_of_leads (.of_eq h)

theorem idleStep_led (s : State) : Led s (idleStep s) := by
  rintro _ ⟨⟩
  exact .of_eq ((settleIrq_face ..).trans ((Module.skBegins_face _).trans rfl))

/-- Every command leads the face of the module on: those that change the state of the module, an MMP, a fuse or the connector face by the
lemma about their change, all others because they leave the face as it was. -/
theorem exec_led (i : Instr) (s : State) : Led s (exec i s) := by
  cases i
  case registerWrite => exact led_of_leads (doRegisterWrite_leads _ _ _ _ _)
  case enterRecovery => exact led_of_leads (doEnterRecovery_leads _ _)
  case leaveService => exact led_of_leads (doLeaveService_leads _ _)
  case ringEfuseTrip => exact led_of_leads (doRingEfuseTrip_leads _ _)
  case powerGood => exact led_of_leads (doPowerGood_leads _)
  case overvoltage => exact led_of_leads (doOvervoltage_leads _)
  case inputCollapse => exact led_of_leads (doInputCollapse_leads _)
  case droopSequence => exact led_of_leads (doDroopSequence_leads _)
  case droopPowerOff => exact led_of_leads (doDroopPowerOff_leads _)
  case thermalTrip => exact led_of_leads (doThermalTrip_leads _ _)
  case aosWatchdog => exact led_of_leads (doAosWatchdog_leads _)
  case mmpFailed => exact led_of_leads (doMmpFailed_leads _ _)
  case mmpRestart => exact led_of_leads (doMmpRestart_leads _ _)
  case heartbeat => exact led_of_leads (doHeartbeat_leads _ _)
  case grant => exact led_of_leads (doGrant_leads _ _)
  case cap => exact led_of_leads (doCap_leads _ _)
  case shedLevelPeriod => exact led_of_leads (doShedLevelPeriod_leads _ _ _)
  case bringupStage => exact led_of_leads (doBringupStage_leads _ _)
  case serviceDieFail => exact led_of_leads (doServiceDieFail_leads _ _)
  case sidebandFrame => exact led_of_leads (doSidebandFrame_leads _ _)
  case time | capFrame | coolant | herdStop => exact led_of_leads (loopType_leads _ _ _)
  case imageVerify => exact led_of_leads (doImageVerify_leads _ _)
  case imageWrite | quote | certExport | custKey | enrolBegin | enrolRequest | enrolInstall | reset =>
    exact led_of_leads (Module.secRun_leads _ _ _ _)
  case mateMade => exact led_of_leads (doMateMade_leads _)
  case mateBreak => exact led_of_leads (doMateBreak_leads _)
  case standbyUp => exact led_of_leads (doStandbyUp_leads _ _)
  case standbyLoss => exact led_of_leads (doStandbyLoss_leads _)
  case cxlCablePresence => exact led_of_leads (doCxlCablePresence_leads _ _)
  -- The commands from here on leave the face as it was (Laws/Face).
  all_goals refine led_of_face ?_
  all_goals simp only [doEngTagSummaryClear_face, doTmm_face, doTmmS24_face, doTmmSub_face, doTmmPg_face, doStationarySwap_face, doVecAdd_face,
    doVecSub_face, doVecMul_face, doFma_face, doVecMin_face, doVecMax_face, doCmplt_face, doCmpeq_face, doSel_face, doDiv_face,
    doSqrt_face, doRecip_face, doRsqrt_face, doExp_face, doExp2_face, doLog_face, doLog2_face, doTanh_face, doSigmoid_face,
    doErf_face, doCvt_face, doRsum_face, doRmax_face, doRmin_face, doSoftmax_face, doLayernorm_face, doRmsnorm_face, doNop_face,
    doHalt_face, doSignal_face, doWait_face, doFence_face, doBr_face, doBeqz_face, doBnez_face, doBltu_face, doLi_face, doAdd_face,
    doAddi_face, doSub_face, doMul_face, doAndOp_face, doOrOp_face, doXorOp_face, doShl_face, doShr_face, doModi_face, doLdw_face,
    doStw_face, doSend_face, doRecv_face, doRelease_face, doWhead_face, doWfull_face, doWfree_face, doTread_face, doTwrite_face,
    doTdone_face, doGpush_face, doGwait_face, doResolve_face, doNetworkFlushEnd_face, doThreadStart_face, doPacketInject_face,
    doPacketDelivery_face, doCreditPacket_face, doReductionEmit_face, doStart_face, doArmFabric_face, doDisarm_face,
    doStagingComplete_face, doCheckingComplete_face, doWritingComplete_face, doPartitionReady_face, doDrainLimitExpiry_face,
    doRead_face, doWrite_face, doWriteDone_face, doEpochEnd_face, doMoveTileCopied_face, doMoveComplete_face, doEccWriteback_face,
    doT0Scrub_face, doT1Scrub_face, doT1Refresh_face, doActivationGuard_face, doTargetedSelfTest_face, doPspPull_face, doData_face,
    doStatus_face, doPoolData_face, doPoolAck_face, doGradAck_face, doStagePullIssue_face, doPullResend_face, doSourceTimeout_face,
    doGradAckTimeout_face, doPoolTimeout_face, doReparent_face, doChildSilent_face, doAdoptHoldExpiry_face, doWindowPull_face,
    doUnitArrival_face, doDeadlineMiss_face, doMiss_face, doSwitch_face, doFrameReceive_face, doLinkDown_face, doLinkUp_face,
    doVc0BudgetInterval_face, doChunkSegment_face, doGapTimeout_face, doAck_face, doNak_face, doWaitAnswer_face, doAckTimeout_face,
    doHerdRun_face, doHerdDeadlineExpiry_face, doResultDeadlineExpiry_face, doLost_face, doHerdAbort_face, doCxlLinkDown_face,
    doCxlLinkUp_face, doFailover_face, doEnable_face, doDisable_face, doQueSqTail_face, doQueCqHead_face, doSkip_face, doRetry_face,
    doTailWordPoll_face, doDescriptorEntry_face, doFenceWaitSatisfied_face, doQueueNop_face, doPartStart_face, doTaskRun_face,
    doPartDrain_face, doPartUnload_face, doCopyIn_face, doCopyOut_face, doSessionOpen_face, doSessionSubmit_face, doSessionClose_face,
    doTaskEnd_face, doCompletionWrite_face, doMsixDeferExpiry_face, doModelBind_face, doBatcherVisit_face, doBatchResult_face,
    doKrfTake_face, doCut_face, doQuietTimeout_face, doDumpEnd_face, doKrfRestore_face, doServe_face, doLaunchData_face,
    doLaunchReparent_face, doAosSample_face, doPhaseFault_face, doBrickFault_face, doEfuseTrip_face, doMeshLock_face,
    doLockFault_face, doClusterWake_face, doWakeDeferralExpiry_face, doFastShed_face, doShedRelease_face, doPwrCap_face,
    doPwrMgrHeartbeat_face, doManagerLost_face, doHeldCapExpiry_face, doDroopClear_face, doAosLeaseClaim_face, doClaimWindowEnd_face,
    doLeaseExpiry_face, doEngineSelfTest_face, doOscillatorCalibration_face, doLinkCalibration_face, doAgingMonitorRead_face,
    doTelemetryExport_face, doLogFlush_face, doCoreFailed_face, doLoopTimeout_face, doTrayCapLapse_face, doLogWrite_face,
    doIrqStatusClear_face, doAosIrqDeferExpiry_face, doTreeGenerated_face, doSecData_face, doRun_face, doFetch_face,
    doBusMasterEnable_face, doHostAccessFailed_face, doHerdStopResend_face, doImageWriteComplete_face]

theorem step_led {s t : State} (h : step s = .next t) : s.m.face.Leads t.m.face := by
  unfold step at h
  split at h
  · exact idleStep_led s t h
  · rename_i rest _
    exact exec_led _ (.mk rest s.m) t h

/-- Settles O4: a step leads the face on, and the rule of power is a rule about the face. That MATE_BREAK takes standby power with it is the
model's (log 84). -/
theorem powerRuleKept : Obligations.PowerRuleKept := by
  intro s t hs h
  rw [powerRule_iff_face_ok] at hs ⊢
  exact (step_led h hs).1

end Sys2Proof.Machine
end

section
/-! The CXL link (R254, R388, R389, R407): when its port is trained, and what the loss of a host access ends. -/

namespace Sys2Proof.Machine

open Sys2Proof

/-- The port is trained outside COLD, in BRINGUP from stage 1 on, and in RECOVERY also by a loader with no image (R419, R504, R531). -/
theorem cxlAlive_of {m : Module} (hf : m.sys.svcFailed.contains svcS = false) (hc : m.sys.st ≠ .cold)
    (hb : m.sys.st = .bringup → 1 ≤ m.sys.stage) (hr : m.sys.st = .recovery → 1 ≤ m.sys.stage ∨ m.sec.noImage = true) :
    m.cxlAlive = true := by
  unfold Module.cxlAlive
  rw [hf]
  cases hs : m.sys.st with
  | cold => exact absurd hs hc
  | bringup => simpa using hb hs
  | recovery => simpa using hr hs
  | service | reduced | safe | outOfService => rfl

theorem exec_cxlLinkDown {s : State} (h : s.m.que.cxl.up = true) :
    let m := { s.m with que.cxl := { s.m.que.cxl with up := false, width := 0, speed := 0, downAt := s.m.now } }
    exec .cxlLinkDown s = if m.jig.phase = .staging ∧ m.jig.fabric = false
      then after s (m.refuseLoad { code := 0x0603, res := 0x30 } 0) else .next { s with m := m } :=
  lost_ok (if_pos h) rfl

theorem doFailover_up {m : Module} {trained : Bool} {width speed : Nat} (hu : m.que.cxl.up = false) (he : m.que.cxl.failoverEn = true)
    (ha : m.cxlAlive = true) (ht : m.msPassed m.que.cxl.downAt 10 = true) :
    doFailover trained width speed m = { m with que.cxl := { m.que.cxl with
      posB := !m.que.cxl.posB, failovers := min (2 ^ 16 - 1) (m.que.cxl.failovers + 1), downAt := m.now, busMaster := false, up := trained
      width := if trained then width % 16 else 0, speed := if trained then speed % 16 else 0 } } := by
  unfold doFailover
  dsimp only
  rw [if_neg (by simp [hu, he, ha, ht]), satN, Nat.min_comm]

theorem exec_busMaster {s : State} (h : s.m.que.cxl.up = true) :
    exec (.busMasterEnable true) s = .next { s with m := { s.m with que.cxl := { s.m.que.cxl with busMaster := true } } } :=
  onModule_same (f := doBusMasterEnable true) (by simp [doBusMasterEnable, h]) rfl

theorem exec_busMaster_off {s : State} (h : s.m.que.cxl.up = true) :
    let m := { s.m with que.cxl := { s.m.que.cxl with busMaster := false } }
    exec (.busMasterEnable false) s = if m.jig.phase = .staging ∧ m.jig.fabric = false
      then after s (m.refuseLoad { code := 0x0603, res := 0x30 } 0) else .next { s with m := m } :=
  lost_ok (f := doBusMasterEnable false) (by simp [doBusMasterEnable, h]) rfl

/-- The copy of queue `q` that loses its host access ends; INFO is the line of its first piece that has not moved (R389, R407). -/
theorem exec_copyFailed {s : State} {q : Nat} {y : Queue} {poisoned : Bool} (hy : kget? s.m.que.queues q = some y) (hr : y.running = true)
    (hop : y.op = 0x10 ∨ y.op = 0x11) (hd : y.desc.isSome = true) :
    exec (.hostAccessFailed (.copy q poisoned)) s = .next { s with
      m := ended (s.m.copyFreed q) q y (if poisoned then 0x0402 else 0x0202) y.copied false false } := by
  have hq := queue_of hy
  refine onModule_same (f := doHostAccessFailed (.copy q poisoned)) ?_ rfl
  refine Eq.trans ?_ (endCopy_eq hq hr hd)
  exact if_pos (by simpa [hq, hr] using hop)

theorem exec_queueFailed {s : State} {q : Nat} {y : Queue} (hy : kget? s.m.que.queues q = some y) :
    exec (.hostAccessFailed (.queue q)) s = .next { s with m := if y.written.isSome then s.m.setQueue q { y with redo := true } else s.m } := by
  rw [← queue_of hy]
  refine onModule_same (f := doHostAccessFailed (.queue q)) rfl ?_
  split <;> rfl

/-- Settles O41, event by event. -/
theorem hostLinkEvents : Obligations.HostLinkEvents := by
  intro s x lost alive
  have trained (h : alive) : s.m.cxlAlive = true := by
    obtain ⟨hf, hc, hb, hr⟩ := h
    exact cxlAlive_of hf hc hb hr
  refine ⟨exec_cxlLinkDown, fun width speed hu ha => ?up, fun width speed tr hu he ht ha => ?moved,
    fun hu => ⟨exec_busMaster hu, exec_busMaster_off hu⟩, fun b => onModule_same (f := doCxlCablePresence b) rfl rfl,
    lost_ok (f := doHostAccessFailed .staging) rfl rfl, fun q y poisoned hy hr hop hd => exec_copyFailed hy hr hop hd,
    fun q y hy => ⟨fun hw => ?again, fun hw => ?idle⟩⟩
  case up => exact onModule_same (f := doCxlLinkUp width speed) (if_neg (by simp [show s.m.que.cxl.up = false from hu, trained ha])) rfl
  case moved => exact onModule_same (f := doFailover tr width speed) (doFailover_up hu he (trained ha) ht) rfl
  case again => rw [exec_queueFailed hy, if_pos hw]
  case idle => rw [exec_queueFailed hy, hw]; rfl

end Sys2Proof.Machine
end

section
/-! Partition commands and the end of a task (R262, R398, R404, R405, R408). -/

namespace Sys2Proof.Machine

open Sys2Proof

section AtStart

variable {s : State} {q op : Nat} {y : Queue}

/-- A command with no handle whose start check fails: 0x0601, INFO 0, and the queue stops. -/
theorem onModule_badStart {f : Module → Module} (h : AtStart s q op y) (hop : op < 0x31) (hf : f s.m = s.m.badStart q) :
    onModule s f = .next { s with m := ended s.m q y 0x0601 0 true false } := by
  rw [badStart_ended h, if_neg (by omega)] at hf
  exact onModule_same hf (ended_watched ..)

theorem doPartStart_runs (h : AtStart s q 0x01 y) (hst : (s.m.part (q / 64)).st = .ready ∨ (s.m.part (q / 64)).st = .halted)
    (hl : s.m.jig.locked.contains (q / 64) = false) (hk : (s.m.part (q / 64)).krf.phase = .idle) : doPartStart q s.m = s.m.runTask q := by
  have hl : q / 64 ∉ s.m.jig.locked := by simpa using hl
  unfold doPartStart
  rw [if_neg (by rcases hst with e | e <;> simp [atStart_of h, e]), if_neg (by rcases hst with e | e <;> simp [e, hl, hk]),
    if_neg (by simp [Module.startWaits, hk])]

theorem doPartStart_bad (h : AtStart s q 0x01 y) (hr : (s.m.part (q / 64)).st ≠ .ready) (hh : (s.m.part (q / 64)).st ≠ .halted)
    (hd : (s.m.part (q / 64)).st ≠ .draining) : doPartStart q s.m = s.m.badStart q := by
  unfold doPartStart
  rw [if_neg (by simp [atStart_of h hd]), if_pos (by simp [hr, hh])]

theorem doTaskRun_runs (h : AtStart s q 0x02 y) (hst : (s.m.part (q / 64)).st = .running) (ht : (s.m.part (q / 64)).taskRunning = false)
    (hk : (s.m.part (q / 64)).krf.phase = .idle) : doTaskRun q s.m = s.m.runTask q := by
  unfold doTaskRun
  rw [if_neg (by simp [atStart_of h, hst]), if_neg (by simp [hst, ht, hk]), if_neg (by simp [Module.startWaits, hk])]

theorem doTaskRun_bad (h : AtStart s q 0x02 y) (hst : (s.m.part (q / 64)).st = .running) (ht : (s.m.part (q / 64)).taskRunning = true) :
    doTaskRun q s.m = s.m.badStart q := by
  unfold doTaskRun
  rw [if_neg (by simp [atStart_of h, hst]), if_pos (by simp [ht])]

theorem doPartDrain_drains (h : AtStart s q 0x03 y) (hst : (s.m.part (q / 64)).st = .running) :
    doPartDrain q s.m = { s.m with
      parts := kput s.m.parts (q / 64) { s.m.part (q / 64) with st := .draining, drainFrom := s.m.now, drainDroop := false }
      que.queues := kput s.m.que.queues q { y with running := true, passed := false, sqHead := (y.idx + 1) % 2 ^ fld y.cfg 0 5 } } := by
  unfold doPartDrain
  rw [if_neg (by simp [atStart_of h, hst]), if_neg (by simp [hst]), startCmd_eq (queue_of h.entry)]
  rfl

theorem doPartDrain_bad (h : AtStart s q 0x03 y) (hr : (s.m.part (q / 64)).st ≠ .running) (hd : (s.m.part (q / 64)).st ≠ .draining) :
    doPartDrain q s.m = s.m.badStart q := by
  unfold doPartDrain
  rw [if_neg (by simp [atStart_of h hd]), if_pos hr]

theorem doPartUnload_off (h : AtStart s q 0x04 y)
    (hst : (s.m.part (q / 64)).st = .ready ∨ (s.m.part (q / 64)).st = .halted ∨ (s.m.part (q / 64)).st = .failed)
    (hc : s.m.jig.phase ≠ .checking) (hw : s.m.jig.phase ≠ .writing) (hf : s.m.cfgFrozen = false) :
    doPartUnload q s.m = (ended s.m q y 0 0 false false).offPart (q / 64) 0x0601 := by
  have hend : s.m.endAtStart q 0 = ended s.m q y 0 0 false false := by
    rw [← queue_of h.entry]
    exact finish_ended _ _ _ _ _ _ (by rw [queue_of h.entry]; exact h.desc)
  unfold doPartUnload
  rw [if_neg (by rcases hst with e | e | e <;> simp [atStart_of h, e]), if_neg (by rcases hst with e | e | e <;> simp [e, hc, hw, hf]), hend]

theorem doPartUnload_bad (h : AtStart s q 0x04 y) (hst : (s.m.part (q / 64)).st = .running) : doPartUnload q s.m = s.m.badStart q := by
  unfold doPartUnload
  rw [if_neg (by simp [atStart_of h, hst]), if_pos (by simp [hst])]

end AtStart

/-! ## The end of a task (R405, R408) -/

/-- A quiet partition's task ends, with no take to end beside it. -/
theorem normalEnd_quiet {m : Module} {p : Nat} (hr : (m.part p).taskRunning = true) (hs : (m.part p).started = true)
    (hc : ∀ e ∈ m.cores, (m.part p).hasCore e.1 = true → coreHalted e.2 = true ∧ e.2.idle = true)
    (hh : ∀ e ∈ m.herds, e.1 / 4096 = p → e.2.run = none) (hw : m.writesOpen p = false) (ht : m.returnsOpen p = false)
    (hk : (m.part p).krf.phase = .idle) (hn : (m.part p).krf.take = none) :
    m.normalEnd p = (((m.mapCores p quietCore).endFlows p).endHerds p).endTask p 0 := by
  have cores : (m.cores.filter (fun e => (m.part p).hasCore e.1)).all (fun e => coreHalted e.2 && e.2.idle) = true := by
    rw [List.all_eq_true]
    intro e he
    obtain ⟨hm, hp⟩ := List.mem_filter.1 he
    rw [Bool.and_eq_true]
    exact hc e hm hp
  have herds : m.herds.any (fun e => decide (e.1 / 4096 = p) && e.2.run.isSome) = false := by
    rw [List.any_eq_false]
    intro e he hb
    rw [Bool.and_eq_true, decide_eq_true_eq] at hb
    rw [hh e he hb.1] at hb
    exact absurd hb.2 Bool.false_ne_true
  unfold Module.normalEnd
  dsimp only
  rw [if_neg (by simp [hr, hs, cores, herds, hw, ht, hk]), hn]

/-- What the end of a quiet partition's task leaves: the other partitions, and at every core all but its windows. -/
theorem normalEnd_leaves (m : Module) (p : Nat) :
    let t := (((m.mapCores p quietCore).endFlows p).endHerds p).endTask p 0
    (t.part p = { m.part p with taskRunning := false, started := false, flushing := false, lastCode := 0, starter := none, resumed := false
                                st := if (m.part p).st = .draining then .halted else (m.part p).st })
    ∧ (∀ p', p' ≠ p → t.part p' = m.part p')
    ∧ ∀ c k, kget? m.cores c = some k →
      ∃ k', kget? t.cores c = some k' ∧ k'.sram = k.sram ∧ k'.threads = k.threads ∧ k'.carry = k.carry := by
  obtain ⟨hcores, hother, hpart⟩ := endTask_eq (((m.mapCores p quietCore).endFlows p).endHerds p) p 0
  refine ⟨hpart, hother, fun c k hk => ?_⟩
  rw [hcores]
  show ∃ k', kget? (m.mapCores p quietCore).cores c = some k' ∧ _
  rw [mapCores_get, hk]
  refine ⟨_, rfl, ?_⟩
  split <;> exact ⟨rfl, rfl, rfl⟩

/-- The session of a bad context record is freed, with an event where its queue takes one (R408). -/
theorem ctxError_frees {m : Module} {p h : Nat} (hz : (m.session p h).st ≠ .free) :
    let z := m.session p h
    let q := 64 * p + z.notifyQ
    let y := m.queue q
    m.ctxError p h = (if y.st = .disabled ∨ y.cqSpace ≤ y.todo.length then m else m.setQueue q { y with
      todo := y.todo ++ [{ tag := z.slot, code := 0x0402, kind := 1, info := h, user := z.user, next := 0 }] }).setSession p h
        { z with st := .free } := by
  intro z q y
  refine (if_neg hz).trans (congrArg (fun m => Module.setSession m p h { z with st := .free }) ?_)
  show Option.getD (if y.st = .disabled then _ else if y.cqSpace ≤ y.todo.length then _ else _) m = _
  by_cases hd : y.st = .disabled
  · rw [if_pos hd, if_pos (.inl hd)]; rfl
  · by_cases hfull : y.cqSpace ≤ y.todo.length
    · rw [if_neg hd, if_pos hfull, if_pos (.inr hfull)]; rfl
    · rw [if_neg hd, if_neg hfull, if_neg (not_or.2 ⟨hd, hfull⟩)]; rfl

theorem doTaskEnd_owner (m : Module) (p : Nat) : doTaskEnd p [] true m = m.abortTask p 0x0402 (.ring svcS) := by
  rw [doTaskEnd, List.foldl_nil, if_pos rfl]

theorem doTaskEnd_one (m : Module) (p h : Nat) : doTaskEnd p [h] false m = (m.ctxError p h).normalEnd p := rfl

/-- Settles O44: each start by what its command does at the checks it passes or fails, the end of a task by `normalEnd_leaves`. -/
theorem partitionCommands : Obligations.PartitionCommands := by
  intro s q y p x started bad
  refine ⟨fun h => ⟨fun hst hl hk hr => ?start, fun hr hh hd => ?startBad⟩, fun h => ⟨fun hst ht hk hr => ?run, fun hst ht => ?runBad⟩,
    fun h => ⟨fun hst => ?drain, fun hr hd => ?drainBad⟩, fun h => ⟨fun hst hc hw hf => ?unload, fun hst => ?unloadBad⟩,
    ?taskEnd, fun p => ?owner, ?context⟩
  case start => exact runTask_ok h rfl (doPartStart_runs h hst hl hk) hr
  case startBad => exact onModule_badStart (f := doPartStart q) h (by decide) (doPartStart_bad h hr hh hd)
  case run => exact runTask_ok h rfl (doTaskRun_runs h hst ht hk) hr
  case runBad => exact onModule_badStart (f := doTaskRun q) h (by decide) (doTaskRun_bad h hst ht)
  case drain => exact onModule_of (f := doPartDrain q) (doPartDrain_drains h hst)
  case drainBad => exact onModule_badStart (f := doPartDrain q) h (by decide) (doPartDrain_bad h hr hd)
  case unload => exact onModule_of (f := doPartUnload q) (doPartUnload_off h hst hc hw hf)
  case unloadBad => exact onModule_badStart (f := doPartUnload q) h (by decide) (doPartUnload_bad h hst)
  case taskEnd =>
    intro p x hr hs hc hh hw ht hk hn
    obtain ⟨hpart, hother, hcores⟩ := normalEnd_leaves s.m p
    rw [← normalEnd_quiet hr hs hc hh hw ht hk hn] at hpart hother hcores
    refine completes_of (f := doTaskEnd p [] false) rfl ?_
    simp only [settleIrq_part, settleIrq_cores]
    refine ⟨?_, ?_, ?_, ?_, hother, hcores⟩ <;> rw [show (doTaskEnd p [] false s.m).part p = _ from hpart]
  case owner => exact onModule_of (doTaskEnd_owner ..)
  case context =>
    intro p h z q y event told
    refine ⟨fun hz => ?_, fun hz => ?_⟩
    · exact (onModule_of (doTaskEnd_one ..)).trans (by rw [show s.m.ctxError p h = s.m from if_pos hz]; rfl)
    · rw [← show s.m.ctxError p h = told.setSession p h { z with st := .free } from ctxError_frees hz]
      exact onModule_of (doTaskEnd_one ..)

end Sys2Proof.Machine
end

section
/-! Job launch (R252, R446 to R448): serving, a tile of the awaited jig, and the silence of a parent. -/

namespace Sys2Proof.Machine

open Sys2Proof

theorem watched_launch (m : Module) (x : Launch) : ({ m with launch := x } : Module).watched = m.watched := rfl

/-! ## SERVE (R446) -/

/-- While no PULL of a child waits, a write of KRF_LAUNCH_CTRL has no one to answer. -/
theorem doServe_none_waits {m : Module} {src : Source} (v : Reg64) (hs : src ≠ .host) (hc : m.cfgOk src = true) (hp : m.jig.phase ≠ .staging)
    (ha : m.jig.phase ≠ .armed) (hh : m.launch.held = []) :
    doServe src v m = { m with
      launch.ctrl := fld v.toNat 0 1 + put 8 6 (fld v.toNat 8 6) + put 16 3 (max 1 (fld v.toNat 16 3)) } := by
  have written : ∀ m1, m1 = m → Module.launchGo { m1 with
      launch.ctrl := fld v.toNat 0 1 + put 8 6 (fld v.toNat 8 6) + put 16 3 (max 1 (fld v.toNat 16 3)) } = { m with
      launch.ctrl := fld v.toNat 0 1 + put 8 6 (fld v.toNat 8 6) + put 16 3 (max 1 (fld v.toNat 16 3)) } := by
    rintro _ rfl
    exact launchGo_nil hh
  unfold doServe
  rw [if_neg (by simp [hs, hc, hp, ha])]
  refine written _ ?_
  split
  · rfl
  · rw [hh]
    split <;> exact heldNil m hh

/-! ## LAUNCH_DATA (R447) -/

/-- Tile `t` is in the staging region, and the PULLs that still lack a tile stay outstanding. -/
def Module.tileStaged (m : Module) (t : Nat) (bs : List Byte) : Module :=
  let tiles := kput m.launch.tiles t bs
  let pulls := m.launch.pulls.map (fun q => if q.unit ≤ 16 * t ∧ 16 * t < q.unit + q.count then { q with last := m.now } else q)
  { m with launch := { m.launch with
      tiles := tiles, unitsStaged := 16 * tiles.length
      pulls := pulls.filter (fun q => (List.range (q.count / 16)).any (fun i => (kget? tiles (q.unit / 16 + i)).isNone)) } }

/-- With every unit asked for, no further PULL goes out. -/
theorem launchMore_all {m : Module} {n : Nat} (ht : m.launch.total = some n) (hu : m.launch.nextUnit = jigUnits n) (fuel : Nat) :
    m.launchMore fuel = m := by
  cases fuel with
  | zero => rfl
  | succ fuel =>
    have none_left : min 256 (jigUnits (m.launch.total.getD 0) - m.launch.nextUnit) = 0 := by
      rw [ht, hu, Option.getD_some, Nat.sub_self, Nat.min_zero]
    unfold Module.launchMore
    exact if_pos (by rw [none_left]; rfl)

theorem launchDone_lacks {m : Module} {n : Nat} (ht : m.launch.total = some n)
    (h : ∃ i, i < ceilDiv n tileBytes ∧ kget? m.launch.tiles i = none) : m.launchDone = m := by
  obtain ⟨i, hi, hn⟩ := h
  unfold Module.launchDone
  rw [ht]
  refine if_neg (fun hall => ?_)
  have := List.all_eq_true.1 hall i (List.mem_range.2 hi)
  rw [hn] at this
  exact absurd this Bool.false_ne_true

theorem launchDone_holds {m : Module} {n : Nat} (ht : m.launch.total = some n)
    (h : ∀ i, i < ceilDiv n tileBytes → (kget? m.launch.tiles i).isSome = true) :
    m.launchDone = { m.beginChecking (((List.range (ceilDiv n tileBytes)).flatMap (fun i => kgetD [] m.launch.tiles i)).take n) with
      launch.pulls := [], launch.tiles := [] } := by
  unfold Module.launchDone
  rw [ht]
  exact if_pos (List.all_eq_true.2 (fun i hi => h i (List.mem_range.1 hi)))

/-- A tile after the first, with every unit asked for and no child that waits: the tile is staged, and with the last one staging ends. -/
theorem stageLaunch_later {m : Module} {t n : Nat} (bs : List Byte) (h0 : 0 < t) (ht : m.launch.total = some n)
    (hu : m.launch.nextUnit = jigUnits n) (hh : m.launch.held = []) : m.stageLaunch t bs = (m.tileStaged t bs).launchDone := by
  have hm : m.stageLaunch t bs = (((m.tileStaged t bs).launchGo.launchMore 16).launchDone).launchGo := by
    unfold Module.stageLaunch
    have : t ≠ 0 := by omega
    simp only [this, decide_false, Bool.false_and, Bool.and_eq_true, decide_eq_true_eq, Bool.false_eq_true, if_false]
    rfl
  have quiet : ((m.tileStaged t bs).launchDone).launch.held = [] := by
    unfold Module.launchDone
    rw [show (m.tileStaged t bs).launch.total = some n from ht]
    dsimp only
    split <;> exact hh
  rw [hm, launchGo_nil (show (m.tileStaged t bs).launch.held = [] from hh), launchMore_all (m := m.tileStaged t bs) ht hu, launchGo_nil quiet]

/-- A DATA tile of the load that stages, one that a PULL asked for and that is not held yet. -/
theorem doLaunchData_tile {m : Module} {k : Chunk} {bs : List Byte} {raw : Bool} (hp : m.jig.phase = .staging) (hf : m.jig.fabric = true)
    (hc : k.chan = m.jig.fabricId % 2 ^ 32) :
    let h := leNat (k.upper.take 32)
    let t := fld h 96 32 / 16 + k.chunk
    fld h 96 32 % 16 = 0 → fld h 128 32 % 16 = 0 → 16 * k.chunk < fld h 128 32 → kget? m.launch.tiles t = none →
    (∃ q ∈ m.launch.pulls, q.unit ≤ 16 * t ∧ 16 * t < q.unit + q.count) → readTransit 0 0xFFFF 0 (t % 32) k.payload = some (bs, raw) →
    doLaunchData k m = m.stageLaunch t bs := by
  intro h t hu hn hk hnew hasked hread
  have asked : m.launch.pulls.any (fun x => decide (x.unit ≤ 16 * t) && decide (16 * t < x.unit + x.count)) = true := by
    obtain ⟨q, hq, h1, h2⟩ := hasked
    exact List.any_eq_true.2 ⟨q, hq, by simp [h1, h2]⟩
  have staging : ({ m with jig.phase := .staging } : Module) = m := by rw [← hp]
  unfold doLaunchData Module.launchChunk
  rw [if_neg (by simp [Module.launching, hp, hf, hc, launchStream]), if_neg (by simp [hp]), if_neg (by simp [hp])]
  extract_lets _ m1 unit count tile
  have hm : m1 = m := staging
  clear_value m1
  subst hm
  have whole : ¬(count = 0 ∨ unit % 16 ≠ 0 ∨ count % 16 ≠ 0 ∨ count ≤ 16 * k.chunk) := by simp only [count, unit]; omega
  rw [if_neg (by simpa [and_assoc] using whole), show kget? m1.launch.tiles tile = none from hnew, if_neg (by decide),
    if_neg (by rw [asked]; decide), show readTransit 0 0xFFFF 0 (tile % 32) k.payload = some (bs, raw) from hread]

/-! ## LAUNCH_REPARENT (R448) -/

/-- Some outstanding PULL has heard nothing for `n` ms. -/
def Module.launchLate (m : Module) (n : Nat) : Prop := ∃ q ∈ m.launch.pulls, m.msPassed q.last n = true

section Silence

variable {m : Module} (hp : m.jig.phase = .staging) (hf : m.jig.fabric = true)

include hp hf

theorem doLaunchReparent_again (hr : m.launch.reparented = true) (hl : m.launchLate (fld m.str.timeouts 0 16)) :
    doLaunchReparent m = m.failLaunch := by
  unfold doLaunchReparent
  dsimp only
  rw [if_neg (by simp [Module.launching, hp, hf]), if_pos hr, if_pos (List.any_eq_true.2 hl)]

theorem doLaunchReparent_orphan (hr : m.launch.reparented = false) (hl : m.launchLate 20) (hg : m.launch.grand = 0) :
    doLaunchReparent m = m.failLaunch := by
  unfold doLaunchReparent
  dsimp only
  rw [if_neg (by simp [Module.launching, hp, hf]), if_neg (by simp [hr]), if_neg (by simp [List.any_eq_true.2 hl]), if_pos hg]

theorem doLaunchReparent_grand (hr : m.launch.reparented = false) (hl : m.launchLate 20) (hg : m.launch.grand ≠ 0) :
    let pulls := m.launch.pulls.map (fun q => { q with at_ := m.now, last := m.now })
    doLaunchReparent m = pulls.foldl (fun m q => m.sendLaunchPull q) { (m.logEvent 0x0503 (.ring (fld m.launch.ctrl 8 6))) with
      launch := { m.launch with
        reparents := satN 16 (m.launch.reparents + 1), parentNow := m.launch.grand, reparented := true, pulls := pulls } } := by
  intro pulls
  obtain ⟨a, b, c, hlog⟩ := logEvent_keep m 0x0503 (.ring (fld m.launch.ctrl 8 6)) none 0 0
  unfold doLaunchReparent
  dsimp only
  rw [if_neg (by simp [Module.launching, hp, hf]), if_neg (by simp [hr]), if_neg (by simp [List.any_eq_true.2 hl]), if_neg hg, hlog]
  rfl

end Silence

/-- Settles O48: SERVE, the tile that arrives, and the three ends of silence. That a load with no grandparent ends without a record of its own
is the model's (log 39). -/
theorem launches : Obligations.Launches := by
  intro s x
  refine ⟨fun src v hs hc hp ha hh => ?serve, ?data, ?silence⟩
  case serve => exact onModule_same (f := doServe src v) (doServe_none_waits v hs hc hp ha hh) (watched_launch ..)
  case data =>
    intro k n bs raw hp hf hc h t hu hn hk hnew hasked hread h0 ht hnext hh tiles pulls m1
    have staged : doLaunchData k s.m = m1.launchDone :=
      (doLaunchData_tile hp hf hc hu hn hk hnew hasked hread).trans (stageLaunch_later bs h0 ht hnext hh)
    have htiles : m1.launch.tiles = tiles := rfl
    refine ⟨fun hlack => ?lacks, fun hall => ?holds⟩
    case lacks => exact onModule_same (f := doLaunchData k) (staged.trans (launchDone_lacks (m := m1) ht hlack)) (watched_launch ..)
    case holds =>
      rw [← htiles] at hall
      have holds := launchDone_holds (m := m1) ht hall
      rw [htiles] at holds
      exact onModule_of (f := doLaunchData k) (staged.trans holds)
  case silence =>
    intro late hp hf
    exact ⟨fun hr hl => onModule_of (doLaunchReparent_again hp hf hr hl), fun hr hl hg => onModule_of (doLaunchReparent_orphan hp hf hr hl hg),
      fun hr hl hg => onModule_of (doLaunchReparent_grand hp hf hr hl hg)⟩

end Sys2Proof.Machine
end

section
/-! Load requests (R252 to R255, R262, R265): which are ignored, which are refused, and what the others begin or end. -/

namespace Sys2Proof.Machine

open Sys2Proof

/-! ## Writes of JIG_LOAD_CTRL that are ignored (R265, R492) -/

theorem loadIgnored_iff (m : Module) (src : Source) :
    m.loadIgnored src = true ↔ m.cfgFrozen = true ∨ ¬(src = .host ∨ m.sup.lease ≠ .held ∨ m.isHolder src = true) := by
  simp [Module.loadIgnored, and_assoc]

theorem load_ignored {m : Module} {src : Source} (h : m.loadIgnored src = true) :
    doStart src m = m ∧ doArmFabric src m = m ∧ doDisarm src m = m :=
  ⟨if_pos h, if_pos h, if_pos (by rw [h]; rfl)⟩

/-! ## Requests that are refused (R253) -/

theorem loadBar_state {m : Module} (hs : m.sys.st ≠ .service) (hr : m.sys.st ≠ .reduced) : m.loadBar = some 0x20 :=
  if_pos (by simp [hs, hr])

section Open

variable {m : Module} (hst : m.sys.st = .service ∨ m.sys.st = .reduced)

include hst

theorem loadBar_lease (hl : m.sup.lease ≠ .held) : m.loadBar = some 0x21 := by
  unfold Module.loadBar
  rw [if_neg (by rcases hst with e | e <;> simp [e]), if_pos hl]

theorem loadBar_busy (hl : m.sup.lease = .held)
    (h : m.jig.phase ≠ .idle ∨ m.sec.writing.isSome = true ∨ ∃ c, m.sec.cmd = some c ∧ c.awaits = true ∧ c.op = 1) :
    m.loadBar = some 0x22 := by
  unfold Module.loadBar
  rw [if_neg (by rcases hst with e | e <;> simp [e]), if_neg (Decidable.not_not.2 hl), if_pos]
  rcases h with h | h | ⟨c, hc, ha, ho⟩
  · simp [h]
  · simp [h]
  · simp [hc, ha, ho]

theorem loadBar_none (hl : m.sup.lease = .held) (hp : m.jig.phase = .idle) (hw : m.sec.writing = none)
    (hc : ∀ c, m.sec.cmd = some c → c.awaits = false ∨ c.op ≠ 1) : m.loadBar = none := by
  have held_back : m.sec.cmd.any (fun c => c.awaits && c.op = 1) = false := by
    cases h : m.sec.cmd with
    | none => rfl
    | some c => rcases hc c h with e | e <;> simp [e]
  unfold Module.loadBar
  rw [if_neg (by rcases hst with e | e <;> simp [e]), if_neg (Decidable.not_not.2 hl), if_neg (by rw [held_back]; simp [hp, hw])]

end Open

section Requests

variable {s : State} {src : Source} (hi : s.m.loadIgnored src = false)

include hi

theorem load_refused {r : Nat} (h : s.m.loadBar = some r) :
    exec (.start src) s = after s (s.m.refuse { code := 0x0601, res := r } 0)
    ∧ exec (.armFabric src) s = after s (s.m.refuse { code := 0x0601, res := r } 0) := by
  refine ⟨onModule_of (f := doStart src) ?_, onModule_of (f := doArmFabric src) ?_⟩
  · rw [doStart, hi, if_neg Bool.false_ne_true, h]
  · rw [doArmFabric, hi, if_neg Bool.false_ne_true, h]

/-! ## Requests that are taken (R252) -/

theorem start_badLength (h : s.m.loadBar = none) (hlen : s.m.jig.len = 0 ∨ 2 ^ 32 < s.m.jig.len) :
    exec (.start src) s = after s (s.m.refuse { code := 0x0602, res := 0x01 } 0) := by
  refine onModule_of (f := doStart src) ?_
  rw [doStart, hi, if_neg Bool.false_ne_true, h]
  exact if_pos (by simpa using hlen)

theorem start_stages (h : s.m.loadBar = none) (h0 : 0 < s.m.jig.len) (hmax : s.m.jig.len ≤ 2 ^ 32) :
    exec (.start src) s = after s { s.m with
      jig := { s.m.jig with phase := .staging, fabric := false, staging := [] }, launch := { s.m.launch with tiles := [], held := [] } } := by
  refine onModule_of (f := doStart src) ?_
  rw [doStart, hi, if_neg Bool.false_ne_true, h]
  exact if_neg (by simp; omega)

end Requests

/-- The module that awaits its fabric jig, before its first PULL. -/
def Module.armed (m : Module) : Module := { m with
  jig := { m.jig with phase := .armed, fabric := true, staging := [] }
  launch := { m.launch with
    tiles := [], held := [], pulls := [], total := none, nextUnit := 0, unitsStaged := 0, reparented := false, parentNow := m.launch.parent } }

theorem doArmFabric_taken {m : Module} {src : Source} (hi : m.loadIgnored src = false) (h : m.loadBar = none) :
    doArmFabric src m = if m.launchPort.isNone then m.armed else m.armed.newLaunchPull 0 16 := by
  rw [doArmFabric, hi, if_neg Bool.false_ne_true, h]
  rfl

/-- A PULL of the awaited jig changes what the module has sent, and the counter of its stream. -/
theorem sendLaunchPull_keep (m : Module) (x : Pull) : ∃ fp o sq, m.sendLaunchPull x = { m with fab.ports := fp, out := o, str.seqs := sq } := by
  unfold Module.sendLaunchPull
  split
  · exact ⟨m.fab.ports, m.out, m.str.seqs, rfl⟩
  · exact sendPsp_keep ..

/-- The first PULL asks for units 0 to 15 (R252). -/
theorem firstLaunchPull_keep (m : Module) : ∃ fp o sq, m.armed.newLaunchPull 0 16 = { m.armed with
    fab.ports := fp, out := o, str.seqs := sq
    launch.pulls := [{ key := 0, unit := 0, count := 16, at_ := m.now, last := m.now }], launch.nextUnit := 16 } := by
  obtain ⟨fp, o, sq, sent⟩ := sendLaunchPull_keep m.armed { key := 0, unit := 0, count := 16, at_ := m.now, last := m.now }
  refine ⟨fp, o, sq, ?_⟩
  unfold Module.newLaunchPull
  dsimp only
  rw [show m.armed.now = m.now from rfl, sent]
  rfl

/-! ## The end of staging (R254, R255) -/

/-- The host's bytes are checked as they stand, where the host's link is up. -/
theorem doStagingComplete_staging {m : Module} {bytes : List Byte} (hp : m.jig.phase = .staging) (hf : m.jig.fabric = false) :
    doStagingComplete bytes m = if m.hostUp = false then m.refuseLoad { code := 0x0603, res := 0x30 } 0
      else m.beginChecking (padTo m.jig.len 0 bytes) := by
  rw [doStagingComplete, if_neg (by simp [hp, hf])]
  cases m.hostUp <;> rfl

/-- Settles O49: JIG_LOAD_CTRL by what ignores and what refuses a request, then staging and the drain limit. That a request
while frozen is ignored, and one from an MMP beside the holder, is the model's (logs 17, 34, 87). -/
theorem jigRequests : Obligations.JigRequests := by
  intro s src x refused mine
  refine ⟨fun h => ?ignored,
    fun hf hm => ⟨fun hs hr => ?state, fun hst => ⟨fun hl => ?lease, fun hl hb => ?busy, fun hl hp hw hc => ?taken⟩, fun hp => ?disarm⟩,
    fun bytes hp hf => ⟨fun hup => ?lost, fun hup => ?staged⟩, fun p hd ht => ?drain⟩
  case ignored =>
    obtain ⟨start, arm, disarm⟩ := load_ignored ((loadIgnored_iff _ _).2 h)
    exact ⟨onModule_still start, onModule_still arm, onModule_still disarm⟩
  case lost => exact onModule_of (f := doStagingComplete bytes) ((doStagingComplete_staging hp hf).trans (if_pos hup))
  case staged =>
    have checks := (doStagingComplete_staging (bytes := bytes) hp hf).trans (if_neg (by rw [hup]; decide))
    exact onModule_of (f := doStagingComplete bytes) checks
  case drain => exact onModule_of (f := doDrainLimitExpiry p) (if_neg (by simp [hd, ht]))
  all_goals
    have hi : s.m.loadIgnored src = false :=
      Bool.eq_false_iff.2 (fun h => ((loadIgnored_iff _ _).1 h).elim (by simp [hf]) (fun h => h hm))
  case state => exact load_refused hi (loadBar_state hs hr)
  case lease => exact load_refused hi (loadBar_lease hst hl)
  case busy => exact load_refused hi (loadBar_busy hst hl hb)
  case disarm => exact ⟨onModule_of (f := doDisarm src) (if_neg (by rw [hi]; simp [show s.m.jig.phase = .armed from hp])), rfl⟩
  case taken =>
    have open_ := loadBar_none hst hl hp hw hc
    have armed := doArmFabric_taken hi open_
    refine ⟨start_badLength hi open_, start_stages hi open_, fun hn => ?_, fun port hn => ?_⟩
    · exact onModule_of (f := doArmFabric src) (armed.trans (if_pos (by rw [hn]; rfl)))
    · obtain ⟨fp, o, sq, pulled⟩ := firstLaunchPull_keep s.m
      rw [hn, if_neg (Option.isNone_some ▸ Bool.false_ne_true), pulled] at armed
      refine completes_of (f := doArmFabric src) rfl ?_
      rw [armed, settleIrq_jig, settleIrq_launch, settleIrq_parts, settleIrq_cores]
      exact ⟨rfl, rfl, rfl, rfl, rfl, rfl, rfl⟩

end Sys2Proof.Machine
end

section
/-! A jig load (R255, R256, R258, R261): the end of its checks, its acceptance, its writes, and READY. -/

namespace Sys2Proof.Machine

open Sys2Proof

/-- What a refusal of a load leaves: the record of it, and nothing of any partition (R261). -/
theorem refuseLoad_leaves (m : Module) (b : JBad) (id : Nat) : let t := m.refuseLoad b id
    t.jig.refusal = BitVec.ofNat 256 (refusalWord b id) ∧ t.jig.lastRefused = true ∧ t.jig.phase = .idle
      ∧ t.parts = m.parts ∧ t.cores = m.cores ∧ t.jig.loadedId = m.jig.loadedId ∧ t.jig.digest = m.jig.digest := by
  obtain ⟨a, c, d, h⟩ := refuse_keep m.endLoad b id
  intro t
  rw [show t = _ from h]
  exact ⟨rfl, rfl, rfl, rfl, rfl, rfl, rfl⟩

/-! ## CHECKING_COMPLETE (R255, R429) -/

section Checking

variable {s : State} (hp : s.m.jig.phase = .checking)

include hp

theorem checkingComplete_staged (hb : s.m.jig.stagedBad = true) :
    exec .checkingComplete s = after s (s.m.refuseLoad { code := 0x0402, res := 0x30 } (viewOf s.m.jig.staging).jigId) := by
  refine onModule_of (f := doCheckingComplete) ?_
  rw [doCheckingComplete, if_neg (Decidable.not_not.2 hp), if_pos hb]

variable (hb : s.m.jig.stagedBad = false)

include hb

theorem checkingComplete_failed {b : JBad} (hc : (viewOf s.m.jig.staging).check s.m s.m.jig.staging = some b) :
    exec .checkingComplete s = after s (s.m.refuseLoad b (viewOf s.m.jig.staging).jigId) := by
  refine onModule_of (f := doCheckingComplete) ?_
  rw [doCheckingComplete, if_neg (Decidable.not_not.2 hp), if_neg (by rw [hb]; decide), hc]

variable (hc : (viewOf s.m.jig.staging).check s.m s.m.jig.staging = none)

include hc

theorem checkingComplete_badState {p : Nat} (hs : (viewOf s.m.jig.staging).stateBad s.m = some p) :
    exec .checkingComplete s = after s (s.m.refuseLoad { code := 0x0601, res := 0x23, part := some p } 0) := by
  refine onModule_of (f := doCheckingComplete) ?_
  rw [doCheckingComplete, if_neg (Decidable.not_not.2 hp), if_neg (by rw [hb]; decide), hc]
  dsimp only
  rw [hs]

/-- With no fault found, the load goes on once no partition dumps. -/
theorem doCheckingComplete_passed (hs : (viewOf s.m.jig.staging).stateBad s.m = none) : doCheckingComplete s.m =
    if (List.range 16).any (fun p => (s.m.part p).krf.phase = .dumping) then s.m else (viewOf s.m.jig.staging).accept s.m := by
  rw [doCheckingComplete, if_neg (Decidable.not_not.2 hp), if_neg (by rw [hb]; decide), hc]
  dsimp only
  rw [hs]

end Checking

theorem dumping_any (m : Module) :
    (List.range 16).any (fun p => (m.part p).krf.phase = .dumping) = true ↔ ∃ p, p < 16 ∧ (m.part p).krf.phase = .dumping := by
  simp only [List.any_eq_true, List.mem_range, decide_eq_true_eq]

/-! ## Acceptance (R256) -/

/-- The loss of what the defined partitions had leaves every partition's record. -/
theorem stripped_parts (l : List Nat) (m : Module) :
    (l.foldl (fun m p => (((m.deleteObjects p).dropRings p).dropTables p).darkClusters p) m).parts = m.parts :=
  foldl_parts (fun m p => (((m.deleteObjects p).dropRings p).dropTables p).darkClusters p) (fun _ _ => rfl) l m

/-- Acceptance leaves the defined partitions LOADING in their rectangles, with a full jig every other one OFF, and else every other one as it was. -/
theorem accept_parts (v : JView) (m : Module) : let t := v.accept m
    t.jig.phase = .writing ∧ t.jig.written = false
    ∧ (∀ p, v.defines p = true → (t.part p).st = .loading ∧ (t.part p).cx = (rectOf (v.ent p)).cx ∧ (t.part p).cy = (rectOf (v.ent p)).cy
      ∧ (t.part p).cw = (rectOf (v.ent p)).cw ∧ (t.part p).ch = (rectOf (v.ent p)).ch)
    ∧ ∀ p, v.defines p = false → if v.full = true ∧ p < 16 then (t.part p).st = .off else t.part p = m.part p := by
  unfold JView.accept
  extract_lets old m1 m2 m3 m4
  have kept : ∀ p, m3.part p = m1.part p := part_of_parts ((stripped_parts ..).trans (netBase_parts ..))
  obtain ⟨loading, others⟩ := loading_fold v v.defined m3
  refine ⟨rfl, rfl, fun p hd => loading p ((mem_defined v p).2 hd), fun p hd => ?_⟩
  have same : m4.part p = m1.part p := (others p (fun h => by rw [(mem_defined v p).1 h] at hd; cases hd)).trans (kept p)
  show if v.full = true ∧ p < 16 then (m4.part p).st = .off else m4.part p = m.part p
  rw [same]
  simp only [m1]
  by_cases hf : v.full = true
  · obtain ⟨off, stay⟩ := offFold v (List.range 16) m
    rw [if_pos hf]
    by_cases hp : p < 16
    · rw [if_pos ⟨hf, hp⟩]
      exact off p (List.mem_range.2 hp) hd
    · rw [if_neg (fun h => hp h.2)]
      exact stay p (.inl (fun h => hp (List.mem_range.1 h)))
  · rw [if_neg hf, if_neg (fun h => hf h.1)]

/-! ## WRITING_COMPLETE (R249, R256) -/

theorem doWritingComplete_writes {m : Module} :
    let v := viewOf m.jig.staging
    let live := v.defined.filter (fun p => (m.part p).st = .loading)
    m.jig.phase = .writing → m.jig.written = false → live.all m.clustersUp = true →
    let w := { v with secs := v.secs.filter (fun x => !x.note && (x.type = 1 || x.type = 2 || live.contains x.part)) }
    let m1 := live.foldl (fun m p => (m.mapCores p bareCore).modPart p (fun x => { x with used := v.records p, windows := 0 })) m
    doWritingComplete m = { (w.secs.foldl (fun m x => x.writeInto m) (w.merge m1).1) with jig.written := true } := by
  intro v live hp hw hup w m1
  unfold doWritingComplete
  exact if_neg (by rw [show List.all _ m.clustersUp = true from hup]; simp [hp, hw])

/-- The writes wait for the clusters, and are done once. -/
theorem doWritingComplete_waits {m : Module} (h : m.jig.phase ≠ .writing ∨ m.jig.written = true
    ∨ ∃ p, (viewOf m.jig.staging).defines p = true ∧ (m.part p).st = .loading ∧ m.clustersUp p = false) : doWritingComplete m = m := by
  unfold doWritingComplete
  refine if_pos ?_
  rcases h with h | h | ⟨p, hd, hs, hc⟩
  · simp [h]
  · simp [h]
  · have down : ((viewOf m.jig.staging).defined.filter (fun p => (m.part p).st = .loading)).all m.clustersUp = false := by
      rw [List.all_eq_false]
      exact ⟨p, List.mem_filter.2 ⟨(mem_defined _ p).2 hd, decide_eq_true hs⟩, by rw [hc]; decide⟩
    rw [down]
    simp

/-- A CORE section stands in the SRAM of its core, and changes nothing else. -/
theorem writeInto_core (m : Module) (x : JSec) (k : JCore) (ht : x.type = 0x10) (hk : coreOf x = some k) :
    (x.writeInto m).core x.inst = { m.core x.inst with img := some k.image, sram := k.sram }
    ∧ (∀ c, c ≠ x.inst → (x.writeInto m).core c = m.core c) ∧ (x.writeInto m).parts = m.parts := by
  have written : x.writeInto m = m.modCore x.inst (fun y => { y with img := some k.image, sram := k.sram }) := by
    unfold JSec.writeInto
    rw [if_neg (by rw [ht]; decide), if_pos ht, hk]
  rw [written]
  refine ⟨Module.setCore_core .., fun c hc => ?_, rfl⟩
  unfold Module.modCore Module.setCore Module.core
  exact kgetD_kput_ne _ _ _ hc

/-! ## PARTITION_READY (R258) -/

/-- The partitions `live` have become READY, and their clusters rest. -/
def JView.readied (v : JView) (m : Module) (live : List Nat) : Module :=
  live.foldl (fun m p => m.restClusters p) (live.foldl (fun m p => (m.modPart p (v.ready m.jig.digestNow p)).freshPart p) m)

/-- The record of the load whose partitions have become READY. -/
def JView.recorded (v : JView) (t : Module) : Module := { t.endLoad with
  jig.loadedId := v.jigId, jig.digest := t.jig.digestNow, jig.loadCount := (t.jig.loadCount + 1) % 2 ^ 32
  jig.lastSigned := t.jig.signedNow, jig.lastPartial := !v.full }

/-- What READY leaves: the named partitions are READY, the others, the cores and the load's record as they were. -/
theorem readied_leaves (v : JView) (m : Module) (live : List Nat) (hn : live.Nodup) : let t := v.readied m live
    (∀ p, p ∈ live → t.part p = v.ready m.jig.digestNow p (m.part p)) ∧ (∀ p, p ∉ live → t.part p = m.part p)
    ∧ t.cores = m.cores ∧ t.jig = m.jig ∧ t.net.slot = m.net.slot ∧ t.net.frameLen = m.net.frameLen := by
  obtain ⟨ready, others, cores, jig, slot, frame⟩ := ready_fold v m.jig.digestNow live hn m rfl
  obtain ⟨rest, restJig, restNet⟩ := restFold live (live.foldl (fun m p => (m.modPart p (v.ready m.jig.digestNow p)).freshPart p) m)
  exact ⟨fun p hp => (rest.part p).trans (ready p hp), fun p hp => (rest.part p).trans (others p hp), rest.1.trans cores, restJig.trans jig,
    (congrArg Net.slot restNet).trans slot, (congrArg Net.frameLen restNet).trans frame⟩

/-- The module whose settings are those of a full jig (R242, R244). -/
def JView.atSync (v : JView) (m : Module) : Module := if v.full then v.settings m else m

theorem atSync_keeps (v : JView) (m : Module) : (∀ p, (v.atSync m).part p = m.part p) ∧ (v.atSync m).cores = m.cores
    ∧ (v.atSync m).jig.digestNow = m.jig.digestNow ∧ (v.atSync m).jig.loadCount = m.jig.loadCount := by
  unfold JView.atSync
  split <;> exact ⟨fun _ => rfl, rfl, rfl, rfl⟩

theorem atSync_full {v : JView} (h : v.full = true) (m : Module) : v.atSync m = v.settings m := if_pos h

theorem doPartitionReady_waits {m : Module} (h : m.jig.phase ≠ .writing ∨ m.jig.written = false ∨ m.pwr.meshLocked = false
    ∨ ((viewOf m.jig.staging).full = false ∧ m.frameStarts = false)) : doPartitionReady m = m := by
  unfold doPartitionReady
  rcases h with h | h | h | ⟨hv, hf⟩
  · exact if_pos (by simp [h])
  · exact if_pos (by simp [h])
  · exact if_pos (by simp [h])
  · split
    · rfl
    · exact if_pos (by simp [hv, hf])

theorem doPartitionReady_ends {m : Module} (hp : m.jig.phase = .writing) (hw : m.jig.written = true) (hl : m.pwr.meshLocked = true)
    (hf : (viewOf m.jig.staging).full = true ∨ m.frameStarts = true) :
    let v := viewOf m.jig.staging
    doPartitionReady m = v.recorded (v.readied (v.atSync m) (v.defined.filter (fun p => (m.part p).st = .loading))) := by
  intro v
  have live : v.defined.filter (fun p => (m.part p).st = .loading) = v.defined.filter (fun p => ((v.atSync m).part p).st = .loading) := by
    simp only [(atSync_keeps v m).1]
  have sync : ¬(!v.full && !m.frameStarts) = true := by rcases hf with h | h <;> simp [v, h]
  rw [live]
  unfold doPartitionReady
  rw [if_neg (by simp [hp, hw, hl])]
  extract_lets m0 ready fresh t
  have readied : v.readied (v.atSync m) (v.defined.filter (fun p => ((v.atSync m).part p).st = .loading)) = t := rfl
  rw [if_neg sync, readied]
  clear_value t
  rfl

/-- Settles O50: the end of the checks by what they found, acceptance by `accept_parts`, READY by `readied_leaves`. When
each of the loader's steps acts is the model's (log 33). -/
theorem jigLoads : Obligations.JigLoads := by
  intro s v
  refine ⟨fun hp => ⟨checkingComplete_staged hp, fun hb => ⟨fun b hc => checkingComplete_failed hp hb hc, fun hc =>
    ⟨fun p hs => checkingComplete_badState hp hb hc hs, fun hs hd => ?dumps, fun hs hd => ?accepted⟩⟩⟩,
    fun b id => refuseLoad_leaves s.m b id, fun hp hw hup => ?written, fun h => ?held, writeInto_core,
    fun h => onModule_still (f := doPartitionReady) (doPartitionReady_waits h), fun hp hw hl hf => ?ready⟩
  case dumps => exact onModule_still (f := doCheckingComplete) ((doCheckingComplete_passed hp hb hc hs).trans (if_pos ((dumping_any _).2 hd)))
  case accepted =>
    have accepts : doCheckingComplete s.m = v.accept s.m :=
      (doCheckingComplete_passed hp hb hc hs).trans (if_neg (fun h => ((dumping_any _).1 h).elim (fun p ⟨hlt, hph⟩ => hd p hlt hph)))
    refine completes_of (f := doCheckingComplete) rfl ?_
    rw [accepts]
    simp only [settleIrq_jig, settleIrq_part]
    exact accept_parts v s.m
  case written => exact onModule_of (f := doWritingComplete) (doWritingComplete_writes hp hw hup)
  case held => exact onModule_still (f := doWritingComplete) (doWritingComplete_waits h)
  case ready =>
    generalize hlive : v.defined.filter (fun p => (s.m.part p).st = .loading) = live
    have loading (p : Nat) : p ∈ live ↔ v.defines p = true ∧ (s.m.part p).st = .loading := by
      rw [← hlive, List.mem_filter, mem_defined, decide_eq_true_eq]
    have ends : doPartitionReady s.m = v.recorded (v.readied (v.atSync s.m) live) := hlive ▸ doPartitionReady_ends hp hw hl hf
    obtain ⟨parts, cores, digest, count⟩ := atSync_keeps v s.m
    obtain ⟨ready, others, keptCores, jig, slot, frame⟩ :=
      readied_leaves v (v.atSync s.m) live (hlive ▸ (List.nodup_range.filter _).filter _)
    generalize v.readied (v.atSync s.m) live = t at ends ready others keptCores jig slot frame
    refine completes_of (f := doPartitionReady) rfl ?_
    rw [ends]
    simp only [settleIrq_jig, settleIrq_net, settleIrq_part, settleIrq_cores]
    refine ⟨rfl, rfl, ?_, ?_, rfl, rfl, fun hv => ?_, fun p hd hs => ?_, fun p h => ?_, ?_⟩
    · exact (congrArg Jig.digestNow jig).trans digest
    · exact congrArg (fun n => (n + 1) % 2 ^ 32) ((congrArg Jig.loadCount jig).trans count)
    · rw [atSync_full hv] at jig slot frame
      exact ⟨slot, frame, congrArg Jig.perCluster jig, congrArg Jig.freq jig⟩
    · rw [← digest, ← parts p]
      exact ready p ((loading p).2 ⟨hd, hs⟩)
    · rw [← parts p]
      exact others p (fun hm => h.elim (by rw [((loading p).1 hm).1]; decide) (fun hs => hs ((loading p).1 hm).2))
    · exact keptCores.trans cores

end Sys2Proof.Machine
end

section
/-! The request ports and return flows of a core (R280, R328 to R330, R347): TREAD, TWRITE, TDONE, GPUSH and GWAIT. -/

namespace Sys2Proof.Machine

open Sys2Proof

section Ports

variable {s : State} {c t op p : Nat} {k : Core} {th : Thread} {w : Nat} {x : Ctx} {reply data : Core → ReqPort → Nat → Nat}
  {f : Ctx → Core → Thread → Nat → CoreRes}

/-- A request leaves while fewer than 16 have no reply (R329, R330). -/
theorem coreRequest_sends (hn : NextInside k th) (hi : (th.xr (fld w 18 5)).toNat < 2 ^ 18) (few : (kgetD ({} : ReqPort) k.ports (fld w 23 6)).open_ < 16) :
    let q : ReqPort := kgetD {} k.ports (fld w 23 6)
    let addr := 64 * ((th.xr (fld w 13 5)).toNat + (th.xr (fld w 18 5)).toNat * 2 ^ 32)
    let len := 64 * (fld w 32 15 + 1)
    coreRequest op reply data k th w = .go {
      core := { k with ports := kput k.ports (fld w 23 6) { q with
        open_ := q.open_ + 1, reads := if op = 1 then q.reads ++ [len] else q.reads } }
      th := th.next
      ctrls := [(q.reqRoute, requestMsg op (reply k q w) (data k q w) (th.xr (fld w 8 5)).toNat addr len)] } := by
  intro q addr len
  have next (ps : KMap ReqPort) : goNext { k with ports := ps } th = .go { core := { k with ports := ps }, th := th.next } :=
    goNext_inside (hn.img rfl)
  unfold coreRequest
  refine (if_neg (Nat.not_le.2 hi)).trans ((if_neg (Nat.not_le.2 few)).trans ?_)
  simp only [next]
  rfl

theorem coreRequest_waits (hi : (th.xr (fld w 18 5)).toNat < 2 ^ 18) (full : 16 ≤ (kgetD ({} : ReqPort) k.ports (fld w 23 6)).open_) :
    coreRequest op reply data k th w = .wait := by
  unfold coreRequest
  exact (if_neg (Nat.not_le.2 hi)).trans (if_pos full)

/-- A core instruction that also sends a CONTROL message from a port, as a command. -/
theorem onModule_ctrl {k' : Core} {th' : Thread} {u : CUnit} {route : Nat} {msg : BitVec 480} (h : Issues s c t op p k th w)
    (hf : f (s.m.ctx p c) k th w = .go { core := k', th := th', ctrls := [(route, msg)] }) :
    onModule s (issue c t op u f) = .next (State.found { left s c t u k' th' with m := (left s c t u k' th').m.portSend p c route msg } c
      (k.softFetch th)) := by
  refine onModule_same (m := foundAt ((left s c t u k' th').m.portSend p c route msg) c (k.softFetch th)) ?_
    ((watched_foundAt ..).trans (portSend_watched ..))
  rw [issue_go h hf]
  simp only [CoreOut.fetched, List.append_nil]
  rfl

/-- TDONE of a count that it can take (R328, R330). -/
theorem coreTdone_counted (hpos : 0 < fld w 32 16) (hle : fld w 32 16 ≤ 16) : let q : ReqPort := kgetD {} k.ports (fld w 23 6)
    coreTdone x k th w = if q.done < fld w 32 16 then .wait else
      goSet { k with ports := kput k.ports (fld w 23 6) { q with done := q.done - fld w 32 16 } } th w (BitVec.ofNat 32 q.lastTag) := by
  unfold coreTdone immCount
  exact if_neg (by omega)

end Ports

/-! ## GPUSH and GWAIT (R347) -/

section Gradients

variable {s : State} {c t p : Nat} {k : Core} {th : Thread} {w : Nat}

/-- GPUSH of a layer that the flow has a route of: the thread goes on, and the core's count of its pushes is one more. -/
theorem doGpush_routed (h : Issues s c t 0x79 p k th w) (hn : NextInside k th)
    (routed : ∃ r ∈ (s.m.flow (256 * p + fld w 32 8)).routes, r.layer = (th.xr (fld w 13 5)).toNat) (running : (s.m.part p).taskRunning = true) :
    let key := 256 * p + fld w 32 8
    let l := (th.xr (fld w 13 5)).toNat
    let f := s.m.flow key
    doGpush c t s.m = (foundAt (left s c t .stream k th.next).m c (k.softFetch th)).setFlow key
      { f with pushed := kput f.pushed (32768 * l + c) (f.pushes l c + 1) } := by
  intro key l f
  have good : (!f.routes.any (fun r => decide (r.layer = l))) = false := by
    obtain ⟨r, hr, hl⟩ := routed
    rw [Bool.not_eq_false', List.any_eq_true]
    exact ⟨r, hr, decide_eq_true hl⟩
  have next : goNext k th = .go { core := k, th := th.next } := goNext_inside hn
  have issued : issue c t 0x79 .stream (fun _ k th _ => if (!f.routes.any (fun r => decide (r.layer = l))) = true then
      goAbort k th 0x0602 else goNext k th) s.m = foundAt (left s c t .stream k th.next).m c (k.softFetch th) :=
    issue_next h ((if_neg (Bool.eq_false_iff.1 good)).trans next)
  have still : ((foundAt (left s c t .stream k th.next).m c (k.softFetch th)).part p).taskRunning = true :=
    (congrArg Part.taskRunning ((foundAt_quiet ..).cp.part p)).trans running
  obtain ⟨can, rfl, op, -⟩ := h
  unfold doGpush
  simp only [can, retKey, show rs1 th (k.fetch th) = th.xr (fld (k.fetch th) 13 5) from rfl]
  rw [issued]
  refine if_neg ?_
  rw [good, still, op]
  decide

end Gradients

/-- Settles O13: a request by `coreRequest_sends`, GPUSH by `doGpush_routed`. What GPUSH counts and which rounds GWAIT waits for are the
model's (log 48). -/
theorem terournAndGradients : Obligations.TerournAndGradients := by
  unfold Obligations.TerournAndGradients
  refine ⟨?ports, ?gradients⟩
  case ports =>
    intro s c t p k th w i q hi addr len tag n soft waits
    refine ⟨fun h hn hhi few => ?tread, fun h hn hhi few => ?twrite, fun h hhi full => ?treadFull, fun h hhi full => ?twriteFull,
      fun h hn hpos hle got => ?tdone, fun h hpos hle few => ?tdoneFew⟩
    case tread => exact onModule_ctrl h (coreRequest_sends hn hhi few)
    case twrite => exact onModule_ctrl h (coreRequest_sends hn hhi few)
    case treadFull => exact onModule_wait h (coreRequest_waits hhi full)
    case twriteFull => exact onModule_wait h (coreRequest_waits hhi full)
    case tdone => exact exec_set h (hn.img rfl) ((coreTdone_counted hpos hle).trans (if_neg (Nat.not_lt.2 got)))
    case tdoneFew => exact onModule_wait h ((coreTdone_counted hpos hle).trans (if_pos few))
  case gradients =>
    intro s c t p k th w key l f
    refine ⟨fun h hn routed running => ?gpush, fun h hn done => ?gwait, fun h notDone => ?gwaitMore⟩
    case gpush => exact onModule_same (f := doGpush c t) (doGpush_routed h hn routed running) (watched_foundAt ..)
    case gwait =>
      refine exec_next h hn ?_
      simp only [can_part h.can]
      exact if_pos done
    case gwaitMore =>
      refine onModule_wait h ?_
      simp only [can_part h.can]
      exact if_neg (Bool.eq_false_iff.1 notDone)

end Sys2Proof.Machine
end

section
/-! Requests of Terourn space at their home die (R280, R281, R285, R298, R329): a READ served, a WRITE accepted, its data, and WRITE_DONE. -/

namespace Sys2Proof.Machine

open Sys2Proof

/-! ## Arrival at a ring die -/

section AtDie

variable {m : Module} {die route : Nat} {f : Flight} {rest : List Flight} {ok : Flight → Bool}

/-- The oldest packet of a route, one that the command takes, arrives at its die. -/
theorem takeArrival_die {m' : Module} (ht : takeFlight (ringSite die) route m.net.flights = some (f, rest)) (hok : ok f = true) (hd : die < 64)
    (flushed : (m.part f.part).flushing = false) (isOpen : m.netOpen f.part = true)
    (arrives : ({ m with net.flights := rest } : Module).arriveDie f.part die f = some m') : m.takeArrival (ringSite die) route ok = m' := by
  unfold Module.takeArrival
  rw [ht]
  refine (if_pos hok).trans ?_
  rw [arrive_die (m := { m with net.flights := rest }) flushed (netOpen_active isOpen) hd, arrives, Option.getD_some]

/-- The network once the packet `f` is off its route at a ring die, in sequence (R211). -/
def Net.taken (n : Net) (f : Flight) (rest : List Flight) : Net :=
  { n with flights := rest, dieExpect := kput n.dieExpect f.route ((hSeq f.hdr + 1) % 256) }

theorem takeArrival_request (ht : takeFlight (ringSite die) route m.net.flights = some (f, rest)) (hok : ok f = true) (hd : die < 64)
    (flushed : (m.part f.part).flushing = false) (isOpen : m.netOpen f.part = true) (kind : hKind f.hdr = 4)
    (request : m.isRequest f.part f.route = true) (seq : hSeq f.hdr = kgetD 0 m.net.dieExpect f.route) :
    m.takeArrival (ringSite die) route ok = ({ m with net := m.net.taken f rest } : Module).requestAtDie f.part die f :=
  takeArrival_die ht hok hd flushed isOpen (arriveDie_request (m := { m with net.flights := rest }) kind request seq)

/-- A request that keeps the checks of R280 is of 64 bytes at least. -/
theorem goodRequest_len {p x : Nat} (good : m.badRequest p die x = false) : 64 ≤ fld x 160 22 := by
  unfold Module.badRequest at good
  simp only [Bool.or_eq_false_iff, decide_eq_false_iff_not] at good
  obtain ⟨⟨⟨⟨⟨⟨⟨⟨-, -⟩, short⟩, -⟩, -⟩, -⟩, -⟩, -⟩, -⟩ := good
  exact Nat.not_lt.1 short

end AtDie

/-! ## READ (R280, R281, R285, R298) -/

/-- A module's network replaced plays no part in what a read of T1 finds. -/
theorem readT1_net (m : Module) (n : Net) (a k : Nat) : ({ m with net := n } : Module).readT1 a k = { m.readT1 a k with net := n } := by
  obtain ⟨_, _, _, _, _, _, _, _, e⟩ := readT1_keep m a k
  refine (readT1_refit m n m.tier.ids m.tier.pages m.tier.reqs a k (fun _ => rfl)).trans ?_
  rw [e]
  rfl

theorem readT1_kept (m : Module) (a k : Nat) : (m.readT1 a k).net = m.net ∧ (m.readT1 a k).watched = m.watched := by
  obtain ⟨_, found⟩ := readT1_keep m a k
  refine ⟨?_, (watched_keep found).trans rfl⟩
  obtain ⟨_, _, _, _, _, _, _, e⟩ := found
  rw [e]

theorem load_net (m : Module) (n : Net) (a k : Nat) : ({ m with net := n } : Module).load? a k = m.load? a k :=
  load_same (m := m) (m' := { m with net := n }) (fun _ _ => rfl) (fun _ _ => rfl) rfl a k

/-- A module whose lists of uncorrectable and of correctable words of T1 are replaced (R298). -/
def Module.withWords (m : Module) (bad soft : KMap (Nat × Nat)) : Module := { m with tier.badWords := bad, tier.softWords := soft }

theorem t1Found_withWords (m : Module) (found : List T1Finding) : ∃ bad soft, m.t1Found found = m.withWords bad soft := t1Found_keep ..

theorem withWords_load (m : Module) (bad soft : KMap (Nat × Nat)) (a k : Nat) : (m.withWords bad soft).load? a k = m.load? a k :=
  load_same (m := m) (m' := m.withWords bad soft) (fun _ _ => rfl) (fun _ _ => rfl) rfl a k

theorem withWords_flitsFromRing (m : Module) (bad soft : KMap (Nat × Nat)) (die route : Nat) :
    (m.withWords bad soft).flitsFromRing die route = m.flitsFromRing die route :=
  flitsFromRing_same (m := m) (m' := m.withWords bad soft) rfl rfl rfl rfl rfl die route

/-- The data of a READ that fits one packet leaves its home die for one credit. -/
theorem readArrives {m : Module} {die route : Nat} {f : Flight} {rest : List Flight} {bs : List Byte}
    (hd : die < 64) (ht : takeFlight (ringSite die) route m.net.flights = some (f, rest))
    (flushed : (m.part f.part).flushing = false) (isOpen : m.netOpen f.part = true)
    (first : ∀ r ∈ m.tier.reqs, ¬(r.die = die ∧ r.route = f.route) ∧ r.id ≠ m.tier.ids + 1)
    (kind : hKind f.hdr = 4) (request : m.isRequest f.part f.route = true) (seq : hSeq f.hdr = kgetD 0 m.net.dieExpect f.route)
    (good : m.badRequest f.part die f.msg = false) (hop : fld f.msg 0 4 = 1) :
    let addr := fld f.msg 96 56
    let len := fld f.msg 160 22
    let reply := fld f.msg 16 14
    let pg := addr / pageBytes
    (m.page pg).tier ≠ 3 → ((m.page pg).tier = 2 → m.hostUp = true) → len ≤ 4096 → m.badIn addr len = none → m.load? addr len = some bs →
    0 < kgetD 0 m.net.dieCredits reply →
    m.takeArrival (ringSite die) route (fun f => hKind f.hdr = 4 && m.isRequest f.part route && f.op ≠ 2) = { m.readT1 addr len with
      net.flights := rest ++ [{ route := reply, part := f.part, hdr := mkHeader reply 0 ((flitsOf bs).length - 1) (kgetD 0 m.net.dieSeq reply) 0
                                payload := flitsOf bs, sites := packetSites ((flitsOf bs).length + 1) (m.flitsFromRing die reply) }]
      net.dieExpect := kput m.net.dieExpect f.route ((hSeq f.hdr + 1) % 256)
      net.dieSeq := kput m.net.dieSeq reply ((kgetD 0 m.net.dieSeq reply + 1) % 256)
      net.dieCredits := kput m.net.dieCredits reply (kgetD 0 m.net.dieCredits reply - 1)
      tier.ids := m.tier.ids + 1
      tier.pages := kset {} m.tier.pages pg ((m.page pg).heated len) } := by
  intro addr len reply pg pool host fits clean decoded credit
  have hok : (decide (hKind f.hdr = 4) && m.isRequest f.part route && decide (f.op ≠ 2)) = true := by
    rw [kind, ← takeFlight_route ht, request, show f.op = 1 from hop]
    decide
  have served := request_read (m := { m with net := m.net.taken f rest }) good isOpen first hop pool host (goodRequest_len good) fits clean
    ((load_net ..).trans decoded) credit
  have sites : ({ m with net := m.net.taken f rest } : Module).flitsFromRing die reply = m.flitsFromRing die reply :=
    flitsFromRing_same (m := m) (m' := { m with net := m.net.taken f rest }) rfl rfl rfl rfl rfl die reply
  subst pg addr len reply
  obtain ⟨_, _, _, _, _, _, _, _, e⟩ := readT1_keep m (fld f.msg 96 56) (fld f.msg 160 22)
  rw [takeArrival_request ht hok hd flushed isOpen kind request seq, served, sites, readT1_net, e]
  rfl

/-- Settles O29: what the reads at the die find replaces its lists of words, and the READ arrives on the module that has them. One packet of up
to 64 flits for one credit is the model's (log 21), and so is heat counted when the READ is accepted (log 49). -/
theorem readServed : Obligations.ReadServed := by
  unfold Obligations.ReadServed
  intro s die route found f rest bs hd ht flushed isOpen first kind request seq good hop m addr len reply pg n pool host fits clean decoded credit
  have run : doRead die route found s.m =
    m.takeArrival (ringSite die) route (fun f => hKind f.hdr = 4 && m.isRequest f.part route && f.op ≠ 2) := rfl
  obtain ⟨bad, soft, he⟩ : ∃ bad soft, m = s.m.withWords bad soft := t1Found_withWords ..
  clear_value m
  subst he
  have served := readArrives (m := s.m.withWords bad soft) hd ht flushed isOpen first kind request seq good hop pool host fits clean
    ((withWords_load ..).trans decoded) credit
  rw [withWords_flitsFromRing] at served
  exact onModule_same (run.trans served) (readT1_kept (s.m.withWords bad soft) addr len).2

/-! ## WRITE, its data, and WRITE_DONE (R280, R281, R329) -/

section Write

variable {m : Module} {die route : Nat} {f : Flight} {rest : List Flight} {r : TierReq} {l1 l2 : List TierReq}

/-- The request that takes the data of a route is the one that names it (R329). -/
theorem writerOn_of (reqs : m.tier.reqs = l1 ++ r :: l2) (others : ∀ x ∈ l1 ++ l2, ¬(x.die = die ∧ x.data = f.route)) (hdie : r.die = die)
    (hw : r.write = true) (hdata : r.data = f.route) (moving : r.phase = .moving) (open_ : r.pos < r.len) : m.writerOn die f.route = some r := by
  unfold Module.writerOn
  rw [reqs]
  refine findA (fun x hx => ?_) (by simp [hdie, hw, hdata, moving, open_])
  by_cases hd : x.die = die
  · have : x.data ≠ f.route := fun h => others x hx ⟨hd, h⟩
    simp [this]
  · simp [hd]

theorem arriveDie_data {p : Nat} (kind : hKind f.hdr = 0) (hsvc : die ≠ svcS) (notGrad : m.gradRouteAt p die f.route = none)
    (writer : m.writerOn die f.route = some r) (seq : hSeq f.hdr = kgetD 0 m.net.dieExpect f.route) :
    m.arriveDie p die f =
      some (({ m with net.dieExpect := kput m.net.dieExpect f.route ((hSeq f.hdr + 1) % 256) } : Module).writeDataAtDie die r f) := by
  unfold Module.arriveDie
  simp only [kind, hsvc, notGrad, writer, decide_false, Bool.false_and, Bool.false_eq_true, if_false]
  refine (if_neg (by decide)).trans ((if_neg (by decide)).trans ((if_pos trivial).trans ?_))
  exact congrArg some (inSeqDie_next seq (by rw [kind]; decide))

end Write

/-- A WRITE_DONE in sequence counts at its port (R329). -/
theorem arriveCore_done {m : Module} {p c i : Nat} {f : Flight} (kind : hKind f.hdr = 4) (recv : m.recvEndpoint c f.route = none)
    (data : m.winsAt c (fun w => w.dataRoute = f.route) = []) (pulls : m.winsAt c (fun w => w.pullIn = f.route) = [])
    (port : m.donePort c f.route = some i) (seq : hSeq f.hdr = kgetD 0 (m.core c).expects f.route) :
    m.arriveCore p c f =
      (m.modCore c (fun k => { k with expects := kput k.expects f.route ((hSeq f.hdr + 1) % 256) })).writeDoneAtCore c i f := by
  have notCredit : hKind f.hdr ≠ 3 := by rw [kind]; decide
  have key : seqKey f = f.route := if_neg notCredit
  unfold Module.arriveCore
  refine (if_neg notCredit).trans ?_
  simp only [recv, data, pulls, port, kind, ne_eq, not_true_eq_false, decide_false, Bool.false_and, Bool.false_eq_true, if_false, if_true]
  rw [Module.inSeqCore, key, if_neg (not_not_intro seq)]

/-- Settles O30. Heat counted when the WRITE is accepted is the model's (log 49), and so is the coding of a tile stored in part (log 51). -/
theorem writesServed : Obligations.WritesServed := by
  unfold Obligations.WritesServed
  intro s site route f rest ht flushed isOpen seqD expect
  have hroute : f.route = route := takeFlight_route ht
  refine ⟨?request, ?data, ?done⟩
  case request =>
    intro die hd hsite seq kind request good hop first addr len pg t1 still settled
    subst hsite
    refine onModule_same (f := doWrite die route) ((takeArrival_request ht ?_ hd flushed isOpen kind request seq).trans
      (request_write (m := { s.m with net := s.m.net.taken f rest }) good isOpen first hop t1 still settled)) rfl
    rw [kind, ← hroute, request, show f.op = 2 from hop]
    rfl
  case data =>
    intro die back r l1 l2 hd hsvc hsite seq kind notGrad reqs others hdie hpart hw hdata moving more hback hb0 bs pg t1 still inPage
    subst hsite
    have writer : s.m.writerOn die f.route = some r :=
      writerOn_of reqs (fun x hx h => (others x hx).1 ⟨h.1, .inr h.2⟩) hdie hw hdata moving more
    have taken : doWrite die route s.m = ({ s.m with net := s.m.net.taken f rest } : Module).writeDataAtDie die r f := by
      refine takeArrival_die ht ?_ hd flushed isOpen (arriveDie_data (m := { s.m with net.flights := rest }) kind hsvc notGrad writer seq)
      rw [kind, ← hroute, writer]
      rfl
    obtain ⟨⟨mem, cores, parts, pages, written, left, sent⟩, -⟩ := writeData_wrote (m := { s.m with net := s.m.net.taken f rest }) (f := f)
      (hpart ▸ isOpen) reqs (fun x hx => ⟨fun h => (others x hx).1 ⟨h.1.trans hdie, .inl h.2⟩, (others x hx).2⟩) hw moving hdie hback hb0
      (pg := pg) t1 still inPage rfl
    rw [putBytes_net] at mem
    refine completes_of (f := doWrite die route) rfl ?_
    rw [taken]
    simp only [settleIrq_tier, settleIrq_cores, settleIrq_parts, settleIrq_page, settleIrq_net]
    exact ⟨mem, fun raw => mem.trans (putBytes_mem (by rw [inPage]; exact raw)), cores, parts, pages, written, left, sent⟩
  case done =>
    intro c i k hc hsite hk kind recv data pulls port seq
    subst hsite
    have core : ({ s.m with net.flights := rest } : Module).core site = k := core_of hk
    refine onModule_same (f := doWriteDone site route) ((takeArrival_core ht ?_ hc flushed (netOpen_active isOpen)).trans
      ((arriveCore_done (m := { s.m with net.flights := rest }) kind recv data pulls port (by rw [core]; exact seq)).trans ?_)) rfl
    · rw [kind, ← hroute, port]
      rfl
    · rw [Module.writeDoneAtCore, modCore_modCore, Module.modCore, core]
      rfl

end Sys2Proof.Machine
end

section
/-! Epochs and moves of pages (R285 to R288, R298, R302). -/

namespace Sys2Proof.Machine

open Sys2Proof

/-! ## EPOCH_END (R285, R302) -/

theorem page_kmapv (m : Module) (f : Nat → Page → Page) (q : Nat) (h : f q {} = {}) :
    ({ m with tier.pages := kmapv f m.tier.pages } : Module).page q = f q (m.page q) := by
  show kgetD {} (kmapv f m.tier.pages) q = f q (kgetD {} m.tier.pages q)
  unfold kgetD
  rw [kget?_kmapv]
  cases kget? m.tier.pages q with
  | none => exact h.symm
  | some x => rfl

/-- The moves that start at an epoch's end at die `die`: demotions from T1, from T2, and promotions (R286). -/
def Module.movesStarted (m : Module) (die : Nat) : Module :=
  let one := m.demote die 1 4096 (m.movesAt die)
  let two := one.2.demote die 2 4096 one.1
  two.2.promote die two.1

theorem movesStarted_moved (m : Module) (die : Nat) : Moved die m (m.movesStarted die) :=
  ((demote_moved ..).trans (demote_moved ..)).trans (promote_moved ..)

theorem doEpochEnd_over {m : Module} {die : Nat} (home : die ∈ m.homes)
    (past : m.usPassed (kgetD 0 m.tier.epochAt die) (fld (m.mig die) 32 16) = true) :
    let t := m.movesStarted die
    doEpochEnd die m = { t with
      tier.pages := kmapv (fun pg x => if t.home? pg = some die then { x with heat := x.heat / 2 } else x) t.tier.pages
      tier.epochNo := kput t.tier.epochNo die (kgetD 0 t.tier.epochNo die + 1)
      tier.epochAt := kput t.tier.epochAt die t.now
      tier.migNow := kput t.tier.migNow die t.tier.migrate
      tier.lowNow := kput t.tier.lowNow die t.tier.lowWater } := by
  unfold doEpochEnd
  refine if_neg ?_
  rw [past, List.contains_iff_mem.2 home]
  decide

/-- The heat of a page once an epoch is over at die `die`. -/
theorem epochEnd_page {m : Module} {die : Nat} (home : die ∈ m.homes)
    (past : m.usPassed (kgetD 0 m.tier.epochAt die) (fld (m.mig die) 32 16) = true) (q : Nat) :
    let x := (m.movesStarted die).page q
    (doEpochEnd die m).page q = { x with heat := if m.home? q = some die then x.heat / 2 else x.heat } := by
  intro x
  rw [doEpochEnd_over home past]
  refine (page_kmapv (m.movesStarted die) _ q ?_).trans ?_
  · exact ite_self _
  · rw [(movesStarted_moved m die).home]
    by_cases h : m.home? q = some die
    · rw [if_pos h, if_pos h]
    · rw [if_neg h, if_neg h]

theorem epochEnd_completes {s : State} {die : Nat} (home : die ∈ s.m.homes)
    (past : s.m.usPassed (kgetD 0 s.m.tier.epochAt die) (fld (s.m.mig die) 32 16) = true) :
    Completes (.epochEnd die) s (fun m => m.tier.epochNo = kput s.m.tier.epochNo die (kgetD 0 s.m.tier.epochNo die + 1)
      ∧ m.tier.epochAt = kput s.m.tier.epochAt die s.m.now
      ∧ m.tier.migNow = kput s.m.tier.migNow die s.m.tier.migrate ∧ m.tier.lowNow = kput s.m.tier.lowNow die s.m.tier.lowWater
      ∧ m.tier.mem = s.m.tier.mem ∧ m.cores = s.m.cores ∧ m.parts = s.m.parts
      ∧ ∀ q, (m.page q).heat = (if s.m.home? q = some die then (s.m.page q).heat / 2 else (s.m.page q).heat)
        ∧ (m.page q).tier = (s.m.page q).tier ∧ (m.page q).written = (s.m.page q).written
        ∧ (fld (s.m.mig die) 60 1 = 0 → (m.page q).move = (s.m.page q).move)) := by
  have moved := movesStarted_moved s.m die
  refine completes_of (f := doEpochEnd die) rfl ?_
  simp only [settleIrq_tier, settleIrq_cores, settleIrq_parts, settleIrq_page, epochEnd_page home past]
  simp only [doEpochEnd_over home past, moved.epochNo, moved.epochAt, moved.now, moved.mig, moved.migrate, moved.low, moved.lowWater, moved.mem,
    moved.cores, moved.parts, true_and]
  intro q
  obtain ⟨heat, tier, written⟩ := moved.page q
  exact ⟨by rw [heat], tier, written, fun hz => moved.off hz q⟩

/-! ## MOVE_TILE_COPIED (R287, R298) -/

/-- What a read of T1, or what it finds there, leaves alone: the pages and their bytes, the objects, the cores and the partitions (R298). -/
structure Reads (m m' : Module) : Prop where
  page : m'.page = m.page
  mem : m'.tier.mem = m.tier.mem
  objects : m'.tier.objects = m.tier.objects
  t2Base : m'.tier.t2Base = m.tier.t2Base
  host : m'.hostUp = m.hostUp
  cores : m'.cores = m.cores
  parts : m'.parts = m.parts
  watched : m'.watched = m.watched

theorem Reads.trans {a b c : Module} (h : Reads a b) (g : Reads b c) : Reads a c :=
  ⟨g.page.trans h.page, g.mem.trans h.mem, g.objects.trans h.objects, g.t2Base.trans h.t2Base, g.host.trans h.host, g.cores.trans h.cores,
    g.parts.trans h.parts, g.watched.trans h.watched⟩

theorem t1Found_reads (m : Module) (found : List T1Finding) : Reads m (m.t1Found found) := by
  obtain ⟨_, _, e⟩ := t1Found_keep m found
  rw [e]
  exact ⟨rfl, rfl, rfl, rfl, rfl, rfl, rfl, rfl⟩

theorem readT1_reads (m : Module) (a n : Nat) : Reads m (m.readT1 a n) := by
  obtain ⟨_, _, _, _, _, _, _, _, e⟩ := readT1_keep m a n
  rw [e]
  exact ⟨rfl, rfl, rfl, rfl, rfl, rfl, rfl, rfl⟩

theorem t1Unc_reads (m : Module) (stack row : Nat) : Reads m (m.t1Unc stack row) := by
  unfold Module.t1Unc Module.dueTest
  split <;> exact ⟨rfl, rfl, rfl, rfl, rfl, rfl, rfl, rfl⟩

theorem Reads.objOf {m m' : Module} (h : Reads m m') (pg : Nat) : m'.objOf pg = m.objOf pg := by
  unfold Module.objOf Module.objAt
  rw [h.objects]

/-- A tile in stored form, where its page goes on with its move, is what it was before the read. -/
theorem Reads.slot {m m' : Module} (h : Reads m m') (pg t : Nat) (v : Option Move) :
    (m'.setPage pg { m.page pg with move := v }).slot pg t = m.slot pg t := by
  have page : (m'.setPage pg { m.page pg with move := v }).page pg = { m.page pg with move := v } := Module.setPage_page ..
  have packed : (m'.setPage pg { m.page pg with move := v }).packed pg t = m.packed pg t := by
    unfold Module.packed
    rw [page, show (m'.setPage pg { m.page pg with move := v }).objOf pg = m'.objOf pg from rfl, h.objOf]
  have mem : (m'.setPage pg { m.page pg with move := v }).tier.mem = m.tier.mem := h.mem
  unfold Module.slot Module.storedLen
  rw [packed, mem]

theorem Reads.t2Addr {m m' : Module} (h : Reads m m') (pg t : Nat) (v : Option Move) :
    (m'.setPage pg { m.page pg with move := v }).t2Addr pg t = m.t2Addr pg t := by
  have page : (m'.setPage pg { m.page pg with move := v }).page pg = { m.page pg with move := v } := Module.setPage_page ..
  have base : (m'.setPage pg { m.page pg with move := v }).tier.t2Base = m.tier.t2Base := h.t2Base
  unfold Module.t2Addr
  rw [page, base]

section Copy

variable {m : Module} {pg t : Nat} {v : Move} {found : List T1Finding} (hv : (m.page pg).move = some v)
  (ht : (List.range 32).find? (fun t => v.next ≤ t && bitAt (m.page pg).written t) = some t)

include hv ht

/-- The next written tile is copied, as one write of the host where it goes to T2. -/
theorem doMoveTileCopied_copies (pool : (m.page pg).tier ≠ 3) (pool' : v.dest ≠ 3) (host : (m.page pg).tier = 2 ∨ v.dest = 2 → m.hostUp = true)
    (clean : (m.t1Found found).badIn (slotAddr pg t) tileBytes = none) :
    let done := ((m.t1Found found).readT1 (slotAddr pg t) tileBytes).setPage pg { m.page pg with move := some { v with next := t + 1 } }
    doMoveTileCopied pg false found m = if v.dest = 2 then done.emit (.hostWrite (m.t2Addr pg t) (m.slot pg t)) else done := by
  intro done
  have reads := (t1Found_reads m found).trans (readT1_reads (m.t1Found found) (slotAddr pg t) tileBytes)
  unfold doMoveTileCopied
  simp only [hv, ht, clean, (t1Found_reads m found).page, reads.host, Bool.false_and, Bool.false_eq_true, if_false]
  rw [if_neg (by simpa using fun h => host h), if_neg (by simp [pool, pool'])]
  refine ite_congr rfl (fun _ => ?_) (fun _ => rfl)
  show (done.emit (.hostWrite (done.t2Addr pg t) (done.slot pg t))) = _
  rw [reads.t2Addr, reads.slot]

/-- An uncorrectable word, or a failure of the remote side, abandons the move. -/
theorem doMoveTileCopied_abandons {failed : Bool} (bad : (m.t1Found found).badIn (slotAddr pg t) tileBytes ≠ none
      ∨ (failed = true ∧ ((m.page pg).tier ≠ 1 ∨ v.dest ≠ 1))) :
    ∃ m' code sub detail, Reads m m' ∧ doMoveTileCopied pg failed found m = m'.abandonMove pg code sub detail := by
  have reads := t1Found_reads m found
  unfold doMoveTileCopied
  simp only [hv, ht, reads.page]
  cases hb : (m.t1Found found).badIn (slotAddr pg t) tileBytes with
  | some e => exact ⟨_, _, _, _, reads.trans (t1Unc_reads ..), rfl⟩
  | none =>
    obtain ⟨hf, remote⟩ := bad.resolve_left (fun h => h hb)
    refine ⟨_, _, 0, 0, reads.trans (readT1_reads ..), if_pos ?_⟩
    simpa [hf] using remote

end Copy

/-- An abandoned move leaves cores and partitions as they were. -/
theorem abandonMove_kept (m : Module) (pg code sub detail : Nat) :
    (m.abandonMove pg code sub detail).cores = m.cores ∧ (m.abandonMove pg code sub detail).parts = m.parts := by
  unfold Module.abandonMove
  obtain ⟨_, _, _, e⟩ := logEvent_keep (m.stopMove pg false) code { Loc.ring ((m.home? pg).getD 0) with sub := sub } none 0 detail
  rw [e]
  unfold Module.stopMove
  dsimp only
  split <;> exact ⟨rfl, rfl⟩

theorem moveTileCopied_abandons {s : State} {pg t : Nat} {v : Move} {found : List T1Finding} {failed : Bool} (hv : (s.m.page pg).move = some v)
    (ht : (List.range 32).find? (fun t => v.next ≤ t && bitAt (s.m.page pg).written t) = some t)
    (bad : (s.m.t1Found found).badIn (slotAddr pg t) tileBytes ≠ none ∨ (failed = true ∧ ((s.m.page pg).tier ≠ 1 ∨ v.dest ≠ 1))) :
    Completes (.moveTileCopied pg ⟨failed, found⟩) s (fun m => m.tier.mem = s.m.tier.mem ∧ m.cores = s.m.cores ∧ m.parts = s.m.parts
      ∧ m.page pg = { s.m.page pg with move := none }.settled (s.m.objOf pg).2.slow ∧ ∀ q, q ≠ pg → m.page q = s.m.page q) := by
  obtain ⟨m', code, sub, detail, reads, run⟩ := doMoveTileCopied_abandons hv ht bad
  obtain ⟨pages, mem, -, -⟩ := abandon_page m' pg code sub detail v (by rw [reads.page]; exact hv)
  obtain ⟨cores, parts⟩ := abandonMove_kept m' pg code sub detail
  refine completes_of (f := doMoveTileCopied pg failed found) rfl ?_
  simp only [settleIrq_tier, settleIrq_cores, settleIrq_parts, settleIrq_page, run, pages, mem, cores, parts, reads.mem, reads.cores, reads.parts,
    reads.page, reads.objOf]
  exact ⟨trivial, trivial, trivial, if_pos trivial, fun q hq => if_neg hq⟩

/-! ## MOVE_COMPLETE (R287, R304) -/

theorem doMoveComplete_last {m : Module} {pg p i : Nat} {v : Move} {o : TierObj} (hv : (m.page pg).move = some v)
    (ho : m.objAt pg = some (4096 * p + i, o)) (hi : i < 4096) (copied : ∀ t, t < 32 → v.next ≤ t → bitAt (m.page pg).written t = false)
    (answered : v.open_ = 0) : doMoveComplete pg m = { m with
      tier.pages := kset {} m.tier.pages pg { m.page pg with
        tier := v.dest, move := none
        t2 := if v.dest = 2 || o.slow = 2 then (m.page pg).t2 else none
        pool := if v.dest = 3 || o.slow = 3 then (m.page pg).pool else none }
      tier.badWords := m.tier.badWords.filter (fun e => 32 * e.1 / pageBytes ≠ pg)
      tier.softWords := m.tier.softWords.filter (fun e => 32 * e.1 / pageBytes ≠ pg)
      parts := kput m.parts p (if v.dest < (m.page pg).tier then { m.part p with promos := satN 32 ((m.part p).promos + 1) }
        else { m.part p with demos := satN 32 ((m.part p).demos + 1) }) } := by
  have none_left : (List.range 32).any (fun t => v.next ≤ t && bitAt (m.page pg).written t) = false := by
    simpa only [List.any_eq_false, List.mem_range, Bool.and_eq_true, decide_eq_true_eq, not_and, Bool.not_eq_true] using copied
  have owner : m.ownerOf pg = p := by
    unfold Module.ownerOf
    rw [ho]
    show (4096 * p + i) / 4096 = p
    omega
  have slow : (m.objOf pg).2.slow = o.slow := by
    unfold Module.objOf
    rw [ho]
    rfl
  unfold doMoveComplete
  simp only [hv, none_left, answered, slow]
  refine (if_neg (by decide)).trans ?_
  refine (congrArg (fun p => Module.modPart _ p _) owner).trans ?_
  rfl

/-- Settles O31: an epoch's end by what the start of moves leaves (`Moved`), a copied tile by what its read of T1 leaves (`Reads`). That a tile
for T2 is one write of the host is the model's choice (log 99). -/
theorem epochsAndMoves : Obligations.EpochsAndMoves := by
  unfold Obligations.EpochsAndMoves
  intro s
  refine ⟨fun die home past => epochEnd_completes home past, ?tile, ?last⟩
  case tile =>
    intro pg t v found hv ht pool pool' host m done
    refine ⟨fun clean => ?copied, fun failed bad => moveTileCopied_abandons hv ht bad⟩
    refine onModule_same (f := doMoveTileCopied pg false found) ((doMoveTileCopied_copies hv ht pool pool' host clean).trans rfl) ?_
    split
    · exact ((readT1_reads ..).watched.trans (t1Found_reads ..).watched)
    · exact ((readT1_reads ..).watched.trans (t1Found_reads ..).watched)
  case last =>
    intro pg p i v o hv ho hi copied answered
    exact onModule_of (f := doMoveComplete pg) (doMoveComplete_last hv ho hi copied answered)

end Sys2Proof.Machine
end

section
/-! What runs behind the work in memory (R297 to R300, R501): ECC write-back, scrubs, refresh, the activation guard, and targeted self-tests. -/

namespace Sys2Proof.Machine

open Sys2Proof

/-! ## T0 (R297, R299) -/

section T0

variable {m : Module} {c w : Nat} {k : Core} (hk : kget? m.cores c = some k)

include hk

theorem doEccWriteback_soft (soft : w ∈ k.softWords) :
    doEccWriteback c w m = m.setCore c { k with softWords := k.softWords.filter (· ≠ w) } := by
  have core := core_of hk
  unfold doEccWriteback
  rw [core, if_pos (List.contains_iff_mem.2 soft), Module.modCore, core]

theorem t0Next_more (more : k.scrubNext + 1 < 40960) : m.t0Next c = m.setCore c { k with scrubNext := k.scrubNext + 1 } := by
  unfold Module.t0Next
  rw [core_of hk]
  exact if_pos more

variable (serving : m.serving = true) (powered : m.powered c = true) (turn : w / 2 = k.scrubNext) (more : k.scrubNext + 1 < 40960)

include serving powered turn more

theorem doT0Scrub_clean : doT0Scrub c w .clean m = m.setCore c { k with scrubNext := k.scrubNext + 1 } := by
  unfold doT0Scrub
  rw [serving, powered, core_of hk, turn, t0Next_more hk more]
  exact if_neg (by simp)

/-- A correctable error waits for its bank's write-back, and is counted (R297, R299). -/
theorem doT0Scrub_corrected : doT0Scrub c w .corrected m = (m.setCore c { k with
    scrubNext := k.scrubNext + 1
    softWords := if k.softWords.contains w then k.softWords else k.softWords ++ [w] }).t0Corrected c w := by
  unfold doT0Scrub
  rw [serving, powered, core_of hk, turn, t0Next_more hk more]
  refine (if_neg (by simp)).trans (congrArg (fun m : Module => m.t0Corrected c w) ?_)
  rw [Module.modCore, Module.setCore_core, Module.setCore, Module.setCore, kput_kput]
  by_cases h : k.softWords.contains w = true
  · rw [if_pos h, if_pos h]
    rfl
  · rw [if_neg h, if_neg h]
    rfl

end T0

theorem t0Corrected_count (m : Module) (c w : Nat) : (m.t0Corrected c w).tier.eccT0Corr = satN 32 (m.tier.eccT0Corr + 1) := by
  obtain ⟨_, _, _, _, _, _, e⟩ := corrected_keep { m with tier.eccT0Corr := satN 32 (m.tier.eccT0Corr + 1) } (t0Key c (w / 2)) (t0Loc c w)
    (m.partOfCore c) (w / 40)
  unfold Module.t0Corrected
  rw [e]

theorem t0Corrected_core (m : Module) (c w d : Nat) : (m.t0Corrected c w).core d = m.core d := by
  unfold Module.core
  rw [(t0Corrected_quiet ..).cp.1]

/-! ## T1 (R298, R299) -/

section T1

variable {m : Module} {die stack row idx : Nat} {word : Place} (serving : m.serving = true) (up : m.stackUp stack = true)
  (hdie : die = (t1Loc stack).idx) (turn : idx = kgetD 0 m.tier.t1At stack) (more : idx + 1 < 3 * 2 ^ 30)

include serving up hdie turn more

theorem doT1Scrub_clean : doT1Scrub die stack row idx word .clean m = { m with tier.t1At := kput m.tier.t1At stack (idx + 1) } := by
  unfold doT1Scrub
  rw [serving, up, ← hdie, ← turn]
  exact (if_neg (by simp)).trans (if_pos more)

theorem doT1Scrub_corrected : doT1Scrub die stack row idx word .corrected m =
    ({ m with tier.t1At := kput m.tier.t1At stack (idx + 1) } : Module).t1Corrected stack row := by
  unfold doT1Scrub
  rw [serving, up, ← hdie, ← turn]
  exact (if_neg (by simp)).trans (congrArg (fun m : Module => m.t1Corrected stack row) (if_pos more))

end T1

theorem t1Corrected_count (m : Module) (stack row : Nat) : let t := m.t1Corrected stack row
    t.tier.eccT1Corr = satN 32 (m.tier.eccT1Corr + 1) ∧ t.tier.t1At = m.tier.t1At ∧ t.tier.mem = m.tier.mem := by
  obtain ⟨_, _, _, _, _, _, e⟩ := corrected_keep { m with tier.eccT1Corr := satN 32 (m.tier.eccT1Corr + 1) } (t1Key stack row) (t1Loc stack)
    none row
  intro t
  rw [show t = _ from e]
  exact ⟨rfl, rfl, rfl⟩

/-! ## Targeted self-tests (R300) -/

section SelfTest

variable {m : Module} {l : EccLoc} {failed : Bool} (due : (m.eccPlace l).1 ∈ m.tier.tests)

include due

theorem doTargetedSelfTest_due : let t := { m with tier.tests := m.tier.tests.filter (· ≠ (m.eccPlace l).1) }
    doTargetedSelfTest l failed m = if failed || 2 ≤ kgetD 0 m.tier.eccSeen (m.eccPlace l).1 then
      (t.logEvent 0x0403 (m.eccPlace l).2.1).retireLater (m.eccPlace l).2.2 else t := by
  unfold doTargetedSelfTest
  exact if_pos (List.contains_iff_mem.2 due)

theorem targetedSelfTest_ends : let t := doTargetedSelfTest l failed m
    t.tier.tests = m.tier.tests.filter (· ≠ (m.eccPlace l).1) ∧ t.cores = m.cores ∧ t.parts = m.parts
    ∧ (failed = true → (m.eccPlace l).2.2 ∈ t.topo.retire)
    ∧ (failed = false → kgetD 0 m.tier.eccSeen (m.eccPlace l).1 < 2 → t.topo = m.topo) := by
  intro t
  have run : t = _ := doTargetedSelfTest_due due
  obtain ⟨_, _, _, logged⟩ := logEvent_keep { m with tier.tests := m.tier.tests.filter (· ≠ (m.eccPlace l).1) } 0x0403 (m.eccPlace l).2.1 none 0 0
  rw [run]
  split
  · rename_i fails
    rw [logged, Module.retireLater_eq]
    refine ⟨rfl, rfl, rfl, fun _ => Module.retired_new (List.mem_singleton_self _), fun hf few => ?_⟩
    rw [hf, decide_eq_false (Nat.not_le.2 few)] at fails
    cases fails
  · rename_i passes
    refine ⟨rfl, rfl, rfl, fun hf => absurd ?_ passes, fun _ _ => rfl⟩
    rw [hf]
    rfl

end SelfTest

/-- Settles O32, activity by activity: each is one case of its operation. -/
theorem tierUpkeep : Obligations.TierUpkeep := by
  unfold Obligations.TierUpkeep
  intro s
  refine ⟨fun c w k hk soft => ?writeback, fun c w k hk serving powered turn more => ⟨?t0, ?t0Corrected⟩,
    fun die stack row idx word serving up hdie turn more => ⟨?t1, ?t1Corrected⟩, fun stack => ?refresh, fun stack row up => ?guard,
    fun l failed due => ?test⟩
  case writeback => exact onModule_same (f := doEccWriteback c w) (doEccWriteback_soft hk soft) rfl
  case t0 => exact onModule_same (f := doT0Scrub c w .clean) (doT0Scrub_clean hk serving powered turn more) rfl
  case t0Corrected =>
    refine completes_of (f := doT0Scrub c w .corrected) rfl ?_
    simp only [settleIrq_core, settleIrq_tier, doT0Scrub_corrected hk serving powered turn more, t0Corrected_count, t0Corrected_core,
      Module.setCore_core, Module.setCore_tier, and_true]
    split
    · exact List.contains_iff_mem.1 ‹_›
    · exact List.mem_append_right _ (List.mem_singleton_self w)
  case t1 => exact onModule_same (f := doT1Scrub die stack row idx word .clean) (doT1Scrub_clean serving up hdie turn more) rfl
  case t1Corrected =>
    refine completes_of (f := doT1Scrub die stack row idx word .corrected) rfl ?_
    simp only [settleIrq_tier, doT1Scrub_corrected serving up hdie turn more]
    obtain ⟨count, at_, mem⟩ := t1Corrected_count { s.m with tier.t1At := kput s.m.tier.t1At stack (idx + 1) } stack row
    exact ⟨at_, count, mem⟩
  case refresh => exact onModule_same (f := doT1Refresh stack) rfl rfl
  case guard => exact onModule_same (f := doActivationGuard stack row) (if_pos up) rfl
  case test =>
    refine completes_of (f := doTargetedSelfTest l failed) rfl ?_
    simp only [settleIrq_tier, settleIrq_cores, settleIrq_parts, settleIrq_topo]
    exact targetedSelfTest_ends due

end Sys2Proof.Machine
end

section
/-! The pool's answers to a move (R287, R292, R313). -/

namespace Sys2Proof.Machine

open Sys2Proof

/-! ## A tile put in its slot -/

/-- A page once slot `t` of it holds a written tile, in the raw form or not (R290). -/
def Page.marked (x : Page) (t : Nat) (raw : Bool) : Page :=
  { x with written := setMask x.written t true, rawMask := setMask x.rawMask t raw }

theorem putSlot_page (m : Module) (pg t : Nat) (stored : List Byte) (raw : Bool) (q : Nat) :
    (m.putSlot pg t stored raw).page q = if q = pg then (m.page pg).marked t raw else m.page q := page_setPage ..

theorem putSlot_mem (m : Module) (pg t : Nat) (stored : List Byte) (raw : Bool) :
    (m.putSlot pg t stored raw).tier.mem = writeBytes m.tier.mem (slotAddr pg t) stored := rfl

/-- The stored form of a tile of the pool for slot `t` of a page of object `o`, and whether it is raw; none where it has none (R292, R295). -/
def storedForm (o : TierObj) (oi pg t : Nat) (payload : List Byte) : Option (List Byte × Bool) :=
  let read := readTransit o.width oi (pg - o.base) t payload
  match transitParts payload with
  | none => none
  | some (hdr, body) =>
    if read.isNone && !o.compress then none
    else if bodyLenOf hdr = tileBytes then some (body, true)
    else if o.compress then some (hdr ++ body, false)
    else read.map (fun r => (r.1, true))

/-- A tile for a move is put in its place in stored form, with no recoding (R287). -/
theorem poolTile_move {m : Module} {pg t oi : Nat} {o : TierObj} (ho : m.objAt pg = some (oi, o)) (payload : List Byte) :
    m.poolTile pg t payload false = (storedForm o oi pg t payload).map (fun r => m.putSlot pg t r.1 r.2) := by
  unfold Module.poolTile storedForm
  simp only [ho]
  cases transitParts payload with
  | none => rfl
  | some parts =>
    obtain ⟨hdr, body⟩ := parts
    simp only [Bool.false_or]
    cases readTransit o.width oi (pg - o.base) t payload <;>
      (split
       · rfl
       · split
         · rfl
         · split <;> rfl)

/-! ## Answers to a move -/

/-- A tile that may go to the host as well changes only what is sent. -/
theorem toHost_out (m : Module) (pg t : Nat) (b : Prop) [Decidable b] : ∃ out, (if b then m.toHost pg [t] else m) = { m with out := out } := by
  split
  · exact ⟨_, rfl⟩
  · exact ⟨m.out, rfl⟩

section Move

variable {m : Module} {op : PoolOp} {pg : Nat} {v : Move} (hv : (m.page pg).move = some v)

include hv

/-- A page with one answer of the pool fewer to wait for. -/
theorem moveAnswer_ack : m.moveAnswer op pg 0 none = m.setPage pg { m.page pg with move := some { v with open_ := v.open_ - 1 } } := by
  unfold Module.moveAnswer
  simp only [hv]
  rfl

theorem moveAnswer_refused {status : Nat} (h : status ≠ 0) (payload : Option (List Byte)) :
    m.moveAnswer op pg status payload = m.abandonMove pg 0x0202 := by
  unfold Module.moveAnswer
  simp only [hv]
  exact if_pos h

variable {pg' t oi : Nat} {o : TierObj} (place : m.placeOfPool op.addr = some (pg', t)) (ho : m.objAt pg = some (oi, o))

include place ho

theorem moveAnswer_unstored {payload : List Byte} (none_ : storedForm o oi pg t payload = none) :
    m.moveAnswer op pg 0 (some payload) = m.abandonMove pg 0x0203 := by
  unfold Module.moveAnswer
  simp only [hv, place, poolTile_move ho, none_]
  rfl

/-- The tile of a move stands in its slot, and went to the host as well where the page moves to T2. -/
theorem moveAnswer_stored {payload bs : List Byte} {raw : Bool} (stored : storedForm o oi pg t payload = some (bs, raw)) :
    ∃ out, m.moveAnswer op pg 0 (some payload) = ({ m.putSlot pg t bs raw with out := out } : Module).setPage pg
      { (m.page pg).marked t raw with move := some { v with open_ := v.open_ - 1 } } := by
  obtain ⟨out, sent⟩ := toHost_out (m.putSlot pg t bs raw) pg t (((m.putSlot pg t bs raw).page pg).move.any (fun v => v.dest = 2) = true)
  have put : ({ m.putSlot pg t bs raw with out := out } : Module).page pg = (m.page pg).marked t raw := (putSlot_page ..).trans (if_pos rfl)
  refine ⟨out, ?_⟩
  rw [← put]
  unfold Module.moveAnswer
  simp only [hv, place, poolTile_move ho, stored, Option.map_some, sent]
  exact if_neg (not_not_intro rfl)

end Move

/-- What an abandoned move leaves, of pages, bytes and transfers. -/
theorem abandoned_completes {i : Instr} {s : State} {f : Module → Module} {m : Module} {pg code : Nat} {v : Move} (hi : exec i s = onModule s f)
    (hf : f s.m = m.abandonMove pg code) (hv : (m.page pg).move = some v) (pages : m.page = s.m.page) (objOf : m.objOf pg = s.m.objOf pg)
    (mem : m.tier.mem = s.m.tier.mem) : Completes i s (fun t => t.page pg = { s.m.page pg with move := none }.settled (s.m.objOf pg).2.slow
      ∧ (∀ q, q ≠ pg → t.page q = s.m.page q) ∧ t.tier.mem = s.m.tier.mem ∧ t.str = m.str) := by
  obtain ⟨page, mem', str, -⟩ := abandon_page m pg code 0 0 v hv
  rw [pages, objOf] at page
  refine completes_of hi ?_
  simp only [settleIrq_page, settleIrq_tier, settleIrq_str, hf]
  exact ⟨(page pg).trans (if_pos rfl), fun q hq => (page q).trans (if_neg hq), mem'.trans mem, str⟩

/-! ## The commands -/

/-- A module in which a POOL_READ, or a POOL_WRITE, has its answer (R313). -/
def Module.readAnswered (m : Module) (op : PoolOp) : Module := { m with str.poolReads := m.str.poolReads.filter (fun o => o.id ≠ op.id) }
def Module.writeAnswered (m : Module) (op : PoolOp) : Module := { m with str.poolWrites := m.str.poolWrites.filter (fun o => o.id ≠ op.id) }

/-- An answer to a move's transfer goes to the move. -/
theorem poolDone_move {m : Module} {op : PoolOp} {pg status : Nat} {payload : Option (List Byte)} (owner : op.owner = .move pg) :
    m.poolDone op status payload = m.moveAnswer op pg status payload := by
  unfold Module.poolDone
  rw [owner]

theorem doPoolAck_move {m : Module} {port mac pg : Nat} {msg : List Byte} {op : PoolOp} (ok : pspOk msg = true) (type : leAt msg 1 1 = 7)
    (oldest : m.str.poolWrites.find? (fun o => o.port = port) = some op) (owner : op.owner = .move pg) :
    doPoolAck port mac msg m =
      (m.writeAnswered op).moveAnswer op pg (leAt msg 20 2) none := by
  unfold doPoolAck
  rw [ok, type, oldest]
  exact (if_neg (by decide)).trans (poolDone_move owner)

theorem doPoolData_move {m : Module} {k : Chunk} {pg : Nat} {op : PoolOp} (ok : pspOk k.upper = true) (type : leAt k.upper 1 1 = 5)
    (oldest : m.str.poolReads.find? (fun o => o.port = k.port) = some op) (owner : op.owner = .move pg)
    (status : fld (leNat (k.upper.take 32)) 160 16 = 0) :
    doPoolData k m =
      (m.readAnswered op).moveAnswer op pg 0 (some k.payload) := by
  unfold doPoolData Module.poolChunk
  rw [ok, type, oldest, status]
  exact (if_neg (by decide)).trans (poolDone_move owner)

theorem doPoolTimeout_move {m : Module} {port pg : Nat} {op : PoolOp} {v : Move} (late : m.str.poolReads.find? (m.poolLate port) = some op)
    (owner : op.owner = .move pg) (hv : (m.page pg).move = some v) : doPoolTimeout port m =
      (m.readAnswered op).abandonMove pg 0x0202 := by
  unfold doPoolTimeout
  rw [late]
  dsimp only
  unfold Module.poolFail Module.failTransfer
  rw [owner]
  exact if_pos (congrArg Option.isSome hv)

/-- Settles O36: an answer goes to the move of its transfer, which goes on or is abandoned. -/
theorem poolAnswers : Obligations.PoolAnswers := by
  unfold Obligations.PoolAnswers
  intro s port pg op v owner hv given
  refine ⟨fun mac msg ok type oldest => ⟨fun status => ?acked, fun status => ?refused⟩,
    fun k pg' t o oi hport ok type oldest status place ho => ⟨fun unstored => ?unstored, fun bs raw stored => ?stored⟩, fun late => ?late⟩
  case acked =>
    refine onModule_same (f := doPoolAck port mac msg) ((doPoolAck_move ok type oldest owner).trans ?_) rfl
    rw [status]
    exact moveAnswer_ack hv
  case refused =>
    obtain ⟨t, run, pending, page, others, mem, -⟩ := abandoned_completes (i := .poolAck port mac msg) (f := doPoolAck port mac msg) rfl
      ((doPoolAck_move ok type oldest owner).trans (moveAnswer_refused (m := s.m.writeAnswered op) hv status none)) hv rfl rfl rfl
    exact ⟨t, run, pending, page, others, mem⟩
  case unstored =>
    subst hport
    obtain ⟨t, run, pending, page, others, mem, -⟩ := abandoned_completes (i := .poolData k) (f := doPoolData k) rfl
      ((doPoolData_move ok type oldest owner status).trans (moveAnswer_unstored (m := s.m.readAnswered op) hv place ho unstored)) hv rfl rfl rfl
    exact ⟨t, run, pending, page, others, mem⟩
  case stored =>
    subst hport
    obtain ⟨out, answered⟩ := moveAnswer_stored (m := s.m.readAnswered op) hv place ho
      stored
    refine completes_of (f := doPoolData k) rfl ?_
    simp only [settleIrq_page, settleIrq_tier, settleIrq_str, (doPoolData_move ok type oldest owner status).trans answered]
    refine ⟨rfl, (page_setPage ..).trans (if_pos rfl), fun q hq => (page_setPage ..).trans ((if_neg hq).trans ?_), rfl⟩
    exact (putSlot_page ..).trans (if_neg hq)
  case late =>
    obtain ⟨t, run, pending, page, others, mem, str⟩ := abandoned_completes (i := .poolTimeout port) (f := doPoolTimeout port) rfl
      (doPoolTimeout_move late owner hv) hv rfl rfl rfl
    exact ⟨t, run, pending, page, others, mem, congrArg Str.poolReads str⟩

end Sys2Proof.Machine
end

section
/-! DATA (R290, R295, R311, R321): a tile of a stream written to its feeder's stage, and the tiles that abort the task. -/

namespace Sys2Proof.Machine

open Sys2Proof

/-! ## A DATA chunk is one tile of its section -/

section Chunk

variable {m : Module} {k : Chunk} {key : Nat}

theorem doData_dataTile (ok : pspOk k.upper = true) (type : leAt k.upper 1 1 = 2) (notLaunching : m.launching = false) :
    let h := leNat (k.upper.take 32)
    fld h 160 16 = 0 → m.flowOf (fld h 32 32) false = some key → 0 < fld h 128 32 → fld h 96 32 % 16 = 0 → fld h 128 32 % 16 = 0 →
    16 * k.chunk < fld h 128 32 →
    doData k m = (m.dataTile key (fld h 64 16) (fld h 80 4) (fld h 96 32 + 16 * k.chunk) k.payload).1 := by
  intro h status flow some_ unit count inside
  have checked : m.dataChunk key k = m.dataTile key (fld h 64 16) (fld h 80 4) (fld h 96 32 + 16 * k.chunk) k.payload := by
    unfold Module.dataChunk
    refine if_neg ?_
    subst h
    simp [Nat.ne_of_gt some_, unit, count, inside]
  have sent : m.pspData k = m.dataChunk key k := by
    unfold Module.pspData
    simp only [notLaunching, Bool.false_and, Bool.false_eq_true, if_false]
    rw [flow]
    exact if_neg (not_not_intro status)
  unfold doData pspType
  rw [ok, type]
  refine (if_neg (by decide)).trans ?_
  rw [sent, checked]

end Chunk

/-- A PULL names units of its own section only. -/
theorem pullNames_section {m : Module} {p src sect u : Nat} {f : Flow} {x : Pull} (named : m.pullNames p f src sect u x = true) : x.key % 16 = sect := by
  unfold Module.pullNames at named
  simp only [Bool.and_eq_true, decide_eq_true_eq] at named
  obtain ⟨⟨⟨section_, -⟩, -⟩, -⟩ := named
  exact section_

/-- With no child to serve and no pull of a window, a RESIDENT stage has nothing to do once its filled PULLs are closed. -/
theorem closePulls_quiet {m : Module} {key : Nat} (children : (m.flow key).children = []) (resident : (m.flow key).resident = true)
    (idle : m.str.winPulls = []) (p d : Nat) : ((m.closePulls key).serveChildren p key).feed p key d = m.closePulls key := by
  obtain ⟨f', closed, -, children', resident'⟩ := closePulls_eq m key
  have served : (m.closePulls key).serveChildren p key = m.closePulls key := by
    unfold Module.serveChildren
    rw [closed, Module.setFlow_flow, children', children]
    rfl
  rw [served, closed]
  exact feed_idle _ _ _ idle (by rw [Module.setFlow_flow, resident', resident])

/-! ## Tiles that abort the task (R311) -/

section Tile

variable {m : Module} {key src sect u : Nat} {f : Flow} {x : Pull} {payload : List Byte} (hf : kget? m.str.flows key = some f)

include hf

theorem dataTile_unnamed (pulls : f.pulls = []) (forgot : f.forgot = []) (sects : f.sects = []) :
    (m.dataTile key src sect u payload).1 = m.abortTask (key / 256) 0x0204 (.ring f.portDie) := by
  unfold Module.dataTile
  simp only [flow_of hf, pulls, forgot, sects]
  rfl

variable (pulls : f.pulls = [x]) (named : m.pullNames (key / 256) f src sect u x = true)

include pulls named

theorem dataTile_failed (failed : readTransit (m.layer (key / 256) (f.layerNo (x.key / 16))).width 0xFFFF src (u / 16 % 32) payload = none) :
    (m.dataTile key src sect u payload).1 = m.abortTask (key / 256) 0x0203 (.ring f.portDie) := by
  have first : f.pulls.find? (m.pullNames (key / 256) f src sect u) = some x := by rw [pulls, List.find?_cons_of_pos named]
  unfold Module.dataTile
  simp only [flow_of hf, first, failed]

/-! ## A tile that is stored (R290, R321) -/

/-- A flow whose one outstanding PULL `x` has had data at time `now` (R311). -/
def Flow.heard (f : Flow) (x : Pull) (now : Nat) : Flow := { f with pulls := [{ x with last := now }] }

/-- The one outstanding PULL has had data now, and what its tile leaves is what storing it leaves, with the PULL closed once it is filled. -/
theorem dataTile_stored {r : List Byte × Bool} {sec : Section} {m' : Module}
    (read : readTransit (m.layer (key / 256) (f.layerNo (x.key / 16))).width 0xFFFF src (u / 16 % 32) payload = some r)
    (toStage : x.bypass = none) (hs : kget? f.sects x.key = some sec) (new : u / 16 ∉ sec.got)
    (store : (m.setFlow key (f.heard x m.now)).stageTile (key / 256) key x.key (u / 16) payload = (m', true))
    (children : (m'.flow key).children = []) (resident : (m'.flow key).resident = true) (idle : m'.str.winPulls = []) :
    (m.dataTile key src sect u payload).1 = m'.closePulls key := by
  have first : f.pulls.find? (m.pullNames (key / 256) f src sect u) = some x := by rw [pulls, List.find?_cons_of_pos named]
  have heard : { f with pulls := f.pulls.map (fun y => if m.pullNames (key / 256) f src sect u y then { y with last := m.now } else y) }
      = f.heard x m.now := by rw [pulls, List.map_singleton, if_pos named]; rfl
  generalize hn : m.setFlow key (f.heard x m.now) = n at store
  have flow : n.flow key = f.heard x m.now := by rw [← hn, Module.setFlow_flow]
  have named' : n.pullNames (key / 256) f src sect u x = true := by rw [← hn]; exact named
  have notBypassed : f.pulls.filter (fun y => n.pullNames (key / 256) f src sect u y && y.bypass.isSome) = [] := by
    rw [pulls, List.filter_cons, toStage, named']
    rfl
  have staged : f.pulls.find? (fun y => n.pullNames (key / 256) f src sect u y && y.bypass.isNone) = some x := by
    rw [pulls, List.find?_cons_of_pos]
    rw [toStage, named']
    rfl
  have held : kgetD ({} : Section) (f.heard x m.now).sects x.key = sec := congrArg (·.getD {}) hs
  have absent : sec.got.contains (u / 16) = false := Bool.eq_false_iff.2 (fun h => new (List.contains_iff_mem.1 h))
  unfold Module.dataTile
  simp only [flow_of hf, first, read, heard, hn, notBypassed, List.foldl_nil, staged, Option.map_some, flow, held, absent, Bool.false_eq_true, if_false,
    store, closePulls_quiet children resident idle]

end Tile

/-- A module whose stage of flow `key` holds one more tile: the slot of its page, and the flow's record with the tile counted. -/
def Module.stagedTile (m : Module) (key : Nat) (g : Flow) (pg i : Nat) (stored : List Byte) (raw : Bool) (stalled : List (PoolOwner × Nat)) : Module :=
  ({ m.putSlot pg i stored raw with str.stalled := stalled } : Module).setFlow key g

theorem stagedTile_flow (m : Module) (key : Nat) (g : Flow) (pg i : Nat) (stored : List Byte) (raw : Bool) (stalled : List (PoolOwner × Nat)) :
    (m.stagedTile key g pg i stored raw stalled).flow key = g := Module.setFlow_flow ..

/-- What a tile stored in its stage leaves, once its PULL is closed. -/
theorem stagedTile_leaves (m : Module) (key : Nat) (g : Flow) (pg i : Nat) (stored : List Byte) (raw : Bool) (stalled : List (PoolOwner × Nat)) :
    let t := (m.stagedTile key g pg i stored raw stalled).closePulls key
    t.tier.mem = writeBytes m.tier.mem (slotAddr pg i) stored ∧ (∀ q, t.page q = if q = pg then (m.page pg).marked i raw else m.page q)
      ∧ (t.flow key).sects = g.sects ∧ t.cores = m.cores ∧ t.parts = m.parts := by
  intro t
  obtain ⟨f', closed, sects, -, -⟩ := closePulls_eq (m.stagedTile key g pg i stored raw stalled) key
  have ht : t = _ := closed
  rw [ht]
  refine ⟨rfl, fun q => putSlot_page m pg i stored raw q, ?_, rfl, rfl⟩
  rw [Module.setFlow_flow, sects]
  exact congrArg Flow.sects (stagedTile_flow ..)

/-- A tile written to its stage in a page of T1 that neither moves nor waits for a kerf: its slot holds it in stored form, and its section
counts it. -/
theorem stageTile_t1 {m : Module} {p key sk sect t : Nat} {payload : List Byte} {g : Flow} {sec : Section} (hg : m.flow key = g)
    (hs : kgetD {} g.sects sk = sec) (hsect : sk % 16 = sect) :
    let a := m.stageAddr p g (g.feeder sect) (sec.place + t)
    let pg := a / pageBytes
    let i := a % pageBytes / tileBytes
    let len := bodyLenOf payload
    let body := slice payload 64 len
    let stored := if len = tileBytes then body else tileHeader len (m.objOf pg).2.width (m.objOf pg).1 (pg - (m.objOf pg).2.base) i ++ body
    (m.page pg).tier = 1 → (m.page pg).pending = false → (m.page pg).move = none →
    ∃ stalled, m.stageTile p key sk t payload =
      (m.stagedTile key (g.setSect sk { sec with got := sec.got ++ [t] }) pg i stored (len = tileBytes) stalled, true) := by
  intro a pg i len body stored t1 settled still
  have put (n : Module) : (if len = tileBytes then n.putSlot pg i body true
      else n.putSlot pg i (tileHeader len (m.objOf pg).2.width (m.objOf pg).1 (pg - (m.objOf pg).2.base) i ++ body) false)
      = n.putSlot pg i stored (len = tileBytes) := by
    by_cases h : len = tileBytes
    · rw [if_pos h, show stored = body from if_pos h, decide_eq_true h]
    · rw [if_neg h, show stored = _ from if_neg h, decide_eq_false h]
  have tier : ((m.putSlot pg i stored (len = tileBytes)).page pg).tier = 1 := by
    rw [putSlot_page, if_pos rfl]
    exact t1
  have plain := storeWith_plain (ts := [i]) (ow := .stage key) (put := fun n => n.putSlot pg i stored (len = tileBytes)) t1 settled still tier
  subst stored body len i pg a hg hsect
  refine ⟨m.str.stalled.filter (fun b => b ≠ (.stage key, m.stageAddr p (m.flow key) ((m.flow key).feeder (sk % 16)) (sec.place + t) / pageBytes)), ?_⟩
  unfold Module.stageTile
  simp only [hs, storeFails_t1 t1, put]
  simp only [Bool.false_eq_true, if_false]
  rw [plain]
  rfl

/-- Settles O35: `dataTile` case by case; a tile that is stored goes to the slot of `stageAddr`, in stored form. -/
theorem dataStored : Obligations.DataStored := by
  unfold Obligations.DataStored
  intro s k key f x sec h p src sect u ok type notLaunching status flow hf some_ unit count inside
  have tile : doData k s.m = (s.m.dataTile key src sect u k.payload).1 := doData_dataTile ok type notLaunching status flow some_ unit count inside
  refine ⟨fun pulls forgot sects => onModule_of (f := doData k) (tile.trans (dataTile_unnamed hf pulls forgot sects)),
    fun pulls named => ?named⟩
  intro e
  refine ⟨fun failed => onModule_of (f := doData k) (tile.trans (dataTile_failed hf pulls named failed)), ?stored⟩
  intro r read toStage hs new resident children idle a pg t t1 settled still len body stored
  obtain ⟨stalled, store⟩ := stageTile_t1 (m := s.m.setFlow key (f.heard x s.m.now)) (p := p) (sk := x.key) (t := u / 16)
    (payload := k.payload) (Module.setFlow_flow ..) (congrArg (·.getD {}) hs) (pullNames_section named) t1 settled still
  have run := tile.trans (dataTile_stored hf pulls named read toStage hs new store (by rw [stagedTile_flow]; exact children)
    (by rw [stagedTile_flow]; exact resident) idle)
  obtain ⟨mem, page, sects, cores, parts⟩ := stagedTile_leaves (s.m.setFlow key (f.heard x s.m.now)) key
    ((f.heard x s.m.now).setSect x.key { sec with got := sec.got ++ [u / 16] }) pg t stored (len = tileBytes) stalled
  refine completes_of (f := doData k) rfl ?_
  simp only [settleIrq_tier, settleIrq_page, settleIrq_flow, settleIrq_cores, settleIrq_parts]
  rw [show doData k s.m = _ from run]
  refine ⟨mem, (page pg).trans (if_pos rfl), ?_, fun q hq => (page q).trans (if_neg hq), cores, parts⟩
  exact (congrArg (fun m => kget? m x.key) sects).trans (kget?_kput_self ..)

end Sys2Proof.Machine
end

section
/-! The instructions of a layer window (R323, R328, R330, R334): WHEAD, WFULL and WFREE. -/

namespace Sys2Proof.Machine

open Sys2Proof

section WindowInstructions

variable {s : State} {c t op p : Nat} {k : Core} {th : Thread} {w : Nat} {x : Ctx} {win : Window}
  {f : Ctx → Core → Thread → Nat → CoreRes} {g : Core → Thread → Nat → Core}

/-! ## A core instruction with something beside its wait, as a command -/

theorem onModule_issueOr {k' : Core} {th' : Thread} {u : CUnit} (h : Issues s c t op p k th w)
    (hf : f (s.m.ctx p c) k th w = .go { core := k', th := th' }) :
    onModule s (issueOr c t op u f g) = .next ((left s c t u k' th').found c (k.softFetch th)) :=
  onModule_same (m := foundAt (left s c t u k' th').m c (k.softFetch th)) (issueOr_next h hf) (watched_foundAt ..)

theorem onModule_waitOr {u : CUnit} (h : Issues s c t op p k th w) (hf : f (s.m.ctx p c) k th w = .wait) :
    onModule s (issueOr c t op u f g) = .next (parked s c t (g k th w) th) := onModule_parked (issueOr_wait h hf)

/-! ## The oldest slot (R323, R328) -/

theorem Window.head?_used (h : (win.slot win.oldest).st ≠ .free) : win.head? = some (win.oldest, win.slot win.oldest) := if_neg h

theorem Window.head?_free (h : (win.slot win.oldest).st = .free) : win.head? = none := if_pos h

/-- The slot that WFREE frees; the next in cyclic order is the oldest (R323). -/
def Window.freed (win : Window) : Window := { win.setSlot win.oldest {} with oldest := (win.oldest + 1) % max 1 win.nslots }

theorem coreWhead_used (h : ((k.win w).slot (k.win w).oldest).st ≠ .free) :
    coreWhead x k th w = goSet k th w (statusWord (k.win w).oldest ((k.win w).slot (k.win w).oldest)) := by
  rw [coreWhead, Window.head?_used h]

theorem coreWhead_free (h : ((k.win w).slot (k.win w).oldest).st = .free) : coreWhead x k th w = .wait := by
  rw [coreWhead, Window.head?_free h]

/-- WFULL gives the status word of a slot that is FULL or VENEER, and waits on a PULLED one (R328). -/
theorem coreWfull_used (h : ((k.win w).slot (k.win w).oldest).st ≠ .free) : coreWfull x k th w =
    if ((k.win w).slot (k.win w).oldest).st = .full ∨ ((k.win w).slot (k.win w).oldest).st = .veneer then
      goSet k th w (statusWord (k.win w).oldest ((k.win w).slot (k.win w).oldest)) else .wait := by
  rw [coreWfull, Window.head?_used h]

theorem coreWfull_free (h : ((k.win w).slot (k.win w).oldest).st = .free) : coreWfull x k th w = .wait := by
  rw [coreWfull, Window.head?_free h]

theorem coreWfree_used (h : ((k.win w).slot (k.win w).oldest).st ≠ .free) :
    coreWfree x k th w = goNext { k with wins := kput k.wins (fld w 23 6) (k.win w).freed } th := by
  rw [coreWfree, Window.head?_used h]
  rfl

/-! ## WFREE and what it lets go on (R325, R326, R328) -/

/-- A thread that freed its window's oldest slot, before what the free slot lets the core do. -/
theorem doWfree_used (h : Issues s c t 0x75 p k th w) (hn : NextInside k th) (used : ((k.win w).slot (k.win w).oldest).st ≠ .free)
    (running : (s.m.part p).taskRunning = true) :
    doWfree c t s.m = (foundAt (left s c t .stream { k with wins := kput k.wins (fld w 23 6) (k.win w).freed } th.next).m c
      (k.softFetch th)).slotFreed p c (fld w 23 6) := by
  have freed : coreWfree (s.m.ctx p c) k th w = .go { core := { k with wins := kput k.wins (fld w 23 6) (k.win w).freed }, th := th.next } :=
    (coreWfree_used used).trans (goNext_inside (hn.img rfl))
  have issued := issue_next (u := .stream) h freed
  generalize hm : foundAt _ c (k.softFetch th) = m' at issued ⊢
  have still : (m'.part p).taskRunning = true := by
    rw [← hm, (foundAt_quiet ..).cp.part p]
    exact running
  obtain ⟨can, rfl, op, -⟩ := h
  unfold doWfree
  simp only [can, issued, op, still]
  rfl

theorem foundAt_win (m : Module) (c d i : Nat) (qs : List Nat) : (foundAt m c qs).win d i = m.win d i := by
  rw [Module.win, Module.core, (foundAt_quiet m c qs).cp.1]
  rfl

theorem left_win {u : CUnit} {wins : KMap Window} (i : Nat) (th' : Thread) :
    (left s c t u { k with wins := wins } th').m.win c i = kgetD {} wins i := by
  unfold Module.win Module.core left
  rw [kgetD_kput_self]
  cases u <;> rfl

end WindowInstructions

/-- Settles O12: each instruction by the state of the window's oldest slot; a wait of WFULL on a PULLED slot starts its timer, and WFREE ends in
`slotFreed`. -/
theorem windowInstructions : Obligations.WindowInstructions := by
  unfold Obligations.WindowInstructions
  intro s c t p k th w i win o x word soft sets waits
  have status : word = statusWord o x := word_eq o x
  refine ⟨fun h hn used => ?whead, fun h free => ?wheadFree, fun h hn ready => ?wfull, fun h pulled => ?wfullWait, fun h free => ?wfullFree,
    fun h hn used running => ?wfree⟩
  case whead =>
    subst sets
    rw [status]
    exact exec_set h hn (coreWhead_used used)
  case wheadFree => exact onModule_wait h (coreWhead_free free)
  case wfull =>
    have used : x.st ≠ .free := by rcases ready with ready | ready <;> rw [ready] <;> decide
    subst sets
    rw [status]
    exact onModule_issueOr h (((coreWfull_used used).trans (if_pos ready)).trans (goSet_next hn))
  case wfullWait =>
    have used : x.st ≠ .free := by rw [pulled]; decide
    have notReady : ¬(x.st = .full ∨ x.st = .veneer) := by rw [pulled]; decide
    have head : (k.win w).head? = some (o, x) := Window.head?_used used
    refine (onModule_waitOr h ((coreWfull_used used).trans (if_neg notReady))).trans ?_
    rw [head]
    rfl
  case wfullFree =>
    have head : (k.win w).head? = none := Window.head?_free free
    refine (onModule_waitOr h (coreWfull_free free)).trans ?_
    rw [head]
  case wfree =>
    intro u
    have run : doWfree c t s.m = u.m.slotFreed p c i := doWfree_used h hn used running
    refine ⟨onModule_of run, fun tail waiting => ?_⟩
    have window : u.m.win c i = win.freed := (foundAt_win ..).trans ((left_win ..).trans (kgetD_kput_self ..))
    rw [slotFreed_same u.m p c i (by rw [window]; exact tail) (by rw [window]; exact waiting)] at run
    exact onModule_same run (watched_foundAt ..)

end Sys2Proof.Machine
end

section
/-! The ingress die of a stream and its timers (R311, R312, R321, R322, R339, R340): the PULL of a section that a RING stage begins, a PULL sent
again, and the silence of a source, a parent and a child. -/

namespace Sys2Proof.Machine

open Sys2Proof

/-! ## The PULL of a section to come (R321, R322) -/

/-- The section at the position of a RING stage, before any of it is asked for: its place is the next free one at its feeder. -/
def Module.sectionAt (m : Module) (p : Nat) (f : Flow) : Section :=
  { layer := f.layerNo (f.pos / 16), units := f.sectionUnits (m.layer p (f.layerNo (f.pos / 16))) (f.pos % 16)
    place := kgetD 0 f.alloc (f.pos % 16), served := kgetD [] f.early f.pos }

/-- A flow that has asked for the first `count` units of `s`, the section at its position, which take the next tiles at its feeder. -/
def Flow.begins (f : Flow) (s : Section) (count : Nat) : Flow :=
  { f.setSect f.pos { s with next := count } with
    early := f.early.filter (fun e => e.1 ≠ f.pos)
    alloc := kput f.alloc (f.pos % 16) (kgetD 0 f.alloc (f.pos % 16) + count / 16)
    pos := if s.units ≤ count then f.nextPos f.pos else f.pos }

theorem Flow.skipHeld_absent {f : Flow} {pos : Nat} (h : kget? f.sects pos = none) (n : Nat) : f.skipHeld n pos = pos := by
  cases n with
  | zero => rfl
  | succ n => rw [Flow.skipHeld, h]

/-- A section just begun holds nothing, so its PULL acknowledges nothing (R339). -/
theorem Flow.begins_acked (f : Flow) (m : Module) (p count : Nat) : (f.begins (m.sectionAt p f) count).ackedOf f.pos = 0 := by
  refine ackedOf_zero _ _ ?_
  have begun : kgetD ({} : Section) (f.begins (m.sectionAt p f) count).sects f.pos = { m.sectionAt p f with next := count } := kgetD_kput_self ..
  rw [begun]
  exact Nat.min_zero _

section Pulls

variable {m : Module} {p i : Nat} {f : Flow} (hf : kget? m.str.flows (256 * p + i) = some f)

include hf

/-- The first PULL of a section asks for as many units as free tiles hold (R322). -/
theorem doStagePullIssue_begins (stream : f.ret = false) (ring : f.resident = false) (listed : f.pos % 16 < f.feeders.length)
    (running : (m.part p).taskRunning = true) (notDumping : (m.part p).krf.phase ≠ .dumping) (new : kget? f.sects f.pos = none)
    {count : Nat} (hcount : min (16 * f.freeTiles (f.pos % 16)) (m.sectionAt p f).units = count) (some_ : 0 < count) :
    doStagePullIssue p i (f.pos % 16) m = (m.setFlow (256 * p + i) (f.begins (m.sectionAt p f) count)).newPull p (256 * p + i)
      { key := f.pos, unit := 0, count := count, at_ := 0, last := 0 } := by
  have feeders : f.feeders.isEmpty = false := by
    rw [List.isEmpty_eq_false_iff, ← List.length_pos_iff]
    omega
  have free : f.freeTiles (f.pos % 16) ≠ 0 := by omega
  unfold doStagePullIssue
  simp only [hf, Flow.skipHeld_absent new, new, Option.getD_none]
  refine (if_neg ?_).trans ?_
  · simp [stream, feeders, running, notDumping, free, ring]
  · have asked : min (16 * f.freeTiles (f.pos % 16)) (f.sectionUnits (m.layer p (f.layerNo (f.pos / 16))) (f.pos % 16) - 0) = count := hcount
    simp only [asked, ring, Nat.zero_add, Nat.sub_self]
    exact if_neg (Nat.ne_of_gt some_)

end Pulls

/-! ## Timers (R311, R312, R339, R340) -/

/-- A flow that has turned to its grandparent at time `now`, its PULLs outstanding from then on (R340). -/
def Flow.turned (f : Flow) (now : Nat) : Flow :=
  { f with parent := f.grand, reparented := true, pulls := f.pulls.map (fun x => { x with at_ := now, last := now }) }

/-- A partition that counts one more re-parenting (R340). -/
def Part.turned (x : Part) : Part := { x with reparents := satN 16 (x.reparents + 1) }

section Timers

variable {m : Module} {p i : Nat} {f : Flow} (hf : kget? m.str.flows (256 * p + i) = some f)

include hf

theorem doPullResend_late {j : Nat} {x : Pull} (hp : p < 16) (hx : f.pulls[j]? = some x) (late : m.msPassed (max x.at_ x.last) 5 = true) :
    doPullResend p i j m = (m.sendPull p (256 * p + i) x).setFlow (256 * p + i) { f with pulls := f.pulls.set j { x with at_ := m.now } } := by
  unfold doPullResend
  rw [if_neg (by omega)]
  unfold Module.flowResend
  simp only [flow_of hf, hx, late]
  rfl

theorem doSourceTimeout_late (turned : f.tine = false ∨ f.reparented = true)
    (late : f.pulls.any (fun x => m.msPassed x.last (fld m.str.timeouts 0 16)) = true) :
    doSourceTimeout p i m = m.abortTask p 0x0202 (.ring f.portDie) := by
  unfold doSourceTimeout
  rw [flow_of hf]
  refine if_pos ?_
  rw [late]
  rcases turned with h | h <;> simp [h]

/-- A child whose parent is silent turns, logs and counts that, and sends its PULLs to its grandparent (R340). -/
theorem doReparent_turns (tine : f.tine = true) (first : f.reparented = false) (late : f.pulls.any (fun x => m.msPassed x.last 20) = true) :
    doReparent p i m = (f.turned m.now).pulls.foldl (fun m x => m.sendPull p (256 * p + i) x)
      (((m.logEvent 0x0503 (.ring f.portDie) (part := some p) (task := m.taskOf p)).modPart p Part.turned).setFlow (256 * p + i)
        (f.turned m.now)) := by
  obtain ⟨_, _, _, logged⟩ := logEvent_keep m 0x0503 (.ring f.portDie) (some p) (m.taskOf p) 0
  unfold doReparent
  simp only [flow_of hf]
  refine (if_neg ?_).trans ?_
  · simp [tine, first, late]
  · rw [logged]
    rfl

theorem doReparent_leaves (tine : f.tine = true) (first : f.reparented = false) (late : f.pulls.any (fun x => m.msPassed x.last 20) = true) :
    let m' := doReparent p i m
    m'.flow (256 * p + i) = f.turned m.now ∧ (∀ q, m'.part q = if q = p then (m.part p).turned else m.part q)
      ∧ m'.cores = m.cores ∧ m'.tier = m.tier := by
  intro m'
  obtain ⟨_, _, _, logged⟩ := logEvent_keep m 0x0503 (.ring f.portDie) (some p) (m.taskOf p) 0
  obtain ⟨_, _, _, sent⟩ := sendPulls_keep p (256 * p + i) (f.turned m.now).pulls
    (((m.logEvent 0x0503 (.ring f.portDie) (part := some p) (task := m.taskOf p)).modPart p Part.turned).setFlow (256 * p + i) (f.turned m.now))
  rw [show m' = _ from doReparent_turns hf tine first late, sent, logged]
  exact ⟨kgetD_kput_self .., fun q => kgetD_kput .., rfl, rfl⟩

theorem doChildSilent_late {c : Nat} {x : Child} (hx : f.children[c]? = some x) (heard : x.silentAt = none)
    (running : (m.part p).taskRunning = true) (late : m.msPassed x.lastAt 20 = true) :
    doChildSilent p i c m = m.setFlow (256 * p + i) (f.setChild { x with silentAt := some m.now, wants := [] }) := by
  unfold doChildSilent
  simp only [flow_of hf, hx, heard, running, late]
  rfl

theorem doAdoptHoldExpiry_over {c t : Nat} {x : Child} (hx : f.children[c]? = some x) (silent : x.silentAt = some t) (held : x.gone = false)
    (expired : m.msPassed t (fld m.str.timeouts 16 16) = true) :
    doAdoptHoldExpiry p i c m = (m.setFlow (256 * p + i) (f.setChild { x with gone := true })).freeStage p (256 * p + i) := by
  unfold doAdoptHoldExpiry
  simp only [flow_of hf, hx, silent, held, expired]
  rfl

end Timers

/-- Settles O33: STAGE_PULL_ISSUE begins its section with a PULL that acknowledges nothing; each timer by what its operation does once the time
has passed. -/
theorem streamTimers : Obligations.StreamTimers := by
  unfold Obligations.StreamTimers
  intro s p i f key hf
  refine ⟨?issue, fun j x hp hx late => onModule_of (doPullResend_late hf hp hx late), fun turned late => onModule_of (doSourceTimeout_late hf turned late),
    fun tine first late => ?reparent, fun c x hx => ⟨fun heard running late => ?silent, fun t silent held expired => ?adopt⟩⟩
  case issue =>
    intro sect stream ring listed running notDumping at_ new e units count some_ f'
    subst at_
    have run := doStagePullIssue_begins hf stream ring listed running notDumping new (count := count) rfl some_
    have units' : (kgetD ({} : Section) f'.sects f.pos).units = units := congrArg Section.units (kgetD_kput_self ..)
    have asks := newPull_eq (s.m.setFlow key f') p key { key := f.pos, unit := 0, count := count, at_ := 0, last := 0 } f' units
      (Module.setFlow_flow ..) (f.begins_acked s.m p count) (by rw [units']; exact ite_self _)
    rw [Nat.zero_add] at asks
    exact onModule_of (run.trans asks)
  case reparent =>
    obtain ⟨flow, part, cores, tier⟩ := doReparent_leaves hf tine first late
    refine completes_of (f := doReparent p i) rfl ?_
    simp only [settleIrq_flow, settleIrq_part, settleIrq_cores, settleIrq_tier]
    exact ⟨flow, (part p).trans (if_pos rfl), fun q hq => (part q).trans (if_neg hq), cores, tier⟩
  case silent => exact onModule_same (doChildSilent_late hf hx heard running late) rfl
  case adopt => exact onModule_of (doAdoptHoldExpiry_over hf hx silent held expired)

end Sys2Proof.Machine
end

section
/-! PSP messages (R309, R311, R338, R346): PULLs that name no section of a stage, a child's PULL of a section to come, STATUS, and GRAD_ACK. -/

namespace Sys2Proof.Machine

open Sys2Proof

/-! ## A bad header (R311) -/

/-- A message with a bad header is counted, of whichever TYPE it was to be. -/
theorem badHeader_counted {s : State} {port mac : Nat} {msg : List Byte} (bad : pspOk msg = false) {i : Instr}
    (hi : i ∈ [Instr.pspPull port mac msg, .status port mac msg, .gradAck port mac msg, .poolAck port mac msg]) :
    exec i s = .next { s with m := s.m.badPsp } := by
  have counted : (!pspOk msg) = true := by rw [bad]; rfl
  simp only [List.mem_cons, List.not_mem_nil, or_false] at hi
  rcases hi with rfl | rfl | rfl | rfl
  · exact onModule_same (f := doPspPull port mac msg) (if_pos (by rw [counted, Bool.true_or])) rfl
  · exact onModule_same (f := doStatus port mac msg) (if_pos (by rw [counted, Bool.true_or])) rfl
  · exact onModule_same (f := doGradAck port mac msg) (if_pos (by rw [counted, Bool.true_or])) rfl
  · exact onModule_same (f := doPoolAck port mac msg) (if_pos (by rw [counted, Bool.true_or])) rfl

/-! ## PULL (R309, R338) -/

section PullMessages

variable {m : Module} {port mac key : Nat} {msg : List Byte}

/-- A stream that no STREAM flow has is counted unless a return flow has it (log 124). -/
theorem noFlow_of {stream : Nat} (none_ : m.flowOf stream false = none) :
    m.noFlow stream = if (m.flowOf stream true).isSome then m else m.unknownStream := by
  rw [Module.noFlow, none_]
  rfl

/-- A PULL that is not of the stream of a jig that this module serves goes to the flow that it names. -/
theorem doPspPull_named {o : Option Nat} (ok : pspOk msg = true) (type : pspType msg = 1)
    (notServed : ¬(m.servedStream = some (fld (leNat (msg.take 32)) 32 32) ∧ m.launchPort = some port)) :
    let h := leNat (msg.take 32)
    m.flowOf (fld h 32 32) false = o → doPspPull port mac msg m = match o with
      | some key => m.pullFromChild key mac (fld h 64 16) (fld h 80 4) (fld h 96 32) (fld h 128 32) (leAt msg 32 4)
      | none => (m.noFlow (fld h 32 32)).sendStatus port mac (fld h 32 32) (fld h 64 16) (fld h 80 4) (fld h 96 32) (fld h 128 32) 1 := by
  rintro h rfl
  unfold doPspPull
  refine (if_neg ?_).trans ((if_neg ?_).trans rfl)
  · rw [ok, type]
    decide
  · rwa [Bool.and_eq_true, decide_eq_true_iff, decide_eq_true_iff]

/-- A child replaced is the one found at its address. -/
theorem setChild_find {f : Flow} {c c' : Child} (h : f.children.find? (fun c => c.mac = mac) = some c) (hmac : c'.mac = mac) :
    (f.setChild c').children.find? (fun c => c.mac = mac) = some c' := by
  have same : ((fun x : Child => decide (x.mac = mac)) ∘ fun x => if x.mac = c'.mac then c' else x) = fun x => decide (x.mac = mac) := by
    funext x
    by_cases hx : x.mac = c'.mac
    · simp [hx, hmac]
    · simp [hx]
  have found : c.mac = mac := by simpa using List.find?_some h
  rw [Flow.setChild, List.find?_map, same, h, Option.map_some, if_pos (found.trans hmac.symm)]

/-- A child whose first range is of a section that the stage does not have waits (R338). -/
theorem serveChild_waits {p sk u stop n : Nat} {rest : List (Nat × Nat × Nat)} {c : Child}
    (child : (m.flow key).children.find? (fun c => c.mac = mac) = some c) (wants : c.wants = (sk, u, stop) :: rest) (more : u < stop)
    (absent : kget? (m.flow key).sects sk = none) : m.serveChild p key mac (n + 1) = m := by
  unfold Module.serveChild
  simp only [child, wants, absent]
  exact if_neg (Nat.not_le.2 more)

/-- A RESIDENT stage frees no tile. -/
theorem freeStage_resident {p : Nat} (h : (m.flow key).resident = true) : m.freeStage p key = m := if_pos h

/-- A child that has asked for `count` units from `unit` on of section `sk` and waits for them (R338, R339). -/
def Child.asking (c : Child) (port sk unit count acked now : Nat) : Child :=
  { c with
    port := port, lastAt := now, silentAt := none, gone := false, acked := kput c.acked sk acked
    top := max c.top sk, wants := [(sk, unit, unit + count)] }

/-- A child's PULL of a section of a RESIDENT stage that has not begun waits at the stage. -/
theorem pullFromChild_waits {src sect unit count acked n : Nat} {f : Flow} {c : Child} (hf : kget? m.str.flows key = some f)
    (resident : f.resident = true)
    (layer : (List.range f.count).find? (fun i => (m.layer (key / 256) (f.first + i)).src = src) = some n) (listed : sect < f.feeders.length)
    (some_ : 0 < count) (aligned : unit % 16 = 0) (inside : unit + count ≤ f.sectionUnits (m.layer (key / 256) (f.first + n)) sect)
    (whole : count % 16 = 0 ∨ unit + count = f.sectionUnits (m.layer (key / 256) (f.first + n)) sect)
    (child : f.children.find? (fun c => c.mac = mac) = some c) (idle : c.wants = [])
    (absent : kget? f.sects (m.childKey (key / 256) f c src sect) = none) :
    m.pullFromChild key mac src sect unit count acked = m.setFlow key (f.setChild
      (c.asking (portOfRing f.portDie) (m.childKey (key / 256) f c src sect) unit count acked m.now)) := by
  have hmac : c.mac = mac := by simpa using List.find?_some child
  have known : f.children.any (fun c => c.mac = mac) = true := List.any_eq_true.2 ⟨c, List.mem_of_find?_eq_some child, decide_eq_true hmac⟩
  have flow (c' : Child) : (m.setFlow key (f.setChild c')).flow key = f.setChild c' := Module.setFlow_flow ..
  have waits (c' : Child) (hc : c' = c.asking (portOfRing f.portDie) (m.childKey (key / 256) f c src sect) unit count acked m.now) :
      ((m.setFlow key (f.setChild c')).serveChild (key / 256) key mac 20_000).freeStage (key / 256) key = m.setFlow key (f.setChild c') := by
    subst hc
    rw [serveChild_waits (n := 19_999) (by rw [flow]; exact setChild_find child hmac) rfl (Nat.lt_add_of_pos_right some_) (by rw [flow]; exact absent),
      freeStage_resident (by rw [flow]; exact resident)]
  unfold Module.pullFromChild
  simp only [flow_of hf, layer]
  refine (if_neg ?_).trans ?_
  · simpa [Nat.not_le.2 listed, Nat.ne_of_gt some_, aligned, Nat.not_lt.2 inside] using fun h => whole.resolve_left h
  · simp only [known, if_true]
    simp only [child, Option.getD_some, absent, idle, List.nil_append]
    refine (if_neg ?_).trans (waits _ rfl)
    simp [resident]

end PullMessages

/-! ## STATUS (R311) -/

/-- A STATUS of a stream of this module goes to its flow. -/
theorem doStatus_flow {m : Module} {port mac key : Nat} {msg : List Byte} (ok : pspOk msg = true) (type : pspType msg = 3)
    (notLaunching : m.launching = false) (flow : m.flowOf (fld (leNat (msg.take 32)) 32 32) false = some key) :
    doStatus port mac msg m = m.statusForFlow key (leNat (msg.take 32)) := by
  unfold doStatus
  simp only [ok, type, notLaunching, flow]
  rfl

/-- A STATUS aborts exactly where it is nonzero and answers an outstanding PULL (R311). -/
theorem statusForFlow_eq {m : Module} {key : Nat} {f : Flow} (hf : kget? m.str.flows key = some f) (h : Nat) :
    m.statusForFlow key h =
      if fld h 160 16 ≠ 0 ∧ f.pulls.any (m.pullNames (key / 256) f (fld h 64 16) (fld h 80 4) (fld h 96 32)) = true then
        m.abortTask (key / 256) 0x0202 (.ring f.portDie)
      else m := by
  unfold Module.statusForFlow
  simp only [flow_of hf, Bool.and_eq_true, decide_eq_true_iff]

/-! ## GRAD_ACK (R346) -/

/-- The units of `[b, b + c)` of layer `l` that GRADs of a flow still wait for. -/
def Flow.awaited (f : Flow) (l b c : Nat) : Nat := ((f.grads.filter (fun g => g.layer = l)).map (fun g => g.shared b c)).foldl (· + ·) 0

/-- A flow whose GRADs of layer `l` have `[b, b + c)` acknowledged. -/
def Flow.acknowledged (f : Flow) (l b c : Nat) : Flow :=
  { f with
    grads := f.grads.flatMap (fun g => if g.layer = l then g.less b c else [g])
    ackedUnits := kmod 0 f.ackedUnits l (fun a => a + f.awaited l b c) }

theorem doGradAck_flow {m : Module} {port mac key : Nat} {msg : List Byte} {f : Flow} (ok : pspOk msg = true)
    (type : fld (leNat (msg.take 32)) 8 8 = 9) (flow : m.flowOf (fld (leNat (msg.take 32)) 32 32) true = some key)
    (hf : kget? m.str.flows key = some f) :
    let h := leNat (msg.take 32)
    doGradAck port mac msg m =
      if f.awaited (fld h 64 16) (fld h 96 32) (fld h 128 32) = 0 then m
      else if fld h 160 16 ≠ 0 then m.abortTask (key / 256) 0x0202 (.ring f.portDie)
      else (m.setFlow key (f.acknowledged (fld h 64 16) (fld h 96 32) (fld h 128 32))).herdGo (key / 256) f.herd herdFuel := by
  intro h
  unfold doGradAck
  simp only [ok, type, flow, flow_of hf]
  rfl

theorem doGradAckTimeout_late {m : Module} {p i : Nat} {f : Flow} (hf : kget? m.str.flows (256 * p + i) = some f)
    (late : f.grads.any (fun g => m.msPassed g.at_ (fld m.str.timeouts 0 16)) = true) :
    doGradAckTimeout p i m = m.abortTask p 0x0202 (.ring f.portDie) := by
  unfold doGradAckTimeout
  rw [flow_of hf]
  exact if_pos late

/-- Settles O34: each message by what its operation does with the flow it names. That a PULL that names a return flow is not counted is the
model's (log 124), and so is which section a child's PULL names (log 119). -/
theorem pspMessages : Obligations.PspMessages := by
  unfold Obligations.PspMessages
  intro s port mac msg h stream
  refine ⟨fun bad c hc => badHeader_counted bad hc, fun ok type notServed => ⟨fun none_ => ?unknown, ?child⟩,
    fun key f ok type notLaunching flow hf => ?status, fun key f ok type flow hf => ?gradAck,
    fun p i f hf late => onModule_of (doGradAckTimeout_late hf late)⟩
  case unknown =>
    have run : doPspPull port mac msg s.m = _ := doPspPull_named ok type notServed none_
    rw [noFlow_of none_] at run
    exact onModule_of run
  case child =>
    intro key n f c flow hf resident p src sect unit count layer listed some_ aligned inside whole child idle sk absent
    have run : doPspPull port mac msg s.m = _ := doPspPull_named ok type notServed flow
    exact onModule_same (run.trans (pullFromChild_waits hf resident layer listed some_ aligned inside whole child idle absent)) rfl
  case status =>
    have run : doStatus port mac msg s.m = _ := (doStatus_flow ok type notLaunching flow).trans (statusForFlow_eq hf h)
    exact ⟨fun zero => onModule_still (run.trans (if_neg (fun e => e.1 zero))), fun nonzero named => onModule_of (run.trans (if_pos ⟨nonzero, named⟩))⟩
  case gradAck =>
    intro l b c n
    have run : doGradAck port mac msg s.m = _ := doGradAck_flow ok type flow hf
    exact ⟨fun none_ => onModule_still (run.trans (if_pos none_)),
      fun some_ zero => onModule_of (run.trans ((if_neg some_).trans (if_neg (not_not_intro zero)))),
      fun some_ nonzero => onModule_of (run.trans ((if_neg some_).trans (if_pos nonzero)))⟩

end Sys2Proof.Machine
end

section
/-! Window traffic (R211, R323, R324, R327, R334 to R336): units and SWITCH at a core's window, a member's pulls and MISSes at their feeder, and
deadlines. -/

namespace Sys2Proof.Machine

open Sys2Proof

/-! ## Window packets at a core (R211, R324) -/

/-- A core that has had the packet `f` of its route in sequence. -/
def Core.expecting (k : Core) (f : Flight) : Core := { k with expects := kput k.expects f.route ((hSeq f.hdr + 1) % 256) }

theorem setCore_setCore (m : Module) (c : Nat) (k k' : Core) : (m.setCore c k).setCore c k' = m.setCore c k' :=
  congrArg (fun cores => { m with cores := cores }) (kput_kput ..)

theorem setCore_setWin (m : Module) (c i : Nat) (k : Core) (w : Window) :
    (m.setCore c k).setWin c i w = m.setCore c { k with wins := kput k.wins i w } := by
  rw [Module.setWin, Module.modCore, Module.setCore_core, setCore_setCore]

theorem win_of {m : Module} {c i : Nat} {k : Core} {w : Window} (core : m.core c = k) (hw : kget? k.wins i = some w) : m.win c i = w := by
  rw [Module.win, core, kgetD, hw]
  rfl

section AtCore

variable {m : Module} {p c i : Nat} {f : Flight} {k : Core}

theorem inSeqCore_next {go : Module → Module} (core : m.core c = k) (seq : hSeq f.hdr = kgetD 0 k.expects f.route) (notCredit : hKind f.hdr ≠ 3) :
    m.inSeqCore p c f go = go (m.setCore c (k.expecting f)) := by
  have key : seqKey f = f.route := if_neg notCredit
  unfold Module.inSeqCore
  rw [key, core, if_neg (not_not_intro seq), Module.modCore, core]
  rfl

variable (core : m.core c = k) (recv : m.recvEndpoint c f.route = none) (data : m.winsAt c (fun w => w.dataRoute = f.route) = [i])
  (seq : hSeq f.hdr = kgetD 0 k.expects f.route)

include core recv data seq

theorem arriveCore_unit (kind : hKind f.hdr = 0) :
    m.arriveCore p c f = (m.setCore c (k.expecting f)).unitAtWindow c i (flitBytes f.payload) := by
  unfold Module.arriveCore
  simp only [recv, data, kind]
  exact (if_neg (by decide)).trans ((if_pos (by simp)).trans (inSeqCore_next core seq (by rw [kind]; decide)))

theorem arriveCore_switch (kind : hKind f.hdr = 4) (ok : winMsgOk f.msg = true) (op : fld f.msg 0 4 = 3) :
    m.arriveCore p c f = (m.setCore c (k.expecting f)).switchAtWindow p c i f.msg := by
  have data' : (m.setCore c (k.expecting f)).winsAt c (fun w => w.dataRoute = f.route) = [i] := by
    rw [← data, Module.winsAt, Module.setCore_core, Module.winsAt, core]
    rfl
  unfold Module.arriveCore
  simp only [recv, data, kind]
  refine (if_neg (by decide)).trans ((if_neg (by simp)).trans ((if_pos (by simp)).trans ?_))
  refine (inSeqCore_next core seq (by rw [kind]; decide)).trans ?_
  unfold Module.switchAtCore
  rw [ok, op, data']
  rfl

end AtCore

/-! ## A unit in its slot (R323, R327, R336) -/

/-- The pull `fl` once one more of its units is in. -/
def Fill.more (fl : Fill) : Fill := { fl with got := fl.got + 1 }

/-- Where the next unit of the pull `fl` goes. -/
def Window.unitAt (w : Window) (fl : Fill) : Nat := w.slotBase + (fl.slot * w.slotUnits + fl.got) * 4096

/-- A window once one more unit of its earliest pull `fl` is in; `fr` are the pulls after it. -/
def Window.filled (w : Window) (fl : Fill) (fr : List Fill) : Window :=
  let w1 := { w with fills := if fl.more.got < fl.more.units then fl.more :: fr else fr }
  if (w.slot fl.slot).ofFill fl then w1.setSlot fl.slot (settleSlot (w.slot fl.slot) fl.more) else w1

/-- A core whose window `i` has one more unit. -/
def Core.filled (k : Core) (i : Nat) (w : Window) (fl : Fill) (fr : List Fill) (bytes : List Byte) : Core :=
  { { k with sram := writeBytes k.sram (w.unitAt fl) (bytes.take 4096) }.rewrite (w.unitAt fl) 4096 with wins := kput k.wins i (w.filled fl fr) }

/-- Whether the next unit of the pull `fl` completes a veneer in its slot. -/
def Window.veneerDone (w : Window) (fl : Fill) : Bool :=
  (w.slot fl.slot).ofFill fl && (settleSlot (w.slot fl.slot) fl.more).st = .veneer

section AtWindow

variable {m : Module} {c i : Nat} {k : Core} {w : Window} {fl : Fill} {fr : List Fill} (core : m.core c = k) (hw : kget? k.wins i = some w)
  (fills : w.fills = fl :: fr)

include core hw fills

/-- A unit goes to its place, and a complete veneer counts at a tail (R336). -/
theorem unitAtWindow_fills (bytes : List Byte) :
    let m1 := m.setCore c (k.filled i w fl fr bytes)
    m.unitAtWindow c i bytes =
      if w.veneerDone fl then
        match m.partOfCore c with
        | some p => m1.modPart p (fun x => { x with veneers := satN 32 (x.veneers + b2n w.tail) })
        | none => m1
      else m1 := by
  intro m1
  have stored : (m.modCore c (fun k => { k with sram := writeBytes k.sram (w.unitAt fl) (bytes.take 4096) }.rewrite (w.unitAt fl) 4096)).setWin
      c i (w.filled fl fr) = m1 := by
    rw [Module.modCore, core, setCore_setWin]
    rfl
  rw [← stored]
  unfold Module.unitAtWindow Window.veneerDone Window.filled
  simp only [win_of core hw, fills]
  cases own : (w.slot fl.slot).ofFill fl
  · simp only [Bool.false_and, Bool.false_eq_true, if_false]
    rfl
  · simp only [Bool.true_and, if_true, decide_eq_true_iff]
    rfl

end AtWindow

/-! ## SWITCH (R336) -/

/-- The pull `fl` once a SWITCH `x` has told how it goes on, for a layer whose veneer has `units` units. -/
def Fill.switched (fl : Fill) (x units : Nat) : Fill := if bitAt x 66 then fl else { fl with units := units, got := 0, veneer := true }

/-- A window whose earliest pull `fl` a SWITCH `x` names; `fr` are the pulls after it. -/
def Window.switched (w : Window) (fl : Fill) (fr : List Fill) (x units : Nat) : Window :=
  let g := fl.switched x units
  let w1 := { w with fills := g :: fr }
  if (w.slot fl.slot).ofFill fl then
    w1.setSlot fl.slot { w.slot fl.slot with sw := some (fld x 56 10, bitAt x 66), units := g.units, arrived := g.got }
  else w1

/-- Whether a SWITCH `x` names the pull `fl`. -/
def Fill.namedBy (fl : Fill) (x : Nat) : Bool := fl.slot = fld x 4 4 && fl.layer = fld x 8 16 && fl.step = fld x 24 32

/-- A SWITCH that names the window's earliest pull says how it goes on; another changes nothing. -/
theorem switchAtWindow_fills {m : Module} {c i : Nat} {k : Core} {w : Window} {fl : Fill} {fr : List Fill} (hw : kget? k.wins i = some w)
    (fills : w.fills = fl :: fr) (p x : Nat) :
    (m.setCore c k).switchAtWindow p c i x = m.setCore c
      (if fl.namedBy x then { k with wins := kput k.wins i (w.switched fl fr x (m.layer p fl.layer).veneerUnits) } else k) := by
  have step : fld x 24 32 % 2 ^ 32 = fld x 24 32 := Nat.mod_mod ..
  have named : (decide (fl.slot ≠ fld x 4 4) || decide (fl.layer ≠ fld x 8 16) || decide (fl.step ≠ fld x 24 32)) = !fl.namedBy x := by
    simp [Fill.namedBy, Bool.not_and]
  unfold Module.switchAtWindow
  simp only [win_of (Module.setCore_core m c k) hw, fills, step, named]
  cases fl.namedBy x
  · rfl
  · simp only [Bool.not_true, Bool.false_eq_true, if_false, if_true]
    exact (apply_ite ((m.setCore c k).setWin c i) ..).symm.trans (setCore_setWin ..)

/-! ## UNIT_ARRIVAL and SWITCH -/

section Commands

variable {m : Module} {c route i : Nat} {f : Flight} {rest : List Flight} {k : Core} {w : Window} {fl : Fill} {fr : List Fill} (hc : c < 19600)
  (ht : takeFlight c route m.net.flights = some (f, rest)) (flushed : (m.part f.part).flushing = false) (active : m.active f.part = true)
  (hk : kget? m.cores c = some k) (recv : m.recvEndpoint c f.route = none) (data : m.winsAt c (fun w => w.dataRoute = f.route) = [i])
  (seq : hSeq f.hdr = kgetD 0 k.expects f.route) (hw : kget? k.wins i = some w) (fills : w.fills = fl :: fr)

include hc ht flushed active hk recv data seq hw fills

theorem doUnitArrival_fills (kind : hKind f.hdr = 0) :
    let m1 := ({ m with net.flights := rest } : Module).setCore c ((k.expecting f).filled i w fl fr (flitBytes f.payload))
    doUnitArrival c route m =
      if w.veneerDone fl then
        match m.partOfCore c with
        | some p => m1.modPart p (fun x => { x with veneers := satN 32 (x.veneers + b2n w.tail) })
        | none => m1
      else m1 := by
  have taken : doUnitArrival c route m = ({ m with net.flights := rest } : Module).arriveCore f.part c f := by
    refine takeArrival_core ht ?_ hc flushed active
    rw [kind, ← takeFlight_route ht, data]
    simp
  have unit := unitAtWindow_fills (Module.setCore_core { m with net.flights := rest } c (k.expecting f)) hw fills (flitBytes f.payload)
  rw [setCore_setCore] at unit
  rw [taken, arriveCore_unit (m := { m with net.flights := rest }) (core_of hk) recv data seq kind]
  exact unit

theorem doSwitch_fills (kind : hKind f.hdr = 4) (good : winMsgOk f.msg = true) (op : fld f.msg 0 4 = 3) :
    doSwitch c route m = ({ m with net.flights := rest } : Module).setCore c (if fl.namedBy f.msg then
      { k.expecting f with wins := kput k.wins i (w.switched fl fr f.msg (m.layer f.part fl.layer).veneerUnits) } else k.expecting f) := by
  have taken : doSwitch c route m = ({ m with net.flights := rest } : Module).arriveCore f.part c f := by
    refine takeArrival_core ht ?_ hc flushed active
    rw [kind, ← takeFlight_route ht, data]
    simp
  rw [taken, arriveCore_switch (m := { m with net.flights := rest }) (core_of hk) recv data seq kind good op,
    switchAtWindow_fills (k := k.expecting f) hw fills]
  rfl

end Commands

/-! ## Window messages at a feeder (R211, R324) -/

section AtFeeder

variable {m : Module} {p die route key mem : Nat} {f : Flight} {rest : List Flight} {ok : Flight → Bool}

/-- A window message that the command takes reaches the feeder of its member. -/
theorem takeArrival_window (ht : takeFlight (ringSite die) route m.net.flights = some (f, rest)) (hok : ok f = true) (hd : die < 64)
    (flushed : (m.part f.part).flushing = false) (isOpen : m.netOpen f.part = true) (kind : hKind f.hdr = 4)
    (notRequest : m.isRequest f.part f.route = false) (pulls : m.pullRouteAt f.part die f.route = some (key, mem))
    (seq : hSeq f.hdr = kgetD 0 m.net.dieExpect f.route) :
    m.takeArrival (ringSite die) route ok = ({ m with net := m.net.taken f rest } : Module).windowAtFeeder f.part die key mem f := by
  refine takeArrival_die ht hok hd flushed isOpen ?_
  have notRequest' : ({ m with net.flights := rest } : Module).isRequest f.part f.route = false := notRequest
  have pulls' : ({ m with net.flights := rest } : Module).pullRouteAt f.part die f.route = some (key, mem) := pulls
  unfold Module.arriveDie
  simp only [kind, notRequest', pulls']
  refine (if_neg (by decide)).trans ((if_pos trivial).trans ((if_neg (by decide)).trans ?_))
  exact congrArg some (inSeqDie_next (m := { m with net.flights := rest }) seq (by rw [kind]; decide))

variable (running : (m.part p).taskRunning = true) (good : winMsgOk f.msg = true)

include running good

theorem windowAtFeeder_pull (op : fld f.msg 0 4 = 1) : m.windowAtFeeder p die key mem f = m.pullAtFeeder p die key mem f.msg := by
  unfold Module.windowAtFeeder
  simp only [running, good, op]
  rfl

theorem windowAtFeeder_miss (op : fld f.msg 0 4 = 2) : m.windowAtFeeder p die key mem f = m.missAtFeeder p die key mem f.msg := by
  unfold Module.windowAtFeeder
  simp only [running, good, op]
  rfl

end AtFeeder

/-- A module whose feeder `die` has been told its load. -/
def Module.withLoad (m : Module) (die : Nat) (load : FeederLoad) : Module :=
  { m with str.loads := kput m.str.loads die (load.cycles, load.permille) }

section AtFeeder

variable {m : Module} {die route key mem : Nat} {f : Flight} {rest : List Flight}
  (ht : takeFlight (ringSite die) route m.net.flights = some (f, rest)) (hd : die < 64)
  (flushed : (m.part f.part).flushing = false) (isOpen : m.netOpen f.part = true) (kind : hKind f.hdr = 4)
  (notRequest : m.isRequest f.part f.route = false) (pulls : m.pullRouteAt f.part die f.route = some (key, mem))
  (seq : hSeq f.hdr = kgetD 0 m.net.dieExpect f.route) (running : (m.part f.part).taskRunning = true) (good : winMsgOk f.msg = true)

include ht hd flushed isOpen kind notRequest pulls seq running good

theorem doWindowPull_feeder (load : FeederLoad) (op : fld f.msg 0 4 = 1) :
    doWindowPull die route load m =
      (({ m with net := m.net.taken f rest } : Module).withLoad die load).pullAtFeeder f.part die key mem f.msg := by
  refine (takeArrival_window (m := m.withLoad die load) ht ?_ hd flushed isOpen kind notRequest pulls seq).trans
    (windowAtFeeder_pull (m := ({ m with net := m.net.taken f rest } : Module).withLoad die load) running good op)
  rw [kind, show f.op = 1 from op, ← takeFlight_route ht]
  exact congrArg (fun o => true && Option.isSome o && true) pulls

theorem doMiss_feeder (op : fld f.msg 0 4 = 2) :
    doMiss (ringSite die) route m = ({ m with net := m.net.taken f rest } : Module).missAtFeeder f.part die key mem f.msg := by
  refine (takeArrival_window ht ?_ hd flushed isOpen kind notRequest pulls seq).trans
    (windowAtFeeder_miss (m := { m with net := m.net.taken f rest }) running good op)
  rw [kind, show f.op = 2 from op, ← takeFlight_route ht, if_pos (show 32768 ≤ ringSite die from Nat.le_add_right ..),
    show ringSite die - 32768 = die from Nat.add_sub_cancel_left .., pulls]
  rfl

end AtFeeder

/-! ## A member's pull that waits for its stage (R324, R327, R333) -/

/-- A module with the window pulls of its feeders replaced. -/
def Module.withPulls (m : Module) (l : List WinPull) : Module := { m with str.winPulls := l }

/-- A pull at the head of its member's queue, its choice of a bypassed fill made. -/
def WinPull.chosen (y : WinPull) : WinPull := { y with choose := false }

/-- A pull of flow `key` with units to send from its stage. -/
structure WinPull.Unsent (y : WinPull) (key : Nat) : Prop where
  flow : y.flow = key
  stage : y.veneer = false ∧ y.bypass = false
  whole : y.predicted = false
  more : y.sent < y.units

theorem WinPull.Unsent.chosen {y : WinPull} {key : Nat} (h : y.Unsent key) : y.chosen.Unsent key := ⟨h.flow, h.stage, h.whole, h.more⟩

/-- A partition without bypassed fills makes no choice for one (R333). -/
theorem headPull_plain {m : Module} {p : Nat} {w : WinPull} (h : (m.part p).bypass = false) : m.headPull p w = (m, w.chosen) := by
  unfold Module.headPull
  simp only [h, Bool.and_false, Bool.false_and, Bool.false_eq_true, if_false]
  rfl

section Waiting

variable {p key : Nat} {y : WinPull} {ws : List WinPull} (others : ∀ w ∈ ws, w.flow ≠ key)

include others

theorem find_last (flow : y.flow = key) (x : Nat) : (ws ++ [y]).find? (fun w => w.flow = key && w.member = x) =
    if y.member = x then some y else none := by
  have first : ws.find? (fun w => w.flow = key && w.member = x) = none := List.find?_eq_none.2 (fun w hw => by simp [others w hw])
  rw [List.find?_append, first, Option.none_or, List.find?_singleton]
  simp [flow]

theorem setWinPull_last (m : Module) (flow : y.flow = key) :
    (m.withPulls (ws ++ [y])).setWinPull y.chosen = m.withPulls (ws ++ [y.chosen]) := by
  have same : ws.map (fun x => if x.flow = y.flow && x.member = y.member && x.slot = y.slot && x.seqNo = y.seqNo then y.chosen else x) = ws :=
    (List.map_congr_left (fun w hw => if_neg (by simp [flow, others w hw]))).trans (List.map_id ..)
  have last : [y].map (fun x => if x.flow = y.flow && x.member = y.member && x.slot = y.slot && x.seqNo = y.seqNo then y.chosen else x) = [y.chosen] := by
    simp
  exact congrArg m.withPulls (List.map_append.trans (congr (congrArg _ same) last))

variable {m : Module} (isOpen : m.netOpen p = true) (running : (m.part p).taskRunning = true) (noBypass : (m.part p).bypass = false)
  (empty : (m.flow key).sects = [])

include isOpen running noBypass empty

/-- A member's pull that its stage has no unit for stays where it is, its choice made. -/
theorem feedMember_waits (unsent : y.Unsent key) :
    (m.withPulls (ws ++ [y])).feedMember p key y.member feedFuel = m.withPulls (ws ++ [y.chosen]) := by
  obtain ⟨flow, ⟨veneer, bypass⟩, whole, more⟩ := unsent
  have first : (m.withPulls (ws ++ [y])).str.winPulls.find? (fun w => w.flow = key && w.member = y.member) = some y :=
    (find_last others flow y.member).trans (if_pos rfl)
  have goes : (!(m.withPulls (ws ++ [y])).netOpen p || !((m.withPulls (ws ++ [y])).part p).taskRunning) = false := by
    rw [show (m.withPulls (ws ++ [y])).netOpen p = true from isOpen, show ((m.withPulls (ws ++ [y])).part p).taskRunning = true from running]
    rfl
  have unit : ∃ u, (m.withPulls (ws ++ [y.chosen])).pulledUnit p y.chosen y.chosen.sent = some u := by
    unfold Module.pulledUnit
    simp only [show y.chosen.predicted = false from whole]
    exact ⟨_, rfl⟩
  have noSection : kget? ((m.withPulls (ws ++ [y.chosen])).flow y.chosen.flow).sects
      (y.chosen.key ((m.withPulls (ws ++ [y.chosen])).flow y.chosen.flow)) = none := by
    rw [show (m.withPulls (ws ++ [y.chosen])).flow y.chosen.flow = m.flow key from congrArg m.flow flow, empty]
    rfl
  obtain ⟨u, unit⟩ := unit
  have wait : (m.withPulls (ws ++ [y.chosen])).readUnit p y.chosen u = .wait (m.withPulls (ws ++ [y.chosen])) := by
    unfold Module.readUnit
    simp only [show y.chosen.veneer = false from veneer, show y.chosen.bypass = false from bypass, noSection]
    rfl
  rw [show feedFuel = 19_999 + 1 from rfl, Module.feedMember]
  simp only [first, goes, headPull_plain (m := m.withPulls (ws ++ [y])) (w := y) noBypass, setWinPull_last others m flow]
  refine (if_neg Bool.false_ne_true).trans ((if_neg (Nat.not_le.2 more)).trans ?_)
  simp only [show y.chosen.veneer = false from veneer, Bool.false_eq_true, if_false, unit, wait]

/-- A round over members of a feeder leaves the one new pull with its choice made, if its member is among them. -/
theorem feedMembers_wait (unsent : y.Unsent key) (l : List Nat) :
    l.foldl (fun m x => m.feedMember p key x feedFuel) (m.withPulls (ws ++ [y])) = m.withPulls (ws ++ [if y.member ∈ l then y.chosen else y]) := by
  induction l generalizing y with
  | nil => rfl
  | cons a l ih =>
    rw [List.foldl_cons]
    by_cases own : y.member = a
    · rw [← own, feedMember_waits others isOpen running noBypass empty unsent, ih unsent.chosen, if_pos List.mem_cons_self]
      exact congrArg (fun x => m.withPulls (ws ++ [x])) (ite_self _)
    · have skip : (m.withPulls (ws ++ [y])).feedMember p key a feedFuel = m.withPulls (ws ++ [y]) :=
        feedMember_none (n := 19_999) ((find_last others unsent.flow a).trans (if_neg own))
      rw [skip, ih unsent]
      simp [own]

theorem feed_waits (unsent : y.Unsent key) {d : Nat} (member : y.member ∈ (m.flow key).membersOf d) (resident : (m.flow key).resident = true) :
    (m.withPulls (ws ++ [y])).feed p key d = m.withPulls (ws ++ [y.chosen]) := by
  unfold Module.feed
  rw [show (m.withPulls (ws ++ [y])).flow key = m.flow key from rfl, feedMembers_wait others isOpen running noBypass empty unsent, if_pos member]
  exact if_pos resident

end Waiting

/-- The window pull of a PULL message that is whole and of a layer that is not predicted, its choice made. -/
theorem winPullOf_chosen {m : Module} {p die key mem x : Nat} {g : Flow} (hg : kget? m.str.flows key = some g)
    (whole : (m.layer p (fld x 8 16)).predicted = false) (last : bitAt x 71 = false) :
    (m.winPullOf p die key mem x).chosen =
      { flow := key, feeder := die, member := mem, slot := fld x 4 4, layer := fld x 8 16, seqNo := seqOf g x, units := fld x 56 10
        blocks := (List.range (fld x 67 4)).map (fun i => fld x (96 + 32 * i) 16) } := by
  unfold WinPull.chosen Module.winPullOf
  rw [whole, last]
  simp only [flow_of hg]

/-- A member's new pull of a layer, that no MISS has overtaken, is queued at its feeder while the stage has none of the layer (R327). -/
theorem pullAtFeeder_waits {m : Module} {p die key mem x : Nat} {g : Flow} (hg : kget? m.str.flows key = some g)
    (others : ∀ w ∈ m.str.winPulls, w.flow ≠ key) (isOpen : m.netOpen p = true) (running : (m.part p).taskRunning = true)
    (noBypass : (m.part p).bypass = false) (resident : g.resident = true) (empty : g.sects = [])
    (whole : (m.layer p (fld x 8 16)).predicted = false) (some_ : 0 < fld x 56 10) (due : kgetD 0 g.pulledTo mem ≤ seqOf g x)
    (noMiss : ∀ e ∈ g.misses, ¬(e.1 = mem ∧ seqOf g e.2 = seqOf g x)) (member : mem ∈ g.membersOf die) :
    m.pullAtFeeder p die key mem x = (m.setFlow key { g with pulledTo := kput g.pulledTo mem (seqOf g x + 1) }).withPulls
      (m.str.winPulls ++ [(m.winPullOf p die key mem x).chosen]) := by
  have noMore : m.str.winPulls.filter (fun w => w.flow = key && w.member = mem && w.more) = [] :=
    List.filter_eq_nil_iff.2 (fun w hw => by simp [others w hw])
  have seqNo : (m.winPullOf p die key mem x).seqNo = seqOf g x := congrArg (seqOf · x) (flow_of hg)
  have notMine (e : Nat × Nat) (he : e ∈ g.misses) : (decide (e.1 = mem) && decide (seqOf g e.2 = seqOf g x)) = false :=
    Bool.eq_false_iff.2 (fun h => noMiss e he (by simpa using h))
  have keeps : g.misses.filter (fun e => !(e.1 = mem && seqOf g e.2 = seqOf g x)) = g.misses :=
    List.filter_eq_self.2 (fun e he => by rw [notMine e he]; rfl)
  have none_ : g.misses.find? (fun e => e.1 = mem && seqOf g e.2 = seqOf g x) = none :=
    List.find?_eq_none.2 (fun e he => Bool.eq_false_iff.1 (notMine e he))
  have flow : (m.setFlow key { g with pulledTo := kput g.pulledTo mem (seqOf g x + 1) }).flow key =
      { g with pulledTo := kput g.pulledTo mem (seqOf g x + 1) } := Module.setFlow_flow ..
  have fed := feed_waits (m := m.setFlow key { g with pulledTo := kput g.pulledTo mem (seqOf g x + 1) }) (y := m.winPullOf p die key mem x)
    others isOpen running noBypass (by rw [flow]; exact empty) ⟨rfl, ⟨rfl, rfl⟩, whole, some_⟩ (d := die) (by rw [flow]; exact member)
    (by rw [flow]; exact resident)
  rw [← fed]
  unfold Module.pullAtFeeder
  rw [noMore]
  refine (if_neg ?_).trans ?_
  · rw [seqNo, flow_of hg]
    exact Nat.not_lt.2 due
  · unfold Module.queuePull
    simp only [show (m.winPullOf p die key mem x).flow = key from rfl, show (m.winPullOf p die key mem x).member = mem from rfl, seqNo, flow_of hg,
      none_, keeps]
    rfl

/-! ## A MISS at its feeder (R336) -/

/-- A MISS meets the pull that it names, if it still is of the slot and no MISS has cut it. -/
theorem missAtFeeder_found {m : Module} {p die key mem x : Nat} {w : WinPull}
    (found : m.str.winPulls.find? (fun w => w.flow = key && w.member = mem && w.seqNo = seqOf (m.flow key) x) = some w) :
    m.missAtFeeder p die key mem x = if w.veneer = true ∨ w.slot ≠ fld x 4 4 then m else (m.cutPull p w x).feed p key die := by
  unfold Module.missAtFeeder
  simp only [found, Bool.or_eq_true, decide_eq_true_iff]

/-- One that names no pull at the feeder waits for it, is of a slot pulled again since, or comes after the whole pull (log 120). -/
theorem missAtFeeder_none {m : Module} {p die key mem x : Nat}
    (none_ : m.str.winPulls.find? (fun w => w.flow = key && w.member = mem && w.seqNo = seqOf (m.flow key) x) = none) :
    let g := m.flow key
    m.missAtFeeder p die key mem x =
      if kgetD 0 g.pulledTo mem ≤ seqOf g x then m.setFlow key { g with misses := g.misses ++ [(mem, x)] }
      else if seqOf g x + m.slotsOf key mem < kgetD 0 g.pulledTo mem then m
      else m.ringControl p die (kgetD 0 g.dataRoute mem) (winMsg 3 (fld x 4 4) (fld x 8 16) (fld x 24 32) (fld x 56 10) true [] false) := by
  intro g
  unfold Module.missAtFeeder
  simp only [none_]
  rfl

/-! ## Deadlines (R334, R335) -/

/-- A module that has counted a missed deadline of partition `p` at core `c`, and logged it unless it logged one within the last millisecond. -/
def Module.countMiss (m : Module) (p c : Nat) : Module :=
  let m1 := m.modPart p (fun x => { x with misses := satN 32 (x.misses + 1) })
  let fresh : Bool := match (m.part p).missLogAt with
    | none => true
    | some t => m1.skPassed t skMs
  if fresh then
    (m1.logEvent 0x0201 (.core c) (part := some p) (task := m1.taskOf p)).modPart p (fun x => { x with missLogAt := some m.now })
  else m1

/-- Of the cores, the memory and the partitions, only the count and the time of the last record of partition `p` change. -/
theorem countMiss_leaves (m : Module) (p c : Nat) :
    (m.countMiss p c).cores = m.cores ∧ (m.countMiss p c).tier = m.tier
      ∧ ∃ at_, ∀ q, (m.countMiss p c).part q =
        if q = p then { m.part p with misses := satN 32 ((m.part p).misses + 1), missLogAt := at_ } else m.part q := by
  unfold Module.countMiss
  extract_lets m1 fresh
  have one (q : Nat) : m1.part q = if q = p then { m.part p with misses := satN 32 ((m.part p).misses + 1) } else m.part q := part_modPart ..
  cases fresh
  · exact ⟨rfl, rfl, (m.part p).missLogAt, one⟩
  · obtain ⟨_, _, _, logged⟩ := logEvent_keep m1 0x0201 (.core c) (some p) (m1.taskOf p) 0
    rw [if_pos rfl, logged]
    refine ⟨rfl, rfl, some m.now, fun q => (part_modPart ..).trans ?_⟩
    by_cases hq : q = p
    · rw [if_pos hq, if_pos hq]
      exact congrArg (fun x : Part => { x with missLogAt := some m.now }) ((one p).trans (if_pos rfl))
    · rw [if_neg hq, if_neg hq]
      exact (one q).trans (if_neg hq)

/-- A window whose slot `sl` has missed its deadline. -/
def Window.missed (w : Window) (sl : Nat) : Window := w.setSlot sl { w.slot sl with timer := none, missed := true }

/-- A deadline that passes before its slot is FULL counts and marks its slot, and a tail may send a MISS (R335, R336). -/
theorem doDeadlineMiss_passed {m : Module} {c i sl p t : Nat} {k : Core} {w : Window} (hk : kget? m.cores c = some k) (hw : kget? k.wins i = some w)
    (hp : m.partOfCore c = some p) (timer : (w.slot sl).timer = some t) (pulled : (w.slot sl).st = .pulled) (running : (m.part p).taskRunning = true)
    (timed : (m.part p).deadline (m.layer p (w.slot sl).layer).cls ≠ 0)
    (passed : m.usPassed t ((m.part p).deadline (m.layer p (w.slot sl).layer).cls) = true) :
    let e := m.layer p (w.slot sl).layer
    let m' := (m.countMiss p c).setWin c i (w.missed sl)
    doDeadlineMiss c i sl m =
      if w.tail && (m.part p).veneerPolicy e.cls && e.veneerValid then
        m'.winSend p c i (winMsg 2 sl (w.slot sl).layer (w.slot sl).step (w.slot sl).units false [] false)
      else m' := by
  intro e m'
  have due : ¬((w.slot sl).st ≠ .pulled ∨ (m.part p).deadline e.cls = 0 ∨ (!m.usPassed t ((m.part p).deadline e.cls)) = true
      ∨ (!(m.part p).taskRunning) = true) := by
    rw [pulled, passed, running]
    simpa using timed
  have core : (m.countMiss p c).core c = k :=
    (congrArg (fun cores => kgetD ({} : Core) cores c) (countMiss_leaves m p c).1).trans (core_of hk)
  have marked : m' = (m.countMiss p c).setWin c i (((m.countMiss p c).win c i).setSlot sl { w.slot sl with timer := none, missed := true }) := by
    rw [win_of core hw]
    rfl
  rw [marked]
  unfold doDeadlineMiss
  simp only [hp, core_of hk, hw, timer]
  exact (if_neg due).trans rfl

/-- What a missed deadline leaves, whether a MISS goes out or not. -/
theorem missed_leaves (m : Module) (p c i sl : Nat) (w : Window) (b : Bool) (x : BitVec 480) :
    let m' := (m.countMiss p c).setWin c i (w.missed sl)
    let t := if b then m'.winSend p c i x else m'
    (t.part p).misses = satN 32 ((m.part p).misses + 1) ∧ (t.win c i).slot sl = { w.slot sl with timer := none, missed := true }
      ∧ (∀ d, d ≠ c → t.core d = m.core d) ∧ (∀ q, q ≠ p → t.part q = m.part q) ∧ t.tier = m.tier := by
  intro m' t
  obtain ⟨cores, tier, at_, part⟩ := countMiss_leaves m p c
  have slot : (m'.win c i).slot sl = { w.slot sl with timer := none, missed := true } :=
    (congrArg (Window.slot · sl) (win_setWin_self ..)).trans (kgetD_kput_self ..)
  have other (d : Nat) (hd : d ≠ c) : m'.core d = m.core d :=
    (core_setWin_ne hd ..).trans (congrArg (fun cores => kgetD ({} : Core) cores d) cores)
  have parts : (m'.part p).misses = satN 32 ((m.part p).misses + 1) ∧ ∀ q, q ≠ p → m'.part q = m.part q :=
    ⟨congrArg Part.misses ((part p).trans (if_pos rfl)), fun q hq => (part q).trans (if_neg hq)⟩
  cases b
  · exact ⟨parts.1, slot, other, parts.2, tier⟩
  · have sent := winSend_sent m' p c i x
    have same (q : Nat) : t.part q = m'.part q := congrArg (fun parts => kgetD ({} : Part) parts q) sent.parts
    refine ⟨(congrArg Part.misses (same p)).trans parts.1, ?_, fun d hd => (sent.other d hd).trans (other d hd),
      fun q hq => (same q).trans (parts.2 q hq), tier⟩
    rw [show t = m'.winSend p c i x from rfl, sent.win]
    exact slot

/-- Settles O37: a packet is taken off its route and arrives at its window or its feeder. The wait of a MISS for its pull, and the loss of one
whose slot was pulled again, are log 120; a SWITCH after the whole pull is log 47. -/
theorem windowTraffic : Obligations.WindowTraffic := by
  unfold Obligations.WindowTraffic
  intro s
  refine ⟨?core, ?feeder, ?deadline⟩
  case core =>
    intro c route i f rest k w fl fr hc ht flushed active hk recv data hw seq fills k' x
    refine ⟨fun kind => ?unit, fun kind good op => ?switch⟩
    case unit =>
      intro at_ g w1 w' m1 done
      have run := doUnitArrival_fills hc ht flushed active hk recv data seq hw fills kind
      exact ⟨fun notDone => onModule_same (run.trans (if_neg (Bool.eq_false_iff.1 notDone))) rfl,
        fun p isDone hp => onModule_of (run.trans ((if_pos isDone).trans (by rw [hp]; rfl)))⟩
    case switch => exact onModule_same (doSwitch_fills hc ht flushed active hk recv data seq hw fills kind good op) rfl
  case feeder =>
    intro die route key mem f rest g hd ht flushed isOpen running kind notRequest seq pulls good hg resident x slot layer n m0
    refine ⟨fun load op others whole last some_ empty due noMiss member noBypass => ?pull, fun op => ?miss⟩
    case pull =>
      have run := doWindowPull_feeder ht hd flushed isOpen kind notRequest pulls seq running good load op
      have queued := pullAtFeeder_waits (m := m0.withLoad die load) hg others isOpen running noBypass resident empty whole some_ due noMiss member
      rw [winPullOf_chosen (m := m0.withLoad die load) hg whole last] at queued
      exact onModule_same (run.trans queued) rfl
    case miss =>
      intro found due
      have run := doMiss_feeder ht hd flushed isOpen kind notRequest pulls seq running good op
      have flow : m0.flow key = g := flow_of hg
      refine ⟨fun w hw => ?met, fun none_ => ?unmet⟩
      case met =>
        have met := run.trans (missAtFeeder_found (m := m0) (by rw [flow]; exact hw))
        refine ⟨fun gone => onModule_same (met.trans (if_pos gone)) rfl, fun whole same => onModule_of (met.trans (if_neg ?_))⟩
        rintro (cut | other)
        · exact absurd (whole.symm.trans cut) Bool.false_ne_true
        · exact other same
      case unmet =>
        have unmet := run.trans (missAtFeeder_none (m := m0) (by rw [flow]; exact none_))
        rw [flow] at unmet
        refine ⟨fun early => onModule_same (unmet.trans (if_pos early)) rfl, fun sent old => ?_, fun sent recent => ?_⟩
        · exact onModule_same (unmet.trans ((if_neg (Nat.not_le.2 sent)).trans (if_pos old))) rfl
        · exact onModule_same (unmet.trans ((if_neg (Nat.not_le.2 sent)).trans (if_neg (Nat.not_lt.2 recent)))) rfl
  case deadline =>
    intro c i sl p t k w hk hw hp timer pulled running timed passed
    have run := doDeadlineMiss_passed hk hw hp timer pulled running timed passed
    refine completes_of (f := doDeadlineMiss c i sl) rfl ?_
    simp only [settleIrq_part, settleIrq_win, settleIrq_core, settleIrq_tier]
    rw [run]
    exact missed_leaves s.m p c i sl w _ _

end Sys2Proof.Machine
end

section
/-! Frames at an optical port, and its link going down and up (R352 to R354, R356, R383, R548). -/

namespace Sys2Proof.Machine

open Sys2Proof

/-! ## Frames (R353) -/

/-- A frame that is accepted at a port is counted there. -/
def Module.frameTaken (m : Module) (port : Nat) : Module :=
  m.setPort port { m.port port with framesRx := satN 32 ((m.port port).framesRx + 1) }

/-- What a frame of a fate does at a port: the rows of R353. -/
def FrameFate.effect (fate : FrameFate) (port : Nat) (frame : List Byte) (m : Module) : Module :=
  match fate with
  | .fcs => m.setPort port { m.port port with fcsErrors := satN 32 ((m.port port).fcsErrors + 1) }
  | .discard => m.setPort port { m.port port with discards := satN 32 ((m.port port).discards + 1) }
  | .pause => m.setPort port { m.port port with pauseIgnored := satN 32 ((m.port port).pauseIgnored + 1) }
  | .accept => (m.frameTaken port).frameBody port (beNat (slice frame 6 6)) (slice frame 16 (frame.length - 20))

theorem doFrameReceive_up {m : Module} {port : Nat} {frame : List Byte} {fate : FrameFate} (inside : port < 48) (up : (m.port port).up = true)
    (meets : m.frameFate port frame = fate) : doFrameReceive port frame m = fate.effect port frame m := by
  unfold doFrameReceive
  rw [if_neg (by simp [up, inside]), meets]
  cases fate <;> rfl

section Bodies

variable {m : Module} {port mac : Nat} {msg : List Byte}

theorem frameBody_segment (row : leAt (msg.drop 2) 0 1 = 0xC1) : m.frameBody port mac msg = doChunkSegment port mac msg m := if_pos row

theorem frameBody_answer (row : leAt (msg.drop 2) 0 1 = 0xC2) (sealed : sealOk 64 ((msg.drop 2).take 64) = true) :
    let kind := leAt ((msg.drop 2).take 64) 1 1
    m.frameBody port mac msg = if kind = 1 then doAck port mac msg m else if kind = 2 then doNak port mac msg m
      else if kind = 3 then doWaitAnswer port mac msg m else m := by
  intro kind
  exact (if_neg (by simp [row])).trans ((if_pos row).trans (if_neg (by simp [sealed])))

theorem frameBody_psp (row : leAt (msg.drop 2) 0 1 = 0x01) (type : beNat (msg.take 2) = m.str.ethertype) (ok : pspOk (msg.drop 2) = true) :
    let body := msg.drop 2
    let kind := leAt body 1 1
    m.frameBody port mac msg = if kind = 1 then doPspPull port mac body m else if kind = 3 then doStatus port mac body m
      else if kind = 7 then doPoolAck port mac body m else if kind = 9 then doGradAck port mac body m else m.noFlow (leAt body 4 4) := by
  intro body kind
  exact (if_neg (by simp [row])).trans ((if_neg (by simp [row])).trans ((if_pos type).trans (if_neg (by simp [ok]))))

end Bodies

/-- A command that does what another does on a state that differs in nothing R522 watches. -/
theorem onModule_as {s s' : State} {f g : Module → Module} (effect : f s.m = g s'.m) (pending : s'.pending = s.pending)
    (watched : s'.m.watched = s.m.watched) : onModule s f = onModule s' g := by
  unfold onModule
  rw [effect, pending, watched]

/-- An accepted frame does what the row of its content does, once it is counted. -/
theorem frameReceive_accepted {s : State} {port : Nat} {frame : List Byte} {f : Module → Module} (inside : port < 48)
    (up : (s.m.port port).up = true) (accept : s.m.frameFate port frame = .accept)
    (body : (s.m.frameTaken port).frameBody port (beNat (slice frame 6 6)) (slice frame 16 (frame.length - 20)) = f (s.m.frameTaken port)) :
    onModule s (doFrameReceive port frame) = onModule { s with m := s.m.frameTaken port } f :=
  onModule_as ((doFrameReceive_up inside up accept).trans body) rfl rfl

/-! ## Links (R354, R548) and the VC0 budget (R356) -/

theorem doLinkDown_present {m : Module} {port : Nat} (present : m.portPresent port = true) (lf rf : Bool) :
    doLinkDown port lf rf m = m.setPort port { (m.port port).down with localFault := lf, remoteFault := rf } :=
  if_neg (by simp [present])

theorem doLinkUp_eq (m : Module) (port : Nat) :
    doLinkUp port m = if m.portPresent port = false ∨ m.transmitOn = false then m
      else m.setPort port { m.port port with up := true, localFault := false, remoteFault := false } := by
  unfold doLinkUp
  simp only [Bool.or_eq_true, Bool.not_eq_true']

theorem doVc0BudgetInterval_passed {m : Module} {port : Nat} (inside : port < 48) (passed : m.usPassed (m.port port).vc0From 10 = true) :
    doVc0BudgetInterval port m =
      (m.setPort port { m.port port with vc0Used := 0, vc0From := m.now }).drainVc0 port (m.port port).vc0Wait.length :=
  if_neg (by simp [inside, passed])

/-- Settles O38: a frame by its fate, an accepted one by the row of its content; each link event by what its operation does. -/
theorem framesAndLinks : Obligations.FramesAndLinks := by
  unfold Obligations.FramesAndLinks
  intro s port inside x
  refine ⟨fun frame up => ?frames, fun lf rf present => ?down, fun present on => ?up, fun off => ?still, fun passed => ?budget⟩
  case frames =>
    have run {fate : FrameFate} (h : s.m.frameFate port frame = fate) : doFrameReceive port frame s.m = fate.effect port frame s.m :=
      doFrameReceive_up inside up h
    refine ⟨fun fcs => onModule_same (run fcs) rfl, fun discard => onModule_same (run discard) rfl, fun pause => onModule_same (run pause) rfl,
      fun accept => ?_⟩
    intro mac msg s' b
    have go {f : Module → Module} (body : (s.m.frameTaken port).frameBody port mac msg = f (s.m.frameTaken port)) :
        onModule s (doFrameReceive port frame) = onModule s' f := frameReceive_accepted inside up accept body
    refine ⟨fun row => go (frameBody_segment row), fun row sealed => ?answers, fun row type ok => ?messages⟩
    case answers =>
      have body := frameBody_answer (m := s.m.frameTaken port) (port := port) (mac := mac) row sealed
      exact ⟨fun kind => go (body.trans (by rw [kind]; rfl)), fun kind => go (body.trans (by rw [kind]; rfl)),
        fun kind => go (body.trans (by rw [kind]; rfl))⟩
    case messages =>
      have body := frameBody_psp (m := s.m.frameTaken port) (port := port) (mac := mac) row type ok
      exact ⟨fun kind => go (body.trans (by rw [kind]; rfl)), fun kind => go (body.trans (by rw [kind]; rfl)),
        fun kind => go (body.trans (by rw [kind]; rfl)), fun kind => go (body.trans (by rw [kind]; rfl))⟩
  case down => exact onModule_same (doLinkDown_present present lf rf) rfl
  case up => exact onModule_same ((doLinkUp_eq s.m port).trans (if_neg (by simp [present, on]))) rfl
  case still => exact onModule_still ((doLinkUp_eq s.m port).trans (if_pos off))
  case budget =>
    have run := doVc0BudgetInterval_passed inside passed
    exact ⟨onModule_of run,
      fun none_ => onModule_same (run.trans (by rw [show (s.m.port port).vc0Wait.length = 0 from congrArg List.length none_]; rfl)) rfl⟩

end Sys2Proof.Machine
end

section
/-! Chunks: segments, answers and retransmission (R361 to R364). -/

namespace Sys2Proof.Machine

open Sys2Proof

/-! ## A whole chunk, and one that fails (R361) -/

/-- Whether every segment of a chunk has come. -/
def Partial.whole (q : Partial) : Bool := (List.range q.nsegs).all (fun i => (kget? q.segs i).isSome)

section Whole

variable {m : Module} {port : Nat} {q : Partial}

/-- Before its last transmission a chunk that fails is answered with NAK, and its channel goes on. -/
theorem chunkFails_nak (m : Module) (port : Nat) {q : Partial} (more : q.retry ≠ 4) : m.chunkFails port q = m.answerChunk port q 2 := if_neg more

theorem chunkWhole_accepted (old : q.key ∈ m.fab.accepted) : m.chunkWhole port q = m.answerChunk port q 1 :=
  if_pos (List.contains_iff_mem.2 old)

theorem chunkWhole_corrupt (new : q.key ∉ m.fab.accepted) (crc : crc64 (q.toChunk port).payload ≠ fld (leNat (q.hdr.take 96)) 192 64)
    (more : q.retry ≠ 4) : m.chunkWhole port q = (m.noteCrc port).answerChunk port q 2 :=
  ((if_neg (mt List.contains_iff_mem.1 new)).trans (if_pos crc)).trans (chunkFails_nak _ port more)

/-- A module that no longer holds a partial chunk of a port. -/
def Module.partialGone (m : Module) (port : Nat) (q : Partial) : Module :=
  { m with fab.partials := m.fab.partials.filter (fun e => !(e.1 = port && e.2.key = q.key)) }

theorem gapOut_accepted (old : q.key ∈ m.fab.accepted) : m.gapOut port q = (m.partialGone port q).answerChunk port q 1 :=
  if_pos (List.contains_iff_mem.2 old)

theorem gapOut_new (new : q.key ∉ m.fab.accepted) (more : q.retry ≠ 4) : m.gapOut port q = (m.partialGone port q).answerChunk port q 2 :=
  (if_neg (mt List.contains_iff_mem.1 new)).trans (chunkFails_nak _ port more)

/-! ## Segments (R361, R364) -/

/-- The first segment of a chunk that comes is kept with it, unless it is the whole chunk. -/
theorem collect_first (m : Module) {port : Nat} {q : Partial} (sn : Nat) (first : ∀ e ∈ m.fab.partials, ¬(e.1 = port ∧ e.2.key = q.key)) :
    m.collect port q sn = if q.whole = true then m.chunkWhole port q else { m with fab.partials := m.fab.partials ++ [(port, q)] } := by
  have none_ : m.fab.partials.find? (fun e => e.1 = port && e.2.key = q.key) = none := List.find?_eq_none.2 (by simpa using first)
  have same : m.fab.partials.filter (fun e => !(e.1 = port && e.2.key = q.key)) = m.fab.partials :=
    List.filter_eq_self.2 (fun e he => by simpa using Decidable.not_and_iff_or_not.1 (first e he))
  unfold Module.collect
  rw [none_, same]
  rfl

end Whole

section Segments

variable {m : Module} {port mac : Nat} {msg : List Byte}

/-- A segment of either EtherType goes to its chunk. -/
theorem doChunkSegment_typed (type : beNat (msg.take 2) = m.str.ethertype ∨ beNat (msg.take 2) = m.fab.herdType) (row : leAt msg 2 1 = 0xC1) :
    doChunkSegment port mac msg m = m.segment port mac (beNat (msg.take 2)) (msg.drop 2) :=
  if_neg (by
    unfold msgType
    rcases type with h | h <;> simp [h, row])

theorem segment_first {etype : Nat} {body : List Byte} (sealed : sealOk 96 body = true) :
    let y := segmentOf mac etype m.now body
    (∀ e ∈ m.fab.partials, ¬(e.1 = port ∧ e.2.key = y.1.key)) → m.segment port mac etype body = m.collect port y.1 y.2 := by
  intro y first
  have none_ : m.fab.partials.find? (fun e => e.1 = port && e.2.key = y.1.key) = none := List.find?_eq_none.2 (by simpa using first)
  unfold Module.segment
  rw [sealed]
  simp only [y] at none_
  simp only [none_]
  rfl

theorem segment_later {etype : Nat} {body : List Byte} {e : Nat × Partial} (sealed : sealOk 96 body = true) :
    let y := segmentOf mac etype m.now body
    m.fab.partials.find? (fun e => e.1 = port && e.2.key = y.1.key) = some e →
    m.segment port mac etype body =
      if m.usPassed e.2.at_ m.gapUs = false then m.collect port y.1 y.2
      else if m.usOver e.2.at_ m.gapUs = true then (m.gapOut port e.2).collect port y.1 y.2
      else m.gapOut port e.2 := by
  intro y held
  unfold Module.segment
  rw [sealed]
  simp only [y] at held
  simp only [held, Bool.not_eq_true']
  rfl

end Segments

theorem doGapTimeout_passed {m : Module} {port i : Nat} {q : Partial} (held : m.fab.partials[i]? = some (port, q))
    (passed : m.usPassed q.at_ m.gapUs = true) : doGapTimeout port i m = m.gapOut port q := by
  unfold doGapTimeout
  rw [held]
  exact if_neg (by simp [passed])

/-! ## Answers and retransmission (R363, R364) -/

/-- A module that sends a chunk of a gradient again, counted where it is not its first transmission. -/
def Module.sentAgain (m : Module) (i : Nat) (c : SentChunk) : Module :=
  let m1 := m.setSent i { c with at_ := m.now, waiting := false }
  (if c.retry = 0 then m1 else m1.setPort c.port { m1.port c.port with retransmits := satN 32 ((m1.port c.port).retransmits + 1) }).sendSegments c

section Gradient

variable {m : Module} {mac i r gp gf : Nat} {msg : List Byte} {c : SentChunk}

theorem heardFrom_grad (owner : c.owner = .grad gp gf) : m.heardFrom c = m := by
  unfold Module.heardFrom
  rw [owner]

theorem resend_grad (owner : c.owner = .grad gp gf) : m.resend i c = m.sentAgain i c := by
  unfold Module.resend Module.sentAgain
  rw [owner]

/-- A chunk that may still be retransmitted goes with RETRY + 1. -/
theorem retransmit_grad (owner : c.owner = .grad gp gf) (more : c.retry < 4) :
    m.retransmit i c = m.sentAgain i { c with retry := c.retry + 1 } :=
  (if_neg (Nat.not_le.2 more)).trans (resend_grad owner)

theorem doAck_grad {port : Nat} (names : m.answered mac 1 msg = some (i, c, r)) (owner : c.owner = .grad gp gf) :
    doAck port mac msg m = { m with fab.sent := m.fab.sent.eraseIdx i } := by
  unfold doAck
  simp only [names, owner]

theorem doNak_grad {port : Nat} (names : m.answered mac 2 msg = some (i, c, r)) (owner : c.owner = .grad gp gf) :
    doNak port mac msg m = if r < c.retry then m else m.retransmit i { c with nak := true } := by
  unfold doNak
  simp only [names, heardFrom_grad owner]

theorem doWaitAnswer_grad {port : Nat} (names : m.answered mac 3 msg = some (i, c, r)) (owner : c.owner = .grad gp gf) :
    doWaitAnswer port mac msg m = if r < c.retry then m else m.setSent i { c with waiting := true, at_ := m.now } := by
  unfold doWaitAnswer
  simp only [names, heardFrom_grad owner]

end Gradient

theorem doAckTimeout_passed {m : Module} {i : Nat} {c : SentChunk} (held : m.fab.sent[i]? = some c) (passed : m.usPassed c.at_ m.ackUs = true) :
    doAckTimeout i m = if c.waiting = true then m.resend i c else m.retransmit i c := by
  unfold doAckTimeout
  rw [held]
  exact if_neg (by simp [passed])

/-- Settles O39: a segment by whether a partial chunk of its key is held, GAP_TIMEOUT by `gapOut`, and each answer by what it does with the sent
chunk it names. That an accepted chunk is remembered for ever, so that a partial copy of it has its ACK again, is the model's (log 40). -/
theorem chunks : Obligations.Chunks := by
  unfold Obligations.Chunks
  intro s
  refine ⟨?first, ?later, ?gap, ?sent⟩
  case first =>
    intro port mac msg etype q type row sealed new whole answer
    have run : doChunkSegment port mac msg s.m = _ :=
      ((doChunkSegment_typed type row).trans (segment_first sealed new)).trans (collect_first s.m _ new)
    have all (h : whole = true) : doChunkSegment port mac msg s.m = s.m.chunkWhole port q := run.trans (if_pos h)
    exact ⟨fun part => onModule_same (run.trans (if_neg (Bool.eq_false_iff.1 part))) rfl,
      fun h old => onModule_of ((all h).trans (chunkWhole_accepted old)),
      fun h fresh crc more => onModule_of ((all h).trans (chunkWhole_corrupt fresh crc more))⟩
  case later =>
    intro port mac msg e etype q sn type row sealed held
    have run : doChunkSegment port mac msg s.m = _ := (doChunkSegment_typed type row).trans (segment_later sealed held)
    exact ⟨fun early => onModule_of (run.trans (if_pos early)),
      fun passed atEnd => onModule_of ((run.trans (if_neg (by simp [passed]))).trans (if_neg (by simp [atEnd])))⟩
  case gap =>
    intro port i q held passed m0 answer
    have run := doGapTimeout_passed held passed
    exact ⟨fun old => onModule_of (run.trans (gapOut_accepted old)), fun new more => onModule_of (run.trans (gapOut_new new more))⟩
  case sent =>
    intro i c gp gf held owner again
    refine ⟨fun port mac r msg => ⟨fun names => ?ack, fun names => ?nak, fun names => ?wait⟩, fun passed => ?timeout⟩
    case ack => exact onModule_same (doAck_grad names owner) rfl
    case nak =>
      have run : doNak port mac msg s.m = _ := doNak_grad names owner
      exact ⟨fun stale => onModule_still (run.trans (if_pos stale)),
        fun live more => onModule_of ((run.trans (if_neg (Nat.not_lt.2 live))).trans (retransmit_grad owner more))⟩
    case wait =>
      have run : doWaitAnswer port mac msg s.m = _ := doWaitAnswer_grad names owner
      exact ⟨fun stale => onModule_still (run.trans (if_pos stale)), fun live => onModule_same (run.trans (if_neg (Nat.not_lt.2 live))) rfl⟩
    case timeout =>
      have run := doAckTimeout_passed held passed
      exact ⟨fun waits => onModule_of ((run.trans (if_pos waits)).trans (resend_grad owner)),
        fun none_ more => onModule_of ((run.trans (if_neg (by simp [none_]))).trans (retransmit_grad owner more))⟩

end Sys2Proof.Machine
end

section
/-! Herds: HERD_RUN, deadlines, LOST and HERD_ABORT (R371, R376 to R380, R383). -/

namespace Sys2Proof.Machine

open Sys2Proof

/-! ## HERD_RUN (R371, R398) -/

/-- The command of queue `q` has started, with the operation number of its herd. -/
def Module.herdCmd (m : Module) (q opSeq : Nat) : Module := (m.startCmd q).setQueue q { (m.startCmd q).queue q with opSeq := opSeq }

theorem doHerdRun_starts {m : Module} {q : Nat} (start : m.atStart q 0x20 = true) (running : (m.part (q / 64)).st = .running)
    (task : (m.part (q / 64)).taskRunning = true) (idle : (m.herd (4096 * (q / 64) + (m.queue q).param 0 12)).run = none) :
    let y := m.queue q
    let p := q / 64
    let i := y.param 0 12
    doHerdRun q m = ((m.herdCmd q (m.herd (4096 * p + i)).opSeq).startOp p i (y.param 32 24) (y.param 64 56) (y.param 128 56) (some q) none).herdGo p i
      herdFuel := by
  intro y p i
  unfold doHerdRun
  simp only [start, running, task, idle]
  rfl

/-! ## Deadlines (R376 to R378) -/

section Deadlines

variable {m : Module} {p i k c t : Nat} {r : HerdOp} {x : ChunkIn}

/-- Members of stage `k` whose input to a chunk lacks. -/
def Herd.late (h : Herd) (k : Nat) (x : ChunkIn) : List Nat :=
  (h.included k).filter (fun j => (kget? x.tiles j).isNone && j ≠ (h.stage k).self)

/-- The misses of stage `k` once those of chunk `c` have been added. -/
def StageRun.missedWith (a : StageRun) (late : List Nat) (c : Nat) : List (Nat × Nat) := a.missed ++ late.map (fun j => (j, c))

theorem doHerdDeadlineExpiry_over (run : (m.herd (4096 * p + i)).run = some r) (input : kget? (r.at_ k).ins c = some x) (first : x.first = some t)
    (leads : (m.herd (4096 * p + i)).leads k = true)
    (past : m.usOver t ((m.herd (4096 * p + i)).deadlineUs * (2 * k - 1)) = true) :
    let h := m.herd (4096 * p + i)
    let late := h.late k x
    let missed := (r.at_ k).missedWith late c
    doHerdDeadlineExpiry p i k c m =
      (late.filter (fun j => threeMisses ((missed.filter (fun e => e.1 = j)).map Prod.snd) c)).foldl (fun m j => m.memberLost p i k j)
        ((m.setRun (4096 * p + i) (r.setAt k { r.at_ k with missed := missed, ins := kput (r.at_ k).ins c { x with first := none } })).modPart p
          (fun y => { y with dlMisses := satN 32 (y.dlMisses + late.length) })) := by
  intro h late missed
  unfold doHerdDeadlineExpiry
  simp only [run, input, first, leads, past]
  rfl

theorem doResultDeadlineExpiry_late (run : (m.herd (4096 * p + i)).run = some r) (timer : kget? r.resTimer c = some t) (lacks : c ∉ r.arrived)
    (passed : m.usPassed t (4 * (m.herd (4096 * p + i)).top * (m.herd (4096 * p + i)).deadlineUs) = true) :
    let h := m.herd (4096 * p + i)
    let m1 := (m.setRun (4096 * p + i) { r with resTimer := kdel r.resTimer c, resMissed := r.resMissed ++ [c] }).modPart p
      (fun y => { y with dlMisses := satN 32 (y.dlMisses + 1) })
    doResultDeadlineExpiry p i c m = if threeMisses (r.resMissed ++ [c]) c = true then
      m1.abortTask p 0x0502 { Loc.ring h.portDie with sub := (h.stage h.levels).leader } h.levels else m1 := by
  intro h m1
  unfold doResultDeadlineExpiry
  have absent : r.arrived.contains c = false := Bool.eq_false_iff.2 (mt List.contains_iff_mem.1 lacks)
  simp only [run, timer, absent, passed]
  rfl

end Deadlines

/-! ## LOST and HERD_ABORT (R378 to R380, R383) -/

section Control

variable {m : Module} {port mac key k j n : Nat} {msg : List Byte}

theorem doHerdAbort_malformed (bad : badHerdMsg msg 1 = true) : doHerdAbort port mac msg m = m.discard port := if_pos bad

theorem doLost_malformed (bad : badHerdMsg msg 2 = true) : doLost port mac msg m = m.discard port := if_pos bad

theorem doHerdAbort_unnamed (good : badHerdMsg msg 1 = false) (none_ : m.herdMsg mac msg = none) : doHerdAbort port mac msg m = m := by
  unfold doHerdAbort
  simp [good, none_]

theorem doLost_unnamed (good : badHerdMsg msg 2 = false) (none_ : m.herdMsg mac msg = none) : doLost port mac msg m = m := by
  unfold doLost
  simp [good, none_]

/-- LOST for this module, from the leader of its group, aborts its task. -/
theorem doLost_self (good : badHerdMsg msg 2 = false) (names : m.herdMsg mac msg = some (key, k, j, n)) :
    let g := (m.herd key).stage k
    g.self = j → g.self ≠ g.leader → g.macs.getD g.leader 0 = mac →
    doLost port mac msg m = m.abortTask (key / 4096) 0x0502 { Loc.ring (m.herd key).portDie with sub := j } k := by
  intro g self member sender
  unfold doLost
  simp only [good, names]
  exact (if_neg Bool.false_ne_true).trans (if_neg (by simpa [g] using ⟨⟨self, sender⟩, member⟩))

theorem doHerdAbort_member (good : badHerdMsg msg 1 = false) (names : m.herdMsg mac msg = some (key, k, j, n))
    (sender : ((m.herd key).stage k).macs.getD j 0 = mac) (included : (k, j) ∉ (m.herd key).lost) :
    doHerdAbort port mac msg m = m.abortFrom (key / 4096) (key % 4096) k j (some mac) := by
  unfold doHerdAbort
  simp only [good, names]
  exact (if_neg Bool.false_ne_true).trans ((if_neg (not_not_intro sender)).trans (if_neg (mt List.contains_iff_mem.1 included)))

/-- Where the herd does not re-form, an abort of a member is counted and aborts the task. -/
theorem abortFrom_final {p i : Nat} (back : Option Nat) (task : (m.part p).taskRunning = true) (final : (m.herd (4096 * p + i)).reform = false) :
    m.abortFrom p i k j back = (m.modPart p (fun y => { y with abortsRx := satN 16 (y.abortsRx + 1) })).abortTask p 0x0502
      { Loc.ring (m.herd (4096 * p + i)).portDie with sub := j } k back := by
  unfold Module.abortFrom
  simp only [task, final, Bool.and_false]
  rfl

end Control

/-- Settles O40: HERD_RUN by `startOp`, each deadline by the misses it adds, LOST and HERD_ABORT by what they name. -/
theorem herdCommands : Obligations.HerdCommands := by
  unfold Obligations.HerdCommands
  intro s
  refine ⟨?run, ?deadline, ?result, ?unnamed, ?named⟩
  case run =>
    intro q y p key h m1 n start running task idle
    exact onModule_of (doHerdRun_starts start running task idle)
  case deadline =>
    intro p i k c t r x key h run input first leads past late missed
    exact onModule_of (doHerdDeadlineExpiry_over run input first leads past)
  case result =>
    intro p i c t r key h run timer lacks passed m1
    have late := doResultDeadlineExpiry_late run timer lacks passed
    exact ⟨fun few => onModule_of (late.trans (if_neg (Bool.eq_false_iff.1 few))), fun third => onModule_of (late.trans (if_pos third))⟩
  case unnamed =>
    intro port mac msg dropped
    exact ⟨fun bad => onModule_same (doHerdAbort_malformed bad) rfl, fun bad => onModule_same (doLost_malformed bad) rfl,
      fun none_ => ⟨fun good => onModule_still (doHerdAbort_unnamed good none_), fun good => onModule_still (doLost_unnamed good none_)⟩⟩
  case named =>
    intro port mac key k j n msg h names
    refine ⟨fun good self member sender => onModule_of (doLost_self good names self member sender), fun good sender included task final => ?_⟩
    have here : 4096 * (key / 4096) + key % 4096 = key := Nat.div_add_mod ..
    have abort := abortFrom_final (m := s.m) (k := k) (j := j) (i := key % 4096) (some mac) task (by rw [here]; exact final)
    rw [here] at abort
    exact onModule_of ((doHerdAbort_member good names sender included).trans abort)

end Sys2Proof.Machine
end

section
/-! The sideband loop, the fault log and the AOS interrupts (R379, R471, R479, R509 to R518, R522). -/

namespace Sys2Proof.Machine

open Sys2Proof

/-- A command whose effect R522 does not watch completes with what holds of that effect. -/
theorem completes_same {i : Instr} {s : State} {f : Module → Module} {m : Module} {P : Module → Prop} (h : exec i s = onModule s f)
    (run : f s.m = m) (watched : m.watched = s.m.watched) (holds : P m) : Completes i s P :=
  ⟨_, h.trans (onModule_same run watched), rfl, holds⟩

/-! ## Loop frames (R510 to R514) -/

/-- A module that has forwarded a frame of another slot; one of the tray controller keeps the loop alive. -/
def Module.heardLoop (m : Module) (frame : BitVec 160) : Module :=
  if fld frame.toNat 4 4 = 0 then { m.emit (.sideband frame) with sup.side.lastAt := m.now, sup.side.loopOk := true } else m.emit (.sideband frame)

/-- Forwarding a frame sends it and may mark the loop as alive, and does no more. -/
theorem heardLoop_keep (m : Module) (frame : BitVec 160) :
    ∃ a b, m.heardLoop frame = { m.emit (.sideband frame) with sup.side.lastAt := a, sup.side.loopOk := b } := by
  unfold Module.heardLoop
  split
  · exact ⟨_, _, rfl⟩
  · exact ⟨_, _, rfl⟩

section Loop

variable {m : Module} {frame : BitVec 160} {act : Module → Module}

theorem loopIn_bad (standby : m.mech.standby = true) (inLoop : m.sup.side.bypass = false)
    (bad : crc32c (leBytes 16 frame.toNat) ≠ fld frame.toNat 128 32) :
    m.loopIn frame act = { m with sup.side.framesBad := satN 16 (m.sup.side.framesBad + 1) } :=
  (if_neg (by simp [standby, inLoop])).trans (if_pos bad)

theorem loopIn_own (standby : m.mech.standby = true) (inLoop : m.sup.side.bypass = false)
    (good : crc32c (leBytes 16 frame.toNat) = fld frame.toNat 128 32) (own : fld frame.toNat 4 4 = m.sup.side.slot) : m.loopIn frame act = m :=
  (if_neg (by simp [standby, inLoop])).trans ((if_neg (not_not_intro good)).trans (if_pos own))

theorem loopIn_other (standby : m.mech.standby = true) (inLoop : m.sup.side.bypass = false)
    (good : crc32c (leBytes 16 frame.toNat) = fld frame.toNat 128 32) (other : fld frame.toNat 4 4 ≠ m.sup.side.slot) :
    m.loopIn frame act = act (m.heardLoop frame) :=
  (if_neg (by simp [standby, inLoop])).trans ((if_neg (not_not_intro good)).trans (if_neg other))

/-- A row for one TYPE does what a loop frame does, where its frame has that TYPE. -/
theorem loopType_eq (t : Nat) : loopType t frame m = if fld frame.toNat 0 4 = t then doSidebandFrame frame m else m := rfl

theorem loopType_of {t : Nat} (type : fld frame.toNat 0 4 = t) : loopType t frame m = doSidebandFrame frame m := if_pos type

theorem loopType_own (t : Nat) (still : doSidebandFrame frame m = m) : loopType t frame m = m := by
  rw [loopType_eq, still, ite_self]

end Loop

/-! ## What a forwarded frame does (R471, R479, R512 to R514) -/

section Act

variable {m : Module} {x : Nat}

theorem loopAct_time (type : fld x 0 4 = 1) (tray : fld x 4 4 = 0) : m.loopAct x = m.loopTime x := by
  unfold Module.loopAct
  simp [type, tray]

theorem loopAct_cap (type : fld x 0 4 = 2) (tray : fld x 4 4 = 0) : m.loopAct x = m.loopCap x := by
  unfold Module.loopAct
  simp [type, tray]

theorem loopAct_coolant (type : fld x 0 4 = 3) (tray : fld x 4 4 = 0) : m.loopAct x = { m with pwr.coolantFault := bitAt x 16 } := by
  unfold Module.loopAct
  simp [type, tray]

theorem loopAct_stop (type : fld x 0 4 = 4) : m.loopAct x = m.loopStop x := by
  unfold Module.loopAct
  simp [type]

/-- A frame of a TYPE that the spec does not give, or of another module and not HERD_STOP, is only forwarded. -/
theorem loopAct_none (h : fld x 0 4 = 0 ∨ 5 ≤ fld x 0 4 ∨ (¬ fld x 4 4 = 0 ∧ fld x 0 4 ≠ 4)) : m.loopAct x = m := by
  unfold Module.loopAct
  split
  case h_4 type => omega
  case h_5 => rfl
  all_goals exact if_neg (by simp only [decide_eq_true_eq]; omega)

/-! ## HERD_STOP (R379, R513) -/

theorem loopStop_unnamed (none_ : m.herdOf (fld x 16 32) = none) : m.loopStop x = m := by
  unfold Module.loopStop
  simp only [none_]

/-- The herd operation and member that a HERD_STOP names. -/
def stopOf (x : Nat) : Nat × Nat × Nat := (fld x 16 32, fld x 48 32, fld x 80 10)

theorem loopStop_idle {k : Nat} (named : m.herdOf (fld x 16 32) = some k)
    (h : (m.part (k / 4096)).taskRunning = false ∨ stopOf x ∈ m.sup.side.acted ∨ fld x 80 10 = ((m.herd k).stage 1).self
      ∨ ((m.herd k).stage 1).macs.length ≤ fld x 80 10) : m.loopStop x = m := by
  unfold Module.loopStop
  simp only [named]
  refine if_pos ?_
  unfold stopOf at h
  simp only [Bool.or_eq_true, Bool.not_eq_true', decide_eq_true_eq, List.contains_iff_mem]
  rcases h with halted | acted | self | absent
  · exact .inl (.inl (.inl halted))
  · exact .inr acted
  · exact .inl (.inr self.symm)
  · exact .inl (.inl (.inr absent))

theorem loopStop_acts {k : Nat} (named : m.herdOf (fld x 16 32) = some k) (task : (m.part (k / 4096)).taskRunning = true)
    (fresh : stopOf x ∉ m.sup.side.acted) (another : fld x 80 10 ≠ ((m.herd k).stage 1).self)
    (member : fld x 80 10 < ((m.herd k).stage 1).macs.length) (included : (1, fld x 80 10) ∉ (m.herd k).lost) :
    m.loopStop x = Module.abortFrom
      { m with sup.side.acted := m.sup.side.acted ++ [stopOf x], sup.side.stopsActed := satN 16 (m.sup.side.stopsActed + 1) }
      (k / 4096) (k % 4096) 1 (fld x 80 10) ((m.herd k).stage 1).macs[fld x 80 10]? := by
  unfold Module.loopStop
  simp only [named]
  refine (if_neg ?_).trans (if_neg (mt List.contains_iff_mem.1 included))
  unfold stopOf at fresh
  simp [task, fresh, another.symm, member]

end Act

/-- The oldest HERD_STOP frame is sent again once 100 µs have passed. -/
theorem doHerdStopResend_due {m : Module} {f : BitVec 160} {t : Nat} {rest : List (BitVec 160 × Nat)} (resend : m.sup.side.resend = (f, t) :: rest)
    (standby : m.mech.standby = true) (passed : m.usPassed t 100 = true) :
    doHerdStopResend m = { m.emit (.sideband f) with sup.side.resend := rest } := by
  unfold doHerdStopResend
  simp only [resend, standby, passed]
  rfl

/-! ## The fault log (R515, R518) -/

/-- The first record in order is the one that the log takes next. -/
theorem foldl_earlier {r x : FaultRec} {l : List FaultRec} (mem : r ∈ x :: l) (first : ∀ y ∈ x :: l, y ≠ r → r.key < y.key) :
    l.foldl earlier (some x) = some r := by
  induction l generalizing x with
  | nil => rw [List.mem_singleton.1 mem]; rfl
  | cons y l ih =>
    obtain ⟨firstX, firstY, firstL⟩ : (x ≠ r → r.key < x.key) ∧ (y ≠ r → r.key < y.key) ∧ ∀ z ∈ l, z ≠ r → r.key < z.key := by
      simpa only [List.forall_mem_cons] using first
    have mem' : r = x ∨ r = y ∨ r ∈ l := by simpa only [List.mem_cons] using mem
    rw [List.foldl_cons, earlier]
    split
    · next before =>
      have notX : x = r → y = r := fun e => Decidable.byContradiction fun ne => absurd (firstY ne) (by rw [e] at before; omega)
      refine ih (List.mem_cons.2 ?_) (List.forall_mem_cons.2 ⟨firstY, firstL⟩)
      rcases mem' with h | h | h
      · exact .inl (notX h.symm).symm
      · exact .inl h
      · exact .inr h
    · next after_ =>
      have notY : y = r → x = r := fun e => Decidable.byContradiction fun ne => absurd (firstX ne) (by rw [e] at after_; omega)
      refine ih (List.mem_cons.2 ?_) (List.forall_mem_cons.2 ⟨firstX, firstL⟩)
      rcases mem' with h | h | h
      · exact .inl h
      · exact .inl (notY h.symm).symm
      · exact .inr h

/-- Records held for 64 sk. -/
def Module.heldRecs (m : Module) : List FaultRec := (m.sup.intakeFatal ++ m.sup.intake).filter (fun r => m.skPassed r.time 64)

/-- A module whose log has taken the record `r` of its intake. -/
def Module.logged (m : Module) (r : FaultRec) : Module :=
  { m with
    sup.intake := m.sup.intake.erase r
    sup.intakeFatal := if m.sup.intake.contains r then m.sup.intakeFatal else m.sup.intakeFatal.erase r
    sup.log := kput m.sup.log m.sup.nextIndex (r.bytes m.sup.boot m.sup.seq)
    sup.nextIndex := (m.sup.nextIndex + 1) % 4_096, sup.seq := (m.sup.seq + 1) % 2 ^ 32 }

theorem doLogWrite_none {m : Module} (none_ : m.heldRecs = []) : doLogWrite m = m := by
  unfold doLogWrite
  unfold Module.heldRecs at none_
  rw [none_]
  rfl

theorem doLogWrite_first {m : Module} {r : FaultRec} (mem : r ∈ m.heldRecs) (first : ∀ y ∈ m.heldRecs, y ≠ r → r.key < y.key) :
    doLogWrite m = (m.logged r).raiseIrq 0 := by
  have takes : m.heldRecs.foldl earlier none = some r := by
    generalize m.heldRecs = l at mem first
    cases l with
    | nil => exact absurd mem List.not_mem_nil
    | cons x l => exact foldl_earlier mem first
  unfold doLogWrite
  unfold Module.heldRecs at takes
  simp only [takes]
  rfl

/-- The intake is shorter by the record that the log takes. -/
theorem logged_intake {m : Module} {r : FaultRec} (mem : r ∈ m.heldRecs) :
    (m.logged r).sup.intakeFatal.length + (m.logged r).sup.intake.length + 1 = m.sup.intakeFatal.length + m.sup.intake.length := by
  have held : r ∈ m.sup.intakeFatal ∨ r ∈ m.sup.intake := List.mem_append.1 (List.mem_filter.1 mem).1
  unfold Module.logged
  by_cases inEvents : r ∈ m.sup.intake
  · have shorter := List.length_erase_of_mem inEvents
    have some_ := List.length_pos_of_mem inEvents
    simp only [List.contains_iff_mem, inEvents, if_true]
    omega
  · have inFatal := held.resolve_right inEvents
    have shorter := List.length_erase_of_mem inFatal
    have some_ := List.length_pos_of_mem inFatal
    simp only [List.contains_iff_mem, inEvents, if_false, List.erase_of_not_mem inEvents]
    omega

/-! ## AOS interrupts (R522) -/

theorem raiseIrq_watched (m : Module) (i : Nat) : (m.raiseIrq i).watched = m.watched := by
  obtain ⟨a, b, c, o, h⟩ := raiseIrq_only m i
  rw [h]
  rfl

theorem aosVector_status (m : Module) (i : Nat) : (m.aosVector i).sup.irqStatus = m.sup.irqStatus := by
  unfold Module.aosVector
  extract_lets free
  split
  · rfl
  · split <;> rfl

/-- The status bit of a cause that occurs reads 1. -/
theorem raiseIrq_status {m : Module} (standby : m.mech.standby = true) (i : Nat) : bitAt (m.raiseIrq i).sup.irqStatus i = true := by
  unfold Module.raiseIrq
  split
  · next h => simpa [standby] using h
  · have set : bitAt (m.sup.irqStatus ||| 2 ^ i) i = true := by rw [bitAt_eq, Nat.testBit_or, Nat.testBit_two_pow_self, Bool.or_true]
    extract_lets m1
    split
    · rw [aosVector_status]
      exact set
    · exact set

/-- The word of `n` bits whose bit `i` is `f i`, as the model sums it. -/
theorem bitAt_sum (f : Nat → Bool) (n : Nat) :
    let x := (List.range n).foldl (fun a i => if f i then a + 2 ^ i else a) 0
    x < 2 ^ n ∧ ∀ i, i < n → bitAt x i = f i := by
  induction n with
  | zero => exact ⟨Nat.one_pos, fun i hi => absurd hi (Nat.not_lt_zero i)⟩
  | succ n ih =>
    intro x
    obtain ⟨small, bits⟩ := ih
    have step : x = if f n then (List.range n).foldl (fun a i => if f i then a + 2 ^ i else a) 0 + 2 ^ n
        else (List.range n).foldl (fun a i => if f i then a + 2 ^ i else a) 0 := by
      simp only [x, List.range_succ, List.foldl_append, List.foldl_cons, List.foldl_nil]
    generalize (List.range n).foldl (fun a i => if f i then a + 2 ^ i else a) 0 = y at small bits step
    have top : y.testBit n = false := Nat.testBit_lt_two_pow small
    simp only [bitAt_eq] at bits ⊢
    rw [step, Nat.pow_succ]
    cases fn : f n
    · refine ⟨by simp only [Bool.false_eq_true, if_false]; omega, fun i hi => ?_⟩
      rcases Nat.lt_succ_iff_lt_or_eq.1 hi with lower | rfl
      · exact bits i lower
      · exact top.trans fn.symm
    · refine ⟨by simp only [if_true]; omega, fun i hi => ?_⟩
      rw [if_pos rfl, Nat.add_comm]
      rcases Nat.lt_succ_iff_lt_or_eq.1 hi with lower | rfl
      · exact (Nat.testBit_two_pow_add_gt lower y).trans (bits i lower)
      · rw [Nat.testBit_two_pow_add_eq, top, fn]; rfl

/-- A vector that is no longer deferred. -/
def Module.undeferred (m : Module) (i : Nat) : Module := { m with sup.irqDefer := m.sup.irqDefer.filter (· ≠ i) }

theorem doAosIrqDeferExpiry_passed {m : Module} {i : Nat} (deferred : i ∈ m.sup.irqDefer) (up : m.hostUp = true)
    (passed : ∀ t, kget? m.sup.irqAt i = some t → m.usPassed t 10 = true) :
    doAosIrqDeferExpiry i m = if (bitAt m.sup.irqStatus i && bitAt m.sup.irqEn i) = true then
        { (m.undeferred i).emit (.msix (1_024 + i)) with sup.irqAt := kput m.sup.irqAt i m.now }
      else m.undeferred i := by
  have past : (match kget? m.sup.irqAt i with | some t => m.usPassed t 10 | none => true) = true := by
    split
    · next t h => exact passed t h
    · rfl
  unfold doAosIrqDeferExpiry
  extract_lets late
  rw [show late = true from past]
  exact if_neg (by simp [deferred, up])

/-- Settles O56: loop frames by `loopIn` and what each TYPE does, timers and the log by what their operations do, the interrupt status bit by bit.
That the tray cap is kept within 60 to 310 is the model's (log 59). -/
theorem loopAndLog : Obligations.LoopAndLog := by
  unfold Obligations.LoopAndLog
  intro s
  refine ⟨fun frame => ?loop, fun ok late => ?timeout, fun cap late => ?lapse, fun f t rest resend standby passed => ?resend, ?log, fun src v => ?clear,
    fun i deferred up passed => ?expiry⟩
  case loop =>
    intro x tray all sent heard good standby inLoop
    refine ⟨fun bad => onModule_same (loopIn_bad standby inLoop bad) rfl, fun ok own => ?own, fun ok other => ?other⟩
    case own =>
      have still : doSidebandFrame frame s.m = s.m := loopIn_own standby inLoop ok own
      simp only [all, List.forall_mem_cons]
      exact ⟨onModule_still still, onModule_still (loopType_own 1 still), onModule_still (loopType_own 2 still),
        onModule_still (loopType_own 3 still), onModule_still (loopType_own 4 still), fun _ h => absurd h List.not_mem_nil⟩
    case other =>
      have run : doSidebandFrame frame s.m = Module.loopAct heard x := loopIn_other standby inLoop ok other
      obtain ⟨lastAt, loopOk, keep⟩ : ∃ a b, heard = { s.m.emit (.sideband frame) with sup.side.lastAt := a, sup.side.loopOk := b } :=
        heardLoop_keep s.m frame
      clear_value heard
      subst keep
      have row {t : Nat} (type : fld x 0 4 = t) : loopType t frame s.m = _ := (loopType_of type).trans run
      have same {t : Nat} (type : fld x 0 4 = t) : onModule s (doSidebandFrame frame) = onModule s (loopType t frame) :=
        onModule_as (loopType_of type).symm rfl rfl
      refine ⟨same, same, same, same, fun forwards => onModule_same (run.trans (loopAct_none forwards)) rfl,
        fun fromTray type => onModule_same ((row type).trans (loopAct_time type fromTray)) rfl,
        fun fromTray type => onModule_of ((row type).trans (loopAct_cap type fromTray)),
        fun fromTray type => onModule_same ((row type).trans (loopAct_coolant type fromTray)) rfl, fun type => ?_⟩
      intro j act
      have stop := (row type).trans (loopAct_stop type)
      exact ⟨fun none_ => onModule_same (stop.trans (loopStop_unnamed none_)) rfl, fun k named =>
        ⟨fun idle => onModule_same (stop.trans (loopStop_idle named idle)) rfl,
         fun task fresh another member included => onModule_of (stop.trans (loopStop_acts named task fresh another member included))⟩⟩
  case timeout => exact onModule_of (if_pos (by simp [ok, late]))
  case lapse => exact onModule_of (if_pos (by simp [Option.isSome_iff_ne_none.2 cap, late]))
  case resend => exact onModule_same (doHerdStopResend_due resend standby passed) rfl
  case log =>
    intro held
    refine ⟨fun none_ => onModule_still (doLogWrite_none none_), fun r mem first =>
      completes_same (f := doLogWrite) rfl (doLogWrite_first mem first) (raiseIrq_watched ..) ?_⟩
    have status := raiseIrq_status (m := s.m.logged r) (i := 0)
    obtain ⟨a, b, c, o, h⟩ := raiseIrq_only (s.m.logged r) 0
    rw [h] at status ⊢
    exact ⟨kget?_kput_self .., fun i hi => kget?_kput_ne _ _ hi, rfl, rfl, logged_intake mem, status⟩
  case clear =>
    exact completes_same (f := doIrqStatusClear src v) rfl rfl rfl
      ⟨(bitAt_sum (fun i => bitAt s.m.sup.irqStatus i && !bitAt v.toNat i) 7).2, rfl⟩
  case expiry =>
    have run := doAosIrqDeferExpiry_passed deferred up passed
    refine ⟨fun status enabled => onModule_same (run.trans (if_pos (by simp [status, enabled]))) rfl, fun clear => ?_⟩
    exact onModule_same (run.trans (if_neg (by rcases clear with h | h <;> simp [h]))) rfl

end Sys2Proof.Machine
end

section
/-! Queue control (R394 to R396, R400): what ENABLE, DISABLE, doorbells, SKIP, RETRY and a read of the tail word make of a queue's record. -/

namespace Sys2Proof.Machine

open Sys2Proof

/-- A command that replaces the record of one queue. -/
theorem onModule_setQueue {s : State} {f : Module → Module} {q : Nat} {y : Queue} (h : f s.m = s.m.setQueue q y) :
    onModule s f = .next { s with m := s.m.setQueue q y } := onModule_same h rfl

/-- A command that replaces the record of one queue by one of two. -/
theorem onModule_setQueue_ite {s : State} {f : Module → Module} {q : Nat} {c : Prop} [Decidable c] {y z : Queue}
    (h : f s.m = if c then s.m.setQueue q y else s.m.setQueue q z) :
    onModule s f = .next { s with m := s.m.setQueue q (if c then y else z) } :=
  onModule_setQueue (h.trans (apply_ite (s.m.setQueue q) c y z).symm)

theorem setQueue_setQueue (m : Module) (q : Nat) (y z : Queue) : (m.setQueue q y).setQueue q z = m.setQueue q z :=
  congrArg (fun queues => { m with que.queues := queues }) (kput_kput ..)

/-- The record of a queue that ENABLE has made ACTIVE, with empty rings (R394). -/
def Queue.enabled (x : Queue) : Queue :=
  { x with
    st := .active, configErr := false, dbErr := false, stopCode := 0, sqHead := 0, sqTail := 0, cqTail := 0, cqHead := 0, phase := true
    desc := none, todo := [] }

section Control

variable {m : Module} {src : Source} {q : Nat} {x : Queue} (hx : m.queue q = x)

include hx

theorem doEnable_disabled (may : m.cfgOk src = true) (st : x.st = .disabled) :
    doEnable src q m = if m.enableOk q then m.setQueue q x.enabled else m.setQueue q { x with configErr := true } := by
  unfold doEnable
  rw [hx]
  exact if_neg (by simp [may, st])

/-- The checks of ENABLE on a host ring are those of the two ring sizes. -/
theorem enableOk_host (host : bitAt x.sqBase 0 = false) :
    m.enableOk q = true ↔ (4 ≤ fld x.cfg 0 5 ∧ fld x.cfg 0 5 ≤ 16) ∧ 4 ≤ fld x.cfg 8 5 ∧ fld x.cfg 8 5 ≤ 16 := by
  unfold Module.enableOk
  simp only [hx, Queue.terourn, host, Bool.not_false, Bool.true_or, Bool.and_true, Bool.and_eq_true, decide_eq_true_eq, and_assoc]

theorem doDisable_running (may : m.cfgOk src = true) (st : x.st = .active ∨ x.st = .stopped) (running : x.running = true) :
    doDisable src q m = m.setQueue q { x with st := .disabling, waiting := false, passed := false, stopCode := 0 } := by
  unfold doDisable
  rw [hx]
  refine (if_neg (by rcases st with h | h <;> simp [may, h])).trans ((if_pos (by simp [running])).trans ?_)
  rw [if_pos running]

theorem doDisable_idle (may : m.cfgOk src = true) (st : x.st = .active ∨ x.st = .stopped) (idle : x.running = false) (todo : x.todo = []) :
    doDisable src q m = m.setQueue q { x with st := .disabled, desc := none, waiting := false, passed := false, stopCode := 0 } := by
  unfold doDisable
  rw [hx]
  exact (if_neg (by rcases st with h | h <;> simp [may, h])).trans (if_neg (by simp [idle, todo]))

theorem doQueSqTail_rung {v : Word} (st : x.st ≠ .disabled) (host : bitAt x.sqBase 0 = false) :
    doQueSqTail q v m = if x.sqSize ≤ fld v.toNat 0 16 then m.setQueue q { x with dbErr := true }
      else m.setQueue q { x with sqTail := fld v.toNat 0 16 } := by
  unfold doQueSqTail
  rw [hx]
  exact if_neg (by simp [Queue.terourn, host, st])

theorem doQueCqHead_rung {v : Word} (st : x.st ≠ .disabled) :
    doQueCqHead q v m = if x.cqSize ≤ fld v.toNat 0 16 then m.setQueue q { x with dbErr := true }
      else m.setQueue q { x with cqHead := fld v.toNat 0 16 } := by
  unfold doQueCqHead
  rw [hx]
  exact if_neg st

/-- A DISABLED queue ignores its doorbells (R396). -/
theorem doorbells_disabled (st : x.st = .disabled) (v : Word) : doQueSqTail q v m = m ∧ doQueCqHead q v m = m := by
  unfold doQueSqTail doQueCqHead
  rw [hx]
  exact ⟨if_pos (by simp [st]), if_pos st⟩

theorem doSkip_stopped (st : x.st = .stopped) :
    doSkip src q m = m.setQueue q { x with st := .active, stopCode := 0, sqHead := (x.sqHead + 1) % 2 ^ fld x.cfg 0 5 } := by
  unfold doSkip
  rw [hx]
  exact if_neg (not_not_intro st)

theorem doRetry_stopped (st : x.st = .stopped) : doRetry src q m = m.setQueue q { x with st := .active, stopCode := 0 } := by
  unfold doRetry
  rw [hx]
  exact if_neg (not_not_intro st)

theorem doTailWordPoll_read (st : x.st = .active) (terourn : bitAt x.sqBase 0 = true) :
    doTailWordPoll q m = if x.sqSize ≤ leNat (m.load x.tailAddr 2) then m.setQueue q { x with dbErr := true }
      else m.setQueue q { x with sqTail := leNat (m.load x.tailAddr 2) } := by
  unfold doTailWordPoll
  rw [hx]
  exact if_neg (by simp [st, Queue.terourn, terourn])

end Control

/-- Settles O42: the record that each command leaves. That a tail word beyond the ring sets DB_ERR is the model's (log 24). -/
theorem queueControl : Obligations.QueueControl := by
  unfold Obligations.QueueControl
  intro s src q x entry set size
  have hx : s.m.queue q = x := queue_of entry
  refine ⟨fun may st => ⟨?enable, fun host => enableOk_host hx host⟩, fun may st => ⟨fun running => ?disable, fun idle todo => ?disableIdle⟩,
    fun v => ⟨fun st host => ?sqTail, fun st => ?cqHead, fun st => ?ignored⟩, fun st => ⟨?skip, ?retry⟩, fun st terourn => ?tailWord⟩
  case enable => exact ite_next (f := doEnable src q) (doEnable_disabled hx may st) rfl rfl
  case disable => exact onModule_setQueue (f := doDisable src q) (doDisable_running hx may st running)
  case disableIdle => exact onModule_setQueue (f := doDisable src q) (doDisable_idle hx may st idle todo)
  case sqTail => exact onModule_setQueue_ite (f := doQueSqTail q v) (doQueSqTail_rung hx st host)
  case cqHead => exact onModule_setQueue_ite (f := doQueCqHead q v) (doQueCqHead_rung hx st)
  case ignored =>
    obtain ⟨sqTail, cqHead⟩ := doorbells_disabled hx st v
    exact ⟨onModule_still (f := doQueSqTail q v) sqTail, onModule_still (f := doQueCqHead q v) cqHead⟩
  case skip => exact onModule_setQueue (f := doSkip src q) (doSkip_stopped hx st)
  case retry => exact onModule_setQueue (f := doRetry src q) (doRetry_stopped hx st)
  case tailWord => exact onModule_setQueue_ite (f := doTailWordPoll q) (doTailWordPoll_read hx st terourn)

end Sys2Proof.Machine
end

section
/-! Entries of a queue (R389, R399 to R403): their fetch and checks, their fences, NOP, completions and vectors. -/

namespace Sys2Proof.Machine

open Sys2Proof

/-- The record of a queue that has fetched the entry `d` at its head (R400). -/
def Queue.fetched (y : Queue) (d : Nat) : Queue :=
  { y with
    desc := some (BitVec.ofNat 512 d), idx := y.sqHead, map := [], waiting := false, passed := false, running := false, copyPos := 0
    pieces := [] }

/-! ## The checks of an entry (R400) -/

section Entry

variable {m : Module} {q : Nat} {y : Queue} {hostDesc hostData : List Byte}

/-- A queue of a host ring at an entry that it has not fetched, with the host reached. -/
structure AtHostEntry (m : Module) (q : Nat) (y : Queue) (hostDesc : List Byte) : Prop where
  queue : m.queue q = y
  act : y.st = .active
  none_ : y.desc = none
  todo : y.todo = []
  entry : y.sqHead ≠ y.sqTail
  up : m.hostUp = true
  host : bitAt y.sqBase 0 = false
  whole : hostDesc.length = 64

/-- The checks of the entry that a queue has fetched, of the bytes `bs`, in their order (R400). -/
def Module.checkEntry (m : Module) (q : Nat) (bs hostData : List Byte) : Module :=
  let d := leNat bs
  let op := fld d 0 8
  if !sealOk 64 bs then m.finish q 0x0603 true false 1
  else if !assignedOp op then m.finish q 0x0603 true false 2
  else if fld d 22 10 ≠ 0 || fld d 96 32 ≠ 0 || fld d 384 96 ≠ 0 || unusedParams op d ≠ 0 then m.finish q 0x0603 true false 3
  else if zeroCount op d then m.finish q 0 false true 0
  else
    match m.sizeFault (q / 64) op d hostData with
    | some (code, info) => m.finish q code true false (info + sessionInfo d)
    | none => m.setQueue q { m.queue q with
        map := if op = 0x40 || op = 0x41 then hostData else [], waiting := bitAt d 8, passed := !bitAt d 8 }

/-- The entry at the head of a host ring is fetched and checked. -/
theorem doDescriptorEntry_host (h : AtHostEntry m q y hostDesc) :
    doDescriptorEntry q hostDesc hostData m = (m.setQueue q (y.fetched (leNat hostDesc))).checkEntry q hostDesc hostData := by
  unfold doDescriptorEntry
  rw [h.queue]
  refine (if_neg (by simp [h.act, h.none_, h.todo, h.entry, h.up])).trans ?_
  simp only [Queue.terourn, h.host, Bool.false_eq_true, if_false, padTo_self h.whole]
  rfl

/-- An entry that a check rejects ends with the code of the check, and stops its queue. -/
theorem finish_fetched (d code info : Nat) (stop noop : Bool) :
    (m.setQueue q (y.fetched d)).finish q code stop noop info = ended m q (y.fetched d) code info stop noop := by
  rw [finish_ended _ _ _ _ _ _ (by rw [Module.setQueue_queue]; rfl), Module.setQueue_queue, ended_setQueue]

theorem checkEntry_badCrc (m : Module) (q : Nat) (bad : sealOk 64 hostDesc = false) :
    m.checkEntry q hostDesc hostData = m.finish q 0x0603 true false 1 := if_pos (by rw [bad]; rfl)

theorem checkEntry_badOp (m : Module) (q : Nat) (good : sealOk 64 hostDesc = true) (bad : assignedOp (fld (leNat hostDesc) 0 8) = false) :
    m.checkEntry q hostDesc hostData = m.finish q 0x0603 true false 2 :=
  (if_neg (by rw [good]; decide)).trans (if_pos (by rw [bad]; rfl))

/-- NOP and the partition commands. -/
def plainOps : List Nat := [0x00, 0x01, 0x02, 0x03, 0x04]

/-- NOP and the partition commands are assigned; they use no PARAMS bit, and have neither a count nor an address to check (R398). -/
theorem plainOps_checks (m : Module) {op : Nat} (plain : op ∈ plainOps) (p d : Nat) (data : List Byte) :
    assignedOp op = true ∧ unusedParams op d = fld d 128 256 ∧ zeroCount op d = false ∧ m.sizeFault p op d data = none
      ∧ (decide (op = 0x40) || decide (op = 0x41)) = false := by
  simp only [plainOps, List.mem_cons, List.not_mem_nil, or_false] at plain
  obtain rfl | rfl | rfl | rfl | rfl := plain <;> exact ⟨rfl, rfl, rfl, rfl, rfl⟩

section Plain

variable (plain : fld (leNat hostDesc) 0 8 ∈ plainOps) (good : sealOk 64 hostDesc = true)

include plain good

theorem checkEntry_reserved (m : Module) (q : Nat)
    (set : fld (leNat hostDesc) 22 10 ≠ 0 ∨ fld (leNat hostDesc) 96 32 ≠ 0 ∨ fld (leNat hostDesc) 384 96 ≠ 0 ∨ fld (leNat hostDesc) 128 256 ≠ 0) :
    m.checkEntry q hostDesc hostData = m.finish q 0x0603 true false 3 := by
  obtain ⟨assigned, unused, -, -, -⟩ := plainOps_checks m plain (q / 64) (leNat hostDesc) hostData
  refine (if_neg (by rw [good]; decide)).trans ((if_neg (by rw [assigned]; decide)).trans (if_pos ?_))
  simpa only [unused, Bool.or_eq_true, decide_eq_true_eq, or_assoc] using set

theorem checkEntry_passes (m : Module) (q : Nat) (h22 : fld (leNat hostDesc) 22 10 = 0) (h96 : fld (leNat hostDesc) 96 32 = 0)
    (h384 : fld (leNat hostDesc) 384 96 = 0) (params : fld (leNat hostDesc) 128 256 = 0) :
    m.checkEntry q hostDesc hostData = m.setQueue q { m.queue q with
      map := [], waiting := bitAt (leNat hostDesc) 8, passed := !bitAt (leNat hostDesc) 8 } := by
  obtain ⟨assigned, unused, counted, sized, notKerf⟩ := plainOps_checks m plain (q / 64) (leNat hostDesc) hostData
  refine (if_neg (by rw [good]; decide)).trans ((if_neg (by rw [assigned]; decide)).trans ((if_neg ?_).trans
    ((if_neg (by rw [counted]; decide)).trans ?_)))
  · simp [unused, h22, h96, h384, params]
  · simp only [sized, notKerf, Bool.false_eq_true, if_false]

end Plain

end Entry

/-! ## Fences and NOP (R398, R399) -/

theorem doFenceWaitSatisfied_waiting {m : Module} {q : Nat} {y : Queue} (hy : m.queue q = y) (waiting : y.waiting = true) :
    doFenceWaitSatisfied q m =
      if (kgetD 0 m.que.fences (64 * (q / 64) + y.fld 9 6) + 2 ^ 32 - y.fld 32 32) % 2 ^ 32 < 2 ^ 31
      then m.setQueue q { y with waiting := false, passed := true } else m := by
  unfold doFenceWaitSatisfied
  rw [hy]
  simp only [waiting, Bool.true_and, decide_eq_true_eq]
  rfl

/-- A command that ends at its start with code 0. -/
theorem endAtStart_ended {m : Module} {q : Nat} {y : Queue} (hy : m.queue q = y) (desc : y.desc.isSome = true) (info : Nat) :
    m.endAtStart q info = ended m q y 0 info false false :=
  (finish_ended _ _ _ _ _ _ (by rw [hy]; exact desc)).trans (by rw [hy])

theorem doQueueNop_atStart {s : State} {q : Nat} {y : Queue} (h : AtStart s q 0x00 y) (notDraining : (s.m.part (q / 64)).st ≠ .draining) :
    doQueueNop q s.m = ended s.m q y 0 0 false false :=
  (if_pos (atStart_of h notDraining)).trans (endAtStart_ended (queue_of h.entry) h.desc 0)

/-! ## Completions and vectors (R389, R401 to R403) -/

theorem emit_emit (m : Module) (e f : Emission) : (m.emit e).emit f = { m with out := m.out ++ [e, f] } :=
  congrArg (fun out => { m with out := out }) (List.append_assoc ..)

section Completion

variable {m : Module} {q : Nat} {y : Queue}

/-- A completion whose acknowledgement was lost is written again, unchanged. -/
theorem doCompletionWrite_again {a : Nat} {bs : List Byte} (hy : m.queue q = y) (redo : y.redo = true) (written : y.written = some (a, bs))
    (up : m.hostUp = true) : doCompletionWrite q m = (m.emit (.hostWrite a bs)).setQueue q { y with redo := false } := by
  unfold doCompletionWrite
  rw [hy]
  simp only [redo, up, Bool.and_self, if_true, written]

/-- Where the next completion of a queue goes. -/
def Queue.cqAddr (y : Queue) : Nat := y.cqBase / 4096 * 4096 + 32 * y.cqTail

/-- The record of a queue that has written its oldest completion, before the vector: the phase is inverted at the wrap (R403). -/
def Queue.wrote (y : Queue) (c : Completion) (rest : List Completion) : Queue :=
  let last := y.cqTail + 1 = 2 ^ Machine.fld y.cfg 8 5
  { y with
    todo := rest, written := some (y.cqAddr, completionBytes c y.phase), cqTail := if last then 0 else y.cqTail + 1
    phase := if last then !y.phase else y.phase }

theorem doCompletionWrite_first {c : Completion} {rest : List Completion} (hy : m.queue q = y) (first : y.redo = false ∨ y.written = none)
    (todo : y.todo = c :: rest) (on : y.st ≠ .disabled) (stays : y.st ≠ .disabling) (up : m.hostUp = true) (space : y.cqSpace ≠ 0) :
    doCompletionWrite q m =
      ((m.emit (.hostWrite y.cqAddr (completionBytes c y.phase))).setQueue q (y.wrote c rest)).queueVector q := by
  have none_ : (if y.redo && m.hostUp then y.written else none) = none := by
    rcases first with h | h <;> simp [h]
  unfold doCompletionWrite
  rw [hy]
  simp only [none_, todo]
  refine (if_neg (by simp [on, up, space])).trans ?_
  simp only [stays, decide_false, Bool.false_and, Bool.false_eq_true, if_false, decide_eq_true_eq]
  rfl

theorem queueVector_off (hy : m.queue q = y) (off : bitAt y.cfg 16 = false) : m.queueVector q = m := by
  unfold Module.queueVector
  rw [hy]
  exact if_pos (by simp [off])

theorem queueVector_sent (hy : m.queue q = y) (on : bitAt y.cfg 16 = true) (never : y.irqAt = none) :
    m.queueVector q = (m.emit (.msix q)).setQueue q { y with irqAt := some m.now, irqDefer := false } := by
  unfold Module.queueVector
  simp only [hy, on, never, Bool.not_true, Bool.false_eq_true, if_false, if_true]

theorem queueVector_deferred {t : Nat} (hy : m.queue q = y) (on : bitAt y.cfg 16 = true) (at_ : y.irqAt = some t)
    (early : m.usPassed t 1 = false) : m.queueVector q = m.setQueue q { y with irqDefer := true } := by
  unfold Module.queueVector
  simp only [hy, on, at_, early, Bool.not_true, Bool.false_eq_true, if_false]

theorem doMsixDeferExpiry_due {t : Nat} (hy : m.queue q = y) (deferred : y.irqDefer = true) (at_ : y.irqAt = some t)
    (passed : m.usPassed t 1 = true) (up : m.hostUp = true) :
    doMsixDeferExpiry q m = (m.emit (.msix q)).setQueue q { y with irqAt := some m.now, irqDefer := false } := by
  unfold doMsixDeferExpiry
  rw [hy]
  exact if_pos (by simp [deferred, at_, passed, up])

end Completion

/-- Settles O43: entries by the first check that rejects them, completions by `doCompletionWrite_first` and what the vector then does. -/
theorem queueEntries : Obligations.QueueEntries := by
  unfold Obligations.QueueEntries
  intro s q y entry set
  have hy : s.m.queue q = y := queue_of entry
  refine ⟨fun hostDesc hostData act none_ todo more up host whole => ?fetch, fun waiting => ?fence,
    fun h notDraining => onModule_same (f := doQueueNop q) (doQueueNop_atStart h notDraining) rfl, fun a bs redo written up => ?again,
    fun c rest first todo on stays up space => ?completion, fun t deferred at_ passed up => ?deferred⟩
  case fetch =>
    intro d op y0 stops
    have run := doDescriptorEntry_host (hostData := hostData) ⟨hy, act, none_, todo, more, up, host, whole⟩
    have stopped {info : Nat} (h : (s.m.setQueue q y0).checkEntry q hostDesc hostData = (s.m.setQueue q y0).finish q 0x0603 true false info) :
        stops info :=
      onModule_same (f := doDescriptorEntry q hostDesc hostData) ((run.trans h).trans (finish_fetched (m := s.m) (y := y) d ..)) rfl
    refine ⟨fun bad => stopped (checkEntry_badCrc _ q bad), fun good => ⟨fun bad => ?opcode, fun plain =>
      ⟨fun reserved => stopped (checkEntry_reserved plain good _ q reserved), fun h22 h96 h384 params => ?passes⟩⟩⟩
    case opcode => exact stopped (checkEntry_badOp _ q good (by simpa [assignedOp] using bad))
    case passes =>
      have passes := run.trans (checkEntry_passes plain good _ q h22 h96 h384 params)
      rw [Module.setQueue_queue, setQueue_setQueue] at passes
      exact onModule_setQueue (f := doDescriptorEntry q hostDesc hostData) passes
  case fence => exact ite_next (f := doFenceWaitSatisfied q) (doFenceWaitSatisfied_waiting hy waiting) rfl rfl
  case again => exact onModule_same (f := doCompletionWrite q) (doCompletionWrite_again hy redo written up) rfl
  case completion =>
    intro last a bs y1 w sent
    have run := doCompletionWrite_first hy first todo on stays up space
    have queue : ((s.m.emit w).setQueue q y1).queue q = y1 := Module.setQueue_queue ..
    refine ⟨fun off => ?off, fun on never => ?sent, fun t on at_ early => ?held⟩
    case off => exact onModule_same (f := doCompletionWrite q) (run.trans (queueVector_off queue off)) rfl
    case sent =>
      refine onModule_same (f := doCompletionWrite q) (((run.trans (queueVector_sent queue on never)).trans
        (setQueue_setQueue ((s.m.emit w).emit (.msix q)) q y1 _)).trans ?_) rfl
      rw [emit_emit]
      rfl
    case held =>
      exact onModule_same (f := doCompletionWrite q) ((run.trans (queueVector_deferred queue on at_ early)).trans (setQueue_setQueue ..)) rfl
  case deferred => exact onModule_same (f := doMsixDeferExpiry q) (doMsixDeferExpiry_due hy deferred at_ passed up) rfl

end Sys2Proof.Machine
end

section
/-! Copies between host memory and Terourn space (R398, R407, R418, R430). -/

namespace Sys2Proof.Machine

open Sys2Proof

/-! ## The start of a copy (R398, R407) -/

/-- The copy of opcode `op` of queue `q` goes on: `m0` is `m` with its start behind it, and `y0` the record of its queue there, whose fields that
the copy reads are those of `y`. -/
structure CopyGoesOn (m : Module) (q op : Nat) (y : Queue) (m0 : Module) (y0 : Queue) : Prop where
  started : m.startCopy q op (decide (op = 0x11)) = m0
  queue : m0.queue q = y0
  running : y0.running = true
  desc : y0.desc = y.desc
  entry : y.desc.isSome = true
  opcode : y.op = op
  pos : y0.copyPos = y.copyPos
  pieces : y0.pieces = y.pieces
  rest : ∃ queues, m0 = { m with que.queues := queues }

/-- The record of a queue whose command has started (R395). -/
def Queue.begun (y : Queue) : Queue := { y with running := true, passed := false, sqHead := (y.idx + 1) % 2 ^ Machine.fld y.cfg 0 5 }

/-- The states in which a copy starts: COPY_OUT also in FAILED (R398). -/
def copyStates (op : Nat) (st : PartState) : Prop := st = .ready ∨ st = .running ∨ st = .halted ∨ (op = 0x11 ∧ st = .failed)

theorem copyStates_draining {op : Nat} {st : PartState} (h : copyStates op st) : st ≠ .draining := by
  rintro rfl
  simp [copyStates] at h

section Start

variable {s : State} {q op : Nat} {y : Queue}

theorem startCopy_starts (h : AtStart s q op y) (state : copyStates op (s.m.part (q / 64)).st)
    (good : s.m.copyBad (q / 64) (y.param 0 56) (y.param 128 32) = false) :
    s.m.startCopy q op (decide (op = 0x11)) = s.m.setQueue q y.begun := by
  unfold Module.startCopy
  rw [queue_of h.entry]
  refine (if_neg (by simp [atStart_of h (copyStates_draining state)])).trans ((if_neg ?_).trans ((if_neg (by simp [good])).trans
    (startCmd_eq (queue_of h.entry))))
  rcases state with e | e | e | ⟨e, e'⟩ <;> simp [*]

/-- A copy in a state that does not allow it ends with 0x0601 at its start. -/
theorem startCopy_badState (h : AtStart s q op y) (notSession : op < 0x31)
    (st : (s.m.part (q / 64)).st = .off ∨ (s.m.part (q / 64)).st = .loading ∨ (op = 0x10 ∧ (s.m.part (q / 64)).st = .failed)) :
    s.m.startCopy q op (decide (op = 0x11)) = ended s.m q y 0x0601 0 true false := by
  have notDraining : (s.m.part (q / 64)).st ≠ .draining := by rcases st with e | e | ⟨-, e⟩ <;> simp [e]
  unfold Module.startCopy
  refine (if_neg (by simp [atStart_of h notDraining])).trans ((if_pos ?_).trans ((badStart_ended h).trans ?_))
  · rcases st with e | e | ⟨e', e⟩ <;> simp [*]
  · rw [if_neg (by omega)]

/-- A copy whose Terourn range breaks its object check ends with 0x0602 at its start. -/
theorem startCopy_badObject (h : AtStart s q op y)
    (st : (s.m.part (q / 64)).st = .ready ∨ (s.m.part (q / 64)).st = .running ∨ (s.m.part (q / 64)).st = .halted)
    (bad : s.m.copyBad (q / 64) (y.param 0 56) (y.param 128 32) = true) :
    s.m.startCopy q op (decide (op = 0x11)) = ended s.m q y 0x0602 0 true false := by
  have notDraining : (s.m.part (q / 64)).st ≠ .draining := by rcases st with e | e | e <;> simp [e]
  have hy := queue_of h.entry
  unfold Module.startCopy
  rw [hy]
  refine (if_neg (by simp [atStart_of h notDraining])).trans ((if_neg ?_).trans ((if_pos bad).trans ?_))
  · rcases st with e | e | e <;> simp [e]
  · rw [finish_ended _ _ _ _ _ _ (by rw [hy]; exact h.desc), hy]

/-- The copy of a queue that has ended moves nothing. -/
theorem copyAt_ended (m : Module) (q op' : Nat) (x : Queue) (code info : Nat) (stop noop : Bool) :
    (ended m q x code info stop noop).copyAt q op' = none := by
  have idle : ((ended m q x code info stop noop).queue q).running = false := by
    unfold ended Module.queue
    dsimp only
    rw [kgetD_kput_self]
  unfold Module.copyAt
  simp [idle]

theorem doCopyIn_ended {m : Module} {x : Queue} {code info : Nat} {stop noop : Bool} {host : Bytes}
    (ended_ : m.startCopy q 0x10 false = ended m q x code info stop noop) : doCopyIn q host m = ended m q x code info stop noop := by
  simp only [doCopyIn, ended_, copyAt_ended]

theorem doCopyOut_ended {m : Module} {x : Queue} {code info : Nat} {stop noop : Bool}
    (ended_ : m.startCopy q 0x11 true = ended m q x code info stop noop) : doCopyOut q m = ended m q x code info stop noop := by
  simp only [doCopyOut, ended_, copyAt_ended]

theorem CopyGoesOn.of_running (entry : kget? s.m.que.queues q = some y) (running : y.running = true) (opcode : y.op = op)
    (desc : y.desc.isSome = true) : CopyGoesOn s.m q op y s.m y where
  started := startCopy_running (queue_of entry) running
  queue := queue_of entry
  running := running
  desc := rfl
  entry := desc
  opcode := opcode
  pos := rfl
  pieces := rfl
  rest := ⟨s.m.que.queues, rfl⟩

theorem CopyGoesOn.of_atStart (h : AtStart s q op y) (state : copyStates op (s.m.part (q / 64)).st)
    (good : s.m.copyBad (q / 64) (y.param 0 56) (y.param 128 32) = false) : CopyGoesOn s.m q op y (s.m.setQueue q y.begun) y.begun where
  started := startCopy_starts h state good
  queue := Module.setQueue_queue ..
  running := rfl
  desc := rfl
  entry := h.desc
  opcode := h.opcode
  pos := rfl
  pieces := rfl
  rest := ⟨_, rfl⟩

end Start

/-! ## A piece of a copy (R407) -/

section Piece

variable {m m0 : Module} {q op a n : Nat} {y y0 : Queue}

theorem CopyGoesOn.param (h : CopyGoesOn m q op y m0 y0) (lo w : Nat) : y0.param lo w = y.param lo w := by
  unfold Queue.param Queue.fld
  rw [h.desc]

theorem CopyGoesOn.op_eq (h : CopyGoesOn m q op y m0 y0) : y0.op = op := by
  rw [← h.opcode]
  unfold Queue.op Queue.fld
  rw [h.desc]

theorem CopyGoesOn.hasEntry (h : CopyGoesOn m q op y m0 y0) : y0.desc.isSome = true := h.desc ▸ h.entry

theorem CopyGoesOn.hostUp (h : CopyGoesOn m q op y m0 y0) : m0.hostUp = m.hostUp := by
  obtain ⟨queues, rest⟩ := h.rest
  rw [rest]
  rfl

theorem CopyGoesOn.storeFails (h : CopyGoesOn m q op y m0 y0) (pg : Nat) : m0.storeFails pg = m.storeFails pg := by
  obtain ⟨queues, rest⟩ := h.rest
  rw [rest]
  rfl

theorem CopyGoesOn.watched (h : CopyGoesOn m q op y m0 y0) : m0.watched = m.watched := by
  obtain ⟨queues, rest⟩ := h.rest
  rw [rest]
  rfl

/-- The next piece of the copy. -/
theorem CopyGoesOn.at_ (h : CopyGoesOn m q op y m0 y0) (more : y.copyPos < y.param 128 32) (room : y.pieces.length < 32) :
    let a := y.param 0 56 + 64 * y.copyPos
    m0.copyAt q op = some (a, pieceBytes a (64 * (y.param 128 32 - y.copyPos))) := by
  intro a
  unfold Module.copyAt
  rw [h.queue]
  refine (if_pos (by simp [h.running, h.op_eq, h.param, h.pos, h.pieces, more, room, maxPieces])).trans ?_
  rw [h.param, h.param, h.pos]

/-- A copy that loses its host access, its pool or its data ends with a code. -/
theorem CopyGoesOn.endCopy (h : CopyGoesOn m q op y m0 y0) (code : Nat) :
    m0.endCopy q code = ended (m0.copyFreed q) q y0 code (y.pieces.foldl (fun a x => min a x.pos) y.copyPos) false false := by
  rw [endCopy_eq h.queue h.running h.hasEntry, Queue.copied, h.pieces, h.pos]

/-- Once the host or the pool holds every piece and the last line has moved, the copy ends; otherwise it goes on. -/
theorem CopyGoesOn.moved {m1 : Module} (h : CopyGoesOn m q op y m0 y0) (copies : op = 0x10 ∨ op = 0x11) (queue : m1.queue q = y0)
    (piece : List CopyPiece) :
    let y1 := { y0 with copyPos := y.copyPos + n / 64, pieces := y.pieces ++ piece }
    m1.copyMoved q n piece = if y1.pieces = [] ∧ y.param 128 32 ≤ y1.copyPos then ended (m1.copyFreed q) q y1 0 y1.copyPos false false
      else m1.setQueue q y1 := by
  intro y1
  rw [copyMoved_eq (y1 := y1) queue h.running h.hasEntry (by rw [h.op_eq]; exact copies) (by rw [h.pos, h.pieces]), h.param]

/-- R522 watches nothing that the end or the progress of a copy changes. -/
theorem copyMoved_watched {c : Prop} [Decidable c] (m : Module) (q : Nat) (y : Queue) (info : Nat) :
    (if c then ended (m.copyFreed q) q y 0 info false false else m.setQueue q y).watched = m.watched := by
  split <;> rfl

/-! ## COPY_IN (R407, R430) -/

section CopyIn

variable {host : Bytes} (h : CopyGoesOn m q 0x10 y m0 y0) (piece : m0.copyAt q 0x10 = some (a, n))

include h piece

theorem doCopyIn_lost (lost : m.hostUp = false ∨ m.storeFails (a / pageBytes) = true ∨ m0.fetchTiles (.copy q) (partTiles a n) = none) :
    doCopyIn q host m = m0.endCopy q 0x0202 := by
  have started : m.startCopy q 0x10 false = m0 := h.started
  simp only [doCopyIn, started, piece, h.hostUp, h.storeFails]
  rcases lost with down | none_ | none_
  · exact if_pos (by simp [down])
  · exact if_pos (by simp [none_])
  · rw [none_, ite_self]

variable (up : m.hostUp = true) (lands : m.storeFails (a / pageBytes) = false)

include up lands

/-- A piece that the host can send and its page can take is stored once its tiles are there. -/
theorem doCopyIn_reaches {m1 : Module} :
    (m0.fetchTiles (.copy q) (partTiles a n) = some (m1, false) → doCopyIn q host m = m1)
    ∧ ∀ m2, m0.fetchTiles (.copy q) (partTiles a n) = some (m1, true) →
      (m1.store a (padTo n 0 host) (.copyIn q y.copyPos) = (m2, false) → doCopyIn q host m = m2)
      ∧ (m1.store a (padTo n 0 host) (.copyIn q y.copyPos) = (m2, true) → doCopyIn q host m = m2.copyMoved q n
        (if (m2.page (a / pageBytes)).tier = 1 then []
         else [{ pos := y.copyPos, lines := n / 64, host := decide ((m2.page (a / pageBytes)).tier = 2)
                 open_ := if (m2.page (a / pageBytes)).tier = 2 then 1 else (tilesIn a n).length }])) := by
  have started : m.startCopy q 0x10 false = m0 := h.started
  have goes : (!m0.hostUp || m0.storeFails (a / pageBytes)) = false := by rw [h.hostUp, h.storeFails, up, lands]; rfl
  have pos : (m0.queue q).copyPos = y.copyPos := by rw [h.queue, h.pos]
  simp only [doCopyIn, started, piece, goes, pos, Bool.false_eq_true, if_false]
  refine ⟨fun fetch => ?_, fun m2 fetch => ⟨fun store => ?_, fun store => ?_⟩⟩
  · simp only [fetch]
  · simp only [fetch, store]
  · simp only [fetch, store]

/-- A piece for a page of T1 that no kerf and no move holds is stored at once. -/
theorem doCopyIn_t1 {left : Nat} (whole : n = pieceBytes a left) (t1 : (m.page (a / pageBytes)).tier = 1)
    (calm : (m.page (a / pageBytes)).pending = false) (still : (m.page (a / pageBytes)).move = none)
    (unstalled : (.copyIn q y.copyPos, a / pageBytes) ∉ m.str.stalled) (none_ : ∀ b ∈ m.str.buffers, b.1 ≠ .copy q) :
    doCopyIn q host m = (m0.putBytes a (padTo n 0 host)).copyMoved q n [] := by
  subst whole
  obtain ⟨queues, rest⟩ := h.rest
  have fetch : m0.fetchTiles (.copy q) (partTiles a (pieceBytes a left)) = some (m0, true) := by
    rw [rest]
    exact fetchTiles_plain (part_lacks t1) none_
  have store : m0.store a (padTo (pieceBytes a left) 0 host) (.copyIn q y.copyPos) = (m0.putBytes a (padTo (pieceBytes a left) 0 host), true) := by
    rw [rest]
    exact store_t1 t1 calm still unstalled
  obtain ⟨w, r, page⟩ := (putBytes_put m0 a (padTo (pieceBytes a left) 0 host)).rest
  have tier : ((m0.putBytes a (padTo (pieceBytes a left) 0 host)).page (a / pageBytes)).tier = 1 := by
    rw [page, rest]
    exact t1
  obtain ⟨-, stores⟩ := doCopyIn_reaches (host := host) (m1 := m0) h piece up lands
  rw [(stores _ fetch).2 store, if_pos tier]

end CopyIn

/-- The store of bytes changes no queue, and nothing that R522 watches. -/
theorem putBytes_queue (m : Module) (a : Nat) (bs : List Byte) (q : Nat) :
    (m.putBytes a bs).queue q = m.queue q ∧ (m.putBytes a bs).watched = m.watched := by
  obtain ⟨_, _, _, _, e⟩ := (putBytes_put m a bs).keep
  rw [e]
  exact ⟨rfl, rfl⟩

/-! ## COPY_OUT (R407) -/

/-- Queues play no part in what a read gives. -/
theorem load_queues (m : Module) (queues : KMap Queue) (a k : Nat) : ({ m with que.queues := queues } : Module).load? a k = m.load? a k :=
  load_same (m := m) (m' := { m with que.queues := queues }) (fun _ _ => rfl) (fun _ _ => rfl) rfl a k

/-- The tiles that a COPY_OUT at Terourn address `a`, with `left` lines to go, asks of the pool ahead (R407). -/
def tilesAhead (a left : Nat) : List Nat := tilesOf a (min (32 * tileBytes) (64 * left))

/-- The module after a COPY_OUT has read the `bs` of a piece, sent them to the host, and given up the tiles that it has behind it. -/
def Module.copiedOut (m : Module) (q a n haddr : Nat) (bs : List Byte) : Module :=
  { ((m.readT1 a n).emit (.hostWrite haddr bs)) with
    str.buffers := m.str.buffers.filter (fun b => b.1 ≠ .copy q || a + n < (b.2 + 1) * tileBytes) }

section CopyOut

variable (h : CopyGoesOn m q 0x11 y m0 y0) (piece : m0.copyAt q 0x11 = some (a, n))

include h piece

theorem doCopyOut_lost (lost : m.hostUp = false ∨ m0.askPool (.copy q) (tilesAhead a (y.param 128 32 - y.copyPos)) = none) :
    doCopyOut q m = m0.endCopy q 0x0202 := by
  have started : m.startCopy q 0x11 true = m0 := h.started
  simp only [doCopyOut, started, piece, h.hostUp, h.queue, h.param, h.pos, maxPieces]
  rcases lost with down | none_
  · exact if_pos (by simp [down])
  · rw [tilesAhead] at none_
    rw [none_, ite_self]

variable (up : m.hostUp = true) {m1 : Module} (ask : m0.askPool (.copy q) (tilesAhead a (y.param 128 32 - y.copyPos)) = some m1)

include up ask

theorem doCopyOut_waits (lacks : m1.lacks (.copy q) (tilesOf a n) ≠ []) : doCopyOut q m = m1 := by
  have started : m.startCopy q 0x11 true = m0 := h.started
  have goes : m0.hostUp = true := h.hostUp.trans up
  rw [tilesAhead] at ask
  simp only [doCopyOut, started, piece, goes, h.queue, h.param, h.pos, maxPieces, ask, Bool.not_true, Bool.false_eq_true, if_false]
  exact if_pos lacks

/-- A piece whose tiles are there is read: it fails at a bad word or a tile that does not decode, and else goes to the host. -/
theorem doCopyOut_reads (has : m1.lacks (.copy q) (tilesOf a n) = []) :
    (∀ stack row, m1.badIn a n = some (stack, row) → doCopyOut q m = (m1.t1Unc stack row).endCopy q 0x0402)
    ∧ (m1.badIn a n = none → m1.load? a n = none → doCopyOut q m = m1.endCopy q 0x0203)
    ∧ ∀ bs, m1.badIn a n = none → m1.load? a n = some bs →
      doCopyOut q m = (m1.copiedOut q a n (y.param 64 64 + 64 * y.copyPos) bs).copyMoved q n [] := by
  have started : m.startCopy q 0x11 true = m0 := h.started
  have goes : m0.hostUp = true := h.hostUp.trans up
  rw [tilesAhead] at ask
  simp only [doCopyOut, started, piece, goes, h.queue, h.param, h.pos, maxPieces, ask, has, Bool.not_true, Bool.false_eq_true, if_false,
    ne_eq, not_true_eq_false]
  refine ⟨fun stack row bad => by simp only [bad], fun good undecoded => by simp only [good, undecoded], fun bs good loaded => ?_⟩
  have buffers : (m1.readT1 a n).str.buffers = m1.str.buffers := by
    obtain ⟨_, _, _, _, _, _, _, _, e⟩ := readT1_keep m1 a n
    rw [e]
  simp only [good, loaded, Module.copiedOut, ← buffers, Module.emit_str]

end CopyOut

end Piece

/-- What COPY_OUT leaves where it has nothing of the pool's and finds no error: the write to the host. -/
theorem copiedOut_plain {m : Module} {q a n : Nat} (clean : ∀ e ∈ m.tier.softWords, m.readsWord a n e.1 = false)
    (none_ : ∀ b ∈ m.str.buffers, b.1 ≠ .copy q) (haddr : Nat) (bs : List Byte) :
    m.copiedOut q a n haddr bs = m.emit (.hostWrite haddr bs) := by
  have all : m.str.buffers.filter (fun b => b.1 ≠ .copy q || a + n < (b.2 + 1) * tileBytes) = m.str.buffers := by
    rw [List.filter_eq_self]
    intro b hb
    simp [none_ b hb]
  unfold Module.copiedOut
  rw [all, readT1_plain clean]
  rfl

end Sys2Proof.Machine
end

section
/-! Sessions (R409 to R412, R418). -/

namespace Sys2Proof.Machine

open Sys2Proof

/-- A session command whose start check fails: 0x0601 with its handle, and the queue stops (R402). -/
theorem onModule_badSession {s : State} {q op : Nat} {y : Queue} {f : Module → Module} (h : AtStart s q op y) (named : op = 0x31 ∨ op = 0x32)
    (hf : f s.m = s.m.badStart q) : onModule s f = .next { s with m := ended s.m q y 0x0601 (y.param 0 18) true false } := by
  rw [badStart_ended h, if_pos named] at hf
  exact onModule_same hf (ended_watched ..)

/-- A start check that every session command has fails (R398, R412). -/
theorem session_closed {s : State} {q : Nat} {y : Queue} (notDraining : (s.m.part (q / 64)).st ≠ .draining)
    (closed : s.m.sessionsOpen (q / 64) = false) :
    (AtStart s q 0x30 y → doSessionOpen q s.m = s.m.badStart q) ∧ (AtStart s q 0x31 y → doSessionSubmit q s.m = s.m.badStart q)
    ∧ (AtStart s q 0x32 y → doSessionClose q s.m = s.m.badStart q) := by
  unfold doSessionOpen doSessionSubmit doSessionClose
  refine ⟨fun h => ?_, fun h => ?_, fun h => ?_⟩
  all_goals
    exact (if_neg (by simp [atStart_of h notDraining])).trans (if_pos (by simp [closed]))

/-! ## SESSION_OPEN (R412) -/

/-- A session that is not FREE has its record. -/
theorem listed_of_notFree {m : Module} {p i : Nat} (h : (m.session p i).st ≠ .free) : ∃ e ∈ m.que.sessions, e.1 = 2 ^ 18 * p + i := by
  cases hk : kget? m.que.sessions (sessKey p i) with
  | some z => exact ⟨_, mem_of_kget? hk, rfl⟩
  | none => exact absurd (by rw [Module.session, kgetD, hk]; rfl) h

section Open

variable {s : State} {q : Nat} {y : Queue} (h : AtStart s q 0x30 y) (isOpen : s.m.sessionsOpen (q / 64) = true)

include h isOpen

theorem doSessionOpen_refused
    (no : (s.m.part (q / 64)).sessDeadline (y.param 20 3) = 0 ∨ (kgetD ({} : Model) s.m.que.models (16 * (q / 64) + y.param 23 4)).bound = false) :
    doSessionOpen q s.m = s.m.badStart q := by
  unfold doSessionOpen
  rw [queue_of h.entry]
  refine (if_neg (by simp [atStart_of h (open_draining isOpen)])).trans (if_pos ?_)
  rcases no with e | e <;> simp [isOpen, e]

variable (cls : (s.m.part (q / 64)).sessDeadline (y.param 20 3) ≠ 0)
  (bound : (kgetD ({} : Model) s.m.que.models (16 * (q / 64) + y.param 23 4)).bound = true)

include cls bound

theorem doSessionOpen_full (full : ∀ h, h < (s.m.part (q / 64)).sessionCap → (s.m.session (q / 64) h).st ≠ .free) :
    doSessionOpen q s.m = ended s.m q y 0x0602 0 true false := by
  have hy := queue_of h.entry
  have none_ : (List.range (min (s.m.part (q / 64)).sessionCap (s.m.que.sessions.length + 1))).find?
      (fun h => decide ((s.m.session (q / 64) h).st = .free)) = none := by
    rw [List.find?_eq_none]
    intro h mem
    simp [full h (by have := List.mem_range.1 mem; omega)]
  unfold doSessionOpen
  rw [hy]
  refine (if_neg (by simp [atStart_of h (open_draining isOpen)])).trans ((if_neg (by simp [isOpen, cls, bound])).trans ?_)
  simp only [none_]
  rw [finish_ended _ _ _ _ _ _ (by rw [hy]; exact h.desc), hy]

/-- The session that SESSION_OPEN makes (R412). -/
def openedSession (y : Queue) (now : Nat) : Session :=
  let sub := y.param 192 1 = 1
  { st := if sub then .ready else .idle, cls := y.param 20 3, model := y.param 23 4, notifyQ := y.param 27 6
    notifyEn := decide (y.param 33 1 = 1), slot := y.param 64 32, user := y.param 128 64, readySk := if sub then now else 0 }

theorem doSessionOpen_lowest {i : Nat} (cap : i < (s.m.part (q / 64)).sessionCap) (free : (s.m.session (q / 64) i).st = .free)
    (lowest : ∀ j, j < i → (s.m.session (q / 64) j).st ≠ .free) :
    doSessionOpen q s.m = ended (s.m.setSession (q / 64) i (openedSession y s.m.now)) q y 0 i false false := by
  have listed : i ≤ s.m.que.sessions.length := pigeon (2 ^ 18 * (q / 64)) i s.m.que.sessions (fun j hj => listed_of_notFree (lowest j hj))
  have first : (List.range (min (s.m.part (q / 64)).sessionCap (s.m.que.sessions.length + 1))).find?
      (fun h => decide ((s.m.session (q / 64) h).st = .free)) = some i := by
    rw [List.find?_range_eq_some]
    exact ⟨by simpa using free, List.mem_range.2 (by omega), fun j hj => by simpa using lowest j hj⟩
  unfold doSessionOpen
  rw [queue_of h.entry]
  refine (if_neg (by simp [atStart_of h (open_draining isOpen)])).trans ((if_neg (by simp [isOpen, cls, bound])).trans ?_)
  simp only [first, decide_eq_true_eq]
  exact endAtStart_ended (m := s.m.setSession (q / 64) i (openedSession y s.m.now)) (queue_of h.entry) h.desc i

end Open

/-! ## SESSION_SUBMIT and SESSION_CLOSE (R412, R418) -/

section Named

variable {s : State} {q i : Nat} {y : Queue} {z : Session} (isOpen : s.m.sessionsOpen (q / 64) = true)

include isOpen

/-- What SESSION_SUBMIT does in each state of its session. -/
theorem doSessionSubmit_open (h : AtStart s q 0x31 y) (hi : y.param 0 18 = i) (hz : s.m.session (q / 64) i = z) :
    let done (m : Module) := ended m q y 0 i false false
    (z.st = .idle → doSessionSubmit q s.m =
      done (s.m.setSession (q / 64) i { z with st := .ready, readySk := s.m.now, submitAt := some s.m.now }))
    ∧ (z.st = .ready → doSessionSubmit q s.m = done s.m)
    ∧ (z.st = .inBatch → doSessionSubmit q s.m = done (s.m.setSession (q / 64) i { z with resubmit := true }))
    ∧ (z.st = .free ∨ z.st = .closing → doSessionSubmit q s.m = s.m.badStart q) := by
  intro done
  have hy := queue_of h.entry
  have ends (z' : Session) : (s.m.setSession (q / 64) i z').endAtStart q i = done (s.m.setSession (q / 64) i z') :=
    endAtStart_ended (m := s.m.setSession (q / 64) i z') hy h.desc i
  unfold doSessionSubmit
  rw [hy]
  simp only [atStart_of h (open_draining isOpen), isOpen, hi, hz, Bool.not_true, Bool.false_eq_true, if_false]
  refine ⟨fun st => ?_, fun st => ?_, fun st => ?_, fun st => ?_⟩
  · simp only [st]
    exact ends _
  · simp only [st]
    exact endAtStart_ended hy h.desc i
  · simp only [st]
    rw [← st]
    exact ends _
  · rcases st with st | st <;> simp only [st]

/-- What SESSION_CLOSE does, after the batcher's visit, in each state of its session. -/
theorem doSessionClose_open (h : AtStart s q 0x32 y) (hi : y.param 0 18 = i) (hz : s.m.visit.session (q / 64) i = z) :
    let done (z' : Session) := ended (s.m.visit.setSession (q / 64) i z') q y 0 i false false
    (z.st = .idle ∨ z.st = .ready → doSessionClose q s.m = done { z with st := .free })
    ∧ (z.st = .inBatch → doSessionClose q s.m = done { z with st := .closing })
    ∧ (z.st = .free ∨ z.st = .closing → doSessionClose q s.m = ended s.m.visit q y 0x0601 i true false) := by
  intro done
  have hy := queue_of h.entry
  have visited : AtStart { s with m := s.m.visit } q 0x32 y := { h with entry := (congrArg (kget? · q) (visit_queues s.m)).trans h.entry }
  have ends (z' : Session) : (s.m.visit.setSession (q / 64) i z').endAtStart q i = done z' :=
    endAtStart_ended (m := s.m.visit.setSession (q / 64) i z') (queue_of visited.entry) h.desc i
  unfold doSessionClose
  rw [hy]
  have bad : s.m.visit.badStart q = ended s.m.visit q y 0x0601 i true false := hi ▸ badStart_ended visited
  simp only [atStart_of h (open_draining isOpen), isOpen, hi, hz, bad, Bool.not_true, Bool.false_eq_true, if_false]
  refine ⟨fun st => ?_, fun st => ?_, fun st => ?_⟩
  · rcases st with st | st <;> simp only [st] <;> exact ends _
  · simp only [st]
    exact ends _
  · rcases st with st | st <;> simp only [st]

end Named

/-- Settles O45: a piece of a copy by `CopyGoesOn`, the session commands by what each does in the states of its session. -/
theorem copiesAndSessions : Obligations.CopiesAndSessions := by
  unfold Obligations.CopiesAndSessions
  intro s q y p x entry
  refine ⟨fun op begins => ?piece, fun op host i run h => ?checks, ?opens, fun isOpen => ?named⟩
  case piece =>
    intro y0 m0 lines a n pg lost moved more room
    have h : CopyGoesOn s.m q op y m0 y0 := by
      rcases begins with ⟨running, opcode, desc⟩ | ⟨h, state, good⟩
      · rw [show y0 = y from if_pos running, show m0 = s.m from if_pos running]
        exact .of_running entry running opcode desc
      · have idle : ¬ y.running = true := by rw [h.idle]; decide
        rw [show y0 = y.begun from if_neg idle, show m0 = s.m.setQueue q y0 from if_neg idle, show y0 = y.begun from if_neg idle]
        exact .of_atStart h state good
    have ends (code : Nat) : m0.endCopy q code = lost m0 code := h.endCopy code
    have piece : m0.copyAt q op = some (a, n) := h.at_ more room
    have lostSame (code : Nat) : (lost m0 code).watched = s.m.watched := (ended_watched ..).trans h.watched
    clear_value y0 m0
    refine ⟨?copyIn, ?copyOut⟩
    case copyIn =>
      rintro rfl host
      refine ⟨fun gone => ?lost, fun up lands => ?reaches⟩
      case lost => exact onModule_same (f := doCopyIn q host) ((doCopyIn_lost h piece gone).trans (ends _)) (lostSame _)
      case reaches =>
        have reaches (m1 : Module) := doCopyIn_reaches (host := host) (m1 := m1) h piece up lands
        refine ⟨fun m1 fetch => ?waits, fun m1 m2 fetch => ⟨fun store => ?stalls, fun store => ?stored⟩, fun t1 calm still unstalled none_ => ?inT1⟩
        case waits => exact onModule_of (f := doCopyIn q host) ((reaches m1).1 fetch)
        case stalls => exact onModule_of (f := doCopyIn q host) (((reaches m1).2 m2 fetch).1 store)
        case stored => exact onModule_of (f := doCopyIn q host) (((reaches m1).2 m2 fetch).2 store)
        case inT1 =>
          obtain ⟨queue, same⟩ := putBytes_queue m0 a (padTo n 0 host) q
          exact onModule_same (f := doCopyIn q host) ((doCopyIn_t1 h piece up lands rfl t1 calm still unstalled none_).trans
            (h.moved (.inl rfl) (queue.trans h.queue) [])) ((copyMoved_watched ..).trans (same.trans h.watched))
    case copyOut =>
      rintro rfl
      refine ⟨fun down => ?lost, fun up => ⟨fun none_ => ?noPool, fun m1 ask => ⟨fun lacks => ?waits, fun has => ?reads⟩,
        fun bs has hasPiece good loaded clean none_ => ?plain⟩⟩
      case lost => exact onModule_same (f := doCopyOut q) ((doCopyOut_lost h piece (.inl down)).trans (ends _)) (lostSame _)
      case noPool => exact onModule_same (f := doCopyOut q) ((doCopyOut_lost h piece (.inr none_)).trans (ends _)) (lostSame _)
      case waits => exact onModule_of (f := doCopyOut q) (doCopyOut_waits h piece up ask lacks)
      case reads =>
        obtain ⟨bad, undecoded, reads⟩ := doCopyOut_reads h piece up ask has
        exact ⟨fun stack row e => onModule_of (f := doCopyOut q) (bad stack row e),
          fun good none_ => onModule_of (f := doCopyOut q) (undecoded good none_),
          fun bs good loaded => onModule_of (f := doCopyOut q) (reads bs good loaded)⟩
      case plain =>
        obtain ⟨queues, rest⟩ := h.rest
        obtain ⟨-, -, reads⟩ := doCopyOut_reads h piece up (askPool_none has) hasPiece
        have run := reads bs (by rw [rest]; exact good) (by rw [rest]; exact (load_queues ..).trans loaded)
        rw [copiedOut_plain (by rw [rest]; exact clean) (by rw [rest]; exact none_)] at run
        exact onModule_same (f := doCopyOut q) (run.trans (h.moved (m1 := m0.emit _) (.inr rfl) h.queue []))
          ((copyMoved_watched ..).trans h.watched)
  case checks =>
    obtain ⟨rfl, rfl⟩ | ⟨rfl, rfl⟩ := run
    · exact ⟨fun st => onModule_same (f := doCopyIn q host) (doCopyIn_ended (startCopy_badState h (by decide) st)) rfl,
        fun st bad => onModule_same (f := doCopyIn q host) (doCopyIn_ended (startCopy_badObject h st bad)) rfl⟩
    · exact ⟨fun st => onModule_same (f := doCopyOut q) (doCopyOut_ended (startCopy_badState h (by decide) st)) rfl,
        fun st bad => onModule_same (f := doCopyOut q) (doCopyOut_ended (startCopy_badObject h st bad)) rfl⟩
  case opens =>
    intro model bad
    refine ⟨fun notDraining closed => ?_, fun isOpen h => ⟨fun no => ?_, fun cls bound => ⟨fun full => ?_, fun i cap free lowest => ?_⟩⟩⟩
    · obtain ⟨opens, submits, closes⟩ := session_closed notDraining closed
      exact ⟨fun h => onModule_badStart (f := doSessionOpen q) h (by decide) (opens h),
        fun h => onModule_badSession (f := doSessionSubmit q) h (.inl rfl) (submits h),
        fun h => onModule_badSession (f := doSessionClose q) h (.inr rfl) (closes h)⟩
    · exact onModule_badStart (f := doSessionOpen q) h (by decide) (doSessionOpen_refused h isOpen no)
    · exact onModule_same (f := doSessionOpen q) (doSessionOpen_full h isOpen cls bound full) rfl
    · exact onModule_same (f := doSessionOpen q) (doSessionOpen_lowest h isOpen cls bound cap free lowest) rfl
  case named =>
    intro i
    refine ⟨fun h => ?_, fun h => ?_⟩
    · obtain ⟨idle, ready, inBatch, bad⟩ := doSessionSubmit_open isOpen h rfl rfl
      exact ⟨fun st => onModule_same (f := doSessionSubmit q) (idle st) rfl, fun st => onModule_same (f := doSessionSubmit q) (ready st) rfl,
        fun st => onModule_same (f := doSessionSubmit q) (inBatch st) rfl,
        fun st => onModule_badSession (f := doSessionSubmit q) h (.inl rfl) (bad st)⟩
    · obtain ⟨free, closing, bad⟩ := doSessionClose_open isOpen h rfl rfl
      exact ⟨fun st => onModule_of (f := doSessionClose q) (free st), fun st => onModule_of (f := doSessionClose q) (closing st),
        fun st => onModule_of (f := doSessionClose q) (bad st)⟩

end Sys2Proof.Machine
end

section
/-! Model bindings, the batcher's visit and batch results (R413 to R418). -/

namespace Sys2Proof.Machine

open Sys2Proof

/-! ## Bindings (R413) -/

section Binding

variable {m : Module} {src : Source} {p i : Nat} {v : BitVec 128}

theorem doModelBind_bound (may : m.cfgOk src = true) (st : (m.part p).st = .ready ∨ (m.part p).st = .halted) :
    doModelBind src p i v m = m.setModel (modelKey p i) { m.model (modelKey p i) with
      reg := v.toNat &&& modelMask, valid := bitAt (v.toNat &&& modelMask) 80 && m.bindOk p (v.toNat &&& modelMask) } := by
  unfold doModelBind
  exact if_neg (by rcases st with e | e <;> simp [may, e])

theorem doModelBind_ignored (no : m.cfgOk src = false ∨ ((m.part p).st ≠ .ready ∧ (m.part p).st ≠ .halted)) : doModelBind src p i v m = m := by
  unfold doModelBind
  refine if_pos ?_
  rcases no with e | ⟨e, e'⟩
  · simp [e]
  · simp [e, e']

end Binding

/-! ## The batcher's visit (R414, R418) -/

/-- Setting sessions changes the sessions alone. -/
theorem foldl_setSession {α : Type} (p : Nat) (key : α → Nat) (g : α → Session) (l : List α) (m : Module) :
    ∃ sessions, l.foldl (fun m e => m.setSession p (key e) (g e)) m = { m with que.sessions := sessions } := by
  induction l generalizing m with
  | nil => exact ⟨m.que.sessions, rfl⟩
  | cons a t ih =>
    obtain ⟨sessions, e⟩ := ih (m.setSession p (key a) (g a))
    exact ⟨sessions, e⟩

/-- The models in the order in which the batcher visits them (R414). -/
def Module.visitOrder (m : Module) : List Nat :=
  (m.que.models.map Prod.fst).filter (fun k => m.que.rrModel ≤ k) ++ (m.que.models.map Prod.fst).filter (fun k => k < m.que.rrModel)

/-- With no batch to launch the visit changes nothing. -/
theorem visitModels_none {m : Module} (none_ : ∀ k ∈ m.visitOrder, m.batchOf k = none) : m.visitModels = m := by
  have found : m.visitOrder.findSome? (fun k => (m.batchOf k).map (fun b => (k, b))) = none := by
    rw [List.findSome?_eq_none_iff]
    intro k mem
    rw [none_ k mem]
    rfl
  unfold Module.visitOrder at found
  unfold Module.visitModels
  simp only [found]

/-- The module that has sent the batch `ss` of model `k`, whose binding is `x`; the binding still stands as it did (R414, R415). -/
def Module.batchSent (m : Module) (k : Nat) (x : Model) (ss : List (Nat × Session)) (expired : Bool) : Module :=
  (ss.foldl (fun m e => m.setSession (k / 16) e.1 { e.2 with st := .inBatch, batchSeq := x.seq }) m).ringPacket (k / 16) svcS (fld x.reg 0 14) 0 0
    (flitsOf (batchRecord k x.seq m.now expired ss))

/-- The binding of a model that has launched a batch: one credit less, the next number, one more batch open (R414). -/
def Model.launched (x : Model) (ss : List (Nat × Session)) : Model :=
  { x with credits := x.credits - 1, seq := (x.seq + 1) % 2 ^ 32, open_ := x.open_ ++ [(x.seq, ss.map Prod.fst)] }

/-- A batch that is sent changes the sessions and the network alone. -/
theorem batchSent_keep (m : Module) (k : Nat) (x : Model) (ss : List (Nat × Session)) (expired : Bool) :
    ∃ sessions net, m.batchSent k x ss expired = { m with que.sessions := sessions, net := net } := by
  obtain ⟨sessions, e⟩ := foldl_setSession (k / 16) Prod.fst (fun e : Nat × Session => { e.2 with st := .inBatch, batchSeq := x.seq }) ss m
  unfold Module.batchSent
  rw [e]
  exact ⟨sessions, _, rfl⟩

/-- The visit launches the batch of the first model that has one. -/
theorem visitModels_first {m : Module} {k : Nat} {pre post : List Nat} {ss : List (Nat × Session)} {expired : Bool}
    (order : m.visitOrder = pre ++ k :: post) (none_ : ∀ j ∈ pre, m.batchOf j = none) (first : m.batchOf k = some (ss, expired)) :
    m.visitModels = { m.batchSent k (m.model k) ss expired with
      que.models := kput m.que.models k ((m.model k).launched ss), que.rrModel := k + 1, que.launchAt := some m.now } := by
  have found : m.visitOrder.findSome? (fun k => (m.batchOf k).map (fun b => (k, b))) = some (k, ss, expired) := by
    have before : pre.findSome? (fun k => (m.batchOf k).map (fun b => (k, b))) = none := by
      rw [List.findSome?_eq_none_iff]
      intro j mem
      rw [none_ j mem]
      rfl
    rw [order, List.findSome?_append, before, Option.none_or, List.findSome?_cons, first]
    rfl
  have launch : m.launchBatch k ss expired = (m.batchSent k (m.model k) ss expired).setModel k ((m.model k).launched ss) :=
    launchBatch_eq rfl rfl
  obtain ⟨sessions, net, sent⟩ := batchSent_keep m k (m.model k) ss expired
  unfold Module.visitOrder at found
  unfold Module.visitModels
  simp only [found, launch, sent]
  rfl

/-! ## Batch results (R416 to R418) -/

theorem model_of {m : Module} {k : Nat} {x : Model} (h : kget? m.que.models k = some x) : m.model k = x := by
  rw [Module.model, kgetD, h]
  rfl

/-- The sessions that a binding keeps from results of this sk (R418). -/
def Model.kept (x : Model) (now : Nat) : List (Nat × Session × Bool) :=
  match x.undo with
  | some (t, ss) => if t = now then ss else []
  | none => []

/-- The binding of a model of partition `p` that has taken `n` entries of the result `bs` of its batch `hs` from entry `j` on. -/
def Model.took (x : Model) (m : Module) (p : Nat) (bs : List Byte) (hs : List Nat) (j n : Nat) : Model :=
  { x with undo := some (m.now, x.kept m.now ++ m.before p bs (slice hs j n) j) }

section Result

variable {m m' : Module} {p i j seq : Nat} {x : Model} {bs : List Byte} {hs : List Nat} {rest : List (Nat × List Nat)}
  (hx : m.model (16 * p + i) = x) (small : i < 16) (oldest : x.open_ = (seq, hs) :: rest)

include hx small oldest

/-- A result is held at an entry whose event finds its ring full (R417). -/
theorem takeResult_held {j' : Nat} (take : m.takeEntries p bs hs 33 j = (m', some j')) :
    m.takeResult (16 * p + i) bs j = m'.setModel (16 * p + i) { x.took m p bs hs j (j' - j) with held := some (bs, j') } := by
  have part : (16 * p + i) / 16 = p := by omega
  unfold Module.takeResult
  simp only [hx, part, oldest, take]
  rw [← oldest]
  rfl

/-- A result taken whole ends its batch and returns one credit (R417). -/
theorem takeResult_whole (take : m.takeEntries p bs hs 33 j = (m', none)) :
    m.takeResult (16 * p + i) bs j =
      (m'.setModel (16 * p + i) { x.took m p bs hs j (33 - j) with open_ := rest, held := none }).ringCredit p svcS (fld x.reg 48 14) 1 := by
  have part : (16 * p + i) / 16 = p := by omega
  unfold Module.takeResult
  simp only [hx, part, oldest, take]
  rfl

end Result

/-- The result of a batch whose sessions are all IN_BATCH and take no event moves each on, and is taken whole. -/
theorem takeEntries_quiet {m : Module} {p : Nat} {bs : List Byte} {hs : List Nat} (few : hs.length ≤ 32) (once_ : hs.Nodup)
    (quiet : ∀ h ∈ hs, (m.session p h).st = .inBatch ∧ (m.session p h).notifyEn = false) :
    m.takeEntries p bs hs 33 0 =
      ((hs.zip (List.range hs.length)).foldl (fun n e => n.setSession p e.1 (nextSession (m.session p e.1) (leAt bs (8 + e.2) 1 % 4) m.now)) m, none) := by
  rw [List.range_eq_range']
  exact takeEntries_all p bs hs m once_ 33 hs 0 m rfl (Nat.zero_add _) (by omega) quiet (fun _ _ => rfl) rfl

theorem doBatchResult_goesOn {m : Module} {p i j : Nat} {bs : List Byte} (held : (m.model (16 * p + i)).held = some (bs, j)) :
    doBatchResult p i m = m.takeResult (16 * p + i) bs j := by
  unfold doBatchResult modelKey
  simp only [held]

/-- A packet of one flit on the result route of a bound model that holds no result is a result for SVC-S (R413, R416). -/
theorem arriveDie_result {m : Module} {p k : Nat} {f : Flight} (kind : hKind f.hdr = 0) (one : hLen f.hdr = 0)
    (on : m.modelOn p 32 f.route = some k) (free : (m.model k).held = none) (seq : hSeq f.hdr = kgetD 0 m.net.dieExpect f.route) :
    m.arriveDie p svcS f =
      some (({ m with net.dieExpect := kput m.net.dieExpect f.route ((hSeq f.hdr + 1) % 256) } : Module).resultAtSvc k f) := by
  unfold Module.arriveDie
  simp only [kind, on, one, free, decide_true, Bool.and_self, if_true, Option.isSome_none, Bool.false_eq_true, if_false, ne_eq, not_true_eq_false]
  refine (if_neg (by decide)).trans ((if_neg (by decide)).trans ?_)
  exact congrArg some (inSeqDie_next seq (by rw [kind]; decide))

/-- The oldest packet on the result route of a model is taken as its result. -/
theorem doBatchResult_arrives {m : Module} {p i : Nat} {f : Flight} {rest : List Flight} (free : (m.model (16 * p + i)).held = none)
    (oldest : takeFlight (ringSite svcS) (fld (m.model (16 * p + i)).reg 32 14) m.net.flights = some (f, rest))
    (on : m.modelOn f.part 32 f.route = some (16 * p + i)) (flushed : (m.part f.part).flushing = false) (active : m.active f.part = true)
    (kind : hKind f.hdr = 0) (one : hLen f.hdr = 0) (seq : hSeq f.hdr = kgetD 0 m.net.dieExpect f.route) :
    doBatchResult p i m = ({ m with net := m.net.taken f rest } : Module).resultAtSvc (16 * p + i) f := by
  unfold doBatchResult modelKey
  simp only [free]
  unfold Module.takeArrival
  rw [oldest]
  refine (if_pos (decide_eq_true on)).trans ?_
  rw [arrive_die (m := { m with net.flights := rest }) flushed active (by decide),
    arriveDie_result (m := { m with net.flights := rest }) kind one on free seq]
  rfl

/-- Settles O46: the binding by the state of its partition, the visit by its order, a result by what `takeEntries` leaves of its batch. -/
theorem batches : Obligations.Batches := by
  unfold Obligations.Batches
  intro s
  refine ⟨fun src p i v => ⟨fun may st => ?bind, fun no => ?ignored⟩, fun again => ?again, fun fresh => ?visit,
    fun p i x bs j seq hs rest entry small held oldest => ?result, fun p i k f rest => ?arrival⟩
  case bind => exact onModule_same (f := doModelBind src p i v) (doModelBind_bound may st) rfl
  case ignored => exact onModule_still (f := doModelBind src p i v) (doModelBind_ignored no)
  case again => exact onModule_still (f := doBatcherVisit) (if_pos again)
  case visit =>
    intro m0 ks order
    have run : doBatcherVisit s.m = m0.visitModels := if_neg fresh
    refine ⟨fun none_ => ?none, fun pre k post ss expired split none_ first => ?launch⟩
    case none => exact onModule_same (f := doBatcherVisit) (run.trans (visitModels_none (m := m0) none_)) rfl
    case launch =>
      refine onModule_same (f := doBatcherVisit) (run.trans (visitModels_first (m := m0) split none_ first)) ?_
      obtain ⟨sessions, net, sent⟩ := batchSent_keep m0 k (m0.model k) ss expired
      exact (congrArg Module.watched sent).trans rfl
  case result =>
    intro old undo
    have hx := model_of entry
    have run : doBatchResult p i s.m = s.m.takeResult (16 * p + i) bs j := doBatchResult_goesOn (by rw [hx]; exact held)
    refine ⟨fun m' j' take => ?held, fun m' take => ?whole, fun start few once_ quiet => ?quiet⟩
    case held => exact onModule_of (f := doBatchResult p i) (run.trans (takeResult_held hx small oldest take))
    case whole => exact onModule_of (f := doBatchResult p i) (run.trans (takeResult_whole hx small oldest take))
    case quiet =>
      intro step m1
      subst start
      have whole := takeResult_whole hx small oldest (takeEntries_quiet (bs := bs) few once_ quiet)
      rw [Module.setModel, foldl_models] at whole
      exact onModule_of (f := doBatchResult p i) (run.trans whole)
  case arrival =>
    intro x bs free oldest on part flushed active kind one seq m0 small key
    subst part key
    have run := doBatchResult_arrives free oldest on flushed active kind one seq
    have hp : (16 * f.part + i) / 16 = f.part := by omega
    refine ⟨fun bad => onModule_of (f := doBatchResult f.part i) (run.trans ?breaks),
      fun good => onModule_of (f := doBatchResult f.part i) (run.trans ?keeps)⟩
    case breaks => exact (if_pos bad).trans (by rw [hp]; rfl)
    case keeps => exact if_neg (Bool.eq_false_iff.1 good)

end Sys2Proof.Machine
end

section
/-! A step as a whole: the front of the queue (log 4), fuses that are only ever blown (R524, R528), and the causes of R522 that a command
brings about. -/

namespace Sys2Proof.Machine

open Sys2Proof

/-! ## Steps and fuses -/

/-- Settles O1: the step is defined by the front of the queue. -/
theorem stepRunsFront : Obligations.StepRunsFront := fun _ _ _ => rfl

/-- Settles O5: a step leads the face on, and blown fuses and the least SVN are part of the face. -/
theorem fusesOnlyGain : Obligations.FusesOnlyGain := by
  intro s t hs h
  exact (step_led h ((powerRule_iff_face_ok _).1 hs)).2

/-! ## Interrupt causes (R522) -/

section Causes

variable {m : Module} (standby : m.mech.standby = true)

include standby

/-- A cause that occurs sets its own bit of the status and no other. -/
theorem raiseIrq_bit (i j : Nat) : bitAt (m.raiseIrq i).sup.irqStatus j = (bitAt m.sup.irqStatus j || decide (j = i)) := by
  unfold Module.raiseIrq
  split
  · next h =>
    have set : bitAt m.sup.irqStatus i = true := by simpa [standby] using h
    by_cases hj : j = i
    · rw [hj, set, Bool.true_or]
    · rw [decide_eq_false hj, Bool.or_false]
  · have or : bitAt (m.sup.irqStatus ||| 2 ^ i) j = (bitAt m.sup.irqStatus j || decide (j = i)) := by
      simp only [bitAt_eq, Nat.testBit_or, Nat.testBit_two_pow, eq_comm]
    extract_lets m1
    split
    · rw [aosVector_status]
      exact or
    · exact or

theorem raiseIf_bit (i j : Nat) (b : Bool) :
    bitAt (m.raiseIf i b).sup.irqStatus j = (bitAt m.sup.irqStatus j || (decide (j = i) && b)) := by
  unfold Module.raiseIf
  cases b
  · rw [Bool.and_false, Bool.or_false]; rfl
  · rw [Bool.and_true]; exact raiseIrq_bit standby i j

theorem raiseIf_standby (i : Nat) (b : Bool) : (m.raiseIf i b).mech.standby = true := by
  obtain ⟨_, _, _, _, h⟩ := raiseIf_only m i b
  rw [h]
  exact standby

end Causes

/-- Whether cause `i` of R522 has occurred between what was watched before, `w`, and after, `v`. -/
def Watched.cause (v w : Watched) (i : Nat) : Bool :=
  match i with
  | 1 => v.modSt ≠ w.modSt
  | 2 => v.lease ≠ w.lease
  | 3 => v.parts ≠ w.parts
  | 4 => v.idle && !w.idle
  | 5 => v.cap ≠ w.cap
  | 6 => v.mmps ≠ w.mmps
  | _ => false

/-- Where nothing watched has changed no cause has occurred. -/
theorem Watched.cause_self (w : Watched) (i : Nat) : w.cause w i = false := by
  unfold Watched.cause
  split <;> simp

/-- The interrupts after a command set the bits of the causes that have occurred. -/
theorem settleIrq_bit {m : Module} (standby : m.mech.standby = true) (w : Watched) (i : Nat) :
    bitAt (settleIrq w m).sup.irqStatus i = (bitAt m.sup.irqStatus i || m.watched.cause w i) := by
  unfold settleIrq
  extract_lets v m1 m2 m3 m4 m5
  split
  · next same => rw [← same, Watched.cause_self, Bool.or_false]
  · have s1 : m1.mech.standby = true := raiseIf_standby standby ..
    have s2 : m2.mech.standby = true := raiseIf_standby s1 ..
    have s3 : m3.mech.standby = true := raiseIf_standby s2 ..
    have s4 : m4.mech.standby = true := raiseIf_standby s3 ..
    have s5 : m5.mech.standby = true := raiseIf_standby s4 ..
    rw [raiseIf_bit s5, raiseIf_bit s4, raiseIf_bit s3, raiseIf_bit s2, raiseIf_bit s1, raiseIf_bit standby]
    match i with
    | 0 | 1 | 2 | 3 | 4 | 5 | 6 => simp [Watched.cause, v]
    | n + 7 => simp [Watched.cause]

/-- Settles O6: bit by bit by `settleIrq_bit`; what else changes is the interrupt's own. -/
theorem causesSetTheirBits : Obligations.CausesSetTheirBits := by
  intro w m standby v t
  have bit : ∀ i, bitAt t.sup.irqStatus i = (bitAt m.sup.irqStatus i || v.cause w i) := settleIrq_bit standby w
  refine ⟨(bit 0).trans (Bool.or_false _), bit 1, bit 2, bit 3, bit 4, bit 5, bit 6, ?_⟩
  obtain ⟨a, b, c, o, h⟩ : IrqOnly m t := settleIrq_only w m
  rw [h]

end Sys2Proof.Machine
end

section
/-! Power-off (R264, R452, R455, R544): what COLD and the loss of standby power leave, the connector face, and the time of the tray (R514). -/

namespace Sys2Proof.Machine

open Sys2Proof

/-! ## COLD -/

/-- What `t` keeps of `m` over a power-off of the stages: pins, slow clock, the log in flash, the records of the watchdog, fuses, flash and keys. -/
structure KeptOff (m t : Module) : Prop where
  mech : t.mech = m.mech
  now : t.now = m.now
  flashLog : t.sup.flashLog = m.sup.flashLog
  flashSeq : t.sup.flashSeq = m.sup.flashSeq
  wdStops : t.sup.wdStops = m.sup.wdStops
  wdStuck : t.sup.wdStuck = m.sup.wdStuck
  minSvn : t.sec.minSvn = m.sec.minSvn
  fwRevoked : t.sec.fwRevoked = m.sec.fwRevoked
  nextLeaf : t.sec.nextLeaf = m.sec.nextLeaf
  custKey : t.sec.custKey = m.sec.custKey
  custCounter : t.sec.custCounter = m.sec.custCounter
  image : t.sec.image = m.sec.image

theorem Module.toCold_same {m : Module} (cold : m.sys.st = .cold) : m.toCold = m := if_pos cold

theorem Module.toCold_kept (m : Module) : KeptOff m m.toCold := by
  by_cases cold : m.sys.st = .cold
  · rw [Module.toCold_same cold]
    constructor <;> rfl
  · have stopped := allStopped_steady m
    have mech := steady_mech stopped
    have now := steady_now stopped
    have sec := steady_sec stopped
    have flashLog := steady_sup_flashLog stopped
    have flashSeq := steady_sup_flashSeq stopped
    have wdStops := steady_sup_wdStops stopped
    have wdStuck := steady_sup_wdStuck stopped
    rw [Module.toCold, if_neg cold]
    generalize m.allStopped = a at *
    exact ⟨mech, now, flashLog, flashSeq, wdStops, wdStuck, (congrArg Sec.minSvn sec :), (congrArg Sec.fwRevoked sec :),
      (congrArg Sec.nextLeaf sec :), (congrArg Sec.custKey sec :), (congrArg Sec.custCounter sec :), (congrArg Sec.image sec :)⟩

theorem Module.toCold_st (m : Module) : m.toCold.sys.st = .cold := by
  by_cases cold : m.sys.st = .cold
  · rw [Module.toCold_same cold, cold]
  · rw [Module.toCold, if_neg cold]
    rfl

/-- From another state COLD empties the compute square. -/
theorem Module.toCold_empties {m : Module} (warm : m.sys.st ≠ .cold) :
    m.toCold.parts = [] ∧ m.toCold.cores = [] ∧ m.toCold.net = {} ∧ m.toCold.que = {} := by
  rw [Module.toCold, if_neg warm]
  exact ⟨rfl, rfl, rfl, rfl⟩

/-! ## The connector face (R455, R544, R551) -/

/-- The module once standby power is gone, with the MATE pin as `mate` says. -/
def Module.lostPower (m : Module) (mate : Bool) : Module := { m.toCold.dark with mech.mate := mate }

theorem doStandbyLoss_on {m : Module} (standby : m.mech.standby = true) : doStandbyLoss m = m.lostPower m.mech.mate := by
  rw [← m.toCold_kept.mech]
  exact if_pos standby

theorem doMateBreak_on {m : Module} (standby : m.mech.standby = true) : doMateBreak m = m.lostPower false :=
  congrArg (fun m : Module => { m with mech.mate := false }) (doStandbyLoss_on standby)

/-- Settles O59: the pins move as the commands say, and what the loss of standby power leaves is what COLD and `dark` leave. That losing MATE takes
standby power with it is the model's (log 84). -/
theorem connectorFace : Obligations.ConnectorFace := by
  intro s
  refine ⟨onModule_same (f := doMateMade) rfl rfl, fun straps off mate => ?up, fun on => ?lost, fun off => ?down⟩
  case up =>
    refine completes_of (f := doStandbyUp straps) rfl ?_
    rw [doStandbyUp, if_neg (by simp [off, mate])]
    simp only [settleIrq_mech, settleIrq_sys, settleIrq_sup_side, settleIrq_sup_boot, settleIrq_sup_log, settleIrq_sup_nextIndex, settleIrq_sup_seq,
      decide_eq_true_eq, and_self]
  case lost =>
    intro lost
    have gone (mate : Bool) (w : Watched) : lost mate (settleIrq w (s.m.lostPower mate)) := by
      have kept := s.m.toCold_kept
      simp only [lost, settleIrq_mech, settleIrq_sys, settleIrq_parts, settleIrq_cores, settleIrq_pwr, settleIrq_sup_lease,
        settleIrq_sup_currentEpoch, settleIrq_sup_leaseEpoch, settleIrq_sup_log, settleIrq_sup_flashLog, settleIrq_sup_flashSeq, settleIrq_sup_side,
        settleIrq_sup_wdStops, settleIrq_sup_wdStuck, settleIrq_sec]
      exact ⟨rfl, rfl, rfl, rfl, rfl, rfl, rfl, rfl, rfl, rfl, kept.flashLog, kept.flashSeq, rfl, rfl, rfl, kept.minSvn, kept.fwRevoked,
        kept.nextLeaf, kept.custKey, kept.custCounter, kept.image⟩
    refine ⟨completes_of (f := doStandbyLoss) rfl ?_, completes_of (f := doMateBreak) rfl ?_⟩
    · rw [doStandbyLoss_on on]; exact gone ..
    · rw [doMateBreak_on on]; exact gone ..
  case down =>
    have still : s.m.standbyOff = s.m := if_neg (by rw [off]; decide)
    exact ⟨onModule_still (f := doStandbyLoss) still,
      onModule_same (f := doMateBreak) (congrArg (fun m : Module => { m with mech.mate := false }) still) rfl⟩

/-! ## The time of the tray (R514) -/

/-- Bit 6 of AOS_SIDEBAND is SYNCED. -/
theorem Sideband.reg_synced (x : Sideband) : bitAt x.reg 6 = x.synced := by
  have slot : x.slot % 2 ^ 4 < 16 := Nat.mod_lt _ (by decide)
  have ok : b2n x.loopOk % 2 ^ 1 < 2 := Nat.mod_lt _ (by decide)
  have bypass : b2n x.bypass % 2 ^ 1 < 2 := Nat.mod_lt _ (by decide)
  rw [bitAt_eq, Nat.testBit_eq_decide_div_mod_eq, Sideband.reg]
  simp only [put, Nat.shiftLeft_eq]
  generalize x.slot % 2 ^ 4 = a at *
  generalize b2n x.loopOk % 2 ^ 1 = b at *
  generalize b2n x.bypass % 2 ^ 1 = c at *
  generalize x.framesBad % 2 ^ 16 = d
  generalize x.stopsSent % 2 ^ 16 = e
  generalize x.stopsActed % 2 ^ 16 = f
  have low : (a * 2 ^ 0 + b * 2 ^ 4 + c * 2 ^ 5 + b2n x.synced % 2 ^ 1 * 2 ^ 6 + d * 2 ^ 16 + e * 2 ^ 32 + f * 2 ^ 48) / 2 ^ 6 % 2
      = b2n x.synced % 2 := by omega
  rw [low]
  cases x.synced <;> rfl

theorem Module.aosReg_offset (m : Module) : (m.aosReg 0x20).val = twos 64 m.sup.side.offset % 2 ^ 64 := rfl

theorem Module.aosReg_synced (m : Module) : bitAt (m.aosReg 0x28).val 6 = m.sup.side.synced := by
  rw [← m.sup.side.reg_synced]
  have val : (m.aosReg 0x28).val = m.sup.side.reg % 2 ^ 64 := rfl
  rw [val, bitAt_eq, bitAt_eq, Nat.testBit_mod_two_pow, decide_eq_true (by decide), Bool.true_and]

/-- A time before `now` is as old, by the tray's count, as by the module's own. -/
theorem trayTime_of_offset {tray now time : Nat} (before : time ≤ now) :
    (time : Int) + ((tray : Int) - (now : Int)) = (tray : Int) - ((now - time : Nat) : Int) := by omega

/-- Settles O20: a TIME frame of the tray controller is forwarded and sets the offset, from which the registers and the times follow. -/
theorem trayTime : Obligations.TrayTime := by
  intro s frame x standby inLoop good tray slot type
  have other : fld frame.toNat 4 4 ≠ s.m.sup.side.slot := fun h => slot (h.symm.trans tray)
  have run : doTime frame s.m = (s.m.heardLoop frame).loopTime x :=
    (loopType_of type).trans ((loopIn_other standby inLoop good other).trans (loopAct_time type tray))
  obtain ⟨lastAt, loopOk, heard⟩ := heardLoop_keep s.m frame
  rw [heard] at run
  exact completes_same (f := doTime frame) rfl run rfl ⟨rfl, rfl, Module.aosReg_offset _, Module.aosReg_synced _, rfl, rfl, rfl, rfl,
    fun r before => trayTime_of_offset before⟩

end Sys2Proof.Machine
end

section
/-! Security commands as the module runs them (R529 to R532): how one ends, and what its record, the command buffer and the out-of-band port then show. -/

namespace Sys2Proof.Machine

open Sys2Proof

/-- The out-of-band input once command `c` has ended (R532). -/
def Oob.told (x : Oob) (c : SecCmd) (code : Nat) (out : List Byte) : Oob :=
  if c.oob.isSome ∧ x.xid = c.oob then { x with code := some code, out := out } else x

/-- A module whose command `c` has ended with a code and an output. -/
def Module.secDone (m : Module) (c : SecCmd) (code : Nat) (out : List Byte) : Module :=
  { m with
    sec := { m.sec with cmd := none, busy := false, op := c.op, result := code, outLen := out.length, oob := m.sec.oob.told c code out }
    out := if c.oob = none ∧ out ≠ [] then m.out ++ [.hostWrite m.sec.cmdAddr out] else m.out }

theorem Module.secEnd_done {m : Module} {c : SecCmd} (cmd : m.sec.cmd = some c) (code : Nat) (out : List Byte) :
    m.secEnd code out = m.secDone c code out := by
  unfold Module.secEnd Module.secDone Oob.told
  rw [cmd]
  dsimp only
  cases c.oob with
  | none => by_cases h : out = [] <;> simp [h, Module.emit]
  | some x => by_cases h : m.sec.oob.xid = some x <;> simp [h]

/-- The end of a command, as the module `m0` on which it ran sees it. -/
theorem Module.secDone_ended {m m0 : Module} {c d : SecCmd} (code : Nat) (out : List Byte) (op : d.op = c.op := by rfl)
    (oob : d.oob = c.oob := by rfl) (sent : m.out = m0.out := by rfl) (addr : m.sec.cmdAddr = m0.sec.cmdAddr := by rfl)
    (xid : m.sec.oob.xid = m0.sec.oob.xid := by rfl) :
    SecEnded m0 c code out (m.secDone d code out) where
  cmd := rfl
  busy := rfl
  op := op
  result := rfl
  outLen := rfl
  sent := by
    rw [Module.secDone, oob, addr, sent]
  held x hx hm := by
    have told : m.sec.oob.told d code out = { m.sec.oob with code := some code, out := out } := if_pos ⟨by rw [oob, hx]; rfl, by rw [xid, oob, hx, hm]⟩
    show (m.sec.oob.told d code out).code = some code ∧ (m.sec.oob.told d code out).out = out
    rw [told]
    exact ⟨rfl, rfl⟩

theorem Module.secEnd_none {m : Module} (cmd : m.sec.cmd = none) (code : Nat) (out : List Byte) : m.secEnd code out = m := by
  unfold Module.secEnd
  rw [cmd]

/-- A command that is not there cannot end; one that is leaves everything but its record, the out-of-band input and what has been sent. -/
theorem Module.secEnd_keep (m : Module) (code : Nat) (out : List Byte) :
    ∃ c b o r l x e, m.secEnd code out = { m with
      sec := { m.sec with cmd := c, busy := b, op := o, result := r, outLen := l, oob := x }, out := e } := by
  cases h : m.sec.cmd with
  | none => exact ⟨m.sec.cmd, _, _, _, _, _, _, Module.secEnd_none h code out⟩
  | some c => exact ⟨_, _, _, _, _, _, _, Module.secEnd_done h code out⟩

/-- R522 watches no part of a security command. -/
theorem Module.secEnd_watched (m : Module) (code : Nat) (out : List Byte) : (m.secEnd code out).watched = m.watched := by
  obtain ⟨_, _, _, _, _, _, _, h⟩ := m.secEnd_keep code out
  rw [h]
  rfl

/-! ## The command that runs -/

/-- A module whose command `c` has its turn. -/
def Module.secBegun (m : Module) (c : SecCmd) : Module := { m with sec.cmd := some { c with begun := true }, sec.busy := true, sec.op := c.op }

section Go

variable {c : SecCmd} (m : Module)

theorem Module.secGo_imageWrite (op : c.op = 1) : m.secGo c = (m.secBegun c).imageWrite c.data := by
  obtain ⟨_, _, _, _, _⟩ := c; subst op; rfl
theorem Module.secGo_quote (op : c.op = 2) :
    m.secGo c = if m.shedLevel = 4 then m.secBegun c else (m.secBegun c).quoteNow c.data := by
  obtain ⟨_, _, _, _, _⟩ := c; subst op; rfl
theorem Module.secGo_certExport (op : c.op = 3) : m.secGo c = (m.secBegun c).secEnd 0 (padTo 2_980 0 m.sec.cert) := by
  obtain ⟨_, _, _, _, _⟩ := c; subst op; rfl
theorem Module.secGo_custKey (op : c.op = 4) : m.secGo c = (m.secBegun c).custKeyNow c.data := by
  obtain ⟨_, _, _, _, _⟩ := c; subst op; rfl
theorem Module.secGo_enrolBegin (op : c.op = 5) : m.secGo c = (m.secBegun c).enrolBegin := by
  obtain ⟨_, _, _, _, _⟩ := c; subst op; rfl
theorem Module.secGo_enrolRequest (op : c.op = 6) : m.secGo c = (m.secBegun c).enrolRequest := by
  obtain ⟨_, _, _, _, _⟩ := c; subst op; rfl
theorem Module.secGo_enrolInstall (op : c.op = 7) : m.secGo c = (m.secBegun c).enrolInstall c.data := by
  obtain ⟨_, _, _, _, _⟩ := c; subst op; rfl
theorem Module.secGo_reset (op : c.op = 8) : m.secGo c = (m.secBegun c).resetNow := by
  obtain ⟨_, _, _, _, _⟩ := c; subst op; rfl

/-- The command whose turn it is ends: so it looks from the module before it. -/
theorem Module.secBegun_ended (c : SecCmd) (code : Nat) (out : List Byte) : SecEnded m c code out ((m.secBegun c).secEnd code out) := by
  rw [Module.secEnd_done rfl]
  exact Module.secDone_ended code out

end Go

end Sys2Proof.Machine
end

section
/-! Identity and keys (R499, R533 to R539): the records of quotes and enrolment requests, certificates, and the customer jig key. -/

namespace Sys2Proof.Machine

open Sys2Proof

/-! ## Records of fixed length (R14) -/

theorem leBytes_length (n x : Nat) : (leBytes n x).length = n := by
  induction n generalizing x with
  | zero => rfl
  | succ n ih => exact congrArg (· + 1) (ih _)

theorem leNat_leBytes (n x : Nat) : leNat (leBytes n x) = x % 256 ^ n := by
  induction n generalizing x with
  | zero => rw [pow_zero, Nat.mod_one]; rfl
  | succ n ih =>
    have byte : (BitVec.ofNat 8 x).toNat = x % 256 := BitVec.toNat_ofNat ..
    rw [leBytes, leNat, ih, byte, pow_succ', Nat.mod_mul]

theorem padTo_length {α : Type} (n : Nat) (d : α) (xs : List α) : (padTo n d xs).length = n := by
  rw [padTo, List.length_append, List.length_take, List.length_replicate]
  omega

theorem digestBytes_length (d : Digest) : (digestBytes d).length = 32 := leBytes_length ..

/-- The first field of a record. -/
theorem slice_first {α : Type} {n : Nat} {a b : List α} (h : a.length = n) : slice (a ++ b) 0 n = a := by
  subst h
  rw [slice, List.drop_zero, List.take_left]

/-- A field behind a number of `k` bytes. -/
theorem slice_leBytes {k off n x : Nat} {b : List Byte} (h : k ≤ off) : slice (leBytes k x ++ b) off n = slice b (off - k) n := by
  rw [slice, slice, List.drop_append, leBytes_length, List.drop_eq_nil_of_le (by rw [leBytes_length]; exact h), List.nil_append]

/-! ## Quotes (R535, R538) -/

theorem Module.quotePart_length (m : Module) (p : Nat) : (m.quotePart p).length = 36 := by
  rw [Module.quotePart, List.length_append, digestBytes_length]
  rfl

/-- A quote has 800 bytes before its signature. -/
theorem Module.quoteBody_length (m : Module) (nonce : List Byte) : (m.quoteBody nonce).length = 800 := by
  unfold Module.quoteBody
  simp only [List.length_append, leBytes_length, padTo_length, digestBytes_length, List.length_flatMap, Module.quotePart_length,
    List.map_const', List.length_range, List.sum_replicate]
  rfl

theorem Module.quoteBody_magic (m : Module) (nonce : List Byte) : leAt (m.quoteBody nonce) 0 4 = 0x5451_4B4F := by
  unfold Module.quoteBody
  simp only [List.append_assoc]
  rw [leAt, slice_first (leBytes_length ..), leNat_leBytes]
  rfl

/-- The nonce stands in bytes 32 to 63 of a quote. -/
theorem Module.quoteBody_nonce (m : Module) (nonce : List Byte) : slice (m.quoteBody nonce) 32 32 = padTo 32 0 nonce := by
  unfold Module.quoteBody
  simp (disch := decide) only [List.append_assoc, slice_leBytes, Nat.reduceSub]
  exact slice_first (padTo_length ..)

/-- A leaf is used once: the next is the one after it. What is logged is no part of a command. -/
theorem Module.useLeaf_eq (m : Module) :
    ∃ a b d, m.useLeaf = { m with sec.nextLeaf := m.sec.nextLeaf + 1, sup.intakeFatal := a, sup.intake := b, sup.dropped := d } := by
  unfold Module.useLeaf Module.logLow
  extract_lets m1 r
  split
  · exact logEvent_keep { m with sec.nextLeaf := m.sec.nextLeaf + 1 } ..
  · exact ⟨_, _, _, rfl⟩

theorem Module.quoteNow_spent {m : Module} (nonce : List Byte) (spent : m.sec.remaining = 0) : m.quoteNow nonce = m.secEnd 0x0A02 [] :=
  if_pos spent

theorem Module.quoteNow_limited {m : Module} (nonce : List Byte) (left : m.sec.remaining ≠ 0) (limit : m.sec.quoteLimit ≤ m.quotesNow.length) :
    m.quoteNow nonce = m.secEnd 0x0601 [] :=
  (if_neg left).trans (if_pos limit)

/-- A quote is signed by the next leaf, which is then used. -/
theorem Module.quoteNow_signs {m : Module} (nonce : List Byte) (left : m.sec.remaining ≠ 0) (free : m.quotesNow.length < m.sec.quoteLimit) :
    let body := m.quoteBody nonce
    m.quoteNow nonce = ({ m with sec.quoteAt := m.quotesNow ++ [m.now] } : Module).useLeaf.secEnd 0
      (body ++ treeSign m.sec.tree m.sec.nextLeaf body) :=
  (if_neg left).trans (if_neg (Nat.not_le.2 free))

/-! ## Enrolment (R536, R537) -/

/-- The request for a certificate of the generated tree, without its signature. -/
def Sec.requestBody (x : Sec) : List Byte :=
  leBytes 4 0x5245_4B4F ++ leBytes 2 1 ++ leBytes 2 (x.generation + 1) ++ leBytes 8 x.serial ++ treeKey x.newTree
    ++ digestBytes x.fuseDigest ++ List.replicate 12 0

theorem Sec.requestBody_length (x : Sec) : x.requestBody.length = 128 := by
  unfold Sec.requestBody treeKey
  simp only [List.length_append, leBytes_length, padTo_length, digestBytes_length, List.length_replicate]

/-- The key of the generated tree stands in bytes 16 to 83 of a request. -/
theorem Sec.requestBody_key (x : Sec) : slice x.requestBody 16 68 = treeKey x.newTree := by
  unfold Sec.requestBody
  simp (disch := decide) only [List.append_assoc, slice_leBytes, Nat.reduceSub]
  exact slice_first (padTo_length ..)

theorem Module.enrolRequest_refused {m : Module} (h : m.sec.enrol ≠ 2 ∨ 16 ≤ m.sec.nextReserved) : m.enrolRequest = m.secEnd 0x0601 [] :=
  if_pos (by simpa using h)

/-- A request is signed by the next reserved leaf of the current tree. -/
theorem Module.enrolRequest_signs {m : Module} (ready : m.sec.enrol = 2) (left : m.sec.nextReserved < 16) :
    let body := m.sec.requestBody
    m.enrolRequest = ({ m with sec.nextReserved := m.sec.nextReserved + 1 } : Module).secEnd 0
      (body ++ treeSign m.sec.tree (1_048_560 + m.sec.nextReserved) body) :=
  if_neg (by simp [ready]; omega)

theorem Module.enrolInstall_refused {m : Module} {bytes : List Byte} {code : Nat} (bad : m.sec.certBad (padTo 2_980 0 bytes) = some code) :
    m.enrolInstall bytes = m.secEnd code [] := by
  unfold Module.enrolInstall
  dsimp only
  rw [bad]

/-- A certificate that is accepted makes the generated tree the current one. -/
theorem Module.enrolInstall_installs {m : Module} {bytes : List Byte} (good : m.sec.certBad (padTo 2_980 0 bytes) = none) :
    m.enrolInstall bytes = ({ m with sec := { m.sec with
      cert := padTo 2_980 0 bytes, generation := (m.sec.generation + 1) % 2 ^ 16, tree := m.sec.newTree, nextLeaf := 0, nextReserved := 0
      enrol := 0 } } : Module).secEnd 0 [] := by
  unfold Module.enrolInstall
  dsimp only
  rw [good]

/-! ## The customer jig key (R539) -/

theorem Module.custKeyNow_loading {m : Module} (bytes : List Byte) (load : m.jig.phase ≠ .idle) : m.custKeyNow bytes = m.secEnd 0x0601 [] :=
  if_pos load

theorem Module.custKeyNow_refused {m : Module} {bytes : List Byte} {code : Nat} (idle : m.jig.phase = .idle)
    (bad : m.sec.keyBad (padTo (max 96 bytes.length) 0 bytes) = some code) : m.custKeyNow bytes = m.secEnd code [] := by
  unfold Module.custKeyNow
  dsimp only
  rw [if_neg (not_not_intro idle), bad]

/-- A key change that is accepted: ACTION 1 enrols a key, 2 removes it, 3 changes whether a jig needs its signature. -/
theorem Module.custKeyNow_changes {m : Module} {bytes : List Byte} (idle : m.jig.phase = .idle)
    (good : m.sec.keyBad (padTo (max 96 bytes.length) 0 bytes) = none) :
    let b := padTo (max 96 bytes.length) 0 bytes
    m.custKeyNow bytes = ({ m with sec := { m.sec with
      custCounter := leAt b 16 4
      custKey := if leAt b 6 1 = 1 then slice b 20 68 else if leAt b 6 1 = 2 then [] else m.sec.custKey
      custRequire := if leAt b 6 1 = 2 then false else decide (leAt b 7 1 = 1) } } : Module).secEnd 0 [] := by
  unfold Module.custKeyNow
  dsimp only
  rw [if_neg (not_not_intro idle), good]

/-- A check that finds no code has passed, and so has what comes after it. -/
theorem none_of_check {c : Prop} [Decidable c] {a : Nat} {x : Option Nat} (h : (if c then some a else x) = none) : ¬ c ∧ x = none := by
  by_cases hc : c
  · rw [if_pos hc] at h; cases h
  · exact ⟨hc, (if_neg hc).symm.trans h⟩

/-- What an accepted key change fulfils. -/
theorem Sec.keyBad_none {x : Sec} {b : List Byte} (h : x.keyBad b = none) :
    x.custCounter < leAt b 16 4 ∧ leAt b 8 8 = x.serial ∧ leAt b 0 4 = 0x4B43_4B4F ∧ (x.custKey = [] → leAt b 6 1 = 1)
      ∧ (x.custKey ≠ [] → verifySig x.custKey (b.take 96) (slice b 96 ((sigLength (keyOid x.custKey)).getD 0)) = true) := by
  unfold Sec.keyBad at h
  extract_lets action key signed at h
  obtain ⟨format, h⟩ := none_of_check h
  obtain ⟨newer, h⟩ := none_of_check h
  simp only [Bool.or_eq_true, Bool.and_eq_true, decide_eq_true_eq, not_or, not_and, not_not] at format
  obtain ⟨⟨⟨⟨⟨⟨⟨⟨magic, version⟩, some_⟩, known⟩, flag⟩, serial⟩, reserved⟩, keyed⟩, first⟩ := format
  refine ⟨Nat.not_le.1 newer, serial, magic, first, fun enrolled => ?_⟩
  rw [if_neg enrolled] at h
  split at h
  · next ok => exact ok
  · cases h

/-- What an accepted certificate fulfils. -/
theorem Sec.certBad_none {x : Sec} {b : List Byte} (h : x.certBad b = none) :
    x.enrol = 2 ∧ leAt b 8 8 = x.serial ∧ leAt b 6 2 = (x.generation + 1) % 2 ^ 16 ∧ slice b 16 68 = treeKey x.newTree
      ∧ bitAt x.caFused (leAt b 84 4) = true ∧ bitAt x.caRevoked (leAt b 84 4) = false ∧ keyDigest (slice b 88 68) = x.caKeys.getD (leAt b 84 4) 0
      ∧ verifySig (slice b 88 68) (b.take 160) (slice b 160 orovinSig) = true := by
  unfold Sec.certBad at h
  extract_lets slot ca at h
  obtain ⟨format, h⟩ := none_of_check h
  obtain ⟨signed, -⟩ := none_of_check h
  simp only [Bool.or_eq_true, decide_eq_true_eq, not_or, not_not, Bool.not_eq_true', Bool.not_eq_false, Bool.not_eq_true] at format signed
  obtain ⟨⟨⟨⟨⟨magic, version⟩, serial⟩, generation⟩, ready⟩, key⟩ := format
  obtain ⟨⟨⟨⟨⟨known, fused⟩, live⟩, digest⟩, oid⟩, verified⟩ := signed
  exact ⟨ready, serial, generation, key, fused, live, digest, verified⟩

/-! ## What a command of identity and keys leaves alone -/

/-- The partitions, the module state and the image in flash are as they were. -/
def SecFrame (m t : Module) : Prop := t.parts = m.parts ∧ t.sys = m.sys ∧ t.sec.image = m.sec.image

theorem SecFrame.ended {m t : Module} (h : SecFrame m t) (code : Nat) (out : List Byte) : SecFrame m (t.secEnd code out) := by
  obtain ⟨_, _, _, _, _, _, _, e⟩ := t.secEnd_keep code out
  rw [e]
  exact h

theorem Module.quoteNow_frame {m t : Module} (h : SecFrame m t) (nonce : List Byte) : SecFrame m (t.quoteNow nonce) := by
  by_cases spent : t.sec.remaining = 0
  · rw [Module.quoteNow_spent nonce spent]
    exact h.ended ..
  · by_cases limit : t.sec.quoteLimit ≤ t.quotesNow.length
    · rw [Module.quoteNow_limited nonce spent limit]
      exact h.ended ..
    · rw [Module.quoteNow_signs nonce spent (Nat.not_le.1 limit)]
      obtain ⟨a, b, d, used⟩ := ({ t with sec.quoteAt := t.quotesNow ++ [t.now] } : Module).useLeaf_eq
      rw [used]
      refine SecFrame.ended ?_ ..
      exact h

theorem Module.secGo_frame (m : Module) {c : SecCmd} (low : 2 ≤ c.op) (high : c.op ≤ 7) : SecFrame m (m.secGo c) := by
  have begun : SecFrame m (m.secBegun c) := ⟨rfl, rfl, rfl⟩
  obtain op | op | op | op | op | op : c.op = 2 ∨ c.op = 3 ∨ c.op = 4 ∨ c.op = 5 ∨ c.op = 6 ∨ c.op = 7 := by omega
  · rw [m.secGo_quote op]
    split
    · exact begun
    · exact Module.quoteNow_frame begun _
  · rw [m.secGo_certExport op]
    exact begun.ended ..
  · rw [m.secGo_custKey op]
    by_cases idle : (m.secBegun c).jig.phase = .idle
    · cases bad : (m.secBegun c).sec.keyBad (padTo (max 96 c.data.length) 0 c.data) with
      | some code => rw [Module.custKeyNow_refused idle bad]; exact begun.ended ..
      | none => rw [Module.custKeyNow_changes idle bad]; refine SecFrame.ended ?_ ..; exact begun
    · rw [Module.custKeyNow_loading _ idle]
      exact begun.ended ..
  · rw [m.secGo_enrolBegin op, Module.enrolBegin]
    split
    · exact begun.ended ..
    · refine SecFrame.ended ?_ ..
      exact begun
  · rw [m.secGo_enrolRequest op, Module.enrolRequest]
    split
    · exact begun.ended ..
    · refine SecFrame.ended ?_ ..
      exact begun
  · rw [m.secGo_enrolInstall op]
    cases bad : (m.secBegun c).sec.certBad (padTo 2_980 0 c.data) with
    | some code => rw [Module.enrolInstall_refused bad]; exact begun.ended ..
    | none => rw [Module.enrolInstall_installs bad]; refine SecFrame.ended ?_ ..; exact begun

/-- Settles O58: the messages by what passes their checks, each command by what it does on the module that it has begun on. That REMAINING is
judged before the hourly limit is the model's (log 73). -/
theorem identityAndKeys : Obligations.IdentityAndKeys := by
  refine ⟨fun x b h => Sec.keyBad_none h, fun x b h => Sec.certBad_none h, fun s => ⟨fun c => ?_, fun generating => ?generated⟩⟩
  case generated => exact onModule_same (f := doTreeGenerated) (if_pos generating) rfl
  intro t
  have run : t = s.m.secGo c := rfl
  clear_value t
  have ends := s.m.secBegun_ended c
  refine ⟨fun op => ?quote, fun op => ?cert, fun op => ?key, fun op => ?begin, fun op => ?request, fun op => ?install, fun low high => ?frame⟩
  case frame => rw [run]; exact s.m.secGo_frame low high
  case cert => rw [run, s.m.secGo_certExport op]; exact ends ..
  case quote =>
    have quote := run.trans (s.m.secGo_quote op)
    have answered (open_ : s.m.shedLevel ≠ 4) : t = (s.m.secBegun c).quoteNow c.data := quote.trans (if_neg open_)
    refine ⟨fun shed => ?_, fun open_ left free => ?_, fun open_ spent => ?_, fun open_ left limit => ?_⟩
    · rw [quote, if_pos shed]
      exact ⟨rfl, rfl, rfl, rfl⟩
    · rw [answered open_, Module.quoteNow_signs (m := s.m.secBegun c) _ left free]
      obtain ⟨a, b, d, used⟩ :=
        ({ s.m.secBegun c with sec.quoteAt := (s.m.secBegun c).quotesNow ++ [(s.m.secBegun c).now] } : Module).useLeaf_eq
      rw [used, Module.secEnd_done rfl]
      exact ⟨⟨(s.m.secBegun c).quoteBody c.data, Module.secDone_ended _ _, Module.quoteBody_length .., Module.quoteBody_magic ..,
        Module.quoteBody_nonce ..⟩, rfl, rfl⟩
    · rw [answered open_, Module.quoteNow_spent (m := s.m.secBegun c) _ spent]
      exact ⟨ends .., by rw [Module.secEnd_done rfl]; rfl⟩
    · rw [answered open_, Module.quoteNow_limited (m := s.m.secBegun c) _ left limit]
      exact ⟨ends .., by rw [Module.secEnd_done rfl]; rfl⟩
  case key =>
    intro b
    have key := run.trans (s.m.secGo_custKey op)
    refine ⟨fun load => ?_, fun code idle bad => ?_, fun idle good => ?_⟩
    · rw [key, Module.custKeyNow_loading (m := s.m.secBegun c) _ load]
      exact ⟨ends .., by rw [Module.secEnd_done rfl]; rfl⟩
    · rw [key, Module.custKeyNow_refused (m := s.m.secBegun c) idle bad]
      refine ⟨ends .., ?_⟩
      rw [Module.secEnd_done rfl]
      exact ⟨rfl, rfl, rfl⟩
    · rw [key, Module.custKeyNow_changes (m := s.m.secBegun c) idle good, Module.secEnd_done rfl]
      refine ⟨Module.secDone_ended _ _, rfl, fun action => ⟨if_pos action, if_neg ?_⟩, fun action => ⟨?_, if_pos action⟩,
        fun action => ⟨?_, if_neg ?_⟩⟩
      · rw [show leAt b 6 1 = 1 from action]; decide
      · exact (if_neg (by rw [show leAt b 6 1 = 2 from action]; decide)).trans (if_pos action)
      · exact (if_neg (by rw [show leAt b 6 1 = 3 from action]; decide)).trans (if_neg (by rw [show leAt b 6 1 = 3 from action]; decide))
      · rw [show leAt b 6 1 = 3 from action]; decide
  case begin =>
    have begin_ := run.trans (s.m.secGo_enrolBegin op)
    refine ⟨fun generating => ?_, fun idle => ?_⟩
    · rw [begin_, show (s.m.secBegun c).enrolBegin = _ from if_pos generating]
      exact ⟨ends .., by rw [Module.secEnd_done rfl]; exact generating⟩
    · rw [begin_, show (s.m.secBegun c).enrolBegin = _ from if_neg idle, Module.secEnd_done rfl]
      exact ⟨Module.secDone_ended _ _, rfl⟩
  case request =>
    have request := run.trans (s.m.secGo_enrolRequest op)
    refine ⟨fun refused => ?_, fun ready left => ?_⟩
    · rw [request, Module.enrolRequest_refused (m := s.m.secBegun c) refused]
      exact ⟨ends .., by rw [Module.secEnd_done rfl]; rfl⟩
    · rw [request, Module.enrolRequest_signs (m := s.m.secBegun c) ready left, Module.secEnd_done rfl]
      exact ⟨⟨s.m.sec.requestBody, Module.secDone_ended _ _, Sec.requestBody_length _, Sec.requestBody_key _⟩, rfl⟩
  case install =>
    intro b
    have install := run.trans (s.m.secGo_enrolInstall op)
    refine ⟨fun code bad => ?_, fun good => ?_⟩
    · rw [install, Module.enrolInstall_refused (m := s.m.secBegun c) bad]
      refine ⟨ends .., ?_⟩
      rw [Module.secEnd_done rfl]
      exact ⟨rfl, rfl⟩
    · rw [install, Module.enrolInstall_installs (m := s.m.secBegun c) good, Module.secEnd_done rfl]
      exact ⟨Module.secDone_ended _ _, rfl, rfl, rfl, rfl, rfl, rfl⟩

end Sys2Proof.Machine
end

section
/-! The firmware image and its loaders (R525 to R528, R530), and who runs a security command and when (R529, R531, R532). -/

namespace Sys2Proof.Machine

open Sys2Proof

/-! ## The checks of an image (R526) -/

/-- A loader accepts an image exactly when every check of R526 passes. -/
theorem Sec.imageCheck_none (x : Sec) (img : List Byte) : x.imageCheck img = none ↔ imgFormat img = true ∧ bitAt x.fwFused (imgSlot img) = true
      ∧ bitAt x.fwRevoked (imgSlot img) = false ∧ keyDigest (imgKey img) = x.fwKeys.getD (imgSlot img) 0 ∧ keyOid (imgKey img) = orovinOid
      ∧ x.minSvn ≤ imgSvn img ∧ verifySig (imgKey img) (digestBytes (imgMeas img)) (slice img (256 + imgBody img) orovinSig) = true := by
  unfold Sec.imageCheck
  constructor
  · intro h
    obtain ⟨format, h⟩ := none_of_check h
    obtain ⟨slot, h⟩ := none_of_check h
    obtain ⟨key, h⟩ := none_of_check h
    obtain ⟨svn, h⟩ := none_of_check h
    simp only [Bool.or_eq_true, decide_eq_true_eq, not_or, not_not, Bool.not_eq_true', Bool.not_eq_false, Bool.not_eq_true] at format slot key
    split at h
    · next verified => exact ⟨format, slot.1, slot.2, key.1, key.2, Nat.not_lt.1 svn, verified⟩
    · cases h
  · rintro ⟨format, fused, live, digest, oid, svn, verified⟩
    rw [if_neg (by simp [format]), if_neg (by simp [fused, live]), if_neg (by simp [digest, oid]), if_neg (Nat.not_lt.2 svn), if_pos verified]

/-- A module whose loader of MMP `b` accepts or refuses the image in flash; a refusal is logged, as `x`, `y` and `z` tell. -/
def Module.loaded (m : Module) (ok : Bool) (x y : List FaultRec) (z : Nat) : Module :=
  { m with sec.imageValid := ok, sup.intakeFatal := x, sup.intake := y, sup.dropped := z }

theorem Module.loaderCheck_eq {m : Module} {ok : Bool} (verdict : (m.sec.imageCheck m.sec.image).isNone = ok) (b : Bool) :
    ∃ x y z, m.loaderCheck b = (ok, m.loaded ok x y z) := by
  subst verdict
  unfold Module.loaderCheck
  cases m.sec.imageCheck m.sec.image with
  | none => exact ⟨_, _, _, rfl⟩
  | some step =>
    obtain ⟨x, y, z, log⟩ := logFatal_keep { m with sec.imageValid := false } 0x0A01 (.ring (mmpDie b)) none 0 step
    exact ⟨x, y, z, congrArg (Prod.mk false) log⟩

/-! ## The two MMPs -/

@[simp] theorem Module.setMmp_mmp (m : Module) (b : Bool) (x : Mmp) : (m.setMmp b x).mmp b = x := by cases b <;> rfl

theorem Module.setMmp_other (m : Module) (b : Bool) (x : Mmp) : (m.setMmp b x).mmp (!b) = m.mmp (!b) := by cases b <;> rfl

@[simp] theorem Module.setMmp_sec (m : Module) (b : Bool) (x : Mmp) : (m.setMmp b x).sec = m.sec := by cases b <;> rfl

@[simp] theorem Module.setMmp_sys (m : Module) (b : Bool) (x : Mmp) : (m.setMmp b x).sys = m.sys := by cases b <;> rfl

theorem settleIrq_mmp (w : Watched) (m : Module) (b : Bool) : (settleIrq w m).mmp b = m.mmp b := by
  unfold Module.mmp
  rw [settleIrq_sup_a, settleIrq_sup_b]

/-- Whichever MMP is asked first, both have refused the image or not. -/
theorem Module.refused_both (m : Module) (b : Bool) : (m.sup.a.refused && m.sup.b.refused) = ((m.mmp b).refused && (m.mmp (!b)).refused) := by
  cases b
  · rfl
  · exact Bool.and_comm ..

/-- Whether an MMP runs as ACTIVE or STANDBY is settled without its image. -/
theorem Mmp.settle_image (x : Mmp) (active : Bool) : (x.settle active).refused = x.refused ∧ (x.settle active).imageOk = x.imageOk := by
  unfold Mmp.settle
  split
  · split <;> exact ⟨rfl, rfl⟩
  · split <;> exact ⟨rfl, rfl⟩
  · exact ⟨rfl, rfl⟩
  · exact ⟨rfl, rfl⟩

/-- BRINGUP and RECOVERY begin with the images and the security block as they were. -/
theorem Module.beginStages_image (m : Module) (st : ModState) (b : Bool) : (m.beginStages st).sec = m.sec
    ∧ ((m.beginStages st).mmp b).refused = (m.mmp b).refused ∧ ((m.beginStages st).mmp b).imageOk = (m.mmp b).imageOk := by
  have stopped := allStopped_steady m
  have sec := steady_sec stopped
  have mmpA := steady_sup_a stopped
  have mmpB := steady_sup_b stopped
  unfold Module.beginStages
  generalize m.allStopped = t at sec mmpA mmpB
  refine ⟨sec, ?_⟩
  unfold Module.mmp
  rw [← mmpA, ← mmpB]
  cases b
  · exact Mmp.settle_image ..
  · exact Mmp.settle_image ..

/-! ## IMAGE_VERIFY (R526) -/

section Verify

variable {m : Module} {b : Bool} (standby : m.mech.standby = true) (cold : m.sys.st = .cold) (unchecked : (m.mmp b).imageOk = false)
  (unrefused : (m.mmp b).refused = false) (quiet : m.sec.writing = none)

include standby cold unchecked unrefused quiet

/-- The loader's verdict is recorded; when both MMPs have refused the image the module enters RECOVERY. -/
theorem doImageVerify_judges {ok : Bool} (verdict : (m.sec.imageCheck m.sec.image).isNone = ok) :
    ∃ x y z, let t := (m.loaded ok x y z).setMmp b { m.mmp b with imageOk := ok, refused := !ok }
      doImageVerify b m = if (!ok && (m.mmp (!b)).refused) = true then Module.beginStages { t with sec.noImage := true } .recovery else t := by
  obtain ⟨x, y, z, check⟩ := Module.loaderCheck_eq verdict b
  refine ⟨x, y, z, ?_⟩
  intro t
  have mine : t.mmp b = { m.mmp b with imageOk := ok, refused := !ok } := Module.setMmp_mmp ..
  have other : t.mmp (!b) = m.mmp (!b) := (Module.setMmp_other ..).trans (by cases b <;> rfl)
  have run : doImageVerify b m = if (t.sup.a.refused && t.sup.b.refused) = true then Module.beginStages { t with sec.noImage := true } .recovery
      else t := by
    unfold doImageVerify
    dsimp only
    rw [if_neg (by simp [standby, cold, unchecked, unrefused, quiet]), check]
  rw [run, t.refused_both b, mine, other]

theorem doImageVerify_accepts (good : m.sec.imageCheck m.sec.image = none) :
    let t := doImageVerify b m
    t.sec.imageValid = true ∧ t.mmp b = { m.mmp b with imageOk := true } ∧ t.sys.st = .cold := by
  obtain ⟨x, y, z, run⟩ := doImageVerify_judges standby cold unchecked unrefused quiet (Option.isNone_iff_eq_none.2 good)
  dsimp only at run ⊢
  rw [Bool.not_true, Bool.false_and, if_neg Bool.false_ne_true] at run
  rw [run, Module.setMmp_sec, Module.setMmp_mmp, Module.setMmp_sys, ← unrefused]
  exact ⟨rfl, rfl, cold⟩

/-- An image that a loader refuses stays refused in this power-up. -/
theorem doImageVerify_refuses (bad : m.sec.imageCheck m.sec.image ≠ none) :
    let t := doImageVerify b m
    t.sec.imageValid = false ∧ (t.mmp b).refused = true ∧ (t.mmp b).imageOk = false
    ∧ ((m.mmp (!b)).refused = true → t.sys.st = .recovery ∧ t.sec.noImage = true) ∧ ((m.mmp (!b)).refused = false → t.sys.st = .cold) := by
  obtain ⟨x, y, z, run⟩ := doImageVerify_judges standby cold unchecked unrefused quiet (Option.isNone_eq_false_iff.2 (Option.isSome_iff_ne_none.2 bad))
  dsimp only at run ⊢
  rw [Bool.not_false, Bool.true_and] at run
  by_cases both : (m.mmp (!b)).refused = true
  · rw [if_pos both] at run
    obtain ⟨sec, refused, image⟩ := Module.beginStages_image { ((m.loaded false x y z).setMmp b { m.mmp b with imageOk := false, refused := true })
      with sec.noImage := true } .recovery b
    rw [run, sec, refused, image, show Module.mmp { ((m.loaded false x y z).setMmp b { m.mmp b with imageOk := false, refused := true })
      with sec.noImage := true } b = _ from Module.setMmp_mmp .., Module.setMmp_sec]
    exact ⟨by cases b <;> rfl, rfl, rfl, fun _ => ⟨rfl, rfl⟩, fun h => absurd both (by rw [h]; decide)⟩
  · rw [if_neg both] at run
    rw [run, Module.setMmp_sec, Module.setMmp_mmp, Module.setMmp_sys]
    exact ⟨rfl, rfl, rfl, fun h => absurd h both, fun _ => cold⟩

end Verify

/-- The verification as a command: the loader's verdict stands once the interrupts have been raised. -/
theorem imageVerify_completes (s : State) (b : Bool) : let x := s.m.mmp b
    s.m.mech.standby = true → s.m.sys.st = .cold → x.imageOk = false → x.refused = false → s.m.sec.writing = none →
      Completes (.imageVerify b) s (fun m =>
        (s.m.sec.imageCheck s.m.sec.image = none → m.sec.imageValid = true ∧ m.mmp b = { x with imageOk := true } ∧ m.sys.st = .cold)
        ∧ (s.m.sec.imageCheck s.m.sec.image ≠ none → m.sec.imageValid = false ∧ (m.mmp b).refused = true ∧ (m.mmp b).imageOk = false
          ∧ ((s.m.mmp (!b)).refused = true → m.sys.st = .recovery ∧ m.sec.noImage = true)
          ∧ ((s.m.mmp (!b)).refused = false → m.sys.st = .cold))) := by
  intro x standby cold unchecked unrefused quiet
  refine completes_of (f := doImageVerify b) rfl ?_
  rw [settleIrq_sec, settleIrq_mmp, settleIrq_sys]
  exact ⟨doImageVerify_accepts standby cold unchecked unrefused quiet, doImageVerify_refuses standby cold unchecked unrefused quiet⟩

/-! ## Which command runs, and when (R529, R531) -/

/-- The input of a command of `secTable`, as the module takes it. -/
def secInput (m : Module) (op : Nat) (bytes : Bytes) : Bytes :=
  if op = 1 then padTo m.sec.cmdLen 0 bytes else if op = 2 then padTo 32 0 bytes else bytes

/-- Each row of the table is one command of either path. -/
theorem secTable_runs {e : (Via → Bytes → Instr) × Nat} (row : e ∈ secTable) (via : Via) (bytes : Bytes) (s : State) :
    exec (e.1 via bytes) s = onModule s (fun m => m.secRun via e.2 (secInput m e.2 bytes)) := by
  unfold secTable at row
  simp only [List.mem_cons, List.not_mem_nil, or_false] at row
  obtain rfl | rfl | rfl | rfl | rfl | rfl | rfl | rfl := row
  case inl => rfl
  case inr.inl => rfl
  case inr.inr.inl => rfl
  case inr.inr.inr.inl => rfl
  case inr.inr.inr.inr.inl => rfl
  case inr.inr.inr.inr.inr.inl => rfl
  case inr.inr.inr.inr.inr.inr.inl => rfl
  case inr.inr.inr.inr.inr.inr.inr => rfl

section Host

variable {m : Module} {op : Nat} (data : Bytes)

theorem Module.secBar0_goes (idle : m.sec.busy = false) (open_ : m.secBar op (some m.sec.cmdLen) = none) :
    m.secBar0 op data = m.secGo { op := op, oob := none, data := data } := by
  unfold Module.secBar0
  rw [if_neg (by simp [idle]), open_]

theorem Module.secBar0_barred {code : Nat} (idle : m.sec.busy = false) (bar : m.secBar op (some m.sec.cmdLen) = some code) :
    m.secBar0 op data = m.secDone { op := op, oob := none, data := data } code [] := by
  unfold Module.secBar0
  rw [if_neg (by simp [idle]), bar]
  exact Module.secEnd_done rfl ..

/-- A command is ignored while another runs, and while one of another OP reads its input. -/
theorem Module.secBar0_ignored (busy : m.sec.busy = true) (other : ∀ c, m.sec.cmd = some c → c.awaits = true → c.op ≠ op) :
    m.secBar0 op data = m := by
  unfold Module.secBar0
  rw [if_pos busy]
  split
  · next c cmd => exact if_neg (by rw [Bool.and_eq_true, decide_eq_true_eq]; exact fun h => other c cmd h.1 h.2)
  · rfl

theorem Module.secBar0_fed {c : SecCmd} (busy : m.sec.busy = true) (cmd : m.sec.cmd = some c) (awaits : c.awaits = true) (same : c.op = op) :
    m.secBar0 op data = m.secGo (c.fed data) := by
  unfold Module.secBar0
  rw [if_pos busy, cmd]
  exact if_pos (by simp [awaits, same])

theorem Module.secOob_runs {c : SecCmd} (cmd : m.sec.cmd = some c) (same : c.op = op) (new : c.begun = false) (oob : c.oob.isSome = true) :
    m.secOob op = match m.secBar op none with | some code => m.secEnd code [] | none => m.secGo c := by
  unfold Module.secOob
  rw [cmd]
  exact if_neg (by simp [same, new, Option.isSome_iff_ne_none.1 oob])

end Host

/-- The commands of the host and of the out-of-band port: one runs at a time. -/
theorem secTable_completes (s : State) {e : (Via → Bytes → Instr) × Nat} (row : e ∈ secTable) :
    (∀ src bytes, s.m.sec.busy = false →
      let c : SecCmd := { op := e.2, oob := none, data := secInput s.m e.2 bytes }
      (s.m.secBar e.2 (some s.m.sec.cmdLen) = none → exec (e.1 (.bar src) bytes) s = after s (s.m.secGo c))
      ∧ (∀ code, s.m.secBar e.2 (some s.m.sec.cmdLen) = some code → Completes (e.1 (.bar src) bytes) s (fun m => SecEnded s.m c code [] m
          ∧ m.sys = s.m.sys ∧ m.parts = s.m.parts)))
    ∧ (∀ src bytes, s.m.sec.busy = true →
      ((∀ c, s.m.sec.cmd = some c → c.awaits = true → c.op ≠ e.2) → exec (e.1 (.bar src) bytes) s = .next s)
      ∧ (∀ c, s.m.sec.cmd = some c → c.awaits = true → c.op = e.2 →
          exec (e.1 (.bar src) bytes) s = after s (s.m.secGo (c.fed (secInput s.m e.2 bytes)))))
    ∧ (∀ c bytes, s.m.sec.cmd = some c → c.op = e.2 → c.begun = false → c.oob.isSome = true →
      (s.m.secBar e.2 none = none → exec (e.1 .oob bytes) s = after s (s.m.secGo c))
      ∧ (∀ code, s.m.secBar e.2 none = some code → Completes (e.1 .oob bytes) s (fun m => SecEnded s.m c code [] m))) := by
  refine ⟨fun src bytes idle => ⟨fun open_ => ?_, fun code bar => ?_⟩, fun src bytes busy => ⟨fun other => ?_, fun c cmd awaits same => ?_⟩,
    fun c bytes cmd same new oob => ⟨fun open_ => ?_, fun code bar => ?_⟩⟩
  · rw [secTable_runs row]
    exact onModule_of (Module.secBar0_goes _ idle open_)
  · refine completes_same (secTable_runs row ..) (Module.secBar0_barred _ idle bar) rfl ⟨Module.secDone_ended _ _, rfl, rfl⟩
  · rw [secTable_runs row]
    exact onModule_still (Module.secBar0_ignored _ busy other)
  · rw [secTable_runs row]
    exact onModule_of (Module.secBar0_fed _ busy cmd awaits same)
  · rw [secTable_runs row]
    refine onModule_of (Eq.trans (Module.secOob_runs cmd same new oob) ?_)
    rw [open_]
  · refine completes_same (m := s.m.secDone c code []) (secTable_runs row ..) (Eq.trans (Module.secOob_runs cmd same new oob) ?_) rfl
      (Module.secDone_ended _ _)
    rw [bar]
    exact Module.secEnd_done cmd ..

/-- SEC_CMD with a command that takes input: it ends at once, or is held until the host's input comes (log 86). -/
theorem Module.secHold_cases (m : Module) (op : Nat) : let c : SecCmd := { op := op, oob := none, begun := true, awaits := true }
    (m.sec.busy = true → m.secHold op = m)
    ∧ (m.sec.busy = false →
      (∀ code, m.secBar op (some m.sec.cmdLen) = some code → SecEnded m c code [] (m.secHold op))
      ∧ (m.secBar op (some m.sec.cmdLen) = none →
        (op = 1 ∨ op = 4 → m.jig.phase ≠ .idle → SecEnded m c 0x0601 [] (m.secHold op))
        ∧ ((op ≠ 1 ∧ op ≠ 4) ∨ m.jig.phase = .idle →
            m.secHold op = { m with sec := { m.sec with cmd := some c, busy := true, op := op } }))) := by
  intro c
  have ends (code : Nat) : SecEnded m c code [] (Module.secEnd { m with sec.cmd := some c } code []) := by
    rw [Module.secEnd_done rfl]
    exact Module.secDone_ended code []
  refine ⟨fun busy => if_pos busy, fun idle => ?_⟩
  have run : m.secHold op = match m.secBar op (some m.sec.cmdLen) with
      | some code => Module.secEnd { m with sec.cmd := some c } code []
      | none => if ((decide (op = 1) || decide (op = 4)) && decide (m.jig.phase ≠ .idle)) = true then Module.secEnd { m with sec.cmd := some c } 0x0601 []
          else { m with sec := { m.sec with cmd := some c, busy := true, op := op } } := if_neg (by simp [idle])
  rw [run]
  refine ⟨fun code bar => ?_, fun open_ => ?_⟩
  · rw [bar]
    exact ends code
  · rw [open_]
    refine ⟨fun input load => ?_, fun free => if_neg ?_⟩
    · dsimp only
      rw [if_pos (by simp [input, load])]
      exact ends _
    · rw [Bool.and_eq_true, Bool.or_eq_true, decide_eq_true_eq, decide_eq_true_eq, decide_eq_true_eq]
      rintro ⟨input, load⟩
      exact free.elim (fun h => input.elim h.1 h.2) load

/-- The code that ends a command before it begins: the recovery loader takes IMAGE_WRITE and RESET only (R531). -/
theorem Module.secBar_cases (m : Module) {op : Nat} (len : Option Nat) (low : 1 ≤ op) (high : op ≤ 8) :
    (m.mmpRuns = false → m.secBar op len = if op = 1 ∨ op = 8 then none else some 0x0601)
    ∧ (m.mmpRuns = true → (secState op m.sys.st = false ∨ (op ≠ 2 ∧ op ≠ 3 ∧ m.cfgOpen = false) → m.secBar op len = some 0x0601)
      ∧ (secState op m.sys.st = true → (op = 2 ∨ op = 3 ∨ m.cfgOpen = true) → m.secBar op len = match len with
          | some n => if n < secOut op then some 0x0602 else none | none => none)) := by
  have known : ¬ ((decide (op = 0) || decide (8 < op)) = true) := by
    rw [Bool.or_eq_true, decide_eq_true_eq, decide_eq_true_eq]
    omega
  unfold Module.secBar
  rw [if_neg known]
  refine ⟨fun loader => ?_, fun runs => ?_⟩
  · rw [if_pos (by simp [loader])]
    simp only [Bool.or_eq_true, decide_eq_true_eq]
  · rw [if_neg (by simp [runs])]
    refine ⟨fun barred => if_pos ?_, fun state lease => if_neg ?_⟩
    · rw [secConfig]
      obtain state | ⟨quote, cert, closed⟩ := barred
      · simp [state]
      · simp [quote, cert, closed]
    · rw [secConfig]
      obtain quote | cert | opened := lease
      · simp [quote, quote ▸ state]
      · simp [cert, cert ▸ state]
      · simp [state, opened]

/-! ## IMAGE_WRITE and RESET (R529, R530) -/

theorem Module.secGo_imageWrite_cases (m : Module) {c : SecCmd} (op : c.op = 1) :
    (m.jig.phase ≠ .idle → SecEnded m c 0x0601 [] (m.secGo c) ∧ (m.secGo c).sec.image = m.sec.image)
    ∧ (m.jig.phase = .idle → m.mmpRuns = true → m.sec.imageCheck c.data ≠ none → SecEnded m c 0x0A01 [] (m.secGo c)
        ∧ (m.secGo c).sec.image = m.sec.image)
    ∧ (m.jig.phase = .idle → m.mmpRuns = false ∨ m.sec.imageCheck c.data = none →
        m.secGo c = { m.secBegun c with sec.writing := some c.data, sec.image := [], sec.imageValid := false }) := by
  have ends (code : Nat) : SecEnded m c code [] ((m.secBegun c).secEnd code []) ∧ ((m.secBegun c).secEnd code []).sec.image = m.sec.image :=
    ⟨m.secBegun_ended c code [], by rw [Module.secEnd_done rfl]; rfl⟩
  have run : m.secGo c = if m.jig.phase ≠ .idle then (m.secBegun c).secEnd 0x0601 []
      else if (m.mmpRuns && (m.sec.imageCheck c.data).isSome) = true then (m.secBegun c).secEnd 0x0A01 []
      else { m.secBegun c with sec.writing := some c.data, sec.image := [], sec.imageValid := false } := m.secGo_imageWrite op
  rw [run]
  refine ⟨fun load => ?_, fun idle runs bad => ?_, fun idle ok => ?_⟩
  · rw [if_pos load]
    exact ends _
  · rw [if_neg (not_not.2 idle), if_pos (by simp [runs, Option.isSome_iff_ne_none.2 bad])]
    exact ends _
  · rw [if_neg (not_not.2 idle), if_neg]
    obtain loader | good := ok
    · simp [loader]
    · simp [good]

/-- The power-off of COLD ends the security command that ran. -/
theorem Module.toCold_idle {m : Module} (warm : m.sys.st ≠ .cold) : m.toCold.sec.busy = false := by
  rw [Module.toCold, if_neg warm]
  rfl

theorem Module.secGo_reset_warm {m : Module} {c : SecCmd} (op : c.op = 8) (warm : m.sys.st ≠ .cold) : m.secGo c = (m.secBegun c).toCold :=
  (m.secGo_reset op).trans (if_neg warm)

/-! ## The image is written (R530) -/

/-- IMAGE_PENDING, once it is settled. -/
theorem Module.settlePending_eq (m : Module) : m.settlePending = { m with sec.imagePending :=
    m.sec.imagePending && !(decide (m.sec.measA = imgMeas m.sec.image) && decide (m.sec.measB = imgMeas m.sec.image)) } := by
  unfold Module.settlePending
  dsimp only
  rw [Bool.and_assoc]
  cases (decide (m.sec.measA = imgMeas m.sec.image) && decide (m.sec.measB = imgMeas m.sec.image))
  · rw [Bool.and_false, if_neg Bool.false_ne_true, Bool.not_false, Bool.and_true]
  · rw [Bool.and_true, Bool.not_true, Bool.and_false]
    split
    · rfl
    · next h => rw [← Bool.eq_false_iff.2 h]

section Written

variable {m : Module} {img : List Byte} {c : SecCmd} (writing : m.sec.writing = some img) (cmd : m.sec.cmd = some c)

include writing cmd

omit cmd in
/-- What flash reads back is checked again. -/
theorem doImageWriteComplete_checks : doImageWriteComplete true m =
    if (m.sec.imageCheck img).isSome = true then Module.secEnd { m with sec.writing := none, sec.image := img } 0x0A01 []
    else (Module.settlePending { m with sec := { m.sec with writing := none, image := img, imageValid := true, imagePending := true } }).secEnd 0 [] := by
  unfold doImageWriteComplete
  rw [writing]
  rfl

theorem doImageWriteComplete_good (good : m.sec.imageCheck img = none) : doImageWriteComplete true m =
    Module.secDone { m with sec := { m.sec with
      writing := none, image := img, imageValid := true
      imagePending := !(decide (m.sec.measA = imgMeas img) && decide (m.sec.measB = imgMeas img)) } } c 0 [] := by
  rw [doImageWriteComplete_checks writing, if_neg (by simp [good]), Module.settlePending_eq]
  refine Module.secEnd_done ?_ ..
  exact cmd

theorem doImageWriteComplete_bad (bad : m.sec.imageCheck img ≠ none) : doImageWriteComplete true m =
    Module.secDone { m with sec := { m.sec with writing := none, image := img } } c 0x0A01 [] := by
  rw [doImageWriteComplete_checks writing, if_pos (Option.isSome_iff_ne_none.2 bad)]
  refine Module.secEnd_done ?_ ..
  exact cmd

theorem doImageWriteComplete_unread : doImageWriteComplete false m = Module.secDone { m with sec.writing := none } c 0x0A01 [] := by
  unfold doImageWriteComplete
  rw [writing]
  refine Module.secEnd_done ?_ ..
  exact cmd

end Written

/-! ## The out-of-band port (R532) -/

theorem Module.oobStart_early {m : Module} (run : m.sec.oob.total = none) : m.oobStart = m := by
  unfold Module.oobStart
  dsimp only
  rw [run]

/-- With no command out of band, none of this XID runs. -/
theorem Module.oobRuns_false {m : Module} (other : ∀ c, m.sec.cmd = some c → c.oob ≠ m.sec.oob.xid) : m.oobRuns = false := by
  unfold Module.oobRuns
  split
  · next c cmd => rw [Bool.and_eq_false_iff, decide_eq_false_iff_not]; exact .inr (other c cmd)
  · rfl

section Datagram

variable {m : Module} {dg : Bytes} (standby : m.mech.standby = true)

include standby

/-- SEC_DATA of a new XID is the first part of a new input, and no code is known. -/
theorem doSecData_new (ok : dgOk 1 dg = true) (new : m.sec.oob.xid ≠ some (leAt dg 8 4))
    (free : ∀ c, m.sec.cmd = some c → c.oob ≠ some (leAt dg 8 4)) : doSecData dg m =
    Module.oobAnswer { m with sec.oob := { xid := some (leAt dg 8 4), op := leAt dg 4 1, parts := [(leAt dg 12 4, dgData dg)] } }
      (leAt dg 4 1) (leAt dg 8 4) (leAt dg 12 4) 0 := by
  have result : Module.oobResult { m with sec.oob := { xid := some (leAt dg 8 4), op := leAt dg 4 1, parts := [(leAt dg 12 4, dgData dg)] } } = 0 := by
    unfold Module.oobResult
    rw [Module.oobRuns_false free]
    rfl
  unfold doSecData
  rw [if_neg (by simp [standby, ok])]
  dsimp only
  rw [if_neg new, if_neg (by simp [kget?]), Module.oobStart_early rfl]
  exact congrArg (Module.oobAnswer _ _ _ _) result

theorem doSecData_repeated (ok : dgOk 1 dg = true) (same : m.sec.oob.xid = some (leAt dg 8 4)) (held : kget? m.sec.oob.parts (leAt dg 12 4) ≠ none) :
    doSecData dg m = m.oobAnswer (leAt dg 4 1) (leAt dg 8 4) (leAt dg 12 4) m.oobResult := by
  unfold doSecData
  rw [if_neg (by simp [standby, ok])]
  dsimp only
  rw [if_pos same, if_pos (Option.isSome_iff_ne_none.2 held)]

/-- The module whose out-of-band input runs as a command. -/
def Module.oobBegun (m : Module) (op n : Nat) : Module :=
  { m with sec := { m.sec with
      oob := { m.sec.oob with total := some n, op := op }
      cmd := some { op := op, oob := m.sec.oob.xid, data := (dgJoin m.sec.oob.parts).take n }
      busy := true
      op := op } }

omit standby in
theorem Module.oobBegun_result {op n : Nat} (fresh : m.sec.oob.code = none) : (m.oobBegun op n).oobResult = 0xFFFF := by
  unfold Module.oobResult
  rw [show (m.oobBegun op n).sec.oob.code = none from fresh]
  exact if_pos (Bool.or_true _)

omit standby in
theorem Module.oobStart_begins {op n : Nat} (fresh : m.sec.oob.code = none) (idle : m.sec.busy = false) (none_ : m.sec.cmd = none)
    (low : 1 ≤ op) (high : op ≤ 8) (held : n ≤ (dgJoin m.sec.oob.parts).length) :
    Module.oobStart { m with sec.oob.total := some n, sec.oob.op := op } = m.oobBegun op n := by
  unfold Module.oobStart
  dsimp only
  rw [if_neg, if_neg (by simp [idle]), if_neg]
  · rfl
  · rw [Bool.or_eq_true, decide_eq_true_eq, decide_eq_true_eq]
    omega
  · rw [fresh, Module.oobRuns_false (by intro c cmd; rw [show m.sec.cmd = some c from cmd] at none_; cases none_)]
    simpa using held

theorem doRun_begins (ok : dgOk 2 dg = true) (same : m.sec.oob.xid = some (leAt dg 8 4)) (first : m.sec.oob.total = none)
    (fresh : m.sec.oob.code = none) (idle : m.sec.busy = false) (none_ : m.sec.cmd = none) (low : 1 ≤ leAt dg 4 1) (high : leAt dg 4 1 ≤ 8)
    (held : leAt dg 20 4 ≤ (dgJoin m.sec.oob.parts).length) : doRun dg m =
    (m.oobBegun (leAt dg 4 1) (leAt dg 20 4)).oobAnswer (leAt dg 4 1) (leAt dg 8 4) (leAt dg 12 4) 0xFFFF := by
  unfold doRun
  rw [if_neg (by simp [standby, ok])]
  dsimp only
  rw [if_pos same, if_neg (by simp [first]), Module.oobStart_begins fresh idle none_ low high held]
  exact congrArg (Module.oobAnswer _ _ _ _) (Module.oobBegun_result fresh)

theorem doRun_again (ok : dgOk 2 dg = true) (same : m.sec.oob.xid = some (leAt dg 8 4)) (run : m.sec.oob.total ≠ none) :
    doRun dg m = m.oobAnswer (leAt dg 4 1) (leAt dg 8 4) (leAt dg 12 4) m.oobResult := by
  unfold doRun
  rw [if_neg (by simp [standby, ok])]
  dsimp only
  rw [if_pos same, if_pos (Option.isSome_iff_ne_none.2 run)]

theorem doFetch_other (ok : dgOk 4 dg = true) (other : m.sec.oob.xid ≠ some (leAt dg 8 4)) :
    doFetch dg m = m.oobAnswer (leAt dg 4 1) (leAt dg 8 4) (leAt dg 12 4) 0x0601 := by
  unfold doFetch
  rw [if_neg (by simp [standby, ok])]
  exact if_pos other

theorem doFetch_part (ok : dgOk 4 dg = true) (same : m.sec.oob.xid = some (leAt dg 8 4)) (done : m.sec.oob.code = some 0) :
    doFetch dg m = m.emit (.oob (dgMake (leAt dg 4 1) 5 (leAt dg 8 4) (leAt dg 12 4) 0 0 ((m.sec.oob.out.drop (leAt dg 12 4)).take 1_024))) := by
  unfold doFetch
  rw [if_neg (by simp [standby, ok])]
  dsimp only
  rw [if_neg (not_not.2 same), if_pos done]
  rfl

end Datagram

/-- Settles O57: the checks of an image one by one, the loader's verdict, and each command by what the module is when it comes. The order of the
checks (log 72), the wait of SEC_CMD for its input (log 86), the details of IMAGE_WRITE (log 71) and RUN and FETCH of an unknown XID (log 76) are
the model's. -/
theorem imagesAndCommands : Obligations.ImagesAndCommands := by
  refine ⟨Sec.imageCheck_none, fun s => ⟨imageVerify_completes s, fun e row => secTable_completes s row, s.m.secHold_cases,
    fun op len low high => s.m.secBar_cases len low high, fun c => ⟨s.m.secGo_imageWrite_cases, fun op warm => ?_⟩,
    fun img c writing cmd => ⟨fun good => ?_, fun bad => ?_, ?_⟩, fun dg standby => ?_⟩⟩
  · exact ⟨Module.secGo_reset_warm op warm, Module.toCold_st _, Module.toCold_idle warm, (s.m.secBegun c).toCold_kept.image⟩
  · refine completes_same (f := doImageWriteComplete true) rfl (doImageWriteComplete_good writing cmd good) rfl
      ⟨Module.secDone_ended _ _, rfl, rfl, rfl, ?_⟩
    show (!(decide (s.m.sec.measA = imgMeas img) && decide (s.m.sec.measB = imgMeas img))) = true ↔ _
    rw [Bool.not_eq_true', ← Bool.not_eq_true, Bool.and_eq_true, decide_eq_true_eq, decide_eq_true_eq]
  · exact completes_same (f := doImageWriteComplete true) rfl (doImageWriteComplete_bad writing cmd bad) rfl
      ⟨Module.secDone_ended _ _, rfl, rfl⟩
  · exact completes_same (f := doImageWriteComplete false) rfl (doImageWriteComplete_unread writing cmd) rfl
      ⟨Module.secDone_ended _ _, rfl, rfl⟩
  · intro xid ofs answered
    refine ⟨fun ok new free => ?_, fun ok same held => ?_, fun ok same first fresh idle none_ low high held => ?_, fun ok same run => ?_,
      fun ok same done => ?_, fun ok other => ?_⟩
    · exact completes_same (f := doSecData dg) rfl (doSecData_new standby ok new free) rfl ⟨⟨_, rfl⟩, rfl, rfl⟩
    · exact completes_same (f := doSecData dg) rfl (doSecData_repeated standby ok same held) rfl ⟨⟨_, rfl⟩, rfl⟩
    · refine completes_same (f := doRun dg) rfl (doRun_begins standby ok same first fresh idle none_ low high held) rfl ⟨⟨_, rfl⟩, rfl, ?_⟩
      rw [← same]
      rfl
    · exact completes_same (f := doRun dg) rfl (doRun_again standby ok same run) rfl ⟨⟨_, rfl⟩, rfl⟩
    · exact onModule_same (f := doFetch dg) (doFetch_part standby ok same done) rfl
    · exact completes_same (f := doFetch dg) rfl (doFetch_other standby ok other) rfl ⟨⟨_, rfl⟩, rfl⟩

end Sys2Proof.Machine
end

section
/-! The watchdog, the two MMPs, directives and the lease (R480, R489 to R499, R520). -/

namespace Sys2Proof.Machine

open Sys2Proof

/-! ## What a security command that ends leaves of supervision -/

theorem Module.secEnd_sup (m : Module) (code : Nat) (out : List Byte) : (m.secEnd code out).sup = m.sup := by
  obtain ⟨_, _, _, _, _, _, _, h⟩ := m.secEnd_keep code out
  rw [h]

theorem Module.freezeSec_sup (m : Module) : m.freezeSec.sup = m.sup := by
  unfold Module.freezeSec
  split
  · split
    · exact m.secEnd_sup ..
    · rfl
  · rfl

theorem Module.quoteNow_mmp (m : Module) (nonce : List Byte) (b : Bool) : (m.quoteNow nonce).mmp b = m.mmp b := by
  have sup (code : Nat) (out : List Byte) (m : Module) : (m.secEnd code out).mmp b = m.mmp b := by
    unfold Module.mmp
    rw [m.secEnd_sup]
  by_cases spent : m.sec.remaining = 0
  · rw [Module.quoteNow_spent nonce spent, sup]
  · by_cases limit : m.sec.quoteLimit ≤ m.quotesNow.length
    · rw [Module.quoteNow_limited nonce spent limit, sup]
    · obtain ⟨_, _, _, used⟩ := ({ m with sec.quoteAt := m.quotesNow ++ [m.now] } : Module).useLeaf_eq
      rw [Module.quoteNow_signs nonce spent (Nat.not_le.1 limit), sup, used]
      rfl

theorem Module.queuedQuote_mmp (m : Module) (b : Bool) : m.queuedQuote.mmp b = m.mmp b := by
  unfold Module.queuedQuote
  split
  · split
    · exact m.quoteNow_mmp ..
    · rfl
  · rfl

/-! ## Claims (R495 to R498) -/

/-- The lease once the claims of one epoch have met. -/
def Module.frozenAt (m : Module) (e : Nat) : Module := { m with
  sup.claims := [], sup.lease := .frozen, sup.leaseEpoch := e, sup.conflicts := satN 16 (m.sup.conflicts + 1) }

theorem Module.conflict_frozen (m : Module) (e : Nat) : let t := m.conflict e
    t.sup.lease = .frozen ∧ t.sup.leaseEpoch = e ∧ t.sup.claims = [] ∧ t.sup.conflicts = min (2 ^ 16 - 1) (m.sup.conflicts + 1) := by
  have quiet : ((m.frozenAt e).logEvent 0x0B01 .module).freezeLoad.steady = (m.frozenAt e).steady :=
    (freezeLoad_steady _).trans (logEvent_steady ..)
  have run : m.conflict e = ((m.frozenAt e).logEvent 0x0B01 .module).freezeLoad.freezeSec.settleMmps := rfl
  rw [run]
  generalize ((m.frozenAt e).logEvent 0x0B01 .module).freezeLoad = q at quiet
  have sup := q.freezeSec_sup
  exact ⟨(congrArg Sup.lease sup :).trans (steady_sup_lease quiet), (congrArg Sup.leaseEpoch sup :).trans (steady_sup_leaseEpoch quiet),
    (congrArg Sup.claims sup :).trans (steady_sup_claims quiet),
    ((congrArg Sup.conflicts sup :).trans (steady_sup_conflicts quiet)).trans (Nat.min_comm ..)⟩

section Claims

variable (m : Module) (b : Bool) (e : Nat)

theorem Module.claimLease_old (old : e = 0 ∨ e < m.sup.currentEpoch) : m.claimLease b e = m := if_pos (by simpa using old)

variable {m b e} (some_ : e ≠ 0) (current : m.sup.currentEpoch ≤ e)

include some_ current

theorem Module.claimLease_met (other : ∃ c ∈ m.sup.claims, c.mmp ≠ b2n b ∧ c.epoch = e) : m.claimLease b e = m.conflict e := by
  unfold Module.claimLease
  rw [if_neg (by simpa [some_] using current), if_pos (by simpa using other)]

variable (alone : ¬ ∃ c ∈ m.sup.claims, c.mmp ≠ b2n b ∧ c.epoch = e)

include alone

/-- A claim that meets no other is judged by the epoch of the lease. -/
theorem Module.claimLease_alone : m.claimLease b e =
    if m.sup.leaseEpoch < e then m.pend { mmp := b2n b, epoch := e, from_ := m.now }
    else if (e < m.sup.leaseEpoch || m.sup.lease ≠ .held) = true then m
    else if m.sup.holderB = b then { m with sup.renewAt := m.now } else m.conflict e := by
  unfold Module.claimLease
  rw [if_neg (by simpa [some_] using current), if_neg (by simpa using alone)]

theorem Module.claimLease_pends (above : m.sup.leaseEpoch < e) (highest : ∀ d ∈ m.sup.claims, d.epoch < e) :
    m.claimLease b e = { m with sup := { m.sup with claims := [{ mmp := b2n b, epoch := e, from_ := m.now }] } } := by
  rw [Module.claimLease_alone some_ current alone, if_pos above]
  exact if_neg (by simpa using highest)

theorem Module.claimLease_discarded (above : m.sup.leaseEpoch < e) (higher : ∃ d ∈ m.sup.claims, e ≤ d.epoch) : m.claimLease b e = m := by
  rw [Module.claimLease_alone some_ current alone, if_pos above]
  exact if_pos (by simpa using higher)

theorem Module.claimLease_stale (stale : e < m.sup.leaseEpoch ∨ (e = m.sup.leaseEpoch ∧ m.sup.lease ≠ .held)) : m.claimLease b e = m := by
  rw [Module.claimLease_alone some_ current alone, if_neg (by omega), if_pos]
  rw [Bool.or_eq_true, decide_eq_true_eq, decide_eq_true_eq]
  exact stale.imp_right And.right

theorem Module.claimLease_held (epoch : e = m.sup.leaseEpoch) (held : m.sup.lease = .held) : m.claimLease b e =
    if m.sup.holderB = b then { m with sup.renewAt := m.now } else m.conflict e := by
  rw [Module.claimLease_alone some_ current alone, if_neg (by omega), if_neg (by simp [epoch, held])]

end Claims

/-! ## How an MMP runs (R491, R493) -/

/-- ACTIVE and STANDBY are settled; nothing else of an MMP is. -/
theorem Mmp.settle_keep (x : Mmp) (active : Bool) : ∃ st, x.settle active = { x with st := st } ∧ (x.settle active).runs = x.runs
    ∧ (x.runs = false → x.settle active = x) := by
  obtain ⟨st, ok, refused, shed, busy, rises, restarts, low⟩ := x
  cases st with
  | off => exact ⟨_, rfl, rfl, fun _ => rfl⟩
  | failed => exact ⟨_, rfl, rfl, fun _ => rfl⟩
  | standby => cases active <;> exact ⟨_, rfl, rfl, fun h => by cases h⟩
  | active => cases active <;> exact ⟨_, rfl, rfl, fun h => by cases h⟩

/-- What a change of the MMPs leaves: the partitions and the lease. -/
structure MmpFrame (m t : Module) : Prop where
  parts : t.parts = m.parts
  lease : t.sup.lease = m.sup.lease
  holderB : t.sup.holderB = m.sup.holderB
  leaseEpoch : t.sup.leaseEpoch = m.sup.leaseEpoch
  claims : t.sup.claims = m.sup.claims
  expiries : t.sup.expiries = m.sup.expiries

theorem MmpFrame.refl (m : Module) : MmpFrame m m := ⟨rfl, rfl, rfl, rfl, rfl, rfl⟩

theorem MmpFrame.trans {m t u : Module} (h : MmpFrame m t) (k : MmpFrame t u) : MmpFrame m u :=
  ⟨k.parts.trans h.parts, k.lease.trans h.lease, k.holderB.trans h.holderB, k.leaseEpoch.trans h.leaseEpoch, k.claims.trans h.claims,
    k.expiries.trans h.expiries⟩

theorem Module.setMmp_frame (m : Module) (b : Bool) (x : Mmp) : MmpFrame m (m.setMmp b x) := by cases b <;> exact ⟨rfl, rfl, rfl, rfl, rfl, rfl⟩

theorem Module.setMeas_frame (m : Module) (b : Bool) (d : Digest) : MmpFrame m (m.setMeas b d) := by cases b <;> exact ⟨rfl, rfl, rfl, rfl, rfl, rfl⟩

theorem Module.settleMmps_frame (m : Module) : MmpFrame m m.settleMmps := ⟨rfl, rfl, rfl, rfl, rfl, rfl⟩

theorem Module.nameAuthority_frame (m : Module) : MmpFrame m m.nameAuthority := ⟨rfl, rfl, rfl, rfl, rfl, rfl⟩

theorem Module.settleMmps_mmp (m : Module) (b : Bool) : ∃ active, m.settleMmps.mmp b = (m.mmp b).settle active := by
  cases b
  · exact ⟨_, rfl⟩
  · exact ⟨_, rfl⟩

theorem Module.settleMmps_runs (m : Module) (b : Bool) : (m.settleMmps.mmp b).runs = (m.mmp b).runs := by
  obtain ⟨_, h⟩ := m.settleMmps_mmp b
  obtain ⟨_, -, runs, -⟩ := (m.mmp b).settle_keep _
  rw [h, runs]

/-- An MMP that does not run is left as it is. -/
theorem Module.settleMmps_down {m : Module} {b : Bool} (down : (m.mmp b).runs = false) : m.settleMmps.mmp b = m.mmp b := by
  obtain ⟨_, h⟩ := m.settleMmps_mmp b
  obtain ⟨_, -, -, same⟩ := (m.mmp b).settle_keep _
  rw [h, same down]

theorem Module.nameAuthority_down {m : Module} {b : Bool} (down : (m.mmp b).runs = false) : m.nameAuthority.mmp b = m.mmp b := by
  unfold Module.nameAuthority
  refine (Module.settleMmps_down ?_).trans ?_
  · exact down
  · rfl

/-- With MMP `b` down the other is named, if it runs. -/
theorem Module.nameAuthority_other {m : Module} {b : Bool} (down : (m.mmp b).runs = false) :
    m.nameAuthority.sup.authority = if (m.mmp (!b)).runs = true then b2n (!b) + 1 else 0 := by
  have named : m.nameAuthority.sup.authority = if m.sup.a.runs = true then 1 else if m.sup.b.runs = true then 2 else 0 := rfl
  rw [named]
  cases b
  · rw [if_neg (by rw [show m.sup.a.runs = false from down]; decide)]
    rfl
  · rw [show m.sup.b.runs = false from down, if_neg Bool.false_ne_true]
    rfl

/-! ## The failure of an MMP (R491, R496, R540) -/

/-- MMP `b` is FAILED, and with the ACTIVE one the security command that it runs is lost. -/
def Module.mmpLost (m : Module) (b : Bool) : Module :=
  let t := m.setMmp b { m.mmp b with st := .failed, imageOk := false, shedLevel := 0, busy := 0, lowRun := 0 }
  if (m.mmp b).st = .active then t.secLost else t

/-- The lease of MMP `b` expires, with its claims. -/
def Module.leaseLost (m : Module) (b : Bool) : Module :=
  if (m.sup.lease = .held && m.sup.holderB = b) = true then { m with sup.claims := m.sup.claims.filter (fun c => c.mmp ≠ b2n b) }.expireLease else m

/-- Another bring-up authority is named when MMP `b` was it. -/
def Module.authorityLost (m : Module) (b : Bool) : Module := if m.sup.authority = b2n b + 1 then m.nameAuthority else m

theorem doMmpFailed_eq {m : Module} {b : Bool} (standby : m.mech.standby = true) (runs : (m.mmp b).runs = true) :
    doMmpFailed b m = ((m.mmpLost b).leaseLost b).authorityLost b := if_neg (by simp [standby, runs])

/-- Only the security block and what has been sent change when a command is lost. -/
theorem Module.secLost_keep (m : Module) : ∃ sec out, m.secLost = { m with sec := sec, out := out } := by
  unfold Module.secLost
  split
  · split
    · obtain ⟨_, _, _, _, _, _, _, h⟩ := Module.secEnd_keep { m with sec.writing := none } 0x0601 []
      exact ⟨_, _, h⟩
    · exact ⟨_, _, rfl⟩
  · exact ⟨_, _, rfl⟩

theorem Module.secLost_ends {m : Module} {c : SecCmd} (cmd : m.sec.cmd = some c) (begun : c.begun = true) :
    m.secLost.sec.cmd = none ∧ m.secLost.sec.result = 0x0601 ∧ m.secLost.sec.writing = none := by
  have run : m.secLost = Module.secEnd { m with sec.writing := none } 0x0601 [] := by
    unfold Module.secLost
    rw [cmd]
    exact if_pos begun
  rw [run, Module.secEnd_done (c := c) (by exact cmd)]
  exact ⟨rfl, rfl, rfl⟩

theorem Module.mmpLost_keep (m : Module) (b : Bool) : MmpFrame m (m.mmpLost b) ∧ (m.mmpLost b).sup.authority = m.sup.authority
    ∧ ((m.mmpLost b).mmp b).st = .failed ∧ ((m.mmpLost b).mmp b).imageOk = false ∧ (m.mmpLost b).mmp (!b) = m.mmp (!b) := by
  unfold Module.mmpLost
  extract_lets _ t
  have frame : MmpFrame m t := m.setMmp_frame ..
  have auth : t.sup.authority = m.sup.authority := by cases b <;> rfl
  have mine : t.mmp b = _ := Module.setMmp_mmp ..
  have other : t.mmp (!b) = m.mmp (!b) := Module.setMmp_other ..
  have failed : (t.mmp b).st = .failed ∧ (t.mmp b).imageOk = false := by rw [mine]; exact ⟨rfl, rfl⟩
  obtain ⟨st, ok⟩ := failed
  split
  · obtain ⟨sec, out, lost⟩ := t.secLost_keep
    rw [lost]
    exact ⟨frame.trans ⟨rfl, rfl, rfl, rfl, rfl, rfl⟩, auth, st, ok, other⟩
  · exact ⟨frame, auth, st, ok, other⟩

theorem Module.mmpLost_command {m : Module} {b : Bool} {c : SecCmd} (active : (m.mmp b).st = .active) (cmd : m.sec.cmd = some c)
    (begun : c.begun = true) : (m.mmpLost b).sec.cmd = none ∧ (m.mmpLost b).sec.result = 0x0601 ∧ (m.mmpLost b).sec.writing = none := by
  unfold Module.mmpLost
  extract_lets _ t
  rw [if_pos active]
  exact Module.secLost_ends ((congrArg Sec.cmd (m.setMmp_sec ..)).trans cmd) begun

theorem Module.leaseLost_keep (m : Module) (b : Bool) : (m.leaseLost b).parts = m.parts ∧ (m.leaseLost b).sec = m.sec
    ∧ (m.leaseLost b).sup.authority = m.sup.authority ∧ ∀ c, ((m.leaseLost b).mmp c).runs = (m.mmp c).runs
      ∧ ((m.mmp c).runs = false → (m.leaseLost b).mmp c = m.mmp c) := by
  unfold Module.leaseLost
  split
  · refine ⟨rfl, rfl, rfl, fun c => ⟨?_, fun down => ?_⟩⟩
    · exact Module.settleMmps_runs ..
    · exact Module.settleMmps_down (by exact down)
  · exact ⟨rfl, rfl, rfl, fun _ => ⟨rfl, fun _ => rfl⟩⟩

theorem Module.leaseLost_held {m : Module} {b : Bool} (held : m.sup.lease = .held ∧ m.sup.holderB = b) :
    (m.leaseLost b).sup.lease = .none_ ∧ (m.leaseLost b).sup.expiries = min (2 ^ 16 - 1) (m.sup.expiries + 1)
    ∧ ∀ c, c ∈ (m.leaseLost b).sup.claims ↔ c ∈ m.sup.claims ∧ c.mmp ≠ b2n b := by
  have run : m.leaseLost b = Module.expireLease { m with sup.claims := m.sup.claims.filter (fun c => c.mmp ≠ b2n b) } :=
    if_pos (by simp [held])
  rw [run]
  refine ⟨rfl, Nat.min_comm .., fun c => ?_⟩
  exact List.mem_filter.trans (and_congr_right' decide_eq_true_iff)

theorem Module.leaseLost_other {m : Module} {b : Bool} (other : ¬ (m.sup.lease = .held ∧ m.sup.holderB = b)) : m.leaseLost b = m :=
  if_neg (by simpa using other)

/-- What the naming of another authority leaves of a module with MMP `b` down. -/
theorem Module.authorityLost_keep {m : Module} {b : Bool} (down : (m.mmp b).runs = false) : MmpFrame m (m.authorityLost b)
    ∧ (m.authorityLost b).sec = m.sec ∧ (m.authorityLost b).mmp b = m.mmp b
    ∧ (m.authorityLost b).sup.authority = (if m.sup.authority = b2n b + 1 then (if (m.mmp (!b)).runs = true then b2n (!b) + 1 else 0)
        else m.sup.authority) := by
  unfold Module.authorityLost
  split
  · exact ⟨m.nameAuthority_frame, rfl, Module.nameAuthority_down down, Module.nameAuthority_other down⟩
  · exact ⟨.refl m, rfl, rfl, rfl⟩

theorem Mmp.runs_failed {x : Mmp} (failed : x.st = .failed) : x.runs = false := by
  rw [Mmp.runs, failed]
  rfl

section Failed

variable {m : Module} {b : Bool} (standby : m.mech.standby = true) (runs : (m.mmp b).runs = true)

include standby runs

/-- The failure of an MMP takes its lease, its claims, the command it runs and its authority; a claim of one that does not hold the lease
stays (log 78). -/
theorem doMmpFailed_takes : let t := doMmpFailed b m
    (t.mmp b).st = .failed ∧ (t.mmp b).imageOk = false ∧ t.parts = m.parts
    ∧ (m.sup.lease = .held ∧ m.sup.holderB = b → t.sup.lease = .none_ ∧ t.sup.expiries = min (2 ^ 16 - 1) (m.sup.expiries + 1)
        ∧ (∀ c, c ∈ t.sup.claims ↔ c ∈ m.sup.claims ∧ c.mmp ≠ b2n b))
    ∧ (¬ (m.sup.lease = .held ∧ m.sup.holderB = b) → t.sup.lease = m.sup.lease ∧ t.sup.claims = m.sup.claims)
    ∧ t.sup.authority = (if m.sup.authority = b2n b + 1 then (if (m.mmp (!b)).runs then b2n (!b) + 1 else 0) else m.sup.authority)
    ∧ (∀ c, (m.mmp b).st = .active → m.sec.cmd = some c → c.begun = true → t.sec.cmd = none ∧ t.sec.result = 0x0601 ∧ t.sec.writing = none) := by
  dsimp only
  rw [doMmpFailed_eq standby runs]
  obtain ⟨frame1, auth1, failed, image, other⟩ := m.mmpLost_keep b
  have command (c : SecCmd) := Module.mmpLost_command (m := m) (b := b) (c := c)
  generalize m.mmpLost b = u at *
  obtain ⟨parts2, sec2, auth2, mmps2⟩ := u.leaseLost_keep b
  have down1 := Mmp.runs_failed failed
  have mine2 := (mmps2 b).2 down1
  have held2 := Module.leaseLost_held (m := u) (b := b)
  have other2 := Module.leaseLost_other (m := u) (b := b)
  have runs2 := (mmps2 (!b)).1
  rw [other] at runs2
  generalize u.leaseLost b = v at *
  obtain ⟨frame3, sec3, mine3, auth3⟩ := Module.authorityLost_keep (m := v) (b := b) (by rw [mine2, down1])
  rw [mine3, mine2, frame3.parts, parts2, auth3, auth2, auth1, runs2, frame3.lease, frame3.expiries, frame3.claims, sec3, sec2]
  rw [frame1.lease, frame1.holderB, frame1.expiries, frame1.claims] at held2
  rw [frame1.lease, frame1.holderB] at other2
  refine ⟨failed, image, frame1.parts, held2, fun h => ?_, rfl, command⟩
  rw [other2 h]
  exact ⟨frame1.lease, frame1.claims⟩

end Failed

/-! ## The restart of an MMP (R491) -/

/-- An MMP that comes back, or stays OFF, as its loader has judged the image. -/
def Mmp.restarted (x : Mmp) (ok : Bool) : Mmp :=
  { x with st := if ok then .standby else .off, imageOk := ok, restarts := satN 16 (x.restarts + 1) }

/-- MMP `b` comes back, or stays OFF, as its loader has judged the image. -/
def Module.restarted (m : Module) (b ok : Bool) : Module :=
  (m.setMmp b ((m.mmp b).restarted ok)).setMeas b (if ok then imgMeas m.sec.image else 0)

/-- The measurement that MMP `b` runs (R527). -/
def Module.meas (m : Module) (b : Bool) : Digest := if b then m.sec.measB else m.sec.measA

theorem Module.setMeas_meas (m : Module) (b : Bool) (d : Digest) : (m.setMeas b d).meas b = d := by cases b <;> rfl

theorem Module.restarted_keep (m : Module) (b ok : Bool) : MmpFrame m (m.restarted b ok)
    ∧ (m.restarted b ok).mmp b = (m.mmp b).restarted ok
    ∧ (m.restarted b ok).meas b = (if ok then imgMeas m.sec.image else 0) ∧ (m.restarted b ok).sec.imageValid = m.sec.imageValid := by
  unfold Module.restarted
  refine ⟨(m.setMmp_frame ..).trans (Module.setMeas_frame ..), ?_, Module.setMeas_meas .., ?_⟩
  · exact (by cases b <;> rfl : _ = (m.setMmp b _).mmp b).trans (Module.setMmp_mmp ..)
  · cases b <;> rfl

theorem Module.settlePending_image (m : Module) : m.settlePending.sec.imageValid = m.sec.imageValid ∧ (∀ b, m.settlePending.meas b = m.meas b)
    ∧ MmpFrame m m.settlePending ∧ ∀ b, m.settlePending.mmp b = m.mmp b := by
  rw [m.settlePending_eq]
  exact ⟨rfl, fun _ => rfl, ⟨rfl, rfl, rfl, rfl, rfl, rfl⟩, fun _ => rfl⟩

/-- The MMPs are settled, under a new authority or not: an MMP keeps whether it runs. -/
theorem Module.resettled (m : Module) (named : Bool) (b : Bool) : let t := if named = true then m.nameAuthority else m.settleMmps
    MmpFrame m t ∧ t.sec = m.sec ∧ ∃ active, t.mmp b = (m.mmp b).settle active := by
  cases named
  · exact ⟨m.settleMmps_frame, rfl, m.settleMmps_mmp b⟩
  · refine ⟨m.nameAuthority_frame, rfl, ?_⟩
    exact Module.settleMmps_mmp _ b

/-- Whether the AOS names an authority of bring-up or recovery after stage 0 (R493). -/
def Module.lacksAuthority (m : Module) : Bool := (m.sys.st = .bringup || m.sys.st = .recovery) && 1 ≤ m.sys.stage && m.sup.authority = 0

theorem doMmpRestart_eq {m : Module} {b ok : Bool} (failed : (m.mmp b).st = .failed) (quiet : m.sec.writing = none)
    (verdict : (m.sec.imageCheck m.sec.image).isNone = ok) : ∃ x y z, let t := ((m.loaded ok x y z).restarted b ok).settlePending
    doMmpRestart b m = if t.lacksAuthority = true then t.nameAuthority else t.settleMmps := by
  obtain ⟨x, y, z, check⟩ := Module.loaderCheck_eq verdict b
  have mine : (m.loaded ok x y z).mmp b = m.mmp b := rfl
  have image : ((m.loaded ok x y z).setMmp b ((m.mmp b).restarted ok)).sec.image = (m.loaded ok x y z).sec.image := by rw [Module.setMmp_sec]
  refine ⟨x, y, z, ?_⟩
  unfold doMmpRestart
  dsimp only
  rw [if_neg (by simp [failed, quiet]), check]
  dsimp only
  unfold Module.restarted
  rw [mine, ← image]
  rfl

/-- What an MMP that restarts is, and what it measures. -/
theorem doMmpRestart_comes {m : Module} {b ok : Bool} (failed : (m.mmp b).st = .failed) (quiet : m.sec.writing = none)
    (verdict : (m.sec.imageCheck m.sec.image).isNone = ok) : let t := doMmpRestart b m
    (t.mmp b).restarts = min (2 ^ 16 - 1) ((m.mmp b).restarts + 1) ∧ MmpFrame m t
    ∧ (t.mmp b).runs = ok ∧ (ok = false → (t.mmp b).st = .off) ∧ (t.mmp b).imageOk = ok ∧ t.sec.imageValid = ok
    ∧ t.meas b = if ok then imgMeas m.sec.image else 0 := by
  obtain ⟨x, y, z, run⟩ := doMmpRestart_eq failed quiet verdict
  dsimp only at run ⊢
  obtain ⟨frame1, mine1, meas1, valid1⟩ := (m.loaded ok x y z).restarted_keep b ok
  generalize (m.loaded ok x y z).restarted b ok = u at *
  obtain ⟨valid2, meas2, frame2, mine2⟩ := u.settlePending_image
  obtain ⟨frame3, sec3, active, mine3⟩ := u.settlePending.resettled u.settlePending.lacksAuthority b
  rw [← run] at frame3 sec3 mine3
  obtain ⟨st, settled, runs, down⟩ := (u.mmp b).settle_keep active
  rw [mine2] at mine3
  have meas3 : (doMmpRestart b m).meas b = u.meas b := by
    rw [← meas2 b]
    unfold Module.meas
    rw [sec3]
  have judged : MmpFrame m (m.loaded ok x y z) := ⟨rfl, rfl, rfl, rfl, rfl, rfl⟩
  have runs1 : (u.mmp b).runs = ok := by rw [mine1]; cases ok <;> rfl
  refine ⟨?_, judged.trans (frame1.trans (frame2.trans frame3)), ?_, fun refused => ?_, ?_, ?_, meas3.trans meas1⟩
  · rw [mine3, settled, mine1]
    exact Nat.min_comm ..
  · rw [mine3, runs, runs1]
  · rw [mine3, down (runs1.trans refused), mine1, refused]
    rfl
  · rw [mine3, settled, mine1]
    rfl
  · rw [sec3, valid2, valid1]
    rfl

/-! ## Shedding (R499) -/

/-- An MMP whose shed level rises. -/
def Mmp.risen (x : Mmp) (busy : Nat) : Mmp :=
  { x with busy := min 100 busy, lowRun := 0, shedLevel := x.shedLevel + 1, rises := satN 16 (x.rises + 1) }

section Shed

variable {m : Module} {b : Bool} {busy : Nat}

theorem doShedLevelPeriod_rises (active : (m.mmp b).st = .active) (high : 90 ≤ busy) (level : (m.mmp b).shedLevel < 4) :
    doShedLevelPeriod b busy m = (m.setMmp b ((m.mmp b).risen busy)).logEvent 0x0B02 (.ring (mmpDie b)) (detail := (m.mmp b).shedLevel + 1) := by
  have runs : (m.mmp b).runs = true := by rw [Mmp.runs, active]; rfl
  unfold doShedLevelPeriod
  dsimp only
  rw [if_neg (by simp [runs]), if_pos (by simp [active, high]), if_pos level, if_neg (by omega)]
  rfl

/-- Ten periods under 70 % lower the level by one. -/
theorem doShedLevelPeriod_low (runs : (m.mmp b).runs = true) (low : busy < 70) : let x := m.mmp b
    doShedLevelPeriod b busy m = if 9 ≤ x.lowRun then (m.setMmp b { x with busy := busy, lowRun := 0, shedLevel := x.shedLevel - 1 }).queuedQuote
      else (m.setMmp b { x with busy := busy, lowRun := x.lowRun + 1 }).queuedQuote := by
  have busyNow : min 100 busy = busy := by omega
  unfold doShedLevelPeriod
  dsimp only
  rw [if_neg (by simp [runs]), if_neg (by simp; omega), if_pos low, busyNow]
  exact if_congr (by omega) rfl rfl

theorem doShedLevelPeriod_mmp (runs : (m.mmp b).runs = true) (low : busy < 70) : let t := (doShedLevelPeriod b busy m).mmp b
    let x := m.mmp b
    t.busy = busy ∧ (9 ≤ x.lowRun → t.shedLevel = x.shedLevel - 1 ∧ t.lowRun = 0)
    ∧ (x.lowRun < 9 → t.shedLevel = x.shedLevel ∧ t.lowRun = x.lowRun + 1) := by
  dsimp only
  rw [doShedLevelPeriod_low runs low]
  by_cases long : 9 ≤ (m.mmp b).lowRun
  · rw [if_pos long, Module.queuedQuote_mmp, Module.setMmp_mmp]
    exact ⟨rfl, fun _ => ⟨rfl, rfl⟩, fun h => absurd long (by omega)⟩
  · rw [if_neg long, Module.queuedQuote_mmp, Module.setMmp_mmp]
    exact ⟨rfl, fun h => absurd h long, fun _ => ⟨rfl, rfl⟩⟩

end Shed

/-! ## Directives (R480, R494) -/

theorem Module.directive_refused {m : Module} {type : Nat} {d : BitVec 256} (bad : directiveOk type d.toNat = false) (f : Module → Module) :
    m.directive type d f = m := if_neg (by simp [bad])

/-- An accepted directive is a message of its manager. -/
theorem Module.directive_heard {m : Module} {type : Nat} {d : BitVec 256} (standby : m.mech.standby = true) (runs : m.mmpRuns = true)
    (opened : m.cfgOpen = true) (ok : directiveOk type d.toNat = true) (f : Module → Module) :
    m.directive type d f = f (m.heartbeat (bitAt d.toNat 36) (fld d.toNat 64 32)) := by
  unfold Module.directive Module.hear
  rw [if_pos (by simp [standby, runs, ok]), if_pos opened]

theorem Module.heartbeat_cfgOpen (m : Module) (b : Bool) (epoch : Nat) : (m.heartbeat b epoch).cfgOpen = m.cfgOpen := by
  cases b <;> rfl

theorem Module.heartbeat_mmp (m : Module) (b : Bool) (epoch : Nat) (c : Bool) : (m.heartbeat b epoch).mmp c = m.mmp c := by
  cases b <;> rfl

section Directive

variable {m : Module} {d : BitVec 256} (standby : m.mech.standby = true) (runs : m.mmpRuns = true) (opened : m.cfgOpen = true)

include standby runs opened

/-- A GRANT is a claim of the MMP that it names. -/
theorem doGrant_claims (ok : directiveOk 2 d.toNat = true) (up : (m.mmp (bitAt d.toNat 37)).runs = true) :
    doGrant d m = (m.heartbeat (bitAt d.toNat 36) (fld d.toNat 64 32)).claimLease (bitAt d.toNat 37) (fld d.toNat 64 32) := by
  unfold doGrant
  dsimp only
  rw [Module.directive_heard standby runs opened ok, Module.heartbeat_mmp, if_pos up]

/-- A CAP is a write of PWR_CAP under its epoch. -/
theorem doCap_caps (ok : directiveOk 3 d.toNat = true) : let x := d.toNat
    doCap d m = (m.heartbeat (bitAt x 36) (fld x 64 32)).setRackCap (fld x 96 9) (fld x 112 10) (fld x 64 32) := by
  unfold doCap
  dsimp only
  rw [Module.directive_heard standby runs opened ok, Module.heartbeat_cfgOpen, if_pos opened]

end Directive

/-! ## The watchdog (R489) -/

theorem doAosWatchdog_stops {m : Module} (standby : m.mech.standby = true) (served : svcW ∉ m.sys.svcFailed) : let t := doAosWatchdog m
    t.sys.st = .cold ∧ t.sup.wdHold = true ∧ t.sup.wdAt = some m.now ∧ t.sup.wdStops = m.sup.wdStops + 1
    ∧ (m.sys.svcFailed = [] → t.carrierState = 6)
    ∧ (t.sup.wdStuck = true ↔ m.sup.wdStuck = true ∨ ∃ a, m.sup.wdAt = some a ∧ m.now - a ≤ 600 * skS) := by
  have kept := m.toCold_kept
  have cold := m.toCold_st
  have run : doAosWatchdog m = { m.toCold with
      sys.svcFailed := m.sys.svcFailed, sup.wdStops := m.toCold.sup.wdStops + 1, sup.wdHold := true, sup.wdAt := some m.toCold.now
      sup.wdStuck := m.toCold.sup.wdStuck || (match m.sup.wdAt with | some t => decide (m.now - t ≤ 600 * skS) | none => false) } := by
    unfold doAosWatchdog
    exact if_neg (by simp [standby, served])
  dsimp only
  rw [run]
  refine ⟨cold, rfl, congrArg some kept.now, congrArg (· + 1) kept.wdStops, fun whole => ?_, ?_⟩
  · unfold Module.carrierState
    dsimp only
    rw [if_neg (by rw [kept.mech]; simp [standby, served]), if_neg (not_not.2 whole), cold]
    rfl
  · dsimp only
    rw [kept.wdStuck, Bool.or_eq_true]
    refine or_congr_right ?_
    cases m.sup.wdAt with
    | none => simp
    | some a => simp

/-- Settles O54: the claims case by case, each event of the watchdog and of an MMP by what it leaves, and the directives by what is heard first. That
claims at or below the lease's epoch change nothing while none is held is the model's (log 79), and so is what a failure leaves of the claims of
an MMP that does not hold the lease (log 78). -/
theorem mmpsAndLease : Obligations.MmpsAndLease := by
  refine ⟨fun m b e => ⟨fun old => m.claimLease_old b e old, fun some_ current => ⟨fun other => ?_, fun alone above highest => ?_,
    fun alone above higher => ?_, fun alone epoch held mine => ?_, fun alone epoch held other => ?_, fun alone stale => ?_⟩⟩,
    fun s => ⟨fun standby served => ?watchdog, fun b => ⟨fun standby runs => ?failed, fun failed quiet => ?restart, fun busy active high level => ?rises,
      fun busy runs low => ?low⟩, fun d => ?directives, fun v => ⟨fun runs => ?_, fun runs => ?_, ?_⟩, fun c claim passed => ?window,
      fun held passed => ?expiry⟩⟩
  case watchdog =>
    refine completes_of (f := doAosWatchdog) rfl ?_
    obtain ⟨_, _, _, _, irq⟩ := settleIrq_only s.m.watched (doAosWatchdog s.m)
    rw [irq]
    exact doAosWatchdog_stops standby served
  case failed =>
    refine completes_of (f := doMmpFailed b) rfl ?_
    obtain ⟨_, _, _, _, irq⟩ := settleIrq_only s.m.watched (doMmpFailed b s.m)
    rw [irq]
    exact doMmpFailed_takes standby runs
  case restart =>
    refine completes_of (f := doMmpRestart b) rfl ?_
    obtain ⟨_, _, _, _, irq⟩ := settleIrq_only s.m.watched (doMmpRestart b s.m)
    rw [irq]
    obtain ⟨restarts, frame, runs, off, ok, valid, meas⟩ := doMmpRestart_comes failed quiet rfl
    refine ⟨restarts, frame.lease, frame.holderB, frame.leaseEpoch, fun good => ?_, fun bad => ?_⟩
    · have verdict := Option.isNone_iff_eq_none.2 good
      rw [verdict] at runs ok valid meas
      exact ⟨runs, ok, valid, meas⟩
    · have verdict := Option.isNone_eq_false_iff.2 (Option.isSome_iff_ne_none.2 bad)
      rw [verdict] at ok valid meas
      exact ⟨off verdict, ok, valid, meas⟩
  case rises => exact onModule_of (f := doShedLevelPeriod b busy) (doShedLevelPeriod_rises active high level)
  case low =>
    refine completes_of (f := doShedLevelPeriod b busy) rfl ?_
    rw [settleIrq_mmp]
    exact doShedLevelPeriod_mmp runs low
  case directives =>
    intro x heard
    refine ⟨fun standby runs opened => ⟨fun ok => ?_, fun ok up => ?_, fun ok epoch => ?_⟩, fun bad => ?_, fun bad => ?_, fun bad => ?_⟩
    · exact onModule_of (f := doHeartbeat d) (Module.directive_heard standby runs opened ok _)
    · exact onModule_of (f := doGrant d) (doGrant_claims standby runs opened ok up)
    · exact onModule_of (f := doCap d) ((doCap_caps standby runs opened ok).trans (if_neg (Nat.not_lt.2 (Nat.le_of_eq epoch.symm))))
    · exact onModule_still (f := doHeartbeat d) (Module.directive_refused bad _)
    · exact onModule_still (f := doGrant d) (Module.directive_refused bad _)
    · exact onModule_still (f := doCap d) (Module.directive_refused bad _)
  case window =>
    have run : doClaimWindowEnd s.m = s.m.takeLease c := by
      unfold doClaimWindowEnd
      rw [claim, List.find?_cons, passed]
    refine completes_of (f := doClaimWindowEnd) rfl ?_
    rw [run]
    obtain ⟨_, _, _, _, irq⟩ := settleIrq_only s.m.watched (s.m.takeLease c)
    rw [irq]
    exact ⟨rfl, rfl, rfl, rfl, rfl, Nat.min_comm .., rfl, rfl, rfl⟩
  case expiry =>
    have run : doLeaseExpiry s.m = s.m.expireLease := if_pos (by simp [held, passed])
    refine completes_of (f := doLeaseExpiry) rfl ?_
    rw [run]
    obtain ⟨_, _, _, _, irq⟩ := settleIrq_only s.m.watched s.m.expireLease
    rw [irq]
    exact ⟨rfl, Nat.min_comm .., rfl, rfl⟩
  · rw [Module.claimLease_met some_ current other]
    exact m.conflict_frozen e
  · exact Module.claimLease_pends some_ current alone above highest
  · exact Module.claimLease_discarded some_ current alone above higher
  · exact (Module.claimLease_held some_ current alone epoch held).trans (if_pos mine)
  · rw [Module.claimLease_held some_ current alone epoch held, if_neg other]
    exact m.conflict_frozen e
  · exact Module.claimLease_stale some_ current alone stale
  · exact onModule_of (f := doAosLeaseClaim .mmpA v) (if_pos runs)
  · exact onModule_of (f := doAosLeaseClaim .mmpB v) (if_pos runs)
  · exact onModule_still (f := doAosLeaseClaim .host v) rfl

end Sys2Proof.Machine
end

section
/-! The caps in force, the rack managers and the droop sequence (R454, R471, R477, R478, R480, R484). -/

namespace Sys2Proof.Machine

open Sys2Proof

/-! ## The effective cap (R471) -/

/-- The lower of two caps is one of them, and not above either. -/
theorem lowerCap_le (a b : Nat × Nat) : (lowerCap a b).1 ≤ a.1 ∧ (lowerCap a b).1 ≤ b.1 ∧ (lowerCap a b = a ∨ lowerCap a b = b) := by
  unfold lowerCap
  split
  · next lower =>
    simp only [Bool.or_eq_true, Bool.and_eq_true, decide_eq_true_eq] at lower
    exact ⟨by omega, Nat.le_refl _, .inr rfl⟩
  · next higher =>
    simp only [Bool.or_eq_true, Bool.and_eq_true, decide_eq_true_eq, not_or] at higher
    exact ⟨Nat.le_refl _, Nat.not_lt.1 higher.1, .inl rfl⟩

/-- The lowest of a list of caps, from one on. -/
theorem foldl_lowerCap (l : List (Nat × Nat)) (a : Nat × Nat) : let t := l.foldl lowerCap a
    (∀ c ∈ l, t.1 ≤ c.1) ∧ t.1 ≤ a.1 ∧ (t ∈ l ∨ t = a) := by
  induction l generalizing a with
  | nil => exact ⟨fun _ h => absurd h (List.not_mem_nil), Nat.le_refl _, .inr rfl⟩
  | cons b l ih =>
    obtain ⟨all, start, from_⟩ := ih (lowerCap a b)
    obtain ⟨lowA, lowB, one⟩ := lowerCap_le a b
    refine ⟨fun c mem => ?_, start.trans lowA, ?_⟩
    · obtain rfl | mem := List.mem_cons.1 mem
      · exact start.trans lowB
      · exact all c mem
    · obtain mem | same := from_
      · exact .inl (List.mem_cons_of_mem _ mem)
      · obtain isA | isB := one
        · exact .inr (same.trans isA)
        · exact .inl (List.mem_cons.2 (.inl (same.trans isB)))

/-! ## Rack managers (R480, R484) -/

theorem Module.holderOk_of {m : Module} {src : Source} (mmp : src ≠ .host) (ok : m.cfgOk src = true) : m.holderOk src = true := by
  rw [Module.holderOk, decide_eq_true mmp, ok]
  rfl

/-- A manager's epoch is the current one when it is not below it. -/
theorem epoch_current (epoch cur : Nat) : (epoch = max cur epoch) = (cur ≤ epoch) := propext ⟨fun h => by omega, fun h => by omega⟩

section Manager

variable {m : Module}

theorem doManagerLost_a (present : m.pwr.mgrA.present = true) (silent : m.skPassed m.pwr.mgrA.at_ (5 * skS) = true) : doManagerLost false m =
    Module.recap { m with pwr.mgrA := { m.pwr.mgrA with present := false }, pwr.lostAt := if m.pwr.mgrB.present then none else some m.now } :=
  if_neg (by
    show ¬ (!m.pwr.mgrA.present || !m.skPassed m.pwr.mgrA.at_ (5 * skS)) = true
    simp [present, silent])

theorem doManagerLost_b (present : m.pwr.mgrB.present = true) (silent : m.skPassed m.pwr.mgrB.at_ (5 * skS) = true) : doManagerLost true m =
    Module.recap { m with pwr.mgrB := { m.pwr.mgrB with present := false }, pwr.lostAt := if m.pwr.mgrA.present then none else some m.now } :=
  if_neg (by
    show ¬ (!m.pwr.mgrB.present || !m.skPassed m.pwr.mgrB.at_ (5 * skS)) = true
    simp [present, silent])

theorem doHeldCapExpiry_applies {t : Nat} (lost : m.pwr.lostAt = some t) (free : m.pwr.safeCap = false) (passed : m.skPassed t (60 * skS) = true) :
    doHeldCapExpiry m = Module.recap { m with pwr.safeCap := true } := by
  unfold doHeldCapExpiry
  rw [lost]
  exact if_neg (by simp [free, passed])

theorem doDroopClear_lifts {t : Nat} (high : m.pwr.highSince = some t) (droop : m.pwr.droop = true) (passed : m.skPassed t (10 * skMs) = true) :
    doDroopClear m = Module.recap { m with pwr.droop := false } := by
  unfold doDroopClear
  rw [high]
  exact if_pos (by simp [droop, passed])

end Manager

/-! ## The droop sequence (R478) -/

/-- A partition once the droop sequence has met it, at `now`. -/
def Part.drooped (x : Part) (now : Nat) : Part :=
  if x.st = .running ∨ x.st = .draining then
    if x.taskRunning then { x with st := .draining, drainFrom := now, drainDroop := true } else { x with st := .halted }
  else x

theorem Module.droopDrain_eq (m : Module) (p : Nat) : (m.droopDrain p).cores = m.cores ∧ (m.droopDrain p).pwr = m.pwr
    ∧ ∀ q, (m.droopDrain p).part q = if q = p then (m.part p).drooped m.now else m.part q := by
  have run : m.droopDrain p = if (decide ((m.part p).st ≠ .running) && decide ((m.part p).st ≠ .draining)) = true then m
      else if (m.part p).taskRunning = true then m.modPart p (fun x => { x with st := .draining, drainFrom := m.now, drainDroop := true })
      else m.modPart p (fun x => { x with st := .halted }) := rfl
  rw [run, Part.drooped]
  by_cases served : (m.part p).st = .running ∨ (m.part p).st = .draining
  · rw [if_neg (by simpa [or_iff_not_imp_left] using served), if_pos served]
    split
    · exact ⟨rfl, rfl, fun q => part_modPart ..⟩
    · exact ⟨rfl, rfl, fun q => part_modPart ..⟩
  · rw [if_pos (by simpa using not_or.1 served), if_neg served]
    refine ⟨rfl, rfl, fun q => ?_⟩
    split
    · next same => rw [same]
    · rfl

/-- The sequence meets each of a list of partitions once. -/
theorem foldl_droopDrain {l : List Nat} (once : l.Nodup) (m : Module) : let t := l.foldl (fun m p => m.droopDrain p) m
    t.cores = m.cores ∧ t.pwr = m.pwr ∧ ∀ q, t.part q = if q ∈ l then (m.part q).drooped m.now else m.part q := by
  induction l generalizing m with
  | nil => exact ⟨rfl, rfl, fun q => rfl⟩
  | cons p l ih =>
    obtain ⟨new, once⟩ := List.nodup_cons.1 once
    obtain ⟨cores, pwr, parts⟩ := m.droopDrain_eq p
    obtain ⟨cores', pwr', parts'⟩ := ih once (m.droopDrain p)
    refine ⟨cores'.trans cores, pwr'.trans pwr, fun q => (parts' q).trans ?_⟩
    have now : (m.droopDrain p).now = m.now := congrArg Pwr.sk pwr
    rw [parts q, now]
    by_cases same : q = p
    · subst same
      rw [if_neg new, if_pos rfl, if_pos List.mem_cons_self]
    · rw [if_neg same]
      exact if_congr (by simp [same]) rfl rfl

theorem Module.shedAbove6_keep (m : Module) : ∃ a b c, m.shedAbove6 =
    { m with pwr.shedPending := a, pwr.releasePending := b, pwr.shedAt := c } := by
  unfold Module.shedAbove6 Module.orderShed
  split
  · split
    · exact ⟨_, _, _, rfl⟩
    · split <;> exact ⟨_, _, _, rfl⟩
  · exact ⟨_, _, _, rfl⟩

/-- The module whose droop sequence begins. -/
def Module.droopBegun (m : Module) : Module := { m with pwr.droopSeq := true, pwr.droopAt := m.now }.recap

/-- With no load in progress the sequence drains what runs a task and halts the rest. -/
theorem doDroopSequence_drains {m : Module} {t : Nat} (low : m.pwr.lowSince = some t) (first : m.pwr.droopSeq = false) (warm : m.sys.st ≠ .cold)
    (passed : m.skPassed t (5 * skMs) = true) (idle : m.jig.phase = .idle) : let u := doDroopSequence m
    u.pwr.droopSeq = true ∧ u.pwr.droopAt = m.now ∧ u.cores = m.cores
    ∧ ∀ q, u.part q = if q < 16 then (m.part q).drooped m.now else m.part q := by
  obtain ⟨x, y, z, log⟩ := logFatal_keep m.droopBegun 0x0805 .module none 0 0
  have run : doDroopSequence m =
      ((List.range 16).foldl (fun m p => m.droopDrain p) ((m.droopBegun.logFatal 0x0805 .module).abandonLoad 0x0805)).shedAbove6 := by
    unfold doDroopSequence
    rw [low]
    exact if_neg (by simp [first, warm, passed])
  rw [log, Module.abandonLoad, if_pos (by exact idle)] at run
  obtain ⟨cores, pwr, parts⟩ := foldl_droopDrain (List.nodup_range (n := 16))
    { m.droopBegun with sup.intakeFatal := x, sup.intake := y, sup.dropped := z }
  generalize (List.range 16).foldl (fun (m : Module) (p : Nat) => m.droopDrain p) _ = v at run cores pwr parts
  obtain ⟨a, b, c, shed⟩ := v.shedAbove6_keep
  dsimp only
  rw [run, shed]
  exact ⟨(congrArg Pwr.droopSeq pwr :), (congrArg Pwr.droopAt pwr :), cores, fun q => (parts q).trans (if_congr List.mem_range rfl rfl)⟩

/-- Settles O53: the effective cap by the fold over the caps, each message of a manager by what it writes, and the droop sequence by its fold over
the partitions. -/
theorem capsAndDroop : Obligations.CapsAndDroop := by
  intro s
  refine ⟨fun m => foldl_lowerCap m.pwr.caps (310, 7), fun src v => ?managers, fun present silent => ?_, fun present silent => ?_,
    fun t lost free passed => ?_, fun t high droop passed => ?_, fun t low first warm passed idle => ?droop, fun on none_ => ?_, fun on late => ?_⟩
  case managers =>
    intro w mmp ok
    have holder := Module.holderOk_of mmp ok
    have beat : doPwrMgrHeartbeat src v s.m = s.m.heartbeat (bitAt w 0) (fld w 32 32) := if_pos holder
    refine ⟨fun current => ?_, fun old => ?_, fun first => ?_, fun second => ?_⟩
    · exact onModule_of (f := doPwrCap src v) ((if_pos holder).trans (if_neg (Nat.not_lt.2 current)))
    · exact onModule_still (f := doPwrCap src v) ((if_pos holder).trans (if_pos old))
    · refine onModule_of (f := doPwrMgrHeartbeat src v) (beat.trans ?_)
      rw [first]
      simp only [Module.heartbeat, epoch_current]
      rfl
    · refine onModule_of (f := doPwrMgrHeartbeat src v) (beat.trans ?_)
      rw [second]
      simp only [Module.heartbeat, epoch_current]
      rfl
  case droop =>
    refine completes_of (f := doDroopSequence) rfl ?_
    obtain ⟨_, _, _, _, irq⟩ := settleIrq_only s.m.watched (doDroopSequence s.m)
    rw [irq]
    obtain ⟨seq, at_, cores, parts⟩ := doDroopSequence_drains low first warm passed idle
    refine ⟨seq, at_, fun p known running task => ?_, fun p known running task => ?_, fun p quiet still => ?_, cores⟩
    · refine Eq.trans (parts p) ?_
      rw [if_pos known, Part.drooped, if_pos (.inl running), if_pos task]
    · refine (congrArg Part.st (parts p) :).trans ?_
      rw [if_pos known, Part.drooped, if_pos (.inl running), if_neg (by simp [task])]
    · refine Eq.trans (parts p) ?_
      rw [Part.drooped, if_neg (not_or.2 ⟨quiet, still⟩), ite_self]
  · exact onModule_of (f := doManagerLost false) (doManagerLost_a present silent)
  · exact onModule_of (f := doManagerLost true) (doManagerLost_b present silent)
  · exact onModule_of (f := doHeldCapExpiry) (doHeldCapExpiry_applies lost free passed)
  · exact onModule_of (f := doDroopClear) (doDroopClear_lifts high droop passed)
  · refine onModule_of (f := doDroopPowerOff) ?_
    have none_ : (List.range 16).filter (fun p => (s.m.part p).st = .draining) = [] := by simpa using none_
    unfold doDroopPowerOff
    dsimp only
    rw [none_, if_neg (by simp [on])]
    rfl
  · exact onModule_of (f := doDroopPowerOff) (if_neg (by simp [on, late]))

end Sys2Proof.Machine
end

section
/-! Power faults (R454 to R464, R477, R482): phases, e-fuses, bricks, locks, the input and the thermal trip. -/

namespace Sys2Proof.Machine

open Sys2Proof

/-! ## Phases (R456, R460) -/

/-- A die's power once phase `p` is lost: a rail of the core takes over from the fullest (log 126). -/
def DiePower.without (x : DiePower) (p : Nat) : DiePower :=
  let y := { x with phases := x.phases ++ [p] }
  if p < 64 then y.rebalance p else y

theorem DiePower.rebalance_cases (x : DiePower) (p : Nat) : let a := x.rail p
    let b := x.fullest
    (x.rebalance p).phases = x.phases
    ∧ ((x.onRail a).length + 2 ≤ (x.onRail b).length → x.rebalance p = { x with moved := kput x.moved ((x.onRail b).headD 0) a })
    ∧ ((x.onRail b).length < (x.onRail a).length + 2 → x.rebalance p = x) := by
  refine ⟨?_, fun fuller => if_pos fuller, fun level => if_neg (Nat.not_le.2 level)⟩
  unfold DiePower.rebalance
  dsimp only
  split <;> rfl

section Faults

variable {m : Module}

/-- A new loss of a phase is kept and logged; the 21st of the core rail or the third of the network rail takes the die dark. -/
theorem doPhaseFault_new {die phase : Nat} (known : die < 100) (fed : phase < 68) (warm : m.sys.st ≠ .cold) (lit : die ∉ m.topo.dark)
    (held : phase ∉ (m.dieP die).phases) : let x := (m.dieP die).without phase
    let t := (m.setDieP die x).logEvent 0x0801 { Loc.die die with sub := phase }
    doPhaseFault die phase m = if (decide (21 ≤ x.lost) || decide (3 ≤ x.phases.length - x.lost)) = true then t.darkDie die else t :=
  if_neg (by simp [known, fed, warm, lit, held])

theorem doEfuseTrip_dark {die : Nat} (known : die < 100) (warm : m.sys.st ≠ .cold) (lit : die ∉ m.topo.dark) :
    doEfuseTrip die m = Module.darkDie { m with
      sup.intake := m.sup.intake.filter (fun r => !(r.code = 0x0801 && r.locKind = 1 && r.locIndex = die && r.time / 16 = m.now / 16)) } die :=
  if_neg (by simp [known, warm, lit])

/-- A die that goes dark: its cores are dead to the loader, and the partitions that use it FAILED. -/
theorem Module.darkDie_fails {d : Nat} (lit : d ∉ m.topo.dark) : let t := m.darkDie d
    t.topo.dark = m.topo.dark ++ [d] ∧ (∀ c ∈ coresOfDie d, c ∈ t.topo.runDead)
    ∧ (∀ p, p ∈ m.usersOf (coresOfDie d) → (m.part p).st = .loading ∨ (m.part p).st = .running ∨ (m.part p).st = .draining → (t.part p).st = .failed)
    ∧ (∀ p, p ∉ m.usersOf (coresOfDie d) → t.part p = m.part p) := by
  obtain ⟨u, run, topo, parts⟩ := darkDie_eq m d lit
  have part := part_of_parts parts
  obtain ⟨same, others, users⟩ := faultFold 0x0802 (m.usersOf (coresOfDie d)) (List.nodup_range.filter _) u
  intro t
  rw [show t = _ from run, same.1, topo]
  refine ⟨rfl, fun c mem => ?_, fun p mem served => ?_, fun p free => ?_⟩
  · by_cases known : c ∈ m.topo.runDead
    · exact List.mem_append_left _ known
    · exact List.mem_append_right _ (List.mem_filter.2 ⟨mem, by simp [known]⟩)
  · exact users p mem (by rw [part]; exact served)
  · rw [others p free, part]

/-! ## Bricks, ring e-fuses, routers and the input (R454, R461, R464, R477) -/

theorem doBrickFault_new {b : Nat} (known : b < 18) (held : b ∉ m.pwr.bricks) : doBrickFault b m =
    Module.recap (Module.logEvent { m with pwr.bricks := m.pwr.bricks ++ [b] } 0x0801 { Loc.ring svcW with sub := b }) :=
  if_neg (by simp [known, held])

/-- A ring group of links takes its ports down, one of memory ports its service die. -/
theorem doRingEfuseTrip_opens {g : Nat} (known : g < 8) (warm : m.sys.st ≠ .cold) (closed : g ∉ m.pwr.ringOpen) :
    let m1 := m.logFatal 0x0802 (.ring ((groupDies g).headD 0))
    let m2 := if g % 2 = 0 then (groupDies g).foldl (fun m n => doLinkDown (portOfRing n) true false m) m1 else m1.svcDown (16 * (g / 2) + 15)
    doRingEfuseTrip g m = { m2 with pwr.ringOpen := m2.pwr.ringOpen ++ [g] } :=
  if_neg (by simp [known, warm, closed])

theorem Module.computeOn_serving (serving : m.sys.st = .service ∨ m.sys.st = .reduced) (whole : m.sys.svcFailed.contains svcW = false) :
    m.computeOn = true := by
  unfold Module.computeOn
  obtain st | st := serving
  · rw [whole, st]
    rfl
  · rw [whole, st]
    rfl

theorem doLockFault_stops {c : Nat} (on : m.computeOn = true) (there : m.hole c = false) (runs : c ∉ m.pwr.stopped) : doLockFault c m =
    { m with pwr.stopped := m.pwr.stopped ++ [c], pwr.lockFaults := min (2 ^ 16 - 1) (m.pwr.lockFaults + 1) } := by
  rw [Nat.min_comm]
  exact if_neg (by simp [on, there, runs])

/-! ## The thermal trip (R482, R506) -/

/-- A module in which a temperature has tripped: SAFE, or a bring-up held, by its state (log 82). -/
def Module.tripped (m : Module) : Module :=
  match m.sys.st with
  | .service => m.toSafe
  | .reduced => m.toSafe
  | .bringup => { m with sys.stageHeld := true }
  | .recovery => { m with sys.stageHeld := true }
  | .cold => m
  | .outOfService => m
  | .safe => m

theorem Module.tripped_serving {m : Module} (serving : m.sys.st = .service ∨ m.sys.st = .reduced) : m.tripped = m.toSafe := by
  unfold Module.tripped
  obtain st | st := serving <;> rw [st]

theorem Module.tripped_bringing {m : Module} (bringing : m.sys.st = .bringup ∨ m.sys.st = .recovery) :
    m.tripped = { m with sys := { m.sys with stageHeld := true } } := by
  unfold Module.tripped
  split
  · next st => simp [st] at bringing
  · next st => simp [st] at bringing
  · rfl
  · rfl
  · next st => simp [st] at bringing
  · next st => simp [st] at bringing
  · next st => simp [st] at bringing

/-- A trip as the state of the module has it. -/
theorem doThermalTrip_hot {d t : Nat} (die : d < 100) (reads : (m.dieP d).tj = some t) (valid : (m.dieP d).blind = false) (hot : 1_100 ≤ t)
    (free : m.sys.stageHeld = false) : let u := m.logFatal 0x0902 (.die d)
    (m.sys.st = .service ∨ m.sys.st = .reduced → doThermalTrip d m = u.toSafe)
    ∧ (m.sys.st = .bringup ∨ m.sys.st = .recovery → doThermalTrip d m = { u with sys := { u.sys with stageHeld := true } }) := by
  intro u
  have temp : m.tempOf d = t := by
    unfold Module.tempOf
    rw [if_neg (Nat.not_le.2 die), valid, reads]
  have sys : u.sys = m.sys := by
    obtain ⟨_, _, _, log⟩ := logFatal_keep m 0x0902 (.die d) none 0 0
    rw [show u = _ from log]
  have run (warm : m.sys.st ≠ .cold) (other : m.sys.st ≠ .safe) : doThermalTrip d m = u.tripped := by
    have trips : doThermalTrip d m = (m.logFatal 0x0902 (if d < 100 then .die d else ringPlace (d - 100))).tripped :=
      if_neg (by simp [temp, warm, other, free, hot])
    rw [trips, if_pos die]
  refine ⟨fun serving => ?_, fun bringing => ?_⟩
  · rw [run (by obtain st | st := serving <;> rw [st] <;> decide) (by obtain st | st := serving <;> rw [st] <;> decide)]
    exact Module.tripped_serving (by rw [sys]; exact serving)
  · rw [run (by obtain st | st := bringing <;> rw [st] <;> decide) (by obtain st | st := bringing <;> rw [st] <;> decide)]
    exact Module.tripped_bringing (by rw [sys]; exact bringing)

end Faults

/-- Settles O51: each fault by its own lemma; what a die that goes dark fails is a fold over its users. That a thermal trip holds a bring-up is the
model's (log 82). -/
theorem powerFaults : Obligations.PowerFaults := by
  intro s
  refine ⟨fun die phase known fed warm lit held => ?phase, fun x p => x.rebalance_cases p, fun die known warm lit => ?_,
    fun d lit => Module.darkDie_fails lit, fun b known held => ?_, fun g known warm closed => ?_, fun c serving whole there runs => ?_,
    fun high => ?_, fun low => ?_, ⟨s.m.toCold_st, Module.toCold_empties⟩, fun d t die reads valid hot free => ?trip⟩
  case phase =>
    intro x0 x core t
    have run : doPhaseFault die phase s.m = if (decide (21 ≤ core) || decide (3 ≤ x.phases.length - core)) = true then t.darkDie die else t :=
      doPhaseFault_new known fed warm lit held
    have quiet : t.watched = s.m.watched := logRec_watched ..
    by_cases dark : 21 ≤ core ∨ 3 ≤ x.phases.length - core
    · rw [if_pos dark]
      exact onModule_of (f := doPhaseFault die phase) (run.trans (if_pos (by simpa using dark)))
    · rw [if_neg dark]
      exact onModule_same (f := doPhaseFault die phase) (run.trans (if_neg (by simpa using dark))) quiet
  case trip =>
    intro u
    obtain ⟨serving, bringing⟩ := doThermalTrip_hot die reads valid hot free
    refine ⟨fun st => ⟨onModule_of (f := doThermalTrip d) (serving st), rfl⟩, fun st => ?_⟩
    exact onModule_same (f := doThermalTrip d) (bringing st) (logRec_watched ..)
  · exact onModule_of (f := doEfuseTrip die) (doEfuseTrip_dark known warm lit)
  · exact onModule_of (f := doBrickFault b) (doBrickFault_new known held)
  · exact onModule_of (f := doRingEfuseTrip g) (doRingEfuseTrip_opens known warm closed)
  · exact onModule_same (f := doLockFault c) (doLockFault_stops (Module.computeOn_serving serving whole) there runs) rfl
  · exact onModule_of (f := doOvervoltage) (if_pos high)
  · exact onModule_of (f := doInputCollapse) (if_pos low)

end Sys2Proof.Machine
end

section
/-! The AOS sample (R458, R465 to R476, R481), and what power good, wakes, sheds and releases do. -/

namespace Sys2Proof.Machine

open Sys2Proof

/-! ## What the parts of a sample leave -/

/-- What a sample takes over at its start, and what no sample touches. -/
structure Taken where
  parts : KMap Part
  cores : KMap Core
  sys : Sys
  topo : Topo
  now : Nat
  volts : Nat
  history : List Nat
  power : Nat
  fast : Nat
  droop : Bool
  coolant : Bool
  cap : Nat

def Module.taken (m : Module) : Taken :=
  { parts := m.parts, cores := m.cores, sys := m.sys, topo := m.topo, now := m.now, volts := m.pwr.volts, history := m.pwr.history
    power := m.pwr.power, fast := m.pwr.fast, droop := m.pwr.droop, coolant := m.pwr.coolantCap, cap := m.pwr.capEffective }

/-- The mesh clock and its announcements, and the steps of the clusters. -/
structure Drive where
  release : Bool
  shed : Bool
  half : Bool
  steps : Nat → Option Nat

def Module.drive (m : Module) : Drive :=
  { release := m.pwr.releasePending, shed := m.pwr.shedPending, half := m.pwr.meshHalf
    steps := fun cl => (kget? m.pwr.clusters cl).map Cluster.n }

theorem Module.taken_fields {m t : Module} (h : t.taken = m.taken) : t.parts = m.parts ∧ t.cores = m.cores ∧ t.sys = m.sys
    ∧ t.pwr.volts = m.pwr.volts ∧ t.pwr.history = m.pwr.history ∧ t.pwr.power = m.pwr.power ∧ t.pwr.fast = m.pwr.fast
    ∧ t.pwr.droop = m.pwr.droop ∧ t.pwr.coolantCap = m.pwr.coolantCap ∧ t.pwr.capEffective = m.pwr.capEffective :=
  ⟨congrArg Taken.parts h, congrArg Taken.cores h, congrArg Taken.sys h, congrArg Taken.volts h, congrArg Taken.history h, congrArg Taken.power h,
    congrArg Taken.fast h, congrArg Taken.droop h, congrArg Taken.coolant h, congrArg Taken.cap h⟩

theorem Module.drive_fields {m t : Module} (h : t.drive = m.drive) : t.pwr.releasePending = m.pwr.releasePending
    ∧ t.pwr.shedPending = m.pwr.shedPending ∧ t.pwr.meshHalf = m.pwr.meshHalf ∧ t.drive.steps = m.drive.steps :=
  ⟨congrArg Drive.release h, congrArg Drive.shed h, congrArg Drive.half h, congrArg Drive.steps h⟩

/-- The dies, and how often they were throttled. -/
def Module.heat (m : Module) : KMap DiePower × Nat := (m.pwr.dies, m.pwr.throttles)

/-- A fold keeps what each of its steps keeps. -/
theorem foldl_keeps {α β : Type} (f : Module → α → Module) (g : Module → β) (h : ∀ m a, g (f m a) = g m) (l : List α) (m : Module) :
    g (l.foldl f m) = g m := by
  induction l generalizing m with
  | nil => rfl
  | cons a l ih => rw [List.foldl_cons, ih, h]

/-! ## The dies (R462, R470, R481) -/

theorem throttleDown_tj (now : Nat) (x : DiePower) : (throttleDown now x).tj = x.tj := by
  unfold throttleDown
  split
  · rfl
  · split <;> rfl

/-- A die at 95 °C starts at 60 steps. -/
theorem throttleDown_first {x : DiePower} (free : x.throttle = none) (now : Nat) : (throttleDown now x).throttle = some 60 := by
  unfold throttleDown
  rw [free]

/-- The module that counts a new throttle limit. -/
def Module.throttleCounted (m : Module) (new : Bool) : Module := if new then { m with pwr.throttles := satN 16 (m.pwr.throttles + 1) } else m

theorem Module.throttleCounted_eq (m : Module) (new : Bool) : m.throttleCounted new =
    { m with pwr.throttles := if new then satN 16 (m.pwr.throttles + 1) else m.pwr.throttles } := by cases new <;> rfl

/-- A die's record is kept and, when it is due, logged. -/
theorem Module.heatLogged (m : Module) (d : Nat) (y : DiePower) (due : Bool) : ∃ log a b c,
    (if due = true then (m.setDieP d { y with throttleLog := some m.now }).logEvent 0x0901 (.die d) else m.setDieP d y) =
      { m with pwr.dies := kput m.pwr.dies d { y with throttleLog := log }, sup.intakeFatal := a, sup.intake := b, sup.dropped := c } := by
  cases due
  · exact ⟨y.throttleLog, _, _, _, rfl⟩
  · obtain ⟨a, b, c, log⟩ := logEvent_keep (m.setDieP d { y with throttleLog := some m.now }) 0x0901 (.die d) none 0 0
    exact ⟨some m.now, a, b, c, log⟩

/-- A die that reads 95 °C or more is throttled; a new throttle limit counts. -/
theorem Module.heatSample_hot {m : Module} {d t : Nat} (reads : (m.dieP d).tj = some t) (hot : 950 ≤ t) : ∃ log a b c, m.heatSample d = { m with
    pwr.dies := kput m.pwr.dies d { throttleDown m.now (m.dieP d) with throttleLog := log }
    pwr.throttles := if (m.dieP d).throttle.isNone then satN 16 (m.pwr.throttles + 1) else m.pwr.throttles
    sup.intakeFatal := a, sup.intake := b, sup.dropped := c } := by
  obtain ⟨log, a, b, c, kept⟩ := (m.throttleCounted (m.dieP d).throttle.isNone).heatLogged d (throttleDown m.now (m.dieP d))
    (match (m.dieP d).throttleLog with | some l => (m.throttleCounted (m.dieP d).throttle.isNone).skPassed l skS | none => true)
  refine ⟨log, a, b, c, ?_⟩
  unfold Module.heatSample
  dsimp only
  rw [reads]
  dsimp only
  rw [if_pos hot]
  refine kept.trans ?_
  rw [Module.throttleCounted_eq]

theorem Module.heatSample_taken (m : Module) (d : Nat) : (m.heatSample d).taken = m.taken ∧ (m.heatSample d).drive = m.drive := by
  cases reads : (m.dieP d).tj with
  | none =>
    unfold Module.heatSample
    dsimp only
    rw [reads]
    exact ⟨rfl, rfl⟩
  | some t =>
    by_cases hot : 950 ≤ t
    · obtain ⟨_, _, _, _, h⟩ := Module.heatSample_hot reads hot
      rw [h]
      exact ⟨rfl, rfl⟩
    · unfold Module.heatSample
      dsimp only
      rw [reads]
      dsimp only
      rw [if_neg hot]
      split <;> exact ⟨rfl, rfl⟩

/-- The module that has taken over a die's readings, before they are judged. -/
def Module.dieRead (m : Module) (r : DieReading) : Module :=
  let x := m.dieP r.die
  let t := m.throttleCounted (r.tj.isNone && !x.blind)
  t.setDieP r.die { x with
    tj := if r.tj.isNone then x.tj else r.tj, blind := r.tj.isNone, sensorFault := r.fault || r.tj.isNone
    hotAt := if 54 * (64 - x.lost) < r.amps then some t.now else x.hotAt }

theorem Module.dieSample_lit {m : Module} {r : DieReading} (known : r.die < 100) (lit : r.die ∉ m.topo.dark) :
    m.dieSample r = ((m.dieRead r).crackSample r).heatSample r.die := by
  refine (if_neg (by simp [known, lit])).trans ?_
  unfold Module.dieRead Module.throttleCounted
  simp only [decide_eq_true_eq]

theorem Module.dieSample_taken (m : Module) (r : DieReading) : (m.dieSample r).taken = m.taken ∧ (m.dieSample r).drive = m.drive := by
  by_cases lit : r.die < 100 ∧ r.die ∉ m.topo.dark
  · obtain ⟨_, _, _, _, crack, -⟩ := crackSample_keep (m.dieRead r) r
    obtain ⟨taken, drive⟩ := ((m.dieRead r).crackSample r).heatSample_taken r.die
    rw [Module.dieSample_lit lit.1 lit.2, taken, drive, crack, Module.dieRead, Module.throttleCounted_eq]
    exact ⟨rfl, rfl⟩
  · have same : m.dieSample r = m := if_pos (by rw [Bool.or_eq_true, decide_eq_true_eq, List.contains_iff_mem]; by_contra h; simp at h; exact lit h)
    rw [same]
    exact ⟨rfl, rfl⟩

/-- A valid reading of 95 °C or more of a lit die. -/
theorem Module.dieSample_hot {m : Module} {r : DieReading} {t : Nat} (known : r.die < 100) (lit : r.die ∉ m.topo.dark) (reads : r.tj = some t)
    (hot : 950 ≤ t) : let u := m.dieSample r
    (u.dieP r.die).tj = some t
    ∧ ((m.dieP r.die).throttle = none → (u.dieP r.die).throttle = some 60 ∧ u.pwr.throttles = min (2 ^ 16 - 1) (m.pwr.throttles + 1)) := by
  have run := Module.dieSample_lit known lit
  have tj1 : ((m.dieRead r).dieP r.die).tj = some t := by rw [Module.dieRead, Module.setDieP_dieP, reads]; rfl
  have throttle1 : ((m.dieRead r).dieP r.die).throttle = (m.dieP r.die).throttle := by rw [Module.dieRead, Module.setDieP_dieP]
  have count1 : (m.dieRead r).pwr.throttles = m.pwr.throttles := by rw [Module.dieRead, reads]; rfl
  generalize m.dieRead r = m1 at *
  obtain ⟨ds, a, b, c, crack, tj2, throttle2⟩ := crackSample_keep m1 r
  have tj3 : ((m1.crackSample r).dieP r.die).tj = some t := by rw [crack]; exact tj2.trans tj1
  have throttle3 : ((m1.crackSample r).dieP r.die).throttle = (m.dieP r.die).throttle := by rw [crack]; exact throttle2.trans throttle1
  have count3 : (m1.crackSample r).pwr.throttles = m.pwr.throttles := by rw [crack]; exact count1
  obtain ⟨log, _, _, _, heat⟩ := Module.heatSample_hot tj3 hot
  have die : (m.dieSample r).dieP r.die =
      { throttleDown (m1.crackSample r).now ((m1.crackSample r).dieP r.die) with throttleLog := log } := by
    rw [run, heat]
    exact kgetD_kput_self ..
  dsimp only
  rw [die]
  refine ⟨(throttleDown_tj ..).trans tj3, fun free => ⟨throttleDown_first (throttle3.trans free) _, ?_⟩⟩
  rw [run, heat, throttle3, free, count3]
  exact Nat.min_comm ..

/-! ## The ring, the floor, sheds and steps (R473 to R476, R482) -/

/-- What the ring, the floor and the cap scale leave. -/
def Module.beside (m : Module) : Taken × Drive × (KMap DiePower × Nat) := (m.taken, m.drive, m.heat)

theorem Module.beside_fields {m t : Module} (h : t.beside = m.beside) : t.taken = m.taken ∧ t.drive = m.drive ∧ t.heat = m.heat := by
  obtain ⟨taken, rest⟩ := Prod.mk.inj h
  obtain ⟨drive, heat⟩ := Prod.mk.inj rest
  exact ⟨taken, drive, heat⟩

/-- The readings of the ring, taken over. -/
def Module.ringRead (m : Module) (ts : Pairs) : Module := ts.foldl (fun m e => { m with pwr.ringTj := kput m.pwr.ringTj e.1 e.2 }) m

/-- Whether a hot place of the ring is to be logged. -/
def Module.ringDue (m : Module) (k : Nat) : Bool := match kget? m.pwr.ringLog k with | some l => m.skPassed l skS | none => true

/-- A hot place of the ring is logged once a second. -/
def Module.ringHeat (m : Module) (e : Nat × Nat) : Module :=
  if m.ringDue e.1 then
    { m with pwr.ringLog := kput m.pwr.ringLog e.1 m.now }.logEvent 0x0901 (ringPlace e.1)
  else m

/-- The cap scale that the ring's temperatures allow. -/
def Module.ringScale (m : Module) (hot : Bool) : Module :=
  match m.pwr.scaleLim with
  | none => if hot = false then m else { m with pwr.scaleLim := some (max 8 (m.pwr.scale - 4)), pwr.scaleAt := m.now }
  | some l =>
    if hot = true then
      if m.skPassed m.pwr.scaleAt 1_250 then { m with pwr.scaleLim := some (max 8 (l - 4)), pwr.scaleAt := m.now } else m
    else if m.pwr.ringTj.all (fun e => e.2 ≤ 930) then { m with pwr.scaleLim := none }
    else m

theorem Module.ringSample_eq (m : Module) (ts : Pairs) : let t := m.ringRead ts
    let hot := t.pwr.ringTj.filter (fun e => 950 ≤ e.2)
    m.ringSample ts = (hot.foldl (fun m e => m.ringHeat e) t).ringScale (hot ≠ []) := by
  unfold Module.ringScale
  simp only [decide_eq_true_eq, decide_eq_false_iff_not, not_not]
  rfl

theorem Module.ringHeat_beside (m : Module) (e : Nat × Nat) : (m.ringHeat e).beside = m.beside := by
  unfold Module.ringHeat
  split
  · obtain ⟨_, _, _, log⟩ := logEvent_keep { m with pwr.ringLog := kput m.pwr.ringLog e.1 m.now } 0x0901 (ringPlace e.1) none 0 0
    rw [log]
    rfl
  · rfl

theorem Module.ringScale_beside (m : Module) (hot : Bool) : (m.ringScale hot).beside = m.beside := by
  unfold Module.ringScale
  split
  · split <;> rfl
  · split
    · split <;> rfl
    · split <;> rfl

theorem Module.ringSample_beside (m : Module) (ts : Pairs) : (m.ringSample ts).beside = m.beside := by
  have read : (m.ringRead ts).beside = m.beside := by
    refine foldl_keeps _ Module.beside ?_ ..
    intros
    rfl
  rw [Module.ringSample_eq, Module.ringScale_beside, foldl_keeps _ Module.beside Module.ringHeat_beside, read]

theorem Module.drive_steps (m : Module) (cl : Nat) : m.drive.steps cl = (kget? m.pwr.clusters cl).map Cluster.n := rfl

theorem Module.restClusters_beside (m : Module) (p : Nat) : (m.restClusters p).beside = m.beside := by
  unfold Module.restClusters
  split
  · rfl
  · refine congrArg (fun steps => (m.taken, { m.drive with steps := steps }, m.heat)) (funext fun cl => ?_)
    rw [kget?_kmapv, Option.map_map]
    refine congrArg (fun f => (kget? m.pwr.clusters cl).map f) (funext fun y => ?_)
    dsimp only [Function.comp]
    split <;> rfl

theorem Module.restAll_beside (m : Module) : m.restAll.beside = m.beside := by
  refine foldl_keeps _ Module.beside (fun u p => ?_) ..
  dsimp only
  split
  · rfl
  · exact u.restClusters_beside p

theorem Module.floorSample_beside (m : Module) (r : Reading) : (m.floorSample r).beside = m.beside := by
  unfold Module.floorSample
  dsimp only
  split
  · exact Module.restAll_beside _
  · rfl

/-- A shed is ordered where the averages ask for one; a release that is announced lowers each odd step by one. -/
theorem Module.shedSample_does (m : Module) (r : Reading) : let t := m.shedSample r
    t.taken = m.taken ∧ t.heat = m.heat ∧ (m.shedNeeded = true → t.pwr.meshHalf = true ∨ t.pwr.shedPending = true)
    ∧ (t.drive.steps = m.drive.steps ∨ t.pwr.releasePending = true ∧ ∀ cl, t.drive.steps cl = (m.drive.steps cl).map (fun n => n / 2 * 2)) := by
  unfold Module.shedSample
  split
  · unfold Module.orderShed
    split
    · next half => exact ⟨rfl, rfl, fun _ => .inl half, .inl rfl⟩
    · split
      · next pending => exact ⟨rfl, rfl, fun _ => .inr pending, .inl rfl⟩
      · exact ⟨rfl, rfl, fun _ => .inr rfl, .inl rfl⟩
  · next enough =>
    split
    · refine ⟨rfl, rfl, fun needed => absurd needed enough, .inr ⟨rfl, fun cl => ?_⟩⟩
      rw [Module.drive_steps, Module.drive_steps, Module.announceRelease, kget?_kmapv, Option.map_map, Option.map_map]
      rfl
    · exact ⟨rfl, rfl, fun needed => absurd needed enough, .inl rfl⟩

theorem stepToward_near (n goal : Nat) : stepToward n goal ≤ n + 8 ∧ n ≤ stepToward n goal + 8 := by
  unfold stepToward
  split <;> omega

/-- The half-clock limit of a cluster is lifted where its neighbours are calm. -/
def Module.liftHalf (m : Module) (cl : Nat) (y : Cluster) : Cluster := if m.calm (dieOfCluster cl) then { y with half := none } else y

/-- A cluster that runs moves toward its goal. -/
def Module.stepCluster (m : Module) (cl : Nat) (y : Cluster) : Cluster :=
  if y.st = .on then { y with n := stepToward y.n (m.stepGoal cl) } else y

theorem Module.liftHalf_n (m : Module) (cl : Nat) (y : Cluster) : (m.liftHalf cl y).n = y.n := by
  unfold Module.liftHalf
  split <;> rfl

theorem Module.stepCluster_near (m : Module) (cl : Nat) (y : Cluster) : (m.stepCluster cl y).n ≤ y.n + 8 ∧ y.n ≤ (m.stepCluster cl y).n + 8 := by
  unfold Module.stepCluster
  split
  · exact stepToward_near ..
  · omega

theorem Module.moveSteps_free {m : Module} (free : m.pwr.releasePending ≠ true) : let u := { m with pwr.clusters := kmapv m.liftHalf m.pwr.clusters }
    m.moveSteps = { u with pwr.clusters := kmapv u.stepCluster u.pwr.clusters } := if_neg free

/-- A cluster moves by at most 8 steps, and none while a release is announced. -/
theorem Module.moveSteps_near (m : Module) : let t := m.moveSteps
    t.taken = m.taken ∧ t.heat = m.heat ∧ t.pwr.meshHalf = m.pwr.meshHalf ∧ t.pwr.shedPending = m.pwr.shedPending
    ∧ (m.pwr.releasePending = true → t = m)
    ∧ ∀ cl n, m.drive.steps cl = some n → ∃ n', t.drive.steps cl = some n' ∧ n' ≤ n + 8 ∧ n ≤ n' + 8 := by
  by_cases announced : m.pwr.releasePending = true
  · have same : m.moveSteps = m := if_pos announced
    rw [same]
    exact ⟨rfl, rfl, rfl, rfl, fun _ => rfl, fun cl n step => ⟨n, step, by omega, by omega⟩⟩
  · rw [Module.moveSteps_free announced]
    refine ⟨rfl, rfl, rfl, rfl, fun h => absurd h announced, fun cl n step => ?_⟩
    obtain ⟨y, there, rfl⟩ := Option.map_eq_some_iff.1 step
    rw [Module.drive_steps, kget?_kmapv, kget?_kmapv, there]
    refine ⟨_, rfl, ?_⟩
    rw [← m.liftHalf_n cl y]
    exact Module.stepCluster_near ..

/-! ## The sample (R458) -/

/-- The module that has taken over the input of a sample. -/
def Module.sampleIn (m : Module) (r : Reading) : Module :=
  { (m.inputSample r.volts).powerSample r with pwr.coolantCap := m.pwr.coolantFault }.recap

/-- The module once the dies and the ring of a sample have been taken over. -/
def Module.samplePlaces (m : Module) (r : Reading) : Module :=
  let t := (r.dies.foldl (fun m d => m.dieSample d) m).ringSample r.ring
  { t with pwr.scale := match t.pwr.scaleLim with | some l => min l (min 64 (max 8 r.scale)) | none => min 64 (max 8 r.scale) }

/-- The module once a sample has decided on sheds, floor and steps. -/
def Module.sampleSteps (m : Module) (r : Reading) : Module := ((m.shedSample r).floorSample r).moveSteps

/-- A bring-up that a thermal trip holds goes on when every sensor is cool (R506). -/
def Module.sampleEnd (m : Module) : Module := if m.sys.stageHeld && m.cool then { m with sys.stageHeld := false, sys.stageAt := m.now } else m

theorem doAosSample_eq (m : Module) (r : Reading) : doAosSample r m = if !m.mech.standby then m else
    if (m.sampleIn r).sys.st = .cold then m.sampleIn r else (((m.sampleIn r).samplePlaces r).sampleSteps r).sampleEnd := by
  unfold doAosSample Module.sampleSteps Module.samplePlaces Module.sampleEnd
  rfl

theorem Module.sampleEnd_keep (m : Module) : ∃ held at_, m.sampleEnd = { m with sys := { m.sys with stageHeld := held, stageAt := at_ } } := by
  unfold Module.sampleEnd
  split
  · exact ⟨_, _, rfl⟩
  · exact ⟨_, _, rfl⟩

theorem Module.sampleIn_sys (m : Module) (r : Reading) : (m.sampleIn r).sys = m.sys := rfl

theorem doAosSample_warm {m : Module} (r : Reading) (standby : m.mech.standby = true) (warm : m.sys.st ≠ .cold) :
    doAosSample r m = (((m.sampleIn r).samplePlaces r).sampleSteps r).sampleEnd := by
  rw [doAosSample_eq, if_neg (by simp [standby]), Module.sampleIn_sys, if_neg warm]

theorem Module.samplePlaces_beside (m : Module) (r : Reading) : (m.samplePlaces r).taken = m.taken ∧ (m.samplePlaces r).drive = m.drive
    ∧ (m.samplePlaces r).heat = (r.dies.foldl (fun m d => m.dieSample d) m).heat := by
  obtain ⟨taken, drive, heat⟩ := Module.beside_fields ((r.dies.foldl (fun (m : Module) d => m.dieSample d) m).ringSample_beside r.ring)
  have dies := foldl_keeps (fun (m : Module) d => m.dieSample d) Module.taken (fun u d => (u.dieSample_taken d).1) r.dies m
  have drives := foldl_keeps (fun (m : Module) d => m.dieSample d) Module.drive (fun u d => (u.dieSample_taken d).2) r.dies m
  exact ⟨taken.trans dies, drive.trans drives, heat⟩

/-- What sheds, floor and steps of a sample leave, and how far they move a cluster. -/
theorem Module.sampleSteps_near (m : Module) (r : Reading) : let t := m.sampleSteps r
    t.taken = m.taken ∧ t.heat = m.heat ∧ (m.shedNeeded = true → t.pwr.meshHalf = true ∨ t.pwr.shedPending = true)
    ∧ ∀ cl n, m.drive.steps cl = some n → ∃ n', t.drive.steps cl = some n' ∧ n' ≤ n + 8 ∧ n ≤ n' + 8 := by
  unfold Module.sampleSteps
  obtain ⟨taken1, heat1, shed1, steps1⟩ := m.shedSample_does r
  obtain ⟨taken2, drive2, heat2⟩ := Module.beside_fields ((m.shedSample r).floorSample_beside r)
  obtain ⟨release2, pending2, half2, steps2⟩ := Module.drive_fields drive2
  obtain ⟨taken3, heat3, half3, pending3, still3, near3⟩ := ((m.shedSample r).floorSample r).moveSteps_near
  refine ⟨taken3.trans (taken2.trans taken1), heat3.trans (heat2.trans heat1), fun needed => ?_, fun cl n step => ?_⟩
  · rw [half3, pending3, half2, pending2]
    exact shed1 needed
  · obtain same | ⟨announced, even⟩ := steps1
    · exact near3 cl n (by rw [steps2, same, step])
    · rw [still3 (release2.trans announced), steps2, even cl, step]
      exact ⟨n / 2 * 2, rfl, by omega, by omega⟩

/-- The average of 100 µs above 1.05 times the cap asks for a fast shed (R473). -/
theorem Module.shedNeeded_fast {m : Module} (above : 105 * (m.pwr.capEffective * 100_000) < 100 * m.pwr.fast) : m.shedNeeded = true := by
  rw [show 100_000 = dkW from rfl] at above
  unfold Module.shedNeeded
  rw [Bool.or_eq_true, decide_eq_true_eq]
  exact .inr above

/-- How far the clusters have moved, from the steps. -/
theorem Module.steps_near {m u v : Module} (same : u.drive = m.drive)
    (near : ∀ cl n, u.drive.steps cl = some n → ∃ n', v.drive.steps cl = some n' ∧ n' ≤ n + 8 ∧ n ≤ n' + 8) {cl : Nat} {y : Cluster}
    (there : kget? m.pwr.clusters cl = some y) : ∃ y', kget? v.pwr.clusters cl = some y' ∧ y'.n ≤ y.n + 8 ∧ y.n ≤ y'.n + 8 := by
  obtain ⟨n, step, moved⟩ := near cl y.n (by rw [same, Module.drive_steps, there]; rfl)
  obtain ⟨y', there', rfl⟩ := Option.map_eq_some_iff.1 step
  exact ⟨y', there', moved⟩

/-- Modules with the same heat have the same dies. -/
theorem Module.dieP_of_heat {m t : Module} (h : t.heat = m.heat) (d : Nat) : t.dieP d = m.dieP d ∧ t.pwr.throttles = m.pwr.throttles := by
  obtain ⟨dies, count⟩ := Prod.mk.inj h
  unfold Module.dieP
  rw [dies]
  exact ⟨rfl, count⟩

/-- What a sample of a module that is not COLD leaves: its readings, their averages, the shed that they order, steps near the old ones, and a hot
die throttled. -/
def Sampled (m : Module) (r : Reading) (t : Module) : Prop :=
  let h := (r.bricks.foldl (· + ·) 0 * r.volts :: m.pwr.history).take 781
  t.pwr.volts = r.volts ∧ t.pwr.history = h ∧ t.pwr.power = average 781 h ∧ t.pwr.fast = average 78 h
      ∧ t.pwr.droop = (m.pwr.droop || decide (r.volts < 7_000)) ∧ t.pwr.coolantCap = m.pwr.coolantFault
  ∧ (105 * (t.pwr.capEffective * 100_000) < 100 * t.pwr.fast → t.pwr.meshHalf = true ∨ t.pwr.shedPending = true)
  ∧ (∀ cl y, kget? m.pwr.clusters cl = some y → ∃ y', kget? t.pwr.clusters cl = some y' ∧ y'.n ≤ y.n + 8 ∧ y.n ≤ y'.n + 8)
  ∧ (∀ d x u, r.dies = [x] → x.die = d → d < 100 → d ∉ m.topo.dark → x.tj = some u → 950 ≤ u →
      (t.dieP d).tj = some u ∧ ((m.dieP d).throttle = none → (t.dieP d).throttle = some 60
        ∧ t.pwr.throttles = min (2 ^ 16 - 1) (m.pwr.throttles + 1)))
  ∧ t.parts = m.parts ∧ t.cores = m.cores ∧ t.sys.st = m.sys.st

theorem Sampled.sampleEnd {m t : Module} {r : Reading} (h : Sampled m r t) : Sampled m r t.sampleEnd := by
  obtain ⟨held, at_, run⟩ := t.sampleEnd_keep
  rw [run]
  exact h

theorem Sampled.settled {m t : Module} {r : Reading} (h : Sampled m r t) (w : Watched) : Sampled m r (settleIrq w t) := by
  obtain ⟨_, _, _, _, irq⟩ := settleIrq_only w t
  rw [irq]
  exact h

theorem Module.sampleSteps_sampled (m : Module) (r : Reading) : Sampled m r (((m.sampleIn r).samplePlaces r).sampleSteps r) := by
  obtain ⟨taken1, drive1, heat1⟩ := (m.sampleIn r).samplePlaces_beside r
  obtain ⟨taken2, heat2, shed2, near2⟩ := ((m.sampleIn r).samplePlaces r).sampleSteps_near r
  obtain ⟨-, -, -, -, -, -, fast2, -, -, cap2⟩ := Module.taken_fields taken2
  obtain ⟨parts, cores, sys, volts, history, power, fast, droop, coolant, -⟩ := Module.taken_fields (taken2.trans taken1)
  refine ⟨volts, history, power, fast, droop, coolant, fun above => shed2 (Module.shedNeeded_fast ?_), fun cl y there => ?_,
    fun d x t only die known lit reads high => ?_, parts, cores, (congrArg Sys.st sys :)⟩
  · rw [← cap2, ← fast2]
    exact above
  · exact Module.steps_near drive1 near2 there
  · subst die
    obtain ⟨tj, first⟩ := Module.dieSample_hot (m := m.sampleIn r) known lit reads high
    rw [only, List.foldl_cons, List.foldl_nil] at heat1
    obtain ⟨die, count⟩ := Module.dieP_of_heat (heat2.trans heat1) x.die
    rw [die, count]
    exact ⟨tj, first⟩

/-- What a sample does to a module that is not COLD. -/
theorem doAosSample_does {m : Module} (r : Reading) (standby : m.mech.standby = true) (warm : m.sys.st ≠ .cold) : Sampled m r (doAosSample r m) := by
  rw [doAosSample_warm r standby warm]
  exact (m.sampleSteps_sampled r).sampleEnd

/-! ## Power good and the mesh (R455, R463) -/

theorem doPowerGood_begins {m : Module} {t : Nat} (cold : m.sys.st = .cold) (standby : m.mech.standby = true) (high : m.pwr.highSince = some t)
    (held : m.skPassed t skS = true) (first : m.sup.wdAt = none) (free : m.sup.wdStuck = false)
    (image : m.sup.a.imageOk = true ∨ m.sup.b.imageOk = true) :
    doPowerGood m = Module.beginStages { m with sup.wdHold := false } .bringup := by
  unfold doPowerGood
  rw [high, first]
  exact if_pos (by simp [cold, standby, held, free, image])

theorem Module.computeOn_stages {m : Module} (whole : m.sys.svcFailed.contains svcW = false) (stages : m.sys.st = .bringup) (second : 2 ≤ m.sys.stage) :
    m.computeOn = true := by
  unfold Module.computeOn
  rw [whole, stages]
  exact decide_eq_true second

/-! ## Cluster wakes (R465, R468 to R470) -/

theorem Module.cluster_setCluster (m : Module) (cl d : Nat) (y : Cluster) : (m.setCluster cl y).cluster d = if d = cl then y else m.cluster d :=
  kgetD_kput ..

/-- A cluster that begins to wake at `now`, under a half-clock limit or none. -/
def Cluster.waking (y : Cluster) (now : Nat) (half : Option Nat) : Cluster :=
  { y with st := .on, wakeAsked := false, deferFrom := none, wakeAt := some now, half := half }

/-- The step of a cluster under a half-clock limit or none. -/
def Module.stepUnder (m : Module) (cl : Nat) (half : Option Nat) : Nat :=
  match half with
  | some h => max 8 (min (m.stepLimit cl) h)
  | none => m.stepLimit cl

theorem Module.stepGoal_eq (m : Module) (cl : Nat) : m.stepGoal cl = m.stepUnder cl (m.cluster cl).half := rfl

/-- A cluster that wakes starts at the step that its limits allow. -/
theorem Module.wake_starts (m : Module) (cl : Nat) (half : Bool) : let t := m.wake cl half
    let h := if half = true then some (m.stepLimit cl / 2) else none
    (t.cluster cl).st = .on ∧ (t.cluster cl).wakeAsked = false ∧ (t.cluster cl).deferFrom = none ∧ (t.cluster cl).wakeAt = some m.now
    ∧ (t.cluster cl).half = h ∧ (t.cluster cl).n = (match h with | some h => max 8 (min (m.stepLimit cl) h) | none => m.stepLimit cl)
    ∧ (∀ d, d ≠ cl → t.cluster d = m.cluster d) ∧ t.parts = m.parts := by
  intro t h
  let u := m.setCluster cl ((m.cluster cl).waking m.now h)
  have first : u.cluster cl = (m.cluster cl).waking m.now h := Module.setCluster_cluster ..
  have limit : u.stepLimit cl = m.stepLimit cl := by
    unfold Module.stepLimit
    rw [first]
    rfl
  have goal_ : u.stepGoal cl = m.stepUnder cl h := by
    rw [Module.stepGoal_eq, first]
    unfold Module.stepUnder
    rw [limit]
    rfl
  have mine : t.cluster cl = { (m.cluster cl).waking m.now h with n := u.stepGoal cl } := by
    rw [← first]
    exact Module.setCluster_cluster ..
  have others (d : Nat) (other : d ≠ cl) : t.cluster d = m.cluster d :=
    (u.cluster_setCluster cl d _).trans ((if_neg other).trans ((m.cluster_setCluster cl d _).trans (if_neg other)))
  rw [mine, goal_]
  exact ⟨rfl, rfl, rfl, rfl, rfl, rfl, others, rfl⟩

section Wake

variable {m : Module} {cl : Nat} (due : m.wakeDue cl = true)

include due

theorem doClusterWake_calm (calm : ∀ d ∈ nextDies (dieOfCluster cl), m.dieHot d = false) : doClusterWake cl m = m.wake cl false := by
  unfold doClusterWake
  dsimp only
  rw [if_neg (by simp [due]), if_neg (by simpa using calm)]

theorem doClusterWake_hot (hot : ∃ d ∈ nextDies (dieOfCluster cl), m.dieHot d = true) (new : (m.cluster cl).deferFrom = none) :
    doClusterWake cl m = { m with
      pwr.clusters := kput m.pwr.clusters cl { m.cluster cl with deferFrom := some m.now }
      pwr.deferrals := min (2 ^ 16 - 1) (m.pwr.deferrals + 1) } := by
  unfold doClusterWake
  dsimp only
  rw [if_neg (by simp [due]), if_pos (by simpa using hot), if_neg (by simp [new]), Nat.min_comm]
  rfl

theorem doWakeDeferralExpiry_hot {t : Nat} (deferred : (m.cluster cl).deferFrom = some t) (passed : m.usPassed t 200 = true)
    (hot : ∃ d ∈ nextDies (dieOfCluster cl), m.dieHot d = true) : doWakeDeferralExpiry cl m = m.wake cl true := by
  unfold doWakeDeferralExpiry
  rw [deferred, List.any_eq_true.2 hot]
  exact if_pos (by simp [due, passed])

end Wake

/-- Settles O52: the sample by what its parts take over, keep and move; the rest by one lemma each. That the averages are taken over the samples that
there are (log 125), and that a new throttle limit is 60 steps (log 60), is the model's. -/
theorem powerSteps : Obligations.PowerSteps := by
  intro s
  refine ⟨fun r standby warm => ?sample, fun t cold standby high held first free image => ⟨?_, rfl, rfl, rfl, rfl, rfl⟩, fun whole stages => ?lock,
    fun cl => ?wake, fun pending boundary => ?_, fun pending half boundary => ?_⟩
  case sample =>
    exact completes_of (f := doAosSample r) rfl ((doAosSample_does r standby warm).settled s.m.watched)
  case lock =>
    have on : s.m.computeOn = true := stages.elim (fun h => Module.computeOn_stages whole h.1 h.2) (fun h => Module.computeOn_serving (.inl h) whole)
    exact onModule_same (f := doMeshLock) (if_pos on) rfl
  case wake =>
    intro y next woken due
    have starts (half : Bool) (i : Instr) (f : Module → Module) (h : exec i s = onModule s f) (run : f s.m = s.m.wake cl half) :
        Completes i s (woken (if half = true then some (s.m.stepLimit cl / 2) else none)) := by
      refine completes_of h ?_
      rw [run]
      obtain ⟨_, _, _, _, irq⟩ := settleIrq_only s.m.watched (s.m.wake cl half)
      rw [irq]
      exact s.m.wake_starts cl half
    refine ⟨fun calm => ?_, fun hot new => ?_, fun t deferred passed hot => ?_⟩
    · exact starts false _ (doClusterWake cl) rfl (doClusterWake_calm due calm)
    · exact onModule_same (f := doClusterWake cl) (doClusterWake_hot due hot new) rfl
    · exact starts true _ (doWakeDeferralExpiry cl) rfl (doWakeDeferralExpiry_hot due deferred passed hot)
  · exact onModule_of (f := doPowerGood) (doPowerGood_begins cold standby high held first free image)
  · exact onModule_of (f := doFastShed) (if_pos (by simp [pending, boundary]))
  · exact onModule_of (f := doShedRelease) (if_pos (by simp [pending, half, boundary]))

end Sys2Proof.Machine
end

section
/-! Kerfs (R425 to R430, R438, R439): how a take and a restore begin, the cut, and how a dump ends. -/

namespace Sys2Proof.Machine

open Sys2Proof

/-! ## Starts (R425, R426, R439) -/

/-- The record of queue `y` once its command runs. -/
def Queue.started (y : Queue) : Queue := { y with running := true, passed := false, sqHead := (y.idx + 1) % y.sqSize }

theorem Module.kerfOpen_iff (m : Module) (p : Nat) (map : List Byte) : m.kerfOpen p map = true ↔
    m.poolPorts ≠ [] ∧ (m.part p).krf.phase = .idle ∧ mapDigest map = (m.part p).krf.jigDigest ∧ m.jig.locked.contains p = false := by
  simp [Module.kerfOpen, and_assoc]

/-- The pool tiles that a take of queue `y` occupies. -/
def Module.takeArea (m : Module) (q : Nat) (y : Queue) : Nat := areaTiles (m.kerfShards (q / 64) y.map (decide (y.param 128 1 = 1)))

/-- The take that queue `y` starts. -/
def Module.newTake (m : Module) (q : Nat) (y : Queue) : Take :=
  { queue := q, gate := decide (y.param 128 1 = 1), generation := y.param 96 32, dest := y.param 192 64, area := m.takeArea q y, map := y.map
    startAt := m.now }

/-- The partition of a take that awaits its cut. -/
def Part.taken (x : Part) (t : Take) : Part := { x with krf := { x.krf with phase := .awaitingCut, generation := t.generation, take := some t } }

/-- A module whose queue `q` runs a take. -/
def Module.takeBegun (m : Module) (q : Nat) (y : Queue) : Module := { m with
  parts := kput m.parts (q / 64) ((m.part (q / 64)).taken (m.newTake q y))
  que.queues := kput m.que.queues q y.started }

theorem Module.takeBegun_part (m : Module) (q : Nat) (y : Queue) :
    (m.takeBegun q y).part (q / 64) = (m.part (q / 64)).taken (m.newTake q y) := kgetD_kput_self ..

section Start

variable {s : State} {q : Nat} {y : Queue}

/-- A take whose checks pass begins, and one of a partition with no task is cut at once. -/
theorem doKrfTake_begins (start : AtStart s q 0x40 y)
    (serves : (s.m.part (q / 64)).st = .running ∨ (s.m.part (q / 64)).st = .ready ∨ (s.m.part (q / 64)).st = .halted)
    (opens : s.m.kerfOpen (q / 64) y.map = true) (free : s.m.areaBusy (q / 64) (y.param 192 64) (s.m.takeArea q y) = false)
    (gated : y.param 128 1 = 1 → (s.m.part (q / 64)).taskRunning = true) : doKrfTake q s.m =
    if y.param 128 1 ≠ 1 ∧ (s.m.part (q / 64)).taskRunning = false then (s.m.takeBegun q y).cutNow (q / 64) else s.m.takeBegun q y := by
  have moving : (s.m.part (q / 64)).st ≠ .draining := by obtain st | st | st := serves <;> rw [st] <;> decide
  have begun : ((s.m.startCmd q).modPart (q / 64) fun x => x.taken (s.m.newTake q y)) = s.m.takeBegun q y := by
    rw [startCmd_eq (queue_of start.entry)]
    rfl
  have checks : ¬ ((decide ((s.m.part (q / 64)).st ≠ .running) && decide ((s.m.part (q / 64)).st ≠ .ready)
      && decide ((s.m.part (q / 64)).st ≠ .halted) || !s.m.kerfOpen (q / 64) y.map || s.m.areaBusy (q / 64) (y.param 192 64) (s.m.takeArea q y)
      || decide (y.param 128 1 = 1) && !(s.m.part (q / 64)).taskRunning) = true) := by
    rw [opens, free]
    obtain st | st | st := serves <;> simpa [st] using gated
  unfold doKrfTake
  dsimp only
  rw [if_neg (by simp [atStart_of start moving]), queue_of start.entry]
  refine (if_neg checks).trans ?_
  rw [← begun]
  exact if_congr (by simp) rfl rfl

theorem doKrfTake_bad (start : AtStart s q 0x40 y) (moving : (s.m.part (q / 64)).st ≠ .draining)
    (bad : ((s.m.part (q / 64)).st ≠ .running ∧ (s.m.part (q / 64)).st ≠ .ready ∧ (s.m.part (q / 64)).st ≠ .halted)
      ∨ s.m.kerfOpen (q / 64) y.map = false) : doKrfTake q s.m = s.m.badStart q := by
  unfold doKrfTake
  dsimp only
  rw [if_neg (by simp [atStart_of start moving]), queue_of start.entry, if_pos]
  obtain ⟨run, ready, halt⟩ | closed := bad
  · simp [run, ready, halt]
  · simp [closed]

theorem doKrfRestore_bad (start : AtStart s q 0x41 y) (moving : (s.m.part (q / 64)).st ≠ .draining) (host : Bytes)
    (bad : ((s.m.part (q / 64)).st ≠ .ready ∧ (s.m.part (q / 64)).st ≠ .halted) ∨ s.m.kerfOpen (q / 64) y.map = false) :
    doKrfRestore q host s.m = s.m.badStart q := by
  unfold doKrfRestore
  dsimp only
  rw [if_neg (by simp [atStart_of start moving]), queue_of start.entry, if_pos]
  obtain ⟨ready, halt⟩ | closed := bad
  · simp [ready, halt]
  · simp [closed]

/-- The restore that queue `y` starts, from the manifests at the addresses that the host lists. -/
def Queue.newRestore (y : Queue) (q : Nat) (host : Bytes) : Restore :=
  let list := (List.range (y.param 128 12)).map (fun i => leAt host (8 * i) 8)
  { queue := q, generation := y.param 96 32, map := y.map, list := list, want := list.map (fun a => (a, 0xFFFF_FFFF, 0, 0)) }

/-- The partition of a restore that reads its manifests. -/
def Part.restored (x : Part) (r : Restore) : Part := { x with krf := { x.krf with phase := .restoring, generation := r.generation, restore := some r } }

/-- A module whose queue `q` runs a restore. -/
def Module.restoreBegun (m : Module) (q : Nat) (y : Queue) (host : Bytes) : Module := { m with
  parts := kput m.parts (q / 64) ((m.part (q / 64)).restored (y.newRestore q host))
  que.queues := kput m.que.queues q y.started }

section Restore

variable (start : AtStart s q 0x41 y) (serves : (s.m.part (q / 64)).st = .ready ∨ (s.m.part (q / 64)).st = .halted)
  (opens : s.m.kerfOpen (q / 64) y.map = true) (host : Bytes)

include start serves opens

theorem doKrfRestore_begins : doKrfRestore q host s.m = if s.m.hostUp = false then (s.m.setQueue q y.started).complete q 0x0202 0
    else (s.m.restoreBegun q y host).restoreGo (q / 64) 5 := by
  have moving : (s.m.part (q / 64)).st ≠ .draining := by obtain st | st := serves <;> rw [st] <;> decide
  unfold doKrfRestore
  dsimp only
  rw [if_neg (by simp [atStart_of start moving]), queue_of start.entry, if_neg (by obtain st | st := serves <;> simp [st, opens]),
    startCmd_eq (queue_of start.entry)]
  exact if_congr (by rw [Bool.not_eq_true']; rfl) rfl rfl

/-- A restore with no host link completes at once (log 56). -/
theorem doKrfRestore_offline (down : s.m.hostUp = false) : doKrfRestore q host s.m = ended s.m q y.started 0x0202 0 false false := by
  have queue : (s.m.setQueue q y.started).queue q = y.started := by rw [queue_setQueue, if_pos rfl]
  rw [doKrfRestore_begins start serves opens host, if_pos down, Module.complete, if_pos (by rw [queue]; rfl),
    finish_ended _ _ _ _ _ _ (by rw [queue]; exact start.desc), queue, ended_setQueue]

/-- A restore reads tile 0 of its first manifest, through the port of its address (log 25). -/
theorem doKrfRestore_reads {port : Nat} (up : s.m.hostUp = true) (some_ : 0 < y.param 128 12)
    (there : s.m.poolPort (leAt host 0 8 / pageBytes) = some port) :
    doKrfRestore q host s.m = (s.m.restoreBegun q y host).poolRead port (leAt host 0 8) (.restore (q / 64)) := by
  rw [doKrfRestore_begins start serves opens host, if_neg (by simp [up])]
  have part : (s.m.restoreBegun q y host).part (q / 64) = (s.m.part (q / 64)).restored (y.newRestore q host) := kgetD_kput_self ..
  obtain ⟨n, count⟩ : ∃ n, y.param 128 12 = n + 1 := ⟨_, (Nat.succ_pred_eq_of_pos some_).symm⟩
  have want : ∃ rest, (y.newRestore q host).want = (leAt host 0 8, 0xFFFF_FFFF, 0, 0) :: rest := by
    unfold Queue.newRestore
    rw [count, List.range_succ_eq_map]
    exact ⟨_, rfl⟩
  obtain ⟨rest, want⟩ := want
  have restore : ((s.m.part (q / 64)).restored (y.newRestore q host)).krf.restore = some (y.newRestore q host) := rfl
  have port_ : (s.m.restoreBegun q y host).poolPort (leAt host 0 8 / pageBytes) = some port := there
  rw [Module.restoreGo, part, restore]
  dsimp only
  rw [if_pos (by rw [want]; exact List.cons_ne_nil _ _), Module.readNext, part, restore]
  dsimp only
  rw [want]
  dsimp only
  rw [port_]

end Restore

end Start

/-! ## The cut (R426, R428) -/

section Cut

variable {m : Module} {p : Nat} {t : Take} (take : (m.part p).krf.take = some t)

include take

theorem doCut_cuts (waits : (m.part p).krf.phase = .awaitingCut) (due : (t.gate = false ∧ (m.part p).taskRunning = false)
    ∨ (t.gate = true ∧ (m.part p).taskRunning = true ∧ (m.part p).started = true ∧ m.quiet p = true)) : doCut p m = m.cutNow p := by
  unfold doCut
  dsimp only
  rw [take]
  dsimp only
  rw [if_neg (not_not.2 waits), if_neg]
  obtain ⟨gate, idle⟩ | ⟨gate, running, started, quiet⟩ := due
  · simp [gate, idle]
  · simp [gate, running, started, quiet]

/-- A take that fails: the partition keeps all but its kerf's work, and the command completes with 0x0702 (R438). -/
theorem Module.failTake_took : let u := m.failTake p
    u.part p = { m.part p with krf := { (m.part p).krf with take := none, phase := .idle } } ∧ (∀ q, q ≠ p → u.part q = m.part q)
    ∧ ∀ y, kget? m.que.queues t.queue = some y → y.running = true → y.desc.isSome = true →
      u.queue t.queue = (ended m t.queue y 0x0702 0 false false).queue t.queue := by
  unfold Module.failTake
  dsimp only
  rw [take]
  dsimp only
  generalize dropped : Module.modPart _ p _ = d
  have parts (q : Nat) : d.part q = if q = p then { m.part p with krf := { (m.part p).krf with take := none, phase := .idle } } else m.part q := by
    rw [← dropped]
    exact part_modPart ..
  have queues : d.que.queues = m.que.queues := by
    rw [← dropped]
    rfl
  clear dropped
  obtain ⟨x, z, w, log⟩ := logEvent_keep d 0x0702 .module (some p) 0 0
  rw [log]
  have same := complete_cp { d with sup.intakeFatal := x, sup.intake := z, sup.dropped := w } t.queue 0x0702 0
  refine ⟨?_, fun q other => ?_, fun y there running desc => ?_⟩
  · rw [same.part]
    exact (parts p).trans (if_pos rfl)
  · rw [same.part]
    exact (parts q).trans (if_neg other)
  · have queue : Module.queue { d with sup.intakeFatal := x, sup.intake := z, sup.dropped := w } t.queue = y :=
      queue_of (by rw [← there, ← queues])
    rw [Module.complete, if_pos (by rw [queue]; exact running), finish_ended _ _ _ _ _ _ (by rw [queue]; exact desc), queue]
    exact (kgetD_kput_self ..).trans (kgetD_kput_self ..).symm

theorem doQuietTimeout_fails (waits : (m.part p).krf.phase = .awaitingCut) (gate : t.gate = true)
    (passed : m.msPassed t.startAt (max 1 (fld m.launch.limits 0 16)) = true) : doQuietTimeout p m = m.failTake p := by
  unfold doQuietTimeout
  dsimp only
  rw [take]
  exact if_neg (by simp [waits, gate, passed])

/-! ## The end of the dump (R429 to R433, R438) -/

section Dump

variable (dumps : (m.part p).krf.phase = .dumping) (landed : ∀ f ∈ m.net.flights, f.part ≠ p) (settled : m.jig.phase ≠ .writing)
  (awake : ∀ cl ∈ dumpClusters t.map, (m.cluster cl).st = .on)

include dumps landed settled awake

/-- What the end of a dump does with the tiles: pages become pending, and the writes begin. -/
def Module.dumped (m : Module) (p : Nat) (t : Take) (idle : Bool) : Module :=
  let tiles := m.kerfTiles p t
  let m := (tiles.flatMap (fun k => k.pages)).foldl (fun m g => m.setPage g { m.page g with pending := true }) m
  let m := m.modPart p (fun x => { x with krf := { x.krf with phase := .writing, take := some { t with tiles := tiles } } })
  let m := if idle = true then m else m.restClusters p
  ((m.feedAll p).serveAll p).sendKerf p

theorem doDumpEnd_due : doDumpEnd p m = match m.dumpFault t.map with
    | some u => u.failTake p
    | none => if (m.dump p t.map).2 = false then (m.dump p t.map).1.failTake p else (m.dump p t.map).1.dumped p t (m.part p).taskRunning := by
  have due : ¬ ((decide ((m.part p).krf.phase ≠ .dumping) || m.net.flights.any (fun f => f.part = p) || decide (m.jig.phase = .writing)
      || !(dumpClusters t.map).all (fun cl => (m.cluster cl).st = .on)) = true) := by
    simpa [dumps, settled] using ⟨landed, awake⟩
  unfold doDumpEnd
  dsimp only
  rw [take]
  refine (if_neg due).trans ?_
  cases m.dumpFault t.map with
  | some u => rfl
  | none => exact if_congr (by rw [Bool.not_eq_true']) rfl rfl

end Dump

end Cut

/-- The writes of a take begin: the partition's pages are pending. -/
theorem Module.dumped_eq (m : Module) (p : Nat) (t : Take) (running : Bool) : let tiles := m.kerfTiles p t
    let m1 := (tiles.flatMap (fun k => k.pages)).foldl (fun m g => m.setPage g { m.page g with pending := true }) m
    let m2 := m1.setPart p { m.part p with krf := { (m.part p).krf with phase := .writing, take := some { t with tiles := tiles } } }
    m.dumped p t running = (((if running = true then m2 else m2.restClusters p).feedAll p).serveAll p).sendKerf p := by
  intro tiles m1 m2
  obtain ⟨pages, pend⟩ := foldl_pend_keep (tiles.flatMap (fun k => k.pages)) m
  have part : m1.part p = m.part p := by
    rw [show m1 = _ from pend]
    rfl
  have same : m1.modPart p (fun x => { x with krf := { x.krf with phase := .writing, take := some { t with tiles := tiles } } }) = m2 := by
    unfold m2
    rw [← part]
    rfl
  rw [← same]
  rfl

/-- Settles O47: the checks of a start, the cut, and the end of a dump. That a restore with no host link ends with 0x0202 is the model's (log 56), and
so is the port of its first read (log 25). -/
theorem kerfTakes : Obligations.KerfTakes := by
  refine ⟨fun s q y => ?starts, fun s p t => ?works⟩
  case starts =>
    intro p x y1 gate opens
    have closed : ¬ opens → s.m.kerfOpen p y.map = false := fun h => Bool.eq_false_iff.2 fun ok => h ((s.m.kerfOpen_iff p y.map).1 ok)
    refine ⟨fun start st running open_ => ?_, fun start st idle ungated open_ => ?_, fun op host i which start bad => ?_, fun host start st open_ =>
      ⟨fun down => ?_, fun port => ?_⟩⟩
    · intro area free t
      have opens := (s.m.kerfOpen_iff p y.map).2 open_
      refine onModule_of (f := doKrfTake q) ((doKrfTake_begins start (.inl st) opens free fun _ => running).trans (if_neg ?_))
      rw [running]
      exact fun h => absurd h.2 (by decide)
    · intro area free t
      have opens := (s.m.kerfOpen_iff p y.map).2 open_
      have boundary : y.param 128 1 ≠ 1 := of_decide_eq_false ungated
      refine onModule_of (f := doKrfTake q) ((doKrfTake_begins start st opens free fun h => absurd h boundary).trans
        ((if_pos ⟨boundary, idle⟩).trans ?_))
      have part := s.m.takeBegun_part q y
      rw [cutNow_eq (t := s.m.newTake q y) (by rw [part]; rfl), part, Module.takeBegun, kput_kput]
      rfl
    · have moving : x.st ≠ .draining := by
        obtain st | st | st | ⟨moving, -⟩ := bad
        · rw [st]; decide
        · rw [st]; decide
        · rw [st]; decide
        · exact moving
      have refused : (x.st ≠ .running ∧ x.st ≠ .ready ∧ x.st ≠ .halted) ∨ s.m.kerfOpen p y.map = false := by
        obtain st | st | st | ⟨-, shut⟩ := bad
        · exact .inl (by rw [st]; decide)
        · exact .inl (by rw [st]; decide)
        · exact .inl (by rw [st]; decide)
        · exact .inr (closed shut)
      obtain ⟨rfl, rfl⟩ | ⟨rfl, rfl⟩ := which
      · exact onModule_same (f := doKrfTake q) ((doKrfTake_bad start moving refused).trans (badStart_ended start)) (ended_watched ..)
      · exact onModule_same (f := doKrfRestore q host) ((doKrfRestore_bad start moving host (refused.imp_left And.right)).trans
          (badStart_ended start)) (ended_watched ..)
    · have opens := (s.m.kerfOpen_iff p y.map).2 open_
      exact onModule_same (f := doKrfRestore q host) (doKrfRestore_offline start st opens host down) (ended_watched ..)
    · intro list up some_ there r
      have opens := (s.m.kerfOpen_iff p y.map).2 open_
      exact onModule_of (f := doKrfRestore q host) (doKrfRestore_reads start st opens host up some_ there)
  case works =>
    intro x take
    refine ⟨fun waits due => ?_, fun y waits gate passed there running desc => ?_, fun dumps landed settled awake => ⟨fun u bad => ?_,
      fun u good short => ?_, fun u good whole => ?_, fun none_ => ?_⟩⟩
    · exact onModule_of (f := doCut p) ((doCut_cuts take waits due).trans (cutNow_eq take))
    · refine completes_of (f := doQuietTimeout p) rfl ?_
      obtain ⟨_, _, _, _, irq⟩ := settleIrq_only s.m.watched (doQuietTimeout p s.m)
      rw [irq]
      have fails := doQuietTimeout_fails take waits gate passed
      obtain ⟨mine, others, queue⟩ := Module.failTake_took take
      rw [← fails] at mine others queue
      have last := (queue y there running desc).trans (kgetD_kput_self ..)
      exact ⟨mine, others, (congrArg Queue.running last :), (congrArg Queue.todo last :)⟩
    · refine onModule_of (f := doDumpEnd p) ((doDumpEnd_due take dumps landed settled awake).trans ?_)
      rw [bad]
    · refine onModule_of (f := doDumpEnd p) ((doDumpEnd_due take dumps landed settled awake).trans ?_)
      rw [good, short]
      rfl
    · intro tiles m1 m2
      refine onModule_of (f := doDumpEnd p) ((doDumpEnd_due take dumps landed settled awake).trans ?_)
      rw [good, whole]
      exact u.dumped_eq p t _
    · unfold Module.dump
      rw [none_]
      rfl

end Sys2Proof.Machine
end
